-- ==== Sys2Proof/Word.lean ====
section
/-! DEFINITION. The word types of the GX3 (spec 00 R4-R6): bytes, 32-bit lane registers, 64-bit scalars and
addresses, and masks of the 32 lanes of a warp (bit l is lane l). -/

namespace Sys2Proof

/-- A byte of memory. -/
abbrev Byte := BitVec 8
/-- One lane's slot of a vector register (R65). -/
abbrev Word := BitVec 32
/-- A scalar register, a special register's value or a virtual address (R22, R42, R170). -/
abbrev Dword := BitVec 64
/-- A set of lanes: bit l is lane l (R22 `%active`). -/
abbrev Mask := BitVec 32
/-- The five sticky floating-point flags: NV 0, DZ 1, OF 2, UF 3, IX 4 (R82). -/
abbrev Flags5 := BitVec 5
/-- An instruction word or clause header (R36). -/
abbrev Word96 := BitVec 96

end Sys2Proof
end

