-- ==== Sys2Proof/Syntax.lean ====
section
/-! DEFINITION. The instructions and events of the GX3 as syntax: one constructor of `Instr` for each row of
spec/opcode_table.json. The first 140 are instruction words (R57); the others are the indivisible events of the
device's agents, with the data that their agent supplies as arguments. -/

namespace Sys2Proof

/-- A register number of an operand field, by class (R40). -/
inductive Reg where
  | v (n : Fin 768)      -- vector
  | s (n : Fin 64)       -- scalar
  | q (n : Fin 24)       -- queue q0-q23
  | qr (n : Fin 8)       -- q24-q31, reserved
  | sp (n : Fin 16)      -- special registers 864-879 (R22)
  | p (n : Fin 8)        -- predicate
  | bad (n : Fin 136)    -- 888-1023, no register
deriving DecidableEq, Repr, Inhabited

/-- TYPE codes of R39 (14 and 15 are reserved and never decode). -/
inductive Ty where
  | i8 | i16 | i32 | i64 | n8 | n16 | n32 | n64 | f16 | b16 | f32 | f64 | nf | mx
deriving DecidableEq, Repr, Inhabited

/-- Rounding modes of R79. -/
inductive Rm where
  | rne | rz | ru | rd | sr
deriving DecidableEq, Repr, Inhabited

/-- Agent scopes of R16; 7 is no scope. -/
inductive Scope where
  | warp | core | quad | die | pkg | pod | sys
deriving DecidableEq, Repr, Inhabited

/-- Orderings of R203. -/
inductive Order where
  | rlx | acq | rel | ar
deriving DecidableEq, Repr, Inhabited

/-- Integer comparisons of R107. -/
inductive Cond where
  | eq | ne | lt | le | gt | ge
deriving DecidableEq, Repr, Inhabited

/-- Float comparisons of R118: ordered, unordered forms, NUM and NAN. -/
inductive FCond where
  | rel (c : Cond) | relU (c : Cond) | num | nan
deriving DecidableEq, Repr, Inhabited

/-- PSET operations of R108. -/
inductive POp where
  | and | or | xor | andn
deriving DecidableEq, Repr, Inhabited

/-- FFLAGS operations of R128. -/
inductive FfOp where
  | read | clear | set | write
deriving DecidableEq, Repr, Inhabited

/-- SHFL modes of R131. -/
inductive ShMode where
  | idx | up | down | xor
deriving DecidableEq, Repr, Inhabited

/-- VOTE operations of R132. -/
inductive VoteOp where
  | all | any | uni | ballot
deriving DecidableEq, Repr, Inhabited

/-- REDUX and SCAN operations of R134. -/
inductive RedOp where
  | add | min | max | and | or | xor
deriving DecidableEq, Repr, Inhabited

/-- LANEMASK kinds of R135. -/
inductive LmKind where
  | eq | lt | le | gt | ge
deriving DecidableEq, Repr, Inhabited

/-- Atomic operations of R214. -/
inductive AOp where
  | add | min | max | and | or | xor | exch
deriving DecidableEq, Repr, Inhabited

/-- The second source: a register, or X under IMM (R38, R39). -/
inductive Src where
  | reg (r : Reg) | imm (x : Word)
deriving DecidableEq, Repr, Inhabited

/-- Guard and hint bits that every word of warp code carries (R36, R45-R49). -/
structure Ctl where
  gneg   : Bool
  gpred  : Fin 8
  stall  : Fin 16
  yld    : Bool
  reuseA : Bool
  reuseB : Bool
  setsel : Bool
deriving DecidableEq, Repr, Inhabited

/-- D, A and B with IMM allowed. -/
structure Alu3 where
  c  : Ctl
  ty : Ty
  d  : Reg
  a  : Reg
  b  : Src
deriving DecidableEq, Repr, Inhabited

/-- D, A and B, registers only. -/
structure AluR where
  c  : Ctl
  ty : Ty
  d  : Reg
  a  : Reg
  b  : Reg
deriving DecidableEq, Repr, Inhabited

/-- D and A. -/
structure Alu2 where
  c  : Ctl
  ty : Ty
  d  : Reg
  a  : Reg
deriving DecidableEq, Repr, Inhabited

/-- D, A, B and the third source C of X[9:0] (R38). -/
structure Alu4 where
  c  : Ctl
  ty : Ty
  d  : Reg
  a  : Reg
  b  : Reg
  e  : Reg
deriving DecidableEq, Repr, Inhabited

/-- The address fields of LD, ST, LDQ and NLDC: base A, index B, offset X, with the layout of R203. -/
structure MemOp where
  c     : Ctl
  ty    : Ty
  sp    : Bool
  scope : Scope
  ord   : Order
  d     : Reg
  a     : Reg
  b     : Reg
  off   : Word
deriving DecidableEq, Repr, Inhabited

/-- PRF and CWB: base, index, offset (R212, R222). -/
structure HintOp where
  c   : Ctl
  sp  : Bool
  a   : Reg
  b   : Reg
  off : Word
deriving DecidableEq, Repr, Inhabited

/-- The atomics: address A with a 28-bit offset, operand B (R202-R204). -/
structure AtomOp where
  c     : Ctl
  ty    : Ty
  sp    : Bool
  scope : Scope
  ord   : Order
  a     : Reg
  b     : Reg
  off   : BitVec 28
deriving DecidableEq, Repr, Inhabited

/-- The common layout of X of the matrix commands (R325). -/
structure MxOp where
  c     : Ctl
  acc   : Fin 32
  ha    : Fin 16
  hb    : Fin 16
  count : Fin 32
  baren : Bool
  barq  : Bool
  bar   : Fin 16
deriving DecidableEq, Repr, Inhabited

/-- A 16-bit immediate amount or a register (SEMINC, R280). -/
inductive Amt16 where
  | reg (r : Reg) | imm (n : BitVec 16)
deriving DecidableEq, Repr, Inhabited

/-- An index register of the access slice, or X (R148). -/
inductive XSrc where
  | x (n : Fin 16) | imm (v : Word)
deriving DecidableEq, Repr, Inhabited

/-- Kinds of directory request (R251, R252). -/
inductive DirKind where
  | read | own | upgrade
deriving DecidableEq, Repr, Inhabited

/-- A PCIe AtomicOp of the host (R217, R240). -/
inductive HostAtom where
  | add (v : Nat) | swap (v : Nat) | cas (cmp v : Nat)
deriving DecidableEq, Repr, Inhabited

/-- A host request to device memory or to an on-chip window (R240, R402): a read, a write or an AtomicOp of `size` bytes at a device
physical address, with the PASID prefix of a BAR2 request where it has one, or an access by which the host takes
a copy of a line (R258). -/
inductive HostReq where
  | read (pa : Nat) (size : Nat) (pasid : Option (BitVec 20))
  | write (pa : Nat) (data : List Byte) (pasid : Option (BitVec 20))
  | atomic (pa size : Nat) (op : HostAtom) (pasid : Option (BitVec 20))
  | cache (pa : Nat) (modified : Bool)
deriving DecidableEq, Repr, Inhabited

/-- An answer to an ATS Translation Request (R180): what the host grants for the page. -/
structure AtsAnswer where
  pasid : BitVec 20
  va    : Dword
  size  : Nat          -- bytes of the granted range, a power of two
  hpa   : Nat          -- host physical address of its first byte
  rd    : Bool
  w     : Bool
  err   : Bool         -- an ATS error
deriving DecidableEq, Repr, Inhabited

/-- An owner's answer to a status query (R190, R195). -/
inductive TkAnswer where
  | pending | status (n : BitVec 4)
deriving DecidableEq, Repr, Inhabited

/-- Where the bytes of a declared range come from (R461). -/
inductive FillSource where
  | zero | device (va : Dword) | host (hpa : Nat)
deriving DecidableEq, Repr, Inhabited

/-- System software's mapping requests to Bammar (R199, R336, R461). -/
inductive MapReq where
  | declare (pasid : BitVec 20) (va : Dword) (bytes : Nat) (unt rd w x big : Bool) (src : FillSource)
  | undeclare (pasid : BitVec 20) (va : Dword)
  | setLeaf (pasid : BitVec 20) (va : Dword) (level : Fin 3) (entry : Dword) (force : Bool)
  | unmap (pasid : BitVec 20) (va : Dword)
  | share (pasid : BitVec 20) (host : Bool)          -- the space is, or is not, shared with a host process (R171)
deriving DecidableEq, Repr, Inhabited

/-- What a reset finds: the strapped mode, the trained host link, the root port's allotment, the pod's assignment
and clock, and the firmware image the flash holds (R401, R403, R451). -/
structure ResetIn where
  cxl     : Bool
  width   : Fin 4
  speed   : Fin 4
  pasidEn : Bool
  atsEn   : Bool
  priEn   : Bool
  priCred : BitVec 12
  pod     : Option (BitVec 16 × Fin 16 × Dword)   -- pod id, %pkg, the pod's clock
  image   : Option (List Byte)                    -- an image the host left in the load window (R453)
  links   : List (Fin 15 × Byte × Fin 3 × BitVec 128) -- the pod ports that train: port, lanes, speed, the peer's view record (R417)
deriving DecidableEq, Repr, Inhabited

/-- Names one end-to-end stream: SRC, DPKG, CLASS (R414). -/
structure StreamId where
  src  : BitVec 16
  dpkg : BitVec 4
  cls  : BitVec 3
deriving DecidableEq, Repr, Inhabited

/-- Where a soft error strikes (R85). -/
inductive Granule where
  | mem (pa : Nat)                               -- HBM, by any byte of the 64-B unit
  | l1 (core : Nat) (line : Nat) (upper : Bool)  -- half of an L1 line
  | ob (core : Nat) (unit : Nat)                 -- an operand-buffer unit of 64 B
  | acc (core : Nat) (elem : Nat)
  | vreg (core : Nat) (index : Nat)              -- physical warp-register times 32 plus lane
  | sreg (core slot : Nat) (n : Fin 64)
  | spad (core : Nat) (unit : Nat)
  | l2 (die : Fin 4) (line : Nat) (upper : Bool) -- half of a die's L2 copy of a line
deriving DecidableEq, Repr, Inhabited

/-- One placement of a gang: die, quad and lowest core, and the context areas that Bammar allots for its warps,
the first frame address and its physical address, 4 KiB apart from warp to warp (R152, R370, R385). -/
structure Place where
  die  : Fin 4
  quad : Fin 24
  c0   : Fin 4
  ctxVa : Dword
  ctxPa : Nat
deriving DecidableEq, Repr, Inhabited

/-- The readings of R455: the junction temperature of each die and of each HBM stack, the current and the power of each rail (VCORE0-3,
VMEM, VSERDES, VAUX), the coolant temperatures. -/
structure Reading where
  dieTemp : Vector Nat 4
  hbmTemp : Vector Nat 12
  current : Vector Nat 7
  power   : Vector Nat 7
  inlet   : Nat
  outlet  : Nat
deriving DecidableEq, Repr, Inhabited

/-- The instructions and events, in the order of spec/opcode_table.json. -/
inductive Instr where
  -- integer and address (R99-R112)
  | iadd (o : Alu3) (sat : Bool)
  | isub (o : Alu3) (sat : Bool)
  | imul (o : Alu3) (sat : Bool)
  | imulhi (o : Alu3)
  | imad (o : Alu4) (sat : Bool)
  | idiv (o : Alu3)
  | irem (o : Alu3)
  | imin (o : Alu3)
  | imax (o : Alu3)
  | iabs (o : Alu2) (sat : Bool)
  | ineg (o : Alu2) (sat : Bool)
  | land (o : Alu3)
  | lor (o : Alu3)
  | lxor (o : Alu3)
  | landn (o : Alu3)
  | lnot (o : Alu2)
  | shl (o : Alu3)
  | shr (o : Alu3)
  | sar (o : Alu3)
  | rol (o : Alu3)
  | bfx (o : Alu3)
  | bfi (o : Alu4)
  | popc (o : Alu2)
  | clz (o : Alu2)
  | ctz (o : Alu2)
  | brev (o : Alu2)
  | prmt (o : Alu3) (e : Option Reg)
  | iset (o : Alu3) (k : Cond)
  | pset (c : Ctl) (k : POp) (d a b : Reg)
  | sel (o : Alu3) (sp : Fin 8) (sneg : Bool)
  | mov (o : Alu2)
  | movi (c : Ctl) (ty : Ty) (hi : Bool) (d : Reg) (x : Word)
  | lea (o : AluR) (scale : Fin 5) (bsx : Bool) (x : Word)
  -- floating point (R114-R128)
  | fadd (o : Alu3) (rm : Rm)
  | fsub (o : Alu3) (rm : Rm)
  | fmul (o : Alu3) (rm : Rm)
  | ffma (o : Alu4) (rm : Rm)
  | fmin (o : Alu3)
  | fmax (o : Alu3)
  | fset (o : Alu3) (k : FCond)
  | fclass (o : Alu2) (x : Word)
  | frcp (o : Alu2) (rm : Rm)
  | frsq (o : Alu2) (rm : Rm)
  | fsqrt (o : Alu2) (rm : Rm)
  | fdiv (o : Alu3) (rm : Rm)
  | fexp2 (o : Alu2)
  | flog2 (o : Alu2)
  | fsin (o : Alu2)
  | fcos (o : Alu2)
  | ftanh (o : Alu2)
  | frnd (o : Alu2) (rm : Rm) (exact : Bool)
  | cvt (o : Alu2) (rm : Rm) (sat : Bool) (seed : Option Reg) (st : Ty) (desc : BitVec 20)
  | fdot2 (o : AluR) (rm : Rm)
  | fdot4 (o : AluR) (rm : Rm) (nfd : BitVec 19)
  | fscale (o : AluR) (rm : Rm)
  | fflags (c : Ctl) (k : FfOp) (d : Option Reg) (b : Src)
  -- cross-lane (R129-R135)
  | shfl (o : Alu3) (k : ShMode) (seg : Fin 6)
  | vote (c : Ctl) (k : VoteOp) (d a : Reg)
  | matchv (o : Alu2) (all : Bool)
  | redux (o : Alu2) (k : RedOp) (rm : Rm)
  | scan (o : Alu2) (k : RedOp) (excl : Bool) (rm : Rm)
  | lanemask (c : Ctl) (k : LmKind) (d : Reg)
  -- control (R157-R168)
  | bra (c : Ctl) (off : Word)
  | brd (c : Ctl) (a : Reg) (pneg : Bool) (off : Word)
  | brx (c : Ctl) (a : Reg)
  | call (c : Ctl) (d : Reg) (off : Word)
  | callx (c : Ctl) (d a : Reg)
  | ret (c : Ctl) (a : Reg)
  | retTr (c : Ctl)
  | exit (c : Ctl)
  | yield (c : Ctl) (n : BitVec 16)
  | nop (c : Ctl)
  | waitc (c : Ctl) (m : BitVec 12)
  | ligon (c : Ctl) (a : Reg) (b : Option Reg)
  | ligmap (c : Ctl) (path : Fin 4) (slot : Fin 16) (a b : Reg)
  | ligoff (c : Ctl)
  | trap (c : Ctl) (code : Word)
  | svc (c : Ctl) (a : Reg) (count : Fin 16)
  | brkpt (c : Ctl) (code : Word)
  -- memory (R202-R224)
  | ld (m : MemOp)
  | st (m : MemOp)
  | ldq (m : MemOp)
  | prf (o : HintOp) (l2 : Bool)
  | atom (o : AtomOp) (k : AOp) (d : Reg)
  | red (o : AtomOp) (k : AOp)
  | cas (o : AtomOp) (d : Reg)
  | cas2 (o : AtomOp) (d : Reg)
  | atomr (o : AtomOp) (k : AOp) (d : Reg)
  | fence (c : Ctl) (scope : Scope) (ord : Order) (st : BitVec 7) (path : BitVec 5)
  | lease (c : Ctl) (n : BitVec 8)
  | cwb (o : HintOp) (flush : Bool)
  | tkwait (c : Ctl)
  | tkstat (c : Ctl) (d : Reg)
  -- sync (R280, R281)
  | semset (c : Ctl) (scope : Scope) (a : Reg) (n : BitVec 6)
  | seminc (c : Ctl) (scope : Scope) (a : Amt16) (n : BitVec 6)
  | semwait (c : Ctl) (dec : Bool) (d : Option Reg) (a : Reg) (n : BitVec 6)
  | barinit (c : Ctl) (level : Scope) (rmt : Bool) (a : Reg) (n : BitVec 6)
  | bararr (c : Ctl) (level : Scope) (d : Option Reg) (n : BitVec 6) (count : BitVec 10)
  | barwait (c : Ctl) (level : Scope) (a : Reg) (n : BitVec 6)
  | rbararr (c : Ctl) (scope : Scope) (a : Reg) (n : BitVec 4) (count : BitVec 10)
  | cmset (c : Ctl) (scope : Scope) (a : Reg) (m : BitVec 4) (g : BitVec 3)
  | cmclr (c : Ctl) (scope : Scope) (a : Reg) (m : BitVec 4) (g : BitVec 3)
  | cmwait (c : Ctl) (any : Bool) (a : Reg) (m : BitVec 4) (g : BitVec 3)
  -- copy (R296-R302)
  | cpchain (c : Ctl) (ch : Fin 4) (a : Reg)
  | tcopy (c : Ctl) (ch : Fin 4) (a : Reg)
  | cpstat (c : Ctl) (ch : Fin 4) (clr : Bool) (d : Reg)
  | cpabort (c : Ctl) (ch : Fin 4)
  | rwopen (c : Ctl) (slot : Fin 4) (d : Reg) (f n : BitVec 10)
  | rwclose (c : Ctl) (slot : Fin 4)
  -- matrix (R325-R327)
  | obres (c : Ctl) (res : Fin 16) (d a : Reg)
  | obfree (c : Ctl) (res : Fin 16)
  | obset (c : Ctl) (res : Fin 16) (a : Reg)
  | thand (c : Ctl) (h res : Fin 16) (col unbind : Bool) (a b : Reg)
  | mma (o : MxOp)
  | mmas (o : MxOp)
  | accz (o : MxOp)
  | accld (o : MxOp)
  | accdrain (o : MxOp) (rm : Rm) (sat : Bool) (seed : Option Reg)
  | accmx (o : MxOp) (rm : Rm) (seed : Option Reg)
  | mxstat (c : Ctl) (sel : Fin 4) (clr : Bool) (d : Reg)
  -- nib (R350-R355)
  | nbind (c : Ctl) (nib : Fin 4) (a : Reg) (semen : Bool) (sem : BitVec 6)
  | nunbind (c : Ctl) (nib : Fin 4)
  | ngrant (c : Ctl) (nib : Fin 4) (rdr : Bool) (a : Reg) (count : Fin 16)
  | nstat (c : Ctl) (nib : Fin 4) (sel : Fin 3) (clr : Bool) (d : Reg) (a : Option Reg)
  | nldc (m : MemOp)
  | nabort (c : Ctl) (nib : Fin 4) (a : Option Reg)
  -- access slice (R148)
  | amov (d : Fin 16) (a : XSrc)
  | aadd (d a : Fin 16) (b : XSrc)
  | aloop (a : Fin 16) (off : Word)
  | aldq (q a b : Fin 16) (off : Word)
  | astq (q a b : Fin 16) (off : Word)
  | aend
  -- system (R397-R399)
  | csrr (c : Ctl) (d : Reg) (n : BitVec 12)
  | csrw (c : Ctl) (a : Reg) (n : BitVec 12)
  | tlbinv (c : Ctl) (kind : Fin 3) (pkg : Bool) (a : Option Reg) (pasid : BitVec 20)
  | rmapinv (c : Ctl) (a : Reg) (count : BitVec 16)
  | ctxsave (c : Ctl) (d a : Reg) (slot : BitVec 5)
  | ctxload (c : Ctl) (d a : Reg)
  | dbghalt (c : Ctl)
  | dbgres (c : Ctl)
  -- issue, frontier and traps
  | clauseFetch (core slot : Nat)
  | stallExpiry (core slot : Nat)
  | yieldHoldExpiry (core slot : Nat)
  | watchdog (core slot : Nat)
  | frontierSpill (core slot : Nat)
  | frontierRefill (core slot : Nat)
  | spilledMerge (core slot : Nat)
  | frontierSpillFault (core slot : Nat) (repair : Bool)
  | trapEntry (core slot : Nat)
  | trapEscalation (core slot : Nat)
  | longLatencyComplete (core slot op : Nat)
  | storeAck (core slot id : Nat)
  -- translation and tickets
  | faultTicket (core miss : Nat)
  | busyRetry (core miss : Nat)
  | pageService (die index : Nat)
  | replayNotice (core : Nat) (tid : Word)
  | ticketFailure (core : Nat) (tid : Word) (status : BitVec 4)
  | pageHoldExpiry (die index : Nat)
  | ticketStatusQuery (core : Nat) (tid : Word)
  | linklostTimeout (core : Nat) (tid : Word)
  | ticketQueryAnswer (core : Nat) (tid : Word) (ans : TkAnswer)
  | atsTranslationRequest (die : Nat)
  | atsCompletion (die : Nat) (ans : AtsAnswer)
  | priPageRequest (die : Nat)
  | prgSuccess (die group : Nat)
  | prgInvalidRequest (die group : Nat)
  | prgResponseFailure (die group : Nat)
  | priStopMarker (pasid : BitVec 20)
  | atsInvalidateRequest (pasid : BitVec 20) (va : Dword) (size : Nat)
  | globalInvalidate (va : Dword) (size : Nat)
  -- coherence
  | idleAdvance (core : Nat)
  | ltlimAdvance (die : Nat)
  | heldWriteRelease (die : Nat)
  | scrubVisit (die : Nat)
  | l2Eviction (die line : Nat)
  | directoryRequest (die line : Nat) (kind : DirKind)
  | directoryRetry (die line : Nat)
  | goMessage (line : Nat)
  | reservationTimeout (line : Nat)
  | writeback (die line : Nat)
  | forward (line : Nat)
  | invalidation (die line : Nat)
  | backInvalidateSnoop (line : Nat)
  | hostAccess (r : HostReq)
  | cxlCacheSnoop (hpa : Nat)
  -- sync unit, copy channels, matrix engine
  | barrierArrival (index : Nat)
  | syncWrite (core : Nat)
  | copyRecordRead (core ch : Nat)
  | copyRow (core ch row : Nat)
  | chunkSignal (core ch chunk : Nat)
  | recordCompletion (core ch : Nat)
  | inboundWindowWrite (core : Nat)
  | matrixEntryStart (core : Nat) (drain : Bool)
  | matrixEntryComplete (core : Nat) (drain : Bool)
  | governorRelease (core : Nat)
  -- nibs
  | nbindComplete (core nib : Nat)
  | strokeStore (core : Nat)
  | strokeLoad (core : Nat)
  | fillLimitExpiry (core nib slot : Nat)
  | nibPass (core : Nat)
  | nibApplicationDone (core : Nat)
  | traceLoad (core : Nat)
  | waitLimitExpiry (core nib index : Nat)
  | consume (core : Nat)
  -- graphs and placement
  | submit (die : Nat)
  | gangPlacement (graph node : Nat) (p : Place)
  | gridPlacement (graph node : Nat) (ps : List Place)
  | placementWaitExpiry (graph node : Nat) (quads : List (Fin 4 × Fin 24))
  | workgroupRetirement (core wg : Nat)
  | taskRetirement (graph node : Nat)
  | successorDecrement (die : Nat)
  | condNode (graph node : Nat)
  | whileNode (graph node : Nat)
  -- scribe services
  | mailboxServe (core : Nat)
  | alloc (die : Nat)
  | free (die : Nat)
  | hostmsg (core : Nat)
  | abort (core : Nat)
  | systemCallRing (die : Nat)
  | svcReply (core : Nat)
  -- host messages
  | preempt
  | arenaRegister
  | arenaRemove
  | rootcap
  | twinConfigure
  | twinDissolve
  | mode
  | modeChange (func : Fin 5)
  | podbarAllot
  | podbarRelease
  | h2dBell (v : Word)
  | h2dEntryRecheck
  | h2dRingConfig (size : Bool) (v : Dword)
  | d2hRingConfig (size : Bool) (v : Dword)
  | d2hAck (v : Word)
  | d2hWrite
  | hostLinkLoss (unacked : Nat)
  | hostLinkReturn (width speed : Fin 4)
  -- pod links
  | flitReceive (port : Fin 15) (flit : BitVec 2048)
  | nak (port : Fin 15) (lseq : BitVec 12)
  | endToEndAck (st : StreamId) (eseq : Word)
  | endToEndAckTimer (st : StreamId)
  | endToEndResend (st : StreamId)
  | retrain (port : Fin 15) (lanes : Byte) (speed : Fin 3)
  | linkView (port : Fin 15) (rec : BitVec 128)
  | viewAck (port : Fin 15) (crcs : BitVec 128)
  | viewTimeout (port : Fin 15)
  | podLinkDown (port : Fin 15)
  | dirtyLineOffer (die line : Nat)
  | dirtyLineDrop (die line : Nat)
  | homeLinePoison (line : Nat)
  | unreachableAccessTimeout (index : Nat)
  -- twins
  | digestReceive (pasid : BitVec 20) (agent : Nat) (batch : Nat) (digest : Dword)
  | partnerLostTimeout (pasid : BitVec 20)
  | outsideReadData (index : Nat) (data : List Byte)
  -- device
  | reset (r : ResetIn)
  | govbDecrease (die : Fin 4)
  | govbIncrease (die : Fin 4)
  | thermalTrip (die : Fin 4)
  | sensorRefresh (r : Reading)
  | getVersion
  | getCapabilities
  | negotiateAlgorithms (asym hash : Word)
  | getDigests
  | getCertificate (slot : Fin 8) (offset length : BitVec 16)
  | challenge (slot : Fin 8) (nonce : BitVec 256)
  | getMeasurements (index : Byte)
  | spdmUnsupportedRequest (code : Byte)
  | errstatRead
  | a2dBell (v : Word)
  | d2aAck (v : Word)
  | faultans
  | readyans
  | allocans
  | viewans
  | viewAnswerTimeout (port : Fin 15)
  | containans
  | assistRequestWrite
  | registerWrite (off : BitVec 12) (v : Dword)
  | bisnpResponse (line : Nat) (dirty : Option (BitVec 1024))
  | uncorrectableSoftError (g : Granule)
  | singleBitEccRepair (source : BitVec 16) (pa : Nat)
  | dieToDieRingFailure
  | directoryUncorrectableError (die : Fin 4)
  | mappingRequest (r : MapReq)
  | addressSpaceDestruction (pasid : BitVec 20)
  | nibBindRequest (core : Nat) (nib : Fin 4) (pasid : BitVec 20) (va : Dword) (cls : Fin 4)
  | yieldCcHoldExpiry (core slot : Nat)
deriving DecidableEq, Repr

end Sys2Proof
end

