-- ==== Sys2Proof/Machine/Formats.lean ====
section
/-! DEFINITION. The number formats of the GX3 (spec 04): the standard formats, narrow formats, MX blocks, exact
values, and the one rounding `round` of R80 with the modes of R79 and the stochastic generator of R81. -/

/-- The Emax of an element format whose only finite value is 0 (R72, R78; log 79). -/
opaque Sys2Proof.Config.noEmax : Int

namespace Sys2Proof.Machine

/-- A floating-point or fixed-point format: the fields of an NFD (R69); the standard formats are the IEEE-like
ones with subnormals, whose NaNs may signal (R66). -/
structure Fmt where
  s     : Bool      -- a sign bit is present
  e     : Nat       -- exponent bits; 0 is fixed point
  m     : Nat       -- mantissa bits
  bias  : Int
  spec  : Nat       -- 0 IEEE-like, 1 NaN-only, 2 finite-only
  sub   : Bool
  quiet : Bool      -- every NaN is quiet (R72)
deriving DecidableEq, Repr, Inhabited

def Fmt.width (f : Fmt) : Nat := (if f.s then 1 else 0) + f.e + f.m

def fmtF64 : Fmt := ⟨true, 11, 52, 1023, 0, true, false⟩
def fmtF32 : Fmt := ⟨true, 8, 23, 127, 0, true, false⟩
def fmtF16 : Fmt := ⟨true, 5, 10, 15, 0, true, false⟩
def fmtB16 : Fmt := ⟨true, 8, 7, 127, 0, true, false⟩

/-- The format of the float TYPEs 8-11 (R66). -/
def Ty.fmt? : Ty → Option Fmt
  | .f16 => some fmtF16 | .b16 => some fmtB16 | .f32 => some fmtF32 | .f64 => some fmtF64
  | _ => none

/-- The fields of NFD bits [18:0] (R69). -/
def nfdFmt (n : BitVec 19) : Fmt :=
  { s := n.getLsbD 0, e := (n.extractLsb' 1 3).toNat, m := (n.extractLsb' 4 3).toNat,
    bias := (n.extractLsb' 8 8).toInt, spec := (n.extractLsb' 16 2).toNat, sub := n.getLsbD 18, quiet := true }

/-- An NFD's validity (R71), over bits [18:0]. -/
def nfdValid (n : BitVec 19) : Bool :=
  let f := nfdFmt n
  2 ≤ f.width && f.width ≤ 8 && !n.getLsbD 7 && f.spec != 3 &&
  (f.e != 0 || (f.spec == 2 && !f.sub)) && (f.spec != 0 || (2 ≤ f.e && 1 ≤ f.m))

/-- An MXD of 20 bits is valid when its element format is (R77). -/
def mxdValid (n : BitVec 20) : Bool := nfdValid (n.extractLsb' 0 19)
/-- Block length of an MXD (R77). -/
def mxdBlk (n : BitVec 20) : Nat := if n.getLsbD 19 then 16 else 32

/-! ### Exact values -/

/-- The magnitude `(num/den) * 2^exp`, or its square root when `root` is set. -/
structure Mag where
  num  : Nat
  den  : Nat
  exp  : Int
  root : Bool
deriving DecidableEq, Repr, Inhabited

/-- An exact value before rounding (R80): a NaN, an infinity, or a signed magnitude. -/
inductive Val where
  | nan (sig : Bool)
  | inf (neg : Bool)
  | fin (neg : Bool) (m : Mag)
deriving DecidableEq, Repr, Inhabited

def Mag.dy (n : Nat) (k : Int) : Mag := ⟨n, 1, k, false⟩
def Mag.isZero (m : Mag) : Bool := m.num == 0
def Val.zero (neg : Bool) : Val := .fin neg (.dy 0 0)

def Val.isNan : Val → Bool
  | .nan _ => true
  | _ => false
def Val.isSnan : Val → Bool
  | .nan s => s
  | _ => false
def Val.neg? : Val → Bool
  | .nan _ => false
  | .inf n => n
  | .fin n _ => n
def Val.isZero : Val → Bool
  | .fin _ m => m.isZero
  | _ => false
def Val.negate : Val → Val
  | .nan s => .nan s
  | .inf n => .inf (!n)
  | .fin n m => .fin (!n) m

/-- Integer square root by bits from 2^k down. -/
def isqrtGo (a : Nat) : Nat → Nat → Nat
  | 0, r => r
  | k + 1, r => let r' := r + 2 ^ k; isqrtGo a k (if r' * r' ≤ a then r' else r)
def isqrt (a : Nat) : Nat := isqrtGo a (a.log2 / 2 + 1) 0

/-- `floor(m * 2^k)` and whether that dropped anything. -/
def Mag.scaled (m : Mag) (k : Int) : Nat × Bool :=
  let e := if m.root then m.exp + 2 * k else m.exp + k
  let n := if 0 ≤ e then m.num * 2 ^ e.toNat else m.num
  let d := if 0 ≤ e then m.den else m.den * 2 ^ (-e).toNat
  let q := n / d
  let r := n % d != 0
  if m.root then let t := isqrt q; (t, t * t != q || r) else (q, r)

/-- `floor(log2 m)` for a nonzero magnitude. -/
def Mag.ilog2 (m : Mag) : Int :=
  let l : Int := (m.num.log2 : Int) - (m.den.log2 : Int) + m.exp
  let m0 := { m with root := false }
  let l := if 1 ≤ (m0.scaled (-l)).1 then l else l - 1
  if m.root then l.fdiv 2 else l

/-- The value of a code (R66, R72, R73). Codes are taken modulo the format's width. -/
def Fmt.value (f : Fmt) (code : Nat) : Val :=
  if f.e == 0 then
    let c := code % 2 ^ f.width
    if f.s && 2 ^ f.m ≤ c then .fin true (.dy (2 ^ (f.m + 1) - c) (-f.bias)) else .fin false (.dy c (-f.bias))
  else
    let mant := code % 2 ^ f.m
    let ex := code / 2 ^ f.m % 2 ^ f.e
    let neg := f.s && code / 2 ^ (f.e + f.m) % 2 == 1
    let top := ex == 2 ^ f.e - 1
    if f.spec == 0 && top then
      if mant == 0 then .inf neg else .nan (!f.quiet && mant / 2 ^ (f.m - 1) == 0)
    else if f.spec == 1 && top && mant == 2 ^ f.m - 1 then .nan false
    else if ex == 0 then
      if f.sub then .fin neg (.dy mant (1 - f.bias - f.m)) else .zero neg
    else .fin neg (.dy (2 ^ f.m + mant) (ex - f.bias - f.m))

/-- The NaN code written (R66, R72); 0 where the format has none. -/
def Fmt.nanCode (f : Fmt) : Nat :=
  if f.e == 0 || f.spec == 2 then 0
  else if f.spec == 1 then 2 ^ f.width - 1
  else (2 ^ f.e - 1) * 2 ^ f.m + 2 ^ (f.m - 1)

def Fmt.hasNan (f : Fmt) : Bool := f.e != 0 && f.spec != 2
def Fmt.hasInf (f : Fmt) : Bool := f.e != 0 && f.spec == 0

/-- The code, without its sign, of max finite (R72, R73). -/
def Fmt.maxCode (f : Fmt) : Nat :=
  if f.e == 0 then 2 ^ f.m - 1
  else if f.spec == 0 then (2 ^ f.e - 1) * 2 ^ f.m - 1
  else if f.spec == 1 then 2 ^ (f.e + f.m) - 2
  else 2 ^ (f.e + f.m) - 1

/-- Puts a sign on a magnitude code. -/
def Fmt.signed (f : Fmt) (neg : Bool) (c : Nat) : Nat :=
  if !neg || !f.s then c
  else if f.e == 0 then (if c == 0 then 0 else 2 ^ (f.m + 1) - c)
  else 2 ^ (f.e + f.m) + c

/-- Max finite as an exact magnitude. -/
def Fmt.maxMag (f : Fmt) : Mag :=
  match f.value f.maxCode with
  | .fin _ m => m
  | _ => .dy 0 0

/-- Emax (R72): the exponent of the largest power of two that does not exceed max finite. A valid format may have no finite value but 0
(S = 1, E = 1, M = 0, SPEC = 1), for which the spec states none: it is a free value there (log 79). -/
def Fmt.emax (f : Fmt) : Int := if f.maxMag.isZero then Config.noEmax else f.maxMag.ilog2

/-! ### Rounding -/

def flNV : Flags5 := 1#5
def flDZ : Flags5 := 2#5
def flOF : Flags5 := 4#5
def flUF : Flags5 := 8#5
def flIX : Flags5 := 16#5

/-- One step of a lane's stochastic generator (R81). -/
def srStep (g : Word) : Word :=
  let g := g ^^^ (g <<< 13)
  let g := g ^^^ (g >>> 17)
  g ^^^ (g <<< 5)
/-- A seed of 0 loads 1 (R81). -/
def srSeed (g : Word) : Word := if g = 0#32 then 1#32 else g

/-- What a rounding yields: the code, its flags and the generator. -/
structure Rounded where
  code  : Nat
  flags : Flags5
  rng   : Word
deriving DecidableEq, Repr, Inhabited

/-- The exponent of the grid spacing at magnitude `m` (subnormals included), and the code of the point below. -/
def Fmt.grid (f : Fmt) (m : Mag) : Int :=
  if f.e == 0 then -f.bias
  else
    let emin := 1 - f.bias
    let l := if m.isZero then emin else m.ilog2
    (if l < emin then emin else l) - f.m

/-- The magnitude code of `m` rounded by `rm` onto the grid with the exponent range unbounded above, and whether
that moved it (R79, R80); `r` is the draw of R81. -/
def Fmt.roundMag (f : Fmt) (neg : Bool) (m : Mag) (rm : Rm) (r : Word) : Nat × Bool :=
  let u := f.grid m
  let (q, inx) := m.scaled (-u)
  let c : Nat :=
    if f.e == 0 || q < 2 ^ f.m then q else (u + f.m + f.bias).toNat * 2 ^ f.m + (q - 2 ^ f.m)
  let (q2, st2) := m.scaled (1 - u)
  let up : Bool := match rm with
    | .rz => false
    | .ru => inx && !neg
    | .rd => inx && neg
    | .rne => q2 % 2 == 1 && (st2 || c % 2 == 1)
    | .sr => 2 ^ 32 ≤ (m.scaled (32 - u)).1 % 2 ^ 32 + r.toNat
  (if up then c + 1 else c, inx)

/-- Whether overflow goes to infinity in an IEEE-like format (SR as RNE, R80). -/
def overflowsToInf (neg : Bool) : Rm → Bool
  | .rne => true | .sr => true | .rz => false | .ru => !neg | .rd => neg

/-- Round(fmt, x, mode) of R80 for one value, drawing from the generator `g` under SR (R81). -/
def Fmt.round (f : Fmt) (x : Val) (rm : Rm) (g : Word) : Rounded :=
  match x with
  | .nan _ => if f.hasNan then ⟨f.nanCode, 0, g⟩ else ⟨0, flNV, g⟩
  | .inf neg =>
    if neg && !f.s then ⟨0, flNV, g⟩
    else if f.hasInf then ⟨f.signed neg ((2 ^ f.e - 1) * 2 ^ f.m), 0, g⟩
    else ⟨f.signed neg f.maxCode, flNV, g⟩
  | .fin neg m =>
    let g' := if rm = .sr then srStep g else g
    let (c, inx) := f.roundMag neg m rm g'
    let tinyLim := if f.e == 0 then 1 else 2 ^ f.m
    if neg && !f.s then
      if m.isZero then ⟨0, 0, g'⟩
      else if c != 0 then ⟨0, flNV, g'⟩
      else ⟨0, flIX ||| flUF, g'⟩
    else if c > (if f.e == 0 && f.s && neg then 2 ^ f.m else f.maxCode) then
      if f.hasInf && overflowsToInf neg rm then ⟨f.signed neg ((2 ^ f.e - 1) * 2 ^ f.m), flOF ||| flIX, g'⟩
      else ⟨f.signed neg f.maxCode, flOF ||| flIX, g'⟩
    else
      let flush := f.e != 0 && !f.sub && 0 < c && c < 2 ^ f.m
      let ne := inx || flush
      ⟨f.signed neg (if flush then 0 else c),
       (if ne then flIX else 0) ||| (if ne && c < tinyLim then flUF else 0), g'⟩

/-! ### Exact arithmetic on values -/

/-- Exact product (R84: infinity times zero is a NaN that raises invalid). -/
def Val.mul (x y : Val) : Val × Flags5 :=
  match x, y with
  | .nan a, .nan b => (.nan false, if a || b then flNV else 0)
  | .nan a, _ => (.nan false, if a then flNV else 0)
  | _, .nan b => (.nan false, if b then flNV else 0)
  | .inf a, .inf b => (.inf (a != b), 0)
  | .inf a, .fin b m => if m.isZero then (.nan false, flNV) else (.inf (a != b), 0)
  | .fin a m, .inf b => if m.isZero then (.nan false, flNV) else (.inf (a != b), 0)
  | .fin a m, .fin b n => (.fin (a != b) ⟨m.num * n.num, m.den * n.den, m.exp + n.exp, false⟩, 0)

/-- The signed numerator of a dyadic value at exponent `k`, which is at most its own. -/
def dyAt (neg : Bool) (m : Mag) (k : Int) : Int :=
  let n : Int := ((m.num * 2 ^ (m.exp - k).toNat : Nat) : Int)
  if neg then -n else n

/-- Exact sum of two dyadic values; the sign of an exact zero follows R68 (`rd` is the RD mode). -/
def Val.add (x y : Val) (rd : Bool) : Val × Flags5 :=
  match x, y with
  | .nan a, .nan b => (.nan false, if a || b then flNV else 0)
  | .nan a, _ => (.nan false, if a then flNV else 0)
  | _, .nan b => (.nan false, if b then flNV else 0)
  | .inf a, .inf b => if a == b then (.inf a, 0) else (.nan false, flNV)
  | .inf a, .fin _ _ => (.inf a, 0)
  | .fin _ _, .inf b => (.inf b, 0)
  | .fin a m, .fin b n =>
    if m.isZero && n.isZero then (.zero (if a == b then a else rd), 0)
    else
      let k := if m.isZero then n.exp else if n.isZero then m.exp else if m.exp ≤ n.exp then m.exp else n.exp
      let s := (if m.isZero then 0 else dyAt a m k) + (if n.isZero then 0 else dyAt b n k)
      if s == 0 then (.zero rd, 0) else (.fin (s < 0) (.dy s.natAbs k), 0)

/-- The exact sum of values, none of them infinite or a NaN. -/
def sumFin : List Val → Val
  | [] => .zero false
  | [x] => x
  | x :: t => (x.add (sumFin t) false).1
/-- THE EXACT SUM of some products with what they raise (R84): one that holds both infinities is a NaN and raises invalid, whatever else
it holds; a NaN product makes it a NaN. -/
def exactSum (ps : List (Val × Flags5)) : Val × Flags5 :=
  let fl := ps.foldl (fun (f : Flags5) p => f ||| p.2) 0#5
  let has := fun (n : Bool) => ps.any fun p => p.1 == .inf n
  if has false && has true then (.nan false, fl ||| flNV)
  else if ps.any (·.1.isNan) then (.nan false, fl)
  else if has false || has true then (.inf (has true), fl)
  else (sumFin (ps.map (·.1)), fl)
/-- A product of two elements; of two integers, whose zero has no sign, a zero is +0 (R73, R84; log 92). -/
def prodOf (int : Bool) (x y : Val) : Val × Flags5 :=
  let r := x.mul y
  if int && r.1.isZero then (.zero false, r.2) else r

/-- Exact quotient (R116): the flags are DZ, NV or none. -/
def Val.div (x y : Val) : Val × Flags5 :=
  match x, y with
  | .nan a, .nan b => (.nan false, if a || b then flNV else 0)
  | .nan a, _ => (.nan false, if a then flNV else 0)
  | _, .nan b => (.nan false, if b then flNV else 0)
  | .inf _, .inf _ => (.nan false, flNV)
  | .inf a, .fin b _ => (.inf (a != b), 0)
  | .fin a _, .inf b => (.zero (a != b), 0)
  | .fin a m, .fin b n =>
    if n.isZero then
      if m.isZero then (.nan false, flNV) else (.inf (a != b), flDZ)
    else (.fin (a != b) ⟨m.num * n.den, m.den * n.num, m.exp - n.exp, false⟩, 0)

/-- Whether |x| < |y| for dyadic magnitudes. -/
def Mag.lt (m n : Mag) : Bool :=
  let k := if m.exp ≤ n.exp then m.exp else n.exp
  m.num * 2 ^ (m.exp - k).toNat < n.num * 2 ^ (n.exp - k).toNat

/-- Numeric order of two values that are no NaN: -1, 0 or 1; zeros are equal (R118). -/
def Val.cmp (x y : Val) : Int :=
  let rank : Val → Int := fun v => match v with
    | .inf true => -2 | .fin n m => if m.isZero then 0 else if n then -1 else 1 | .inf false => 2 | .nan _ => 0
  let a := rank x
  let b := rank y
  if a < b then -1 else if b < a then 1
  else match x, y with
    | .fin n m, .fin _ o =>
      if m.isZero then 0 else if m.lt o then (if n then 1 else -1) else if o.lt m then (if n then -1 else 1) else 0
    | _, _ => 0

/-- The value of an integer. -/
def Val.ofInt (i : Int) : Val := .fin (i < 0) (.dy i.natAbs 0)

/-- The value 2^(x-127) of an E8M0 scale, NaN for 0xFF (R75). -/
def e8m0 (x : Byte) : Val := if x = 0xFF#8 then .nan false else .fin false (.dy 1 ((x.toNat : Int) - 127))

/-- An element under its scale (R76): a NaN scale wins; otherwise NaN and infinite elements stay. -/
def mxValue (scale : Byte) (v : Val) : Val :=
  if scale = 0xFF#8 then .nan false
  else match v with
    | .fin n m => .fin n { m with exp := m.exp + ((scale.toNat : Int) - 127) }
    | w => w

/-- Rounding a value to an integer by a mode, with whether it moved (CVT R126, FRND R122). -/
def roundInt (neg : Bool) (m : Mag) (rm : Rm) (g : Word) : Nat × Bool :=
  let fx : Fmt := ⟨true, 0, 4096, 0, 2, false, true⟩
  fx.roundMag neg m rm g

/-- What the conversion of a block to MX yields: codes, flags and generators in element order, and the scale (R78). -/
structure MxOut where
  codes : List Nat
  flags : List Flags5
  rngs  : List Word
  scale : Byte
deriving DecidableEq, Repr, Inhabited

/-- One element of R78 under the exponent `k`. -/
def mxElem (f : Fmt) (k : Int) (rm : Rm) (v : Val) (g : Word) : Rounded :=
  match v with
  | .fin n m =>
    let m' := { m with exp := m.exp - k }
    if f.maxMag.lt m' && (!n || f.s) then
      let g' := if rm = .sr then srStep g else g
      ⟨f.signed n f.maxCode, flIX, g'⟩
    else f.round (.fin n m') rm g
  | w => f.round w rm g

def Val.infOrNan : Val → Bool
  | .fin _ _ => false
  | _ => true
def Val.infOrSnan : Val → Bool
  | .nan s => s
  | .inf _ => true
  | .fin _ _ => false

/-- The largest magnitude of a block of finite values. -/
def amaxOf : List Val → Mag
  | [] => .dy 0 0
  | .fin _ m :: vs => let n := amaxOf vs; if n.isZero || (!m.isZero && n.lt m) then m else n
  | _ :: vs => amaxOf vs

/-- The scale's exponent k of R78 for a nonzero amax. -/
def mxExp (f : Fmt) (amax : Mag) : Int :=
  let k := amax.ilog2 - f.emax
  if k < -127 then -127 else if 127 < k then 127 else k

/-- R78 with one generator for each element (CVT). -/
def mxConvert (f : Fmt) (rm : Rm) (vs : List Val) (gs : List Word) : MxOut :=
  if vs.any Val.infOrNan then
    ⟨vs.map (fun _ => 0), vs.map (fun _ => if vs.any Val.infOrSnan then flNV else 0), gs, 0xFF#8⟩
  else
    let amax := amaxOf vs
    if amax.isZero then ⟨vs.map (fun _ => 0), vs.map (fun _ => 0), gs, 0#8⟩
    else
      let k := mxExp f amax
      let rs := List.zipWith (fun v g => mxElem f k rm v g) vs gs
      ⟨rs.map (·.code), rs.map (·.flags), rs.map (·.rng), BitVec.ofInt 8 (k + 127)⟩

/-- The elements of a block in ascending order with one generator running through them (ACCMX, R321). -/
def mxSeq (f : Fmt) (k : Int) (rm : Rm) : List Val → Word → List Rounded × Word
  | [], g => ([], g)
  | v :: vs, g => let r := mxElem f k rm v g; let t := mxSeq f k rm vs r.rng; (r :: t.1, t.2)

/-- R78 with a single generator (ACCMX): codes, the union of the flags, the scale, the generator. -/
def mxConvertSeq (f : Fmt) (rm : Rm) (vs : List Val) (g : Word) : List Nat × Flags5 × Byte × Word :=
  if vs.any Val.infOrNan then
    (vs.map (fun _ => 0), if vs.any Val.infOrSnan then flNV else 0, 0xFF#8, g)
  else
    let amax := amaxOf vs
    if amax.isZero then (vs.map (fun _ => 0), 0, 0#8, g)
    else
      let k := mxExp f amax
      let t := mxSeq f k rm vs g
      (t.1.map (·.code), t.1.foldl (fun a r => a ||| r.flags) 0, BitVec.ofInt 8 (k + 127), t.2)

/-- Element i of a packed run (R74), as a code. -/
def packedElem (run : Nat) (w i : Nat) : Nat := run / 2 ^ (w * i) % 2 ^ w

end Sys2Proof.Machine
end

