-- ==== Sys2Proof/Machine/Checks.lean ====
section
/-! DEFINITION. The static checks of an instruction's fields: every restriction that the spec puts on the word alone
beside the zero fields and the register numbers, and whose breach raises ILLEGAL_OPERAND (R38, R39, R61). -/

namespace Sys2Proof.Machine

/-- TYPE codes 0-7 (R99). -/
def isIntTy : Ty → Bool
  | .i8 | .i16 | .i32 | .i64 | .n8 | .n16 | .n32 | .n64 => true
  | _ => false
/-- Signed integer types, TYPE 0-3. -/
def isSignedTy : Ty → Bool
  | .i8 | .i16 | .i32 | .i64 => true
  | _ => false
/-- TYPE codes 8-11 (R114). -/
def isFloatTy : Ty → Bool
  | .f16 | .b16 | .f32 | .f64 => true
  | _ => false
/-- TYPE codes 0-11. -/
def isPlainTy (t : Ty) : Bool := isIntTy t || isFloatTy t
/-- The width of TYPE (R101); `nf` and `mx` have none here and count as 32 for the lane register that holds them. -/
def tyWidth : Ty → Nat
  | .i8 | .n8 => 8
  | .i16 | .n16 | .f16 | .b16 => 16
  | .i64 | .n64 | .f64 => 64
  | _ => 32

/-- IMM with this TYPE and X is legal (R39). -/
def immOk (t : Ty) (x : Word) : Bool :=
  match t with
  | .nf | .mx => false
  | .f16 | .b16 => x.extractLsb' 16 16 == 0#16
  | _ => true

/-- The second source is legal under TYPE (R39). -/
def srcOk (t : Ty) : Src → Bool
  | .reg _ => true
  | .imm x => immOk t x

def isReg : Src → Bool
  | .reg _ => true
  | .imm _ => false

/-- The types that AOP admits (R214). -/
def aopTyOk : AOp → Ty → Bool
  | .add, t => t == .i32 || t == .i64 || t == .n32 || t == .n64 || isFloatTy t
  | .min, t | .max, t => t == .i32 || t == .i64 || t == .n32 || t == .n64 || t == .f16 || t == .b16 || t == .f32
  | .and, t | .or, t | .xor, t => t == .i32 || t == .i64 || t == .n32 || t == .n64
  | .exch, t => t == .i32 || t == .i64 || t == .n32 || t == .n64 || t == .f32 || t == .f64

/-- A nonzero SCOPE goes only with an ordering other than RLX (R203). -/
def scopeOk (o : Order) (s : Scope) : Bool := o != .rlx || s == .warp

/-- Types 2, 3, 6 and 7. -/
def isWideInt (t : Ty) : Bool := t == .i32 || t == .i64 || t == .n32 || t == .n64

/-- The alternatives of CVT (R124). -/
def cvtOk (dt st : Ty) (rm : Rm) (desc : BitVec 20) : Bool :=
  let odd := fun t => t == Ty.nf || t == Ty.mx
  !(odd dt && odd st)
  && (!odd dt || isFloatTy st) && (!odd st || isFloatTy dt)
  && (if dt == .nf || st == .nf then desc.getLsbD 19 == false && nfdValid (desc.extractLsb' 0 19)
      else if odd dt || odd st then mxdValid desc else desc == 0#20)
  && (rm != .sr || !isIntTy dt)

/-- A predicate register. -/
def isPred : Reg → Bool
  | .p _ => true
  | _ => false

/-- A guard of G = 0 (R157). -/
def noGuard (c : Ctl) : Bool := c.gneg == false && c.gpred == 0


/-- The fields of a matrix command: the first tile and a quad barrier lie in their ranges, and what its row does not use
is 0 (R325). -/
def mxFields (o : MxOp) (useHa useHb useCount : Bool) : Bool :=
  o.acc.val < 24 && (!o.barq || o.bar.val < 8) && (useHa || o.ha == 0) && (useHb || o.hb == 0)
  && (if useCount then 0 < o.count.val && o.acc.val + o.count.val ≤ 24 else o.count == 0)

/-- Barriers of a level (R27, R276); a level that is none has no number. -/
def barCount : Scope → Nat
  | .core => 16
  | .quad => 8
  | .die | .pkg => 32
  | .pod => 64
  | .warp | .sys => 0

/-- The CSRs that the table lists, and those of them that can be written (R397). -/
def csrListed (n : BitVec 12) : Bool := n == 0#12 || n == 2#12 || n == 8#12
def csrWritable (n : BitVec 12) : Bool := n == 2#12

/-- Every static restriction on an instruction word; an event has none. -/
def staticOk : Instr → Bool
  | .iadd o _ | .isub o _ | .imul o _ => isIntTy o.ty && srcOk o.ty o.b
  | .imulhi o | .idiv o | .irem o | .imin o | .imax o | .land o | .lor o | .lxor o | .landn o | .shl o | .shr o
  | .sar o | .rol o | .bfx o | .iset o _ | .sel o _ _ => isIntTy o.ty && srcOk o.ty o.b
  | .imad o _ | .bfi o => isIntTy o.ty
  | .iabs o _ => isSignedTy o.ty
  | .ineg o _ | .lnot o | .popc o | .clz o | .ctz o | .brev o => isIntTy o.ty
  | .prmt o e => (o.ty == .i32 || o.ty == .n32) && (e.isNone || isReg o.b)
  | .pset _ _ _ _ _ => true
  | .mov o => isPlainTy o.ty
  | .movi _ t hi _ x => isPlainTy t && immOk t x && (!hi || t == .i64 || t == .n64)
  | .lea o _ _ _ => o.ty == .i64 || o.ty == .n64
  | .fadd o rm | .fsub o rm | .fmul o rm | .fdiv o rm => isFloatTy o.ty && srcOk o.ty o.b && rm != .sr
  | .ffma o rm => isFloatTy o.ty && rm != .sr
  | .fmin o | .fmax o | .fset o _ => isFloatTy o.ty && srcOk o.ty o.b
  | .fclass o x => isFloatTy o.ty && (if isPred o.d then x.extractLsb' 10 22 == 0#22 else x == 0#32)
  | .frcp o rm | .frsq o rm | .fsqrt o rm | .frnd o rm _ => isFloatTy o.ty && rm != .sr
  | .fexp2 o | .flog2 o | .fsin o | .fcos o | .ftanh o => o.ty == .f16 || o.ty == .b16 || o.ty == .f32
  | .cvt o rm _ seed st desc => cvtOk o.ty st rm desc && (seed.isSome == (rm == .sr))
  | .fdot2 o rm => (o.ty == .f16 || o.ty == .b16) && rm != .sr
  | .fdot4 o rm n => (if o.ty == .nf then nfdValid n else (o.ty == .i8 || o.ty == .n8) && n == 0#19) && rm != .sr
  | .fscale o rm => isFloatTy o.ty && rm != .sr
  | .fflags _ _ _ _ => true
  | .shfl o _ seg => (o.ty == .n32 || o.ty == .n64) && srcOk o.ty o.b && seg.val ≤ 5
  | .vote _ _ _ _ => true
  | .matchv o _ => o.ty == .n32 || o.ty == .n64
  | .redux o k rm | .scan o k _ rm =>
    rm != .sr && (if isFloatTy o.ty then k == .add || k == .min || k == .max else isIntTy o.ty && rm == .rne)
  | .lanemask _ _ _ => true
  | .ligon c _ _ => noGuard c
  | .ligmap c _ _ _ _ => noGuard c
  | .ligoff c => noGuard c
  | .svc _ _ n => 1 ≤ n.val && n.val ≤ 8
  | .ld m => isPlainTy m.ty && (m.ord == .rlx || m.ord == .acq) && scopeOk m.ord m.scope
  | .st m => isPlainTy m.ty && (m.ord == .rlx || m.ord == .rel) && scopeOk m.ord m.scope
  | .ldq m => isPlainTy m.ty && tyWidth m.ty ≤ 32 && (m.ord == .rlx || m.ord == .acq) && scopeOk m.ord m.scope
  | .atom o k _ => aopTyOk k o.ty && scopeOk o.ord o.scope
  | .red o k => aopTyOk k o.ty && (o.ord == .rlx || o.ord == .rel) && scopeOk o.ord o.scope
  | .cas o _ => isWideInt o.ty && scopeOk o.ord o.scope
  | .cas2 o _ => o.ty == .n64 && scopeOk o.ord o.scope
  | .atomr o k _ => aopTyOk k o.ty && k != .exch && o.ord == .rlx && o.scope == .warp
  | .fence _ _ ord st pa => ord != .rlx && st != 0#7 && pa != 0#5
  | .lease _ n => n != 0#8
  | .barinit _ l _ _ n => (l == .core || l == .quad) && n.toNat < barCount l
  | .bararr _ l _ n c => n.toNat < barCount l && c != 0#10
  | .barwait _ l _ n => n.toNat < barCount l
  | .rbararr _ s _ _ n => s != .warp && n != 0#10
  | .rwopen _ _ _ _ n => n != 0#10
  | .thand _ _ _ _ ub a b => !ub || (a == .v 0 && b == .v 0)
  | .mma o | .mmas o => mxFields o true true false
  | .accz o => mxFields o false false true
  | .accld o => mxFields o true false false
  | .accdrain o rm _ seed => mxFields o true false false && (seed.isSome == (rm == .sr))
  | .accmx o rm seed => mxFields o true true false && (seed.isSome == (rm == .sr))
  | .mxstat _ sel clr _ => !clr || sel == 2
  | .ngrant _ _ _ _ n => n.val ≤ 8
  | .nstat _ _ sel clr _ a => (!clr || sel == 1) && (a.isSome == (sel == 2))
  | .nldc m => m.sp == false && isPlainTy m.ty && (m.ord == .rlx || m.ord == .acq) && scopeOk m.ord m.scope
  | .tlbinv _ k _ a _ => a.isSome == (k == 0)
  | .rmapinv _ _ n => n != 0#16
  | .csrr _ _ n => csrListed n
  | .csrw _ _ n => csrWritable n
  | .bra .. | .brd .. | .brx .. | .call .. | .callx .. | .ret .. | .retTr .. | .exit .. | .yield .. | .nop ..
  | .waitc .. | .trap .. | .brkpt .. | .prf .. | .cwb .. | .tkwait .. | .tkstat .. | .semset .. | .seminc ..
  | .semwait .. | .cmset .. | .cmclr .. | .cmwait .. | .cpchain .. | .tcopy .. | .cpstat .. | .cpabort ..
  | .rwclose .. | .obres .. | .obfree .. | .obset .. | .nbind .. | .nunbind .. | .nabort .. | .amov .. | .aadd ..
  | .aloop .. | .aldq .. | .astq .. | .aend | .ctxsave .. | .ctxload .. | .dbghalt ..
  | .dbgres .. => true
  | _ => true

end Sys2Proof.Machine
end

