-- ==== Sys2Proof/WellFormed.lean ====
section
/-! DEFINITION. Well-formedness of an instruction: the static checks of its word hold (R38, R39, R61). The checks
themselves stand in Machine/Checks.lean. -/

namespace Sys2Proof

/-- The instruction breaks no static restriction of its entry. -/
def Instr.wf (i : Instr) : Bool := Machine.staticOk i

end Sys2Proof
end

