-- ==== Sys2Proof/Decode.lean ====
section
/-! DEFINITION. The encoding of instruction words (R36-R40, R50, R57 and the encoding tables of the families):
the fields of a word, the decoder, which is total on any 96 bits and rejects by name, and the encoder. -/

namespace Sys2Proof

/-- The fields of an instruction word (R36); `mx` is M[9:4], `ty` is M[3:0]. -/
structure Fields where
  op   : BitVec 10
  d    : BitVec 10
  a    : BitVec 10
  b    : BitVec 10
  ctl  : Ctl
  imm  : Bool
  creg : Bool
  mx   : BitVec 6
  ty   : BitVec 4
  x    : Word
deriving DecidableEq, Repr

/-- The guard and hint fields of a word (R36). -/
def ctlOfWord (w : Word96) : Ctl where
  gneg   := w.getLsbD 43
  gpred  := (w.extractLsb' 40 3).toFin
  stall  := (w.extractLsb' 44 4).toFin
  yld    := w.getLsbD 48
  reuseA := w.getLsbD 49
  reuseB := w.getLsbD 50
  setsel := w.getLsbD 51

/-- The fields of the word `w` (R36). -/
def Fields.ofWord (w : Word96) : Fields where
  op   := w.extractLsb' 0 10
  d    := w.extractLsb' 10 10
  a    := w.extractLsb' 20 10
  b    := w.extractLsb' 30 10
  ctl  := ctlOfWord w
  ty   := w.extractLsb' 52 4
  mx   := w.extractLsb' 56 6
  creg := w.getLsbD 62
  imm  := w.getLsbD 63
  x    := w.extractLsb' 64 32

/-- Bits [51:40] of a word from its guard and hints. -/
def Ctl.bits (c : Ctl) : BitVec 12 :=
  BitVec.ofBool c.setsel ++ BitVec.ofBool c.reuseB ++ BitVec.ofBool c.reuseA ++ BitVec.ofBool c.yld
    ++ BitVec.ofNat 4 c.stall.val ++ BitVec.ofBool c.gneg ++ BitVec.ofNat 3 c.gpred.val

/-- The word with these fields (R36). -/
def Fields.toWord (f : Fields) : Word96 :=
  f.x ++ (BitVec.ofBool f.imm ++ BitVec.ofBool f.creg ++ f.mx ++ f.ty) ++ f.ctl.bits ++ f.b ++ f.a ++ f.d ++ f.op

/-! ### Register numbers (R40) -/

/-- The register that a field names. -/
def Reg.ofNum (n : BitVec 10) : Reg :=
  if h : n.toNat < 768 then .v ⟨n.toNat, h⟩
  else if h : n.toNat - 768 < 64 then .s ⟨n.toNat - 768, h⟩
  else if h : n.toNat - 832 < 24 then .q ⟨n.toNat - 832, h⟩
  else if h : n.toNat - 856 < 8 then .qr ⟨n.toNat - 856, h⟩
  else if h : n.toNat - 864 < 16 then .sp ⟨n.toNat - 864, h⟩
  else if h : n.toNat - 880 < 8 then .p ⟨n.toNat - 880, h⟩
  else .bad ⟨n.toNat - 888, by have := n.isLt; omega⟩

/-- The number of a register. -/
def Reg.num : Reg → BitVec 10
  | .v n => BitVec.ofNat 10 n.val
  | .s n => BitVec.ofNat 10 (768 + n.val)
  | .q n => BitVec.ofNat 10 (832 + n.val)
  | .qr n => BitVec.ofNat 10 (856 + n.val)
  | .sp n => BitVec.ofNat 10 (864 + n.val)
  | .p n => BitVec.ofNat 10 (880 + n.val)
  | .bad n => BitVec.ofNat 10 (888 + n.val)

/-! ### Codes of the small fields -/

/-- The code of R39. -/
def Ty.code : Ty → BitVec 4
  | .i8 => 0 | .i16 => 1 | .i32 => 2 | .i64 => 3 | .n8 => 4 | .n16 => 5 | .n32 => 6 | .n64 => 7 | .f16 => 8 | .b16 => 9 | .f32 => 10 | .f64 => 11 | .nf => 12 | .mx => 13
/-- The meaning of a code of R39; a reserved code has none. -/
def Ty.ofCode (c : BitVec 4) : Option Ty :=
  if c = 0 then some .i8 else if c = 1 then some .i16 else if c = 2 then some .i32 else if c = 3 then some .i64 else if c = 4 then some .n8 else if c = 5 then some .n16 else if c = 6 then some .n32 else if c = 7 then some .n64 else if c = 8 then some .f16 else if c = 9 then some .b16 else if c = 10 then some .f32 else if c = 11 then some .f64 else if c = 12 then some .nf else if c = 13 then some .mx else none

/-- The code of R79. -/
def Rm.code : Rm → BitVec 3
  | .rne => 0 | .rz => 1 | .ru => 2 | .rd => 3 | .sr => 4
/-- The meaning of a code of R79; a reserved code has none. -/
def Rm.ofCode (c : BitVec 3) : Option Rm :=
  if c = 0 then some .rne else if c = 1 then some .rz else if c = 2 then some .ru else if c = 3 then some .rd else if c = 4 then some .sr else none

/-- The code of R16. -/
def Scope.code : Scope → BitVec 3
  | .warp => 0 | .core => 1 | .quad => 2 | .die => 3 | .pkg => 4 | .pod => 5 | .sys => 6
/-- The meaning of a code of R16; a reserved code has none. -/
def Scope.ofCode (c : BitVec 3) : Option Scope :=
  if c = 0 then some .warp else if c = 1 then some .core else if c = 2 then some .quad else if c = 3 then some .die else if c = 4 then some .pkg else if c = 5 then some .pod else if c = 6 then some .sys else none

/-- The code of R203. -/
def Order.code : Order → BitVec 2
  | .rlx => 0 | .acq => 1 | .rel => 2 | .ar => 3
/-- The meaning of a code of R203; a reserved code has none. -/
def Order.ofCode (c : BitVec 2) : Option Order :=
  if c = 0 then some .rlx else if c = 1 then some .acq else if c = 2 then some .rel else some .ar

/-- The code of R107. -/
def Cond.code : Cond → BitVec 3
  | .eq => 0 | .ne => 1 | .lt => 2 | .le => 3 | .gt => 4 | .ge => 5
/-- The meaning of a code of R107; a reserved code has none. -/
def Cond.ofCode (c : BitVec 3) : Option Cond :=
  if c = 0 then some .eq else if c = 1 then some .ne else if c = 2 then some .lt else if c = 3 then some .le else if c = 4 then some .gt else if c = 5 then some .ge else none

/-- The code of R108. -/
def POp.code : POp → BitVec 2
  | .and => 0 | .or => 1 | .xor => 2 | .andn => 3
/-- The meaning of a code of R108; a reserved code has none. -/
def POp.ofCode (c : BitVec 2) : Option POp :=
  if c = 0 then some .and else if c = 1 then some .or else if c = 2 then some .xor else some .andn

/-- The code of R128. -/
def FfOp.code : FfOp → BitVec 2
  | .read => 0 | .clear => 1 | .set => 2 | .write => 3
/-- The meaning of a code of R128; a reserved code has none. -/
def FfOp.ofCode (c : BitVec 2) : Option FfOp :=
  if c = 0 then some .read else if c = 1 then some .clear else if c = 2 then some .set else some .write

/-- The code of R131. -/
def ShMode.code : ShMode → BitVec 2
  | .idx => 0 | .up => 1 | .down => 2 | .xor => 3
/-- The meaning of a code of R131; a reserved code has none. -/
def ShMode.ofCode (c : BitVec 2) : Option ShMode :=
  if c = 0 then some .idx else if c = 1 then some .up else if c = 2 then some .down else some .xor

/-- The code of R132. -/
def VoteOp.code : VoteOp → BitVec 2
  | .all => 0 | .any => 1 | .uni => 2 | .ballot => 3
/-- The meaning of a code of R132; a reserved code has none. -/
def VoteOp.ofCode (c : BitVec 2) : Option VoteOp :=
  if c = 0 then some .all else if c = 1 then some .any else if c = 2 then some .uni else some .ballot

/-- The code of R134. -/
def RedOp.code : RedOp → BitVec 3
  | .add => 0 | .min => 1 | .max => 2 | .and => 3 | .or => 4 | .xor => 5
/-- The meaning of a code of R134; a reserved code has none. -/
def RedOp.ofCode (c : BitVec 3) : Option RedOp :=
  if c = 0 then some .add else if c = 1 then some .min else if c = 2 then some .max else if c = 3 then some .and else if c = 4 then some .or else if c = 5 then some .xor else none

/-- The code of R135. -/
def LmKind.code : LmKind → BitVec 3
  | .eq => 0 | .lt => 1 | .le => 2 | .gt => 3 | .ge => 4
/-- The meaning of a code of R135; a reserved code has none. -/
def LmKind.ofCode (c : BitVec 3) : Option LmKind :=
  if c = 0 then some .eq else if c = 1 then some .lt else if c = 2 then some .le else if c = 3 then some .gt else if c = 4 then some .ge else none

/-- The code of R214. -/
def AOp.code : AOp → BitVec 4
  | .add => 0 | .min => 1 | .max => 2 | .and => 3 | .or => 4 | .xor => 5 | .exch => 6
/-- The meaning of a code of R214; a reserved code has none. -/
def AOp.ofCode (c : BitVec 4) : Option AOp :=
  if c = 0 then some .add else if c = 1 then some .min else if c = 2 then some .max else if c = 3 then some .and else if c = 4 then some .or else if c = 5 then some .xor else if c = 6 then some .exch else none

/-- The COND code of FSET (R118). -/
def FCond.code : FCond → BitVec 4
  | .rel c => BitVec.setWidth 4 c.code
  | .relU c => BitVec.setWidth 4 c.code + 6
  | .num => 12
  | .nan => 13
/-- The comparison of a COND code of FSET. -/
def FCond.ofCode (c : BitVec 4) : Option FCond :=
  if c = 12 then some .num else if c = 13 then some .nan
  else if c.toNat < 6 then (Cond.ofCode (c.setWidth 3)).map .rel
  else if c.toNat < 12 then (Cond.ofCode ((c - 6).setWidth 3)).map .relU
  else none

/-! ### Shared shapes -/

/-- The result `r` where every field that the entry leaves unused is 0. -/
def chk {α : Type} (ok : Bool) (r : α) : Option α := if ok then some r else none

/-- B or X, by IMM (R38, R39). -/
def Fields.src (f : Fields) : Src := if f.imm then .imm f.x else .reg (.ofNum f.b)
/-- Under IMM the B field is 0; without it X is. -/
def Fields.srcZ (f : Fields) : Bool := if f.imm then f.b == 0 else f.x == 0
/-- Neither IMM nor CREG. -/
def Fields.plain (f : Fields) : Bool := !f.imm && !f.creg
/-- The C register of X[9:0] (R38). -/
def Fields.e (f : Fields) : Reg := .ofNum (f.x.setWidth 10)
/-- X[31:10] is 0 (R38). -/
def Fields.eZ (f : Fields) : Bool := f.x.extractLsb' 10 22 == 0

def Fields.alu3 (f : Fields) (t : Ty) : Alu3 := ⟨f.ctl, t, .ofNum f.d, .ofNum f.a, f.src⟩
def Fields.aluR (f : Fields) (t : Ty) : AluR := ⟨f.ctl, t, .ofNum f.d, .ofNum f.a, .ofNum f.b⟩
def Fields.alu2 (f : Fields) (t : Ty) : Alu2 := ⟨f.ctl, t, .ofNum f.d, .ofNum f.a⟩
def Fields.alu4 (f : Fields) (t : Ty) : Alu4 := ⟨f.ctl, t, .ofNum f.d, .ofNum f.a, .ofNum f.b, f.e⟩
/-- Zero fields of a word with D, A and B or X. -/
def Fields.z3 (f : Fields) : Bool := !f.creg && f.srcZ
/-- Zero fields of a word with D, A and B, with X used as `xz` says. -/
def Fields.zR (f : Fields) (xz : Bool) : Bool := f.plain && xz
/-- Zero fields of a word with D and A. -/
def Fields.z2 (f : Fields) (xz : Bool) : Bool := f.plain && f.b == 0 && xz
/-- Zero fields of a word with D, A, B and C. -/
def Fields.z4 (f : Fields) : Bool := !f.imm && f.creg && f.eZ
/-- IMM, CREG and M[3:0] are 0. -/
def Fields.noTy (f : Fields) : Bool := f.plain && f.ty == 0

/-- The low `n` bits of M[9:4], from bit `i`. -/
def Fields.m (f : Fields) (i n : Nat) : BitVec n := f.mx.extractLsb' i n
/-- Bits [i+n-1 : i] of X. -/
def Fields.xb (f : Fields) (i n : Nat) : BitVec n := f.x.extractLsb' i n

/-- The operands of LD, ST, LDQ and NLDC (R203). -/
def Fields.mem (f : Fields) (t : Ty) (s : Scope) (o : Order) : MemOp :=
  ⟨f.ctl, t, f.mx.getLsbD 5, s, o, .ofNum f.d, .ofNum f.a, .ofNum f.b, f.x⟩
/-- The operands of an atomic (R202). -/
def Fields.atm (f : Fields) (t : Ty) (s : Scope) (o : Order) : AtomOp :=
  ⟨f.ctl, t, f.mx.getLsbD 5, s, o, .ofNum f.a, .ofNum f.b, f.xb 0 28⟩
/-- The common layout of X of the matrix commands (R325). -/
def Fields.mxo (f : Fields) : MxOp :=
  ⟨f.ctl, (f.xb 0 5).toFin, (f.xb 8 4).toFin, (f.xb 12 4).toFin, (f.xb 16 5).toFin, f.x.getLsbD 24, f.x.getLsbD 25,
    (f.xb 26 4).toFin⟩
/-- X[31:30], X[23:21] and X[7:5] are 0. -/
def Fields.mxoZ (f : Fields) : Bool := f.xb 30 2 == 0 && f.xb 21 3 == 0 && f.xb 5 3 == 0

/-- A Fin of `k` values from a field, none beyond. -/
def finOf (k : Nat) (n : Nat) : Option (Fin k) := if h : n < k then some ⟨n, h⟩ else none

/-- Guard and hints are 0, as access-slice code asks (R148). -/
def Ctl.zero : Ctl := ⟨false, 0, 0, false, false, false, false⟩
/-- An index register's field (R148). -/
def xReg (n : BitVec 10) : Option (Fin 16) := finOf 16 n.toNat
/-- A queue's field in slice code, 832 to 847 (R148). -/
def qReg (n : BitVec 10) : Option (Fin 16) := if 832 ≤ n.toNat then finOf 16 (n.toNat - 832) else none

/-! ### The decoder, family by family

Each arm checks the fields that the entry leaves unused and reads the others; `Instr.wf` then checks the values. -/

/-- The fields of integer and address, 0x001-0x021 (R99), by opcode. -/
def shapeInt (f : Fields) : Nat → Option Instr
  | 0x001 => (Ty.ofCode f.ty).bind fun t => chk (f.z3 && f.m 1 5 == 0) (.iadd (f.alu3 t) (f.mx.getLsbD 0))
  | 0x002 => (Ty.ofCode f.ty).bind fun t => chk (f.z3 && f.m 1 5 == 0) (.isub (f.alu3 t) (f.mx.getLsbD 0))
  | 0x003 => (Ty.ofCode f.ty).bind fun t => chk (f.z3 && f.m 1 5 == 0) (.imul (f.alu3 t) (f.mx.getLsbD 0))
  | 0x004 => (Ty.ofCode f.ty).bind fun t => chk (f.z3 && f.mx == 0) (.imulhi (f.alu3 t))
  | 0x005 => (Ty.ofCode f.ty).bind fun t => chk (f.z4 && f.m 1 5 == 0) (.imad (f.alu4 t) (f.mx.getLsbD 0))
  | 0x006 => (Ty.ofCode f.ty).bind fun t => chk (f.z3 && f.mx == 0) (.idiv (f.alu3 t))
  | 0x007 => (Ty.ofCode f.ty).bind fun t => chk (f.z3 && f.mx == 0) (.irem (f.alu3 t))
  | 0x008 => (Ty.ofCode f.ty).bind fun t => chk (f.z3 && f.mx == 0) (.imin (f.alu3 t))
  | 0x009 => (Ty.ofCode f.ty).bind fun t => chk (f.z3 && f.mx == 0) (.imax (f.alu3 t))
  | 0x00A => (Ty.ofCode f.ty).bind fun t => chk (f.z2 (f.x == 0) && f.m 1 5 == 0) (.iabs (f.alu2 t) (f.mx.getLsbD 0))
  | 0x00B => (Ty.ofCode f.ty).bind fun t => chk (f.z2 (f.x == 0) && f.m 1 5 == 0) (.ineg (f.alu2 t) (f.mx.getLsbD 0))
  | 0x00C => (Ty.ofCode f.ty).bind fun t => chk (f.z3 && f.mx == 0) (.land (f.alu3 t))
  | 0x00D => (Ty.ofCode f.ty).bind fun t => chk (f.z3 && f.mx == 0) (.lor (f.alu3 t))
  | 0x00E => (Ty.ofCode f.ty).bind fun t => chk (f.z3 && f.mx == 0) (.lxor (f.alu3 t))
  | 0x00F => (Ty.ofCode f.ty).bind fun t => chk (f.z3 && f.mx == 0) (.landn (f.alu3 t))
  | 0x010 => (Ty.ofCode f.ty).bind fun t => chk (f.z2 (f.x == 0) && f.mx == 0) (.lnot (f.alu2 t))
  | 0x011 => (Ty.ofCode f.ty).bind fun t => chk (f.z3 && f.mx == 0) (.shl (f.alu3 t))
  | 0x012 => (Ty.ofCode f.ty).bind fun t => chk (f.z3 && f.mx == 0) (.shr (f.alu3 t))
  | 0x013 => (Ty.ofCode f.ty).bind fun t => chk (f.z3 && f.mx == 0) (.sar (f.alu3 t))
  | 0x014 => (Ty.ofCode f.ty).bind fun t => chk (f.z3 && f.mx == 0) (.rol (f.alu3 t))
  | 0x015 => (Ty.ofCode f.ty).bind fun t => chk (f.z3 && f.mx == 0) (.bfx (f.alu3 t))
  | 0x016 => (Ty.ofCode f.ty).bind fun t => chk (f.z4 && f.mx == 0) (.bfi (f.alu4 t))
  | 0x017 => (Ty.ofCode f.ty).bind fun t => chk (f.z2 (f.x == 0) && f.mx == 0) (.popc (f.alu2 t))
  | 0x018 => (Ty.ofCode f.ty).bind fun t => chk (f.z2 (f.x == 0) && f.mx == 0) (.clz (f.alu2 t))
  | 0x019 => (Ty.ofCode f.ty).bind fun t => chk (f.z2 (f.x == 0) && f.mx == 0) (.ctz (f.alu2 t))
  | 0x01A => (Ty.ofCode f.ty).bind fun t => chk (f.z2 (f.x == 0) && f.mx == 0) (.brev (f.alu2 t))
  | 0x01B => (Ty.ofCode f.ty).bind fun t => if f.creg then chk (!f.imm && f.eZ && f.mx == 0) (.prmt ⟨f.ctl, t, .ofNum f.d, .ofNum f.a, .reg (.ofNum f.b)⟩ (some f.e))
    else chk (f.srcZ && f.mx == 0) (.prmt (f.alu3 t) none)
  | 0x01C => (Ty.ofCode f.ty).bind fun t => (Cond.ofCode (f.m 0 3)).bind fun k => chk (f.z3 && f.m 3 3 == 0) (.iset (f.alu3 t) k)
  | 0x01D => (POp.ofCode (f.m 0 2)).bind fun k => chk (f.noTy && f.x == 0 && f.m 2 4 == 0) (.pset f.ctl k (.ofNum f.d) (.ofNum f.a) (.ofNum f.b))
  | 0x01E => (Ty.ofCode f.ty).bind fun t => chk (f.z3 && f.m 4 2 == 0) (.sel (f.alu3 t) (f.m 0 3).toFin (f.mx.getLsbD 3))
  | 0x01F => (Ty.ofCode f.ty).bind fun t => chk (f.z2 (f.x == 0) && f.mx == 0) (.mov (f.alu2 t))
  | 0x020 => (Ty.ofCode f.ty).bind fun t => chk (f.z2 true && f.a == 0 && f.m 1 5 == 0) (.movi f.ctl t (f.mx.getLsbD 0) (.ofNum f.d) f.x)
  | 0x021 => (Ty.ofCode f.ty).bind fun t => (finOf 5 (f.m 0 3).toNat).bind fun k => chk (f.zR true && f.m 4 2 == 0) (.lea (f.aluR t) k (f.mx.getLsbD 3) f.x)
  | _ => none

/-- The fields of floating point, 0x080-0x096 (R114, R124, R127, R128), by opcode. -/
def shapeFloat (f : Fields) : Nat → Option Instr
  | 0x080 => (Ty.ofCode f.ty).bind fun t => (Rm.ofCode (f.m 0 3)).bind fun rm => chk (f.z3 && f.m 3 3 == 0) (.fadd (f.alu3 t) rm)
  | 0x081 => (Ty.ofCode f.ty).bind fun t => (Rm.ofCode (f.m 0 3)).bind fun rm => chk (f.z3 && f.m 3 3 == 0) (.fsub (f.alu3 t) rm)
  | 0x082 => (Ty.ofCode f.ty).bind fun t => (Rm.ofCode (f.m 0 3)).bind fun rm => chk (f.z3 && f.m 3 3 == 0) (.fmul (f.alu3 t) rm)
  | 0x083 => (Ty.ofCode f.ty).bind fun t => (Rm.ofCode (f.m 0 3)).bind fun rm => chk (f.z4 && f.m 3 3 == 0) (.ffma (f.alu4 t) rm)
  | 0x084 => (Ty.ofCode f.ty).bind fun t => chk (f.z3 && f.mx == 0) (.fmin (f.alu3 t))
  | 0x085 => (Ty.ofCode f.ty).bind fun t => chk (f.z3 && f.mx == 0) (.fmax (f.alu3 t))
  | 0x086 => (Ty.ofCode f.ty).bind fun t => (FCond.ofCode (f.m 0 4)).bind fun k => chk (f.z3 && f.m 4 2 == 0) (.fset (f.alu3 t) k)
  | 0x087 => (Ty.ofCode f.ty).bind fun t => chk (f.z2 true && f.mx == 0) (.fclass (f.alu2 t) f.x)
  | 0x088 => (Ty.ofCode f.ty).bind fun t => (Rm.ofCode (f.m 0 3)).bind fun rm => chk (f.z2 (f.x == 0) && f.m 3 3 == 0) (.frcp (f.alu2 t) rm)
  | 0x089 => (Ty.ofCode f.ty).bind fun t => (Rm.ofCode (f.m 0 3)).bind fun rm => chk (f.z2 (f.x == 0) && f.m 3 3 == 0) (.frsq (f.alu2 t) rm)
  | 0x08A => (Ty.ofCode f.ty).bind fun t => (Rm.ofCode (f.m 0 3)).bind fun rm => chk (f.z2 (f.x == 0) && f.m 3 3 == 0) (.fsqrt (f.alu2 t) rm)
  | 0x08B => (Ty.ofCode f.ty).bind fun t => (Rm.ofCode (f.m 0 3)).bind fun rm => chk (f.z3 && f.m 3 3 == 0) (.fdiv (f.alu3 t) rm)
  | 0x08C => (Ty.ofCode f.ty).bind fun t => chk (f.z2 (f.x == 0) && f.mx == 0) (.fexp2 (f.alu2 t))
  | 0x08D => (Ty.ofCode f.ty).bind fun t => chk (f.z2 (f.x == 0) && f.mx == 0) (.flog2 (f.alu2 t))
  | 0x08E => (Ty.ofCode f.ty).bind fun t => chk (f.z2 (f.x == 0) && f.mx == 0) (.fsin (f.alu2 t))
  | 0x08F => (Ty.ofCode f.ty).bind fun t => chk (f.z2 (f.x == 0) && f.mx == 0) (.fcos (f.alu2 t))
  | 0x090 => (Ty.ofCode f.ty).bind fun t => chk (f.z2 (f.x == 0) && f.mx == 0) (.ftanh (f.alu2 t))
  | 0x091 => (Ty.ofCode f.ty).bind fun t => (Rm.ofCode (f.m 0 3)).bind fun rm => chk (f.z2 (f.x == 0) && f.m 4 2 == 0) (.frnd (f.alu2 t) rm (f.mx.getLsbD 3))
  | 0x092 => (Ty.ofCode f.ty).bind fun t => (Rm.ofCode (f.m 0 3)).bind fun rm => (Ty.ofCode (f.xb 20 4)).bind fun st => chk (f.plain && f.m 4 2 == 0 && f.xb 24 8 == 0 && (rm == .sr || f.b == 0))
    (.cvt (f.alu2 t) rm (f.mx.getLsbD 3) (if rm == .sr then some (.ofNum f.b) else none) st (f.xb 0 20))
  | 0x093 => (Ty.ofCode f.ty).bind fun t => (Rm.ofCode (f.m 0 3)).bind fun rm => chk (f.zR (f.x == 0) && f.m 3 3 == 0) (.fdot2 (f.aluR t) rm)
  | 0x094 => (Ty.ofCode f.ty).bind fun t => (Rm.ofCode (f.m 0 3)).bind fun rm => chk (f.zR (f.xb 19 13 == 0) && f.m 3 3 == 0) (.fdot4 (f.aluR t) rm (f.xb 0 19))
  | 0x095 => (Ty.ofCode f.ty).bind fun t => (Rm.ofCode (f.m 0 3)).bind fun rm => chk (f.zR (f.x == 0) && f.m 3 3 == 0) (.fscale (f.aluR t) rm)
  | 0x096 => (FfOp.ofCode (f.m 0 2)).bind fun k => chk (f.z3 && f.ty == 0 && f.a == 0 && f.m 3 3 == 0 && (!f.mx.getLsbD 2 || f.d == 0))
    (.fflags f.ctl k (if f.mx.getLsbD 2 then none else some (.ofNum f.d)) f.src)
  | _ => none

/-- The fields of cross-lane, 0x100-0x105 (R129), by opcode. -/
def shapeCross (f : Fields) : Nat → Option Instr
  | 0x100 => (Ty.ofCode f.ty).bind fun t => (ShMode.ofCode (f.m 0 2)).bind fun k => (finOf 6 (f.m 2 3).toNat).bind fun g =>
    chk (f.z3 && f.m 5 1 == 0) (.shfl (f.alu3 t) k g)
  | 0x101 => (VoteOp.ofCode (f.m 0 2)).bind fun k => chk (f.z2 (f.x == 0) && f.ty == 0 && f.m 2 4 == 0) (.vote f.ctl k (.ofNum f.d) (.ofNum f.a))
  | 0x102 => (Ty.ofCode f.ty).bind fun t => chk (f.z2 (f.x == 0) && f.m 1 5 == 0) (.matchv (f.alu2 t) (f.mx.getLsbD 0))
  | 0x103 => (Ty.ofCode f.ty).bind fun t => (RedOp.ofCode (f.m 0 3)).bind fun k => (Rm.ofCode ((f.m 4 2).setWidth 3)).bind fun rm =>
    chk (f.z2 (f.x == 0) && f.m 3 1 == 0) (.redux (f.alu2 t) k rm)
  | 0x104 => (Ty.ofCode f.ty).bind fun t => (RedOp.ofCode (f.m 0 3)).bind fun k => (Rm.ofCode ((f.m 4 2).setWidth 3)).bind fun rm =>
    chk (f.z2 (f.x == 0)) (.scan (f.alu2 t) k (f.mx.getLsbD 3) rm)
  | 0x105 => (LmKind.ofCode (f.m 0 3)).bind fun k => chk (f.z2 (f.x == 0) && f.a == 0 && f.ty == Ty.n32.code && f.m 3 3 == 0) (.lanemask f.ctl k (.ofNum f.d))
  | _ => none

/-- The fields of control, 0x140-0x14F (R157), by opcode. -/
def shapeControl (f : Fields) : Nat → Option Instr
  | 0x140 => chk (f.noTy && f.d == 0 && f.a == 0 && f.b == 0 && f.mx == 0) (.bra f.ctl f.x)
  | 0x141 => chk (f.noTy && f.d == 0 && f.b == 0 && f.m 1 5 == 0) (.brd f.ctl (.ofNum f.a) (f.mx.getLsbD 0) f.x)
  | 0x142 => chk (f.noTy && f.d == 0 && f.b == 0 && f.x == 0 && f.mx == 0) (.brx f.ctl (.ofNum f.a))
  | 0x143 => chk (f.noTy && f.a == 0 && f.b == 0 && f.mx == 0) (.call f.ctl (.ofNum f.d) f.x)
  | 0x144 => chk (f.noTy && f.b == 0 && f.x == 0 && f.mx == 0) (.callx f.ctl (.ofNum f.d) (.ofNum f.a))
  | 0x145 => if f.mx.getLsbD 0 then chk (f.noTy && f.d == 0 && f.a == 0 && f.b == 0 && f.x == 0 && f.m 1 5 == 0) (.retTr f.ctl)
    else chk (f.noTy && f.d == 0 && f.b == 0 && f.x == 0 && f.m 1 5 == 0) (.ret f.ctl (.ofNum f.a))
  | 0x146 => chk (f.noTy && f.d == 0 && f.a == 0 && f.b == 0 && f.x == 0 && f.mx == 0) (.exit f.ctl)
  | 0x147 => chk (f.noTy && f.d == 0 && f.a == 0 && f.b == 0 && f.mx == 0 && f.xb 16 16 == 0) (.yield f.ctl (f.xb 0 16))
  | 0x148 => chk (f.noTy && f.d == 0 && f.a == 0 && f.b == 0 && f.x == 0 && f.mx == 0) (.nop f.ctl)
  | 0x149 => chk (f.noTy && f.d == 0 && f.a == 0 && f.b == 0 && f.mx == 0 && f.xb 12 20 == 0) (.waitc f.ctl (f.xb 0 12))
  | 0x14A => chk (f.noTy && f.d == 0 && f.x == 0 && f.m 1 5 == 0 && (f.mx.getLsbD 0 || f.b == 0))
    (.ligon f.ctl (.ofNum f.a) (if f.mx.getLsbD 0 then some (.ofNum f.b) else none))
  | 0x14B => chk (f.noTy && f.d == 0 && f.x == 0) (.ligmap f.ctl (f.m 0 2).toFin (f.m 2 4).toFin (.ofNum f.a) (.ofNum f.b))
  | 0x14C => chk (f.noTy && f.d == 0 && f.a == 0 && f.b == 0 && f.x == 0 && f.mx == 0) (.ligoff f.ctl)
  | 0x14D => chk (f.noTy && f.d == 0 && f.a == 0 && f.b == 0 && f.mx == 0) (.trap f.ctl f.x)
  | 0x14E => chk (f.noTy && f.d == 0 && f.b == 0 && f.x == 0 && f.m 4 2 == 0) (.svc f.ctl (.ofNum f.a) (f.m 0 4).toFin)
  | 0x14F => chk (f.noTy && f.d == 0 && f.a == 0 && f.b == 0 && f.mx == 0) (.brkpt f.ctl f.x)
  | _ => none

/-- The fields of memory, 0x180-0x18D (R202, R203), by opcode. -/
def shapeMem (f : Fields) : Nat → Option Instr
  | 0x180 => (Ty.ofCode f.ty).bind fun t => (Scope.ofCode (f.m 2 3)).bind fun s => (Order.ofCode (f.m 0 2)).bind fun o => chk f.plain (.ld (f.mem t s o))
  | 0x181 => (Ty.ofCode f.ty).bind fun t => (Scope.ofCode (f.m 2 3)).bind fun s => (Order.ofCode (f.m 0 2)).bind fun o => chk f.plain (.st (f.mem t s o))
  | 0x182 => (Ty.ofCode f.ty).bind fun t => (Scope.ofCode (f.m 2 3)).bind fun s => (Order.ofCode (f.m 0 2)).bind fun o => chk f.plain (.ldq (f.mem t s o))
  | 0x183 => chk (f.noTy && f.d == 0 && f.m 1 4 == 0) (.prf ⟨f.ctl, f.mx.getLsbD 5, (.ofNum f.a), (.ofNum f.b), f.x⟩ (f.mx.getLsbD 0))
  | 0x184 => (Ty.ofCode f.ty).bind fun t => (Scope.ofCode (f.m 2 3)).bind fun s => (Order.ofCode (f.m 0 2)).bind fun o => (AOp.ofCode (f.xb 28 4)).bind fun k => chk f.plain (.atom (f.atm t s o) k (.ofNum f.d))
  | 0x185 => (Ty.ofCode f.ty).bind fun t => (Scope.ofCode (f.m 2 3)).bind fun s => (Order.ofCode (f.m 0 2)).bind fun o => (AOp.ofCode (f.xb 28 4)).bind fun k => chk (f.plain && f.d == 0) (.red (f.atm t s o) k)
  | 0x186 => (Ty.ofCode f.ty).bind fun t => (Scope.ofCode (f.m 2 3)).bind fun s => (Order.ofCode (f.m 0 2)).bind fun o => chk (f.plain && f.xb 28 4 == 0) (.cas (f.atm t s o) (.ofNum f.d))
  | 0x187 => (Ty.ofCode f.ty).bind fun t => (Scope.ofCode (f.m 2 3)).bind fun s => (Order.ofCode (f.m 0 2)).bind fun o => chk (f.plain && f.xb 28 4 == 0) (.cas2 (f.atm t s o) (.ofNum f.d))
  | 0x188 => (Ty.ofCode f.ty).bind fun t => (Scope.ofCode (f.m 2 3)).bind fun s => (Order.ofCode (f.m 0 2)).bind fun o => (AOp.ofCode (f.xb 28 4)).bind fun k => chk f.plain (.atomr (f.atm t s o) k (.ofNum f.d))
  | 0x189 => (Scope.ofCode (f.m 2 3)).bind fun s => (Order.ofCode (f.m 0 2)).bind fun o => chk (f.noTy && f.d == 0 && f.a == 0 && f.b == 0 && f.m 5 1 == 0 && f.xb 7 1 == 0 && f.xb 13 19 == 0)
    (.fence f.ctl s o (f.xb 0 7) (f.xb 8 5))
  | 0x18A => chk (f.noTy && f.d == 0 && f.a == 0 && f.b == 0 && f.mx == 0 && f.xb 8 24 == 0) (.lease f.ctl (f.xb 0 8))
  | 0x18B => chk (f.noTy && f.d == 0 && f.m 1 4 == 0) (.cwb ⟨f.ctl, f.mx.getLsbD 5, (.ofNum f.a), (.ofNum f.b), f.x⟩ (f.mx.getLsbD 0))
  | 0x18C => chk (f.noTy && f.d == 0 && f.a == 0 && f.b == 0 && f.x == 0 && f.mx == 0) (.tkwait f.ctl)
  | 0x18D => chk (f.noTy && f.a == 0 && f.b == 0 && f.x == 0 && f.mx == 0) (.tkstat f.ctl (.ofNum f.d))
  | _ => none

/-- The fields of sync, 0x200-0x209 (R280), by opcode. -/
def shapeSync (f : Fields) : Nat → Option Instr
  | 0x200 => (Scope.ofCode (f.m 2 3)).bind fun s => chk (f.noTy && f.d == 0 && f.b == 0 && f.m 0 2 == 0 && f.m 5 1 == 0 && f.xb 6 26 == 0) (.semset f.ctl s (.ofNum f.a) (f.xb 0 6))
  | 0x201 => (Scope.ofCode (f.m 2 3)).bind fun s => chk (f.noTy && f.d == 0 && f.b == 0 && f.m 1 1 == 0 && f.m 5 1 == 0 && f.xb 6 10 == 0
      && (if f.mx.getLsbD 0 then f.a == 0 else f.xb 16 16 == 0))
    (.seminc f.ctl s (if f.mx.getLsbD 0 then .imm (f.xb 16 16) else .reg (.ofNum f.a)) (f.xb 0 6))
  | 0x202 => chk (f.noTy && f.b == 0 && f.m 2 4 == 0 && f.xb 6 26 == 0 && (f.mx.getLsbD 1 || f.d == 0))
    (.semwait f.ctl (f.mx.getLsbD 0) (if f.mx.getLsbD 1 then some (.ofNum f.d) else none) (.ofNum f.a) (f.xb 0 6))
  | 0x203 => (Scope.ofCode (f.m 2 3)).bind fun s => chk (f.noTy && f.d == 0 && f.b == 0 && f.m 1 1 == 0 && f.m 5 1 == 0 && f.xb 6 26 == 0) (.barinit f.ctl s (f.mx.getLsbD 0) (.ofNum f.a) (f.xb 0 6))
  | 0x204 => (Scope.ofCode (f.m 2 3)).bind fun s => chk (f.noTy && f.a == 0 && f.b == 0 && f.m 0 1 == 0 && f.m 5 1 == 0 && f.xb 6 10 == 0 && f.xb 26 6 == 0
      && (f.mx.getLsbD 1 || f.d == 0))
    (.bararr f.ctl s (if f.mx.getLsbD 1 then some (.ofNum f.d) else none) (f.xb 0 6) (f.xb 16 10))
  | 0x205 => (Scope.ofCode (f.m 2 3)).bind fun s => chk (f.noTy && f.d == 0 && f.b == 0 && f.m 0 2 == 0 && f.m 5 1 == 0 && f.xb 6 26 == 0) (.barwait f.ctl s (.ofNum f.a) (f.xb 0 6))
  | 0x206 => (Scope.ofCode (f.m 2 3)).bind fun s => chk (f.noTy && f.d == 0 && f.b == 0 && f.m 0 2 == 0 && f.m 5 1 == 0 && f.xb 4 12 == 0 && f.xb 26 6 == 0)
    (.rbararr f.ctl s (.ofNum f.a) (f.xb 0 4) (f.xb 16 10))
  | 0x207 => (Scope.ofCode (f.m 2 3)).bind fun s => chk (f.noTy && f.d == 0 && f.b == 0 && f.m 0 2 == 0 && f.m 5 1 == 0 && f.xb 7 25 == 0) (.cmset f.ctl s (.ofNum f.a) (f.xb 0 4) (f.xb 4 3))
  | 0x208 => (Scope.ofCode (f.m 2 3)).bind fun s => chk (f.noTy && f.d == 0 && f.b == 0 && f.m 0 2 == 0 && f.m 5 1 == 0 && f.xb 7 25 == 0) (.cmclr f.ctl s (.ofNum f.a) (f.xb 0 4) (f.xb 4 3))
  | 0x209 => chk (f.noTy && f.d == 0 && f.b == 0 && f.m 1 5 == 0 && f.xb 7 25 == 0) (.cmwait f.ctl (f.mx.getLsbD 0) (.ofNum f.a) (f.xb 0 4) (f.xb 4 3))
  | _ => none

/-- The fields of copy, 0x240-0x245 (R296), by opcode. -/
def shapeCopy (f : Fields) : Nat → Option Instr
  | 0x240 => chk (f.noTy && f.d == 0 && f.b == 0 && f.x == 0 && f.m 2 4 == 0) (.cpchain f.ctl (f.m 0 2).toFin (.ofNum f.a))
  | 0x241 => chk (f.noTy && f.d == 0 && f.b == 0 && f.x == 0 && f.m 2 4 == 0) (.tcopy f.ctl (f.m 0 2).toFin (.ofNum f.a))
  | 0x242 => chk (f.noTy && f.a == 0 && f.b == 0 && f.x == 0 && f.m 3 3 == 0) (.cpstat f.ctl (f.m 0 2).toFin (f.mx.getLsbD 2) (.ofNum f.d))
  | 0x243 => chk (f.noTy && f.d == 0 && f.a == 0 && f.b == 0 && f.x == 0 && f.m 2 4 == 0) (.cpabort f.ctl (f.m 0 2).toFin)
  | 0x244 => chk (f.noTy && f.a == 0 && f.b == 0 && f.m 2 4 == 0 && f.xb 20 12 == 0) (.rwopen f.ctl (f.m 0 2).toFin (.ofNum f.d) (f.xb 0 10) (f.xb 10 10))
  | 0x245 => chk (f.noTy && f.d == 0 && f.a == 0 && f.b == 0 && f.x == 0 && f.m 2 4 == 0) (.rwclose f.ctl (f.m 0 2).toFin)
  | _ => none

/-- The fields of matrix, 0x280-0x28A (R325), by opcode. -/
def shapeMatrix (f : Fields) : Nat → Option Instr
  | 0x280 => chk (f.noTy && f.b == 0 && f.mx == 0 && f.xb 4 28 == 0) (.obres f.ctl (f.xb 0 4).toFin (.ofNum f.d) (.ofNum f.a))
  | 0x281 => chk (f.noTy && f.d == 0 && f.a == 0 && f.b == 0 && f.mx == 0 && f.xb 4 28 == 0) (.obfree f.ctl (f.xb 0 4).toFin)
  | 0x282 => chk (f.noTy && f.d == 0 && f.b == 0 && f.mx == 0 && f.xb 4 28 == 0) (.obset f.ctl (f.xb 0 4).toFin (.ofNum f.a))
  | 0x283 => chk (f.noTy && f.d == 0 && f.m 1 5 == 0 && f.xb 4 4 == 0 && f.xb 13 19 == 0)
    (.thand f.ctl (f.xb 0 4).toFin (f.xb 8 4).toFin (f.mx.getLsbD 0) (f.x.getLsbD 12) (.ofNum f.a) (.ofNum f.b))
  | 0x284 => chk (f.noTy && f.d == 0 && f.a == 0 && f.b == 0 && f.mx == 0 && f.mxoZ) (.mma f.mxo)
  | 0x285 => chk (f.noTy && f.d == 0 && f.a == 0 && f.b == 0 && f.mx == 0 && f.mxoZ) (.mmas f.mxo)
  | 0x286 => chk (f.noTy && f.d == 0 && f.a == 0 && f.b == 0 && f.mx == 0 && f.mxoZ) (.accz f.mxo)
  | 0x287 => chk (f.noTy && f.d == 0 && f.a == 0 && f.b == 0 && f.mx == 0 && f.mxoZ) (.accld f.mxo)
  | 0x288 => (Rm.ofCode (f.m 0 3)).bind fun rm => chk (f.noTy && f.d == 0 && f.a == 0 && f.m 4 2 == 0 && f.mxoZ && (rm == .sr || f.b == 0))
    (.accdrain f.mxo rm (f.mx.getLsbD 3) (if rm == .sr then some (.ofNum f.b) else none))
  | 0x289 => (Rm.ofCode (f.m 0 3)).bind fun rm => chk (f.noTy && f.d == 0 && f.a == 0 && f.m 3 3 == 0 && f.mxoZ && (rm == .sr || f.b == 0))
    (.accmx f.mxo rm (if rm == .sr then some (.ofNum f.b) else none))
  | 0x28A => chk (f.noTy && f.a == 0 && f.b == 0 && f.m 1 5 == 0 && f.xb 2 30 == 0) (.mxstat f.ctl (f.xb 0 2).toFin (f.mx.getLsbD 0) (.ofNum f.d))
  | _ => none

/-- The fields of nib, 0x300-0x305 (R350), by opcode. -/
def shapeNib (f : Fields) : Nat → Option Instr
  | 0x300 => chk (f.noTy && f.d == 0 && f.b == 0 && f.mx == 0 && f.xb 2 6 == 0 && f.xb 15 17 == 0) (.nbind f.ctl (f.xb 0 2).toFin (.ofNum f.a) (f.x.getLsbD 14) (f.xb 8 6))
  | 0x301 => chk (f.noTy && f.d == 0 && f.a == 0 && f.b == 0 && f.mx == 0 && f.xb 2 30 == 0) (.nunbind f.ctl (f.xb 0 2).toFin)
  | 0x302 => chk (f.noTy && f.d == 0 && f.b == 0 && f.m 1 5 == 0 && f.xb 2 2 == 0 && f.xb 8 24 == 0) (.ngrant f.ctl (f.xb 0 2).toFin (f.mx.getLsbD 0) (.ofNum f.a) (f.xb 4 4).toFin)
  | 0x303 => (finOf 3 (f.m 0 2).toNat).bind fun k => chk (f.noTy && f.b == 0 && f.m 3 3 == 0 && f.xb 2 30 == 0 && (k == 2 || f.a == 0))
    (.nstat f.ctl (f.xb 0 2).toFin k (f.mx.getLsbD 2) (.ofNum f.d) (if k == 2 then some (.ofNum f.a) else none))
  | 0x304 => (Ty.ofCode f.ty).bind fun t => (Scope.ofCode (f.m 2 3)).bind fun s => (Order.ofCode (f.m 0 2)).bind fun o => chk f.plain (.nldc (f.mem t s o))
  | 0x305 => chk (f.noTy && f.d == 0 && f.b == 0 && f.m 1 5 == 0 && f.xb 2 30 == 0 && (!f.mx.getLsbD 0 || f.a == 0))
    (.nabort f.ctl (f.xb 0 2).toFin (if f.mx.getLsbD 0 then none else some (.ofNum f.a)))
  | _ => none

/-- The fields of access slice, 0x340-0x345 (R148), by opcode. -/
def shapeSlice (f : Fields) : Nat → Option Instr
  | 0x340 => (xReg f.d).bind fun d => if f.imm then chk (f.ctl == Ctl.zero && f.ty == 0 && f.mx == 0 && !f.creg && f.a == 0 && f.b == 0) (.amov d (.imm f.x))
    else (xReg f.a).bind fun a => chk (f.ctl == Ctl.zero && f.ty == 0 && f.mx == 0 && !f.creg && f.b == 0 && f.x == 0) (.amov d (.x a))
  | 0x341 => (xReg f.d).bind fun d => (xReg f.a).bind fun a => if f.imm then chk (f.ctl == Ctl.zero && f.ty == 0 && f.mx == 0 && !f.creg && f.b == 0) (.aadd d a (.imm f.x))
    else (xReg f.b).bind fun b => chk (f.ctl == Ctl.zero && f.ty == 0 && f.mx == 0 && !f.creg && f.x == 0) (.aadd d a (.x b))
  | 0x342 => (xReg f.a).bind fun a => chk (f.ctl == Ctl.zero && f.ty == 0 && f.mx == 0 && !f.creg && !f.imm && f.d == 0 && f.b == 0) (.aloop a f.x)
  | 0x343 => (qReg f.d).bind fun q => (xReg f.a).bind fun a => (xReg f.b).bind fun b => chk (f.ctl == Ctl.zero && f.ty == 0 && f.mx == 0 && !f.creg && !f.imm) (.aldq q a b f.x)
  | 0x344 => (qReg f.d).bind fun q => (xReg f.a).bind fun a => (xReg f.b).bind fun b => chk (f.ctl == Ctl.zero && f.ty == 0 && f.mx == 0 && !f.creg && !f.imm) (.astq q a b f.x)
  | 0x345 => chk (f.ctl == Ctl.zero && f.ty == 0 && f.mx == 0 && !f.creg && !f.imm && f.d == 0 && f.a == 0 && f.b == 0 && f.x == 0) .aend
  | _ => none

/-- The fields of system, 0x380-0x387 (R397), by opcode. -/
def shapeSystem (f : Fields) : Nat → Option Instr
  | 0x380 => chk (f.noTy && f.a == 0 && f.b == 0 && f.mx == 0 && f.xb 12 20 == 0) (.csrr f.ctl (.ofNum f.d) (f.xb 0 12))
  | 0x381 => chk (f.noTy && f.d == 0 && f.b == 0 && f.mx == 0 && f.xb 12 20 == 0) (.csrw f.ctl (.ofNum f.a) (f.xb 0 12))
  | 0x382 => (finOf 3 (f.m 0 2).toNat).bind fun k => chk (f.noTy && f.d == 0 && f.b == 0 && f.m 3 3 == 0 && f.xb 20 12 == 0 && (k == 0 || f.a == 0))
    (.tlbinv f.ctl k (f.mx.getLsbD 2) (if k == 0 then some (.ofNum f.a) else none) (f.xb 0 20))
  | 0x383 => chk (f.noTy && f.d == 0 && f.b == 0 && f.mx == 0 && f.xb 16 16 == 0) (.rmapinv f.ctl (.ofNum f.a) (f.xb 0 16))
  | 0x384 => chk (f.noTy && f.b == 0 && f.mx == 0 && f.xb 5 27 == 0) (.ctxsave f.ctl (.ofNum f.d) (.ofNum f.a) (f.xb 0 5))
  | 0x385 => chk (f.noTy && f.b == 0 && f.x == 0 && f.mx == 0) (.ctxload f.ctl (.ofNum f.d) (.ofNum f.a))
  | 0x386 => chk (f.noTy && f.d == 0 && f.a == 0 && f.b == 0 && f.x == 0 && f.mx == 0) (.dbghalt f.ctl)
  | 0x387 => chk (f.noTy && f.d == 0 && f.a == 0 && f.b == 0 && f.x == 0 && f.mx == 0) (.dbgres f.ctl)
  | _ => none

/-- Why a word is not an instruction. -/
inductive DecodeErr where
  /-- OP is 0x000: a clause header (R50). -/
  | header
  /-- An unassigned or reserved opcode (R58). -/
  | illegalOpcode
  /-- A field, M bit or X bit that the entry does not allow (R38, R39). -/
  | illegalOperand
deriving DecidableEq, Repr

/-- The fields and the decoded instruction of an assigned opcode; none where a field is not allowed. -/
def Fields.shape (f : Fields) : Option Instr :=
  let o := f.op.toNat
  if o < 0x080 then shapeInt f o else if o < 0x100 then shapeFloat f o else if o < 0x140 then shapeCross f o
  else if o < 0x180 then shapeControl f o else if o < 0x200 then shapeMem f o else if o < 0x240 then shapeSync f o
  else if o < 0x280 then shapeCopy f o else if o < 0x300 then shapeMatrix f o else if o < 0x340 then shapeNib f o
  else if o < 0x380 then shapeSlice f o else shapeSystem f o

/-- The opcode is assigned (R57, R58). -/
def opAssigned (o : Nat) : Bool :=
  (0x001 ≤ o && o ≤ 0x021) || (0x080 ≤ o && o ≤ 0x096) || (0x100 ≤ o && o ≤ 0x105) || (0x140 ≤ o && o ≤ 0x14F)
  || (0x180 ≤ o && o ≤ 0x18D) || (0x200 ≤ o && o ≤ 0x209) || (0x240 ≤ o && o ≤ 0x245) || (0x280 ≤ o && o ≤ 0x28A)
  || (0x300 ≤ o && o ≤ 0x305) || (0x340 ≤ o && o ≤ 0x345) || (0x380 ≤ o && o ≤ 0x387)

/-- The instruction with these fields, where they are legal. -/
def Fields.instr (f : Fields) : Option Instr :=
  match f.shape with
  | some i => if i.wf then some i else none
  | none => none

/-- The decoder: total on any 96 bits. Register numbers are read whatever they name; their classes and the warp's
allocation are checked as the word issues (R61). -/
def decode (w : Word96) : Except DecodeErr Instr :=
  let f := Fields.ofWord w
  if f.op = 0 then .error .header
  else if !opAssigned f.op.toNat then .error .illegalOpcode
  else match f.instr with
    | some i => .ok i
    | none => .error .illegalOperand

/-- A clause header's fields (R50); `bad` says that a reserved bit is set. -/
structure Header where
  len   : Nat
  wait  : BitVec 12
  setA  : Option (BitVec 4)
  setB  : Option (BitVec 4)
  meld  : Bool
  prio  : BitVec 12
  /-- Some rule of R51 is broken. -/
  bad   : Bool
deriving DecidableEq, Repr, Inhabited

/-- Reads a clause header; none where OP is not 0x000. -/
def Header.ofWord (w : Word96) : Option Header :=
  if w.extractLsb' 0 10 = 0#10 then
    let fa := w.extractLsb' 26 4
    let va := w.getLsbD 30
    let fb := w.extractLsb' 31 4
    let vb := w.getLsbD 35
    let len := (w.extractLsb' 10 4).toNat
    some {
      len, wait := w.extractLsb' 14 12, meld := w.getLsbD 36, prio := w.extractLsb' 38 12
      setA := if va then some fa else none
      setB := if vb then some fb else none
      bad := len == 0 || (va && 12 ≤ fa.toNat) || (vb && 12 ≤ fb.toNat) || (!va && fa != 0#4) || (!vb && fb != 0#4)
        || w.getLsbD 37 || w.extractLsb' 50 46 != 0#46 }
  else none

/-- The header word with these fields; the fields of an invalid set are 0. -/
def Header.toWord (h : Header) : Word96 :=
  (0#46 : BitVec 46) ++ h.prio ++ (0#1 : BitVec 1) ++ BitVec.ofBool h.meld
    ++ BitVec.ofBool h.setB.isSome ++ h.setB.getD 0#4 ++ BitVec.ofBool h.setA.isSome ++ h.setA.getD 0#4
    ++ h.wait ++ BitVec.ofNat 4 h.len ++ (0#10 : BitVec 10)

/-! ### The encoder -/

/-- Fields that are all 0 but the opcode, guard and hints. -/
def fld (op : BitVec 10) (c : Ctl) : Fields := ⟨op, 0, 0, 0, c, false, false, 0, 0, 0⟩

/-- Adds B or X. -/
def Fields.withSrc (f : Fields) : Src → Fields
  | .reg r => { f with b := r.num }
  | .imm x => { f with imm := true, x := x }
def encAlu3 (op : BitVec 10) (o : Alu3) (mx : BitVec 6) : Fields :=
  { fld op o.c with d := o.d.num, a := o.a.num, ty := o.ty.code, mx := mx }.withSrc o.b
def encAluR (op : BitVec 10) (o : AluR) (mx : BitVec 6) (x : Word) : Fields :=
  { fld op o.c with d := o.d.num, a := o.a.num, b := o.b.num, ty := o.ty.code, mx := mx, x := x }
def encAlu2 (op : BitVec 10) (o : Alu2) (mx : BitVec 6) (x : Word) : Fields :=
  { fld op o.c with d := o.d.num, a := o.a.num, ty := o.ty.code, mx := mx, x := x }
def encAlu4 (op : BitVec 10) (o : Alu4) (mx : BitVec 6) : Fields :=
  { fld op o.c with d := o.d.num, a := o.a.num, b := o.b.num, ty := o.ty.code, mx := mx, creg := true, x := o.e.num.setWidth 32 }
def encMem (op : BitVec 10) (m : MemOp) : Fields :=
  { fld op m.c with d := m.d.num, a := m.a.num, b := m.b.num, ty := m.ty.code, x := m.off, mx := BitVec.ofBool m.sp ++ m.scope.code ++ m.ord.code }
def encHint (op : BitVec 10) (o : HintOp) (l : Bool) : Fields :=
  { fld op o.c with a := o.a.num, b := o.b.num, x := o.off, mx := BitVec.ofBool o.sp ++ 0#4 ++ BitVec.ofBool l }
def encAtom (op : BitVec 10) (o : AtomOp) (k : BitVec 4) (d : BitVec 10) : Fields :=
  { fld op o.c with d := d, a := o.a.num, b := o.b.num, ty := o.ty.code, x := k ++ o.off, mx := BitVec.ofBool o.sp ++ o.scope.code ++ o.ord.code }
def encMx (op : BitVec 10) (o : MxOp) (mx : BitVec 6) (seed : Option Reg) : Fields :=
  { fld op o.c with mx := mx, b := (seed.map Reg.num).getD 0, x := 0#2 ++ BitVec.ofNat 4 o.bar.val ++ BitVec.ofBool o.barq ++ BitVec.ofBool o.baren ++ 0#3
                      ++ BitVec.ofNat 5 o.count.val ++ BitVec.ofNat 4 o.hb.val ++ BitVec.ofNat 4 o.ha.val ++ 0#3
                      ++ BitVec.ofNat 5 o.acc.val }
/-- M[9:4] with only bit 4 as given. -/
def mBit (b : Bool) : BitVec 6 := 0#5 ++ BitVec.ofBool b
/-- M[8:6] SCOPE with bits 5 and 4. -/
def mScope (s : Scope) (b5 b4 : Bool) : BitVec 6 := 0#1 ++ s.code ++ BitVec.ofBool b5 ++ BitVec.ofBool b4
/-- The number of an index register's field. -/
def xNum (n : Fin 16) : BitVec 10 := BitVec.ofNat 10 n.val
/-- The number of a queue's field. -/
def qNum (n : Fin 16) : BitVec 10 := BitVec.ofNat 10 (832 + n.val)
def optNum (r : Option Reg) : BitVec 10 := (r.map Reg.num).getD 0

/-- The fields of an instruction's word; an event has none. -/
def Instr.fields : Instr → Option Fields
  | .iadd o s => some (encAlu3 0x001 o (mBit s))
  | .isub o s => some (encAlu3 0x002 o (mBit s))
  | .imul o s => some (encAlu3 0x003 o (mBit s))
  | .imulhi o => some (encAlu3 0x004 o 0)
  | .imad o s => some (encAlu4 0x005 o (mBit s))
  | .idiv o => some (encAlu3 0x006 o 0)
  | .irem o => some (encAlu3 0x007 o 0)
  | .imin o => some (encAlu3 0x008 o 0)
  | .imax o => some (encAlu3 0x009 o 0)
  | .iabs o s => some (encAlu2 0x00A o (mBit s) 0)
  | .ineg o s => some (encAlu2 0x00B o (mBit s) 0)
  | .land o => some (encAlu3 0x00C o 0)
  | .lor o => some (encAlu3 0x00D o 0)
  | .lxor o => some (encAlu3 0x00E o 0)
  | .landn o => some (encAlu3 0x00F o 0)
  | .lnot o => some (encAlu2 0x010 o 0 0)
  | .shl o => some (encAlu3 0x011 o 0)
  | .shr o => some (encAlu3 0x012 o 0)
  | .sar o => some (encAlu3 0x013 o 0)
  | .rol o => some (encAlu3 0x014 o 0)
  | .bfx o => some (encAlu3 0x015 o 0)
  | .bfi o => some (encAlu4 0x016 o 0)
  | .popc o => some (encAlu2 0x017 o 0 0)
  | .clz o => some (encAlu2 0x018 o 0 0)
  | .ctz o => some (encAlu2 0x019 o 0 0)
  | .brev o => some (encAlu2 0x01A o 0 0)
  | .prmt o e => match e with
    | none => some (encAlu3 0x01B o 0)
    | some r => some { encAlu3 0x01B o 0 with creg := true, x := r.num.setWidth 32 }
  | .iset o k => some (encAlu3 0x01C o (0#3 ++ k.code))
  | .pset c k d a b => some { fld 0x01D c with d := d.num, a := a.num, b := b.num, mx := 0#4 ++ k.code }
  | .sel o p n => some (encAlu3 0x01E o (0#2 ++ BitVec.ofBool n ++ BitVec.ofNat 3 p.val))
  | .mov o => some (encAlu2 0x01F o 0 0)
  | .movi c t hi d x => some { fld 0x020 c with d := d.num, ty := t.code, mx := mBit hi, x := x }
  | .lea o k sx x => some (encAluR 0x021 o (0#2 ++ BitVec.ofBool sx ++ BitVec.ofNat 3 k.val) x)
  | .fadd o rm => some (encAlu3 0x080 o (0#3 ++ rm.code))
  | .fsub o rm => some (encAlu3 0x081 o (0#3 ++ rm.code))
  | .fmul o rm => some (encAlu3 0x082 o (0#3 ++ rm.code))
  | .ffma o rm => some (encAlu4 0x083 o (0#3 ++ rm.code))
  | .fmin o => some (encAlu3 0x084 o 0)
  | .fmax o => some (encAlu3 0x085 o 0)
  | .fset o k => some (encAlu3 0x086 o (0#2 ++ k.code))
  | .fclass o x => some (encAlu2 0x087 o 0 x)
  | .frcp o rm => some (encAlu2 0x088 o (0#3 ++ rm.code) 0)
  | .frsq o rm => some (encAlu2 0x089 o (0#3 ++ rm.code) 0)
  | .fsqrt o rm => some (encAlu2 0x08A o (0#3 ++ rm.code) 0)
  | .fdiv o rm => some (encAlu3 0x08B o (0#3 ++ rm.code))
  | .fexp2 o => some (encAlu2 0x08C o 0 0)
  | .flog2 o => some (encAlu2 0x08D o 0 0)
  | .fsin o => some (encAlu2 0x08E o 0 0)
  | .fcos o => some (encAlu2 0x08F o 0 0)
  | .ftanh o => some (encAlu2 0x090 o 0 0)
  | .frnd o rm ex => some (encAlu2 0x091 o (0#2 ++ BitVec.ofBool ex ++ rm.code) 0)
  | .cvt o rm sat seed sty desc => some { encAlu2 0x092 o (0#2 ++ BitVec.ofBool sat ++ rm.code) (0#8 ++ sty.code ++ desc) with b := optNum seed }
  | .fdot2 o rm => some (encAluR 0x093 o (0#3 ++ rm.code) 0)
  | .fdot4 o rm n => some (encAluR 0x094 o (0#3 ++ rm.code) (0#13 ++ n))
  | .fscale o rm => some (encAluR 0x095 o (0#3 ++ rm.code) 0)
  | .fflags c k d b => some (Fields.withSrc { fld 0x096 c with d := optNum d, mx := 0#3 ++ BitVec.ofBool d.isNone ++ k.code } b)
  | .shfl o k g => some (encAlu3 0x100 o (0#1 ++ BitVec.ofNat 3 g.val ++ k.code))
  | .vote c k d a => some { fld 0x101 c with d := d.num, a := a.num, mx := 0#4 ++ k.code }
  | .matchv o al => some (encAlu2 0x102 o (mBit al) 0)
  | .redux o k rm => some (encAlu2 0x103 o (rm.code.setWidth 2 ++ 0#1 ++ k.code) 0)
  | .scan o k ex rm => some (encAlu2 0x104 o (rm.code.setWidth 2 ++ BitVec.ofBool ex ++ k.code) 0)
  | .lanemask c k d => some { fld 0x105 c with d := d.num, ty := Ty.n32.code, mx := 0#3 ++ k.code }
  | .bra c x => some { fld 0x140 c with x := x }
  | .brd c a n x => some { fld 0x141 c with a := a.num, mx := mBit n, x := x }
  | .brx c a => some { fld 0x142 c with a := a.num }
  | .call c d x => some { fld 0x143 c with d := d.num, x := x }
  | .callx c d a => some { fld 0x144 c with d := d.num, a := a.num }
  | .ret c a => some { fld 0x145 c with a := a.num }
  | .retTr c => some { fld 0x145 c with mx := mBit true }
  | .exit c => some (fld 0x146 c)
  | .yield c n => some { fld 0x147 c with x := n.setWidth 32 }
  | .nop c => some (fld 0x148 c)
  | .waitc c m => some { fld 0x149 c with x := m.setWidth 32 }
  | .ligon c a b => some { fld 0x14A c with a := a.num, b := optNum b, mx := mBit b.isSome }
  | .ligmap c p sl a b => some { fld 0x14B c with a := a.num, b := b.num, mx := BitVec.ofNat 4 sl.val ++ BitVec.ofNat 2 p.val }
  | .ligoff c => some (fld 0x14C c)
  | .trap c x => some { fld 0x14D c with x := x }
  | .svc c a n => some { fld 0x14E c with a := a.num, mx := 0#2 ++ BitVec.ofNat 4 n.val }
  | .brkpt c x => some { fld 0x14F c with x := x }
  | .ld m => some (encMem 0x180 m)
  | .st m => some (encMem 0x181 m)
  | .ldq m => some (encMem 0x182 m)
  | .prf o l => some (encHint 0x183 o l)
  | .atom o k d => some (encAtom 0x184 o k.code d.num)
  | .red o k => some (encAtom 0x185 o k.code 0)
  | .cas o d => some (encAtom 0x186 o 0 d.num)
  | .cas2 o d => some (encAtom 0x187 o 0 d.num)
  | .atomr o k d => some (encAtom 0x188 o k.code d.num)
  | .fence c s o sm pa => some { fld 0x189 c with mx := 0#1 ++ s.code ++ o.code, x := 0#19 ++ pa ++ 0#1 ++ sm }
  | .lease c n => some { fld 0x18A c with x := n.setWidth 32 }
  | .cwb o l => some (encHint 0x18B o l)
  | .tkwait c => some (fld 0x18C c)
  | .tkstat c d => some { fld 0x18D c with d := d.num }
  | .semset c s a n => some { fld 0x200 c with a := a.num, mx := mScope s false false, x := n.setWidth 32 }
  | .seminc c s a n => match a with
    | .reg r => some { fld 0x201 c with a := r.num, mx := mScope s false false, x := n.setWidth 32 }
    | .imm k => some { fld 0x201 c with mx := mScope s false true, x := k ++ 0#10 ++ n }
  | .semwait c dec d a n => some { fld 0x202 c with d := optNum d, a := a.num, x := n.setWidth 32, mx := 0#4 ++ BitVec.ofBool d.isSome ++ BitVec.ofBool dec }
  | .barinit c l r a n => some { fld 0x203 c with a := a.num, mx := mScope l false r, x := n.setWidth 32 }
  | .bararr c l d n k => some { fld 0x204 c with d := optNum d, mx := mScope l d.isSome false, x := 0#6 ++ k ++ 0#10 ++ n }
  | .barwait c l a n => some { fld 0x205 c with a := a.num, mx := mScope l false false, x := n.setWidth 32 }
  | .rbararr c s a n k => some { fld 0x206 c with a := a.num, mx := mScope s false false, x := 0#6 ++ k ++ 0#12 ++ n }
  | .cmset c s a m g => some { fld 0x207 c with a := a.num, mx := mScope s false false, x := 0#25 ++ g ++ m }
  | .cmclr c s a m g => some { fld 0x208 c with a := a.num, mx := mScope s false false, x := 0#25 ++ g ++ m }
  | .cmwait c an a m g => some { fld 0x209 c with a := a.num, mx := mBit an, x := 0#25 ++ g ++ m }
  | .cpchain c ch a => some { fld 0x240 c with a := a.num, mx := BitVec.ofNat 6 ch.val }
  | .tcopy c ch a => some { fld 0x241 c with a := a.num, mx := BitVec.ofNat 6 ch.val }
  | .cpstat c ch cl d => some { fld 0x242 c with d := d.num, mx := 0#3 ++ BitVec.ofBool cl ++ BitVec.ofNat 2 ch.val }
  | .cpabort c ch => some { fld 0x243 c with mx := BitVec.ofNat 6 ch.val }
  | .rwopen c sl d f n => some { fld 0x244 c with d := d.num, mx := BitVec.ofNat 6 sl.val, x := 0#12 ++ n ++ f }
  | .rwclose c sl => some { fld 0x245 c with mx := BitVec.ofNat 6 sl.val }
  | .obres c r d a => some { fld 0x280 c with d := d.num, a := a.num, x := BitVec.ofNat 32 r.val }
  | .obfree c r => some { fld 0x281 c with x := BitVec.ofNat 32 r.val }
  | .obset c r a => some { fld 0x282 c with a := a.num, x := BitVec.ofNat 32 r.val }
  | .thand c h r col ub a b => some { fld 0x283 c with a := a.num, b := b.num, mx := mBit col, x := 0#19 ++ BitVec.ofBool ub ++ BitVec.ofNat 4 r.val ++ 0#4 ++ BitVec.ofNat 4 h.val }
  | .mma o => some (encMx 0x284 o 0 none)
  | .mmas o => some (encMx 0x285 o 0 none)
  | .accz o => some (encMx 0x286 o 0 none)
  | .accld o => some (encMx 0x287 o 0 none)
  | .accdrain o rm sat seed => some (encMx 0x288 o (0#2 ++ BitVec.ofBool sat ++ rm.code) seed)
  | .accmx o rm seed => some (encMx 0x289 o (0#3 ++ rm.code) seed)
  | .mxstat c k cl d => some { fld 0x28A c with d := d.num, mx := mBit cl, x := BitVec.ofNat 32 k.val }
  | .nbind c n a e k => some { fld 0x300 c with a := a.num, x := 0#17 ++ BitVec.ofBool e ++ k ++ 0#6 ++ BitVec.ofNat 2 n.val }
  | .nunbind c n => some { fld 0x301 c with x := BitVec.ofNat 32 n.val }
  | .ngrant c n r a k => some { fld 0x302 c with a := a.num, mx := mBit r, x := 0#24 ++ BitVec.ofNat 4 k.val ++ 0#2 ++ BitVec.ofNat 2 n.val }
  | .nstat c n k cl d a => some { fld 0x303 c with d := d.num, a := optNum a, mx := 0#3 ++ BitVec.ofBool cl ++ BitVec.ofNat 2 k.val, x := BitVec.ofNat 32 n.val }
  | .nldc m => some (encMem 0x304 m)
  | .nabort c n a => some { fld 0x305 c with a := optNum a, mx := mBit a.isNone, x := BitVec.ofNat 32 n.val }
  | .amov d a => match a with
    | .x a => some { fld 0x340 .zero with d := xNum d, a := xNum a }
    | .imm x => some { fld 0x340 .zero with d := xNum d, imm := true, x := x }
  | .aadd d a b => match b with
    | .x b => some { fld 0x341 .zero with d := xNum d, a := xNum a, b := xNum b }
    | .imm x => some { fld 0x341 .zero with d := xNum d, a := xNum a, imm := true, x := x }
  | .aloop a x => some { fld 0x342 .zero with a := xNum a, x := x }
  | .aldq q a b x => some { fld 0x343 .zero with d := qNum q, a := xNum a, b := xNum b, x := x }
  | .astq q a b x => some { fld 0x344 .zero with d := qNum q, a := xNum a, b := xNum b, x := x }
  | .aend => some (fld 0x345 .zero)
  | .csrr c d n => some { fld 0x380 c with d := d.num, x := n.setWidth 32 }
  | .csrw c a n => some { fld 0x381 c with a := a.num, x := n.setWidth 32 }
  | .tlbinv c k p a pa => some { fld 0x382 c with a := optNum a, mx := 0#3 ++ BitVec.ofBool p ++ BitVec.ofNat 2 k.val, x := pa.setWidth 32 }
  | .rmapinv c a n => some { fld 0x383 c with a := a.num, x := n.setWidth 32 }
  | .ctxsave c d a n => some { fld 0x384 c with d := d.num, a := a.num, x := n.setWidth 32 }
  | .ctxload c d a => some { fld 0x385 c with d := d.num, a := a.num }
  | .dbghalt c => some (fld 0x386 c)
  | .dbgres c => some (fld 0x387 c)
  | _ => none

/-- The word of an instruction; an event has none. -/
def encode (i : Instr) : Option Word96 := i.fields.map Fields.toWord

/-- The instruction that the decoder reads from an instruction whose bits are `w`; the words are laid out
little-endian from the lowest address, so bit 0 of `w` is bit 0 of the 96-bit word (R5, R36). -/
def decodeTableWord (nbits w : Nat) : Option Instr :=
  match decode (BitVec.ofNat 96 (w % 2 ^ nbits)) with
  | .ok i => some i
  | .error _ => none

end Sys2Proof
end

