-- ==== Sys2Proof/Machine/Tab.lean ====
section
/-! DEFINITION. Sparse storage: a list of numbered values in one canonical form (numbers strictly rising, no entry
equal to what an unlisted number reads as), and sets of numbers as strictly rising lists. -/

namespace Sys2Proof.Machine

/-- What number `k` holds; `d` is what an unlisted number reads as. -/
def tabGet {α : Type} (d : α) : List (Nat × α) → Nat → α
  | [], _ => d
  | (j, v) :: t, k => if k = j then v else tabGet d t k

/-- Puts an entry in its place among rising numbers, over an entry of the same number. -/
def tabPut {α : Type} : List (Nat × α) → Nat → α → List (Nat × α)
  | [], k, v => [(k, v)]
  | (j, u) :: t, k, v =>
    if k < j then (k, v) :: (j, u) :: t else if k = j then (k, v) :: t else (j, u) :: tabPut t k v

/-- Puts `v` at `k`; the value an unlisted number reads as removes the entry. -/
def tabSet {α : Type} [DecidableEq α] (d : α) (t : List (Nat × α)) (k : Nat) (v : α) : List (Nat × α) :=
  if v = d then t.filter (fun e => e.1 != k) else tabPut t k v

/-- The canonical form: numbers above `lo` and strictly rising, no entry equal to `d`. -/
def tabWfFrom {α : Type} [DecidableEq α] (d : α) : Nat → List (Nat × α) → Bool
  | _, [] => true
  | lo, (j, v) :: t => decide (lo ≤ j) && decide (v ≠ d) && tabWfFrom d (j + 1) t

/-- The canonical form of a whole table. -/
def tabWf {α : Type} [DecidableEq α] (d : α) (t : List (Nat × α)) : Bool := tabWfFrom d 0 t

/-- Drops the entries numbered `lo` up to `hi - 1`. -/
def tabDrop {α : Type} (lo hi : Nat) (t : List (Nat × α)) : List (Nat × α) :=
  t.filter fun e => e.1 < lo || hi ≤ e.1

/-- A set of numbers holds `k`. -/
def setHas (s : List Nat) (k : Nat) : Bool := s.contains k

/-- Adds `k` to a set. -/
def setAdd : List Nat → Nat → List Nat
  | [], k => [k]
  | j :: t, k => if k < j then k :: j :: t else if k = j then j :: t else j :: setAdd t k

/-- Takes `k` out of a set. -/
def setDel (s : List Nat) (k : Nat) : List Nat := s.filter (· != k)

/-- Adds or takes out `k`. -/
def setPut (s : List Nat) (k : Nat) (b : Bool) : List Nat := if b then setAdd s k else setDel s k

/-- Drops the numbers `lo` up to `hi - 1`. -/
def setDrop (lo hi : Nat) (s : List Nat) : List Nat := s.filter fun k => k < lo || hi ≤ k

/-- The first element that satisfies `p`, with the list where `f` has replaced it. -/
def updFirst {α : Type} (p : α → Bool) (f : α → α) : List α → List α
  | [] => []
  | x :: t => if p x then f x :: t else x :: updFirst p f t

end Sys2Proof.Machine
end

