-- ==== Sys2Proof/Machine/State.lean ====
section
/-! DEFINITION. The state of one GX3 device as plain data: every register, memory, queue and table that the spec gives
the machine, the host memory beside it, and the state after reset. INVENTORY.md names the rule of each. -/

namespace Sys2Proof.Machine

/-! ### Warps -/

/-- A frontier entry (R150). -/
structure Entry where
  pc    : Dword
  depth : Fin 64
  prio  : BitVec 12
  mask  : Mask
deriving DecidableEq, Repr, Inhabited

/-- The running clause of the issuing entry: its header's address, its words, the position 1..LEN of the next
instruction (R52, R56). -/
structure Clause where
  at_   : Dword
  hdr   : Header
  words : List Word96
  pos   : Nat
deriving DecidableEq, Repr, Inhabited

/-- One valid slot of the ligature map (R155). -/
structure LigSlot where
  path : Fin 4
  slot : Fin 16
  src  : Nat
  tgt  : Nat
deriving DecidableEq, Repr, Inhabited

/-- The ligature state of a warp (R153-R155): bit 0 and bit 1 of each lane's path id, the valid slots, and what
LIGON, LIGMAP and LIGOFF leave for the next clause boundary (R54). -/
structure Lig where
  on      : Bool
  path0   : Mask
  path1   : Mask
  map     : List LigSlot
  pendOn  : Bool          -- a LIGON of this clause has issued
  pendMap : List LigSlot  -- LIGMAP writes of this clause, in order
  pendOff : Bool
deriving DecidableEq, Repr, Inhabited

/-- The paths of accesses (10 R226, R220). -/
inductive Path where
  | lsu (slot : Nat)
  | cpy (ch : Nat)
  | mtx
  | nib (n : Nat)
  | ace (wg : Nat)
  | fetch (slot : Nat)
deriving DecidableEq, Repr, Inhabited

/-- What an access does (R185). -/
inductive AccKind where
  | load | store | prf (l2 : Bool) | cwb (flush : Bool) | fetch | nldc
  | atom (k : AOp) | red (k : AOp) | cas | cas2 | atomr (k : AOp)
  | row                    -- the translations of one row of a copy record (R196)
  | bind                   -- a read of NBIND: descriptor, window or matrix row (R347)
deriving DecidableEq, Repr, Inhabited

/-- Where a value read goes: slots of the register file (32 p + lane, low word first), a scalar register, a lane of
a queue entry, or nowhere. -/
inductive Dest where
  | regs (idx : List Nat)
  | sreg (n : Fin 64)
  | qlane (q id lane : Nat)
  | none
deriving DecidableEq, Repr, Inhabited

/-- One lane of an access: address, bytes, operand (and compare value) as little-endian numbers, poison of the
operand, destination; `grp` holds the lanes that an ATOMR combines, with their operands and destinations (R219). -/
structure LaneAcc where
  lane : Nat
  va   : Dword
  size : Nat
  data : Nat
  cmp  : Nat
  dest : Dest
  grp  : List (Nat × Nat × Dest)
deriving DecidableEq, Repr, Inhabited

/-- One access in flight: the lanes of one instruction that fall in one line, or one row, fetch or slice access. -/
structure Access where
  id    : Nat              -- age: program order of the warp or engine (R185)
  path  : Path
  kind  : AccKind
  pasid : BitVec 20
  scr   : Bool             -- made by the scribe warp (R176)
  sp    : Bool             -- SPACE 1: the lanes' addresses are offsets into the quad scratchpad (R204)
  pc    : Dword
  pos   : Nat              -- its position in the clause, for the trap frame (R63)
  ty    : Ty
  ord   : Order
  scope : Scope
  lease : BitVec 8
  op    : Option Nat       -- the long-latency operation that it belongs to (R49)
  lanes : List LaneAcc
deriving DecidableEq, Repr, Inhabited

/-- A value on its way to a register (R144). -/
structure RegWrite where
  dest   : Dest
  ty     : Ty
  val    : Nat
  poison : Bool
deriving DecidableEq, Repr, Inhabited

/-- A long-latency instruction in flight (R49): the flag it counts on, the parts not yet performed, and the register
writes that land when it completes. -/
structure LongOp where
  id     : Nat
  flag   : Fin 12
  parts  : Nat
  writes : List RegWrite
  flags  : Flags5          -- of a matrix entry (R83)
  engine : Bool            -- completion is an engine's event (matrix entry, copy chain), not a load's
deriving DecidableEq, Repr, Inhabited

/-- A posted write that is performed and not yet acknowledged (R244): its stamp, where its home is on the core's die (R256), and,
for a TRK line, the line with its data and poison as the slice holds it after the write, which the core's L1 copy takes at the
acknowledgement. -/
structure Posted where
  id   : Nat
  wts  : Option (BitVec 16)
  upd  : Option (Nat × BitVec 1024 × BitVec 2)
  born : Nat                        -- the number of the write (log 17)
deriving DecidableEq, Repr, Inhabited

/-- A translation held by an array (R174, R177, R180). -/
structure Xlat where
  pasid : BitVec 20
  va    : Nat                      -- base of the page
  size  : Nat
  pa    : Nat                      -- base physical address, or the host's
  mt    : Fin 6                    -- memory type (R175)
  rd    : Bool
  w     : Bool
  x     : Bool
  scr   : Bool
  home  : Option (Fin 16)          -- another device of the pod
deriving DecidableEq, Repr, Inhabited

/-- An access that waits behind older ones of its warp, with the translation that it was given at issue (R197); a SPACE 1 access
has none. -/
structure Defer where
  acc : Access
  xl  : Option Xlat
deriving DecidableEq, Repr, Inhabited

/-- What a warp waits for before it may issue again (R139). -/
inductive Wait where
  | none
  | flags (m : BitVec 12) (lanes : Mask)                          -- WAITC (R163)
  | sem (n : Nat) (thr : Word) (dec : Bool) (d : Option (Fin 64)) (id : Nat)  -- SEMWAIT (R273)
  | cm (m g : Nat) (v : Dword) (any : Bool)                       -- CMWAIT (R281)
  | bar (level : Scope) (n : Nat) (tok : Word) (lanes : Mask)     -- BARWAIT (R275)
  | tkwait                                                        -- TKWAIT (R223)
  | fence (ord : Order) (st : BitVec 7) (path : BitVec 5) (id : Nat)  -- release half of FENCE (R220)
  | svc (a : Fin 64) (count : Nat) (rec_ : Nat)                   -- SVC (R168)
  | nunbind (n gen : Nat)                                         -- NUNBIND, of the bind numbered gen (R348)
  | obfree (r : Fin 16)                                           -- OBFREE (R326)
  | fetch                                                         -- a fetch ticket (R193)
  | transfer                                                      -- a ticketed transfer target (R158)
deriving DecidableEq, Repr, Inhabited

/-- A cause that waits for an instruction boundary (R64). -/
structure Cause where
  code  : Nat
  mask  : Mask
  pc    : Dword
  pos   : Nat
  va    : Dword
  xcode : Word
  tkst  : BitVec 4
  skip  : Bool
deriving DecidableEq, Repr, Inhabited

/-- A frontier spill, refill or merge that is under way (R152). -/
inductive SpillJob where
  | spill | refill | merge
deriving DecidableEq, Repr, Inhabited

/-- What a trap saves beside its frame in memory (R384). -/
structure Saved where
  front   : List Entry
  spilled : List Entry
  lig     : Lig
deriving DecidableEq, Repr, Inhabited

/-- An open register-file window (R293). -/
structure RWin where
  slot : Fin 4
  f    : Nat
  n    : Nat
deriving DecidableEq, Repr, Inhabited

/-- An access of a warp that is under way elsewhere: its age, what it is to the ordering rules, its virtual and its physical
lines. -/
structure OutAcc where
  id   : Nat
  rd   : Bool
  acq  : Bool
  stor : Nat                    -- storage bit of R220; 7 for DEV
  sp   : Bool
  line : Nat
  locs : List Nat               -- physical lines (R229)
  rep  : Bool                   -- the replay of a ticket (R191)
  tkw  : Bool                   -- a RED, or a store to a nib: TKWAIT waits for it (R208, R214)
deriving DecidableEq, Repr, Inhabited

/-- One warp (R22, R89, R94, R139, R150-R156). -/
structure Warp where
  wg      : Option Nat          -- its workgroup's number on the core; none for the scribe warp
  num     : Nat                 -- %warp
  base    : Nat                 -- first physical warp-register (R93)
  n       : Nat                 -- its allocation (R91)
  pasid   : BitVec 20
  cls     : Fin 4
  sregs   : Vector Dword 64
  sPois   : BitVec 64
  preds   : Vector Mask 8
  cflags  : Vector (BitVec 6) 12
  fflags  : Vector Flags5 32    -- %flags of each lane
  mflags  : Vector Flags5 12    -- matrix flags not yet merged, by completion flag (R83)
  sbPend  : List Nat            -- scalar registers that a barrier's answer will write (R281)
  lease   : BitVec 8
  front   : List Entry          -- live entries; the head is the issuing entry while a clause runs
  spilled : List Entry          -- records of the frontier spill area
  job     : Option SpillJob
  clause  : Option Clause
  resume  : Option Nat          -- the next clause resumes at this position (R53, R387)
  unread  : Bool                -- the head entry has reached a header whose PRIO is not yet read (R55)
  lig     : Lig
  stall   : Bool
  yieldHold : Option (List Nat) -- slots of its class that have not issued since; the hold ends when none of them is eligible (R47)
  yieldCc : Bool                -- the cc count of YIELD runs (R163)
  last    : Option Nat          -- the count of issues at its last issue (R140)
  wait    : Wait
  ops     : List LongOp
  posted  : List Posted
  deferred : List Defer         -- accesses that wait behind holds, tickets or releases (R191, R210)
  out     : List OutAcc         -- accesses that wait at a slice, a nib, a peer or a window port
  acqF    : List (Nat × BitVec 7 × BitVec 5) -- FENCEs whose acquire half is not done: id, storage, paths (R220)
  loadWts : Option (BitVec 16)  -- the largest stamp of the lines that its loads have read (R220)
  seen    : Nat                 -- the number of the latest write that it has made or read (log 17)
  loadHz  : Nat                 -- the latest release that its loads have read, for a later acquire FENCE (log 17)
  relHz   : Nat                 -- what its last release FENCE published, which its later stores carry (log 17)
  nibRef  : Option Mask         -- lanes whose store a nib refused (R208)
  causes  : List Cause
  handler : Option Saved
  escal   : Option Cause        -- a cause that waits for the scribe warp (R388)
  frameVa : Dword               -- its trap frame (R385)
  framePa : Nat
  wins    : List RWin
  ended   : Bool
  stopped : Bool                -- stopped by the scribe warp (R392)
  idNext  : Nat                 -- numbers its accesses and operations
  twin    : List (Nat × Nat × Nat)  -- writes of the batch: key, size, data (R422)
  held    : List Defer          -- those writes, held back until the digests match, with the translations that they were given (R197)
  batch   : Nat
deriving DecidableEq, Repr, Inhabited

/-! ### Workgroups and engines of a core -/

/-- An entry of a queue port (R145): lanes, their poison, and the lanes that have landed (R211). -/
structure QEntry where
  id     : Nat
  lanes  : Vector Word 32
  poison : Mask
  landed : Mask
deriving DecidableEq, Repr, Inhabited

/-- How a kernel connects q0-q15 (R43, R145). -/
inductive QConn where
  | none | operand | store
deriving DecidableEq, Repr, Inhabited

/-- The state of an access slice (R147, R60). -/
inductive SliceSt where
  | none | running | ended | halted
deriving DecidableEq, Repr, Inhabited

/-- A reservation record (R306). -/
structure Resv where
  desc   : BitVec 20
  keep   : Nat
  sparse : Bool
  bcol   : Bool
  fmt    : Nat
  len    : Nat
  base   : Nat
  mdoff  : Nat
  scoff  : Nat
  cols   : Nat
  rows   : Nat
deriving DecidableEq, Repr, Inhabited

/-- What a tile handle is bound to (R309). -/
structure View where
  res  : Fin 16
  row  : Nat
  colo : Nat
  nr   : Nat
  nc   : Nat
  col  : Bool       -- the column port
deriving DecidableEq, Repr, Inhabited

/-- The operation of a matrix FIFO entry (R314). -/
inductive MxKind where
  | mma | mmas | accz | accld | accdrain | accmx
deriving DecidableEq, Repr, Inhabited

/-- An entry of the matrix FIFO: the views captured at the post (R309, R314). -/
structure MxEntry where
  id    : Nat
  wg    : Nat
  slot  : Nat
  op    : Nat                      -- the posting warp's long-latency operation
  cls   : Fin 4
  kind  : MxKind
  acc   : Nat
  count : Nat
  a     : Option (Resv × View)
  b     : Option (Resv × View)
  same  : Bool                     -- HB equals HA (R320)
  rm    : Rm
  sat   : Bool
  seed  : Word
  bar   : Option (Bool × Nat)      -- quad barrier, number
  run   : Bool                     -- started
  left  : Nat                      -- array cycles not yet run (R322)
  done  : List (Nat × Nat)         -- what other agents have seen of it: elements with their additions, units of a drain (R317)
  fl    : Flags5                   -- the flags of those
deriving DecidableEq, Repr, Inhabited

/-- The open batch of a twinned engine (R422): its outside writes as address, size and data, and the writes held back. -/
structure TwinLog where
  writes : List (Nat × Nat × Nat)
  held   : List Defer
  batch  : Nat
deriving DecidableEq, Repr, Inhabited

/-- A workgroup resident on a core (R89, R266, R286, R304, R330). -/
structure Wg where
  id     : Nat
  die    : Nat                     -- the walker of its graph
  graph  : Nat
  node   : Nat
  gang   : Nat                     -- %gang
  wgno   : Nat                     -- %wg
  wgs    : Nat                     -- workgroups of the gang
  ngang  : Nat                     -- %ngang
  pasid  : BitVec 20
  cls    : Fin 4
  warps  : Nat
  trapv  : Dword
  semMask  : BitVec 64
  cmMask   : BitVec 16
  barMask  : BitVec 16
  qbarMask : BitVec 8
  chanMask : BitVec 4
  nibMask  : BitVec 4
  dbarMask : BitVec 32
  pbarMask : BitVec 32
  podMask  : BitVec 64
  spadBase : Nat                   -- first 512-B row
  spadRows : Nat
  span     : Nat                   -- the span code k (R269)
  obBase   : Nat
  obLen    : Nat
  accBase  : Nat
  accN     : Nat
  qconn  : Vector QConn 16
  queues : Vector (List QEntry) 24
  x      : Vector Dword 16
  slicePc : Dword
  sliceWord : Option Word96        -- the fetched slice word
  sliceSt : SliceSt
  resv   : List (Nat × Resv)
  hands  : List (Nat × View)
  tw     : TwinLog               -- of the slice
  lastErr : Byte
  acyc   : Word
  gstall : Word
  stq    : Option (QEntry × Mask)  -- the entry that a begun ASTQ has popped, and the lanes that it has stored (R148, R186)
  ldq    : Option QEntry           -- what a begun ALDQ has loaded, by lanes
  stopping : Bool                  -- chosen for pre-emption
  ending : Bool                    -- its warps stop so that they may be ended (R389)
  born   : Nat                     -- the tick of its placement
deriving DecidableEq, Repr, Inhabited

/-- A core or quad barrier, or one of the wider levels (R275, R277): EXPECT, COUNT, PHASE, RMT, and the matrix flags
of the current phase and of each earlier one that had any, by its number (R83; log 80). -/
structure Bar where
  expect : Nat
  count  : Nat
  phase  : Word
  rmt    : Bool
  cur    : Flags5
  done   : List (Word × Flags5)
  hz     : Nat                   -- the latest release that an arrival carried (log 17)
deriving DecidableEq, Repr, Inhabited

/-- A waiter of a semaphore, in the event order of its issue (R273). -/
structure SemWait where
  sem  : Nat
  slot : Nat
  thr  : Word
  dec  : Bool
deriving DecidableEq, Repr, Inhabited

/-- A posted write to the sync unit (R281). -/
inductive SyncOp where
  | semSet (v : Word) | semInc (v : Word) | cmSet (g : Nat) (v : Dword) | cmClr (g : Nat) (v : Dword)
deriving DecidableEq, Repr, Inhabited

/-- A posted write on its way to the sync unit of its core: the warp and the age of the instruction, whether it is a
release, the semaphore or map. -/
structure SyncMsg where
  slot : Nat
  id   : Nat
  rel  : Bool
  n    : Nat
  op   : SyncOp
deriving DecidableEq, Repr, Inhabited

/-- An arrival on its way to a barrier (R275, R277): from a warp, or from a matrix entry with its flags (R83). -/
structure Arrival where
  core  : Nat                      -- the arriving core
  level : Scope
  tgt   : Nat                      -- the core of a core barrier
  n     : Nat                      -- barrier number
  count : Nat
  wg    : Option Nat               -- the workgroup that it comes from
  warp  : Option (Nat × Nat)       -- slot and age, for a warp's arrival
  rel   : Bool
  ret   : Option (Fin 64)
  rmt   : Bool                     -- RBARARR
  pasid : BitVec 20
  flags : Flags5
deriving DecidableEq, Repr, Inhabited

/-- A mailbox record (R168) with the tag that no agent can write (R376). -/
structure MailRec where
  idx   : Nat
  slot  : Nat                      -- the tag: the warp slot of the SVC,
  wg    : Nat                      -- its workgroup,
  pasid : BitVec 20                -- its PASID,
  count : Nat                      -- its COUNT
  pc    : Dword                    -- and its PC
  words : List Dword
  taken : Bool
  reply : Option (List Dword)      -- the answer, before it is written to the warp
deriving DecidableEq, Repr, Inhabited

/-- A posted chain of a copy channel (R291, R297, R298). -/
structure CpPost where
  slot : Nat
  op   : Nat
  head : Dword
  tcopy : Option (BitVec 512)
  dead : Bool                      -- discarded by CPABORT when the record in progress ends
deriving DecidableEq, Repr, Inhabited

/-- The record in progress (R287-R290). -/
structure CpRec where
  at_     : Option Dword           -- none for TCOPY
  rec_    : BitVec 512
  own     : Bool                   -- its signals go to the posting core's sync unit (R290)
  tgts    : List Nat               -- else to those of these cores
  far     : Bool                   -- else to cores of another device
  begun   : Bool                   -- DST is translated and the record's own checks are done (R288)
  rows    : List Nat               -- rows performed
  chunks  : List Nat               -- chunks signalled
  status  : Byte
  drop    : Bool                   -- a signal was dropped
deriving DecidableEq, Repr, Inhabited

/-- A copy channel (R286, R291, R299). -/
structure Chan where
  wg     : Option Nat
  queue  : List CpPost             -- the head queue; the head is the chain in progress once begun
  busy   : Bool
  next   : Dword                   -- the record to read next
  cur    : Option CpRec
  lastSt : Byte
  ovf    : Bool
  done   : BitVec 16
  gen    : Nat                     -- numbers its records: parts of an earlier one have no effect on a later
  tw     : TwinLog
deriving DecidableEq, Repr, Inhabited

/-- Slot states of a nib (R337). -/
inductive SlotSt where
  | empty | filling | ready | applying | done | failed
deriving DecidableEq, Repr, Inhabited

/-- A slot of a nib (R337, R339): the vector's bytes and bitmap, the claiming agent, the order in which it became
READY, the result. -/
structure Slot where
  st    : SlotSt
  owner : BitVec 16
  bytes : List (Nat × Byte)
  map   : List Nat
  vpois : List Nat                 -- vector bytes stored with poison
  seq   : Nat
  res   : List Byte
  rpois : List Nat                 -- result elements with poison
  drop  : Bool                     -- discard when the application ends (R349)
deriving DecidableEq, Repr, Inhabited

/-- The NBIND steps (R347, R353). -/
inductive NibSt where
  | unbound | loading | bound
deriving DecidableEq, Repr, Inhabited

/-- A load that waits at a nib (R343): of a warp, of an engine, of the host or of another device. -/
structure NibLoad where
  core : Nat                       -- requesting core; 384 the host, 385 + d device d
  acc  : Access
  pas  : List Nat                  -- the lanes' physical addresses
  slot : Nat
deriving DecidableEq, Repr, Inhabited

/-- A nib of a core (R332, R337, R338, R344). -/
structure Nib where
  wg     : Option Nat
  st     : NibSt
  desc   : BitVec 512
  descAt : Dword
  pasid  : BitVec 20
  cls    : Fin 4
  scribe : Bool                    -- bound at system software's request (R341)
  sva    : Nat                     -- physical base of the stroke window
  tva    : Nat
  gran   : Nat                     -- first granule of the nib store
  granN  : Nat
  writers : List (BitVec 16 × BitVec 16)
  readers : List (BitVec 16 × BitVec 16)
  slots  : List Slot
  mpois  : List (Nat × Nat)        -- poisoned matrix elements
  loads  : List NibLoad
  refcnt : BitVec 16
  nrcnt  : BitVec 16
  failcnt : BitVec 16
  appcnt : BitVec 16
  nflags : Flags5
  lastNr : Byte
  lastErr : Byte
  tkst   : BitVec 4
  sem    : Option Nat              -- the workgroup's semaphore to increment (R347)
  unbind : Bool                    -- an NUNBIND waits for the APPLYING slots
  gen    : Nat                     -- numbers its binds
  read   : Bool                    -- the descriptor of a bind has been read
  win    : Option (Xlat × Xlat)    -- what a bind has allotted: the translations of its windows
  got    : List (Nat × List (Byte × Bool))  -- the matrix rows that a bind has read
deriving DecidableEq, Repr, Inhabited

/-- A line of a core's L1 (R177, R242). -/
structure L1Line where
  pasid : BitVec 20
  vline : Nat
  pline : Nat
  data  : BitVec 1024
  pois  : BitVec 2
  wts   : BitVec 16
  rts   : BitVec 16
  wExp  : Bool                     -- the scrub has marked wts expired (R248)
  exp   : Bool                     -- rts is expired
  born  : Nat                      -- the writes that its data takes in (log 17)
  rel   : Nat                      -- the release that its data carries (log 17)
deriving DecidableEq, Repr, Inhabited

/-- How far the ATS request of a miss on a host address has come (R180). -/
inductive MissAts where
  | none | out | absent | err | lost
deriving DecidableEq, Repr, Inhabited

/-- A translation miss on its way to the owner (R177, R181, R183). -/
structure Miss where
  id   : Nat
  acc  : Access
  va   : Dword
  need : BitVec 3                  -- RD, W, X
  busy : Bool                      -- answered BUSY
  kept : Option Word               -- a replay that missed again, or waits: it keeps the entry of its ticket (R188, R191)
  ats  : MissAts
deriving DecidableEq, Repr, Inhabited

/-- A translation that an access under way will be performed with (R196, R197): of a part of an engine's work, or of a fetch that a
notice has let go on. -/
structure Kept where
  path : Path
  id   : Nat
  x    : Xlat
deriving DecidableEq, Repr, Inhabited

/-- How far a ticket's status query has come (R190, R195). -/
inductive Query where
  | none | due | asked
deriving DecidableEq, Repr, Inhabited

/-- An entry of a core's ticket table (R185). -/
structure Ticket where
  tid   : Word
  acc   : Access
  va    : Dword
  need  : BitVec 3
  query : Query
  notice : Option (BitVec 4)       -- recorded while the core is halted (R396)
deriving DecidableEq, Repr, Inhabited

/-- An access on its way to a nib or a window port (R207, R293): the requesting core and the lanes' physical addresses. -/
structure InMsg where
  core : Nat
  acc  : Access
  pas  : List Nat
deriving DecidableEq, Repr, Inhabited

/-- What a nib has answered to a read of an engine of the core that waited there (R340, R343): the place, the bytes and their
poison. -/
structure EngGot where
  path  : Path
  pa    : Nat
  bytes : List (Byte × Bool)
deriving DecidableEq, Repr, Inhabited

/-- One core (R16, R29, R398). -/
structure Core where
  rf     : List (Nat × Word)       -- warp-register p, lane l at 32 p + l
  rfPois : List Nat
  spad   : List (Nat × Byte)       -- physical bytes
  spadPois : List Nat              -- 64-B units
  ob     : List (Nat × Byte)
  obPois : List Nat                -- 64-B units
  acc    : List (Nat × Word)       -- element: tile × 8192 + 64 i + j
  accPois : List Nat
  nibStore : List (Nat × Byte)
  sems   : Vector Word 64
  semQ   : List SemWait
  syncQ  : List SyncMsg
  hz     : Nat                     -- the latest release that the core has acquired (log 17)
  syncHz : Nat                     -- the latest release that a write to the sync unit or window carried (log 17)
  engHz  : Nat                     -- the number of the latest write that an engine of the core has made or read (log 17)
  nibHz  : Nat                     -- the latest release that a store to a nib of the core carried (log 17)
  cmaps  : Vector (BitVec 512) 16
  bars   : Vector Bar 16
  mail   : List MailRec
  mailMem : List (Nat × Byte)      -- the mailbox's 1 KiB
  tickets : List Ticket
  misses : List Miss
  xkeep  : List Kept
  tlb    : List Xlat
  l1     : List L1Line
  pts    : BitVec 16
  engPosted : List Posted          -- writes of the core's engines that are not yet acknowledged (R245)
  engGot : List EngGot             -- answers of nibs that its engines have not yet taken (R343)
  chans  : Vector Chan 4
  fifo   : List MxEntry
  govB   : BitVec 9
  govNow : BitVec 9                -- the budget of the running window (R449)
  govPlat : BitVec 9
  govUsed : BitVec 9
  govBlocked : Bool
  nibs   : Vector Nib 4
  nibLeft : Nat                    -- array cycles of the running pass not yet run
  nibIn  : List InMsg
  rbref  : Word
  halted : Bool
  haltReq : Bool
  inW    : List InMsg              -- inbound register-file writes at the window port (R293)
  bpw    : List InMsg              -- back-pressured inbound writes (R295)
  bpEng  : List (Nat × Path)       -- the engines of cores whose writes are back-pressured at this core (R295, R398)
  wgs    : List Wg
  warps  : Vector (Option Warp) 32
  issues : Nat                     -- issues so far, for R140
  pHist  : Vector (List Bool) 4    -- of each partition's last 1,024 issues, which were of class P (R142)
  seq    : Nat                     -- numbers misses, workgroups and entries
  scribeSt : Nat                   -- restarts of Bammar on this core (R388)
deriving DecidableEq, Repr, Inhabited

/-! ### Dies: coherence, translation and the control processors -/

/-- What a die's L2 may do with a line (R251): it is the home, holds a read-only copy, or is the owner. -/
inductive L2St where
  | home | shared | owner
deriving DecidableEq, Repr, Inhabited

/-- A TRK line's tag in a die's L2 (R242, R248). -/
structure L2Tag where
  line : Nat
  st   : L2St
  wts  : BitVec 16
  rts  : BitVec 16
  wExp : Bool
  rExp : Bool
  pois : BitVec 2                  -- the halves of a read-only copy that are poisoned apart from the line itself (R85)
deriving DecidableEq, Repr, Inhabited

/-- An UNT line's copy in a die's L2 (R257): its data, the bytes the die has written, poison of its halves. -/
structure UntCopy where
  line : Nat
  data : BitVec 1024
  mask : BitVec 128
  pois : BitVec 2
deriving DecidableEq, Repr, Inhabited

/-- States of a home's directory entry (R251). -/
inductive DirSt where
  | i | s | m | b
deriving DecidableEq, Repr, Inhabited

/-- A requester that a home has refused (R252, R253): die L2 (device × 4 + die), first stamp. -/
structure Refused where
  agent : Nat
  stamp : Dword
deriving DecidableEq, Repr, Inhabited

/-- A directory entry at its home (R251-R254). -/
structure DirEnt where
  line    : Nat
  st      : DirSt
  sharers : List Nat
  owner   : Option Nat
  refusals : Nat
  refused : List Refused
  resv    : Option Nat              -- the requester that it is reserved for
  go      : Bool                    -- a go message has been sent
  fwd     : Option Nat              -- the reader that a forward serves (R254)
  wbIn    : Bool                    -- a writeback has arrived while it waits (R254)
deriving DecidableEq, Repr, Inhabited

/-- A die's refused request that backs off (R252). -/
structure Retry where
  line    : Nat
  kind    : DirKind
  stamp   : Dword
  backoff : Nat
deriving DecidableEq, Repr, Inhabited

/-- What an access waits for at the L2 or the home (R247, R251, R252, R258). -/
inductive Hold where
  | dir (kind : DirKind)            -- the die needs S or M
  | busy                            -- the line is in B at its home
  | ltlim (w : BitVec 16)           -- LTLIM must reach this stamp
  | snoop                           -- a back-invalidate response is outstanding
deriving DecidableEq, Repr, Inhabited

/-- An access that waits at a slice: the line, the requesting core, why. -/
structure SliceWait where
  line : Nat
  core : Nat
  acc  : Access
  mt   : Fin 6                      -- the memory type of its page
  pas  : List Nat                   -- the lanes' physical addresses
  hold : Hold
deriving DecidableEq, Repr, Inhabited

/-! ### Translation owners and pages -/

/-- The root of a device PASID's tables (R173). -/
structure Root where
  pasid : BitVec 20
  root  : Nat
  host  : Bool             -- a space shared with a host process (R171, R180)
deriving DecidableEq, Repr, Inhabited

/-- A declared range (R461). -/
structure Range where
  pasid : BitVec 20
  va    : Nat
  bytes : Nat
  unt   : Bool
  rd    : Bool
  w     : Bool
  x     : Bool
  big   : Bool          -- 2-MiB pages
  src   : FillSource
deriving DecidableEq, Repr, Inhabited

/-- How far the service of a ticket has come at its owner (R180, R181, R183, R404). -/
inductive Phase where
  | fresh               -- not yet serviced
  | atsDue (again : Bool)     -- an ATS request is to be sent; `again` after a page request
  | atsOut (again : Bool)
  | priDue              -- waits in the MMP's queue of page requests
  | priOut (group : Nat)
  | assist              -- a FAULTREC is pending (R458)
  | noticed             -- the notice of status OK has been posted: a page hold
deriving DecidableEq, Repr, Inhabited

/-- An ATS Translation Request that the host has not answered: of a miss, or of a ticket's record (R180). -/
inductive AtsReq where
  | miss (core id : Nat)
  | tick (index : Nat)
deriving DecidableEq, Repr, Inhabited

/-- A replay notice on its way to the requester (R181, R184). -/
structure Notice where
  core : Nat
  tid  : Word
  st   : BitVec 4
deriving DecidableEq, Repr, Inhabited

/-- An owner's record of a ticket (R182, R183). -/
structure OwnRec where
  index : Nat
  gen   : BitVec 10
  core  : Nat              -- 384 for the die's own walker, 385 + d for a requester of device d (R179)
  pasid : BitVec 20
  va    : Dword
  need  : BitVec 3
  phase : Phase
  scr   : Bool             -- asked for by a scribe warp (R176)
  xl    : Option Xlat      -- the host's translation, kept while the notice's page hold lasts (R183)
deriving DecidableEq, Repr, Inhabited

/-- A message of the system-call ring (R379): the core and the gathered mailbox records. -/
structure RingMsg where
  core : Nat
  recs : List Nat
deriving DecidableEq, Repr, Inhabited

/-- An arena of the buddy allocator (R381): free and live blocks as (offset, log2 size). -/
structure Arena where
  pasid : BitVec 20
  base  : Nat
  unt   : Bool
  free  : List (Nat × Nat)
  live  : List (Nat × Nat)
deriving DecidableEq, Repr, Inhabited

/-- A node of a submitted graph: its TCB and overflow successors as read at submission, and what the walker keeps
(R364-R372). -/
structure Node where
  tcb    : BitVec 1024
  ovf    : List Nat
  pred   : Nat
  status : Nat
  runMk  : Bool              -- a decrement since the last reload carried run
  held   : List Bool         -- decrements held until the reload
  order  : Option Nat        -- event order of becoming READY
  release : Bool             -- waits for the host's release record (R458)
  args   : Option (List Dword)
  kd     : Option (BitVec 512)
  next   : Nat               -- the next gang to place
  back   : List Nat          -- pre-empted gangs
  placed : Nat               -- gangs placed and not retired
  doom   : Option Nat        -- the failure that it retires with (R362)
  waited : Option (List Nat) -- quads (die × 24 + quad) kept for it (R370, R371)
deriving DecidableEq, Repr, Inhabited

/-- A submitted graph (R364). -/
structure Graph where
  id    : Nat
  tag   : Word
  pasid : BitVec 20
  table : Dword
  nodes : List Node
  fail  : Option (Nat × Nat) -- first failed node, status
deriving DecidableEq, Repr, Inhabited

/-- A wide barrier's allotment (R276, R374): the work that holds it. -/
structure WideBar where
  bar   : Bar
  owner : Option (Nat × Nat × Nat)   -- die, graph, node
  pasid : Option (BitVec 20)
deriving DecidableEq, Repr, Inhabited

/-- What a quad keeps (R177, R178, R276). -/
structure Quad where
  tlb2  : List Xlat
  rmap  : List (Nat × BitVec 20 × Nat)   -- physical line, PASID, virtual line
  bars  : Vector Bar 8
deriving DecidableEq, Repr, Inhabited

/-- One die (R16, R246-R258, R181, R364, R379). -/
structure Die where
  fwc    : BitVec 16
  fwcExp : Bool                      -- the scrub has marked it expired (R248)
  ltlim  : BitVec 16
  evmax  : Vector (BitVec 16) 32
  evExp  : Vector Bool 32
  l2     : List L2Tag
  unt    : List UntCopy
  dirs   : List DirEnt
  retries : List Retry
  wbufs  : List Nat                  -- lines in the writeback buffer (R254)
  waits  : List SliceWait
  snoop  : List (Nat × Bool)         -- recorded line, host may hold it modified (R258)
  bisnp  : List Nat                  -- lines whose back-invalidate snoop is outstanding (R258)
  offers : List Nat                  -- dirty lines whose home cannot be reached (R419)
  roots  : List Root
  ranges : List Range
  ptes   : List (Nat × Dword)        -- Bammar's copies of entries, by address (R461)
  frames : List (Nat × Nat)          -- free frames: base, bytes
  own    : List OwnRec
  ats    : List AtsReq               -- oldest first
  notices : List Notice
  hx     : List Xlat                 -- host translations of the graph walker
  cpuW   : List (BitVec 20 × Dword × List Byte)  -- writes of the walker that wait for one
  gens   : List (Nat × BitVec 10)    -- next generation of an index; unlisted 0
  graphs : List Graph
  decs   : List (Nat × Nat × Bool)   -- decrements in event order: graph, node, run
  readySeq : Nat
  bars   : Vector WideBar 32
  arenas : List Arena
  ring   : List RingMsg
  windows : List (Nat × Nat × Bool × Nat × Nat)  -- nib windows: base, bytes, trace, core, nib (R335)
  quads  : Vector Quad 24
deriving DecidableEq, Repr, Inhabited

/-! ### Context images (R393) -/

/-- What a context image holds; the spec gives it no byte layout. -/
structure Image where
  at_    : Nat                       -- physical address of the context area
  pages  : List (Nat × Fin 6)        -- the places and memory types of its pages; none where Bammar keeps it (log 38)
  tag    : Nat                       -- the tick of the save, which its bytes there depend on (log 38)
  core   : Nat                       -- the core that it was saved from
  wg     : Wg
  warps  : List Warp
  slots  : List Nat                 -- the slots that they held
  regs   : List (Nat × List (Nat × Word))   -- warp number, its register slots relative to its base
  rpois  : List (Nat × List Nat)
  tickets : List Ticket
  misses : List Miss                 -- those that waited behind older accesses of their warps (R191)
  spad   : List (Nat × Byte)         -- relative to the allocation
  spadPois : List Nat
  ob     : List (Nat × Byte)
  obPois : List Nat
  acc    : List (Nat × Word)
  accPois : List Nat
  hz     : Nat                       -- the releases that its core, sync unit and engines had acquired or made (R228; log 17)
  syncHz : Nat
  engHz  : Nat
  sems   : Vector Word 64
  semQ   : List SemWait
  cmaps  : Vector (BitVec 512) 16
  bars   : Vector Bar 16
  qbars  : Vector Bar 8
  chans  : Vector Chan 4
  fifo   : List MxEntry
  mail   : List MailRec
  pts    : BitVec 16
  ptsExp : Bool                      -- the scrub has marked it expired (R248)
deriving DecidableEq, Repr, Inhabited

/-! ### Host port, links, twins, modes, management -/

/-- The host port's registers and rings (R403, R406-R408). -/
structure Port where
  hpcap   : Dword
  h2dBase : Dword
  h2dSize : Dword
  h2dBell : Word
  h2dRx   : Word
  d2hBase : Dword
  d2hSize : Dword
  d2hTx   : Word
  d2hAck  : Word
  d2hDrop : Dword
  d2hNext : Word                     -- the sequence number of the next message raised
  kept    : List (Word × BitVec 512) -- messages kept, in order
  hpwSeq  : Word
  hpwLost : Dword
  h2dSet  : Bool                     -- the host has written H2DBASE (R407)
  d2hSet  : Bool
  lossEv  : Nat                      -- PLDM events that have reported a loss of the link (R420, R455)
  cpl     : Option (List (Byte × Bool)) -- the last completion to the host: its bytes with their poison, or an error response (R402)
deriving DecidableEq, Repr, Inhabited

/-- The functions that may be host-assisted (R410, R458). -/
structure ModeSt where
  host : Bool
  want : Option Bool                 -- a change that waits for pending requests (R460)
deriving DecidableEq, Repr, Inhabited

/-- A pending assist request (R458, R459). -/
inductive AssistReq where
  | fault (die index : Nat)
  | ready (die graph node : Nat)
  | alloc (reqid : Word) (core rec_ : Nat)
  | view (port : Nat)
  | contain (logidx : Nat) (die graph node : Nat)
deriving DecidableEq, Repr, Inhabited

/-- The assist ring pair (R459). -/
structure Assist where
  abase  : Dword
  asize  : Nat
  a2dBell : Word
  a2dRx  : Word
  d2aTx  : Word
  d2aAck : Word
  d2aNext : Word
  kept   : List (Word × BitVec 512)
  pend   : List AssistReq
  late   : List (Nat × Nat × Nat × Nat) -- tasks stopped by contained errors (record, die, graph, node) whose requests wait for a place
  reqid  : Word
deriving DecidableEq, Repr, Inhabited

/-- The state of a pod link (R411, R417, R418). -/
inductive LinkSt where
  | down | up | training
deriving DecidableEq, Repr, Inhabited

/-- A Rindihan port (R412-R418). -/
structure RPort where
  st     : LinkSt
  peer   : Option (Fin 16)
  view   : Dword                     -- agreed view, as bits [63:0] of a view record; 0 when down
  own    : Dword                     -- own view record
  peerV  : Option Dword              -- the peer's record, once intact
  hostV  : Option (Byte × BitVec 2)  -- an answer of the host that waits for the peer's (R459)
  txLseq : BitVec 12
  rxLseq : BitVec 12
  retry  : List (BitVec 12 × BitVec 2048)
  nakOf  : BitVec 12
  nakN   : Nat
  lock   : Bool                      -- its training has ended (R417)
  ctl    : Option (BitVec 2048)      -- the last view, ack or NAK flit that it has sent (R413, R417, R418)
deriving DecidableEq, Repr, Inhabited

/-- One end of a stream (R414). -/
structure StreamSt where
  id    : StreamId
  send  : Bool
  eseq  : Word                       -- last sent, or last delivered
  unack : List (Word × BitVec 2048)
  since : Nat                        -- flits delivered since the last ack
deriving DecidableEq, Repr, Inhabited

/-- An access that waits at a peer device (R179, R416, R423). -/
structure Remote where
  index : Nat
  core  : Nat
  acc   : Access
  mt    : Fin 6                      -- the memory type of the page
  pas   : List Nat                   -- the lanes' places, as this device names them (R179; log 72)
  dev   : Fin 16
deriving DecidableEq, Repr, Inhabited

/-- What a packet of another device asks of this one, or tells it: an answer to the oldest access that waits at that device; an
access of a core or an engine there, by virtual address and PASID (R179); a request of one of its dies to a directory here, a
writeback, the acknowledgement of an invalidation, the answer to a forward, the last three with a line's data and poison
(R251-R255); from the home of a line that a die of this device caches, an invalidation, a forward or the acknowledgement of a
writeback, whose line is the one at place `pick` of the die's; to device 0 of the pod an
arrival at a pod barrier, or a PODBAR message that allots it to a PASID or frees PASID `free`'s, and from it how a pod barrier stands
(R276, R374); and an access of a nib of this device, from the slice that holds its window, on behalf of the agent `agent`
(R335). -/
inductive PeerPacket where
  | answer
  | access (kind : AccKind) (ty : Ty) (pasid : BitVec 20) (va : Dword) (size data cmp : Nat)
  | grab (die : Fin 4) (kind : DirKind) (pasid : BitVec 20) (va : Dword) (stamp : Dword)
  | writeback (die : Fin 4) (line : Nat) (data : BitVec 1024) (pois : BitVec 2)
  | invalidated (die : Fin 4) (line : Nat) (data : Option (BitVec 1024 × BitVec 2))
  | forwarded (die : Fin 4) (line : Nat) (data : BitVec 1024) (pois : BitVec 2)
  | invalidate (die : Fin 4) (pick : Nat)
  | forward (die : Fin 4) (pick : Nat)
  | acked (die : Fin 4) (pick : Nat)
  | arrive (bar : Fin 64) (count : BitVec 10)
  | podSet (bar : Fin 64) (expect : BitVec 16) (pasid : Option (BitVec 20)) (free : BitVec 20)
  | pod (bar : Fin 64) (phase : Word) (pasid : Option (BitVec 20))
  | nib (core : Nat) (nib : Fin 4) (trace store : Bool) (agent : BitVec 16) (off size data : Nat)
deriving DecidableEq, Repr, Inhabited

/-- A packet of another device that has been delivered and waits to be served: its source number, the die that received it. -/
structure PeerMsg where
  src : BitVec 16
  die : Nat
  pkt : PeerPacket
deriving DecidableEq, Repr, Inhabited

/-- A closed batch of a twinned agent (R422). -/
structure Batch where
  core   : Nat
  agent  : Nat                       -- warp slot 0-30, channel 32-35, slice 40
  index  : Nat
  digest : Dword
  writes : List Defer
deriving DecidableEq, Repr, Inhabited

/-- A twinned partition (R421-R424). -/
structure Twin where
  pasid   : BitVec 20
  second  : Bool
  partner : Fin 16
  quads   : BitVec 96
  batches : List Batch
deriving DecidableEq, Repr, Inhabited

/-- SPDM negotiation (R454). -/
structure Spdm where
  version : Bool
  caps    : Bool
  algs    : Bool
  out     : List Byte                -- the last response
deriving DecidableEq, Repr, Inhabited

/-- The error log's registers and the class of each record, oldest first (R457). -/
structure Errs where
  base  : Nat
  next  : Nat
  lost  : BitVec 16
  fatal : Bool
  cont  : Bool
  recs  : List (Nat × Nat)           -- record index, class
deriving DecidableEq, Repr, Inhabited

/-- Where the device stands: it runs, it stopped in bring-up (R451, R453), or a thermal trip has removed VCORE of every die (R450). -/
inductive Boot where
  | running | recovery | off
deriving DecidableEq, Repr, Inhabited

/-- Fuses and flash (R2, R451-R453). -/
structure Fuses where
  off    : List Nat                  -- fused-off cores
  key    : BitVec 512
  roll   : BitVec 16
  flash  : List Byte
  rom    : List Byte                 -- the boot ROM, for measurement 1 (R454)
deriving DecidableEq, Repr, Inhabited

/-- Who acts next: an event, the issue partition of a core, an access engine, or the host, which writes its own memory, or enables PASID, PRI
and ATS and allots page requests in the device's capabilities (R403, R404; log 23). -/
inductive Act where
  | event (i : Instr)
  | issue (core part : Nat)
  | slice (core : Nat)
  | host (addr : Nat) (byte : Byte)
  | caps (v : Dword)
deriving DecidableEq, Repr, Inhabited

/-- The number of the last write to a line, and the release that the line carries: writes up to that number happen before it (R231-R237;
log 17). -/
structure Mark where
  line : Nat
  at_  : Nat
  rel  : Nat
deriving DecidableEq, Repr, Inhabited

/-- The whole device, with the host memory beside it. -/
structure State where
  tick    : Nat
  agenda  : List Act
  cur     : Nat × Nat                -- core and slot of the issuing warp
  gtc     : Dword
  pkg     : Fin 16
  podId   : BitVec 16
  boot    : Boot
  fuses   : Fuses
  cores   : Vector Core 384
  dies    : Vector Die 4
  hbm     : List Host.Cell           -- device memory; above 2^64, the lines of other devices' memory that this one caches (log 72)
  hbmPois : List Nat                 -- poisoned 64-B units
  hostMem : List Host.Cell
  pbars   : Vector WideBar 32
  podBars : Vector WideBar 64
  arrivals : List Arrival
  images  : List Image
  port    : Port
  modes   : Vector ModeSt 5
  assist  : Assist
  rports  : Vector RPort 15
  streams : List StreamSt
  remotes : List Remote
  remSeq  : Nat
  peerQ   : List PeerMsg             -- oldest first
  twins   : List Twin
  spdm    : Spdm
  sens    : Reading
  sensB   : Vector (BitVec 9) 4      -- B of each die, as the sensors report it (R455)
  errs    : Errs
  writes  : Nat                      -- line writes so far, which number them (log 17)
  marks   : List Mark                -- of the lines written so far (log 17)
  taskHz  : Nat                      -- the latest release of a retired workgroup (R368; log 17)
deriving DecidableEq, Repr

/-- Why a step stops with a fault. -/
inductive Fault where
  /-- Raised by the meaning of an instruction word when `State.cur` names no resident warp (or no running slice), so
  there is no issuer. No step from an agenda or a schedule does so: they issue only for resident agents. Safe. -/
  | noIssuer
deriving DecidableEq, Repr

/-- Why a step is refused. -/
inductive Refusal where
  /-- Raised by exec's arm of an instruction that has no meaning yet. Safe. -/
  | notModelled (mnemonic : String)
deriving DecidableEq, Repr

/-! ### The state after reset (26 R451, step 8) -/

/-- A warp's registers as placement leaves them (R94): `n` warp-registers from `base`. -/
def Warp.fresh (wg : Option Nat) (num base n : Nat) (pasid : BitVec 20) (cls : Fin 4) (entry : Dword)
    (frameVa : Dword) (framePa : Nat) : Warp where
  wg := wg
  num := num
  base := base
  n := n
  pasid := pasid
  cls := cls
  sregs := Vector.replicate 64 0#64
  sPois := 0#64
  preds := Vector.replicate 8 0#32
  cflags := Vector.replicate 12 0#6
  fflags := Vector.replicate 32 0#5
  mflags := Vector.replicate 12 0#5
  sbPend := []
  lease := 10#8
  front := [⟨entry, 0, 0#12, 0xFFFFFFFF#32⟩]
  spilled := []
  job := none
  clause := none
  resume := none
  unread := false
  lig := ⟨false, 0#32, 0#32, [], false, [], false⟩
  stall := false
  yieldHold := none
  yieldCc := false
  last := none
  wait := .none
  ops := []
  posted := []
  deferred := []
  out := []
  acqF := []
  loadWts := none
  seen := 0
  loadHz := 0
  relHz := 0
  nibRef := none
  causes := []
  handler := none
  escal := none
  frameVa := frameVa
  framePa := framePa
  wins := []
  ended := false
  stopped := false
  idNext := 0
  twin := []
  held := []
  batch := 0

/-- The scribe warp of a core (R21, R90, R375): `v0`-`v63` at 4,032, Bammar's firmware entry. -/
def Warp.scribe : Warp := Warp.fresh none 31 4032 64 0#20 0 0#64 0#64 0

/-- A barrier as placement leaves it (R267). -/
def Bar.fresh : Bar := ⟨1, 0, 0#32, false, 0#5, [], 0⟩
def Chan.fresh : Chan := ⟨none, [], false, 0#64, none, 0#8, false, 0#16, 0, ⟨[], [], 0⟩⟩
/-- An unbound nib. -/
def Nib.fresh (wg : Option Nat) : Nib where
  wg := wg
  st := .unbound
  desc := 0#512
  descAt := 0#64
  pasid := 0#20
  cls := 0
  scribe := false
  sva := 0
  tva := 0
  gran := 0
  granN := 0
  writers := []
  readers := []
  slots := []
  mpois := []
  loads := []
  refcnt := 0#16
  nrcnt := 0#16
  failcnt := 0#16
  appcnt := 0#16
  nflags := 0#5
  lastNr := 0#8
  lastErr := 0#8
  tkst := 0#4
  sem := none
  unbind := false
  gen := 0
  read := false
  win := none
  got := []

/-- A core after bring-up: the scribe warp resident in slot 31, everything else empty. -/
def Core.fresh : Core where
  rf := []
  rfPois := []
  spad := []
  spadPois := []
  ob := []
  obPois := []
  acc := []
  accPois := []
  nibStore := []
  sems := Vector.replicate 64 0#32
  semQ := []
  syncQ := []
  hz := 0
  syncHz := 0
  engHz := 0
  nibHz := 0
  cmaps := Vector.replicate 16 0#512
  bars := Vector.replicate 16 Bar.fresh
  mail := []
  mailMem := []
  tickets := []
  misses := []
  xkeep := []
  tlb := []
  l1 := []
  pts := 0#16
  engPosted := []
  engGot := []
  chans := Vector.replicate 4 Chan.fresh
  fifo := []
  govB := 256#9
  govNow := 256#9
  govPlat := 256#9
  govUsed := 0#9
  govBlocked := false
  nibs := Vector.replicate 4 (Nib.fresh none)
  nibLeft := 0
  nibIn := []
  rbref := 0#32
  halted := false
  haltReq := false
  inW := []
  bpw := []
  bpEng := []
  wgs := []
  warps := (Vector.replicate 32 none).set 31 (some Warp.scribe)
  issues := 0
  pHist := Vector.replicate 4 []
  seq := 0
  scribeSt := 0

def WideBar.fresh : WideBar := ⟨Bar.fresh, none, none⟩

/-- A die after bring-up (R249): its frames free but for 2 MiB that Bammar keeps (log 8). -/
def Die.fresh (d : Nat) : Die where
  fwc := 0#16
  fwcExp := false
  ltlim := 1024#16
  evmax := Vector.replicate 32 0#16
  evExp := Vector.replicate 32 false
  l2 := []
  unt := []
  dirs := []
  retries := []
  wbufs := []
  waits := []
  snoop := []
  bisnp := []
  offers := []
  roots := []
  ranges := []
  ptes := []
  frames := [(d * 0x3000000000 + 0x200000, 0x3000000000 - 0x200000)]
  own := []
  ats := []
  notices := []
  hx := []
  cpuW := []
  gens := []
  graphs := []
  decs := []
  readySeq := 0
  bars := Vector.replicate 32 WideBar.fresh
  arenas := []
  ring := []
  windows := []
  quads := Vector.replicate 24 ⟨[], [], Vector.replicate 8 Bar.fresh⟩

def RPort.fresh : RPort := ⟨.down, none, 0#64, 0#64, none, none, 0#12, 0#12, [], 0#12, 0, false, none⟩

/-- The machine right after reset and bring-up (R451): nothing in memory, the scribe warps resident, the host link up
(HPCAP.LINKUP, R403, R451 step 6). -/
def State.reset : State where
  tick := 0
  agenda := []
  cur := (0, 31)
  gtc := 0#64
  pkg := 0
  podId := 0#16
  boot := .running
  fuses := ⟨[], 0#512, 0#16, [], []⟩
  cores := Vector.replicate 384 Core.fresh
  dies := Vector.ofFn fun d => Die.fresh d.val
  hbm := []
  hbmPois := []
  hostMem := []
  pbars := Vector.replicate 32 WideBar.fresh
  podBars := Vector.replicate 64 WideBar.fresh
  arrivals := []
  images := []
  port := ⟨0x8000#64, 0#64, 0#64, 0#32, 0#32, 0#64, 0#64, 0#32, 0#32, 0#64, 1#32, [], 0#32, 0#64, false, false, 0, some []⟩
  modes := Vector.replicate 5 ⟨false, none⟩
  assist := ⟨0#64, 0, 0#32, 0#32, 0#32, 0#32, 1#32, [], [], [], 0#32⟩
  rports := Vector.replicate 15 RPort.fresh
  streams := []
  remotes := []
  remSeq := 0
  peerQ := []
  twins := []
  spdm := ⟨false, false, false, []⟩
  sens := ⟨Vector.replicate 4 0, Vector.replicate 12 0, Vector.replicate 7 0, Vector.replicate 7 0, 0, 0⟩
  sensB := Vector.replicate 4 256#9
  errs := ⟨0, 0, 0#16, false, false, []⟩
  writes := 0
  marks := []
  taskHz := 0

end Sys2Proof.Machine
end

