-- ==== Sys2Proof/Config.lean ====
section
/-! DEFINITION. What the spec leaves open: opaque constants without a body, so that nothing can evaluate them and a
statement holds for every value. Each is applied to the operands it depends on, or to the counter `State.tick` for a
fresh value at each step. -/

namespace Sys2Proof.Config

open Sys2Proof.Machine

/-- Which agent acts next when the agenda is empty (R35, R139-R142 leave the choice open; log 3). -/
opaque schedule (tick : Nat) : Act
/-- The bytes of a context image where CTXSAVE puts it, in an order that the spec leaves open, with its check (R393; log 38). -/
opaque imageByte (tag i : Nat) : Byte
/-- The nanoseconds that pass in a step (R26, R32; log 6). -/
opaque gtcStep (tick : Nat) : BitVec 32
/-- Whether the class-P cap of R142 stands at this step (log 6). -/
opaque capped (tick : Nat) : Bool
/-- Which entry a full array gives up, as an index (R177, R178, R242; log 9). -/
opaque victim (tick : Nat) : Nat
/-- The data bits of poisoned data (R85; log 10). -/
opaque poisonBits (tick index : Nat) : Word
/-- The result of a 32-bit transcendental among the codes within its bound: a choice in 0..3 fixed by the function
and the input bits (R121; log 11). -/
opaque transcPick (fn : Nat) (bits : Word) : Nat
/-- What a peer device answers to a remote access: a value per lane (R179; log 1). -/
opaque peerValue (tick lane : Nat) : BitVec 128
/-- The data of a line that a peer device sends, its poison, and a byte of code there (R179, R194, R251; log 1). -/
opaque peerLine (tick : Nat) : BitVec 1024
opaque peerPois (tick : Nat) : BitVec 2
/-- Whether a lane's or a byte's answer there is poisoned, and whether a nib there refuses a store (R86, R208, R339; log 1). -/
opaque peerBad (tick index : Nat) : Bool
opaque peerRefuses (tick : Nat) : Bool
opaque peerByte (tick addr : Nat) : Byte
/-- What a packet that a peer device has sent asks for: the spec gives packets no layout (R179, R412; log 1). -/
opaque peerPacket (tick : Nat) : PeerPacket
/-- Whether the host completes a request with an error (R217, R403; log 2). -/
opaque hostErr (tick : Nat) : Bool
/-- What the host writes back of a line that it may hold modified, where a walk or an access of Bammar's own snoops it (R258; log 2). -/
opaque hostDirty (tick line : Nat) : Option (BitVec 1024)
/-- The physical address of a line of another device, which no other device knows (R179, R419; log 72). -/
opaque peerPhys (line : Nat) : Dword
/-- The status of a remote access or ticket at a peer (R184; log 1). -/
opaque peerStatus (tick : Nat) : BitVec 4
/-- The identifier of a ticket that a peer issues: its INDEX and GEN (R182; log 1). -/
opaque peerTicket (tick : Nat) : BitVec 26
/-- How far a running entry of the matrix FIFO has come at an element or unit that another agent accesses (R317; log 86). -/
opaque seen (tick place : Nat) : Nat
/-- The cc that an entry of the matrix FIFO waits on the governor (R322; log 6). -/
opaque waitedCc (tick : Nat) : Word
/-- A choice that the spec leaves to the environment: a ticket or a result of a peer, the view of a peer's host (log 1). -/
opaque coin (tick : Nat) : Bool
/-- Whether a register that a long-latency instruction will write already holds the new value in a lane (R144; log 35). -/
opaque early (tick index : Nat) : Bool
/-- Bits of the packets in a flit that this device sends: the spec gives packets no layout (R412; log 1). -/
opaque packets (tick : Nat) : BitVec 1856
/-- The link between two other devices of the pod is up (R416; log 1). -/
opaque peerLink (tick a b : Nat) : Bool
/-- The signature bytes of an SPDM response (R454; log 12). -/
opaque spdmBytes (tick n : Nat) : Byte
/-- Bytes of the certificate chain in slot 0 (R454; log 12). -/
opaque certChain (n : Nat) : Byte
/-- Its length (R454; log 12). -/
opaque certLen : Nat

end Sys2Proof.Config
end

