-- ==== Sys2Proof/Machine/Mem.lean ====
section
/-! DEFINITION. Memory: bytes and poison, the cores and dies of the package, logical time and the caches
(08 R172, 11 R241-R258). -/

namespace Sys2Proof.Machine

/-! ### Bytes -/

/-- The little-endian number of some bytes (R5). -/
def leNat : List Byte → Nat
  | [] => 0
  | b :: t => b.toNat + 256 * leNat t
/-- The `n` little-endian bytes of a number. -/
def leBytes : Nat → Nat → List Byte
  | 0, _ => []
  | n + 1, v => BitVec.ofNat 8 (v % 256) :: leBytes n (v / 256)
/-- Bytes `a` to `a + n - 1`; an unlisted byte reads 0. -/
def rdBytes (t : List (Nat × Byte)) (a n : Nat) : List Byte := (List.range n).map fun i => tabGet 0#8 t (a + i)
/-- Writes bytes from `a` upward. -/
def wrBytes : List (Nat × Byte) → Nat → List Byte → List (Nat × Byte)
  | t, _, [] => t
  | t, a, b :: bs => wrBytes (tabSet 0#8 t a b) (a + 1) bs
/-- Writes the bytes whose bit in `mask` is set. -/
def wrMasked : List (Nat × Byte) → Nat → List Byte → List Bool → List (Nat × Byte)
  | t, a, b :: bs, m :: ms => wrMasked (if m then tabSet 0#8 t a b else t) (a + 1) bs ms
  | t, _, _, _ => t
/-- The units of `u` bytes that `n` bytes from `a` touch. -/
def unitsOf (u a n : Nat) : List Nat :=
  if n = 0 then [] else (List.range ((a + n - 1) / u - a / u + 1)).map (· + a / u)
/-- Some touched unit is poisoned. -/
def poisAt (u : Nat) (pois : List Nat) (a n : Nat) : Bool := (unitsOf u a n).any (setHas pois)
/-- Poison after a write of `n` bytes from `a`: poisoned data marks every touched unit, clean data clears a unit that
it replaces whole (R86). The other data bits of a unit that a write marks in part stay as they are stored (log 10). -/
def poisWrite (u : Nat) (pois : List Nat) (a n : Nat) (p : Bool) : List Nat :=
  (unitsOf u a n).foldl (init := pois) fun q k =>
    if p then setAdd q k else if a ≤ k * u ∧ (k + 1) * u ≤ a + n then setDel q k else q

/-- The units of `u` bytes that parts (address, length) of one write replace whole together (R86, R210). -/
def wholeUnits (u : Nat) (ws : List (Nat × Nat)) : List Nat :=
  let units := ws.foldl (fun l w => (unitsOf u w.1 w.2).foldl (fun l i => if l.contains i then l else i :: l) l) []
  units.filter fun i => (List.range u).all fun j => ws.any fun w => w.1 ≤ u * i + j && u * i + j < w.1 + w.2

/-! ### Parts of the device -/

def State.core (s : State) (c : Nat) : Core := s.cores[c]?.getD Core.fresh
def State.setCore (s : State) (c : Nat) (k : Core) : State := { s with cores := s.cores.setIfInBounds c k }
def State.modCore (s : State) (c : Nat) (f : Core → Core) : State := s.setCore c (f (s.core c))
def State.die (s : State) (d : Nat) : Die := s.dies[d]?.getD (Die.fresh d)
def State.setDie (s : State) (d : Nat) (k : Die) : State := { s with dies := s.dies.setIfInBounds d k }
def State.modDie (s : State) (d : Nat) (f : Die → Die) : State := s.setDie d (f (s.die d))
def Core.warp? (k : Core) (w : Nat) : Option Warp := (k.warps[w]?).getD none
def Core.setWarp (k : Core) (w : Nat) (x : Option Warp) : Core := { k with warps := k.warps.setIfInBounds w x }
def Core.modWarp (k : Core) (w : Nat) (f : Warp → Warp) : Core := k.setWarp w ((k.warp? w).map f)
def State.warp? (s : State) (c w : Nat) : Option Warp := (s.core c).warp? w
def State.modWarp (s : State) (c w : Nat) (f : Warp → Warp) : State := s.modCore c (·.modWarp w f)
def Core.wg? (k : Core) (id : Nat) : Option Wg := k.wgs.find? (·.id == id)
def Core.modWg (k : Core) (id : Nat) (f : Wg → Wg) : Core := { k with wgs := updFirst (·.id == id) f k.wgs }
/-- The workgroup of a warp; the scribe warp has none. -/
def Core.wgOf (k : Core) (w : Warp) : Option Wg := w.wg.bind k.wg?
def Die.quad (k : Die) (q : Nat) : Quad := k.quads[q]?.getD ⟨[], [], Vector.replicate 8 Bar.fresh⟩
def Die.modQuad (k : Die) (q : Nat) (f : Quad → Quad) : Die := { k with quads := k.quads.setIfInBounds q (f (k.quad q)) }

/-- The die of a core and its place in it (R25). -/
def dieOfCore (c : Nat) : Nat := c / 96
def quadOfCore (c : Nat) : Nat := c % 96 / 4
def coreInQuad (c : Nat) : Nat := c % 4
/-- The source number of a core (R33). -/
def coreSource (s : State) (c : Nat) : BitVec 16 :=
  BitVec.ofNat 16 (s.pkg.val * 4096 + dieOfCore c * 1024 + c % 96)
/-- The source number of a unit of a die (R33). -/
def unitSource (s : State) (d unit : Nat) : BitVec 16 := BitVec.ofNat 16 (s.pkg.val * 4096 + d * 1024 + unit)
/-- The slots of a core's quad. -/
def quadCores (c : Nat) : List Nat := (List.range 4).map (· + c / 4 * 4)

/-! ### Physical addresses (R28, R172) -/

def isHbm (pa : Nat) : Bool := pa < 0xC000000000
def winBase : Nat := 0xE000000000000
def isWin (pa : Nat) : Bool := winBase ≤ pa && pa < 0xE000180000000
/-- The home die of a frame (R172). -/
def homeDie (pa : Nat) : Nat := pa / 0x3000000000
def lineOf (a : Nat) : Nat := a / 128
/-- The name under which this device keeps a byte of another device's memory: no device caches another's physical addresses, so
PASID and virtual address name it (R179; log 72). -/
def peerAddr (dev : Nat) (pasid : BitVec 20) (va : Nat) : Nat := 2 ^ 64 * (16 * (pasid.toNat + 1) + dev) + va
/-- The device of a line's home. -/
def lineDev (s : State) (line : Nat) : Nat := if line < 2 ^ 57 then s.pkg.val else line / 2 ^ 57 % 16
/-- Another device, where it is the line's home. -/
def peerHome (line : Nat) : Option (Fin 16) := if line < 2 ^ 57 then none else some ⟨line / 2 ^ 57 % 16, Nat.mod_lt _ (by decide)⟩
/-- The L2 slice of a line (log 13). -/
def sliceOf (line : Nat) : Nat := line % 32

/-! ### Logical time (R242-R248) -/

/-- a ≤ b of R243. -/
def tle (a b : BitVec 16) : Bool := (b - a).toNat < 0x8000
def tmax (a b : BitVec 16) : BitVec 16 := if tle a b then b else a
def tmin (a b : BitVec 16) : BitVec 16 := if tle a b then a else b
/-- max with a timestamp that may be expired (R243). -/
def tmaxE (e : Bool) (a b : BitVec 16) : BitVec 16 := if e then b else tmax a b

def Die.tag? (k : Die) (line : Nat) : Option L2Tag := k.l2.find? (·.line == line)
def Die.setTag (k : Die) (t : L2Tag) : Die := { k with l2 := t :: k.l2.filter (·.line != t.line) }
def Die.dropTag (k : Die) (line : Nat) : Die := { k with l2 := k.l2.filter (·.line != line) }
def Die.dir? (k : Die) (line : Nat) : Option DirEnt := k.dirs.find? (·.line == line)
def DirEnt.idle (line : Nat) : DirEnt := ⟨line, .i, [], none, 0, [], none, false, none, false⟩
def Die.dir (k : Die) (line : Nat) : DirEnt := (k.dir? line).getD (.idle line)
/-- An idle entry is not kept. -/
def Die.setDir (k : Die) (e : DirEnt) : Die :=
  let rest := k.dirs.filter (·.line != e.line)
  { k with dirs := if e == .idle e.line then rest else e :: rest }

/-- Tmax: the largest live timestamp of a die (R247). -/
def tmaxOf (s : State) (d : Nat) : BitVec 16 :=
  let k := s.die d
  let pts := (List.range 96).foldl (fun m c => tmax m (s.core (d * 96 + c)).pts) (s.core (d * 96)).pts
  let base := tmaxE k.fwcExp k.fwc pts
  k.l2.foldl (fun m t => tmaxE t.rExp t.rts (tmaxE t.wExp t.wts m)) base

/-! ### The order of writes, for R237 (log 17) -/

def State.mark (s : State) (line : Nat) : Mark := (s.marks.find? (·.line == line)).getD ⟨line, 0, 0⟩
/-- A line is written: it carries the release `rel`, beside what it carried before. -/
def State.noteMark (s : State) (line rel : Nat) : State :=
  { s with writes := s.writes + 1, marks := ⟨line, s.writes + 1, Nat.max rel (s.mark line).rel⟩ :: s.marks.filter (·.line != line) }
/-- A write from outside the cores publishes every write before it. -/
def State.noteOuter (s : State) (line : Nat) : State := s.noteMark line s.writes
/-- What a warp publishes by a release: the writes that it has made or read, and the releases that its core has acquired. -/
def State.published (s : State) (c w : Nat) : Nat := Nat.max (((s.warp? c w).map (·.seen)).getD 0) (s.core c).hz

/-- Evicting or dropping a tag raises its slice's EVMAX to the line's rts (R246). -/
def Die.evict (k : Die) (line : Nat) : Die :=
  match k.tag? line with
  | none => k
  | some t =>
    let i := sliceOf line
    let m := (k.evmax[i]?).getD 0#16
    let e := (k.evExp[i]?).getD false
    let k := k.dropTag line
    if t.rExp then k
    else { k with evmax := k.evmax.setIfInBounds i (tmaxE e m t.rts), evExp := k.evExp.setIfInBounds i false }

/-- The tag of a line that is filled from another die or device: wts is FWC at the fill, and so is rts (R256; log 17). -/
def Die.filled (k : Die) (line : Nat) (st : L2St) : L2Tag := ⟨line, st, k.fwc, k.fwc, k.fwcExp, k.fwcExp, 0#2⟩
/-- The tag of a line homed on the die, filled where the slice does not hold it: from HBM (R246), or, where an agent elsewhere owns
the line, from there (R256). -/
def Die.homeTag (k : Die) (line : Nat) : L2Tag :=
  match k.tag? line with
  | some t => t
  | none =>
    if (k.dir line).st = .m then k.filled line .home
    else
    let v := (k.evmax[sliceOf line]?).getD 0#16
    let e := (k.evExp[sliceOf line]?).getD false
    ⟨line, .home, v, v, e, e, 0#2⟩

/-- The stamp of a write that reaches a die from outside it, and the die with its FWC advanced (R256); it is expired where FWC and
the rts of the die's copy both are (R243, R248). -/
def Die.foreign (k : Die) (line : Nat) : BitVec 16 × Die :=
  match k.tag? line with
  | some t =>
    if t.rExp then (k.fwc + 1, { k with fwc := k.fwc + 1 })
    else let f := tmaxE k.fwcExp k.fwc t.rts + 1
         (f, { k with fwc := f, fwcExp := false })
  | none => (k.fwc + 1, { k with fwc := k.fwc + 1 })
/-- LTLIM admits a stamp of FWC (R247). -/
def Die.within (k : Die) (w : BitVec 16) : Bool := k.fwcExp || tle w k.ltlim
/-- A tag takes a stamp of FWC (R256). -/
def Die.stamped (k : Die) (t : L2Tag) (w : BitVec 16) : L2Tag := { t with wts := w, rts := w, wExp := k.fwcExp, rExp := k.fwcExp }

/-- Invalidates a line at a die that caches it (R255, R256): a sharer that no longer holds it only acknowledges. -/
def Die.invalidate (k : Die) (line : Nat) : Die :=
  match k.tag? line with
  | none => k
  | some _ => ((k.foreign line).2).evict line

/-- The die L2 numbers of R251: device × 4 + die. -/
def agentOf (s : State) (d : Nat) : Nat := s.pkg.val * 4 + d
/-- The number of a line's home die: no directory agent of the line, it stands in the entry for the home's own transaction (R251). -/
def homeAgent (s : State) (line : Nat) : Nat := agentOf s (homeDie (line * 128))

/-- Agents of other devices hold a line of this one: own it, or, where it is to be written, share it. The home then asks for it as any
agent does, and awaits their answers (R251). -/
def peersHold (s : State) (line : Nat) (write : Bool) : Bool :=
  let e := (s.die (homeDie (line * 128))).dir line
  let far := fun (a : Nat) => a / 4 != s.pkg.val
  e.owner.any far || (write && e.sharers.any far)
/-- The home takes back every copy of a line for a write of its own (R251): every die that caches it drops it. -/
def recallAll (s : State) (line : Nat) : State :=
  let h := homeDie (line * 128)
  let s := (List.range 4).foldl (fun s d => if d = h then s else s.modDie d (·.invalidate line)) s
  s.modDie h fun k => let e := k.dir line; k.setDir { e with st := .i, sharers := [], owner := none, refusals := 0, refused := [], fwd := none, wbIn := false }

/-- The home takes a line back for a read: an owner keeps it as a sharer, and the home's copy is filled from another die
(R256). -/
def recallRead (s : State) (line : Nat) : State :=
  let h := homeDie (line * 128)
  let e := (s.die h).dir line
  match e.st, e.owner with
  | .m, some o =>
    let s := s.modDie h fun k =>
      (k.setDir { e with st := .s, sharers := [o], owner := none }).setTag (k.filled line .home)
    if o / 4 = s.pkg.val then
      s.modDie (o % 4) fun k => match k.tag? line with
        | some t => k.setTag { t with st := .shared }
        | none => k
    else s
  | _, _ => s

/-! ### Line data -/

/-- The 128 bytes of a line in memory, byte 0 lowest. -/
def lineData (s : State) (line : Nat) : BitVec 1024 := BitVec.ofNat 1024 (leNat (rdBytes s.hbm (line * 128) 128))
/-- The poison of a line's two 64-B halves (R85). -/
def linePois (s : State) (line : Nat) : BitVec 2 :=
  BitVec.ofBool (setHas s.hbmPois (line * 2 + 1)) ++ BitVec.ofBool (setHas s.hbmPois (line * 2))
/-- Halves of a line are poisoned. -/
def State.soil (s : State) (line : Nat) (p : BitVec 2) : State :=
  let mark := fun (l : List Nat) (i : Nat) => if p.getLsbD i then setAdd l (line * 2 + i) else l
  { s with hbmPois := mark (mark s.hbmPois 0) 1 }
/-- `n` bytes of a line from offset `o`, as a number. -/
def dataAt (d : BitVec 1024) (o n : Nat) : Nat := d.toNat / 2 ^ (8 * o) % 2 ^ (8 * n)
/-- The bytes of line data replaced. -/
def dataPut (d : BitVec 1024) (o n v : Nat) : BitVec 1024 :=
  let m := (2 ^ (8 * n) - 1) * 2 ^ (8 * o)
  (d &&& ~~~(BitVec.ofNat 1024 m)) ||| BitVec.ofNat 1024 (v % 2 ^ (8 * n) * 2 ^ (8 * o))
/-- Some touched half of a line is poisoned. -/
def poisIn (p : BitVec 2) (o n : Nat) : Bool :=
  (p.getLsbD 0 && o < 64) || (p.getLsbD 1 && 64 < o + n)

/-- Writes bytes to HBM, with the poison rule of R86. -/
def State.hbmWrite (s : State) (pa : Nat) (bs : List Byte) (poison : Bool) : State :=
  { s with hbm := wrBytes s.hbm pa bs, hbmPois := poisWrite 64 s.hbmPois pa bs.length poison }

/-! ### The L1 (R177, R178, R242) -/

def Core.l1? (k : Core) (pasid : BitVec 20) (vline : Nat) : Option L1Line :=
  k.l1.find? fun e => e.pasid == pasid && e.vline == vline
/-- An L1 copy has been overwritten, and may have been before a release that the core has acquired: what happens-before that acquire
forbids its data (R237; log 17). -/
def overtaken (s : State) (c : Nat) (e : L1Line) : Bool := e.born < (s.core c).hz && e.born < (s.mark e.pline).at_
/-- A valid, unexpired L1 copy under the core's logical time (R244). -/
def l1Hit (s : State) (c : Nat) (pasid : BitVec 20) (vline : Nat) : Option L1Line :=
  match (s.core c).l1? pasid vline with
  | some e => if !e.exp && tle (s.core c).pts e.rts && !overtaken s c e then some e else none
  | none => none
/-- Lines of one core's L1: a quad's four L1s hold 4,096 (R178). -/
def l1Lines : Nat := 1024
/-- Drops an element by index. -/
def dropIdx {α : Type} : List α → Nat → List α
  | [], _ => []
  | _ :: t, 0 => t
  | x :: t, n + 1 => x :: dropIdx t n
/-- Adds to an array of `cap` entries; a full one gives up an entry of the hardware's choice. -/
def addCapped {α : Type} (cap tick : Nat) (l : List α) (x : α) : List α :=
  if l.length < cap then x :: l else x :: dropIdx l (Config.victim tick % cap)
/-- The reverse map of a quad keeps the lines that one of its L1s holds, and no other (R178). -/
def rmapTrim (s : State) (c : Nat) : State :=
  let held := fun (r : Nat × BitVec 20 × Nat) => (quadCores c).any fun q => (s.core q).l1.any fun e => e.pline == r.1
  s.modDie (dieOfCore c) fun k => k.modQuad (quadOfCore c) fun q => { q with rmap := q.rmap.filter held }
/-- L1 copies of a core's quad are dropped, and their entries of the reverse map with them (R178, R199, R222). -/
def dropL1 (s : State) (c : Nat) (p : Nat → L1Line → Bool) : State :=
  let hit := (quadCores c).filter fun q => (s.core q).l1.any (p q)
  if hit.isEmpty then s
  else rmapTrim (hit.foldl (fun s q => s.modCore q fun k => { k with l1 := k.l1.filter fun e => !p q e }) s) c
/-- Fills an L1 line: an alias of the same physical line in the quad is evicted (R178). -/
def l1Fill (s : State) (c : Nat) (e : L1Line) : State :=
  let s := (quadCores c).foldl (fun s q => s.modCore q fun k =>
    { k with l1 := k.l1.filter fun x => !(x.pline == e.pline && !(q != c && x.pasid == e.pasid && x.vline == e.vline)) }) s
  let s := s.modCore c fun k => { k with l1 := addCapped l1Lines s.tick (k.l1.filter fun x => !(x.pasid == e.pasid && x.vline == e.vline)) e }
  rmapTrim (s.modDie (dieOfCore c) fun k => k.modQuad (quadOfCore c) fun q =>
    { q with rmap := (e.pline, e.pasid, e.vline) :: q.rmap.filter (·.1 != e.pline) }) c
/-- What a write leaves for its acknowledgement (R244): the line as the slice holds it. -/
def lineUpd (s : State) (line : Nat) : Option (Nat × BitVec 1024 × BitVec 2) := some (line, lineData s line, linePois s line)
/-- The stamp of an acknowledgement, and whether it is expired: the slice's, or, of a write whose home is on another die or device, the
die's FWC as the acknowledgement arrives (R256). -/
def ackStamp (s : State) (c : Nat) (p : Posted) : BitVec 16 × Bool :=
  match p.wts with
  | some w => (w, false)
  | none => ((s.die (dieOfCore c)).fwc, (s.die (dieOfCore c)).fwcExp)
/-- A write of core `c` is acknowledged (R244, R245): pts := max(pts, wts), and its L1 copies of the line that are older take the
line's data and poison, wts and rts. -/
def ackWrite (s : State) (c : Nat) (p : Posted) : State :=
  let (w, x) := ackStamp s c p
  s.modCore c fun k =>
    let k := { k with pts := tmaxE x w k.pts }
    match p.upd with
    | none => k
    | some (line, d, q) => { k with l1 := k.l1.map fun e =>
        if e.pline == line && e.born < p.born then
          { e with data := d, pois := q, wts := w, rts := w, wExp := x, exp := x, born := p.born } else e }

/-! ### TRK lines (R244-R256) -/

/-- What reading or writing a line comes to: done, or a reason to wait at the slice. -/
inductive LineRes where
  | ok (s : State) (data : BitVec 1024) (pois : BitVec 2) (wts : BitVec 16) (wExp : Bool)
  | wait (h : Hold)

/-- The host may hold the line modified; or, for a write, may hold it at all (R258). -/
def snoopNeeded (s : State) (line : Nat) (write : Bool) : Bool :=
  (s.die (homeDie (line * 128))).snoop.any fun e => e.1 == line && (write || e.2)

/-- The stamp of a write to a line that LTLIM holds at its slice: no later write to the line is performed before it (R247). -/
def limHeld (s : State) (line : Nat) : Option (BitVec 16) :=
  s.dies.toList.findSome? fun k => k.waits.findSome? fun w => match w.hold with
    | .ltlim x => if w.line = line then some x else none
    | _ => none

/-- The stamp of an invalidation of a line at a die that caches it, where it would pass that die's LTLIM (R247). -/
def invLim (k : Die) (line : Nat) : Option (BitVec 16) :=
  (k.tag? line).bind fun _ => let (w, f) := k.foreign line
                              if f.within w then none else some w
/-- Such a stamp at any die but the home. -/
def recallLim (s : State) (line : Nat) : Option (BitVec 16) :=
  (List.range 4).findSome? fun d => if d = homeDie (line * 128) then none else invLim (s.die d) line

/-- A read of a TRK line at the L2 of die `d` (R244, R251): the state with the tag present, or why it waits. -/
def l2Read (s : State) (d line : Nat) : Except Hold (State × L2Tag) :=
  let h := homeDie (line * 128)
  if snoopNeeded s line false then .error .snoop
  else if d = h then
    if ((s.die h).dir line).st = .b then .error .busy
    else if peersHold s line false then .error (.dir .read)
    else
      let s := recallRead s line
      let t := (s.die d).homeTag line
      .ok (s.modDie d (·.setTag t), t)
  else match (s.die d).tag? line with
    | some t => .ok (s, t)
    | none => .error (.dir .read)

/-- A TRK load at the L1 and L2 of core `c` (R244): the lease extends rts at the slice, and the L1 takes the line. A load that
follows a write of its own warp to the line, not yet acknowledged, goes to the slice (`own`; R229, R231). -/
def loadTrk (s : State) (c : Nat) (pasid : BitVec 20) (vline line : Nat) (lease : BitVec 8) (fill own : Bool) : LineRes :=
  match (if own then none else l1Hit s c pasid vline) with
  | some e => .ok s e.data e.pois e.wts e.wExp
  | none =>
    let d := dieOfCore c
    match l2Read s d line with
    | .error h => .wait h
    | .ok (s, t) =>
      let pts := (s.core c).pts
      let r := tmin (tmaxE t.rExp t.rts (pts + lease.setWidth 16)) (s.die d).ltlim
      let t := { t with rts := r, rExp := false }
      let s := s.modDie d (·.setTag t)
      let data := lineData s line
      let pois := linePois s line ||| t.pois
      let s := if fill then
          l1Fill s c ⟨pasid, vline, line, data, pois, t.wts, r, t.wExp, !(tle pts r), s.writes, (s.mark line).rel⟩
        else s
      .ok s data pois t.wts t.wExp

/-- The stamp that a TRK write of core `c` takes at its die, with every other copy recalled (R244, R251, R256); the
caller writes the data. A write to a line that its die owns away from the home is stamped at the home too, in the home die's
logical time, which never returns to the core (R256). -/
def storeTrk (s : State) (c line : Nat) : Except Hold (State × Option (BitVec 16)) :=
  let d := dieOfCore c
  let h := homeDie (line * 128)
  let lim := (s.die d).ltlim
  if snoopNeeded s line true then .error .snoop
  else if d = h then
    if ((s.die h).dir line).st = .b then .error .busy
    else if peersHold s line true then .error (.dir .own)
    else
      let t := (s.die d).homeTag line
      let pts := (s.core c).pts
      let w := tmaxE t.rExp (t.rts + 1) pts
      if !(tle w lim) then .error (.ltlim w)
      else match recallLim s line with
      | some x => .error (.ltlim x)
      | none =>
        let s := recallAll s line
        .ok (s.modDie d (·.setTag { t with wts := w, rts := w, wExp := false, rExp := false }), some w)
  else match (s.die d).tag? line with
    | some t =>
      match t.st with
      | .owner =>
        let (w, k) := (s.die d).foreign line
        let (hw, hk) := (s.die h).foreign line
        if !k.within w then .error (.ltlim w)
        else if !hk.within hw then .error (.ltlim hw)
        else .ok ((s.setDie h hk).setDie d (k.setTag (k.stamped t w)), none)
      | _ => .error (.dir .upgrade)
    | none => .error (.dir .own)

/-- A write that reaches a line at its home from outside the home die (R256): every copy is recalled, the home die's
own tag takes the foreign stamp. -/
def storeForeign (s : State) (line : Nat) : Except Hold State :=
  let h := homeDie (line * 128)
  if snoopNeeded s line true then .error .snoop
  else if ((s.die h).dir line).st = .b then .error .busy
  else if peersHold s line true then .error (.dir .own)
  else
    let (w, k) := (s.die h).foreign line
    if !k.within w then .error (.ltlim w)
    else match recallLim s line with
    | some x => .error (.ltlim x)
    | none =>
      let s := recallAll (s.setDie h k) line
      .ok (s.modDie h fun k => match k.tag? line with
        | some t => k.setTag (k.stamped t w)
        | none => k)

/-- A write of Bammar's own is performed in one step, in which LTLIM comes to the stamps that it leaves on a line at a die, as it does
while any other write is held (R247; log 14). -/
def limitDie (line : Nat) (s : State) (d : Nat) : State :=
  let k := s.die d
  let lim := fun (x : Bool) (w l : BitVec 16) => if x then l else tmax l w
  let l := lim k.fwcExp k.fwc k.ltlim
  s.modDie d fun k => { k with ltlim := match k.tag? line with
    | some t => lim t.wExp t.wts l
    | none => l }
/-- The L1 of the core that makes such a write takes the line as its die's slice holds it; a copy of a line that the slice does not
hold goes, for it has no stamp to follow (log 14). -/
def sysAck (s : State) (c line : Nat) : State :=
  match (s.die (dieOfCore c)).tag? line with
  | some t => ackWrite s c ⟨0, some t.wts, lineUpd s line, s.writes⟩
  | none => dropL1 s c fun q e => q == c && e.pline == line
/-- A write to device memory that reaches it at once: every cached copy of the touched lines is recalled or brought up to date
(log 14). -/
def State.sysPut (s : State) (c pa : Nat) (bs : List Byte) : State :=
  let lines := unitsOf 128 pa bs.length
  let s := lines.foldl (fun s l => if isHbm (l * 128) then recallAll s l else s) s
  let s := lines.foldl State.noteOuter (s.hbmWrite pa bs false)
  lines.foldl (init := s) fun s l =>
    let d := dieOfCore c
    let s := if d = homeDie (l * 128) then
        s.modDie d fun k => match k.tag? l with
          | some t =>
            let w := tmaxE t.rExp (t.rts + 1) (s.core c).pts
            k.setTag { t with wts := w, rts := w, wExp := false, rExp := false }
          | none => k
      else s.modDie (homeDie (l * 128)) fun k => match k.tag? l with
          | some t => let (w, k) := k.foreign l
                      k.setTag (k.stamped t w)
          | none => k
    let s := (List.range 4).foldl (limitDie l) s
    sysAck s c l

/-- Before an access of Bammar's own, or of a walk, to a line that the host may hold, the home snoops it; the host's answer comes in the
same step, and what it holds modified, a free value, is written first (R258; logs 2, 14). -/
def snoopNow (c : Nat) (s : State) (line : Nat) : State :=
  let h := homeDie (line * 128)
  match (s.die h).snoop.find? (·.1 == line) with
  | none => s
  | some e =>
    let s := s.modDie h fun k => { k with snoop := k.snoop.filter (·.1 != line), bisnp := k.bisnp.erase line }
    match (if e.2 then Config.hostDirty s.tick line else none) with
    | some v => s.sysPut c (line * 128) (leBytes 128 v.toNat)
    | none => s
/-- The host may hold no line of some bytes modified. -/
def hostClean (s : State) (pa n : Nat) : Bool := (unitsOf 128 pa n).all fun l => !snoopNeeded s l false
def snoopBytes (s : State) (c pa n : Nat) : State := (unitsOf 128 pa n).foldl (snoopNow c) s
/-- A write of Bammar's own to device memory: a trap frame, an error record, a page table entry (log 14). -/
def State.sysWrite (s : State) (c pa : Nat) (bs : List Byte) : State := (snoopBytes s c pa bs.length).sysPut c pa bs

/-! ### UNT lines (R257) -/

def Die.unt? (k : Die) (line : Nat) : Option UntCopy := k.unt.find? (·.line == line)
def Die.setUnt (k : Die) (u : UntCopy) : Die := { k with unt := u :: k.unt.filter (·.line != u.line) }
def Die.dropUnt (k : Die) (line : Nat) : Die := { k with unt := k.unt.filter (·.line != line) }

/-- The bytes of a copy that its die has written. -/
def maskBytes (m : BitVec 128) : List Bool := (List.range 128).map m.getLsbD

/-- The line as the home slice reads it: the home die's copy over memory (R257). -/
def untHome (s : State) (line : Nat) : BitVec 1024 × BitVec 2 :=
  match (s.die (homeDie (line * 128))).unt? line with
  | some u => (u.data, u.pois)
  | none => (lineData s line, linePois s line)

/-- Byte-wise choice of line data by a mask. -/
def mergeData (m : BitVec 128) (a b : BitVec 1024) : BitVec 1024 :=
  BitVec.ofNat 1024 (leNat ((List.range 128).map fun i =>
    BitVec.ofNat 8 (dataAt (if m.getLsbD i then a else b) i 1)))

/-- Writes a die's masked bytes back to the home slice's copy, or to memory (R257); of a line of another device the copy's mask is
cleared, and the bytes go there as a message (`untGive`). A half that the bytes replace whole takes their poison; one that they replace in part keeps its own (R86). -/
def untWriteBack (s : State) (d line : Nat) : State :=
  match (s.die d).unt? line with
  | none => s
  | some u =>
    if u.mask = 0#128 then s
    else
      let h := homeDie (line * 128)
      let s := s.modDie d (·.setUnt { u with mask := 0#128 })
      let bits := fun (i : Nat) => (List.range 64).map fun j => u.mask.getLsbD (64 * i + j)
      let mark := fun (i : Nat) => u.pois.getLsbD i && (bits i).any id
      let full := fun (i : Nat) => (bits i).all id
      if (peerHome line).isSome then s
      else match (if d = h then none else (s.die h).unt? line) with
      | some v =>
        let half := fun (i : Nat) => if mark i then true else if full i then false else v.pois.getLsbD i
        s.modDie h (·.setUnt { v with data := mergeData u.mask u.data v.data, mask := v.mask ||| u.mask,
                                      pois := BitVec.ofBool (half 1) ++ BitVec.ofBool (half 0) })
      | none =>
        let bs := (List.range 128).map fun i => BitVec.ofNat 8 (dataAt u.data i 1)
        let pois := fun (q : List Nat) (i : Nat) =>
          if mark i then setAdd q (line * 2 + i) else if full i then setDel q (line * 2 + i) else q
        { s with hbm := wrMasked s.hbm (line * 128) bs (maskBytes u.mask), hbmPois := pois (pois s.hbmPois 0) 1 }

/-- A die's copy of an UNT line, filled from the home slice where it has none (R257). -/
def untFill (s : State) (d line : Nat) : State × UntCopy :=
  match (s.die d).unt? line with
  | some u => (s, u)
  | none =>
    let (data, pois) := untHome s line
    let u : UntCopy := ⟨line, data, 0#128, pois⟩
    (s.modDie d (·.setUnt u), u)

/-- Writes bytes into a die's UNT copy. -/
def untWrite (s : State) (d line o n v : Nat) (poison : Bool) : State :=
  let (s, u) := untFill s d line
  let m := BitVec.ofNat 128 ((2 ^ n - 1) * 2 ^ o)
  let half := fun (i : Nat) =>
    let touch := o < 64 * (i + 1) && 64 * i < o + n
    let whole := o ≤ 64 * i && 64 * (i + 1) ≤ o + n
    if !touch then u.pois.getLsbD i else if poison then true else if whole then false else u.pois.getLsbD i
  s.modDie d (·.setUnt { u with data := dataPut u.data o n v, mask := u.mask ||| m,
                                pois := BitVec.ofBool (half 1) ++ BitVec.ofBool (half 0) })
/-- The halves of a die's copy that the parts (address, length) of one clean write replace whole are clean (R86, R210). -/
def untClean (s : State) (d line : Nat) (ws : List (Nat × Nat)) : State :=
  let (s, u) := untFill s d line
  let l := wholeUnits 64 ws
  let half := fun (i : Nat) => u.pois.getLsbD i && !l.contains (line * 2 + i)
  s.modDie d (·.setUnt { u with pois := BitVec.ofBool (half 1) ++ BitVec.ofBool (half 0) })

/-! ### Lines of other devices (R179, R251, R257) -/

/-- The data of a line arrives from outside the package, with its poison. -/
def putLine (s : State) (line : Nat) (data : BitVec 1024) (pois : BitVec 2) : State :=
  let mark := fun (l : List Nat) (i : Nat) => if pois.getLsbD i then setAdd l (line * 2 + i) else setDel l (line * 2 + i)
  { s.noteOuter line with hbm := wrBytes s.hbm (line * 128) (leBytes 128 data.toNat), hbmPois := mark (mark s.hbmPois 0) 1 }
/-- That of a line of another device is a free value (log 1). -/
def putPeer (s : State) (line : Nat) : State := putLine s line (Config.peerLine s.tick) (Config.peerPois s.tick)
/-- Some die of the device holds the line, in its L2 or its writeback buffer. -/
def peerHeld (s : State) (line : Nat) : Bool := s.dies.toList.any fun (k : Die) => (k.tag? line).isSome || k.wbufs.contains line
/-- A die's copy of an UNT line of another device (R257). -/
def peerUnt (s : State) (d line : Nat) : State :=
  if ((s.die d).unt? line).isSome then s else s.modDie d (·.setUnt ⟨line, Config.peerLine s.tick, 0#128, Config.peerPois s.tick⟩)

end Sys2Proof.Machine
end

