-- ==== Sys2Proof/Machine/Flags.lean ====
section
/-! DEFINITION. The sticky flags of the lanes (R82), the matrix flags that wait for a merge (R83), and the completion
flags (R49). -/

namespace Sys2Proof.Machine

/-- Lane `l` of a mask. -/
def laneIn (m : Mask) (l : Nat) : Bool := m.getLsbD l
/-- The lanes of a mask, ascending. -/
def lanesOf (m : Mask) : List Nat := (List.range 32).filter (laneIn m)
/-- ORs raised flags into a lane's %flags (R82). -/
def Warp.orFlags (w : Warp) (l : Nat) (f : Flags5) : Warp :=
  { w with fflags := w.fflags.setIfInBounds l (((w.fflags[l]?).getD 0#5) ||| f) }

/-- The matrix flags of the completion flags in `m` are merged into some lanes (R83). -/
def Warp.mergeFlags (w : Warp) (m : BitVec 12) (lanes : Mask) : Warp :=
  let f := (List.range 12).foldl (fun f i => if m.getLsbD i then f ||| ((w.mflags[i]?).getD 0#5) else f) 0#5
  let w := (lanesOf lanes).foldl (fun w l => w.orFlags l f) w
  { w with mflags := (List.range 12).foldl (fun v i => if m.getLsbD i then v.setIfInBounds i 0#5 else v) w.mflags }
/-- Every completion flag named is zero. -/
def Warp.flagsZero (w : Warp) (m : BitVec 12) : Bool :=
  (List.range 12).all fun i => !m.getLsbD i || ((w.cflags[i]?).getD 0#6) == 0#6

end Sys2Proof.Machine
end

