-- ==== Sys2Proof/Machine/Operands.lean ====
section
/-! DEFINITION. The operands of warp instructions: trap causes, the issuing warp, reading and writing its registers
(R40-R44, R65, R67, R101), the checks of each operand field, queue ports and poison. -/

namespace Sys2Proof.Machine

/-- The answer of one step. -/
abbrev Out := Host.Outcome State Fault Refusal

/-! ### Trap causes (R62) -/

def cIllegalOpcode : Nat := 0x01
def cIllegalOperand : Nat := 0x02
def cIllegalClause : Nat := 0x03
def cMisaligned : Nat := 0x04
def cAccessDenied : Nat := 0x05
def cTicketError : Nat := 0x06
def cNibRefused : Nat := 0x07
def cPoison : Nat := 0x08
def cLigature : Nat := 0x09
def cQueueError : Nat := 0x0A
def cBrkpt : Nat := 0x0C
def cTrap : Nat := 0x0D
def cWatchdog : Nat := 0x0E
def cTileHandle : Nat := 0x0F
def cAtomicUnsup : Nat := 0x10
def cSpillFault : Nat := 0x11
def cTwin : Nat := 0x12

/-! ### The issuing warp -/

/-- The issuing warp with everything an instruction reads: its core, its workgroup, the lanes that are active, and the
entries that its queue sources pop (R43). -/
structure Ctx where
  s    : State
  ci   : Nat
  wi   : Nat
  k    : Core
  w    : Warp
  g    : Option Wg
  e    : Entry
  act  : Mask
  pops : List (Nat × QEntry)

/-- The mask of some lanes. -/
def maskOf (p : Nat → Bool) : Mask :=
  BitVec.ofNat 32 ((List.range 32).foldl (fun a l => if p l then a + 2 ^ l else a) 0)

/-- A predicate over the lanes; p0 is true (R41). -/
def Warp.pred (w : Warp) (n : Nat) : Mask := if n = 0 then 0xFFFFFFFF#32 else (w.preds[n]?).getD 0#32
/-- Active(l) of R45 for every lane of an entry. -/
def activeMask (w : Warp) (e : Entry) (c : Ctl) : Mask :=
  e.mask &&& (if c.gneg then ~~~(w.pred c.gpred.val) else w.pred c.gpred.val)

/-- The path id of a lane (R153). -/
def Lig.pathOf (g : Lig) (l : Nat) : Nat := (if g.path0.getLsbD l then 1 else 0) + (if g.path1.getLsbD l then 2 else 0)
/-- The register that lane `l` means by `n` (R154): the lowest valid slot of its path. -/
def Lig.mapped (g : Lig) (l n : Nat) : Nat :=
  if g.on then
    match g.map.find? fun m => m.path.val == g.pathOf l && m.src == n with
    | some m => m.tgt
    | none => n
  else n
/-- The register-file slot of register `n` in lane `l` (R93, R154). -/
def Warp.slot (w : Warp) (l n : Nat) : Nat := 32 * (w.base + w.lig.mapped l n) + l

/-- The tickets that belong to a warp. -/
def Ticket.slot? (t : Ticket) : Option Nat := match t.acc.path with
  | .lsu s | .fetch s => some s
  | _ => none
/-- A replay that missed again still holds its entry (R188). -/
def Core.keptOf (k : Core) (slot : Nat) : Nat := (k.misses.filter fun m => m.kept.isSome && (match m.acc.path with
  | .lsu s | .fetch s => s == slot
  | _ => false)).length
def Core.tkCount (k : Core) (slot : Nat) : Nat := (k.tickets.filter fun t => t.slot? == some slot).length + k.keptOf slot

/-- The special registers (R22). -/
def Ctx.special (k : Ctx) (n l : Nat) : Nat :=
  match n with
  | 1 => l
  | 2 => k.w.num
  | 3 => (k.g.map (·.wgno)).getD 0
  | 4 => (k.g.map (·.gang)).getD 0
  | 5 => coreInQuad k.ci
  | 6 => quadOfCore k.ci
  | 7 => dieOfCore k.ci
  | 8 => k.s.pkg.val
  | 9 => k.s.gtc.toNat
  | 10 => k.k.pts.toNat
  | 11 => ((k.w.fflags[l]?).getD 0#5).toNat
  | 12 => if k.w.lig.on then k.w.lig.pathOf l else 0
  | 13 => k.e.mask.toNat
  | 14 => (k.g.map (·.ngang)).getD 0
  | 15 => k.k.tkCount k.wi
  | _ => 0
/-- %lane, %flags and %path (R22). -/
def perLane (n : Nat) : Bool := n == 1 || n == 11 || n == 12

/-- One 32-bit register of a lane. -/
def Ctx.vget (k : Ctx) (l n : Nat) : Word := tabGet 0#32 k.k.rf (k.w.slot l n)
/-- A scalar register. -/
def Warp.sreg (w : Warp) (n : Nat) : Dword := (w.sregs[n]?).getD 0#64

/-- The bits of a register in lane `l`, read at `bits` width: a vector pair when that is 64 (R42, R101). -/
def Ctx.rd (k : Ctx) (r : Reg) (l bits : Nat) : Nat :=
  (match r with
    | .v n => if bits = 64 then (k.vget l n.val).toNat + 2 ^ 32 * (k.vget l (n.val + 1)).toNat else (k.vget l n.val).toNat
    | .s n => (k.w.sreg n.val).toNat
    | .q n => match k.pops.find? (·.1 == n.val) with
        | some (_, e) => ((e.lanes[l]?).getD 0#32).toNat
        | none => 0
    | .sp n => k.special n.val l
    | .p n => if laneIn (k.w.pred n.val) l then 1 else 0
    | _ => 0) % 2 ^ bits
/-- Amt of R101: 32 bits of one register, or the whole of X. -/
def Ctx.amt (k : Ctx) (b : Src) (l : Nat) : Nat :=
  match b with
  | .reg r => k.rd r l 32
  | .imm x => x.toNat

/-- A w-bit pattern read as TYPE (R65, R101). -/
def tyInt (t : Ty) (n : Nat) : Int :=
  let w := tyWidth t
  let m := n % 2 ^ w
  if isSignedTy t && 2 ^ (w - 1) ≤ m then (m : Int) - 2 ^ w else m
/-- binary32 bits as binary64 bits, exactly; a NaN keeps its sign and fraction (R39). -/
def f32To64 (x : Nat) : Nat :=
  let s := x / 2 ^ 31 % 2
  let e := x / 2 ^ 23 % 256
  let m := x % 2 ^ 23
  if e = 255 then s * 2 ^ 63 + 2047 * 2 ^ 52 + m * 2 ^ 29
  else if e = 0 then
    if m = 0 then s * 2 ^ 63
    else
      let p := m.log2
      s * 2 ^ 63 + (p + 874) * 2 ^ 52 + (m - 2 ^ p) * 2 ^ (52 - p)
  else s * 2 ^ 63 + (e + 896) * 2 ^ 52 + m * 2 ^ 29
/-- X widened under IMM by TYPE (R39), as a pattern of TYPE's width. -/
def immBits (t : Ty) (x : Word) : Nat :=
  match t with
  | .i64 => (x.signExtend 64).toNat
  | .n64 => x.toNat
  | .f64 => f32To64 x.toNat
  | _ => x.toNat % 2 ^ tyWidth t
/-- The pattern of a source at TYPE's width. -/
def Ctx.bits (k : Ctx) (t : Ty) (r : Reg) (l : Nat) : Nat := k.rd r l (tyWidth t)
/-- The pattern of B at TYPE's width. -/
def Ctx.bitsB (k : Ctx) (t : Ty) (b : Src) (l : Nat) : Nat :=
  match b with
  | .reg r => k.bits t r l
  | .imm x => immBits t x
/-- Src of R101. -/
def Ctx.src (k : Ctx) (t : Ty) (r : Reg) (l : Nat) : Int := tyInt t (k.bits t r l)
def Ctx.srcB (k : Ctx) (t : Ty) (b : Src) (l : Nat) : Int := tyInt t (k.bitsB t b l)
/-- A 64-bit operand: a pair, a scalar or a special register (R112, R204). -/
def Ctx.src64 (k : Ctx) (r : Reg) (l : Nat) : Dword := BitVec.ofNat 64 (k.rd r l 64)

/-! ### Writing registers (R42, R65, R67) -/

/-- The 32-bit lane register of a narrow result, extended by its type. -/
def extend32 (t : Ty) (v : Int) : Word :=
  match t with
  | .i8 => (BitVec.ofInt 8 v).signExtend 32
  | .i16 => (BitVec.ofInt 16 v).signExtend 32
  | .n8 => (BitVec.ofInt 8 v).setWidth 32
  | .n16 | .f16 | .b16 => (BitVec.ofInt 16 v).setWidth 32
  | _ => BitVec.ofInt 32 v
/-- A scalar register's value: zero-extended for unsigned and float types, sign-extended for signed ones. -/
def extend64 (t : Ty) (v : Int) : Dword :=
  match t with
  | .i8 => (BitVec.ofInt 8 v).signExtend 64
  | .i16 => (BitVec.ofInt 16 v).signExtend 64
  | .i32 => (BitVec.ofInt 32 v).signExtend 64
  | .n8 => (BitVec.ofInt 8 v).setWidth 64
  | .n16 | .f16 | .b16 => (BitVec.ofInt 16 v).setWidth 64
  | .i64 | .n64 | .f64 => BitVec.ofInt 64 v
  | _ => (BitVec.ofInt 32 v).setWidth 64

/-- Writes one slot of the register file; a write clears or sets its poison (R86, R87). -/
def Core.rfPut (k : Core) (i : Nat) (v : Word) (p : Bool) : Core :=
  { k with rf := tabSet 0#32 k.rf i v, rfPois := setPut k.rfPois i p }
/-- Writes a scalar register and its poison. -/
def Warp.sput (w : Warp) (n : Nat) (v : Dword) (p : Bool) : Warp :=
  { w with sregs := w.sregs.setIfInBounds n v,
           sPois := if p then w.sPois ||| (1#64 <<< n) else w.sPois &&& ~~~(1#64 <<< n) }
/-- Writes a predicate in some lanes; a write to p0 is discarded (R41). -/
def Warp.pput (w : Warp) (n : Nat) (lanes v : Mask) : Warp :=
  if n = 0 then w else { w with preds := w.preds.setIfInBounds n ((w.pred n &&& ~~~lanes) ||| (v &&& lanes)) }
/-- Writes the vector register that lane `l` means by `n`, or its pair. -/
def Core.vput (k : Core) (w : Warp) (t : Ty) (l n : Nat) (v : Int) (p : Bool) : Core :=
  if tyWidth t = 64 then
    let b := BitVec.ofInt 64 v
    (k.rfPut (w.slot l n) (b.setWidth 32) p).rfPut (w.slot l (n + 1)) (b.extractLsb' 32 32) p
  else k.rfPut (w.slot l n) (extend32 t v) p

/-- The end of a queue that pushes join (R145). -/
def Core.push (k : Core) (wg q : Nat) (e : QEntry) : Core :=
  k.modWg wg fun g => { g with queues := g.queues.setIfInBounds q (((g.queues[q]?).getD []) ++ [e]) }

/-- Dst of R101 in some lanes: `vals` gives each lane's exact value. A scalar D takes the first lane's; a queue D
takes one entry whose other lanes are 0 (R43). -/
def writeLanes (s : State) (ci wi : Nat) (t : Ty) (d : Reg) (vals : List (Nat × Int)) : State :=
  match s.warp? ci wi with
  | none => s
  | some w =>
    match d with
    | .v n => s.modCore ci fun k => vals.foldl (fun k e => k.vput w t e.1 n.val e.2 false) k
    | .s n => match vals with
        | [] => s
        | e :: _ => s.modWarp ci wi (·.sput n.val (extend64 t e.2) false)
    | .p n => s.modWarp ci wi fun w =>
        w.pput n.val (maskOf fun l => vals.any (·.1 == l)) (maskOf fun l => vals.any fun e => e.1 == l && e.2 != 0)
    | .q n => match w.wg with
        | none => s
        | some g => s.modCore ci fun k =>
            { k.push g n.val ⟨k.seq, Vector.ofFn fun l => match vals.find? (·.1 == l.val) with
                | some e => extend32 t e.2
                | none => 0#32, 0#32, 0xFFFFFFFF#32⟩ with seq := k.seq + 1 }
    | _ => s

/-! ### Register checks (R40-R44, R61) -/

/-- The classes that an operand admits (R41). -/
structure Adm where
  v : Bool
  s : Bool
  sp : Bool
  q : Bool
  p : Bool
deriving DecidableEq, Repr

/-- A data source. -/
def admSrc : Adm := ⟨true, true, true, true, false⟩
/-- A data destination. -/
def admDst : Adm := ⟨true, true, false, true, false⟩
def admPred : Adm := ⟨false, false, false, false, true⟩
def admVec : Adm := ⟨true, false, false, false, false⟩
def admScalar : Adm := ⟨false, true, false, false, false⟩
/-- A scalar or special register. -/
def admSS : Adm := ⟨false, true, true, false, false⟩
/-- A vector pair or a scalar. -/
def admVS : Adm := ⟨true, true, false, false, false⟩

/-- One register operand: its classes, whether it is written, read, how many vector registers it takes in a lane, and
whether a queue is barred because the operation is 64 bits wide (R43). -/
structure Opd where
  r    : Reg
  adm  : Adm
  dst  : Bool := false
  src  : Bool := true
  n    : Nat := 1
  noQ  : Bool := false
  pois : Bool := true      -- the body does not check its poison itself (R130)

/-- A queue is fed or drained by the slice. -/
def sliceQ (n : Nat) : Bool := n < 16

/-- The first breach of R40 to R44 by an operand, as a cause code. -/
def opdErr (k : Ctx) (scalar : Bool) (o : Opd) : Option Nat :=
  let ill := some cIllegalOperand
  match o.r with
  | .bad _ | .qr _ => ill
  | .v n =>
    if !o.adm.v || (scalar && !o.dst) || n.val % o.n != 0 || k.w.n < n.val + o.n then ill
    else none
  | .s _ => if o.adm.s then none else ill
  | .sp n => if o.dst || !o.adm.sp || (scalar && perLane n.val) then ill else none
  | .p _ => if !o.adm.p || (scalar && !o.dst) then ill else none
  | .q n =>
    if !o.adm.q || scalar || o.noQ then ill
    else match k.g with
      | none => some cQueueError
      | some g =>
        if sliceQ n.val then
          match (g.qconn[n.val]?).getD .none with
          | .none => some cQueueError
          | .operand => if o.dst then some cQueueError else if g.sliceSt = .halted then some cQueueError else none
          | .store => if !o.dst then some cQueueError else if g.sliceSt = .halted then some cQueueError else none
        else none

/-- The active lanes in which a renamed pair is not an even register and the one after it (R154); a lane that is not
active raises no fault (R45). -/
def opdPair (k : Ctx) (o : Opd) : Mask :=
  match o.r with
  | .v n => if o.n = 2 && k.w.lig.on then maskOf fun l => laneIn k.act l &&
      (k.w.lig.mapped l n.val % 2 != 0 || k.w.lig.mapped l (n.val + 1) != k.w.lig.mapped l n.val + 1) else 0#32
  | _ => 0#32

/-- What a queue operand meets (R139, R145, R146): an entry to pop or a free place, a wait, or QUEUE_ERROR. -/
inductive QRes where
  | ok | wait | err
deriving DecidableEq, Repr

def queueDepth (n : Nat) : Nat := if sliceQ n then 8 else 16

def opdQueue (k : Ctx) (o : Opd) : QRes :=
  match o.r, k.g with
  | .q n, some g =>
    let l := (g.queues[n.val]?).getD []
    let gone := sliceQ n.val && (g.sliceSt == .ended || g.sliceSt == .halted)
    if o.dst then
      if l.length < queueDepth n.val then .ok else if gone then .err else .wait
    else match l with
      | [] => if gone then .err else .wait
      | e :: _ => if e.landed = 0xFFFFFFFF#32 then .ok else .wait
  | _, _ => .ok

/-- The active lanes in which a register that an operand reads is poisoned (R87); a scalar is poisoned in every lane. -/
def regPoison (k : Ctx) (o : Opd) : Mask :=
  match o.r with
    | .v n => maskOf fun l => laneIn k.act l && (List.range o.n).any fun i => setHas k.k.rfPois (k.w.slot l (n.val + i))
    | .s n => if k.w.sPois.getLsbD n.val then k.act else 0#32
    | .q n => match k.pops.find? (·.1 == n.val) with
        | some (_, e) => e.poison &&& k.act
        | none => 0#32
    | _ => 0#32
/-- The poison that stops an instruction before its body (R87). -/
def opdPoison (k : Ctx) (o : Opd) : Mask := if !o.src || !o.pois then 0#32 else regPoison k o

end Sys2Proof.Machine
end

