-- ==== Sys2Proof/Machine/Ops.lean ====
section
/-! DEFINITION. The shared operations of warp instructions: trap entry (20 R384-R388), the end of an instruction at the
frontier, and the frame of R61 that every instruction word runs in. -/

namespace Sys2Proof.Machine

/-- ⌈a / b⌉. -/
def ceilDiv (a b : Nat) : Nat := (a + b - 1) / b

/-! ### Trap entry and return (R384-R388) -/

/-- The address of the instruction at the issuing position, and its position (0 at a clause boundary). -/
def Warp.here (w : Warp) : Dword × Nat :=
  let pc := match w.front with | e :: _ => e.pc | [] => 0#64
  match w.clause with
  | some c => (pc, c.pos)
  | none => (pc, 0)

/-- The causes whose frame holds a faulting address (R385). -/
def hasFaultVa (code : Nat) : Bool := code == cMisaligned || code == cAccessDenied || code == cTicketError
/-- The trap frame of R385, as its 128 bytes. -/
def frameBytes (z : Cause) (lig : Bool) (s63 : Dword) : List Byte :=
  leBytes 128 (z.code + z.pos * 2 ^ 16 + z.tkst.toNat * 2 ^ 20 + (if z.skip then 2 ^ 24 else 0)
    + (if lig then 2 ^ 25 else 0) + z.mask.toNat * 2 ^ 96 + z.pc.toNat * 2 ^ 128 + z.xcode.toNat * 2 ^ 192
    + (if hasFaultVa z.code then z.va.toNat * 2 ^ 256 else 0) + s63.toNat * 2 ^ 320)

/-- Every warp of the core's workgroups waits for the scribe warp to end its task (R388, R389). -/
def endAllOn (k : Core) (z : Cause) : Core :=
  { k with warps := k.warps.map fun w => w.map fun w => if w.wg.isSome then { w with escal := some z } else w }

/-- A 64-B ring entry (R406): the sequence number twice, the type, and the fields at their bits of [479:48]. -/
def ringEntry (seq : Word) (ty : Nat) (fields : List (Nat × Nat)) : BitVec 512 :=
  BitVec.ofNat 512 (seq.toNat + ty % 2 ^ 16 * 2 ^ 32 + (fields.foldl (fun a f => a + f.2 * 2 ^ f.1) 0) % 2 ^ 480
    + seq.toNat * 2 ^ 480)

/-- Messages kept for the D2H ring; at most 512 (R408). -/
def d2hRoom (s : State) (n : Nat) : Bool := s.port.kept.length + n ≤ 512
/-- Raises a D2H message at the next sequence number (R408). -/
def d2hRaise (s : State) (ty : Nat) (fields : List (Nat × Nat)) : State :=
  let p := s.port
  { s with port := { p with kept := p.kept ++ [(p.d2hNext, ringEntry p.d2hNext ty fields)], d2hNext := p.d2hNext + 1 } }
/-- Raises an ERROR or LINKEVENT message, which is dropped and counted when no place is free (R408). -/
def d2hOrDrop (s : State) (ty : Nat) (fields : List (Nat × Nat)) : State :=
  if d2hRoom s 1 then d2hRaise s ty fields else { s with port := { s.port with d2hDrop := s.port.d2hDrop + 1 } }

/-- The ERROR message of R411. -/
def errorMsg (s : State) (cls code : Nat) (src : BitVec 16) (addr logidx msgseq : Nat) : State :=
  d2hOrDrop s 0x84 [(48, cls), (52, code), (64, src.toNat), (80, s.gtc.toNat), (144, addr % 2 ^ 64), (208, logidx % 4096),
    (224, msgseq)]

/-- The error codes of R457 that a restart of Bammar records. -/
def errRestart : Nat := 0x304

/-- The record of a full error log that gives way: the oldest corrected, then the oldest contained one (R457). -/
def oldestErr (recs : List (Nat × Nat)) : Option (Nat × Nat) := (recs.find? (·.2 == 0)).or (recs.find? (·.2 == 1))
/-- Appends a record to the error log (R457); NEXT then names the place of the next one. A record that finds only fatal ones is dropped.
Answers the record's index. -/
def logError (s : State) (cls code : Nat) (src : BitVec 16) (addr : Nat) (detail : Nat) : State × Option Nat :=
  let e := s.errs
  let put := fun (s : State) (i : Nat) (recs : List (Nat × Nat)) (lost : BitVec 16) =>
    let recs := recs ++ [(i, cls)]
    let next := match oldestErr recs with
      | some (j, _) => if recs.length < 4096 then (i + 1) % 4096 else j
      | none => (i + 1) % 4096
    let s := { s with errs := { s.errs with recs, lost, next, fatal := s.errs.fatal || cls == 2, cont := s.errs.cont || cls == 1 } }
    s.sysWrite 0 (s.errs.base + 32 * i) (leBytes 32 (s.gtc.toNat + src.toNat * 2 ^ 64 + cls * 2 ^ 80 + code * 2 ^ 84
      + addr % 2 ^ 64 * 2 ^ 96 + detail % 2 ^ 96 * 2 ^ 160))
  if e.recs.length < 4096 then (put s e.next e.recs e.lost, some e.next)
  else match oldestErr e.recs with
    | some (i, c) => (put s i (e.recs.filter (· != (i, c))) (e.lost + 1), some i)
    | none => ({ s with errs := { e with lost := e.lost + 1, fatal := e.fatal || cls == 2 } }, none)

/-- A cause in the scribe warp itself restarts Bammar on the core from its firmware entry, ends every task with a warp
there, and is recorded and reported as a contained error (R388, R456). -/
def restartScribe (s : State) (ci : Nat) (z : Cause) : State :=
  let s := s.modCore ci fun k =>
    let k := endAllOn k z
    { k with warps := k.warps.setIfInBounds 31 (some { Warp.scribe with idNext := (((k.warp? 31).map (·.idNext)).getD 0) }),
             scribeSt := k.scribeSt + 1 }
  let (s, i) := logError s 1 errRestart (coreSource s ci) 0 z.code
  errorMsg s 1 errRestart (coreSource s ci) 0 (i.getD 0) 0

/-- TAKING A TRAP (R384, R388): the frame is written, s63 receives its address, the frontier, the ligature state and the
paths are saved, and one entry at TRAPV with the trapped entry's lanes replaces the frontier. A cause inside a handler,
or under TRAPV 0, waits for the scribe warp; one in the scribe warp restarts it. -/
def takeTrap (s : State) (ci wi : Nat) (z : Cause) : State :=
  match s.warp? ci wi with
  | none => s
  | some w =>
    match (s.core ci).wgOf w with
    | none => restartScribe s ci z
    | some g =>
      if w.handler.isSome || g.trapv = 0#64 then
        s.modWarp ci wi fun w => { w with escal := some z, clause := none }
      else
        let s := s.sysWrite ci w.framePa (frameBytes z w.lig.on (w.sreg 63))
        let mask := match w.front with | e :: _ => e.mask | [] => 0#32
        s.modWarp ci wi fun w =>
          { w.sput 63 w.frameVa false with
              front := [⟨g.trapv, 0, 0#12, mask⟩]
              spilled := []
              job := none
              clause := none
              resume := none
              unread := true
              lig := ⟨false, 0#32, 0#32, [], false, [], false⟩
              wait := .none
              handler := some ⟨w.front, w.spilled, w.lig⟩ }

/-- A cause that an instruction raises before it takes effect, for the lanes in `mask` (R63). -/
def Ctx.cause (k : Ctx) (code : Nat) (mask : Mask) (va : Dword) : Cause :=
  let (pc, pos) := k.w.here
  ⟨code, mask, pc, pos, va, 0#32, 0#4, false⟩

/-- A warp begins to stop (R392): a STALL that runs counts as elapsed when it resumes (R46). -/
def Warp.stop (w : Warp) : Warp := { w with stopped := true, stall := false }
/-- A STALL that runs counts as elapsed: the warp's core has halted (R46, R396). -/
def Warp.endStall (w : Warp) : Warp := { w with stall := false }

/-! ### Clause boundaries and the frontier (R52, R54, R150-R152) -/

/-- What LIGON, LIGMAP and LIGOFF of the clause leave takes effect at its end (R54, R155). That a warp whose frontier the last word of LIGON's
clause has split enters the ligature all the same, with several entries, is the model's choice (log 114). -/
def Lig.boundary (g : Lig) : Lig :=
  let g := if g.pendOn then { g with on := true, pendOn := false } else g
  let put := fun (m : List LigSlot) (x : LigSlot) =>
    let m := m.filter fun y => !(y.path == x.path && y.slot == x.slot)
    let lt := fun (y : LigSlot) => y.path.val * 16 + y.slot.val < x.path.val * 16 + x.slot.val
    m.filter lt ++ [x] ++ m.filter (!lt ·)
  let g := { g with map := g.pendMap.foldl put g.map, pendMap := [] }
  if g.pendOff then ⟨false, 0#32, 0#32, [], false, [], false⟩ else g

/-- Rank of R150: higher PRIO, then lower PC, then lower DEPTH; PCs are compared as unsigned 64-bit numbers (log 90). -/
def Entry.before (a b : Entry) : Bool :=
  b.prio.toNat < a.prio.toNat || (a.prio == b.prio && (a.pc.toNat < b.pc.toNat ||
    (a.pc == b.pc && a.depth.val < b.depth.val)))
/-- The entry of highest rank. -/
def topEntry : List Entry → Option Entry
  | [] => none
  | e :: t => match topEntry t with
    | none => some e
    | some f => if e.before f then some e else some f
/-- The entry of lowest rank. -/
def lowEntry : List Entry → Option Entry
  | [] => none
  | e :: t => match lowEntry t with
    | none => some e
    | some f => if e.before f then some f else some e

/-- Two entries at one place merge (R151). -/
def Entry.same (a b : Entry) : Bool := a.pc == b.pc && a.depth == b.depth

/-- Two entries at one place become one: the lanes of both, at the front of the live ones if `old` is live. -/
def Entry.join (old : Entry) (m : Mask) : Entry := { old with mask := old.mask ||| m }
/-- The head entry stands at the header at `pc`: it keeps its PRIO until that header is read (R55); an entry that stands there
already takes its lanes at once and keeps the PRIO that it has of that header (R151, R152). -/
def Warp.headTo (w : Warp) (pc : Dword) : Warp :=
  match w.front with
  | [] => w
  | e :: es =>
    let n := { e with pc := pc }
    match es.find? (·.same n) with
    | some o => { w with front := o.join n.mask :: es.filter (!·.same n), unread := false }
    | none =>
      if w.spilled.any (·.same n) then
        { w with front := es, spilled := updFirst (·.same n) (·.join n.mask) w.spilled, job := some .merge, unread := false }
      else { w with front := n :: es, unread := true }
/-- The head entry falls through to the header at `pc` (R52). -/
def Warp.fall (w : Warp) (pc : Dword) : Warp :=
  if w.front.isEmpty then w else { w with clause := none, resume := none, lig := w.lig.boundary }.headTo pc
/-- The end of the instruction at the issuing position: the next one of the clause, or the word after it (R52). -/
def Warp.advance (w : Warp) : Warp :=
  match w.clause, w.front with
  | some c, e :: es =>
    if c.pos < c.hdr.len then
      { w with clause := some { c with pos := c.pos + 1 }, front := { e with pc := e.pc + 12#64 } :: es }
    else w.fall (e.pc + 12#64)
  | _, _ => w

/-- Adds an entry to the frontier, merging it by R151; a merge into a spilled entry is a write of its record that keeps
the warp from issuing (R152). -/
def Warp.addEntry (w : Warp) (e : Entry) : Warp :=
  if e.mask = 0#32 then w
  else if w.front.any (·.same e) then
    { w with front := updFirst (·.same e) (fun f => { f with mask := f.mask ||| e.mask, prio := e.prio }) w.front }
  else if w.spilled.any (·.same e) then
    { w with spilled := updFirst (·.same e) (fun f => { f with mask := f.mask ||| e.mask, prio := e.prio }) w.spilled,
             job := some .merge }
  else { w with front := w.front ++ [e] }

/-- A transfer replaces the issuing entry by entries at the places that its lanes go to, the lanes of `stay` falling through
to `f` at the entry's own DEPTH (R158); a ninth live entry makes a spill necessary (R152). -/
def Warp.transfer (w : Warp) (es : List Entry) (stay : Mask) (f : Dword) : Warp :=
  let w := match w.front with
    | e :: t => if stay = 0#32 then { w with front := t, clause := none, lig := w.lig.boundary }
        else { w with front := { e with mask := stay } :: t }.fall f
    | [] => w
  let w := es.foldl Warp.addEntry w
  if 8 < w.front.length then { w with job := some .spill } else w

/-! ### The frame of R61 -/

/-- What the body of an instruction answers. -/
inductive Res where
  | ok (s : State)                -- done; the next instruction follows
  | jump (s : State)              -- done; the body has set where the warp goes on
  | trap (z : Cause)              -- a cause raised before the instruction
  | after (s : State) (z : Cause) -- a cause taken after it
  | hold                          -- it does not issue now; nothing changes
  | again (s : State)             -- it has begun and is not done: the warp stays at it (R397)

/-- The context of the issuing warp, where there is one. -/
def ctxOf (s : State) (c : Ctl) : Option Ctx :=
  let (ci, wi) := s.cur
  let k := s.core ci
  match (if ci < 384 then k.warp? wi else none) with
  | none => none
  | some w => match w.front with
    | [] => none
    | e :: _ => some ⟨s, ci, wi, k, w, k.wgOf w, e, activeMask w e c, []⟩

/-- A post of the warp finds no room in the matrix FIFO (R314). -/
def Ctx.mxFull (k : Ctx) : Bool := 64 ≤ k.k.fifo.length || (56 ≤ k.k.fifo.length && k.w.cls != 0)
/-- The context read again after a change of the state. -/
def Ctx.at_ (k : Ctx) (s : State) : Ctx :=
  let c := s.core k.ci
  { k with s := s, k := c, w := (c.warp? k.wi).getD k.w, g := c.wgOf ((c.warp? k.wi).getD k.w) }

/-- The queues that the operands pop, each once (R43). -/
def popsOf (opds : List Opd) : List Nat :=
  opds.foldl (fun a o => match o.r with
    | .q n => if o.src && !o.dst && !a.contains n.val then a ++ [n.val] else a
    | _ => a) []

/-- The flag that a long-latency instruction counts on (R49); none where its set is not valid. -/
def flagOf (w : Warp) (c : Ctl) : Option (Fin 12) :=
  match w.clause with
  | none => none
  | some cl => match (if c.setsel then cl.hdr.setB else cl.hdr.setA) with
    | some f => finOf 12 f.toNat
    | none => none

/-- Slot `wi` has issued: the YIELD holds that waited for it fall short by it (R47). -/
def Warp.unhold (wi : Nat) (x : Warp) : Warp :=
  match x.yieldHold with
  | some l => let l := l.filter (· != wi)
              { x with yieldHold := if l.isEmpty then none else some l }
  | none => x

/-- The marks that an issue leaves (R46, R47, R140): STALL, the YIELD hold over the other warps of the class in the
partition, those of them counting that are eligible (`endYields`), the order of issues, and the partition's count of class-P issues (R142); a warp that issues ends its part
of the holds of the others. -/
def issued (s : State) (ci wi : Nat) (c : Ctl) : State :=
  s.modCore ci fun k =>
    let cls := ((k.warp? wi).map (·.cls)).getD 0
    let others := (List.range 8).map (· + wi / 8 * 8) |>.filter fun j => j != wi && match k.warp? j with
      | some x => x.cls == cls && !x.ended && x.wg.isSome
      | none => false
    let k := { k with issues := k.issues + 1, warps := k.warps.map fun (x : Option Warp) => x.map (Warp.unhold wi)
                      pHist := k.pHist.setIfInBounds (wi / 8) (((wi != 31 && cls == 0) :: ((k.pHist[wi / 8]?).getD [])).take 1024) }
    k.modWarp wi fun w =>
      { w with stall := c.stall != 0, last := some k.issues,
               yieldHold := if c.yld && !others.isEmpty then some others else none }

/-- The first breach of one register number: of R40 to R44, then of R146. -/
def opdFate (k : Ctx) (scalar : Bool) (o : Opd) : Option Nat :=
  (opdErr k scalar o).or (if opdQueue k o = .err then some cQueueError else none)

/-- The operand checks of R61 in their order: the register numbers (D, A, B, C), then the completion flag of a
long-latency instruction (R49). Answers the cause that fails first. -/
def wordFate (k : Ctx) (c : Ctl) (scalar long : Bool) (opds : List Opd) : Option Nat :=
  (opds.findSome? (opdFate k scalar)).or (if long && (flagOf k.w c).isNone then some cIllegalClause else none)

/-- What keeps the word from issuing now (R139): a queue condition, a scalar register that a barrier's answer will write
(R281), a full completion flag (R49). -/
def wordHeld (k : Ctx) (c : Ctl) (long : Bool) (opds : List Opd) : Bool :=
  opds.any (fun o => opdQueue k o == .wait)
    || opds.any (fun o => match o.r with | .s n => k.w.sbPend.contains n.val | _ => false)
    || (long && k.act != 0#32 && (match flagOf k.w c with
        | some f => ((k.w.cflags[f.val]?).getD 0#6) == 63#6
        | none => false))

/-- The lanes in which some operand is a renamed pair that R154 refuses. -/
def wordPairs (k : Ctx) (opds : List Opd) : Mask := opds.foldl (fun m o => m ||| opdPair k o) 0#32

/-- The context after the pops of the operands (R43): each queue that they name has lost its oldest entry. -/
def Ctx.popped (k : Ctx) (opds : List Opd) : Ctx :=
  let pops := popsOf opds
  let ents := pops.filterMap fun q => k.g.bind fun g => (((g.queues[q]?).getD []).head?).map fun e => (q, e)
  let s := match k.g with
    | some g => k.s.modCore k.ci fun x => x.modWg g.id fun g =>
        { g with queues := pops.foldl (fun v q => v.setIfInBounds q (((v[q]?).getD []).drop 1)) g.queues }
    | none => k.s
  { k.at_ s with pops := ents }

/-- The lanes in which an operand that is read is poisoned (R87). -/
def wordPoison (k : Ctx) (scalar : Bool) (opds : List Opd) : Mask :=
  if scalar && k.act = 0#32 then 0#32 else opds.foldl (fun m o => m ||| opdPoison k o) 0#32

/-- A word that traps: a cause taken before it, with the marks of its issue. -/
def wordCause (k : Ctx) (c : Ctl) (z : Cause) : Out := .next (takeTrap (issued k.s k.ci k.wi c) k.ci k.wi z)

/-- The end of a word that is done: the marks of its issue, and the place after it. -/
def wordEnd (s : State) (ci wi : Nat) (c : Ctl) : State := (issued s ci wi c).modWarp ci wi (·.advance)

/-- What a body's answer comes to. -/
def wordDone (k : Ctx) (c : Ctl) : Res → Out
  | .ok s => .next (wordEnd s k.ci k.wi c)
  | .jump s => .next (issued s k.ci k.wi c)
  | .trap z => wordCause k c z
  | .after s z => .next (takeTrap (issued s k.ci k.wi c) k.ci k.wi z)
  | .hold => .next k.s
  | .again s => .next s

/-- Of POISON_CONSUMED and the cause that the other lanes raise, the one of lower code (R64). -/
def lowerCause (r : Res) (z : Cause) : Cause :=
  match r with
  | .trap y => if y.code < z.code then y else z
  | _ => z

/-- RUNS AN INSTRUCTION WORD of a warp in the frame of R61: the operand checks, what holds it, renamed pairs (R154), poison
(R87), then the body; then what the issue leaves.
`scalar`: the width of R44 is scalar. `long`: the instruction is long-latency. -/
def runInstr (s : State) (c : Ctl) (scalar long : Bool) (opds : List Opd) (body : Ctx → Res) : Out :=
  match ctxOf s c with
  | none => .fault .noIssuer
  | some k =>
    match wordFate k c scalar long opds with
    | some code => wordCause k c (k.cause code k.act 0#64)
    | none =>
      if wordHeld k c long opds then .next s
      else if wordPairs k opds != 0#32 then wordCause k c (k.cause cIllegalOperand (wordPairs k opds) 0#64)
      else
        let k1 := k.popped opds
        let p := wordPoison k1 scalar opds
        if p != 0#32 then wordCause k c (lowerCause (body { k1 with act := k1.act &&& ~~~p }) (k.cause cPoison p 0#64))
        else wordDone k c (body k1)

/-- The operand is a scalar register. -/
def isScalar : Reg → Bool
  | .s _ => true
  | _ => false
/-- B as an operand; an immediate is none. -/
def opdB (b : Src) (n : Nat) (noQ : Bool) : List Opd :=
  match b with
  | .reg r => [{ r := r, adm := admSrc, n := n, noQ := noQ }]
  | .imm _ => []

/-- Vector registers that a lane takes at TYPE's width (R42). -/
def regsOf (t : Ty) : Nat := if tyWidth t = 64 then 2 else 1
def is64 (t : Ty) : Bool := tyWidth t == 64

/-- The lanes for which an instruction computes: every active lane, or, for a scalar D, once (R44). -/
def workLanes (k : Ctx) (d : Reg) : List Nat :=
  match d with
  | .s _ => if k.act = 0#32 then [] else [0]
  | _ => lanesOf k.act

/-- The working lanes with their exact values and flags by `f`; all sources are read before D is written (R42). -/
def laneVals (d : Reg) (f : Ctx → Nat → Int × Flags5) (k : Ctx) : List (Nat × Int × Flags5) :=
  (workLanes k d).map fun l => (l, f k l)
/-- The flags that the lanes raise; for a scalar D they go to every lane of the issuing frontier entry (R82, R115). -/
def Warp.raise (w : Warp) (d : Reg) (act : Mask) (vals : List (Nat × Int × Flags5)) : Warp :=
  if isScalar d then match vals with
    | e :: _ => (lanesOf act).foldl (fun w l => w.orFlags l e.2.2) w
    | [] => w
  else vals.foldl (fun w e => w.orFlags e.1 e.2.2) w
/-- WHAT AN INSTRUCTION WITH ONE DESTINATION LEAVES: D written by R101, the flags raised. -/
def laneResults (t : Ty) (d : Reg) (f : Ctx → Nat → Int × Flags5) (k : Ctx) : State :=
  let vals := laneVals d f k
  (writeLanes k.s k.ci k.wi t d (vals.map fun e => (e.1, e.2.1))).modWarp k.ci k.wi (·.raise d k.e.mask vals)
/-- An instruction with one destination. -/
def perLaneOp (t : Ty) (d : Reg) (f : Ctx → Nat → Int × Flags5) (k : Ctx) : Res := .ok (laneResults t d f k)

end Sys2Proof.Machine
end

