-- ==== Sys2Proof/Machine/Integer.lean ====
section
/-! DEFINITION. The integer and address family (05 R99-R112): the exact results, and one meaning for each instruction. -/

namespace Sys2Proof.Machine

/-! ### The results (R102-R112) -/

/-- Clamp of R101. -/
def clampTy (t : Ty) (v : Int) : Int :=
  let w := tyWidth t
  if isSignedTy t then max (-(2 ^ (w - 1))) (min v (2 ^ (w - 1) - 1)) else max 0 (min v (2 ^ w - 1))
/-- With SAT the exact result is clamped (R102). -/
def satTy (sat : Bool) (t : Ty) (v : Int) : Int := if sat then clampTy t v else v
/-- IDIV of R103. -/
def idivRes (t : Ty) (a b : Int) : Int := if b = 0 then (if isSignedTy t then -1 else 2 ^ tyWidth t - 1) else a.tdiv b
/-- IREM of R103. -/
def iremRes (a b : Int) : Int := if b = 0 then a else a - a.tdiv b * b
/-- The bits of `n` below `w`, counted (R104). -/
def popcount : Nat → Nat → Nat
  | 0, _ => 0
  | w + 1, n => n % 2 + popcount w (n / 2)
/-- CLZ of R104. -/
def clzRes (w n : Nat) : Nat := if n = 0 then w else w - 1 - n.log2
/-- CTZ of R104. -/
def ctzRes : Nat → Nat → Nat
  | 0, _ => 0
  | w + 1, n => if n % 2 = 1 then 0 else 1 + ctzRes w (n / 2)
/-- BREV of R104. -/
def brevRes : Nat → Nat → Nat
  | 0, _ => 0
  | w + 1, n => n % 2 * 2 ^ w + brevRes w (n / 2)
/-- ROL of R104. -/
def rolRes (w a s : Nat) : Nat := let k := s % w; (a * 2 ^ k) ||| (a / 2 ^ (w - k))
/-- The field of BFX and BFI from its amount operand: position and length cut to the width (R105). -/
def fieldOf (w amt : Nat) : Nat × Nat :=
  let pos := amt % 256
  let len := amt / 256 % 256
  if w ≤ pos then (pos, 0) else (pos, min len (w - pos))
/-- BFX of R105. -/
def bfxRes (t : Ty) (a amt : Nat) : Int :=
  let (pos, len) := fieldOf (tyWidth t) amt
  let f := a / 2 ^ pos % 2 ^ len
  if isSignedTy t && 0 < len && f / 2 ^ (len - 1) % 2 = 1 then (f : Int) - 2 ^ len else f
/-- BFI of R105: `a` is inserted into `c`. -/
def bfiRes (w a c amt : Nat) : Nat :=
  let (pos, len) := fieldOf w amt
  if len = 0 then c
  else c % 2 ^ pos + a % 2 ^ len * 2 ^ pos + c / 2 ^ (pos + len) * 2 ^ (pos + len)
/-- PRMT of R106: the eight bytes are those of `c` above those of `a`. -/
def prmtRes (a c sel : Nat) : Nat :=
  let bytes := a % 2 ^ 32 + 2 ^ 32 * (c % 2 ^ 32)
  (List.range 4).foldl (fun r i =>
    let nib := sel / 2 ^ (4 * i) % 16
    let b := bytes / 2 ^ (8 * (nib % 8)) % 256
    r + (if 8 ≤ nib then (if 128 ≤ b then 255 else 0) else b) * 2 ^ (8 * i)) 0
/-- COND of R107. -/
def condHolds (k : Cond) (a b : Int) : Bool :=
  match k with
  | .eq => a == b
  | .ne => a != b
  | .lt => decide (a < b)
  | .le => decide (a ≤ b)
  | .gt => decide (b < a)
  | .ge => decide (b ≤ a)
def boolInt (b : Bool) : Int := if b then 1 else 0

/-! ### Shapes -/

/-- D as an operand of an instruction of this TYPE; a predicate D where `p`. -/
def opdD (d : Reg) (t : Ty) (p : Bool) : Opd :=
  { r := d, adm := { admDst with p := p }, dst := true, src := false, n := regsOf t, noQ := is64 t }
/-- A data source of this TYPE; a predicate where `p`. -/
def opdA (a : Reg) (t : Ty) (p : Bool) : Opd := { r := a, adm := { admSrc with p := p }, n := regsOf t, noQ := is64 t }
/-- A 32-bit amount in a register (R101). -/
def opdAmt (b : Src) (t : Ty) : List Opd := opdB b 1 (is64 t)
/-- B or X as a data source of this TYPE. -/
def opdSrc (b : Src) (t : Ty) : List Opd := opdB b (regsOf t) (is64 t)

/-- An instruction that raises no flag. -/
def noFlags (f : Ctx → Nat → Int) (k : Ctx) (l : Nat) : Int × Flags5 := (f k l, 0#5)

/-- D, A and B or X: `f` gives the exact result from the two sources. -/
def int3 (o : Alu3) (p : Bool) (f : Int → Int → Int) (s : State) : Out :=
  runInstr s o.c (isScalar o.d) false ([opdD o.d o.ty p, opdA o.a o.ty false] ++ opdSrc o.b o.ty)
    (perLaneOp o.ty o.d (noFlags fun k l => f (k.src o.ty o.a l) (k.srcB o.ty o.b l)))
/-- D, A and B or X over the w-bit patterns (R104). -/
def pat3 (o : Alu3) (f : Nat → Nat → Nat) (s : State) : Out :=
  runInstr s o.c (isScalar o.d) false ([opdD o.d o.ty false, opdA o.a o.ty false] ++ opdSrc o.b o.ty)
    (perLaneOp o.ty o.d (noFlags fun k l => f (k.bits o.ty o.a l) (k.bitsB o.ty o.b l)))
/-- D, A and a 32-bit amount (R104, R105). -/
def amt3 (o : Alu3) (f : Ctx → Nat → Nat → Int) (s : State) : Out :=
  runInstr s o.c (isScalar o.d) false ([opdD o.d o.ty false, opdA o.a o.ty false] ++ opdAmt o.b o.ty)
    (perLaneOp o.ty o.d (noFlags fun k l => f k l (k.amt o.b l)))
/-- D and A. -/
def int2 (o : Alu2) (f : Int → Int) (s : State) : Out :=
  runInstr s o.c (isScalar o.d) false [opdD o.d o.ty false, opdA o.a o.ty false]
    (perLaneOp o.ty o.d (noFlags fun k l => f (k.src o.ty o.a l)))
/-- D and A over the w-bit pattern. -/
def pat2 (o : Alu2) (f : Nat → Nat → Nat) (s : State) : Out :=
  runInstr s o.c (isScalar o.d) false [opdD o.d o.ty false, opdA o.a o.ty false]
    (perLaneOp o.ty o.d (noFlags fun k l => f (tyWidth o.ty) (k.bits o.ty o.a l)))

/-! ### The meanings -/

/-- IADD (R102). -/
def execIadd (o : Alu3) (sat : Bool) (s : State) : Out := int3 o false (fun a b => satTy sat o.ty (a + b)) s
/-- ISUB (R102). -/
def execIsub (o : Alu3) (sat : Bool) (s : State) : Out := int3 o false (fun a b => satTy sat o.ty (a - b)) s
/-- IMUL (R102). -/
def execImul (o : Alu3) (sat : Bool) (s : State) : Out := int3 o false (fun a b => satTy sat o.ty (a * b)) s
/-- IMULHI (R102). -/
def execImulhi (o : Alu3) (s : State) : Out := int3 o false (fun a b => a * b / 2 ^ tyWidth o.ty) s
/-- IMAD (R102): one exact step before any clamp or wrap. -/
def execImad (o : Alu4) (sat : Bool) (s : State) : Out :=
  runInstr s o.c (isScalar o.d) false
    [opdD o.d o.ty false, opdA o.a o.ty false, opdA o.b o.ty false, opdA o.e o.ty false]
    (perLaneOp o.ty o.d (noFlags fun k l =>
      satTy sat o.ty (k.src o.ty o.a l * k.src o.ty o.b l + k.src o.ty o.e l)))
/-- IDIV (R103). -/
def execIdiv (o : Alu3) (s : State) : Out := int3 o false (idivRes o.ty) s
/-- IREM (R103). -/
def execIrem (o : Alu3) (s : State) : Out := int3 o false iremRes s
/-- IMIN (R102). -/
def execImin (o : Alu3) (s : State) : Out := int3 o false (fun a b => min a b) s
/-- IMAX (R102). -/
def execImax (o : Alu3) (s : State) : Out := int3 o false (fun a b => max a b) s
/-- IABS (R102). -/
def execIabs (o : Alu2) (sat : Bool) (s : State) : Out := int2 o (fun a => satTy sat o.ty a.natAbs) s
/-- INEG (R102). -/
def execIneg (o : Alu2) (sat : Bool) (s : State) : Out := int2 o (fun a => satTy sat o.ty (-a)) s
/-- AND (R104). -/
def execLand (o : Alu3) (s : State) : Out := pat3 o (fun a b => a &&& b) s
/-- OR (R104). -/
def execLor (o : Alu3) (s : State) : Out := pat3 o (fun a b => a ||| b) s
/-- XOR (R104). -/
def execLxor (o : Alu3) (s : State) : Out := pat3 o (fun a b => a ^^^ b) s
/-- ANDN (R104): A AND NOT B. -/
def execLandn (o : Alu3) (s : State) : Out := pat3 o (fun a b => a &&& (2 ^ tyWidth o.ty - 1 - b)) s
/-- NOT (R104). -/
def execLnot (o : Alu2) (s : State) : Out := pat2 o (fun w a => 2 ^ w - 1 - a) s
/-- SHL (R104): an amount of the width or more gives 0. -/
def execShl (o : Alu3) (s : State) : Out :=
  amt3 o (fun k l n => if n < tyWidth o.ty then ((k.bits o.ty o.a l * 2 ^ n : Nat) : Int) else 0) s
/-- SHR (R104): logical. -/
def execShr (o : Alu3) (s : State) : Out :=
  amt3 o (fun k l n => if n < tyWidth o.ty then ((k.bits o.ty o.a l / 2 ^ n : Nat) : Int) else 0) s
/-- SAR (R104): arithmetic whatever the type. -/
def execSar (o : Alu3) (s : State) : Out :=
  amt3 o (fun k l n =>
    let w := tyWidth o.ty
    let a := k.bits o.ty o.a l
    let a : Int := if 2 ^ (w - 1) ≤ a then (a : Int) - 2 ^ w else a
    a / 2 ^ (min n (w - 1))) s
/-- ROL (R104). -/
def execRol (o : Alu3) (s : State) : Out := amt3 o (fun k l n => rolRes (tyWidth o.ty) (k.bits o.ty o.a l) n) s
/-- BFX (R105). -/
def execBfx (o : Alu3) (s : State) : Out := amt3 o (fun k l n => bfxRes o.ty (k.bits o.ty o.a l) n) s
/-- BFI (R105). -/
def execBfi (o : Alu4) (s : State) : Out :=
  runInstr s o.c (isScalar o.d) false
    [opdD o.d o.ty false, opdA o.a o.ty false, { opdA o.b o.ty false with n := 1 }, opdA o.e o.ty false]
    (perLaneOp o.ty o.d (noFlags fun k l =>
      bfiRes (tyWidth o.ty) (k.bits o.ty o.a l) (k.bits o.ty o.e l) (k.rd o.b l 32)))
/-- POPC (R104). -/
def execPopc (o : Alu2) (s : State) : Out := pat2 o popcount s
/-- CLZ (R104). -/
def execClz (o : Alu2) (s : State) : Out := pat2 o clzRes s
/-- CTZ (R104). -/
def execCtz (o : Alu2) (s : State) : Out := pat2 o ctzRes s
/-- BREV (R104). -/
def execBrev (o : Alu2) (s : State) : Out := pat2 o brevRes s
/-- PRMT (R106): without CREG the bytes 4 to 7 read 0. -/
def execPrmt (o : Alu3) (e : Option Reg) (s : State) : Out :=
  runInstr s o.c (isScalar o.d) false
    ([opdD o.d o.ty false, opdA o.a o.ty false] ++ opdAmt o.b o.ty ++ (e.toList.map fun r => opdA r .n32 false))
    (perLaneOp o.ty o.d (noFlags fun k l =>
      prmtRes (k.bits o.ty o.a l) (match e with | some r => k.rd r l 32 | none => 0) (k.amt o.b l)))
/-- ISET (R107): a predicate D, or 1 and 0. -/
def execIset (o : Alu3) (c : Cond) (s : State) : Out := int3 o true (fun a b => boolInt (condHolds c a b)) s
/-- PSET (R108): predicates only. -/
def execPset (c : Ctl) (op : POp) (d a b : Reg) (s : State) : Out :=
  runInstr s c false false
    [{ r := d, adm := admPred, dst := true, src := false }, { r := a, adm := admPred }, { r := b, adm := admPred }]
    (perLaneOp .n32 d (noFlags fun k l =>
      let x := k.rd a l 1 == 1
      let y := k.rd b l 1 == 1
      boolInt (match op with
        | .and => x && y
        | .or => x || y
        | .xor => x != y
        | .andn => x && !y)))
/-- SEL (R109): the selector is per lane, both sources are read whatever it holds; no scalar or predicate D (R100). -/
def execSel (o : Alu3) (sp : Fin 8) (sneg : Bool) (s : State) : Out :=
  runInstr s o.c false false
    ([{ opdD o.d o.ty false with adm := { admDst with s := false } }, opdA o.a o.ty false] ++ opdSrc o.b o.ty)
    (perLaneOp o.ty o.d (noFlags fun k l =>
      if laneIn (k.w.pred sp.val) l != sneg then k.src o.ty o.a l else k.srcB o.ty o.b l))
/-- MOV (R110): the pattern at TYPE's width; predicates are admitted on both sides. -/
def execMov (o : Alu2) (s : State) : Out :=
  runInstr s o.c (isScalar o.d) false [opdD o.d o.ty true, opdA o.a o.ty true]
    (perLaneOp o.ty o.d (noFlags fun k l => k.src o.ty o.a l))
/-- MOVI (R111): X widened, or X times 2^32 under HI. -/
def execMovi (c : Ctl) (t : Ty) (hi : Bool) (d : Reg) (x : Word) (s : State) : Out :=
  runInstr s c (isScalar d) false [opdD d t false]
    (perLaneOp t d (noFlags fun _ _ => if hi then ((x.toNat * 2 ^ 32 : Nat) : Int) else (immBits t x : Nat)))
/-- The address of LEA (R112). -/
def leaRes (base : Dword) (idx : Nat) (sx : Bool) (scale : Nat) (x : Word) : Dword :=
  let i := if sx then (BitVec.ofNat 32 idx).signExtend 64 else (BitVec.ofNat 32 idx).setWidth 64
  base + (i <<< scale) + x.signExtend 64
/-- LEA (R112): no translation, permission or alignment check. -/
def execLea (o : AluR) (scale : Fin 5) (bsx : Bool) (x : Word) (s : State) : Out :=
  runInstr s o.c (isScalar o.d) false
    [opdD o.d o.ty false, { opdA o.a o.ty false with adm := { admSrc with q := false } }, { opdA o.b o.ty false with n := 1 }]
    (perLaneOp o.ty o.d (noFlags fun k l =>
      ((leaRes (k.src64 o.a l) (k.rd o.b l 32) bsx scale.val x).toNat : Int)))

end Sys2Proof.Machine
end

