-- ==== Sys2Proof/Machine/Transc.lean ====
section
/-! DEFINITION. The transcendental functions of 06 R121 in fixed point: values exact to far beyond the formats they
are rounded to. `f16` and `b16` results are correctly rounded; an `f32` result is one of the codes within its bound. -/

namespace Sys2Proof.Machine

/-- Bits of the fixed-point fractions. -/
def fxP : Nat := 320
/-- ln 2 at 320 fraction bits. -/
def fxLn2 : Nat := 0xb17217f7d1cf79abc9e3b39803f2f6af40f343267298b62d8a0d175b8baafa2be7b876206debac98
/-- pi / 2 at 460 fraction bits. -/
def fxPiH : Nat := 0x1921fb54442d18469898cc51701b839a252049c1114cf98e804177d4c76273644a29410f31c6809bbdf2a33679a748636605614dbe4be286e9fc
/-- The magnitude at `k` fraction bits, rounded down. -/
def Mag.fix (m : Mag) (k : Nat) : Nat := (m.scaled k).1
/-- A value known to lie strictly between `n` and `n + 1` at `k` fraction bits. -/
def fxMag (n : Nat) (k : Int) : Mag := .dy (2 * n + 1) (-k - 1)

/-- The series of e^r from term `t` on; `r` is below 1. -/
def fxExpGo (r : Nat) : Nat → Nat → Nat → Nat
  | 0, _, _ => 0
  | n + 1, k, t => t + fxExpGo r n (k + 1) (t * r / 2 ^ fxP / k)
/-- e^r for a fraction r below 1. -/
def fxExp (r : Nat) : Nat := fxExpGo r 90 1 (2 ^ fxP)
/-- The odd or even part of the series of sin and cos: alternating terms from `t`, each times r^2 / (k (k + 1)). -/
def fxTrigGo (r2 : Nat) : Nat → Nat → Nat → Int
  | 0, _, _ => 0
  | n + 1, k, t => (t : Int) - fxTrigGo r2 n (k + 2) (t * r2 / 2 ^ fxP / (k * (k + 1)))
def fxSin (r : Nat) : Nat := (fxTrigGo (r * r / 2 ^ fxP) 50 2 r).toNat
def fxCos (r : Nat) : Nat := (fxTrigGo (r * r / 2 ^ fxP) 50 1 (2 ^ fxP)).toNat
/-- The series of atanh from term `t`. -/
def fxAtanhGo (z2 : Nat) : Nat → Nat → Nat → Nat
  | 0, _, _ => 0
  | n + 1, k, t => t / k + fxAtanhGo z2 n (k + 2) (t * z2 / 2 ^ fxP)

/-- 2^x for a finite x that is no exact case; of an integer it is that power of two, which may lie between two codes. -/
def transcExp2 (neg : Bool) (m : Mag) : Mag :=
  if 11 ≤ m.ilog2 then .dy 1 (if neg then -4096 else 4096)
  else
    let x := m.fix fxP
    let f := x % 2 ^ fxP
    let n : Int := (x / 2 ^ fxP : Nat)
    if f = 0 then .dy 1 (if neg then -n else n)
    else
    let (n, f) := if neg then (-n - 1, 2 ^ fxP - f) else (n, f)
    fxMag (fxExp (f * fxLn2 / 2 ^ fxP)) ((fxP : Int) - n)

/-- log2 x for a positive finite x that is no power of two. -/
def transcLog2 (m : Mag) : Val :=
  let e := m.ilog2
  let x := ({ m with exp := m.exp - e } : Mag).fix fxP
  let z := (x - 2 ^ fxP) * 2 ^ fxP / (x + 2 ^ fxP)
  let l := 2 * fxAtanhGo (z * z / 2 ^ fxP) 110 1 z * 2 ^ fxP / fxLn2
  let v : Int := e * 2 ^ fxP + l
  if v < 0 then .fin true (fxMag (-v - 1).toNat fxP) else .fin false (fxMag v.toNat fxP)

/-- The quadrant and the rest below pi / 2 of a magnitude. -/
def fxReduce (m : Mag) : Nat × Nat :=
  let x := m.fix 460
  (x / fxPiH % 4, x % fxPiH / 2 ^ 140)

/-- sin x, and cos x as the sine a quadrant ahead, of a nonzero finite x. -/
def transcSin (ahead : Nat) (neg : Bool) (m : Mag) : Val :=
  if ahead = 0 && m.ilog2 < -80 then .fin neg (.dy (m.num * 2 ^ 250 - 1) (m.exp - 250))
  else
    let (q, r) := fxReduce m
    let q := (q + ahead) % 4
    let v := if q % 2 = 0 then fxSin r else fxCos r
    .fin ((ahead == 0 && neg) != (2 ≤ q)) (fxMag v fxP)

/-- tanh x of a nonzero finite x. -/
def transcTanh (neg : Bool) (m : Mag) : Val :=
  if m.ilog2 < -80 then .fin neg (.dy (m.num * 2 ^ 250 - 1) (m.exp - 250))
  else if 7 ≤ m.ilog2 then .fin neg (fxMag (2 ^ fxP - 1) fxP)
  else
    let y := 2 * m.fix fxP
    let n := y / fxLn2
    let e := Nat.max 1 (2 ^ (2 * fxP) / fxExp (y % fxLn2) / 2 ^ n)
    .fin neg (fxMag ((2 ^ fxP - e) * 2 ^ fxP / (2 ^ fxP + e)) fxP)

end Sys2Proof.Machine
end

