-- ==== Sys2Proof/Machine/Float.lean ====
section
/-! DEFINITION. The floating-point family (06 R114-R128): exact results rounded once, special values by R68, sticky
flags by R82, and one meaning for each instruction. -/

namespace Sys2Proof.Machine

/-- The format of a float TYPE. -/
def fmtOf (t : Ty) : Fmt := (Ty.fmt? t).getD fmtF32
/-- A format's code in D: the pattern as a number, with its flags. -/
def codeOf (r : Rounded) : Int × Flags5 := ((r.code : Int), r.flags)
/-- An exact result and what computing it raised, rounded once (R80, R116). -/
def roundTo (t : Ty) (rm : Rm) (x : Val × Flags5) : Int × Flags5 :=
  let r := (fmtOf t).round x.1 rm 1#32
  ((r.code : Int), r.flags ||| x.2)
/-- FSrc of R115. -/
def Ctx.fsrc (k : Ctx) (t : Ty) (r : Reg) (l : Nat) : Val := (fmtOf t).value (k.bits t r l)
def Ctx.fsrcB (k : Ctx) (t : Ty) (b : Src) (l : Nat) : Val := (fmtOf t).value (k.bitsB t b l)

/-! ### The results -/

def Val.sub (x y : Val) (rd : Bool) : Val × Flags5 := x.add y.negate rd
/-- FFMA of R116: one rounding. -/
def Val.fma (a b c : Val) (rd : Bool) : Val × Flags5 :=
  let p := a.mul b
  let s := p.1.add c rd
  (s.1, p.2 ||| s.2)
/-- minimumNumber and maximumNumber of R117, over codes. -/
def fminmax (f : Fmt) (wantMax : Bool) (a b : Nat) : Nat × Flags5 :=
  let x := f.value a
  let y := f.value b
  let fl : Flags5 := if x.isSnan || y.isSnan then flNV else 0#5
  let r := if x.isNan then (if y.isNan then f.nanCode else b)
    else if y.isNan then a
    else
      let c := x.cmp y
      let less := c < 0 || (c == 0 && x.neg? && !y.neg?)
      if wantMax then (if less then b else a) else (if less then a else if c == 0 && !y.neg? then a else b)
  (r, fl)
/-- FSET of R118. -/
def fsetRes (c : FCond) (x y : Val) : Bool × Flags5 :=
  let nan := x.isNan || y.isNan
  let snan := x.isSnan || y.isSnan
  let rel := fun (k : Cond) => condHolds k (x.cmp y) 0
  let quiet := fun (k : Cond) => k == .eq || k == .ne
  match c with
  | .rel k => (!nan && rel k, if snan || (nan && !quiet k) then flNV else 0#5)
  | .relU k => (nan || rel k, if snan || (nan && !quiet k) then flNV else 0#5)
  | .num => (!nan, if snan then flNV else 0#5)
  | .nan => (nan, if snan then flNV else 0#5)
/-- The class mask of R119. -/
def fclassRes (f : Fmt) (code : Nat) : Nat :=
  match f.value code with
  | .nan sig => if sig then 256 else 512
  | .inf neg => if neg then 1 else 128
  | .fin neg m =>
    if m.isZero then (if neg then 8 else 16)
    else if code / 2 ^ f.m % 2 ^ f.e = 0 then (if neg then 4 else 32)
    else if neg then 2 else 64
/-- FRCP of R120. -/
def frcpRes (x : Val) : Val × Flags5 := (Val.fin false (.dy 1 0)).div x
/-- FSQRT of R120. -/
def fsqrtRes (x : Val) : Val × Flags5 :=
  match x with
  | .nan s => (.nan false, if s then flNV else 0#5)
  | .inf true => (.nan false, flNV)
  | .inf false => (.inf false, 0#5)
  | .fin neg m =>
    if m.isZero then (.zero neg, 0#5) else if neg then (.nan false, flNV) else (.fin false { m with root := true }, 0#5)
/-- FRSQ of R120. -/
def frsqRes (x : Val) : Val × Flags5 :=
  match x with
  | .nan s => (.nan false, if s then flNV else 0#5)
  | .inf true => (.nan false, flNV)
  | .inf false => (.zero false, 0#5)
  | .fin neg m =>
    if m.isZero then (.inf neg, flDZ) else if neg then (.nan false, flNV)
    else (.fin false ⟨m.den, m.num, -m.exp, true⟩, 0#5)
/-- FRND of R122. -/
def frndRes (f : Fmt) (rm : Rm) (exact : Bool) (code : Nat) : Nat × Flags5 :=
  match f.value code with
  | .nan s => (f.nanCode, if s then flNV else 0#5)
  | .inf _ => (code, 0#5)
  | .fin neg m =>
    let (n, inx) := roundInt neg m rm 1#32
    if inx then ((f.round (.fin neg (.dy n 0)) rm 1#32).code, if exact then flIX else 0#5) else (code, 0#5)

/-- The transcendental functions, numbered for their free choices. -/
inductive Transc where
  | exp2 | log2 | sin | cos | tanh
deriving DecidableEq, Repr

/-- The special and exact cases of R121, as a value with its flags. -/
def transcExact (f : Fmt) (fn : Transc) (x : Val) : Option (Val × Flags5) :=
  match fn, x with
  | _, .nan s => some (.nan false, if s then flNV else 0#5)
  | .exp2, .inf n => some (if n then .zero false else .inf false, 0#5)
  | .log2, .inf n => some (if n then (.nan false, flNV) else (.inf false, 0#5))
  | .sin, .inf _ | .cos, .inf _ => some (.nan false, flNV)
  | .tanh, .inf n => some (.fin n (.dy 1 0), 0#5)
  | .exp2, .fin n m =>
    if m.isZero then some (.fin false (.dy 1 0), 0#5)
    else
      let (i, inx) := m.scaled 0
      if inx || 4096 < i then none
      else
        let v := Val.fin false (.dy 1 (if n then -(i : Int) else i))
        let r := f.round v .rne 1#32
        if r.flags = 0#5 then some (v, 0#5) else none
  | .log2, .fin n m =>
    if m.isZero then some (.inf true, flDZ)
    else if n then some (.nan false, flNV)
    else
      let e := m.ilog2
      if m.scaled (-e) = (1, false) then some (Val.ofInt e, 0#5) else none
  | .sin, .fin n m => if m.isZero then some (.zero n, 0#5) else none
  | .cos, .fin _ m => if m.isZero then some (.fin false (.dy 1 0), 0#5) else none
  | .tanh, .fin n m => if m.isZero then some (.zero n, 0#5) else none

/-- The true value of any other result, bracketed far below the formats' spacing. -/
def transcTrue (fn : Transc) (neg : Bool) (m : Mag) : Val :=
  match fn with
  | .exp2 => .fin false (transcExp2 neg m)
  | .log2 => transcLog2 m
  | .sin => transcSin 0 neg m
  | .cos => transcSin 1 neg m
  | .tanh => transcTanh neg m

def Transc.num : Transc → Nat
  | .exp2 => 0 | .log2 => 1 | .sin => 2 | .cos => 3 | .tanh => 4

/-- An `f32` result within its bound (R121): 1 ulp for FEXP2 and FLOG2, 2 ulp for the others. Which of those codes is
a fixed function of the input bits that the spec leaves open (log 11). -/
def transc32 (fn : Transc) (bits : Nat) (v : Val) : Int × Flags5 :=
  match v with
  | .fin neg m =>
    let (t, _) := fmtF32.roundMag neg m .rz 1#32
    let pick := Config.transcPick fn.num (BitVec.ofNat 32 bits)
    let c := match fn with
      | .exp2 | .log2 => t + pick % 2
      | _ => t + pick % (if t % 2 ^ 23 = 2 ^ 23 - 1 then 3 else 4) - 1
    let c := min c (255 * 2 ^ 23)
    let full := 255 * 2 ^ 23 ≤ t
    let c := if full then 255 * 2 ^ 23 else c
    ((fmtF32.signed neg c : Int),
      flIX ||| (if c = 255 * 2 ^ 23 then flOF else 0#5) ||| (if c < 2 ^ 23 then flUF else 0#5))
  | w => codeOf (fmtF32.round w .rne 1#32)

/-- FEXP2, FLOG2, FSIN, FCOS and FTANH of a code (R121). -/
def transcRes (t : Ty) (fn : Transc) (bits : Nat) : Int × Flags5 :=
  let f := fmtOf t
  let x := f.value bits
  match transcExact f fn x with
  | some v => roundTo t .rne v
  | none => match x with
    | .fin neg m =>
      let v := transcTrue fn neg m
      if t = .f32 then transc32 fn bits v
      else let r := roundTo t .rne (v, 0#5); (r.1, r.2 ||| flIX)
    | _ => (f.nanCode, 0#5)

/-! ### Conversion (R124-R126) -/

/-- A value converted to an integer type (R126). -/
def cvtToInt (t : Ty) (rm : Rm) (v : Val) : Int × Flags5 :=
  match v with
  | .nan _ => (0, flNV)
  | .inf n => (if n then clampTy t (-(2 ^ 64)) else clampTy t (2 ^ 64), flNV)
  | .fin neg m =>
    let (n, inx) := roundInt neg m rm 1#32
    let i : Int := if neg then -(n : Int) else n
    if clampTy t i != i then (clampTy t i, flNV) else (i, if inx then flIX else 0#5)
/-- The value of A as STYPE: an integer, a float, an `nf` element (R74) or an `mx` lane (R125). -/
def cvtValue (st : Ty) (desc : BitVec 20) (bits : Nat) : Val :=
  match st with
  | .nf => let f := nfdFmt (desc.extractLsb' 0 19); f.value (bits % 2 ^ f.width)
  | .mx =>
    let f := nfdFmt (desc.extractLsb' 0 19)
    mxValue (BitVec.ofNat 8 (bits / 2 ^ 8)) (f.value (bits % 2 ^ f.width))
  | t => if isIntTy t then Val.ofInt (tyInt t bits) else (fmtOf t).value bits
/-- A conversion to a float type or `nf`, with SAT (R126). -/
def cvtToFloat (f : Fmt) (rm : Rm) (sat : Bool) (v : Val) (nvIn : Flags5) (seed : Word) : Int × Flags5 :=
  let r := f.round v rm (srSeed seed)
  let infCode := (2 ^ f.e - 1) * 2 ^ f.m
  let isInf := f.hasInf && (r.code == f.signed false infCode || r.code == f.signed true infCode)
  let c := match v with
    | .fin n _ => if sat && isInf then f.signed n f.maxCode else r.code
    | _ => r.code
  ((c : Int), r.flags ||| nvIn)

/-! ### Shapes -/

/-- D, A and B or X, over values. -/
def flt3 (o : Alu3) (rm : Rm) (f : Val → Val → Val × Flags5) (s : State) : Out :=
  runInstr s o.c (isScalar o.d) false ([opdD o.d o.ty false, opdA o.a o.ty false] ++ opdSrc o.b o.ty)
    (perLaneOp o.ty o.d fun k l => roundTo o.ty rm (f (k.fsrc o.ty o.a l) (k.fsrcB o.ty o.b l)))
/-- D and A, over values. -/
def flt2 (o : Alu2) (rm : Rm) (f : Val → Val × Flags5) (s : State) : Out :=
  runInstr s o.c (isScalar o.d) false [opdD o.d o.ty false, opdA o.a o.ty false]
    (perLaneOp o.ty o.d fun k l => roundTo o.ty rm (f (k.fsrc o.ty o.a l)))
/-- D and A, over codes. -/
def fcode2 (o : Alu2) (p : Bool) (f : Nat → Int × Flags5) (s : State) : Out :=
  runInstr s o.c (isScalar o.d) false [opdD o.d o.ty p, opdA o.a o.ty false]
    (perLaneOp o.ty o.d fun k l => f (k.bits o.ty o.a l))
/-- The sign of a zero sum under RD (R68). -/
def isRd (rm : Rm) : Bool := rm == .rd

/-! ### The meanings -/

/-- FADD (R116). -/
def execFadd (o : Alu3) (rm : Rm) (s : State) : Out := flt3 o rm (fun a b => a.add b (isRd rm)) s
/-- FSUB (R116). -/
def execFsub (o : Alu3) (rm : Rm) (s : State) : Out := flt3 o rm (fun a b => a.sub b (isRd rm)) s
/-- FMUL (R116). -/
def execFmul (o : Alu3) (rm : Rm) (s : State) : Out := flt3 o rm Val.mul s
/-- FFMA (R116). -/
def execFfma (o : Alu4) (rm : Rm) (s : State) : Out :=
  runInstr s o.c (isScalar o.d) false
    [opdD o.d o.ty false, opdA o.a o.ty false, opdA o.b o.ty false, opdA o.e o.ty false]
    (perLaneOp o.ty o.d fun k l =>
      roundTo o.ty rm (Val.fma (k.fsrc o.ty o.a l) (k.fsrc o.ty o.b l) (k.fsrc o.ty o.e l) (isRd rm)))
/-- FMIN and FMAX over codes (R117). -/
def fmm (o : Alu3) (wantMax : Bool) (s : State) : Out :=
  runInstr s o.c (isScalar o.d) false ([opdD o.d o.ty false, opdA o.a o.ty false] ++ opdSrc o.b o.ty)
    (perLaneOp o.ty o.d fun k l =>
      let r := fminmax (fmtOf o.ty) wantMax (k.bits o.ty o.a l) (k.bitsB o.ty o.b l)
      ((r.1 : Int), r.2))
/-- FMIN (R117). -/
def execFmin (o : Alu3) (s : State) : Out := fmm o false s
/-- FMAX (R117). -/
def execFmax (o : Alu3) (s : State) : Out := fmm o true s
/-- FSET (R118): a predicate D, or 1 and 0 as ISET writes them. -/
def execFset (o : Alu3) (c : FCond) (s : State) : Out :=
  runInstr s o.c (isScalar o.d) false
    ([{ opdD o.d o.ty true with n := regsOf o.ty }, opdA o.a o.ty false] ++ opdSrc o.b o.ty)
    (perLaneOp o.ty o.d fun k l =>
      let r := fsetRes c (k.fsrc o.ty o.a l) (k.fsrcB o.ty o.b l)
      (boolInt r.1, r.2))
/-- FCLASS (R119): a predicate D tests the mask against X. -/
def execFclass (o : Alu2) (x : Word) (s : State) : Out :=
  fcode2 o true (fun b =>
    let k := fclassRes (fmtOf o.ty) b
    (if isPred o.d then boolInt ((k &&& x.toNat % 1024) != 0) else (k : Int), 0#5)) s
/-- FRCP (R120). -/
def execFrcp (o : Alu2) (rm : Rm) (s : State) : Out := flt2 o rm frcpRes s
/-- FRSQ (R120). -/
def execFrsq (o : Alu2) (rm : Rm) (s : State) : Out := flt2 o rm frsqRes s
/-- FSQRT (R120). -/
def execFsqrt (o : Alu2) (rm : Rm) (s : State) : Out := flt2 o rm fsqrtRes s
/-- FDIV (R116). -/
def execFdiv (o : Alu3) (rm : Rm) (s : State) : Out := flt3 o rm Val.div s
/-- FEXP2 (R121). -/
def execFexp2 (o : Alu2) (s : State) : Out := fcode2 o false (transcRes o.ty .exp2) s
/-- FLOG2 (R121). -/
def execFlog2 (o : Alu2) (s : State) : Out := fcode2 o false (transcRes o.ty .log2) s
/-- FSIN (R121). -/
def execFsin (o : Alu2) (s : State) : Out := fcode2 o false (transcRes o.ty .sin) s
/-- FCOS (R121). -/
def execFcos (o : Alu2) (s : State) : Out := fcode2 o false (transcRes o.ty .cos) s
/-- FTANH (R121). -/
def execFtanh (o : Alu2) (s : State) : Out := fcode2 o false (transcRes o.ty .tanh) s
/-- FRND (R122). -/
def execFrnd (o : Alu2) (rm : Rm) (exact : Bool) (s : State) : Out :=
  fcode2 o false (fun b => let r := frndRes (fmtOf o.ty) rm exact b; ((r.1 : Int), r.2)) s

/-- Vector registers that a lane of a side of CVT takes; `nf` and `mx` take one. -/
def cvtOpd (r : Reg) (t : Ty) (dst : Bool) (noScalar : Bool) : Opd :=
  { r := r, adm := { (if dst then admDst else admSrc) with s := !noScalar }, dst := dst, src := !dst, n := regsOf t, noQ := is64 t }
/-- The lanes of each MX block (R125). -/
def mxBlocks (desc : BitVec 20) : List (List Nat) :=
  if mxdBlk desc = 16 then [List.range 16, (List.range 16).map (· + 16)] else [List.range 32]
/-- CVT to `mx`: each block with an active lane, over its active lanes (R126). -/
def cvtMx (o : Alu2) (rm : Rm) (seed : Option Reg) (st : Ty) (desc : BitVec 20) (k : Ctx) : State :=
  let f := nfdFmt (desc.extractLsb' 0 19)
  let outs := (mxBlocks desc).map fun b =>
    let ls := b.filter (laneIn k.act)
    let vs := ls.map fun l => cvtValue st desc (k.bits st o.a l)
    let gs := ls.map fun l => match seed with
      | some r => srSeed (BitVec.ofNat 32 (k.rd r l 32))
      | none => 1#32
    let m := mxConvert f rm vs gs
    (ls.zip (m.codes.zip m.flags)).map fun (e : Nat × Nat × Flags5) => (e.1, ((e.2.1 + 256 * m.scale.toNat : Nat) : Int), e.2.2)
  let vals := outs.foldl (· ++ ·) []
  let s := writeLanes k.s k.ci k.wi .n32 o.d (vals.map fun e => (e.1, e.2.1))
  s.modWarp k.ci k.wi fun w => vals.foldl (fun w e => w.orFlags e.1 e.2.2) w
/-- CVT (R124-R126). Where either side is 64-bit, a queue is no SEED either, which is the model's choice (log 111). -/
def execCvt (o : Alu2) (rm : Rm) (sat : Bool) (seed : Option Reg) (st : Ty) (desc : BitVec 20) (s : State) : Out :=
  runInstr s o.c (isScalar o.d) false
    ([cvtOpd o.d o.ty true (o.ty == .mx), cvtOpd o.a st false false] ++
      (seed.toList.map fun r => { r := r, adm := admSrc, noQ := is64 o.ty || is64 st }))
    (if o.ty = .mx then fun k => .ok (cvtMx o rm seed st desc k)
     else perLaneOp (if o.ty == .nf then .n32 else o.ty) o.d fun k l =>
      let v := cvtValue st desc (k.bits st o.a l)
      let nv : Flags5 := if v.isSnan then flNV else 0#5
      if isIntTy o.ty then
        if isIntTy st then (satTy sat o.ty (tyInt st (k.bits st o.a l)), 0#5) else cvtToInt o.ty rm v
      else
        let f := if o.ty = .nf then nfdFmt (desc.extractLsb' 0 19) else fmtOf o.ty
        cvtToFloat f rm sat v nv (match seed with | some r => BitVec.ofNat 32 (k.rd r l 32) | none => 1#32))

/-- The elements of FDOT2 and FDOT4 (R127). -/
def dotElems (t : Ty) (nfd : BitVec 19) (bits : Nat) : List Val :=
  match t with
  | .f16 | .b16 => (List.range 2).map fun i => (fmtOf t).value (packedElem bits 16 i)
  | .i8 | .n8 => (List.range 4).map fun i => Val.ofInt (tyInt t (packedElem bits 8 i))
  | _ => let f := nfdFmt nfd; (List.range 4).map fun i => f.value (packedElem bits f.width i)
/-- The elements are integers: of an integer TYPE, or of a fixed-point format (R73). -/
def dotInt (t : Ty) (nfd : BitVec 19) : Bool := t == .i8 || t == .n8 || (t == .nf && (nfdFmt nfd).e == 0)
/-- FDOT2 and FDOT4: the products' exact sum, whose zero takes the sign for RNE (R84), then one
addition under RM; D is the `f32` addend and the destination; it admits vector and scalar registers (R115). -/
def dotOp (o : AluR) (rm : Rm) (nfd : BitVec 19) (s : State) : Out :=
  runInstr s o.c (isScalar o.d) false
    [{ r := o.d, adm := admVS, dst := true, src := true }, { r := o.a, adm := admSrc }, { r := o.b, adm := admSrc }]
    (perLaneOp .f32 o.d fun k l =>
      let as := dotElems o.ty nfd (k.rd o.a l 32)
      let bs := dotElems o.ty nfd (k.rd o.b l 32)
      let p := exactSum ((as.zip bs).map fun e => prodOf (dotInt o.ty nfd) e.1 e.2)
      let t := (fmtF32.value (k.rd o.d l 32)).add p.1 (isRd rm)
      roundTo .f32 rm (t.1, p.2 ||| t.2))
/-- FDOT2 (R127). -/
def execFdot2 (o : AluR) (rm : Rm) (s : State) : Out := dotOp o rm 0#19 s
/-- FDOT4 (R127). -/
def execFdot4 (o : AluR) (rm : Rm) (nfd : BitVec 19) (s : State) : Out := dotOp o rm nfd s
/-- FSCALE of a value (R123): zeros, infinities and NaNs pass as under a finite factor. -/
def fscaleRes (x : Val) (n : Int) : Val × Flags5 :=
  match x with
  | .nan s => (.nan false, if s then flNV else 0#5)
  | .fin neg m =>
    -- a scale beyond every format's range is cut to one that is still beyond it
    let n := if n < -8192 then -8192 else if 8192 < n then 8192 else n
    (.fin neg { m with exp := m.exp + n }, 0#5)
  | w => (w, 0#5)
/-- FSCALE (R123). -/
def execFscale (o : AluR) (rm : Rm) (s : State) : Out :=
  runInstr s o.c (isScalar o.d) false
    [opdD o.d o.ty false, opdA o.a o.ty false, { opdA o.b o.ty false with n := 1 }]
    (perLaneOp o.ty o.d fun k l =>
      roundTo o.ty rm (fscaleRes (k.fsrc o.ty o.a l) (tyInt .i32 (k.rd o.b l 32))))
/-- The new %flags of FFLAGS (R128). -/
def fflagsRes (op : FfOp) (old m : Flags5) : Flags5 :=
  match op with
  | .read => old
  | .clear => old &&& ~~~m
  | .set => old ||| m
  | .write => m
/-- FFLAGS (R128): D takes the old flags; it admits a vector register only (R115). -/
def execFflags (c : Ctl) (op : FfOp) (d : Option Reg) (b : Src) (s : State) : Out :=
  runInstr s c false false
    ((d.toList.map fun r => { r := r, adm := admVec, dst := true, src := false }) ++ opdB b 1 false)
    fun k =>
      let ls := lanesOf k.act
      let old := fun l => (k.w.fflags[l]?).getD 0#5
      let s := k.s.modWarp k.ci k.wi fun w => ls.foldl (init := w) fun w l =>
        { w with fflags := w.fflags.setIfInBounds l (fflagsRes op (old l) (BitVec.ofNat 5 (k.amt b l))) }
      .ok (match d with
        | some r => writeLanes s k.ci k.wi .n32 r (ls.map fun l => (l, ((old l).toNat : Int)))
        | none => s)

end Sys2Proof.Machine
end

