-- ==== Sys2Proof/Machine/CrossLane.lean ====
section
/-! DEFINITION. The cross-lane family (06 R129-R135): only the lanes of Active(l) take part, a scalar D is refused, and
poison counts where the instruction would use it (R130). -/

namespace Sys2Proof.Machine

/-- A as the source of a cross-lane instruction; its poison is checked by the instruction (R130). -/
def opdX (a : Reg) (t : Ty) : Opd := { opdA a t false with pois := false }
/-- D of a cross-lane instruction: no scalar (R130); a predicate where `p`, a queue where `q`. -/
def opdXD (d : Reg) (t : Ty) (p q : Bool) : Opd :=
  { r := d, adm := ⟨true, false, false, q, p⟩, dst := true, src := false, n := regsOf t, noQ := is64 t }

/-- The frame of a cross-lane instruction: `bad` gives the lanes whose result would depend on a poisoned A. -/
def crossOp (s : State) (c : Ctl) (opds : List Opd) (a : Option Opd) (bad : Ctx → Mask → Mask) (body : Ctx → Res) : Out :=
  runInstr s c false false opds fun k =>
    let pm := match a with
      | some o => bad k (regPoison k o)
      | none => 0#32
    if pm != 0#32 then .trap (k.cause cPoison pm 0#64) else body k

/-- The source lane of SHFL (R131). -/
def shflFrom (m : ShMode) (z l b : Nat) (act : Mask) : Nat :=
  let base := l - l % z
  let i := l % z
  let j := match m with
    | .idx => some (base + b % z)
    | .up => if b ≤ i then some (l - b) else none
    | .down => if i + b ≤ z - 1 then some (l + b) else none
    | .xor => some (base + (i ^^^ (b % z)))
  match j with
  | some j => if laneIn act j then j else l
  | none => l

/-- SHFL (R131). -/
def execShfl (o : Alu3) (m : ShMode) (seg : Fin 6) (s : State) : Out :=
  let from_ := fun (k : Ctx) (l : Nat) => shflFrom m (2 ^ seg.val) l (k.amt o.b l) k.act
  let a := opdX o.a o.ty
  let b := (opdAmt o.b o.ty).map fun x => { x with pois := false }
  crossOp s o.c ([opdXD o.d o.ty false true, a] ++ b) (some a)
    (fun k pm => b.foldl (fun m x => m ||| regPoison k x)
      (maskOf fun l => laneIn k.act l && laneIn pm (from_ k l)))
    (perLaneOp o.ty o.d (noFlags fun k l => k.src o.ty o.a (from_ k l)))

/-- VOTE (R132): BALLOT writes a mask and admits no predicate D. -/
def execVote (c : Ctl) (op : VoteOp) (d a : Reg) (s : State) : Out :=
  let od : Opd := opdXD d .n32 (op != .ballot) true
  crossOp s c [od, { r := a, adm := admPred }] none (fun _ _ => 0#32)
    (perLaneOp .n32 d (noFlags fun k _ =>
      let m := maskOf fun l => laneIn k.act l && k.rd a l 1 == 1
      match op with
      | .all => boolInt (m == k.act)
      | .any => boolInt (m != 0#32)
      | .uni => boolInt (m == k.act || m == 0#32)
      | .ballot => (m.toNat : Int)))

/-- MATCH (R133): D is a vector register. -/
def execMatch (o : Alu2) (all : Bool) (s : State) : Out :=
  let a := opdX o.a o.ty
  crossOp s o.c [{ opdXD o.d .n32 false false with noQ := is64 o.ty }, a] (some a)
    (fun k pm => if pm != 0#32 then k.act else 0#32)
    (perLaneOp .n32 o.d (noFlags fun k l =>
      let m := maskOf fun j => laneIn k.act j && k.bits o.ty o.a j == k.bits o.ty o.a l
      if all then (if m == k.act then (m.toNat : Int) else 0) else (m.toNat : Int)))

/-- One step of REDUX and SCAN over patterns, with its flags (R134). -/
def redStep (t : Ty) (op : RedOp) (rm : Rm) (x y : Nat) : Nat × Flags5 :=
  if isFloatTy t then
    let f := fmtOf t
    match op with
    | .add =>
      let v := (f.value x).add (f.value y) (isRd rm)
      let r := f.round v.1 rm 1#32
      (r.code, r.flags ||| v.2)
    | .min => fminmax f false x y
    | _ => fminmax f true x y
  else
    let w := 2 ^ tyWidth t
    let i := fun n => tyInt t n
    (match op with
      | .add => (x + y) % w
      | .min => if i x ≤ i y then x else y
      | .max => if i x ≤ i y then y else x
      | .and => x &&& y
      | .or => x ||| y
      | .xor => x ^^^ y, 0#5)

/-- A value or empty, combined (R134): x OP empty is x, with no rounding and no flag. -/
def redJoin (t : Ty) (op : RedOp) (rm : Rm) : Option Nat × Flags5 → Option Nat × Flags5 → Option Nat × Flags5
  | (some x, f), (some y, g) => let r := redStep t op rm x y; (some r.1, f ||| g ||| r.2)
  | (some x, f), (none, _) => (some x, f)
  | (none, _), r => r

/-- One level of the tree over neighbouring pairs. -/
def redLevel (t : Ty) (op : RedOp) (rm : Rm) : List (Option Nat × Flags5) → List (Option Nat × Flags5)
  | x :: y :: r => redJoin t op rm x y :: redLevel t op rm r
  | r => r
/-- The fixed tree of R134 over 32 positions: the value and the flags of all its steps. -/
def redTree (t : Ty) (op : RedOp) (rm : Rm) (vals : List (Option Nat)) : Option Nat × Flags5 :=
  let l := redLevel t op rm
  ((l (l (l (l (l (vals.map fun v => (v, 0#5))))))).head?).getD (none, 0#5)

/-- REDUX (R134). -/
def execRedux (o : Alu2) (op : RedOp) (rm : Rm) (s : State) : Out :=
  let a := opdX o.a o.ty
  crossOp s o.c [opdXD o.d o.ty false true, a] (some a) (fun k pm => if pm != 0#32 then k.act else 0#32)
    fun k =>
      let r := redTree o.ty op rm ((List.range 32).map fun p => if laneIn k.act p then some (k.bits o.ty o.a p) else none)
      perLaneOp o.ty o.d (fun _ _ => (((r.1.getD 0 : Nat) : Int), r.2)) k

/-- The identity that SCAN writes under EXCL in the lowest active lane (R134), as a pattern. -/
def scanIdentity (t : Ty) (op : RedOp) : Nat :=
  let w := tyWidth t
  let f := fmtOf t
  match op with
  | .add | .or | .xor => 0
  | .and => 2 ^ w - 1
  | .min => if isFloatTy t then (2 ^ f.e - 1) * 2 ^ f.m else if isSignedTy t then 2 ^ (w - 1) - 1 else 2 ^ w - 1
  | .max => if isFloatTy t then f.signed true ((2 ^ f.e - 1) * 2 ^ f.m) else if isSignedTy t then 2 ^ (w - 1) else 0

/-- SCAN over the active lanes in ascending order: each lane's output and the flags of the steps that formed it. -/
def scanGo (t : Ty) (op : RedOp) (excl : Bool) (rm : Rm) :
    List (Nat × Nat) → Option Nat × Flags5 → List (Nat × Nat × Flags5)
  | [], _ => []
  | (l, v) :: r, prev =>
    let acc := redJoin t op rm prev (some v, 0#5)
    let out := if excl then (match prev.1 with | none => (scanIdentity t op, 0#5) | some p => (p, prev.2))
      else (acc.1.getD 0, acc.2)
    (l, out) :: scanGo t op excl rm r acc

/-- SCAN (R134). -/
def execScan (o : Alu2) (op : RedOp) (excl : Bool) (rm : Rm) (s : State) : Out :=
  let a := opdX o.a o.ty
  crossOp s o.c [opdXD o.d o.ty false true, a] (some a)
    (fun k pm => match (lanesOf pm).head? with
      | some j => maskOf fun l => laneIn k.act l && (if excl then j < l else j ≤ l)
      | none => 0#32)
    fun k =>
      let outs := scanGo o.ty op excl rm ((lanesOf k.act).map fun l => (l, k.bits o.ty o.a l)) (none, 0#5)
      perLaneOp o.ty o.d (fun _ l => match outs.find? (·.1 == l) with
        | some (_, v, f) => ((v : Int), f)
        | none => (0, 0#5)) k

/-- The mask of LANEMASK (R135). -/
def lanemaskOf (m : LmKind) (l : Nat) : Mask :=
  maskOf fun j => match m with
    | .eq => j == l
    | .lt => decide (j < l)
    | .le => decide (j ≤ l)
    | .gt => decide (l < j)
    | .ge => decide (l ≤ j)
/-- LANEMASK (R135): D is a vector register. -/
def execLanemask (c : Ctl) (m : LmKind) (d : Reg) (s : State) : Out :=
  crossOp s c [opdXD d .n32 false false] none (fun _ _ => 0#32)
    (perLaneOp .n32 d (noFlags fun _ l => ((lanemaskOf m l).toNat : Int)))

end Sys2Proof.Machine
end

