-- ==== Sys2Proof/Machine/Window.lean ====
section
/-! DEFINITION. The on-chip windows (02 R28-R31): the regions of a core, who may reach them, their bytes and poison; the
scratchpad swizzle (13 R269) and the waiters of the sync unit (R273, R274). -/

namespace Sys2Proof.Machine

/-! ### Orderings (R36) -/

/-- The ordering has an acquire half. -/
def acqs : Order → Bool
  | .acq | .ar => true
  | _ => false
/-- The ordering has a release half. -/
def rels : Order → Bool
  | .rel | .ar => true
  | _ => false

/-! ### Waiters of the sync unit -/

/-- An acquire of a warp, older than `id`, is not yet performed: every later event of the warp comes after it (R231). -/
def Core.acqPend (k : Core) (slot id : Nat) : Bool :=
  let mine := fun (a : Access) => a.path == .lsu slot && a.id < id && acqs a.ord
  (match k.warp? slot with
    | some w => w.out.any (fun o => o.acq && o.id < id) || w.deferred.any fun d => mine d.acc
    | none => false)
    || k.tickets.any (fun t => mine t.acc) || k.misses.any fun m => mine m.acc
/-- A waiting warp's SEMWAIT, CMWAIT or BARWAIT, an acquire, does not end yet: an older ticket of the warp, or an older acquire, is
not performed (R191, R231, R234). -/
def Core.waitHeld (k : Core) (slot : Nat) : Bool :=
  k.tickets.any (fun t => t.acc.path == .lsu slot) || k.misses.any (fun m => m.acc.path == .lsu slot)
    || match k.warp? slot with
      | some w => w.out.any (fun o => o.acq || o.rep) || w.deferred.any fun d => acqs d.acc.ord
      | none => false

/-- A wait of SEMWAIT ends: D receives the value seen (R281). -/
def Warp.endSem (v : Word) (w : Warp) : Warp :=
  match w.wait with
  | .sem _ _ _ d _ =>
    let w := { w with wait := .none }
    match d with
    | some n => w.sput n.val (v.setWidth 64) false
    | none => w
  | _ => w

/-- What a posted write acts on: semaphore `n`, or a group of map `n`. -/
def SyncMsg.loc (m : SyncMsg) : Nat × Option Nat :=
  (m.n, match m.op with | .cmSet g _ | .cmClr g _ => some g | .semSet _ | .semInc _ => none)
/-- A posted write of the warp to a location is still on its way: its own later operations there come after it (R229, R231, R281). -/
def Core.ownSync (k : Core) (slot : Nat) (l : Nat × Option Nat) : Bool := k.syncQ.any fun m => m.slot == slot && m.loc == l

/-- The waiters of semaphore `n` in the event order of their issue (R273); `stuck` once a DEC waiter stays. -/
def semGo (n : Nat) : List SemWait → Bool → Core → Core × List SemWait
  | [], _, k => (k, [])
  | x :: t, stuck, k =>
    if x.sem ≠ n then
      let (k, r) := semGo n t stuck k
      (k, x :: r)
    else
      let v := (k.sems[n]?).getD 0#32
      if x.thr.toNat ≤ v.toNat && !(x.dec && stuck) && !k.ownSync x.slot (n, none) && !k.waitHeld x.slot then
        let k := { k.modWarp x.slot (·.endSem v) with hz := Nat.max k.hz k.syncHz }
        let k := if x.dec then { k with sems := k.sems.setIfInBounds n (v - x.thr) } else k
        semGo n t stuck k
      else
        let (k, r) := semGo n t (stuck || x.dec) k
        (k, x :: r)
/-- Re-examines the waiters of a semaphore (R272, R273). -/
def Core.semExam (k : Core) (n : Nat) : Core :=
  let (k, q) := semGo n k.semQ false k
  { k with semQ := q }

/-- Group `g` of chunk map `m` (R274). -/
def Core.cmGroup (k : Core) (m g : Nat) : Dword := ((k.cmaps[m]?).getD 0#512).extractLsb' (64 * g) 64
/-- The condition of CMWAIT (R281). -/
def cmMet (grp v : Dword) (any : Bool) : Bool := (if any then grp &&& v != 0#64 else grp &&& v == v)
/-- Ends the CMWAITs on map `m` whose condition holds. -/
def Core.cmExam (k : Core) (m : Nat) : Core :=
  let ends := fun (i : Nat) (w : Warp) => match w.wait with
    | .cm m' g v any => m' == m && (v == 0#64 || (cmMet (k.cmGroup m g) v any && !k.ownSync i (m, some g) && !k.waitHeld i))
    | _ => false
  let any := (List.range 32).any fun i => ((k.warp? i).map (ends i)).getD false
  { k with warps := Vector.ofFn fun i => k.warps[i].map fun w => if ends i.val w then { w with wait := .none } else w,
           hz := if any then Nat.max k.hz k.syncHz else k.hz }
/-- Writes a semaphore and re-examines its waiters. -/
def Core.semPut (k : Core) (n : Nat) (v : Word) : Core :=
  { k with sems := k.sems.setIfInBounds n v }.semExam n
/-- Writes a chunk map and re-examines its waiters. -/
def Core.cmPut (k : Core) (m : Nat) (v : BitVec 512) : Core :=
  { k with cmaps := k.cmaps.setIfInBounds m v }.cmExam m
/-- The semaphore adds with saturation (R272). -/
def satAdd (a b : Word) : Word := if a.toNat + b.toNat < 2 ^ 32 then a + b else 0xFFFFFFFF#32

/-! ### The scratchpad (R269) -/

/-- The physical byte that offset `a` of an allocation reaches, with base row `base` and span code `k`. -/
def swizzle (base k a : Nat) : Nat :=
  let S := 16 * 2 ^ k
  let N := 512 / S
  let r := a / 512
  (base + r) * 512 + ((a / S % N) ^^^ (r % N)) * S + a % S

/-- The workgroup of a gang that lies at `%wg` n, with its core: its cores are consecutive in the quad (R370). -/
def gangPart (s : State) (ci : Nat) (g : Wg) (n : Nat) : Option (Nat × Wg) :=
  (quadCores ci).findSome? fun c => ((s.core c).wgs.find? fun x =>
    x.die == g.die && x.graph == g.graph && x.node == g.node && x.gang == g.gang && x.wgno == n).map fun x => (c, x)

/-- Where an offset of the quad range lies (R19, R204): its core and physical byte. -/
def spadAt (s : State) (ci : Nat) (g : Wg) (a size : Nat) : Option (Nat × Nat) :=
  if 4 * 0x40000 ≤ a then none
  else match gangPart s ci g (a / 0x40000) with
    | none => none
    | some (c, x) =>
      let o := a % 0x40000
      if o + size ≤ x.spadRows * 512 then some (c, swizzle x.spadBase x.span o) else none

/-! ### Regions of a window (R29) -/

inductive Region where
  | rf | spad | ob | acc | nibs | sem | cmap | mail | ctl
deriving DecidableEq, Repr

/-- The core and offset of a window address (R28). -/
def winSplit (pa : Nat) : Option (Nat × Nat) := if isWin pa then some ((pa - winBase) / 0x1000000, (pa - winBase) % 0x1000000) else none

/-- The backed regions and their first offset. -/
def regions : List (Region × Nat × Nat) :=
  [(.rf, 0, 0x80000), (.spad, 0x200000, 0x40000), (.ob, 0x400000, 0x80000), (.acc, 0x600000, 0xC0000),
   (.nibs, 0x800000, 0x80000), (.sem, 0xA00000, 0x100), (.cmap, 0xA01000, 0x400), (.mail, 0xB00000, 0x400),
   (.ctl, 0xC00000, 0x100000)]
/-- The region that holds `n` bytes at an offset, with the offset in it; none where a byte is unbacked. -/
def regionOf (off n : Nat) : Option (Region × Nat) :=
  regions.findSome? fun (r, b, z) => if b ≤ off ∧ off + n ≤ b + z then some (r, off - b) else none

/-- How a window is accessed. -/
inductive WKind where
  | load | store | atomic
deriving DecidableEq, Repr

/-- The registers of the control region: DBGSTAT, GOVB, RBREF (R398) and HPCAP (R403). -/
def ctlRegs : List Nat := [0x00, 0x10, 0x40, 0x100]

/-- The checks of R30 that depend on the address, the kind of access and the fixed layouts alone; `dev`: the page is of
type DEV. -/
def winFixed (s : State) (g off n : Nat) (k : WKind) (dev scribe : Bool) : Bool :=
  !s.fuses.off.contains g && g < 384 && match regionOf off n with
    | none => false
    | some (r, o) =>
      match r with
      | .rf => k != .atomic
      | .spad | .sem | .cmap => true
      | .ob | .acc => k != .atomic
      | .nibs | .mail => k == .load && scribe
      | .ctl => dev && k == .load && n == 8 && ctlRegs.contains o

/-- A register-file offset lies in an open slot of a resident warp of the PASID (R293). -/
def rfOpen (k : Core) (o n : Nat) (pasid : BitVec 20) : Bool :=
  (List.range 32).any fun i => match k.warp? i with
    | some w => w.pasid == pasid && w.wins.any fun x =>
        128 * (w.base + x.f) ≤ o && o + n ≤ 128 * (w.base + x.f + x.n)
    | none => false

/-- The checks of R30 that depend on the target core's state (R271, R293); the scribe warp reaches all of a register file (R29). -/
def winHeld (s : State) (g off n : Nat) (pasid : BitVec 20) (scribe : Bool) : Bool :=
  match regionOf off n with
    | none => false
    | some (r, o) =>
      let k := s.core g
      let has := fun (p : Wg → Bool) => k.wgs.any fun x => x.pasid == pasid && p x
      match r with
      | .rf => scribe || rfOpen k o n pasid
      | .spad => has fun x => x.spadBase * 512 ≤ o && o + n ≤ (x.spadBase + x.spadRows) * 512
      | .sem => (unitsOf 4 o n).all fun i => has (·.semMask.getLsbD i)
      | .cmap => (unitsOf 64 o n).all fun i => has (·.cmMask.getLsbD i)
      | _ => true

/-- A resident workgroup of the PASID holds an offset, those of the operand buffer and the accumulator store too: what a multicast
asks of each target (R289). -/
def winMine (s : State) (g off n : Nat) (pasid : BitVec 20) : Bool :=
  winHeld s g off n pasid false && match regionOf off n with
    | some (.ob, o) => (s.core g).wgs.any fun x => x.pasid == pasid && x.obBase * 2048 ≤ o && o + n ≤ (x.obBase + x.obLen) * 2048
    | some (.acc, o) => (s.core g).wgs.any fun x => x.pasid == pasid && x.accBase * 0x8000 ≤ o && o + n ≤ (x.accBase + x.accN) * 0x8000
    | _ => true

/-! ### Bytes of a window -/

/-- `n` bytes from byte `o` of a sequence of units of `u` bytes that `f` gives. -/
def unitBytes (u : Nat) (f : Nat → Nat) (o n : Nat) : Nat :=
  leNat ((List.range n).map fun i => BitVec.ofNat 8 (f ((o + i) / u) / 2 ^ (8 * ((o + i) % u))))
/-- A unit's value after a write of `n` bytes `v` from byte `o`. -/
def unitPut (u i old o n v : Nat) : Nat :=
  leNat ((List.range u).map fun j =>
    let a := u * i + j
    if o ≤ a ∧ a < o + n then BitVec.ofNat 8 (v / 2 ^ (8 * (a - o))) else BitVec.ofNat 8 (old / 2 ^ (8 * j)))

/-- DBGSTAT, GOVB, RBREF and HPCAP (R398, R403). -/
def ctlRead (s : State) (g o : Nat) : Dword :=
  let k := s.core g
  if o = 0 then BitVec.ofNat 64 ((if k.halted then 1 else 0) + (if k.haltReq then 2 else 0) + (k.bpw.length + k.bpEng.length) % 2 ^ 16 * 2 ^ 16)
  else if o = 0x10 then k.govB.setWidth 64
  else if o = 0x40 then k.rbref.setWidth 64
  else if o = 0x100 then s.port.hpcap
  else 0#64

/-- Reads `n` bytes of core `g`'s window with their poison. -/
def winRead (s : State) (g off n : Nat) : Nat × Bool :=
  let k := s.core g
  match regionOf off n with
  | none => (0, false)
  | some (r, o) =>
    match r with
    | .rf => (unitBytes 4 (fun i => (tabGet 0#32 k.rf i).toNat) o n, (unitsOf 4 o n).any (setHas k.rfPois))
    | .spad => (leNat (rdBytes k.spad o n), poisAt 64 k.spadPois o n)
    | .ob => (leNat (rdBytes k.ob o n), poisAt 64 k.obPois o n)
    | .acc => (unitBytes 4 (fun i => (tabGet 0#32 k.acc i).toNat) o n, (unitsOf 4 o n).any (setHas k.accPois))
    | .nibs => (leNat (rdBytes k.nibStore o n), false)
    | .sem => (unitBytes 4 (fun i => ((k.sems[i]?).getD 0#32).toNat) o n, false)
    | .cmap => (unitBytes 64 (fun i => ((k.cmaps[i]?).getD 0#512).toNat) o n, false)
    | .mail => (leNat (rdBytes k.mailMem o n), false)
    | .ctl => ((ctlRead s g o).toNat, false)

/-- Writes `n` bytes of a core's window with their poison (R86, R98, R272); fewer bytes than a slot or an element
holds go in among its others (log 89). -/
def Core.winWrite (k : Core) (off n v : Nat) (p : Bool) : Core :=
  match regionOf off n with
  | none => k
  | some (r, o) =>
    let words := fun (t : List (Nat × Word)) =>
      (unitsOf 4 o n).foldl (fun t i => tabSet 0#32 t i (BitVec.ofNat 32 (unitPut 4 i (tabGet 0#32 t i).toNat o n v))) t
    match r with
    | .rf => { k with rf := words k.rf, rfPois := poisWrite 4 k.rfPois o n p }
    | .spad => { k with spad := wrBytes k.spad o (leBytes n v), spadPois := poisWrite 64 k.spadPois o n p }
    | .ob => { k with ob := wrBytes k.ob o (leBytes n v), obPois := poisWrite 64 k.obPois o n p }
    | .acc => { k with acc := words k.acc, accPois := poisWrite 4 k.accPois o n p }
    | .sem => (unitsOf 4 o n).foldl (fun k i =>
        k.semPut i (BitVec.ofNat 32 (unitPut 4 i ((k.sems[i]?).getD 0#32).toNat o n v))) k
    | .cmap => (unitsOf 64 o n).foldl (fun k i =>
        k.cmPut i (BitVec.ofNat 512 (unitPut 64 i ((k.cmaps[i]?).getD 0#512).toNat o n v))) k
    | .nibs | .mail | .ctl => k
/-- The granules of a region that the parts (offset, length) of one clean write replace whole are clean (R85, R86, R210). -/
def Core.winClean (k : Core) (ws : List (Nat × Nat)) : Core :=
  let at_ := fun (u : Nat) (p : Region) => wholeUnits u (ws.filterMap fun w => match regionOf w.1 w.2 with
    | some (r, o) => if r == p then some (o, w.2) else none
    | none => none)
  { k with rfPois := (at_ 4 .rf).foldl setDel k.rfPois, accPois := (at_ 4 .acc).foldl setDel k.accPois
           spadPois := (at_ 64 .spad).foldl setDel k.spadPois, obPois := (at_ 64 .ob).foldl setDel k.obPois }

end Sys2Proof.Machine
end

