-- ==== Sys2Proof/Machine/Mx.lean ====
section
/-! DEFINITION. What the matrix engine works on (16 R306-R321): records, views and operands, the effects of entries, and what window
accesses see of an entry that runs. -/

namespace Sys2Proof.Machine

/-! ### Reservation records (R306-R308) -/

def dBits (d : Dword) (lo n : Nat) : Nat := d.toNat / 2 ^ lo % 2 ^ n
/-- The kept count of a KEEP code. -/
def keptOf (k : Nat) : Nat := if k = 0 then 12 else if k = 1 then 16 else 24
/-- A record's element width. -/
def Resv.w (r : Resv) : Nat :=
  if r.fmt = 0 ∨ r.fmt = 4 then 8 else if r.fmt = 8 ∨ r.fmt = 9 then 16 else if r.fmt = 10 then 32
  else (nfdFmt (r.desc.extractLsb' 0 19)).width
def Resv.kept (r : Resv) : Nat := keptOf r.keep
def Resv.blk (r : Resv) : Nat := mxdBlk r.desc
/-- Stored elements of a row. -/
def Resv.rowElems (r : Resv) : Nat := if r.sparse then r.cols * r.kept / 48 else r.cols
/-- The row pitch P. -/
def Resv.pitch (r : Resv) : Nat := ceilDiv (r.rowElems * r.w) 512 * 64
/-- The pitch of a scale row. -/
def Resv.sp (r : Resv) : Nat := if r.bcol then ceilDiv r.cols 64 * 64 else ceilDiv (ceilDiv r.cols r.blk) 64 * 64
/-- The pitch of a metadata row. -/
def Resv.mp (r : Resv) : Nat := ceilDiv (r.cols / 48 * 6) 64 * 64
/-- The regions of a record: first byte and length. -/
def Resv.regions (r : Resv) : List (Nat × Nat) :=
  [(0, r.rows * r.pitch)] ++ (if r.fmt = 13 then [(r.scoff * 64, (if r.bcol then ceilDiv r.rows r.blk else r.rows) * r.sp)] else [])
    ++ (if r.sparse then [(r.mdoff * 64, r.rows * r.mp)] else [])
def meets (a b : Nat × Nat) : Bool := a.1 < b.1 + b.2 && b.1 < a.1 + a.2
/-- No two of some ranges overlap. -/
def apart : List (Nat × Nat) → Bool
  | [] => true
  | a :: t => t.all (!meets a ·) && apart t

/-- Reads a record from its two words; none where a reserved bit is set. -/
def resvOf (w0 w1 : Dword) : Option Resv :=
  if dBits w0 52 12 != 0 || dBits w0 26 6 != 0 then none
  else some {
    desc := w0.extractLsb' 32 20, keep := dBits w0 24 2, sparse := w0.getLsbD 23, bcol := w0.getLsbD 22
    fmt := dBits w0 18 4, len := dBits w0 9 9, base := dBits w0 0 9
    mdoff := dBits w1 48 16, scoff := dBits w1 32 16, cols := dBits w1 16 16, rows := dBits w1 0 16 }
/-- The checks of R308 that concern the record and the workgroup's run. -/
def Resv.ok (r : Resv) (g : Wg) : Bool :=
  [0, 4, 8, 9, 10, 12, 13].contains r.fmt
    && (if r.fmt = 12 then !r.desc.getLsbD 19 && nfdValid (r.desc.extractLsb' 0 19) else if r.fmt = 13 then mxdValid r.desc else r.desc == 0#20)
    && r.keep != 3 && (r.sparse || r.keep == 0) && (!r.bcol || r.fmt == 13)
    && !(r.sparse && (r.fmt == 10 || r.fmt == 13 || r.bcol || r.cols % 48 != 0))
    && 1 ≤ r.len && r.len ≤ 256 && 1 ≤ r.cols && r.cols ≤ 4096 && 1 ≤ r.rows && r.rows ≤ 4096
    && apart r.regions && r.regions.all (fun x => x.1 + x.2 ≤ r.len * 2048) && r.base + r.len ≤ g.obLen

/-! ### Views (R309) -/

/-- A view lies in its stored matrix and keeps to its blocks and groups. -/
def viewOk (r : Resv) (v : View) : Bool :=
  v.row + v.nr ≤ r.rows && v.colo + v.nc ≤ r.cols
    && (r.fmt != 13 || (if r.bcol then v.row % r.blk == 0 && v.nr % r.blk == 0 else v.colo % r.blk == 0 && v.nc % r.blk == 0))
    && (!r.sparse || (v.colo % 48 == 0 && v.nc % 48 == 0))
/-- Logical rows and columns. -/
def View.lr (v : View) : Nat := if v.col then v.nc else v.nr
def View.lc (v : View) : Nat := if v.col then v.nr else v.nc
/-- The stored element of a logical one. -/
def View.at_ (v : View) (i j : Nat) : Nat × Nat := if v.col then (v.row + j, v.colo + i) else (v.row + i, v.colo + j)
/-- The K direction rule of an operand. -/
def kDirOk (r : Resv) (v : View) : Bool := (r.fmt != 13 || r.bcol == v.col) && (!r.sparse || !v.col)

/-- A captured operand: its record, its view, and the first byte of its reservation in the operand buffer. -/
structure Opr where
  r : Resv
  v : View
  at_ : Nat

def oprOf (g : Wg) (x : Resv × View) : Opr := ⟨x.1, x.2, (g.obBase + x.1.base) * 2048⟩
/-- Bit of a stored element: row, place in the row. -/
def Opr.bit (o : Opr) (i c : Nat) : Nat := (o.at_ + i * o.r.pitch) * 8 + c * o.r.w
/-- Byte of the scale of a stored element. -/
def Opr.scaleAt (o : Opr) (i c : Nat) : Nat :=
  o.at_ + o.r.scoff * 64 + (if o.r.bcol then i / o.r.blk * o.r.sp + c else i * o.r.sp + c / o.r.blk)
/-- Byte of the metadata of a group of a stored row. -/
def Opr.metaAt (o : Opr) (i g : Nat) : Nat := o.at_ + o.r.mdoff * 64 + i * o.r.mp + 6 * g

/-- `w` bits of the operand buffer from a bit. -/
def obBits (k : Core) (b w : Nat) : Nat := leNat (rdBytes k.ob (b / 8) ((b % 8 + w + 7) / 8)) / 2 ^ (b % 8) % 2 ^ w
def obBad (k : Core) (b w : Nat) : Bool := poisAt 64 k.obPois (b / 8) ((b % 8 + w + 7) / 8)
/-- The value of a code in an element format. -/
def elemVal (r : Resv) (c : Nat) : Val :=
  if r.fmt = 0 then .ofInt ((BitVec.ofNat 8 c).toInt) else if r.fmt = 4 then .ofInt (c : Int)
  else if r.fmt = 8 then fmtF16.value c else if r.fmt = 9 then fmtB16.value c else if r.fmt = 10 then fmtF32.value c
  else (nfdFmt (r.desc.extractLsb' 0 19)).value c
/-- A stored element at a place of its row, under its scale, with its poison (R76, R88). -/
def Opr.get (o : Opr) (k : Core) (i place c : Nat) : Val × Bool :=
  let b := o.bit i place
  let v := elemVal o.r (obBits k b o.r.w)
  if o.r.fmt = 13 then
    let a := o.scaleAt i c
    (mxValue ((rdBytes k.ob a 1).headD 0#8) v, obBad k b o.r.w || poisAt 64 k.obPois a 1)
  else (v, obBad k b o.r.w)
/-- A logical element of a dense view. -/
def Opr.elem (o : Opr) (k : Core) (i j : Nat) : Val × Bool :=
  let (r, c) := o.v.at_ i j
  o.get k r c c

/-- The metadata mask of a group of a logical row of a sparse view, with its poison (R310). -/
def Opr.mask (o : Opr) (k : Core) (i g : Nat) : Nat × Bool :=
  let a := o.metaAt (o.v.row + i) (o.v.colo / 48 + g)
  (leNat (rdBytes k.ob a 6), poisAt 64 k.obPois a 6)
/-- The bits below `t` that a mask sets. -/
def bitsBelow (m t : Nat) : Nat := ((List.range t).filter fun i => m / 2 ^ i % 2 == 1).length

/-- The row's metadata is sound and clean: every mask keeps the kept count. -/
def Opr.rowMeta (o : Opr) (k : Core) (i : Nat) : Bool × Bool :=
  let l := (List.range (o.v.nc / 48)).map fun g => o.mask k i g
  (l.all fun m => bitsBelow m.1 48 == o.r.kept, l.any (·.2))
/-- Element (i, k) of operand A; none where sparsity leaves it out. -/
def Opr.a (o : Opr) (k : Core) (i kk : Nat) : Option (Val × Bool) :=
  if o.r.sparse then
    let m := (o.mask k i (kk / 48)).1
    if m / 2 ^ (kk % 48) % 2 = 1 then
      some (o.get k (o.v.row + i) ((o.v.colo / 48 + kk / 48) * o.r.kept + bitsBelow m (kk % 48)) 0)
    else none
  else some (o.elem k i kk)

/-! ### Classes (R311) -/

inductive MxClass where
  | q | c8 | c16 | c32
deriving DecidableEq, Repr

def narrowFmt (r : Resv) : Bool := r.fmt == 0 || r.fmt == 4 || r.fmt == 12 || r.fmt == 13
def mxClass (a b : Resv) : Option MxClass :=
  let small := fun (r : Resv) => (r.fmt == 12 || r.fmt == 13) && r.w ≤ 4
  let half := fun (r : Resv) => r.fmt == 8 || r.fmt == 9
  if small a && small b then some .q
  else if narrowFmt a && narrowFmt b then some .c8
  else if half a && half b then some .c16
  else if a.fmt == 10 && b.fmt == 10 then some .c32
  else none
def MxClass.step : MxClass → Nat × Nat
  | .q => (128, 128)
  | .c8 => (128, 64)
  | .c16 => (64, 64)
  | .c32 => (32, 32)
/-- The summation group of R84. -/
def MxClass.group : MxClass → Nat
  | .q | .c8 => 64
  | .c16 => 32
  | .c32 => 4
/-- The array cycles of an entry. -/
def arrayCycles (a : Resv) (cl : MxClass) (m n k : Nat) : Nat :=
  ceilDiv m cl.step.1 * ceilDiv n cl.step.2 * (if a.sparse then k * a.kept / 48 else k)

/-! ### The effects of entries (R313, R318-R321) -/

/-- The accumulator element (i, j) of tile `acc` of a workgroup. -/
def accAt (g : Wg) (acc i j : Nat) : Nat := (g.accBase + acc + j / 64) * 8192 + 64 * i + j % 64
def accGet (k : Core) (x : Nat) : Word := tabGet 0#32 k.acc x
/-- Writes an element; a poisoned one's data is unspecified (R85). -/
def accPut (tick : Nat) (k : Core) (x : Nat) (v : Word) (p : Bool) : Core :=
  { k with acc := tabSet 0#32 k.acc x (if p then Config.poisonBits tick x else v), accPois := setPut k.accPois x p }

/-- Elements of integers and fixed-point numbers, whose zero has no sign (R73). -/
def Resv.int (r : Resv) : Bool := r.fmt == 0 || r.fmt == 4 || ((r.fmt == 12 || r.fmt == 13) && (nfdFmt (r.desc.extractLsb' 0 19)).e == 0)
/-- Adds the groups to an accumulator, in ascending order. -/
def addGroups (int : Bool) : List (List (Val × Val)) → Nat × Flags5 → Nat × Flags5
  | [], e => e
  | l :: t, (c, f) =>
    let (s, g) := exactSum (l.map fun p => prodOf int p.1 p.2)
    let (x, h) := (fmtF32.value c).add s false
    let r := fmtF32.round x .rne 0#32
    addGroups int t (r.code, f ||| g ||| h ||| r.flags)

/-- MMA and MMAS on one output element: its additions from `lo` to `hi`. -/
def mmaElem (tick : Nat) (g : Wg) (k0 : Core) (oa ob : Opr) (cl : MxClass) (acc kdim i j : Nat) (rowBad : Bool) (lo hi : Nat)
    (k : Core × Flags5) : Core × Flags5 :=
  let x := accAt g acc i j
  let G := cl.group
  let terms := (((List.range (ceilDiv kdim G)).drop lo).take (hi - lo)).map fun q =>
    ((List.range (Nat.min G (kdim - q * G))).map (· + q * G)).filterMap fun kk => (oa.a k0 i kk).map fun a => (a, ob.elem k0 j kk)
  let bad := rowBad || setHas k.1.accPois x || terms.any fun l => l.any fun t => t.1.2 || t.2.2
  if terms.isEmpty then k
  else if bad then (accPut tick k.1 x 0#32 true, k.2)
  else
    let r := addGroups (oa.r.int && ob.r.int) (terms.map fun l => l.map fun t => (t.1.1, t.2.1)) ((accGet k.1 x).toNat, 0#5)
    (accPut tick k.1 x (BitVec.ofNat 32 r.1) false, k.2 ||| r.2)
/-- All pairs of a region, row by row. -/
def grid (m n : Nat) : List (Nat × Nat) := (List.range m).foldr (fun i l => ((List.range n).map fun j => (i, j)) ++ l) []
/-- Metadata of a row of A: malformed, or poisoned. -/
def rowFault (oa : Opr) (k : Core) (i : Nat) : Bool × Bool := if oa.r.sparse then (let r := oa.rowMeta k i; (!r.1, r.2)) else (false, false)

/-- MMA and MMAS (R313), after the additions `done` of each element: the core, the flags, and whether some metadata was malformed. -/
def runMma (tick : Nat) (g : Wg) (oa ob : Opr) (acc : Nat) (done : Nat → Nat) (k : Core) : Core × Flags5 × Bool :=
  match mxClass oa.r ob.r with
  | none => (k, 0#5, false)
  | some cl =>
    let m := oa.v.lr
    let n := ob.v.lr
    let rows := (List.range m).map (rowFault oa k)
    let bad := fun (i : Nat) => match rows[i]? with | some r => r.1 || r.2 | none => false
    let r := (grid m n).foldl (fun z e => mmaElem tick g k oa ob cl acc oa.v.lc e.1 e.2 (bad e.1) (done (accAt g acc e.1 e.2))
      (ceilDiv oa.v.lc cl.group) z) (k, 0#5)
    (r.1, r.2, rows.any (·.1))

/-- ACCZ. -/
def runAccz (tick : Nat) (g : Wg) (acc count : Nat) (done : Nat → Nat) (k : Core) : Core :=
  (List.range (count * 8192)).foldl (fun k i =>
    let x := (g.accBase + acc) * 8192 + i
    if done x = 0 then accPut tick k x 0#32 false else k) k
/-- ACCLD on one element (R318): a signalling NaN raises invalid (R68). -/
def accldElem (tick : Nat) (g : Wg) (o : Opr) (acc i j : Nat) (z : Core × Flags5) : Core × Flags5 :=
  let (v, p) := o.elem z.1 i j
  let r := fmtF32.round v .rne 0#32
  let nv : Flags5 := if v.isSnan then flNV else 0#5
  (accPut tick z.1 (accAt g acc i j) (BitVec.ofNat 32 r.code) p, if p then z.2 else z.2 ||| r.flags ||| nv)
/-- ACCLD. -/
def runAccld (tick : Nat) (g : Wg) (o : Opr) (acc : Nat) (done : Nat → Nat) (k : Core) : Core × Flags5 :=
  (grid o.v.lr o.v.lc).foldl (fun z e => if done (accAt g acc e.1 e.2) = 0 then accldElem tick g o acc e.1 e.2 z else z) (k, 0#5)

/-- One field of the operand buffer that a drain writes: its bit, width, code and poison. -/
structure ObField where
  bit : Nat
  w   : Nat
  v   : Nat
  bad : Bool
/-- Writes bits of the operand buffer. -/
def obPut (ob : List (Nat × Byte)) (f : ObField) : List (Nat × Byte) :=
  let n := (f.bit % 8 + f.w + 7) / 8
  let old := leNat (rdBytes ob (f.bit / 8) n)
  let lo := f.bit % 8
  wrBytes ob (f.bit / 8) (leBytes n (old % 2 ^ lo + f.v % 2 ^ f.w * 2 ^ lo + old / 2 ^ (lo + f.w) * 2 ^ (lo + f.w)))
/-- Applies a drain's writes with their poison (R86): a granule replaced whole by clean bits is clean, and of one that a poisoned field
marks all the data is unspecified (R85, R320). -/
def obApply (tick : Nat) (k : Core) (fs : List ObField) : Core :=
  let units := fs.foldl (fun u f => (unitsOf 512 f.bit f.w).foldl setAdd u) []
  let inU := fun (f : ObField) (i : Nat) => Nat.min (f.bit + f.w) (512 * (i + 1)) - Nat.max f.bit (512 * i)
  let pois := units.foldl (fun p i =>
    if fs.any fun f => f.bad && 0 < inU f i then setAdd p i
    else if (fs.foldl (fun a f => a + inU f i) 0) = 512 then setDel p i else p) k.obPois
  let lost := units.filter fun i => fs.any fun f => f.bad && 0 < inU f i
  let free := fun (i : Nat) => (List.range 64).map fun j => (Config.poisonBits tick (16 * i + j / 4)).extractLsb' (8 * (j % 4)) 8
  { k with ob := lost.foldl (fun ob i => wrBytes ob (64 * i) (free i)) (fs.foldl obPut k.ob), obPois := pois }

/-- The generator of output row `i` after `j` steps (R321). -/
def drainRng (seed : Word) (i : Nat) : Nat → Word
  | 0 => srSeed (seed + BitVec.ofNat 32 i)
  | j + 1 => srStep (drainRng seed i j)
/-- The code that ACCDRAIN writes, with its flags (R319); a signalling NaN raises invalid (R68). -/
def drainCode (r : Resv) (rm : Rm) (sat : Bool) (e : Word) (g : Word) : Nat × Flags5 :=
  if r.fmt = 10 then (e.toNat, 0#5)
  else
    let f := if r.fmt = 8 then fmtF16 else if r.fmt = 9 then fmtB16 else nfdFmt (r.desc.extractLsb' 0 19)
    let v := fmtF32.value e.toNat
    let x := f.round v rm g
    let fl := x.flags ||| (if v.isSnan then flNV else 0#5)
    match sat, v, f.value x.code with
    | true, .fin n _, .inf _ => (f.signed n f.maxCode, fl)
    | _, _, _ => (x.code, fl)
/-- The fields that ACCDRAIN writes, with its flags. -/
def drainFields (g : Wg) (o : Opr) (acc : Nat) (rm : Rm) (sat : Bool) (seed : Word) (k : Core) : List ObField × Flags5 :=
  let l := (grid o.v.lr o.v.lc).map fun e =>
    let x := accAt g acc e.1 e.2
    let bad := setHas k.accPois x
    let c := drainCode o.r rm sat (accGet k x) (if rm = .sr then drainRng seed e.1 e.2 else 0#32)
    let (r, s) := o.v.at_ e.1 e.2
    ((⟨o.bit r s, o.r.w, c.1, bad⟩ : ObField), if bad then 0#5 else c.2)
  (l.map (·.1), l.foldl (fun f e => f ||| e.2) 0#5)
/-- ACCMX on one block: the element fields, the scale, the flags, and whether it is poisoned (R320, R78). A poisoned element, whose data
no rule gives, counts as 0 beside the clean ones, and raises no flag (R321; log 10). -/
def mxBlock (g : Wg) (o : Opr) (acc : Nat) (rm : Rm) (seed : Word) (k : Core) (i b : Nat) : List ObField × Byte × Flags5 × Bool :=
  let js := (List.range o.r.blk).map (· + b * o.r.blk)
  let xs := js.map fun j => accAt g acc i j
  let bad := xs.any (setHas k.accPois)
  let r := mxConvert (nfdFmt (o.r.desc.extractLsb' 0 19)) rm (xs.map fun x => if setHas k.accPois x then .zero false else fmtF32.value (accGet k x).toNat)
    (js.map fun j => if rm = .sr then drainRng seed i j else 0#32)
  let fl := (xs.zip r.flags).foldl (fun f e => if setHas k.accPois e.1 then f else f ||| e.2) 0#5
  ((js.zip r.codes).map fun e => let (a, c) := o.v.at_ i e.1; ⟨o.bit a c, o.r.w, e.2, bad⟩, r.scale, fl, bad)
/-- The fields that ACCMX writes, with its flags. -/
def accmxFields (g : Wg) (o sc : Opr) (same : Bool) (acc : Nat) (rm : Rm) (seed : Word) (k : Core) : List ObField × Flags5 :=
  let blocks := (grid o.v.lr (o.v.lc / Nat.max 1 o.r.blk)).map fun e => (e, mxBlock g o acc rm seed k e.1 e.2)
  let scale := fun (e : Nat × Nat) (v : Byte) (bad : Bool) => (if same then
      ⟨o.scaleAt (o.v.row + e.1) (o.v.colo + e.2 * o.r.blk) * 8, 8, v.toNat, bad⟩
    else let (a, c) := sc.v.at_ e.1 e.2; ⟨sc.bit a c, 8, v.toNat, bad⟩ : ObField)
  (blocks.foldr (fun b l => b.2.1 ++ (scale b.1 b.2.2.1 b.2.2.2.2 :: l)) [], blocks.foldl (fun f b => f ||| b.2.2.2.1) 0#5)

/-! ### Entries that run, as other agents see them (R317) -/

/-- The fields that a drain writes, with its flags; none for any other entry. -/
def MxEntry.fields (g : Wg) (e : MxEntry) (k : Core) : List ObField × Flags5 :=
  match e.kind, e.a, e.b with
  | .accdrain, some a, _ => drainFields g (oprOf g a) e.acc e.rm e.sat e.seed k
  | .accmx, some a, some b => accmxFields g (oprOf g a) (oprOf g b) e.same e.acc e.rm e.seed k
  | _, _, _ => ([], 0#5)
/-- The additions of an element that have been seen. -/
def MxEntry.seen (e : MxEntry) (x : Nat) : Nat := ((e.done.find? (·.1 == x)).map (·.2)).getD 0
def MxEntry.see (e : MxEntry) (x n : Nat) (fl : Flags5) : MxEntry := { e with done := (x, n) :: e.done.filter (·.1 != x), fl := e.fl ||| fl }
/-- The bytes of an 8-B unit of the operand buffer. -/
def obUnit (k : Core) (u : Nat) : List Byte := rdBytes k.ob (8 * u) 8
def setUnit (k : Core) (u : Nat) (bs : List Byte) : Core := { k with ob := wrBytes k.ob (8 * u) bs }
/-- What a running entry does beyond what has been seen of it: the core after it, its flags, and whether metadata was malformed. -/
def runEntry (tick : Nat) (g : Wg) (e : MxEntry) (k : Core) : Core × Flags5 × Bool :=
  match e.kind, e.a, e.b with
  | .mma, some a, some b | .mmas, some a, some b =>
    let r := runMma tick g (oprOf g a) (oprOf g b) e.acc e.seen k
    (r.1, e.fl ||| r.2.1, r.2.2)
  | .accz, _, _ => (runAccz tick g e.acc e.count e.seen k, 0#5, false)
  | .accld, some a, _ => let r := runAccld tick g (oprOf g a) e.acc e.seen k; (r.1, e.fl ||| r.2, false)
  | _, _, _ =>
    let r := e.fields g k
    (e.done.foldl (fun t u => setUnit t u.1 (obUnit k u.1)) (obApply tick k r.1), r.2, false)

/-- The place of an accumulator word in what an entry writes, with the additions that it makes there. -/
def MxEntry.elemAt (g : Wg) (e : MxEntry) (x : Nat) : Option (Nat × Nat × Nat) :=
  let base := g.accBase + e.acc
  let i := x % 8192 / 64
  let j := (x / 8192 - base) * 64 + x % 64
  if x / 8192 < base then none
  else match e.kind, e.a, e.b with
  | .mma, some a, some b | .mmas, some a, some b => match mxClass a.1 b.1 with
    | some cl => if i < a.2.lr ∧ j < b.2.lr then some (i, j, ceilDiv a.2.lc cl.group) else none
    | none => none
  | .accld, some a, _ => if i < a.2.lr ∧ j < a.2.lc then some (i, j, 1) else none
  | .accz, _, _ => if j < 64 * e.count then some (i, j, 1) else none
  | _, _, _ => none
/-- An entry makes the additions of one element from `lo` to `hi`. -/
def MxEntry.elem (tick : Nat) (g : Wg) (e : MxEntry) (i j lo hi : Nat) (k : Core) : Core × Flags5 :=
  match e.kind, e.a, e.b with
  | .mma, some a, some b | .mmas, some a, some b => match mxClass a.1 b.1 with
    | some cl =>
      let f := rowFault (oprOf g a) k i
      mmaElem tick g k (oprOf g a) (oprOf g b) cl e.acc a.2.lc i j (f.1 || f.2) lo hi (k, 0#5)
    | none => (k, 0#5)
  | .accld, some a, _ => if lo < hi then accldElem tick g (oprOf g a) e.acc i j (k, 0#5) else (k, 0#5)
  | .accz, _, _ => if lo < hi then (accPut tick k (accAt g e.acc i j) 0#32 false, 0#5) else (k, 0#5)
  | _, _, _ => (k, 0#5)
/-- A window access finds an accumulator element after a free number of the additions that the running entry still makes. -/
def Core.seeElem (tick : Nat) (k : Core) (x : Nat) : Core :=
  match k.fifo.findSome? fun e => if e.run then (k.wg? e.wg).bind fun g => (e.elemAt g x).map fun p => (e, g, p) else none with
  | none => k
  | some (e, g, i, j, n) =>
    let lo := e.seen x
    let hi := lo + Config.seen tick x % (n - lo + 1)
    let (k, fl) := e.elem tick g i j lo hi k
    { k with fifo := updFirst (·.id == e.id) (·.see x hi fl) k.fifo }
/-- A window access finds an 8-B unit of the operand buffer before or after the event of the running drain that writes it; whether the
access falls within that event, so that a write is lost. -/
def Core.seeUnit (tick : Nat) (k : Core) (u : Nat) : Core × Bool :=
  match k.fifo.findSome? fun e => if e.run && e.seen u == 0 then (k.wg? e.wg).bind fun g =>
      let fs := (e.fields g k).1
      if fs.any fun f => f.bit < 64 * (u + 1) && 64 * u < f.bit + f.w then some (e, fs) else none else none with
  | none => (k, false)
  | some (e, fs) =>
    if Config.seen tick u % 3 = 0 then (k, false)
    else
      let t := obApply tick k fs
      let k := setUnit k u (obUnit t u)
      ({ k with obPois := if setHas t.obPois (u / 8) then setAdd k.obPois (u / 8) else k.obPois
                fifo := updFirst (·.id == e.id) (·.see u 1 0#5) k.fifo }, Config.seen tick u % 3 == 2)
/-- A core's window as an access of `n` bytes from `off` finds it, with the units in which a write is lost. -/
def Core.winSee (tick : Nat) (k : Core) (off n : Nat) : Core × List Nat :=
  if !k.fifo.any (·.run) then (k, [])
  else match regionOf off n with
    | some (.acc, o) => ((unitsOf 4 o n).foldl (Core.seeElem tick) k, [])
    | some (.ob, o) => (unitsOf 8 o n).foldl (fun z u => let r := z.1.seeUnit tick u; (r.1, if r.2 then z.2 ++ [u] else z.2)) (k, [])
    | _ => (k, [])
/-- A WRITE THROUGH A WINDOW, as it meets what the matrix engine is writing. -/
def Core.winMeet (tick : Nat) (k : Core) (off n : Nat) (write : Core → Core) : Core :=
  let r := k.winSee tick off n
  r.2.foldl (fun t u => setUnit t u (obUnit r.1 u)) (write r.1)
def Core.winPut (tick : Nat) (k : Core) (off n v : Nat) (p : Bool) : Core := k.winMeet tick off n (·.winWrite off n v p)
/-- What an access reads through a window, it sees of a running entry for good. -/
def State.winSee (s : State) (g off n : Nat) : State := s.modCore g fun k => (k.winSee s.tick off n).1

end Sys2Proof.Machine
end

