-- ==== Sys2Proof/Machine/Flit.lean ====
section
/-! DEFINITION. CRC-64 (21 R412, R417, R422); flits, routes and streams of the Rindihan links (R412-R416). -/

namespace Sys2Proof.Machine

/-- One bit of the CRC-64 register with the ECMA-182 polynomial, most significant bit first (log 15). -/
def crc64Bit (r : Dword) (b : Bool) : Dword :=
  let t := r.getLsbD 63 != b
  if t then (r <<< 1) ^^^ 0x42F0E1EBA9EA3693#64 else r <<< 1
/-- CRC-64 of some bytes, from a register of 0. -/
def crc64 (bs : List Byte) : Dword :=
  bs.foldl (fun r b => (List.range 8).foldl (fun r i => crc64Bit r (b.getLsbD (7 - i))) r) 0#64

/-- A flit of given header fields and payload, without its link fields (R412). -/
def flitOf (src : BitVec 16) (dpkg cls : Nat) (relay : Bool) (eseq : Word) (kind npkt : Nat) (payload : BitVec 1856) : BitVec 2048 :=
  BitVec.ofNat 2048 (npkt * 2 ^ 32 + kind * 2 ^ 40 + eseq.toNat * 2 ^ 72 + (if relay then 2 ^ 104 else 0) + cls * 2 ^ 105
    + dpkg * 2 ^ 108 + src.toNat * 2 ^ 112 + payload.toNat * 2 ^ 128)
/-- The bits of a flit from `lo` replaced. -/
def flitPut (f : BitVec 2048) (lo n v : Nat) : BitVec 2048 :=
  (f &&& ~~~(BitVec.ofNat 2048 (2 ^ n - 1) <<< lo)) ||| (BitVec.ofNat 2048 (v % 2 ^ n) <<< lo)
/-- The link CRC over bytes 0-247. -/
def flitCrc (f : BitVec 2048) : Dword := crc64 (leBytes 248 (f.toNat % 2 ^ 1984))
/-- A flit as a port sends it: LSEQ, LACK and the CRC. -/
def flitSeal (f : BitVec 2048) (lseq lack : BitVec 12) : BitVec 2048 :=
  let f := flitPut (flitPut f 60 12 lseq.toNat) 48 12 lack.toNat
  flitPut f 1984 64 (flitCrc f).toNat
/-- A flit that is intact: its CRC holds and no reserved field is set (R412). -/
def flitOk (f : BitVec 2048) : Bool :=
  f.extractLsb' 1984 64 == flitCrc f && f.extractLsb' 0 32 == 0#32 && (f.extractLsb' 105 3).toNat < 6
    && (f.extractLsb' 40 8).toNat < 6 && (f.extractLsb' 32 8).toNat ≤ 29

def State.rport (s : State) (p : Nat) : RPort := (s.rports[p]?).getD RPort.fresh
def State.modPort (s : State) (p : Nat) (f : RPort → RPort) : State := { s with rports := s.rports.setIfInBounds p (f (s.rport p)) }
/-- A port puts a flit into its retry buffer of 1,024 and sends it (R413); while the buffer is full it sends none, and the origin sends the
flit again (R414). -/
def sendOn (s : State) (p : Nat) (f : BitVec 2048) : State :=
  if 1024 ≤ (s.rport p).retry.length then s
  else s.modPort p fun r =>
    let n := r.txLseq + 1
    { r with txLseq := n, retry := r.retry ++ [(n, flitSeal f n r.rxLseq)] }
/-- The port that carries a stream straight to a device; of two ports, by bit 0 of SRC (R415). -/
def directPort (s : State) (d src : Nat) : Option Nat :=
  let l := (List.range 15).filter fun p => (s.rport p).st == .up && ((s.rport p).peer.map (·.val)) == some d
  (l.find? fun p => p % 2 == src % 2).or l.head?
/-- The port towards a device, with whether it is a detour: the lowest-numbered relay with both links up (R416). -/
def routeTo (s : State) (d src : Nat) : Option (Nat × Bool) :=
  match directPort s d src with
  | some p => some (p, false)
  | none => ((List.range 16).findSome? fun r =>
      if r = d ∨ r = s.pkg.val ∨ !Config.peerLink s.tick r d then none else directPort s r src).map fun p => (p, true)
/-- No path leads to a device (R416). -/
def unreachable (s : State) (d : Nat) : Bool := d != s.pkg.val && (routeTo s d 0).isNone
/-- Sends a flit to its destination, where a route exists. -/
def sendRouted (s : State) (f : BitVec 2048) : State :=
  match routeTo s (f.extractLsb' 108 4).toNat (f.extractLsb' 112 16).toNat with
  | some (p, relay) => sendOn s p (if relay then flitPut f 104 1 1 else f)
  | none => s
/-- A stream's end, as this device keeps it (R414). -/
def State.stream (s : State) (i : StreamId) (send : Bool) : StreamSt := (s.streams.find? fun x => x.id == i && x.send == send).getD ⟨i, send, 0#32, [], 0⟩
def State.setStream (s : State) (x : StreamSt) : State :=
  { s with streams := s.streams.filter (fun y => !(y.id == x.id && y.send == x.send)) ++ [x] }
/-- The origin sends a data flit on a stream and keeps it until it is acknowledged end to end (R414). -/
def originate (s : State) (i : StreamId) : State :=
  let x := s.stream i true
  let n := x.eseq + 1
  let f := flitOf i.src i.dpkg.toNat i.cls.toNat false n 0 1 (Config.packets s.tick)
  sendRouted (s.setStream { x with eseq := n, unack := x.unack ++ [(n, f)] }) f
/-- A message about a line from a slice of a die to another device, in a class of R261: requests 0, a home's forwards, invalidations and go
messages 1, data, acknowledgements and refusals 2. -/
def sliceSend (s : State) (d line dev : Nat) (cls : BitVec 3) : State :=
  originate s ⟨unitSource s d (96 + sliceOf line), BitVec.ofNat 4 dev, cls⟩
/-- The agents of other devices among some (R251). -/
def farAgents (s : State) (l : List Nat) : List Nat := l.filter fun a => a / 4 != s.pkg.val
/-- A transaction has begun at a home: its invalidations, or its forward, go to the agents of other devices (R251, R254). -/
def dirSend (s : State) (e : DirEnt) : State :=
  (farAgents s (if e.st != .b then [] else if e.fwd.isSome then e.owner.toList else e.sharers)).foldl
    (fun s a => sliceSend s (homeDie (e.line * 128)) e.line (a / 4) 1#3) s
/-- The home takes a line back from the agents of other devices that hold it, for its own die or for a request from outside the package: a
transaction that it does not refuse, count or reserve for, and that awaits their answers (R251, R252, R259). -/
def homeAsk (s : State) (line : Nat) (write : Bool) : State :=
  let h := homeDie (line * 128)
  let e := (s.die h).dir line
  let a := homeAgent s line
  if !peersHold s line write || e.st == .b then s
  else
    let e := { e with st := .b, go := false }
    let e := match write, e.owner with
      | false, _ => { e with fwd := some a }
      | true, some o => { e with sharers := [o], owner := some a }
      | true, none => { e with owner := some a }
    dirSend (s.modDie h (·.setDir e)) e
/-- The home of a line on another device grants it to die `d`, for reading or for writing: a copy that a die of this device has
serves it, else the data is the peer's. Another die's ownership ends, and for a write every other copy, whose stamps LTLIM may hold
back (R247, R251, R254, R256). A die that owned it sends its data to the home (R255). -/
def peerGrant (s : State) (d line : Nat) (own : Bool) : Option State :=
  let others := (List.range 4).filter (· != d)
  if own && others.any (fun i => (invLim (s.die i) line).isSome) then none
  else
    let s := if peerHeld s line then s else putPeer s line
    let s := others.foldl (fun s i => if ((s.die i).tag? line).any (·.st == .owner) then sliceSend s i line (lineDev s line) 2#3 else s) s
    let s := others.foldl (fun s i => s.modDie i fun k =>
      if own then k.invalidate line
      else match k.tag? line with
        | some t => if t.st = .owner then k.setTag { t with st := .shared } else k
        | none => k) s
    let s := if own then (match (s.die d).tag? line with | some t => s.soil line t.pois | none => s) else s
    some (s.modDie d fun k => match k.tag? line with
      | some t => if own then k.setTag { t with st := .owner, pois := 0#2 } else k
      | none => k.setTag (k.filled line (if own then .owner else .shared)))
/-- A die gives the bytes that it has written of an UNT line back to the home (R257): in place, or as a message to another device. -/
def untGive (s : State) (d line : Nat) : State :=
  let far := (peerHome line).isSome && ((s.die d).unt? line).any (·.mask != 0#128)
  let s := untWriteBack s d line
  if far then sliceSend s d line (lineDev s line) 2#3 else s

end Sys2Proof.Machine
end

