-- ==== Sys2Proof/Machine/Xlate.lean ====
section
/-! DEFINITION. Address translation (08 R170-R180, R196): canonical addresses, page table entries, the walk, the
translation arrays of the quads, permissions, and the fetching of instruction words (R193, R194). -/

namespace Sys2Proof.Machine

/-- Bits [63:57] equal bit [56] (R170). -/
def canonical (va : Dword) : Bool :=
  va.extractLsb' 57 7 == (if va.getLsbD 56 then 0x7F#7 else 0#7)

/-- Memory types of R175. -/
def mtTrk : Fin 6 := 0
def mtUnt : Fin 6 := 1
def mtHst : Fin 6 := 2
def mtNibw : Fin 6 := 3
def mtWin : Fin 6 := 4
def mtDev : Fin 6 := 5

/-- An 8-B word of device memory, or of an on-chip window. -/
def State.hbm64 (s : State) (pa : Nat) : Dword :=
  match winSplit pa with
  | some (g, off) => BitVec.ofNat 64 (winRead s g off 8).1
  | none => BitVec.ofNat 64 (leNat (rdBytes s.hbm pa 8))

/-- The index bits of a level of the tables (R173), from level 4 down to level 0. -/
def levelShift (lv : Nat) : Nat := if lv = 0 then 16 else 21 + 9 * (lv - 1)
def levelIndex (lv va : Nat) : Nat := va / 2 ^ levelShift lv % (if lv = 0 then 32 else 512)

/-- A frame of HBM or of an on-chip window is backed (R28, R172). -/
def backed (pa size : Nat) : Bool := isHbm (pa + size - 1) || (isWin pa && isWin (pa + size - 1))

/-- Where a walk ends (R177, R461). -/
inductive Walk where
  | leaf (x : Xlat)
  | notPresent (lv addr : Nat)
  | malformed (addr : Nat)
  | host
deriving DecidableEq, Repr, Inhabited

/-- The malformed entries of R174 at level `lv`, for a device numbered `pkg`. A pointer at level 0, below which R173 has no level, is
taken as one too (log 81); of an entry that is no leaf, which has no page size, the frame needs no alignment (log 103). -/
def pteMalformed (pkg : Nat) (lv : Nat) (e : Dword) : Bool :=
  let kind := e.extractLsb' 0 2
  let frame := e.extractLsb' 16 36
  let mt := (e.extractLsb' 13 3).toNat
  let leaf := kind == 2#2
  let size := if leaf then 2 ^ levelShift lv else 65536
  if kind = 1#2 then
    e.extractLsb' 52 12 != 0#12 || e.extractLsb' 2 6 != 0#6 || lv == 0
      || !(backed ((e.extractLsb' 8 44).toNat * 256) 1)
  else
    e.extractLsb' 55 4 != 0#4 || e.extractLsb' 10 3 != 0#3 || e.extractLsb' 2 7 != 0#7 || 6 ≤ mt
      || (leaf && (mt == 2 || 3 ≤ lv)) || frame.toNat * 65536 % size != 0
      || (if e.getLsbD 59 then
            (if (e.extractLsb' 60 4).toNat = pkg then frame == 0#36 || !(backed (frame.toNat * 65536) size) else frame != 0#36)
          else !(backed (frame.toNat * 65536) size))

/-- The translation of a leaf; one of another device yields only its home (R179). -/
def leafXlat (pkg lv : Nat) (pasid : BitVec 20) (va : Nat) (e : Dword) : Xlat :=
  let size := 2 ^ levelShift lv
  let home := if e.getLsbD 59 && (e.extractLsb' 60 4).toNat != pkg then some (e.extractLsb' 60 4).toFin else none
  { pasid, va := va / size * size, size
    pa := match home with
      | some d => peerAddr d.val pasid (va / size * size)
      | none => (e.extractLsb' 16 36).toNat * 65536
    mt := ⟨(e.extractLsb' 13 3).toNat % 6, Nat.mod_lt _ (by decide)⟩
    rd := e.getLsbD 52, w := e.getLsbD 53, x := e.getLsbD 54, scr := e.getLsbD 9, home }

/-- The walk from the table at `tab` at level `lv` (R173, R174). -/
def walkFrom (s : State) (pasid : BitVec 20) (va : Nat) : Nat → Nat → Walk
  | lv, tab =>
    let addr := tab + 8 * levelIndex lv va
    let e := s.hbm64 addr
    let kind := e.extractLsb' 0 2
    if pteMalformed s.pkg.val lv e then .malformed addr
    else if kind = 0#2 then .notPresent lv addr
    else if kind = 3#2 then .host
    else if kind = 2#2 then .leaf (leafXlat s.pkg.val lv pasid va e)
    else match lv with
      | 0 => .malformed addr
      | lv + 1 => walkFrom s pasid va lv ((e.extractLsb' 8 44).toNat * 256)

/-- A walk of a PASID's tables on a die. What the device tables of a host process's PASID leave not present is the host's (R171, R180),
and so is every address of a PASID that has no tables (log 18). -/
def walk (s : State) (d : Nat) (pasid : BitVec 20) (va : Dword) : Walk :=
  match (s.die d).roots.find? (·.pasid == pasid) with
  | none => .host
  | some r => match walkFrom s pasid va.toNat 4 r.root with
    | .notPresent lv a => if r.host then .host else .notPresent lv a
    | w => w

/-- The lines of the tables that a walk reads are snooped where the host may hold them modified (R258). -/
def walkSnoop (c va : Nat) : Nat → Nat → State → State
  | lv, tab, s =>
    let addr := tab + 8 * levelIndex lv va
    let s := snoopNow c s (lineOf addr)
    let e := s.hbm64 addr
    match lv with
    | 0 => s
    | lv + 1 => if e.extractLsb' 0 2 = 1#2 && !pteMalformed s.pkg.val (lv + 1) e then walkSnoop c va lv ((e.extractLsb' 8 44).toNat * 256) s else s
def snoopWalk (s : State) (c : Nat) (pasid : BitVec 20) (va : Dword) : State :=
  if !s.dies.toList.any fun (k : Die) => k.snoop.any (·.2) then s
  else match (s.die (dieOfCore c)).roots.find? (·.pasid == pasid) with
    | none => s
    | some r => walkSnoop c va.toNat 4 r.root s
/-- A translation covers an address. -/
def Xlat.covers (x : Xlat) (pasid : BitVec 20) (va : Nat) : Bool :=
  x.pasid == pasid && x.va ≤ va && va < x.va + x.size
/-- The physical address that a translation gives. -/
def Xlat.to (x : Xlat) (va : Nat) : Nat := x.pa + (va - x.va)

/-- Fills both arrays of a core's quad (R177): 512 entries for the core, 8,192 for the quad. -/
def tlbFill (s : State) (c : Nat) (x : Xlat) : State :=
  let s := s.modCore c fun k => { k with tlb := addCapped 512 s.tick k.tlb x }
  s.modDie (dieOfCore c) fun k => k.modQuad (quadOfCore c) fun q => { q with tlb2 := addCapped 8192 s.tick q.tlb2 x }

/-- A host translation that the owner keeps valid for a replay (R183). -/
def heldXlat (k : Die) (pasid : BitVec 20) (va : Dword) : Option Xlat :=
  k.own.findSome? fun r => if r.phase = .noticed then r.xl.filter (·.covers pasid va.toNat) else none
/-- A translation for core `c` (R177): the first-level array, the second level, a walk; none on a miss. -/
def translate (s : State) (c : Nat) (pasid : BitVec 20) (va : Dword) : State × Option Xlat :=
  let hit := fun (l : List Xlat) => l.find? (·.covers pasid va.toNat)
  match hit (s.core c).tlb with
  | some x => (s, some x)
  | none =>
    match hit ((s.die (dieOfCore c)).quad (quadOfCore c)).tlb2 with
    | some x => (s.modCore c fun k => { k with tlb := addCapped 512 s.tick k.tlb x }, some x)
    | none => let s := snoopWalk s c pasid va
      match walk s (dieOfCore c) pasid va with
      | .leaf x => (tlbFill s c x, some x)
      | _ => match (heldXlat (s.die (dieOfCore c)) pasid va).or ((hit ((s.core c).xkeep.map (·.x)))) with
        | some x => (tlbFill s c x, some x)
        | none => (s, none)

/-- Translations that accesses under way no longer need. -/
def dropKept (s : State) (c : Nat) (p : Kept → Bool) : State :=
  if (s.core c).xkeep.any p then s.modCore c fun k => { k with xkeep := k.xkeep.filter (!p ·) } else s
/-- A warp's fetch has been made: it keeps no translations (R183). -/
def endFetch (s : State) (c slot : Nat) : State := dropKept s c fun k => k.path == .fetch slot
/-- A translation is kept for an access under way. -/
def keepXlat (s : State) (c : Nat) (e : Kept) : State :=
  if (s.core c).xkeep.contains e then s else s.modCore c fun k => { k with xkeep := k.xkeep ++ [e] }

/-- What an access needs: RD, W, X as bits 0, 1, 2 (R176). -/
def needRd : BitVec 3 := 1#3
def needW : BitVec 3 := 2#3
def needRw : BitVec 3 := 3#3
def needX : BitVec 3 := 4#3
/-- The permission check of R176. -/
def permits (x : Xlat) (need : BitVec 3) (scribe : Bool) : Bool :=
  (!need.getLsbD 0 || x.rd) && (!need.getLsbD 1 || x.w) && (!need.getLsbD 2 || x.x) && (!x.scr || scribe)

/-- What checking an address comes to. -/
inductive XRes where
  | ok (x : Xlat)
  | denied
  | miss
deriving DecidableEq, Repr

/-- The address check, the translation and the permissions of one access (R170, R176, R177). -/
def checkVa (s : State) (c : Nat) (pasid : BitVec 20) (scribe : Bool) (va : Dword) (need : BitVec 3) : State × XRes :=
  if !canonical va then (s, .denied)
  else match translate s c pasid va with
    | (s, none) => (s, .miss)
    | (s, some x) => (s, if permits x need scribe then .ok x else .denied)

/-! ### Fetching (R56, R193, R194) -/

/-- What a fetch comes to: the bytes, ACCESS_DENIED, or a miss at an address. -/
inductive FetchRes where
  | ok (bs : List Byte)
  | denied (va : Dword)
  | miss (va : Dword)
deriving DecidableEq, Repr

/-- The die holds a copy of a line of another device. -/
def peerCopy (s : State) (d pa : Nat) : Bool := ((s.die d).tag? (lineOf pa)).isSome || ((s.die d).unt? (lineOf pa)).isSome
/-- The byte that a fetch reads at a physical place: memory, the die's UNT copy, or the host (R194). -/
def fetchByte (s : State) (d : Nat) (mt : Fin 6) (pa : Nat) : Byte :=
  if mt = mtHst then tabGet 0#8 s.hostMem pa
  else if mt = mtUnt then
    match (s.die d).unt? (lineOf pa) with
    | some u => BitVec.ofNat 8 (dataAt u.data (pa % 128) 1)
    | none => BitVec.ofNat 8 (dataAt (untHome s (lineOf pa)).1 (pa % 128) 1)
  else tabGet 0#8 s.hbm pa

/-- Fetches `n` 32-bit words from `va` upward for core `c`; each is checked and translated by itself (R194, R196). Of code
that has been written since, the form that memory holds is fetched (R56; log 84). A page of another device is read there: a peer that cannot translate at once answers with a ticket, one that no path reaches gives none (R416), and its bytes are a free value unless this die
holds the line (R179; log 1). -/
def fetchGo (s : State) (c : Nat) (pasid : BitVec 20) (scribe : Bool) : Nat → Dword → State × FetchRes
  | 0, _ => (s, .ok [])
  | n + 1, va =>
    match checkVa s c pasid scribe va needX with
    | (s, .denied) => (s, .denied va)
    | (s, .miss) => (s, .miss va)
    | (s, .ok x) =>
      if x.mt.val ≥ 3 then (s, .denied va)
      else if x.home.isSome && !peerCopy s (dieOfCore c) (x.to va.toNat) && (Config.coin s.tick || x.home.any (unreachable s ·.val)) then (s, .miss va)
      else
        let d := dieOfCore c
        let far := x.home.isSome && !peerCopy s d (x.to va.toNat)
        let bs := (List.range 4).map fun i =>
          if far then Config.peerByte s.tick (x.to va.toNat + i) else fetchByte s d x.mt (x.to va.toNat + i)
        match fetchGo s c pasid scribe n (va + 4#64) with
        | (s, .ok r) => (s, .ok (bs ++ r))
        | r => r

/-- Fetches one 96-bit word. -/
def fetchWord (s : State) (c : Nat) (pasid : BitVec 20) (scribe : Bool) (va : Dword) : State × Except FetchRes Word96 :=
  match fetchGo s c pasid scribe 3 va with
  | (s, .ok bs) => (s, .ok (BitVec.ofNat 96 (leNat bs)))
  | (s, r) => (s, .error r)

/-- A fetch or transfer target that misses goes to the owner as a miss of kind FETCH (R193); `tgt` is the address that a trap for it
names (R158, R194). -/
def fetchMiss (s : State) (ci wi : Nat) (w : Warp) (pc va tgt : Dword) (wait : Wait) : State :=
  s.modCore ci fun k =>
    let a : Access := ⟨w.idNext, .fetch wi, .fetch, w.pasid, wi == 31, false, pc, (match w.clause with | some c => c.pos | none => 0), .n32, .rlx, .warp, 0#8, none,
      [⟨0, va, 4, tgt.toNat, 0, .none, []⟩]⟩
    let m : Miss := ⟨k.seq, a, va, needX, false, none, .none⟩
    let k := { k with misses := k.misses ++ [m], seq := k.seq + 1 }
    k.modWarp wi fun w => { w with wait := wait, idNext := w.idNext + 1 }

end Sys2Proof.Machine
end

