-- ==== Sys2Proof/Machine/Twinning.lean ====
section
/-! DEFINITION. The batches of twinned agents (21 R421, R422). -/

namespace Sys2Proof.Machine

/-- The twinned partition of a PASID, when this device runs it and the core's quad belongs to it (R421). -/
def twinOf (s : State) (pasid : BitVec 20) (ci : Nat) : Option Twin :=
  s.twins.find? fun t => t.pasid == pasid && t.quads.getLsbD (ci / 4)

/-- An agent's place in the twin buffers: warp slot, 32 + channel, or 40 for the slice (R411). -/
def agentOfPath : Path → Nat
  | .lsu w | .fetch w => w
  | .cpy ch => 32 + ch
  | .ace _ => 40
  | .mtx => 41
  | .nib n => 42 + n

/-- The bytes of a batch's records (R422): gang, workgroup, agent, batch index, and address, size and data of each
write (log 15 gives the widths). -/
def batchBytes (gang wg agent index : Nat) (ws : List (Nat × Nat × Nat)) : List Byte :=
  (ws.map fun (a, n, d) => leBytes 4 gang ++ leBytes 1 wg ++ leBytes 1 agent ++ leBytes 4 index ++ leBytes 8 a
    ++ leBytes 1 n ++ leBytes n d).foldl (· ++ ·) []

/-- The digest of a batch. -/
def batchDigest (gang wg agent index : Nat) (ws : List (Nat × Nat × Nat)) : Dword := crc64 (batchBytes gang wg agent index ws)

/-- The core's twin buffer has room for a batch (R422). -/
def twinRoom (s : State) (pasid : BitVec 20) (ci : Nat) : Bool :=
  match twinOf s pasid ci with
  | some t => decide ((t.batches.filter fun (b : Batch) => b.core == ci).length < 64)
  | none => true
/-- A closed batch takes its place in its core's twin buffer, and its digest goes to the partner in class PRI (R422). -/
def pushBatch (s : State) (t : Twin) (b : Batch) : State :=
  originate { s with twins := updFirst (·.pasid == t.pasid) (fun t => { t with batches := t.batches ++ [b] }) s.twins }
    ⟨coreSource s b.core, BitVec.ofNat 4 t.partner.val, 4#3⟩
/-- Closes the batch of a twinned warp (R422): its writes go to the core's twin buffer with their digest. A warp of no
twinned partition has no batch, and one without a write has none to close (log 15). -/
def closeBatch (s : State) (ci wi : Nat) : State :=
  match s.warp? ci wi with
  | none => s
  | some w => match twinOf s w.pasid ci, (s.core ci).wgOf w with
    | some t, some g =>
      if w.held.isEmpty then s
      else (pushBatch s t ⟨ci, wi, w.batch, batchDigest g.gang g.wgno w.num w.batch w.twin, w.held⟩).modWarp ci wi fun w =>
        { w with twin := [], held := [], batch := w.batch + 1 }
    | _, _ => s

end Sys2Proof.Machine
end

