-- ==== Sys2Proof/Machine/Access.lean ====
section
/-! DEFINITION. One access of a warp or an engine, line by line (09 R206-R219): the checks at the core, what each memory
type does with it, and what it comes to. -/

namespace Sys2Proof.Machine

/-! ### Kinds -/

/-- The access returns data. -/
def AccKind.rd : AccKind → Bool
  | .load | .nldc | .atom _ | .cas | .cas2 | .atomr _ | .fetch | .bind => true
  | _ => false
/-- A read-modify-write (R213). -/
def AccKind.rmw : AccKind → Bool
  | .atom _ | .red _ | .cas | .cas2 | .atomr _ => true
  | _ => false
/-- The permissions that an access needs (R176, R222). -/
def AccKind.need : AccKind → BitVec 3
  | .store => needW
  | .fetch => needX
  | .atom _ | .red _ | .cas | .cas2 | .atomr _ => needRw
  | _ => needRd

/-- The storage bit of R220 of a memory type; 7 stands for DEV, which has none. -/
def storBit (mt : Fin 6) : Nat :=
  if mt = mtTrk then 2 else if mt = mtUnt then 3 else if mt = mtHst then 4 else if mt = mtNibw then 6
  else if mt = mtWin then 5 else 7

/-- The warp slot of an LSU access. -/
def Access.slot? (a : Access) : Option Nat := match a.path with
  | .lsu n | .fetch n => some n
  | _ => none
/-- The virtual lines that an access touches (R187). -/
def Access.lines (a : Access) : List Nat :=
  a.lanes.foldl (fun l x => (unitsOf 128 x.va.toNat x.size).foldl (fun l i => if l.contains i then l else l ++ [i]) l) []
/-- The lanes of an access as a mask. -/
def Access.mask (a : Access) : Mask := maskOf fun l => a.lanes.any fun x => x.lane == l || x.grp.any (·.1 == l)
def wkind (k : AccKind) : WKind := if k.rmw then .atomic else if k == .store then .store else .load

/-! ### Atomics (R214-R219) -/

/-- A new value of AOP (R214): float ADD rounds to nearest even; no flag. -/
def aopNew (k : AOp) (t : Ty) (old b : Nat) : Nat :=
  match k with
  | .add => (redStep t .add .rne old b).1
  | .min => (redStep t .min .rne old b).1
  | .max => (redStep t .max .rne old b).1
  | .and => old &&& b
  | .or => old ||| b
  | .xor => old ^^^ b
  | .exch => b
/-- What a read-modify-write leaves; none where it writes nothing (R215). -/
def rmwNew (a : AccKind) (t : Ty) (old : Nat) (l : LaneAcc) : Option Nat :=
  match a with
  | .atom k | .red k | .atomr k => some (aopNew k t old l.data)
  | .cas | .cas2 => if old = l.cmp then some l.data else none
  | _ => none
/-- The values that the lanes of an atomic fetch: the old value, or under ATOMR each lane's sequential prefix (R219). -/
def rmwFetch (a : AccKind) (t : Ty) (old : Nat) (p : Bool) (l : LaneAcc) : List RegWrite :=
  match a with
  | .atomr k =>
    (l.grp.foldl (fun (r : Nat × List RegWrite) g =>
      (aopNew k t r.1 g.2.1, r.2 ++ [⟨g.2.2, t, r.1, p⟩])) (old, [])).2
  | .red _ => []
  | _ => [⟨l.dest, t, old, p⟩]
/-- The lanes of an atomic applied consecutively, in ascending lane order (R213), through a reader and a writer. -/
def rmwLanes (a : Access) (rd : State → Nat → Nat → Nat × Bool) (wr : State → Nat → Nat → Nat → State) :
    List (LaneAcc × Nat) → State → State × List RegWrite
  | [], s => (s, [])
  | (l, pa) :: t, s =>
    let (old, p) := rd s pa l.size
    let s := match rmwNew a.kind a.ty old l with
      | some v => wr s pa l.size v
      | none => s
    let (s, ws) := rmwLanes a rd wr t s
    (s, rmwFetch a.kind a.ty old p l ++ ws)

/-- The atomics that PCIe AtomicOps carry (R217) and the bit of HPCAP that each needs (R403). -/
def hostOp (k : AccKind) (t : Ty) : Option Nat :=
  match k with
  | .atom .add | .red .add | .atomr .add => if isWideInt t then some 1 else none
  | .atom .exch => if isWideInt t then some 2 else none
  | .cas => some 3
  | .cas2 => some 4
  | _ => none

/-- A read-modify-write that the host port does not carry (R216, R217, R218). -/
def hostBad (s : State) (a : Access) : Bool :=
  a.kind.rmw && match hostOp a.kind a.ty with
    | some b => !s.port.hpcap.getLsbD b
    | none => true

/-! ### Checks at the core (R176, R207, R217, R218, R30) -/

/-- The cause that a lane of a translated access raises at the core. -/
def coreCheck (s : State) (ci : Nat) (a : Access) (x : Xlat) (l : LaneAcc) : Option Nat :=
  let den := some cAccessDenied
  if !permits x a.kind.need a.scr then den
  else if a.kind == .cwb false || a.kind == .cwb true then none
  else if x.home.isSome then
    if (a.kind == .nldc && x.mt != mtNibw) || (a.kind.rmw && (x.mt == mtNibw || x.mt == mtDev))
        || (x.mt == mtDev && a.lanes.any fun l => !(l.size == 4 || l.size == 8)) then den else none
  else
    let pa := x.to l.va.toNat
    let win := fun (dev : Bool) => match winSplit pa with
      | none => den
      | some (g, off) =>
        if !winFixed s g off l.size (wkind a.kind) dev a.scr then den
        else if g = ci && !winHeld s g off l.size a.pasid a.scr then den else none
    if a.kind == .nldc && x.mt != mtNibw then den
    else if x.mt = mtTrk ∨ x.mt = mtUnt then (if isHbm pa then none else den)
    else if x.mt = mtHst then (if hostBad s a then some cAtomicUnsup else none)
    else if x.mt = mtNibw then (if a.kind.rmw then den else none)
    else if x.mt = mtWin then win false
    else if a.kind.rmw || !(l.size == 4 || l.size == 8) then den
    else win true

/-! ### Memory of a line -/

/-- Writes the lanes of one line, in ascending order, as one write: poison stays on a half that is not replaced whole,
and poisoned data marks every half it touches (R86, R210). -/
def hbmLanes (s : State) (ws : List (Nat × Nat × Nat)) (poison : Bool) : State :=
  let mem := ws.foldl (fun m (w : Nat × Nat × Nat) => wrBytes m w.1 (leBytes w.2.1 w.2.2)) s.hbm
  let units := ws.foldl (fun u (w : Nat × Nat × Nat) => (unitsOf 64 w.1 w.2.1).foldl (fun u i => if u.contains i then u else i :: u) u) []
  let full := fun (i : Nat) => (List.range 64).all fun j => ws.any fun w => w.1 ≤ 64 * i + j && 64 * i + j < w.1 + w.2.1
  { s with hbm := mem, hbmPois := units.foldl (fun p i => if poison then setAdd p i else if full i then setDel p i else p) s.hbmPois }
/-- Reads HBM with its poison. -/
def hbmRead (s : State) (pa n : Nat) : Nat × Bool := (leNat (rdBytes s.hbm pa n), poisAt 64 s.hbmPois pa n)

/-- The core notes the timestamps of a line that a warp's load read (R209, R220): an acquire raises pts at once. -/
def noteRead (s : State) (ci : Nat) (a : Access) (wts : BitVec 16) (exp : Bool) : State :=
  if exp then s
  else
    let s := match a.path with
      | .lsu w => s.modWarp ci w fun w => { w with loadWts := some (match w.loadWts with | some v => tmax v wts | none => wts) }
      | _ => s
    if acqs a.ord then s.modCore ci fun k => { k with pts := tmax k.pts wts } else s
def Warp.see (n rel : Nat) (w : Warp) : Warp := { w with seen := Nat.max w.seen n, loadHz := Nat.max w.loadHz rel }
/-- A warp reads what write `n` left, which carries the release `rel`; an acquire takes that release (R231, R232; log 17). -/
def noteSee (s : State) (ci : Nat) (a : Access) (n rel : Nat) : State :=
  match a.path with
  | .lsu w =>
    let s := s.modWarp ci w (·.see n rel)
    if acqs a.ord then s.modCore ci fun k => { k with hz := Nat.max k.hz rel } else s
  | _ => s
/-- A warp reads a line as it stands. -/
def noteLine (s : State) (ci : Nat) (a : Access) (line : Nat) : State := noteSee s ci a (s.mark line).at_ (s.mark line).rel
/-- A warp reads the TRK line that its core's L1 holds. -/
def noteCopy (s : State) (ci : Nat) (a : Access) (vline line : Nat) : State :=
  match (s.core ci).l1? a.pasid vline with
  | some e => if e.pline = line then noteSee s ci a (Nat.min (s.mark line).at_ e.born) e.rel else noteLine s ci a line
  | none => noteLine s ci a line
/-- The release that a write of an access carries: all that its warp publishes, or what its last release FENCE published (R210, R220,
R232; log 17). -/
def carried (s : State) (ci : Nat) (a : Access) : Nat :=
  match a.path with
  | .lsu w => if rels a.ord then s.published ci w else ((s.warp? ci w).map (·.relHz)).getD 0
  | _ => 0
/-- An access writes a line; a write through a core's window leaves its release for the waits of the sync unit there (R279, R281), and one
to a nib for what the nib computes from it (R235, R345; log 17). -/
def noteStore (s : State) (ci : Nat) (a : Access) (line : Nat) : State :=
  let rel := carried s ci a
  let s := s.noteMark line rel
  let n := s.writes
  let s := match a.path with
    | .lsu w => s.modWarp ci w (·.see n 0)
    | _ => s.modCore ci fun k => { k with engHz := Nat.max k.engHz n }
  match winSplit (line * 128) with
  | some (g, _) => s.modCore g fun k => { k with syncHz := Nat.max k.syncHz rel }
  | none => s
/-- A performed write of an engine awaits its acknowledgement (R245). -/
def engWrite (s : State) (ci : Nat) (wts : Option (BitVec 16)) (upd : Option (Nat × BitVec 1024 × BitVec 2)) : State :=
  s.modCore ci fun k => { k with engPosted := k.engPosted ++ [⟨k.seq, wts, upd, s.writes⟩], seq := k.seq + 1 }
/-- A performed write awaits its acknowledgement (R244). -/
def noteWrite (s : State) (ci : Nat) (a : Access) (wts : Option (BitVec 16)) (upd : Option (Nat × BitVec 1024 × BitVec 2)) : State :=
  match a.path with
  | .lsu w => s.modWarp ci w fun w => { w with posted := w.posted ++ [⟨a.id, wts, upd, s.writes⟩] }
  | _ => engWrite s ci wts upd

/-! ### What an access comes to -/

inductive Perf where
  /-- Performed: the values read, and the lanes that the target refused, with their status (R189). -/
  | done (s : State) (ws : List RegWrite) (bad : Mask) (st : BitVec 4)
  /-- It waits at the slice of the line. -/
  | hold (s : State) (h : Hold)
  /-- It has gone to a nib, a peer or a window port in `n` parts; an event completes each. -/
  | away (s : State) (n : Nat)

def stPerm : BitVec 4 := 2#4
def stNomap : BitVec 4 := 1#4
def stMalformed : BitVec 4 := 3#4
def stHostfail : BitVec 4 := 4#4
def stLinklost : BitVec 4 := 5#4
def stAborted : BitVec 4 := 6#4

/-- The access with the lease that its fill begins under: its warp's, or 10 for an engine (R221). -/
def Access.leased (s : State) (ci : Nat) (a : Access) : Access :=
  { a with lease := match a.path with
      | .lsu w => ((s.warp? ci w).map (·.lease)).getD 10#8
      | _ => 10#8 }
/-- A write of the access's own warp to a line is not yet acknowledged. -/
def ownPosted (s : State) (ci : Nat) (a : Access) (line : Nat) : Bool :=
  match a.path with
  | .lsu w => ((s.warp? ci w).map fun x => x.posted.any fun p => (p.upd.map (·.1)) == some line).getD false
  | _ => false

/-- A TRK access of one line (R207, R213, R244, R256). An atomic away from the home waits at the home's atomic unit, which takes the line
back from other devices, and is never refused (R252). -/
def perfTrk (s : State) (ci : Nat) (a : Access) (ls : List (LaneAcc × Nat)) : Perf :=
  let pa0 := ((ls.head?).map (·.2)).getD 0
  let va0 := ((a.lanes.head?).map (·.va.toNat)).getD 0
  let line := lineOf pa0
  let d := dieOfCore ci
  let h := homeDie (line * 128)
  let done := fun (s : State) (ws : List RegWrite) => Perf.done s ws 0#32 0#4
  let isL := match a.path with | .lsu _ => true | _ => false
  match a.kind with
  | .load | .bind | .fetch | .row | .nldc | .prf false =>
    let r := if isL then loadTrk s ci a.pasid (va0 / 128) line a.lease true (ownPosted s ci a line)
      else match l2Read s d line with
        | .error x => .wait x
        | .ok (s, t) => .ok s (lineData s line) (linePois s line ||| t.pois) t.wts t.wExp
    match r with
    | .wait x => .hold s x
    | .ok s data pois wts exp =>
      if a.kind == .prf false then done s []
      else done (noteCopy (noteRead s ci a wts exp) ci a (va0 / 128) line) (ls.map fun (l, pa) => ⟨l.dest, a.ty, dataAt data (pa % 128) l.size, poisIn pois (pa % 128) l.size⟩)
  | .prf true => match l2Read s d line with
    | .error x => .hold s x
    | .ok (s, _) => done s []
  | .store => match storeTrk s ci line with
    | .error x => .hold s x
    | .ok (s, w) =>
      let s := noteStore (hbmLanes s (ls.map fun (l, pa) => (pa, l.size, l.data)) false) ci a line
      done (noteWrite s ci a w (lineUpd s line)) []
  | .cwb flush => done (if flush then dropL1 s ci fun q e => q == ci && e.pline == line else s) []
  | .atom _ | .red _ | .cas | .cas2 | .atomr _ =>
    let r := if d = h then storeTrk s ci line
      else match storeForeign s line with
        | .error x => .error x
        | .ok s => .ok (s.modDie h fun k => k.setTag (k.stamped (k.homeTag line) k.fwc), none)
    match r with
    | .error (.dir k) => if d = h then .hold s (.dir k) else .hold (homeAsk s line true) .busy
    | .error x => .hold s x
    | .ok (s, w) =>
      let (s, ws) := rmwLanes a hbmRead (fun s pa n v => hbmLanes s [(pa, n, v)] false) ls (noteLine s ci a line)
      let s := noteStore s ci a line
      let s := noteWrite s ci a w (lineUpd s line)
      let (v, x) := ackStamp s ci ⟨0, w, none, 0⟩
      done (noteRead s ci a v x) ws

/-- An UNT access reaches the home, whose snoop filter must be consulted first (R258): a fill, a write-back, an access of the home
die's own copy, an atomic. -/
def untSnoop (s : State) (d line : Nat) (k : AccKind) : Bool :=
  let copy := (s.die d).unt? line
  let dirty := (copy.map fun u => u.mask != 0#128).getD false
  match k with
  | .cwb _ => dirty && snoopNeeded s line true
  | .store => if d = homeDie (line * 128) then snoopNeeded s line true else copy.isNone && snoopNeeded s line false
  | .atom _ | .red _ | .cas | .cas2 | .atomr _ => snoopNeeded s line true
  | _ => copy.isNone && snoopNeeded s line false
/-- A die's copy of an UNT line for a core: a fill evicts the copies of the line that the quad's L1s hold under TRK (R199). -/
def untFillFor (s : State) (ci line : Nat) : State × UntCopy :=
  let d := dieOfCore ci
  if ((s.die d).unt? line).isSome then untFill s d line
  else let (s, u) := untFill s d line; (dropL1 s ci fun _ e => e.pline == line, u)
/-- An UNT access of one line (R207, R257). -/
def perfUnt (s : State) (ci : Nat) (a : Access) (ls : List (LaneAcc × Nat)) : Perf :=
  let line := lineOf (((ls.head?).map (·.2)).getD 0)
  let d := dieOfCore ci
  let h := homeDie (line * 128)
  let done := fun (s : State) (ws : List RegWrite) => Perf.done s ws 0#32 0#4
  if untSnoop s d line a.kind then .hold s .snoop
  else match a.kind with
  | .load | .bind | .fetch | .row | .nldc =>
    let (s, u) := untFillFor s ci line
    done (noteLine s ci a line) (ls.map fun (l, pa) => ⟨l.dest, a.ty, dataAt u.data (pa % 128) l.size, poisIn u.pois (pa % 128) l.size⟩)
  | .prf _ => done (untFillFor s ci line).1 []
  | .store =>
    let s := ls.foldl (fun s (l, pa) => untWrite s d line (pa % 128) l.size l.data false) (untFillFor s ci line).1
    done (noteStore (untClean s d line (ls.map fun (l, pa) => (pa, l.size))) ci a line) []
  | .cwb flush =>
    let s := untGive s d line
    done (if flush then dropL1 (s.modDie d (·.dropUnt line)) ci fun q e => q == ci && e.pline == line else s) []
  | .atom _ | .red _ | .cas | .cas2 | .atomr _ =>
    let s := if d = h then s else (untGive s d line).modDie d (·.dropUnt line)
    let rd := fun (s : State) (pa n : Nat) =>
      let (x, p) := untHome s line
      (dataAt x (pa % 128) n, poisIn p (pa % 128) n)
    let wr := fun (s : State) (pa n v : Nat) =>
      if ((s.die h).unt? line).isSome then untWrite s h line (pa % 128) n v false else hbmLanes s [(pa, n, v)] false
    let (s, ws) := rmwLanes a rd wr ls (noteLine s ci a line)
    done (noteStore s ci a line) ws

/-- A line of host memory among the marks of written lines. -/
def hostMark (line : Nat) : Nat := line + 2 ^ 80
/-- An access of host memory through the host port (R207, R217, R260, R420). The host may complete a request with an error (R217,
R403; log 2). -/
def perfHst (s : State) (ci : Nat) (a : Access) (ls : List (LaneAcc × Nat)) : Perf :=
  let line := hostMark (lineOf (((ls.head?).map (·.2)).getD 0))
  let up := s.port.hpcap.getLsbD 15
  let rd := fun (s : State) (pa n : Nat) => (leNat (rdBytes s.hostMem pa n), false)
  let wr := fun (s : State) (pa n v : Nat) => { s with hostMem := wrBytes s.hostMem pa (leBytes n v) }
  let post := fun (s : State) (ls : List (LaneAcc × Nat)) =>
    let s := { s with port := { s.port with hpwSeq := s.port.hpwSeq + 1 } }
    if up then ls.foldl (fun s (l, pa) => wr s pa l.size l.data) s else s
  match a.kind with
  | .store => .done (noteStore (post s ls) ci a line) [] 0#32 0#4
  | .cwb _ | .prf _ => .done s [] 0#32 0#4
  | .load | .bind | .fetch | .row | .nldc =>
    if up && Config.hostErr s.tick then .done s [] a.mask stHostfail
    else if up then .done (noteLine s ci a line) (ls.map fun (l, pa) => ⟨l.dest, a.ty, (rd s pa l.size).1, false⟩) 0#32 0#4
    else .done s [] a.mask stLinklost
  | .atom _ | .red _ | .cas | .cas2 | .atomr _ =>
    if up && Config.hostErr s.tick then .done s [] a.mask stHostfail
    else if up then
      let (s, ws) := rmwLanes a rd wr ls (noteLine s ci a line)
      .done (noteStore s ci a line) ws 0#32 0#4
    else .done s [] a.mask stLinklost

/-- The window-table entry that holds an address: die of its anchor, entry (R335). -/
def nibWindow (s : State) (pa n : Nat) : Option (Nat × Nat × Bool × Nat × Nat) :=
  if isHbm pa then (s.die (homeDie pa)).windows.find? fun w => w.1 ≤ pa && pa + n ≤ w.1 + w.2.1 else none

/-- A message joins those at a nib engine; the lines of one NLDC in one slot are one access there (R354). -/
def joinNib (l : List InMsg) (m : InMsg) (slot : List Nat → Bool) : List InMsg :=
  let same := fun (x : InMsg) => m.acc.kind == .nldc && x.acc.kind == .nldc && x.core == m.core && x.acc.path == m.acc.path
    && x.acc.id == m.acc.id && slot x.pas
  if l.any same then updFirst same (fun (x : InMsg) => { x with acc := { x.acc with lanes := x.acc.lanes ++ m.acc.lanes }, pas := x.pas ++ m.pas }) l
  else l ++ [m]
/-- A NIBW access: each slot's lanes travel to the nib's core as one message; lanes in no bound window fail with NOMAP
(R207, R335), in a message of their own where others of the line lie in one. -/
def perfNib (s : State) (ci : Nat) (a : Access) (ls : List (LaneAcc × Nat)) (slotOf : Nat × Nat × Bool × Nat × Nat → Nat → Nat) : Perf :=
  match a.kind with
  | .cwb _ | .prf _ => .done s [] 0#32 0#4
  | _ =>
    let at_ := ls.map fun e => (e, nibWindow s e.2 e.1.size)
    let bad := maskOf fun l => at_.any fun x => x.2.isNone && x.1.1.lane == l
    let keys := at_.foldl (fun (ks : List ((Nat × Nat × Bool × Nat × Nat) × Nat)) x => match x.2 with
      | some w => let key := (w, slotOf w x.1.2); if ks.contains key then ks else ks ++ [key]
      | none => ks) []
    if keys.isEmpty then .done s [] bad stNomap
    else
      let msg := fun (mine : List ((LaneAcc × Nat) × Option (Nat × Nat × Bool × Nat × Nat))) =>
        InMsg.mk ci { a with lanes := mine.map (·.1.1) } (mine.map (·.1.2))
      let s' := keys.foldl (fun s key =>
        let here := fun (pa : Nat) (w : Option (Nat × Nat × Bool × Nat × Nat)) => match w with
          | some w => w == key.1 && slotOf w pa == key.2
          | none => false
        let m := msg (at_.filter fun x => here x.1.2 x.2)
        s.modCore key.1.2.2.2.1 fun k =>
          { k with nibIn := joinNib k.nibIn m fun pas => here ((pas.head?).getD 0) (nibWindow s ((pas.head?).getD 0) 1) }) s
      let lost := at_.filter (·.2.isNone)
      match keys with
      | k :: _ => if lost.isEmpty then .away s' keys.length
          else .away (s'.modCore k.1.2.2.2.1 fun k => { k with nibIn := k.nibIn ++ [msg lost] }) (keys.length + 1)
      | [] => .away s' 0

/-- A core's window port back-pressures writes: it is halted, or has been asked to halt (R295, R396). -/
def Core.holds (k : Core) : Bool := k.halted || k.haltReq
/-- A window or DEV access (R29, R30, R293, R295). -/
def perfWin (s : State) (ci : Nat) (a : Access) (ls : List (LaneAcc × Nat)) : Perf :=
  match a.kind with
  | .cwb _ | .prf _ => .done s [] 0#32 0#4
  | _ =>
    match winSplit (((ls.head?).map (·.2)).getD 0) with
    | none => .done s [] a.mask stPerm
    | some (g, _) =>
      let off := fun (pa : Nat) => (pa - winBase) % 0x1000000
      let ok := fun (e : LaneAcc × Nat) => winHeld s g (off e.2) e.1.size a.pasid a.scr
      let bad := maskOf fun l => ls.any fun e => e.1.lane == l && !ok e
      let good := ls.filter ok
      let isRf := match regionOf (off (((ls.head?).map (·.2)).getD 0)) 1 with
        | some (.rf, _) => true
        | _ => false
      let own := a.scr && g == ci
      if a.kind == .store && isRf && !own then
        .away (s.modCore g fun k => { k with inW := k.inW ++ [⟨ci, a, ls.map (·.2)⟩] }) 1
      else if (a.kind == .store || a.kind.rmw) && (s.core g).holds && !own then
        .away (s.modCore g fun k => { k with bpw := k.bpw ++ [⟨ci, a, ls.map (·.2)⟩] }) 1
      else
        let rd := fun (s : State) (pa n : Nat) => winRead s g (off pa) n
        let wr := fun (s : State) (pa n v : Nat) => s.modCore g fun k => k.winPut s.tick (off pa) n v false
        let line := lineOf (((ls.head?).map (·.2)).getD 0)
        if a.kind == .store then
          let s := noteStore s ci a line
          let s := good.foldl (fun s (l, pa) => wr s pa l.size l.data) s
          .done (s.modCore g (·.winClean (good.map fun e => (off e.2, e.1.size)))) [] bad stPerm
        else if a.kind.rmw then
          let (s, ws) := rmwLanes a rd wr good (noteStore (noteLine s ci a line) ci a line)
          .done s ws bad stPerm
        else
          let s := good.foldl (fun s e => s.winSee g (off e.2) e.1.size) s
          .done (noteLine s ci a line) (good.map fun (l, pa) => let r := rd s pa l.size; ⟨l.dest, a.ty, r.1, r.2⟩) bad stPerm

/-- A SPACE 1 access at its scratchpad bank (R204, R271). -/
def perfSpad (s : State) (ci : Nat) (a : Access) : Perf :=
  let g := (a.slot?.bind (s.warp? ci)).bind (s.core ci).wgOf
  let ls := a.lanes.filterMap fun l => (g.bind fun g => spadAt s ci g l.va.toNat l.size).map fun p => (l, p.1, p.2)
  let bad := maskOf fun i => a.lanes.any fun l => l.lane == i && !ls.any (·.1.lane == i)
  let tgt := ((ls.head?).map (·.2.1)).getD ci
  let base := winBase + tgt * 0x1000000 + 0x200000
  if (a.kind == .store || a.kind.rmw) && tgt != ci && (s.core tgt).holds && !ls.isEmpty then
    .away (s.modCore tgt fun k => { k with bpw := k.bpw ++ [⟨ci, { a with lanes := ls.map (·.1) }, ls.map fun x => base + x.2.2⟩] }) 1
  else
    let rd := fun (s : State) (p n : Nat) => winRead s tgt (0x200000 + p) n
    let wr := fun (s : State) (p n v : Nat) => s.modCore tgt (·.winWrite (0x200000 + p) n v false)
    let lines := (ls.map fun x => lineOf (base + x.2.2)).foldl (fun l i => if l.contains i then l else l ++ [i]) []
    let put := fun (s : State) => lines.foldl (noteStore · ci a ·) s
    let see := fun (s : State) => lines.foldl (noteLine · ci a ·) s
    match a.kind with
    | .store =>
      let s := ls.foldl (fun s x => wr s x.2.2 x.1.size x.1.data) (put s)
      .done (s.modCore tgt (·.winClean (ls.map fun x => (0x200000 + x.2.2, x.1.size)))) [] bad stPerm
    | .cwb _ | .prf _ => .done s [] 0#32 0#4
    | .atom _ | .red _ | .cas | .cas2 | .atomr _ =>
      let (s, ws) := rmwLanes a rd wr (ls.map fun x => (x.1, x.2.2)) (put (see s))
      .done s ws bad stPerm
    | _ => .done (see s) (ls.map fun x => let r := rd s x.2.2 x.1.size; ⟨x.1.dest, a.ty, r.1, r.2⟩) bad stPerm

/-- The bytes of one slot of a bound window (R333). -/
def windowSlot (s : State) (w : Nat × Nat × Bool × Nat × Nat) : Nat :=
  w.2.1 / Nat.max 1 (((s.core w.2.2.2.1).nibs[w.2.2.2.2]?).getD (Nib.fresh none)).slots.length
/-- Slot index of an address in a bound window (R333). -/
def slotOfWindow (s : State) (w : Nat × Nat × Bool × Nat × Nat) (pa : Nat) : Nat := (pa - w.1) / windowSlot s w
/-- The virtual addresses within which the stores of a warp are performed in program order with one of them to a nib: its slots, or, of a
nib whose window another device holds, its page (R346; log 105). -/
def slotSpans (s : State) (a : Access) (x : Option Xlat) : List (Nat × Nat) :=
  match x with
  | none => []
  | some x =>
    if x.mt != mtNibw || a.kind != .store then []
    else if x.home.isSome then [(x.va, x.size)]
    else a.lanes.filterMap fun l => (nibWindow s (x.to l.va.toNat) 1).map fun w =>
      (l.va.toNat - (x.to l.va.toNat - w.1) % Nat.max 1 (windowSlot s w), windowSlot s w)
/-- An older store lies in such a slot. -/
def inSlot (spans : List (Nat × Nat)) (b : Access) : Bool :=
  b.kind == .store && !b.sp && b.lanes.any fun l => spans.any fun r => r.1 < l.va.toNat + l.size && l.va.toNat < r.1 + r.2

/-- The parts of some bytes of one line that lie in one slot of one window (R335, R339, R343). -/
def nibRuns (s : State) (pa n : Nat) : List (Nat × Nat) :=
  let c := 64 - pa % 64
  if n ≤ c then [(pa, n)]
  else
    let at_ := fun (a : Nat) => (nibWindow s a 1).map fun w => (w, slotOfWindow s w a)
    if at_ pa == at_ (pa + c) then [(pa, n)] else [(pa, c), (pa + c, n - c)]

/-- PERFORMS a translated access of one line: `pas` are the lanes' physical addresses. -/
def perfPhys (s : State) (ci : Nat) (a : Access) (mt : Fin 6) (pas : List Nat) : Perf :=
  let ls := a.lanes.zip pas
  if mt = mtTrk then perfTrk s ci a ls
  else if mt = mtUnt then perfUnt s ci a ls
  else if mt = mtHst then perfHst s ci a ls
  else if mt = mtNibw then perfNib s ci a ls (slotOfWindow s)
  else perfWin s ci a ls

/-- The access waits for another device: for its answer, or for the data that a twin's primary sends (R423). -/
def addRemote (s : State) (ci : Nat) (a : Access) (mt : Fin 6) (pas : List Nat) (dev : Fin 16) : State :=
  { s with remotes := s.remotes ++ [⟨s.remSeq, ci, a, mt, pas, dev⟩], remSeq := s.remSeq + 1 }
/-- The access goes to its peer device, which translates it, as a request of its core in class REQ or PRI (R179, R261, R416). -/
def sendRemote (s : State) (ci : Nat) (a : Access) (mt : Fin 6) (pas : List Nat) (dev : Fin 16) : State :=
  let pri := (a.slot?.bind (s.warp? ci)).map (·.cls) == some 0
  originate (addRemote s ci a mt pas dev) ⟨coreSource s ci, BitVec.ofNat 4 dev.val, if pri then 4#3 else 0#3⟩
/-- The caches of this device serve an access of another device's memory (R207, R241, R257): an L1 copy, or a line that its die's L2
holds as the access needs it. -/
def peerLocal (s : State) (ci : Nat) (a : Access) (mt : Fin 6) (pas : List Nat) : Bool :=
  let line := lineOf ((pas.head?).getD 0)
  let k := s.die (dieOfCore ci)
  let va := ((a.lanes.head?).map (·.va.toNat)).getD 0
  match a.kind with
  | .cwb _ => true
  | .atom _ | .red _ | .cas | .cas2 | .atomr _ => false
  | .store =>
    if mt = mtTrk then (match k.tag? line with | some t => t.st == .owner | none => false) else mt == mtUnt && (k.unt? line).isSome
  | .load | .bind | .fetch | .row | .nldc | .prf _ =>
    if mt = mtTrk then (l1Hit s ci a.pasid (va / 128)).isSome && !ownPosted s ci a line && a.kind != .prf true || (k.tag? line).isSome
    else mt == mtUnt && (k.unt? line).isSome
/-- An access of a page of another device: its caches serve it, or it goes there; before an atomic on an UNT line the die writes its
bytes back and drops its copy (R257). -/
def perfPeer (s : State) (ci : Nat) (a : Access) (mt : Fin 6) (pas : List Nat) (dev : Fin 16) : Perf :=
  if peerLocal s ci a mt pas then perfPhys s ci a mt pas
  else
    let line := lineOf ((pas.head?).getD 0)
    let d := dieOfCore ci
    let s := if mt = mtUnt && a.kind.rmw then (untGive s d line).modDie d (·.dropUnt line) else s
    .away (sendRemote s ci a mt pas dev) 1

/-- The page lies outside a twinned partition (R421). -/
def outside (s : State) (t : Twin) (x : Xlat) (pas : List Nat) : Bool :=
  x.home.isSome || x.mt == mtHst || (x.mt == mtNibw && pas.any fun pa => match nibWindow s pa 1 with
    | some w => !t.quads.getLsbD (w.2.2.2.1 / 4)
    | none => true)

/-- A twinned warp holds an outside store back, the lanes of a line as the one write that they are (R210): its batch closes at the
64th write (R422). -/
def holdStore (s : State) (ci wi : Nat) (a : Access) (x : Xlat) : State :=
  let s := s.modWarp ci wi fun w => { w with
    twin := w.twin ++ a.lanes.map fun l => (l.va.toNat, l.size, l.data), held := w.held ++ [⟨a, some x⟩] }
  if 64 ≤ ((s.warp? ci wi).map (·.held.length)).getD 0 then closeBatch s ci wi else s

/-- The primary sends the data of an outside access of core `ci` to the secondary (R423), in class PRI as the twins' other traffic (R261). -/
def twinSend (s : State) (t : Twin) (ci : Nat) : State := originate s ⟨coreSource s ci, BitVec.ofNat 4 t.partner.val, 4#3⟩
/-- PERFORMS an access under its translation: at this device or at the page's home; the outside accesses of a twinned
partition are held back, or wait for the primary's data (R422, R423). -/
def perform (s : State) (ci : Nat) (a : Access) (x : Xlat) : Perf :=
  let pas := a.lanes.map fun l => x.to l.va.toNat
  let go := fun (s : State) => match (if x.mt == mtTrk && (a.kind == .store || a.kind.rmw) then limHeld s (lineOf ((pas.head?).getD 0)) else none) with
    | some w => .hold s (.ltlim w)
    | none => match x.home with
      | some d => perfPeer s ci a x.mt pas d
      | none => perfPhys s ci a x.mt pas
  match twinOf s a.pasid ci, a.path with
  | some t, .lsu w =>
    if !outside s t x pas || !(a.kind == .store || a.kind.rd || a.kind.rmw) then go s
    else if a.kind == .store then .done (holdStore s ci w a x) [] 0#32 0#4
    else
      let s := closeBatch s ci w
      if t.second then .away (addRemote s ci a x.mt pas t.partner) 1
      else match go s with
        | .done s ws bad st => .done (twinSend s t ci) ws bad st
        | r => r
  | _, _ => go s

end Sys2Proof.Machine
end

