-- ==== Sys2Proof/Machine/Report.lean ====
section
/-! DEFINITION. Messages and reports that any unit may raise: D2H messages (21 R406, R408, R411), errors (26 R456, R457),
and a task node's failure (19 R362, R367). -/

namespace Sys2Proof.Machine

/-- The ERROR message that answers an H2D message taken with no effect (R407). -/
def refuseMsg (s : State) (seq : Word) : State := errorMsg s 1 0x001 (unitSource s 0 176) 0 0 seq.toNat
/-- The ERROR message that answers an assist record taken with no effect (R459). -/
def refuseRec (s : State) (seq : Word) : State := errorMsg s 1 0x002 (unitSource s 0 176) 0 0 seq.toNat

/-! ### Tasks -/

def Die.graph? (k : Die) (id : Nat) : Option Graph := k.graphs.find? (·.id == id)
def State.modGraph (s : State) (d id : Nat) (f : Graph → Graph) : State :=
  s.modDie d fun k => { k with graphs := updFirst (·.id == id) f k.graphs }
def Graph.node? (g : Graph) (n : Nat) : Option Node := g.nodes[n]?
def Graph.modNode (g : Graph) (n : Nat) (f : Node → Node) : Graph :=
  match g.nodes[n]? with
  | some x => { g with nodes := g.nodes.set n (f x) }
  | none => g
def State.modNode (s : State) (d id n : Nat) (f : Node → Node) : State := s.modGraph d id (·.modNode n f)
def State.node? (s : State) (d id n : Nat) : Option Node := ((s.die d).graph? id).bind (·.node? n)
/-- A node will retire with a failure; the first one stands (R362, R367). -/
def doomNode (s : State) (d id n st : Nat) : State :=
  s.modNode d id n fun x => { x with doom := match x.doom with | none => some st | d => d }
/-- The warps of a node's task. -/
def taskHas (d id n : Nat) (g : Wg) : Bool := g.die == d && g.graph == id && g.node == n
/-- Maps the warps of a task. -/
def mapTask (s : State) (d id n : Nat) (f : Warp → Warp) : State :=
  { s with cores := s.cores.map fun k => if k.wgs.any (taskHas d id n) then
      { k with warps := k.warps.map fun (x : Option Warp) => x.map fun w => match k.wgOf w with
        | some g => if taskHas d id n g then f w else w
        | none => w }
      else k }

/-! ### Errors (R456, R457) -/

/-- A function is host-assisted (R458). -/
def assisted (s : State) (f : Nat) : Bool := ((s.modes[f]?).map (·.host)).getD false
/-- One of the 512 places for assist requests is free (R459). -/
def assistRoom (s : State) : Bool := s.assist.pend.length < 512
/-- Raises an assist request, whose record takes the next sequence number of the D2A ring (R459). -/
def raiseAssist (s : State) (r : AssistReq) (ty : Nat) (fields : List (Nat × Nat)) : State :=
  let a := s.assist
  { s with assist := { a with pend := a.pend ++ [r], kept := a.kept ++ [(a.d2aNext, ringEntry a.d2aNext ty fields)], d2aNext := a.d2aNext + 1 } }
/-- The tag of a graph. -/
def graphTag (s : State) (d id : Nat) : Nat := (((s.die d).graph? id).map (·.tag.toNat)).getD 0

/-- The record that asks the host about a task that a contained error has stopped (R459). -/
def raiseContain (s : State) (i d id n : Nat) : State :=
  let pasid := (s.cores.toList.findSome? fun k => (k.wgs.find? (taskHas d id n)).map (·.pasid.toNat)).getD 0
  raiseAssist s (.contain i d id n) 0x25 [(48, i), (64, pasid), (96, graphTag s d id), (128, n)]
/-- A contained error has stopped a task, and the host has not answered yet: it places no gang
meanwhile (R458, log 100). -/
def State.contained (s : State) (d id n : Nat) : Bool :=
  s.assist.late.any (·.2 == (d, id, n)) || s.assist.pend.any fun r => match r with | .contain _ a b c => (a, b, c) == (d, id, n) | _ => false
/-- LOGS AN ERROR and, unless it is corrected, reports it; a contained error in a task stops that task while error
containment is host-assisted (R458); the request waits for a free place (R459). -/
def reportError (s : State) (cls code : Nat) (src : BitVec 16) (addr detail : Nat) (task : Option (Nat × Nat × Nat)) : State :=
  let (s, idx) := logError s cls code src addr detail
  let i := idx.getD 0
  let s := if cls = 0 then s else errorMsg s cls code src addr i 0
  match task with
  | some (d, id, n) =>
    if cls = 1 ∧ assisted s 4 then
      let s := mapTask s d id n Warp.stop
      if assistRoom s then raiseContain s i d id n else { s with assist := { s.assist with late := s.assist.late ++ [(i, d, id, n)] } }
    else s
  | none => s

/-- A ticket of an ended warp fails (R390): a contained error, and its node retires FAULT. -/
def endedFailure (s : State) (ci : Nat) (g : Option Wg) (st : BitVec 4) (pc va : Dword) : State :=
  let s := reportError s 1 0x106 (coreSource s ci) va.toNat (st.toNat + pc.toNat * 2 ^ 4) (g.map fun g => (g.die, g.graph, g.node))
  match g with
  | some g => doomNode s g.die g.graph g.node 7
  | none => s

end Sys2Proof.Machine
end

