-- ==== Sys2Proof/Machine/Lsu.lean ====
section
/-! DEFINITION. A warp's accesses in flight (03 R49, 08 R185-R191, 09 R206-R223): long-latency operations, what holds an
access back, misses, the end of an access, and the waits that end on accesses. -/

namespace Sys2Proof.Machine

/-! ### Long-latency operations (R49) -/

/-- Starts an operation of `parts` parts on flag `f`: the flag is incremented. -/
def Warp.startOp (w : Warp) (f : Fin 12) (parts : Nat) (engine : Bool) : Warp :=
  { w with ops := w.ops ++ [⟨w.idNext, f, parts, [], 0#5, engine⟩], idNext := w.idNext + 1,
           cflags := w.cflags.setIfInBounds f.val (((w.cflags[f.val]?).getD 0#6) + 1) }
def Warp.decFlag (w : Warp) (f : Fin 12) : Warp :=
  { w with cflags := w.cflags.setIfInBounds f.val (((w.cflags[f.val]?).getD 0#6) - 1) }
def Warp.modOp (w : Warp) (id : Nat) (g : LongOp → LongOp) : Warp := { w with ops := updFirst (·.id == id) g w.ops }
/-- An engine's operation ends: its flags wait for a merge on its completion flag (R83), which is decremented. -/
def Warp.engineDone (w : Warp) (id : Nat) (fl : Flags5) : Warp :=
  match w.ops.find? (·.id == id) with
  | none => w
  | some o =>
    let w := { w with ops := w.ops.filter (·.id != id),
                      mflags := w.mflags.setIfInBounds o.flag.val (((w.mflags[o.flag.val]?).getD 0#5) ||| fl) }
    w.decFlag o.flag

/-- A value lands in its destination (R65, R67, R209): a scalar, or the lane slots that its register mapped to. -/
def landWrite (s : State) (ci slot : Nat) (w : RegWrite) : State :=
  match w.dest with
  | .regs [i] => s.modCore ci fun k => k.rfPut i (extend32 w.ty w.val) w.poison
  | .regs l => s.modCore ci fun k => (l.zip (List.range l.length)).foldl (fun k e =>
      k.rfPut e.1 (BitVec.ofNat 32 (w.val / 2 ^ (32 * e.2))) w.poison) k
  | .sreg n => s.modWarp ci slot (·.sput n.val (extend64 w.ty w.val) w.poison)
  | .qlane _ _ _ | .none => s
/-- A write of a pair or of four registers as the writes of its 32-bit registers (R65). -/
def RegWrite.slots (w : RegWrite) : List RegWrite :=
  match w.dest with
  | .regs (i :: j :: l) => ((i :: j :: l).zip (List.range (l.length + 2))).map fun e =>
      ⟨.regs [e.1], .n32, w.val / 2 ^ (32 * e.2) % 2 ^ 32, w.poison⟩
  | _ => [w]
/-- Before the flag of a long-latency instruction falls, each lane of each register of its destinations may already hold the value that it writes
(R144; log 35): of the values that have been fetched, those that a free choice names are in their registers. -/
def landEarly (s : State) (ci slot : Nat) : State :=
  let ws := ((s.warp? ci slot).map (·.ops)).getD [] |>.foldl (fun l (o : LongOp) => if o.engine then l else l ++ o.writes.flatMap RegWrite.slots) []
  (ws.zip (List.range ws.length)).foldl (fun s e => if Config.early s.tick e.2 then landWrite s ci slot e.1 else s) s
/-- A lane of a queue entry lands (R211). -/
def landQueue (s : State) (ci wg : Nat) (q id lane : Nat) (v : Word) (p : Bool) : State :=
  let put := fun (e : QEntry) => { e with lanes := e.lanes.setIfInBounds lane v, landed := e.landed ||| (1#32 <<< lane),
                                          poison := if p then e.poison ||| (1#32 <<< lane) else e.poison }
  s.modCore ci fun k => k.modWg wg fun g =>
    let l := updFirst (fun (e : QEntry) => e.id == id) put ((g.queues[q]?).getD [])
    { g with queues := g.queues.setIfInBounds q l }
def landQueues (s : State) (ci wg : Nat) (ws : List RegWrite) : State :=
  ws.foldl (fun s w => match w.dest with
    | .qlane q id lane => landQueue s ci wg q id lane (extend32 w.ty w.val) w.poison
    | _ => s) s

/-! ### Pending accesses of a warp -/

/-- A pending cause of a warp (R64). -/
def Warp.addCause (w : Warp) (z : Cause) : Warp := { w with causes := w.causes ++ [z] }
/-- A waited-on store that a nib refused raises NIB_REFUSED as the wait ends (R208). -/
def raiseRefused (w : Warp) : Warp :=
  match w.nibRef with
  | none => w
  | some m =>
    let (pc, pos) := w.here
    { w with nibRef := none }.addCause ⟨cNibRefused, m, pc, pos, 0#64, 0#32, 0#4, false⟩

/-- Its tickets and misses (R185). -/
def pendTickets (k : Core) (slot : Nat) : List Access :=
  ((k.tickets.map (·.acc)) ++ (k.misses.map (·.acc))).filter fun a => a.path == .lsu slot
/-- The core whose scratchpad a SPACE 1 access reaches, and its physical line (R204). -/
def spadLines (s : State) (ci slot : Nat) (a : Access) : List (Nat × Nat) :=
  match (s.warp? ci slot).bind (s.core ci).wgOf with
  | none => []
  | some g => a.lanes.filterMap fun l => (spadAt s ci g l.va.toNat l.size).map fun p => (p.1, lineOf (winBase + p.1 * 0x1000000 + 0x200000 + p.2))
/-- The storage bit of an access (R204, R220): of its memory type, or SPAD for the issuing core's own part and QSPAD otherwise. One
that is not translated counts as TRK. -/
def storOf (s : State) (ci slot : Nat) (a : Access) (x : Option Xlat) : Nat :=
  if a.sp then (if (spadLines s ci slot a).any fun p => p.1 != ci then 1 else 0)
  else match x with
    | some x => storBit x.mt
    | none => 2
/-- The physical lines of an access: two accesses are on one location whatever names reach it (R227, R229). Lines of the host are
numbered apart. -/
def locsOf (s : State) (ci slot : Nat) (a : Access) (x : Option Xlat) : List Nat :=
  if a.sp then (spadLines s ci slot a).map (·.2)
  else match x with
    | some x => a.lanes.map fun l => lineOf (x.to l.va.toNat) + (if x.mt = mtHst then 2 ^ 80 else 0)
    | none => []
/-- A RED, or a store to a nib: a later TKWAIT waits for it (R208, R214). -/
def tkWaits (a : Access) (stor : Nat) : Bool :=
  match a.kind with
  | .red _ => true
  | .store => stor == 6
  | _ => false
/-- A wait of the warp that concerns a later command to `path` (R209, R220): an acquire that is not yet performed. -/
def cmdBlocked (s : State) (ci slot path : Nat) : Bool :=
  match s.warp? ci slot with
  | none => false
  | some w => w.acqF.any (fun f => f.2.2.getLsbD path) || w.out.any (·.acq) || w.deferred.any (fun d => acqs d.acc.ord)
      || (pendTickets (s.core ci) slot).any fun a => acqs a.ord

/-- What an access is to the ordering rules, under its translation. -/
def outOf (s : State) (ci slot : Nat) (a : Access) (x : Option Xlat) : OutAcc :=
  let stor := storOf s ci slot a x
  ⟨a.id, a.kind.rd, acqs a.ord, stor, a.sp, ((a.lines.head?).getD 0), locsOf s ci slot a x, false, tkWaits a stor⟩

/-- A closed batch of the warp has not been released (R422). -/
def batchPending (s : State) (ci slot : Nat) : Bool :=
  s.twins.any fun t => t.batches.any fun (b : Batch) => b.core == ci && b.agent == slot
/-- The writes of a twinned warp that are held back, in its open batch and its closed ones (R422). -/
def heldWrites (s : State) (ci slot : Nat) : List Defer :=
  (((s.warp? ci slot).map (·.held)).getD [])
    ++ s.twins.foldl (fun l t => t.batches.foldl (fun l (b : Batch) => if b.core == ci && b.agent == slot then l ++ b.writes else l) l) []
/-- Two accesses share a virtual line, by which a ticket holds it (R187, R191; log 120). -/
def Access.meets (a b : Access) : Bool := b.sp == a.sp && b.lines.any a.lines.contains
/-- An access touches a location of another of its warp, by whatever names they reach it (R229, R231). -/
def hits (s : State) (ci slot : Nat) (a : Access) (x : Option Xlat) (d : Defer) : Bool :=
  a.meets d.acc || (locsOf s ci slot d.acc d.xl).any (locsOf s ci slot a x).contains
/-- An access lies outside a twinned partition, and joins or closes a batch (R422, R423). -/
def outsideOf (s : State) (t : Twin) (a : Access) (x : Option Xlat) : Bool :=
  match x with
  | some x => (a.kind == .store || a.kind.rd || a.kind.rmw) && outside s t x (a.lanes.map fun l => x.to l.va.toNat)
  | none => false
/-- An outside access of a twinned warp waits for the older outside accesses, so that its batch holds the writes in program order, and
for a place in the twin buffer where it closes the batch (R422, R423). -/
def twinBlocked (s : State) (ci slot : Nat) (w : Warp) (a : Access) (x : Option Xlat) : Bool :=
  match twinOf s w.pasid ci with
  | none => false
  | some t => outsideOf s t a x
      && ((pendTickets (s.core ci) slot).any (·.id < a.id) || w.deferred.any (fun d => d.acc.id < a.id && outsideOf s t d.acc d.xl)
        || (!twinRoom s w.pasid ci && (if a.kind == .store then 63 ≤ w.held.length else !w.held.isEmpty)))
/-- An access waits behind older ones of its warp (R191, R207, R209, R210, R220, R231, R346); a release also until the older stores of its
warp are acknowledged (R225, R244) and its older writes to the sync unit have landed (R279). -/
def blocked (s : State) (ci slot : Nat) (a : Access) (x : Option Xlat) : Bool :=
  match s.warp? ci slot with
  | none => false
  | some w =>
    let stor := storOf s ci slot a x
    let locs := locsOf s ci slot a x
    let tk := (pendTickets (s.core ci) slot).filter (·.id < a.id)
    let df := w.deferred.filter (·.acc.id < a.id)
    let out := w.out.filter (·.id < a.id)
    let lines := a.lines
    let far := fun (l : List Nat) => l.any locs.contains
    let slots := slotSpans s a x
    tk.any (fun b => a.meets b || acqs b.ord || inSlot slots b)
      || df.any (fun d => acqs d.acc.ord || hits s ci slot a x d || inSlot slots d.acc)
      || out.any (fun o => o.acq || (o.sp == a.sp && lines.contains o.line) || far o.locs)
      || ((acqs a.ord || rels a.ord) && (!tk.isEmpty || out.any (·.rep)))
      || (rels a.ord && (!df.isEmpty || !out.isEmpty || w.posted.any (·.id < a.id) || (s.core ci).syncQ.any fun m => m.slot == slot && m.id < a.id))
      || (stor == 7 && (!tk.isEmpty || !df.isEmpty || out.any (·.stor == 7)))
      || w.acqF.any (fun f => f.1 < a.id && f.2.1.getLsbD stor)
      || (rels a.ord && batchPending s ci slot)
      || twinBlocked s ci slot w a x
      || (a.kind != .store && (heldWrites s ci slot).any (hits s ci slot a x))

/-- What an acquire half of a FENCE waits for (R191, R208, R220): every older ticket, the older loads, and under a storage mask with
NIBW the older stores to nibs. -/
def acqWaits (s : State) (ci slot : Nat) (w : Warp) (f : Nat × BitVec 7 × BitVec 5) : Bool :=
  (pendTickets (s.core ci) slot).any (fun a => a.id < f.1)
    || w.deferred.any (fun d => d.acc.id < f.1 && (d.acc.kind.rd || (f.2.1.getLsbD 6 && d.acc.kind == .store && storOf s ci slot d.acc d.xl == 6)))
    || w.out.any (fun o => o.id < f.1 && (o.rd || o.rep || (f.2.1.getLsbD 6 && o.tkw && o.stor == 6)))
/-- FENCEs whose acquire half is done: pts takes the stamps that the older loads have read (R220), and those that the
core's engines have left (R233; log 17); under a storage mask with NIBW, a store that a nib refused raises its cause (R208). -/
def resolveFences (s : State) (ci slot : Nat) : State :=
  match s.warp? ci slot with
  | none => s
  | some w =>
    let keep := w.acqF.filter (acqWaits s ci slot w)
    if keep.length = w.acqF.length then s
    else
      let done := w.acqF.filter fun f => !acqWaits s ci slot w f
      let nibw := done.any fun f => f.2.1.getLsbD 6
      let engs := done.any fun f => 2 ≤ f.2.2.toNat
      let s := s.modWarp ci slot fun w => let w := { w with acqF := keep }; if nibw then raiseRefused w else w
      let s := s.modCore ci fun k => { k with hz := Nat.max (Nat.max k.hz w.loadHz) (if engs then k.engHz else 0) }
      match w.loadWts with
      | some v => s.modCore ci fun k => { k with pts := tmax k.pts v }
      | none => s

/-! ### The end of an access -/

/-- AN ACCESS OF A WARP ENDS: the values read join its operation, whose destinations they reach when it completes;
queue lanes land at once; failed lanes bring a cause at the next boundary (R189, R211, R390). -/
def finishWith (code : Nat) (s : State) (ci slot : Nat) (a : Access) (ws : List RegWrite) (bad : Mask) (st : BitVec 4) : State :=
  match s.warp? ci slot with
  | none => s
  | some w =>
    let isQ := fun (r : RegWrite) => match r.dest with | .qlane _ _ _ => true | _ => false
    let lost : List RegWrite := a.lanes.filterMap fun l => match l.dest with
      | .qlane _ _ _ => if laneIn bad l.lane then some ⟨l.dest, .n32, 0, true⟩ else none
      | _ => none
    let lost := lost ++ a.lanes.flatMap fun l => l.grp.filterMap fun g => match g.2.2 with
      | .qlane _ _ _ => if laneIn bad g.1 then some ⟨g.2.2, .n32, 0, true⟩ else none
      | _ => none
    let s := match w.wg with
      | some g => landQueues s ci g ((ws.filter isQ) ++ lost)
      | none => s
    let regs := ws.filter fun r => !isQ r && r.dest != .none
    let s := match a.op with
      | some o => s.modWarp ci slot (·.modOp o fun x => { x with parts := x.parts - 1, writes := x.writes ++ regs })
      | none => s
    let s := if bad = 0#32 then s
      else
        let va := match (lanesOf bad).head? with
          | some i => ((a.lanes.find? (·.lane == i)).map (·.va)).getD 0#64
          | none => 0#64
        if w.ended then endedFailure s ci ((s.core ci).wgOf w) st a.pc va
        else s.modWarp ci slot (·.addCause ⟨code, bad, a.pc, a.pos, va, 0#32, st, false⟩)
    if rels a.ord then s.modWarp ci slot raiseRefused else s
/-- The end of an access, whose failed lanes are those of a ticket or of the target that they reached: TICKET_ERROR (R189). -/
def finishLsu (s : State) (ci slot : Nat) (a : Access) (ws : List RegWrite) (bad : Mask) (st : BitVec 4) : State :=
  finishWith cTicketError s ci slot a ws bad st

/-- Records an access that waits elsewhere. -/
def Warp.addOut (w : Warp) (o : OutAcc) (n : Nat) : Warp := { w with out := w.out ++ List.replicate n o }
/-- Takes an access out of those that wait elsewhere. -/
def eraseOut (id line : Nat) : List OutAcc → List OutAcc
  | [] => []
  | o :: t => if o.id = id ∧ o.line = line then t else o :: eraseOut id line t

/-- An access waits at the slice of its line. -/
def holdAt (s : State) (ci : Nat) (a : Access) (mt : Fin 6) (pas : List Nat) (h : Hold) : State :=
  s.modDie (dieOfCore ci) fun k => { k with waits := k.waits ++ [⟨lineOf ((pas.head?).getD 0), ci, a, mt, pas, h⟩] }
/-- PERFORMS an access of a warp now, and ends it or records where it waits; `rep`: it is the replay of a ticket. -/
def performNow (s : State) (ci slot : Nat) (a : Access) (x : Xlat) (rep : Bool) : State :=
  let a := a.leased s ci
  match perform s ci a x with
  | .done s ws bad st => finishLsu s ci slot a ws bad st
  | .hold s h =>
    let pas := a.lanes.map fun l => x.to l.va.toNat
    (holdAt s ci a x.mt pas h).modWarp ci slot (·.addOut { outOf s ci slot a (some x) with rep := rep } 1)
  | .away s n =>
    let s := match a.op with
      | some o => s.modWarp ci slot (·.modOp o fun y => { y with parts := y.parts + n - 1 })
      | none => s
    s.modWarp ci slot (·.addOut { outOf s ci slot a (some x) with rep := rep } n)
/-- A PRF fetches its line, and is no access to the ordering rules (R212). -/
def performPrf (s : State) (ci : Nat) (a : Access) (x : Xlat) : State :=
  let a := a.leased s ci
  match perform s ci a x with
  | .done s _ _ _ | .away s _ => s
  | .hold s h => holdAt s ci a x.mt (a.lanes.map fun l => x.to l.va.toNat) h

/-- A SPACE 1 access performed now. -/
def performSpad (s : State) (ci slot : Nat) (a : Access) : State :=
  match perfSpad s ci a with
  | .done s ws bad st => finishLsu s ci slot a ws bad st
  | .hold s _ => s
  | .away s n => s.modWarp ci slot (·.addOut (outOf s ci slot a none) n)

/-- The translation of an access (R177): a load that hits a valid L1 line needs none. -/
def findXlat (s : State) (ci : Nat) (a : Access) : State × Option Xlat :=
  match a.lanes.head? with
  | none => (s, none)
  | some l =>
    let isL := match a.path with | .lsu _ => true | _ => false
    match (if isL && a.kind == .load then l1Hit s ci a.pasid (l.va.toNat / 128) else none) with
    | some e => (s, some ⟨a.pasid, e.vline * 128, 128, e.pline * 128, mtTrk, true, true, true, false, peerHome e.pline⟩)
    | none => translate s ci a.pasid l.va

/-- A miss on an address goes to the owner of the translation (R177, R181, R187). -/
def addMissAt (s : State) (ci : Nat) (a : Access) (va : Dword) (need : BitVec 3) (kept : Option Word) : State :=
  s.modCore ci fun k => { k with misses := k.misses ++ [⟨k.seq, a, va, need, false, kept, .none⟩], seq := k.seq + 1 }
def addMiss (s : State) (ci : Nat) (a : Access) (kept : Option Word) : State :=
  addMissAt s ci a (((a.lanes.head?).map (·.va)).getD 0#64) a.kind.need kept

/-- The releases of a warp to the sync unit and the barriers that are on their way, by age. -/
def relIds (s : State) (ci slot : Nat) : List Nat :=
  (((s.core ci).syncQ.filter fun m => m.slot == slot && m.rel).map (·.id))
    ++ s.arrivals.filterMap fun a => match a.warp with
      | some (w, id) => if a.core == ci && w == slot && a.rel then some id else none
      | none => none
/-- The open batch of a twinned warp closes where it is due and its core has room for it, once every access older than what closes it
has joined: at a release store, at a release that is on its way to the sync unit or a barrier, in a release FENCE and in an SVC (R422;
log 48). -/
def sealBatch (s : State) (ci slot : Nat) : State :=
  match s.warp? ci slot with
  | none => s
  | some w =>
    if w.held.isEmpty then s
    else
      let pend := pendTickets (s.core ci) slot ++ w.deferred.map (·.acc)
      let ends := match w.wait with | .fence _ _ _ _ | .svc _ _ _ => true | _ => false
      let rel := fun (id : Nat) => w.held.any (·.acc.id < id) && !pend.any (·.id < id)
      if twinRoom s w.pasid ci && ((ends && pend.isEmpty) || (relIds s ci slot).any rel
          || w.held.any fun h => rels h.acc.ord && !pend.any (·.id == h.acc.id)) then closeBatch s ci slot
      else s
/-- Before an access is performed, the open batch of its warp closes: at an access that is no store and meets a held write, for which
it then waits, and at a release that does not join the batch, once every older access has (R237, R422). -/
def flushHeld (s : State) (ci slot : Nat) (a : Access) (x : Option Xlat) : State :=
  match s.warp? ci slot with
  | none => s
  | some w =>
    if w.held.isEmpty then s
    else
      let meets := a.kind != .store && w.held.any (hits s ci slot a x)
      let old := (pendTickets (s.core ci) slot).any (·.id < a.id) || w.deferred.any (·.acc.id < a.id)
      let joins := a.kind == .store && (twinOf s w.pasid ci).any (outsideOf s · a x)
      if twinRoom s w.pasid ci && (meets || (rels a.ord && !joins && !old)) then closeBatch s ci slot else s
/-- A checked access waits behind older ones, in its place by age. -/
def Warp.defer (d : Defer) (w : Warp) : Warp :=
  { w with deferred := w.deferred.filter (·.acc.id ≤ d.acc.id) ++ d :: w.deferred.filter (d.acc.id < ·.acc.id) }
/-- Places a checked access: it is performed now, or it waits behind older ones and keeps its translation (R197). -/
def place (s : State) (ci slot : Nat) (d : Defer) : State :=
  let s := flushHeld s ci slot d.acc d.xl
  if blocked s ci slot d.acc d.xl then s.modWarp ci slot (·.defer d)
  else match d.xl with
    | some x => performNow s ci slot d.acc x false
    | none => performSpad s ci slot d.acc

/-- The accesses of a warp that wait behind older ones, in program order: each that nothing holds any longer is performed with the
translation that it was given (R197). -/
def drain (s : State) (ci slot : Nat) : State :=
  let s := resolveFences s ci slot
  match s.warp? ci slot with
  | none => s
  | some w => sealBatch (w.deferred.foldl (fun s d =>
      let s := flushHeld s ci slot d.acc d.xl
      if blocked s ci slot d.acc d.xl then s
      else
        let s := s.modWarp ci slot fun w => { w with deferred := w.deferred.erase d }
        sealBatch (match d.xl with
          | some x => performNow s ci slot d.acc x false
          | none => performSpad s ci slot d.acc) ci slot) s) ci slot

/-- An outside read or atomic of a twin's primary that waited elsewhere has its data, which goes to the secondary (R423). -/
def twinAnswer (s : State) (ci : Nat) (a : Access) : State :=
  match twinOf s a.pasid ci with
  | none => s
  | some t =>
    if !t.second && a.kind != .store && outsideOf s t a (translate s ci a.pasid (((a.lanes.head?).map (·.va)).getD 0#64)).2 then twinSend s t ci else s
/-- An access that waited elsewhere ends, and what waited behind it goes on. -/
def finishOut (s : State) (ci slot : Nat) (a : Access) (ws : List RegWrite) (bad : Mask) (st : BitVec 4) : State :=
  let s := twinAnswer s ci a
  let s := s.modWarp ci slot fun w => { w with out := eraseOut a.id ((a.lines.head?).getD 0) w.out }
  drain (finishLsu s ci slot a ws bad st) ci slot

/-! ### Waits -/

/-- The release half of a FENCE is done (R220): no older ticket, no older access to storage in S under way, and no older TRK store
that is not acknowledged, and no older write to the sync unit on its way (R279). -/
def fenceDone (s : State) (ci slot : Nat) (w : Warp) (st : BitVec 7) (id : Nat) : Bool :=
  (pendTickets (s.core ci) slot).all (fun a => id ≤ a.id) && w.deferred.all (fun d => id ≤ d.acc.id) && w.held.isEmpty
    && w.out.all (fun o => id ≤ o.id || !st.getLsbD o.stor) && (!st.getLsbD 2 || w.posted.all (fun p => id ≤ p.id))
    && !batchPending s ci slot && (s.core ci).syncQ.all fun m => m.slot != slot || id ≤ m.id

/-- ENDS A WAIT whose condition holds (R139, R163, R220, R223, R273, R281, R326, R348). -/
def settle (s : State) (ci slot : Nat) : State :=
  let s := sealBatch s ci slot
  match s.warp? ci slot with
  | none => s
  | some w =>
    let k := s.core ci
    match w.wait with
    | .flags m lanes =>
      if w.flagsZero m then s.modWarp ci slot fun w => { w.mergeFlags m lanes with wait := .none } else s
    | .tkwait =>
      if (pendTickets k slot).isEmpty && !w.out.any (fun o => o.tkw || o.rep) && !w.deferred.any (fun d => tkWaits d.acc (storOf s ci slot d.acc d.xl)) then s.modWarp ci slot fun w => raiseRefused { w with wait := .none } else s
    | .fence ord st path id =>
      if fenceDone s ci slot w st id then
        let rel := Nat.max (s.published ci slot) (if path.toNat / 2 = 0 then 0 else k.engHz)
        let s := s.modWarp ci slot fun w =>
          let w := { w with wait := .none, relHz := Nat.max w.relHz rel }
          let w := if st.getLsbD 6 then raiseRefused w else w
          if acqs ord then { w with acqF := w.acqF ++ [(id, st, path)] } else w
        resolveFences s ci slot
      else s
    | .nunbind n gen => if ((k.nibs[n]?).map (fun x => x.st == .unbound || x.gen != gen)).getD true then s.modWarp ci slot fun w => { w with wait := .none } else s
    | .sem n _ _ _ _ => s.modCore ci (·.semExam n)
    | .cm m _ _ _ => s.modCore ci (·.cmExam m)
    | .obfree r => match k.wgOf w with
        | some g => if g.resv.any (·.1 == r.val) then s else s.modWarp ci slot fun w => { w with wait := .none }
        | none => s.modWarp ci slot fun w => { w with wait := .none }
    | _ => s

end Sys2Proof.Machine
end

