-- ==== Sys2Proof/Machine/Control.lean ====
section
/-! DEFINITION. The control family (07 R157-R168): transfers, EXIT, waits, ligatures, TRAP, SVC and BRKPT. -/

namespace Sys2Proof.Machine

/-- The issuing position is the last of its clause (R52). -/
def atLast (w : Warp) : Bool :=
  match w.clause with
  | some c => c.pos == c.hdr.len
  | none => true

/-- The frame of an instruction that may stand only last in its clause (R52): ILLEGAL_CLAUSE comes before its operands
(R61), LIGATURE_ERROR in a MELD clause after them (R156). -/
def runTransfer (s : State) (c : Ctl) (scalar : Bool) (opds : List Opd) (body : Ctx → Res) : Out :=
  match ctxOf s c with
  | none => .fault .noIssuer
  | some k =>
    if !atLast k.w then .next (takeTrap (issued s k.ci k.wi c) k.ci k.wi (k.cause cIllegalClause k.act 0#64))
    else runInstr s c scalar false opds fun k =>
      if k.w.lig.on then .trap (k.cause cLigature k.act 0#64) else body k

/-- The word after the clause (R52). -/
def fallThrough (k : Ctx) : Dword := k.e.pc + 12#64

/-- What reading a transfer's target comes to (R158). -/
inductive Target where
  | header (h : Header)
  | fail (code : Nat)
  | miss (va : Dword)
deriving DecidableEq, Repr

/-- Reads the header at a target: its alignment, the fetch, and that it is a header (R37, R52, R158). -/
def readTarget (k : Ctx) (s : State) (t : Dword) : State × Target :=
  if t.extractLsb' 0 2 != 0#2 then (s, .fail cMisaligned)
  else match fetchWord s k.ci k.w.pasid (k.wi == 31) t with
    | (s, .ok w) => match Header.ofWord w with
      | some h => (s, .header h)
      | none => (s, .fail cIllegalClause)
    | (s, .error (.miss va)) => (s, .miss va)
    | (s, .error _) => (s, .fail cAccessDenied)

/-- The distinct targets with their lanes, in order of first lane. -/
def groupTargets : List (Nat × Dword) → List (Dword × Mask)
  | [] => []
  | (l, t) :: r =>
    let g := groupTargets r
    let m : Mask := 1#32 <<< l
    if g.any (·.1 == t) then
      let m := g.foldl (fun m e => if e.1 == t then m ||| e.2 else m) m
      (t, m) :: g.filter (·.1 != t)
    else (t, m) :: g

/-- Reads every target's header (R158). -/
def readTargets (k : Ctx) : State → List (Dword × Mask) → State × List (Dword × Mask × Target)
  | s, [] => (s, [])
  | s, (t, m) :: r =>
    let (s, x) := readTarget k s t
    let (s, xs) := readTargets k s r
    (s, (t, m, x) :: xs)

/-- SENDS LANES (R158): the active lanes go to their targets at DEPTH `depth`, the others to the fall-through. Every
target is read first; a miss holds the warp, a failed check fails the whole transfer with the lowest code (R64). -/
def sendLanes (k : Ctx) (goes : List (Nat × Dword)) (stay : Mask) (depth : Fin 64) (pre : State → State) : Res :=
  let (s, xs) := readTargets k k.s (groupTargets goes)
  match xs.findSome? fun (t, _, x) => match x with | .miss va => some (t, va) | _ => none with
  | some (t, va) => .jump (fetchMiss s k.ci k.wi k.w k.e.pc va t .transfer)
  | none =>
    let codes := xs.filterMap fun (_, _, x) => match x with | .fail c => some c | _ => none
    match codes.min? with
    | some c =>
      let bad := xs.filter fun (_, _, x) => x == .fail c
      let m := bad.foldl (fun m (_, y, _) => m ||| y) 0#32
      let va := match (lanesOf m).head? with
        | some l => ((bad.find? fun (_, y, _) => laneIn y l).map (·.1)).getD 0#64
        | none => 0#64
      if c = cIllegalClause then .trap ⟨c, m, va, 0, 0#64, 0#32, 0#4, false⟩ else .trap (k.cause c m va)
    | none =>
      let es := xs.filterMap fun (t, m, x) => match x with
        | .header h => some (Entry.mk t depth h.prio m)
        | _ => none
      .jump ((pre s).modWarp k.ci k.wi (·.transfer es stay (fallThrough k)))

/-- Every active lane to one address. -/
def allTo (k : Ctx) (t : Dword) : List (Nat × Dword) := (lanesOf k.act).map fun l => (l, t)
/-- Every active lane to its own address in A (R159). -/
def eachTo (k : Ctx) (a : Reg) : List (Nat × Dword) := (lanesOf k.act).map fun l => (l, k.src64 a l)
/-- The lanes of E that are not active. -/
def inactive (k : Ctx) : Mask := k.e.mask &&& ~~~k.act
/-- A direct target (R158). -/
def directTarget (k : Ctx) (off : Word) : Dword := k.e.pc + off.signExtend 64

/-- A target or return register: a vector pair or a scalar (R157). -/
def opdTarget (a : Reg) : Opd := { r := a, adm := admVS, n := 2 }
def opdReturn (d : Reg) : Opd := { r := d, adm := admVS, dst := true, src := false, n := 2 }

/-- BRA (R159). -/
def execBra (c : Ctl) (off : Word) (s : State) : Out :=
  runTransfer s c false [] fun k =>
    if k.act = 0#32 then .ok k.s else sendLanes k (allTo k (directTarget k off)) (inactive k) k.e.depth id
/-- BRD (R159): a second predicate under the guard. -/
def execBrd (c : Ctl) (a : Reg) (pneg : Bool) (off : Word) (s : State) : Out :=
  runTransfer s c false [{ r := a, adm := admPred }] fun k =>
    let go := maskOf fun l => laneIn k.act l && ((k.rd a l 1 == 1) != pneg)
    if go = 0#32 then .ok k.s
    else sendLanes k ((lanesOf go).map fun l => (l, directTarget k off)) (k.e.mask &&& ~~~go) k.e.depth id
/-- BRX (R159). -/
def execBrx (c : Ctl) (a : Reg) (s : State) : Out :=
  runTransfer s c false [opdTarget a] fun k =>
    if k.act = 0#32 then .ok k.s else sendLanes k (eachTo k a) (inactive k) k.e.depth id
/-- The return address is written to D as the lanes are sent (R160). -/
def callTo (k : Ctx) (d : Reg) (goes : List (Nat × Dword)) : Res :=
  if k.act = 0#32 then .ok k.s
  else if h : k.e.depth.val + 1 < 64 then
    sendLanes k goes (inactive k) ⟨k.e.depth.val + 1, h⟩ fun s =>
      writeLanes s k.ci k.wi .n64 d ((lanesOf k.act).map fun l => (l, ((fallThrough k).toNat : Int)))
  else .trap (k.cause cIllegalOperand k.act 0#64)
/-- CALL (R160). -/
def execCall (c : Ctl) (d : Reg) (off : Word) (s : State) : Out :=
  runTransfer s c (isScalar d) [opdReturn d] fun k => callTo k d (allTo k (directTarget k off))
/-- CALLX (R160). -/
def execCallx (c : Ctl) (d a : Reg) (s : State) : Out :=
  runTransfer s c (isScalar d) [opdReturn d, opdTarget a] fun k => callTo k d (eachTo k a)
/-- RET (R161). -/
def execRet (c : Ctl) (a : Reg) (s : State) : Out :=
  runTransfer s c false [opdTarget a] fun k =>
    if k.act = 0#32 then .ok k.s
    else if k.e.depth.val = 0 then .trap (k.cause cIllegalOperand k.act 0#64)
    else sendLanes k (eachTo k a) (inactive k) ⟨k.e.depth.val - 1, by omega⟩ id

/-- The reserved bits of the trap frame (R385). -/
def frameReserved (f : Nat) : Bool :=
  f / 2 ^ 6 % 2 ^ 10 != 0 || f / 2 ^ 26 % 2 ^ 70 != 0 || f / 2 ^ 384 % 2 ^ 640 != 0
/-- RETURNS FROM A TRAP (R387): s63, the saved frontier and the ligature state come back, and the trapped entry goes to
the position that PC, POS and SKIP of the frame give; at a header it merges with an entry that stands there (R151). -/
def returnTrap (w : Warp) (sv : Saved) (f : Nat) : Warp :=
  let pc := BitVec.ofNat 64 (f / 2 ^ 128 % 2 ^ 64)
  let pos := f / 2 ^ 16 % 16
  let skip := f / 2 ^ 24 % 2
  let at_ := pc - BitVec.ofNat 64 (12 * pos)
  let w := { w.sput 63 (BitVec.ofNat 64 (f / 2 ^ 320 % 2 ^ 64)) false with
      front := sv.front
      spilled := sv.spilled
      lig := sv.lig
      clause := none
      resume := none
      unread := false
      handler := none
      job := if 8 < sv.front.length then some .spill else none }
  if pos + skip = 0 then w.headTo at_
  else { w with resume := some (pos + skip), front := match sv.front with
      | e :: es => { e with pc := at_ } :: es
      | [] => [] }
/-- An older access of the warp to the line of its trap frame is not yet performed. -/
def frameBusy (s : State) (ci wi : Nat) (w : Warp) : Bool :=
  let line := w.frameVa.toNat / 128
  let meets := fun (a : Access) => !a.sp && a.lines.contains line
  (pendTickets (s.core ci) wi).any meets || w.deferred.any (meets ·.acc) || w.out.any fun o => !o.sp && o.line == line
/-- RET with TR (R161, R387, R388): the frame is read in program order after the handler's stores to it, and s63 is written only
once no barrier's answer is due in it (R281). -/
def execRetTr (c : Ctl) (s : State) : Out :=
  runTransfer s c false [] fun k =>
    if k.act = 0#32 then .ok k.s
    else match k.w.handler with
      | none => .trap (k.cause cIllegalOperand k.act 0#64)
      | some sv =>
        let s := snoopBytes k.s k.ci k.w.framePa 128
        let f := leNat (rdBytes s.hbm k.w.framePa 128)
        if k.w.front.length + k.w.spilled.length != 1 then .trap (k.cause cIllegalOperand k.act 0#64)
        else if frameBusy k.s k.ci k.wi k.w || k.w.sbPend.contains 63 then .hold
        else if frameReserved f then .trap (k.cause cIllegalOperand k.act 0#64)
        else .jump (s.modWarp k.ci k.wi fun w => returnTrap w sv f)

/-- What closes the batch of a twinned warp waits until the older accesses have joined it, and for a place in the twin buffer (R422). -/
def closeHeld (k : Ctx) : Bool :=
  (twinOf k.s k.w.pasid k.ci).isSome && (!(pendTickets k.k k.wi).isEmpty || !k.w.deferred.isEmpty
    || (!k.w.held.isEmpty && !twinRoom k.s k.w.pasid k.ci))
/-- EXIT (R162): the active lanes leave the frontier for good; a warp with no entry left ends. In a trap handler the frontier that the
trap has saved ends with it, which is the model's choice (log 113). -/
def execExit (c : Ctl) (s : State) : Out :=
  runTransfer s c false [] fun k =>
    if k.act = 0#32 then .ok k.s
    else if closeHeld k then .hold
    else
      let s := closeBatch k.s k.ci k.wi
      .jump (s.modWarp k.ci k.wi fun w =>
        let w := w.transfer [] (inactive k) (fallThrough k)
        if w.front.isEmpty && w.spilled.isEmpty then
          { w with ended := true, mflags := Vector.replicate 12 0#5, wait := .none }
        else w)

/-- Some lane is active under the guard. -/
def anyActive (s : State) (c : Ctl) : Bool := match ctxOf s c with
  | some k => k.act != 0#32
  | none => false
/-- YIELD (R163): the hold of R47, and of X cc; with no lane active it is a NOP. -/
def execYield (c : Ctl) (n : BitVec 16) (s : State) : Out :=
  runInstr s (if anyActive s c then { c with yld := true } else c) false false [] fun k =>
    if k.act = 0#32 then .ok k.s else .ok (k.s.modWarp k.ci k.wi fun w => { w with yieldCc := n != 0#16 })
/-- NOP (R163). -/
def execNop (c : Ctl) (s : State) : Out := runInstr s c false false [] fun k => .ok k.s

/-- WAITC (R163): it ends at once when every flag named is zero. -/
def execWaitc (c : Ctl) (m : BitVec 12) (s : State) : Out :=
  runInstr s c false false [] fun k =>
    if k.act = 0#32 || m = 0#12 then .ok k.s
    else .ok (k.s.modWarp k.ci k.wi fun w =>
      if w.flagsZero m then w.mergeFlags m k.act else { w with wait := .flags m k.act })

/-- LIGON (R156, R164). -/
def execLigon (c : Ctl) (a : Reg) (b : Option Reg) (s : State) : Out :=
  runInstr s c false false ([{ r := a, adm := admPred }] ++ (b.toList.map fun r => { r := r, adm := admPred })) fun k =>
    if k.w.lig.on || k.w.lig.pendOn || 1 < k.w.front.length + k.w.spilled.length then
      .trap (k.cause cLigature k.act 0#64)
    else
      let p0 := maskOf fun l => laneIn k.e.mask l && k.rd a l 1 == 1
      let p1 := match b with
        | some r => maskOf fun l => laneIn k.e.mask l && k.rd r l 1 == 1
        | none => 0#32
      .ok (k.s.modWarp k.ci k.wi fun w =>
        { w with lig := { w.lig with path0 := p0, path1 := p1, map := [], pendMap := [], pendOn := true } })
/-- LIGMAP (R156, R165): both numbers name vector registers of the allocation. -/
def execLigmap (c : Ctl) (path : Fin 4) (slot : Fin 16) (a b : Reg) (s : State) : Out :=
  runInstr s c false false
    [{ r := a, adm := admVec, src := false }, { r := b, adm := admVec, src := false }] fun k =>
    if !(k.w.lig.on || k.w.lig.pendOn) then .trap (k.cause cLigature k.act 0#64)
    else match a, b with
      | .v x, .v y => .ok (k.s.modWarp k.ci k.wi fun w =>
          { w with lig := { w.lig with pendMap := w.lig.pendMap ++ [⟨path, slot, x.val, y.val⟩] } })
      | _, _ => .ok k.s
/-- LIGOFF (R156, R166). -/
def execLigoff (c : Ctl) (s : State) : Out :=
  runInstr s c false false [] fun k =>
    if !k.w.lig.on then .trap (k.cause cLigature k.act 0#64)
    else .ok (k.s.modWarp k.ci k.wi fun w => { w with lig := { w.lig with pendOff := true } })

/-- TRAP (R167): taken after the instruction. -/
def execTrap (c : Ctl) (code : Word) (s : State) : Out :=
  runInstr s c false false [] fun k =>
    if k.act = 0#32 then .ok k.s
    else .after k.s { k.cause cTrap k.act 0#64 with xcode := code, skip := true }
/-- BRKPT (R167): taken before the instruction. -/
def execBrkpt (c : Ctl) (code : Word) (s : State) : Out :=
  runInstr s c false false [] fun k =>
    if k.act = 0#32 then .ok k.s
    else .trap { k.cause cBrkpt k.act 0#64 with xcode := code, skip := true }

/-- Consecutive scalar registers from A, as operands; beyond s63 they name no register (R168, R298, R350). -/
def scalarRun (a : Reg) (n : Nat) : List Opd :=
  match a with
  | .s i => (List.range n).map fun j =>
      if h : i.val + j < 64 then { r := .s ⟨i.val + j, h⟩, adm := admScalar } else { r := .bad 0, adm := admScalar }
  | r => [{ r := r, adm := admScalar }]
/-- The lowest free mailbox record (R376). -/
def freeRec (k : Core) : Option Nat := (List.range 16).find? fun i => k.mail.all (·.idx != i)
/-- No mailbox record is free: an SVC of the core's warps does not issue, whatever its guard and operands (R139). -/
def mailFull (s : State) (c : Ctl) : Bool := match ctxOf s c with
  | some k => (freeRec k.k).isNone
  | none => false
/-- SVC (R168): the record joins the mailbox, and the warp waits for the reply; a full mailbox holds it (R139). -/
def execSvc (c : Ctl) (a : Reg) (count : Fin 16) (s : State) : Out :=
  if mailFull s c then .next s else
  runInstr s c true false (scalarRun a count.val) fun k =>
    if k.act = 0#32 then .ok k.s
    else if closeHeld k then .hold
    else match a, freeRec k.k with
      | .s i, some r =>
        let words := (List.range 8).map fun j => if j < count.val then k.w.sreg (i.val + j) else 0#64
        let s := closeBatch k.s k.ci k.wi
        let s := s.modCore k.ci fun x => { x with
          mail := x.mail ++ [⟨r, k.wi, (k.w.wg).getD 0, k.w.pasid, count.val, k.w.here.1, words, false, none⟩]
          mailMem := wrBytes x.mailMem (64 * r) ((words.map fun d => leBytes 8 d.toNat).foldl (· ++ ·) []) }
        .ok (s.modWarp k.ci k.wi fun w => { w with wait := .svc i count.val r })
      | _, none => .hold
      | _, _ => .ok k.s

end Sys2Proof.Machine
end

