-- ==== Sys2Proof/Machine/Nibs.lean ====
section
/-! DEFINITION. What a nib does with the accesses that reach it (17 R332-R344): its geometry, fills of stroke slots,
consumes and reads of trace slots. -/

namespace Sys2Proof.Machine

/-! ### Geometry (R332, R333) -/

def nibBits (d : BitVec 512) (lo n : Nat) : Nat := d.toNat / 2 ^ lo % 2 ^ n
/-- The width of an element format: a TYPE of 8 or 32 bits, or an NFD. -/
def nibWidth (f : Nat) (nfd : Nat) : Nat :=
  if f = 12 then (nfdFmt (BitVec.ofNat 19 nfd)).width else if f = 0 ∨ f = 4 then 8 else 32
def Nib.rows (n : Nib) : Nat := nibBits n.desc 224 10 + 1
def Nib.cols (n : Nib) : Nat := nibBits n.desc 234 10 + 1
def Nib.nslots (n : Nib) : Nat := nibBits n.desc 244 8 + 1
def Nib.overwrite (n : Nib) : Bool := nibBits n.desc 252 1 = 1
def Nib.mf (n : Nib) : Nat := nibBits n.desc 256 4
def Nib.vf (n : Nib) : Nat := nibBits n.desc 260 4
def Nib.rfm (n : Nib) : Nat := nibBits n.desc 264 4
def Nib.wm (n : Nib) : Nat := nibWidth n.mf (nibBits n.desc 320 19)
def Nib.wv (n : Nib) : Nat := nibWidth n.vf (nibBits n.desc 352 19)
def Nib.wr (n : Nib) : Nat := nibWidth n.rfm (nibBits n.desc 384 19)
/-- Class Q of R333. -/
def Nib.classQ (n : Nib) : Bool := n.wm ≤ 4 && n.wv ≤ 4
def Nib.vb (n : Nib) : Nat := ceilDiv (n.cols * n.wv) 8
def Nib.rb (n : Nib) : Nat := ceilDiv (n.rows * n.wr) 8
def Nib.ssz (n : Nib) : Nat := ceilDiv n.vb 64 * 64
def Nib.tsz (n : Nib) : Nat := ceilDiv n.rb 64 * 64
def Nib.rowBytes (n : Nib) : Nat := ceilDiv (n.cols * n.wm) 8
def Nib.grans (n : Nib) : Nat := ceilDiv (n.rows * n.rowBytes) 4096
/-- Array cycles of one application. -/
def Nib.cycles (n : Nib) : Nat := ceilDiv (n.rows * n.cols) (if n.classQ then 16384 else 8192)

def Core.nib (k : Core) (n : Nat) : Nib := (k.nibs[n]?).getD (Nib.fresh none)
def Core.setNib (k : Core) (n : Nat) (x : Nib) : Core := { k with nibs := k.nibs.setIfInBounds n x }
def Core.modNib (k : Core) (n : Nat) (f : Nib → Nib) : Core := k.setNib n (f (k.nib n))
def Slot.fresh : Slot := ⟨.empty, 0#16, [], [], [], 0, [], [], false⟩
def Nib.slot (n : Nib) (k : Nat) : Slot := (n.slots[k]?).getD Slot.fresh
def Nib.setSlot (n : Nib) (k : Nat) (x : Slot) : Nib := { n with slots := n.slots.set k x }
/-- A source number lies in a set (R338); a range whose last number is below its first is empty. -/
def inSet (l : List (BitVec 16 × BitVec 16)) (g : BitVec 16) : Bool := l.any fun r => r.1.toNat ≤ g.toNat && g.toNat ≤ r.2.toNat

/-! ### Waiting loads (R343) -/

/-- What a load of a trace slot finds. -/
inductive NibRd where
  | perm
  | bytes (bs : List (Byte × Bool))
  | wait
deriving DecidableEq, Repr

/-- A byte of a result is poisoned when an element that it holds a part of is. -/
def bytePois (n : Nib) (x : Slot) (o : Nat) : Bool := x.rpois.any fun i => i * n.wr < 8 * (o + 1) && 8 * o < (i + 1) * n.wr
/-- `size` bytes of a DONE or FAILED slot from byte `o`, each with its poison. -/
def slotBytes (n : Nib) (x : Slot) (o size : Nat) : List (Byte × Bool) :=
  (List.range size).map fun i => if x.st = .failed then (0#8, true) else ((x.res[o + i]?).getD 0#8, bytePois n x (o + i))
/-- The same as one value. -/
def slotRead (n : Nib) (x : Slot) (o size : Nat) : Nat × Bool :=
  if x.st = .failed then (0, true)
  else (leNat ((List.range size).map fun i => (x.res[o + i]?).getD 0#8), (List.range size).any fun i => bytePois n x (o + i))
/-- The values that the lanes of a load take: from a DONE or FAILED slot, or poison. -/
def loadWrites (n : Nib) (x : Option Slot) (acc : Access) (pas : List Nat) : List RegWrite :=
  (acc.lanes.zip pas).map fun (l, pa) => match x with
    | some x => let r := slotRead n x ((pa - n.tva) % Nat.max 1 n.tsz) l.size; ⟨l.dest, acc.ty, r.1, r.2⟩
    | none => ⟨l.dest, acc.ty, 0, true⟩
/-- Ends a load at its requester, line by line; the values come with the first. -/
def endLoad (s : State) (core : Nat) (acc : Access) (ws : List RegWrite) (bad : Mask) (st : BitVec 4) : State :=
  match acc.slot? with
  | some w => (acc.lines.foldl (fun (r : State × List RegWrite) ln =>
      let part := { acc with lanes := acc.lanes.filter fun l => l.va.toNat / 128 == ln }
      (finishOut r.1 core w part r.2 (bad &&& part.mask) st, [])) (s, ws)).1
  | none => s
/-- A load that waited at a nib ends: at its warp, or as an answer that its engine takes, as the host's completion, or as
an answer to the other device that asked. -/
def endWait (s : State) (ci : Nat) (n : Nib) (x : Option Slot) (l : NibLoad) : State :=
  match l.acc.slot?, l.acc.lanes, l.pas with
  | some _, _, _ => endLoad s l.core l.acc (loadWrites n x l.acc l.pas) 0#32 0#4
  | none, a :: _, pa :: _ =>
    let bs := match x with
      | some x => slotBytes n x ((pa - n.tva) % Nat.max 1 n.tsz) a.size
      | none => (List.range a.size).map fun _ => (0#8, true)
    if l.core < 384 then s.modCore l.core fun k => { k with engGot := k.engGot ++ [⟨l.acc.path, pa, bs⟩] }
    else if l.core = 384 then { s with port := { s.port with cpl := some bs } }
    else originate s ⟨coreSource s ci, BitVec.ofNat 4 (l.core - 385), 2#3⟩
  | none, _, _ => s
/-- The last part of an NLDC at a slot: no other lanes of it in that slot are still to come (R354). -/
def lastPart (s : State) (c ni core : Nat) (a : Access) (pas : List Nat) : Bool :=
  let n := (s.core c).nib ni
  match a.slot?, a.lanes, pas with
  | some w, l :: _, pa :: _ =>
    let lo := l.va.toNat - (pa - n.tva) % Nat.max 1 n.tsz
    let meets := fun (b : Access) => b.id == a.id && b.lanes.any fun x => lo ≤ x.va.toNat && x.va.toNat < lo + n.tsz
    !(pendTickets (s.core core) w ++ (((s.warp? core w).map (·.deferred)).getD []).map (·.acc)).any meets
      && !(s.core c).nibIn.any fun m => m.core == core && m.acc.path == a.path && meets m.acc
  | _, _, _ => true
/-- Takes a slot's result away and frees it (R343). -/
def Nib.free (n : Nib) (k : Nat) : Nib := n.setSlot k Slot.fresh
/-- A nib's ACQUIRE side: the trace write is a release by the nib engine of core `ci`, after the fills that it was computed from
(R235, R341, R345; log 17). -/
def nibAcquire (s : State) (ci core : Nat) (acc : Access) : State := noteSee s core acc (s.core ci).nibHz (s.core ci).nibHz
/-- Completes the loads that wait on some slots: with what the slot holds, DONE or FAILED, or with poison (R340, R341, R343,
R348, R349). An NLDC that finds such a slot frees it. -/
def serveLoads (s : State) (ci ni : Nat) (p : Nat → Bool) (result : Bool) : State :=
  let n := (s.core ci).nib ni
  let mine := n.loads.filter fun l => p l.slot
  let s := s.modCore ci (·.modNib ni fun n => { n with loads := n.loads.filter fun l => !p l.slot })
  let s := mine.foldl (fun s l =>
    let x := if result then some (n.slot l.slot) else none
    endWait (if result && (n.slot l.slot).st == .done then nibAcquire s ci l.core l.acc else s) ci n x l) s
  if result then mine.foldl (fun s l => if l.acc.kind == .nldc && lastPart s ci ni l.core l.acc l.pas then s.modCore ci (·.modNib ni (·.free l.slot)) else s) s else s

/-! ### Stores and consumes (R339, R343) -/

/-- Adds 1 to REFCNT. -/
def Nib.refuse (n : Nib) : Nib := { n with refcnt := n.refcnt + 1 }
/-- The vector bytes of a store, as place in the slot, byte and poison, written in a slot that its writer has claimed; a full
bitmap makes it READY, with the next stamp. -/
def Nib.fill (n : Nib) (k seq : Nat) (bs : List (Nat × Byte × Bool)) : Nib × Bool :=
  let x := (bs.filter (·.1 < n.vb)).foldl (fun (x : Slot) e => { x with
    bytes := tabSet 0#8 x.bytes e.1 e.2.1, map := setAdd x.map e.1, vpois := setPut x.vpois e.1 e.2.2 }) (n.slot k)
  if x.map.length = n.vb then (n.setSlot k { x with st := .ready, seq := seq }, true) else (n.setSlot k x, false)
/-- One store of bytes to stroke slot `sl` by agent `g`: whether it is refused (R339). -/
def strokeStore (k : Core) (ni : Nat) (g : BitVec 16) (sl : Nat) (bs : List (Nat × Byte × Bool)) : Core × Bool :=
  let n := k.nib ni
  let x := n.slot sl
  let refuse := (k.setNib ni n.refuse, true)
  let write := fun (x : Slot) =>
    let (n, rdy) := (n.setSlot sl x).fill sl k.seq bs
    ({ k with seq := if rdy then k.seq + 1 else k.seq }.setNib ni n, false)
  let claim := { Slot.fresh with st := .filling, owner := g }
  if !inSet n.writers g then refuse
  else if bs.all (n.vb ≤ ·.1) then (k, false)
  else match x.st with
    | .empty => write claim
    | .filling => if x.owner = g then write x else refuse
    | .done | .failed => if n.overwrite then write claim else refuse
    | .ready | .applying => refuse
/-- Bytes from an offset of the stroke window, as one store to the slot that holds them. -/
def strokeRun (k : Core) (ni : Nat) (g : BitVec 16) (off : Nat) (bs : List (Byte × Bool)) : Core × Bool :=
  let z := Nat.max 1 (k.nib ni).ssz
  strokeStore k ni g (off / z) ((bs.zip (List.range bs.length)).map fun e => (off % z + e.2, e.1.1, e.1.2))
/-- A consume of a trace slot by agent `g`. -/
def traceStore (k : Core) (ni : Nat) (g : BitVec 16) (off : Nat) : Core × Bool :=
  let n := k.nib ni
  let sl := off / Nat.max 1 n.tsz
  if !inSet n.readers g then (k.setNib ni n.refuse, true)
  else match (n.slot sl).st with
    | .done | .failed => (k.setNib ni (n.free sl), false)
    | _ => (k, false)
/-- What a read by agent `g` at offset `off` of the trace window finds. -/
def traceRead (k : Core) (ni : Nat) (g : BitVec 16) (off size : Nat) : NibRd :=
  let n := k.nib ni
  let x := n.slot (off / Nat.max 1 n.tsz)
  if !inSet n.readers g then .perm
  else match x.st with
    | .done | .failed => .bytes (slotBytes n x (off % Nat.max 1 n.tsz) size)
    | _ => .wait
/-- Counts a load whose wait limit ran out (R343). -/
def Nib.noteNr (n : Nib) (sl : Nat) : Nib := { n with nrcnt := n.nrcnt + 1, lastNr := BitVec.ofNat 8 sl }

end Sys2Proof.Machine
end

