-- ==== Sys2Proof/Machine/Engine.lean ====
section
/-! DEFINITION. Accesses of the engines of a core: copy channels, the access slice and the nib engine (08 R170, R185-R196,
10 R226, 15 R289-R293, 17 R335): translation of every page first, then the bytes of each line. -/

namespace Sys2Proof.Machine

/-! ### Status codes (R292) -/

def stOk : Byte := 0#8
def stBadrec : Byte := 1#8
def stNotown : Byte := 2#8
def stDenied : Byte := 3#8
def stRwclosed : Byte := 4#8
def stSigdrop : Byte := 5#8
def stCpAborted : Byte := 6#8
def stNibrefused : Byte := 7#8
/-- A ticket failed with a status of R184. -/
def stTicket (n : BitVec 4) : Byte := 1#4 ++ n

/-- The parts of one record of a channel, or of one bind of a nib, are numbered apart from those of any other. -/
def cpGen : Nat := 0x200000
/-- Who makes an engine's accesses; `id` and `pc` name the part of its work and the word or record that it comes from, `lane` the lane
access of a slice word (R185). -/
structure Eng where
  ci    : Nat
  path  : Path
  pasid : BitVec 20
  scr   : Bool
  id    : Nat
  pc    : Dword
  lane  : Option (AccKind × LaneAcc) := none
deriving DecidableEq, Repr

/-- What part of an engine's work comes to: done, held for now (its state may hold new tickets or requests), or failed
with a code of R292. -/
inductive ER (α : Type) where
  | ok (s : State) (v : α)
  | wait (s : State)
  | fail (s : State) (st : Byte)

/-- Continues after a part that is done. -/
def ER.bind {α β : Type} (x : ER α) (f : State → α → ER β) : ER β :=
  match x with
  | .ok s v => f s v
  | .wait s => .wait s
  | .fail s st => .fail s st

/-! ### Translation of a run of bytes (R170, R176, R196) -/

/-- A part of a run that lies in one line: its translation, address and length. -/
structure Piece where
  x  : Xlat
  va : Nat
  n  : Nat
deriving DecidableEq, Repr
def Piece.pa (p : Piece) : Nat := p.x.to p.va

/-- The parts of `n` bytes from `va` by lines; addresses are taken modulo 2⁶⁴. -/
def lineParts (va : Dword) (n : Nat) : List (Nat × Nat) :=
  (unitsOf 128 va.toNat n).map fun i =>
    let lo := Nat.max va.toNat (128 * i)
    (lo % 2 ^ 64, Nat.min (va.toNat + n) (128 * (i + 1)) - lo)

/-- A miss or a ticket of the engine for this part of its work is outstanding. -/
def engPending (k : Core) (e : Eng) (id : Nat) : Bool :=
  k.misses.any (fun m => m.acc.path == e.path && m.acc.id == id) || k.tickets.any fun t => t.acc.path == e.path && t.acc.id == id
/-- The owner device and die of an identifier (R182). -/
def tidDev (tid : Word) : Nat := (tid.extractLsb' 28 4).toNat
def tidDie (tid : Word) : Nat := (tid.extractLsb' 26 2).toNat
def tidRec (k : Die) (tid : Word) : Option OwnRec :=
  k.own.find? fun r => r.index == (tid.extractLsb' 10 16).toNat && r.gen == tid.extractLsb' 0 10
/-- The replay is acknowledged: the page hold ends and the index is free (R183). -/
def ackReplay (s : State) (tid : Word) : State :=
  if tidDev tid ≠ s.pkg.val then s
  else s.modDie (tidDie tid) fun k => match tidRec k tid with
    | some r => { k with own := k.own.filter (·.index != r.index) }
    | none => k
/-- An engine's work has ended: it keeps no translations. -/
def endKept (s : State) (ci : Nat) (p : Path) : State := dropKept s ci fun e => e.path == p
/-- A part of an engine's work is done or has failed: its translations are no longer kept (R196). -/
def ER.fin {α : Type} (x : ER α) (e : Eng) (id : Nat) : ER α :=
  let drop := fun (s : State) => dropKept s e.ci fun k => k.path == e.path && k.id == id
  match x with
  | .ok s v => .ok (drop s) v
  | .fail s st => .fail (drop s) st
  | .wait s => .wait s
/-- The translation of an address for a part of an engine's work: the one that it has kept, or one that it keeps from now on (R196,
R197). -/
def engXlat (s : State) (e : Eng) (id : Nat) (va : Dword) : State × Option Xlat :=
  match (s.core e.ci).xkeep.find? fun k => k.path == e.path && k.id == id && k.x.covers e.pasid va.toNat with
  | some k => (s, some k.x)
  | none => match translate s e.ci e.pasid va with
    | (s, some x) => (keepXlat s e.ci ⟨e.path, id, x⟩, some x)
    | r => r
/-- A miss of an engine goes to the owner of the translation (R185). -/
def engMissOf (s : State) (e : Eng) (id : Nat) (pc : Dword) (va : Dword) (need : BitVec 3) (kind : AccKind) (lanes : List LaneAcc) : State :=
  s.modCore e.ci fun k =>
    let a : Access := ⟨id, e.path, kind, e.pasid, e.scr, false, pc, 0, .n8, .rlx, .warp, 0#8, none, lanes⟩
    { k with misses := k.misses ++ [⟨k.seq, a, va, need, false, none, .none⟩], seq := k.seq + 1 }
def engMiss (s : State) (e : Eng) (id : Nat) (pc : Dword) (va : Dword) (need : BitVec 3) : State :=
  match e.lane with
  | some (kind, l) => engMissOf s e id pc va need kind [l]
  | none => engMissOf s e id pc va need .row [⟨0, va, 1, 0, 0, .none, []⟩]

/-- The check of a translated part that the engine's core can make (R29, R30, R176, R289): DEV memory and the regions that
copies may not reach are denied. A write that a halted core's port holds back is neither accepted nor failed (R295). -/
def pieceCheck (s : State) (e : Eng) (need : BitVec 3) (p : Piece) : Option Byte :=
  if !permits p.x need e.scr then some stDenied
  else if p.x.home.isSome then none
  else if p.x.mt = mtTrk ∨ p.x.mt = mtUnt then (if isHbm p.pa then none else some stDenied)
  else if p.x.mt = mtHst ∨ p.x.mt = mtNibw then none
  else if p.x.mt = mtWin then
    match winSplit p.pa with
    | none => some stDenied
    | some (g, off) =>
      if !winFixed s g off p.n (if need = needRd then .load else .store) false false then some stDenied
      else if winHeld s g off p.n e.pasid false || (need = needW && (s.core g).holds) then none
      else match regionOf off 1 with
        | some (.rf, _) => some stRwclosed
        | _ => some stDenied
  else some stDenied

/-- Translates every part of a run and checks it by `chk`; misses are all sent to their owners, and the translations found are kept. -/
def engParts (s : State) (e : Eng) (id : Nat) (pc : Dword) (need : BitVec 3) (chk : State → Piece → Option Byte) :
    List (Nat × Nat) → ER (List Piece)
  | [] => .ok s []
  | (va, n) :: t =>
    let v := BitVec.ofNat 64 va
    if !canonical v then .fail s stDenied
    else
      let (s, x) := engXlat s e id v
      match x with
      | none => match engParts s e id pc need chk t with
        | .fail s st => .fail s st
        | .ok s _ | .wait s => .wait (engMiss s e id pc v need)
      | some x =>
        let p : Piece := ⟨x, va, n⟩
        match chk s p with
        | some st => .fail s st
        | none => (engParts s e id pc need chk t).bind fun s ps => .ok s (p :: ps)

/-! ### Bytes -/

/-- The engine waits at the slice of a line (R251): the request is made once, and stands for what it waits for last. -/
def engHold (s : State) (e : Eng) (line : Nat) (h : Hold) : State :=
  s.modDie (dieOfCore e.ci) fun k =>
    let mine := fun (w : SliceWait) => w.line == line && w.core == e.ci && w.acc.path == e.path
    if k.waits.any mine then { k with waits := updFirst mine (fun w => { w with hold := h }) k.waits }
    else { k with waits := k.waits ++ [⟨line, e.ci, ⟨0, e.path, .row, e.pasid, e.scr, false, 0#64, 0, .n8, .rlx, .warp, 0#8, none, []⟩,
                                        mtTrk, [line * 128], h⟩] }

/-- The number of a source byte of a peer's answer, and its status (log 1). -/
def peerBytes (s : State) (va n : Nat) : List (Byte × Bool) :=
  (List.range n).map fun i => ((Config.peerValue s.tick (va + i)).setWidth 8, Config.peerBad s.tick (va + i))

/-- The bytes that `f` gives with the poison of their unit. -/
def byteList (n : Nat) (f : Nat → Byte × Bool) : List (Byte × Bool) := (List.range n).map f

/-- The part lies outside a twinned partition (R421). -/
def pieceOutside (s : State) (t : Twin) (p : Piece) : Bool := outside s t p.x [p.pa]
/-- The core keeps the latest write that its engines have read, for the FENCE that orders later accesses behind them (R233; log 17). -/
def engNote (s : State) (e : Eng) (line : Nat) : State := s.modCore e.ci fun k => { k with engHz := Nat.max k.engHz (s.mark line).at_ }
/-- An engine's write to a line, which carries no release (R233; log 17). -/
def engMark (s : State) (e : Eng) (line : Nat) : State :=
  let s := s.noteMark line 0
  s.modCore e.ci fun k => { k with engHz := Nat.max k.engHz s.writes }
/-- What a peer device turns an access of an engine away with, by its status: one of R184; of a write, that a nib there
refuses it or that the window slot is closed; that the place is not admitted there (R292, R293, R339; log 1). -/
def peerRefusal (s : State) (p : Piece) (need : BitVec 3) : Option Byte :=
  let n := (Config.peerStatus s.tick).toNat
  if 0 < n && n ≤ 6 then some (stTicket (Config.peerStatus s.tick))
  else if n = 7 && need = needW && p.x.mt = mtNibw then some stNibrefused
  else if n = 7 && need = needW && p.x.mt = mtWin then some stRwclosed
  else if n = 8 then some stDenied
  else none
/-- A peer turns an access of an engine away: with a fault ticket, for which the engine waits (R179), or with a status (R184). One to a
device that no path reaches waits until it ends with LINKLOST (R416). -/
def engPeer {α : Type} (s : State) (e : Eng) (p : Piece) (need : BitVec 3) (go : ER α) : ER α :=
  if p.x.home.any fun d => unreachable s d.val then (if Config.coin s.tick then .fail s (stTicket stLinklost) else .wait s)
  else if Config.coin s.tick then .wait (engMiss s e e.id e.pc (BitVec.ofNat 64 p.va) need)
  else match peerRefusal s p need with
    | some st => .fail s st
    | none => go
/-- The bytes of a line of TRK memory as the L2 of die `d` holds it. -/
def trkBytes (s : State) (d pa n : Nat) : List (Byte × Bool) :=
  let own := (((s.die d).tag? (lineOf pa)).map (·.pois)).getD 0#2
  byteList n fun i => (tabGet 0#8 s.hbm (pa + i), setHas s.hbmPois ((pa + i) / 64) || own.getLsbD ((pa + i) / 64 % 2))
/-- The bytes of a die's copy of an UNT line. -/
def untBytes (u : UntCopy) (pa n : Nat) : List (Byte × Bool) :=
  byteList n fun i => (BitVec.ofNat 8 (dataAt u.data (pa % 128 + i) 1), poisIn u.pois (pa % 128 + i) 1)
/-- Reads one part at another device: this die's copy of a line serves it, or the peer grants the line (R241, R251, R257). -/
def readPeer (s : State) (e : Eng) (p : Piece) : ER (List (Byte × Bool)) :=
  let d := dieOfCore e.ci
  let line := lineOf p.pa
  let go := fun (s : State) (bs : State → List (Byte × Bool)) =>
    if peerCopy s d p.pa then ER.ok s (bs s)
    else engPeer s e p needRd (if p.x.mt = mtTrk then match peerGrant s d line false with
        | some s => .ok s (bs s)
        | none => .wait s
      else let s := peerUnt s d line; .ok s (bs s))
  let note := fun (s : State) (bs : List (Byte × Bool)) => ER.ok (engNote s e line) bs
  if p.x.mt = mtTrk then (go s fun s => trkBytes s d p.pa p.n).bind note
  else if p.x.mt = mtUnt then (go s fun s => untBytes (untFill s d line).2 p.pa p.n).bind note
  else engPeer s e p needRd (note s (peerBytes s p.va p.n))
/-- Takes the answer of a nib to a read of the engine that has waited there. -/
def takeGot (s : State) (e : Eng) (pa : Nat) : Option (State × List (Byte × Bool)) :=
  let mine := fun (g : EngGot) => g.path == e.path && g.pa == pa
  ((s.core e.ci).engGot.find? mine).map fun g =>
    (s.modCore e.ci fun k => { k with engGot := k.engGot.erase g }, g.bytes)
/-- A read of the engine waits at the nib. -/
def engWaits (s : State) (e : Eng) (g ni pa : Nat) : Bool :=
  ((s.core g).nib ni).loads.any fun l => l.core == e.ci && l.acc.path == e.path && l.pas == [pa]
/-- Reads bytes of one slot of a trace window: a slot that holds no result makes the read wait at the nib, which answers it once
(R343). -/
def readTrace (s : State) (e : Eng) (pa n : Nat) : ER (List (Byte × Bool)) :=
  match takeGot s e pa with
  | some (s, bs) => .ok (engNote s e (lineOf pa)) bs
  | none => match nibWindow s pa n with
    | none => .fail s (stTicket stNomap)
    | some (b, _, trace, g, ni) =>
      if !trace then .fail s (stTicket stPerm)
      else if engWaits s e g ni pa then .wait s
      else match traceRead (s.core g) ni (coreSource s e.ci) (pa - b) n with
        | .perm => .fail s (stTicket stPerm)
        | .bytes bs => .ok (engNote s e (lineOf pa)) bs
        | .wait =>
          let x := (s.core g).nib ni
          let sl := (pa - b) / Nat.max 1 x.tsz
          if nibBits x.desc 292 16 = 0 then .ok (s.modCore g (·.modNib ni (·.noteNr sl))) (byteList n fun _ => (0#8, true))
          else
            let a : Access := ⟨0, e.path, .row, e.pasid, e.scr, false, e.pc, 0, .n8, .rlx, .warp, 0#8, none, [⟨0, 0#64, n, 0, 0, .none, []⟩]⟩
            .wait (s.modCore g (·.modNib ni fun x => { x with loads := x.loads ++ [NibLoad.mk e.ci a [pa] sl] }))
def readTraces (s : State) (e : Eng) : List (Nat × Nat) → ER (List (Byte × Bool))
  | [] => .ok s []
  | (pa, n) :: t => (readTrace s e pa n).bind fun s a => (readTraces s e t).bind fun s b => .ok s (a ++ b)
/-- Reads one part at this device or at its home: its bytes with their poison (R86). -/
def readHere (s : State) (e : Eng) (p : Piece) : ER (List (Byte × Bool)) :=
  let d := dieOfCore e.ci
  let line := lineOf p.pa
  if p.x.home.isSome then readPeer s e p
  else if p.x.mt = mtTrk then
    match l2Read s d line with
    | .error h => .wait (engHold s e line h)
    | .ok (s, _) => .ok (engNote s e line) (trkBytes s d p.pa p.n)
  else if p.x.mt = mtUnt then
    if untSnoop s d line .load then .wait (engHold s e line .snoop)
    else
      let (s, u) := untFillFor s e.ci line
      .ok (engNote s e line) (untBytes u p.pa p.n)
  else if p.x.mt = mtHst then
    if !s.port.hpcap.getLsbD 15 then .fail s (stTicket stLinklost)
    else if Config.hostErr s.tick then .fail s (stTicket stHostfail)
    else .ok (engNote s e (hostMark line)) (byteList p.n fun i => (tabGet 0#8 s.hostMem (p.pa + i), false))
  else if p.x.mt = mtNibw then readTraces s e (nibRuns s p.pa p.n)
  else match winSplit p.pa with
    | none => .fail s stDenied
    | some (g, off) =>
      let s := s.winSee g off p.n
      .ok (engNote s e line) (byteList p.n fun i => let r := winRead s g (off + i) 1; (BitVec.ofNat 8 r.1, r.2))

/-- The secondary of a twinned partition waits for the primary's bytes of an outside part, which it asks for once (R423). -/
def readSecond (s : State) (e : Eng) (t : Twin) (p : Piece) : ER (List (Byte × Bool)) :=
  match takeGot s e p.pa with
  | some (s, bs) => .ok (engNote s e (lineOf p.pa)) bs
  | none =>
    if s.remotes.any fun r => r.core == e.ci && r.acc.path == e.path && r.pas == [p.pa] then .wait s
    else
      let a : Access := ⟨e.id, e.path, .row, e.pasid, e.scr, false, e.pc, 0, .n8, .rlx, .warp, 0#8, none, [⟨0, BitVec.ofNat 64 p.va, p.n, 0, 0, .none, []⟩]⟩
      .wait (addRemote s e.ci a p.x.mt [p.pa] t.partner)
/-- Reads one part; of a twinned partition, the primary reads an outside part and sends its bytes to the secondary (R423). -/
def readPiece (s : State) (e : Eng) (p : Piece) : ER (List (Byte × Bool)) :=
  match twinOf s e.pasid e.ci with
  | none => readHere s e p
  | some t =>
    if !pieceOutside s t p then readHere s e p
    else if t.second then readSecond s e t p
    else (readHere s e p).bind fun s bs => .ok (twinSend s t e.ci) bs

/-- Poison of a store of bytes, each with its own, into units of `u` bytes (R86). -/
def poisBytes (u : Nat) (pois : List Nat) (a : Nat) (bs : List (Byte × Bool)) : List Nat :=
  (unitsOf u a bs.length).foldl (fun q i =>
    let mine := (bs.zip (List.range bs.length)).filter fun e => (a + e.2) / u == i
    if mine.any (·.1.2) then setAdd q i else if mine.length = u then setDel q i else q) pois

/-- Units of at most `u` bytes of a run: bytes that no boundary of `u` parts. -/
def unitRuns (u : Nat) (a : Nat) (bs : List (Byte × Bool)) : List (Nat × List (Byte × Bool)) :=
  (unitsOf u a bs.length).map fun i =>
    let lo := Nat.max a (u * i)
    (lo, (bs.drop (lo - a)).take (Nat.min (a + bs.length) (u * (i + 1)) - lo))

/-- Writes a core's window, unit by unit of its region. -/
def winPut (tick : Nat) (k : Core) (off : Nat) (bs : List (Byte × Bool)) : Core :=
  k.winMeet tick off bs.length fun k => match regionOf off 1 with
  | some (.spad, o) => { k with spad := wrBytes k.spad o (bs.map (·.1)), spadPois := poisBytes 64 k.spadPois o bs }
  | some (.ob, o) => { k with ob := wrBytes k.ob o (bs.map (·.1)), obPois := poisBytes 64 k.obPois o bs }
  | _ => (unitRuns 4 off bs).foldl (fun k r => k.winWrite r.1 r.2.length (leNat (r.2.map (·.1))) (r.2.any (·.2))) k

/-- Writes bytes to a TRK line at its slice; the core is acknowledged later (R245). -/
def writeTrk (s : State) (e : Eng) (p : Piece) (bs : List (Byte × Bool)) : ER Unit :=
  let line := lineOf p.pa
  match (match limHeld s line with | some w => Except.error (Hold.ltlim w) | none => storeTrk s e.ci line) with
  | .error h => .wait (engHold s e line h)
  | .ok (s, w) =>
    let s := engMark { s with hbm := wrBytes s.hbm p.pa (bs.map (·.1)), hbmPois := poisBytes 64 s.hbmPois p.pa bs } e line
    .ok (engWrite s e.ci w (lineUpd s line)) ()
/-- Writes bytes to the die's copy of an UNT line, in units of its halves. -/
def writeUnt (s : State) (e : Eng) (p : Piece) (bs : List (Byte × Bool)) : State :=
  engMark ((unitRuns 64 p.pa bs).foldl (fun s r =>
    untWrite s (dieOfCore e.ci) (lineOf p.pa) (r.1 % 128) r.2.length (leNat (r.2.map (·.1))) (r.2.any (·.2))) s) e (lineOf p.pa)
/-- Writes one part at another device: this die writes a line that it owns, or the peer grants it; what the peer itself takes is
acknowledged with this die's FWC (R245, R251, R256). -/
def writePeer (s : State) (e : Eng) (p : Piece) (bs : List (Byte × Bool)) : ER Unit :=
  let d := dieOfCore e.ci
  let line := lineOf p.pa
  if p.x.mt = mtTrk then
    if (((s.die d).tag? line).map (·.st)) == some .owner then writeTrk s e p bs
    else engPeer s e p needW (match peerGrant s d line true with
      | some s => writeTrk s e p bs
      | none => .wait s)
  else if p.x.mt = mtUnt then
    if ((s.die d).unt? line).isSome then .ok (writeUnt s e p bs) ()
    else engPeer s e p needW (.ok (writeUnt (peerUnt s d line) e p bs) ())
  else engPeer s e p needW (.ok (engWrite (engMark s e line) e.ci none none) ())
/-- Stores units of at most `u` bytes to nib windows, in order: a refusal, or a place in no bound window, ends it (R335, R339). -/
def writeNib (s : State) (e : Eng) : List (Nat × List (Byte × Bool)) → ER Unit
  | [] => .ok s ()
  | (pa, bs) :: t => match nibWindow s pa bs.length with
    | none => .fail s (stTicket stNomap)
    | some (b, _, trace, g, ni) =>
      let r := if trace then traceStore (s.core g) ni (coreSource s e.ci) (pa - b)
        else strokeRun (s.core g) ni (coreSource s e.ci) (pa - b) bs
      let s := s.setCore g r.1
      if r.2 then .fail s stNibrefused else writeNib s e t
/-- Writes one part; `u` is the unit of R289. A halted core's window port holds the engine back (R295). -/
def writePiece (s : State) (e : Eng) (u : Nat) (p : Piece) (bs : List (Byte × Bool)) : ER Unit :=
  let d := dieOfCore e.ci
  let line := lineOf p.pa
  if p.x.home.isSome then writePeer s e p bs
  else if p.x.mt = mtTrk then writeTrk s e p bs
  else if p.x.mt = mtUnt then
    if untSnoop s d line .store then .wait (engHold s e line .snoop)
    else .ok (writeUnt (untFillFor s e.ci line).1 e p bs) ()
  else if p.x.mt = mtHst then
    let s := engMark { s with port := { s.port with hpwSeq := s.port.hpwSeq + 1 } } e (hostMark line)
    .ok (if s.port.hpcap.getLsbD 15 then { s with hostMem := wrBytes s.hostMem p.pa (bs.map (·.1)) } else s) ()
  else if p.x.mt = mtNibw then writeNib s e (unitRuns u p.pa bs)
  else match winSplit p.pa with
    | none => .fail s stDenied
    | some (g, off) =>
      if (s.core g).holds then .wait (s.modCore g fun k => { k with bpEng := if k.bpEng.contains (e.ci, e.path) then k.bpEng else k.bpEng ++ [(e.ci, e.path)] })
      else .ok ((engMark s e line).modCore g (winPut s.tick · off bs)) ()

/-- Reads every part. -/
def readPieces (s : State) (e : Eng) : List Piece → ER (List (Byte × Bool))
  | [] => .ok s []
  | p :: t => (readPiece s e p).bind fun s a => (readPieces s e t).bind fun s b => .ok s (a ++ b)
/-- Writes every part. -/
def writePieces (s : State) (e : Eng) (u : Nat) : List Piece → List (Byte × Bool) → ER Unit
  | [], _ => .ok s ()
  | p :: t, bs => (writePiece s e u p (bs.take p.n)).bind fun s _ => writePieces s e u t (bs.drop p.n)

/-- Translates and reads a run of bytes: the engine holds while a ticket of this part of its work is outstanding. -/
def engRead (s : State) (e : Eng) (id : Nat) (pc va : Dword) (n : Nat) : ER (List (Byte × Bool)) :=
  let e := { e with id := id, pc := pc }
  if engPending (s.core e.ci) e id then .wait s
  else ER.fin ((engParts s e id pc needRd (pieceCheck · e needRd ·) (lineParts va n)).bind fun s ps => readPieces s e ps) e id

/-- The loads that wait at a core's nibs in another state, and the engines that its window port holds back there. -/
def keepLoads (k t : Core) : Core :=
  let k := { k with bpEng := t.bpEng }
  if t.nibs.toList.all (·.loads.isEmpty) then k
  else { k with nibs := Vector.ofFn fun i => { k.nibs[i] with loads := t.nibs[i].loads, nrcnt := t.nibs[i].nrcnt, lastNr := t.nibs[i].lastNr } }
/-- Keeps what holds an engine back, and nothing else, of work that could not be done whole: the misses, the slice
requests and the waits at nibs of `t` in the state `s`. -/
def keepWaits (s t : State) (ci : Nat) : State :=
  let k := t.core ci
  let s := { s with cores := Vector.ofFn fun i => keepLoads s.cores[i] t.cores[i], remotes := t.remotes, remSeq := t.remSeq }
  let s := s.modCore ci fun c => { c with misses := k.misses, seq := k.seq, tlb := k.tlb, xkeep := k.xkeep }
  s.modDie (dieOfCore ci) fun d => { d with waits := (t.die (dieOfCore ci)).waits, quads := (t.die (dieOfCore ci)).quads }
/-- An engine's part of its work has ended: nothing waits at a nib, at a window port or at a twin's primary for it, and no answer is left
(R343). -/
def dropGot (s : State) (ci : Nat) (p : Path) : State :=
  let mine := fun (l : NibLoad) => l.core == ci && l.acc.path == p
  let s := { s with cores := s.cores.map fun (k : Core) =>
      let k := if k.bpEng.contains (ci, p) then { k with bpEng := k.bpEng.erase (ci, p) } else k
      if k.nibs.toList.any (·.loads.any mine)
      then { k with nibs := k.nibs.map fun (x : Nib) => { x with loads := x.loads.filter (!mine ·) } } else k,
                    remotes := s.remotes.filter fun r => !(r.core == ci && r.acc.path == p) }
  s.modCore ci fun k => { k with engGot := k.engGot.filter (·.path != p) }

end Sys2Proof.Machine
end

