-- ==== Sys2Proof/Machine/Memory.lean ====
section
/-! DEFINITION. The memory family (09 R202-R224): loads, stores, atomics, fences, leases and tickets as a warp sees them. -/

namespace Sys2Proof.Machine

/-! ### Operands (R204) -/

/-- A base or address in A: a pair, a scalar or a special register. -/
def opdBase (a : Reg) : Opd := { r := a, adm := ⟨true, true, true, false, false⟩, n := 2 }
/-- An index in B. -/
def opdIndex (b : Reg) : Opd := { r := b, adm := ⟨true, true, true, false, false⟩ }
/-- An operand of an atomic, at TYPE's width. -/
def opdData (t : Ty) (b : Reg) : Opd := { r := b, adm := ⟨true, true, true, false, false⟩, n := regsOf t }
/-- A destination: a vector register, a pair or a scalar. -/
def opdLd (t : Ty) (d : Reg) : Opd := { r := d, adm := admVS, dst := true, src := false, n := regsOf t }
def isVec : Reg → Bool
  | .v _ => true
  | _ => false
def isQueue : Reg → Bool
  | .q _ => true
  | _ => false

/-- A destination of an atomic: a vector register, a pair, a scalar or, below 64 bits, a queue (R41, R43). -/
def opdOld (t : Ty) (d : Reg) : Opd := { r := d, adm := admDst, dst := true, src := false, n := regsOf t, noQ := is64 t }

/-- EA of a lane: base, index, offset. -/
def Ctx.ea (k : Ctx) (a b : Reg) (off : Word) (l : Nat) : Dword :=
  k.src64 a l + (BitVec.ofNat 64 (k.rd b l 32)) + off.signExtend 64
/-- EAat of a lane. -/
def Ctx.eaAt (k : Ctx) (a : Reg) (off : BitVec 28) (l : Nat) : Dword := k.src64 a l + off.signExtend 64

/-- The lanes for which a memory instruction makes an access: each active lane, or one for an instruction performed once. -/
def memLanes (k : Ctx) (once : Bool) : List Nat := if once then (lanesOf k.act).take 1 else lanesOf k.act
/-- Where a lane's value goes: the slots that its register maps to now, or a scalar (R185). -/
def destOf (k : Ctx) (t : Ty) (d : Reg) (l : Nat) : Dest :=
  match d with
  | .v n => .regs ((List.range (regsOf t)).map fun i => k.w.slot l (n.val + i))
  | .s n => .sreg n
  | .q n => .qlane n.val k.k.seq l
  | _ => .none
/-- The state in which an instruction with a queue destination has reserved its entry, whose inactive lanes hold 0
(R43, R211); any other destination reserves nothing. -/
def Ctx.reserve (k : Ctx) (d : Reg) : Ctx :=
  match d, k.g with
  | .q n, some g => { k with s := k.s.modCore k.ci fun x =>
      { x.push g.id n.val ⟨x.seq, Vector.replicate 32 0#32, 0#32, ~~~k.act⟩ with seq := x.seq + 1 } }
  | _, _ => k
/-- Four consecutive registers of a lane, as one number (R216). -/
def Ctx.quadVal (k : Ctx) (r : Reg) (l : Nat) : Nat :=
  match r with
  | .v n => (List.range 4).foldl (fun a i => a + (k.vget l (n.val + i)).toNat * 2 ^ (32 * i)) 0
  | _ => 0
def quadDest (k : Ctx) (r : Reg) (l : Nat) : Dest :=
  match r with
  | .v n => .regs ((List.range 4).map fun i => k.w.slot l (n.val + i))
  | _ => .none

/-! ### The frame of an access instruction -/

/-- The accesses of an instruction, one for each line that its lanes touch (R186). -/
def groupLines (mk : List LaneAcc → Access) : List LaneAcc → List Access
  | [] => []
  | l :: t =>
    let ln := fun (x : LaneAcc) => x.va.toNat / 128
    let keys := (l :: t).foldl (fun ks x => if ks.contains (ln x) then ks else ks ++ [ln x]) []
    keys.map fun q => mk ((l :: t).filter fun x => ln x == q)

/-- What an access of an instruction meets at issue. -/
inductive Found where
  | bad (lanes : List (Nat × Nat × Dword))   -- cause, lane, address
  | go (x : Xlat)
  | spad
  | miss

/-- The lanes that an access may not make. -/
def badLanes : Found → List (Nat × Nat × Dword)
  | .bad l => l
  | _ => []

/-- The lanes of the instruction that a lane access stands for: under ATOMR those of its group (R219). -/
def LaneAcc.all (l : LaneAcc) : List Nat := if l.grp.isEmpty then [l.lane] else l.grp.map (·.1)
/-- A cause in each lane of some lane accesses. -/
def badOf (ls : List (Nat × LaneAcc)) : Found := .bad (ls.flatMap fun e => e.2.all.map fun i => (e.1, i, e.2.va))
/-- The checks that the core makes of one access at issue (R30, R170, R176, R204, R205); an atomic that the host port does not carry is
known by its page, be it translated or not (R216, R217). -/
def lookup (s : State) (ci : Nat) (g : Option Wg) (a : Access) : State × Found :=
  if a.sp then
    let bad := a.lanes.filter fun l => match g with
      | some g => (spadAt s ci g l.va.toNat l.size).isNone
      | none => true
    (s, if bad.isEmpty then .spad else badOf (bad.map fun l => (cAccessDenied, l)))
  else
    let bad := a.lanes.filter fun l => !canonical l.va
    if !bad.isEmpty then (s, badOf (bad.map fun l => (cAccessDenied, l)))
    else match findXlat s ci a with
      | (s, none) =>
        (s, if hostBad s a && a.lanes.any (fun l => walk s (dieOfCore ci) a.pasid l.va == .host) then badOf (a.lanes.map fun l => (cAtomicUnsup, l)) else .miss)
      | (s, some x) =>
        let bad := a.lanes.filterMap fun l => (coreCheck s ci a x l).map fun c => (c, l)
        (s, if bad.isEmpty then .go x else badOf bad)

/-- Looks every access up. -/
def lookups (ci : Nat) (g : Option Wg) : State → List Access → State × List (Access × Found)
  | s, [] => (s, [])
  | s, a :: t =>
    let (s, f) := lookup s ci g a
    let (s, r) := lookups ci g s t
    (s, (a, f) :: r)

/-- The lowest cause among some lanes, with the lanes that raised it (R64). -/
def lowestCause (k : Ctx) (l : List (Nat × Nat × Dword)) : Option Cause :=
  match (l.map (·.1)).min? with
  | none => none
  | some c =>
    let mine := l.filter (·.1 == c)
    let m := maskOf fun i => mine.any (·.2.1 == i)
    let va := match (lanesOf m).head? with
      | some i => ((mine.find? (·.2.1 == i)).map (·.2.2)).getD 0#64
      | none => 0#64
    some (k.cause c m va)

/-- The accesses of an instruction would close the batch of a twinned warp, whose core's buffer is full (R422): a release, an outside
read or atomic, or the store that brings the 64th write. -/
def twinFull (s : State) (k : Ctx) (fs : List (Access × Found)) : Bool :=
  let far := fun (e : Access × Found) => match e.2, twinOf s k.w.pasid k.ci with
    | .go x, some t => outsideOf s t e.1 (some x)
    | _, _ => false
  !twinRoom s k.w.pasid k.ci && ((!k.w.held.isEmpty && fs.any fun e => rels e.1.ord || (e.1.kind != .store && far e))
    || 64 ≤ k.w.held.length + (fs.filter fun e => e.1.kind == .store && far e).length)

/-- STARTS THE ACCESSES of an instruction whose checks have passed: its operation counts on its flag (R49), then each line's
access is performed, waits behind older ones, or goes to the owner of its translation (R181, R191).
A release store of a twinned warp whose own writes are held back closes its batch with them (R422). -/
def startAccesses (c : Ctl) (long : Bool) (id n : Nat) (k : Ctx) (fs : List (Access × Found)) (s : State) : State :=
  let s := s.modWarp k.ci k.wi fun w =>
    let w := match long, flagOf k.w c with
      | true, some f => w.startOp f n false
      | _, _ => w
    { w with idNext := id + 1 }
  (fun s => sealBatch s k.ci k.wi) <| fs.foldl (fun s e => match e.2 with
    | .go x => place s k.ci k.wi ⟨e.1, some x⟩
    | .spad => place s k.ci k.wi ⟨e.1, none⟩
    | .miss => addMiss s k.ci e.1 none
    | .bad _ => s) s

/-- RUNS THE ACCESSES of an instruction: the checks of every lane first, then each line's access is performed, waits
behind older ones, or goes to the owner of its translation (R186, R191, R206). -/
def runAccess (c : Ctl) (kind : AccKind) (t : Ty) (sp : Bool) (ord : Order) (sc : Scope) (long : Bool)
    (lanes : List LaneAcc) (k : Ctx) : Res :=
  if lanes.isEmpty then .ok k.s
  else
    let (pc, pos) := k.w.here
    let op := if long then some (k.w.idNext) else none
    let id := if long then k.w.idNext + 1 else k.w.idNext
    let mk := fun (ls : List LaneAcc) =>
      Access.mk id (.lsu k.wi) kind k.w.pasid (k.wi == 31) sp pc pos t ord sc k.w.lease op ls
    let mis : List LaneAcc := match kind with
      | .cwb _ => []
      | _ => lanes.filter fun l => l.va.toNat % l.size != 0
    if !mis.isEmpty then
      match lowestCause k (mis.map fun l => (cMisaligned, l.lane, l.va)) with
      | some z => .trap z
      | none => .hold
    else
      let accs := groupLines mk lanes
      let (s, fs) := lookups k.ci k.g k.s accs
      let bad := (fs.map fun e => badLanes e.2).foldl (· ++ ·) []
      match lowestCause k bad with
      | some z => .trap z
      | none => if twinFull s k fs then .hold else .ok (startAccesses c long id accs.length k fs s)

/-! ### Loads and stores -/

/-- LD (R209): a scalar D is loaded once. -/
def execLd (m : MemOp) (s : State) : Out :=
  let sc := isScalar m.d
  runInstr s m.c sc true [opdLd m.ty m.d, opdBase m.a, opdIndex m.b] fun k =>
    runAccess m.c .load m.ty m.sp m.ord m.scope true
      ((memLanes k sc).map fun l => ⟨l, k.ea m.a m.b m.off l, tyWidth m.ty / 8, 0, 0, destOf k m.ty m.d l, []⟩) k
/-- ST (R210): performed once, for the lowest active lane, when no operand is a vector or a queue. -/
def execSt (m : MemOp) (s : State) : Out :=
  let once := !(isVec m.d || isQueue m.d || isVec m.a || isVec m.b)
  runInstr s m.c false false
    [{ r := m.d, adm := admSrc, n := regsOf m.ty, noQ := is64 m.ty }, opdBase m.a, opdIndex m.b] fun k =>
    runAccess m.c .store m.ty m.sp m.ord m.scope false
      ((memLanes k once).map fun l => ⟨l, k.ea m.a m.b m.off l, tyWidth m.ty / 8, k.bits m.ty m.d l, 0, .none, []⟩) k
/-- LDQ (R211): the next entry of the queue is reserved at issue; inactive lanes hold 0. -/
def execLdq (m : MemOp) (s : State) : Out :=
  runInstr s m.c false true
    [{ r := m.d, adm := ⟨false, false, false, true, false⟩, dst := true, src := false }, opdBase m.a, opdIndex m.b] fun k =>
    runAccess m.c .load m.ty m.sp m.ord m.scope true
      ((memLanes k false).map fun l => ⟨l, k.ea m.a m.b m.off l, tyWidth m.ty / 8, 0, 0, destOf k m.ty m.d l, []⟩)
      (k.reserve m.d)
/-- The lanes whose address registers are poisoned. -/
def Ctx.badAddr (k : Ctx) (a b : Reg) : Mask := opdPoison k (opdBase a) ||| opdPoison k (opdIndex b)
/-- One lane of PRF: a lane that misses translation, lacks RD or is not of type TRK or UNT is dropped (R186, R212). -/
def prfLane (k : Ctx) (l2 : Bool) (va : Dword) (l : Nat) (s : State) : State :=
  let (pc, pos) := k.w.here
  let a := Access.mk k.w.idNext (.lsu k.wi) (.prf l2) k.w.pasid (k.wi == 31) false pc pos .n8 .rlx .warp k.w.lease none
    [⟨l, va, 1, 0, 0, .none, []⟩]
  if !canonical va then s
  else match translate s k.ci k.w.pasid va with
    | (s, none) => s
    | (s, some x) =>
      if !permits x needRd (k.wi == 31) || !(x.mt == mtTrk || x.mt == mtUnt) || !(x.home.isSome || isHbm (x.to va.toNat)) then s
      else performPrf s k.ci a x
/-- PRF (R212): a hint, which raises nothing from a lane's data; a poisoned address drops its lane. -/
def execPrf (o : HintOp) (l2 : Bool) (s : State) : Out :=
  runInstr s o.c false false [{ opdBase o.a with src := false }, { opdIndex o.b with src := false }] fun k =>
    if o.sp then .ok k.s
    else .ok (((lanesOf (k.act &&& ~~~k.badAddr o.a o.b)).foldl (fun s l => prfLane k l2 (k.ea o.a o.b o.off l) l s) k.s).modWarp k.ci k.wi
      fun w => { w with idNext := w.idNext + 1 })

/-! ### Atomics -/

/-- The operands of an atomic. -/
def opdAtom (o : AtomOp) : List Opd := [opdBase o.a, opdData o.ty o.b]
/-- ATOM (R214). -/
def execAtom (o : AtomOp) (aop : AOp) (d : Reg) (s : State) : Out :=
  let sc := isScalar d
  runInstr s o.c sc true (opdOld o.ty d :: opdAtom o) fun k =>
    runAccess o.c (.atom aop) o.ty o.sp o.ord o.scope true
      ((memLanes k sc).map fun l => ⟨l, k.eaAt o.a o.off l, tyWidth o.ty / 8, k.bits o.ty o.b l, 0, destOf k o.ty d l, []⟩) (k.reserve d)
/-- RED (R214): posted, ordered as a store. -/
def execRed (o : AtomOp) (aop : AOp) (s : State) : Out :=
  runInstr s o.c false false (opdAtom o) fun k =>
    runAccess o.c (.red aop) o.ty o.sp o.ord o.scope false
      ((memLanes k false).map fun l => ⟨l, k.eaAt o.a o.off l, tyWidth o.ty / 8, k.bits o.ty o.b l, 0, .none, []⟩) k
/-- CAS (R215): D holds the compare value, then the old value. -/
def execCas (o : AtomOp) (d : Reg) (s : State) : Out :=
  let sc := isScalar d
  runInstr s o.c sc true ({ opdLd o.ty d with src := true } :: opdAtom o) fun k =>
    runAccess o.c .cas o.ty o.sp o.ord o.scope true
      ((memLanes k sc).map fun l =>
        ⟨l, k.eaAt o.a o.off l, tyWidth o.ty / 8, k.bits o.ty o.b l, k.bits o.ty d l, destOf k o.ty d l, []⟩) k
/-- CAS2 (R216): 16 bytes a lane, in four consecutive vector registers. -/
def execCas2 (o : AtomOp) (d : Reg) (s : State) : Out :=
  runInstr s o.c false true
    [{ r := d, adm := admVec, dst := true, n := 4 }, opdBase o.a, { r := o.b, adm := admVec, n := 4 }] fun k =>
    runAccess o.c .cas2 .n64 o.sp o.ord o.scope true
      ((memLanes k false).map fun l => ⟨l, k.eaAt o.a o.off l, 16, k.quadVal o.b l, k.quadVal d l, quadDest k d l, []⟩) k

/-- The reduction that AOP is (R219). -/
def redOf : AOp → RedOp
  | .min => .min
  | .max => .max
  | .and => .and
  | .or => .or
  | .xor => .xor
  | .add | .exch => .add
/-- The lanes of ATOMR combined by address, each group under its lowest lane (R219). -/
def combine (t : Ty) (aop : AOp) (ls : List LaneAcc) : List LaneAcc :=
  let keys := ls.foldl (fun ks x => if ks.contains x.va then ks else ks ++ [x.va]) ([] : List Dword)
  keys.filterMap fun a =>
    let g := ls.filter (·.va == a)
    let vals := (List.range 32).map fun p => (g.find? (·.lane == p)).map (·.data)
    match g with
    | [] => none
    | x :: _ => some { x with data := (redTree t (redOf aop) .rne vals).1.getD 0, dest := .none,
                              grp := g.map fun y => (y.lane, y.data, y.dest) }
/-- ATOMR (R219). -/
def execAtomr (o : AtomOp) (aop : AOp) (d : Reg) (s : State) : Out :=
  let sc := isScalar d
  runInstr s o.c sc true (opdOld o.ty d :: opdAtom o) fun k =>
    let ls := (memLanes k sc).map fun l =>
      LaneAcc.mk l (k.eaAt o.a o.off l) (tyWidth o.ty / 8) (k.bits o.ty o.b l) 0 (destOf k o.ty d l) []
    runAccess o.c (.atomr aop) o.ty o.sp .rlx .warp true
      (if ls.any (fun l => l.va.toNat % l.size != 0 || (!o.sp && !canonical l.va)) then ls else combine o.ty aop ls) (k.reserve d)

/-! ### Fences, leases, write-back, tickets -/

/-- FENCE (R220): a release half holds the warp; an acquire half holds only what comes after it. -/
def execFence (c : Ctl) (_scope : Scope) (ord : Order) (st : BitVec 7) (path : BitVec 5) (s : State) : Out :=
  runInstr s c false false [] fun k =>
    if k.act = 0#32 then .ok k.s
    else if rels ord && !k.w.held.isEmpty && !twinRoom k.s k.w.pasid k.ci then .hold
    else
      let id := k.w.idNext
      if rels ord then
        let s := k.s.modWarp k.ci k.wi fun w => { w with idNext := id + 1, wait := .fence ord st path id }
        .ok (settle s k.ci k.wi)
      else
        let s := k.s.modWarp k.ci k.wi fun w => { w with idNext := id + 1, acqF := w.acqF ++ [(id, st, path)] }
        .ok (resolveFences s k.ci k.wi)
/-- LEASE (R221). -/
def execLease (c : Ctl) (n : BitVec 8) (s : State) : Out :=
  runInstr s c false false [] fun k =>
    if k.act = 0#32 then .ok k.s else .ok (k.s.modWarp k.ci k.wi fun w => { w with lease := n })
/-- CWB (R222). -/
def execCwb (o : HintOp) (flush : Bool) (s : State) : Out :=
  runInstr s o.c false false [opdBase o.a, opdIndex o.b] fun k =>
    runAccess o.c (.cwb flush) .n8 o.sp .rlx .warp false
      ((memLanes k false).map fun l => ⟨l, k.ea o.a o.b o.off l, 1, 0, 0, .none, []⟩) k
/-- TKWAIT (R223). -/
def execTkwait (c : Ctl) (s : State) : Out :=
  runInstr s c false false [] fun k =>
    if k.act = 0#32 then .ok k.s
    else .ok (settle (k.s.modWarp k.ci k.wi fun w => { w with wait := .tkwait }) k.ci k.wi)
/-- The snapshot of TKSTAT (R224). -/
def tkstatOf (k : Ctx) : Nat :=
  let mine := k.k.tickets.filter fun t => t.slot? == some k.wi
  let oldest := mine.foldl (fun (o : Option Ticket) t => match o with
    | some u => if t.acc.id < u.acc.id then some t else some u
    | none => some t) none
  let free := 64 - k.k.tickets.length - (k.k.misses.filter (·.kept.isSome)).length
  (((oldest.map (·.tid)).getD 0#32).toNat) * 2 ^ 16 + free * 2 ^ 8
    + (if k.w.causes.any (·.code == cTicketError) then 2 ^ 7 else 0) + k.k.tkCount k.wi % 128
/-- TKSTAT (R224): D is a scalar. -/
def execTkstat (c : Ctl) (d : Reg) (s : State) : Out :=
  runInstr s c true false [{ r := d, adm := admScalar, dst := true, src := false }] fun k =>
    if k.act = 0#32 then .ok k.s
    else .ok (writeLanes k.s k.ci k.wi .n64 d [(0, (tkstatOf k : Int))])

end Sys2Proof.Machine
end

