-- ==== Sys2Proof/Machine/Sync.lean ====
section
/-! DEFINITION. The sync family and its events (13 R272-R281): semaphores, chunk maps and the barriers of every level. -/

namespace Sys2Proof.Machine

/-! ### Operands -/

/-- An operand of a warp-uniform instruction: a scalar, or a special register that is not per lane (R280). -/
def opdUni (a : Reg) : Opd := { r := a, adm := admSS }
/-- A scalar destination. -/
def opdS (d : Reg) : Opd := { r := d, adm := admScalar, dst := true, src := false }
/-- A register as 64 bits, for an instruction performed once. -/
def Ctx.uni (k : Ctx) (a : Reg) : Dword := k.src64 a 0
def sregOf : Option Reg → Option (Fin 64)
  | some (.s n) => some n
  | _ => none

/-- An instruction performed once, when its guard is true in some active lane (R44). -/
def runOnce (s : State) (c : Ctl) (opds : List Opd) (body : Ctx → Res) : Out :=
  runInstr s c true false opds fun k => if k.act = 0#32 then .ok k.s else body k
/-- ILLEGAL_OPERAND of the issuing instruction. -/
def Ctx.ill (k : Ctx) : Res := .trap (k.cause cIllegalOperand k.act 0#64)

/-! ### Barriers (R275-R277) -/

/-- The barrier of a level that core `ci` names: a core barrier of `ci`, a quad barrier of its quad, and so on (R276). -/
def barGet (s : State) (ci : Nat) (lv : Scope) (n : Nat) : Bar :=
  match lv with
  | .core => ((s.core ci).bars[n]?).getD Bar.fresh
  | .quad => ((((s.die (dieOfCore ci)).quad (quadOfCore ci)).bars)[n]?).getD Bar.fresh
  | .die => (((s.die (dieOfCore ci)).bars[n]?).map (·.bar)).getD Bar.fresh
  | .pkg => ((s.pbars[n]?).map (·.bar)).getD Bar.fresh
  | .pod => ((s.podBars[n]?).map (·.bar)).getD Bar.fresh
  | _ => Bar.fresh
def WideBar.put (b : Bar) (w : WideBar) : WideBar := { w with bar := b }
def barPut (s : State) (ci : Nat) (lv : Scope) (n : Nat) (b : Bar) : State :=
  match lv with
  | .core => s.modCore ci fun k => { k with bars := k.bars.setIfInBounds n b }
  | .quad => s.modDie (dieOfCore ci) (·.modQuad (quadOfCore ci) fun q => { q with bars := q.bars.setIfInBounds n b })
  | .die => s.modDie (dieOfCore ci) fun d => { d with bars := d.bars.setIfInBounds n (((d.bars[n]?).getD WideBar.fresh).put b) }
  | .pkg => { s with pbars := s.pbars.setIfInBounds n (((s.pbars[n]?).getD WideBar.fresh).put b) }
  | .pod => { s with podBars := s.podBars.setIfInBounds n (((s.podBars[n]?).getD WideBar.fresh).put b) }
  | _ => s
/-- The workgroup holds a barrier of the level (R27, R266). -/
def barHeld (g : Option Wg) (lv : Scope) (n : Nat) : Bool :=
  match g with
  | none => false
  | some g => match lv with
    | .core => g.barMask.getLsbD n
    | .quad => g.qbarMask.getLsbD n
    | .die => g.dbarMask.getLsbD n
    | .pkg => g.pbarMask.getLsbD n
    | .pod => g.podMask.getLsbD n
    | _ => false
/-- An arrival of `n` (R275): an excess carries into the next phase; its flags join the current phase (R83). The phases that end
leave no flags of older phases of their numbers. -/
def Bar.arrive (b : Bar) (n : Nat) (f : Flags5) (rel : Nat) : Bar :=
  let c := b.count + n
  let b := { b with cur := b.cur ||| f, hz := Nat.max b.hz rel }
  let e := Nat.max 1 b.expect
  if c < e then { b with count := c }
  else
    let past := b.done.filter fun d => c / e ≤ (d.1 - b.phase).toNat
    { b with count := c % e, phase := b.phase + BitVec.ofNat 32 (c / e), done := if b.cur = 0#5 then past else (b.phase, b.cur) :: past, cur := 0#5 }
/-- The flags of the phase numbered `p`, which a BARWAIT with that token ends on (R83). -/
def Bar.flagsOf (b : Bar) (p : Word) : Flags5 := ((b.done.find? (·.1 == p)).map (·.2)).getD 0#5
/-- BARWAIT with a token ends (R275). -/
def Bar.met (b : Bar) (tok : Word) : Bool := 1 ≤ (b.phase - tok).toNat && (b.phase - tok).toNat < 2 ^ 31
/-- The cores whose warps may wait on a barrier. -/
def barCores (ci : Nat) : Scope → List Nat
  | .core => [ci]
  | .quad => quadCores ci
  | .die => (List.range 96).map (· + dieOfCore ci * 96)
  | _ => List.range 384
/-- An arrival of the warp on the barrier is still on its way (R281). -/
def ownArrival (s : State) (ci slot : Nat) (lv : Scope) (n : Nat) : Bool :=
  s.arrivals.any fun a => a.core == ci && a.tgt == ci && a.level == lv && a.n == n && (a.warp.map (·.1)) == some slot
/-- Ends the BARWAITs of one core that a barrier's phase satisfies. -/
def wakeCore (s : State) (ci : Nat) (lv : Scope) (n : Nat) (b : Bar) : State :=
  (List.range 32).foldl (fun s i => match s.warp? ci i with
    | some w => match w.wait with
      | .bar lv' n' tok lanes =>
        if lv' = lv ∧ n' = n ∧ b.met tok ∧ !ownArrival s ci i lv n ∧ !(s.core ci).waitHeld i then
          (s.modWarp ci i fun w => (lanesOf lanes).foldl (fun w l => w.orFlags l (b.flagsOf tok)) { w with wait := .none }).modCore ci
            fun k => { k with hz := Nat.max k.hz b.hz }
        else s
      | _ => s
    | none => s) s
def wakeBar (s : State) (ci : Nat) (lv : Scope) (n : Nat) : State :=
  (barCores ci lv).foldl (fun s c => if (s.core c).wgs.isEmpty then s else wakeCore s c lv n (barGet s c lv n)) s
/-- Device 0 of the pod, whose walker of die 0 keeps the pod barriers, tells the other devices how one stands (R276; log 107). -/
def podTell (s : State) : State :=
  if s.pkg.val ≠ 0 then s
  else ((List.range 16).filter fun d => d != 0 && !unreachable s d).foldl (fun s d => originate s ⟨unitSource s 0 146, BitVec.ofNat 4 d, 2#3⟩) s
/-- An arrival at a pod barrier of this device, which is device 0 of the pod. -/
def podArrive (s : State) (n count rel : Nat) : State :=
  let b := barGet s 0 .pod n
  let s := wakeBar (barPut s 0 .pod n (b.arrive count 0#5 rel)) 0 .pod n
  if (barGet s 0 .pod n).phase = b.phase then s else podTell s
/-- A BARWAIT of a warp is examined again: its warp has come back, or its tickets are done (R234, R275). -/
def settleBar (s : State) (ci slot : Nat) : State :=
  match s.warp? ci slot with
  | none => s
  | some w => match w.wait with
    | .bar lv n _ _ => wakeCore s ci lv n (barGet s ci lv n)
    | _ => s

/-- The release half of a posted operation is done: nothing older of the warp is under way, its posted writes to the sync unit
among it, and no batch of it waits (R210, R231, R279, R422). -/
def relReady (s : State) (ci slot id : Nat) : Bool :=
  match s.warp? ci slot with
  | none => true
  | some w => (pendTickets (s.core ci) slot).all (fun a => id ≤ a.id) && w.deferred.all (fun d => id ≤ d.acc.id) && w.held.all (fun d => id ≤ d.acc.id)
      && w.out.all (fun o => id ≤ o.id) && w.posted.all (fun p => id ≤ p.id) && !batchPending s ci slot
      && (s.core ci).syncQ.all fun m => m.slot != slot || id ≤ m.id

/-- An arrival that RMT, the PASIDs or the holder of the barrier turn away is dropped (R277). -/
def rbarOk (s : State) (a : Arrival) : Bool :=
  a.tgt < 384 && !s.fuses.off.contains a.tgt && (((s.core a.tgt).bars[a.n]?).map (·.rmt)).getD false
    && (s.core a.tgt).wgs.any fun g => g.pasid == a.pasid && g.barMask.getLsbD a.n

/-- What a release arrival publishes as it reaches its barrier (R232, R279; log 17). -/
def arriveRel (s : State) (a : Arrival) : Nat :=
  match a.warp with
  | some (slot, _) => if a.rel then s.published a.core slot else 0
  | none => 0
/-- An arrival may reach its barrier: its release half is done, and no acquire of its warp is pending (R231, R279). -/
def arrivalReady (s : State) (a : Arrival) : Bool :=
  match a.warp with
  | some (slot, id) => (!a.rel || relReady s a.core slot id) && !(s.core a.core).acqPend slot id
  | none => true
/-- RET's D takes the PHASE before the arrival (R275). -/
def arrivalRet (s : State) (a : Arrival) (phase : Word) : State :=
  match a.ret, a.warp with
  | some d, some (slot, _) => s.modWarp a.core slot fun w =>
      { w.sput d.val (phase.setWidth 64) false with sbPend := w.sbPend.erase d.val }
  | _, _ => s
/-- BARRIER_ARRIVAL: the arrival numbered `index` reaches its barrier (R275-R277, R281); one at a pod barrier goes to device 0, whose answer
gives the PHASE before it, a free value here (R276; logs 1, 107). -/
def execBarrierArrival (index : Nat) (s : State) : Out :=
  match s.arrivals[index]? with
  | none => .next s
  | some a =>
    if !arrivalReady s a then .next s
    else
      let s := { s with arrivals := s.arrivals.eraseIdx index }
      let b := barGet s a.tgt a.level a.n
      if a.rmt && !rbarOk s a then .next (s.modCore a.core fun k => { k with rbref := k.rbref + 1 })
      else if a.level == .pod && s.pkg.val != 0 then
        .next (arrivalRet (originate s ⟨coreSource s a.core, 0#4, 0#3⟩) a ((Config.peerValue s.tick a.n).setWidth 32))
      else if a.level == .pod then .next (podArrive (arrivalRet s a b.phase) a.n a.count (arriveRel s a))
      else
        let s := barPut s a.tgt a.level a.n (b.arrive a.count a.flags (arriveRel s a))
        .next (wakeBar (arrivalRet s a b.phase) a.tgt a.level a.n)

/-! ### The posted writes (R272, R274, R281) -/

/-- Group `g` of a map replaced. -/
def cmPutGroup (v : BitVec 512) (g : Nat) (x : Dword) : BitVec 512 :=
  (v &&& ~~~((0xFFFFFFFFFFFFFFFF#512) <<< (64 * g))) ||| (x.setWidth 512 <<< (64 * g))
/-- A write reaches the sync unit. -/
def Core.syncApply (k : Core) (n : Nat) : SyncOp → Core
  | .semSet v => k.semPut n v
  | .semInc v => k.semPut n (satAdd ((k.sems[n]?).getD 0#32) v)
  | .cmSet g v => k.cmPut n (cmPutGroup ((k.cmaps[n]?).getD 0#512) g (k.cmGroup n g ||| v))
  | .cmClr g v => k.cmPut n (cmPutGroup ((k.cmaps[n]?).getD 0#512) g (k.cmGroup n g &&& ~~~v))
/-- A posted write may reach the sync unit: its release half is done, every older acquire of its warp is performed, and no older write
of its warp to its location is on its way (R231, R279). -/
def syncReady (s : State) (core : Nat) (m : SyncMsg) : Bool :=
  (!m.rel || relReady s core m.slot m.id) && !(s.core core).acqPend m.slot m.id
    && !(s.core core).syncQ.any fun x => x.slot == m.slot && x.loc == m.loc && x.id < m.id
/-- SYNC_WRITE: the oldest posted write of the core that may reach the sync unit does; waiters are examined again (R272, R273). -/
def execSyncWrite (core : Nat) (s : State) : Out :=
  match (s.core core).syncQ.find? (syncReady s core) with
  | none => .next s
  | some m =>
    let rel := if m.rel then s.published core m.slot else 0
    .next (s.modCore core fun k => { k with syncQ := k.syncQ.erase m, syncHz := Nat.max k.syncHz rel }.syncApply m.n m.op)

/-- A release of the sync family closes the batch of a twinned warp, at once where every older access has joined it (R422; log 48). -/
def closeRel (k : Ctx) (rel : Bool) : State :=
  if rel && (pendTickets k.k k.wi).isEmpty && k.w.deferred.isEmpty && twinRoom k.s k.w.pasid k.ci then closeBatch k.s k.ci k.wi else k.s
/-- Posts a write to the sync unit. -/
def postSync (k : Ctx) (sc : Scope) (n : Nat) (op : SyncOp) : Res :=
  let s := (closeRel k (sc != .warp)).modCore k.ci fun x => { x with syncQ := x.syncQ ++ [SyncMsg.mk k.wi k.w.idNext (sc != .warp) n op] }
  .ok (s.modWarp k.ci k.wi fun w => { w with idNext := w.idNext + 1 })
def semHeld (g : Option Wg) (n : Nat) : Bool := match g with | some g => g.semMask.getLsbD n | none => false
def cmHeld (g : Option Wg) (n : Nat) : Bool := match g with | some g => g.cmMask.getLsbD n | none => false

/-! ### The sync instructions (R280, R281) -/

/-- SEMSET. -/
def execSemset (c : Ctl) (sc : Scope) (a : Reg) (n : BitVec 6) (s : State) : Out :=
  runOnce s c [opdUni a] fun k =>
    if !semHeld k.g n.toNat then k.ill else postSync k sc n.toNat (.semSet ((k.uni a).setWidth 32))
/-- SEMINC. -/
def execSeminc (c : Ctl) (sc : Scope) (a : Amt16) (n : BitVec 6) (s : State) : Out :=
  runOnce s c (match a with | .reg r => [opdUni r] | .imm _ => []) fun k =>
    if !semHeld k.g n.toNat then k.ill
    else postSync k sc n.toNat (.semInc (match a with | .reg r => (k.uni r).setWidth 32 | .imm v => v.setWidth 32))
/-- SEMWAIT: it joins the waiters and ends at once where its condition holds (R273). -/
def execSemwait (c : Ctl) (dec : Bool) (d : Option Reg) (a : Reg) (n : BitVec 6) (s : State) : Out :=
  runOnce s c ((d.toList.map opdS) ++ [opdUni a]) fun k =>
    if !semHeld k.g n.toNat then k.ill
    else
      let thr := (k.uni a).setWidth 32
      let s := k.s.modWarp k.ci k.wi fun w => { w with wait := .sem n.toNat thr dec (sregOf d) w.idNext, idNext := w.idNext + 1 }
      .ok (s.modCore k.ci fun x => { x with semQ := x.semQ ++ [SemWait.mk n.toNat k.wi thr dec] }.semExam n.toNat)
/-- BARINIT: PHASE and the waiters are kept (R276). -/
def execBarinit (c : Ctl) (lv : Scope) (rmt : Bool) (a : Reg) (n : BitVec 6) (s : State) : Out :=
  runOnce s c [opdUni a] fun k =>
    let v := (k.uni a).toNat
    if !barHeld k.g lv n.toNat || v = 0 || 65535 < v then k.ill
    else .ok (barPut k.s k.ci lv n.toNat { barGet k.s k.ci lv n.toNat with expect := v, count := 0, rmt := rmt })
/-- BARARR: posted, a release at the barrier's level; under RET D receives PHASE before the arrival. -/
def execBararr (c : Ctl) (lv : Scope) (d : Option Reg) (n : BitVec 6) (count : BitVec 10) (s : State) : Out :=
  runOnce s c (d.toList.map opdS) fun k =>
    if !barHeld k.g lv n.toNat then k.ill
    else
      let s := closeRel k true
      let a : Arrival := ⟨k.ci, lv, k.ci, n.toNat, count.toNat, k.w.wg, some (k.wi, k.w.idNext), true, sregOf d, false, k.w.pasid, 0#5⟩
      .ok ({ s with arrivals := s.arrivals ++ [a] }.modWarp k.ci k.wi fun w =>
        { w with idNext := w.idNext + 1, sbPend := w.sbPend ++ (sregOf d).toList.map fun (x : Fin 64) => x.val })
/-- BARWAIT (R275, R281). -/
def execBarwait (c : Ctl) (lv : Scope) (a : Reg) (n : BitVec 6) (s : State) : Out :=
  runOnce s c [opdUni a] fun k =>
    if !barHeld k.g lv n.toNat then k.ill
    else
      let s := k.s.modWarp k.ci k.wi fun w => { w with wait := .bar lv n.toNat ((k.uni a).setWidth 32) k.act }
      .ok (wakeCore s k.ci lv n.toNat (barGet s k.ci lv n.toNat))
/-- RBARARR (R277). -/
def execRbararr (c : Ctl) (sc : Scope) (a : Reg) (n : BitVec 4) (count : BitVec 10) (s : State) : Out :=
  runOnce s c [opdUni a] fun k =>
    let g := (k.uni a).toNat
    if 383 < g then k.ill
    else
      let x : Arrival := ⟨k.ci, .core, g, n.toNat, count.toNat, k.w.wg, some (k.wi, k.w.idNext), sc != .warp, none, true, k.w.pasid, 0#5⟩
      let s := closeRel k (sc != .warp)
      .ok ({ s with arrivals := s.arrivals ++ [x] }.modWarp k.ci k.wi fun w => { w with idNext := w.idNext + 1 })
/-- CMSET. -/
def execCmset (c : Ctl) (sc : Scope) (a : Reg) (m : BitVec 4) (g : BitVec 3) (s : State) : Out :=
  runOnce s c [opdUni a] fun k =>
    if !cmHeld k.g m.toNat then k.ill else postSync k sc m.toNat (.cmSet g.toNat (k.uni a))
/-- CMCLR. -/
def execCmclr (c : Ctl) (sc : Scope) (a : Reg) (m : BitVec 4) (g : BitVec 3) (s : State) : Out :=
  runOnce s c [opdUni a] fun k =>
    if !cmHeld k.g m.toNat then k.ill else postSync k sc m.toNat (.cmClr g.toNat (k.uni a))
/-- CMWAIT: a mask of 0 ends at once. -/
def execCmwait (c : Ctl) (any : Bool) (a : Reg) (m : BitVec 4) (g : BitVec 3) (s : State) : Out :=
  runOnce s c [opdUni a] fun k =>
    if !cmHeld k.g m.toNat then k.ill
    else
      let s := k.s.modWarp k.ci k.wi fun w => { w with wait := .cm m.toNat g.toNat (k.uni a) any }
      .ok (s.modCore k.ci (·.cmExam m.toNat))

end Sys2Proof.Machine
end

