-- ==== Sys2Proof/Machine/Copy.lean ====
section
/-! DEFINITION. Copy channels and register-file windows (15 R286-R302): the copy family, and the events of a channel. -/

namespace Sys2Proof.Machine

/-! ### Transfer records (R287, R288) -/

def rBits (r : BitVec 512) (lo n : Nat) : Nat := r.toNat / 2 ^ lo % 2 ^ n
def recSrc (r : BitVec 512) : Dword := r.extractLsb' 0 64
def recDst (r : BitVec 512) : Dword := r.extractLsb' 64 64
def recNext (r : BitVec 512) : Dword := r.extractLsb' 128 64
def recRowBytes (r : BitVec 512) : Nat := rBits r 192 32
def recRows (r : BitVec 512) : Nat := rBits r 224 32
def recSstride (r : BitVec 512) : Dword := (r.extractLsb' 256 32).signExtend 64
def recDstride (r : BitVec 512) : Dword := (r.extractLsb' 288 32).signExtend 64
def recMcast (r : BitVec 512) : BitVec 16 := r.extractLsb' 320 16
def recOwn (r : BitVec 512) : Bool := r.getLsbD 352
def recCmen (r : BitVec 512) : Bool := r.getLsbD 353
def recCmap (r : BitVec 512) : Nat := rBits r 354 4
def recSemen (r : BitVec 512) : Bool := r.getLsbD 358
def recSem (r : BitVec 512) : Nat := rBits r 359 6
def recCmbit0 (r : BitVec 512) : Nat := rBits r 365 9
def recBytes (r : BitVec 512) : Nat := recRows r * recRowBytes r
/-- Chunks of 512 transfer indices (R290). -/
def recChunks (r : BitVec 512) : Nat := (recBytes r + 511) / 512
def rowSrc (r : BitVec 512) (i : Nat) : Dword := recSrc r + BitVec.ofNat 64 i * recSstride r
def rowDst (r : BitVec 512) (i : Nat) : Dword := recDst r + BitVec.ofNat 64 i * recDstride r
/-- Bits [383:352] with STATUS written and OWN cleared. -/
def recStatus (r : BitVec 512) (st : Byte) : Nat := (rBits r 352 32) / 2 % 2 ^ 21 * 2 + st.toNat * 2 ^ 22 + rBits r 382 2 * 2 ^ 30

/-- A record of CPCHAIN is malformed by its own fields (R288). -/
def recBad (r : BitVec 512) (tcopy : Bool) : Bool :=
  rBits r 336 16 != 0 || rBits r 382 2 != 0 || (!tcopy && rBits r 384 128 != 0)
    || recRows r == 0 || 65536 < recRows r || recRowBytes r == 0 || 1048576 < recRowBytes r
    || (if tcopy then recNext r != 0#64 else (recNext r).toNat % 64 != 0)
    || (recCmen r && 512 < recCmbit0 r + recChunks r)

/-! ### Channels -/

def State.modWg (s : State) (ci id : Nat) (f : Wg → Wg) : State := s.modCore ci (·.modWg id f)
def Core.chan (k : Core) (n : Nat) : Chan := (k.chans[n]?).getD Chan.fresh
def Core.setChan (k : Core) (n : Nat) (x : Chan) : Core := { k with chans := k.chans.setIfInBounds n x }
def Core.modChan (k : Core) (n : Nat) (f : Chan → Chan) : Core := k.setChan n (f (k.chan n))
def State.chan (s : State) (ci n : Nat) : Chan := (s.core ci).chan n
def State.modChan (s : State) (ci n : Nat) (f : Chan → Chan) : State := s.modCore ci (·.modChan n f)
/-- The channel's workgroup. -/
def chanWg (k : Core) (n : Nat) : Option Wg := (k.chan n).wg.bind k.wg?
def chanEng (s : State) (ci n : Nat) : Eng := ⟨ci, .cpy n, ((chanWg (s.core ci) n).map (·.pasid)).getD 0#20, false, 0, 0#64, none⟩
/-- The workgroup holds the channel. -/
def chanHeld (g : Option Wg) (n : Nat) : Bool := match g with | some g => g.chanMask.getLsbD n | none => false
/-- The channel may take new units (R295, R396). -/
def chanRuns (s : State) (ci n : Nat) : Bool :=
  !(s.core ci).halted && !(s.core ci).haltReq && (chanWg (s.core ci) n).isSome && !((s.chan ci n).queue.isEmpty)
    && !(((chanWg (s.core ci) n).map (·.stopping)).getD false)

/-- Numbers of a channel's parts of work: its rows, then the record, DST and the status, each under the record's own number. -/
def cpRow (c : Chan) (row : Nat) : Nat := c.gen * cpGen + row
def cpRecId (c : Chan) : Nat := cpRow c 0x100000
def cpDstId (c : Chan) : Nat := cpRow c 0x100001
def cpStId (c : Chan) : Nat := cpRow c 0x100002
/-- A record ends: nothing of it waits at a nib or for a replay any longer (R188, R343). -/
def recEnd (s : State) (ci n : Nat) (st : Byte) : State :=
  (dropGot (endKept s ci (.cpy n)) ci (.cpy n)).modChan ci n fun c => { c with cur := none, lastSt := st, gen := c.gen + 1 }
/-- The end of posted chains: their flags are decremented. -/
def endPosts (s : State) (ci : Nat) (l : List CpPost) : State :=
  l.foldl (fun s p => s.modWarp ci p.slot (·.engineDone p.op 0#5)) s
/-- The chain in progress ends with a status (R290, R292); those that CPABORT discarded end with it. -/
def endChain (s : State) (ci n : Nat) (st : Byte) : State :=
  let c := s.chan ci n
  let gone := c.queue.take 1 ++ (c.queue.drop 1).takeWhile (·.dead)
  let s := (recEnd s ci n st).modChan ci n fun c => { c with queue := (c.queue.drop 1).dropWhile (·.dead), busy := false }
  endPosts s ci gone

/-- Appends a post; one that finds eight is dropped (R291). -/
def postCopy (k : Ctx) (c : Ctl) (n : Nat) (head : Dword) (t : Option (BitVec 512)) : Res :=
  let ch := k.k.chan n
  if cmdBlocked k.s k.ci k.wi 1 then .hold
  else if 8 ≤ ch.queue.length then .ok (k.s.modChan k.ci n fun ch => { ch with ovf := true })
  else match flagOf k.w c with
    | none => .ok k.s
    | some f =>
      let s := k.s.modWarp k.ci k.wi (·.startOp f 1 true)
      .ok (s.modChan k.ci n fun ch => { ch with queue := ch.queue ++ [CpPost.mk k.wi k.w.idNext head t false] })

/-! ### The copy instructions -/

/-- A long-latency command performed once. -/
def runCmd (s : State) (c : Ctl) (opds : List Opd) (body : Ctx → Res) : Out :=
  runInstr s c true true opds fun k => if k.act = 0#32 then .ok k.s else body k

/-- CPCHAIN (R297). -/
def execCpchain (c : Ctl) (ch : Fin 4) (a : Reg) (s : State) : Out :=
  runCmd s c [opdUni a] fun k =>
    let h := k.uni a
    if !chanHeld k.g ch.val then k.ill
    else if h.toNat % 64 ≠ 0 then .trap (k.cause cMisaligned k.act h)
    else if !canonical h then .trap (k.cause cAccessDenied k.act h)
    else postCopy k c ch.val h none
/-- TCOPY (R298): bytes 0 to 47 are six scalars. -/
def execTcopy (c : Ctl) (ch : Fin 4) (a : Reg) (s : State) : Out :=
  runCmd s c (scalarRun a 6) fun k =>
    match a with
    | .s i =>
      if !chanHeld k.g ch.val then k.ill
      else
        let r := BitVec.ofNat 512 ((List.range 6).foldl (fun v j => v + (k.w.sreg (i.val + j)).toNat * 2 ^ (64 * j)) 0)
        postCopy k c ch.val 0#64 (some r)
    | _ => .ok k.s
/-- The snapshot of CPSTAT (R299). -/
def cpstatOf (c : Chan) : Nat :=
  c.done.toNat + c.queue.length * 2 ^ 26 + (if c.ovf then 2 ^ 30 else 0) + (if c.busy then 2 ^ 31 else 0) + c.lastSt.toNat * 2 ^ 32
/-- CPSTAT. -/
def execCpstat (c : Ctl) (ch : Fin 4) (clr : Bool) (d : Reg) (s : State) : Out :=
  runOnce s c [opdS d] fun k =>
    if !chanHeld k.g ch.val then k.ill
    else
      let s := writeLanes k.s k.ci k.wi .n64 d [(0, (cpstatOf (k.k.chan ch.val) : Int))]
      .ok (if clr then s.modChan k.ci ch.val fun c => { c with ovf := false, lastSt := 0#8 } else s)
/-- What CPABORT does to a channel (R300). A record whose bytes are not yet read cannot be written: its chain ends with ABORTED (log
82). -/
def cpAbort (s : State) (ci n : Nat) : State :=
  let c := s.chan ci n
  match c.cur with
  | some r =>
    let r := if r.status = stOk then { r with status := stCpAborted, begun := true } else r
    s.modChan ci n fun c => { c with cur := some r, queue := c.queue.map fun p => { p with dead := true } }
  | none =>
    let s := recEnd s ci n (if c.busy then stCpAborted else c.lastSt)
    endPosts (s.modChan ci n fun c => { c with queue := [], busy := false }) ci c.queue
/-- CPABORT. -/
def execCpabort (c : Ctl) (ch : Fin 4) (s : State) : Out :=
  runOnce s c [] fun k => if !chanHeld k.g ch.val then k.ill else .ok (cpAbort k.s k.ci ch.val)
/-- RWOPEN (R301). -/
def execRwopen (c : Ctl) (slot : Fin 4) (d : Reg) (f n : BitVec 10) (s : State) : Out :=
  runInstr s c true false [opdS d] fun k =>
    if n = 0#10 || k.w.n < f.toNat + n.toNat then k.ill
    else if k.act = 0#32 then .ok k.s
    else if k.w.wins.any (·.slot == slot) || k.w.lig.on then k.ill
    else
      let s := k.s.modWarp k.ci k.wi fun w => { w with wins := w.wins ++ [RWin.mk slot f.toNat n.toNat] }
      .ok (writeLanes s k.ci k.wi .n64 d [(0, ((128 * (k.w.base + f.toNat) : Nat) : Int))])
/-- RWCLOSE (R301, R302). -/
def execRwclose (c : Ctl) (slot : Fin 4) (s : State) : Out :=
  runOnce s c [] fun k =>
    if k.w.lig.on then k.ill
    else .ok (k.s.modWarp k.ci k.wi fun w => { w with wins := w.wins.filter (·.slot != slot) })

/-! ### Reading a record (R288) -/

/-- DST, DSTRIDE or ROWBYTES is no multiple of 4. -/
def amountsOdd (r : BitVec 512) : Bool := (recDst r).toNat % 4 != 0 || (recDstride r).toNat % 4 != 0 || recRowBytes r % 4 != 0
/-- A part lies in a register-file region. -/
def Piece.inRf (p : Piece) : Bool :=
  p.x.mt == mtWin && p.x.home.isNone && match winSplit p.pa with
    | some (_, off) => (match regionOf off 1 with | some (.rf, _) => true | _ => false)
    | none => false
/-- The destination parts of a whole record. -/
def recParts (r : BitVec 512) : List (Nat × Nat) :=
  (List.range (recRows r)).foldl (fun l i => l ++ lineParts (rowDst r i) (recRowBytes r)) []
/-- Every address of a record is canonical (R170): a row that starts and ends in canonical addresses lies in them. -/
def recCanonical (r : BitVec 512) : Bool :=
  (List.range (recRows r)).all fun i => [rowSrc r i, rowDst r i].all fun a => canonical a && canonical (a + BitVec.ofNat 64 (recRowBytes r - 1))

/-- The cores that receive a record's signals where DST is a WIN page (R289, R290): the core of the page that DST lies in, or the targets
of a multicast (log 104); those of another device are its own. -/
def signalCores (r : BitVec 512) (x : Xlat) : List Nat :=
  match winSplit (x.to (recDst r).toNat) with
  | some (g, _) => if recMcast r = 0#16 then [g]
      else ((List.range 16).filter fun i => (recMcast r).getLsbD i).map (· + g / 16 * 16)
  | none => []
/-- The cores that receive the signals of a record in progress. -/
def CpRec.sigs (r : CpRec) (core : Nat) : List Nat := if r.own then [core] else r.tgts

/-- The destination parts that the checks of a whole record need: DST, or, where the amounts are no multiples of 4, all of them. -/
def checkParts (r : BitVec 512) : List (Nat × Nat) :=
  (if amountsOdd r then recParts r else [((recDst r).toNat, 1)]).filter fun p => canonical (BitVec.ofNat 64 p.1)
/-- Translates parts of a record, which are kept; those that miss are answered last. -/
def partXlats (s : State) (e : Eng) : List (Nat × Nat) → State × List Piece × List Dword
  | [] => (s, [], [])
  | p :: t =>
    let v := BitVec.ofNat 64 p.1
    let (s, x) := engXlat s e e.id v
    let (s, ps, ms) := partXlats s e t
    match x with
    | some x => (s, ⟨x, p.1, p.2⟩ :: ps, ms)
    | none => (s, ps, v :: ms)
/-- What the checks of a whole record come to (R170, R288, R289), in the order of R288: its own fields, then the pages that its
destination parts have been translated to; `st` is the status of a ticket that has failed meanwhile. -/
def recStatusOf (r : BitVec 512) (ps : List Piece) (st : Byte) : Byte :=
  let dst := ps.find? (·.va == (recDst r).toNat)
  if recMcast r != 0#16 && (match dst with | some p => p.x.mt != mtWin | none => st == stOk) then stBadrec
  else if amountsOdd r && ps.any (·.inRf) then stBadrec
  else if !recCanonical r then stDenied
  else st
/-- A record that has been read begins (R288): its own checks, then those that need translations. -/
def beginRec (s : State) (ci n : Nat) (at_ : Option Dword) (r : BitVec 512) (st : Byte) : State :=
  let e := { chanEng s ci n with id := cpDstId (s.chan ci n), pc := at_.getD 0#64 }
  let put := fun (s : State) (st : Byte) (x : Option Xlat) (begun : Bool) =>
    let win := x.filter (·.mt == mtWin)
    (if begun then dropKept s ci fun k => k.path == e.path && k.id == e.id else s).modChan ci n fun c =>
      { c with busy := true, cur := some ⟨at_, r, win.isNone, (win.map (signalCores r)).getD [], win.any (·.home.isSome), begun, [], [], st, false⟩ }
  if at_.isSome && !recOwn r then put s stNotown none true
  else if recBad r at_.isNone then put s stBadrec none true
  else if engPending (s.core ci) e e.id then put s st none false
  else match partXlats s e (checkParts r) with
    | (s, ps, ms) =>
      if st = stOk && !ms.isEmpty then put (ms.foldl (fun s v => engMiss s e e.id e.pc v needW) s) st none false
      else put s (recStatusOf r ps st) ((ps.find? (·.va == (recDst r).toNat)).map (·.x)) true

/-- COPY_RECORD_READ (R288): the next record of the chain is read, once; one whose
destination was still being translated begins. One that cannot be read ends its chain, with no status written (log 104). -/
def execCopyRecordRead (core ch : Nat) (s : State) : Out :=
  let c := s.chan core ch
  if !chanRuns s core ch then .next s
  else match c.cur with
  | some r => .next (if r.begun then s else beginRec s core ch r.at_ r.rec_ r.status)
  | none => match c.queue with
    | [] => .next s
    | p :: _ =>
      match p.tcopy with
      | some r => .next (beginRec s core ch none r stOk)
      | none =>
        let at_ := if c.busy then c.next else p.head
        let s := s.modChan core ch fun c => { c with busy := true, next := at_ }
        match engRead s (chanEng s core ch) (cpRecId c) at_ at_ 64 with
        | .wait s => .next s
        | .fail s st => .next (endChain s core ch st)
        | .ok s bs => .next (beginRec s core ch (some at_) (BitVec.ofNat 512 (leNat (bs.map (·.1)))) stOk)

/-! ### Rows (R289) -/

/-- The unit of a row: at most 8 bytes, aligned in both addresses. -/
def copyUnit (a b : Dword) : Nat :=
  let d := (a - b).toNat
  if d % 8 = 0 then 8 else if d % 4 = 0 then 4 else if d % 2 = 0 then 2 else 1
/-- The copies of a part at the targets of a multicast. -/
def castPiece (tgts : List Nat) (p : Piece) : List Piece :=
  match winSplit p.pa with
  | none => [p]
  | some (g, _) => tgts.map fun t => { p with x := { p.x with pa := p.x.pa + t * 0x1000000 - g * 0x1000000 } }
/-- The check of a destination part; every target of a multicast is checked, and must be held by a workgroup of the PASID (R289); a
part of one that lies in no WIN page ends the record with BADREC (log 104). -/
def dstCheck (s : State) (e : Eng) (r : CpRec) (p : Piece) : Option Byte :=
  if recMcast r.rec_ = 0#16 || p.x.home.isSome then pieceCheck s e needW p
  else (castPiece r.tgts p).findSome? fun q =>
    if p.x.mt != mtWin then some stBadrec
    else (pieceCheck s e needW q).or (match winSplit q.pa with
      | some (g, off) => if winMine s g off q.n e.pasid || (s.core g).holds then none else some stDenied
      | none => some stDenied)

/-- Closes batches of a twinned channel, of 64 writes or of all that are left, while at least `n` are held back and the core has room
(R422). -/
def closeChan (s : State) (ci ch n : Nat) : State :=
  match (chanWg (s.core ci) ch).bind fun g => (twinOf s g.pasid ci).map fun t => (g, t) with
  | none => s
  | some (g, t) => (List.range ((s.chan ci ch).tw.held.length / 64 + 1)).foldl (fun s _ =>
      let l := (s.chan ci ch).tw
      if l.held.isEmpty || l.held.length < n || !twinRoom s g.pasid ci then s
      else
        let ws := l.writes.take 64
        (pushBatch s t ⟨ci, 32 + ch, l.batch, batchDigest g.gang g.wgno (32 + ch) l.batch ws, l.held.take 64⟩).modChan ci ch fun c =>
          { c with tw := ⟨l.writes.drop 64, l.held.drop 64, l.batch + 1⟩ }) s
/-- Holds an outside write back in the channel's batch, unit by unit, its poison in `cmp`; every 64th write closes it. -/
def holdPiece (s : State) (e : Eng) (n u : Nat) (p : Piece) (bs : List (Byte × Bool)) : State :=
  let acc := fun (lanes : List LaneAcc) =>
    Access.mk e.id e.path .store e.pasid e.scr false e.pc 0 .n8 .rlx .warp 0#8 none lanes
  let rs := (unitRuns u p.va bs).map fun r => (r.1, r.2.length, leNat (r.2.map (·.1)), r.2.any (·.2))
  closeChan (s.modChan e.ci n fun c => { c with tw := { c.tw with
    writes := c.tw.writes ++ rs.map fun r => (r.1, r.2.1, r.2.2.1)
    held := c.tw.held ++ rs.map fun r => ⟨acc [⟨0, BitVec.ofNat 64 r.1, r.2.1, r.2.2.1, if r.2.2.2 then 1 else 0, .none, []⟩], some p.x⟩ } }) e.ci n 64

/-- Writes the parts of a row. -/
def rowWrite (s : State) (e : Eng) (n u : Nat) (t : Option Twin) (r : CpRec) : List Piece → List (Byte × Bool) → ER Unit
  | [], _ => .ok s ()
  | p :: ps, bs =>
    let out := match t with | some t => pieceOutside s t p | none => false
    (if out then ER.ok (holdPiece s e n u p (bs.take p.n)) ()
      else if recMcast r.rec_ = 0#16 then writePiece s e u p (bs.take p.n)
      else (castPiece r.tgts p).foldl (fun x q => x.bind fun s _ => writePiece s e u q (bs.take p.n)) (.ok s ())).bind
        fun s _ => rowWrite s e n u t r ps (bs.drop p.n)

/-- The checks of a whole row: its source, then its destination; every miss is sent (R196). -/
def rowParts (s : State) (e : Eng) (r : CpRec) (row : Nat) : ER (List Piece × List Piece) :=
  let n := recRowBytes r.rec_
  let dst := fun (s : State) => engParts s e e.id e.pc needW (dstCheck · e r ·) (lineParts (rowDst r.rec_ row) n)
  match engParts s e e.id e.pc needRd (pieceCheck · e needRd ·) (lineParts (rowSrc r.rec_ row) n) with
  | .fail s st => .fail s st
  | .wait s => match dst s with
    | .fail s st => .fail s st
    | .ok s _ | .wait s => .wait s
  | .ok s a => (dst s).bind fun s b => .ok s (a, b)

/-- COPY_ROW: one row of the record in progress is checked whole, then performed (R196, R289). An outside row of a twinned partition closes
the batch first (R423). -/
def execCopyRow (core ch row : Nat) (s : State) : Out :=
  match (s.chan core ch).cur with
  | none => .next s
  | some r =>
    let e := { chanEng s core ch with id := cpRow (s.chan core ch) row, pc := r.at_.getD 0#64 }
    if !chanRuns s core ch || !r.begun || r.status != stOk || recRows r.rec_ ≤ row || r.rows.contains row || engPending (s.core core) e e.id then .next s
    else
      let t := twinOf s e.pasid core
      let fail := fun (s : State) (st : Byte) => Host.Outcome.next (s.modChan core ch fun c => { c with cur := c.cur.map fun r => { r with status := st } })
      match rowParts s e r row with
      | .fail s st => fail (dropKept s core fun k => k.path == e.path && k.id == e.id) st
      | .wait s => .next s
      | .ok s1 (a, b) =>
        let far := t.any fun t => a.any (pieceOutside s1 t)
        let s1 := if far then closeChan s1 core ch 1 else s1
        if far && !(s1.chan core ch).tw.held.isEmpty then .next s1
        else match ER.fin ((readPieces s1 e a).bind fun s bs =>
            rowWrite s e ch (copyUnit (rowSrc r.rec_ row) (rowDst r.rec_ row)) t r b bs) e e.id with
          | .wait s2 => .next (keepWaits s1 s2 core)
          | .fail s2 st => fail s2 st
          | .ok s2 _ =>
            let s3 := s2.modChan core ch fun c => { c with cur := c.cur.map fun (r : CpRec) => { r with rows := setAdd r.rows row } }
            .next (if t.isSome && (setAdd r.rows row).length == recRows r.rec_ then closeChan s3 core ch 1 else s3)

/-! ### Signals (R290) -/

/-- A workgroup of the PASID holds the map or semaphore at the receiving core. -/
def signalHeld (s : State) (pasid : BitVec 20) (g : Nat) (p : Wg → Bool) : Bool :=
  !s.fuses.off.contains g && (s.core g).wgs.any fun x => x.pasid == pasid && p x
/-- Every byte of a chunk has been performed. -/
def chunkDone (r : CpRec) (c : Nat) : Bool :=
  let n := Nat.max 1 (recRowBytes r.rec_)
  let lo := 512 * c / n
  let hi := (Nat.min (512 * c + 512) (recBytes r.rec_) - 1) / n
  (List.range (hi - lo + 1)).all fun i => r.rows.contains (lo + i)
/-- Writes of a twinned channel are held back: what they cover is not yet performed (R290, R422). -/
def chanHeldBack (s : State) (core ch : Nat) : Bool := !(s.chan core ch).tw.held.isEmpty || batchPending s core (32 + ch)
/-- CHUNK_SIGNAL: a relaxed CMSET of the chunk's bit at every receiving sync unit, also where the record has failed since (R292). -/
def execChunkSignal (core ch chunk : Nat) (s : State) : Out :=
  match (s.chan core ch).cur with
  | none => .next s
  | some r =>
    if (s.core core).holds || !recCmen r.rec_ || r.rows.isEmpty || recChunks r.rec_ ≤ chunk || r.chunks.contains chunk || !chunkDone r chunk
        || chanHeldBack s core ch then .next s
    else
      let pasid := (chanEng s core ch).pasid
      let m := recCmap r.rec_
      let bit := recCmbit0 r.rec_ + chunk
      let tgts := r.sigs core
      let drop := tgts.any fun g => !signalHeld s pasid g (·.cmMask.getLsbD m)
      let s := tgts.foldl (fun s g => if signalHeld s pasid g (·.cmMask.getLsbD m) then
          s.modCore g fun k => k.cmPut m (((k.cmaps[m]?).getD 0#512) ||| (1#512 <<< bit)) else s) s
      .next (s.modChan core ch fun c => { c with cur := c.cur.map fun r => { r with chunks := setAdd r.chunks chunk, drop := r.drop || drop } })

/-- Every row is performed and every chunk signalled. -/
def recFull (r : CpRec) : Bool :=
  r.rows.length == recRows r.rec_ && (!recCmen r.rec_ || r.chunks.length == recChunks r.rec_)
/-- A chunk whose every byte is performed has not been signalled (R290, R292). -/
def chunkDue (r : CpRec) : Bool :=
  recCmen r.rec_ && !r.rows.isEmpty && (List.range (recChunks r.rec_)).any fun c => chunkDone r c && !r.chunks.contains c
/-- The status written when a record ends: a signal that is dropped gives SIGDROP; whether one is dropped at another device is a free value
(log 1). -/
def finalStatus (s : State) (core : Nat) (pasid : BitVec 20) (r : CpRec) : Byte :=
  if r.status != stOk then r.status
  else if r.drop || (r.far && (recCmen r.rec_ || recSemen r.rec_) && Config.peerBad s.tick 0) || (recSemen r.rec_ && (r.sigs core).any fun g => !signalHeld s pasid g (·.semMask.getLsbD (recSem r.rec_))) then stSigdrop
  else stOk
/-- RECORD_COMPLETION (R290, R292): the status is written, the semaphore incremented, and the chain goes on or ends. The batch
of a twinned channel closes with the last row, or with a record that ends early, and is released first; so is the status of a record that lies outside the
partition (log 48). -/
def execRecordCompletion (core ch : Nat) (s : State) : Out :=
  match (s.chan core ch).cur with
  | none => .next s
  | some r =>
    let id := cpStId (s.chan core ch)
    if r.begun && !(s.chan core ch).tw.held.isEmpty && (r.status != stOk || r.rows.length == recRows r.rec_) then .next (closeChan s core ch 1)
    else if (s.core core).holds || !r.begun || (r.status == stOk && !recFull r) || chunkDue r || chanHeldBack s core ch then .next s
    else
      let e := { chanEng s core ch with id := id, pc := r.at_.getD 0#64 }
      let st := finalStatus s core e.pasid r
      let w : ER Unit := match r.at_ with
        | none => .ok s ()
        | some a =>
          if engPending (s.core core) e id then .wait s
          else ER.fin (e := e) (id := id) <|
            let at_ := a + 44#64
            let bs := (leBytes 4 (recStatus r.rec_ st)).map fun b => (b, false)
            (engParts s e id a needW (pieceCheck · e needW ·) (lineParts at_ 4)).bind fun s ps =>
              match twinOf s e.pasid core with
              | some t =>
                if ps.any (pieceOutside s t) then
                  (rowWrite s e ch 4 (some t) { r with rec_ := 0#512 } ps bs).bind fun s _ =>
                    .wait ((closeChan s core ch 1).modChan core ch fun c => { c with cur := some { r with at_ := none, status := st } })
                else writePieces s e 4 ps bs
              | none => writePieces s e 4 ps bs
      let done := fun (s : State) (st : Byte) =>
        if st != stOk then endChain s core ch st
        else
          let s := (recEnd s core ch stOk).modChan core ch fun c => { c with done := c.done + 1, next := recNext r.rec_ }
          if recNext r.rec_ = 0#64 then endChain s core ch stOk else s
      match w with
      | .wait s => .next s
      | .fail s f => .next (done s (if st = stOk then f else st))
      | .ok s _ =>
        let s := if st = stOk && recSemen r.rec_ then (r.sigs core).foldl (fun s g => s.modCore g fun k =>
            k.semPut (recSem r.rec_) (satAdd ((k.sems[recSem r.rec_]?).getD 0#32) 1#32)) s else s
        .next (done s st)

/-! ### The window port (R293, R295, R98) -/

/-- Ends an access of a warp that waited at a port. -/
def endAway (s : State) (core : Nat) (a : Access) (bad : Mask) (st : BitVec 4) : State :=
  match a.slot? with
  | some w => finishOut s core w a [] bad st
  | none => s
/-- A message writes a line of a window: a warp's with its release, any other's with all that came before (log 17). -/
def landMark (s : State) (m : InMsg) (line : Nat) : State :=
  if m.core < 384 then noteStore s m.core m.acc line else s.noteOuter line
/-- Writes the lanes of a message into the window. -/
def landMsg (s : State) (g : Nat) (m : InMsg) (ok : LaneAcc × Nat → Bool) : State :=
  let ls := (m.acc.lanes.zip m.pas).filter ok
  let off := fun (pa : Nat) => (pa - winBase) % 0x1000000
  let s := ls.foldl (fun s e => (landMark s m (lineOf e.2)).modCore g fun k => k.winPut s.tick (off e.2) e.1.size e.1.data false) s
  s.modCore g (·.winClean (ls.map fun e => (off e.2, e.1.size)))
/-- INBOUND_WINDOW_WRITE: the oldest write at a core's port is accepted and lands, fails where no slot is open, or is
back-pressured by a halted core. -/
def execInboundWindowWrite (core : Nat) (s : State) : Out :=
  match (s.core core).inW with
  | [] => .next s
  | m :: rest =>
    let s := s.modCore core fun k => { k with inW := rest }
    if (s.core core).holds then .next (s.modCore core fun k => { k with bpw := k.bpw ++ [m] })
    else
      let ok := fun (e : LaneAcc × Nat) => winHeld s core ((e.2 - winBase) % 0x1000000) e.1.size m.acc.pasid m.acc.scr
      let bad := maskOf fun l => (m.acc.lanes.zip m.pas).any fun e => e.1.lane == l && !ok e
      .next (endAway (landMsg s core m ok) m.core m.acc bad stPerm)

end Sys2Proof.Machine
end

