-- ==== Sys2Proof/Machine/Matrix.lean ====
section
/-! DEFINITION. The matrix engine (16 R304-R327): reservations, tile handles, the views of operands, the FIFO, the multiply,
drains and the governor. -/

namespace Sys2Proof.Machine

/-! ### Instructions that are not posted (R326) -/

def Wg.resv? (g : Wg) (n : Nat) : Option Resv := (g.resv.find? (·.1 == n)).map (·.2)
def Wg.hand? (g : Wg) (n : Nat) : Option View := (g.hands.find? (·.1 == n)).map (·.2)
/-- An instruction performed once by a warp of a workgroup; the scribe warp has no reservation, handle or tile. -/
def runWg (s : State) (c : Ctl) (opds : List Opd) (body : Ctx → Wg → Res) : Out :=
  runOnce s c opds fun k => match k.g with | some g => body k g | none => k.ill
/-- The two words of a record. -/
def recordAt (k : Ctx) (a : Reg) : Option Resv :=
  match a with
  | .s i => resvOf (k.w.sreg i.val) (k.w.sreg (i.val + 1))
  | _ => none
/-- OBRES. -/
def execObres (c : Ctl) (res : Fin 16) (d a : Reg) (s : State) : Out :=
  runWg s c (opdS d :: scalarRun a 2) fun k g =>
    match recordAt k a with
    | none => k.ill
    | some r =>
      if (g.resv? res.val).isSome || !r.ok g || g.resv.any (fun x => meets (x.2.base, x.2.len) (r.base, r.len)) then k.ill
      else
        let s := k.s.modWg k.ci g.id fun g => { g with resv := g.resv ++ [(res.val, r)] }
        .ok (writeLanes s k.ci k.wi .n64 d [(0, ((0x400000 + (g.obBase + r.base) * 0x800 : Nat) : Int))])
/-- Some entry of the workgroup captured the reservation. -/
def captured (k : Core) (g : Wg) (r : Nat) : Bool :=
  k.fifo.any fun e => e.wg == g.id && ((e.a.map (·.2.res.val)) == some r || (e.b.map (·.2.res.val)) == some r)
/-- Frees a reservation and unbinds its handles. -/
def Wg.freeResv (r : Nat) (g : Wg) : Wg := { g with resv := g.resv.filter (·.1 != r), hands := g.hands.filter (·.2.res.val != r) }
/-- OBFREE: it holds the warp while an entry has captured the reservation. -/
def execObfree (c : Ctl) (res : Fin 16) (s : State) : Out :=
  runWg s c [] fun k g =>
    if (g.resv? res.val).isNone then k.ill
    else if captured k.k g res.val then .ok (k.s.modWarp k.ci k.wi fun w => { w with wait := .obfree res })
    else .ok (k.s.modWg k.ci g.id (Wg.freeResv res.val))
/-- OBSET. -/
def execObset (c : Ctl) (res : Fin 16) (a : Reg) (s : State) : Out :=
  runWg s c (scalarRun a 2) fun k g =>
    match g.resv? res.val, recordAt k a with
    | some o, some r =>
      if !r.ok g || r.base != o.base || r.len != o.len then k.ill
      else .ok (k.s.modWg k.ci g.id fun g => { g with resv := updFirst (·.1 == res.val) (fun _ => (res.val, r)) g.resv })
    | _, _ => k.ill
/-- THAND. -/
def execThand (c : Ctl) (h res : Fin 16) (col unbind : Bool) (a b : Reg) (s : State) : Out :=
  runWg s c (if unbind then [] else [opdUni a, opdUni b]) fun k g =>
    let drop := fun (g : Wg) => { g with hands := g.hands.filter (·.1 != h.val) }
    if unbind then .ok (k.s.modWg k.ci g.id drop)
    else match g.resv? res.val with
      | none => k.ill
      | some r =>
        let o := k.uni a
        let e := k.uni b
        let v : View := ⟨res, dBits o 0 16, dBits o 16 16, dBits e 0 16, dBits e 16 16, col⟩
        if !viewOk r v then k.ill
        else .ok (k.s.modWg k.ci g.id fun g => { drop g with hands := (drop g).hands ++ [(h.val, v)] })

/-! ### Posts (R312, R314) -/

/-- The record and view that a handle names, as they stand; none where it is unbound or its view no longer holds, since OBSET has changed
its record: that such a post raises TILE_HANDLE is the model's choice (log 116). -/
def Wg.operand (g : Wg) (h : Fin 16) : Option (Resv × View) :=
  match g.hand? h.val with
  | none => none
  | some v => match g.resv? v.res.val with
    | none => none
    | some r => if viewOk r v then some (r, v) else none
/-- The barrier that an entry names, if the work holds it (R325). -/
def mxBar (g : Wg) (o : MxOp) : Bool :=
  !o.baren || barHeld (some g) (if o.barq then .quad else .core) o.bar.val
def tilesOf (n : Nat) : Nat := if 64 < n then 2 else 1

/-- What the checks of a post say: a cause, or the operands with the array cycles. -/
inductive PostChk where
  | ill | tile
  | go (a b : Option (Resv × View)) (cycles : Nat)

/-- POSTS an entry: the field checks first, then those of the handles; a full FIFO holds the warp. -/
def postMx (s : State) (c : Ctl) (o : MxOp) (kind : MxKind) (opds : List Opd) (rm : Rm) (sat : Bool) (seed : Ctx → Word)
    (chk : Wg → PostChk) : Out :=
  runCmd s c opds fun k =>
    match k.g with
    | none => k.ill
    | some g =>
      if !mxBar g o then k.ill
      else match chk g with
        | .ill => k.ill
        | .tile => .trap (k.cause cTileHandle k.act 0#64)
        | .go a b cyc =>
          if k.mxFull || cmdBlocked k.s k.ci k.wi 2 then .hold
          else match flagOf k.w c with
            | none => .ok k.s
            | some f =>
              let e : MxEntry := { id := k.k.seq, wg := g.id, slot := k.wi, op := k.w.idNext, cls := g.cls, kind := kind,
                                   acc := o.acc.val, count := o.count.val, a := a, b := b, same := o.ha == o.hb, rm := rm,
                                   sat := sat, seed := seed k, bar := if o.baren then some (o.barq, o.bar.val) else none,
                                   run := false, left := cyc, done := [], fl := 0#5 }
              let s := k.s.modWarp k.ci k.wi (·.startOp f 1 true)
              .ok (s.modCore k.ci fun x => { x with fifo := x.fifo ++ [e], seq := x.seq + 1 })

/-- The checks of MMA and MMAS (R312). -/
def chkMma (o : MxOp) (sparse : Bool) (g : Wg) : PostChk :=
  if g.accN ≤ o.acc.val then .ill
  else if (g.hand? o.hb.val).any fun v => g.accN < o.acc.val + tilesOf v.lr then .ill
  else match g.operand o.ha, g.operand o.hb with
    | some a, some b =>
      let m := a.2.lr
      let n := b.2.lr
      match mxClass a.1 b.1 with
        | none => .tile
        | some cl =>
          let cyc := arrayCycles a.1 cl m n a.2.lc
          if a.2.lc != b.2.lc || 128 < m || 128 < n || !kDirOk a.1 a.2 || !kDirOk b.1 b.2 || a.1.sparse != sparse || b.1.sparse || 4096 < cyc
            then .tile else .go (some a) (some b) cyc
    | _, _ => .tile
/-- MMA. -/
def execMma (o : MxOp) (s : State) : Out := postMx s o.c o .mma [] .rne false (fun _ => 0#32) (chkMma o false)
/-- MMAS. -/
def execMmas (o : MxOp) (s : State) : Out := postMx s o.c o .mmas [] .rne false (fun _ => 0#32) (chkMma o true)
/-- ACCZ. -/
def execAccz (o : MxOp) (s : State) : Out :=
  postMx s o.c o .accz [] .rne false (fun _ => 0#32) fun g =>
    if g.accN < o.acc.val + o.count.val then .ill else .go none none 0
/-- The checks of an entry that moves one dense view of at most 128 × 128; those of the tile, and of a mode that the destination does
not admit, come first (R61, R325). -/
def chkView (o : MxOp) (sr : Bool) (g : Wg) (ok : Resv → View → PostChk → PostChk) : PostChk :=
  if g.accN ≤ o.acc.val then .ill
  else match (g.hand? o.ha.val).bind fun v => (g.resv? v.res.val).map fun r => (r, v) with
    | none => .tile
    | some (r, v) =>
      if g.accN < o.acc.val + tilesOf v.lc || (sr && r.fmt == 10) then .ill
      else if !viewOk r v then .tile
      else ok r v (if 128 < v.lr || 128 < v.lc || r.sparse then .tile else .go (some (r, v)) none 0)
/-- ACCLD. -/
def execAccld (o : MxOp) (s : State) : Out :=
  postMx s o.c o .accld [] .rne false (fun _ => 0#32) fun g => chkView o false g fun _ _ r => r
/-- The seed operand of a drain. -/
def opdSeed (seed : Option Reg) : List Opd := seed.toList.map opdUni
def seedOf (seed : Option Reg) (k : Ctx) : Word := match seed with | some r => (k.uni r).setWidth 32 | none => 0#32
/-- ACCDRAIN. -/
def execAccdrain (o : MxOp) (rm : Rm) (sat : Bool) (seed : Option Reg) (s : State) : Out :=
  postMx s o.c o .accdrain (opdSeed seed) rm sat (seedOf seed) fun g => chkView o (rm == .sr) g fun a _ r =>
    if [8, 9, 10, 12].contains a.fmt then r else .tile
/-- ACCMX. -/
def execAccmx (o : MxOp) (rm : Rm) (seed : Option Reg) (s : State) : Out :=
  postMx s o.c o .accmx (opdSeed seed) rm false (seedOf seed) fun g => chkView o (rm == .sr) g fun a v r =>
    if a.fmt != 13 || a.bcol || v.col || v.lc % a.blk != 0 then .tile
    else match r, g.operand o.hb with
      | .go x _ _, some b =>
        if o.ha == o.hb then .go x (some b) 0
        else if b.1.fmt == 4 && !b.1.sparse && v.lc / a.blk ≤ b.2.lc && v.lr ≤ b.2.lr then .go x (some b) 0 else .tile
      | .go _ _ _, none => .tile
      | r, _ => r

/-- The words of MXSTAT (R327). -/
def mxstatOf (k : Core) (g : Wg) (sel : Nat) : Nat :=
  if sel = 0 then (64 - k.fifo.length) + (k.fifo.filter (·.wg == g.id)).length * 2 ^ 8 + g.lastErr.toNat * 2 ^ 16
  else if sel = 1 then g.obBase + g.obLen * 2 ^ 8 + g.accBase * 2 ^ 24 + g.accN * 2 ^ 29
  else if sel = 2 then g.gstall.toNat + g.acyc.toNat * 2 ^ 32
  else k.govB.toNat + k.govUsed.toNat * 2 ^ 9
/-- MXSTAT. -/
def execMxstat (c : Ctl) (sel : Fin 4) (clr : Bool) (d : Reg) (s : State) : Out :=
  runWg s c [opdS d] fun k g =>
    let s := writeLanes k.s k.ci k.wi .n64 d [(0, (mxstatOf k.k g sel.val : Int))]
    .ok (s.modWg k.ci g.id fun g =>
      if sel = 0 then { g with lastErr := 0#8 } else if sel = 2 && clr then { g with acyc := 0#32, gstall := 0#32 } else g)

/-! ### The engine (R315, R322, R324) -/

/-- An entry of the multiplier array; the others use the drain unit. -/
def MxEntry.array (e : MxEntry) : Bool := e.kind == .mma || e.kind == .mmas
/-- The first entry of each workgroup: none of it is ahead. -/
def firstEntries : List MxEntry → List Nat → List MxEntry
  | [], _ => []
  | e :: t, seen => if seen.contains e.wg then firstEntries t seen else e :: firstEntries t (e.wg :: seen)
/-- The candidate of highest class, then of oldest post. -/
def bestEntry : List MxEntry → Option MxEntry
  | [] => none
  | e :: t => match bestEntry t with
    | some f => if f.cls.val < e.cls.val then some f else some e
    | none => some e

/-- Runs array cycles within the budget: the nib engine's first. While a save or halt waits for the running entry only a pass that was
already running is there to take them (R322, R324). -/
def Core.govRun (k : Core) : Core :=
  let room := k.govNow.toNat - k.govUsed.toNat
  let mleft := match k.fifo.find? fun e => e.run && e.array with | some e => e.left | none => 0
  let n := Nat.min k.nibLeft room
  let m := Nat.min mleft (room - n)
  let wg := (k.fifo.find? fun e => e.run && e.array).map (·.wg)
  let k := { k with nibLeft := k.nibLeft - n, govUsed := BitVec.ofNat 9 (k.govUsed.toNat + m + n),
                    fifo := updFirst (fun e => e.run && e.array) (fun e => { e with left := e.left - m }) k.fifo,
                    govBlocked := m < mleft || n < k.nibLeft }
  match wg with
  | some w => k.modWg w fun g => { g with acyc := g.acyc + BitVec.ofNat 32 m }
  | none => k
/-- GOVERNOR_RELEASE: a window begins, with the budget B as it then is (R322, R449). -/
def execGovernorRelease (core : Nat) (s : State) : Out :=
  let k := s.core core
  if !k.govBlocked then .next (s.modCore core fun k => { k with govUsed := 0#9, govNow := k.govB })
  else
    let stall := fun (g : Wg) => { g with gstall := g.gstall + Config.waitedCc s.tick }
    .next (s.modCore core fun k =>
      let k := match k.fifo.find? fun e => e.run && e.array with
        | some e => if e.left = 0 then k else k.modWg e.wg stall
        | none => k
      { k with govUsed := 0#9, govNow := k.govB, govBlocked := false }.govRun)

/-- MATRIX_ENTRY_START (R315). -/
def execMatrixEntryStart (core : Nat) (drain : Bool) (s : State) : Out :=
  let k := s.core core
  if k.halted || k.haltReq || k.fifo.any (fun e => e.run && e.array != drain) then .next s
  else
    let cand := (firstEntries k.fifo []).filter fun e => !e.run && e.array != drain && !((k.wg? e.wg).map (·.stopping)).getD false
    match bestEntry cand with
    | none => .next s
    | some e => .next (s.modCore core fun k => { k with fifo := updFirst (·.id == e.id) (fun e => { e with run := true }) k.fifo }.govRun)

/-- OBFREEs that waited for the workgroup's entries free their reservations, and their waits end with that. -/
def freeWaiting (k : Core) (id : Nat) : Core :=
  let waits := k.warps.toList.filterMap fun x => x.bind fun w => match w.wait with
    | .obfree r => if w.wg == some id then some r.val else none
    | _ => none
  match k.wg? id with
  | none => k
  | some g => waits.foldl (fun k r => if captured k g r then k else { k.modWg id (Wg.freeResv r) with
      warps := k.warps.map fun (x : Option Warp) => x.map fun w => match w.wait with
        | .obfree q => if w.wg == some id && q.val == r then { w with wait := .none } else w
        | _ => w }) k
/-- MATRIX_ENTRY_COMPLETE: the entry's writes, its flag, then its arrival (R315). -/
def execMatrixEntryComplete (core : Nat) (drain : Bool) (s : State) : Out :=
  let k := s.core core
  match k.fifo.find? fun e => e.run && e.array != drain with
  | none => .next s
  | some e => match k.wg? e.wg with
    | none => .next (s.modCore core fun k => { k with fifo := k.fifo.filter (·.id != e.id) })
    | some g =>
      if e.left ≠ 0 then .next s
      else
        let (k, fl, bad) := runEntry s.tick g e k
        let k := { k with fifo := k.fifo.filter (·.id != e.id) }
        let k := if bad then k.modWg g.id fun g => { g with lastErr := 1#8 } else k
        let s := s.setCore core (freeWaiting (k.modWarp e.slot (·.engineDone e.op fl)) g.id)
        .next (match e.bar with
          | some (q, n) =>
            let a : Arrival := ⟨core, if q then .quad else .core, core, n, 1, some e.wg, none, false, none, false, g.pasid, fl⟩
            { s with arrivals := s.arrivals ++ [a] }
          | none => s)

end Sys2Proof.Machine
end

