-- ==== Sys2Proof/Machine/Slice.lean ====
section
/-! DEFINITION. The access slice (07 R147-R149, 03 R60): its six instructions, run by the access engine of a core. -/

namespace Sys2Proof.Machine

/-- The running slice of the core that `State.cur` names. -/
def sliceOn (s : State) : Option (Nat × Wg) := ((s.core s.cur.1).wgs.find? (·.sliceSt == .running)).map fun g => (s.cur.1, g)
def sliceEng (ci : Nat) (g : Wg) : Eng := ⟨ci, .ace g.id, g.pasid, false, 0, g.slicePc, none⟩

/-- What a slice word comes to. -/
inductive SRes where
  | next (s : State)                 -- done; the next word follows
  | goto (s : State) (pc : Dword)    -- done; the word at `pc` follows
  | stop (s : State) (st : SliceSt)  -- AEND, or a halt
  | hold (s : State)                 -- it waits

/-- A halt (R60, R148). -/
def sliceHalt (s : State) : SRes := .stop s .halted
/-- Runs a slice word. -/
def runSlice (s : State) (body : Nat → Wg → SRes) : Out :=
  match sliceOn s with
  | none => .fault .noIssuer
  | some (ci, g) => match body ci g with
    | .next s => .next (s.modWg ci g.id fun g => { g with slicePc := g.slicePc + 12#64, sliceWord := none })
    | .goto s pc => .next (s.modWg ci g.id fun g => { g with slicePc := pc, sliceWord := none })
    | .stop s st => .next ((dropGot (endKept s ci (.ace g.id)) ci (.ace g.id)).modWg ci g.id fun g => { g with sliceSt := st, sliceWord := none, stq := none, ldq := none })
    | .hold s => .next s

/-- An index register. -/
def Wg.xr (g : Wg) (n : Fin 16) : Dword := (g.x[n.val]?).getD 0#64
def Wg.xput (g : Wg) (n : Fin 16) (v : Dword) : Wg := { g with x := g.x.setIfInBounds n.val v }
def Wg.xsrc (g : Wg) : XSrc → Dword
  | .x n => g.xr n
  | .imm v => v.signExtend 64

/-- AMOV. -/
def execAmov (d : Fin 16) (a : XSrc) (s : State) : Out :=
  runSlice s fun ci g => .next (s.modWg ci g.id (·.xput d (g.xsrc a)))
/-- AADD. -/
def execAadd (d a : Fin 16) (b : XSrc) (s : State) : Out :=
  runSlice s fun ci g => .next (s.modWg ci g.id (·.xput d (g.xr a + g.xsrc b)))
/-- ALOOP. -/
def execAloop (a : Fin 16) (off : Word) (s : State) : Out :=
  runSlice s fun ci g =>
    if (g.xr a).toNat ≤ 1 then .next (s.modWg ci g.id (·.xput a 0#64))
    else .goto (s.modWg ci g.id (·.xput a (g.xr a - 1#64))) (g.slicePc + 12#64 * off.signExtend 64)

/-- The lane addresses of ALDQ and ASTQ. -/
def sliceAddrs (g : Wg) (a b : Fin 16) (off : Word) : List Dword :=
  (List.range 32).map fun l => g.xr a + BitVec.ofNat 64 l * g.xr b + off.signExtend 64
/-- The misses of a slice word, one for each line, with the lanes that touch it and their data (R185, R186). -/
def sliceMiss (s : State) (e : Eng) (kind : AccKind) (ls : List LaneAcc) : State :=
  let keys := ls.foldl (fun ks (x : LaneAcc) => if ks.contains (x.va.toNat / 128) then ks else ks ++ [x.va.toNat / 128]) []
  keys.foldl (fun s q =>
    let mine := ls.filter fun x => x.va.toNat / 128 == q
    engMissOf s e 0 e.pc (((mine.head?).map (·.va)).getD 0#64) kind.need kind mine) s
/-- A miss or a ticket of a lane of the running word is outstanding. -/
def lanePending (k : Core) (e : Eng) (lane : Nat) : Bool :=
  let mine := fun (a : Access) => a.path == e.path && a.kind != .row && a.lanes.any (·.lane == lane)
  k.misses.any (mine ·.acc) || k.tickets.any (mine ·.acc)
/-- How far the lanes of a slice word have come. -/
structure LaneRun where
  s    : State
  miss : List LaneAcc          -- lanes that miss
  left : List Dword            -- addresses of the lanes that are not done
  halt : Bool
/-- ONE LANE of a slice word: a lane address that is no multiple of 4, a denial and a refusal halt the slice; a lane whose translation
completes goes ahead, in `body`, whatever the others wait for (R148, R186, R196). -/
def sliceLane (e : Eng) (kind : AccKind) (body : State → Eng → Piece → LaneAcc → ER Unit) (x : LaneRun) (l : LaneAcc) : LaneRun :=
  let e := { e with id := l.lane, lane := some (kind, l) }
  let wait := fun (s : State) => { x with s := s, left := x.left ++ [l.va] }
  if x.halt then x
  else if l.va.toNat % 4 != 0 || !canonical l.va then { x with halt := true }
  else if lanePending (x.s.core e.ci) e l.lane || x.left.contains l.va then wait x.s
  else match engXlat x.s e l.lane l.va with
    | (s, none) => { wait s with miss := x.miss ++ [l] }
    | (s, some t) =>
      let p : Piece := ⟨t, l.va.toNat, 4⟩
      if (pieceCheck s e kind.need p).isSome then { x with s := s, halt := true }
      else match ER.fin (body s e p l) e l.lane with
        | .ok s _ => { x with s := s }
        | .wait s => wait s
        | .fail s _ => { x with s := s, halt := true }
/-- The lanes of a slice word that are not done; the misses of these go to their owners. -/
def sliceLanes (s : State) (e : Eng) (kind : AccKind) (body : State → Eng → Piece → LaneAcc → ER Unit) (ls : List LaneAcc) : LaneRun :=
  let x := ls.foldl (sliceLane e kind body) ⟨s, [], [], false⟩
  if x.halt then x else { x with s := sliceMiss x.s e kind x.miss }
/-- The lanes of ALDQ and ASTQ outside a mask, with their data. -/
def sliceAccs (g : Wg) (a b : Fin 16) (off : Word) (done : Mask) (data : Nat → Nat) : List LaneAcc :=
  ((sliceAddrs g a b off).zip (List.range 32)).filterMap fun x =>
    if laneIn done x.2 then none else some ⟨x.2, x.1, 4, data x.2, 0, .none, []⟩

/-- Closes the batch of a twinned slice, where it has one and its core has room (R422). -/
def closeSlice (s : State) (ci : Nat) (id : Nat) : State :=
  match (s.core ci).wg? id with
  | none => s
  | some g => match twinOf s g.pasid ci with
    | none => s
    | some t =>
      if g.tw.held.isEmpty || !twinRoom s g.pasid ci then s
      else (pushBatch s t ⟨ci, 40, g.tw.batch, batchDigest g.gang g.wgno 40 g.tw.batch g.tw.writes, g.tw.held⟩).modWg ci id fun g =>
        { g with tw := ⟨[], [], g.tw.batch + 1⟩ }
/-- The writes that the slice holds back. -/
def sliceHeld (s : State) (e : Eng) (id : Nat) : Nat := (((s.core e.ci).wg? id).map (·.tw.held.length)).getD 0
/-- A lane lies outside a twinned partition. -/
def laneOutside (s : State) (e : Eng) (p : Piece) : Bool := (twinOf s e.pasid e.ci).any fun t => pieceOutside s t p
/-- Reads a lane; an outside lane closes the batch first (R423). -/
def sliceRead (s : State) (e : Eng) (id : Nat) (p : Piece) : ER (List (Byte × Bool)) :=
  if !laneOutside s e p then readPiece s e p
  else
    let s := closeSlice s e.ci id
    if sliceHeld s e id = 0 then readPiece s e p else .wait s
/-- Writes a lane; an outside write of a twinned partition is held back with its poison in `cmp`, and the 64th closes the batch (R422). -/
def sliceWrite (s : State) (e : Eng) (id : Nat) (p : Piece) (v : Word) (q : Bool) : ER Unit :=
  if !laneOutside s e p then writePiece s e 4 p ((leBytes 4 v.toNat).map fun b => (b, q))
  else if 63 ≤ sliceHeld s e id && !twinRoom s e.pasid e.ci then .wait s
  else
    let a : Access := ⟨0, e.path, .store, e.pasid, false, false, e.pc, 0, .n32, .rlx, .warp, 0#8, none,
      [⟨0, BitVec.ofNat 64 p.va, 4, v.toNat, if q then 1 else 0, .none, []⟩]⟩
    let s := s.modWg e.ci id fun g => { g with tw := { g.tw with writes := g.tw.writes ++ [(p.va, 4, v.toNat)], held := g.tw.held ++ [⟨a, some p.x⟩] } }
    .ok (if 64 ≤ sliceHeld s e id then closeSlice s e.ci id else s) ()

/-- The queue is connected as the entry demands. -/
def sliceConn (g : Wg) (q : Fin 16) (c : QConn) : Bool := (g.qconn[q.val]?).getD .none == c

/-- A lane of the entry that an ALDQ loads (R148). -/
def Wg.load (g : Wg) (l : Nat) (bs : List (Byte × Bool)) : Wg :=
  { g with ldq := g.ldq.map fun q => { q with
      lanes := q.lanes.setIfInBounds l (BitVec.ofNat 32 (leNat (bs.map (·.1)))), landed := q.landed ||| (1#32 <<< l)
      poison := if bs.any (·.2) then q.poison ||| (1#32 <<< l) else q.poison } }
/-- What a lane of ALDQ does: it reads its word into the entry. -/
def ldLane (id : Nat) (s : State) (e : Eng) (p : Piece) (l : LaneAcc) : ER Unit :=
  (sliceRead s e id p).bind fun s bs => .ok (s.modWg e.ci id (·.load l.lane bs)) ()
/-- ALDQ: a free entry is waited for, then the 32 lanes are loaded, and the entry is pushed whole. -/
def execAldq (q a b : Fin 16) (off : Word) (s : State) : Out :=
  runSlice s fun ci g =>
    if !sliceConn g q .operand then sliceHalt s
    else if queueDepth q.val ≤ ((g.queues[q.val]?).getD []).length then .hold s
    else
      let ent : QEntry := g.ldq.getD ⟨0, Vector.replicate 32 0#32, 0#32, 0#32⟩
      let x := sliceLanes (s.modWg ci g.id fun g => { g with ldq := some ent }) (sliceEng ci g) .load (ldLane g.id)
        (sliceAccs g a b off ent.landed fun _ => 0)
      if x.halt then sliceHalt x.s
      else if !x.left.isEmpty then .hold x.s
      else
        let ent := ((((x.s.core ci).wg? g.id).bind (·.ldq)).getD ent)
        .next (x.s.modCore ci fun k => { (k.push g.id q.val { ent with id := k.seq }).modWg g.id fun g => { g with ldq := none } with seq := k.seq + 1 })
/-- The entry of an ASTQ with the lanes that it has stored: the one that it has popped, or the oldest of its queue, popped now once every
lane of it has landed. -/
def sliceEntry (s : State) (ci : Nat) (g : Wg) (q : Fin 16) : Option (State × QEntry × Mask) :=
  match g.stq, (g.queues[q.val]?).getD [] with
  | some x, _ => some (s, x.1, x.2)
  | none, ent :: rest =>
    if ent.landed != 0xFFFFFFFF#32 then none
    else some (s.modWg ci g.id fun g => { g with queues := g.queues.setIfInBounds q.val rest, stq := some (ent, 0#32) }, ent, 0#32)
  | none, [] => none
/-- A lane of the popped entry is stored. -/
def Wg.stored (g : Wg) (l : Nat) : Wg := { g with stq := g.stq.map fun x => (x.1, x.2 ||| (1#32 <<< l)) }
/-- The word of a lane of an entry. -/
def QEntry.word (e : QEntry) (l : Nat) : Word := (e.lanes[l]?).getD 0#32
/-- What a lane of ASTQ does: it stores its word of the popped entry. -/
def stLane (id : Nat) (ent : QEntry) (s : State) (e : Eng) (p : Piece) (l : LaneAcc) : ER Unit :=
  (sliceWrite s e id p (ent.word l.lane) (laneIn ent.poison l.lane)).bind fun s _ => .ok (s.modWg e.ci id (·.stored l.lane)) ()
/-- ASTQ: an entry is popped, and all 32 lanes are stored. -/
def execAstq (q a b : Fin 16) (off : Word) (s : State) : Out :=
  runSlice s fun ci g =>
    if !sliceConn g q .store then sliceHalt s
    else match sliceEntry s ci g q with
      | none => .hold s
      | some (s, ent, done) =>
        let x := sliceLanes s (sliceEng ci g) .store (stLane g.id ent) (sliceAccs g a b off done fun l => (ent.word l).toNat)
        if x.halt then sliceHalt x.s
        else if !x.left.isEmpty then .hold x.s
        else .next (x.s.modWg ci g.id fun g => { g with stq := none })
/-- AEND. -/
def execAend (s : State) : Out := runSlice s fun ci g => .stop (closeSlice s ci g.id) .ended

end Sys2Proof.Machine
end

