-- ==== Sys2Proof/Machine/Nib.lean ====
section
/-! DEFINITION. The nib family and the events of the nib engine (17 R332-R355): binding, fills, applications, loads and
consumes. -/

namespace Sys2Proof.Machine

/-! ### Who may name a nib (R330, R350) -/

/-- The workgroup holds the nib; a nib that system software had bound is the scribe warp's (R341). -/
def nibHeld (k : Ctx) (n : Nat) : Bool :=
  match k.g with
  | some g => g.nibMask.getLsbD n
  | none => (k.k.nib n).wg.isNone
/-- An instruction that names a bound nib. -/
def runNib (s : State) (c : Ctl) (n : Fin 4) (opds : List Opd) (body : Ctx → Nib → Res) : Out :=
  runOnce s c opds fun k =>
    let x := k.k.nib n.val
    if !nibHeld k n.val || x.st != .bound then k.ill else body k x

/-! ### Binding (R334, R347) -/

/-- The state of a nib as NBIND leaves it. -/
def Nib.start (x : Nib) (at_ : Dword) (pasid : BitVec 20) (cls : Fin 4) (scribe : Bool) (src : BitVec 16) (sem : Option Nat) : Nib :=
  { Nib.fresh x.wg with gen := x.gen + 1, st := .loading, descAt := at_, pasid := pasid, cls := cls, scribe := scribe,
                        writers := [(src, src)], readers := [(src, src)], sem := sem }
/-- NBIND (R351). -/
def execNbind (c : Ctl) (nib : Fin 4) (a : Reg) (semen : Bool) (sem : BitVec 6) (s : State) : Out :=
  runOnce s c [opdUni a] fun k =>
    let va := k.uni a
    if !nibHeld k nib.val || (k.k.nib nib.val).st != .unbound || (semen && !semHeld k.g sem.toNat) then k.ill
    else if va.toNat % 64 ≠ 0 then .trap (k.cause cMisaligned k.act va)
    else if !canonical va then .trap (k.cause cAccessDenied k.act va)
    else if cmdBlocked k.s k.ci k.wi 3 then .hold
    else .ok (k.s.modCore k.ci (·.modNib nib.val fun x =>
      x.start va k.w.pasid k.w.cls (k.wi == 31) (coreSource k.s k.ci) (if semen then some sem.toNat else none)))
/-- NIB_BIND_REQUEST: the scribe warp binds a nib in the class that system software names (R341); a fused-off core has none (R17). -/
def execNibBindRequest (core : Nat) (nib : Fin 4) (pasid : BitVec 20) (va : Dword) (cls : Fin 4) (s : State) : Out :=
  let x := (s.core core).nib nib.val
  if s.fuses.off.contains core || x.st != .unbound || x.wg.isSome || va.toNat % 64 != 0 || !canonical va then .next s
  else .next (s.modCore core (·.modNib nib.val fun x => x.start va pasid cls true (coreSource s core) none))

def nibFmt (f : Nat) : Bool := f == 0 || f == 4 || f == 12
/-- BADDESC of R334. -/
def badDesc (n : Nib) : Bool :=
  let d := n.desc
  let nf := fun (f lo : Nat) => if f = 12 then !nfdValid (BitVec.ofNat 19 (nibBits d lo 19)) else nibBits d lo 19 != 0
  nibBits d 403 109 != 0 || nibBits d 371 13 != 0 || nibBits d 339 13 != 0 || nibBits d 308 12 != 0
    || !nibFmt n.mf || !nibFmt n.vf || !(n.rfm == 2 || n.rfm == 10 || n.rfm == 12)
    || nf n.mf 320 || nf n.vf 352 || nf n.rfm 384
    || nibBits d 253 3 == 0 || nibBits d 253 3 == 7
    || (if n.classQ then 1024 else 512) < n.rows || 1024 < n.cols
    || nibBits d 192 32 < n.rowBytes || (n.rfm == 2 && (n.mf == 12 || n.vf == 12)) || (n.rfm != 12 && nibBits d 268 8 != 0)
def nibSva (n : Nib) : Dword := n.desc.extractLsb' 64 64
def nibTva (n : Nib) : Dword := n.desc.extractLsb' 128 64
def strokeBytes (n : Nib) : Nat := n.nslots * n.ssz
def traceBytes (n : Nib) : Nat := n.nslots * n.tsz
/-- A window lies wholly within one NIBW page of device memory. -/
def winOk (x : Xlat) (va : Dword) (n : Nat) : Bool :=
  x.mt == mtNibw && x.va ≤ va.toNat && va.toNat + n ≤ x.va + x.size && (x.home.isSome || isHbm (x.to va.toNat))
/-- The windows that a bind under way has been allotted, in this device's memory. -/
def Nib.asked (n : Nib) : List (Nat × Nat) :=
  match (if n.st = .loading then n.win else none) with
  | none => []
  | some (a, b) =>
    (if a.home.isNone then [(a.to (n.desc.extractLsb' 64 64).toNat, n.nslots * n.ssz)] else [])
      ++ (if b.home.isNone then [(b.to (n.desc.extractLsb' 128 64).toNat, n.nslots * n.tsz)] else [])
def askedAll (s : State) : List (Nat × Nat) := s.cores.toList.foldl (fun l k => k.nibs.toList.foldl (fun l n => l ++ n.asked) l) []
/-- The windows of a bound nib that lie on a page of another device, as this one names the page (R335; log 72). -/
def Nib.podWindows (n : Nib) : List (Nat × Nat) :=
  if n.st = .bound && !n.unbind then [(n.sva, strokeBytes n), (n.tva, traceBytes n)].filter fun w => (peerHome (lineOf w.1)).isSome else []
/-- Windows bound anywhere in the package; those of a bind under way are not (R347; log 103). -/
def allWindows (s : State) : List (Nat × Nat) :=
  (s.dies.toList.map fun d => d.windows.map fun w => (w.1, w.2.1)).foldl (· ++ ·) []
    ++ s.cores.toList.foldl (fun l k => k.nibs.toList.foldl (fun l n => l ++ n.podWindows) l) []
/-- A nib of core `ci` tells another device that a window on a page there is to be bound, or is bound no longer (R335, R348). -/
def nibSend (s : State) (ci : Nat) (pa : Nat) : State :=
  match peerHome (lineOf pa) with
  | some d => originate s ⟨coreSource s ci, BitVec.ofNat 4 d.val, 0#3⟩
  | none => s
/-- What the device of a window's page turns the bind away with: a window is bound there already, or its table is full (R334, R347; log 1). -/
def podRefusal (s : State) (a b : Xlat) : Option Byte :=
  if a.home.isNone && b.home.isNone then none
  else if Config.peerStatus s.tick = 7#4 then some 3#8
  else if Config.peerStatus s.tick = 8#4 then some 4#8
  else none
/-- Entries of a die's window table in use. -/
def tableUsed (s : State) (d : Nat) : Nat := (s.die d).windows.length + ((askedAll s).filter fun w => homeDie w.1 == d).length
/-- The lowest contiguous run of free granules (R330). -/
def freeGrans (k : Core) (n : Nat) : Option Nat :=
  let used := fun (g : Nat) => k.nibs.toList.any fun x => x.gran ≤ g && g < x.gran + x.granN
  (List.range (129 - n)).find? fun b => n ≤ 128 && (List.range n).all fun i => !used (b + i)
/-- Window-table entries of a die. -/
def tableCap : Nat := 2048
/-- The page types that the NIB path reads (R347). -/
def nibRdOk (s : State) (e : Eng) (p : Piece) : Option Byte :=
  if p.x.home.isSome || p.x.mt = mtTrk || p.x.mt = mtUnt || p.x.mt = mtHst then pieceCheck s e needRd p else some stDenied
/-- A read of a bind (R347). -/
def nibRead (s : State) (e : Eng) (id : Nat) (pc va : Dword) (n : Nat) : ER (List (Byte × Bool)) :=
  let e := { e with id := id, pc := pc }
  if engPending (s.core e.ci) e id then .wait s
  else ER.fin ((engParts s e id pc needRd (nibRdOk · e ·) (lineParts va n)).bind fun s ps => readPieces s e ps) e id
/-- The poisoned elements of a row of bytes. -/
def rowPois (n : Nib) (i : Nat) (bs : List (Byte × Bool)) : List (Nat × Nat) :=
  ((List.range n.cols).filter fun c => (List.range bs.length).any fun b =>
    ((bs[b]?).map (·.2)).getD false && c * n.wm < 8 * (b + 1) && 8 * b < (c + 1) * n.wm).map fun c => (i, c)

/-- The increment of the semaphore that ends a bind, a release: in the sync unit, or in the image of a workgroup that has been saved
(R331, R347). -/
def bindSem (s : State) (core ni : Nat) : State :=
  let k := s.core core
  match (k.nib ni).sem, (k.nib ni).wg with
  | some n, some id => match k.wg? id with
    | some g => if g.semMask.getLsbD n then s.modCore core fun k =>
        { k with syncHz := Nat.max k.syncHz k.engHz }.semPut n (satAdd ((k.sems[n]?).getD 0#32) 1#32) else s
    | none => { s with images := s.images.map fun (i : Image) => if i.core == core && i.wg.id == id && i.wg.semMask.getLsbD n
        then { i with sems := i.sems.setIfInBounds n (satAdd ((i.sems[n]?).getD 0#32) 1#32), syncHz := Nat.max i.syncHz k.engHz } else i }
  | _, _ => s
/-- A bind fails: LASTERR, and the ticket status under MATFAULT; what it had been allotted is free again. -/
def bindFail (s : State) (core ni : Nat) (code : Byte) (tk : BitVec 4) : State :=
  bindSem ((dropGot (endKept s core (.nib ni)) core (.nib ni)).modCore core (·.modNib ni fun x =>
    { x with st := .unbound, scribe := false, lastErr := code, tkst := tk, gran := 0, granN := 0, win := none, got := [] })) core ni
/-- The status that TKST keeps for a failed read: a ticket's, or PERM for a read that failed at the core. -/
def bindStatus (st : Byte) : BitVec 4 := if st.extractLsb' 4 4 = 1#4 then st.extractLsb' 0 4 else stPerm

/-- Numbers of a bind's parts: the descriptor, the windows, then the rows. -/
def nbId (n : Nib) (part : Nat) : Nat := n.gen * cpGen + part
/-- The windows' translations; an address that is not canonical is in no NIBW page. -/
def bindWindows (s : State) (e : Eng) (n : Nib) : ER (Option (Xlat × Xlat)) :=
  let id := nbId n 1
  if !canonical (nibSva n) || !canonical (nibTva n) then .ok s none
  else if engPending (s.core e.ci) e id then .wait s
  else
    let (s, a) := engXlat s e id (nibSva n)
    let (s, b) := engXlat s e id (nibTva n)
    match a, b with
    | some a, some b => ER.fin (.ok s (some (a, b))) e id
    | _, _ =>
      let s := if a.isNone then engMiss s e id n.descAt (nibSva n) 0#3 else s
      .wait (if b.isNone then engMiss s e id n.descAt (nibTva n) 0#3 else s)

/-- The nib is bound: the store holds the matrix, both windows are in their tables, every slot is EMPTY. -/
def bindDone (s : State) (core ni : Nat) (n : Nib) (rows : List (List (Byte × Bool))) (a b : Xlat) : State :=
  let sp := a.to (nibSva n).toNat
  let tp := b.to (nibTva n).toNat
  let ix := rows.zip (List.range rows.length)
  let put := fun (s : State) (x : Xlat) (pa bytes : Nat) (trace : Bool) =>
    if x.home.isSome then nibSend s core pa else s.modDie (homeDie pa) fun d => { d with windows := d.windows ++ [(pa, bytes, trace, core, ni)] }
  let s := put (put (dropGot (endKept s core (.nib ni)) core (.nib ni)) a sp (strokeBytes n) false) b tp (traceBytes n) true
  let s := s.modCore core fun k =>
    let k := { k with nibStore := ix.foldl (fun t (r : List (Byte × Bool) × Nat) => wrBytes t (4096 * n.gran + r.2 * n.rowBytes) (r.1.map fun (z : Byte × Bool) => z.1)) k.nibStore }
    k.setNib ni { n with st := .bound, sva := sp, tva := tp, win := none, got := []
                         slots := List.replicate n.nslots Slot.fresh,
                         mpois := (ix.map fun (r : List (Byte × Bool) × Nat) => rowPois n r.2 r.1).foldl (· ++ ·) [] }
  bindSem s core ni

/-- A stage of a bind: it is done, or the bind waits or has failed. -/
abbrev Stage := State × Bool
/-- Goes on after a stage that is done. -/
def Stage.next (x : Stage) (f : State → Stage) : Stage := if x.2 then f x.1 else x
/-- Steps 1 and 2 of R347: the descriptor is read once and checked. -/
def nbindRead (s : State) (core ni : Nat) : Stage :=
  let n := (s.core core).nib ni
  if n.read then (s, true)
  else match nibRead s ⟨core, .nib ni, n.pasid, n.scribe, 0, n.descAt, none⟩ (nbId n 0) n.descAt n.descAt 64 with
    | .wait s => (s, false)
    | .fail s st => (bindFail s core ni 5#8 (bindStatus st), false)
    | .ok s bs =>
      let n := { n with desc := BitVec.ofNat 512 (leNat (bs.map (·.1))), read := true }
      if badDesc n then (bindFail s core ni 1#8 0#4, false) else (s.modCore core (·.setNib ni n), true)
/-- Step 3: the windows are translated and checked, granules and table entries allotted. -/
def nbindAllot (s : State) (core ni : Nat) : Stage :=
  let n := (s.core core).nib ni
  if n.win.isSome then (s, true)
  else match bindWindows s ⟨core, .nib ni, n.pasid, n.scribe, nbId n 1, n.descAt, none⟩ n with
    | .wait s => (s, false)
    | .fail s st => (bindFail s core ni 5#8 (bindStatus st), false)
    | .ok s none => (bindFail s core ni 3#8 0#4, false)
    | .ok s (some (a, b)) =>
      let w := [(a.to (nibSva n).toNat, strokeBytes n), (b.to (nibTva n).toNat, traceBytes n)]
      let mine := (if a.home.isNone then w.take 1 else []) ++ (if b.home.isNone then w.drop 1 else [])
      let here := fun (s : State) =>
        match freeGrans (s.core core) n.grans with
        | none => (bindFail s core ni 2#8 0#4, false)
        | some g =>
          if mine.any fun x => tableCap < tableUsed s (homeDie x.1) + (mine.filter fun y => homeDie y.1 == homeDie x.1).length
          then (bindFail s core ni 4#8 0#4, false)
          else (s.modCore core (·.modNib ni fun n => { n with win := some (a, b), gran := g, granN := n.grans }), true)
      if (nibSva n).toNat % 64 ≠ 0 || (nibTva n).toNat % 64 ≠ 0 || !winOk a (nibSva n) (strokeBytes n) || !winOk b (nibTva n) (traceBytes n)
          || !apart w || w.any (fun x => (allWindows s).any (meets x)) then (bindFail s core ni 3#8 0#4, false)
      else match podRefusal s a b with
        | some code => (bindFail s core ni code 0#4, false)
        | none => here s
/-- Step 4: each matrix row is read once. -/
def nbindRows (core ni : Nat) : List Nat → State → Stage
  | [], s => (s, true)
  | i :: t, s =>
    let n := (s.core core).nib ni
    if n.got.any (·.1 == i) then nbindRows core ni t s
    else match nibRead s ⟨core, .nib ni, n.pasid, n.scribe, 0, n.descAt, none⟩ (nbId n (2 + i)) n.descAt
        (n.desc.extractLsb' 0 64 + BitVec.ofNat 64 (i * nibBits n.desc 192 32)) n.rowBytes with
      | .wait s => (s, false)
      | .fail s st => (bindFail s core ni 5#8 (bindStatus st), false)
      | .ok s r => nbindRows core ni t (s.modCore core (·.modNib ni fun n => { n with got := n.got ++ [(i, r)] }))
/-- NBIND_COMPLETE: the steps of R347, each done once, as far as they go now. -/
def execNbindComplete (core nib : Nat) (s : State) : Out :=
  if ((s.core core).nib nib).st != .loading then .next s
  else
    let x := ((nbindRead s core nib : Stage).next (nbindAllot · core nib)).next fun s =>
      nbindRows core nib (List.range ((s.core core).nib nib).rows) s
    if !x.2 then .next x.1
    else
      let n := (x.1.core core).nib nib
      match n.win with
      | none => .next x.1
      | some (a, b) => .next (bindDone x.1 core nib n ((List.range n.rows).map fun i => ((n.got.find? (·.1 == i)).map (·.2)).getD []) a b)

/-! ### Unbinding and aborting (R348, R349) -/

/-- Removes a nib's windows from every table. -/
def dropWindows (s : State) (core ni : Nat) : State :=
  let own := fun (w : Nat × Nat × Bool × Nat × Nat) => w.2.2.2.1 == core && w.2.2.2.2 == ni
  let s := ((s.core core).nib ni).podWindows.foldl (fun s w => nibSend s core w.1) s
  { s with dies := s.dies.map fun (d : Die) => { d with windows := d.windows.filter (!own ·) } }
/-- The last step of R348. -/
def Nib.unbound (x : Nib) : Nib := { x with st := .unbound, scribe := false, unbind := false, slots := [], gran := 0, granN := 0, mpois := [] }
def Nib.busy (x : Nib) : Bool := x.slots.any (·.st == .applying)
/-- NUNBIND's steps: the windows go, slots not being applied are discarded, waiting loads take poison. -/
def nibUnbind (s : State) (core ni : Nat) : State :=
  let s := serveLoads (dropWindows s core ni) core ni (fun _ => true) false
  s.modCore core (·.modNib ni fun x =>
    let x := { x with slots := x.slots.map fun y => if y.st = .applying then { y with drop := true } else Slot.fresh, unbind := true }
    if x.busy then x else x.unbound)
/-- NUNBIND. -/
def execNunbind (c : Ctl) (nib : Fin 4) (s : State) : Out :=
  runNib s c nib [] fun k _ =>
    .ok (settle ((nibUnbind k.s k.ci nib.val).modWarp k.ci k.wi fun w => { w with wait := .nunbind nib.val (k.k.nib nib.val).gen }) k.ci k.wi)
/-- NABORT on the slots that `p` names. -/
def nibAbort (s : State) (core ni : Nat) (p : Nat → Bool) : State :=
  (serveLoads s core ni p false).modCore core (·.modNib ni fun x =>
    { x with slots := (x.slots.zip (List.range x.slots.length)).map fun e =>
        if !p e.2 then e.1 else if e.1.st = .applying then { e.1 with drop := true } else Slot.fresh })
/-- NABORT (R355). -/
def execNabort (c : Ctl) (nib : Fin 4) (a : Option Reg) (s : State) : Out :=
  runNib s c nib (a.toList.map opdUni) fun k x =>
    match a with
    | none => .ok (nibAbort k.s k.ci nib.val fun _ => true)
    | some r =>
      let n := (k.uni r).toNat
      if x.nslots ≤ n then k.ill else .ok (nibAbort k.s k.ci nib.val (· == n))

/-! ### NGRANT, NSTAT, NLDC (R352-R354) -/

/-- Range j of NGRANT. -/
def grantRange (k : Ctx) (i j : Nat) : BitVec 16 × BitVec 16 :=
  let v := (k.w.sreg (i + j / 2)) >>> (32 * (j % 2))
  (v.extractLsb' 0 16, v.extractLsb' 16 16)
/-- NGRANT: its ranges stand in scalar registers; with a COUNT of 0 it reads none. -/
def execNgrant (c : Ctl) (nib : Fin 4) (rdr : Bool) (a : Reg) (count : Fin 16) (s : State) : Out :=
  runNib s c nib (if count = 0 then [opdUni a] else scalarRun a ((count.val + 1) / 2)) fun k _ =>
    let i := match a with | .s n => n.val | _ => 0
    let l := (List.range count.val).map (grantRange k i)
    .ok (k.s.modCore k.ci (·.modNib nib.val fun x => if rdr then { x with readers := l } else { x with writers := l }))
def slotCode : SlotSt → Nat
  | .empty => 0 | .filling => 1 | .ready => 2 | .applying => 3 | .done => 4 | .failed => 5
/-- The words of NSTAT (R353). -/
def nstatOf (x : Nib) (sel sl : Nat) : Nat :=
  let count := fun (p : SlotSt → Bool) => (x.slots.filter fun y => p y.st).length
  if sel = 0 then
    count (fun t => t == .ready || t == .applying) + count (· == .done) * 2 ^ 9
      + (match x.st with | .unbound => 0 | .loading => 1 | .bound => 2) * 2 ^ 18
      + x.tkst.toNat * 2 ^ 20 + x.lastErr.toNat * 2 ^ 24 + x.lastNr.toNat * 2 ^ 32 + x.nflags.toNat * 2 ^ 40
  else if sel = 1 then x.refcnt.toNat + x.nrcnt.toNat * 2 ^ 16 + x.failcnt.toNat * 2 ^ 32 + x.appcnt.toNat * 2 ^ 48
  else
    let y := x.slot sl
    slotCode y.st * 2 ^ 8 + (if y.st = .empty then 0 else y.owner.toNat) * 2 ^ 11 + y.map.length * 2 ^ 27
/-- NSTAT. -/
def execNstat (c : Ctl) (nib : Fin 4) (sel : Fin 3) (clr : Bool) (d : Reg) (a : Option Reg) (s : State) : Out :=
  runOnce s c (opdS d :: a.toList.map opdUni) fun k =>
    let x := k.k.nib nib.val
    let sl := match a with | some r => (k.uni r).toNat | none => 0
    if !nibHeld k nib.val || (sel = 2 && (x.st != .bound || x.nslots ≤ sl)) then k.ill
    else
      let s := writeLanes k.s k.ci k.wi .n64 d [(0, (nstatOf x sel.val sl : Int))]
      .ok (if clr then s.modCore k.ci (·.modNib nib.val fun x =>
        { x with refcnt := 0#16, nrcnt := 0#16, failcnt := 0#16, appcnt := 0#16 }) else s)
/-- NLDC (R354): the lanes of one trace slot are one access at the nib, a load and a consume. -/
def execNldc (m : MemOp) (s : State) : Out :=
  let sc := isScalar m.d
  runInstr s m.c sc true [opdLd m.ty m.d, opdBase m.a, opdIndex m.b] fun k =>
    runAccess m.c .nldc m.ty false m.ord m.scope true
      ((memLanes k sc).map fun l => ⟨l, k.ea m.a m.b m.off l, tyWidth m.ty / 8, 0, 0, destOf k m.ty m.d l, []⟩) k

/-! ### Accesses that arrive (R339, R343) -/

/-- The oldest message at a core's nib engine, with the window that it lies in. -/
def nibHead (s : State) (core : Nat) : Option (InMsg × Option (Nat × Nat × Bool × Nat × Nat)) :=
  match (s.core core).nibIn with
  | [] => none
  | m :: _ => some (m, nibWindow s ((m.pas.head?).getD 0) 1)
def popNib (s : State) (core : Nat) : State := s.modCore core fun k => { k with nibIn := k.nibIn.drop 1 }
/-- A message in no bound window fails with NOMAP (R335). -/
def nibNomap (s : State) (core : Nat) (m : InMsg) : State := endLoad (popNib s core) m.core m.acc [] m.acc.mask stNomap
/-- A store ends at its warp; one that was refused is kept for NIB_REFUSED (R208), any other leaves its release at the nib of core `g`. -/
def endStore (s : State) (g : Nat) (m : InMsg) (refused : Bool) : State :=
  match m.acc.slot? with
  | none => s
  | some w =>
    let s := if refused then s
      else
        let rel := carried s m.core m.acc
        (noteStore s m.core m.acc (lineOf ((m.pas.head?).getD 0))).modCore g fun k => { k with nibHz := Nat.max k.nibHz rel }
    let s := if refused then s.modWarp m.core w fun x => { x with nibRef := some ((x.nibRef.getD 0#32) ||| m.acc.mask) } else s
    finishOut s m.core w m.acc [] 0#32 0#4
/-- The bytes of a message's lanes, as places in their slot. -/
def msgBytes (m : InMsg) (base size : Nat) : List (Nat × Byte × Bool) :=
  ((m.acc.lanes.zip m.pas).map fun e => (List.range e.1.size).map fun i =>
    ((e.2 - base) % Nat.max 1 size + i, BitVec.ofNat 8 (e.1.data / 2 ^ (8 * i)), false)).foldl (· ++ ·) []
/-- STROKE_STORE. -/
def execStrokeStore (core : Nat) (s : State) : Out :=
  match nibHead s core with
  | some (m, none) => .next (if m.acc.kind == .store then nibNomap s core m else s)
  | some (m, some (b, _, false, c, ni)) =>
    if m.acc.kind != .store then .next s
    else
      let n := (s.core c).nib ni
      let sl := (((m.pas.head?).getD 0) - b) / Nat.max 1 n.ssz
      let (k, r) := strokeStore ((popNib s core).core c) ni (coreSource s m.core) sl (msgBytes m b n.ssz)
      .next (endStore ((popNib s core).setCore c k) c m r)
  | _ => .next s
/-- CONSUME. -/
def execConsume (core : Nat) (s : State) : Out :=
  match nibHead s core with
  | some (m, some (b, _, true, c, ni)) =>
    if m.acc.kind != .store then .next s
    else
      let (k, r) := traceStore ((popNib s core).core c) ni (coreSource s m.core) (((m.pas.head?).getD 0) - b)
      .next (endStore ((popNib s core).setCore c k) c m r)
  | _ => .next s
/-- STROKE_LOAD: a load of a stroke slot fails with PERM. -/
def execStrokeLoad (core : Nat) (s : State) : Out :=
  match nibHead s core with
  | some (m, some (_, _, false, _, _)) =>
    if m.acc.kind == .store then .next s else .next (endLoad (popNib s core) m.core m.acc [] m.acc.mask stPerm)
  | _ => .next s
/-- TRACE_LOAD: the result, poison, or a wait at the nib. -/
def execTraceLoad (core : Nat) (s : State) : Out :=
  match nibHead s core with
  | some (m, none) => .next (if m.acc.kind == .store then s else nibNomap s core m)
  | some (m, some (b, _, true, c, ni)) =>
    if m.acc.kind == .store then .next s
    else
      let s := popNib s core
      let n := (s.core c).nib ni
      let sl := (((m.pas.head?).getD 0) - b) / Nat.max 1 n.tsz
      if !inSet n.readers (coreSource s m.core) then .next (endLoad s m.core m.acc [] m.acc.mask stPerm)
      else match (n.slot sl).st with
        | .done | .failed =>
          let s := if (n.slot sl).st = .done then nibAcquire s c m.core m.acc else s
          let s := endLoad s m.core m.acc (loadWrites n (some (n.slot sl)) m.acc m.pas) 0#32 0#4
          .next (if m.acc.kind == .nldc && lastPart s c ni m.core m.acc m.pas then s.modCore c (·.modNib ni (·.free sl)) else s)
        | _ =>
          if nibBits n.desc 292 16 = 0 then
            .next (endLoad (s.modCore c (·.modNib ni (·.noteNr sl))) m.core m.acc (loadWrites n none m.acc m.pas) 0#32 0#4)
          else .next (s.modCore c (·.modNib ni fun n => { n with loads := n.loads ++ [NibLoad.mk m.core m.acc m.pas sl] }))
  | _ => .next s
/-- WAIT_LIMIT_EXPIRY: a waiting load completes NOTREADY, with poison. -/
def execWaitLimitExpiry (core nib index : Nat) (s : State) : Out :=
  let n := (s.core core).nib nib
  match n.loads[index]? with
  | none => .next s
  | some l =>
    let s := s.modCore core (·.modNib nib fun n => { n with loads := n.loads.eraseIdx index }.noteNr l.slot)
    .next (endWait s core n none l)
/-- FILL_LIMIT_EXPIRY (R340). -/
def execFillLimitExpiry (core nib slot : Nat) (s : State) : Out :=
  let n := (s.core core).nib nib
  if (n.slot slot).st != .filling || nibBits n.desc 276 16 == 0 then .next s
  else
    let s := s.modCore core (·.modNib nib fun n =>
      { n.setSlot slot { Slot.fresh with st := .failed, owner := (n.slot slot).owner } with failcnt := n.failcnt + 1 })
    .next (serveLoads s core nib (· == slot) true)

/-! ### Applications (R341) -/

/-- The value of an element code. -/
def nibVal (f nfd c : Nat) : Val :=
  if f = 0 then .ofInt ((BitVec.ofNat 8 c).toInt) else if f = 4 then .ofInt (c : Int) else (nfdFmt (BitVec.ofNat 19 nfd)).value c
/-- The value's exact integer, for i32 results. -/
def nibInt (f c : Nat) : Int := if f = 0 then (BitVec.ofNat 8 c).toInt else (c : Int)
/-- A vector byte of element `i` is poisoned. -/
def vecPois (n : Nib) (x : Slot) (i : Nat) : Bool := x.vpois.any fun b => 8 * b < (i + 1) * n.wv && i * n.wv < 8 * (b + 1)
/-- Scales a binary32 code by OSHIFT and rounds it to the result format; a finite sum never becomes infinite. -/
def nibRound (n : Nib) (c : Nat) : Nat × Flags5 :=
  let f := nfdFmt (BitVec.ofNat 19 (nibBits n.desc 384 19))
  let v := match fmtF32.value c with
    | .fin s m => Val.fin s { m with exp := m.exp + (BitVec.ofNat 8 (nibBits n.desc 268 8)).toInt }
    | w => w
  let r := f.round v .rne 0#32
  match v, f.value r.code with
  | .fin s _, .inf _ => (f.signed s f.maxCode, r.flags)
  | _, _ => (r.code, r.flags)
/-- Result element `i`: its code, flags and poison. -/
def nibElem (k : Core) (n : Nib) (x : Slot) (i : Nat) : Nat × Flags5 × Bool :=
  let row := leNat (rdBytes k.nibStore (4096 * n.gran + i * n.rowBytes) n.rowBytes)
  let vec := leNat (rdBytes x.bytes 0 n.vb)
  let ks := List.range n.cols
  let bad := ks.any fun j => vecPois n x j || n.mpois.contains (i, j)
  if n.rfm = 2 then
    let y := ks.foldl (fun (a : Int) j => a + nibInt n.mf (packedElem row n.wm j) * nibInt n.vf (packedElem vec n.wv j)) 0
    ((BitVec.ofInt 32 y).toNat, 0#5, bad)
  else
    let pair := fun (j : Nat) => (nibVal n.mf (nibBits n.desc 320 19) (packedElem row n.wm j), nibVal n.vf (nibBits n.desc 352 19) (packedElem vec n.wv j))
    let groups := (List.range (ceilDiv n.cols 64)).map fun q => ((List.range (Nat.min 64 (n.cols - 64 * q))).map fun t => pair (64 * q + t))
    let int := fun (f nfd : Nat) => f == 0 || f == 4 || (nfdFmt (BitVec.ofNat 19 nfd)).e == 0
    let (c, f) := addGroups (int n.mf (nibBits n.desc 320 19) && int n.vf (nibBits n.desc 352 19)) groups (0, 0#5)
    if n.rfm = 12 then let r := nibRound n c; (r.1, f ||| r.2, bad) else (c, f, bad)
/-- The application of a slot: the result bytes, the poisoned elements, the flags. -/
def nibApply (tick : Nat) (k : Core) (n : Nib) (x : Slot) : List Byte × List Nat × Flags5 :=
  let ys := (List.range n.rows).map fun i => (i, nibElem k n x i)
  let v := ys.foldl (fun a y => a + (if y.2.2.2 then (Config.poisonBits tick y.1).toNat else y.2.1) % 2 ^ n.wr * 2 ^ (n.wr * y.1)) 0
  (leBytes n.rb v, (ys.filter (·.2.2.2)).map (·.1), ys.foldl (fun f y => if y.2.2.2 then f else f ||| y.2.2.1) 0#5)

/-- Puts a stamped slot in its place among older and younger ones. -/
def insertSlot (x : Nat × Nat) : List (Nat × Nat) → List (Nat × Nat)
  | [] => [x]
  | y :: t => if x.1 < y.1 then x :: y :: t else y :: insertSlot x t
/-- READY slots of a nib, oldest first. -/
def readySlots (n : Nib) : List (Nat × Nat) :=
  (((n.slots.zip (List.range n.slots.length)).filter (·.1.st == .ready)).map fun e => (e.1.seq, e.2)).foldr insertSlot []
/-- The nib to serve: highest class, then oldest READY slot (R341). -/
def bestNib (k : Core) : Option Nat :=
  ((List.range 4).filterMap fun i => match readySlots (k.nib i) with
    | (q, _) :: _ => some (i, (k.nib i).cls.val, q)
    | [] => none).foldl (fun (b : Option (Nat × Nat × Nat)) x => match b with
      | none => some x
      | some y => if x.2.1 < y.2.1 || (x.2.1 == y.2.1 && x.2.2 < y.2.2) then some x else some y) none |>.map (·.1)
/-- A save or a halt waits for the running entry (R324). -/
def arrayWanted (k : Core) : Bool := (k.haltReq || k.wgs.any (·.stopping)) && k.fifo.any fun e => e.run && e.array
/-- NIB_PASS: up to 64 READY slots of one nib are taken. -/
def execNibPass (core : Nat) (s : State) : Out :=
  let k := s.core core
  if k.nibs.toList.any Nib.busy || arrayWanted k then .next s
  else match bestNib k with
    | none => .next s
    | some i =>
      let n := k.nib i
      let mine := (readySlots n).take 64
      let n' := mine.foldl (fun (n : Nib) e => n.setSlot e.2 { n.slot e.2 with st := .applying }) n
      .next (s.modCore core fun k => { k.setNib i n' with nibLeft := mine.length * n.cycles }.govRun)
/-- The APPLYING slot that became READY first, with its nib. -/
def nextApplying (k : Core) : Option (Nat × Nat) :=
  (((List.range 4).map fun i => (((k.nib i).slots.zip (List.range (k.nib i).slots.length)).filter (·.1.st == .applying)).map
    fun e => (e.1.seq, i, e.2)).foldl (· ++ ·) []).foldl (fun (b : Option (Nat × Nat × Nat)) x => match b with
      | none => some x
      | some y => if x.1 < y.1 then some x else some y) none |>.map (·.2)
/-- NIB_APPLICATION_DONE: the trace write (R341, R345). -/
def execNibApplicationDone (core : Nat) (s : State) : Out :=
  let k := s.core core
  if k.nibLeft ≠ 0 then .next s
  else match nextApplying k with
    | none => .next s
    | some (i, sl) =>
      let n := k.nib i
      let x := n.slot sl
      let (res, rp, fl) := nibApply s.tick k n x
      let y := if x.drop then Slot.fresh else { x with st := .done, res := res, rpois := rp, map := x.map }
      let n := { n.setSlot sl y with appcnt := n.appcnt + 1, nflags := n.nflags ||| fl }
      let n := if n.unbind && !n.busy then n.unbound else n
      let s := s.modCore core (·.setNib i n)
      .next (if x.drop then s else serveLoads s core i (· == sl) true)

end Sys2Proof.Machine
end

