-- ==== Sys2Proof/Machine/Pages.lean ====
section
/-! DEFINITION. Bammar's page tables, free frames and the service of pages (08 R173, R174, R181, R461). -/

namespace Sys2Proof.Machine

/-! ### Frames -/

/-- Takes an aligned block out of a list of free extents, the first that holds one. -/
def takeBlock (size : Nat) : List (Nat × Nat) → Option (Nat × List (Nat × Nat))
  | [] => none
  | (b, n) :: t =>
    let a := (b + size - 1) / size * size
    if a + size ≤ b + n then
      some (a, (if a = b then [] else [(b, a - b)]) ++ (if a + size = b + n then [] else [(a + size, b + n - a - size)]) ++ t)
    else (takeBlock size t).map fun r => (r.1, (b, n) :: r.2)
/-- Takes a frame of the free HBM of a die. -/
def takeFrame (s : State) (d size : Nat) : Option (Nat × State) :=
  (takeBlock size (s.die d).frames).map fun r => (r.1, s.modDie d fun k => { k with frames := r.2 })
/-- Takes a stated block out of the free extents. -/
def cutBlock (a n : Nat) (l : List (Nat × Nat)) : List (Nat × Nat) :=
  l.foldr (fun e t =>
    (if e.1 < a then [(e.1, Nat.min e.2 (a - e.1))] else []) ++
      (let lo := Nat.max e.1 (a + n); if lo < e.1 + e.2 then [(lo, e.1 + e.2 - lo)] else []) ++ t) []

/-- Drops every cached copy of a range of HBM. -/
def dropCopies (s : State) (pa n : Nat) : State :=
  let out := fun (l : Nat) => l * 128 + 128 ≤ pa || pa + n ≤ l * 128
  { s with
    cores := s.cores.map fun k => { k with l1 := k.l1.filter fun e => out e.pline }
    dies := s.dies.map fun (k : Die) => { k with l2 := k.l2.filter (fun t => out t.line), unt := k.unt.filter (fun u => out u.line) } }
/-- Writes 0 to every byte of a range of HBM, without poison, at `.sys` (R381, R461). -/
def zeroHbm (s : State) (pa n : Nat) : State :=
  let s := dropCopies s pa n
  { s with hbm := tabDrop pa (pa + n) s.hbm, hbmPois := setDrop (pa / 64) ((pa + n) / 64) s.hbmPois }

/-! ### Entries -/

/-- Bammar writes a page table entry and keeps its copy of it (R461). -/
def pteWrite (s : State) (a : Nat) (e : Dword) : State :=
  let d := homeDie a
  (s.sysWrite (d * 96) a (leBytes 8 e.toNat)).modDie d fun k => { k with ptes := (a, e) :: k.ptes.filter (·.1 != a) }
/-- Bammar's copy of an entry; an entry it has not written has none. -/
def pteCopy (s : State) (a : Nat) : Option Dword := ((s.die (homeDie a)).ptes.find? (·.1 == a)).map (·.2)

/-- The table of level `low` that covers an address, with the tables that lead there; missing ones are made from free
frames. -/
def tableAt (s : State) (va low : Nat) : Nat → Nat → Option (State × Nat)
  | lv, tab =>
    if lv ≤ low then some (s, tab)
    else
      let a := tab + 8 * levelIndex lv va
      let e := s.hbm64 a
      match lv with
      | 0 => some (s, tab)
      | lv + 1 =>
        if e.extractLsb' 0 2 = 1#2 then tableAt s va low lv ((e.extractLsb' 8 44).toNat * 256)
        else if e.extractLsb' 0 2 = 0#2 then
          match takeFrame s (homeDie tab) 4096 with
          | none => none
          | some (f, s) => tableAt (pteWrite (zeroHbm s f 4096) a (BitVec.ofNat 64 (f + 1))) va low lv f
        else none
/-- The root of a PASID's tables, made on die 0 for a PASID that has none; every die holds its address (R173). -/
def rootOf (s : State) (pasid : BitVec 20) : Option (State × Nat) :=
  match (s.die 0).roots.find? (·.pasid == pasid) with
  | some r => some (s, r.root)
  | none => (takeFrame s 0 4096).map fun r =>
      let s := zeroHbm r.2 r.1 4096
      ({ s with dies := s.dies.map fun (k : Die) => { k with roots := k.roots ++ [Root.mk pasid r.1 false] } }, r.1)
/-- Writes a leaf or another entry at a level of a PASID's tables. -/
def setEntry (s : State) (pasid : BitVec 20) (va lv : Nat) (e : Dword) : Option State :=
  (rootOf s pasid).bind fun (s, root) => (tableAt s va lv 4 root).map fun (s, tab) => pteWrite s (tab + 8 * levelIndex lv va) e
/-- A leaf: frame, memory type, permissions. -/
def leafEntry (pa : Nat) (unt rd w x : Bool) : Dword :=
  BitVec.ofNat 64 (2 + (if unt then 2 ^ 13 else 0) + pa + (if rd then 2 ^ 52 else 0) + (if w then 2 ^ 53 else 0) + (if x then 2 ^ 54 else 0))

/-! ### The service of a page (R461) -/

/-- The declared range of a PASID that covers an address. -/
def rangeOf (s : State) (pasid : BitVec 20) (va : Nat) : Option Range :=
  (s.die 0).ranges.find? fun r => r.pasid == pasid && r.va ≤ va && va < r.va + r.bytes
def Range.page (r : Range) : Nat := if r.big then 0x200000 else 0x10000

/-- A byte of memory at a translation, as Bammar reads it, with its poison. -/
def physByte (s : State) (d : Nat) (mt : Fin 6) (pa : Nat) : Byte × Bool :=
  if mt = mtHst then (tabGet 0#8 s.hostMem pa, false)
  else if mt = mtUnt then
    let (x, p) := match (s.die d).unt? (lineOf pa) with
      | some u => (u.data, u.pois)
      | none => untHome s (lineOf pa)
    (BitVec.ofNat 8 (dataAt x (pa % 128) 1), poisIn p (pa % 128) 1)
  else (tabGet 0#8 s.hbm pa, setHas s.hbmPois (pa / 64))

/-- Copies a page into a free frame, 64 B at a time. -/
def fillFrame (s : State) (pa n : Nat) (f : Nat → Byte × Bool) : State :=
  (List.range (n / 64)).foldl (fun s i =>
    let bs := (List.range 64).map fun j => f (64 * i + j)
    s.hbmWrite (pa + 64 * i) (bs.map (·.1)) (bs.any (·.2))) (dropCopies s pa n)

/-- What a service comes to: the translation is ready, or a status of R184; `host` passes to the host (R180). -/
inductive Served where
  | status (st : BitVec 4)
  | host
deriving DecidableEq, Repr

/-- Makes the page of a declared range resident: a frame is allocated, filled and mapped; `src` makes a page of the
source resident, of those that its bytes lie in. Of a source page that cannot be made so, the bytes are 0 (log 91). A host source is read
as host memory stands, whether the host link is up or down, of which the spec says nothing (log 109). -/
def makePage (s : State) (pasid : BitVec 20) (va : Nat) (r : Range) (src : State → Nat → State) : State × BitVec 4 :=
  let size := r.page
  let d := homeDie ((((s.die 0).roots.find? (·.pasid == pasid)).map (·.root)).getD 0)
  match takeFrame s d size with
  | none => (reportError s 1 0x207 (unitSource s d 144) va 0 none, stNomap)
  | some (f, s) =>
    let base := va / size * size
    let s := match r.src with
      | .zero => zeroHbm s f size
      | .host hpa => fillFrame s f size fun i => (tabGet 0#8 s.hostMem (hpa + (base - r.va) + i), false)
      | .device v =>
        let from_ := v.toNat + (base - r.va)
        let s := (List.range (size / 0x10000 + 1)).foldl (fun s i => src s (Nat.min (from_ + 0x10000 * i) (from_ + size - 1))) s
        fillFrame s f size fun i => match walk s d pasid (BitVec.ofNat 64 (from_ + i)) with
          | .leaf x => if x.home.isSome && !peerCopy s d (x.to (from_ + i)) then (Config.peerByte s.tick (from_ + i), false)
              else physByte s d x.mt (x.to (from_ + i))
          | _ => (0#8, false)
    match setEntry s pasid base (if r.big then 1 else 0) (leafEntry f r.unt r.rd r.w r.x) with
    | some s => (s, 0#4)
    | none => (reportError s 1 0x207 (unitSource s d 144) va 0 none, stNomap)

/-- SERVICES A PAGE as R461 gives it, for a scribe warp or another requester (R176); the count bounds repairs and sources of sources. -/
def servePage : Nat → State → Nat → BitVec 20 → Nat → BitVec 3 → Bool → State × Served
  | 0, s, _, _, _, _, _ => (s, .status stNomap)
  | n + 1, s, d, pasid, va, need, scr =>
    match walk s d pasid (BitVec.ofNat 64 va) with
    | .leaf x => (s, .status (if permits x need scr then 0#4 else stPerm))
    | .host => (s, .host)
    | .notPresent _ _ => match rangeOf s pasid va with
      | none => (s, .status stNomap)
      | some r =>
        let (s, st) := makePage s pasid va r fun s v => (servePage n s d pasid v needRd true).1
        if st ≠ 0#4 then (s, .status st)
        else if (!need.getLsbD 0 || r.rd) && (!need.getLsbD 1 || r.w) && (!need.getLsbD 2 || r.x) then (s, .status 0#4)
        else (s, .status stPerm)
    | .malformed a => match pteCopy s a with
      | some e => if e = s.hbm64 a then (s, .status stMalformed) else servePage n (pteWrite s a e) d pasid va need scr
      | none => (s, .status stMalformed)

/-! ### Tickets at their owner (R182, R183) -/

def ticketId (pkg d index : Nat) (gen : BitVec 10) : Word := BitVec.ofNat 32 (pkg * 2 ^ 28 + d * 2 ^ 26 + index * 2 ^ 10 + gen.toNat)
/-- A new record of a die's owner at the lowest free index; none when all 65,536 are in use. -/
def newRec (s : State) (d core : Nat) (pasid : BitVec 20) (va : Dword) (need : BitVec 3) (scr : Bool) (ph : Phase) : Option (State × OwnRec) :=
  let k := s.die d
  match (List.range (k.own.length + 1)).find? fun i => !k.own.any (·.index == i) with
  | none => none
  | some i =>
    if 65536 ≤ i then none
    else
      let g := tabGet 0#10 k.gens i
      let r : OwnRec := ⟨i, g, core, pasid, va, need, ph, scr, none⟩
      some (s.setDie d { k with own := k.own ++ [r], gens := tabSet 0#10 k.gens i (g + 1) }, r)
def OwnRec.tid (s : State) (d : Nat) (r : OwnRec) : Word := ticketId s.pkg.val d r.index r.gen
/-- Requesters beyond the cores: a die's own walker, and those of another device. -/
def walkerCore : Nat := 384
def peerCore (dev : Nat) : Nat := 385 + dev
/-- Posts the replay notice of a record (R181, R183): success leaves a page hold. One for a requester of another device goes there
from the MMP, in class RSP (R261). -/
def postNotice (s : State) (d : Nat) (r : OwnRec) (st : BitVec 4) : State :=
  let s := if r.core ≤ walkerCore then s else originate s ⟨unitSource s d 144, BitVec.ofNat 4 (r.core - peerCore 0), 2#3⟩
  s.modDie d fun k => { k with
    notices := if r.core ≤ walkerCore then k.notices ++ [Notice.mk r.core (r.tid s d) st] else k.notices
    own := if st = 0#4 then updFirst (·.index == r.index) (fun (x : OwnRec) => { x with phase := .noticed }) k.own
           else k.own.filter (·.index != r.index) }

/-! ### Reads and writes of a die's walker by virtual address (R364, R369) -/

/-- What a read of the walker comes to; one that waits has asked for its translation. -/
inductive CR (α : Type) where
  | ok (s : State) (v : α)
  | wait (s : State)
  | fail (s : State) (st : BitVec 4)
def CR.bind {α β : Type} (x : CR α) (f : State → α → CR β) : CR β :=
  match x with
  | .ok s v => f s v
  | .wait s => .wait s
  | .fail s st => .fail s st

/-- The translation of one address; a page that is not resident is serviced, a host page goes through ATS (R180). -/
def cpuXlat (s : State) (d : Nat) (pasid : BitVec 20) (va : Dword) (need : BitVec 3) : CR Xlat :=
  if !canonical va then .fail s stPerm
  else match servePage 8 s d pasid va.toNat need true with
    | (s, .status st) => if st ≠ 0#4 then .fail s st
        else match walk s d pasid va with
          | .leaf x => .ok s x
          | _ => .fail s stNomap
    | (s, .host) => match (s.die d).hx.find? fun x => x.covers pasid va.toNat && permits x need true with
      | some x => .ok s x
      | none =>
        let k := s.die d
        let mine := fun (r : OwnRec) => r.core == walkerCore && r.pasid == pasid && r.va == va
        match k.own.find? mine with
        | some _ => .wait s
        | none => match k.notices.find? fun n => n.core == walkerCore with
          | some n => .fail (s.setDie d { k with notices := k.notices.erase n }) n.st
          | none => match newRec s d walkerCore pasid va need true (.atsDue false) with
            | some (s, _) => .wait s
            | none => .wait s
/-- Reads bytes that lie in one page: TCBs, descriptors and argument words are aligned. -/
def cpuRead (s : State) (d : Nat) (pasid : BitVec 20) (va : Dword) (n : Nat) : CR Nat :=
  (cpuXlat s d pasid va needRd).bind fun s x =>
    if x.home.isSome then
      if Config.peerStatus s.tick = 0#4 then .ok s (leNat ((peerBytes s va.toNat n).map (·.1))) else .fail s (Config.peerStatus s.tick)
    else if x.mt.val ≥ 3 then .fail s stPerm
    else
      let s := if x.mt = mtHst then s else snoopBytes s (d * 96) (x.to va.toNat) n
      .ok s (leNat ((List.range n).map fun i => (physByte s d x.mt (x.to va.toNat + i)).1))
/-- Writes bytes that lie in one page, under a translation. -/
def cpuPut (s : State) (d : Nat) (x : Xlat) (va : Dword) (bs : List Byte) : State :=
  let pa := x.to va.toNat
  if x.home.isSome then s
  else if x.mt = mtHst then { s with hostMem := wrBytes s.hostMem pa bs }
  else if x.mt = mtUnt then (bs.zip (List.range bs.length)).foldl (fun s e => untWrite s d (lineOf (pa + e.2)) ((pa + e.2) % 128) 1 e.1.toNat false) s
  else if x.mt = mtTrk then s.sysWrite (d * 96) pa bs
  else s
/-- A posted write of the walker; one whose translation is still asked for is kept. -/
def cpuWrite (s : State) (d : Nat) (pasid : BitVec 20) (va : Dword) (bs : List Byte) : State :=
  match cpuXlat s d pasid va needW with
  | .fail s _ => s
  | .wait s => s.modDie d fun k => { k with cpuW := k.cpuW ++ [(pasid, va, bs)] }
  | .ok s x => cpuPut s d x va bs

end Sys2Proof.Machine
end

