-- ==== Sys2Proof/Machine/Tickets.lean ====
section
/-! DEFINITION. The events of fault tickets and of host translations (08 R177-R198, 20 R390, R396, 21 R403-R405). -/

namespace Sys2Proof.Machine

/-! ### The requester (R185-R189) -/

/-- The frontier's lanes at the issuing entry. -/
def Warp.lanesNow (w : Warp) : Mask := match w.front with | e :: _ => e.mask | [] => 0#32
/-- A failed ticket of a copy channel ends its record with the status (R189, R292), and one of the status word its chain; that of a
destination is held against the checks of R288 first; one of an earlier record has no effect. -/
def chanFail (s : State) (ci ch id : Nat) (st : BitVec 4) : State :=
  let c := s.chan ci ch
  if id / cpGen ≠ c.gen then s
  else match c.cur with
  | none => if id = cpRecId c then endChain s ci ch (stTicket st) else s
  | some r =>
    if id = cpStId c then endChain s ci ch (if r.status = stOk then stTicket st else r.status)
    else if id = cpDstId c then
      s.modChan ci ch fun c => { c with cur := c.cur.map fun r => if r.status = stOk then { r with status := stTicket st } else r }
    else s.modChan ci ch fun c => { c with cur := c.cur.map fun r => if r.status = stOk then { r with status := stTicket st, begun := true } else r }

/-- A TICKET FAILS (R189, R194, R347, R390): its lanes are not performed. -/
def failAccess (s : State) (ci : Nat) (a : Access) (va : Dword) (st : BitVec 4) : State :=
  match a.path with
  | .lsu w => drain (finishLsu s ci w a [] a.mask st) ci w
  | .fetch w => match s.warp? ci w with
    | none => s
    | some x => takeTrap (s.modWarp ci w fun w => { w with wait := .none }) ci w
        ⟨cTicketError, x.lanesNow, a.pc, a.pos, BitVec.ofNat 64 (((a.lanes.head?).map (·.data)).getD va.toNat), 0#32, st, false⟩
  | .cpy ch => chanFail s ci ch a.id st
  | .ace g => match (s.core ci).wg? g with
    | none => s
    | some x =>
      let s := (endKept s ci a.path).modWg ci g fun g => { g with sliceSt := .halted, stq := none, ldq := none }
      if (s.core ci).warps.toList.all fun w => match w with | some w => w.wg != some g || w.ended | none => true
      then endedFailure s ci (some x) st a.pc va else s
  | .nib n => if a.id / cpGen = ((s.core ci).nib n).gen && ((s.core ci).nib n).st == .loading then bindFail s ci n 5#8 st else s
  | .mtx => s

/-- The replay of a ticket is complete (R183). -/
def replayed (s : State) (kept : Option Word) : State :=
  match kept with
  | some tid => ackReplay s tid
  | none => s
/-- AN ACCESS IS TRANSLATED AGAIN and performed: a miss answered by a walk, or a replay (R188, R194). A replay that must wait for
older accesses of its warp keeps its hold and its entry, and is taken up again (R191); an access that needed no ticket waits with its
translation (R197). One that has lost a permission since fails with PERM, or, without a ticket, with the cause that it raises at the core.
An engine's work is taken up again by its own events; a fetch that goes on keeps its translation. -/
def resumeAccess (s : State) (ci : Nat) (a : Access) (va : Dword) (kept : Option Word) : State :=
  match a.path with
  | .lsu w => match findXlat s ci a with
    | (s, none) => addMiss s ci a kept
    | (s, some x) =>
      match a.lanes.findSome? (coreCheck s ci a x) with
      | some code => drain (finishWith (if kept.isSome then cTicketError else code) (replayed s kept) ci w a [] a.mask (if kept.isSome then stPerm else 0#4)) ci w
      | none =>
        let s := flushHeld s ci w a (some x)
        if !blocked s ci w a (some x) then drain (replayed (sealBatch (performNow s ci w a x kept.isSome) ci w) kept) ci w
        else if kept.isSome then addMiss s ci a kept
        else s.modWarp ci w (·.defer ⟨a, some x⟩)
  | .fetch w => match translate s ci a.pasid va with
    | (s, none) => addMiss s ci a kept
    | (s, some x) =>
      let s := replayed s kept
      if kept.isSome && a.kind == .fetch && (!permits x needX a.scr || 3 ≤ x.mt.val) then failAccess s ci a va stPerm
      else (if kept.isSome then keepXlat s ci ⟨a.path, w, x⟩ else s).modWarp ci w fun w => { w with wait := .none }
  | _ => replayed s kept

/-- Entries of a core's ticket table in use, with those that a replay keeps (R188). -/
def Core.entries (k : Core) (scr : Bool) : Nat :=
  (k.tickets.filter fun t => t.acc.scr == scr).length + (k.misses.filter fun m => m.kept.isSome && m.acc.scr == scr).length
/-- An entry is free for a miss: 63 for the warps and engines, 64 in all (R185). -/
def entryFree (k : Core) (m : Miss) : Bool :=
  m.kept.isSome || (k.entries true + k.entries false < 64 && (m.acc.scr || k.entries false < 63))
def dropMiss (s : State) (ci id : Nat) : State := s.modCore ci fun k => { k with misses := k.misses.filter (·.id != id) }
/-- A ticket takes its entry (R182, R185), or that of the replay which has missed again (R188). -/
def enterTicket (s : State) (ci : Nat) (m : Miss) (tid : Word) : State :=
  (replayed (dropMiss s ci m.id) m.kept).modCore ci fun k => { k with tickets := k.tickets ++ [⟨tid, m.acc, m.va, m.need, .none, none⟩] }

/-- An identifier that a peer issues (R182; log 1). -/
def peerTid (s : State) (dev : Nat) : Word :=
  BitVec.ofNat 32 (dev * 2 ^ 28 + Config.victim s.tick % 4 * 2 ^ 26 + (Config.peerTicket s.tick).toNat)
/-- FAULT_TICKET (R177, R180, R181, R186): the owner of a miss answers. A walk that ends in a valid leaf completes the
access; otherwise a ticket is issued once an entry is free; an owner without a free index answers BUSY (R183). What a peer device has
to translate for a fetch or an engine it may ticket too (R179). A host miss whose link is up waits for its ATS request, without a ticket,
while the host does not enable ATS, which is the model's choice (log 115). -/
def execFaultTicket (core miss : Nat) (s : State) : Out :=
  match (s.core core).misses.find? (·.id == miss) with
  | none => .next s
  | some m =>
    let d := dieOfCore core
    let issue := fun (s : State) (ph : Phase) =>
      match newRec s d core m.acc.pasid m.va m.need m.acc.scr ph with
      | none => s.modCore core fun k => { k with misses := updFirst (·.id == miss) (fun (m : Miss) => { m with busy := true }) k.misses }
      | some (s, r) =>
        let s := enterTicket s core m (r.tid s d)
        if ph = .assist then raiseAssist s (.fault d r.index) 0x21 [(48, m.need.toNat), (56, m.acc.pasid.toNat), (80, (r.tid s d).toNat), (112, m.va.toNat)]
        else s
    if m.busy || m.ats == .out then .next s
    else match translate s core m.acc.pasid m.va with
      | (s, some x) => .next (match x.home, m.acc.path with
        | some _, .lsu _ | none, _ => resumeAccess (dropMiss s core miss) core m.acc m.va m.kept
        | some dev, _ => if (Config.coin s.tick || unreachable s dev.val) && entryFree (s.core core) m then enterTicket s core m (peerTid s dev.val)
            else resumeAccess (dropMiss s core miss) core m.acc m.va m.kept)
      | (s, none) =>
        if !entryFree (s.core core) m then .next s
        else match walk s d m.acc.pasid m.va with
          | .host =>
            let up := s.port.hpcap.getLsbD 15
            if m.ats = .none && up then .next s
            else if m.ats = .err || m.ats = .lost || !up || !s.port.hpcap.getLsbD 6 then
              match newRec s d core m.acc.pasid m.va m.need m.acc.scr .fresh with
              | none => .next (issue s .fresh)
              | some (s, r) => .next (postNotice (enterTicket s core m (r.tid s d)) d r (if m.ats = .lost || !up then stLinklost else stHostfail))
            else .next (issue s .priDue)
          | _ =>
            if assisted s 0 then (if assistRoom s then .next (issue s .assist) else .next s)
            else .next (issue s .fresh)
/-- BUSY_RETRY (R183): the quad unit tries again. -/
def execBusyRetry (core miss : Nat) (s : State) : Out :=
  .next (s.modCore core fun k => { k with misses := updFirst (·.id == miss) (fun (m : Miss) => { m with busy := false }) k.misses })

/-! ### The owner (R181, R461) -/

def Die.rec? (k : Die) (index : Nat) : Option OwnRec := k.own.find? (·.index == index)
/-- PAGE_SERVICE: the owner services the page of a ticket and posts its notice. -/
def execPageService (die index : Nat) (s : State) : Out :=
  match (s.die die).rec? index with
  | none => .next s
  | some r =>
    if r.phase ≠ .fresh then .next s
    else match servePage 8 s die r.pasid r.va.toNat r.need r.scr with
      | (s, .status st) => .next (postNotice s die r st)
      | (s, .host) => .next (s.modDie die fun k => { k with own := updFirst (·.index == index) (fun (x : OwnRec) => { x with phase := .atsDue false }) k.own })
/-- PAGE_HOLD_EXPIRY (R183): the hold of a notice that reported success ends. -/
def execPageHoldExpiry (die index : Nat) (s : State) : Out :=
  .next (s.modDie die fun k => { k with own := k.own.filter fun r => r.index != index || r.phase != .noticed })

/-! ### Notices and queries (R188-R195) -/

def Core.ticket? (k : Core) (tid : Word) : Option Ticket := k.tickets.find? (·.tid == tid)
def dropTicket (s : State) (ci : Nat) (tid : Word) : State := s.modCore ci fun k => { k with tickets := k.tickets.filter (·.tid != tid) }
/-- Takes a notice of a status for a ticket out of its owner's posts; a peer's notice comes from outside the device
(log 1). -/
def takeNotice (s : State) (core : Nat) (tid : Word) (p : BitVec 4 → Bool) : Option (State × BitVec 4) :=
  if tidDev tid ≠ s.pkg.val then none
  else
    let d := tidDie tid
    ((s.die d).notices.find? fun n => n.core == core && n.tid == tid && p n.st).map fun n =>
      (s.modDie d fun k => { k with notices := k.notices.erase n }, n.st)
/-- A ticket belongs to work that its engine has still to do. -/
def ticketLive (s : State) (ci : Nat) (a : Access) : Bool :=
  match a.path with
  | .cpy ch => a.id / cpGen == (s.chan ci ch).gen
  | .ace g => ((s.core ci).wg? g).any (·.sliceSt == .running)
  | .nib n => a.id / cpGen == ((s.core ci).nib n).gen && ((s.core ci).nib n).st == .loading
  | .lsu _ | .fetch _ | .mtx => false
/-- The parts of an engine's work that a ticket is of: the lanes of a slice word, or the one that its access names. -/
def keptIds (a : Access) : List Nat := if a.kind == .row || a.kind == .bind || a.kind == .fetch then [a.id] else a.lanes.map (·.lane)
/-- What a status does to a ticket: OK replays it, any other fails it (R188, R189). An engine replays by its own events, until which
it keeps the translation (R183, R196). -/
def closeTicket (s : State) (core : Nat) (t : Ticket) (st : BitVec 4) : State :=
  let s := dropTicket s core t.tid
  if st ≠ 0#4 then failAccess (ackReplay s t.tid) core t.acc t.va st
  else if ticketLive s core t.acc then
    match translate s core t.acc.pasid t.va with
    | (s, none) => addMissAt s core t.acc t.va t.need (some t.tid)
    | (s, some x) => ackReplay ((keptIds t.acc).foldl (fun s i => keepXlat s core ⟨t.acc.path, i, x⟩) s) t.tid
  else resumeAccess s core t.acc t.va (some t.tid)
/-- A notice reaches the requester; a halted core records it (R396), and one that names no entry is discarded (R182). -/
def notice (s : State) (core : Nat) (tid : Word) (st : BitVec 4) : State :=
  match (s.core core).ticket? tid with
  | none => s
  | some t =>
    if (s.core core).halted then s.modCore core fun k => { k with tickets := updFirst (·.tid == tid) (fun (t : Ticket) => { t with notice := some st }) k.tickets }
    else closeTicket s core t st
/-- REPLAY_NOTICE (R188): a notice of status OK arrives. -/
def execReplayNotice (core : Nat) (tid : Word) (s : State) : Out :=
  if tidDev tid ≠ s.pkg.val then .next (notice s core tid 0#4)
  else match takeNotice s core tid (· == 0#4) with
    | none => .next s
    | some (s, st) => .next (notice s core tid st)
/-- TICKET_FAILURE (R189): a notice of any other status arrives; a peer's status is one of R184. -/
def execTicketFailure (core : Nat) (tid : Word) (status : BitVec 4) (s : State) : Out :=
  if tidDev tid ≠ s.pkg.val then
    (if status = 0#4 || 6 < status.toNat then .next s else .next (notice s core tid status))
  else match takeNotice s core tid (· != 0#4) with
    | none => .next s
    | some (s, st) => .next (notice s core tid st)
def Core.setQuery (k : Core) (tid : Word) (q : Query) : Core :=
  { k with tickets := updFirst (·.tid == tid) (fun (t : Ticket) => { t with query := q }) k.tickets }
/-- TICKET_STATUS_QUERY (R190). -/
def execTicketStatusQuery (core : Nat) (tid : Word) (s : State) : Out := .next (s.modCore core (·.setQuery tid .asked))
/-- What an owner of this device answers: an identifier whose generation is retired counts as OK (R195). -/
def ownAnswer (k : Die) (tid : Word) : TkAnswer :=
  match tidRec k tid with
  | none => .status 0#4
  | some r => if r.phase = .noticed then .status 0#4 else .pending
/-- TICKET_QUERY_ANSWER (R195). -/
def execTicketQueryAnswer (core : Nat) (tid : Word) (ans : TkAnswer) (s : State) : Out :=
  match (s.core core).ticket? tid with
  | none => .next s
  | some t =>
    if t.query ≠ .asked then .next s
    else match if tidDev tid = s.pkg.val then ownAnswer (s.die (tidDie tid)) tid else ans with
      | .pending => .next (s.modCore core (·.setQuery tid .none))
      | .status st => .next (if 6 < st.toNat then s else notice s core tid st)
/-- LINKLOST_TIMEOUT (R190): a query that no peer has answered fails the ticket. -/
def execLinklostTimeout (core : Nat) (tid : Word) (s : State) : Out :=
  match (s.core core).ticket? tid with
  | none => .next s
  | some t => if t.query = .asked ∧ tidDev tid ≠ s.pkg.val then .next (notice s core tid stLinklost) else .next s

/-! ### Host translations (R180, R404, R405) -/

/-- Sets the phase of a record. -/
def Die.setPhase (k : Die) (p : OwnRec → Bool) (ph : OwnRec → Phase) : Die :=
  { k with own := k.own.map fun r => if p r then { r with phase := ph r } else r }
def Core.setAts (k : Core) (id : Nat) (a : MissAts) : Core :=
  { k with misses := updFirst (·.id == id) (fun (m : Miss) => { m with ats := a }) k.misses }
/-- The oldest miss of a die on a host address whose request has not been sent. -/
def atsMiss (s : State) (d : Nat) : Option (Nat × Miss) :=
  ((List.range 96).map (· + 96 * d)).findSome? fun c => ((s.core c).misses.find? fun m =>
    m.ats == .none && walk s d m.acc.pasid m.va == .host).map fun m => (c, m)
/-- ATS_TRANSLATION_REQUEST: the MMP of a die sends its next request, while the link is up and the host enables ATS. -/
def execAtsTranslationRequest (die : Nat) (s : State) : Out :=
  if !s.port.hpcap.getLsbD 15 || !s.port.hpcap.getLsbD 5 then .next s
  else match (s.die die).own.find? fun r => r.phase == .atsDue true || r.phase == .atsDue false with
  | some r => .next (s.modDie die fun k =>
      { k.setPhase (·.index == r.index) (fun r => match r.phase with | .atsDue b => .atsOut b | p => p) with ats := k.ats ++ [.tick r.index] })
  | none => match atsMiss s die with
    | some (c, m) => .next ((s.modCore c (·.setAts m.id .out)).modDie die fun k => { k with ats := k.ats ++ [.miss c m.id] })
    | none => .next s

/-- The translation that an answer grants; a fetch needs the read permission (log 18). -/
def atsXlat (a : AtsAnswer) : Xlat :=
  { pasid := a.pasid, va := a.va.toNat / Nat.max 1 a.size * Nat.max 1 a.size, size := a.size, pa := a.hpa, mt := mtHst
    rd := a.rd, w := a.w, x := a.rd, scr := false, home := none }
/-- The writes that the walker has kept for a translation. -/
def flushCpu (s : State) (d : Nat) : State :=
  let ws := (s.die d).cpuW
  ws.foldl (fun s w => cpuWrite s d w.1 w.2.1 w.2.2) (s.modDie d fun k => { k with cpuW := [] })
/-- ATS_COMPLETION: the answer to the oldest request of a die (R180). -/
def execAtsCompletion (die : Nat) (ans : AtsAnswer) (s : State) : Out :=
  let fits := fun (pasid : BitVec 20) (va : Dword) => ans.pasid == pasid && (atsXlat ans).covers pasid va.toNat
  match (s.die die).ats with
  | [] => .next s
  | q :: rest =>
    let pop := fun (s : State) => s.modDie die fun k => { k with ats := rest }
    match q with
    | .miss c id => match (s.core c).misses.find? (·.id == id) with
      | none => .next (pop s)
      | some m =>
        if !fits m.acc.pasid m.va then .next s
        else if ans.err then .next ((pop s).modCore c (·.setAts id .err))
        else if permits (atsXlat ans) m.need true then
          .next (resumeAccess (tlbFill (dropMiss (pop s) c id) c (atsXlat ans)) c m.acc m.va m.kept)
        else .next ((pop s).modCore c (·.setAts id .absent))
    | .tick i => match (s.die die).rec? i with
      | none => .next (pop s)
      | some r =>
        if !fits r.pasid r.va then .next s
        else
          let s := pop s
          if ans.err then .next (postNotice s die r stHostfail)
          else if permits (atsXlat ans) r.need true then
            if r.core = walkerCore then
              .next (flushCpu (s.modDie die fun k => { k with hx := k.hx ++ [(atsXlat ans)], own := k.own.filter (·.index != i) }) die)
            else .next ((postNotice (tlbFill s r.core (atsXlat ans)) die r 0#4).modDie die fun k =>
              { k with own := updFirst (·.index == i) (fun (x : OwnRec) => { x with xl := some (atsXlat ans) }) k.own })
          else if r.phase = .atsOut true || !s.port.hpcap.getLsbD 6 then .next (postNotice s die r stHostfail)
          else .next (s.modDie die (·.setPhase (·.index == i) fun _ => .priDue))

/-- The page request groups in use on the package (R404). -/
def priGroups (s : State) : List Nat :=
  s.dies.toList.foldl (fun l (k : Die) => l ++ k.own.filterMap fun r => match r.phase with | .priOut g => some g | _ => none) []
def sharesPage (a b : OwnRec) : Bool := a.pasid == b.pasid && a.va >>> 12 == b.va >>> 12
/-- The group of a request of the die that is outstanding for a record's page (R404). -/
def groupOf (k : Die) (r : OwnRec) : Option Nat :=
  k.own.findSome? fun x => match x.phase with | .priOut g => if sharesPage x r then some g else none | _ => none
/-- The records that wait for a page whose request is outstanding wait for its answer. -/
def Die.joinPri (k : Die) : Die :=
  k.setPhase (fun r => r.phase == .priDue && (groupOf k r).isSome) fun r => .priOut ((groupOf k r).getD 0)
/-- PRI_PAGE_REQUEST: one request for a page, in the order of the tickets, while credits and groups last. -/
def execPriPageRequest (die : Nat) (s : State) : Out :=
  let s := s.modDie die Die.joinPri
  let used := (priGroups s).foldl (fun l g => if l.contains g then l else l ++ [g]) []
  let cred := Nat.min 512 (s.port.hpcap.extractLsb' 16 12).toNat
  if !s.port.hpcap.getLsbD 6 || cred ≤ used.length then .next s
  else match (s.die die).own.find? (·.phase == .priDue), (List.range 512).find? fun g => !used.contains g with
    | some r, some g => .next (s.modDie die (·.setPhase (fun x => x.phase == .priDue && sharesPage x r) fun _ => .priOut g))
    | _, _ => .next s
/-- Fails every record that satisfies `p` with HOSTFAIL. -/
def failRecs (s : State) (p : OwnRec → Bool) : State :=
  (List.range 4).foldl (fun s d => ((s.die d).own.filter p).foldl (fun s r => postNotice s d r stHostfail) s) s
/-- PRG_SUCCESS: the ATS request is repeated. -/
def execPrgSuccess (die group : Nat) (s : State) : Out :=
  .next (s.modDie die (·.setPhase (·.phase == .priOut group) fun _ => .atsDue true))
/-- PRG_INVALID_REQUEST. -/
def execPrgInvalidRequest (die group : Nat) (s : State) : Out :=
  .next (((s.die die).own.filter (·.phase == .priOut group)).foldl (fun s r => postNotice s die r stHostfail) s)
def queuedPri (r : OwnRec) : Bool := match r.phase with | .priDue | .priOut _ => true | _ => false
/-- PRG_RESPONSE_FAILURE: every page request fails, and PRIEN reads 0. -/
def execPrgResponseFailure (die group : Nat) (s : State) : Out :=
  if (s.die die).own.any (·.phase == .priOut group) then
    .next { failRecs s queuedPri with port := { s.port with hpcap := s.port.hpcap &&& ~~~(1#64 <<< 6) } }
  else .next s
/-- PRI_STOP_MARKER. -/
def execPriStopMarker (pasid : BitVec 20) (s : State) : Out := .next (failRecs s fun r => queuedPri r && r.pasid == pasid)

/-- Removes translations from every quad unit of the package. -/
def dropXlats (s : State) (p : Xlat → Bool) : State :=
  let keep := fun (l : List Xlat) => l.filter fun x => !p x
  { s with
    cores := s.cores.map fun k => if k.tlb.any p then { k with tlb := keep k.tlb } else k
    dies := s.dies.map fun (d : Die) => { d with hx := keep d.hx, own := d.own.map fun r => { r with xl := r.xl.filter (!p ·) }, quads := d.quads.map fun q => { q with tlb2 := keep q.tlb2 } } }
def Xlat.meets (x : Xlat) (va size : Nat) : Bool := x.va < va + size && va < x.va + x.size
/-- An access of a die's cores, or of any, that has been given a translation that satisfies `p` waits to be performed, be it of a warp
or of an engine, or held back in a batch of a twin (R196-R198, R422; log 99). -/
def xlatKept (s : State) (die : Option Nat) (p : Xlat → Bool) : Bool :=
  let mine := fun (c : Nat) => die.all (· == dieOfCore c)
  let any := fun (l : List Defer) => l.any fun d => d.xl.any p
  ((s.cores.toList.zip (List.range 384)).any fun k => mine k.2
      && (k.1.xkeep.any (p ·.x) || k.1.warps.toList.any (fun x => x.any fun w => any w.deferred || any w.held)
        || k.1.chans.toList.any (any ·.tw.held) || k.1.wgs.any (any ·.tw.held)))
    || s.twins.any fun t => t.batches.any fun (b : Batch) => mine b.core && any b.writes
/-- An invalidation is complete once no access waits under a translation that it takes (R198). -/
def invalidateWhere (s : State) (p : Xlat → Bool) : State := if xlatKept s none p then s else dropXlats s p
/-- ATS_INVALIDATE_REQUEST (R198). -/
def execAtsInvalidateRequest (pasid : BitVec 20) (va : Dword) (size : Nat) (s : State) : Out :=
  .next (invalidateWhere s fun x => x.mt == mtHst && x.pasid == pasid && x.meets va.toNat size)
/-- GLOBAL_INVALIDATE (R405). -/
def execGlobalInvalidate (va : Dword) (size : Nat) (s : State) : Out :=
  .next (invalidateWhere s fun x => x.mt == mtHst && x.meets va.toNat size)

end Sys2Proof.Machine
end

