-- ==== Sys2Proof/Machine/Place.lean ====
section
/-! DEFINITION. Workgroups and what they hold: allotment at placement, context save and restore, the end of a task (05
R89-R96, 07 R138, 13 R266-R268, 16 R305, 20 R389-R394). -/

namespace Sys2Proof.Machine

/-! ### What a workgroup needs -/

/-- The resources of one workgroup on its core (R370). -/
structure Needs where
  warps : Nat
  n     : Nat          -- warp-registers per warp
  rows  : Nat
  obLen : Nat
  accN  : Nat
  sem   : BitVec 64
  cm    : BitVec 16
  bar   : BitVec 16
  chan  : BitVec 4
  nib   : BitVec 4
  slice : Bool
deriving DecidableEq, Repr
/-- What it receives: slots and register bases by warp, and the bases of its runs. -/
structure Alloc where
  slots : List Nat
  bases : List Nat
  spad  : Nat
  ob    : Nat
  acc   : Nat
deriving DecidableEq, Repr

/-- A run of `n` units that begins at `b` meets none of some runs. -/
def runFree (b n : Nat) (used : List (Nat × Nat)) : Bool := used.all fun u => n = 0 || u.2 = 0 || b + n ≤ u.1 || u.1 + u.2 ≤ b
/-- A free run of `n` units below `cap`, at a multiple of `step`: the spec leaves open which (log 19). -/
def pickRun (tick cap step n : Nat) (used : List (Nat × Nat)) : Option Nat :=
  if n = 0 then some 0
  else
    let l := ((List.range ((cap - n) / step + 1)).map (· * step)).filter fun b => b + n ≤ cap && runFree b n used
    l[Config.victim tick % Nat.max 1 l.length]?
/-- Register runs for `k` warps, each given by `pick`. -/
def runsBy (pick : List (Nat × Nat) → Option Nat) (n : Nat) : Nat → List (Nat × Nat) → Option (List Nat)
  | 0, _ => some []
  | k + 1, used => (pick used).bind fun b => (runsBy pick n k (used ++ [(b, n)])).map (b :: ·)
/-- The lowest free run that begins on a granule boundary: runs placed so fit whenever any choice of runs does. -/
def lowRun (n : Nat) (used : List (Nat × Nat)) : Option Nat :=
  ((List.range 504).map (· * 8)).find? fun b => b + n ≤ 4032 && runFree b n used
/-- Register runs for `k` warps (R92): which of the free ones the spec leaves open (log 19), and a workgroup fits when the pool can give
it all of them. -/
def pickRegs (tick n k : Nat) (used : List (Nat × Nat)) : Option (List Nat) :=
  (runsBy (pickRun tick 4032 8 n) n k used).or (runsBy (lowRun n) n k used)
/-- The slot of the next warp (R138): the lowest free one of the partition with the fewest occupied slots. -/
def nextSlot (used : List Nat) : Option Nat :=
  let count := fun (p : Nat) => (used.filter fun s => s / 8 == p).length
  let parts := (List.range 4).filter fun p => count p < 8
  (parts.map count).min?.bind fun m => (parts.find? fun p => count p == m).bind fun p =>
    ((List.range 8).map (· + 8 * p)).find? fun s => !used.contains s
def pickSlots : Nat → List Nat → Option (List Nat)
  | 0, _ => some []
  | k + 1, used => (nextSlot used).bind fun s => (pickSlots k (used ++ [s])).map (s :: ·)
def Core.usedSlots (k : Core) : List Nat := (List.range 32).filter fun i => (k.warp? i).isSome
def Core.usedRegs (k : Core) : List (Nat × Nat) := (k.warps.toList.filterMap id).map fun w => (w.base, w.n)

/-- The numbers that a workgroup's masks name are free on the core (R266, R286, R330). -/
def masksFree (k : Core) (q : Needs) (nibs : BitVec 4) : Bool :=
  k.wgs.all (fun g => g.semMask &&& q.sem = 0#64 ∧ g.cmMask &&& q.cm = 0#16 ∧ g.barMask &&& q.bar = 0#16 ∧ g.chanMask &&& q.chan = 0#4)
    && (List.range 4).all fun n => !nibs.getLsbD n || ((k.nibs[n]?).map fun (x : Nib) => x.wg.isNone && !x.scribe && x.st == .unbound).getD false
/-- A run at a given place, or any free one. -/
def pickAt (tick cap n : Nat) (used : List (Nat × Nat)) : Option Nat → Option Nat
  | none => pickRun tick cap 1 n used
  | some b => if runFree b n used then some b else none
/-- The allotment of a workgroup on an enabled core; none where it does not fit (R370). A restored one takes its operand-buffer run and
its tiles where it had them (R324). -/
def fitWg (s : State) (c : Nat) (q : Needs) (nibs : BitVec 4) (saved : Option (Nat × Nat)) : Option Alloc :=
  let k := s.core c
  if s.fuses.off.contains c || 384 ≤ c || !masksFree k q nibs || (q.slice && k.wgs.any (·.sliceSt != .none)) then none
  else
    (pickSlots q.warps k.usedSlots).bind fun slots =>
    (pickRegs s.tick q.n q.warps k.usedRegs).bind fun bases =>
    (pickRun s.tick 512 1 q.rows (k.wgs.map fun g => (g.spadBase, g.spadRows))).bind fun spad =>
    (pickAt s.tick 256 q.obLen (k.wgs.map fun g => (g.obBase, g.obLen)) (saved.map (·.1))).bind fun ob =>
    (pickAt s.tick 24 q.accN (k.wgs.map fun g => (g.accBase, g.accN)) (saved.map (·.2))).map fun acc =>
      ⟨slots, bases, spad, ob, acc⟩

/-- Every place of an allotment reads 0 without poison (R94, R267, R305). -/
def Core.clear (k : Core) (a : Alloc) (q : Needs) : Core :=
  let k := a.bases.foldl (fun (k : Core) b => { k with
    rf := tabDrop (32 * b) (32 * (b + q.n)) k.rf
    rfPois := setDrop (32 * b) (32 * (b + q.n)) k.rfPois }) k
  { k with
    spad := tabDrop (512 * a.spad) (512 * (a.spad + q.rows)) k.spad
    spadPois := setDrop (8 * a.spad) (8 * (a.spad + q.rows)) k.spadPois
    ob := tabDrop (2048 * a.ob) (2048 * (a.ob + q.obLen)) k.ob
    obPois := setDrop (32 * a.ob) (32 * (a.ob + q.obLen)) k.obPois
    acc := tabDrop (8192 * a.acc) (8192 * (a.acc + q.accN)) k.acc
    accPois := setDrop (8192 * a.acc) (8192 * (a.acc + q.accN)) k.accPois }
/-- Replaces the elements whose numbers a mask names. -/
def putMask {α : Type} {n : Nat} (v : Vector α n) (p : Nat → Bool) (f : Nat → α) : Vector α n :=
  Vector.ofFn fun i => if p i.val then f i.val else v[i]
/-- The sync resources, channels and nibs of the masks as placement leaves them (R267). -/
def Core.freshMasks (k : Core) (q : Needs) (nibs : BitVec 4) (wg : Option Nat) : Core :=
  { k with
    sems := putMask k.sems q.sem.getLsbD fun _ => 0#32
    cmaps := putMask k.cmaps q.cm.getLsbD fun _ => 0#512
    bars := putMask k.bars q.bar.getLsbD fun _ => Bar.fresh
    chans := putMask k.chans q.chan.getLsbD fun _ => { Chan.fresh with wg := wg }
    nibs := putMask k.nibs nibs.getLsbD fun _ => Nib.fresh wg }

/-- What a workgroup that is resident holds. -/
def Wg.needs (g : Wg) (n : Nat) : Needs :=
  ⟨g.warps, n, g.spadRows, g.obLen, g.accN, g.semMask, g.cmMask, g.barMask, g.chanMask, g.nibMask, g.sliceSt != .none⟩
def Core.warpsOf (k : Core) (id : Nat) : List (Nat × Warp) :=
  (List.range 32).filterMap fun i => (k.warp? i).bind fun w => if w.wg = some id then some (i, w) else none
/-- The warps of a workgroup in ascending `%warp`, the order in which they take slots (R138). -/
def Core.warpsInOrder (k : Core) (id : Nat) : List (Nat × Warp) :=
  let ws := k.warpsOf id
  (List.range 32).filterMap fun n => ws.find? (·.2.num == n)
def Wg.alloc (g : Wg) (ws : List (Nat × Warp)) : Alloc := ⟨ws.map (·.1), ws.map (·.2.base), g.spadBase, g.obBase, g.accBase⟩
def warpN (ws : List (Nat × Warp)) : Nat := ((ws.head?).map (·.2.n)).getD 0
/-- The nibs of a mask are unbound as NUNBIND unbinds them, and belong to no workgroup (R331). -/
def releaseNibs (s : State) (c : Nat) (m : BitVec 4) : State :=
  (List.range 4).foldl (fun s n => if m.getLsbD n then (nibUnbind s c n).modCore c (·.modNib n fun x => { x with wg := none }) else s) s
/-- Paths of a workgroup's accesses. -/
def pathOf (k : Core) (id : Nat) (p : Path) : Bool :=
  match p with
  | .lsu w | .fetch w => ((k.warp? w).map fun x => x.wg == some id).getD false
  | .cpy ch => (k.chan ch).wg == some id
  | .ace g => g == id
  | .nib _ | .mtx => false
/-- A workgroup's resources but its nibs return to their pools (R96, R266); returned places read 0 before another placement. -/
def freeWg (s : State) (c id : Nat) : State :=
  s.modCore c fun k => match k.wg? id with
    | none => k
    | some g =>
      let ws := k.warpsOf id
      let q := g.needs (warpN ws)
      let k := (k.clear (g.alloc ws) q).freshMasks q 0#4 none
      { k with
        wgs := k.wgs.filter (·.id != id)
        warps := ws.foldl (fun v (w : Nat × Warp) => v.setIfInBounds w.1 none) k.warps
        fifo := k.fifo.filter (·.wg != id)
        xkeep := k.xkeep.filter fun e => !pathOf k id e.path }

/-! ### Quiet workgroups -/

/-- A miss of a warp whose access waits for older ones in any case (R191). -/
def missWaits (s : State) (c : Nat) (m : Miss) : Bool := match m.acc.path with | .lsu w => blocked s c w m.acc none | _ => false
/-- No access of the warp is on its way: those that remain are ticketed or wait behind tickets (R392). -/
def warpQuiet (s : State) (c : Nat) (w : Nat × Warp) : Bool :=
  w.2.out.isEmpty && w.2.posted.isEmpty
    && !(s.core c).misses.any (fun m => (m.acc.path == .lsu w.1 || m.acc.path == .fetch w.1) && !missWaits s c m)
    && !(s.core c).syncQ.any (·.slot == w.1) && !s.arrivals.any fun a => a.core == c && (a.wg == w.2.wg && a.wg.isSome)
/-- The warps of a workgroup have stopped (R392): they are quiet, their issued loads and atomics are complete or ticketed, and a record
that the scribe warp has taken has its reply. -/
def wgStill (s : State) (c id : Nat) : Bool :=
  let k := s.core c
  (k.warpsOf id).all (fun w => warpQuiet s c w && w.2.ops.all fun o => o.parts != 0 || o.engine)
    && !s.arrivals.any (fun a => a.core == c && a.wg == some id) && !k.misses.any (fun m => pathOf k id m.acc.path && !missWaits s c m)
    && !k.mail.any fun r => r.taken && r.wg == id
/-- The save may begin (R324, R392): the warps have stopped, no matrix entry of the workgroup and no nib pass runs. -/
def wgQuiet (s : State) (c id : Nat) : Bool :=
  wgStill s c id && !(s.core c).fifo.any (fun e => e.wg == id && e.run) && (s.core c).nibLeft == 0

/-! ### Context save (R391-R393, R399) -/

/-- An access whose warp moves to another slot and base. -/
def Access.move (a : Access) (slot : Nat → Nat) (id : Nat) (delta : Int) : Access :=
  let dst := fun (d : Dest) => match d with
    | .regs l => .regs (l.map fun (i : Nat) => ((i : Int) + 32 * delta).toNat)
    | d => d
  { a with
    path := match a.path with | .lsu w => .lsu (slot w) | .fetch w => .fetch (slot w) | .ace _ => .ace id | p => p
    lanes := a.lanes.map fun l => { l with dest := dst l.dest, grp := l.grp.map fun g => (g.1, g.2.1, dst g.2.2) } }
def RegWrite.move (w : RegWrite) (delta : Int) : RegWrite :=
  match w.dest with
  | .regs l => { w with dest := .regs (l.map fun (i : Nat) => ((i : Int) + 32 * delta).toNat) }
  | _ => w
/-- The part of a table within a range, numbered from its start. -/
def tabPart {α : Type} (t : List (Nat × α)) (lo hi : Nat) : List (Nat × α) :=
  (t.filter fun e => lo ≤ e.1 && e.1 < hi).map fun e => (e.1 - lo, e.2)
def setPart (t : List Nat) (lo hi : Nat) : List Nat := (t.filter fun e => lo ≤ e && e < hi).map (· - lo)
/-- Puts a part back at another start. -/
def tabBack {α : Type} [DecidableEq α] (d : α) (t part : List (Nat × α)) (lo : Nat) : List (Nat × α) :=
  part.foldl (fun t e => tabSet d t (lo + e.1) e.2) t
def setBack (t part : List Nat) (lo : Nat) : List Nat := part.foldl (fun t e => setAdd t (lo + e)) t

/-- A core's share of the place of an image that CTXSAVE makes, in 4-KiB pages: one for the small parts, and those that the registers, the
scratchpad, the operand buffer and the tiles take (log 38). -/
def imagePages (g : Wg) (n : Nat) : Nat :=
  1 + ceilDiv (128 * n * g.warps + 512 * g.spadRows + 2048 * g.obLen + 32768 * g.accN) 4096
def pageBytes (tag i : Nat) : List Byte := (List.range 4096).map fun j => Config.imageByte tag (4096 * i + j)
/-- One page of an image is written. -/
def putPage (tag : Nat) (s : State) (e : (Nat × Fin 6) × Nat) : State :=
  let pa := e.1.1
  if e.1.2 = mtHst then { s with hostMem := wrBytes s.hostMem pa (pageBytes tag e.2) }
  else if e.1.2 = mtTrk ∨ e.1.2 = mtUnt then
    let s := (unitsOf 128 pa 4096).foldl State.noteOuter (dropCopies s pa 4096)
    { s with hbm := wrBytes s.hbm pa (pageBytes tag e.2), hbmPois := setDrop (pa / 64) (pa / 64 + 64) s.hbmPois }
  else s
def putImage (s : State) (pages : List (Nat × Fin 6)) : State :=
  (pages.zip (List.range pages.length)).foldl (putPage s.tick) s
/-- The pages of an image hold what was saved there, without poison (R393, R399). -/
def imageIntact (s : State) (d : Nat) (im : Image) : Bool :=
  (im.pages.zip (List.range im.pages.length)).all fun e => (List.range 4096).all fun j =>
    physByte s d e.1.2 (e.1.1 + j) == (Config.imageByte im.tag (4096 * e.2 + j), false)

/-- The cores on which a gang lies. -/
def gangCores (s : State) (d id n gang : Nat) : List (Nat × Wg) :=
  (s.cores.toList.zip (List.range 384)).foldl (fun l k => l ++ (k.1.wgs.filter fun g => taskHas d id n g && g.gang == gang).map fun g => (k.2, g)) []

/-- The stopped form of a warp (R46, R294, R392): a STALL has elapsed, windows close, a clause resumes where it stood. -/
def Warp.saved (w : Warp) : Warp :=
  let w := { w with stall := false, yieldHold := none, yieldCc := false, wins := [], stopped := false }
  match w.clause, w.front with
  | some c, e :: es => { w with clause := none, resume := some c.pos, front := { e with pc := c.at_ } :: es }
  | _, _ => w
/-- What the warps of a workgroup have made, read and acquired (R228, R368; log 17). -/
def wgPublished (s : State) (c id : Nat) : Nat := ((s.core c).warpsOf id).foldl (fun n w => Nat.max n w.2.seen) (s.core c).hz
/-- CONTEXT SAVE of a workgroup: its image, and its resources free. -/
def saveWg (s : State) (c id at_ : Nat) (pages : List (Nat × Fin 6)) : State :=
  let k := s.core c
  match k.wg? id with
  | none => s
  | some g =>
    let ws := k.warpsInOrder id
    let mine := fun (slot : Nat) => ws.any (·.1 == slot)
    let n := warpN ws
    let img : Image :=
      { at_, pages, tag := s.tick, core := c, wg := { g with stopping := false }, warps := ws.map fun w => w.2.saved
        misses := k.misses.filter fun m => pathOf k id m.acc.path
        slots := ws.map (·.1)
        regs := ws.map fun w => (w.2.num, tabPart k.rf (32 * w.2.base) (32 * (w.2.base + n)))
        rpois := ws.map fun w => (w.2.num, setPart k.rfPois (32 * w.2.base) (32 * (w.2.base + n)))
        tickets := k.tickets.filter fun t => pathOf k id t.acc.path
        spad := tabPart k.spad (512 * g.spadBase) (512 * (g.spadBase + g.spadRows))
        spadPois := setPart k.spadPois (8 * g.spadBase) (8 * (g.spadBase + g.spadRows))
        ob := tabPart k.ob (2048 * g.obBase) (2048 * (g.obBase + g.obLen))
        obPois := setPart k.obPois (32 * g.obBase) (32 * (g.obBase + g.obLen))
        acc := tabPart k.acc (8192 * g.accBase) (8192 * (g.accBase + g.accN))
        accPois := setPart k.accPois (8192 * g.accBase) (8192 * (g.accBase + g.accN))
        sems := k.sems, semQ := k.semQ.filter fun q => mine q.slot
        cmaps := k.cmaps, bars := k.bars, qbars := ((s.die (dieOfCore c)).quad (quadOfCore c)).bars, chans := k.chans
        fifo := k.fifo.filter fun e => e.wg == id && !e.run
        mail := k.mail.filter (·.wg == id)
        pts := k.pts, ptsExp := false, hz := wgPublished s c id, syncHz := k.syncHz, engHz := k.engHz }
    let s := { putImage s pages with images := s.images.filter (fun (i : Image) => i.at_ != at_) ++ [img] }
    let s := s.modCore c fun k => { k with
      tickets := k.tickets.filter fun t => !pathOf k id t.acc.path
      misses := k.misses.filter fun m => !pathOf k id m.acc.path
      semQ := k.semQ.filter fun q => !mine q.slot
      mail := k.mail.filter (·.wg != id) }
    let s := s.modDie (dieOfCore c) fun d => { d with waits := d.waits.filter fun w => !(w.core == c && pathOf k id w.acc.path) }
    freeWg s c id

/-! ### Restore (R394) -/

/-- The image's warp at its new slot and base. It counts as one that has never issued (R140), which is the model's choice (log 112). -/
def Warp.moveTo (w : Warp) (slot : Nat → Nat) (id base : Nat) : Warp :=
  let delta : Int := (base : Int) - w.base
  { w with
    wg := some id, base := base
    ops := w.ops.map fun o => { o with writes := o.writes.map (·.move delta) }
    deferred := w.deferred.map fun d => { d with acc := d.acc.move slot id delta }
    last := none }
/-- The 64 bytes of a mailbox record (R168). -/
def MailRec.bytes (r : MailRec) : List Byte := (r.words.map fun d => leBytes 8 d.toNat).foldl (· ++ ·) []
/-- Two workgroups of one gang. -/
def sameGang (a b : Wg) : Bool := a.die == b.die && a.graph == b.graph && a.node == b.node && a.gang == b.gang
/-- The quad barriers of a mask are free: no other gang on the quad holds one. -/
def qbarsFree (s : State) (c : Nat) (m : BitVec 8) (mine : Wg → Bool) : Bool :=
  (quadCores c).all fun x => (s.core x).wgs.all fun g => mine g || g.qbarMask &&& m == 0#8
/-- A core is a workgroup's place in its gang: its cores follow one another in one quad, as those that are resident stand (R370; log 102). -/
def gangSeat (s : State) (c : Nat) (g : Wg) : Bool :=
  g.wgno ≤ c % 4 && c % 4 - g.wgno + g.wgs ≤ 4
    && (gangCores s g.die g.graph g.node g.gang).all fun e => e.1 / 4 == c / 4 && e.1 + g.wgno == c + e.2.wgno
/-- The quad barriers of a gang that comes back are those of its latest image; once a workgroup of it is resident they stand in the quad
(R268; log 102). -/
def restoreQbars (s : State) (c : Nat) (g : Wg) : State :=
  if (quadCores c).any fun x => (s.core x).wgs.any (sameGang g) then s
  else match (s.images.filter fun (i : Image) => sameGang g i.wg).getLast? with
    | none => s
    | some im => s.modDie (dieOfCore c) (·.modQuad (quadOfCore c) fun x => { x with
        bars := putMask x.bars g.qbarMask.getLsbD fun i => (im.qbars[i]?).getD Bar.fresh })
/-- CONTEXT RESTORE onto a core where the workgroup fits at its saved numbers; a workgroup that holds nibs returns to
its own core only (R331). Saved matrix entries are reinstalled even beyond the 64 of the FIFO, which is the model's choice (log 117). -/
def restoreWg (s : State) (c : Nat) (im : Image) : Option State :=
  let g := im.wg
  let n := ((im.warps.head?).map (·.n)).getD 0
  let q := g.needs n
  let sameCore := im.core == c
  let sameDie := dieOfCore c == dieOfCore im.core
  if g.nibMask ≠ 0#4 ∧ !sameCore then none
  else if !qbarsFree s c g.qbarMask (sameGang g) || !gangSeat s c g then none
  else (fitWg s c q 0#4 (some (g.obBase, g.accBase))).bind fun a =>
    let k := s.core c
    let id := if sameCore then g.id else k.seq
    let slot := fun (w : Nat) => match (im.slots.zip a.slots).find? (·.1 == w) with | some p => p.2 | none => w
    if im.mail.length + k.mail.length > 16 || k.entries false + im.tickets.length > 63 then none
    else
      let free := (List.range 16).filter fun i => k.mail.all (·.idx != i)
      let idx := fun (r : Nat) => match (im.mail.zip free).find? (·.1.idx == r) with | some p => p.2 | none => r
      let delta := fun (slot : Nat) => match ((im.slots.zip im.warps).zip a.bases).find? (·.1.1 == slot) with
        | some p => (p.2 : Int) - p.1.2.base
        | none => 0
      let own := fun (x : Access) => match x.path with | .lsu w | .fetch w => delta w | _ => 0
      let warp := fun (w : Warp) (b : Nat) =>
        let w := w.moveTo slot id b
        let w := if sameDie then w else { w with loadWts := none }
        match w.wait with | .svc r m i => { w with wait := .svc r m (idx i) } | _ => w
      let k := (k.clear a q).freshMasks q 0#4 (some id)
      let k := { k with
        seq := k.seq + 1 + im.fifo.length + im.misses.length
        misses := k.misses ++ (im.misses.zip (List.range im.misses.length)).map fun e =>
          { e.1 with id := k.seq + 1 + im.fifo.length + e.2, acc := e.1.acc.move slot id (own e.1.acc) }
        rf := (im.regs.zip a.bases).foldl (fun t r => tabBack 0#32 t r.1.2 (32 * r.2)) k.rf
        rfPois := (im.rpois.zip a.bases).foldl (fun t r => setBack t r.1.2 (32 * r.2)) k.rfPois
        spad := tabBack 0#8 k.spad im.spad (512 * a.spad)
        spadPois := setBack k.spadPois im.spadPois (8 * a.spad)
        ob := tabBack 0#8 k.ob im.ob (2048 * a.ob)
        obPois := setBack k.obPois im.obPois (32 * a.ob)
        acc := tabBack 0#32 k.acc im.acc (8192 * a.acc)
        accPois := setBack k.accPois im.accPois (8192 * a.acc)
        sems := putMask k.sems q.sem.getLsbD fun i => (im.sems[i]?).getD 0#32
        cmaps := putMask k.cmaps q.cm.getLsbD fun i => (im.cmaps[i]?).getD 0#512
        bars := putMask k.bars q.bar.getLsbD fun i => (im.bars[i]?).getD Bar.fresh
        chans := putMask k.chans q.chan.getLsbD fun i =>
          let x := (im.chans[i]?).getD Chan.fresh
          { x with wg := some id, queue := x.queue.map fun p => { p with slot := slot p.slot } }
        semQ := k.semQ ++ im.semQ.map fun x => { x with slot := slot x.slot }
        fifo := (k.fifo.filter (·.run)) ++ ((im.fifo.zip (List.range im.fifo.length)).map fun e => { e.1 with id := k.seq + 1 + e.2, wg := id, slot := slot e.1.slot }) ++ k.fifo.filter (!·.run)
        mail := (im.mail.map fun r => { r with idx := idx r.idx, slot := slot r.slot, wg := id, taken := false }) ++ k.mail
        mailMem := im.mail.foldl (fun t r => wrBytes t (64 * idx r.idx) r.bytes) k.mailMem
        tickets := k.tickets ++ im.tickets.map fun t => { t with acc := t.acc.move slot id (own t.acc), query := .asked, notice := none }
        pts := if sameDie then tmaxE im.ptsExp im.pts k.pts else tmaxE (s.die (dieOfCore c)).fwcExp (s.die (dieOfCore c)).fwc k.pts
        hz := Nat.max k.hz im.hz
        syncHz := Nat.max k.syncHz im.syncHz
        engHz := Nat.max k.engHz im.engHz
        wgs := k.wgs ++ [{ g with id := id, spadBase := a.spad, obBase := a.ob, accBase := a.acc, born := s.tick }]
        warps := ((im.warps.zip a.bases).zip a.slots).foldl (fun v w => v.setIfInBounds w.2 (some (warp w.1.1 w.1.2))) k.warps }
      let s := (restoreQbars s c g).setCore c k
      some { s with images := s.images.filter (fun (i : Image) => i.at_ != im.at_) }

/-! ### The end of a task's warps (R389) -/

/-- A warp whose task ends: its frontier, traps and waits are discarded. -/
def Warp.discard (w : Warp) : Warp :=
  { w with front := [], spilled := [], job := none, clause := none, resume := none, wait := .none, ops := [], deferred := [], acqF := [],
           causes := [], handler := none, escal := none, wins := [], twin := [], held := [], stopped := false, sbPend := [],
           stall := false, yieldHold := none, yieldCc := false, ended := true }
/-- ENDS THE WARPS of a workgroup; an SVC record that the scribe warp has taken is still served (R392). -/
def endWg (s : State) (c id : Nat) : State :=
  let k := s.core c
  let ws := k.warpsOf id
  let mine := fun (slot : Nat) => ws.any (·.1 == slot)
  let s := s.modCore c fun k => { k with
    tickets := k.tickets.filter fun t => !pathOf k id t.acc.path
    misses := k.misses.filter fun m => !pathOf k id m.acc.path
    semQ := k.semQ.filter fun q => !mine q.slot
    mail := k.mail.filter fun r => r.taken || r.wg != id
    fifo := k.fifo.filter fun e => e.wg != id || e.run
    warps := k.warps.map fun (x : Option Warp) => x.map fun w => if w.wg = some id then w.discard else w }
  let s := s.modWg c id fun g => { g with sliceSt := if g.sliceSt = .none then .none else .halted, stq := none, ldq := none, stopping := false, ending := false }
  (List.range 4).foldl (fun s n => if (k.chan n).wg = some id then cpAbort s c n else s) s
/-- The workgroups of a core that `p` names begin to stop (R392). -/
def Core.stopWgs (k : Core) (p : Wg → Bool) (f : Wg → Wg) : Core :=
  if k.wgs.any p then
    { k with wgs := k.wgs.map fun g => if p g then f { g with stopping := true } else g
             warps := k.warps.map fun (x : Option Warp) => x.map fun w => match k.wgOf w with
               | some g => if p g then w.stop else w
               | none => w }
  else k
/-- ENDS A TASK: the warps of its gangs stop, to be ended once they are still (`endStill`), and its node retires with the status. -/
def endTask (s : State) (d graph node status : Nat) : State :=
  let s := { s with cores := s.cores.map (Core.stopWgs · (taskHas d graph node) fun g => { g with ending := true }) }
  let s := (s.images.filter fun (i : Image) => taskHas d graph node i.wg).foldl (fun s i => releaseNibs s i.core i.wg.nibMask) s
  let s := { s with images := s.images.filter fun (i : Image) => !taskHas d graph node i.wg }
  doomNode s d graph node status
/-- The warps of a workgroup whose task ends have stopped: they are ended (R389, R392). -/
def endStill (s : State) (c id : Nat) : State := if wgStill s c id then endWg s c id else s
/-- TRAP_ESCALATION (R388): the cause of a handler, or of a kernel without one, ends the task as KILLED. -/
def execTrapEscalation (core slot : Nat) (s : State) : Out :=
  match s.warp? core slot with
  | none => .next s
  | some w => match w.escal, (s.core core).wgOf w with
    | some _, some g => .next (if g.ending then s else endTask s g.die g.graph g.node 8)
    | _, _ => .next s

end Sys2Proof.Machine
end

