-- ==== Sys2Proof/Machine/Ring.lean ====
section
/-! DEFINITION. The rings that the device reads: H2D messages and A2D records (21 R406, R407, R410, 26 R459). -/

namespace Sys2Proof.Machine

/-- Sequence numbers compare modulo 2³² within a half range (R406). -/
def seqLe (a b : Word) : Bool := (b - a).toNat < 0x80000000
/-- A field of an entry. -/
def fld {w : Nat} (e : BitVec w) (lo n : Nat) : Nat := (e.extractLsb' lo n).toNat
/-- Body bits that a list of fields, as (low bit, width), does not name must be 0. -/
def bodyOk (e : BitVec 512) (fields : List (Nat × Nat)) : Bool :=
  let m := fields.foldl (fun (m : BitVec 512) f => m ||| (BitVec.ofNat 512 (2 ^ f.2 - 1) <<< f.1)) 0#512
  (e &&& ~~~m).extractLsb' 48 432 == 0#432
/-- The entry of a ring in host memory, when both copies of its number are as expected. -/
def ringRead (s : State) (base size : Nat) (seq : Word) : Option (BitVec 512) :=
  let e : BitVec 512 := BitVec.ofNat 512 (leNat (rdBytes s.hostMem (base + 64 * (seq.toNat % 2 ^ size)) 64))
  if fld e 0 32 = seq.toNat ∧ fld e 480 32 = seq.toNat then some e else none
def linkUp (s : State) : Bool := s.port.hpcap.getLsbD 15
/-- The device takes messages: it runs, the ring is configured, the link is up (R407, R420). -/
def h2dOpen (s : State) : Bool :=
  s.port.h2dSet && 4 ≤ s.port.h2dSize.toNat && s.port.h2dSize.toNat ≤ 12 && linkUp s && s.boot == .running
/-- The next H2D message: H2DRX + 1, once H2DBELL has reached it (R407). -/
def h2dNext (s : State) : Option (Word × BitVec 512) :=
  let seq := s.port.h2dRx + 1
  if h2dOpen s && seqLe seq s.port.h2dBell then
    (ringRead s s.port.h2dBase.toNat s.port.h2dSize.toNat seq).map fun e => (seq, e)
  else none
/-- The next message, of a type. -/
def h2dMsg (s : State) (ty : Nat) : Option (Word × BitVec 512) := (h2dNext s).filter fun m => fld m.2 32 16 == ty
/-- The message has been taken. -/
def h2dTake (s : State) (seq : Word) : State := { s with port := { s.port with h2dRx := seq } }
/-- It is taken with no effect, and answered (R407). -/
def h2dRefuse (s : State) (seq : Word) : State := h2dTake (refuseMsg s seq) seq
/-- A message of a type: a malformed body is refused, a well-formed one has the effect `f`, which may refuse (none). -/
def onH2d (s : State) (ty : Nat) (fields : List (Nat × Nat)) (ok : BitVec 512 → Bool) (f : State → BitVec 512 → Option State) : Out :=
  match h2dMsg s ty with
  | none => .next s
  | some (seq, e) =>
    if !bodyOk e fields || !ok e then .next (h2dRefuse s seq)
    else match f s e with
      | some s => .next (h2dTake s seq)
      | none => .next (h2dRefuse s seq)

/-- A function is host-assisted, so the assist rings stand (R459). -/
def a2dOpen (s : State) : Bool := 4 ≤ s.assist.asize && linkUp s && s.boot == .running
/-- The next A2D record: in the half of the pair after the D2A ring. -/
def a2dNext (s : State) : Option (Word × BitVec 512) :=
  let a := s.assist
  let seq := a.a2dRx + 1
  if a2dOpen s && seqLe seq a.a2dBell then (ringRead s (a.abase.toNat + 64 * 2 ^ a.asize) a.asize seq).map fun e => (seq, e) else none
def a2dTake (s : State) (seq : Word) : State := { s with assist := { s.assist with a2dRx := seq } }
def a2dRefuse (s : State) (seq : Word) : State := a2dTake (refuseRec s seq) seq
/-- A record of a type: one that is malformed, or that answers no pending request, is refused, as is one of no type (R459). -/
def onA2d (s : State) (ty : Nat) (fields : List (Nat × Nat)) (ok : BitVec 512 → Bool) (f : State → BitVec 512 → Option State) : Out :=
  match a2dNext s with
  | none => .next s
  | some (seq, e) =>
    if fld e 32 16 ≠ ty then (if 0xA1 ≤ fld e 32 16 ∧ fld e 32 16 ≤ 0xA5 then .next s else .next (a2dRefuse s seq))
    else if !bodyOk e fields || !ok e then .next (a2dRefuse s seq)
    else match f s e with
      | some s => .next (a2dTake s seq)
      | none => .next (a2dRefuse s seq)

end Sys2Proof.Machine
end

