-- ==== Sys2Proof/Machine/Task.lean ====
section
/-! DEFINITION. The graph walker: submission, placement, retirement, conditions (19 R359-R374, 20 R391). -/

namespace Sys2Proof.Machine

/-! ### Descriptors (R359-R363) -/

def tcbKdesc (t : BitVec 1024) : Dword := t.extractLsb' 0 64
def tcbArgs (t : BitVec 1024) : Dword := t.extractLsb' 64 64
def tcbCondw (t : BitVec 1024) : Dword := t.extractLsb' 128 64
def tcbOvf (t : BitVec 1024) : Dword := t.extractLsb' 192 64
def tcbSucc (t : BitVec 1024) : List Nat := (List.range 8).map fun j => fld t (256 + 16 * j) 16
def tcbNgang (t : BitVec 1024) : Nat := fld t 384 32
def tcbPredinit (t : BitVec 1024) : Nat := fld t 432 16
def tcbSem (t : BitVec 1024) : BitVec 64 := t.extractLsb' 448 64
def tcbCm (t : BitVec 1024) : BitVec 16 := t.extractLsb' 512 16
def tcbBar (t : BitVec 1024) : BitVec 16 := t.extractLsb' 528 16
def tcbQbar (t : BitVec 1024) : BitVec 8 := t.extractLsb' 544 8
def tcbChan (t : BitVec 1024) : BitVec 4 := t.extractLsb' 552 4
def tcbNib (t : BitVec 1024) : BitVec 4 := t.extractLsb' 556 4
def tcbPasid (t : BitVec 1024) : BitVec 20 := t.extractLsb' 560 20
def tcbDies (t : BitVec 1024) : BitVec 4 := t.extractLsb' 580 4
def tcbGangwg (t : BitVec 1024) : Nat := fld t 584 3
def tcbWarps (t : BitVec 1024) : Nat := fld t 587 5
def tcbClass (t : BitVec 1024) : Fin 4 := (t.extractLsb' 592 2).toFin
def tcbKind (t : BitVec 1024) : Nat := fld t 594 2
def tcbAllres (t : BitVec 1024) : Bool := t.getLsbD 596
def tcbRscope (t : BitVec 1024) : Nat := fld t 597 3
def tcbNargs (t : BitVec 1024) : Nat := fld t 600 6
def tcbDbar (t : BitVec 1024) : BitVec 32 := t.extractLsb' 608 32
def tcbPbar (t : BitVec 1024) : BitVec 32 := t.extractLsb' 640 32
def tcbPod (t : BitVec 1024) : BitVec 64 := t.extractLsb' 680 64
def tcbDexp (t : BitVec 1024) : Nat := fld t 744 16
def tcbPexp (t : BitVec 1024) : Nat := fld t 760 16

/-- A successor index names a node or none. -/
def succOk (n i : Nat) : Bool := i == 0xFFFF || i < n
/-- A TCB is malformed in a graph of `n` nodes (R363). -/
def tcbBad (n : Nat) (t : BitVec 1024) : Bool :=
  let kind := tcbKind t
  let masks := tcbSem t != 0#64 || tcbCm t != 0#16 || tcbBar t != 0#16 || tcbQbar t != 0#8 || tcbChan t != 0#4 || tcbNib t != 0#4
    || tcbDbar t != 0#32 || tcbPbar t != 0#32 || tcbPod t != 0#64
  t.extractLsb' 776 248 != 0#248 || t.extractLsb' 606 2 != 0#2 || kind == 3
    || tcbRscope t < 4 || 6 < tcbRscope t
    || ((tcbDexp t == 0) != (tcbDbar t == 0#32)) || ((tcbPexp t == 0) != (tcbPbar t == 0#32))
    || tcbDies t == 0#4 || 32 < tcbNargs t || (tcbSucc t).any (!succOk n ·)
    || (if kind = 0 then
          tcbKdesc t == 0#64 || tcbCondw t != 0#64 || tcbGangwg t == 0 || 4 < tcbGangwg t || tcbWarps t == 0 || tcbNgang t == 0
        else
          tcbKdesc t != 0#64 || tcbOvf t != 0#64 || tcbNgang t != 0 || masks || tcbCondw t == 0#64 || (tcbCondw t).toNat % 8 != 0)

def kdEntry (k : BitVec 512) : Dword := k.extractLsb' 0 64
def kdTrapv (k : BitVec 512) : Dword := k.extractLsb' 64 64
def kdSlice (k : BitVec 512) : Dword := k.extractLsb' 128 64
def kdConn (k : BitVec 512) (i : Nat) : Nat := fld k (192 + 2 * i) 2
def kdVgran (k : BitVec 512) : Nat := fld k 224 7
def kdRows (k : BitVec 512) : Nat := fld k 231 10
def kdSpan (k : BitVec 512) : Nat := fld k 241 3
def kdOb (k : BitVec 512) : Nat := fld k 244 9
def kdTiles (k : BitVec 512) : Nat := fld k 253 5
/-- The status with which a descriptor fails its task (R360): BADTCB, NOFIT, or none; BADTCB where both hold (log 88). -/
def kdFault (warps : Nat) (k : BitVec 512) : Option Nat :=
  let conn := (List.range 16).map (kdConn k)
  if k.extractLsb' 258 254 != 0#254 || conn.any (· == 3) || (kdSlice k == 0#64 && conn.any (· != 0))
      || (kdEntry k).toNat % 4 != 0 || (kdTrapv k).toNat % 4 != 0 || (kdSlice k).toNat % 4 != 0 then some 6
  else if kdVgran k = 0 || 96 < kdVgran k || 512 < kdRows k || 6 ≤ kdSpan k || 256 < kdOb k || 24 < kdTiles k
      || 504 / kdVgran k < warps then some 5
  else none

def Node.needs (t : BitVec 1024) (k : BitVec 512) : Needs :=
  ⟨tcbWarps t, 8 * kdVgran k, kdRows k, kdOb k, kdTiles k, tcbSem t, tcbCm t, tcbBar t, tcbChan t, tcbNib t, kdSlice k != 0#64⟩

/-! ### STATUS, READY, retirement (R362-R368) -/

/-- A node's address (R361). -/
def nodeVa (g : Graph) (n : Nat) : Dword := g.table + BitVec.ofNat 64 (128 * n)
/-- Writes STATUS of a node (R362, R364). -/
def setStatus (s : State) (d id n st : Nat) : State :=
  match (s.die d).graph? id with
  | none => s
  | some g => cpuWrite (s.modNode d id n fun x => { x with status := st }) d g.pasid (nodeVa g n + 84#64) [BitVec.ofNat 8 st]
/-- Writes PRED of a node. -/
def setPred (s : State) (d id n p : Nat) : State :=
  match (s.die d).graph? id with
  | none => s
  | some g => cpuWrite (s.modNode d id n fun x => { x with pred := p }) d g.pasid (nodeVa g n + 52#64) (leBytes 2 p)
/-- The first failure of a graph (R367): nothing more is decremented. -/
def failGraph (s : State) (d id n st : Nat) : State :=
  let s := s.modGraph d id fun g => { g with fail := match g.fail with | none => some (n, st) | f => f }
  s.modDie d fun k => { k with decs := k.decs.filter (·.1 != id) }
/-- Reads the kernel descriptor of a READY task (R359), in the PASID of the node. -/
def readKd (s : State) (d id n : Nat) : State :=
  match s.node? d id n with
  | none => s
  | some x =>
    if tcbKind x.tcb ≠ 0 || x.kd.isSome || x.status ≠ 1 then s
    else match cpuRead s d (tcbPasid x.tcb) (tcbKdesc x.tcb) 64 with
      | .wait s => s
      | .fail s _ => failGraph (setStatus s d id n 7) d id n 7
      | .ok s v => s.modNode d id n fun x => { x with kd := some (BitVec.ofNat 512 v) }

/-- Gangs of `k` workgroups on contiguous enabled cores of a quad, when each core has room for `m`. -/
def quadGangs (s : State) (q m k : Nat) : Nat :=
  let on := (List.range 4).map fun i => !s.fuses.off.contains (4 * q + i)
  let runs := on.foldl (fun (r : List Nat × Nat) b => if b then (r.1, r.2 + 1) else (r.1 ++ [r.2], 0)) ([], 0)
  ((runs.1 ++ [runs.2]).map fun l => l / Nat.max 1 k * m).foldl (· + ·) 0
/-- Workgroups of a kind that one idle core can hold. -/
def coreRoom (q : Needs) : Nat :=
  let div := fun (cap n : Nat) => if n = 0 then 31 else cap / n
  let m := Nat.min (31 / Nat.max 1 q.warps) (Nat.min (504 / Nat.max 1 (q.n / 8) / Nat.max 1 q.warps)
    (Nat.min (div 512 q.rows) (Nat.min (div 256 q.obLen) (div 24 q.accN))))
  if q.sem != 0#64 || q.cm != 0#16 || q.bar != 0#16 || q.chan != 0#4 || q.nib != 0#4 || q.slice then Nat.min 1 m else m
/-- The gangs of a grid that some quads hold when they are idle (R371). -/
def gridRoom (s : State) (t : BitVec 1024) (k : BitVec 512) (quads : List Nat) : Nat :=
  (quads.map fun q =>
    let n := quadGangs s q (coreRoom (Node.needs t k)) (tcbGangwg t)
    if tcbQbar t != 0#8 then Nat.min 1 n else n).foldl (· + ·) 0
def allQuads (t : BitVec 1024) : List Nat := (List.range 96).filter fun q => (tcbDies t).getLsbD (q / 24)
/-- The failure that a task's descriptor or grid brings when it becomes READY (R360, R371). -/
def readyFault (s : State) (x : Node) : Option Nat :=
  match x.kd with
  | none => none
  | some k => match kdFault (tcbWarps x.tcb) k with
    | some st => some st
    | none => if tcbAllres x.tcb && gridRoom s x.tcb k (allQuads x.tcb) < tcbNgang x.tcb then some 5 else none
/-- A node's failure is written and ends the graph (R362, R367); one that has not run is not reloaded (log 94). -/
def failNode (s : State) (d id n st : Nat) : State := failGraph (setStatus s d id n st) d id n st
/-- Checks the descriptor of a READY task once it has been read. -/
def checkKd (s : State) (d id n : Nat) : State :=
  let s := readKd s d id n
  match s.node? d id n with
  | none => s
  | some x => match (if x.status = 1 then readyFault s x else none) with
    | some st => failNode s d id n st
    | none => s
/-- A graph has failed: no node of it becomes READY, and none is decremented (R367). -/
def graphFailed (s : State) (d id : Nat) : Bool := (((s.die d).graph? id).map (·.fail.isSome)).getD true
/-- A node becomes READY, in event order (R364, R369), unless its graph has failed. -/
def setReady (s : State) (d id n : Nat) : State :=
  if graphFailed s d id then s.modNode d id n fun x => { x with release := false }
  else
    let o := (s.die d).readySeq
    let s := (setStatus s d id n 1).modNode d id n fun x => { x with order := some o, release := false }
    checkKd (s.modDie d fun k => { k with readySeq := o + 1 }) d id n
/-- Asks the host to release a node, while graph walking is host-assisted (R458). -/
def askReady (s : State) (d id n : Nat) : State :=
  if assistRoom s && !s.assist.pend.contains (.ready d id n) then
    raiseAssist s (.ready d id n) 0x22 [(48, graphTag s d id), (80, d), (96, n)]
  else s
/-- A node's count has reached 0 with a run mark. -/
def makeReady (s : State) (d id n : Nat) : State :=
  if graphFailed s d id then s
  else if assisted s 1 then askReady (s.modNode d id n fun x => { x with release := true }) d id n else setReady s d id n

/-- The marks that a retired node sends (R365): successors in ascending order, then the overflow successors. -/
def marks (x : Node) (skipped nonzero : Bool) : List (Nat × Bool) :=
  let lo := (tcbSucc x.tcb).take 4
  let hi := (tcbSucc x.tcb).drop 4
  let m := fun (l : List Nat) (b : Bool) => (l.filter (· != 0xFFFF)).map fun i => (i, b)
  match tcbKind x.tcb with
  | 0 => m (lo ++ hi ++ x.ovf) (!skipped)
  | 1 => if skipped then m (lo ++ hi) false else m lo nonzero ++ m hi (!nonzero)
  | _ => if skipped then m hi false else if nonzero then m lo true else m hi true
/-- A NODE RETIRES (R366): STATUS, the reload of PRED, the decrements held for it, then its successors'; in a failed graph
nothing is decremented (R367). -/
def retireNode (s : State) (d id n st : Nat) (nonzero : Bool) : State :=
  match s.node? d id n with
  | none => s
  | some x =>
    let s := setStatus s d id n st
    let s := setPred s d id n (tcbPredinit x.tcb)
    let s := s.modNode d id n fun x => { x with runMk := false, held := [], order := none, args := none, kd := none, next := 0, waited := none }
    if graphFailed s d id then s
    else s.modDie d fun k => { k with
      decs := x.held.map (fun b => (id, n, b)) ++ k.decs ++ (marks x (st == 4) nonzero).map fun m => (id, m.1, m.2) }

/-- A node that has run retires with a failure (R366, R367): the graph has failed by then, so nothing is decremented. -/
def retireFailed (s : State) (d id n st : Nat) : State := retireNode (failGraph s d id n st) d id n st false

/-- What the nodes of a graph that ends still hold goes back: the images of pre-empted gangs with their nibs, and wide barriers. -/
def dropGraph (s : State) (d id : Nat) : State :=
  let mine := fun (i : Image) => i.wg.die == d && i.wg.graph == id
  let s := (s.images.filter mine).foldl (fun s i => releaseNibs s i.core i.wg.nibMask) s
  let f := fun (b : WideBar) => match b.owner with
    | some (x, g, _) => if x = d ∧ g = id then WideBar.fresh else b
    | none => b
  { s with images := s.images.filter (!mine ·), dies := s.dies.map (fun (k : Die) => { k with bars := k.bars.map f }), pbars := s.pbars.map f }
/-- A task that has run and has nothing left to place: TASK_RETIREMENT has still to write its STATUS (R366). -/
def Node.retires (x : Node) : Bool :=
  x.status == 2 && tcbKind x.tcb == 0 && (x.doom.isSome || (tcbNgang x.tcb ≤ x.next && x.back.isEmpty))
/-- A graph's end is reported once a place for the message is free (R367, R408). -/
def endGraph (s : State) (d id : Nat) : State :=
  match (s.die d).graph? id with
  | none => s
  | some g =>
    let busy := match g.fail with
      | some _ => g.nodes.any fun x => x.placed != 0 || x.retires
      | none => g.nodes.any (fun x => x.status == 1 || x.status == 2 || x.release) || (s.die d).decs.any (·.1 == id)
    if busy || !d2hRoom s 1 then s
    else
      let s := match g.fail with
        | some (n, st) => d2hRaise s 0x82 [(48, g.tag.toNat), (80, d), (88, st), (96, n)]
        | none => d2hRaise s 0x81 [(48, g.tag.toNat), (80, d)]
      (dropGraph s d id).modDie d fun k => { k with graphs := k.graphs.filter (·.id != id) }
/-- Every graph of a die that has ended. -/
def endGraphs (s : State) (d : Nat) : State := ((s.die d).graphs.map (·.id)).foldl (endGraph · d ·) s

/-! ### SUBMIT (R364) -/

/-- The successors of a chain of overflow blocks; a block that is not 64-B aligned, an index that names no node, or a
chain that does not end is malformed. -/
def readOvf (s : State) (d : Nat) (pasid : BitVec 20) (n : Nat) : Nat → Dword → CR (Option (List Nat))
  | 0, _ => .ok s none
  | f + 1, va =>
    if va = 0#64 then .ok s (some [])
    else if va.toNat % 64 ≠ 0 then .ok s none
    else (cpuRead s d pasid va 64).bind fun s v =>
      let b : BitVec 512 := BitVec.ofNat 512 v
      let l := (List.range 28).map fun j => fld b (16 * j) 16
      if l.any (!succOk n ·) then .ok s none
      else (readOvf s d pasid n f (b.extractLsb' 448 64)).bind fun s r => .ok s (r.map (l ++ ·))
/-- A node as submitted. -/
def Node.ofTcb (t : BitVec 1024) (ovf : List Nat) : Node :=
  ⟨t, ovf, tcbPredinit t, 0, tcbPredinit t == 0, [], none, false, none, none, 0, [], 0, none, none⟩
/-- Reads and checks the nodes from `i` upward: the graph, or the first node that fails with its status. -/
def readNodes (s : State) (d : Nat) (pasid : BitVec 20) (table : Dword) (n : Nat) : Nat → Nat → CR (Except (Nat × Nat) (List Node))
  | 0, _ => .ok s (.ok [])
  | f + 1, i =>
    match cpuRead s d pasid (table + BitVec.ofNat 64 (128 * i)) 128 with
    | .wait s => .wait s
    | .fail s _ => .ok s (.error (i, 7))
    | .ok s v =>
      let t : BitVec 1024 := BitVec.ofNat 1024 v
      if tcbBad n t then .ok s (.error (i, 6))
      else match readOvf s d pasid n 65536 (tcbOvf t) with
        | .wait s => .wait s
        | .fail s _ => .ok s (.error (i, 7))
        | .ok s none => .ok s (.error (i, 6))
        | .ok s (some o) => (readNodes s d pasid table n f (i + 1)).bind fun s r => .ok s (r.map (Node.ofTcb t o :: ·))

def submitFields : List (Nat × Nat) := [(48, 2), (52, 20), (80, 16), (96, 64), (160, 32)]
/-- The number of the next graph of a die; graph `id` belongs to die `id % 4`. -/
def newGraphId (s : State) (d : Nat) : Nat := 4 * (s.die d).readySeq + d
/-- The nodes of an accepted graph are set to IDLE and those without predecessors become READY. -/
def startGraph (s : State) (d : Nat) (g : Graph) : State :=
  let s := s.modDie d fun k => { k with graphs := k.graphs ++ [g], readySeq := k.readySeq + 1 }
  let ns := List.range g.nodes.length
  let s := ns.foldl (fun s i => match g.nodes[i]? with
    | some x => setPred (setStatus s d g.id i 0) d g.id i x.pred
    | none => s) s
  ns.foldl (fun s i => match g.nodes[i]? with
    | some x => if x.pred = 0 then makeReady s d g.id i else s
    | none => s) s
/-- SUBMIT: the walker of a die reads a submitted graph and checks it; a bad node fails the graph before any runs, and its STATUS is
written (R362). -/
def execSubmit (die : Nat) (s : State) : Out :=
  match h2dMsg s 0x01 with
  | none => .next s
  | some (seq, e) =>
    let n := fld e 80 16
    let table : Dword := e.extractLsb' 96 64
    if !bodyOk e submitFields || n = 0 || table.toNat % 128 ≠ 0 then .next (h2dRefuse s seq)
    else if fld e 48 2 ≠ die || !d2hRoom s 1 then .next s
    else
      let pasid : BitVec 20 := e.extractLsb' 52 20
      let tag : Word := e.extractLsb' 160 32
      match readNodes s die pasid table n n 0 with
      | .wait s => .next s
      | .fail s _ => .next s
      | .ok s (.error (i, st)) =>
        let s := cpuWrite s die pasid (table + BitVec.ofNat 64 (128 * i + 84)) [BitVec.ofNat 8 st]
        .next (h2dTake (d2hRaise s 0x82 [(48, tag.toNat), (80, die), (88, st), (96, i)]) seq)
      | .ok s (.ok nodes) => .next (endGraphs (startGraph (h2dTake s seq) die ⟨newGraphId s die, tag, pasid, table, nodes, none⟩) die)

/-! ### Placement (R369-R374) -/

def graphDie (id : Nat) : Nat := id % 4
/-- The rank of a node: class, then the order of becoming READY (R369). -/
def Node.above (a b : Node) : Bool :=
  (tcbClass a.tcb).val < (tcbClass b.tcb).val || (tcbClass a.tcb == tcbClass b.tcb && a.order.getD 0 < b.order.getD 0)
/-- The next gang of a node that may be placed, with whether it comes back from pre-emption. -/
def Node.nextGang (x : Node) : Option (Nat × Bool) :=
  if !(x.status == 1 || x.status == 2) || tcbKind x.tcb ≠ 0 || x.doom.isSome then none
  else match x.back.min? with
    | some g => some (g, true)
    | none => if x.next < tcbNgang x.tcb then some (x.next, false) else none
/-- The nodes of a die whose gangs wait; a task that a contained error has stopped places none (R458). -/
def waiting (s : State) (d : Nat) : List (Nat × Nat × Node) :=
  (s.die d).graphs.foldl (fun l g => if g.fail.isSome then l else
    l ++ ((List.range g.nodes.length).filterMap fun i => (g.nodes[i]?).bind fun x =>
      if s.contained d g.id i then none else x.nextGang.map fun _ => (g.id, i, x))) []
/-- A quad is kept for a waiting node of a rank that `x` does not exceed (R370). -/
def keptFrom (s : State) (d : Nat) (id n : Nat) (x : Node) (quad : Nat) : Bool :=
  (waiting s d).any fun y => !(y.1 == id && y.2.1 == n) && ((y.2.2.waited.map (·.contains quad)).getD false) && !x.above y.2.2

/-- The argument block, read once (R369). -/
def readArgs (s : State) (d : Nat) (pasid : BitVec 20) : Nat → Dword → CR (List Dword)
  | 0, _ => .ok s []
  | n + 1, va => (cpuRead s d pasid va 8).bind fun s v => (readArgs s d pasid n (va + 8#64)).bind fun s l => .ok s (BitVec.ofNat 64 v :: l)

/-- The wide barriers of a node are free (R370). -/
def wideFree (s : State) (t : BitVec 1024) : Bool :=
  ((List.range 4).all fun d => !(tcbDies t).getLsbD d || (List.range 32).all fun n =>
    !(tcbDbar t).getLsbD n || ((((s.die d).bars[n]?).map fun b => b.owner.isNone).getD false))
    && (List.range 32).all fun n => !(tcbPbar t).getLsbD n || (((s.pbars[n]?).map fun b => b.owner.isNone).getD false)
/-- The die and package barriers of a node, as its first gang finds them (R276, R373). -/
def takeWide (s : State) (d id n : Nat) (t : BitVec 1024) : State :=
  let mk := fun (e : Nat) => (⟨{ Bar.fresh with expect := e }, some (d, id, n), none⟩ : WideBar)
  { s with
    dies := Vector.ofFn fun i => let k := s.dies[i]
      if (tcbDies t).getLsbD i.val then { k with bars := putMask k.bars (tcbDbar t).getLsbD fun _ => mk (tcbDexp t) } else k
    pbars := putMask s.pbars (tcbPbar t).getLsbD fun _ => mk (tcbPexp t) }
/-- They are reclaimed when the node retires (R373). -/
def dropWide (s : State) (d id n : Nat) : State :=
  let f := fun (b : WideBar) => if b.owner = some (d, id, n) then WideBar.fresh else b
  { s with dies := s.dies.map (fun (k : Die) => { k with bars := k.bars.map f }), pbars := s.pbars.map f }
/-- Every pod barrier of a node is allotted to its PASID (R374), as this device knows it from device 0 of the pod. -/
def podHeld (s : State) (t : BitVec 1024) : Bool :=
  (List.range 64).all fun b => !(tcbPod t).getLsbD b || ((s.podBars[b]?).bind (·.pasid)) == some (tcbPasid t)

/-- Bammar of device 0 allots a free pod barrier to a PASID (R374). -/
def podGive (s : State) (b : Nat) (pasid : BitVec 20) (expect : Nat) : Option State :=
  if ((s.podBars[b]?).bind (·.pasid)).isSome then none
  else some (podTell { s with podBars := s.podBars.setIfInBounds b ⟨{ Bar.fresh with expect := expect }, none, some pasid⟩ })
/-- It frees one, unless a node of the PASID that holds it is READY or RUNNING, here or, by a free choice, on another device of the pod
(R374; log 1). -/
def podTake (s : State) (b : Nat) (pasid : BitVec 20) : Option State :=
  let here := s.dies.toList.any fun (k : Die) => k.graphs.any fun g => g.nodes.any fun x =>
    (x.status == 1 || x.status == 2) && tcbPasid x.tcb == pasid && (tcbPod x.tcb).getLsbD b
  let there := s.rports.toList.any (·.st == .up) && Config.coin s.tick
  if here || there then none else some (podTell { s with podBars := s.podBars.setIfInBounds b WideBar.fresh })
/-- Bammar of another device forwards the message to device 0, which takes it or has it answered with an ERROR message (R374; log 1). -/
def podForward (s : State) : Option State :=
  if Config.coin s.tick then none else some (originate s ⟨unitSource s 0 145, 0#4, 0#3⟩)

/-- The context area of a warp: a page of the task with RD and W set and SCR clear (R385). -/
def ctxPage (s : State) (d : Nat) (pasid : BitVec 20) (va : Dword) (pa : Nat) : Bool :=
  match walk s d pasid va with
  | .leaf x => x.rd && x.w && !x.scr && x.mt == mtTrk && x.home.isNone && x.to va.toNat == pa
  | _ => false
def placeCtx (p : Place) (i : Nat) : Dword × Nat := (p.ctxVa + BitVec.ofNat 64 (4096 * i), p.ctxPa + 4096 * i)
/-- The context areas that a place offers are fit for a gang of `n` warps and in no other warp's use. -/
def ctxOk (s : State) (pasid : BitVec 20) (p : Place) (n : Nat) : Bool :=
  p.ctxPa % 4096 == 0 && isHbm (p.ctxPa + 4096 * n) && (List.range n).all (fun i => ctxPage s p.die.val pasid (placeCtx p i).1 (placeCtx p i).2)
    && s.cores.toList.all (fun k => k.warps.toList.all fun (w : Option Warp) => match w with
      | some w => w.wg.isNone || w.framePa < p.ctxPa || p.ctxPa + 4096 * n ≤ w.framePa
      | none => true)
    && s.images.all fun (i : Image) => i.warps.all fun w => w.framePa < p.ctxPa || p.ctxPa + 4096 * n ≤ w.framePa
def placeCore (p : Place) (i : Nat) : Nat := 96 * p.die.val + 4 * p.quad.val + p.c0.val + i
def placeQuad (p : Place) : Nat := 24 * p.die.val + p.quad.val

/-- A warp of a placed workgroup (R94). -/
def newWarp (x : Node) (k : BitVec 512) (id w base : Nat) (va : Dword) (pa : Nat) (args : List Dword) : Warp :=
  let v := Warp.fresh (some id) w base (8 * kdVgran k) (tcbPasid x.tcb) (tcbClass x.tcb) (kdEntry k) va pa
  { v with sregs := Vector.ofFn fun i => (args[i.val]?).getD 0#64 }
/-- A workgroup as placement leaves it (R89, R94, R147, R266). -/
def newWg (s : State) (x : Node) (k : BitVec 512) (d graph n gang i id : Nat) (a : Alloc) (args : List Dword) : Wg :=
  let t := x.tcb
  { id, die := d, graph, node := n, gang, wgno := i, wgs := tcbGangwg t, ngang := tcbNgang t
    pasid := tcbPasid t, cls := tcbClass t, warps := tcbWarps t, trapv := kdTrapv k
    semMask := tcbSem t, cmMask := tcbCm t, barMask := tcbBar t, qbarMask := tcbQbar t, chanMask := tcbChan t, nibMask := tcbNib t
    dbarMask := tcbDbar t, pbarMask := tcbPbar t, podMask := tcbPod t
    spadBase := a.spad, spadRows := kdRows k, span := kdSpan k, obBase := a.ob, obLen := kdOb k, accBase := a.acc, accN := kdTiles k
    qconn := Vector.ofFn fun j => match kdConn k j.val with | 1 => .operand | 2 => .store | _ => .none
    queues := Vector.replicate 24 [], x := Vector.ofFn fun j => (args[j.val]?).getD 0#64
    slicePc := kdSlice k, sliceWord := none, sliceSt := if kdSlice k = 0#64 then .none else .running
    resv := [], hands := [], tw := ⟨[], [], 0⟩, lastErr := 0#8, acyc := 0#32, gstall := 0#32, stq := none, ldq := none, stopping := false, ending := false, born := s.tick }
/-- Places workgroup `i` of a gang on its core; none where it does not fit. -/
def placeWg (s : State) (x : Node) (k : BitVec 512) (d graph n gang i : Nat) (p : Place) (args : List Dword) : Option State :=
  let c := placeCore p i
  let q := Node.needs x.tcb k
  (fitWg s c q (tcbNib x.tcb) none).map fun a =>
    s.modCore c fun y =>
      let id := y.seq
      let y := (y.clear a q).freshMasks q (tcbNib x.tcb) (some id)
      { y with
        seq := y.seq + 1
        hz := Nat.max y.hz s.taskHz
        wgs := y.wgs ++ [newWg s x k d graph n gang i id a args]
        warps := ((List.range q.warps).zip (a.slots.zip a.bases)).foldl (fun v w =>
          let f := placeCtx p (i * q.warps + w.1)
          v.setIfInBounds w.2.1 (some (newWarp x k id w.1 w.2.2 f.1 f.2 args))) y.warps }
def placeAll (s : State) (f : State → Nat → Option State) : List Nat → Option State
  | [] => some s
  | i :: t => (f s i).bind fun s => placeAll s f t
/-- The gang's quad and cores suit it (R370); nothing of a halted core changes (R396). -/
def placeOk (s : State) (x : Node) (d id n : Nat) (p : Place) : Bool :=
  (tcbDies x.tcb).getLsbD p.die.val && p.c0.val + tcbGangwg x.tcb ≤ 4 && !keptFrom s d id n x (placeQuad p)
    && (List.range (tcbGangwg x.tcb)).all fun i => !(s.core (placeCore p i)).halted
/-- Places a gang in one step; none where any part of it does not fit. -/
def placeGang (s : State) (x : Node) (k : BitVec 512) (d id n gang : Nat) (p : Place) (args : List Dword) (first ctx : Bool) : Option State :=
  if !placeOk s x d id n p || (ctx && !ctxOk s (tcbPasid x.tcb) p (tcbGangwg x.tcb * tcbWarps x.tcb))
      || !qbarsFree s (placeCore p 0) (tcbQbar x.tcb) (fun _ => false) || (first && !wideFree s x.tcb) then none
  else
    let s := s.modDie p.die.val (·.modQuad p.quad.val fun y => { y with bars := putMask y.bars (tcbQbar x.tcb).getLsbD fun _ => Bar.fresh })
    let s := if first then takeWide s d id n x.tcb else s
    placeAll s (fun s i => placeWg s x k d id n gang i p args) (List.range (tcbGangwg x.tcb))
/-- The images of a pre-empted gang, in the order of its workgroups. -/
def gangImages (s : State) (d id n gang : Nat) : List Image :=
  (s.images.filter fun (i : Image) => taskHas d id n i.wg && i.wg.gang == gang)
/-- Resumes a pre-empted gang: those of its workgroups that had not retired (R372, R394). -/
def resumeGang (s : State) (x : Node) (d id n gang : Nat) (p : Place) : Option State :=
  let l := gangImages s d id n gang
  if !placeOk s x d id n p || l.isEmpty then none
  else placeAll s (fun s i => match l.find? (·.wg.wgno == i) with
    | some im => restoreWg s (placeCore p i) im
    | none => some s) (List.range (tcbGangwg x.tcb))
/-- The first place of a node's quads for which `f` answers. -/
def somewhere {α : Type} (t : BitVec 1024) (f : Place → Option α) : Option α :=
  (allQuads t).findSome? fun q => (List.range 4).findSome? fun c => f ⟨Fin.ofNat 4 (q / 24), Fin.ofNat 24 q, Fin.ofNat 4 c, 0#64, 0⟩
/-- The gangs of a grid from `i` upward, each at the first place that it fits. -/
def gridPut (x : Node) (k : BitVec 512) (d id n : Nat) : Nat → Nat → State → Option State
  | 0, _, s => some s
  | f + 1, i, s => (somewhere x.tcb fun p => placeGang s x k d id n i p [] (i == 0) false).bind (gridPut x k d id n f (i + 1))
/-- The next gang of a node, or its whole grid, would fit now, wherever it lay (R369-R371). -/
def fitsNow (s : State) (d : Nat) (y : Nat × Nat × Node) : Bool :=
  let x := y.2.2
  match x.nextGang, x.kd with
  | some (g, true), _ => (somewhere x.tcb (resumeGang s x d y.1 y.2.1 g)).isSome
  | some (g, false), some k =>
    if tcbAllres x.tcb then (gridPut x k d y.1 y.2.1 (tcbNgang x.tcb) g s).isSome
    else (somewhere x.tcb fun p => placeGang s x k d y.1 y.2.1 g p [] (x.next == 0) false).isSome
  | _, _ => false
/-- A waiting gang or grid of higher rank than a node's fits now: it goes first (R369). -/
def outranked (s : State) (d : Nat) (x : Node) : Bool := (waiting s d).any fun z => z.2.2.above x && fitsNow s d z

/-! ### Pre-emption (R372, R391) -/

/-- The workgroups of a gang begin to stop (R392). -/
def stopGang (s : State) (d id n gang : Nat) : State :=
  { s with cores := s.cores.map (Core.stopWgs · (fun g => taskHas d id n g && g.gang == gang) fun g => g) }
/-- The gang that pre-emption takes from a quad: of classes 1 to 3, the lowest class, then the latest placed. -/
def victimGang (s : State) (q : Nat) : Option Wg :=
  let l := ((List.range 4).foldl (fun l i => l ++ (s.core (4 * q + i)).wgs) []).filter fun g => g.cls != 0 && !g.stopping
  l.foldl (fun (o : Option Wg) g => match o with
    | none => some g
    | some h => if h.cls.val < g.cls.val || (h.cls == g.cls && h.born < g.born) then some g else some h) none
def quadStopping (s : State) (q : Nat) : Bool := (List.range 4).any fun i => (s.core (4 * q + i)).wgs.any (·.stopping)
/-- The walker pre-empts on the chosen quad for a node of class P, one gang at a time (R372). -/
def preemptOn (s : State) (x : Node) (p : Place) : State :=
  let q := placeQuad p
  if tcbClass x.tcb ≠ 0 || !(tcbDies x.tcb).getLsbD p.die.val || quadStopping s q then s
  else match victimGang s q with
    | some g => stopGang s g.die g.graph g.node g.gang
    | none => s
/-- A gang of class P that fits nowhere makes the walker pre-empt. -/
def preemptFor (s : State) (d : Nat) (y : Nat × Nat × Node) (p : Place) : State :=
  if fitsNow s d y then s else preemptOn s y.2.2 p
/-- The place of the first gang of an ALLRES grid that has none there beside the gangs before it. -/
def gridStop (x : Node) (k : BitVec 512) (d id n : Nat) : List (Nat × Place) → State → Option Place
  | [], _ => none
  | (i, p) :: t, s => match placeGang s x k d id n i p [] (i == 0) false with
    | some s => gridStop x k d id n t s
    | none => some p
/-- A grid of class P that fits nowhere makes the walker pre-empt where its first gang without a place was to go (R371, R372). -/
def preemptGrid (s : State) (x : Node) (k : BitVec 512) (d id n : Nat) (ps : List Place) : State :=
  if fitsNow s d (id, n, x) then s
  else match gridStop x k d id n ((List.range ps.length).zip ps) s with
    | some p => preemptOn s x p
    | none => s

/-- A node's gang has been placed. -/
def placed (s : State) (d id n gang : Nat) (back : Bool) : State :=
  let s := match s.node? d id n with
    | some x => if x.status = 1 then setStatus s d id n 2 else s
    | none => s
  s.modNode d id n fun x => { x with placed := x.placed + 1, waited := none
                                     back := if back then x.back.erase gang else x.back, next := if back then x.next else x.next + 1 }
/-- The checks and reads before a node's first gang (R369, R374). -/
def prepare (s : State) (d id n : Nat) (x : Node) : CR Node :=
  if x.status = 1 ∧ !podHeld s x.tcb then .fail s 6#4
  else match x.args with
    | some _ => .ok s x
    | none => match readArgs s d (tcbPasid x.tcb) (tcbNargs x.tcb) (tcbArgs x.tcb) with
      | .ok s l => .ok (s.modNode d id n fun x => { x with args := some l }) { x with args := some l }
      | .wait s => .wait s
      | .fail s _ => .fail s 7#4

/-- GANG_PLACEMENT (R369-R373): the next gang of a node is placed whole at a place, unless a waiting gang of higher
rank fits now; class P pre-empts where it fits nowhere. -/
def execGangPlacement (graph node : Nat) (p : Place) (s : State) : Out :=
  let d := graphDie graph
  let s := checkKd s d graph node
  match (waiting s d).find? fun y => y.1 == graph && y.2.1 == node with
  | none => .next (endGraphs s d)
  | some y => match prepare s d graph node y.2.2 with
    | .wait s => .next s
    | .fail s st => .next (endGraphs (failNode s d graph node st.toNat) d)
    | .ok s x =>
      if outranked s d x then .next s
      else match x.nextGang, x.kd with
        | some (g, true), _ => match resumeGang s x d graph node g p with
          | some s => .next (placed s d graph node g true)
          | none => .next (preemptFor s d y p)
        | some (g, false), some k =>
          if tcbAllres x.tcb then .next s
          else match placeGang s x k d graph node g p (x.args.getD []) (x.next == 0) true with
            | some s => .next (placed s d graph node g false)
            | none => .next (preemptFor s d y p)
        | _, _ => .next s
/-- GRID_PLACEMENT (R371): every gang of an ALLRES grid at once, or none, unless a waiting gang of higher rank fits now; class P pre-empts where it fits nowhere. -/
def execGridPlacement (graph node : Nat) (ps : List Place) (s : State) : Out :=
  let d := graphDie graph
  let s := checkKd s d graph node
  match (waiting s d).find? fun y => y.1 == graph && y.2.1 == node with
  | none => .next (endGraphs s d)
  | some y => match prepare s d graph node y.2.2 with
    | .wait s => .next s
    | .fail s st => .next (endGraphs (failNode s d graph node st.toNat) d)
    | .ok s x => match x.kd with
      | none => .next s
      | some k =>
        if !tcbAllres x.tcb || x.next ≠ 0 || ps.length ≠ tcbNgang x.tcb || outranked s d x then .next s
        else match placeAll s (fun s i => (ps[i]?).bind fun p =>
            (placeGang s x k d graph node i p (x.args.getD []) (i == 0) true).map fun s => placed s d graph node i false) (List.range ps.length) with
          | some s => .next s
          | none => .next (preemptGrid s x k d graph node ps)
/-- PLACEMENT_WAIT_EXPIRY (R370, R371): a quad, or a set of quads that could hold an ALLRES grid, is kept for a waiting
node. -/
def execPlacementWaitExpiry (graph node : Nat) (quads : List (Fin 4 × Fin 24)) (s : State) : Out :=
  let d := graphDie graph
  match (waiting s d).find? fun y => y.1 == graph && y.2.1 == node with
  | none => .next s
  | some y =>
    let qs := quads.map fun q => 24 * q.1.val + q.2.val
    let t := y.2.2.tcb
    let enough := if tcbAllres t && y.2.2.next == 0 then
        (match y.2.2.kd with | some k => tcbNgang t ≤ gridRoom s t k qs | none => false) && qs.Nodup
      else qs.length == 1
    if y.2.2.waited.isSome || !enough || qs.any (!(allQuads t).contains ·) then .next s
    else .next (s.modNode d graph node fun x => { x with waited := some qs })

/-- A gang that leaves its quad: it retires, or it goes back to its node (R372). -/
def gangGone (s : State) (d id n gang : Nat) (back : Bool) : State :=
  s.modNode d id n fun x => { x with placed := x.placed - 1, back := if back then x.back ++ [gang] else x.back }
/-- A gang that stops is saved once every workgroup of it is quiet: whole or not at all (R19, R391). -/
def saveGang (s : State) (g : Wg) : State :=
  let l := gangCores s g.die g.graph g.node g.gang
  if !l.all fun e => wgQuiet s e.1 e.2.id && !(s.core e.1).halted then s
  else
    let s := l.foldl (fun s e => saveWg s e.1 e.2.id ((((s.core e.1).warpsOf e.2.id).map (·.2.framePa)).min?.getD 0) []) s
    gangGone s g.die g.graph g.node g.gang true
/-- Every warp has ended and everything that they and the engines began is done (R96, R147, R368). -/
def wgDone (s : State) (c : Nat) (g : Wg) : Bool :=
  let k := s.core c
  let ws := k.warpsOf g.id
  ws.all (fun w => w.2.ended && w.2.deferred.isEmpty && w.2.ops.all (·.engine) && warpQuiet s c w)
    && !k.tickets.any (fun t => pathOf k g.id t.acc.path) && !k.misses.any (fun m => pathOf k g.id m.acc.path)
    && g.stq.isNone && g.tw.held.isEmpty && !ws.any (fun w => batchPending s c w.1) && !batchPending s c 40
    && (List.range 4).all (fun n => (k.chan n).wg != some g.id || ((k.chan n).queue.isEmpty && !batchPending s c (32 + n)))
    && !k.fifo.any (·.wg == g.id)
    && !k.inW.any (fun m => m.core == c && pathOf k g.id m.acc.path) && !s.arrivals.any fun a => a.core == c && a.wg == some g.id
/-- Every warp of a workgroup has ended, and its slice holds writes back: their batch closes (R422). -/
def sliceDue (s : State) (c : Nat) (g : Wg) : Bool := ((s.core c).warpsOf g.id).all (·.2.ended) && !g.tw.held.isEmpty
/-- WORKGROUP_RETIREMENT (R96, R331): the resources of a workgroup that is done return to their pools, its nibs unbound;
a workgroup whose task ends is ended once its warps are still (R389), and one that stops for pre-emption is saved with its gang. Nothing
of a halted core changes (R396). -/
def execWorkgroupRetirement (core wg : Nat) (s : State) : Out :=
  match (s.core core).wg? wg with
  | none => .next s
  | some g =>
    if (s.core core).halted then .next s
    else if g.ending then .next (endStill s core wg)
    else if sliceDue s core g then .next (closeSlice s core wg)
    else if wgDone s core g then
      let n := Nat.max (wgPublished s core wg) (s.core core).engHz
      let s := freeWg (releaseNibs s core g.nibMask) core wg
      let s := { s with taskHz := Nat.max s.taskHz n }
      .next (if (gangCores s g.die g.graph g.node g.gang).isEmpty then gangGone s g.die g.graph g.node g.gang false else s)
    else if g.stopping then .next (saveGang s g)
    else .next s
/-- TASK_RETIREMENT (R366, R368): the last gang has retired; a failure of the task ends the graph. -/
def execTaskRetirement (graph node : Nat) (s : State) : Out :=
  let d := graphDie graph
  match s.node? d graph node with
  | none => .next s
  | some x =>
    if x.status ≠ 2 || tcbKind x.tcb ≠ 0 || x.placed ≠ 0 then .next s
    else match x.doom with
      | some st => .next (endGraphs (retireFailed (dropWide s d graph node) d graph node st) d)
      | none =>
        if x.next < tcbNgang x.tcb || !x.back.isEmpty then .next (endGraphs s d)
        else .next (endGraphs (retireNode (dropWide s d graph node) d graph node 3 false) d)

/-- SUCCESSOR_DECREMENT (R365, R366): the oldest decrement of a die's walker is applied, or held until the reload. -/
def execSuccessorDecrement (die : Nat) (s : State) : Out :=
  match (s.die die).decs with
  | [] => .next (endGraphs s die)
  | (id, n, run) :: rest =>
    let s := s.modDie die fun k => { k with decs := rest }
    match s.node? die id n with
    | none => .next s
    | some x =>
      if x.status = 1 || x.status = 2 || x.release then .next (s.modNode die id n fun x => { x with held := x.held ++ [run] })
      else if x.pred = 0 then .next (endGraphs (failNode s die id n 6) die)
      else
        let s := (setPred s die id n (x.pred - 1)).modNode die id n fun x => { x with runMk := x.runMk || run }
        if x.pred = 1 then
          .next (endGraphs (if x.runMk || run then makeReady s die id n else retireNode s die id n 4 false) die)
        else .next s
/-- A COND or WHILE node is evaluated in one step: it is RUNNING, then it retires (R362, R365). -/
def evalNode (kind graph node : Nat) (s : State) : Out :=
  let d := graphDie graph
  match s.node? d graph node with
  | none => .next s
  | some x =>
    if x.status ≠ 1 || tcbKind x.tcb ≠ kind || graphFailed s d graph then .next s
    else match cpuRead s d (tcbPasid x.tcb) (tcbCondw x.tcb) 8 with
      | .wait s => .next s
      | .fail s _ => .next (endGraphs (retireFailed (setStatus s d graph node 2) d graph node 7) d)
      | .ok s v => .next (endGraphs (retireNode (setStatus s d graph node 2) d graph node 3 (v != 0)) d)
/-- COND_NODE. -/
def execCondNode (graph node : Nat) (s : State) : Out := evalNode 1 graph node s
/-- WHILE_NODE. -/
def execWhileNode (graph node : Nat) (s : State) : Out := evalNode 2 graph node s

/-- PREEMPT (R391, R409, R410): the gangs that a message names begin to stop. -/
def execPreempt (s : State) : Out :=
  onH2d s 0x02 [(48, 32), (80, 16), (96, 1), (128, 32)] (fun e => fld e 96 1 == 0 || fld e 128 32 == 0) fun s e =>
    let tag : Word := e.extractLsb' 48 32
    let l := (List.range 4).foldl (fun l d => l ++ ((s.die d).graphs.filter (·.tag == tag)).map fun g => (d, g.id)) []
    let gangs := s.cores.toList.foldl (fun (m : List Wg) k => m ++ k.wgs.filter fun g =>
      l.contains (g.die, g.graph) && g.node == fld e 80 16 && (fld e 96 1 == 1 || g.gang == fld e 128 32)) []
    if gangs.isEmpty then none else some (gangs.foldl (fun s g => stopGang s g.die g.graph g.node g.gang) s)

end Sys2Proof.Machine
end

