-- ==== Sys2Proof/Machine/Service.lean ====
section
/-! DEFINITION. The scribe warp's services and the buddy allocator (19 R375-R382, 26 R458). -/

namespace Sys2Proof.Machine

/-! ### Arenas (R381, R382) -/

/-- log₂ of the block for a size: at least 8. -/
def blockLog (size : Nat) : Nat := Nat.max 8 (Nat.log2 (2 * size - 1))
/-- The upper halves that splitting a block of 2^k at `off` down to 2^e gives back. -/
def splitTo (off e : Nat) : Nat → List (Nat × Nat)
  | 0 => []
  | k + 1 => if k + 1 ≤ e then [] else (off + 2 ^ k, k) :: splitTo off e k
def buddy (off k : Nat) : Nat := if off / 2 ^ k % 2 = 0 then off + 2 ^ k else off - 2 ^ k
/-- Returns a block, joined with its buddy while the buddy is free. -/
def joinFree : Nat → Nat → Nat → List (Nat × Nat) → List (Nat × Nat)
  | 0, off, k, l => (off, k) :: l
  | n + 1, off, k, l =>
    if k < 30 && l.contains (buddy off k, k) then joinFree n (Nat.min off (buddy off k)) (k + 1) (l.erase (buddy off k, k))
    else (off, k) :: l
/-- The free block that an ALLOC takes: of the smallest sufficient size, at the lowest address. -/
def freeBlock (ar : List Arena) (pasid : BitVec 20) (unt : Bool) (e : Nat) : Option (Nat × Nat × Nat) :=
  let l := ar.foldl (fun (l : List (Nat × Nat × Nat)) a => if a.pasid = pasid ∧ a.unt = unt then
    l ++ (a.free.filter fun b => e ≤ b.2).map fun b => (a.base, b.1, b.2) else l) []
  l.foldl (fun (o : Option (Nat × Nat × Nat)) b => match o with
    | none => some b
    | some c => if b.2.2 < c.2.2 || (b.2.2 == c.2.2 && b.1 + b.2.1 < c.1 + c.2.1) then some b else some c) none
/-- ALLOC of 2^e bytes: the address and the arenas left. -/
def buddyAlloc (ar : List Arena) (pasid : BitVec 20) (unt : Bool) (e : Nat) : Option (Nat × List Arena) :=
  (freeBlock ar pasid unt e).map fun b =>
    (b.1 + b.2.1, updFirst (fun (a : Arena) => a.pasid == pasid && a.base == b.1) (fun (a : Arena) => { a with
      free := splitTo b.2.1 e b.2.2 ++ a.free.erase (b.2.1, b.2.2)
      live := a.live ++ [(b.2.1, e)] }) ar)
/-- FREE of an address; none where it is no live allocation of the PASID. -/
def buddyFree (ar : List Arena) (pasid : BitVec 20) (va : Nat) : Option (List Arena) :=
  let hit := fun (a : Arena) => a.pasid == pasid && a.base ≤ va && a.live.any (·.1 == va - a.base)
  if ar.any hit then
    some (updFirst hit (fun (a : Arena) => match a.live.find? (·.1 == va - a.base) with
      | some b => { a with live := a.live.erase b, free := joinFree 30 b.1 b.2 a.free }
      | none => a) ar)
  else none
/-- The arenas: one set, which every die's service core uses (log 20). -/
def State.arenas (s : State) : List Arena := (s.die 0).arenas
def State.setArenas (s : State) (l : List Arena) : State := s.modDie 0 fun k => { k with arenas := l }

/-! ### Mailbox records (R376-R379) -/

def svcOk : Dword := 0#64
def svcNomem : Dword := 1#64
def svcBadarg : Dword := 2#64
def svcBadcode : Dword := 3#64
/-- The warp that waits for the reply to a record; none once its task has ended (R389). -/
def recWarp (s : State) (c : Nat) (r : MailRec) : Option Warp :=
  (s.warp? c r.slot).filter fun w => w.wg == some r.wg && match w.wait with
    | .svc _ _ i => i == r.idx
    | _ => false
def MailRec.word (r : MailRec) (i : Nat) : Dword := (r.words[i]?).getD 0#64
/-- The service that a record asks for; none for BADCODE (R377). -/
def recCode (r : MailRec) : Option Nat :=
  let w := (r.word 0).toNat
  let n := r.count
  if (w = 1 ∧ 3 ≤ n) ∨ (w = 2 ∧ 2 ≤ n) ∨ (w = 3 ∧ 2 ≤ n) ∨ (w = 4 ∧ 1 ≤ n) then some w else none
/-- Every older access of the warp is performed before its record is read (R378). -/
def recReady (s : State) (c : Nat) (r : MailRec) : Bool :=
  match recWarp s c r with
  | some w => (pendTickets (s.core c) r.slot).isEmpty && w.out.isEmpty && w.deferred.isEmpty && w.posted.isEmpty && w.held.isEmpty && !batchPending s c r.slot
  | none => false
/-- The oldest record that the scribe warp has not taken. -/
def oldestRec (s : State) (c : Nat) : Option MailRec :=
  if s.errs.fatal then none else ((s.core c).mail.find? (!·.taken)).filter (recReady s c)
def modRec (s : State) (c idx : Nat) (f : MailRec → MailRec) : State :=
  s.modCore c fun k => { k with mail := updFirst (fun (r : MailRec) => r.idx == idx) f k.mail }
/-- A record is read: SVC is a release, which the scribe warp acquires (R378; log 17). -/
def recStamp (s : State) (c : Nat) (r : MailRec) : State :=
  let n := s.published c r.slot
  s.modWarp c 31 (·.see n 0)
/-- The scribe warp serves a record: it takes the PASID of the record's tag, and keeps it until it serves another (R171, R376,
log 85). -/
def serveAs (s : State) (c : Nat) (r : MailRec) : State := s.modWarp c 31 fun x => { x with pasid := r.pasid }
/-- Answers a record. -/
def answer (s : State) (c idx : Nat) (ws : List Dword) : State := modRec s c idx fun r => { r with taken := true, reply := some ws }
def ringRoom (s : State) (d : Nat) : Bool := (s.die d).ring.length < 256

/-- MAILBOX_SERVE (R375, R377, R379): the oldest record is taken; ALLOC and FREE records of its workgroup go with it, up
to eight, as one message on the die's ring, once every older access of their warps is performed (R378); a bad code is answered. -/
def execMailboxServe (core : Nat) (s : State) : Out :=
  match oldestRec s core with
  | none => .next s
  | some r => match recCode r with
    | none => .next (answer (serveAs s core r) core r.idx [svcBadcode])
    | some n =>
      if 2 < n then .next s
      else
        let d := dieOfCore core
        let more := (s.core core).mail.filter fun x => !x.taken && x.idx != r.idx && x.wg == r.wg && (recCode x == some 1 || recCode x == some 2)
        let l := r :: more.take 7
        if !ringRoom s d || !l.all (recReady s core) then .next s
        else
          let s := l.foldl (fun s x => modRec (recStamp s core x) core x.idx fun y => { y with taken := true }) s
          .next ((serveAs s core r).modDie d fun k => { k with ring := k.ring ++ [RingMsg.mk core (l.map (·.idx))] })

/-- The record at the head of a die's ring. -/
def ringHead (s : State) (d : Nat) : Option (Nat × MailRec) :=
  match (s.die d).ring with
  | [] => none
  | m :: _ => match m.recs with
    | [] => none
    | i :: _ => ((s.core m.core).mail.find? (·.idx == i)).map fun r => (m.core, r)
/-- The head record leaves the ring; an empty message goes. -/
def ringPop (s : State) (d : Nat) : State :=
  s.modDie d fun k => match k.ring with
    | [] => k
    | m :: t => if m.recs.length ≤ 1 then { k with ring := t } else { k with ring := { m with recs := m.recs.drop 1 } :: t }
/-- The service core serves one ALLOC or FREE, or forwards it to the host (R381, R382, R458). -/
def serveRec (s : State) (c : Nat) (r : MailRec) : Option State :=
  let pasid := r.pasid
  let al := (r.word 0).toNat == 1
  let arg := (r.word 1).toNat
  let bad := al && (arg == 0 || 2 ^ 30 < arg || 1 < (r.word 2).toNat)
  if bad then some (answer s c r.idx [svcBadarg])
  else if assisted s 2 then
    if !assistRoom s then none
    else
      let q := s.assist.reqid
      let s := raiseAssist s (.alloc q c r.idx) 0x23
        [(48, if al then 0 else 1), (49, if al then (r.word 2).toNat % 2 else 0), (56, pasid.toNat), (80, arg), (144, q.toNat)]
      some { s with assist := { s.assist with reqid := q + 1 } }
  else if al then
    match buddyAlloc s.arenas pasid ((r.word 2).getLsbD 0) (blockLog arg) with
    | some (va, l) => some (answer (s.setArenas l) c r.idx [svcOk, BitVec.ofNat 64 va])
    | none => some (answer s c r.idx [svcNomem])
  else match buddyFree s.arenas pasid arg with
    | some l => some (answer (s.setArenas l) c r.idx [svcOk])
    | none => some (answer s c r.idx [svcBadarg])
/-- Serves the head of the ring, when it is of a kind; a record taken before its task ended is served too (R389, R392). -/
def serveHead (s : State) (d : Nat) (p : MailRec → Bool) : Option State :=
  match ringHead s d with
  | some (c, r) => if p r then (serveRec s c r).map (ringPop · d) else none
  | none => if (s.die d).ring.isEmpty then none else some (ringPop s d)
/-- ALLOC (R381). -/
def execAlloc (die : Nat) (s : State) : Out := .next ((serveHead s die fun r => r.word 0 == 1#64).getD s)
/-- FREE (R382). -/
def execFree (die : Nat) (s : State) : Out := .next ((serveHead s die fun r => r.word 0 == 2#64).getD s)
def serveMany : Nat → State → Nat → State
  | 0, s, _ => s
  | n + 1, s, d => match serveHead s d fun _ => true with
    | some s => serveMany n s d
    | none => s
/-- SYSTEM_CALL_RING (R379): the message at the head of the ring is served, its records in order. -/
def execSystemCallRing (die : Nat) (s : State) : Out :=
  match (s.die die).ring with
  | [] => .next s
  | m :: _ => .next (serveMany (Nat.max 1 m.recs.length) s die)
/-- HOSTMSG (R377, R380, R411): the words go to the host queue, in one entry or two. -/
def execHostmsg (core : Nat) (s : State) : Out :=
  match oldestRec s core with
  | none => .next s
  | some r =>
    if recCode r ≠ some 3 then .next s
    else
      let n := r.count - 1
      let s := serveAs s core r
      let pasid := r.pasid.toNat
      let words := fun (i k : Nat) => (List.range k).map fun j => (96 + 64 * j, (r.word (i + j)).toNat)
      let seq := s.port.d2hNext
      if n ≤ 6 then
        if !d2hRoom s 1 then .next s
        else .next (answer (d2hRaise s 0x83 ([(48, n), (56, pasid)] ++ words 1 n)) core r.idx [svcOk, seq.setWidth 64])
      else if !d2hRoom s 2 then .next s
      else
        let s := d2hRaise s 0x83 ([(48, 6), (52, 1), (56, pasid)] ++ words 1 6)
        .next (answer (d2hRaise s 0x83 ([(48, n - 6), (51, 1), (56, pasid)] ++ words 7 (n - 6))) core r.idx [svcOk, seq.setWidth 64])
/-- ABORT (R380): the task ends, and its node retires ABORTED. -/
def execAbort (core : Nat) (s : State) : Out :=
  match oldestRec s core with
  | none => .next s
  | some r =>
    if recCode r ≠ some 4 then .next s
    else match (s.core core).wg? r.wg with
      | some g => .next (endTask (serveAs s core r) g.die g.graph g.node 9)
      | none => .next s
/-- SVC_REPLY (R376, R377): the reply is written to the warp's registers, the other words 0, and its record is freed;
it is an acquire (R378). -/
def execSvcReply (core : Nat) (s : State) : Out :=
  match (s.core core).mail.find? (·.reply.isSome) with
  | none => .next s
  | some r =>
    let s1 := s.modCore core fun k => { k with mail := k.mail.filter (·.idx != r.idx), hz := Nat.max k.hz s.writes }
    match (recWarp s core r).map Warp.wait with
    | some (.svc a n _) => .next (s1.modWarp core r.slot fun w =>
        (List.range n).foldl (fun w i => w.sput (a.val + i) (((r.reply.getD [])[i]?).getD 0#64) false) { w with wait := .none })
    | _ => .next s1

/-! ### ARENA messages (R381, R410) -/

/-- A message whose OP bit is `op`. -/
def onH2dOp (s : State) (ty : Nat) (op : Bool) (fields : List (Nat × Nat)) (ok : BitVec 512 → Bool)
    (f : State → BitVec 512 → Option State) : Out :=
  if (h2dMsg s ty).map (fun m => m.2.getLsbD 48) = some op then onH2d s ty fields ok f else .next s
def arenaFields : List (Nat × Nat) := [(48, 1), (49, 1), (52, 20), (128, 64)]
def arenaOk (e : BitVec 512) : Bool := fld e 128 64 % 2 ^ 30 == 0 && canonical (e.extractLsb' 128 64)
/-- Zeroes 64 KiB of an arena, made resident first; a page that cannot be mapped holds nothing. -/
def zeroPage (s : State) (pasid : BitVec 20) (va : Nat) : State :=
  let s := (servePage 8 s 0 pasid va needW true).1
  match walk s 0 pasid (BitVec.ofNat 64 va) with
  | .leaf x => if x.home.isNone && (x.mt == mtTrk || x.mt == mtUnt) && isHbm (x.to va) then zeroHbm s (x.to va) 0x10000 else s
  | _ => s
/-- ARENA_REGISTER (R381). -/
def execArenaRegister (s : State) : Out :=
  onH2dOp s 0x03 false arenaFields arenaOk fun s e =>
    let pasid : BitVec 20 := e.extractLsb' 52 20
    let base := fld e 128 64
    if s.arenas.any fun a => a.pasid == pasid && a.base == base then none
    else
      let s := (List.range 16384).foldl (fun s i => zeroPage s pasid (base + 0x10000 * i)) s
      some (s.setArenas (s.arenas ++ [⟨pasid, base, e.getLsbD 49, [(0, 30)], []⟩]))
/-- ARENA_REMOVE. -/
def execArenaRemove (s : State) : Out :=
  onH2dOp s 0x03 true arenaFields arenaOk fun s e =>
    let hit := fun (a : Arena) => a.pasid == e.extractLsb' 52 20 && a.base == fld e 128 64 && a.unt == e.getLsbD 49
    if s.arenas.any hit then some (s.setArenas (s.arenas.filter (!hit ·))) else none

end Sys2Proof.Machine
end

