-- ==== Sys2Proof/Machine/System.lean ====
section
/-! DEFINITION. The system instructions of the scribe warp (20 R396-R399). -/

namespace Sys2Proof.Machine

/-- A system instruction in a warp that is not the scribe warp raises ACCESS_DENIED before its operands are looked at
(R59, R61); otherwise it is performed once, under the guard rule of R44. -/
def runSys (s : State) (c : Ctl) (opds : List Opd) (body : Ctx → Res) : Out :=
  match ctxOf s c with
  | none => .fault .noIssuer
  | some k =>
    if k.wi ≠ 31 then .next (takeTrap (issued s k.ci k.wi c) k.ci k.wi (k.cause cAccessDenied k.act 0#64))
    else runOnce s c opds body

/-- CSRR. -/
def execCsrr (c : Ctl) (d : Reg) (n : BitVec 12) (s : State) : Out :=
  runSys s c [opdS d] fun k =>
    if csrListed n then
      .ok (writeLanes k.s k.ci k.wi .n64 d [(0, ((ctlRead k.s k.ci (8 * n.toNat)).toNat : Int))])
    else k.ill
/-- CSRW: GOVB is the only CSR that can be written, from 32 to 256. -/
def execCsrw (c : Ctl) (a : Reg) (n : BitVec 12) (s : State) : Out :=
  runSys s c [opdUni a] fun k =>
    let v := (k.uni a).toNat
    if csrWritable n && 32 ≤ v && v ≤ 256 then .ok (k.s.modCore k.ci fun x => { x with govB := BitVec.ofNat 9 v }) else k.ill

/-- Removes translations from the quad units of one die. -/
def dropDie (s : State) (d : Nat) (p : Xlat → Bool) : State :=
  let keep := fun (l : List Xlat) => l.filter fun x => !p x
  let s := ((List.range 96).map (· + 96 * d)).foldl (fun s c => s.modCore c fun k => { k with tlb := keep k.tlb }) s
  s.modDie d fun k => { k with quads := k.quads.map fun q => { q with tlb2 := keep q.tlb2 } }
/-- The accesses that have been translated and are not yet performed, with their cores: at a slice, a nib, a window port, a peer. -/
def translated (s : State) : List (Nat × Access) :=
  let msgs := fun (l : List InMsg) => l.map fun m => (m.core, m.acc)
  s.dies.toList.foldl (fun l (k : Die) => l ++ k.waits.map fun w => (w.core, w.acc)) []
    ++ s.cores.toList.foldl (fun l k => l ++ msgs k.nibIn ++ msgs k.inW ++ msgs k.bpw
        ++ k.nibs.toList.foldl (fun m (n : Nib) => m ++ n.loads.map fun x => (x.core, x.acc)) []) []
    ++ s.remotes.map fun r => (r.core, r.acc)
/-- An access of a die's core, or of any, is under way under a translation of its quad unit that satisfies `p` (R197, R399). -/
def xlatBusy (s : State) (die : Option Nat) (p : Xlat → Bool) : Bool :=
  xlatKept s die p || (translated s).any fun e => (die.all (· == dieOfCore e.1)) && e.2.lanes.any fun l =>
    ((s.core e.1).tlb ++ ((s.die (dieOfCore e.1)).quad (quadOfCore e.1)).tlb2).any fun x => x.covers e.2.pasid l.va.toNat && p x
/-- TLBINV: it is done once no access is under way under a translation that it removes (R197, R399). -/
def execTlbinv (c : Ctl) (kind : Fin 3) (pkg : Bool) (a : Option Reg) (pasid : BitVec 20) (s : State) : Out :=
  runSys s c (a.toList.map opdUni) fun k =>
    let va := match a with | some r => (k.uni r).toNat | none => 0
    let p := fun (x : Xlat) => match kind with
      | 0 => x.covers pasid va
      | 1 => x.pasid == pasid
      | 2 => true
    if xlatBusy k.s (if pkg then none else some (dieOfCore k.ci)) p then .hold
    else .ok (if pkg then dropXlats k.s p else dropDie k.s (dieOfCore k.ci) p)
/-- RMAPINV (R178, R399). -/
def execRmapinv (c : Ctl) (a : Reg) (count : BitVec 16) (s : State) : Out :=
  runSys s c [opdUni a] fun k =>
    let pa := (k.uni a).toNat
    if pa % 128 ≠ 0 || count = 0#16 then k.ill
    else
      let d := dieOfCore k.ci
      let hit := fun (l : Nat) => pa / 128 ≤ l && l < pa / 128 + count.toNat
      let s := ((List.range 96).map (· + 96 * d)).foldl (fun s c => s.modCore c fun x => { x with l1 := x.l1.filter fun e => !hit e.pline }) k.s
      .ok (s.modDie d fun x => { x with quads := x.quads.map fun q => { q with rmap := q.rmap.filter fun e => !hit e.1 } })

/-- The place of a context area: a page that is not resident is ticketed, and the instruction waits for it (R399). -/
def ctxPlace (k : Ctx) (va : Dword) (need : BitVec 3) : State × Except Res (Nat × Fin 6) :=
  match checkVa k.s k.ci k.w.pasid true va need with
  | (s, .ok x) => (s, .ok (x.to va.toNat, x.mt))
  | (s, .denied) => (s, .error (.trap (k.cause cAccessDenied k.act va)))
  | (s, .miss) =>
    let (pc, pos) := k.w.here
    let a : Access := ⟨k.w.idNext, .fetch k.wi, .bind, k.w.pasid, true, false, pc, pos, .n8, .rlx, .warp, 0#8, none, [⟨0, va, 1, 0, 0, .none, []⟩]⟩
    (s, .error (.again ((s.modCore k.ci fun x => { x with misses := x.misses ++ [⟨x.seq, a, va, need, false, none, .none⟩], seq := x.seq + 1 }).modWarp
      k.ci k.wi fun w => { w with wait := .transfer, idNext := w.idNext + 1 })))
/-- The places of the pages of an image, each translated before the image is touched (R399). -/
def ctxPages (need : BitVec 3) : Nat → Dword → Ctx → State × Except Res (List (Nat × Fin 6))
  | 0, _, k => (k.s, .ok [])
  | n + 1, va, k => match ctxPlace k va need with
    | (s, .error r) => (s, .error r)
    | (s, .ok p) => match ctxPages need n (va + 4096#64) { k with s := s } with
      | (s, .ok l) => (s, .ok (p :: l))
      | r => r
def putStatus (s : State) (k : Ctx) (d : Reg) (v : Nat) : Res := .ok (writeLanes s k.ci k.wi .n64 d [(0, (v : Int))])
/-- Every warp of a workgroup begins to stop (R392). -/
def stopWg (s : State) (c id : Nat) : State :=
  s.modCore c (·.stopWgs (·.id == id) fun g => g)
/-- The task of a workgroup is to end: it is not saved (R389). -/
def taskDoomed (s : State) (g : Wg) : Bool := ((s.node? g.die g.graph g.node).bind (·.doom)).isSome
/-- CTXSAVE: the workgroup of a slot is stopped, saved once it is quiet, and its resources are free. -/
def execCtxsave (c : Ctl) (d a : Reg) (slot : BitVec 5) (s : State) : Out :=
  runSys s c [opdS d, opdUni a] fun k =>
    let va := k.uni a
    if va.toNat % 4096 ≠ 0 then k.ill
    else match (k.k.warp? slot.toNat).bind k.k.wgOf with
      | none => putStatus k.s k d 1
      | some g => match ctxPages needW (imagePages g (warpN (k.k.warpsOf g.id))) va k with
        | (_, .error r) => r
        | (s, .ok pages) =>
          let s := stopWg s k.ci g.id
          if !wgQuiet s k.ci g.id || taskDoomed s g then .again s
          else
            let s := saveWg s k.ci g.id (((pages.head?).map (·.1)).getD 0) pages
            let s := if (gangCores s g.die g.graph g.node g.gang).isEmpty then gangGone s g.die g.graph g.node g.gang true else s
            putStatus s k d 0
/-- The image's node is still there, with its address space. -/
def imageOk (s : State) (im : Image) : Bool :=
  match s.node? im.wg.die im.wg.graph im.wg.node with
  | some x => tcbPasid x.tcb == im.wg.pasid
  | none => false
/-- The image at an address: every page of it is translated, holds what was saved, and its PASID is good (R399). -/
def loadImage (k : Ctx) (va : Dword) : State × Except Res (Option Image) :=
  match ctxPlace k va needRd with
  | (s, .error r) => (s, .error r)
  | (s, .ok p) => match s.images.find? fun (i : Image) => i.at_ == p.1 && imageOk s i with
    | none => (s, .ok none)
    | some im => match ctxPages needRd im.pages.length va { k with s := s } with
      | (s, .error r) => (s, .error r)
      | (s, .ok l) => (s, .ok (if l == im.pages && imageIntact s (dieOfCore k.ci) im then some im else none))
/-- CTXLOAD: the image at an address is checked, placed on this core and restored. -/
def execCtxload (c : Ctl) (d a : Reg) (s : State) : Out :=
  runSys s c [opdS d, opdUni a] fun k =>
    let va := k.uni a
    if va.toNat % 4096 ≠ 0 then k.ill
    else match loadImage k va with
      | (_, .error r) => r
      | (s, .ok none) => putStatus s k d 2
      | (s, .ok (some im)) => match restoreWg s k.ci im with
          | none => putStatus s k d 1
          | some s =>
            let g := im.wg
            let s := if (gangCores s g.die g.graph g.node g.gang).length = 1 then
                s.modNode g.die g.graph g.node fun x => { x with placed := x.placed + 1, back := x.back.erase g.gang }
              else s
            putStatus s k d 0

/-- What DBGHALT waits for (R392, R396): the user warps have stopped, the running matrix entry is complete, and the inbound writes have
landed. -/
def haltQuiet (s : State) (c : Nat) : Bool :=
  (s.core c).wgs.all (fun g => wgStill s c g.id) && !(s.core c).fifo.any (·.run) && (s.core c).inW.isEmpty
/-- The user warps of a core that halts stop (R46, R396). -/
def haltWarps (ws : Vector (Option Warp) 32) : Vector (Option Warp) 32 :=
  ws.map fun x => x.map fun w => if w.wg.isSome then w.endStall else w
/-- DBGHALT. -/
def execDbghalt (c : Ctl) (s : State) : Out :=
  runSys s c [] fun k =>
    if k.k.halted then .ok k.s
    else if haltQuiet k.s k.ci then .ok (k.s.modCore k.ci fun x => { x with halted := true, haltReq := false, warps := haltWarps x.warps })
    else .again (k.s.modCore k.ci fun x => { x with haltReq := true })

/-- A back-pressured atomic reads and writes its line. -/
def acceptMark (s : State) (m : InMsg) : State :=
  let line := lineOf ((m.pas.head?).getD 0)
  noteStore (noteLine s m.core m.acc line) m.core m.acc line
/-- A back-pressured write is accepted (R295, R396); one from outside the package was admitted at its arrival. -/
def acceptMsg (s : State) (g : Nat) (m : InMsg) : State :=
  let off := fun (pa : Nat) => (pa - winBase) % 0x1000000
  let ok := fun (e : LaneAcc × Nat) => 384 ≤ m.core || winHeld s g (off e.2) e.1.size m.acc.pasid m.acc.scr
  let ls := m.acc.lanes.zip m.pas
  let bad := maskOf fun l => ls.any fun e => e.1.lane == l && !ok e
  if m.acc.kind.rmw then
    let (s, ws) := rmwLanes m.acc (fun s pa n => winRead s g (off pa) n) 
      (fun s pa n v => s.modCore g (·.winPut s.tick (off pa) n v false)) (ls.filter ok) (acceptMark s m)
    match m.acc.slot? with
    | some w => finishOut s m.core w m.acc ws bad stPerm
    | none => s
  else endAway (landMsg s g m ok) m.core m.acc bad stPerm
/-- DBGRES: back-pressured writes are accepted, recorded replays are performed, and issue resumes. -/
def execDbgres (c : Ctl) (s : State) : Out :=
  runSys s c [] fun k =>
    if !k.k.halted then .ok k.s
    else
      let s := k.s.modCore k.ci fun x => { x with halted := false, bpw := [], bpEng := [] }
      let s := k.k.bpw.foldl (acceptMsg · k.ci ·) s
      .ok (k.k.tickets.foldl (fun s t => match t.notice with | some st => closeTicket s k.ci t st | none => s) s)

end Sys2Proof.Machine
end

