-- ==== Sys2Proof/Machine/Coherence.lean ====
section
/-! DEFINITION. The events of coherence (11 R244-R260): logical time, the home directory, the snoop filter, host accesses. -/

namespace Sys2Proof.Machine

/-! ### Logical time (R244-R248) -/

/-- IDLE_ADVANCE. -/
def execIdleAdvance (core : Nat) (s : State) : Out :=
  let lim := (s.die (dieOfCore core)).ltlim
  .next (s.modCore core fun k => if tle (k.pts + 1) lim then { k with pts := k.pts + 1 } else k)
/-- LTLIM_ADVANCE. -/
def execLtlimAdvance (die : Nat) (s : State) : Out :=
  let m := tmaxOf s die + 1024
  .next (s.modDie die fun k => if tle (k.ltlim + 1) m then { k with ltlim := k.ltlim + 1 } else k)
/-- A timestamp 2¹⁴ or more behind Tmax. -/
def stale (m t : BitVec 16) : Bool := 0x4000 ≤ (m - t).toNat && tle t m
/-- The stamp of what a warp has read is expired with the stamps of the lines. -/
def Warp.scrub (m : BitVec 16) (w : Warp) : Warp := { w with loadWts := w.loadWts.filter (!stale m ·) }
/-- SCRUB_VISIT (R248): every timestamp that far behind is marked expired, in the lines and in what is kept beside them: EVMAX, FWC,
the stamps that warps have read, and those of context images (log 17). -/
def execScrubVisit (die : Nat) (s : State) : Out :=
  let m := tmaxOf s die
  let s := ((List.range 96).map (· + 96 * die)).foldl (fun s c => s.modCore c fun k =>
    { k with l1 := k.l1.map fun e => { e with exp := e.exp || stale m e.rts, wExp := e.wExp || stale m e.wts }
             warps := k.warps.map fun (x : Option Warp) => x.map (Warp.scrub m) }) s
  let image := fun (i : Image) =>
    if dieOfCore i.core = die then { i with ptsExp := i.ptsExp || stale m i.pts, warps := i.warps.map (Warp.scrub m) } else i
  let s := { s with images := s.images.map image }
  .next (s.modDie die fun k => { k with
    l2 := k.l2.map fun t => { t with wExp := t.wExp || stale m t.wts, rExp := t.rExp || stale m t.rts }
    evExp := Vector.ofFn fun i => k.evExp[i] || stale m k.evmax[i]
    fwcExp := k.fwcExp || stale m k.fwc })

/-! ### Accesses that wait at a slice -/

def AccKind.isPrf : AccKind → Bool
  | .prf _ => true
  | _ => false
/-- A waiting access is tried again: it ends, or its hold is the new one; one that needs a line of another device goes there. -/
def retryWait (s : State) (w : SliceWait) : State × Bool :=
  let d := dieOfCore w.core
  let drop := fun (s : State) => s.modDie d fun k => { k with waits := k.waits.erase w }
  match w.acc.path with
  | .lsu slot => match perfPhys s w.core w.acc w.mt w.pas with
    | .done s ws bad st => (if w.acc.kind.isPrf then drop s else finishOut (drop s) w.core slot w.acc ws bad st, false)
    | .away s _ => (drop s, false)
    | .hold s h =>
      let keep := (s.modDie d fun k => { k with waits := k.waits.map fun x => if x = w then { x with hold := h } else x }, true)
      match peerHome w.line, h with
      | some dev, .dir _ => (sendRemote (drop s) w.core w.acc w.mt w.pas dev, false)
      | _, _ => keep
  | _ => (drop s, false)
/-- Tries the accesses of a die that wait on a line, in order, until one holds again. -/
def serveWaits (s : State) (d line : Nat) (p : Hold → Bool) : State :=
  (((s.die d).waits.filter fun w => w.line == line && p w.hold).foldl (fun (x : State × Bool) w =>
    if x.2 then x else retryWait x.1 w) (s, false)).1
def isDir : Hold → Bool
  | .dir _ => true
  | _ => false
/-- What waits on the end of a line's transaction at its home, in every die. -/
def wakeLine (s : State) (line : Nat) : State := (List.range 4).foldl (fun s d => serveWaits s d line fun h => !isDir h) s
/-- LTLIM has reached the stamp that a write waits for, at some die: the write is then examined again. -/
def limReached (s : State) : Hold → Bool
  | .ltlim w => s.dies.toList.any fun (k : Die) => tle w k.ltlim
  | _ => false
/-! ### Eviction and writeback (R246, R254, R255, R257) -/

/-- A die's copy of a line holds data that its home has not: it owns the line, or has written bytes of an UNT line. -/
def dirtyLine (k : Die) (line : Nat) : Bool :=
  (k.tag? line).any (·.st == .owner) || (k.unt? line).any (·.mask != 0#128)
/-- A die's L2 gives up a line: an owner's line goes to the writeback buffer, from which a line of another device is sent there at once, and
an UNT line's written bytes go to the home. -/
def evictLine (s : State) (die line : Nat) : State :=
  let s := if ((s.die die).unt? line).isSome then (untGive s die line).modDie die (·.dropUnt line) else s
  match (s.die die).tag? line with
  | none => s
  | some t =>
    let s := s.modDie die (·.evict line)
    if t.st != .owner then s
    else
      let s := s.modDie die fun k => { k with wbufs := k.wbufs ++ [line] }
      if (peerHome line).isSome then sliceSend s die line (lineDev s line) 2#3 else s
/-- L2_EVICTION: a line leaves a die's L2, unless the host's copy must go first (R258), or its home cannot be reached, to which a dirty line is
then offered (R419). -/
def execL2Eviction (die line : Nat) (s : State) : Out :=
  if dirtyLine (s.die die) line && unreachable s (lineDev s line) then .next (s.modDie die fun k => { k with offers := setAdd k.offers line })
  else if ((s.die die).unt? line).isSome && untSnoop s die line (.cwb true) then .next s
  else .next (evictLine s die line)
def DirEnt.settled (e : DirEnt) : DirEnt := if e.resv.isNone then { e with refusals := 0, refused := [] } else e
/-- A line's data reaches its home from the agent that owned it: the slice takes it, stamped as a fill from another die (R256); the stamp
of a write that another device performed there is the home's (log 17). -/
def homeFill (s : State) (line : Nat) : State := s.modDie (homeDie (line * 128)) fun k => k.setTag (k.filled line .home)
/-- WRITEBACK: it reaches the home, which applies it and acknowledges it, and the buffer is free; while the home awaits its sender's answer to
a forward or an invalidation, that answer still comes from the buffer. That of a line of another device is acknowledged by a packet. -/
def execWriteback (die line : Nat) (s : State) : Out :=
  if !(s.die die).wbufs.contains line || (peerHome line).isSome then .next s
  else
    let h := homeDie (line * 128)
    let e := (s.die h).dir line
    let a := agentOf s die
    let free := fun (s : State) => s.modDie die fun k => { k with wbufs := k.wbufs.erase line }
    if e.st = .m ∧ e.owner = some a then
      .next (wakeLine (homeFill (free (s.modDie h (·.setDir { e with st := .i, owner := none, sharers := [] }.settled))) line) line)
    else if e.st = .b && (if e.fwd.isSome then e.owner == some a else e.sharers == [a]) then .next (s.modDie h (·.setDir { e with wbIn := true }))
    else .next (free s)

/-! ### Directory requests (R251-R254) -/

/-- The die of an agent, when it is this device's. -/
def agentDie (s : State) (a : Nat) : Option Nat := if a / 4 = s.pkg.val then some (a % 4) else none
/-- A die takes a read-only copy, or the line for writing: wts is FWC at the fill, and so is rts (R256; log 17). -/
def grantRead (s : State) (d line : Nat) : State := s.modDie d fun k => k.setTag (k.filled line .shared)
def grantOwn (s : State) (d line : Nat) : State :=
  match (s.die d).tag? line with
  | some t => (s.soil line t.pois).modDie d (·.setTag { t with st := .owner, pois := 0#2 })
  | none => s.modDie d fun k => k.setTag (k.filled line .owner)
/-- A request has been taken: its refusals are forgotten. -/
def noRetry (s : State) (d line : Nat) : State := s.modDie d fun k => { k with retries := k.retries.filter (·.line != line) }
/-- A request has been served: what waits on the line at the die goes on. -/
def served (s : State) (d line : Nat) : State := serveWaits (noRetry s d line) d line isDir
/-- What an agent is granted; one of another device is sent its grant, and the home needs none. -/
def give (s : State) (a line : Nat) (own : Bool) : State :=
  match agentDie s a with
  | some d => served (if a = homeAgent s line then s else if own then grantOwn s d line else grantRead s d line) d line
  | none => sliceSend s (homeDie (line * 128)) line (a / 4) 2#3
/-- The oldest refused requester (R34, R253). -/
def oldestRefused (l : List Refused) : Option Nat :=
  (l.foldl (fun (o : Option Refused) r => match o with
    | none => some r
    | some x => if r.stamp.toNat < x.stamp.toNat || (r.stamp == x.stamp && r.agent < x.agent) then some r else some x) none).map (·.agent)
/-- Reservations of a slice in use. -/
def sliceResv (k : Die) (line : Nat) : Nat := (k.dirs.filter fun e => e.resv.isSome && sliceOf e.line == sliceOf line).length
/-- The home refuses a request (R252, R253), of which it keeps the count, up to the 15 that it can hold (log 83), and the requester's
age; the requester backs off. -/
def refuseDir (s : State) (a line : Nat) (kind : DirKind) (stamp : Dword) (backoff : Nat) : State :=
  let h := homeDie (line * 128)
  let e := (s.die h).dir line
  let refused := if e.refused.any (·.agent == a) then e.refused else e.refused ++ [⟨a, stamp⟩]
  let n := Nat.min 15 (e.refusals + 1)
  let resv := if e.resv.isSome then e.resv else if 8 ≤ n ∧ sliceResv (s.die h) line < 16 then oldestRefused refused else none
  let s := s.modDie h (·.setDir { e with refusals := n, refused := refused, resv := resv })
  match agentDie s a with
  | some d => (noRetry s d line).modDie d fun k => { k with retries := k.retries ++ [⟨line, kind, stamp, backoff⟩] }
  | none => sliceSend s h line (a / 4) 2#3
/-- A request waits for the host's copy to go: an access of this device waits at its slice; for a die of another device, which asks
again when it is refused, the snoop begins at once (R258; log 1). -/
def dirSnoop (s : State) (a line : Nat) : State :=
  match agentDie s a with
  | some d => s.modDie d fun k => { k with waits := k.waits.map fun w => if w.line == line && isDir w.hold then { w with hold := .snoop } else w }
  | none => sliceSend (s.modDie (homeDie (line * 128)) fun k => { k with bisnp := setAdd k.bisnp line }) (homeDie (line * 128)) line (a / 4) 2#3
/-- A DIRECTORY REQUEST of a die reaches the home: it is refused, served, or begins a transaction (R251-R254). The home's own copy goes
as a transaction for a writer begins. -/
def dirRequest (s : State) (a line : Nat) (kind : DirKind) (stamp : Dword) (backoff : Nat) : State :=
  let h := homeDie (line * 128)
  let e := (s.die h).dir line
  let wr := kind != .read
  if e.st = .b || (e.resv.isSome && e.resv != some a) then refuseDir s a line kind stamp backoff
  else if snoopNeeded s line wr then dirSnoop s a line
  else
    let e := { e with resv := none, go := false }.settled
    let put := fun (e : DirEnt) =>
      let s := s.modDie h fun k => (if wr then k.invalidate line else k).setDir e
      match e.st, agentDie s a with
      | .b, some d => dirSend (noRetry s d line) e
      | .b, none => dirSend s e
      | _, _ => give s a line wr
    match wr, e.st, e.owner with
    | false, .m, some o => put (if o = a then { e with st := .s, sharers := [a], owner := none } else { e with st := .b, fwd := some a })
    | false, _, _ => put { e with st := .s, sharers := setAdd e.sharers a }
    | true, .m, some o => put (if o = a then e else { e with st := .b, sharers := [o], owner := some a })
    | true, _, _ =>
      let others := e.sharers.filter (· != a)
      put { e with st := if others.isEmpty then .m else .b, sharers := others, owner := some a }
/-- A request for writing cannot be served: the stamp of the home's invalidation would pass LTLIM (R247). -/
def grantLim (s : State) (line : Nat) (kind : DirKind) : Bool := kind != .read && (invLim (s.die (homeDie (line * 128))) line).isSome
/-- DIRECTORY_REQUEST: an access waits for the line, and no request for it backs off or is in its transaction. At the home, whose own die is no
agent, it begins the transaction that takes the line back from other devices (R251). -/
def execDirectoryRequest (die line : Nat) (kind : DirKind) (s : State) : Out :=
  let k := s.die die
  let e := (s.die (homeDie (line * 128))).dir line
  let under := e.st == .b && (e.fwd == some (agentOf s die) || (e.fwd.isNone && e.owner == some (agentOf s die)))
  if die = homeDie (line * 128) then .next (if k.waits.any fun w => w.line == line && w.hold == .dir kind then homeAsk s line (kind != .read) else s)
  else if k.waits.any (fun w => w.line == line && w.hold == .dir kind) && !k.retries.any (·.line == line) && !k.wbufs.contains line && !under && !grantLim s line kind then
    .next (dirRequest s (agentOf s die) line kind s.gtc 64)
  else .next s
/-- DIRECTORY_RETRY (R252): the backoff has passed; a further refusal doubles it. -/
def execDirectoryRetry (die line : Nat) (s : State) : Out :=
  match (s.die die).retries.find? (·.line == line) with
  | none => .next s
  | some r => if grantLim s line r.kind then .next s else .next (dirRequest (s.modDie die fun k => { k with retries := k.retries.erase r }) (agentOf s die) line r.kind r.stamp (Nat.min 8192 (2 * r.backoff)))
/-- GO_MESSAGE (R253): a line that has left B sends its reserved requester a go message, which lets it retry at once. -/
def execGoMessage (line : Nat) (s : State) : Out :=
  let h := homeDie (line * 128)
  let e := (s.die h).dir line
  match e.resv with
  | none => .next s
  | some a =>
    if e.st = .b || e.go then .next s
    else
      let s := s.modDie h (·.setDir { e with go := true })
      match agentDie s a with
      | none => .next (sliceSend s h line (a / 4) 1#3)
      | some d => .next (s.modDie d fun k => { k with retries := k.retries.map fun r => if r.line = line then { r with backoff := 0 } else r })
/-- RESERVATION_TIMEOUT. -/
def execReservationTimeout (line : Nat) (s : State) : Out :=
  let h := homeDie (line * 128)
  let e := (s.die h).dir line
  if e.resv.isNone then .next s
  else
    let e := { e with resv := none, go := false }
    .next (s.modDie h (·.setDir (if e.st = .b then e else e.settled)))
/-- The end of a transaction for a reader: the line is in S. -/
def endForward (s : State) (line a : Nat) (sh : List Nat) : State :=
  let h := homeDie (line * 128)
  let e := (s.die h).dir line
  let sh := if a = homeAgent s line then sh else setAdd sh a
  let s := homeFill (s.modDie h (·.setDir { e with st := if sh.isEmpty then .i else .s, sharers := sh, owner := none, fwd := none, wbIn := false }.settled)) line
  wakeLine (give s a line false) line
/-- FORWARD (R254): the owner answers a reader, from its L2 or its writeback buffer, which stays until the home has acknowledged the
writeback; the line is then in S. An owner of another device answers by its packet. -/
def execForward (line : Nat) (s : State) : Out :=
  let e := (s.die (homeDie (line * 128))).dir line
  match e.st, e.fwd, e.owner.bind (agentDie s) with
  | .b, some a, some d =>
    let held := ((s.die d).tag? line).isSome
    let s := s.modDie d fun k => match k.tag? line with
      | some t => k.setTag { t with st := .shared }
      | none => if e.wbIn then { k with wbufs := k.wbufs.erase line } else k
    .next (endForward s line a (if held then [agentOf s d] else []))
  | _, _, _ => .next s
/-- An agent acknowledges an invalidation; the last acknowledgement ends the transaction (R251). -/
def ackInvalid (s : State) (a line : Nat) : State :=
  let h := homeDie (line * 128)
  let e := (s.die h).dir line
  let e := { e with sharers := e.sharers.filter (· != a) }
  match e.sharers, e.owner with
  | [], some o =>
    let e := if o = homeAgent s line then { e with st := .i, owner := none, wbIn := false } else { e with st := .m, wbIn := false }
    wakeLine (give (s.modDie h (·.setDir e.settled)) o line true) line
  | _, _ => s.modDie h (·.setDir e)
/-- The home awaits an agent's acknowledgement. -/
def awaits (s : State) (a line : Nat) : Bool :=
  let e := (s.die (homeDie (line * 128))).dir line
  e.st == .b && e.fwd.isNone && e.owner.isSome && e.sharers.contains a
/-- INVALIDATION (R251, R255, R256): a die drops its copy, its time stamped, and acknowledges. It is held while its stamp would pass
LTLIM (R247). -/
def execInvalidation (die line : Nat) (s : State) : Out :=
  let a := agentOf s die
  let e := (s.die (homeDie (line * 128))).dir line
  if !awaits s a line || (invLim (s.die die) line).isSome then .next s
  else .next (ackInvalid (s.modDie die fun k => { k.invalidate line with wbufs := if e.wbIn then k.wbufs.erase line else k.wbufs }) a line)

/-! ### The host's copies (R258) -/

/-- The set of the snoop filter that a line falls in: 8,192 sets of 16 ways (log 13). -/
def snoopSet (line : Nat) : Nat := line % 8192
/-- The other lines of a line's set whose entries the filter keeps: none is on its way out. -/
def snoopOthers (k : Die) (line : Nat) : List Nat :=
  (k.snoop.map (·.1)).filter fun l => snoopSet l == snoopSet line && l != line && !k.bisnp.contains l
/-- BACK_INVALIDATE_SNOOP: for an access that waits; one that evicts an entry of a full set begins with the host access that fills it. -/
def execBackInvalidateSnoop (line : Nat) (s : State) : Out :=
  let h := homeDie (line * 128)
  let k := s.die h
  let needed := s.dies.toList.any fun (d : Die) => d.waits.any fun w => w.line == line && w.hold == .snoop
  if needed && k.snoop.any (·.1 == line) && !k.bisnp.contains line then .next (s.modDie h fun k => { k with bisnp := k.bisnp ++ [line] })
  else .next s
/-- The stamp of a write of the host to a line would pass LTLIM at its home or at a die that caches it (R247). -/
def hostLim (s : State) (line : Nat) : Bool :=
  let h := homeDie (line * 128)
  (let (w, k) := (s.die h).foreign line; !k.within w) || (recallLim s line).isSome || (limHeld s line).isSome
/-- BISNP_RESPONSE: the host's copy is gone; modified data is written first, once LTLIM allows its stamp (R247). -/
def execBisnpResponse (line : Nat) (dirty : Option (BitVec 1024)) (s : State) : Out :=
  let h := homeDie (line * 128)
  let k := s.die h
  let modified := k.snoop.any fun e => e.1 == line && e.2
  if !k.bisnp.contains line || (dirty.isSome && modified && hostLim s line) then .next s
  else
    let s := s.modDie h fun k => { k with snoop := k.snoop.filter (·.1 != line), bisnp := k.bisnp.erase line }
    let s := match dirty with
      | some v => if modified then
          let (w, k) := (s.die h).foreign line
          let s := ((recallAll (s.setDie h k) line).noteOuter line).hbmWrite (line * 128) (leBytes 128 v.toNat) false
          s.modDie h fun k => match k.tag? line with
            | some t => k.setTag (k.stamped t w)
            | none => k
        else s
      | none => s
    .next (wakeLine s line)

/-! ### Host accesses (R258, R259, R402) -/

/-- The host-port source number: unit 176 of die 0 (R402). -/
def hostSource (s : State) : BitVec 16 := unitSource s 0 176
/-- A BAR2 request is admitted (R29, R402): without a PASID prefix, each byte where a resident workgroup, or an open register-file slot, of
some PASID has it. -/
def hostWin (s : State) (g off n : Nat) (k : WKind) (pasid : Option (BitVec 20)) : Bool :=
  winFixed s g off n k true false && match pasid with
    | some p => winHeld s g off n p false
    | none =>
      let c := s.core g
      let ps := c.wgs.map (·.pasid) ++ c.warps.toList.filterMap fun w => w.map (·.pasid)
      (List.range n).all fun i => ps.any (fun p => winHeld s g (off + i) 1 p false) || (match regionOf (off + i) 1 with
        | some (.rf, _) | some (.spad, _) | some (.sem, _) | some (.cmap, _) | none => false
        | _ => true)
/-- The host's own accesses meet no record of its own copies. -/
def noSnoop (s : State) (line : Nat) : State :=
  { s with dies := s.dies.map fun (k : Die) => { k with snoop := k.snoop.filter (·.1 != line) } }
def keepSnoop (s t : State) : State := { t with dies := Vector.ofFn fun i => { t.dies[i] with snoop := s.dies[i].snoop } }
/-- A write of a line's bytes from outside the package; none while it waits for a transaction, a snoop or LTLIM. -/
def outLine (s : State) (pa : Nat) (bs : List Byte) : Option State :=
  let line := lineOf pa
  let h := homeDie pa
  if ((s.die h).unt? line).isSome then
    if snoopNeeded s line true then none
    else some (untClean (((bs.zip (List.range bs.length)).foldl (fun s e => untWrite s h line (pa % 128 + e.2) 1 e.1.toNat false) s).noteOuter line)
      h line [(pa, bs.length)])
  else if (limHeld s line).isSome then none
  else match storeForeign s line with
    | .ok t => some ((t.noteOuter line).hbmWrite pa bs false)
    | .error _ => none
/-- A host write of a line's bytes in device memory. -/
def hostLine (s : State) (pa : Nat) (bs : List Byte) : Option State := (outLine (noSnoop s (lineOf pa)) pa bs).map (keepSnoop s)
/-- A write from outside the package to the anchor of a nib's window (R335, R402), of bytes that lie in one slot, and whether the nib
refuses it. -/
def outNib (s : State) (src : BitVec 16) (w : Nat × Nat × Bool × Nat × Nat) (pa : Nat) (bs : List Byte) : State × Bool :=
  let k := s.core w.2.2.2.1
  let r := if w.2.2.1 then traceStore k w.2.2.2.2 src (pa - w.1)
    else strokeRun k w.2.2.2.2 src (pa - w.1) (bs.map fun b => (b, false))
  (s.setCore w.2.2.2.1 { r.1 with nibHz := Nat.max r.1.nibHz s.writes }, r.2)
/-- What a read from outside the package of bytes of one slot finds: a trace slot that holds no result makes it wait at the nib, for
requester `from_` (R343, R402). -/
def outTrace (s : State) (from_ : Nat) (src : BitVec 16) (w : Nat × Nat × Bool × Nat × Nat) (pa n : Nat) : State × NibRd :=
  let (b, _, trace, g, ni) := w
  if !trace then (s, .perm)
  else match traceRead (s.core g) ni src (pa - b) n with
    | .perm => (s, .perm)
    | .bytes bs => (s, .bytes bs)
    | .wait =>
      let x := (s.core g).nib ni
      let sl := (pa - b) / Nat.max 1 x.tsz
      if nibBits x.desc 292 16 = 0 then (s.modCore g (·.modNib ni (·.noteNr sl)), .bytes (byteList n fun _ => (0#8, true)))
      else
        let a : Access := ⟨0, .mtx, .row, 0#20, false, false, 0#64, 0, .n8, .rlx, .sys, 0#8, none, [⟨0, 0#64, n, 0, 0, .none, []⟩]⟩
        (s.modCore g (·.modNib ni fun x => { x with loads := x.loads ++ [NibLoad.mk from_ a [pa] sl] }), .wait)
/-- The parts of a host access with the windows that they lie in. -/
def hostRuns (s : State) (pa n : Nat) : List ((Nat × Nat) × Option (Nat × Nat × Bool × Nat × Nat)) :=
  (nibRuns s pa n).map fun r => (r, nibWindow s r.1 1)
/-- In CXL mode a host access that the home answers adds the line to the snoop filter, and the access is newer than a back-invalidation of
the line that is under way; a full set evicts an entry by back-invalidating its line (R258). The host access waits for neither (R259). -/
def hostNote (s : State) (line : Nat) (modified : Bool) : State :=
  if !s.port.hpcap.getLsbD 0 then s
  else s.modDie (homeDie (line * 128)) fun k =>
    let old := k.snoop.any fun e => e.1 == line && e.2
    let others := snoopOthers k line
    let out := if others.length < 16 then [] else ((others[Config.victim s.tick % others.length]?).map fun l => [l]).getD []
    { k with snoop := k.snoop.filter (·.1 != line) ++ [(line, modified || old)], bisnp := k.bisnp.erase line ++ out }
/-- A host write of a run of bytes: to its nib, which may refuse it, or to memory. -/
def hostRun (pa : Nat) (bs : List Byte) (s : Option (State × Bool)) (r : (Nat × Nat) × Option (Nat × Nat × Bool × Nat × Nat)) :
    Option (State × Bool) :=
  let part := (bs.drop (r.1.1 - pa)).take r.1.2
  s.bind fun (s, bad) => match r.2 with
    | some w => let (t, x) := outNib s (hostSource s) w r.1.1 part; some (t, bad || x)
    | none => (hostLine s r.1.1 part).map fun t => (t, bad)
/-- The host's posted writes are performed in their order of arrival: one that a halted core's port holds back keeps the later ones
(R240, R295). -/
def hostHeld (s : State) : Bool := s.cores.any fun (k : Core) => k.bpw.any (·.core == 384)
/-- A write or an atomic from outside the package at a window, by requester `from_` (R29, R295, R402). -/
def outPut (s : State) (from_ g off : Nat) (bs : List Byte) (pasid : Option (BitVec 20)) : State :=
  if (s.core g).holds then
    let a : Access := ⟨0, .mtx, .store, pasid.getD 0#20, true, false, 0#64, 0, .n8, .rlx, .sys, 0#8, none, [⟨0, 0#64, bs.length, leNat bs, 0, .none, []⟩]⟩
    s.modCore g fun k => { k with bpw := k.bpw ++ [⟨from_, a, [winBase + g * 0x1000000 + off]⟩] }
  else
    let s := s.noteOuter (lineOf (winBase + g * 0x1000000 + off))
    s.modCore g fun k => { k with syncHz := Nat.max k.syncHz s.writes }.winPut s.tick off bs.length (leNat bs) false
/-- The new value that a host AtomicOp leaves; none where it writes nothing (R217, R240). -/
def hostNew (op : HostAtom) (size old : Nat) : Option Nat :=
  match op with
  | .add v => some ((old + v) % 2 ^ (8 * size))
  | .swap v => some (v % 2 ^ (8 * size))
  | .cas c v => if old = c % 2 ^ (8 * size) then some (v % 2 ^ (8 * size)) else none
/-- The sizes of a PCIe AtomicOp. -/
def hostAtomOk (op : HostAtom) (pa size : Nat) : Bool :=
  (size == 4 || size == 8 || (size == 16 && match op with | .cas _ _ => true | .add _ | .swap _ => false)) && pa % size == 0
/-- The bytes of device memory as the home reads them. -/
def hostOld (s : State) (pa size : Nat) : Nat :=
  dataAt (untHome s (lineOf pa)).1 (pa % 128) size
/-- The host has its completion: the bytes with their poison, or an error response. -/
def hostAnswer (s : State) (a : Option (List (Byte × Bool))) : State := { s with port := { s.port with cpl := a } }
/-- The bytes of memory that the home gives to the host; none while the line waits for a transaction. -/
def hostMemRead (s : State) (pa n : Nat) : Option (State × List (Byte × Bool)) :=
  let line := lineOf pa
  match (s.die (homeDie pa)).unt? line with
  | some u => some (s, untBytes u pa n)
  | none => match l2Read (noSnoop s line) (homeDie pa) line with
    | .ok (u, _) => some (keepSnoop s u, trkBytes s (homeDie pa) pa n)
    | .error _ => none
/-- A host read of device memory: of the line as the home has it, and of trace slots (R343, R402). One that a nib keeps waiting is
answered from there, with the bytes of its own part (log 119); a place that the nib does not admit gets an error response. -/
def hostRead (s : State) (pa n : Nat) : State :=
  let rs := hostRuns s pa n
  let mem := rs.any (·.2.isNone)
  match (if mem then hostMemRead s pa n else some (s, [])) with
  | none => homeAsk s (lineOf pa) false
  | some (s, bs) =>
    let s := if mem then hostNote s (lineOf pa) false else s
    let (s, got) := rs.foldl (fun (x : State × List NibRd) r => match r.2 with
      | none => (x.1, x.2 ++ [.bytes ((bs.drop (r.1.1 - pa)).take r.1.2)])
      | some w => let (s, v) := outTrace x.1 384 (hostSource s) w r.1.1 r.1.2; (s, x.2 ++ [v])) (s, [])
    if got.any (· == .perm) then hostAnswer s none
    else if got.any (· == .wait) then s
    else hostAnswer s (some (got.flatMap fun v => match v with | .bytes b => b | .perm | .wait => []))
/-- A host write of device memory, of one line. -/
def hostWrite (s : State) (pa : Nat) (bs : List Byte) : State :=
  let rs := hostRuns s pa bs.length
  match rs.foldl (hostRun pa bs) (some (s, false)) with
  | some (t, bad) => hostAnswer (if rs.any (·.2.isNone) then hostNote t (lineOf pa) false else t) (if bad then none else some [])
  | none => homeAsk s (lineOf pa) true
/-- A host AtomicOp on device memory: it gets the old value, and a failing CAS writes nothing (R217, R240). -/
def hostAtomic (s : State) (pa size : Nat) (op : HostAtom) : State :=
  let line := lineOf pa
  let old := hostOld s pa size
  let done := fun (t : State) => hostAnswer (hostNote t line false) (some ((leBytes size old).map fun b => (b, poisIn (untHome s line).2 (pa % 128) size)))
  if (nibWindow s pa size).isSome then hostAnswer s none
  else if peersHold s line true then homeAsk s line true
  else match hostNew op size old with
    | none => done s
    | some v => ((hostLine s pa (leBytes size v)).map done).getD s
/-- The host takes a copy of a line, in CXL mode (R258). -/
def hostCopy (s : State) (line : Nat) (modified : Bool) : State :=
  if ((s.die (homeDie (line * 128))).dir line).st = .b || (modified && (recallLim s line).isSome) then s
  else if peersHold s line modified then homeAsk s line modified
  else
    let s := if modified then recallAll s line else recallRead s line
    let (d, p) := untHome s line
    hostAnswer (hostNote s line modified) (some (byteList 128 fun i => (BitVec.ofNat 8 (dataAt d i 1), poisIn p i 1)))
/-- A host access through BAR2 to a core's window (R29, R402). -/
def hostWindow (s : State) (g off : Nat) : HostReq → State
  | .read _ n pasid =>
    if !hostWin s g off n .load pasid then hostAnswer s none
    else
      let s := s.winSee g off n
      hostAnswer s (some (byteList n fun i => let r := winRead s g (off + i) 1; (BitVec.ofNat 8 r.1, r.2)))
  | .write _ bs pasid =>
    if !hostWin s g off bs.length .store pasid then hostAnswer s none else hostAnswer (outPut s 384 g off bs pasid) (some [])
  | .atomic _ size op pasid =>
    if !hostWin s g off size .atomic pasid then hostAnswer s none
    else if (s.core g).holds then s
    else
      let (old, p) := winRead s g off size
      let s := hostAnswer s (some ((leBytes size old).map fun b => (b, p)))
      match hostNew op size old with
      | some v => outPut s 384 g off (leBytes size v) pasid
      | none => s
  | .cache _ _ => hostAnswer s none
/-- The bytes that a host access is about. -/
def hostPlace : HostReq → Nat × Nat
  | .read pa n _ => (pa, n)
  | .write pa bs _ => (pa, bs.length)
  | .atomic pa n _ _ => (pa, n)
  | .cache pa _ => (pa / 128 * 128, 128)
/-- HOST_ACCESS: a read, a write, an AtomicOp, or a copy that the host takes (R240, R258, R402). One at no place of the device's, or not
admitted there, gets an error response, as every one does while BAR2 and BAR4 are not exposed (R453). A request that does not fit in a line has no effect here (log 21). -/
def execHostAccess (r : HostReq) (s : State) : Out :=
  let (pa, n) := hostPlace r
  let post := match r with | .write _ _ _ | .atomic _ _ _ _ => true | .read _ _ _ | .cache _ _ => false
  if s.boot != .running then .next (hostAnswer s none)
  else if !s.port.hpcap.getLsbD 15 || n = 0 || lineOf pa != lineOf (pa + n - 1) || (post && hostHeld s) then .next s
  else if !isHbm pa then .next (match winSplit pa with
    | some (g, off) => hostWindow s g off r
    | none => hostAnswer s none)
  else match r with
  | .read _ _ _ => .next (hostRead s pa n)
  | .write _ bs _ => .next (hostWrite s pa bs)
  | .atomic _ _ op _ => .next (if hostAtomOk op pa n then hostAtomic s pa n op else hostAnswer s none)
  | .cache _ modified =>
    if !s.port.hpcap.getLsbD 0 || (hostRuns s pa 128).any (·.2.isSome) then .next (hostAnswer s none)
    else .next (hostCopy s (lineOf pa) modified)
/-- CXL_CACHE_SNOOP (R259): the device caches no host line and answers with a miss. -/
def execCxlCacheSnoop (_hpa : Nat) (s : State) : Out := .next s

end Sys2Proof.Machine
end

