-- ==== Sys2Proof/Machine/Sha.lean ====
section
/-! DEFINITION. SHA-512 and the verification of RSASSA-PKCS1-v1_5 signatures, which firmware and attestation use (26 R452,
R454); the algorithms are those of FIPS 180-4 and RFC 8017 (log 24). -/

namespace Sys2Proof.Machine

/-- The round constants. -/
def shaK : List Nat :=
  [0x428A2F98D728AE22, 0x7137449123EF65CD, 0xB5C0FBCFEC4D3B2F, 0xE9B5DBA58189DBBC, 0x3956C25BF348B538,
   0x59F111F1B605D019, 0x923F82A4AF194F9B, 0xAB1C5ED5DA6D8118, 0xD807AA98A3030242, 0x12835B0145706FBE,
   0x243185BE4EE4B28C, 0x550C7DC3D5FFB4E2, 0x72BE5D74F27B896F, 0x80DEB1FE3B1696B1, 0x9BDC06A725C71235,
   0xC19BF174CF692694, 0xE49B69C19EF14AD2, 0xEFBE4786384F25E3, 0x0FC19DC68B8CD5B5, 0x240CA1CC77AC9C65] ++
  [0x2DE92C6F592B0275, 0x4A7484AA6EA6E483, 0x5CB0A9DCBD41FBD4, 0x76F988DA831153B5, 0x983E5152EE66DFAB,
   0xA831C66D2DB43210, 0xB00327C898FB213F, 0xBF597FC7BEEF0EE4, 0xC6E00BF33DA88FC2, 0xD5A79147930AA725,
   0x06CA6351E003826F, 0x142929670A0E6E70, 0x27B70A8546D22FFC, 0x2E1B21385C26C926, 0x4D2C6DFC5AC42AED,
   0x53380D139D95B3DF, 0x650A73548BAF63DE, 0x766A0ABB3C77B2A8, 0x81C2C92E47EDAEE6, 0x92722C851482353B] ++
  [0xA2BFE8A14CF10364, 0xA81A664BBC423001, 0xC24B8B70D0F89791, 0xC76C51A30654BE30, 0xD192E819D6EF5218,
   0xD69906245565A910, 0xF40E35855771202A, 0x106AA07032BBD1B8, 0x19A4C116B8D2D0C8, 0x1E376C085141AB53,
   0x2748774CDF8EEB99, 0x34B0BCB5E19B48A8, 0x391C0CB3C5C95A63, 0x4ED8AA4AE3418ACB, 0x5B9CCA4F7763E373,
   0x682E6FF3D6B2B8A3, 0x748F82EE5DEFB2FC, 0x78A5636F43172F60, 0x84C87814A1F0AB72, 0x8CC702081A6439EC] ++
  [0x90BEFFFA23631E28, 0xA4506CEBDE82BDE9, 0xBEF9A3F7B2C67915, 0xC67178F2E372532B, 0xCA273ECEEA26619C,
   0xD186B8C721C0C207, 0xEADA7DD6CDE0EB1E, 0xF57D4F7FEE6ED178, 0x06F067AA72176FBA, 0x0A637DC5A2C898A6,
   0x113F9804BEF90DAE, 0x1B710B35131C471B, 0x28DB77F523047D84, 0x32CAAB7B40C72493, 0x3C9EBE0A15C9BEBC,
   0x431D67C49C100D4C, 0x4CC5D4BECB3E42B6, 0x597F299CFC657E2A, 0x5FCB6FAB3AD6FAEC, 0x6C44198C4A475817]
/-- The initial hash value. -/
def shaH : List Dword :=
  [0x6A09E667F3BCC908#64, 0xBB67AE8584CAA73B#64, 0x3C6EF372FE94F82B#64, 0xA54FF53A5F1D36F1#64,
   0x510E527FADE682D1#64, 0x9B05688C2B3E6C1F#64, 0x1F83D9ABFB41BD6B#64, 0x5BE0CD19137E2179#64]
def shaRot (x : Dword) (n : Nat) : Dword := (x >>> n) ||| (x <<< (64 - n))
/-- The message schedule, latest word first, extended by `n` words. -/
def shaExtend : Nat → List Dword → List Dword
  | 0, w => w
  | n + 1, w =>
    let g := fun (i : Nat) => (w[i]?).getD 0#64
    let a := g 14
    let b := g 1
    let x := g 15 + (shaRot a 1 ^^^ shaRot a 8 ^^^ (a >>> 7)) + g 6 + (shaRot b 19 ^^^ shaRot b 61 ^^^ (b >>> 6))
    shaExtend n (x :: w)
/-- One round on the eight working variables. -/
def shaRound (v : List Dword) (kw : Nat × Dword) : List Dword :=
  match v with
  | [a, b, c, d, e, f, g, h] =>
    let t := h + (shaRot e 14 ^^^ shaRot e 18 ^^^ shaRot e 41) + ((e &&& f) ^^^ (~~~e &&& g)) + BitVec.ofNat 64 kw.1 + kw.2
    let u := (shaRot a 28 ^^^ shaRot a 34 ^^^ shaRot a 39) + ((a &&& b) ^^^ (a &&& c) ^^^ (b &&& c))
    [t + u, a, b, c, d + t, e, f, g]
  | _ => v
/-- A big-endian number of some bytes. -/
def beNat (bs : List Byte) : Nat := bs.foldl (fun n b => n * 256 + b.toNat) 0
/-- A number as `n` big-endian bytes. -/
def beBytes (n v : Nat) : List Byte := (leBytes n v).reverse
/-- The words of a 128-byte block, latest first. -/
def shaWords (bs : List Byte) : List Dword :=
  (List.range 16).foldl (fun w i => BitVec.ofNat 64 (beNat ((bs.drop (8 * i)).take 8)) :: w) []
def shaBlock (h : List Dword) (bs : List Byte) : List Dword :=
  let v := (shaK.zip (shaExtend 64 (shaWords bs)).reverse).foldl shaRound h
  (h.zip v).map fun e => e.1 + e.2
/-- The blocks of a padded message. -/
def shaBlocks : Nat → List Dword → List Byte → List Dword
  | 0, h, _ => h
  | n + 1, h, bs => shaBlocks n (shaBlock h (bs.take 128)) (bs.drop 128)
/-- SHA-512 of some bytes, as 64 bytes. -/
def sha512 (m : List Byte) : List Byte :=
  let z := (128 - (m.length + 17) % 128) % 128
  let p := m ++ [0x80#8] ++ List.replicate z 0#8 ++ beBytes 16 (8 * m.length)
  (shaBlocks (p.length / 128) shaH p).foldl (fun l h => l ++ beBytes 8 h.toNat) []

/-- Squares `k` times modulo `n`. -/
def sqMod (n : Nat) : Nat → Nat → Nat
  | 0, x => x
  | k + 1, x => sqMod n k (x * x % n)
/-- The encoded message of RSASSA-PKCS1-v1_5 with SHA-512 in 512 bytes. -/
def pkcsBlock (hash : List Byte) : List Byte :=
  [0#8, 1#8] ++ List.replicate 426 0xFF#8 ++ [0#8] ++
  [0x30#8, 0x51#8, 0x30#8, 0x0D#8, 0x06#8, 0x09#8, 0x60#8, 0x86#8, 0x48#8, 0x01#8, 0x65#8, 0x03#8, 0x04#8, 0x02#8, 0x03#8, 0x05#8,
   0x00#8, 0x04#8, 0x40#8] ++ hash
/-- A signature of 512 bytes verifies under a modulus with exponent 65,537. -/
def rsaVerify (modulus sig : List Byte) (hash : List Byte) : Bool :=
  let n := beNat modulus
  let s := beNat sig
  sig.length == 512 && modulus.length == 512 && s < n && sqMod n 16 s * s % n == beNat (pkcsBlock hash)

end Sys2Proof.Machine
end

