-- ==== Sys2Proof/Machine/HostPort.lean ====
section
/-! DEFINITION. The host queues, their messages, the host link, and the assist rings (21 R403-R411, R420, 26 R458-R460). -/

namespace Sys2Proof.Machine

/-! ### Registers and rings (R406-R408) -/

/-- A write of a register of BAR0 other than HPCAP, which a device in recovery does not expose (R453). -/
def bar0 (s t : State) : Out := .next (if s.boot == .running then t else s)
/-- H2DBELL. -/
def execH2dBell (v : Word) (s : State) : Out := bar0 s { s with port := { s.port with h2dBell := v } }
/-- H2D_ENTRY_RECHECK: the entry is read again; one of an unknown type is refused (R407). -/
def execH2dEntryRecheck (s : State) : Out :=
  match h2dNext s with
  | none => .next s
  | some (seq, e) => .next (if 1 ≤ fld e 32 16 ∧ fld e 32 16 ≤ 7 then s else h2dRefuse s seq)
/-- A ring base: 4-KiB aligned. -/
def ringBase (v : Dword) : Dword := v &&& ~~~0xFFF#64
/-- H2D_RING_CONFIG: a write of H2DBASE or H2DSIZE discards the messages above H2DRX. -/
def execH2dRingConfig (size : Bool) (v : Dword) (s : State) : Out :=
  let p := { s.port with h2dBell := s.port.h2dRx }
  bar0 s { s with port := if size then { p with h2dSize := v } else { p with h2dBase := ringBase v, h2dSet := true } }
/-- D2H_RING_CONFIG: every kept message above D2HACK is written again. -/
def execD2hRingConfig (size : Bool) (v : Dword) (s : State) : Out :=
  let p := { s.port with d2hTx := s.port.d2hAck }
  bar0 s { s with port := if size then { p with d2hSize := v } else { p with d2hBase := ringBase v, d2hSet := true } }
/-- The last message that counts as written, once the host has consumed those up to `v`: a raised one is not written again (R408). -/
def ackTx (tx next v : Word) : Word := if seqLe tx v && seqLe (v + 1) next then v else tx
/-- D2HACK: the messages that the host has consumed are kept no longer. -/
def execD2hAck (v : Word) (s : State) : Out :=
  bar0 s { s with port := { s.port with d2hAck := v, kept := s.port.kept.filter (fun m => !seqLe m.1 v)
                                        d2hTx := ackTx s.port.d2hTx s.port.d2hNext v } }
/-- A posted write to the host of 64 B (R408, R420). -/
def hostPost (s : State) (a : Nat) (e : BitVec 512) : State :=
  { s with hostMem := wrBytes s.hostMem a (leBytes 64 e.toNat), port := { s.port with hpwSeq := s.port.hpwSeq + 1 } }
/-- D2H_WRITE: the next message is written while the ring has room. -/
def execD2hWrite (s : State) : Out :=
  let p := s.port
  let n := p.d2hSize.toNat
  let seq := p.d2hTx + 1
  if !p.d2hSet || n < 4 || 8 < n || !linkUp s || 2 ^ n < (seq - p.d2hAck).toNat then .next s
  else match p.kept.find? (·.1 == seq) with
    | none => .next s
    | some m =>
      let s := hostPost s (p.d2hBase.toNat + 64 * (seq.toNat % 2 ^ n)) m.2
      .next { s with port := { s.port with d2hTx := seq } }

/-! ### Messages (R409, R410) -/

/-- ROOTCAP: bits [4:1] of HPCAP. -/
def execRootcap (s : State) : Out :=
  onH2d s 0x04 [(48, 1), (49, 1), (50, 1), (51, 1)] (fun _ => true) fun s e =>
    some { s with port := { s.port with hpcap := (s.port.hpcap &&& ~~~0x1E#64) ||| BitVec.ofNat 64 (2 * fld e 48 4) } }
def twinFields : List (Nat × Nat) := [(48, 1), (49, 1), (52, 20), (72, 4), (80, 96)]
/-- TWIN_CONFIGURE (R421). -/
def execTwinConfigure (s : State) : Out :=
  onH2dOp s 0x05 false twinFields (fun _ => true) fun s e =>
    let pasid : BitVec 20 := e.extractLsb' 52 20
    if s.twins.any (·.pasid == pasid) then none
    else some { s with twins := s.twins ++ [⟨pasid, e.getLsbD 49, (e.extractLsb' 72 4).toFin, e.extractLsb' 80 96, []⟩] }
/-- TWIN_DISSOLVE: the twin buffers go with the partition (log 22). -/
def execTwinDissolve (s : State) : Out :=
  onH2dOp s 0x05 true twinFields (fun _ => true) fun s e =>
    let pasid : BitVec 20 := e.extractLsb' 52 20
    if s.twins.any (·.pasid == pasid) then some { s with twins := s.twins.filter (·.pasid != pasid) } else none

/-- A MODE body in range (R410). -/
def modeOk (e : BitVec 512) : Bool :=
  fld e 48 3 < 5 && fld e 64 64 % 4096 == 0 &&
    (if e.getLsbD 51 then 4 ≤ fld e 52 4 && fld e 52 4 ≤ 8 else fld e 52 4 == 0 && fld e 64 64 == 0)
/-- A function is, or is about to be, host-assisted. -/
def anyAssisted (s : State) : Bool := s.modes.toList.any fun m => m.host || m.want == some true
/-- MODE (R458, R459): the change waits until no request of the function is pending. Where no function is host-assisted yet, the message
gives the rings their place, as a write of a ring's base does in R407 and R408: A2D records not taken are discarded, and D2A records
not consumed are written again (log 98). -/
def execMode (s : State) : Out :=
  onH2d s 0x06 [(48, 3), (51, 1), (52, 4), (64, 64)] modeOk fun s e =>
    let hosta := e.getLsbD 51
    let base : Dword := e.extractLsb' 64 64
    if hosta && anyAssisted s && !(s.assist.abase == base && s.assist.asize == fld e 52 4) then none
    else
      let s := if hosta && !anyAssisted s then { s with assist := { s.assist with
          abase := base, asize := fld e 52 4, a2dBell := s.assist.a2dRx, d2aTx := s.assist.d2aAck } } else s
      some { s with modes := putMask s.modes (· == fld e 48 3) fun i => { (s.modes[i]?).getD ⟨false, none⟩ with want := some hosta } }
/-- A request of a function is pending (R460). -/
def funcPending (s : State) (f : Nat) : Bool :=
  match f with
  | 0 => s.dies.toList.any fun k => k.own.any fun r => r.phase == .fresh || r.phase == .assist
  | 1 => s.dies.toList.any fun k => k.graphs.any fun g => g.nodes.any (·.release)
  | 2 => s.dies.toList.any (fun k => !k.ring.isEmpty) || s.assist.pend.any fun r => match r with | .alloc _ _ _ => true | _ => false
  | 3 => s.rports.toList.any fun p => p.st == .training
  | _ => !s.assist.late.isEmpty || s.assist.pend.any fun r => match r with | .contain _ _ _ _ => true | _ => false
/-- MODE_CHANGE (R460). -/
def execModeChange (func : Fin 5) (s : State) : Out :=
  match s.modes[func].want with
  | none => .next s
  | some b => if funcPending s func.val then .next s else .next { s with modes := s.modes.set func ⟨b, none⟩ }

def podFields : List (Nat × Nat) := [(48, 1), (49, 6), (56, 20), (80, 16)]
/-- PODBAR_ALLOT (R374). -/
def execPodbarAllot (s : State) : Out :=
  onH2dOp s 0x07 false podFields (fun e => fld e 80 16 != 0) fun s e =>
    if s.pkg.val ≠ 0 then podForward s else podGive s (fld e 49 6) (e.extractLsb' 56 20) (fld e 80 16)
/-- PODBAR_RELEASE (R374): refused while a node of the PASID that holds the barrier is READY or RUNNING. -/
def execPodbarRelease (s : State) : Out :=
  onH2dOp s 0x07 true podFields (fun e => fld e 80 16 == 0) fun s e =>
    if s.pkg.val ≠ 0 then podForward s else podTake s (fld e 49 6) (e.extractLsb' 56 20)

/-! ### The host link (R420) -/

/-- A line of memory is poisoned whole, and every cached copy goes. -/
def poisonLine (s : State) (line : Nat) : State :=
  let s := dropCopies (recallAll s line) (line * 128) 128
  { s with hbmPois := setAdd (setAdd s.hbmPois (2 * line)) (2 * line + 1) }
def hostPhase (r : OwnRec) : Bool := match r.phase with
  | .atsDue _ | .atsOut _ | .priDue | .priOut _ => true
  | _ => false
/-- HOST_LINK_LOSS: the filter is dropped, lines that the host may have modified are poisoned, host translations fail,
and the posted writes not acknowledged are recorded; a PLDM event reports the loss (R455). -/
def execHostLinkLoss (unacked : Nat) (s : State) : Out :=
  if !linkUp s then .next s
  else
    let held := s.dies.toList.flatMap fun (k : Die) => k.snoop
    let n := Nat.min unacked s.port.hpwSeq.toNat
    let last := s.port.hpwSeq
    let s := { s with port := { s.port with
      hpcap := s.port.hpcap &&& ~~~0x8000#64
      lossEv := s.port.lossEv + 1
      hpwLost := if n = 0 then 0#64 else ((last - BitVec.ofNat 32 (n - 1)).setWidth 64 <<< 32) ||| last.setWidth 64 } }
    let s := { s with dies := s.dies.map fun (k : Die) => { k with snoop := [], bisnp := [], ats := [] } }
    let s := ((held.filter (·.2)).map (·.1)).foldl (fun s l => reportError (poisonLine s l) 1 0x206 (unitSource s 0 176) (l * 128) 0 none) s
    let s := (List.range 4).foldl (fun s d => ((s.die d).own.filter hostPhase).foldl (fun s r => postNotice s d r stLinklost) s) s
    let s := { s with cores := s.cores.map fun k => { k with misses := k.misses.map fun m => if m.ats = .out then { m with ats := .lost } else m } }
    .next ((held.map (·.1)).foldl wakeLine s)
/-- HOST_LINK_RETURN: LINKUP reads 1, and the kept D2H messages are written again. -/
def execHostLinkReturn (width speed : Fin 4) (s : State) : Out :=
  if linkUp s || width = 3 || speed = 3 then .next s
  else .next { s with port := { s.port with
    hpcap := (s.port.hpcap &&& ~~~0xF00#64) ||| BitVec.ofNat 64 (2 ^ 15 + speed.val * 2 ^ 10 + width.val * 2 ^ 8)
    d2hTx := s.port.d2hAck } }

/-! ### The assist rings (R459) -/

/-- A2DBELL. -/
def execA2dBell (v : Word) (s : State) : Out := bar0 s { s with assist := { s.assist with a2dBell := v } }
/-- D2AACK. -/
def execD2aAck (v : Word) (s : State) : Out :=
  bar0 s { s with assist := { s.assist with d2aAck := v, kept := s.assist.kept.filter (fun m => !seqLe m.1 v)
                                            d2aTx := ackTx s.assist.d2aTx s.assist.d2aNext v } }
/-- Requests to the host that found no free place are raised. -/
def raiseWaiting (s : State) : State :=
  let s := s.assist.late.foldl (fun s r => if assistRoom s then
      raiseContain { s with assist := { s.assist with late := s.assist.late.drop 1 } } r.1 r.2.1 r.2.2.1 r.2.2.2
    else s) s
  (List.range 4).foldl (fun s d => (s.die d).graphs.foldl (fun s g => (List.range g.nodes.length).foldl (fun s i =>
    match g.nodes[i]? with
    | some x => if x.release then askReady s d g.id i else s
    | none => s) s) s) s
/-- ASSIST_REQUEST_WRITE: the next D2A record is written while the ring has room. -/
def execAssistRequestWrite (s : State) : Out :=
  let s := raiseWaiting s
  let a := s.assist
  let seq := a.d2aTx + 1
  if a.asize < 4 || !linkUp s || 2 ^ a.asize < (seq - a.d2aAck).toNat then .next s
  else match a.kept.find? (·.1 == seq) with
    | none => .next s
    | some m =>
      let s := hostPost s (a.abase.toNat + 64 * (seq.toNat % 2 ^ a.asize)) m.2
      .next { s with assist := { s.assist with d2aTx := seq } }
/-- Takes a pending request away. -/
def dropPend (s : State) (r : AssistReq) : State := { s with assist := { s.assist with pend := s.assist.pend.erase r } }
/-- FAULTANS: OK makes the owner post the notice, any other status fails the ticket. -/
def execFaultans (s : State) : Out :=
  onA2d s 0xA1 [(48, 4), (80, 32)] (fun e => fld e 48 4 ≤ 6) fun s e =>
    (s.assist.pend.findSome? fun r => match r with
      | .fault d i => ((s.die d).rec? i).bind fun x => if (x.tid s d).toNat = fld e 80 32 ∧ x.phase = .assist then some (r, d, x) else none
      | _ => none).map fun x => postNotice (dropPend s x.1) x.2.1 x.2.2 (BitVec.ofNat 4 (fld e 48 4))
/-- READYANS: the node becomes READY. -/
def execReadyans (s : State) : Out :=
  onA2d s 0xA2 [(48, 32), (80, 2), (96, 16)] (fun _ => true) fun s e =>
    (s.assist.pend.find? fun r => match r with
      | .ready d id n => d == fld e 80 2 && n == fld e 96 16 && graphTag s d id == fld e 48 32
      | _ => false).bind fun r => match r with
      | .ready d id n => some (endGraphs (setReady (dropPend s r) d id n) d)
      | _ => none
/-- The reply words of a forwarded request: an address for ALLOC only (R377, R459). -/
def allocReply (s : State) (c i : Nat) (st va : Dword) : List Dword :=
  if (s.core c).mail.any fun r => r.idx == i && r.word 0 == 1#64 then [st, va] else [st]
/-- ALLOCANS: the reply of a forwarded ALLOC or FREE. -/
def execAllocans (s : State) : Out :=
  onA2d s 0xA3 [(48, 4), (80, 64), (144, 32)] (fun e => fld e 48 4 ≤ 3) fun s e =>
    (s.assist.pend.find? fun r => match r with
      | .alloc q _ _ => q.toNat == fld e 144 32
      | _ => false).bind fun r => match r with
      | .alloc _ c i => some (answer (dropPend s r) c i (allocReply s c i (BitVec.ofNat 64 (fld e 48 4)) (e.extractLsb' 80 64)))
      | _ => none
/-- CONTAINANS: the task goes on, or ends (R389). -/
def execContainans (s : State) : Out :=
  onA2d s 0xA5 [(48, 12), (60, 1)] (fun _ => true) fun s e =>
    (s.assist.pend.find? fun r => match r with
      | .contain i _ _ _ => i % 4096 == fld e 48 12
      | _ => false).bind fun r => match r with
      | .contain _ d id n =>
        let s := dropPend s r
        some (if e.getLsbD 60 then endTask s d id n 8
          else { s with cores := s.cores.map fun k => if k.wgs.any (taskHas d id n) then
              { k with warps := k.warps.map fun (x : Option Warp) => x.map fun w => match k.wgOf w with
                | some g => if taskHas d id n g && !g.stopping then { w with stopped := false } else w
                | none => w }
            else k })
      | _ => none
/-- REGISTER_WRITE: the host writes BAR0 at an offset; read-only and unlisted offsets keep their values, HPCAP among them. -/
def execRegisterWrite (off : BitVec 12) (v : Dword) (s : State) : Out :=
  match off.toNat with
  | 0x040 => execH2dRingConfig false v s
  | 0x048 => execH2dRingConfig true v s
  | 0x050 => execH2dBell (v.setWidth 32) s
  | 0x060 => execD2hRingConfig false v s
  | 0x068 => execD2hRingConfig true v s
  | 0x078 => execD2hAck (v.setWidth 32) s
  | 0x0A0 => execA2dBell (v.setWidth 32) s
  | 0x0B8 => execD2aAck (v.setWidth 32) s
  | _ => .next s

end Sys2Proof.Machine
end

