-- ==== Sys2Proof/Machine/Peers.lean ====
section
/-! DEFINITION. What the other devices of the pod ask of this one: accesses, directory requests and the answers to its homes
(08 R179, 11 R251-R256, 17 R335), and what waits for LTLIM (R247). The contents of their packets are free values (log 1). -/

namespace Sys2Proof.Machine

/-- The device of a source number. -/
def PeerMsg.dev (m : PeerMsg) : Nat := (m.src.extractLsb' 12 4).toNat
/-- A die of the sender, as a directory agent (R251). -/
def PeerMsg.agent (m : PeerMsg) (die : Fin 4) : Nat := m.dev * 4 + die.val
/-- A response of this device to the sender, in class RSP (R261). -/
def reply (s : State) (m : PeerMsg) (unit : Nat) : State := originate s ⟨unitSource s m.die unit, BitVec.ofNat 4 m.dev, 2#3⟩

/-! ### Translation here (R179) -/

/-- What a peer's access by virtual address comes to. -/
inductive PeerXlat where
  | ok (x : Xlat)
  | refused
  | ticket (s : State)

/-- A page that this device cannot translate at once is ticketed: its owner keeps a record for the requester and nothing of the
request. Without a free index, or a free place of an assist request, the answer is BUSY (R183). -/
def peerTicket (s : State) (m : PeerMsg) (pasid : BitVec 20) (va : Dword) (need : BitVec 3) : State :=
  let assist := assisted s 0 && walk s m.die pasid va != .host
  if assist && !assistRoom s then s
  else match newRec s m.die (peerCore m.dev) pasid va need false (if assist then .assist else .fresh) with
    | none => s
    | some (s, r) =>
      if assist then raiseAssist s (.fault m.die r.index) 0x21
        [(48, need.toNat), (56, pasid.toNat), (80, (r.tid s m.die).toNat), (112, va.toNat)]
      else s
/-- The translation, by the receiving die's walker, and the permissions. -/
def peerXlat (s : State) (m : PeerMsg) (pasid : BitVec 20) (va : Dword) (need : BitVec 3) : PeerXlat :=
  if !canonical va then .refused
  else match walk s m.die pasid va with
    | .leaf x => if x.home.isNone && permits x need false then .ok x else .refused
    | _ => match heldXlat (s.die m.die) pasid va with
      | some x => if permits x need false then .ok x else .refused
      | none => .ticket (reply (peerTicket s m pasid va need) m 144)

/-! ### Accesses (R207, R256, R335) -/

/-- The bytes at a place of device memory as the home holds them. -/
def peerOld (s : State) (x : Xlat) (pa n : Nat) : Nat := match winSplit pa with
  | some (g, off) => (winRead s g off n).1
  | none => if x.mt = mtUnt then hostOld s pa n else if x.mt = mtHst then leNat (rdBytes s.hostMem pa n) else leNat (rdBytes s.hbm pa n)
/-- A peer's access at its physical place; none while it waits for a transaction, a snoop or LTLIM. One that the place does not admit
has no effect here. -/
def peerAccess (s : State) (m : PeerMsg) (kind : AccKind) (ty : Ty) (pasid : BitVec 20) (x : Xlat) (pa size data cmp : Nat) : Option State :=
  let new := if kind.rmw then rmwNew kind ty (peerOld s x pa size) ⟨0, 0#64, size, data, cmp, .none, []⟩ else if kind == .store then some data else none
  if x.mt = mtTrk ∨ x.mt = mtUnt then
    if !isHbm (pa + size - 1) || lineOf pa != lineOf (pa + size - 1) then some s
    else match new with
      | some v => outLine s pa (leBytes size v)
      | none =>
        if x.mt = mtUnt then (if snoopNeeded s (lineOf pa) false then none else some s)
        else match l2Read s (homeDie pa) (lineOf pa) with
          | .ok (s, _) => some s
          | .error _ => none
  else if x.mt = mtNibw then
    some ((nibRuns s pa size).foldl (fun s r => match nibWindow s r.1 1 with
      | some w => if kind == .store then (outNib s m.src w r.1 (leBytes r.2 (data / 2 ^ (8 * (r.1 - pa))))).1
        else if kind.rmw then s else (outTrace s (peerCore m.dev) m.src w r.1 r.2).1
      | none => s) s)
  else if x.mt = mtWin ∨ x.mt = mtDev then
    match winSplit pa with
    | none => some s
    | some (g, off) =>
      if !winFixed s g off size (wkind kind) (x.mt == mtDev) false || !winHeld s g off size pasid false then some s
      else if (s.core g).holds && kind.rmw then none
      else match new with
        | some v => some (outPut s (peerCore m.dev) g off (leBytes size v) (some pasid))
        | none => some s
  else if x.mt = mtHst then
    let carried := !kind.rmw || (match hostOp kind ty with | some b => s.port.hpcap.getLsbD b && s.port.hpcap.getLsbD 15 | none => false)
    some (match new with
      | some v => if !carried then s
          else
            let s := { s.noteOuter (hostMark (lineOf pa)) with port := { s.port with hpwSeq := s.port.hpwSeq + (if kind.rmw then 0 else 1) } }
            if s.port.hpcap.getLsbD 15 then { s with hostMem := wrBytes s.hostMem pa (leBytes size v) } else s
      | none => s)
  else some s

/-- A load of a trace slot waits at a nib, which answers it (R343). -/
def peerWaits (s t : State) : Bool :=
  let n := fun (s : State) => s.cores.toList.foldl (fun n k => k.nibs.toList.foldl (fun n x => n + x.loads.length) n) 0
  n s < n t

/-! ### Answers to the homes of this device (R251-R255) -/

/-- The data of an owner of another device reaches the home: a write from outside the die, whose stamp LTLIM may hold back (R247,
R256). -/
def peerData (s : State) (line : Nat) (data : BitVec 1024) (pois : BitVec 2) : Option State :=
  let h := homeDie (line * 128)
  let (w, k) := (s.die h).foreign line
  if !k.within w then none else some (putLine (s.setDie h k) line data pois)
/-- A writeback (R254): an owner's is applied; one that crosses a forward awaits its answer. -/
def peerWriteback (s : State) (a line : Nat) (data : BitVec 1024) (pois : BitVec 2) : Option State :=
  let h := homeDie (line * 128)
  let e := (s.die h).dir line
  if e.st = .m ∧ e.owner = some a then
    (peerData s line data pois).map fun s =>
      wakeLine (homeFill (s.modDie h (·.setDir { e with st := .i, owner := none, sharers := [] }.settled)) line) line
  else if e.st = .b ∧ e.owner = some a ∧ e.fwd.isSome then some (s.modDie h (·.setDir { e with wbIn := true }))
  else some s
/-- The answer to a forward (R254). -/
def peerForwarded (s : State) (a line : Nat) (data : BitVec 1024) (pois : BitVec 2) : Option State :=
  let e := (s.die (homeDie (line * 128))).dir line
  match e.st, e.fwd, e.owner with
  | .b, some r, some o =>
    if o ≠ a then some s
    else (peerData s line data pois).map fun s => endForward s line r (if e.wbIn then [] else [a])
  | _, _, _ => some s
/-- The acknowledgement of an invalidation, with the data of a line that its sender owned (R251, R255). -/
def peerInvalidated (s : State) (a line : Nat) (data : Option (BitVec 1024 × BitVec 2)) : Option State :=
  if !awaits s a line then some s
  else (match data with | some d => peerData s line d.1 d.2 | none => some s).map fun s => ackInvalid s a line

/-! ### Messages from the homes of other devices -/

/-- The lines of a device that a die of this one holds, in its L2 or its writeback buffer. -/
def heldLines (s : State) (dev d : Nat) : List Nat :=
  let k := s.die d
  (k.l2.map (·.line) ++ k.wbufs).filter fun l => (peerHome l).isSome && lineDev s l == dev
/-- An invalidation (R255, R256): held while its stamp would pass LTLIM. -/
def homeInvalidate (s : State) (m : PeerMsg) (d pick : Nat) : Option State :=
  match (heldLines s m.dev d)[pick]? with
  | none => some (reply s m 96)
  | some line =>
    if (invLim (s.die d) line).isSome then none
    else some (reply (s.modDie d (·.invalidate line)) m 96)
/-- A forward (R254): the owner answers the reader from its L2, in which the line is then shared, or from its writeback buffer, which stays
until the home acknowledges the writeback. -/
def homeForward (s : State) (m : PeerMsg) (d pick : Nat) : State :=
  match (heldLines s m.dev d)[pick]? with
  | none => reply s m 96
  | some line => reply (s.modDie d fun k => match k.tag? line with
      | some t => k.setTag { t with st := .shared }
      | none => k) m 96
/-- The home acknowledges a writeback: the buffer is free (R254). -/
def homeAcked (s : State) (m : PeerMsg) (d pick : Nat) : State :=
  let mine := (s.die d).wbufs.filter fun l => (peerHome l).isSome && lineDev s l == m.dev
  match mine[pick]? with
  | none => s
  | some line => s.modDie d fun k => { k with wbufs := k.wbufs.erase line }

/-- Device 0 of the pod says how a pod barrier stands: this device's warps wait on that (R276, R374; log 107). -/
def podHear (s : State) (m : PeerMsg) (n : Nat) (phase : Word) (pasid : Option (BitVec 20)) : State :=
  if s.pkg.val = 0 || m.dev ≠ 0 then s
  else
    let b := { barGet s 0 .pod n with phase := phase, hz := s.writes }
    wakeBar { s with podBars := s.podBars.setIfInBounds n ⟨b, none, pasid⟩ } 0 .pod n
/-- An arrival of another device at a pod barrier, which lives here (R276). -/
def podPeer (s : State) (m : PeerMsg) (n count : Nat) : State :=
  if s.pkg.val ≠ 0 || ((s.podBars[n]?).bind (·.pasid)).isNone then reply s m 146 else reply (podArrive s n count s.writes) m 146
/-- A slice of another device forwards an access of a nib here whose window lies on a page of that device (R335): of bytes of one slot, it
finds the nib as an access of this device does; a nib that has no window there answers NOMAP. -/
def peerNib (s : State) (m : PeerMsg) (core ni : Nat) (trace store : Bool) (agent : BitVec 16) (off size data : Nat) : State :=
  let n := (s.core core).nib ni
  let base := if trace then n.tva else n.sva
  let z := if trace then n.tsz else n.ssz
  let bytes := n.nslots * z
  if n.podWindows.any (fun w => w.1 == base && lineDev s (lineOf base) == m.dev) && off + size ≤ bytes && 0 < size
      && off / Nat.max 1 z == (off + size - 1) / Nat.max 1 z then
    let w := (0, bytes, trace, core, ni)
    if store then reply (outNib s agent w off (leBytes size data)).1 m 96
    else let (t, r) := outTrace s (peerCore m.dev) agent w off size
         if r == .wait then t else reply t m 96
  else reply s m 96

/-! ### Serving -/

/-- A packet of a peer is served; none while it waits. -/
def servePeer (s : State) (m : PeerMsg) : Option State :=
  match m.pkt with
  | .answer => some s
  | .access kind ty pasid va size data cmp =>
    if size = 0 || va.toNat % 128 + size > 128 then some s
    else match peerXlat s m pasid va kind.need with
    | .refused => some (reply s m 144)
    | .ticket t => some t
    | .ok x => (peerAccess s m kind ty pasid x (x.to va.toNat) size data cmp).map fun t => if peerWaits s t then t else reply t m 96
  | .grab die kind pasid va stamp => match peerXlat s m pasid va (if kind = .read then needRd else needW) with
    | .refused => some (reply s m 144)
    | .ticket t => some t
    | .ok x =>
      let line := lineOf (x.to va.toNat)
      if x.mt ≠ mtTrk || !isHbm (line * 128) || grantLim s line kind then some (reply s m 96)
      else some (dirRequest s (m.agent die) line kind stamp 0)
  | .writeback die line data pois => (peerWriteback s (m.agent die) line data pois).map fun s => reply s m 96
  | .invalidated die line data => peerInvalidated s (m.agent die) line data
  | .forwarded die line data pois => peerForwarded s (m.agent die) line data pois
  | .invalidate die pick => homeInvalidate s m die.val pick
  | .forward die pick => some (homeForward s m die.val pick)
  | .arrive bar count => some (podPeer s m bar.val count.toNat)
  | .podSet bar expect pasid free => some (reply (if s.pkg.val ≠ 0 then s else (match pasid with
      | some p => podGive s bar.val p (Nat.max 1 expect.toNat)
      | none => podTake s bar.val free).getD s) m 145)
  | .pod bar phase pasid => some (podHear s m bar.val phase pasid)
  | .acked die pick => some (homeAcked s m die.val pick)
  | .nib core ni trace store agent off size data => some (peerNib s m core ni.val trace store agent off size data)
/-- An access that waits for the host's copy, or for what agents of a third device hold, makes the home ask for the line. -/
def peerBegin (s : State) (m : PeerMsg) : State :=
  match m.pkt with
  | .access kind _ pasid va _ _ _ => match peerXlat s m pasid va kind.need with
    | .ok x =>
      let line := lineOf (x.to va.toNat)
      let write := kind == .store || kind.rmw
      if !isHbm (x.to va.toNat) then s
      else if snoopNeeded s line write then s.modDie (homeDie (line * 128)) fun k => { k with bisnp := setAdd k.bisnp line }
      else if x.mt = mtTrk then homeAsk s line write else s
    | .refused | .ticket _ => s
  | _ => s
/-- Serves the waiting packets in the order of their arrival; one that still waits keeps back the later ones of its source (R414). -/
def servePeers (s : State) : State :=
  (s.peerQ.foldl (fun (x : State × List (BitVec 16)) m =>
    if x.2.contains m.src then x
    else match servePeer x.1 m with
      | some t => ({ t with peerQ := t.peerQ.erase m }, x.2)
      | none => (peerBegin x.1 m, m.src :: x.2)) (s, [])).1

/-- HELD_WRITE_RELEASE (R247): the writes of a die that LTLIM has reached, and those of other devices. -/
def execHeldWriteRelease (die : Nat) (s : State) : Out :=
  let lines := ((s.die die).waits.filter fun w => limReached s w.hold).map (·.line)
  .next (servePeers (lines.foldl (fun s l => serveWaits s die l (limReached s)) s))

end Sys2Proof.Machine
end

