-- ==== Sys2Proof/Machine/Links.lean ====
section
/-! DEFINITION. The events of the pod links: flits, end-to-end delivery, retraining, and the loss of a link (21 R412-R419,
26 R459). -/

namespace Sys2Proof.Machine

/-! ### Changes of a port's state (R409, R414, R416) -/

/-- The source number of a port (R33). -/
def portSource (s : State) (p : Nat) : BitVec 16 := unitSource s (p / 4) (160 + p % 4)
def LinkSt.code : LinkSt → Nat
  | .down => 0
  | .up => 1
  | .training => 2
/-- The origin sends every unacknowledged flit of a stream again, in ESEQ order (R414). -/
def resend (s : State) (x : StreamSt) : State := x.unack.foldl (fun s f => sendRouted s f.2) s
/-- Streams whose route has changed between two states send again (R414, R416). -/
def reroute (old s : State) : State :=
  s.streams.foldl (fun t x =>
    if x.send && routeTo old x.id.dpkg.toNat x.id.src.toNat != routeTo s x.id.dpkg.toNat x.id.src.toNat then resend t x else t) s
/-- A port changes its state: the LINKEVENT message, and the streams that move to or from a detour. -/
def setLink (s : State) (p : Nat) (st : LinkSt) (f : RPort → RPort) : State :=
  let r := s.rport p
  let t := s.modPort p fun r => { f r with st := st }
  let n := t.rport p
  let t := if r.st = st then t
    else d2hOrDrop t 0x85 [(48, p), (52, st.code), (56, (n.peer.map (·.val)).getD 0), (64, r.view.toNat), (128, n.view.toNat),
      (192, s.gtc.toNat)]
  reroute s t
/-- A port that is declared down stops sending. -/
def portDown (s : State) (p : Nat) : State :=
  setLink s p .down fun r => { r with view := 0#64, peerV := none, hostV := none, nakN := 0 }
/-- A port trains; with the training's end it has its own view record (R417). -/
def portTrain (s : State) (p : Nat) (own : Option Dword) : State :=
  setLink s p .training fun r => { r with view := 0#64, own := own.getD 0#64, lock := own.isSome, peerV := none, hostV := none, nakN := 0 }

/-- A port sends its peer a control flit of a kind, in class CTRL: no packet, and no place in the retry buffer (log 108). -/
def sendCtl (s : State) (p kind : Nat) (payload : BitVec 1856) : State :=
  s.modPort p fun r => { r with ctl := some (flitSeal (flitOf (portSource s p) ((r.peer.map (·.val)).getD 0) 5 false 0#32 kind 0 payload) r.txLseq r.rxLseq) }

/-! ### Flits (R412-R414) -/

/-- What a peer answers for some bytes: their value, and whether one is poisoned. -/
def peerValueOf (s : State) (va n : Nat) : Nat × Bool :=
  let bs := peerBytes s va n
  (leNat (bs.map (·.1)), bs.any (·.2))
/-- The lanes of an atomic at a peer, consecutively in ascending order: the first at a place finds what the peer holds, and each later one
what the one before has left (R213, R219); `m` keeps the places met. -/
def peerLanes (s : State) (a : Access) : List LaneAcc → List (Nat × Nat) → List RegWrite
  | [], _ => []
  | l :: t, m =>
    let va := l.va.toNat
    let (v, p) := peerValueOf s va l.size
    let old := ((m.find? (·.1 == va)).map (·.2)).getD v
    rmwFetch a.kind a.ty old p l ++ peerLanes s a t ((va, (rmwNew a.kind a.ty old l).getD old) :: m.filter (·.1 != va))
/-- What a peer answers to an access: the values that it reads (log 1). -/
def peerWrites (s : State) (a : Access) : List RegWrite :=
  if a.kind.rmw then peerLanes s a a.lanes []
  else if a.kind.rd then a.lanes.map fun l => let r := peerValueOf s l.va.toNat l.size; ⟨l.dest, a.ty, r.1, r.2⟩
  else []
/-- The lanes of a store that a nib there refuses (R208, R339; log 1). -/
def peerRefused (s : State) (a : Access) (mt : Fin 6) : Mask :=
  if mt = mtNibw && a.kind == .store && Config.peerRefuses s.tick then a.mask &&& maskOf fun l => Config.peerBad s.tick l else 0#32
/-- A refused store is kept for NIB_REFUSED (R208). -/
def keepRefused (s : State) (r : Remote) (bad : Mask) : State :=
  match r.acc.path with
  | .lsu w => if bad = 0#32 then s else s.modWarp r.core w fun x => { x with nibRef := some ((x.nibRef.getD 0#32) ||| bad) }
  | _ => s
/-- The access is a twin secondary's, which waits for its primary's data (R423). -/
def secondaries (s : State) (r : Remote) : Bool := ((twinOf s r.acc.pasid r.core).map (·.second)).getD false
/-- An access is no longer at a peer. -/
def dropRemote (s : State) (r : Remote) : State := { s with remotes := s.remotes.filter (·.index != r.index) }
/-- Its warp's record of it goes with it. -/
def dropOut (s : State) (r : Remote) : State :=
  match r.acc.path with
  | .lsu w => (dropRemote s r).modWarp r.core w fun w => { w with out := eraseOut r.acc.id ((r.acc.lines.head?).getD 0) w.out }
  | _ => dropRemote s r
/-- What an access comes to that its peer has served: a TRK or UNT line arrives, in which this die performs it (R207, R251, R257); an
atomic has been performed at the home, which has taken the line from every die (R213, R256); any other returns free values (log 1).
None while LTLIM holds back the stamps that the line's move leaves on this device's dies (R247). -/
def remotePerf (s : State) (r : Remote) : Option Perf :=
  let a := r.acc
  let d := dieOfCore r.core
  let line := lineOf ((r.pas.head?).getD 0)
  let answer := fun (s : State) =>
    let s := if a.kind.rd then noteSee s r.core a s.writes s.writes else s
    let s := if a.kind == .store || a.kind.rmw then noteWrite (noteStore s r.core a line) r.core a none none else s
    let s := if a.kind.rmw then noteRead s r.core a (s.die d).fwc (s.die d).fwcExp else s
    Perf.done (keepRefused s r (peerRefused s a r.mt)) (peerWrites s a) 0#32 0#4
  let cached := fun (s : State) => perfPhys s r.core a r.mt r.pas
  if r.mt = mtTrk then
    if a.kind.rmw then
      if (List.range 4).any fun i => (invLim (s.die i) line).isSome then none
      else some (answer ((List.range 4).foldl (fun s i => s.modDie i (·.invalidate line)) s))
    else (peerGrant s d line (a.kind == .store)).map cached
  else if r.mt = mtUnt && !a.kind.rmw then some (cached (peerUnt s d line))
  else some (answer s)
/-- An access at a peer ends with a status (R184, R189), or is performed. -/
def endRemote (s : State) (r : Remote) (st : BitVec 4) : State :=
  match r.acc.path with
  | .lsu w =>
    if st ≠ 0#4 then (if r.acc.kind.isPrf then dropRemote s r else finishOut (dropRemote s r) r.core w r.acc [] r.acc.mask st)
    else match remotePerf (dropRemote s r) r with
      | none => s
      | some (.done s ws bad st) => if r.acc.kind.isPrf then s else finishOut s r.core w r.acc ws bad st
      | some (.hold s h) => holdAt s r.core r.acc r.mt r.pas h
      | some (.away s _) => s
  | _ => dropRemote s r
/-- A peer answers the oldest access that waits at it: with a fault ticket (R179), or with its result. A prefetch that is ticketed is
dropped (R186). -/
def peerAnswer (s : State) (dev : Nat) : State :=
  match s.remotes.find? fun r => r.dev.val == dev && !secondaries s r with
  | none => s
  | some r =>
    let k := s.core r.core
    let room := k.entries true + k.entries false < 64 && (r.acc.scr || k.entries false < 63)
    if Config.coin s.tick && r.acc.kind.isPrf then dropRemote s r
    else if Config.coin s.tick && room then
      let va := ((r.acc.lanes.head?).map (·.va)).getD 0#64
      (dropOut s r).modCore r.core fun k => { k with tickets := k.tickets ++ [⟨peerTid s dev, r.acc, va, r.acc.kind.need, .none, none⟩] }
    else endRemote s r (if 6 < (Config.peerStatus s.tick).toNat then 0#4 else Config.peerStatus s.tick)

/-- A packet is delivered: an answer ends the oldest access at its sender; any other is served, or waits (R179, R251-R256). In
class RSP a packet that is no acknowledgement, data or writeback is an answer. -/
def deliverPacket (s : State) (die : Nat) (src : BitVec 16) (cls : BitVec 3) : State :=
  let pkt := Config.peerPacket s.tick
  let response := match pkt with
    | .answer | .writeback _ _ _ _ | .invalidated _ _ _ | .forwarded _ _ _ _ | .acked _ _ | .pod _ _ _ => true
    | .access _ _ _ _ _ _ _ | .grab _ _ _ _ _ | .invalidate _ _ | .forward _ _ | .arrive _ _ | .podSet _ _ _ _ | .nib _ _ _ _ _ _ _ _ => false
  let pkt := if cls = 2#3 && !response then .answer else pkt
  match pkt with
  | .answer => peerAnswer s (src.extractLsb' 12 4).toNat
  | _ => servePeers { s with peerQ := s.peerQ ++ [⟨src, die, pkt⟩] }
/-- The destination acknowledges a stream end to end: a flit of KIND 4 to the origin, which names the last ESEQ delivered (R414; log 108). -/
def sendAck (s : State) (i : StreamId) : State :=
  let s := s.setStream { s.stream i false with since := 0 }
  let src := BitVec.ofNat 16 (s.pkg.val * 4096 + i.src.toNat % 4096)
  sendRouted s (flitOf src (i.src.toNat / 4096) 5 false (s.stream i false).eseq 4 0 (BitVec.ofNat 1856 (i.src.toNat + i.dpkg.toNat * 2 ^ 16 + i.cls.toNat * 2 ^ 20)))
/-- The destination delivers a data flit that is next in its stream, and drops any other (R414); each 64th is acknowledged; its packets are
served on the die of the port. -/
def deliver (s : State) (die : Nat) (f : BitVec 2048) : State :=
  let i : StreamId := ⟨f.extractLsb' 112 16, f.extractLsb' 108 4, f.extractLsb' 105 3⟩
  let x := s.stream i false
  if f.extractLsb' 72 32 ≠ x.eseq + 1 then s
  else
    let s := s.setStream { x with eseq := x.eseq + 1, since := x.since + 1 }
    deliverPacket (if x.since + 1 = 64 then sendAck s i else s) die i.src i.cls
/-- FLIT_RECEIVE: a flit that is intact and next on its link is taken; its LACK frees the retry buffer. A data flit for this
device is delivered, one for another is relayed on its direct link (R416). One that is not intact is dropped, and a NAK names it (R413). Views, acks
and NAKs act by their own events. -/
def execFlitReceive (port : Fin 15) (flit : BitVec 2048) (s : State) : Out :=
  let p := port.val
  let r := s.rport p
  let lseq : BitVec 12 := flit.extractLsb' 60 12
  if r.st ≠ .up then .next s
  else if !flitOk flit then .next (sendCtl s p 3 ((r.rxLseq + 1).setWidth 1856))
  else if lseq ≠ r.rxLseq + 1 then .next s
  else
    let lack : BitVec 12 := flit.extractLsb' 48 12
    let s := s.modPort p fun r => { r with rxLseq := lseq, retry := r.retry.filter fun e => 2048 ≤ (lack - e.1).toNat }
    let d := fld flit 108 4
    if fld flit 40 8 ≠ 0 then .next s
    else if d = s.pkg.val then .next (deliver s (p / 4) flit)
    else match directPort s d (fld flit 112 16) with
      | some q => .next (sendOn s q (flitPut flit 104 1 1))
      | none => .next s
/-- NAK (R413, R417): the flits from the one named are sent again, with the LACK of now; the sixteenth NAK of one flit retrains the port,
which has no view record until the training ends. A link retry is a corrected error (R456). -/
def execNak (port : Fin 15) (lseq : BitVec 12) (s : State) : Out :=
  let p := port.val
  let r := s.rport p
  if r.st ≠ .up || !r.retry.any (·.1 == lseq) then .next s
  else
    let n := if r.nakOf = lseq then r.nakN + 1 else 1
    let again := fun (e : BitVec 12 × BitVec 2048) => if (e.1 - lseq).toNat < 2048 then (e.1, flitSeal e.2 e.1 r.rxLseq) else e
    let s := reportError (s.modPort p fun r => { r with nakOf := lseq, nakN := n, retry := r.retry.map again }) 0 0x202 (portSource s p) 0 0 none
    .next (if 16 ≤ n then portTrain s p none else s)
/-- END_TO_END_ACK: the origin keeps the flits up to ESEQ no longer. -/
def execEndToEndAck (st : StreamId) (eseq : Word) (s : State) : Out :=
  if s.streams.any fun x => x.id == st && x.send then
    let x := s.stream st true
    .next (s.setStream { x with unack := x.unack.filter fun f => !seqLe f.1 eseq })
  else .next s
/-- END_TO_END_ACK_TIMER: the destination acknowledges what it has delivered. -/
def execEndToEndAckTimer (st : StreamId) (s : State) : Out :=
  if s.streams.any fun x => x.id == st && !x.send then .next (sendAck s st) else .next s
/-- END_TO_END_RESEND. -/
def execEndToEndResend (st : StreamId) (s : State) : Out := .next (resend s (s.stream st true))

/-! ### Retraining (R417, R418) -/

/-- The low half of a view record. -/
def viewRec (pod : BitVec 16) (pkg port speed lanes : Nat) : Dword :=
  BitVec.ofNat 64 (lanes + speed * 2 ^ 16 + port * 2 ^ 24 + pkg * 2 ^ 28 + pod.toNat * 2 ^ 48)
def viewCrc (v : Dword) : Dword := crc64 (leBytes 8 v.toNat)
/-- RETRAIN: training ends with this end's view record, which the port sends. -/
def execRetrain (port : Fin 15) (lanes : Byte) (speed : Fin 3) (s : State) : Out :=
  let v := viewRec s.podId s.pkg.val port.val speed.val lanes.toNat
  .next (sendCtl (portTrain s port.val (some v)) port.val 1 ((viewCrc v ++ v).setWidth 1856))
def setBits (m : Byte) : List Nat := (List.range 8).filter fun i => m.getLsbD i
/-- The width that a common lane map supplies: the largest of 8, 4 and 2; 0 for fewer than 2 lanes. -/
def viewWidth (m : Byte) : Nat :=
  let n := (setBits m).length
  if 8 ≤ n then 8 else if 4 ≤ n then 4 else if 2 ≤ n then 2 else 0
/-- The lanes used: the lowest-numbered set bits. -/
def viewLanes (m : Byte) : Byte := ((setBits m).take (viewWidth m)).foldl (fun (a : Byte) i => a ||| (1#8 <<< i)) 0#8
/-- THE AGREED VIEW of two records: lanes and speed. -/
def agreedView (own peer : Dword) : Byte × BitVec 2 :=
  let m : Byte := own.extractLsb' 0 8 &&& peer.extractLsb' 0 8
  let a : BitVec 2 := own.extractLsb' 16 2
  let b : BitVec 2 := peer.extractLsb' 16 2
  (viewLanes m, if a.toNat < b.toNat then b else a)
/-- A record that counts as arrived. -/
def viewIntact (pod : BitVec 16) (own : Dword) (r : BitVec 128) : Bool :=
  let v : Dword := r.extractLsb' 0 64
  r.extractLsb' 64 64 == viewCrc v && fld v 32 16 == 0 && fld v 18 6 == 0 && fld v 8 8 == 0 && fld v 16 2 != 3
    && v.extractLsb' 48 16 == pod && viewWidth (own.extractLsb' 0 8 &&& v.extractLsb' 0 8) != 0
def viewPending (s : State) (p : Nat) : Bool := s.assist.pend.contains (.view p)
/-- In host-assisted mode the host is asked for the view (R458, R459). -/
def askView (s : State) (p : Nat) : State :=
  let r := s.rport p
  if !assisted s 3 || viewPending s p || !assistRoom s then s
  else raiseAssist s (.view p) 0x24 [(48, p), (52, if r.peerV.isSome then 1 else 0), (64, r.own.toNat), (128, (r.peerV.getD 0#64).toNat)]
/-- LINK_VIEW: the peer's record arrives, and this end sends its view ack (R418). -/
def execLinkView (port : Fin 15) (rec : BitVec 128) (s : State) : Out :=
  let p := port.val
  let r := s.rport p
  let v : Dword := rec.extractLsb' 0 64
  if r.st ≠ .training || !viewIntact s.podId r.own rec then .next s
  else
    let s := s.modPort p fun r => { r with peerV := some v, peer := some (v.extractLsb' 28 4).toFin }
    .next (askView (sendCtl s p 2 ((viewCrc v ++ viewCrc r.own).setWidth 1856)) p)
/-- The port comes up with a view. -/
def portUp (s : State) (p : Nat) (v : Byte × BitVec 2) : State :=
  setLink s p .up fun r => { r with view := (r.own &&& ~~~0x300FF#64) ||| BitVec.ofNat 64 (v.1.toNat + v.2.toNat * 2 ^ 16) }
/-- VIEW_ACK: the peer's ack, its own record's CRC first, brings the port up when it matches this end's (R418); in host-assisted
mode with the view that the host has answered, once the peer's end has the same (R459). -/
def execViewAck (port : Fin 15) (crcs : BitVec 128) (s : State) : Out :=
  let p := port.val
  let r := s.rport p
  match r.st, r.peerV with
  | .training, some v =>
    if crcs.extractLsb' 0 64 ≠ viewCrc v || crcs.extractLsb' 64 64 ≠ viewCrc r.own then .next s
    else if viewPending s p then .next s
    else if assisted s 3 then .next (match r.hostV with | some w => portUp s p w | none => s)
    else .next (portUp s p (agreedView r.own v))
  | _, _ => .next s
/-- VIEW_TIMEOUT: 1 ms after training has ended; in host-assisted mode the host is asked with what has arrived. -/
def execViewTimeout (port : Fin 15) (s : State) : Out :=
  let p := port.val
  if (s.rport p).st ≠ .training || !(s.rport p).lock || viewPending s p then .next s
  else if assisted s 3 then .next (if (s.rport p).hostV.isSome then s else askView s p)
  else .next (portDown s p)
/-- VIEWANS (R459): the host's view, once the host of the peer names the same one (Config.coin), or down. -/
def execViewans (s : State) : Out :=
  onA2d s 0xA4 [(48, 4), (52, 1), (64, 8), (72, 2)] (fun e => fld e 48 4 < 15 && fld e 72 2 != 3) fun s e =>
    let p := fld e 48 4
    if !viewPending s p then none
    else
      let s := dropPend s (.view p)
      let v : Byte × BitVec 2 := (e.extractLsb' 64 8, e.extractLsb' 72 2)
      some (if e.getLsbD 52 then portDown s p
        else if Config.coin s.tick then portUp s p v
        else s.modPort p fun r => { r with hostV := some v })
/-- VIEW_ANSWER_TIMEOUT (R459): the port is declared down. -/
def execViewAnswerTimeout (port : Fin 15) (s : State) : Out :=
  let p := port.val
  if (s.rport p).st = .training ∧ (viewPending s p ∨ (s.rport p).hostV.isSome) then .next (portDown (dropPend s (.view p)) p) else .next s

/-! ### Loss (R416, R419) -/

/-- POD_LINK_DOWN. -/
def execPodLinkDown (port : Fin 15) (s : State) : Out :=
  if (s.rport port.val).st = .down then .next s else .next (portDown s port.val)
def sliceSource (s : State) (d line : Nat) : BitVec 16 := unitSource s d (96 + sliceOf line)
/-- DIRTY_LINE_OFFER: the line stays and is offered again while its home cannot be reached; a home that can be takes it. -/
def execDirtyLineOffer (die line : Nat) (s : State) : Out :=
  let far := lineDev s line
  if !dirtyLine (s.die die) line || far = s.pkg.val then .next s
  else if unreachable s far then .next (sliceSend (s.modDie die fun k => { k with offers := setAdd k.offers line }) die line far 2#3)
  else .next ((evictLine s die line).modDie die fun k => { k with offers := setDel k.offers line })
/-- DIRTY_LINE_DROP: the line is dropped with its data poisoned; the message names its physical address, which its home alone knows. -/
def execDirtyLineDrop (die line : Nat) (s : State) : Out :=
  if !(s.die die).offers.contains line || !unreachable s (lineDev s line) then .next s
  else .next (reportError (s.modDie die fun k => { (k.evict line).dropUnt line with offers := setDel k.offers line }) 1 0x204
    (sliceSource s die line) (Config.peerPhys line).toNat 0 none)
/-- HOME_LINE_POISON: a transaction that waits for an agent out of reach ends with the line poisoned, in I. -/
def execHomeLinePoison (line : Nat) (s : State) : Out :=
  let h := homeDie (line * 128)
  let e := (s.die h).dir line
  let waits := if e.fwd.isSome then e.owner.toList else e.sharers
  if e.st ≠ .b || !waits.any (fun a => unreachable s (a / 4)) then .next s
  else
    let s := poisonLine s line
    let s := s.modDie h (·.setDir (.idle line))
    .next (wakeLine (reportError s 1 0x205 (sliceSource s h line) (line * 128) 0 none) line)
/-- UNREACHABLE_ACCESS_TIMEOUT: the access completes with LINKLOST. -/
def execUnreachableAccessTimeout (index : Nat) (s : State) : Out :=
  match s.remotes.find? (·.index == index) with
  | none => .next s
  | some r => if unreachable s r.dev.val then .next (endRemote s r stLinklost) else .next s

end Sys2Proof.Machine
end

