-- ==== Sys2Proof/Machine/Twins.lean ====
section
/-! DEFINITION. The events of twinned partitions: digests, divergence, and the primary's data (21 R421-R424). -/

namespace Sys2Proof.Machine

/-- The oldest closed batch of an agent of a core. -/
def Twin.oldest (t : Twin) (core agent : Nat) : Option Batch := t.batches.find? fun (b : Batch) => b.core == core && b.agent == agent
def modTwin (s : State) (pasid : BitVec 20) (f : Twin → Twin) : State := { s with twins := updFirst (·.pasid == pasid) f s.twins }

/-! ### The release of a batch (R422) -/

/-- The engine that made a held write. -/
def agentEng (core : Nat) (a : Access) : Eng := ⟨core, a.path, a.pasid, a.scr, a.id, a.pc, none⟩
/-- A held write of a warp goes out: it is performed, or waits elsewhere as any store does. -/
def sendHeld (s : State) (core slot : Nat) (a : Access) (x : Xlat) : State :=
  let a := { a with op := none }
  let pas := a.lanes.map fun l => x.to l.va.toNat
  let wait := fun (s : State) n => s.modWarp core slot (·.addOut (outOf s core slot a (some x)) n)
  match (match x.home with
    | some d => perfPeer s core a x.mt pas d
    | none => perfPhys s core a x.mt pas) with
  | .done s _ bad st => finishLsu s core slot a [] bad st
  | .hold s h => wait (holdAt s core a x.mt pas h) 1
  | .away s n => wait s n
/-- A held write of an engine, with its poison. -/
def engHeld (s : State) (core : Nat) (a : Access) (l : LaneAcc) (x : Xlat) : ER Unit :=
  writePiece s (agentEng core a) l.size ⟨x, l.va.toNat, l.size⟩ ((leBytes l.size l.data).map fun b => (b, l.cmp == 1))
/-- A held write of an engine that its target turns away fails its work as any write of it does: the record of a channel that is still in
progress ends with the status, and the slice halts (R189, R292, R422). -/
def heldFail (s : State) (core : Nat) (a : Access) (st : Byte) : State :=
  match a.path with
  | .cpy ch =>
    if a.id / cpGen = (s.chan core ch).gen then
      s.modChan core ch fun c => { c with cur := c.cur.map fun r => if r.status = stOk then { r with status := st } else r }
    else s
  | .ace g => s.modWg core g fun g => { g with sliceSt := .halted, stq := none, ldq := none }
  | _ => s
/-- THE PRIMARY PERFORMS the writes of a batch, in order, each with the translation that it was given (R197); the first that cannot be
performed now keeps the rest back. -/
def releaseHeld (core agent : Nat) : List Defer → State → State × List Defer
  | [], s => (s, [])
  | d :: t, s =>
    match d.acc.lanes.head?, d.xl with
    | some l, some x =>
      if agent < 32 then releaseHeld core agent t (sendHeld s core agent d.acc x)
      else match engHeld s core d.acc l x with
        | .ok s _ => releaseHeld core agent t s
        | .wait s => (s, d :: t)
        | .fail s st => releaseHeld core agent t (heldFail s core d.acc st)
    | _, _ => releaseHeld core agent t s
/-- A batch is released: the accesses of its core's warps that waited for it, or for its place, go on. -/
def batchDone (s : State) (pasid : BitVec 20) (b : Batch) : State :=
  let s := modTwin s pasid fun t => { t with batches := t.batches.erase b }
  (List.range 32).foldl (fun s i => if (s.warp? b.core i).isSome then settle (drain s b.core i) b.core i else s) s

/-! ### The halt of a partition (R424) -/

/-- The scribe warp of a core has TWIN_DIVERGENCE to serve: every warp of the partition there waits for it, as for a cause that escalates
(R62, R388). -/
def divergence (s : State) (core : Nat) (pasid : BitVec 20) : State :=
  s.modCore core fun k => { k with warps := k.warps.map fun (x : Option Warp) => x.map fun w =>
    if w.pasid == pasid && w.wg.isSome then
      let (pc, pos) := w.here
      { w with escal := some ⟨cTwin, 0#32, pc, pos, 0#64, 0#32, 0#4, false⟩ }
    else w }
/-- A partition halts, on its quads: its warps stop, its buffers and open batches go, its tasks fail with KILLED, and the host is told. Of
a mismatch (`kind` 0) the scribe warp of the core that compared has the cause; of a lost partner no core has (log 118). -/
def haltTwin (s : State) (t : Twin) (kind core agent batch : Nat) : State :=
  let inPart := fun (c : Nat) => t.quads.getLsbD (c / 4)
  let add := fun (l : List (Nat × Nat × Nat)) (g : Wg) =>
    if g.pasid == t.pasid && !l.contains (g.die, g.graph, g.node) then l ++ [(g.die, g.graph, g.node)] else l
  let tasks := ((List.range 384).filter inPart).foldl (fun l c => (s.core c).wgs.foldl add l) []
  let tasks := (s.images.filter fun (i : Image) => inPart i.core).foldl (fun l i => add l i.wg) tasks
  let s := tasks.foldl (fun s x => endTask s x.1 x.2.1 x.2.2 8) s
  let s := if kind = 0 then divergence s core t.pasid else s
  let s := modTwin s t.pasid fun t => { t with batches := [] }
  let stop := fun (c : Nat) (k : Core) => if inPart c && k.wgs.any (·.pasid == t.pasid) then { k with
      warps := k.warps.map fun (x : Option Warp) => x.map fun w => if w.pasid == t.pasid && w.wg.isSome then { w with twin := [], held := [] } else w
      chans := k.chans.map fun (c : Chan) => if (c.wg.bind k.wg?).any (·.pasid == t.pasid) then { c with tw := ⟨[], [], c.tw.batch⟩ } else c
      wgs := k.wgs.map fun (g : Wg) => if g.pasid == t.pasid then { g with tw := ⟨[], [], g.tw.batch⟩ } else g } else k
  let s := { s with cores := Vector.ofFn fun i => stop i.val s.cores[i] }
  if d2hRoom s 1 then d2hRaise s 0x86 [(48, kind), (52, t.pasid.toNat), (72, t.partner.val), (80, (coreSource s core).toNat), (96, agent),
    (128, batch % 2 ^ 32), (160, s.gtc.toNat)] else s

/-! ### The events -/

/-- DIGEST_RECEIVE: `agent` is 64 × core + agent number; a digest waits until this twin has closed the batch. -/
def execDigestReceive (pasid : BitVec 20) (agent batch : Nat) (digest : Dword) (s : State) : Out :=
  let core := agent / 64
  let n := agent % 64
  match s.twins.find? (·.pasid == pasid) with
  | none => .next s
  | some t => match t.oldest core n with
    | none => .next s
    | some b =>
      if b.index ≠ batch then .next s
      else if b.digest ≠ digest then .next (haltTwin s t 0 core n batch)
      else if t.second then .next (batchDone s pasid b)
      else match releaseHeld core n b.writes s with
        | (s, []) => .next (batchDone s pasid b)
        | (s, rest) => .next (modTwin s pasid fun t => { t with batches := t.batches.map fun (x : Batch) => if x = b then { x with writes := rest } else x })
/-- PARTNER_LOST_TIMEOUT: a batch has waited 10 ms for its digest. -/
def execPartnerLostTimeout (pasid : BitVec 20) (s : State) : Out :=
  match s.twins.find? (·.pasid == pasid) with
  | none => .next s
  | some t => match t.batches with
    | [] => .next s
    | b :: _ => .next (haltTwin s t 1 b.core b.agent b.index)

/-- The values of the primary's data, lane by lane, and under ATOMR lane by lane of each group. -/
def dataWrites (ty : Ty) : List LaneAcc → List Byte → List RegWrite
  | [], _ => []
  | l :: t, bs =>
    let ds := if l.grp.isEmpty then [l.dest] else l.grp.map (·.2.2)
    (ds.zip (List.range ds.length)).map (fun d => ⟨d.1, ty, leNat ((bs.drop (l.size * d.2)).take l.size), false⟩)
      ++ dataWrites ty t (bs.drop (l.size * ds.length))
/-- OUTSIDE_READ_DATA (R423): the secondary's access ends with the primary's data. -/
def execOutsideReadData (index : Nat) (data : List Byte) (s : State) : Out :=
  match s.remotes.find? fun r => r.index == index && secondaries s r with
  | none => .next s
  | some r =>
    let a := r.acc
    let n := a.lanes.foldl (fun n l => n + l.size * Nat.max 1 l.grp.length) 0
    if (a.kind.rd || a.kind == .row) && data.length ≠ n then .next s
    else match a.path with
      | .lsu w =>
        .next (finishOut (dropRemote s r) r.core w a (if a.kind.rd then dataWrites a.ty a.lanes data else []) 0#32 0#4)
      | p => .next ((dropRemote s r).modCore r.core fun k => { k with engGot := k.engGot ++ [⟨p, (r.pas.head?).getD 0, data.map fun b => (b, false)⟩] })

end Sys2Proof.Machine
end

