-- ==== Sys2Proof/Machine/Device.lean ====
section
/-! DEFINITION. Bring-up, power, attestation, errors, and the mapping requests of system software (08 R199, R336, 26 R449-R457,
R461). -/

namespace Sys2Proof.Machine

/-! ### Bring-up (R451-R453) -/

/-- The parts of a firmware image (R452). -/
def imgHeader (b : List Byte) : Nat := leNat (b.take 64)
def imgField (b : List Byte) (lo n : Nat) : Nat := imgHeader b / 2 ^ lo % 2 ^ n
def imgLength (b : List Byte) : Nat := imgField b 64 32
def imgSvn (b : List Byte) : Nat := imgField b 112 16
/-- THE CHECK of a firmware image under the fused key hash and rollback counter (R452, R453). -/
def firmwareOk (key : BitVec 512) (roll : BitVec 16) (b : List Byte) : Bool :=
  let n := 64 + imgLength b
  let modulus := (b.drop n).take 512
  let sig := (b.drop (n + 512)).take 512
  imgField b 0 32 == 0x47583346 && imgField b 96 16 == 0 && imgField b 128 384 == 0 && roll.toNat ≤ imgSvn b
    && rsaVerify modulus sig (sha512 (b.take n)) && leNat (sha512 modulus) == key.toNat
/-- HPCAP after the host port has trained (R403). -/
def resetHpcap (r : ResetIn) (cxl : Bool) : Dword :=
  BitVec.ofNat 64 ((if cxl then 1 else 0) + (if r.atsEn then 2 ^ 5 else 0) + (if r.priEn then 2 ^ 6 else 0)
    + (if r.pasidEn then 2 ^ 7 else 0) + r.width.val * 2 ^ 8 + r.speed.val * 2 ^ 10 + 2 ^ 15 + r.priCred.toNat * 2 ^ 16)
/-- What a reset keeps: the fuses, the flash, the boot ROM, the host's memory, what the environment does next. -/
def resetKeep (s : State) : State :=
  { State.reset with tick := s.tick, agenda := s.agenda, fuses := s.fuses, hostMem := s.hostMem, sens := s.sens, sensB := s.sensB }
/-- Step 7 of bring-up: a port trains, and comes up with the view that both ends agree on, or is declared down (R417, R418). -/
def bootPort (s : State) (x : Fin 15 × Byte × Fin 3 × BitVec 128) : State :=
  let (p, lanes, speed, rec) := x
  let v := viewRec s.podId s.pkg.val p.val speed.val lanes.toNat
  let s := sendCtl (portTrain s p.val (some v)) p.val 1 ((viewCrc v ++ v).setWidth 1856)
  let w : Dword := rec.extractLsb' 0 64
  if !viewIntact s.podId v rec then portDown s p.val
  else
    let s := sendCtl (s.modPort p.val fun r => { r with peerV := some w, peer := some (w.extractLsb' 28 4).toFin }) p.val 2 ((viewCrc w ++ viewCrc v).setWidth 1856)
    portUp s p.val (agreedView v w)
/-- No warp of some cores. -/
def noWarps (s : State) (p : Nat → Bool) : State :=
  { s with cores := Vector.ofFn fun i => if p i.val then { s.cores[i] with warps := Vector.replicate 32 none } else s.cores[i] }
/-- RESET (R451): an image that the host has left in the 64-MiB load window of a device in recovery replaces the one in the flash; a
refused image ends bring-up in recovery. The pod's ports train before the device runs. -/
def execReset (r : ResetIn) (s : State) : Out :=
  if r.width = 3 || r.speed = 3 then .next s
  else
    let flash := match s.boot, r.image with
      | .recovery, some b => if b.length ≤ 0x4000000 then b else s.fuses.flash
      | _, _ => s.fuses.flash
    let t := resetKeep { s with fuses := { s.fuses with flash := flash } }
    if firmwareOk s.fuses.key s.fuses.roll flash then
      let t := { t with
        fuses := { t.fuses with roll := BitVec.ofNat 16 (Nat.max s.fuses.roll.toNat (imgSvn flash)) }
        port := { t.port with hpcap := resetHpcap r r.cxl } }
      let t := match r.pod with
        | some (pod, pkg, clock) => { t with podId := pod, pkg := pkg, gtc := clock }
        | none => t
      .next (noWarps (r.links.foldl bootPort t) t.fuses.off.contains)
    else .next (noWarps { t with boot := .recovery, port := { t.port with hpcap := resetHpcap r false } } fun _ => true)

/-! ### Power and sensors (R449, R450, R455) -/

/-- The budget of every core of a die, from the next governor window on (R449). -/
def setGovb (s : State) (die : Nat) (f : Core → BitVec 9) : State :=
  ((List.range 96).map (· + 96 * die)).foldl (fun s c => s.modCore c fun k => { k with govB := f k }) s
/-- GOVB_DECREASE: by 16, never below 32. -/
def execGovbDecrease (die : Fin 4) (s : State) : Out :=
  .next (setGovb s die.val fun k => BitVec.ofNat 9 (Nat.max 32 (k.govB.toNat - 16)))
/-- GOVB_INCREASE: by 16, never above the platform maximum. -/
def execGovbIncrease (die : Fin 4) (s : State) : Out :=
  .next (setGovb s die.val fun k => BitVec.ofNat 9 (Nat.min k.govPlat.toNat (k.govB.toNat + 16)))
/-- THERMAL_TRIP: a fatal error, detected by the management controller; hardware removes VCORE of every die, and nothing of a die acts
until a reset (R450; `runEvent`, `warpsRun`). -/
def execThermalTrip (die : Fin 4) (s : State) : Out := .next { reportError s 2 0x301 (unitSource s 0 177) 0 die.val none with boot := .off }
/-- SENSOR_REFRESH: the readings, and B of each die, which is equal on its cores (R449, R455). -/
def execSensorRefresh (r : Reading) (s : State) : Out :=
  .next { s with sens := r, sensB := Vector.ofFn fun d => (s.core (96 * d.val)).govB }

/-! ### SPDM (R454; the message layout is that of SPDM 1.3, log 24) -/

def spdmMsg (s : State) (code p1 p2 : Nat) (body : List Byte) : State :=
  { s with spdm := { s.spdm with out := [0x13#8, BitVec.ofNat 8 code, BitVec.ofNat 8 p1, BitVec.ofNat 8 p2] ++ body } }
def spdmErr (s : State) (code : Nat) : State := spdmMsg s 0x7F code 0 []
/-- Bytes of a response that the spec leaves open: nonces, signatures, sizes. -/
def spdmFree (s : State) (n : Nat) : List Byte := (List.range n).map (Config.spdmBytes s.tick)
/-- GET_VERSION: the one version is 1.3. -/
def execGetVersion (s : State) : Out :=
  .next (let s := { s with spdm := ⟨true, false, false, []⟩ }
    { s with spdm := { s.spdm with out := [0x10#8, 0x04#8, 0#8, 0#8, 0#8, 1#8] ++ leBytes 2 0x1300 } })
/-- GET_CAPABILITIES: certificates, challenges, and measurements with signatures. -/
def execGetCapabilities (s : State) : Out :=
  if !s.spdm.version then .next (spdmErr s 4)
  else .next (spdmMsg { s with spdm := { s.spdm with caps := true } } 0x61 0 0
    ([0#8] ++ spdmFree s 1 ++ [0#8, 0#8] ++ leBytes 4 0x16 ++ spdmFree s 8))
/-- NEGOTIATE_ALGORITHMS: RSASSA-4096 and SHA-512 are the only ones offered. -/
def execNegotiateAlgorithms (asym hash : Word) (s : State) : Out :=
  if !s.spdm.caps then .next (spdmErr s 4)
  else
    let a := asym.getLsbD 5
    let h := hash.getLsbD 2
    .next (spdmMsg { s with spdm := { s.spdm with algs := a && h } } 0x63 0 0
      (leBytes 2 36 ++ [1#8, 0#8] ++ leBytes 4 (if h then 8 else 0) ++ leBytes 4 (if a then 0x20 else 0) ++ leBytes 4 (if h then 4 else 0)
        ++ List.replicate 16 0#8))
/-- The certificate chain of slot 0 and its digest. -/
def certBytes : List Byte := (List.range Config.certLen).map Config.certChain
/-- GET_DIGESTS: slot 0 only. -/
def execGetDigests (s : State) : Out := .next (if !s.spdm.algs then spdmErr s 4 else spdmMsg s 0x01 0 1 (sha512 certBytes))
/-- GET_CERTIFICATE: a portion of the chain, and what remains after it. -/
def execGetCertificate (slot : Fin 8) (offset length : BitVec 16) (s : State) : Out :=
  if !s.spdm.algs then .next (spdmErr s 4)
  else if slot ≠ 0 || Config.certLen ≤ offset.toNat then .next (spdmErr s 1)
  else
    let p := (certBytes.drop offset.toNat).take length.toNat
    .next (spdmMsg s 0x02 0 0 (leBytes 2 p.length ++ leBytes 2 (Config.certLen - offset.toNat - p.length) ++ p))
/-- CHALLENGE: the digest, a nonce, no measurement summary, and a signature. -/
def execChallenge (slot : Fin 8) (_nonce : BitVec 256) (s : State) : Out :=
  if !s.spdm.algs then .next (spdmErr s 4)
  else if slot ≠ 0 then .next (spdmErr s 1)
  else .next (spdmMsg s 0x03 0 1 (sha512 certBytes ++ spdmFree s 32 ++ [0#8, 0#8] ++ (spdmFree s 544).drop 32))
/-- THE FUSE MAP, as the device capability registers give it to system software (R2) and measurement 3 holds it (R454). The spec gives the map
no width, bit order or polarity: 48 bytes, little-endian, with bit g set when core g is fused off, are the model's choice (log 106). -/
def fuseMap (s : State) : List Byte := leBytes 48 ((s.fuses.off.foldl (fun (m : BitVec 384) c => m ||| (1#384 <<< c)) 0#384).toNat)
/-- The value of a measurement; a device in recovery has accepted no image, and the spec states no measurement of one (log 110). -/
def measurement (s : State) : Nat → List Byte
  | 1 => sha512 s.fuses.rom
  | 2 => if s.boot == .recovery then spdmFree s 64 else sha512 s.fuses.flash
  | 3 => fuseMap s ++ leBytes 64 s.fuses.key.toNat ++ leBytes 2 s.fuses.roll.toNat
  | _ => s.modes.toList.map fun m => if m.host then 1#8 else 0#8
/-- A measurement block: index, kind, size, value. -/
def measureBlock (s : State) (i : Nat) : List Byte :=
  let v := measurement s i
  [BitVec.ofNat 8 i, 1#8] ++ leBytes 2 (v.length + 3) ++ [BitVec.ofNat 8 (i - 1 + (if i < 3 then 0 else 128))] ++ leBytes 2 v.length ++ v
/-- GET_MEASUREMENTS: index 0 asks for their number, 255 for all. -/
def execGetMeasurements (index : Byte) (s : State) : Out :=
  if !s.spdm.algs then .next (spdmErr s 4)
  else
    let put := fun (l : List Nat) =>
      let b := l.foldl (fun b i => b ++ measureBlock s i) []
      spdmMsg s 0x60 0 0 ([BitVec.ofNat 8 l.length] ++ leBytes 3 b.length ++ b ++ spdmFree s 32 ++ [0#8, 0#8] ++ (spdmFree s 544).drop 32)
    match index.toNat with
    | 0 => .next (spdmMsg s 0x60 4 0 ([0#8, 0#8, 0#8, 0#8] ++ spdmFree s 32 ++ [0#8, 0#8]))
    | 255 => .next (put [1, 2, 3, 4])
    | i => .next (if i ≤ 4 then put [i] else spdmErr s 1)
/-- The codes of the seven requests that the device supports, which are events of their own (R454). -/
def spdmSupported : List Byte := [0x81#8, 0x82#8, 0x83#8, 0x84#8, 0xE0#8, 0xE1#8, 0xE3#8]
/-- SPDM_UNSUPPORTED_REQUEST: ERROR UnsupportedRequest, with the request's code; a supported code is no such request. -/
def execSpdmUnsupportedRequest (code : Byte) (s : State) : Out :=
  .next (if spdmSupported.contains code then s else spdmMsg s 0x7F 7 code.toNat [])

/-! ### Errors (R85, R456, R457) -/

/-- ERRSTAT_READ: the read returns the log's state and clears CONT. -/
def execErrstatRead (s : State) : Out := .next { s with errs := { s.errs with cont := false } }
/-- The free bytes of a destroyed granule (R85). -/
def lostBytes (s : State) (n : Nat) : List Byte := (List.range n).map fun i => (Config.poisonBits s.tick (i / 4)).extractLsb' (8 * (i % 4)) 8
/-- A granule is poisoned, and its data is lost. A die that owns a line, or is its home, holds the line's data; a read-only copy is poisoned
alone, with its data bits as they stand (log 10). -/
def destroy (s : State) : Granule → State
  | .mem pa => { s with hbm := wrBytes s.hbm (pa / 64 * 64) (lostBytes s 64), hbmPois := setAdd s.hbmPois (pa / 64) }
  | .l1 c line up => s.modCore c fun k => { k with l1 := k.l1.map fun e =>
      if e.pline == line then { e with data := dataPut e.data (if up then 64 else 0) 64 (leNat (lostBytes s 64))
                                       pois := e.pois ||| (if up then 2#2 else 1#2) } else e }
  | .ob c u => s.modCore c fun k => { k with ob := wrBytes k.ob (64 * u) (lostBytes s 64), obPois := setAdd k.obPois u }
  | .acc c e => s.modCore c fun k => { k with acc := tabSet 0#32 k.acc e (Config.poisonBits s.tick 0), accPois := setAdd k.accPois e }
  | .vreg c i => s.modCore c (·.rfPut i (Config.poisonBits s.tick 0) true)
  | .sreg c w n => s.modWarp c w (·.sput n.val (Config.poisonBits s.tick 1 ++ Config.poisonBits s.tick 0) true)
  | .spad c u => s.modCore c fun k => { k with spad := wrBytes k.spad (64 * u) (lostBytes s 64), spadPois := setAdd k.spadPois u }
  | .l2 d line up =>
    let bit : BitVec 2 := if up then 2#2 else 1#2
    match (s.die d.val).unt? line, (s.die d.val).tag? line with
    | some u, _ => s.modDie d.val (·.setUnt { u with data := dataPut u.data (if up then 64 else 0) 64 (leNat (lostBytes s 64)), pois := u.pois ||| bit })
    | none, some t =>
      if t.st = .shared then s.modDie d.val (·.setTag { t with pois := t.pois ||| bit })
      else ({ s with hbm := wrBytes s.hbm (line * 128 + (if up then 64 else 0)) (lostBytes s 64) }).soil line bit
    | none, none => s
/-- The physical address of a line; one of another device is known at its home alone (R179). -/
def physOf (line : Nat) : Nat := if (peerHome line).isSome then (Config.peerPhys line).toNat else line * 128
/-- Who detects the loss of a granule: the stack's controller, or the core. -/
def granuleSource (s : State) : Granule → BitVec 16
  | .mem pa => unitSource s (homeDie pa) (128 + pa / 0x1000000000 % 3)
  | .l2 d line _ => unitSource s d.val (96 + sliceOf line)
  | .l1 c _ _ | .ob c _ | .acc c _ | .vreg c _ | .sreg c _ _ | .spad c _ => coreSource s c
/-- The workgroup whose data a granule of a core holds. -/
def granuleWg (s : State) : Granule → Option Wg
  | .mem _ | .l1 _ _ _ | .l2 _ _ _ => none
  | .ob c u => (s.core c).wgs.find? fun g => g.obBase * 2048 ≤ 64 * u && 64 * u < (g.obBase + g.obLen) * 2048
  | .acc c e => (s.core c).wgs.find? fun g => g.accBase * 8192 ≤ e && e < (g.accBase + g.accN) * 8192
  | .vreg c i => (s.core c).warps.toList.findSome? fun w => w.bind fun w => if w.base ≤ i / 32 ∧ i / 32 < w.base + w.n then (s.core c).wgOf w else none
  | .sreg c w _ => (s.warp? c w).bind (s.core c).wgOf
  | .spad c u => (s.core c).wgs.find? fun g => g.spadBase * 512 ≤ 64 * u && 64 * u < (g.spadBase + g.spadRows) * 512
/-- A granule that the machine has; of an L2, one that holds the line. -/
def granuleOk (s : State) : Granule → Bool
  | .mem pa => isHbm pa
  | .l1 c _ _ => c < 384
  | .ob c u => c < 384 && u < 0x80000 / 64
  | .acc c e => c < 384 && e < 24 * 8192
  | .vreg c i => c < 384 && i < 4096 * 32
  | .sreg c w _ => c < 384 && w < 32
  | .spad c u => c < 384 && u < 0x40000 / 64
  | .l2 d line _ => ((s.die d.val).unt? line).isSome || ((s.die d.val).tag? line).isSome
/-- UNCORRECTABLE_SOFT_ERROR. -/
def execUncorrectableSoftError (g : Granule) (s : State) : Out :=
  if !granuleOk s g then .next s
  else
    let addr := match g with | .mem pa => pa / 64 * 64 | .l1 _ l _ | .l2 _ l _ => physOf l | .ob _ _ | .acc _ _ | .vreg _ _ | .sreg _ _ _ | .spad _ _ => 0
    .next (reportError (destroy s g) 1 0x203 (granuleSource s g) addr 0 ((granuleWg s g).map fun w => (w.die, w.graph, w.node)))
/-- A source number that R33 assigns to an agent of this device. -/
def sourceOk (s : State) (src : BitVec 16) : Bool :=
  let u := (src.extractLsb' 0 10).toNat
  let d := (src.extractLsb' 10 2).toNat
  (src.extractLsb' 12 4).toNat == s.pkg.val && (u < 131 || (144 ≤ u && u < 147) || (160 ≤ u && u < (if d = 3 then 163 else 164))
    || ((u == 176 || u == 177) && d == 0) || (192 ≤ u && u < 196))
/-- SINGLE_BIT_ECC_REPAIR: logged only; it is detected by an agent of this device. -/
def execSingleBitEccRepair (source : BitVec 16) (pa : Nat) (s : State) : Out :=
  .next (if sourceOk s source then reportError s 0 0x201 source pa 0 none else s)
/-- DIE_TO_DIE_RING_FAILURE. -/
def execDieToDieRingFailure (s : State) : Out := .next (reportError s 2 0x302 (unitSource s 0 192) 0 0 none)
/-- DIRECTORY_UNCORRECTABLE_ERROR. -/
def execDirectoryUncorrectableError (die : Fin 4) (s : State) : Out := .next (reportError s 2 0x303 (unitSource s die.val 96) 0 0 none)

/-! ### Mapping requests (R197, R199, R336, R461) -/

/-- A leaf of some tables: the address of its entry, its level, the entry. -/
structure Leaf where
  addr : Nat
  lv   : Nat
  e    : Dword
deriving DecidableEq, Repr
/-- The leaves below a table of level `lv`. -/
def leavesAt (s : State) : Nat → Nat → List Leaf
  | lv, tab =>
    (List.range (if lv = 0 then 32 else 512)).foldl (fun l i =>
      let a := tab + 8 * i
      let e := s.hbm64 a
      if e.extractLsb' 0 2 = 2#2 then l ++ [⟨a, lv, e⟩]
      else if e.extractLsb' 0 2 = 1#2 then match lv with
        | 0 => l
        | m + 1 => l ++ leavesAt s m ((e.extractLsb' 8 44).toNat * 256)
      else l) []
/-- The leaves of the contexts that satisfy `p`. -/
def leavesOf (s : State) (p : Root → Bool) : List Leaf := ((s.die 0).roots.filter p).foldl (fun l r => l ++ leavesAt s 4 r.root) []
def allLeaves (s : State) : List Leaf := leavesOf s fun _ => true
def Leaf.pa (l : Leaf) : Nat := (l.e.extractLsb' 16 36).toNat * 65536
def Leaf.size (l : Leaf) : Nat := 2 ^ levelShift l.lv
def Leaf.mt (l : Leaf) : Nat := (l.e.extractLsb' 13 3).toNat
/-- It maps memory of this device. -/
def Leaf.own (s : State) (l : Leaf) : Bool := !l.e.getLsbD 59 || (l.e.extractLsb' 60 4).toNat == s.pkg.val
def Leaf.meets (a b : Leaf) : Bool := a.pa < b.pa + b.size && b.pa < a.pa + a.size
/-- Another context maps a page of the leaf TRK where it maps it UNT, or the reverse (R199). -/
def mixedType (s : State) (pasid : BitVec 20) (x : Leaf) : Bool :=
  x.own s && x.mt < 2 && (leavesOf s (·.pasid != pasid)).any fun y => y.own s && y.mt < 2 && y.mt != x.mt && y.meets x
/-- The leaf of an address of a PASID. -/
def leafOf (s : State) (pasid : BitVec 20) (va : Nat) : Nat → Nat → Option Leaf
  | lv, tab =>
    let a := tab + 8 * levelIndex lv va
    let e := s.hbm64 a
    if e.extractLsb' 0 2 = 2#2 then some ⟨a, lv, e⟩
    else if e.extractLsb' 0 2 = 1#2 then match lv with
      | 0 => none
      | m + 1 => leafOf s pasid va m ((e.extractLsb' 8 44).toNat * 256)
    else none
/-- The leaves that the entry of an address at level `low` holds or leads to, and a leaf above it. -/
def leavesIn (s : State) (low va : Nat) : Nat → Nat → List Leaf
  | lv, tab =>
    let a := tab + 8 * levelIndex lv va
    let e := s.hbm64 a
    if e.extractLsb' 0 2 = 2#2 then [⟨a, lv, e⟩]
    else if e.extractLsb' 0 2 = 1#2 then match lv with
      | 0 => []
      | m + 1 =>
        let t := (e.extractLsb' 8 44).toNat * 256
        if lv ≤ low then leavesAt s m t else leavesIn s low va m t
    else []
def rootLeaves (s : State) (pasid : BitVec 20) (va low : Nat) : List Leaf :=
  (((s.die 0).roots.find? (·.pasid == pasid)).map fun r => leavesIn s low va 4 r.root).getD []
def rootLeaf (s : State) (pasid : BitVec 20) (va : Nat) : Option Leaf :=
  ((s.die 0).roots.find? (·.pasid == pasid)).bind fun r => leafOf s pasid va 4 r.root
/-- The frame of a leaf anchors a bound window (R336), so no request may change it. -/
def anchors (s : State) (l : Leaf) : Bool :=
  l.own s && s.dies.toList.any fun (k : Die) => k.windows.any fun w => w.1 < l.pa + l.size && l.pa < w.1 + w.2.1
/-- A page hold keeps a page resident (R183). -/
def pageHeld (s : State) (pasid : BitVec 20) (va size : Nat) : Bool :=
  s.dies.toList.any fun (k : Die) => k.own.any fun r => r.phase == .noticed && r.pasid == pasid && va ≤ r.va.toNat && r.va.toNat < va + size
/-- The same, or an access waits under a translation of the range (R197). -/
def pageBusy (s : State) (pasid : BitVec 20) (va size : Nat) : Bool :=
  pageHeld s pasid va size || xlatKept s none fun x => x.pasid == pasid && x.meets va size
/-- Every translation of a range of a PASID goes, with the L1 copies that were filled under it (R197). -/
def invalidateVa (s : State) (pasid : BitVec 20) (va size : Nat) : State :=
  let s := dropXlats s fun x => x.pasid == pasid && x.meets va size
  let hit := fun (e : L1Line) => e.pasid == pasid && e.vline * 128 < va + size && va < e.vline * 128 + 128
  { s with cores := s.cores.map fun k => if k.l1.any hit then { k with l1 := k.l1.filter fun e => !hit e } else k }
/-- A frame that Bammar hands out no longer is free; one that no leaf maps any more is. -/
def takeFrames (s : State) (pa size : Nat) : State :=
  if isHbm pa then s.modDie (homeDie pa) fun k => { k with frames := cutBlock pa size k.frames } else s
def giveFrame (s : State) (l : Leaf) : State :=
  if l.own s && isHbm l.pa && !(allLeaves s).any (fun y => y.own s && y.meets l) then
    s.modDie (homeDie l.pa) fun k => { k with frames := k.frames ++ [(l.pa, l.size)] }
  else s
/-- A request is applied, or refused with no effect (none). -/
def mapRequest (s : State) : MapReq → Option State
  | .declare pasid va bytes unt rd w x big src =>
    let p := if big then 0x200000 else 0x10000
    let meets := (s.die 0).ranges.any fun r => r.pasid == pasid && r.va < va.toNat + bytes && va.toNat < r.va + r.bytes
    if bytes = 0 || bytes % p != 0 || va.toNat % p != 0 || meets || !canonical va then none
    else (rootOf s pasid).map fun r =>
      { r.1 with dies := r.1.dies.map fun (k : Die) => { k with ranges := k.ranges ++ [⟨pasid, va.toNat, bytes, unt, rd, w, x, big, src⟩] } }
  | .undeclare pasid va =>
    let p := fun (r : Range) => r.pasid == pasid && r.va == va.toNat
    if (s.die 0).ranges.any p then some { s with dies := s.dies.map fun (k : Die) => { k with ranges := k.ranges.filter fun r => !p r } } else none
  | .setLeaf pasid va level entry force =>
    let size := 2 ^ levelShift level.val
    let base := va.toNat / size * size
    if !canonical va || (rootLeaves s pasid base level.val).any (anchors s ·) || pageBusy s pasid base size then none
    else (setEntry s pasid base level.val entry).bind fun t =>
      let new := rootLeaves t pasid base level.val
      if !force && new.any (mixedType t pasid ·) then none
      else some (invalidateVa (new.foldl (fun t x => if x.own t then takeFrames t x.pa x.size else t) t) pasid base size)
  | .share pasid host => (rootOf s pasid).map fun r =>
      { r.1 with dies := r.1.dies.map fun (k : Die) => { k with roots := k.roots.map fun (x : Root) => if x.pasid == pasid then { x with host := host } else x } }
  | .unmap pasid va =>
    match rootLeaf s pasid va.toNat with
    | none => none
    | some x =>
      let base := va.toNat / x.size * x.size
      if anchors s x || pageBusy s pasid base x.size then none
      else
        let s := invalidateVa (pteWrite s x.addr 0#64) pasid base x.size
        some (if (rangeOf s pasid base).isSome then giveFrame s x else s)
/-- MAPPING_REQUEST. -/
def execMappingRequest (r : MapReq) (s : State) : Out := .next ((mapRequest s r).getD s)

/-- A saved workgroup whose nib the end of its address space unbinds is ended where it is (R336, R389): it retires once it is placed
again. -/
def Image.discard (i : Image) : Image :=
  { i with warps := i.warps.map Warp.discard, tickets := [], semQ := [], mail := [], fifo := []
           chans := i.chans.map fun (c : Chan) => { Chan.fresh with wg := c.wg, lastSt := c.lastSt, ovf := c.ovf, done := c.done, gen := c.gen + 1 }
           wg := { i.wg with sliceSt := if i.wg.sliceSt = .none then .none else .halted } }
/-- The pending tickets of an address space fail ABORTED (R184). -/
def abortSpace (s : State) (pasid : BitVec 20) : State :=
  (List.range 4).foldl (fun s d => ((s.die d).own.filter fun r => r.pasid == pasid && r.phase != .noticed).foldl (fun s r =>
    postNotice s d r stAborted) s) s
/-- The workgroups that hold a core's nibs bound in an address space begin to end, and those nibs are unbound (R336). -/
def unbindNibs (pasid : BitVec 20) (s : State) (c : Nat) : State :=
  (List.range 4).foldl (fun s n =>
    let x := (s.core c).nib n
    if x.st = .unbound ∨ x.pasid ≠ pasid then s
    else
      let s := match x.wg with
        | some g => { s.modCore c (·.stopWgs (·.id == g) fun g => { g with ending := true }) with
            images := s.images.map fun (i : Image) => if i.core = c ∧ i.wg.id = g then i.discard else i }
        | none => s
      nibUnbind s c n) s
/-- So on every core. -/
def unbindSpace (s : State) (pasid : BitVec 20) : State := (List.range 384).foldl (unbindNibs pasid) s
/-- A nib of an address space is not unbound yet, or a workgroup of it not ended. -/
def spaceHeld (s : State) (pasid : BitVec 20) : Bool :=
  s.cores.toList.any fun k => k.nibs.toList.any (fun (x : Nib) => x.st != .unbound && x.pasid == pasid) || k.wgs.any fun g => g.ending && g.pasid == pasid
/-- ADDRESS_SPACE_DESTRUCTION (R184, R336): pending tickets fail ABORTED; workgroups that hold the space's nibs end and the nibs
are unbound; once that is done, which the event waits for when it is taken again, the tables and ranges go, and then the frames. -/
def execAddressSpaceDestruction (pasid : BitVec 20) (s : State) : Out :=
  let s := unbindSpace (abortSpace s pasid) pasid
  if spaceHeld s pasid then .next s
  else
  let old := ((s.die 0).roots.filter (·.pasid == pasid)).foldl (fun l r => l ++ leavesAt s 4 r.root) []
  let s := { s with dies := s.dies.map fun (k : Die) => { k with
    roots := k.roots.filter (·.pasid != pasid), ranges := k.ranges.filter (·.pasid != pasid) } }
  let s := dropXlats s (·.pasid == pasid)
  .next (old.foldl giveFrame s)

end Sys2Proof.Machine
end

