-- ==== Sys2Proof/Machine/Frontier.lean ====
section
/-! DEFINITION. The events of issue (03 R46-R56, 07 R146-R152, 20 R384-R386): clause fetch, holds, WATCHDOG, frontier spills,
trap entry, and the completion of long-latency instructions and stores. -/

namespace Sys2Proof.Machine

/-! ### Clause fetch (R51-R56, R151) -/

/-- A warp at a clause boundary, or at a resumption, that nothing holds; a spill waits until the head's PRIO is read. -/
def Warp.atBoundary (w : Warp) : Bool :=
  !w.ended && !w.stopped && w.escal.isNone && (w.job.isNone || w.unread) && w.wait == .none && w.clause.isNone
    && (w.causes.isEmpty || w.handler.isSome)
/-- The core issues for a slot: a halted core issues for the scribe warp only (R396). -/
def coreIssues (s : State) (ci slot : Nat) : Bool := slot == 31 || !((s.core ci).halted || (s.core ci).haltReq)

/-- The head entry takes the PRIO of the header that it has reached (R55). A header whose page misses is asked for first, and
the warp waits; one that cannot be read leaves the PRIO of the last header reached (R150). Answers whether the PRIO stands. -/
def refreshHead (s : State) (ci slot : Nat) : State × Bool :=
  match s.warp? ci slot with
  | none => (s, true)
  | some w =>
    match w.front with
    | [] => (s, true)
    | e :: es =>
      if !w.unread then (s, true)
      else match fetchWord s ci w.pasid (slot == 31) e.pc with
        | (s, .error (.miss va)) => (fetchMiss s ci slot w e.pc va va .fetch, false)
        | (s, r) =>
          let s := endFetch s ci slot
          let prio := match r.toOption.bind Header.ofWord with
            | some h => h.prio
            | none => e.prio
          (s.modWarp ci slot fun w => { w with front := { e with prio := prio } :: es, unread := false }, true)

/-- The entry that issues next, brought to the head; none while a spilled one must come back first (R151, R152). -/
def Warp.choose (w : Warp) : Warp × Bool :=
  match topEntry (w.front ++ w.spilled) with
  | none => (w, false)
  | some e =>
    if w.front.any (·.same e) then ({ w with front := e :: w.front.filter (!·.same e) }, true)
    else ({ w with job := some (if 8 ≤ w.front.length then .spill else .refill) }, false)

/-- A cause at a clause header (R52, R63). -/
def headerCause (e : Entry) (code : Nat) (va : Dword) : Cause := ⟨code, e.mask, e.pc, 0, va, 0#32, 0#4, false⟩

/-- The 96-bit words of some bytes. -/
def wordsOf : Nat → List Byte → List Word96
  | 0, _ => []
  | n + 1, bs => BitVec.ofNat 96 (leNat (bs.take 12)) :: wordsOf n (bs.drop 12)

/-- Fetches the clause of the head entry whole; `pos` is the first position to issue, `begins` that the clause begins
here (R53, R54, R56). WAIT holds the first instruction also where a return from a trap comes back to it. Of a line whose code
has been written since, the form in memory is fetched (log 84). -/
def fetchClause (s : State) (ci slot : Nat) (w : Warp) (e : Entry) (pos : Nat) (begins : Bool) : State :=
  let scr := slot == 31
  let trap := fun (s : State) (code : Nat) (va : Dword) => takeTrap s ci slot (headerCause e code va)
  match fetchWord s ci w.pasid scr e.pc with
  | (s, .error (.miss va)) => fetchMiss s ci slot w e.pc va va .fetch
  | (s, .error (.denied va)) => trap s cAccessDenied va
  | (s, .error (.ok _)) => s
  | (s, .ok x) => match Header.ofWord x with
    | none => trap s cIllegalClause 0#64
    | some h =>
      if h.bad then trap s cIllegalClause 0#64
      else if begins && h.meld != w.lig.on then trap s cLigature 0#64
      else if h.len < pos then
        s.modWarp ci slot (·.fall (e.pc + BitVec.ofNat 64 (12 * (h.len + 1))))
      else match fetchGo s ci w.pasid scr (3 * h.len) (e.pc + 12#64) with
        | (s, .miss va) => fetchMiss s ci slot w e.pc va va .fetch
        | (s, .denied va) => trap s cAccessDenied va
        | (s, .ok bs) => (endFetch s ci slot).modWarp ci slot fun w =>
          let w := { w with
            clause := some ⟨e.pc, h, wordsOf h.len bs, pos⟩
            front := { e with prio := h.prio, pc := e.pc + BitVec.ofNat 64 (12 * pos) } :: w.front.drop 1
            resume := none }
          if pos = 1 then
            if w.flagsZero h.wait then w.mergeFlags h.wait e.mask else { w with wait := .flags h.wait e.mask }
          else w

/-- CLAUSE_FETCH (R56): the entry of highest rank is chosen, its clause is fetched whole and its header checked. -/
def execClauseFetch (core slot : Nat) (s : State) : Out :=
  match s.warp? core slot with
  | none => .next s
  | some w =>
    if !w.atBoundary || !coreIssues s core slot then .next s
    else match w.resume with
      | some p => match w.front with
        | [] => .next s
        | e :: _ => .next (fetchClause s core slot w e p false)
      | none => match refreshHead s core slot with
        | (s, false) => .next s
        | (s, true) =>
          if w.job.isSome then .next s
          else match (s.warp? core slot).map (·.choose) with
            | none => .next s
            | some (w, ok) =>
              let s := s.modWarp core slot fun _ => w
              match ok, w.front with
              | true, e :: _ => .next (fetchClause s core slot w e 1 true)
              | _, _ => .next s

/-! ### Holds (R46, R47, R163) -/

def Warp.endYield (w : Warp) : Warp := { w with yieldHold := none }
def Warp.endYieldCc (w : Warp) : Warp := { w with yieldCc := false }
/-- STALL_EXPIRY. -/
def execStallExpiry (core slot : Nat) (s : State) : Out := .next (s.modWarp core slot Warp.endStall)
/-- YIELD_HOLD_EXPIRY. -/
def execYieldHoldExpiry (core slot : Nat) (s : State) : Out := .next (s.modWarp core slot Warp.endYield)
/-- YIELD_CC_HOLD_EXPIRY. -/
def execYieldCcHoldExpiry (core slot : Nat) (s : State) : Out := .next (s.modWarp core slot Warp.endYieldCc)

/-! ### WATCHDOG (R146) -/

/-- The word at the issuing position. -/
def Clause.word? (c : Clause) : Option Word96 := c.words[c.pos - 1]?
/-- The queue operands of an instruction, with whether each is pushed: D is a source of ST only (R43). -/
def queueUses (i : Instr) : List (Fin 24 × Bool) :=
  let q := fun (n : BitVec 10) => match Reg.ofNum n with | .q k => some k | _ => none
  match i.fields with
  | none => []
  | some f =>
    let st := match i with | .st _ => true | _ => false
    let c := if f.creg then (q (f.x.setWidth 10)).toList else []
    ((q f.d).toList.map fun k => (k, !st)) ++ ((q f.a).toList ++ (if f.imm then [] else (q f.b).toList) ++ c).map fun k => (k, false)
/-- The six matrix commands, each of which posts an entry (R314). -/
def postsEntry (i : Instr) : Bool :=
  match i with
  | .mma _ | .mmas _ | .accz _ | .accld _ | .accdrain .. | .accmx .. => true
  | _ => false
/-- The next instruction of the warp stays blocked on a queue, or, where it posts to the matrix FIFO, on that (R314). -/
def queueBlocked (s : State) (ci slot : Nat) : Option Ctx :=
  match s.warp? ci slot with
  | none => none
  | some w => match w.clause.bind Clause.word? with
    | none => none
    | some x => match decode x with
      | .error _ => none
      | .ok i => match ctxOf s (ctlOfWord x) with
        | none => none
        | some k => if ((queueUses i).any fun u => opdQueue k { r := .q u.1, adm := admSrc, dst := u.2, src := !u.2 } == .wait)
              || (postsEntry i && k.act != 0#32 && k.mxFull) then some k else none
/-- The warp stands before its next instruction: nothing that it has issued still waits, but the WAIT of the clause that begins
with that instruction may be unmet (R139, R146). -/
def Warp.beforeNext (w : Warp) : Bool :=
  match w.wait with
  | .none => true
  | .flags _ _ => (w.clause.map (·.pos)) == some 1
  | _ => false
/-- A cause of lower code than `c` is pending and is taken first at this boundary (R64). -/
def Warp.lowerPending (w : Warp) (c : Nat) : Bool := w.causes.any (·.code < c)
/-- A cause of this code is pending. -/
def Warp.pends (w : Warp) (c : Nat) : Bool := w.causes.any (·.code == c)
/-- WATCHDOG: before the stalled instruction, which pops and pushes nothing. The count runs through the other waits of the warp too;
where one of them still holds it, or a cause of lower code is pending, WATCHDOG is pending until that boundary (R64, R146; log 101);
in a handler it escalates (R388).
The count does not run while the warp is stopped, as the warps of a halted core are (R392, R396). -/
def execWatchdog (core slot : Nat) (s : State) : Out :=
  let s := { s with cur := (core, slot) }
  match queueBlocked s core slot with
  | none => .next s
  | some k =>
    let z := k.cause cWatchdog k.act 0#64
    if k.w.stopped || k.w.escal.isSome || !coreIssues s core slot then .next s
    else if k.w.handler.isSome || (k.w.beforeNext && !k.w.lowerPending cWatchdog) then .next (takeTrap s core slot z)
    else if k.w.pends cWatchdog then .next s
    else .next (s.modWarp core slot (·.addCause z))

/-! ### The spill area (R152) -/

/-- What follows a spill, refill or merge that is done. -/
def Warp.jobDone (w : Warp) : Warp := { w with job := if 8 < w.front.length then some .spill else none }
/-- The live entry of lowest rank goes to the spill area. -/
def Warp.spill (w : Warp) : Warp :=
  match lowEntry w.front with
  | none => { w with job := none }
  | some e => { w with front := w.front.filter (!·.same e), spilled := w.spilled ++ [e] }.jobDone
/-- The spilled entry of highest rank comes back, and merges. -/
def Warp.refill (w : Warp) : Warp :=
  match topEntry w.spilled with
  | none => { w with job := none }
  | some e => ({ w with spilled := w.spilled.filter (!·.same e) }.addEntry e).jobDone
/-- FRONTIER_SPILL. -/
def execFrontierSpill (core slot : Nat) (s : State) : Out :=
  match (s.warp? core slot).bind (·.job) with
  | some .spill => .next (s.modWarp core slot fun w => if w.unread then w else w.spill)
  | _ => .next s
/-- FRONTIER_REFILL. -/
def execFrontierRefill (core slot : Nat) (s : State) : Out :=
  match (s.warp? core slot).bind (·.job) with
  | some .refill => .next (s.modWarp core slot Warp.refill)
  | _ => .next s
/-- SPILLED_MERGE: the record has its lanes. -/
def execSpilledMerge (core slot : Nat) (s : State) : Out :=
  match (s.warp? core slot).bind (·.job) with
  | some .merge => .next (s.modWarp core slot Warp.jobDone)
  | _ => .next s
/-- FRONTIER_SPILL_FAULT: the scribe warp repairs the page and lets the access run again, or ends the task (R388). -/
def execFrontierSpillFault (core slot : Nat) (repair : Bool) (s : State) : Out :=
  match s.warp? core slot with
  | none => .next s
  | some w =>
    if w.job.isNone || repair then .next s
    else
      let (pc, pos) := w.here
      .next (s.modWarp core slot fun w => { w with
        escal := some ⟨cSpillFault, (match w.front with | e :: _ => e.mask | [] => 0#32), pc, pos, 0#64, 0#32, 0#4, false⟩ })

/-! ### Trap entry (R64, R384, R386) -/

/-- The pending cause of lowest code. -/
def firstCause (l : List Cause) : Option Cause := (l.map (·.code)).min?.bind fun c => l.find? (·.code == c)
/-- TRAP_ENTRY: a cause that has arisen since the last instruction is taken at the boundary, lowest code first; where every entry
of the frontier is spilled, the boundary is that of the entry that comes back next (R152, R384). -/
def execTrapEntry (core slot : Nat) (s : State) : Out :=
  let s := settle s core slot
  match s.warp? core slot with
  | none => .next s
  | some w =>
    if w.ended || w.stopped || w.escal.isSome || w.job.isSome || w.handler.isSome || w.wait != .none || !coreIssues s core slot then .next s
    else match firstCause w.causes with
      | none => .next s
      | some z => if w.front.isEmpty then .next (s.modWarp core slot fun w => w.choose.1) else .next (takeTrap (s.modWarp core slot fun w => { w with causes := w.causes.erase z }) core slot z)

/-! ### Completions (R49, R144, R244) -/

/-- Values land in their destinations. -/
def landWrites (s : State) (ci slot : Nat) (ws : List RegWrite) : State := ws.foldl (landWrite · ci slot ·) s
/-- LONG_LATENCY_COMPLETE: every part has been performed; the destinations are written and the flag is decremented. -/
def execLongLatencyComplete (core slot op : Nat) (s : State) : Out :=
  match s.warp? core slot with
  | none => .next s
  | some w => match w.ops.find? (·.id == op) with
    | none => .next s
    | some o =>
      if o.parts ≠ 0 || o.engine then .next s
      else
        let s := landWrites s core slot o.writes
        .next (settle (s.modWarp core slot fun w => { w with ops := w.ops.filter (·.id != op) }.decFlag o.flag) core slot)
/-- The writes of a slot that await their acknowledgement; slot 32 stands for the engines of the core (R244, R245). -/
def postedOf (s : State) (core slot : Nat) : List Posted :=
  if slot < 32 then ((s.warp? core slot).map (·.posted)).getD [] else (s.core core).engPosted
def Warp.unpost (p : Posted) (w : Warp) : Warp := { w with posted := w.posted.erase p }
def Core.unpost (p : Posted) (k : Core) : Core := { k with engPosted := k.engPosted.erase p }
/-- STORE_ACK: pts := max(pts, wts), the L1 takes what was written, and a release that waited for it goes on (R210, R244). -/
def execStoreAck (core slot id : Nat) (s : State) : Out :=
  match (postedOf s core slot).find? (·.id == id) with
  | none => .next s
  | some p =>
    let s := ackWrite s core p
    .next (if slot < 32 then drain (s.modWarp core slot (·.unpost p)) core slot else s.modCore core (·.unpost p))

end Sys2Proof.Machine
end

