-- ==== Sys2Proof/Machine/Dispatch.lean ====
section
/-! DEFINITION. The meaning of every instruction: one arm per constructor, each one call of its meaning. -/

namespace Sys2Proof.Machine

/-- What an instruction, or an event, does in a state. -/
def exec (i : Instr) (s : State) : Host.Outcome State Fault Refusal :=
  match i with
  | .iadd a0 a1 => Sys2Proof.Machine.execIadd a0 a1 s
  | .isub a0 a1 => Sys2Proof.Machine.execIsub a0 a1 s
  | .imul a0 a1 => Sys2Proof.Machine.execImul a0 a1 s
  | .imulhi a0 => Sys2Proof.Machine.execImulhi a0 s
  | .imad a0 a1 => Sys2Proof.Machine.execImad a0 a1 s
  | .idiv a0 => Sys2Proof.Machine.execIdiv a0 s
  | .irem a0 => Sys2Proof.Machine.execIrem a0 s
  | .imin a0 => Sys2Proof.Machine.execImin a0 s
  | .imax a0 => Sys2Proof.Machine.execImax a0 s
  | .iabs a0 a1 => Sys2Proof.Machine.execIabs a0 a1 s
  | .ineg a0 a1 => Sys2Proof.Machine.execIneg a0 a1 s
  | .land a0 => Sys2Proof.Machine.execLand a0 s
  | .lor a0 => Sys2Proof.Machine.execLor a0 s
  | .lxor a0 => Sys2Proof.Machine.execLxor a0 s
  | .landn a0 => Sys2Proof.Machine.execLandn a0 s
  | .lnot a0 => Sys2Proof.Machine.execLnot a0 s
  | .shl a0 => Sys2Proof.Machine.execShl a0 s
  | .shr a0 => Sys2Proof.Machine.execShr a0 s
  | .sar a0 => Sys2Proof.Machine.execSar a0 s
  | .rol a0 => Sys2Proof.Machine.execRol a0 s
  | .bfx a0 => Sys2Proof.Machine.execBfx a0 s
  | .bfi a0 => Sys2Proof.Machine.execBfi a0 s
  | .popc a0 => Sys2Proof.Machine.execPopc a0 s
  | .clz a0 => Sys2Proof.Machine.execClz a0 s
  | .ctz a0 => Sys2Proof.Machine.execCtz a0 s
  | .brev a0 => Sys2Proof.Machine.execBrev a0 s
  | .prmt a0 a1 => Sys2Proof.Machine.execPrmt a0 a1 s
  | .iset a0 a1 => Sys2Proof.Machine.execIset a0 a1 s
  | .pset a0 a1 a2 a3 a4 => Sys2Proof.Machine.execPset a0 a1 a2 a3 a4 s
  | .sel a0 a1 a2 => Sys2Proof.Machine.execSel a0 a1 a2 s
  | .mov a0 => Sys2Proof.Machine.execMov a0 s
  | .movi a0 a1 a2 a3 a4 => Sys2Proof.Machine.execMovi a0 a1 a2 a3 a4 s
  | .lea a0 a1 a2 a3 => Sys2Proof.Machine.execLea a0 a1 a2 a3 s
  | .fadd a0 a1 => Sys2Proof.Machine.execFadd a0 a1 s
  | .fsub a0 a1 => Sys2Proof.Machine.execFsub a0 a1 s
  | .fmul a0 a1 => Sys2Proof.Machine.execFmul a0 a1 s
  | .ffma a0 a1 => Sys2Proof.Machine.execFfma a0 a1 s
  | .fmin a0 => Sys2Proof.Machine.execFmin a0 s
  | .fmax a0 => Sys2Proof.Machine.execFmax a0 s
  | .fset a0 a1 => Sys2Proof.Machine.execFset a0 a1 s
  | .fclass a0 a1 => Sys2Proof.Machine.execFclass a0 a1 s
  | .frcp a0 a1 => Sys2Proof.Machine.execFrcp a0 a1 s
  | .frsq a0 a1 => Sys2Proof.Machine.execFrsq a0 a1 s
  | .fsqrt a0 a1 => Sys2Proof.Machine.execFsqrt a0 a1 s
  | .fdiv a0 a1 => Sys2Proof.Machine.execFdiv a0 a1 s
  | .fexp2 a0 => Sys2Proof.Machine.execFexp2 a0 s
  | .flog2 a0 => Sys2Proof.Machine.execFlog2 a0 s
  | .fsin a0 => Sys2Proof.Machine.execFsin a0 s
  | .fcos a0 => Sys2Proof.Machine.execFcos a0 s
  | .ftanh a0 => Sys2Proof.Machine.execFtanh a0 s
  | .frnd a0 a1 a2 => Sys2Proof.Machine.execFrnd a0 a1 a2 s
  | .cvt a0 a1 a2 a3 a4 a5 => Sys2Proof.Machine.execCvt a0 a1 a2 a3 a4 a5 s
  | .fdot2 a0 a1 => Sys2Proof.Machine.execFdot2 a0 a1 s
  | .fdot4 a0 a1 a2 => Sys2Proof.Machine.execFdot4 a0 a1 a2 s
  | .fscale a0 a1 => Sys2Proof.Machine.execFscale a0 a1 s
  | .fflags a0 a1 a2 a3 => Sys2Proof.Machine.execFflags a0 a1 a2 a3 s
  | .shfl a0 a1 a2 => Sys2Proof.Machine.execShfl a0 a1 a2 s
  | .vote a0 a1 a2 a3 => Sys2Proof.Machine.execVote a0 a1 a2 a3 s
  | .matchv a0 a1 => Sys2Proof.Machine.execMatch a0 a1 s
  | .redux a0 a1 a2 => Sys2Proof.Machine.execRedux a0 a1 a2 s
  | .scan a0 a1 a2 a3 => Sys2Proof.Machine.execScan a0 a1 a2 a3 s
  | .lanemask a0 a1 a2 => Sys2Proof.Machine.execLanemask a0 a1 a2 s
  | .bra a0 a1 => Sys2Proof.Machine.execBra a0 a1 s
  | .brd a0 a1 a2 a3 => Sys2Proof.Machine.execBrd a0 a1 a2 a3 s
  | .brx a0 a1 => Sys2Proof.Machine.execBrx a0 a1 s
  | .call a0 a1 a2 => Sys2Proof.Machine.execCall a0 a1 a2 s
  | .callx a0 a1 a2 => Sys2Proof.Machine.execCallx a0 a1 a2 s
  | .ret a0 a1 => Sys2Proof.Machine.execRet a0 a1 s
  | .retTr a0 => Sys2Proof.Machine.execRetTr a0 s
  | .exit a0 => Sys2Proof.Machine.execExit a0 s
  | .yield a0 a1 => Sys2Proof.Machine.execYield a0 a1 s
  | .nop a0 => Sys2Proof.Machine.execNop a0 s
  | .waitc a0 a1 => Sys2Proof.Machine.execWaitc a0 a1 s
  | .ligon a0 a1 a2 => Sys2Proof.Machine.execLigon a0 a1 a2 s
  | .ligmap a0 a1 a2 a3 a4 => Sys2Proof.Machine.execLigmap a0 a1 a2 a3 a4 s
  | .ligoff a0 => Sys2Proof.Machine.execLigoff a0 s
  | .trap a0 a1 => Sys2Proof.Machine.execTrap a0 a1 s
  | .svc a0 a1 a2 => Sys2Proof.Machine.execSvc a0 a1 a2 s
  | .brkpt a0 a1 => Sys2Proof.Machine.execBrkpt a0 a1 s
  | .ld a0 => Sys2Proof.Machine.execLd a0 s
  | .st a0 => Sys2Proof.Machine.execSt a0 s
  | .ldq a0 => Sys2Proof.Machine.execLdq a0 s
  | .prf a0 a1 => Sys2Proof.Machine.execPrf a0 a1 s
  | .atom a0 a1 a2 => Sys2Proof.Machine.execAtom a0 a1 a2 s
  | .red a0 a1 => Sys2Proof.Machine.execRed a0 a1 s
  | .cas a0 a1 => Sys2Proof.Machine.execCas a0 a1 s
  | .cas2 a0 a1 => Sys2Proof.Machine.execCas2 a0 a1 s
  | .atomr a0 a1 a2 => Sys2Proof.Machine.execAtomr a0 a1 a2 s
  | .fence a0 a1 a2 a3 a4 => Sys2Proof.Machine.execFence a0 a1 a2 a3 a4 s
  | .lease a0 a1 => Sys2Proof.Machine.execLease a0 a1 s
  | .cwb a0 a1 => Sys2Proof.Machine.execCwb a0 a1 s
  | .tkwait a0 => Sys2Proof.Machine.execTkwait a0 s
  | .tkstat a0 a1 => Sys2Proof.Machine.execTkstat a0 a1 s
  | .semset a0 a1 a2 a3 => Sys2Proof.Machine.execSemset a0 a1 a2 a3 s
  | .seminc a0 a1 a2 a3 => Sys2Proof.Machine.execSeminc a0 a1 a2 a3 s
  | .semwait a0 a1 a2 a3 a4 => Sys2Proof.Machine.execSemwait a0 a1 a2 a3 a4 s
  | .barinit a0 a1 a2 a3 a4 => Sys2Proof.Machine.execBarinit a0 a1 a2 a3 a4 s
  | .bararr a0 a1 a2 a3 a4 => Sys2Proof.Machine.execBararr a0 a1 a2 a3 a4 s
  | .barwait a0 a1 a2 a3 => Sys2Proof.Machine.execBarwait a0 a1 a2 a3 s
  | .rbararr a0 a1 a2 a3 a4 => Sys2Proof.Machine.execRbararr a0 a1 a2 a3 a4 s
  | .cmset a0 a1 a2 a3 a4 => Sys2Proof.Machine.execCmset a0 a1 a2 a3 a4 s
  | .cmclr a0 a1 a2 a3 a4 => Sys2Proof.Machine.execCmclr a0 a1 a2 a3 a4 s
  | .cmwait a0 a1 a2 a3 a4 => Sys2Proof.Machine.execCmwait a0 a1 a2 a3 a4 s
  | .cpchain a0 a1 a2 => Sys2Proof.Machine.execCpchain a0 a1 a2 s
  | .tcopy a0 a1 a2 => Sys2Proof.Machine.execTcopy a0 a1 a2 s
  | .cpstat a0 a1 a2 a3 => Sys2Proof.Machine.execCpstat a0 a1 a2 a3 s
  | .cpabort a0 a1 => Sys2Proof.Machine.execCpabort a0 a1 s
  | .rwopen a0 a1 a2 a3 a4 => Sys2Proof.Machine.execRwopen a0 a1 a2 a3 a4 s
  | .rwclose a0 a1 => Sys2Proof.Machine.execRwclose a0 a1 s
  | .obres a0 a1 a2 a3 => Sys2Proof.Machine.execObres a0 a1 a2 a3 s
  | .obfree a0 a1 => Sys2Proof.Machine.execObfree a0 a1 s
  | .obset a0 a1 a2 => Sys2Proof.Machine.execObset a0 a1 a2 s
  | .thand a0 a1 a2 a3 a4 a5 a6 => Sys2Proof.Machine.execThand a0 a1 a2 a3 a4 a5 a6 s
  | .mma a0 => Sys2Proof.Machine.execMma a0 s
  | .mmas a0 => Sys2Proof.Machine.execMmas a0 s
  | .accz a0 => Sys2Proof.Machine.execAccz a0 s
  | .accld a0 => Sys2Proof.Machine.execAccld a0 s
  | .accdrain a0 a1 a2 a3 => Sys2Proof.Machine.execAccdrain a0 a1 a2 a3 s
  | .accmx a0 a1 a2 => Sys2Proof.Machine.execAccmx a0 a1 a2 s
  | .mxstat a0 a1 a2 a3 => Sys2Proof.Machine.execMxstat a0 a1 a2 a3 s
  | .nbind a0 a1 a2 a3 a4 => Sys2Proof.Machine.execNbind a0 a1 a2 a3 a4 s
  | .nunbind a0 a1 => Sys2Proof.Machine.execNunbind a0 a1 s
  | .ngrant a0 a1 a2 a3 a4 => Sys2Proof.Machine.execNgrant a0 a1 a2 a3 a4 s
  | .nstat a0 a1 a2 a3 a4 a5 => Sys2Proof.Machine.execNstat a0 a1 a2 a3 a4 a5 s
  | .nldc a0 => Sys2Proof.Machine.execNldc a0 s
  | .nabort a0 a1 a2 => Sys2Proof.Machine.execNabort a0 a1 a2 s
  | .amov a0 a1 => Sys2Proof.Machine.execAmov a0 a1 s
  | .aadd a0 a1 a2 => Sys2Proof.Machine.execAadd a0 a1 a2 s
  | .aloop a0 a1 => Sys2Proof.Machine.execAloop a0 a1 s
  | .aldq a0 a1 a2 a3 => Sys2Proof.Machine.execAldq a0 a1 a2 a3 s
  | .astq a0 a1 a2 a3 => Sys2Proof.Machine.execAstq a0 a1 a2 a3 s
  | .aend => Sys2Proof.Machine.execAend s
  | .csrr a0 a1 a2 => Sys2Proof.Machine.execCsrr a0 a1 a2 s
  | .csrw a0 a1 a2 => Sys2Proof.Machine.execCsrw a0 a1 a2 s
  | .tlbinv a0 a1 a2 a3 a4 => Sys2Proof.Machine.execTlbinv a0 a1 a2 a3 a4 s
  | .rmapinv a0 a1 a2 => Sys2Proof.Machine.execRmapinv a0 a1 a2 s
  | .ctxsave a0 a1 a2 a3 => Sys2Proof.Machine.execCtxsave a0 a1 a2 a3 s
  | .ctxload a0 a1 a2 => Sys2Proof.Machine.execCtxload a0 a1 a2 s
  | .dbghalt a0 => Sys2Proof.Machine.execDbghalt a0 s
  | .dbgres a0 => Sys2Proof.Machine.execDbgres a0 s
  | .clauseFetch a0 a1 => Sys2Proof.Machine.execClauseFetch a0 a1 s
  | .stallExpiry a0 a1 => Sys2Proof.Machine.execStallExpiry a0 a1 s
  | .yieldHoldExpiry a0 a1 => Sys2Proof.Machine.execYieldHoldExpiry a0 a1 s
  | .watchdog a0 a1 => Sys2Proof.Machine.execWatchdog a0 a1 s
  | .frontierSpill a0 a1 => Sys2Proof.Machine.execFrontierSpill a0 a1 s
  | .frontierRefill a0 a1 => Sys2Proof.Machine.execFrontierRefill a0 a1 s
  | .spilledMerge a0 a1 => Sys2Proof.Machine.execSpilledMerge a0 a1 s
  | .frontierSpillFault a0 a1 a2 => Sys2Proof.Machine.execFrontierSpillFault a0 a1 a2 s
  | .trapEntry a0 a1 => Sys2Proof.Machine.execTrapEntry a0 a1 s
  | .trapEscalation a0 a1 => Sys2Proof.Machine.execTrapEscalation a0 a1 s
  | .longLatencyComplete a0 a1 a2 => Sys2Proof.Machine.execLongLatencyComplete a0 a1 a2 s
  | .storeAck a0 a1 a2 => Sys2Proof.Machine.execStoreAck a0 a1 a2 s
  | .faultTicket a0 a1 => Sys2Proof.Machine.execFaultTicket a0 a1 s
  | .busyRetry a0 a1 => Sys2Proof.Machine.execBusyRetry a0 a1 s
  | .pageService a0 a1 => Sys2Proof.Machine.execPageService a0 a1 s
  | .replayNotice a0 a1 => Sys2Proof.Machine.execReplayNotice a0 a1 s
  | .ticketFailure a0 a1 a2 => Sys2Proof.Machine.execTicketFailure a0 a1 a2 s
  | .pageHoldExpiry a0 a1 => Sys2Proof.Machine.execPageHoldExpiry a0 a1 s
  | .ticketStatusQuery a0 a1 => Sys2Proof.Machine.execTicketStatusQuery a0 a1 s
  | .linklostTimeout a0 a1 => Sys2Proof.Machine.execLinklostTimeout a0 a1 s
  | .ticketQueryAnswer a0 a1 a2 => Sys2Proof.Machine.execTicketQueryAnswer a0 a1 a2 s
  | .atsTranslationRequest a0 => Sys2Proof.Machine.execAtsTranslationRequest a0 s
  | .atsCompletion a0 a1 => Sys2Proof.Machine.execAtsCompletion a0 a1 s
  | .priPageRequest a0 => Sys2Proof.Machine.execPriPageRequest a0 s
  | .prgSuccess a0 a1 => Sys2Proof.Machine.execPrgSuccess a0 a1 s
  | .prgInvalidRequest a0 a1 => Sys2Proof.Machine.execPrgInvalidRequest a0 a1 s
  | .prgResponseFailure a0 a1 => Sys2Proof.Machine.execPrgResponseFailure a0 a1 s
  | .priStopMarker a0 => Sys2Proof.Machine.execPriStopMarker a0 s
  | .atsInvalidateRequest a0 a1 a2 => Sys2Proof.Machine.execAtsInvalidateRequest a0 a1 a2 s
  | .globalInvalidate a0 a1 => Sys2Proof.Machine.execGlobalInvalidate a0 a1 s
  | .idleAdvance a0 => Sys2Proof.Machine.execIdleAdvance a0 s
  | .ltlimAdvance a0 => Sys2Proof.Machine.execLtlimAdvance a0 s
  | .heldWriteRelease a0 => Sys2Proof.Machine.execHeldWriteRelease a0 s
  | .scrubVisit a0 => Sys2Proof.Machine.execScrubVisit a0 s
  | .l2Eviction a0 a1 => Sys2Proof.Machine.execL2Eviction a0 a1 s
  | .directoryRequest a0 a1 a2 => Sys2Proof.Machine.execDirectoryRequest a0 a1 a2 s
  | .directoryRetry a0 a1 => Sys2Proof.Machine.execDirectoryRetry a0 a1 s
  | .goMessage a0 => Sys2Proof.Machine.execGoMessage a0 s
  | .reservationTimeout a0 => Sys2Proof.Machine.execReservationTimeout a0 s
  | .writeback a0 a1 => Sys2Proof.Machine.execWriteback a0 a1 s
  | .forward a0 => Sys2Proof.Machine.execForward a0 s
  | .invalidation a0 a1 => Sys2Proof.Machine.execInvalidation a0 a1 s
  | .backInvalidateSnoop a0 => Sys2Proof.Machine.execBackInvalidateSnoop a0 s
  | .hostAccess a0 => Sys2Proof.Machine.execHostAccess a0 s
  | .cxlCacheSnoop a0 => Sys2Proof.Machine.execCxlCacheSnoop a0 s
  | .barrierArrival a0 => Sys2Proof.Machine.execBarrierArrival a0 s
  | .syncWrite a0 => Sys2Proof.Machine.execSyncWrite a0 s
  | .copyRecordRead a0 a1 => Sys2Proof.Machine.execCopyRecordRead a0 a1 s
  | .copyRow a0 a1 a2 => Sys2Proof.Machine.execCopyRow a0 a1 a2 s
  | .chunkSignal a0 a1 a2 => Sys2Proof.Machine.execChunkSignal a0 a1 a2 s
  | .recordCompletion a0 a1 => Sys2Proof.Machine.execRecordCompletion a0 a1 s
  | .inboundWindowWrite a0 => Sys2Proof.Machine.execInboundWindowWrite a0 s
  | .matrixEntryStart a0 a1 => Sys2Proof.Machine.execMatrixEntryStart a0 a1 s
  | .matrixEntryComplete a0 a1 => Sys2Proof.Machine.execMatrixEntryComplete a0 a1 s
  | .governorRelease a0 => Sys2Proof.Machine.execGovernorRelease a0 s
  | .nbindComplete a0 a1 => Sys2Proof.Machine.execNbindComplete a0 a1 s
  | .strokeStore a0 => Sys2Proof.Machine.execStrokeStore a0 s
  | .strokeLoad a0 => Sys2Proof.Machine.execStrokeLoad a0 s
  | .fillLimitExpiry a0 a1 a2 => Sys2Proof.Machine.execFillLimitExpiry a0 a1 a2 s
  | .nibPass a0 => Sys2Proof.Machine.execNibPass a0 s
  | .nibApplicationDone a0 => Sys2Proof.Machine.execNibApplicationDone a0 s
  | .traceLoad a0 => Sys2Proof.Machine.execTraceLoad a0 s
  | .waitLimitExpiry a0 a1 a2 => Sys2Proof.Machine.execWaitLimitExpiry a0 a1 a2 s
  | .consume a0 => Sys2Proof.Machine.execConsume a0 s
  | .submit a0 => Sys2Proof.Machine.execSubmit a0 s
  | .gangPlacement a0 a1 a2 => Sys2Proof.Machine.execGangPlacement a0 a1 a2 s
  | .gridPlacement a0 a1 a2 => Sys2Proof.Machine.execGridPlacement a0 a1 a2 s
  | .placementWaitExpiry a0 a1 a2 => Sys2Proof.Machine.execPlacementWaitExpiry a0 a1 a2 s
  | .workgroupRetirement a0 a1 => Sys2Proof.Machine.execWorkgroupRetirement a0 a1 s
  | .taskRetirement a0 a1 => Sys2Proof.Machine.execTaskRetirement a0 a1 s
  | .successorDecrement a0 => Sys2Proof.Machine.execSuccessorDecrement a0 s
  | .condNode a0 a1 => Sys2Proof.Machine.execCondNode a0 a1 s
  | .whileNode a0 a1 => Sys2Proof.Machine.execWhileNode a0 a1 s
  | .mailboxServe a0 => Sys2Proof.Machine.execMailboxServe a0 s
  | .alloc a0 => Sys2Proof.Machine.execAlloc a0 s
  | .free a0 => Sys2Proof.Machine.execFree a0 s
  | .hostmsg a0 => Sys2Proof.Machine.execHostmsg a0 s
  | .abort a0 => Sys2Proof.Machine.execAbort a0 s
  | .systemCallRing a0 => Sys2Proof.Machine.execSystemCallRing a0 s
  | .svcReply a0 => Sys2Proof.Machine.execSvcReply a0 s
  | .preempt => Sys2Proof.Machine.execPreempt s
  | .arenaRegister => Sys2Proof.Machine.execArenaRegister s
  | .arenaRemove => Sys2Proof.Machine.execArenaRemove s
  | .rootcap => Sys2Proof.Machine.execRootcap s
  | .twinConfigure => Sys2Proof.Machine.execTwinConfigure s
  | .twinDissolve => Sys2Proof.Machine.execTwinDissolve s
  | .mode => Sys2Proof.Machine.execMode s
  | .modeChange a0 => Sys2Proof.Machine.execModeChange a0 s
  | .podbarAllot => Sys2Proof.Machine.execPodbarAllot s
  | .podbarRelease => Sys2Proof.Machine.execPodbarRelease s
  | .h2dBell a0 => Sys2Proof.Machine.execH2dBell a0 s
  | .h2dEntryRecheck => Sys2Proof.Machine.execH2dEntryRecheck s
  | .h2dRingConfig a0 a1 => Sys2Proof.Machine.execH2dRingConfig a0 a1 s
  | .d2hRingConfig a0 a1 => Sys2Proof.Machine.execD2hRingConfig a0 a1 s
  | .d2hAck a0 => Sys2Proof.Machine.execD2hAck a0 s
  | .d2hWrite => Sys2Proof.Machine.execD2hWrite s
  | .hostLinkLoss a0 => Sys2Proof.Machine.execHostLinkLoss a0 s
  | .hostLinkReturn a0 a1 => Sys2Proof.Machine.execHostLinkReturn a0 a1 s
  | .flitReceive a0 a1 => Sys2Proof.Machine.execFlitReceive a0 a1 s
  | .nak a0 a1 => Sys2Proof.Machine.execNak a0 a1 s
  | .endToEndAck a0 a1 => Sys2Proof.Machine.execEndToEndAck a0 a1 s
  | .endToEndAckTimer a0 => Sys2Proof.Machine.execEndToEndAckTimer a0 s
  | .endToEndResend a0 => Sys2Proof.Machine.execEndToEndResend a0 s
  | .retrain a0 a1 a2 => Sys2Proof.Machine.execRetrain a0 a1 a2 s
  | .linkView a0 a1 => Sys2Proof.Machine.execLinkView a0 a1 s
  | .viewAck a0 a1 => Sys2Proof.Machine.execViewAck a0 a1 s
  | .viewTimeout a0 => Sys2Proof.Machine.execViewTimeout a0 s
  | .podLinkDown a0 => Sys2Proof.Machine.execPodLinkDown a0 s
  | .dirtyLineOffer a0 a1 => Sys2Proof.Machine.execDirtyLineOffer a0 a1 s
  | .dirtyLineDrop a0 a1 => Sys2Proof.Machine.execDirtyLineDrop a0 a1 s
  | .homeLinePoison a0 => Sys2Proof.Machine.execHomeLinePoison a0 s
  | .unreachableAccessTimeout a0 => Sys2Proof.Machine.execUnreachableAccessTimeout a0 s
  | .digestReceive a0 a1 a2 a3 => Sys2Proof.Machine.execDigestReceive a0 a1 a2 a3 s
  | .partnerLostTimeout a0 => Sys2Proof.Machine.execPartnerLostTimeout a0 s
  | .outsideReadData a0 a1 => Sys2Proof.Machine.execOutsideReadData a0 a1 s
  | .reset a0 => Sys2Proof.Machine.execReset a0 s
  | .govbDecrease a0 => Sys2Proof.Machine.execGovbDecrease a0 s
  | .govbIncrease a0 => Sys2Proof.Machine.execGovbIncrease a0 s
  | .thermalTrip a0 => Sys2Proof.Machine.execThermalTrip a0 s
  | .sensorRefresh a0 => Sys2Proof.Machine.execSensorRefresh a0 s
  | .getVersion => Sys2Proof.Machine.execGetVersion s
  | .getCapabilities => Sys2Proof.Machine.execGetCapabilities s
  | .negotiateAlgorithms a0 a1 => Sys2Proof.Machine.execNegotiateAlgorithms a0 a1 s
  | .getDigests => Sys2Proof.Machine.execGetDigests s
  | .getCertificate a0 a1 a2 => Sys2Proof.Machine.execGetCertificate a0 a1 a2 s
  | .challenge a0 a1 => Sys2Proof.Machine.execChallenge a0 a1 s
  | .getMeasurements a0 => Sys2Proof.Machine.execGetMeasurements a0 s
  | .spdmUnsupportedRequest a0 => Sys2Proof.Machine.execSpdmUnsupportedRequest a0 s
  | .errstatRead => Sys2Proof.Machine.execErrstatRead s
  | .a2dBell a0 => Sys2Proof.Machine.execA2dBell a0 s
  | .d2aAck a0 => Sys2Proof.Machine.execD2aAck a0 s
  | .faultans => Sys2Proof.Machine.execFaultans s
  | .readyans => Sys2Proof.Machine.execReadyans s
  | .allocans => Sys2Proof.Machine.execAllocans s
  | .viewans => Sys2Proof.Machine.execViewans s
  | .viewAnswerTimeout a0 => Sys2Proof.Machine.execViewAnswerTimeout a0 s
  | .containans => Sys2Proof.Machine.execContainans s
  | .assistRequestWrite => Sys2Proof.Machine.execAssistRequestWrite s
  | .registerWrite a0 a1 => Sys2Proof.Machine.execRegisterWrite a0 a1 s
  | .bisnpResponse a0 a1 => Sys2Proof.Machine.execBisnpResponse a0 a1 s
  | .uncorrectableSoftError a0 => Sys2Proof.Machine.execUncorrectableSoftError a0 s
  | .singleBitEccRepair a0 a1 => Sys2Proof.Machine.execSingleBitEccRepair a0 a1 s
  | .dieToDieRingFailure => Sys2Proof.Machine.execDieToDieRingFailure s
  | .directoryUncorrectableError a0 => Sys2Proof.Machine.execDirectoryUncorrectableError a0 s
  | .mappingRequest a0 => Sys2Proof.Machine.execMappingRequest a0 s
  | .addressSpaceDestruction a0 => Sys2Proof.Machine.execAddressSpaceDestruction a0 s
  | .nibBindRequest a0 a1 a2 a3 a4 => Sys2Proof.Machine.execNibBindRequest a0 a1 a2 a3 a4 s
  | .yieldCcHoldExpiry a0 a1 => Sys2Proof.Machine.execYieldCcHoldExpiry a0 a1 s

end Sys2Proof.Machine
end

