-- ==== Sys2Proof/Machine/Issue.lean ====
section
/-! DEFINITION. The issue of an instruction by a partition of a core, and of a word by an access engine (03 R52-R61, 07
R138-R142, R147-R149), and what an act of the agenda does. -/

namespace Sys2Proof.Machine

/-! ### Eligible warps and their order (R139, R140, R142) -/

/-- A warp that may issue: its next instruction has still to be checked against its queues and flags (R139). -/
def eligible (s : State) (ci slot : Nat) : Bool :=
  match s.warp? ci slot with
  | none => false
  | some w => coreIssues s ci slot && !w.ended && !w.stopped && w.escal.isNone && w.job.isNone && w.wait == .none && !w.stall
      && w.yieldHold.isNone && !w.yieldCc && (w.causes.isEmpty || w.handler.isSome) && !w.front.isEmpty
/-- The place of a warp in the order of R140: the scribe warp, then by class, then by its last issue, then by slot. -/
def rank (s : State) (ci : Nat) (cap : Bool) (slot : Nat) : List Nat :=
  match s.warp? ci slot with
  | none => []
  | some w =>
    if slot = 31 then [0]
    else [1, (if cap && w.cls == 0 then 4 else w.cls.val), (match w.last with | some n => n + 1 | none => 0), slot]
/-- Lexicographic order of ranks. -/
def rankLt : List Nat → List Nat → Bool
  | [], b => !b.isEmpty
  | _, [] => false
  | x :: a, y :: b => x < y || (x == y && rankLt a b)
/-- Puts a slot in its place among ranked slots. -/
def rankInsert (key : Nat → List Nat) (x : Nat) : List Nat → List Nat
  | [] => [x]
  | y :: t => if rankLt (key x) (key y) then x :: y :: t else y :: rankInsert key x t
/-- The class-P cap may stand: 768 of the partition's last 1,024 issues, and so of at least the last 1,024 cc, were of class P; whether they
lie in 1,024 cc is free (R142, R444; log 6). -/
def capped (s : State) (ci part : Nat) : Bool :=
  Config.capped s.tick && 768 ≤ (((s.core ci).pHist[part]?).getD []).count true
/-- The eligible warps of a partition, in the order in which it selects among them. -/
def candidates (s : State) (ci part : Nat) : List Nat :=
  (((List.range 8).map (· + 8 * part)).filter (eligible s ci)).foldl (fun l x => rankInsert (rank s ci (capped s ci part)) x l) []

/-! ### One instruction (R52, R58-R61) -/

/-- A cause that a word raises before it is decoded, with the lanes that its guard leaves active (R61, R63). -/
def wordTrap (s : State) (ci slot : Nat) (c : Ctl) (code : Nat) : State :=
  match ctxOf s c with
  | none => s
  | some k => takeTrap (issued s ci slot c) ci slot (k.cause code k.act 0#64)
/-- The words that may stand only at the end of a clause: BRA to EXIT. -/
def endsClause (op : Nat) : Bool := 0x140 ≤ op && op ≤ 0x146
/-- ISSUES THE WORD at the warp's position, with the checks of R61 in their order. -/
def issueWord (s : State) (ci slot : Nat) (c : Clause) (x : Word96) : Out :=
  let s := landEarly { s with cur := (ci, slot) } ci slot
  let op := (x.extractLsb' 0 10).toNat
  let ctl := ctlOfWord x
  if op = 0 || (endsClause op && c.pos != c.hdr.len) then .next (wordTrap s ci slot ctl cIllegalClause)
  else if !opAssigned op || (0x340 ≤ op && op ≤ 0x345) then .next (wordTrap s ci slot ctl cIllegalOpcode)
  else if 0x380 ≤ op && slot != 31 then .next (wordTrap s ci slot ctl cAccessDenied)
  else match decode x with
    | .ok i => exec i s
    | .error _ => .next (wordTrap s ci slot ctl cIllegalOperand)
/-- A warp fetches a clause where it has none, and issues its next instruction if it still may. -/
def issueWarp (s : State) (ci slot : Nat) : Out :=
  let s := match s.warp? ci slot with
    | some w => if w.clause.isNone then (match execClauseFetch ci slot s with | .next t => t | _ => s) else s
    | none => s
  if !eligible s ci slot then .next s
  else match (s.warp? ci slot).bind (·.clause) with
    | none => .next s
    | some c => match c.word? with
      | none => .next s
      | some x => issueWord s ci slot c x
/-- The candidates in turn, until one has issued: a warp whose next instruction is held is skipped (R139). -/
def issueFirst (ci : Nat) : List Nat → State → Out
  | [], s => .next s
  | x :: t, s => match issueWarp s ci x with
    | .next s' => if (s'.core ci).issues = (s.core ci).issues then issueFirst ci t s' else .next s'
    | r => r
/-- Ends the waits and the holds of a partition's warps that are over. -/
def settlePart (s : State) (ci part : Nat) : State :=
  ((List.range 8).map (· + 8 * part)).foldl (fun s i => if (s.warp? ci i).isSome then settleBar (settle (drain s ci i) ci i) ci i else s) s
/-- No warp runs after a fatal error, or before bring-up has ended (R451, R456). -/
def warpsRun (s : State) : Bool := !s.errs.fatal && s.boot == .running
/-- The warp would issue now. -/
def wouldIssue (s : State) (ci slot : Nat) : Bool :=
  match issueWarp s ci slot with
  | .next t => (t.core ci).issues != (s.core ci).issues
  | _ => true
/-- The YIELD holds that are over: none of the slots that a hold waits for is eligible without having issued since (R47). -/
def endYields (s : State) (ci part : Nat) : State :=
  ((List.range 8).map (· + 8 * part)).foldl (fun s i => match (s.warp? ci i).bind (·.yieldHold) with
    | some l => if l.any (wouldIssue s ci) then s else s.modWarp ci i Warp.endYield
    | none => s) s
/-- A PARTITION OF A CORE ISSUES at most one instruction (R138). -/
def issuePart (ci part : Nat) (s : State) : Out :=
  if !warpsRun s then .next s
  else
    let s := endYields (settlePart s ci part) ci part
    issueFirst ci (candidates s ci part) s

/-! ### The access engine (R60, R147-R149) -/

/-- The slice runs on: its core is not halted, its workgroup is not being pre-empted. -/
def sliceRuns (s : State) (ci : Nat) : Bool :=
  warpsRun s && !(s.core ci).halted && !(s.core ci).haltReq && match (s.core ci).wgs.find? (·.sliceSt == .running) with
    | some g => !g.stopping
    | none => false
/-- The word at the slice PC; a fetch that misses is asked for once, one that is denied halts the slice. -/
def sliceFetch (s : State) (ci : Nat) (g : Wg) : State :=
  if g.sliceWord.isSome then s
  else
    let e := sliceEng ci g
    match fetchWord s ci g.pasid false g.slicePc with
    | (s, .ok x) => (dropKept s ci fun k => k.path == e.path && k.id == 32).modWg ci g.id fun g => { g with sliceWord := some x }
    | (s, .error (.miss va)) => if engPending (s.core ci) e 32 then s else engMiss s e 32 g.slicePc va needX
    | (s, .error _) => (endKept s ci e.path).modWg ci g.id fun g => { g with sliceSt := .halted }
/-- RUNS THE NEXT WORD of a core's slice: any word but the six of R148 halts it. -/
def issueSlice (ci : Nat) (s : State) : Out :=
  if !sliceRuns s ci then .next s
  else
    let s := { s with cur := (ci, 31) }
    match sliceOn s with
    | none => .next s
    | some (_, g) =>
      let s := sliceFetch s ci g
      match ((s.core ci).wg? g.id).bind (·.sliceWord) with
      | none => .next s
      | some x =>
        let op := (x.extractLsb' 0 10).toNat
        let halt := s.modWg ci g.id fun g => { g with sliceSt := .halted, sliceWord := none }
        if op < 0x340 || 0x345 < op then .next halt
        else match decode x with
          | .ok i => exec i s
          | .error _ => .next halt

/-! ### Acts -/

/-- The code of the trap that a warp has just taken, from its frame, or of the cause that waits for the scribe warp. -/
def takenCode (s t : State) (ci slot : Nat) : Option Nat :=
  match s.warp? ci slot, t.warp? ci slot with
  | some w, some x =>
    if w.handler.isNone && x.handler.isSome then some (leNat (rdBytes t.hbm x.framePa 1) % 64)
    else if w.escal.isNone then x.escal.map (·.code) else none
  | _, _ => none
/-- What a warp's boundary comes to where a cause is pending and its next clause or instruction raises one of lower code: that
one is taken, and the pending ones stay (R64). -/
def lowerFirst (s : State) (ci slot : Nat) : Option State :=
  match s.warp? ci slot with
  | none => none
  | some w => match firstCause w.causes with
    | none => none
    | some z =>
      if w.handler.isSome || !warpsRun s then none
      else match issueWarp (s.modWarp ci slot fun w => { w with causes := [] }) ci slot with
        | .next t => match takenCode s t ci slot with
          | some c => if c < z.code then some (t.modWarp ci slot fun x => { x with causes := w.causes ++ x.causes }) else none
          | none => none
        | _ => none
/-- What acts without VCORE of the dies: a reset, and the module's sensors (R450). -/
def coldEvent : Instr → Bool
  | .reset _ | .sensorRefresh _ => true
  | _ => false
/-- An event of the table; at a TRAP_ENTRY the cause of lowest code goes first, the next instruction's among them (R64). -/
def runEvent (i : Instr) (s : State) : Out :=
  if s.boot == .off && !coldEvent i then .next s
  else match i with
  | .trapEntry core slot => match lowerFirst (settle s core slot) core slot with
    | some t => .next t
    | none => exec i s
  | _ => exec i s
/-- AN ACT: an event of the table, an issue, a slice word, or what the host does to its own memory and to the fields of HPCAP that show what
it enables and allots. An instruction word is no event. -/
def runAct (a : Act) (s : State) : Out :=
  match a with
  | .event i => if i.fields.isSome then .next s else runEvent i s
  | .issue core part => issuePart core part s
  | .slice core => issueSlice core s
  | .host addr byte => .next { s with hostMem := tabSet 0#8 s.hostMem addr byte }
  | .caps v => .next { s with port := { s.port with hpcap := (s.port.hpcap &&& ~~~0xFFF00E0#64) ||| (v &&& 0xFFF00E0#64) } }
/-- The next act: the head of the agenda, or what the schedule gives; time passes (R32). -/
def nextAct (s : State) : Act × State :=
  let (a, rest) := match s.agenda with
    | a :: rest => (a, rest)
    | [] => (Config.schedule s.tick, [])
  (a, { s with agenda := rest, tick := s.tick + 1, gtc := s.gtc + (Config.gtcStep s.tick).setWidth 64 })

/-! ### Placing a word where the next step issues it -/

/-- A clause of one word, both of whose flag sets are valid. -/
def oneWord (at_ : Dword) (x : Word96) : Clause := ⟨at_, ⟨1, 0#12, some 0#4, some 1#4, false, 0#12, false⟩, [x], 1⟩
/-- The warp at that clause, with nothing that keeps it from issuing. -/
def Warp.atWord (w : Warp) (x : Word96) : Warp :=
  let e := (w.front.head?).getD ⟨0#64, 0, 0#12, 0xFFFFFFFF#32⟩
  { w with clause := some (oneWord e.pc x), front := { e with pc := e.pc + 12#64 } :: w.front.drop 1, resume := none, wait := .none
           stall := false, yieldHold := none, yieldCc := false, job := none, escal := none, causes := [], ended := false, stopped := false }
/-- A workgroup with nothing but a running slice, whose queues are connected as its word needs. -/
def Wg.ofSlice (id : Nat) (conn : QConn) (x : Word96) : Wg :=
  { (default : Wg) with id := id, sliceSt := .running, sliceWord := some x, qconn := Vector.replicate 16 conn }
/-- A word in the access engine of a core. -/
def placeSlice (s : State) (ci : Nat) (x : Word96) : State :=
  let conn := if x.extractLsb' 0 10 = 0x344#10 then QConn.store else QConn.operand
  s.modCore ci fun k =>
    let k := { k with halted := false, haltReq := false }
    match k.wgs.find? (·.sliceSt == .running) with
    | some g => k.modWg g.id fun g => { g with sliceWord := some x, stopping := false }
    | none => { k with wgs := k.wgs ++ [Wg.ofSlice k.seq conn x] }
/-- A WORD where the next step issues it: in a clause of the scribe warp of the current core, which its partition selects
first, or in that core's access engine. -/
def placeWord (s : State) (x : Word96) : State :=
  let op := (x.extractLsb' 0 10).toNat
  let ci := s.cur.1
  let s := { s with boot := .running, errs := { s.errs with fatal := false } }
  if 0x340 ≤ op && op ≤ 0x345 then { placeSlice s ci x with agenda := [.slice ci] }
  else
    let s := s.modCore ci fun k => { k with warps := k.warps.setIfInBounds 31 (some (((k.warp? 31).getD .scribe).atWord x)) }
    { s with cur := (ci, 31), agenda := [.issue ci 3] }

end Sys2Proof.Machine
end

