-- ==== Sys2Proof/Machine/Step.lean ====
section
/-! DEFINITION. One step of the machine. -/

namespace Sys2Proof.Machine

/-- ONE STEP: the next act is done. -/
def step (s : State) : Host.Outcome State Fault Refusal :=
  runAct (nextAct s).1 (nextAct s).2

/-- The state with an instruction stored where `step` issues its next instruction. -/
def State.withFetchWord (s : State) (nbits w : Nat) : State :=
  placeWord s (BitVec.ofNat 96 (w % 2 ^ nbits))

end Sys2Proof.Machine
end

