-- ==== Sys2Proof/Safety.lean ====
section
/-! DEFINITION. The terms in which statements about the machine are made: canonical memory, when a word of a warp runs
undisturbed, what an instruction with one destination leaves, and what a step comes to. -/

namespace Sys2Proof.Machine

/-! ### Memory -/

/-- A memory is in canonical form: addresses strictly rising, no entry that reads as an unlisted byte does. -/
def Memory.wf (m : List Host.Cell) : Bool := tabWf 0#8 m
/-- The device's memory and the host's are in canonical form. -/
def State.MemWf (s : State) : Prop := Memory.wf s.hbm = true ∧ Memory.wf s.hostMem = true
/-- A byte of device memory. -/
def State.byteAt (s : State) (a : Nat) : Byte := tabGet 0#8 s.hbm a

/-! ### Outcomes -/

/-- The instruction or event `i` answers a next state, of which `P` holds. -/
def Does (i : Instr) (s : State) (P : State → Prop) : Prop := ∃ t, exec i s = .next t ∧ P t
/-- The pending or escalated cause, or the handler's entry: `t` is `s` with the trap `z` taken after the marks of the issue. -/
def Traps (i : Instr) (s : State) (k : Ctx) (c : Ctl) (z : Cause) : Prop :=
  exec i s = .next (takeTrap (issued s k.ci k.wi c) k.ci k.wi z)

/-! ### A word that runs undisturbed (R61) -/

/-- The word with these operands runs: there is an issuing warp (`k`), no operand breaks R40 to R44, R49 or R146, nothing
holds it (R139), no renamed pair breaks R154, and no operand that it reads is poisoned (R87). -/
structure Ready (s : State) (c : Ctl) (scalar long : Bool) (opds : List Opd) (k : Ctx) : Prop where
  issuer : ctxOf s c = some k
  fate : wordFate k c scalar long opds = none
  free : wordHeld k c long opds = false
  pairs : wordPairs k opds = 0#32
  clean : wordPoison (k.popped opds) scalar opds = 0#32

/-- A transfer that runs: the last of its clause (R52), in no ligature (R156). -/
structure ReadyTransfer (s : State) (c : Ctl) (scalar : Bool) (opds : List Opd) (k : Ctx) : Prop where
  ready : Ready s c scalar false opds k
  last : atLast k.w = true
  noLig : k.w.lig.on = false

/-- The state after an instruction with one destination: D and the flags are written after the operands' queues are popped,
and the next instruction follows. -/
def aluNext (k : Ctx) (c : Ctl) (opds : List Opd) (t : Ty) (d : Reg) (f : Ctx → Nat → Int × Flags5) : State :=
  wordEnd (laneResults t d f (k.popped opds)) k.ci k.wi c

/-- The instruction gives each working lane the exact value and the flags of `f`. -/
def Gives (i : Instr) (s : State) (k : Ctx) (c : Ctl) (scalar : Bool) (opds : List Opd) (t : Ty) (d : Reg)
    (f : Ctx → Nat → Int × Flags5) : Prop :=
  Ready s c scalar false opds k → exec i s = .next (aluNext k c opds t d f)

/-- The operands of a word with D, A and B or X at TYPE's width; a predicate D where `p`. -/
def opds3 (o : Alu3) (p : Bool) : List Opd := [opdD o.d o.ty p, opdA o.a o.ty false] ++ opdSrc o.b o.ty
/-- The operands of a word with D, A and a 32-bit amount. -/
def opdsAmt (o : Alu3) : List Opd := [opdD o.d o.ty false, opdA o.a o.ty false] ++ opdAmt o.b o.ty
/-- The operands of a word with D and A. -/
def opds2 (o : Alu2) : List Opd := [opdD o.d o.ty false, opdA o.a o.ty false]

/-- A word with D, A and B or X, whose value comes from the two sources read as TYPE, with no flag. -/
def Gives3 (i : Instr) (o : Alu3) (p : Bool) (s : State) (k : Ctx) (f : Int → Int → Int) : Prop :=
  Gives i s k o.c (isScalar o.d) (opds3 o p) o.ty o.d (noFlags fun k l => f (k.src o.ty o.a l) (k.srcB o.ty o.b l))
/-- The same over the patterns at TYPE's width. -/
def GivesPat (i : Instr) (o : Alu3) (s : State) (k : Ctx) (f : Nat → Nat → Nat) : Prop :=
  Gives i s k o.c (isScalar o.d) (opds3 o false) o.ty o.d (noFlags fun k l => f (k.bits o.ty o.a l) (k.bitsB o.ty o.b l))
/-- A word with D, A and a 32-bit amount, from A's pattern and the amount. -/
def GivesAmt (i : Instr) (o : Alu3) (s : State) (k : Ctx) (f : Nat → Nat → Int) : Prop :=
  Gives i s k o.c (isScalar o.d) (opdsAmt o) o.ty o.d (noFlags fun k l => f (k.bits o.ty o.a l) (k.amt o.b l))
/-- A word with D and A, from A read as TYPE. -/
def Gives2 (i : Instr) (o : Alu2) (s : State) (k : Ctx) (f : Int → Int) : Prop :=
  Gives i s k o.c (isScalar o.d) (opds2 o) o.ty o.d (noFlags fun k l => f (k.src o.ty o.a l))
/-- The same over A's pattern. -/
def GivesPat2 (i : Instr) (o : Alu2) (s : State) (k : Ctx) (f : Nat → Nat) : Prop :=
  Gives i s k o.c (isScalar o.d) (opds2 o) o.ty o.d (noFlags fun k l => f (k.bits o.ty o.a l))

/-! ### Words that are no plain one-destination word -/

/-- The word `i` with these operands, where it runs undisturbed and `H` holds of its context after the pops, leaves `t` of that
context, and the next instruction follows. -/
def Runs (i : Instr) (s : State) (c : Ctl) (scalar long : Bool) (opds : List Opd) (H : Ctx → Prop) (t : Ctx → State) : Prop :=
  ∀ k, Ready s c scalar long opds k → H (k.popped opds) → exec i s = .next (wordEnd (t (k.popped opds)) k.ci k.wi c)
/-- A transfer `i` that runs where `H` holds leaves `t`: the place where the warp goes on is part of `t`. -/
def Jumps (i : Instr) (s : State) (c : Ctl) (scalar : Bool) (opds : List Opd) (H : Ctx → Prop) (t : Ctx → State) : Prop :=
  ∀ k, ReadyTransfer s c scalar opds k → H (k.popped opds) → exec i s = .next (issued (t (k.popped opds)) k.ci k.wi c)
/-- A transfer with no lane that goes falls through. -/
def Falls (i : Instr) (s : State) (c : Ctl) (scalar : Bool) (opds : List Opd) (H : Ctx → Prop) : Prop :=
  ∀ k, ReadyTransfer s c scalar opds k → H (k.popped opds) → exec i s = .next (wordEnd (k.popped opds).s k.ci k.wi c)

/-- Some lane is active. -/
def Ctx.live (k : Ctx) : Prop := k.act ≠ 0#32

/-- A once-word `i` with no active lane has no effect but that the next instruction follows (R45, R61). -/
def Idle (i : Instr) (s : State) (c : Ctl) (scalar long : Bool) (opds : List Opd) : Prop :=
  Runs i s c scalar long opds (fun k => k.act = 0#32) (·.s)
/-- A word performed once (R44) with an active lane, where `H` holds, leaves `t`; with none it has no effect. -/
def Once (i : Instr) (s : State) (c : Ctl) (opds : List Opd) (H : Ctx → Prop) (t : Ctx → State) : Prop :=
  Runs i s c true false opds (fun k => k.act ≠ 0#32 ∧ H k) t ∧ Idle i s c true false opds

/-- The state `u`, where the issuing entry has given way to `es` and, for the lanes in `stay`, to the fall-through, which takes the
PRIO of the header that it reaches at the next boundary (R55, R158). -/
def sentTo (k : Ctx) (u : State) (es : List Entry) (stay : Mask) : State :=
  u.modWarp k.ci k.wi (·.transfer es stay (fallThrough k))
/-- The entries of lanes that went to targets whose headers are `hs`. -/
def sentEntries (hs : List (Dword × Mask × Header)) (depth : Fin 64) : List Entry :=
  hs.map fun x => ⟨x.1, depth, x.2.2.prio, x.2.1⟩
/-- Every target of `goes` reads as a header: `hs` in order of first lane, and `s'` after the fetches. -/
def ReadHeaders (k : Ctx) (goes : List (Nat × Dword)) (s' : State) (hs : List (Dword × Mask × Header)) : Prop :=
  readTargets k k.s (groupTargets goes) = (s', hs.map fun x => (x.1, x.2.1, .header x.2.2))

/-! ### The words that make accesses (R202-R219, R354) -/

/-- A word that makes accesses: its frame, its kind, TYPE, space and ordering, what each lane does, and the context in which a
queue destination has its entry reserved (R211). -/
structure MemShape where
  c : Ctl
  scalar : Bool
  long : Bool
  opds : List Opd
  kind : AccKind
  ty : Ty
  sp : Bool
  ord : Order
  sc : Scope
  lanes : Ctx → List LaneAcc
  res : Ctx → Ctx := id

/-- Base, index and offset of R204 in a lane: 64 bits of A, 32 of B without sign, and the sign-extended offset. -/
def eaLane (k : Ctx) (m : MemOp) (l : Nat) : Dword :=
  BitVec.ofNat 64 (k.rd m.a l 64) + BitVec.ofNat 64 (k.rd m.b l 32) + m.off.signExtend 64
/-- Base and offset of an atomic in a lane. -/
def eaAtom (k : Ctx) (o : AtomOp) (l : Nat) : Dword := BitVec.ofNat 64 (k.rd o.a l 64) + o.off.signExtend 64
/-- The lanes of an instruction performed once (R44): the lowest active lane stands for it. -/
def onceLanes (k : Ctx) (once : Bool) : List Nat := if once then (lanesOf k.act).take 1 else lanesOf k.act
/-- A lane that reads w/8 bytes into D. -/
def loadLane (k : Ctx) (m : MemOp) (l : Nat) : LaneAcc := ⟨l, eaLane k m l, tyWidth m.ty / 8, 0, 0, destOf k m.ty m.d l, []⟩
/-- A lane of an atomic of w/8 bytes with the operand B. -/
def atomLane (k : Ctx) (o : AtomOp) (d : Dest) (l : Nat) : LaneAcc :=
  ⟨l, eaAtom k o l, tyWidth o.ty / 8, k.rd o.b l (tyWidth o.ty), 0, d, []⟩
/-- The lanes of ATOMR, combined by address where each of them may go on (R219). -/
def atomrLanes (o : AtomOp) (aop : AOp) (d : Reg) (k : Ctx) : List LaneAcc :=
  let ls := (onceLanes k (isScalar d)).map fun l => atomLane k o (destOf k o.ty d l) l
  if ls.any fun l => l.va.toNat % l.size != 0 || (!o.sp && !canonical l.va) then ls else combine o.ty aop ls

/-- The words that make accesses: LD, ST, LDQ, NLDC, ATOM, RED, CAS, CAS2, ATOMR and CWB. -/
def memShape : Instr → Option MemShape
  | .ld m => some { c := m.c, scalar := isScalar m.d, long := true, opds := [opdLd m.ty m.d, opdBase m.a, opdIndex m.b], kind := .load
                    ty := m.ty, sp := m.sp, ord := m.ord, sc := m.scope, lanes := fun k => (onceLanes k (isScalar m.d)).map (loadLane k m) }
  | .nldc m => some { c := m.c, scalar := isScalar m.d, long := true, opds := [opdLd m.ty m.d, opdBase m.a, opdIndex m.b], kind := .nldc
                      ty := m.ty, sp := false, ord := m.ord, sc := m.scope, lanes := fun k => (onceLanes k (isScalar m.d)).map (loadLane k m) }
  | .st m => some { c := m.c, scalar := false, long := false, kind := .store, ty := m.ty, sp := m.sp, ord := m.ord, sc := m.scope
                    opds := [{ r := m.d, adm := admSrc, n := regsOf m.ty, noQ := is64 m.ty }, opdBase m.a, opdIndex m.b]
                    lanes := fun k => (onceLanes k (!(isVec m.d || isQueue m.d || isVec m.a || isVec m.b))).map fun l =>
                      ⟨l, eaLane k m l, tyWidth m.ty / 8, k.rd m.d l (tyWidth m.ty), 0, .none, []⟩ }
  | .ldq m => some { c := m.c, scalar := false, long := true, kind := .load, ty := m.ty, sp := m.sp, ord := m.ord, sc := m.scope
                     opds := [{ r := m.d, adm := ⟨false, false, false, true, false⟩, dst := true, src := false }, opdBase m.a, opdIndex m.b]
                     lanes := fun k => (lanesOf k.act).map (loadLane k m), res := fun k => k.reserve m.d }
  | .atom o aop d => some { c := o.c, scalar := isScalar d, long := true, opds := [opdOld o.ty d, opdBase o.a, opdData o.ty o.b]
                            kind := .atom aop, ty := o.ty, sp := o.sp, ord := o.ord, sc := o.scope, res := fun k => k.reserve d
                            lanes := fun k => (onceLanes k (isScalar d)).map fun l => atomLane k o (destOf k o.ty d l) l }
  | .red o aop => some { c := o.c, scalar := false, long := false, opds := [opdBase o.a, opdData o.ty o.b]
                         kind := .red aop, ty := o.ty, sp := o.sp, ord := o.ord, sc := o.scope
                         lanes := fun k => (lanesOf k.act).map (atomLane k o .none) }
  | .cas o d => some { c := o.c, scalar := isScalar d, long := true, kind := .cas, ty := o.ty, sp := o.sp, ord := o.ord, sc := o.scope
                       opds := [{ opdLd o.ty d with src := true }, opdBase o.a, opdData o.ty o.b]
                       lanes := fun k => (onceLanes k (isScalar d)).map fun l =>
                         { atomLane k o (destOf k o.ty d l) l with cmp := k.rd d l (tyWidth o.ty) } }
  | .cas2 o d => some { c := o.c, scalar := false, long := true, kind := .cas2, ty := .n64, sp := o.sp, ord := o.ord, sc := o.scope
                        opds := [{ r := d, adm := admVec, dst := true, n := 4 }, opdBase o.a, { r := o.b, adm := admVec, n := 4 }]
                        lanes := fun k => (lanesOf k.act).map fun l =>
                          ⟨l, eaAtom k o l, 16, k.quadVal o.b l, k.quadVal d l, quadDest k d l, []⟩ }
  | .atomr o aop d => some { c := o.c, scalar := isScalar d, long := true, opds := [opdOld o.ty d, opdBase o.a, opdData o.ty o.b]
                             kind := .atomr aop, ty := o.ty, sp := o.sp, ord := .rlx, sc := .warp, res := fun k => k.reserve d
                             lanes := atomrLanes o aop d }
  | .cwb o flush => some { c := o.c, scalar := false, long := false, opds := [opdBase o.a, opdIndex o.b], kind := .cwb flush, ty := .n8
                           sp := o.sp, ord := .rlx, sc := .warp
                           lanes := fun k => (lanesOf k.act).map fun l =>
                             ⟨l, BitVec.ofNat 64 (k.rd o.a l 64) + BitVec.ofNat 64 (k.rd o.b l 32) + o.off.signExtend 64, 1, 0, 0, .none, []⟩ }
  | _ => none

/-- The accesses of a word: one for each line that its lanes touch (R186). -/
def MemShape.accs (m : MemShape) (k : Ctx) : List Access :=
  groupLines (fun ls => ⟨if m.long then k.w.idNext + 1 else k.w.idNext, .lsu k.wi, m.kind, k.w.pasid, k.wi == 31, m.sp,
    k.w.here.1, k.w.here.2, m.ty, m.ord, m.sc, k.w.lease, if m.long then some k.w.idNext else none, ls⟩) (m.lanes k)
/-- The word has a lane, and every lane's address is a multiple of its size (R205); CWB has no such rule (R222). -/
def MemShape.aligned (m : MemShape) (k : Ctx) : Prop :=
  m.lanes k ≠ [] ∧ ((∀ f, m.kind ≠ .cwb f) → ∀ l ∈ m.lanes k, l.va.toNat % l.size = 0)

/-! ### The shape and the frame of the words with one destination -/

/-- A word with one destination: its guard and hints, its width under R44, its operands, the type and the register that it
writes, and the poison condition of R130, true of every word that is not cross-lane. -/
structure AluShape where
  c      : Ctl
  scalar : Bool
  opds   : List Opd
  ty     : Ty
  d      : Reg
  clean  : Ctx → Bool := fun _ => true

/-- The operands of SHFL; its amount's poison counts for no lane before the instruction (R130). -/
def opdsShfl (o : Alu3) : List Opd :=
  [opdXD o.d o.ty false true, opdX o.a o.ty] ++ (opdAmt o.b o.ty).map fun x => { x with pois := false }
/-- The active lanes that SHFL would give a poisoned value (R130). -/
def shflBad (o : Alu3) (m : ShMode) (seg : Fin 6) (k : Ctx) : Mask :=
  ((opdAmt o.b o.ty).map fun x => { x with pois := false }).foldl (fun m x => m ||| regPoison k x)
    (maskOf fun l => laneIn k.act l &&
      laneIn (regPoison k (opdX o.a o.ty)) (shflFrom m (2 ^ seg.val) l (k.amt o.b l) k.act))
/-- The active lanes at or above the lowest one whose A is poisoned; above it under EXCL (R130). -/
def scanBad (o : Alu2) (excl : Bool) (k : Ctx) : Mask :=
  match (lanesOf (regPoison k (opdX o.a o.ty))).head? with
  | some j => maskOf fun l => laneIn k.act l && (if excl then j < l else j ≤ l)
  | none => 0#32

/-- The words with one destination (R99 to R135), but for FFLAGS and a CVT to `mx`. -/
def aluShape : Instr → Option AluShape
  | .iadd o _ | .isub o _ | .imul o _ | .imulhi o | .idiv o | .irem o | .imin o | .imax o | .land o | .lor o | .lxor o | .landn o
  | .fadd o _ | .fsub o _ | .fmul o _ | .fdiv o _ | .fmin o | .fmax o =>
    some { c := o.c, scalar := isScalar o.d, opds := opds3 o false, ty := o.ty, d := o.d }
  | .iset o _ | .fset o _ => some { c := o.c, scalar := isScalar o.d, opds := opds3 o true, ty := o.ty, d := o.d }
  | .shl o | .shr o | .sar o | .rol o | .bfx o =>
    some { c := o.c, scalar := isScalar o.d, opds := opdsAmt o, ty := o.ty, d := o.d }
  | .iabs o _ | .ineg o _ | .lnot o | .popc o | .clz o | .ctz o | .brev o | .frcp o _ | .frsq o _ | .fsqrt o _
  | .fexp2 o | .flog2 o | .fsin o | .fcos o | .ftanh o | .frnd o _ _ =>
    some { c := o.c, scalar := isScalar o.d, opds := opds2 o, ty := o.ty, d := o.d }
  | .imad o _ | .ffma o _ => some { c := o.c, scalar := isScalar o.d, ty := o.ty, d := o.d
                                    opds := [opdD o.d o.ty false, opdA o.a o.ty false, opdA o.b o.ty false, opdA o.e o.ty false] }
  | .bfi o => some { c := o.c, scalar := isScalar o.d, ty := o.ty, d := o.d
                     opds := [opdD o.d o.ty false, opdA o.a o.ty false, { opdA o.b o.ty false with n := 1 }, opdA o.e o.ty false] }
  | .prmt o e => some { c := o.c, scalar := isScalar o.d, ty := o.ty, d := o.d
                        opds := opdsAmt o ++ (e.toList.map fun r => opdA r .n32 false) }
  | .pset c _ d a b => some { c := c, scalar := false, ty := .n32, d := d
                              opds := [{ r := d, adm := admPred, dst := true, src := false }, { r := a, adm := admPred },
                                { r := b, adm := admPred }] }
  | .sel o _ _ => some { c := o.c, scalar := false, ty := o.ty, d := o.d
                         opds := [{ opdD o.d o.ty false with adm := { admDst with s := false } }, opdA o.a o.ty false] ++ opdSrc o.b o.ty }
  | .mov o => some { c := o.c, scalar := isScalar o.d, opds := [opdD o.d o.ty true, opdA o.a o.ty true], ty := o.ty, d := o.d }
  | .movi c t _ d _ => some { c := c, scalar := isScalar d, opds := [opdD d t false], ty := t, d := d }
  | .lea o _ _ _ => some { c := o.c, scalar := isScalar o.d, ty := o.ty, d := o.d
                           opds := [opdD o.d o.ty false, { opdA o.a o.ty false with adm := { admSrc with q := false } },
                             { opdA o.b o.ty false with n := 1 }] }
  | .fclass o _ => some { c := o.c, scalar := isScalar o.d, opds := [opdD o.d o.ty true, opdA o.a o.ty false], ty := o.ty, d := o.d }
  | .cvt o _ _ seed st _ => if o.ty = .mx then none else
    some { c := o.c, scalar := isScalar o.d, ty := if o.ty == .nf then .n32 else o.ty, d := o.d
           opds := [cvtOpd o.d o.ty true (o.ty == .mx), cvtOpd o.a st false false] ++
             (seed.toList.map fun r => { r := r, adm := admSrc, noQ := is64 o.ty || is64 st }) }
  | .fdot2 o _ | .fdot4 o _ _ => some { c := o.c, scalar := isScalar o.d, ty := .f32, d := o.d
                                        opds := [{ r := o.d, adm := admVS, dst := true, src := true }, { r := o.a, adm := admSrc },
                                          { r := o.b, adm := admSrc }] }
  | .fscale o _ => some { c := o.c, scalar := isScalar o.d, ty := o.ty, d := o.d
                          opds := [opdD o.d o.ty false, opdA o.a o.ty false, { opdA o.b o.ty false with n := 1 }] }
  | .shfl o m seg => some { c := o.c, scalar := false, opds := opdsShfl o, ty := o.ty, d := o.d, clean := fun k => shflBad o m seg k == 0#32 }
  | .vote c op d a => some { c := c, scalar := false, opds := [opdXD d .n32 (op != .ballot) true, { r := a, adm := admPred }], ty := .n32, d := d }
  | .matchv o _ => some { c := o.c, scalar := false, ty := .n32, d := o.d
                          opds := [{ opdXD o.d .n32 false false with noQ := is64 o.ty }, opdX o.a o.ty]
                          clean := fun k => regPoison k (opdX o.a o.ty) == 0#32 || k.act == 0#32 }
  | .redux o _ _ => some { c := o.c, scalar := false, opds := [opdXD o.d o.ty false true, opdX o.a o.ty], ty := o.ty, d := o.d
                           clean := fun k => regPoison k (opdX o.a o.ty) == 0#32 || k.act == 0#32 }
  | .scan o _ excl _ => some { c := o.c, scalar := false, opds := [opdXD o.d o.ty false true, opdX o.a o.ty], ty := o.ty, d := o.d
                               clean := fun k => scanBad o excl k == 0#32 }
  | .lanemask c _ d => some { c := c, scalar := false, opds := [opdXD d .n32 false false], ty := .n32, d := d }
  | _ => none

/-- Slot `j` of the register file is one that the write of `d` at this type names in an active lane (R42, R93, R154). -/
def namesSlot (k : Ctx) (ty : Ty) (d : Reg) (j : Nat) : Prop :=
  match d with
  | .v n => ∃ l, l < 32 ∧ laneIn k.act l = true ∧ (j = k.w.slot l n.val ∨ (tyWidth ty = 64 ∧ j = k.w.slot l (n.val + 1)))
  | _ => False

/-- WHAT A WORD WITH ONE DESTINATION LEAVES ALONE: everything but its own core; of its core everything but the slots, scalar,
predicate or queue that D names, the queues that its operands pop, the flags of its active lanes or, for a scalar D, of the lanes of
its frontier entry (R115), the place of its warp, and the marks of the issue. -/
structure AluFrame (s t : State) (k : Ctx) (opds : List Opd) (ty : Ty) (d : Reg) : Prop where
  rest : { t with cores := s.cores } = s
  cores : ∀ i, i ≠ k.ci → t.core i = s.core i
  core : { t.core k.ci with rf := k.k.rf, rfPois := k.k.rfPois, warps := k.k.warps, wgs := k.k.wgs, issues := k.k.issues, pHist := k.k.pHist, seq := k.k.seq } = k.k
  regs : ∀ j, ¬ namesSlot k ty d j →
    tabGet 0#32 (t.core k.ci).rf j = tabGet 0#32 k.k.rf j ∧ setHas (t.core k.ci).rfPois j = setHas k.k.rfPois j
  others : ∀ j, j ≠ k.wi → t.warp? k.ci j = (s.warp? k.ci j).map (Warp.unhold k.wi)
  warp : ∃ w, t.warp? k.ci k.wi = some w
    ∧ { w with sregs := k.w.sregs, sPois := k.w.sPois, preds := k.w.preds, fflags := k.w.fflags, front := k.w.front,
               clause := k.w.clause, lig := k.w.lig, stall := k.w.stall, last := k.w.last, yieldHold := k.w.yieldHold,
               spilled := k.w.spilled, job := k.w.job, resume := k.w.resume, unread := k.w.unread } = k.w
    ∧ (∀ n : Fin 64, d ≠ .s n → w.sreg n.val = k.w.sreg n.val ∧ w.sPois.getLsbD n.val = k.w.sPois.getLsbD n.val)
    ∧ (∀ n : Fin 8, d ≠ .p n → w.pred n.val = k.w.pred n.val)
    ∧ (∀ l, laneIn (if isScalar d then k.e.mask else k.act) l = false → w.fflags[l]? = k.w.fflags[l]?)
  wgs : (t.core k.ci).wgs.map (fun g => { g with queues := default }) = k.k.wgs.map fun g => { g with queues := default }
  queues : ∀ (id : Nat) (q : Fin 24), q.val ∉ popsOf opds → d ≠ .q q →
    ((t.core k.ci).wg? id).map (·.queues[q]) = (k.k.wg? id).map (·.queues[q])

end Sys2Proof.Machine
end

