-- ==== Sys2Proof/Certificates/Slice0/Obligations.lean ====
section
/-! DEFINITION. The statements for the provers. -/

open Sys2Proof Sys2Proof.Machine

/-! ### Encoding and decoding (R36-R59, R61) -/

/-- DECODE AND ENCODE AGREE, from the instruction: every well-formed instruction that has a word is what its word decodes
to, with every operand at every value that the encoding admits (R36-R40, R202). -/
def Obligations.DecodeOfEncode : Prop :=
  ∀ (i : Instr) (w : Word96), i.wf = true → encode i = some w → decode w = .ok i

/-- DECODE AND ENCODE AGREE, from the word: a word that decodes is the encoding of what it decodes to, which is well formed;
so no bit of an accepted word is dropped (R36, R61). -/
def Obligations.EncodeOfDecode : Prop :=
  ∀ (w : Word96) (i : Instr), decode w = .ok i → encode i = some w ∧ i.wf = true

/-- Worked words of the spec's own encoding tables decode to the instructions that they stand for (R112, R128, R225, R281). -/
def Obligations.WorkedWords : Prop :=
  decodeTableWord 96 0x400B700000F0402021
      = some (.lea ⟨Ctl.zero, .n64, .v 8, .s 4, .v 3⟩ 3 true 0x40#32)
  ∧ decodeTableWord 96 0x12C80203A0000501C01
      = some (.iadd ⟨{ Ctl.zero with gneg := true, gpred := 2, stall := 3 }, .i32, .v 7, .v 5, .imm 300#32⟩ false)
  ∧ decodeTableWord 96 0x741A0000180501083
      = some (.ffma ⟨Ctl.zero, .f32, .v 4, .v 5, .v 6, .v 7⟩ .rz)
  ∧ decodeTableWord 96 0x50400000030300201
      = some (.seminc Ctl.zero .core (.reg (.s 3)) 5#6)
  ∧ decodeTableWord 96 0x150021030000000000000284
      = some (.mma ⟨Ctl.zero, 3, 1, 2, 0, true, false, 5⟩)
  ∧ decodeTableWord 96 0xFFFFFFFE0000000000200342
      = some (.aloop 2 0xFFFFFFFE#32)
  ∧ decodeTableWord 96 0x800000000000C1780
      = some (.csrr Ctl.zero (.s 5) 8#12)

/-- A clause header is the 96 bits of its fields, in both directions (R50): the word of a header that breaks nothing in R51 is
rebuilt from its fields, and every header with a LEN of 1 to 15 and flags below 12 reads back from its word. -/
def Obligations.HeaderRoundTrip : Prop :=
  (∀ (w : Word96) (h : Header), Header.ofWord w = some h → h.bad = false → h.toWord = w)
  ∧ (∀ h : Header, 1 ≤ h.len → h.len ≤ 15 → (∀ f ∈ h.setA, f.toNat < 12) → (∀ f ∈ h.setB, f.toNat < 12) → h.bad = false →
      Header.ofWord h.toWord = some h)

/-- R51 is broken by a header word: a LEN of 0, a valid set that names flag 12 to 15, a nonzero set field whose valid bit is
clear, a reserved bit. -/
def breaksR51 (x : Word96) : Prop :=
  x.extractLsb' 10 4 = 0#4
  ∨ (x.getLsbD 30 = true ∧ 12 ≤ (x.extractLsb' 26 4).toNat) ∨ (x.getLsbD 35 = true ∧ 12 ≤ (x.extractLsb' 31 4).toNat)
  ∨ (x.getLsbD 30 = false ∧ x.extractLsb' 26 4 ≠ 0#4) ∨ (x.getLsbD 35 = false ∧ x.extractLsb' 31 4 ≠ 0#4)
  ∨ x.getLsbD 37 = true ∨ x.extractLsb' 50 46 ≠ 0#46

/-- A warp that reaches a header that breaks R51 takes ILLEGAL_CLAUSE at the header: as the clause of the entry that it selects
begins, and where a clause resumes; every header that breaks nothing in R51 is admitted, so SETA and SETB may name the same flag. -/
def Obligations.HeaderFaults : Prop :=
  (∀ (s s1 s2 : State) (core slot : Nat) (w w1 : Warp) (e : Entry) (x : Word96),
    s.warp? core slot = some w → w.atBoundary = true → coreIssues s core slot = true → w.resume = none →
    w.job = none → refreshHead s core slot = (s1, true) → (s1.warp? core slot).map Warp.choose = some (w1, true) → w1.front.head? = some e →
    fetchWord (s1.modWarp core slot fun _ => w1) core w1.pasid (slot == 31) e.pc = (s2, .ok x) →
    x.extractLsb' 0 10 = 0#10 → breaksR51 x →
    exec (.clauseFetch core slot) s
      = .next (takeTrap s2 core slot ⟨0x03, e.mask, e.pc, 0, 0#64, 0#32, 0#4, false⟩))
  ∧ (∀ (s s2 : State) (core slot p : Nat) (w : Warp) (e : Entry) (x : Word96),
    s.warp? core slot = some w → w.atBoundary = true → coreIssues s core slot = true → w.resume = some p →
    w.front.head? = some e → fetchWord s core w.pasid (slot == 31) e.pc = (s2, .ok x) →
    x.extractLsb' 0 10 = 0#10 → breaksR51 x →
    exec (.clauseFetch core slot) s
      = .next (takeTrap s2 core slot ⟨0x03, e.mask, e.pc, 0, 0#64, 0#32, 0#4, false⟩))
  ∧ (∀ x : Word96, x.extractLsb' 0 10 = 0#10 → ¬ breaksR51 x → ∃ h, Header.ofWord x = some h ∧ h.bad = false)

/-- The unassigned opcodes of R58 and those of the access slice. -/
def unassignedR58 (o : Nat) : Prop :=
  (0x022 ≤ o ∧ o ≤ 0x07F) ∨ (0x097 ≤ o ∧ o ≤ 0x0FF) ∨ (0x106 ≤ o ∧ o ≤ 0x13F) ∨ (0x150 ≤ o ∧ o ≤ 0x17F)
  ∨ (0x18E ≤ o ∧ o ≤ 0x1FF) ∨ (0x20A ≤ o ∧ o ≤ 0x23F) ∨ (0x246 ≤ o ∧ o ≤ 0x27F) ∨ (0x28B ≤ o ∧ o ≤ 0x2FF)
  ∨ (0x306 ≤ o ∧ o ≤ 0x33F) ∨ (0x346 ≤ o ∧ o ≤ 0x37F) ∨ (0x388 ≤ o ∧ o ≤ 0x3BF) ∨ (0x3C0 ≤ o ∧ o ≤ 0x3FF)
  ∨ (0x340 ≤ o ∧ o ≤ 0x345)

/-- A word in warp code that carries an opcode that R58 leaves unassigned, or one of the access slice, raises ILLEGAL_OPCODE. -/
def Obligations.UnassignedOpcode : Prop :=
  ∀ (s : State) (ci slot : Nat) (cl : Clause) (x : Word96) (k : Ctx),
    let u := landEarly { s with cur := (ci, slot) } ci slot
    ctxOf u (ctlOfWord x) = some k → unassignedR58 (x.extractLsb' 0 10).toNat →
    issueWord s ci slot cl x = .next (takeTrap (issued u ci slot (ctlOfWord x)) ci slot (k.cause 0x01 k.act 0#64))

/-- A warp other than the scribe warp that issues a system instruction raises ACCESS_DENIED, whatever the word's other fields
hold (R59; the order is that of R61). -/
def Obligations.SystemWordDenied : Prop :=
  ∀ (s : State) (ci slot : Nat) (cl : Clause) (x : Word96) (k : Ctx),
    let u := landEarly { s with cur := (ci, slot) } ci slot
    ctxOf u (ctlOfWord x) = some k → slot ≠ 31 →
    0x380 ≤ (x.extractLsb' 0 10).toNat → (x.extractLsb' 0 10).toNat ≤ 0x387 →
    issueWord s ci slot cl x = .next (takeTrap (issued u ci slot (ctlOfWord x)) ci slot (k.cause 0x05 k.act 0#64))

/-- The state in which a partition selects the warp that issues next: waits and holds that are over have ended. -/
def settled (s : State) (ci part : Nat) : State := endYields (settlePart (nextAct s).2 ci part) ci part

/-- A STEP RUNS THE DECODED INSTRUCTION. Where the next act is the issue of a partition, the first warp that it selects has a
word at its position, and the word may stand there and decodes to `i`, the step is `exec i`, followed by the other candidates
only where the word is held back (R138-R140); of the registers that a long-latency instruction has still to write, those that a
free choice names hold their new values by then (R144). An event of the agenda is `exec` of that event, but for a TRAP_ENTRY that
a cause of lower code goes before (R64); a slice word that is fetched and decodes is run by the access engine (R60, R147). -/
def Obligations.StepRunsDecoded : Prop :=
  (∀ (s : State) (ci part slot : Nat) (rest : List Act) (t : List Nat) (w : Warp) (cl : Clause) (x : Word96) (i : Instr),
    s.agenda = .issue ci part :: rest → warpsRun (nextAct s).2 = true →
    candidates (settled s ci part) ci part = slot :: t →
    (settled s ci part).warp? ci slot = some w → w.clause = some cl → cl.word? = some x →
    eligible (settled s ci part) ci slot = true →
    (x.extractLsb' 0 10).toNat ≠ 0 → (endsClause (x.extractLsb' 0 10).toNat = true → cl.pos = cl.hdr.len) →
    ¬ (0x340 ≤ (x.extractLsb' 0 10).toNat ∧ (x.extractLsb' 0 10).toNat ≤ 0x345) →
    (0x380 ≤ (x.extractLsb' 0 10).toNat → slot = 31) → decode x = .ok i →
    step s = match exec i (landEarly { settled s ci part with cur := (ci, slot) } ci slot) with
      | .next u => if (u.core ci).issues = ((settled s ci part).core ci).issues then issueFirst ci t u else .next u
      | r => r)
  ∧ (∀ (s : State) (i : Instr) (rest : List Act), s.agenda = .event i :: rest → i.fields = none → (∀ c w, i ≠ .trapEntry c w) →
      step s = exec i (nextAct s).2)
  ∧ (∀ (s : State) (core slot : Nat) (rest : List Act), s.agenda = .event (.trapEntry core slot) :: rest →
      lowerFirst (settle (nextAct s).2 core slot) core slot = none → step s = exec (.trapEntry core slot) (nextAct s).2)
  ∧ (∀ (s : State) (ci : Nat) (rest : List Act) (g : Wg) (x : Word96) (i : Instr), s.agenda = .slice ci :: rest →
      sliceRuns (nextAct s).2 ci = true → ((nextAct s).2.core ci).wgs.find? (·.sliceSt == .running) = some g →
      ((nextAct s).2.core ci).wg? g.id = some g → g.sliceWord = some x →
      0x340 ≤ (x.extractLsb' 0 10).toNat → (x.extractLsb' 0 10).toNat ≤ 0x345 → decode x = .ok i →
      step s = exec i { (nextAct s).2 with cur := (ci, 31) })
/-! ### Reset (R94, R249, R267, R398, R403, R451) and memory -/

/-- What reset leaves (R451 step 8, R249, R398, R403, R375): Bammar's scribe warp alone is resident, in slot 31 of every core,
with `v0` to `v63` at 4,032 and its registers 0; FWC 0 and LTLIM 1,024 on every die; GOVB 256; the host link up; no device of
a pod. The zeros of the registers that R451 names no value for are the model's (log 8). -/
def Claim.ResetFields : Prop :=
  let s := State.reset
  s.boot = .running ∧ s.hbm = [] ∧ s.hostMem = [] ∧ s.gtc = 0#64
  ∧ (∀ ci < 384, (s.core ci).pts = 0#16 ∧ (s.core ci).govB = 256#9 ∧ (s.core ci).wgs = []
      ∧ (s.core ci).halted = false ∧ (s.core ci).warp? 31 = some Warp.scribe
      ∧ ∀ j < 31, (s.core ci).warp? j = none)
  ∧ Warp.scribe.base = 4032 ∧ Warp.scribe.n = 64 ∧ (∀ n, Warp.scribe.sreg n = 0#64)
  ∧ (∀ d < 4, (s.die d).fwc = 0#16 ∧ (s.die d).ltlim = 1024#16)
  ∧ s.port.hpcap = 0x8000#64 ∧ s.port.d2hNext = 1#32 ∧ s.twins = []

/-- The memories of the reset state are in canonical form. -/
def Claim.ResetMemory : Prop := State.reset.MemWf

/-- Every operation that writes a memory keeps its canonical form: bytes, masked bytes, a line's lanes, Bammar's own writes,
an error record and a trap's frame. -/
def Claim.WritesKeepCanonical : Prop :=
  (∀ (m : List Host.Cell) (a : Nat) (bs : List Byte), Memory.wf m = true → Memory.wf (wrBytes m a bs) = true)
  ∧ (∀ (m : List Host.Cell) (a : Nat) (bs : List Byte) (ms : List Bool), Memory.wf m = true → Memory.wf (wrMasked m a bs ms) = true)
  ∧ (∀ (s : State) (ws : List (Nat × Nat × Nat)) (p : Bool), s.MemWf → (hbmLanes s ws p).MemWf)
  ∧ (∀ (s : State) (c pa : Nat) (bs : List Byte), s.MemWf → (s.sysWrite c pa bs).MemWf)
  ∧ (∀ (s : State) (cls code : Nat) (src : BitVec 16) (a d : Nat), s.MemWf → (logError s cls code src a d).1.MemWf)
  ∧ (∀ (s : State) (ci wi : Nat) (z : Cause), s.MemWf → (takeTrap s ci wi z).MemWf)

/-- A byte that a write covers reads as written and every other byte as before: little-endian numbers of `n` bytes (R5, R207). -/
def Claim.ReadAfterWrite : Prop :=
  (∀ (m : List Host.Cell) (a n v : Nat), v < 256 ^ n → leNat (rdBytes (wrBytes m a (leBytes n v)) a n) = v)
  ∧ (∀ (m : List Host.Cell) (a : Nat) (bs : List Byte) (b : Nat), (b < a ∨ a + bs.length ≤ b) →
      tabGet 0#8 (wrBytes m a bs) b = tabGet 0#8 m b)

/-- What reset leaves (R451, R249, R398, R403), and that its memories are in canonical form. -/
def Obligations.ResetState : Prop := Claim.ResetFields ∧ Claim.ResetMemory

/-- Writes of memory: they keep the canonical form, a byte reads as written, and every other byte as before (R5, R207). -/
def Obligations.MemoryWrites : Prop := Claim.WritesKeepCanonical ∧ Claim.ReadAfterWrite

/-- AN INVARIANT THAT EVERY STEP KEEPS: from every state whose device memory and host memory are in canonical form (addresses strictly
rising, no entry equal to what an unlisted address reads as), whatever the next act is, a step leaves them so; equal memories are then
equal data. -/
def Obligations.MemoryStaysCanonical : Prop :=
  ∀ s t : State, s.MemWf → step s = .next t → t.MemWf
/-! ### Integers, bits and moves (05 R99-R112) -/

/-- IADD, ISUB, IMUL, IMULHI, IMAD, IMIN, IMAX, IABS and INEG that run give every working lane the exact result, clamped under
SAT, through Dst, with no flag (R101, R102). -/
def Claim.IntegerResults : Prop :=
  ∀ (s : State) (k : Ctx) (o : Alu3) (o2 : Alu2) (o4 : Alu4) (sat : Bool),
    Gives3 (.iadd o sat) o false s k (fun a b => satTy sat o.ty (a + b))
    ∧ Gives3 (.isub o sat) o false s k (fun a b => satTy sat o.ty (a - b))
    ∧ Gives3 (.imul o sat) o false s k (fun a b => satTy sat o.ty (a * b))
    ∧ Gives3 (.imulhi o) o false s k (fun a b => a * b / 2 ^ tyWidth o.ty)
    ∧ Gives3 (.imin o) o false s k (fun a b => if a ≤ b then a else b)
    ∧ Gives3 (.imax o) o false s k (fun a b => if a ≤ b then b else a)
    ∧ Gives2 (.iabs o2 sat) o2 s k (fun a => satTy sat o2.ty (if a < 0 then -a else a))
    ∧ Gives2 (.ineg o2 sat) o2 s k (fun a => satTy sat o2.ty (-a))
    ∧ Gives (.imad o4 sat) s k o4.c (isScalar o4.d)
        [opdD o4.d o4.ty false, opdA o4.a o4.ty false, opdA o4.b o4.ty false, opdA o4.e o4.ty false] o4.ty o4.d
        (noFlags fun k l => satTy sat o4.ty (k.src o4.ty o4.a l * k.src o4.ty o4.b l + k.src o4.ty o4.e l))

/-- Clamp of R101: the result lies in TYPE's range and a value of the range passes unchanged; a value below it gives its least
and one above it its greatest value. -/
def Claim.ClampRange : Prop :=
  ∀ (t : Ty) (v lo hi : Int), isIntTy t = true →
    lo = (if isSignedTy t then -(2 ^ (tyWidth t - 1)) else 0) →
    hi = (if isSignedTy t then 2 ^ (tyWidth t - 1) - 1 else 2 ^ tyWidth t - 1) →
    (v < lo → clampTy t v = lo) ∧ (hi < v → clampTy t v = hi) ∧ (lo ≤ v → v ≤ hi → clampTy t v = v)

/-- IDIV and IREM that run give the results of R103: the quotient rounded toward zero, a remainder with the dividend's sign,
and the table's values for a divisor of 0 and for the least signed number over -1. -/
def Obligations.IntegerDivision : Prop :=
  (∀ (s : State) (k : Ctx) (o : Alu3),
    Gives3 (.idiv o) o false s k (idivRes o.ty) ∧ Gives3 (.irem o) o false s k iremRes)
  ∧ (∀ (t : Ty) (a : Int), idivRes t a 0 = (if isSignedTy t then -1 else 2 ^ tyWidth t - 1) ∧ iremRes a 0 = a)
  ∧ (∀ (t : Ty) (a b : Int), b ≠ 0 → a = idivRes t a b * b + iremRes a b ∧ (iremRes a b).natAbs < b.natAbs
      ∧ (iremRes a b ≠ 0 → (iremRes a b < 0 ↔ a < 0)))
  ∧ (∀ (t : Ty), isSignedTy t = true → iremRes (-(2 ^ (tyWidth t - 1))) (-1) = 0
      ∧ tyInt t (BitVec.ofInt (tyWidth t) (idivRes t (-(2 ^ (tyWidth t - 1))) (-1))).toNat = -(2 ^ (tyWidth t - 1)))

/-- The logic, shift and counting instructions that run act on the patterns of TYPE's width, a shift amount being the 32 bits of
Amt (R101, R104). -/
def Obligations.LogicAndShifts : Prop :=
  ∀ (s : State) (k : Ctx) (o : Alu3) (o2 : Alu2),
    GivesPat (.land o) o s k (fun a b => a &&& b)
    ∧ GivesPat (.lor o) o s k (fun a b => a ||| b)
    ∧ GivesPat (.lxor o) o s k (fun a b => a ^^^ b)
    ∧ GivesPat (.landn o) o s k (fun a b => a &&& (2 ^ tyWidth o.ty - 1 - b))
    ∧ GivesPat2 (.lnot o2) o2 s k (fun a => 2 ^ tyWidth o2.ty - 1 - a)
    ∧ GivesAmt (.shl o) o s k (fun a n => if n < tyWidth o.ty then ((a * 2 ^ n : Nat) : Int) else 0)
    ∧ GivesAmt (.shr o) o s k (fun a n => if n < tyWidth o.ty then ((a / 2 ^ n : Nat) : Int) else 0)
    ∧ GivesAmt (.sar o) o s k (fun a n =>
        (if 2 ^ (tyWidth o.ty - 1) ≤ a then (a : Int) - 2 ^ tyWidth o.ty else a) / 2 ^ min n (tyWidth o.ty - 1))
    ∧ GivesAmt (.rol o) o s k (fun a n => ((a * 2 ^ (n % tyWidth o.ty)) ||| (a / 2 ^ (tyWidth o.ty - n % tyWidth o.ty)) : Nat))
    ∧ GivesPat2 (.popc o2) o2 s k (popcount (tyWidth o2.ty))
    ∧ GivesPat2 (.clz o2) o2 s k (clzRes (tyWidth o2.ty))
    ∧ GivesPat2 (.ctz o2) o2 s k (ctzRes (tyWidth o2.ty))
    ∧ GivesPat2 (.brev o2) o2 s k (brevRes (tyWidth o2.ty))

/-- POPC counts the ones; CLZ and CTZ the zeros above the highest and below the lowest one, and the width of an empty pattern;
BREV moves bit i to bit w-1-i (R104). -/
def Claim.BitCounts : Prop :=
  ∀ (w a : Nat), a < 2 ^ w →
    popcount w a = ((List.range w).filter fun i => a.testBit i).length
    ∧ (a = 0 → clzRes w a = w ∧ ctzRes w a = w)
    ∧ (a ≠ 0 → clzRes w a < w ∧ a.testBit (w - 1 - clzRes w a) = true
        ∧ (∀ i, w - 1 - clzRes w a < i → a.testBit i = false)
        ∧ a.testBit (ctzRes w a) = true ∧ ∀ i, i < ctzRes w a → a.testBit i = false)
    ∧ (∀ i, i < w → (brevRes w a).testBit (w - 1 - i) = a.testBit i) ∧ brevRes w a < 2 ^ w

/-- BFX, BFI and PRMT that run (R105, R106), and that BFX and BFI take and put exactly the bits of their field. -/
def Claim.BitFields : Prop :=
  (∀ (s : State) (k : Ctx) (o : Alu3) (o4 : Alu4) (e : Option Reg),
    GivesAmt (.bfx o) o s k (bfxRes o.ty)
    ∧ Gives (.bfi o4) s k o4.c (isScalar o4.d)
        [opdD o4.d o4.ty false, opdA o4.a o4.ty false, { opdA o4.b o4.ty false with n := 1 }, opdA o4.e o4.ty false] o4.ty o4.d
        (noFlags fun k l => bfiRes (tyWidth o4.ty) (k.bits o4.ty o4.a l) (k.bits o4.ty o4.e l) (k.rd o4.b l 32))
    ∧ Gives (.prmt o e) s k o.c (isScalar o.d)
        ([opdD o.d o.ty false, opdA o.a o.ty false] ++ opdAmt o.b o.ty ++ (e.toList.map fun r => opdA r .n32 false)) o.ty o.d
        (noFlags fun k l =>
          prmtRes (k.bits o.ty o.a l) (match e with | some r => k.rd r l 32 | none => 0) (k.amt o.b l)))
  ∧ (∀ (w amt : Nat), (fieldOf w amt).1 = amt % 256
      ∧ (fieldOf w amt).2 = if w ≤ amt % 256 then 0 else min (amt / 256 % 256) (w - amt % 256))
  ∧ (∀ (t : Ty) (a amt : Nat), isSignedTy t = false →
      bfxRes t a amt = ((a / 2 ^ (fieldOf (tyWidth t) amt).1 % 2 ^ (fieldOf (tyWidth t) amt).2 : Nat) : Int))
  ∧ (∀ (w a c amt i : Nat), (bfiRes w a c amt).testBit i =
      if (fieldOf w amt).1 ≤ i ∧ i < (fieldOf w amt).1 + (fieldOf w amt).2 then a.testBit (i - (fieldOf w amt).1) else c.testBit i)
  ∧ (∀ (a c sel i : Nat), i < 4 → prmtRes a c sel / 2 ^ (8 * i) % 256 =
      (let n := sel / 2 ^ (4 * i) % 16
       let b := (a % 2 ^ 32 + 2 ^ 32 * (c % 2 ^ 32)) / 2 ^ (8 * (n % 8)) % 256
       if 8 ≤ n then (if 128 ≤ b then 255 else 0) else b))

/-- ISET, PSET, SEL, MOV, MOVI and LEA that run (R107-R112). -/
def Obligations.CompareSelectMove : Prop :=
  ∀ (s : State) (k : Ctx) (o : Alu3) (o2 : Alu2) (oR : AluR) (cond : Cond) (c : Ctl) (op : POp) (d a b : Reg) (sp : Fin 8)
    (sneg hi bsx : Bool) (t : Ty) (x : Word) (scale : Fin 5),
    Gives3 (.iset o cond) o true s k (fun a b => if (match cond with
        | .eq => decide (a = b) | .ne => decide (a ≠ b) | .lt => decide (a < b)
        | .le => decide (a ≤ b) | .gt => decide (a > b) | .ge => decide (a ≥ b)) then 1 else 0)
    ∧ Gives (.pset c op d a b) s k c false
        [{ r := d, adm := admPred, dst := true, src := false }, { r := a, adm := admPred }, { r := b, adm := admPred }] .n32 d
        (noFlags fun k l =>
          let x := k.rd a l 1 == 1
          let y := k.rd b l 1 == 1
          if (match op with | .and => x && y | .or => x || y | .xor => x ^^ y | .andn => x && !y) then 1 else 0)
    ∧ Gives (.sel o sp sneg) s k o.c false
        ([{ opdD o.d o.ty false with adm := { admDst with s := false } }, opdA o.a o.ty false] ++ opdSrc o.b o.ty) o.ty o.d
        (noFlags fun k l => if laneIn (k.w.pred sp.val) l ^^ sneg then k.src o.ty o.a l else k.srcB o.ty o.b l)
    ∧ Gives (.mov o2) s k o2.c (isScalar o2.d) [opdD o2.d o2.ty true, opdA o2.a o2.ty true] o2.ty o2.d
        (noFlags fun k l => k.src o2.ty o2.a l)
    ∧ Gives (.movi c t hi d x) s k c (isScalar d) [opdD d t false] t d
        (noFlags fun _ _ => if hi then ((x.toNat * 2 ^ 32 : Nat) : Int) else (immBits t x : Nat))
    ∧ Gives (.lea oR scale bsx x) s k oR.c (isScalar oR.d)
        [opdD oR.d oR.ty false, { opdA oR.a oR.ty false with adm := { admSrc with q := false } }, { opdA oR.b oR.ty false with n := 1 }]
        oR.ty oR.d
        (noFlags fun k l =>
          (((k.src64 oR.a l) + ((if bsx then (BitVec.ofNat 32 (k.rd oR.b l 32)).signExtend 64
              else (BitVec.ofNat 32 (k.rd oR.b l 32)).setWidth 64) <<< scale.val) + x.signExtend 64).toNat : Int))

/-- The integer arithmetic of R101 and R102: each instruction's result, and what the clamp of SAT does. -/
def Obligations.IntegerArithmetic : Prop := Claim.IntegerResults ∧ Claim.ClampRange

/-- Counts of bits and bit fields (R104, R105, R106). -/
def Obligations.BitCountsAndFields : Prop := Claim.BitCounts ∧ Claim.BitFields
/-! ### Floating point (04 R66-R84, 06 R114-R128) -/

/-- The floating-point arithmetic that runs computes each lane's exact value and rounds it once under RM (R80, R115, R116, R120),
or chooses and compares as R117 to R119 say; the lane raises the flags of both. -/
def Obligations.FloatArithmetic : Prop :=
  ∀ (s : State) (k : Ctx) (o : Alu3) (o2 : Alu2) (o4 : Alu4) (rm : Rm) (fc : FCond) (x : Word),
    let arith := fun (f : Val → Val → Val × Flags5) (k : Ctx) (l : Nat) =>
      roundTo o.ty rm (f (k.fsrc o.ty o.a l) (k.fsrcB o.ty o.b l))
    let unary := fun (f : Val → Val × Flags5) (k : Ctx) (l : Nat) => roundTo o2.ty rm (f (k.fsrc o2.ty o2.a l))
    Gives (.fadd o rm) s k o.c (isScalar o.d) (opds3 o false) o.ty o.d (arith fun a b => a.add b (rm == .rd))
    ∧ Gives (.fsub o rm) s k o.c (isScalar o.d) (opds3 o false) o.ty o.d (arith fun a b => a.add b.negate (rm == .rd))
    ∧ Gives (.fmul o rm) s k o.c (isScalar o.d) (opds3 o false) o.ty o.d (arith Val.mul)
    ∧ Gives (.fdiv o rm) s k o.c (isScalar o.d) (opds3 o false) o.ty o.d (arith Val.div)
    ∧ Gives (.ffma o4 rm) s k o4.c (isScalar o4.d)
        [opdD o4.d o4.ty false, opdA o4.a o4.ty false, opdA o4.b o4.ty false, opdA o4.e o4.ty false] o4.ty o4.d
        (fun k l =>
          let p := (k.fsrc o4.ty o4.a l).mul (k.fsrc o4.ty o4.b l)
          let q := p.1.add (k.fsrc o4.ty o4.e l) (rm == .rd)
          roundTo o4.ty rm (q.1, p.2 ||| q.2))
    ∧ Gives (.frcp o2 rm) s k o2.c (isScalar o2.d) (opds2 o2) o2.ty o2.d (unary fun a => (Val.fin false (.dy 1 0)).div a)
    ∧ Gives (.frsq o2 rm) s k o2.c (isScalar o2.d) (opds2 o2) o2.ty o2.d (unary frsqRes)
    ∧ Gives (.fsqrt o2 rm) s k o2.c (isScalar o2.d) (opds2 o2) o2.ty o2.d (unary fsqrtRes)
    ∧ Gives (.fmin o) s k o.c (isScalar o.d) (opds3 o false) o.ty o.d
        (fun k l => let r := fminmax (fmtOf o.ty) false (k.bits o.ty o.a l) (k.bitsB o.ty o.b l); ((r.1 : Int), r.2))
    ∧ Gives (.fmax o) s k o.c (isScalar o.d) (opds3 o false) o.ty o.d
        (fun k l => let r := fminmax (fmtOf o.ty) true (k.bits o.ty o.a l) (k.bitsB o.ty o.b l); ((r.1 : Int), r.2))
    ∧ Gives (.fset o fc) s k o.c (isScalar o.d) (opds3 o true) o.ty o.d
        (fun k l => let r := fsetRes fc (k.fsrc o.ty o.a l) (k.fsrcB o.ty o.b l); (if r.1 then 1 else 0, r.2))
    ∧ Gives (.fclass o2 x) s k o2.c (isScalar o2.d) [opdD o2.d o2.ty true, opdA o2.a o2.ty false] o2.ty o2.d
        (fun k l =>
          let m := fclassRes (fmtOf o2.ty) (k.bits o2.ty o2.a l)
          (if isPred o2.d then (if m &&& x.toNat % 1024 ≠ 0 then 1 else 0) else (m : Int), 0#5))

/-- The special cases of R116, R68 and R120: NaN operands, opposite infinities, infinity times zero, zero divisors, zero over
zero, the sign of an exact zero sum, square roots of negative numbers, and reciprocals of zeros and infinities; and a sum that
holds both infinities is invalid, whatever else it holds (R84). -/
def Obligations.FloatSpecialCases : Prop :=
  (∀ (x y : Val) (rd : Bool), (x.isNan || y.isNan) = true →
    let f := if x.isSnan || y.isSnan then flNV else 0#5
    x.add y rd = (.nan false, f) ∧ x.mul y = (.nan false, f) ∧ x.div y = (.nan false, f))
  ∧ (∀ (a rd : Bool), (Val.inf a).add (.inf !a) rd = (.nan false, flNV) ∧ (Val.inf a).add (.inf a) rd = (.inf a, 0#5))
  ∧ (∀ (a b : Bool) (m : Mag), m.isZero = true →
      (Val.inf a).mul (.fin b m) = (.nan false, flNV) ∧ (Val.fin b m).mul (.inf a) = (.nan false, flNV))
  ∧ (∀ (a b : Bool) (m z : Mag), m.isZero = false → z.isZero = true →
      (Val.fin a m).div (.fin b z) = (.inf (a != b), flDZ) ∧ (Val.fin a z).div (.fin b z) = (.nan false, flNV)
      ∧ (Val.inf a).div (.inf b) = (.nan false, flNV))
  ∧ (∀ (n : Nat) (e : Int) (a rd : Bool), 0 < n →
      (Val.fin a (.dy n e)).add (.fin (!a) (.dy n e)) rd = (.zero rd, 0#5))
  ∧ (∀ (a b rd : Bool), (Val.zero a).add (.zero b) rd = (.zero (if a = b then a else rd), 0#5))
  ∧ (∀ (m z : Mag), m.isZero = false → z.isZero = true →
      fsqrtRes (.fin true m) = (.nan false, flNV) ∧ frsqRes (.fin true m) = (.nan false, flNV)
      ∧ (∀ a, fsqrtRes (.fin a z) = (.zero a, 0#5) ∧ frsqRes (.fin a z) = (.inf a, flDZ) ∧ frcpRes (.fin a z) = (.inf a, flDZ))
      ∧ frsqRes (.inf false) = (.zero false, 0#5) ∧ frsqRes (.inf true) = (.nan false, flNV)
      ∧ fsqrtRes (.inf false) = (.inf false, 0#5) ∧ fsqrtRes (.inf true) = (.nan false, flNV)
      ∧ ∀ a, frcpRes (.inf a) = (.zero a, 0#5))
  ∧ (∀ ps : List (Val × Flags5), .inf false ∈ ps.map (·.1) → .inf true ∈ ps.map (·.1) →
      (exactSum ps).1 = .nan false ∧ (exactSum ps).2 &&& flNV = flNV)

/-- Rounding to an integer by the modes of R79: n/2^k goes to its floor toward zero, away from it in a directed mode that its
sign asks for, to the nearest with ties to even under RNE, and under SR up exactly where the dropped fraction and the draw
reach 2^32 (R81); `true` says that it moved (R122, R126). -/
def Claim.IntegralRounding : Prop :=
  ∀ (neg : Bool) (n k : Nat) (g : Word),
    let q := n / 2 ^ k
    let r := n % 2 ^ k
    let m := Mag.dy n (-(k : Int))
    roundInt neg m .rz g = (q, decide (r ≠ 0))
    ∧ roundInt neg m .ru g = (if r ≠ 0 ∧ neg = false then q + 1 else q, decide (r ≠ 0))
    ∧ roundInt neg m .rd g = (if r ≠ 0 ∧ neg = true then q + 1 else q, decide (r ≠ 0))
    ∧ roundInt neg m .rne g = (if 2 ^ k < 2 * r ∨ (2 * r = 2 ^ k ∧ q % 2 = 1) then q + 1 else q, decide (r ≠ 0))
    ∧ roundInt neg m .sr g = (if 2 ^ 32 ≤ r * 2 ^ 32 / 2 ^ k + g.toNat then q + 1 else q, decide (r ≠ 0))

/-- Every code of E4M3 (NFD 0x50739, R124) that is no NaN is the rounding of its own value in every mode, with no flag; and the
two draws of R81's table round 1.0625 as it says. -/
def Claim.NarrowRoundTrip : Prop :=
  (∀ c < 256, c % 128 ≠ 127 → ∀ rm ∈ [Rm.rne, .rz, .ru, .rd, .sr],
      ((nfdFmt 0x50739#19).round ((nfdFmt 0x50739#19).value c) rm 1#32).code = c
      ∧ ((nfdFmt 0x50739#19).round ((nfdFmt 0x50739#19).value c) rm 1#32).flags = 0#5)
  ∧ ((nfdFmt 0x50739#19).round (.fin false (.dy 17 (-4))) .sr 1#32).code = 0x38
  ∧ ((nfdFmt 0x50739#19).round (.fin false (.dy 17 (-4))) .sr 0x80000000#32).code = 0x39

/-- The functions, conversions, dot products, scaling and FFLAGS that run (R121 to R128). What the spec leaves open of an f32
function, a code within its bound, is the free choice of `transcRes` (log 11). -/
def Obligations.FloatFunctions : Prop :=
  ∀ (s : State) (k : Ctx) (o2 : Alu2) (oR : AluR) (rm : Rm) (exact sat : Bool) (seed d : Option Reg) (st : Ty)
    (desc : BitVec 20) (nfd : BitVec 19) (c : Ctl) (op : FfOp) (b : Src),
    let code := fun (f : Nat → Int × Flags5) (k : Ctx) (l : Nat) => f (k.bits o2.ty o2.a l)
    let dot := fun (nfd : BitVec 19) (k : Ctx) (l : Nat) =>
      let p := exactSum (((dotElems oR.ty nfd (k.rd oR.a l 32)).zip (dotElems oR.ty nfd (k.rd oR.b l 32))).map fun e =>
        prodOf (dotInt oR.ty nfd) e.1 e.2)
      let t := (fmtF32.value (k.rd oR.d l 32)).add p.1 (rm == .rd)
      roundTo .f32 rm (t.1, p.2 ||| t.2)
    let opdsDot : List Opd := [{ r := oR.d, adm := admVS, dst := true, src := true }, { r := oR.a, adm := admSrc }, { r := oR.b, adm := admSrc }]
    let opdsCvt := [cvtOpd o2.d o2.ty true (o2.ty == .mx), cvtOpd o2.a st false false] ++
      (seed.toList.map fun r => ({ r := r, adm := admSrc, noQ := is64 o2.ty || is64 st } : Opd))
    Gives (.fexp2 o2) s k o2.c (isScalar o2.d) (opds2 o2) o2.ty o2.d (code (transcRes o2.ty .exp2))
    ∧ Gives (.flog2 o2) s k o2.c (isScalar o2.d) (opds2 o2) o2.ty o2.d (code (transcRes o2.ty .log2))
    ∧ Gives (.fsin o2) s k o2.c (isScalar o2.d) (opds2 o2) o2.ty o2.d (code (transcRes o2.ty .sin))
    ∧ Gives (.fcos o2) s k o2.c (isScalar o2.d) (opds2 o2) o2.ty o2.d (code (transcRes o2.ty .cos))
    ∧ Gives (.ftanh o2) s k o2.c (isScalar o2.d) (opds2 o2) o2.ty o2.d (code (transcRes o2.ty .tanh))
    ∧ Gives (.frnd o2 rm exact) s k o2.c (isScalar o2.d) (opds2 o2) o2.ty o2.d
        (code fun x => let r := frndRes (fmtOf o2.ty) rm exact x; ((r.1 : Int), r.2))
    ∧ (o2.ty ≠ .mx → Gives (.cvt o2 rm sat seed st desc) s k o2.c (isScalar o2.d) opdsCvt (if o2.ty == .nf then .n32 else o2.ty) o2.d
        (fun k l =>
          let v := cvtValue st desc (k.bits st o2.a l)
          if isIntTy o2.ty then
            if isIntTy st then (satTy sat o2.ty (tyInt st (k.bits st o2.a l)), 0#5) else cvtToInt o2.ty rm v
          else cvtToFloat (if o2.ty = .nf then nfdFmt (desc.extractLsb' 0 19) else fmtOf o2.ty) rm sat v
            (if v.isSnan then flNV else 0#5) (match seed with | some r => BitVec.ofNat 32 (k.rd r l 32) | none => 1#32)))
    ∧ Runs (.cvt o2 rm sat seed st desc) s o2.c (isScalar o2.d) false opdsCvt (fun _ => o2.ty = .mx) (cvtMx o2 rm seed st desc)
    ∧ Gives (.fdot2 oR rm) s k oR.c (isScalar oR.d) opdsDot .f32 oR.d (dot 0#19)
    ∧ Gives (.fdot4 oR rm nfd) s k oR.c (isScalar oR.d) opdsDot .f32 oR.d (dot nfd)
    ∧ Gives (.fscale oR rm) s k oR.c (isScalar oR.d)
        [opdD oR.d oR.ty false, opdA oR.a oR.ty false, { opdA oR.b oR.ty false with n := 1 }] oR.ty oR.d
        (fun k l => roundTo oR.ty rm (fscaleRes (k.fsrc oR.ty oR.a l) (tyInt .i32 (k.rd oR.b l 32))))
    ∧ Runs (.fflags c op d b) s c false false
        ((d.toList.map fun r => ({ r := r, adm := admVec, dst := true, src := false } : Opd)) ++ opdB b 1 false) (fun _ => True)
        (fun k =>
          let old := fun l => (k.w.fflags[l]?).getD 0#5
          let m := fun l => BitVec.ofNat 5 (k.amt b l)
          let s := k.s.modWarp k.ci k.wi fun w => (lanesOf k.act).foldl (init := w) fun w l =>
            { w with fflags := w.fflags.setIfInBounds l (match op with
                | .read => old l | .clear => old l &&& ~~~(m l) | .set => old l ||| m l | .write => m l) }
          match d with
          | some r => writeLanes s k.ci k.wi .n32 r ((lanesOf k.act).map fun l => (l, ((old l).toNat : Int)))
          | none => s)

/-- Rounding: to an integer in every mode (R79, R81, R122), and of a narrow format's own values (R124). -/
def Obligations.Rounding : Prop := Claim.IntegralRounding ∧ Claim.NarrowRoundTrip
/-! ### Cross-lane work (06 R129-R135) -/

/-- SHFL, VOTE, MATCH, REDUX, SCAN and LANEMASK that run, where no active lane's result depends on a poisoned A (R130): each
active lane receives the value of R131 to R135. -/
def Claim.CrossLaneResults : Prop :=
  ∀ (s : State) (o : Alu3) (o2 : Alu2) (c : Ctl) (m : ShMode) (seg : Fin 6) (op : VoteOp) (d a : Reg) (all excl : Bool)
    (ro : RedOp) (rm : Rm) (lm : LmKind),
    Runs (.shfl o m seg) s o.c false false (opdsShfl o) (fun k => shflBad o m seg k = 0#32)
      (laneResults o.ty o.d (noFlags fun k l => k.src o.ty o.a (shflFrom m (2 ^ seg.val) l (k.amt o.b l) k.act)))
    ∧ Runs (.vote c op d a) s c false false [opdXD d .n32 (op != .ballot) true, { r := a, adm := admPred }] (fun _ => True)
      (laneResults .n32 d (noFlags fun k _ =>
        let m := maskOf fun l => laneIn k.act l && k.rd a l 1 == 1
        match op with
        | .all => if m = k.act then 1 else 0
        | .any => if m ≠ 0#32 then 1 else 0
        | .uni => if m = k.act ∨ m = 0#32 then 1 else 0
        | .ballot => (m.toNat : Int)))
    ∧ Runs (.matchv o2 all) s o2.c false false [{ opdXD o2.d .n32 false false with noQ := is64 o2.ty }, opdX o2.a o2.ty]
      (fun k => regPoison k (opdX o2.a o2.ty) = 0#32)
      (laneResults .n32 o2.d (noFlags fun k l =>
        let m := maskOf fun j => laneIn k.act j && k.bits o2.ty o2.a j == k.bits o2.ty o2.a l
        if all = true ∧ m ≠ k.act then 0 else (m.toNat : Int)))
    ∧ Runs (.redux o2 ro rm) s o2.c false false [opdXD o2.d o2.ty false true, opdX o2.a o2.ty]
      (fun k => regPoison k (opdX o2.a o2.ty) = 0#32)
      (fun k =>
        let r := redTree o2.ty ro rm ((List.range 32).map fun p => if laneIn k.act p then some (k.bits o2.ty o2.a p) else none)
        laneResults o2.ty o2.d (fun _ _ => (((r.1.getD 0 : Nat) : Int), r.2)) k)
    ∧ Runs (.scan o2 ro excl rm) s o2.c false false [opdXD o2.d o2.ty false true, opdX o2.a o2.ty]
      (fun k => scanBad o2 excl k = 0#32)
      (fun k =>
        let outs := scanGo o2.ty ro excl rm ((lanesOf k.act).map fun l => (l, k.bits o2.ty o2.a l)) (none, 0#5)
        laneResults o2.ty o2.d (fun _ l => match outs.find? (·.1 == l) with
          | some (_, v, f) => ((v : Int), f)
          | none => (0, 0#5)) k)
    ∧ Runs (.lanemask c lm d) s c false false [opdXD d .n32 false false] (fun _ => True)
      (laneResults .n32 d (noFlags fun _ l => ((maskOf fun j => match lm with
        | .eq => decide (j = l) | .lt => decide (j < l) | .le => decide (j ≤ l)
        | .gt => decide (j > l) | .ge => decide (j ≥ l)).toNat : Int)))

/-- A cross-lane word whose result depends on a poisoned A in some active lane traps POISON_CONSUMED with exactly those lanes in
its frame (R130). -/
def Claim.CrossLanePoison : Prop :=
  ∀ (s : State) (k : Ctx) (o : Alu3) (o2 : Alu2) (m : ShMode) (seg : Fin 6) (all excl : Bool) (ro : RedOp) (rm : Rm),
    (Ready s o.c false false (opdsShfl o) k → shflBad o m seg (k.popped (opdsShfl o)) ≠ 0#32 →
      Traps (.shfl o m seg) s k o.c (k.cause 0x08 (shflBad o m seg (k.popped (opdsShfl o))) 0#64))
    ∧ (let ops := [{ opdXD o2.d .n32 false false with noQ := is64 o2.ty }, opdX o2.a o2.ty]
       Ready s o2.c false false ops k → regPoison (k.popped ops) (opdX o2.a o2.ty) ≠ 0#32 → k.act ≠ 0#32 →
       Traps (.matchv o2 all) s k o2.c (k.cause 0x08 k.act 0#64))
    ∧ (let ops := [opdXD o2.d o2.ty false true, opdX o2.a o2.ty]
       Ready s o2.c false false ops k → regPoison (k.popped ops) (opdX o2.a o2.ty) ≠ 0#32 → k.act ≠ 0#32 →
       Traps (.redux o2 ro rm) s k o2.c (k.cause 0x08 k.act 0#64))
    ∧ (let ops := [opdXD o2.d o2.ty false true, opdX o2.a o2.ty]
       Ready s o2.c false false ops k → scanBad o2 excl (k.popped ops) ≠ 0#32 →
       Traps (.scan o2 ro excl rm) s k o2.c (k.cause 0x08 (scanBad o2 excl (k.popped ops)) 0#64))

/-! ### Destinations, flags and frames (04 R65-R67, R82; 05 R41-R45, R101) -/

/-- A vector D: in every active lane the register, or the even register and the one after it, takes the value modulo 2^w,
extended to 32 bits as its type says, and its poison is cleared (R42, R65, R67, R86, R101). -/
def Obligations.VectorDestination : Prop :=
  ∀ (s : State) (c : Ctl) (k : Ctx) (opds : List Opd) (t : Ty) (n : Fin 768) (f : Ctx → Nat → Int × Flags5) (l : Nat),
    ctxOf s c = some k → l < 32 → laneIn k.act l = true →
    let u := (aluNext k c opds t (.v n) f).core k.ci
    let v := (f (k.popped opds) l).1
    (tyWidth t ≠ 64 → tabGet 0#32 u.rf (k.w.slot l n.val) =
        (if isSignedTy t then (BitVec.ofInt (tyWidth t) v).signExtend 32 else (BitVec.ofInt (tyWidth t) v).setWidth 32)
      ∧ setHas u.rfPois (k.w.slot l n.val) = false)
    ∧ (tyWidth t = 64 → k.w.slot l (n.val + 1) ≠ k.w.slot l n.val →
        tabGet 0#32 u.rf (k.w.slot l (n.val + 1)) ++ tabGet 0#32 u.rf (k.w.slot l n.val) = BitVec.ofInt 64 v
        ∧ setHas u.rfPois (k.w.slot l n.val) = false ∧ setHas u.rfPois (k.w.slot l (n.val + 1)) = false)

/-- A scalar D takes one value, extended to 64 bits as its type says, where some lane is active, and is unchanged otherwise
(R42, R44, R67); a predicate D takes in each active lane whether the value is nonzero, a write to `p0` is discarded (R41, R101);
a queue D takes one entry whose other lanes are 0 (R43). -/
def Claim.ScalarPredicateQueue : Prop :=
  ∀ (s : State) (c : Ctl) (k : Ctx) (opds : List Opd) (t : Ty) (f : Ctx → Nat → Int × Flags5), ctxOf s c = some k →
    (∀ n : Fin 64, ∃ w, (aluNext k c opds t (.s n) f).warp? k.ci k.wi = some w ∧
      (k.act ≠ 0#32 → w.sreg n.val = (if isSignedTy t then (BitVec.ofInt (tyWidth t) (f (k.popped opds) 0).1).signExtend 64
          else (BitVec.ofInt (tyWidth t) (f (k.popped opds) 0).1).setWidth 64) ∧ w.sPois.getLsbD n.val = false)
      ∧ (k.act = 0#32 → w.sreg n.val = k.w.sreg n.val))
    ∧ (∀ n : Fin 8, ∃ w, (aluNext k c opds t (.p n) f).warp? k.ci k.wi = some w ∧
      (n = 0 → w.preds = k.w.preds)
      ∧ (n ≠ 0 → ∀ l < 32, laneIn (w.pred n.val) l =
          if laneIn k.act l then decide ((f (k.popped opds) l).1 ≠ 0) else laneIn (k.w.pred n.val) l))
    ∧ (∀ (n : Fin 24) (g : Wg), (k.popped opds).g = some g →
      ∃ (e : QEntry) (u : Wg), ((aluNext k c opds t (.q n) f).core k.ci).wg? g.id = some u
        ∧ u.queues[n] = g.queues[n] ++ [e] ∧ e.landed = 0xFFFFFFFF#32
        ∧ ∀ l : Fin 32, e.lanes[l] = if laneIn k.act l.val then extend32 t (f (k.popped opds) l.val).1 else 0#32)

/-- The flags that a lane raises are ORed into its `%flags`; those of a scalar D go to every active lane; a lane that is not
active keeps its flags (R82, R115). -/
def Claim.StickyFlags : Prop :=
  ∀ (s : State) (c : Ctl) (k : Ctx) (opds : List Opd) (t : Ty) (d : Reg) (f : Ctx → Nat → Int × Flags5), ctxOf s c = some k →
    ∃ w, (aluNext k c opds t d f).warp? k.ci k.wi = some w ∧ ∀ l : Fin 32, w.fflags[l] =
      if laneIn k.act l.val then k.w.fflags[l] ||| (f (k.popped opds) (if isScalar d then 0 else l.val)).2 else k.w.fflags[l]

/-- THE FRAME of every word with one destination: IADD to LEA, FADD to FSCALE but for FFLAGS and a CVT to `mx`, and SHFL to
LANEMASK, where it runs, leaves alone everything that `AluFrame` lists. -/
def Obligations.OneDestinationFrame : Prop :=
  ∀ (i : Instr) (a : AluShape) (s t : State) (k : Ctx), aluShape i = some a →
    Ready s a.c a.scalar false a.opds k → a.clean (k.popped a.opds) = true → exec i s = .next t →
    AluFrame s t k a.opds a.ty a.d

/-- The cross-lane instructions (R130 to R135): their results, and where a poisoned source traps. -/
def Obligations.CrossLane : Prop := Claim.CrossLaneResults ∧ Claim.CrossLanePoison

/-- A scalar, a predicate or a queue as D, and the sticky flags (R41 to R44, R67, R82, R101, R115). -/
def Obligations.OtherDestinations : Prop := Claim.ScalarPredicateQueue ∧ Claim.StickyFlags

/-! ### Control (07 R157-R168) -/

/-- DIRECT TRANSFERS that run: BRA, BRD and CALL send the lanes that go to the transfer word's address plus X, sign-extended, as
ONE entry with the PRIO of the header there; the entry's other lanes go on at the fall-through at its own DEPTH; CALL writes
the fall-through address to D and its entry is one deeper (R158, R159, R160). With no lane that goes the transfer falls
through. -/
def Obligations.DirectTransfers : Prop :=
  ∀ (s s' : State) (k : Ctx) (c : Ctl) (a d : Reg) (pneg : Bool) (off : Word) (h : Header),
    let t := k.e.pc + off.signExtend 64
    (let x := k.popped []
     ReadyTransfer s c false [] k → k.act ≠ 0#32 → readTarget x x.s t = (s', .header h) →
      exec (.bra c off) s = .next (issued (sentTo x s' [⟨t, k.e.depth, h.prio, k.act⟩] (k.e.mask &&& ~~~k.act)) k.ci k.wi c))
    ∧ (let x := k.popped [{ r := a, adm := admPred }]
       let go := maskOf fun l => laneIn k.act l && ((k.rd a l 1 == 1) != pneg)
       ReadyTransfer s c false [{ r := a, adm := admPred }] k → go ≠ 0#32 → readTarget x x.s t = (s', .header h) →
        exec (.brd c a pneg off) s = .next (issued (sentTo x s' [⟨t, k.e.depth, h.prio, go⟩] (k.e.mask &&& ~~~go)) k.ci k.wi c))
    ∧ (∀ deep : Fin 64, deep.val = k.e.depth.val + 1 →
       let x := k.popped [opdReturn d]
       ReadyTransfer s c (isScalar d) [opdReturn d] k → k.act ≠ 0#32 → readTarget x x.s t = (s', .header h) →
        exec (.call c d off) s = .next (issued (sentTo x
          (writeLanes s' k.ci k.wi .n64 d ((lanesOf k.act).map fun l => (l, (((k.e.pc + 12#64).toNat : Nat) : Int))))
          [⟨t, deep, h.prio, k.act⟩] (k.e.mask &&& ~~~k.act)) k.ci k.wi c))
    ∧ Falls (.bra c off) s c false [] (fun k => k.act = 0#32)
    ∧ Falls (.brd c a pneg off) s c false [{ r := a, adm := admPred }]
        (fun k => (maskOf fun l => laneIn k.act l && ((k.rd a l 1 == 1) != pneg)) = 0#32)
    ∧ Falls (.call c d off) s c (isScalar d) [opdReturn d] (fun k => k.act = 0#32)

/-- INDIRECT TRANSFERS that run: BRX, CALLX and RET send each active lane to the 64-bit address that A holds for it, one entry for
each distinct address, at the DEPTH that R159 to R161 give. -/
def Claim.IndirectTargets : Prop :=
  ∀ (s s' : State) (c : Ctl) (a d : Reg) (hs : List (Dword × Mask × Header)) (depth : Fin 64),
    Jumps (.brx c a) s c false [opdTarget a] (fun k => k.act ≠ 0#32 ∧ k.e.depth = depth ∧ ReadHeaders k (eachTo k a) s' hs)
      (fun k => sentTo k s' (sentEntries hs depth) (inactive k))
    ∧ Jumps (.callx c d a) s c (isScalar d) [opdReturn d, opdTarget a]
      (fun k => k.act ≠ 0#32 ∧ k.e.depth.val + 1 = depth.val ∧ ReadHeaders k (eachTo k a) s' hs)
      (fun k => sentTo k (writeLanes s' k.ci k.wi .n64 d ((lanesOf k.act).map fun l => (l, (((fallThrough k).toNat : Nat) : Int))))
        (sentEntries hs depth) (inactive k))
    ∧ Jumps (.ret c a) s c false [opdTarget a]
      (fun k => k.act ≠ 0#32 ∧ k.e.depth.val = depth.val + 1 ∧ ReadHeaders k (eachTo k a) s' hs)
      (fun k => sentTo k s' (sentEntries hs depth) (inactive k))
    ∧ Falls (.brx c a) s c false [opdTarget a] (fun k => k.act = 0#32)
    ∧ Falls (.callx c d a) s c (isScalar d) [opdReturn d, opdTarget a] (fun k => k.act = 0#32)
    ∧ Falls (.ret c a) s c false [opdTarget a] (fun k => k.act = 0#32)

/-- The lanes of a transfer are grouped by address: every group's mask holds exactly the lanes that go to its address, no
address has two groups, and no lane is lost (R158). -/
def Claim.TargetGroups : Prop :=
  ∀ (goes : List (Nat × Dword)), (∀ x ∈ goes, x.1 < 32) →
    ((groupTargets goes).map (·.1)).Nodup
    ∧ (∀ x ∈ goes, ∃ m, (x.2, m) ∈ groupTargets goes)
    ∧ ∀ t m, (t, m) ∈ groupTargets goes → ∀ l, laneIn m l = true ↔ (l, t) ∈ goes

/-- A CALL or CALLX at DEPTH 63, a RET at DEPTH 0, and a RET with TR outside a handler, with an active lane, raise
ILLEGAL_OPERAND before the transfer (R160, R161). -/
def Claim.TransferDepths : Prop :=
  ∀ (s : State) (k : Ctx) (c : Ctl) (a d : Reg) (off : Word), k.act ≠ 0#32 →
    (ReadyTransfer s c (isScalar d) [opdReturn d] k → k.e.depth.val = 63 → Traps (.call c d off) s k c (k.cause 0x02 k.act 0#64))
    ∧ (ReadyTransfer s c (isScalar d) [opdReturn d, opdTarget a] k → k.e.depth.val = 63 →
        Traps (.callx c d a) s k c (k.cause 0x02 k.act 0#64))
    ∧ (ReadyTransfer s c false [opdTarget a] k → k.e.depth.val = 0 → Traps (.ret c a) s k c (k.cause 0x02 k.act 0#64))
    ∧ (ReadyTransfer s c false [] k → k.w.handler = none → Traps (.retTr c) s k c (k.cause 0x02 k.act 0#64))

/-- EXIT ends the active lanes; the entry's other lanes go on at the fall-through, and a warp with no entry left ends (R162).
RET with TR restores s63, the saved frontier and the ligature state, discards the handler's own frontier, and puts the entry
that took the trap at the clause that PC and POS of the frame name, to resume at POS + SKIP, or at its header, where it merges with an
entry that stands there (R151, R387). EXIT of a twinned warp waits while its batch cannot close (R422). -/
def Obligations.ExitAndReturn : Prop :=
  ∀ (s : State) (c : Ctl) (sv : Saved) (f : Nat),
    Jumps (.exit c) s c false [] (fun k => k.act ≠ 0#32 ∧ closeHeld k = false)
      (fun k =>
        let s := closeBatch k.s k.ci k.wi
        s.modWarp k.ci k.wi fun w =>
          let w := w.transfer [] (k.e.mask &&& ~~~k.act) (k.e.pc + 12#64)
          if w.front = [] ∧ w.spilled = [] then { w with ended := true, mflags := Vector.replicate 12 0#5, wait := .none } else w)
    ∧ Falls (.exit c) s c false [] (fun k => k.act = 0#32)
    ∧ Jumps (.retTr c) s c false []
      (fun k => k.act ≠ 0#32 ∧ k.w.handler = some sv ∧ k.w.front.length + k.w.spilled.length = 1
        ∧ frameBusy k.s k.ci k.wi k.w = false ∧ 63 ∉ k.w.sbPend ∧ f = leNat (rdBytes (snoopBytes k.s k.ci k.w.framePa 128).hbm k.w.framePa 128)
        ∧ frameReserved f = false)
      (fun k => (snoopBytes k.s k.ci k.w.framePa 128).modWarp k.ci k.wi fun w =>
        let at_ := BitVec.ofNat 64 (f / 2 ^ 128) - BitVec.ofNat 64 (12 * (f / 2 ^ 16 % 16))
        let w := { w with
          sregs := w.sregs.setIfInBounds 63 (BitVec.ofNat 64 (f / 2 ^ 320))
          sPois := w.sPois &&& ~~~(1#64 <<< 63)
          front := sv.front, spilled := sv.spilled, lig := sv.lig, clause := none, resume := none, unread := false, handler := none
          job := if 8 < sv.front.length then some .spill else none }
        if f / 2 ^ 16 % 16 + f / 2 ^ 24 % 2 = 0 then w.headTo at_
        else { w with
          front := (match sv.front with | e :: es => { e with pc := at_ } :: es | [] => [])
          resume := some (f / 2 ^ 16 % 16 + f / 2 ^ 24 % 2) })
    ∧ Falls (.retTr c) s c false [] (fun k => k.act = 0#32)

/-- NOP has no effect; YIELD leaves the hold of R47 over the other warps of its class and, with X other than 0, the hold of X cc;
WAITC waits for its flags, or merges the matrix flags at once where all are zero; LIGON, LIGMAP and LIGOFF that pass the checks
of R156 leave what takes effect at the next boundary (R163 to R166). -/
def Obligations.WaitsAndLigatures : Prop :=
  ∀ (s : State) (c : Ctl) (n : BitVec 16) (m : BitVec 12) (a : Reg) (b : Option Reg) (path : Fin 4) (slot : Fin 16) (x y : Fin 768),
    Runs (.nop c) s c false false [] (fun _ => True) (·.s)
    ∧ (∀ k, Ready s c false false [] k → k.act ≠ 0#32 →
        exec (.yield c n) s = .next (wordEnd ((k.popped []).s.modWarp k.ci k.wi fun w => { w with yieldCc := n != 0#16 })
          k.ci k.wi { c with yld := true }))
    ∧ Runs (.waitc c m) s c false false [] (fun k => k.act ≠ 0#32 ∧ m ≠ 0#12)
        (fun k => k.s.modWarp k.ci k.wi fun w =>
          if w.flagsZero m then w.mergeFlags m k.act else { w with wait := .flags m k.act })
    ∧ Runs (.waitc c m) s c false false [] (fun k => k.act = 0#32 ∨ m = 0#12) (·.s)
    ∧ Runs (.ligon c a b) s c false false ({ r := a, adm := admPred } :: b.toList.map fun r => { r := r, adm := admPred })
        (fun k => k.w.lig.on = false ∧ k.w.lig.pendOn = false ∧ k.w.front.length + k.w.spilled.length = 1)
        (fun k => k.s.modWarp k.ci k.wi fun w => { w with lig := { w.lig with
          path0 := maskOf fun l => laneIn k.e.mask l && k.rd a l 1 == 1
          path1 := (match b with | some r => maskOf fun l => laneIn k.e.mask l && k.rd r l 1 == 1 | none => 0#32)
          map := [], pendMap := [], pendOn := true } })
    ∧ Runs (.ligmap c path slot (.v x) (.v y)) s c false false
        [{ r := .v x, adm := admVec, src := false }, { r := .v y, adm := admVec, src := false }]
        (fun k => k.w.lig.on = true ∨ k.w.lig.pendOn = true)
        (fun k => k.s.modWarp k.ci k.wi fun w => { w with lig := { w.lig with pendMap := w.lig.pendMap ++ [⟨path, slot, x.val, y.val⟩] } })
    ∧ Runs (.ligoff c) s c false false [] (fun k => k.w.lig.on = true)
        (fun k => k.s.modWarp k.ci k.wi fun w => { w with lig := { w.lig with pendOff := true } })

/-- A ligature instruction that fails a check of R156 raises LIGATURE_ERROR: LIGON in a MELD clause, twice, or with another entry
in the frontier; LIGMAP with no ligature begun; LIGOFF outside one. A transfer in a MELD clause raises it too. -/
def Claim.LigatureErrors : Prop :=
  ∀ (s : State) (k : Ctx) (c : Ctl) (a : Reg) (b : Option Reg) (path : Fin 4) (slot : Fin 16) (x y : Reg) (off : Word),
    (Ready s c false false ({ r := a, adm := admPred } :: b.toList.map fun r => { r := r, adm := admPred }) k →
      (k.w.lig.on = true ∨ k.w.lig.pendOn = true ∨ 1 < k.w.front.length + k.w.spilled.length) →
      Traps (.ligon c a b) s k c (k.cause 0x09 k.act 0#64))
    ∧ (Ready s c false false [{ r := x, adm := admVec, src := false }, { r := y, adm := admVec, src := false }] k →
      k.w.lig.on = false → k.w.lig.pendOn = false → Traps (.ligmap c path slot x y) s k c (k.cause 0x09 k.act 0#64))
    ∧ (Ready s c false false [] k → k.w.lig.on = false → Traps (.ligoff c) s k c (k.cause 0x09 k.act 0#64))
    ∧ (Ready s c false false [] k → atLast k.w = true → k.w.lig.on = true →
      Traps (.bra c off) s k c (k.cause 0x09 k.act 0#64) ∧ Traps (.exit c) s k c (k.cause 0x09 k.act 0#64)
      ∧ Traps (.retTr c) s k c (k.cause 0x09 k.act 0#64))

/-- TRAP is taken after the instruction and BRKPT before it, both with X as the code and SKIP set; SVC puts its record into the
lowest free place of the mailbox, in the registers' order with zeros after them, under the tag of R376, and waits for the reply (R167,
R168). With
no active lane none of them has an effect; a full mailbox holds SVC, whatever its guard and operands (R139). -/
def Obligations.TrapsAndCalls : Prop :=
  ∀ (s : State) (c : Ctl) (code : Word) (i : Fin 64) (n : Fin 16) (r : Nat),
    (∀ k, Ready s c false false [] k → k.act ≠ 0#32 →
      exec (.trap c code) s = .next (takeTrap (wordEnd (k.popped []).s k.ci k.wi c) k.ci k.wi
        ⟨0x0D, k.act, k.w.here.1, k.w.here.2, 0#64, code, 0#4, true⟩)
      ∧ exec (.brkpt c code) s = .next (takeTrap (issued s k.ci k.wi c) k.ci k.wi
        ⟨0x0C, k.act, k.w.here.1, k.w.here.2, 0#64, code, 0#4, true⟩))
    ∧ Idle (.trap c code) s c false false [] ∧ Idle (.brkpt c code) s c false false []
    ∧ Runs (.svc c (.s i) n) s c true false (scalarRun (.s i) n.val)
        (fun k => k.act = 0#32 ∧ ∃ j < 16, k.k.mail.all (·.idx != j) = true) (·.s)
    ∧ Runs (.svc c (.s i) n) s c true false (scalarRun (.s i) n.val)
        (fun k => k.act ≠ 0#32 ∧ closeHeld k = false ∧ r < 16 ∧ k.k.mail.all (·.idx != r) = true ∧ ∀ j < r, k.k.mail.any (·.idx == j) = true)
        (fun k =>
          let words := (List.range 8).map fun j => if j < n.val then k.w.sreg (i.val + j) else 0#64
          ((closeBatch k.s k.ci k.wi).modCore k.ci fun x => { x with
              mail := x.mail ++ [⟨r, k.wi, (k.w.wg).getD 0, k.w.pasid, n.val, k.w.here.1, words, false, none⟩]
              mailMem := wrBytes x.mailMem (64 * r) ((words.map fun d => leBytes 8 d.toNat).foldl (· ++ ·) []) }).modWarp
            k.ci k.wi fun w => { w with wait := .svc i n.val r })
    ∧ (∀ k, ctxOf s c = some k → (∀ j < 16, k.k.mail.any (·.idx == j) = true) →
        exec (.svc c (.s i) n) s = .next s)

/-- TAKING A TRAP of a task's warp outside a handler, under a TRAPV (R384, R385): the frame is written at the warp's place, s63
receives its address, the frontier and the ligature state are saved, and one entry at TRAPV, DEPTH 0, with the mask of the
trapped entry replaces the frontier, outside any ligature. Predicates, flags, completion flags, tickets, and the other
registers are as before. -/
def Claim.TrapEntry : Prop :=
  ∀ (s : State) (ci wi : Nat) (z : Cause) (w : Warp) (g : Wg) (e : Entry) (es : List Entry),
    ci < 384 → s.warp? ci wi = some w → (s.core ci).wgOf w = some g → w.handler = none → g.trapv ≠ 0#64 → w.front = e :: es →
    ∃ u, (takeTrap s ci wi z).warp? ci wi = some u
      ∧ u.sreg 63 = w.frameVa ∧ (∀ n : Fin 63, u.sreg n.val = w.sreg n.val)
      ∧ u.front = [⟨g.trapv, 0, 0#12, e.mask⟩] ∧ u.spilled = [] ∧ u.handler = some ⟨w.front, w.spilled, w.lig⟩
      ∧ u.lig.on = false ∧ u.clause = none
      ∧ u.preds = w.preds ∧ u.fflags = w.fflags ∧ u.cflags = w.cflags ∧ u.mflags = w.mflags ∧ u.num = w.num ∧ u.base = w.base
      ∧ ((takeTrap s ci wi z).core ci).tickets = (s.core ci).tickets ∧ ((takeTrap s ci wi z).core ci).rf = (s.core ci).rf
      ∧ (∀ a, (a < w.framePa ∨ w.framePa + 128 ≤ a) → (hostClean s w.framePa 128 = true ∨ a / 128 ∉ unitsOf 128 w.framePa 128) →
          (takeTrap s ci wi z).byteAt a = s.byteAt a)

/-- The fields of the trap frame (R385), little-endian in 128 bytes: CAUSE, POS, TKST, SKIP, LIG, LANEMASK, PC, CODE, FAULTVA and
SAVEDS63 at their places, and zeros elsewhere, FAULTVA being 0 but for MISALIGNED, ACCESS_DENIED and TICKET_ERROR; and a cause inside a handler, or under TRAPV 0, waits for the scribe warp (R388). -/
def Claim.TrapFrame : Prop :=
  (∀ (z : Cause) (lig : Bool) (s63 : Dword), z.code < 64 → z.pos < 16 →
    (frameBytes z lig s63).length = 128
    ∧ (let f := leNat (frameBytes z lig s63)
       f % 2 ^ 6 = z.code ∧ f / 2 ^ 6 % 2 ^ 10 = 0 ∧ f / 2 ^ 16 % 2 ^ 4 = z.pos ∧ f / 2 ^ 20 % 2 ^ 4 = z.tkst.toNat
       ∧ (f / 2 ^ 24 % 2 = 1 ↔ z.skip = true) ∧ (f / 2 ^ 25 % 2 = 1 ↔ lig = true) ∧ f / 2 ^ 26 % 2 ^ 70 = 0
       ∧ f / 2 ^ 96 % 2 ^ 32 = z.mask.toNat ∧ f / 2 ^ 128 % 2 ^ 64 = z.pc.toNat ∧ f / 2 ^ 192 % 2 ^ 64 = z.xcode.toNat
       ∧ f / 2 ^ 256 % 2 ^ 64 = (if z.code = 0x04 ∨ z.code = 0x05 ∨ z.code = 0x06 then z.va.toNat else 0) ∧ f / 2 ^ 320 = s63.toNat))
  ∧ (∀ (s : State) (ci wi : Nat) (z : Cause) (w : Warp) (g : Wg),
      s.warp? ci wi = some w → (s.core ci).wgOf w = some g → (w.handler.isSome = true ∨ g.trapv = 0#64) →
      takeTrap s ci wi z = s.modWarp ci wi fun w => { w with escal := some z, clause := none })

/-- Transfers to addresses in registers (R158 to R161), and how their lanes are grouped. -/
def Obligations.IndirectTransfers : Prop := Claim.IndirectTargets ∧ Claim.TargetGroups

/-- Where a transfer or a ligature instruction raises its cause (R156, R160, R161). -/
def Obligations.ControlErrors : Prop := Claim.TransferDepths ∧ Claim.LigatureErrors

/-- Taking a trap (R384, R385, R388): what the warp and memory hold after it, and the fields of its frame. -/
def Obligations.TakingATrap : Prop := Claim.TrapEntry ∧ Claim.TrapFrame

/-! ### Memory instructions (09 R202-R224; 17 R354) -/

/-- LD, ST, LDQ, NLDC, ATOM, RED, CAS, CAS2, ATOMR and CWB that run, whose lanes are aligned and pass the checks at the core, and
which close no batch of a twinned warp whose core's buffer is full (R422):
the operation counts on its completion flag, and each line's access is performed, waits behind older ones, or goes to the owner
of its translation (R49, R186, R191, R205, R206). With no active lane they make no access; LDQ, ATOM and ATOMR then still give
their queue an entry of zeros (R43, R211). -/
def Obligations.AccessesStart : Prop :=
  ∀ (i : Instr) (m : MemShape) (s u : State) (k : Ctx) (fs : List (Access × Found)), memShape i = some m →
    Ready s m.c m.scalar m.long m.opds k →
    let x := k.popped m.opds
    let y := m.res x
    (m.aligned x → lookups k.ci y.g y.s (m.accs x) = (u, fs) → (∀ e ∈ fs, badLanes e.2 = []) → twinFull u y fs = false →
      exec i s = .next (wordEnd (startAccesses m.c m.long (if m.long then x.w.idNext + 1 else x.w.idNext) (m.accs x).length y fs u)
        k.ci k.wi m.c))
    ∧ (k.act = 0#32 → exec i s = .next (wordEnd y.s k.ci k.wi m.c))

/-- A lane address that is not a multiple of its size raises MISALIGNED before the instruction, for exactly the lanes that have
one, with the lowest one's address; the size is w/8 bytes, 16 for CAS2; an aligned lane lies in one 128-B line (R205). -/
def Obligations.MisalignedAccess : Prop :=
  (∀ (i : Instr) (m : MemShape) (s : State) (k : Ctx) (l : LaneAcc), memShape i = some m → (∀ f, m.kind ≠ .cwb f) →
    Ready s m.c m.scalar m.long m.opds k →
    let bad := (m.lanes (k.popped m.opds)).filter fun l => l.va.toNat % l.size != 0
    bad.head? = some l →
    Traps i s k m.c (k.cause 0x04 (maskOf fun j => bad.any (·.lane == j)) l.va))
  ∧ (∀ (i : Instr) (m : MemShape) (k : Ctx), memShape i = some m → (∀ f, m.kind ≠ .cwb f) →
      ∀ l ∈ m.lanes k, l.size = if m.kind = .cas2 then 16 else tyWidth m.ty / 8)
  ∧ (∀ va n, n ∈ [1, 2, 4, 8, 16] → va % n = 0 → unitsOf 128 va n = [va / 128])

/-- A check that fails at the core, for some lane, stops the whole instruction before any access is made: the lowest cause, with
exactly the lanes that raised it and the lowest one's address (R64, R206). -/
def Obligations.AccessDenied : Prop :=
  ∀ (i : Instr) (m : MemShape) (s u : State) (k : Ctx) (fs : List (Access × Found)) (z : Cause), memShape i = some m →
    Ready s m.c m.scalar m.long m.opds k →
    let x := k.popped m.opds
    m.aligned x →
    lookups k.ci (m.res x).g (m.res x).s (m.accs x) = (u, fs) →
    lowestCause k ((fs.map fun e => badLanes e.2).foldl (· ++ ·) []) = some z →
    Traps i s k m.c z

/-- A warp's TRK load that misses the L1, or follows its warp's own unacknowledged write to the line, where its line may be read,
answers each lane the little-endian bytes in memory with the poison of the halves that it touches, changes no byte, and extends the line's rts by the access's lease within LTLIM (R5, R209, R244). -/
def Obligations.TrackedLoad : Prop :=
  ∀ (s t u : State) (ci slot : Nat) (a : Access) (ls : List (LaneAcc × Nat)) (ws : List RegWrite) (bad : Mask) (st : BitVec 4)
    (l0 : LaneAcc) (pa0 : Nat) (g : L2Tag),
    ci < 384 → a.kind = .load → a.path = .lsu slot → ls.head? = some (l0, pa0) →
    (ownPosted s ci a (lineOf pa0) = true ∨ l1Hit s ci a.pasid ((((a.lanes.head?).map (·.va.toNat)).getD 0) / 128) = none) →
    (∀ x ∈ ls, x.2 / 128 = pa0 / 128 ∧ 0 < x.1.size ∧ x.2 % 128 + x.1.size ≤ 128) →
    l2Read s (dieOfCore ci) (lineOf pa0) = .ok (u, g) → perfTrk s ci a ls = .done t ws bad st →
    ws = ls.map (fun x => ⟨x.1.dest, a.ty, leNat (rdBytes s.hbm x.2 x.1.size), poisIn (linePois s (lineOf pa0) ||| g.pois) (x.2 % 128) x.1.size⟩)
    ∧ bad = 0#32 ∧ t.hbm = s.hbm ∧ t.hostMem = s.hostMem
    ∧ ((t.die (dieOfCore ci)).tag? (lineOf pa0)).map (fun e => (e.wts, e.rts, e.wExp, e.rExp)) =
        some (g.wts, tmin (tmaxE g.rExp g.rts ((u.core ci).pts + a.lease.setWidth 16)) (u.die (dieOfCore ci)).ltlim, g.wExp, false)

/-- A TRK store that is performed writes its lanes in ascending order, little-endian, so the highest lane that covers a byte gives
it, and every other byte of memory stays (R5, R207, R210). -/
def Obligations.TrackedStore : Prop :=
  ∀ (s t : State) (ci : Nat) (a : Access) (ls : List (LaneAcc × Nat)) (ws : List RegWrite) (bad : Mask) (st : BitVec 4),
    a.kind = .store → perfTrk s ci a ls = .done t ws bad st →
    ws = [] ∧ bad = 0#32 ∧ t.hostMem = s.hostMem
    ∧ (∀ b, (∀ x ∈ ls, ¬ (x.2 ≤ b ∧ b < x.2 + x.1.size)) → t.byteAt b = s.byteAt b)
    ∧ (∀ (pre post : List (LaneAcc × Nat)) (x : LaneAcc × Nat) (b : Nat), ls = pre ++ x :: post →
        x.2 ≤ b → b < x.2 + x.1.size → (∀ y ∈ post, ¬ (y.2 ≤ b ∧ b < y.2 + y.1.size)) →
        t.byteAt b = BitVec.ofNat 8 (x.1.data / 2 ^ (8 * (b - x.2))))

/-- What a read-modify-write leaves in its location (R214, R215, R216): integer ADD wraps, MIN and MAX follow the type's sign, a
compare writes only where the old value equals it, and EXCH writes B. -/
def Claim.AtomicNew : Prop :=
  (∀ (t : Ty) (old b : Nat), isIntTy t = true → old < 2 ^ tyWidth t → b < 2 ^ tyWidth t →
    aopNew .add t old b = (old + b) % 2 ^ tyWidth t
    ∧ aopNew .min t old b = (if tyInt t old ≤ tyInt t b then old else b)
    ∧ aopNew .max t old b = (if tyInt t old ≤ tyInt t b then b else old)
    ∧ aopNew .and t old b = old &&& b ∧ aopNew .or t old b = old ||| b ∧ aopNew .xor t old b = old ^^^ b
    ∧ aopNew .exch t old b = b)
  ∧ (∀ (t : Ty) (old b : Nat), isFloatTy t = true →
      aopNew .add t old b = ((fmtOf t).round (((fmtOf t).value old).add ((fmtOf t).value b) false).1 .rne 1#32).code
      ∧ aopNew .min t old b = (fminmax (fmtOf t) false old b).1 ∧ aopNew .max t old b = (fminmax (fmtOf t) true old b).1
      ∧ aopNew .exch t old b = b)
  ∧ (∀ (k : AOp) (t : Ty) (old : Nat) (l : LaneAcc), rmwNew (.atom k) t old l = some (aopNew k t old l.data)
      ∧ rmwNew (.red k) t old l = some (aopNew k t old l.data)
      ∧ rmwNew .cas t old l = (if old = l.cmp then some l.data else none)
      ∧ rmwNew .cas2 t old l = (if old = l.cmp then some l.data else none))

/-- ATOMR's lanes at one address (R219): the location takes B of every lane, and a lane is answered what the location held after
the lanes below it; here for ADD of an unsigned type. -/
def Claim.CombinedAtomic : Prop :=
  ∀ (t : Ty) (old : Nat) (p : Bool) (l : LaneAcc) (pre post : List (Nat × Nat × Dest)) (g : Nat × Nat × Dest),
    t ∈ [Ty.n32, Ty.n64] → old < 2 ^ tyWidth t → l.grp = pre ++ g :: post →
    (rmwFetch (.atomr .add) t old p l)[pre.length]? =
      some ⟨g.2.2, t, (old + (pre.map (·.2.1)).foldl (· + ·) 0) % 2 ^ tyWidth t, p⟩

/-- FENCE, LEASE, TKWAIT, TKSTAT and PRF that run (R212, R220, R221, R223, R224): an acquire fence holds nothing and joins the
fences that later accesses wait for; a release half holds the warp until it is done, and with it the batch of a twinned
warp closes; PRF changes no
byte of memory and nothing of a warp but the number of its next access. -/
def Claim.FencesThatRun : Prop :=
  ∀ (s : State) (c : Ctl) (sc : Scope) (ord : Order) (st : BitVec 7) (path : BitVec 5) (n : BitVec 8) (d : Fin 64) (o : HintOp) (l2 : Bool),
    Runs (.fence c sc ord st path) s c false false [] (fun k => k.act ≠ 0#32 ∧ rels ord = false)
      (fun k => resolveFences (k.s.modWarp k.ci k.wi fun w =>
        { w with idNext := k.w.idNext + 1, acqF := w.acqF ++ [(k.w.idNext, st, path)] }) k.ci k.wi)
    ∧ Runs (.fence c sc ord st path) s c false false [] (fun k => k.act ≠ 0#32 ∧ rels ord = true ∧ (k.w.held = [] ∨ twinRoom k.s k.w.pasid k.ci = true))
      (fun k => settle (k.s.modWarp k.ci k.wi fun w =>
        { w with idNext := k.w.idNext + 1, wait := .fence ord st path k.w.idNext }) k.ci k.wi)
    ∧ Idle (.fence c sc ord st path) s c false false []
    ∧ Runs (.lease c n) s c false false [] (fun k => k.act ≠ 0#32) (fun k => k.s.modWarp k.ci k.wi fun w => { w with lease := n })
    ∧ Idle (.lease c n) s c false false []
    ∧ Runs (.tkwait c) s c false false [] (fun k => k.act ≠ 0#32)
      (fun k => settle (k.s.modWarp k.ci k.wi fun w => { w with wait := .tkwait }) k.ci k.wi)
    ∧ Idle (.tkwait c) s c false false []
    ∧ Runs (.tkstat c (.s d)) s c true false [{ r := .s d, adm := admScalar, dst := true, src := false }] (fun k => k.act ≠ 0#32)
      (fun k => k.s.modWarp k.ci k.wi (·.sput d.val (BitVec.ofNat 64 (tkstatOf k)) false))
    ∧ Idle (.tkstat c (.s d)) s c true false [{ r := .s d, adm := admScalar, dst := true, src := false }]
    ∧ (∀ k, Ready s o.c false false [{ opdBase o.a with src := false }, { opdIndex o.b with src := false }] k →
        ∃ t, exec (.prf o l2) s = .next (wordEnd t k.ci k.wi o.c) ∧ t.hbm = s.hbm ∧ t.hostMem = s.hostMem
          ∧ (∀ ci j, (t.warp? ci j).map (fun w => { w with idNext := 0 }) = (s.warp? ci j).map fun w => { w with idNext := 0 })
          ∧ ∀ ci, (t.core ci).pts = (s.core ci).pts)

/-- The fields of TKSTAT (R224): COUNT, FREE and FAILED at their bits, and OLDEST above them. -/
def Claim.TicketStatus : Prop :=
  ∀ (k : Ctx), k.k.tickets.length + (k.k.misses.filter (·.kept.isSome)).length ≤ 64 →
    tkstatOf k % 2 ^ 7 = k.k.tkCount k.wi % 128
    ∧ (tkstatOf k / 2 ^ 7 % 2 = 1 ↔ ∃ z ∈ k.w.causes, z.code = 0x06)
    ∧ tkstatOf k / 2 ^ 8 % 2 ^ 8 = 64 - k.k.tickets.length - (k.k.misses.filter (·.kept.isSome)).length
    ∧ ((∀ t ∈ k.k.tickets, t.slot? ≠ some k.wi) → tkstatOf k / 2 ^ 16 = 0)
    ∧ (∀ t ∈ k.k.tickets, t.slot? = some k.wi → (∀ u ∈ k.k.tickets, u.slot? = some k.wi → u ≠ t → t.acc.id < u.acc.id) →
        tkstatOf k / 2 ^ 16 = t.tid.toNat)

/-- What atomics leave and fetch (R214 to R216, R219). -/
def Obligations.AtomicValues : Prop := Claim.AtomicNew ∧ Claim.CombinedAtomic

/-- Fences, leases, hints and ticket instructions (R212, R220 to R224). -/
def Obligations.FencesAndTickets : Prop := Claim.FencesThatRun ∧ Claim.TicketStatus

/-! ### Sync unit and barriers (13 R272-R281) -/

/-- The state in which the warp has posted a write to its core's sync unit, a release but under SCOPE 0, which closes the batch
of a twinned warp (R279, R281, R422; the model's choice of log 48). -/
def posted (k : Ctx) (sc : Scope) (n : Nat) (op : SyncOp) : State :=
  ((closeRel k (sc != .warp)).modCore k.ci fun x => { x with syncQ := x.syncQ ++ [SyncMsg.mk k.wi k.w.idNext (sc != .warp) n op] }).modWarp k.ci k.wi fun w =>
    { w with idNext := w.idNext + 1 }

/-- The sync instructions that run on numbers that their workgroup holds (R281): SEMSET, SEMINC, CMSET and CMCLR post their
write; SEMWAIT and CMWAIT wait and are examined at once; BARINIT sets EXPECT and RMT and clears COUNT; BARARR and RBARARR post
their arrival, RET's D being held until its answer; BARWAIT waits with its token. -/
def Claim.SyncThatRun : Prop :=
  ∀ (s : State) (c : Ctl) (sc lv : Scope) (a : Reg) (am : Amt16) (n : BitVec 6) (m b : BitVec 4) (g : BitVec 3) (cnt : BitVec 10)
    (dec any rmt : Bool) (d : Option (Fin 64)),
    let u := fun (k : Ctx) (a : Reg) => BitVec.ofNat 64 (k.rd a 0 64)
    let amOpds := match am with | .reg r => [opdUni r] | .imm _ => []
    let dr : Option Reg := d.map .s
    Once (.semset c sc a n) s c [opdUni a] (fun k => semHeld k.g n.toNat = true)
      (fun k => posted k sc n.toNat (.semSet ((u k a).setWidth 32)))
    ∧ Once (.seminc c sc am n) s c amOpds (fun k => semHeld k.g n.toNat = true)
      (fun k => posted k sc n.toNat (.semInc (match am with | .reg r => (u k r).setWidth 32 | .imm v => v.setWidth 32)))
    ∧ Once (.semwait c dec dr a n) s c ((dr.toList.map opdS) ++ [opdUni a]) (fun k => semHeld k.g n.toNat = true)
      (fun k => (k.s.modWarp k.ci k.wi fun w =>
          { w with wait := .sem n.toNat ((u k a).setWidth 32) dec d w.idNext, idNext := w.idNext + 1 }).modCore k.ci fun x =>
        { x with semQ := x.semQ ++ [SemWait.mk n.toNat k.wi ((u k a).setWidth 32) dec] }.semExam n.toNat)
    ∧ Once (.barinit c lv rmt a n) s c [opdUni a]
      (fun k => barHeld k.g lv n.toNat = true ∧ 1 ≤ (u k a).toNat ∧ (u k a).toNat ≤ 65535)
      (fun k => barPut k.s k.ci lv n.toNat { barGet k.s k.ci lv n.toNat with expect := (u k a).toNat, count := 0, rmt := rmt })
    ∧ Once (.bararr c lv dr n cnt) s c (dr.toList.map opdS) (fun k => barHeld k.g lv n.toNat = true)
      (fun k =>
        let s := closeRel k true
        ({ s with arrivals := s.arrivals ++
            [Arrival.mk k.ci lv k.ci n.toNat cnt.toNat k.w.wg (some (k.wi, k.w.idNext)) true d false k.w.pasid 0#5] } : State).modWarp k.ci k.wi
          fun w => { w with idNext := w.idNext + 1, sbPend := w.sbPend ++ d.toList.map fun (x : Fin 64) => x.val })
    ∧ Once (.barwait c lv a n) s c [opdUni a] (fun k => barHeld k.g lv n.toNat = true)
      (fun k =>
        let s := k.s.modWarp k.ci k.wi fun w => { w with wait := .bar lv n.toNat ((u k a).setWidth 32) k.act }
        wakeCore s k.ci lv n.toNat (barGet s k.ci lv n.toNat))
    ∧ Once (.rbararr c sc a b cnt) s c [opdUni a] (fun k => (u k a).toNat < 384)
      (fun k =>
        let s := closeRel k (sc != .warp)
        ({ s with arrivals := s.arrivals ++
          [Arrival.mk k.ci .core (u k a).toNat b.toNat cnt.toNat k.w.wg (some (k.wi, k.w.idNext)) (sc != .warp) none true k.w.pasid 0#5] } : State).modWarp
        k.ci k.wi fun w => { w with idNext := w.idNext + 1 })
    ∧ Once (.cmset c sc a m g) s c [opdUni a] (fun k => cmHeld k.g m.toNat = true) (fun k => posted k sc m.toNat (.cmSet g.toNat (u k a)))
    ∧ Once (.cmclr c sc a m g) s c [opdUni a] (fun k => cmHeld k.g m.toNat = true) (fun k => posted k sc m.toNat (.cmClr g.toNat (u k a)))
    ∧ Once (.cmwait c any a m g) s c [opdUni a] (fun k => cmHeld k.g m.toNat = true)
      (fun k => (k.s.modWarp k.ci k.wi fun w => { w with wait := .cm m.toNat g.toNat (u k a) any }).modCore k.ci (·.cmExam m.toNat))

/-- A semaphore, map or barrier that the workgroup does not hold, an EXPECT outside 1 to 65,535 and a core number above 383 raise
ILLEGAL_OPERAND, where a lane is active (R280, R45). -/
def Claim.SyncHolders : Prop :=
  ∀ (s : State) (k : Ctx) (c : Ctl) (sc lv : Scope) (a : Reg) (n : BitVec 6) (m b : BitVec 4) (g : BitVec 3) (cnt : BitVec 10)
    (dec any rmt : Bool), Ready s c true false [opdUni a] k → k.act ≠ 0#32 →
    let x := k.popped [opdUni a]
    let ill := k.cause 0x02 k.act 0#64
    (semHeld x.g n.toNat = false → Traps (.semset c sc a n) s k c ill ∧ Traps (.seminc c sc (.reg a) n) s k c ill
      ∧ Traps (.semwait c dec none a n) s k c ill)
    ∧ (cmHeld x.g m.toNat = false → Traps (.cmset c sc a m g) s k c ill ∧ Traps (.cmclr c sc a m g) s k c ill
      ∧ Traps (.cmwait c any a m g) s k c ill)
    ∧ (barHeld x.g lv n.toNat = false → Traps (.barwait c lv a n) s k c ill)
    ∧ ((barHeld x.g lv n.toNat = false ∨ k.rd a 0 64 = 0 ∨ 65535 < k.rd a 0 64) → Traps (.barinit c lv rmt a n) s k c ill)
    ∧ (383 < k.rd a 0 64 → Traps (.rbararr c sc a b cnt) s k c ill)

/-- Arrivals at a barrier (R275): COUNT grows by n, each EXPECT that it reaches is taken off and moves PHASE on by one, so an
excess carries, and the flags of the phase that ends are kept under its number, by which a BARWAIT on it finds them, and the phases after it that
end with it have none (R83); two
arrivals come to the same as their sum; a wait with token t is met while PHASE - t is 1 to 2^31 - 1. -/
def Obligations.BarrierArithmetic : Prop :=
  (∀ (b : Bar) (n : Nat) (f : Flags5) (ts : Nat), 1 ≤ b.expect →
    ∃ j, b.count + n = (b.arrive n f ts).count + j * b.expect ∧ (b.arrive n f ts).count < b.expect
      ∧ (b.arrive n f ts).phase = b.phase + BitVec.ofNat 32 j
      ∧ (b.arrive n f ts).expect = b.expect ∧ (b.arrive n f ts).rmt = b.rmt
      ∧ (if j = 0 then (b.arrive n f ts).cur = b.cur ||| f ∧ (b.arrive n f ts).done = b.done
         else (b.arrive n f ts).cur = 0#5 ∧ (b.arrive n f ts).flagsOf b.phase = b.cur ||| f
          ∧ ∀ p, p ≠ b.phase → (b.arrive n f ts).flagsOf p = if (p - b.phase).toNat < j then 0#5 else b.flagsOf p))
  ∧ (∀ (b : Bar) (n m : Nat) (f g : Flags5) (x y z : Nat), 1 ≤ b.expect →
      ((b.arrive n f x).arrive m g y).count = (b.arrive (n + m) f z).count
      ∧ ((b.arrive n f x).arrive m g y).phase = (b.arrive (n + m) f z).phase)
  ∧ (∀ (b : Bar) (t : Word), b.met t = true ↔ 1 ≤ (b.phase - t).toNat ∧ (b.phase - t).toNat ≤ 2 ^ 31 - 1)

/-- SEMINC saturates at 0xFFFF_FFFF (R272); the waiters of a semaphore are examined in their order (R273): waits on other
semaphores stay; the DEC waits that stay are the youngest ones; and where no waiting warp's own posted write is still on its way to
the semaphore and none has a ticket or an acquire to wait for (R191, R234), no wait without DEC stays whose threshold the value reaches, and the oldest DEC wait that stays is above the value. -/
def Obligations.SemaphoreWaiters : Prop :=
  (∀ a b : Word, (satAdd a b).toNat = min (a.toNat + b.toNat) 0xFFFFFFFF)
  ∧ (∀ (k : Core) (n : Nat),
      let u := k.semExam n
      let v := ((u.sems[n]?).getD 0#32).toNat
      let p := fun (x : SemWait) => x.sem == n && x.dec
      let mine := ∀ x ∈ k.semQ, k.ownSync x.slot (n, none) = false ∧ k.waitHeld x.slot = false
      u.semQ.Sublist k.semQ
      ∧ u.semQ.filter (·.sem != n) = k.semQ.filter (·.sem != n)
      ∧ (mine → ∀ x ∈ u.semQ, x.sem = n → x.dec = false → v < x.thr.toNat)
      ∧ (u.semQ.filter p) <:+ (k.semQ.filter p)
      ∧ (mine → ∀ x, (u.semQ.filter p).head? = some x → v < x.thr.toNat)
      ∧ ∀ m, m ≠ n → u.sems[m]? = k.sems[m]?)

/-- The sync instructions (R280, R281): their effects, and where they raise ILLEGAL_OPERAND. -/
def Obligations.SyncInstructions : Prop := Claim.SyncThatRun ∧ Claim.SyncHolders

/-! ### Copy channels (15 R291-R302) -/

/-- A long-latency command `i`, performed once, appends `p` to the posts of channel `n` and counts on its flag, or sets OVF where the
channel holds eight (R291). -/
def PostsCopy (i : Instr) (s : State) (c : Ctl) (opds : List Opd) (n : Nat) (H : Ctx → Prop) (head : Ctx → Dword)
    (t : Ctx → Option (BitVec 512)) : Prop :=
  (∀ fl, Runs i s c true true opds
    (fun k => k.act ≠ 0#32 ∧ chanHeld k.g n = true ∧ H k ∧ cmdBlocked k.s k.ci k.wi 1 = false ∧ (k.k.chan n).queue.length < 8
      ∧ flagOf k.w c = some fl)
    (fun k => (k.s.modWarp k.ci k.wi (·.startOp fl 1 true)).modChan k.ci n fun ch =>
      { ch with queue := ch.queue ++ [⟨k.wi, k.w.idNext, head k, t k, false⟩] }))
  ∧ Runs i s c true true opds
    (fun k => k.act ≠ 0#32 ∧ chanHeld k.g n = true ∧ H k ∧ cmdBlocked k.s k.ci k.wi 1 = false ∧ 8 ≤ (k.k.chan n).queue.length)
    (fun k => k.s.modChan k.ci n fun ch => { ch with ovf := true })
  ∧ Idle i s c true true opds

/-- The copy instructions that run on a channel that their workgroup holds (R297 to R302): CPCHAIN posts the address of its first
record, TCOPY the record of six scalars with zeros above it; CPSTAT writes the snapshot of R299 and clears what it must; CPABORT
stops the chain in progress, or drops the posts; RWOPEN opens a window and answers its offset; RWCLOSE closes it. -/
def Claim.CopyInstructions : Prop :=
  ∀ (s : State) (c : Ctl) (ch : Fin 4) (a : Reg) (i d : Fin 64) (clr : Bool) (slot : Fin 4) (f n : BitVec 10),
    PostsCopy (.cpchain c ch a) s c [opdUni a] ch.val
      (fun k => k.rd a 0 64 % 64 = 0 ∧ canonical (BitVec.ofNat 64 (k.rd a 0 64)) = true) (fun k => BitVec.ofNat 64 (k.rd a 0 64)) (fun _ => none)
    ∧ PostsCopy (.tcopy c ch (.s i)) s c (scalarRun (.s i) 6) ch.val (fun _ => True) (fun _ => 0#64)
      (fun k => some (BitVec.ofNat 512
        ((List.range 6).foldl (fun v j => v + (k.w.sreg (i.val + j)).toNat * 2 ^ (64 * j)) 0)))
    ∧ Once (.cpstat c ch clr (.s d)) s c [opdS (.s d)] (fun k => chanHeld k.g ch.val = true)
      (fun k =>
        let s := k.s.modWarp k.ci k.wi (·.sput d.val (BitVec.ofNat 64 (cpstatOf (k.k.chan ch.val))) false)
        if clr then s.modChan k.ci ch.val fun x => { x with ovf := false, lastSt := 0#8 } else s)
    ∧ Once (.cpabort c ch) s c [] (fun k => chanHeld k.g ch.val = true)
      (fun k => match (k.s.chan k.ci ch.val).cur with
        | some r => k.s.modChan k.ci ch.val fun x => { x with
            cur := some (if r.status = stOk then { r with status := stCpAborted, begun := true } else r), queue := x.queue.map fun p => { p with dead := true } }
        | none => endPosts ((recEnd k.s k.ci ch.val (if (k.s.chan k.ci ch.val).busy then stCpAborted else (k.s.chan k.ci ch.val).lastSt)).modChan
            k.ci ch.val fun x => { x with queue := [], busy := false }) k.ci (k.s.chan k.ci ch.val).queue)
    ∧ Runs (.rwopen c slot (.s d) f n) s c true false [opdS (.s d)]
      (fun k => k.act ≠ 0#32 ∧ n ≠ 0#10 ∧ f.toNat + n.toNat ≤ k.w.n ∧ k.w.wins.any (·.slot == slot) = false ∧ k.w.lig.on = false)
      (fun k => (k.s.modWarp k.ci k.wi fun w => { w with wins := w.wins ++ [⟨slot, f.toNat, n.toNat⟩] }).modWarp k.ci k.wi
        (·.sput d.val (BitVec.ofNat 64 (128 * (k.w.base + f.toNat))) false))
    ∧ Runs (.rwopen c slot (.s d) f n) s c true false [opdS (.s d)]
      (fun k => k.act = 0#32 ∧ n ≠ 0#10 ∧ f.toNat + n.toNat ≤ k.w.n) (·.s)
    ∧ Once (.rwclose c slot) s c [] (fun k => k.w.lig.on = false)
      (fun k => k.s.modWarp k.ci k.wi fun w => { w with wins := w.wins.filter (·.slot != slot) })

/-- The fields of CPSTAT (R299), and where a copy instruction raises its cause: a channel that is not held, a head that is not a
multiple of 64 or not canonical, a window beyond the allocation, one that is open already, or one in a ligature. -/
def Claim.CopyErrors : Prop :=
  (∀ c : Chan, c.done.toNat < 2 ^ 26 → c.queue.length ≤ 8 →
    cpstatOf c % 2 ^ 26 = c.done.toNat ∧ cpstatOf c / 2 ^ 26 % 2 ^ 4 = c.queue.length
    ∧ (cpstatOf c / 2 ^ 30 % 2 = 1 ↔ c.ovf = true) ∧ (cpstatOf c / 2 ^ 31 % 2 = 1 ↔ c.busy = true)
    ∧ cpstatOf c / 2 ^ 32 = c.lastSt.toNat)
  ∧ (∀ (s : State) (k : Ctx) (c : Ctl) (ch : Fin 4) (a : Reg), Ready s c true true [opdUni a] k → k.act ≠ 0#32 →
      let x := k.popped [opdUni a]
      let h := BitVec.ofNat 64 (x.rd a 0 64)
      (chanHeld x.g ch.val = false → Traps (.cpchain c ch a) s k c (k.cause 0x02 k.act 0#64))
      ∧ (chanHeld x.g ch.val = true → h.toNat % 64 ≠ 0 → Traps (.cpchain c ch a) s k c (k.cause 0x04 k.act h))
      ∧ (chanHeld x.g ch.val = true → h.toNat % 64 = 0 → canonical h = false → Traps (.cpchain c ch a) s k c (k.cause 0x05 k.act h)))
  ∧ (∀ (s : State) (k : Ctx) (c : Ctl) (slot : Fin 4) (d : Reg) (f n : BitVec 10), Ready s c true false [opdS d] k →
      ((n = 0#10 ∨ k.w.n < f.toNat + n.toNat) → Traps (.rwopen c slot d f n) s k c (k.cause 0x02 k.act 0#64))
      ∧ (k.act ≠ 0#32 → (k.w.wins.any (·.slot == slot) = true ∨ k.w.lig.on = true) →
          Traps (.rwopen c slot d f n) s k c (k.cause 0x02 k.act 0#64)))

/-- The copy instructions (R291, R297 to R302): what they do, and where they raise a cause. -/
def Obligations.CopyCommands : Prop := Claim.CopyInstructions ∧ Claim.CopyErrors

/-! ### The matrix engine (16 R304-R327) -/

/-- A matrix word `i` that runs, whose checks give `a`, `b` and `cyc`: its entry joins the FIFO, with the class of its workgroup,
and counts on its flag (R312, R314). -/
def PostsMatrix (i : Instr) (s : State) (o : MxOp) (kind : MxKind) (opds : List Opd) (rm : Rm) (sat : Bool) (seed : Ctx → Word)
    (chk : Wg → PostChk) : Prop :=
  (∀ g a b cyc fl, Runs i s o.c true true opds
    (fun k => k.act ≠ 0#32 ∧ k.g = some g ∧ mxBar g o = true ∧ chk g = .go a b cyc ∧ k.k.fifo.length < 64
      ∧ (k.k.fifo.length < 56 ∨ k.w.cls = 0) ∧ cmdBlocked k.s k.ci k.wi 2 = false ∧ flagOf k.w o.c = some fl)
    (fun k => (k.s.modWarp k.ci k.wi (·.startOp fl 1 true)).modCore k.ci fun x => { x with
      seq := x.seq + 1
      fifo := x.fifo ++ [{ id := k.k.seq, wg := g.id, slot := k.wi, op := k.w.idNext, cls := g.cls, kind := kind, acc := o.acc.val
                           count := o.count.val, a := a, b := b, same := o.ha == o.hb, rm := rm, sat := sat, seed := seed k
                           bar := if o.baren then some (o.barq, o.bar.val) else none, run := false, left := cyc
                           done := [], fl := 0#5 }] }))
  ∧ Idle i s o.c true true opds

/-- MMA, MMAS, ACCZ, ACCLD, ACCDRAIN and ACCMX that run are posted whole; OBRES, OBFREE, OBSET and THAND change their reservation or
handle at once, OBFREE waiting while an entry has captured it; MXSTAT writes its word and clears what it must (R306 to R309,
R312, R326, R327). -/
def Claim.MatrixInstructions : Prop :=
  ∀ (s : State) (c : Ctl) (o : MxOp) (rm : Rm) (sat col clr : Bool) (seed : Option Reg) (res h : Fin 16) (d i : Fin 64) (a b : Reg)
    (sel : Fin 4) (g : Wg) (r q : Resv),
    PostsMatrix (.mma o) s o .mma [] .rne false (fun _ => 0#32) (chkMma o false)
    ∧ PostsMatrix (.mmas o) s o .mmas [] .rne false (fun _ => 0#32) (chkMma o true)
    ∧ PostsMatrix (.accz o) s o .accz [] .rne false (fun _ => 0#32)
        (fun g => if g.accN < o.acc.val + o.count.val then .ill else .go none none 0)
    ∧ PostsMatrix (.accld o) s o .accld [] .rne false (fun _ => 0#32) (fun g => chkView o false g fun _ _ r => r)
    ∧ PostsMatrix (.accdrain o rm sat seed) s o .accdrain (opdSeed seed) rm sat (seedOf seed)
        (fun g => chkView o (rm == .sr) g fun a _ r => if [8, 9, 10, 12].contains a.fmt then r else .tile)
    ∧ PostsMatrix (.accmx o rm seed) s o .accmx (opdSeed seed) rm false (seedOf seed)
        (fun g => chkView o (rm == .sr) g fun a v r =>
          if a.fmt != 13 || a.bcol || v.col || v.lc % a.blk != 0 then .tile
          else match r, g.operand o.hb with
            | .go x _ _, some b =>
              if o.ha == o.hb then .go x (some b) 0
              else if b.1.fmt == 4 && !b.1.sparse && v.lc / a.blk ≤ b.2.lc && v.lr ≤ b.2.lr then .go x (some b) 0 else .tile
            | .go _ _ _, none => .tile
            | r, _ => r)
    ∧ Once (.obres c res (.s d) (.s i)) s c (opdS (.s d) :: scalarRun (.s i) 2)
        (fun k => k.g = some g ∧ resvOf (k.w.sreg i.val) (k.w.sreg (i.val + 1)) = some r ∧ g.resv? res.val = none ∧ r.ok g = true
          ∧ g.resv.any (fun x => meets (x.2.base, x.2.len) (r.base, r.len)) = false)
        (fun k => (k.s.modWg k.ci g.id fun g => { g with resv := g.resv ++ [(res.val, r)] }).modWarp k.ci k.wi
          (·.sput d.val (BitVec.ofNat 64 (0x400000 + (g.obBase + r.base) * 0x800)) false))
    ∧ Once (.obfree c res) s c [] (fun k => k.g = some g ∧ (g.resv? res.val).isSome = true)
        (fun k => if captured k.k g res.val then k.s.modWarp k.ci k.wi fun w => { w with wait := .obfree res }
          else k.s.modWg k.ci g.id fun g => { g with
            resv := g.resv.filter (·.1 != res.val), hands := g.hands.filter (·.2.res.val != res.val) })
    ∧ Once (.obset c res (.s i)) s c (scalarRun (.s i) 2)
        (fun k => k.g = some g ∧ g.resv? res.val = some q ∧ resvOf (k.w.sreg i.val) (k.w.sreg (i.val + 1)) = some r
          ∧ r.ok g = true ∧ r.base = q.base ∧ r.len = q.len)
        (fun k => k.s.modWg k.ci g.id fun g => { g with resv := updFirst (·.1 == res.val) (fun _ => (res.val, r)) g.resv })
    ∧ Once (.thand c h res col false a b) s c [opdUni a, opdUni b]
        (fun k => k.g = some g ∧ g.resv? res.val = some r ∧ viewOk r ⟨res, k.rd a 0 64 % 2 ^ 16, k.rd a 0 64 / 2 ^ 16 % 2 ^ 16,
          k.rd b 0 64 % 2 ^ 16, k.rd b 0 64 / 2 ^ 16 % 2 ^ 16, col⟩ = true)
        (fun k => k.s.modWg k.ci g.id fun g => { g with hands := g.hands.filter (·.1 != h.val) ++
          [(h.val, ⟨res, k.rd a 0 64 % 2 ^ 16, k.rd a 0 64 / 2 ^ 16 % 2 ^ 16, k.rd b 0 64 % 2 ^ 16, k.rd b 0 64 / 2 ^ 16 % 2 ^ 16, col⟩)] })
    ∧ Once (.thand c h res col true a b) s c [] (fun k => k.g = some g)
        (fun k => k.s.modWg k.ci g.id fun g => { g with hands := g.hands.filter (·.1 != h.val) })
    ∧ Once (.mxstat c sel clr (.s d)) s c [opdS (.s d)] (fun k => k.g = some g)
        (fun k => (k.s.modWarp k.ci k.wi (·.sput d.val (BitVec.ofNat 64 (mxstatOf k.k g sel.val)) false)).modWg k.ci g.id fun g =>
          if sel = 0 then { g with lastErr := 0#8 } else if sel = 2 && clr then { g with acyc := 0#32, gstall := 0#32 } else g)

/-- The checks of a multiply (R311, R312): it is posted exactly where both handles are bound to views that hold, the inner
dimensions are equal, M and N are at most 128, the formats form a class, the K directions are right, only A may be sparse and is
so for MMAS alone, the tiles lie in the allocation, and the entry takes at most 4,096 array cycles. -/
def Claim.MultiplyChecks : Prop :=
  ∀ (o : MxOp) (sp : Bool) (g : Wg) (x y : Option (Resv × View)) (cyc : Nat),
    chkMma o sp g = .go x y cyc ↔
      ∃ (a b : Resv × View) (cl : MxClass), x = some a ∧ y = some b ∧ g.operand o.ha = some a ∧ g.operand o.hb = some b
        ∧ o.acc.val < g.accN ∧ o.acc.val + tilesOf b.2.lr ≤ g.accN ∧ mxClass a.1 b.1 = some cl
        ∧ a.2.lc = b.2.lc ∧ a.2.lr ≤ 128 ∧ b.2.lr ≤ 128 ∧ kDirOk a.1 a.2 = true ∧ kDirOk b.1 b.2 = true
        ∧ a.1.sparse = sp ∧ b.1.sparse = false ∧ cyc = arrayCycles a.1 cl a.2.lr b.2.lr a.2.lc ∧ cyc ≤ 4096

/-- Posting to the matrix engine, and the instructions that are not posted (R306 to R312, R326, R327). -/
def Obligations.MatrixCommands : Prop := Claim.MatrixInstructions ∧ Claim.MultiplyChecks

/-- ACCZ clears its tiles and their poison, and no other element; one output element of a multiply takes, for clean inputs, the
accumulator plus the exact sums of its groups, each rounded once, and only that element changes (R83, R84, R85, R313). -/
def Obligations.MatrixResults : Prop :=
  (∀ (tick : Nat) (g : Wg) (acc n : Nat) (k : Core) (x : Nat),
    let u := runAccz tick g acc n (fun _ => 0) k
    let lo := (g.accBase + acc) * 8192
    (lo ≤ x ∧ x < lo + n * 8192 → tabGet 0#32 u.acc x = 0#32 ∧ setHas u.accPois x = false)
    ∧ (¬ (lo ≤ x ∧ x < lo + n * 8192) → tabGet 0#32 u.acc x = tabGet 0#32 k.acc x ∧ setHas u.accPois x = setHas k.accPois x))
  ∧ (∀ (tick : Nat) (g : Wg) (k0 k : Core) (oa ob : Opr) (cl : MxClass) (acc kd i j : Nat) (f : Flags5),
      oa.r.sparse = false → setHas k.accPois (accAt g acc i j) = false →
      (∀ t, t < kd → (oa.elem k0 i t).2 = false ∧ (ob.elem k0 j t).2 = false) →
      let q := (List.range (ceilDiv kd cl.group)).map fun q => (List.range (Nat.min cl.group (kd - q * cl.group))).map fun t =>
        ((oa.elem k0 i (t + q * cl.group)).1, (ob.elem k0 j (t + q * cl.group)).1)
      let r := addGroups (oa.r.int && ob.r.int) q ((accGet k (accAt g acc i j)).toNat, 0#5)
      let u := mmaElem tick g k0 oa ob cl acc kd i j false 0 (ceilDiv kd cl.group) (k, f)
      tabGet 0#32 u.1.acc (accAt g acc i j) = BitVec.ofNat 32 r.1 ∧ setHas u.1.accPois (accAt g acc i j) = false ∧ u.2 = f ||| r.2
      ∧ ∀ y, y ≠ accAt g acc i j → tabGet 0#32 u.1.acc y = tabGet 0#32 k.acc y ∧ setHas u.1.accPois y = setHas k.accPois y)

/-! ### Nibs (17 R330-R355) -/

/-- The nib instructions that run on a nib that may be named (R350 to R355): NBIND starts a bind in the warp's class; NUNBIND takes
the nib's windows away and waits; NGRANT replaces a set of ranges; NSTAT writes its word and clears what it must; NABORT
discards slots. -/
def Obligations.NibInstructions : Prop :=
  ∀ (s : State) (c : Ctl) (nib : Fin 4) (a : Reg) (semen rdr clr : Bool) (sem : BitVec 6) (count : Fin 16) (i d : Fin 64)
    (sel : Fin 3) (ao : Option Reg),
    let may := fun (k : Ctx) => nibHeld k nib.val = true
    let bound := fun (k : Ctx) => nibHeld k nib.val = true ∧ (k.k.nib nib.val).st = .bound
    let at_ := fun (k : Ctx) (r : Reg) => BitVec.ofNat 64 (k.rd r 0 64)
    Once (.nbind c nib a semen sem) s c [opdUni a]
      (fun k => may k ∧ (k.k.nib nib.val).st = .unbound ∧ (semen = true → semHeld k.g sem.toNat = true)
        ∧ (at_ k a).toNat % 64 = 0 ∧ canonical (at_ k a) = true ∧ cmdBlocked k.s k.ci k.wi 3 = false)
      (fun k => k.s.modCore k.ci (·.modNib nib.val fun x => { Nib.fresh x.wg with
        gen := x.gen + 1, st := .loading, descAt := at_ k a, pasid := k.w.pasid, cls := k.w.cls, scribe := k.wi == 31
        writers := [(coreSource k.s k.ci, coreSource k.s k.ci)], readers := [(coreSource k.s k.ci, coreSource k.s k.ci)]
        sem := if semen then some sem.toNat else none }))
    ∧ Once (.nunbind c nib) s c [] bound
      (fun k => settle ((nibUnbind k.s k.ci nib.val).modWarp k.ci k.wi fun w => { w with
        wait := .nunbind nib.val (k.k.nib nib.val).gen }) k.ci k.wi)
    ∧ (count ≠ 0 → Once (.ngrant c nib rdr (.s i) count) s c (scalarRun (.s i) ((count.val + 1) / 2)) bound
        (fun k =>
          let l := (List.range count.val).map fun j =>
            let v := (k.w.sreg (i.val + j / 2)) >>> (32 * (j % 2))
            (v.extractLsb' 0 16, v.extractLsb' 16 16)
          k.s.modCore k.ci (·.modNib nib.val fun x => if rdr then { x with readers := l } else { x with writers := l })))
    ∧ Once (.ngrant c nib rdr a 0) s c [opdUni a] bound
        (fun k => k.s.modCore k.ci (·.modNib nib.val fun x => if rdr then { x with readers := [] } else { x with writers := [] }))
    ∧ Once (.nstat c nib sel clr (.s d) ao) s c (opdS (.s d) :: ao.toList.map opdUni)
        (fun k => may k ∧ (sel = 2 → (k.k.nib nib.val).st = .bound ∧
          (match ao with | some r => (at_ k r).toNat | none => 0) < (k.k.nib nib.val).nslots))
        (fun k =>
          let v := nstatOf (k.k.nib nib.val) sel.val (match ao with | some r => (at_ k r).toNat | none => 0)
          let s := k.s.modWarp k.ci k.wi (·.sput d.val (BitVec.ofNat 64 v) false)
          if clr then s.modCore k.ci (·.modNib nib.val fun x =>
            { x with refcnt := 0#16, nrcnt := 0#16, failcnt := 0#16, appcnt := 0#16 }) else s)
    ∧ Once (.nabort c nib none) s c [] bound (fun k => nibAbort k.s k.ci nib.val fun _ => true)
    ∧ Once (.nabort c nib (some a)) s c [opdUni a]
        (fun k => bound k ∧ (at_ k a).toNat < (k.k.nib nib.val).nslots)
        (fun k => nibAbort k.s k.ci nib.val (· == (at_ k a).toNat))

/-- A store of vector bytes to a stroke slot (R338, R339): a source outside the writers is refused and counted; an EMPTY slot is
claimed by its writer; a FILLING one takes its own writer's bytes and refuses another's; a READY or APPLYING slot refuses; a DONE
or FAILED one is claimed again only under OVERWRITE. A consume frees a DONE or FAILED slot for a reader (R343). -/
def Obligations.NibSlots : Prop :=
  ∀ (k : Core) (ni sl : Nat) (g : BitVec 16) (bs : List (Nat × Byte × Bool)), ni < 4 →
    let n := k.nib ni
    let x := n.slot sl
    let r := strokeStore k ni g sl bs
    let refused := r.2 = true ∧ r.1.nib ni = { n with refcnt := n.refcnt + 1 }
    (inSet n.writers g = false → refused)
    ∧ (inSet n.writers g = true → (∃ e ∈ bs, e.1 < n.vb) →
      (x.st = .ready ∨ x.st = .applying ∨ (x.st = .filling ∧ x.owner ≠ g) ∨ ((x.st = .done ∨ x.st = .failed) ∧ n.overwrite = false) →
        refused)
      ∧ (sl < n.slots.length → (x.st = .empty ∨ (x.st = .filling ∧ x.owner = g) ∨ ((x.st = .done ∨ x.st = .failed) ∧ n.overwrite = true)) →
        r.2 = false ∧ ((r.1.nib ni).slot sl).owner = g
          ∧ (((r.1.nib ni).slot sl).st = .filling ∨ ((r.1.nib ni).slot sl).st = .ready)
          ∧ (((r.1.nib ni).slot sl).st = .ready ↔ ((r.1.nib ni).slot sl).map.length = n.vb)
          ∧ ∀ j, j ≠ sl → (r.1.nib ni).slot j = n.slot j))
    ∧ (∀ off, let t := traceStore k ni g off
        let j := off / Nat.max 1 n.tsz
        (inSet n.readers g = false → t.2 = true ∧ t.1.nib ni = { n with refcnt := n.refcnt + 1 })
        ∧ (inSet n.readers g = true → t.2 = false ∧ t.1.nib ni =
            if (n.slot j).st = .done ∨ (n.slot j).st = .failed then { n with slots := n.slots.set j Slot.fresh } else n))

/-! ### The access slice (07 R147-R149; 03 R60) -/

/-- The slice words: AMOV, AADD and ALOOP on the index registers; ALDQ pushes the entry of which all 32 lanes have been read, lane l
from A + l·B + offset; ASTQ has popped the oldest entry, and is done once its 32 lanes are stored at the same addresses; AEND ends the
slice (R148). -/
def Claim.SliceEffects : Prop :=
  ∀ (s : State) (ci : Nat) (g : Wg) (d a b q : Fin 16) (x y : XSrc) (off : Word), sliceOn s = some (ci, g) →
    let next := fun (u : State) => Host.Outcome.next (φ := Fault) (ρ := Refusal)
      (u.modWg ci g.id fun g => { g with slicePc := g.slicePc + 12#64, sliceWord := none })
    let put := fun (n : Fin 16) (v : Dword) => s.modWg ci g.id fun g => { g with x := g.x.setIfInBounds n.val v }
    let val := fun (x : XSrc) => match x with | .x n => (g.x[n.val]?).getD 0#64 | .imm v => v.signExtend 64
    let reg := fun (n : Fin 16) => (g.x[n.val]?).getD 0#64
    let none0 : QEntry := ⟨0, Vector.replicate 32 0#32, 0#32, 0#32⟩
    let accs := fun (done : Mask) (data : Nat → Word) => ((List.range 32).filter fun l => !laneIn done l).map fun l =>
      LaneAcc.mk l (reg a + BitVec.ofNat 64 l * reg b + off.signExtend 64) 4 (data l).toNat 0 .none []
    exec (.amov d x) s = next (put d (val x))
    ∧ exec (.aadd d a y) s = next (put d (reg a + val y))
    ∧ ((reg a).toNat ≤ 1 → exec (.aloop a off) s = next (put a 0#64))
    ∧ (1 < (reg a).toNat → exec (.aloop a off) s = .next ((put a (reg a - 1#64)).modWg ci g.id fun h =>
        { h with slicePc := g.slicePc + 12#64 * off.signExtend 64, sliceWord := none }))
    ∧ exec .aend s = .next ((dropGot (endKept (closeSlice s ci g.id) ci (.ace g.id)) ci (.ace g.id)).modWg ci g.id fun g =>
        { g with sliceSt := .ended, sliceWord := none, stq := none, ldq := none })
    ∧ (∀ (v : State) (ms : List LaneAcc) (e : QEntry), (g.qconn[q.val]?).getD .none = .operand → ((g.queues[q.val]?).getD []).length < 8 →
        sliceLanes (s.modWg ci g.id fun g => { g with ldq := some (g.ldq.getD none0) }) (sliceEng ci g) .load (ldLane g.id)
          (accs (g.ldq.getD none0).landed fun _ => 0#32) = ⟨v, ms, [], false⟩ →
        ((v.core ci).wg? g.id).bind (·.ldq) = some e →
        exec (.aldq q a b off) s = next (v.modCore ci fun k =>
          { (k.push g.id q.val { e with id := k.seq }).modWg g.id fun g => { g with ldq := none } with seq := k.seq + 1 }))
    ∧ (∀ (u v : State) (ms : List LaneAcc) (e : QEntry) (rest : List QEntry) (done : Mask), (g.qconn[q.val]?).getD .none = .store →
        ((g.stq = some (e, done) ∧ u = s) ∨ (g.stq = none ∧ (g.queues[q.val]?).getD [] = e :: rest ∧ e.landed = 0xFFFFFFFF#32 ∧ done = 0#32
          ∧ u = s.modWg ci g.id fun g => { g with queues := g.queues.setIfInBounds q.val rest, stq := some (e, 0#32) })) →
        sliceLanes u (sliceEng ci g) .store (stLane g.id e) (accs done fun l => e.word l) = ⟨v, ms, [], false⟩ →
        exec (.astq q a b off) s = next (v.modWg ci g.id fun g => { g with stq := none }))

/-- One lane of ALDQ or ASTQ (R148): a word that it reads enters its lane of the entry, little-endian, with its poison, and no other lane
changes; a store stores the entry's word of the lane, and the lane counts as stored; an address that is no multiple of 4, or not canonical,
and a denial halt the slice; a lane is left waiting behind one at its address. -/
def Claim.SliceLanes : Prop :=
  (∀ (g : Wg) (q : QEntry) (l j : Nat) (bs : List (Byte × Bool)), g.ldq = some q → l < 32 →
    ∃ e, (g.load l bs).ldq = some e ∧ e.word j = (if j = l then BitVec.ofNat 32 (leNat (bs.map (·.1))) else q.word j)
      ∧ laneIn e.landed j = (j == l || laneIn q.landed j) ∧ laneIn e.poison j = ((j == l && bs.any (·.2)) || laneIn q.poison j))
  ∧ (∀ (g : Wg) (q : QEntry) (d : Mask) (l : Nat), g.stq = some (q, d) → (g.stored l).stq = some (q, d ||| (1#32 <<< l)))
  ∧ (∀ (e : Eng) (kind : AccKind) (body : State → Eng → Piece → LaneAcc → ER Unit) (x : LaneRun) (l : LaneAcc), x.halt = false →
      let y := sliceLane e kind body x l
      let f := { e with id := l.lane, lane := some (kind, l) }
      (l.va.toNat % 4 ≠ 0 ∨ canonical l.va = false → y.halt = true)
      ∧ (l.va.toNat % 4 = 0 → canonical l.va = true → lanePending (x.s.core e.ci) f l.lane = false →
          (l.va ∈ x.left → y = { x with left := x.left ++ [l.va] })
          ∧ (l.va ∉ x.left → ∀ (u v : State) (t : Xlat), engXlat x.s f l.lane l.va = (u, some t) →
              (pieceCheck u f kind.need ⟨t, l.va.toNat, 4⟩ ≠ none → y.halt = true)
              ∧ (pieceCheck u f kind.need ⟨t, l.va.toNat, 4⟩ = none → ER.fin (body u f ⟨t, l.va.toNat, 4⟩ l) f l.lane = .ok v () →
                  y = { x with s := v }))))

/-- The words of the access slice (R148). -/
def Obligations.SliceWords : Prop := Claim.SliceEffects ∧ Claim.SliceLanes

/-! ### System instructions (20 R396-R399) -/

/-- A system instruction of the scribe warp, performed once (R44), that runs where `H` holds, leaves `t`; with no active lane it has no
effect. -/
def Sys (i : Instr) (s : State) (c : Ctl) (opds : List Opd) (H : Ctx → Prop) (t : Ctx → State) : Prop :=
  Runs i s c true false opds (fun k => k.wi = 31 ∧ k.act ≠ 0#32 ∧ H k) t
  ∧ Runs i s c true false opds (fun k => k.wi = 31 ∧ k.act = 0#32) (·.s)

/-- The system instructions of the scribe warp (R396 to R399): CSRR and CSRW on the registers that they name; TLBINV and RMAPINV drop
what they cover, on the die or, under PKG, on the package, TLBINV where no access is under way under it; CTXSAVE and CTXLOAD answer 1
for no such workgroup or no place, 2 for no image, or one whose bytes are no longer what was saved, and 0 as they save or restore one
(every page of the image is translated first; CTXSAVE stops the workgroup and waits until it is quiet); what R396 to R399 call
ILLEGAL_OPERAND traps; DBGHALT halts a core whose entry and inbound writes are done and ends the
STALLs of its user warps, and otherwise stays; DBGRES accepts the writes that were held back; on a core that is halted already, or
that is not, they have no effect. -/
def Obligations.SystemInstructions : Prop :=
  ∀ (s u : State) (c : Ctl) (a : Reg) (ao : Option Reg) (d : Fin 64) (n : BitVec 12) (kind : Fin 3) (pasid : BitVec 20)
    (cnt : BitVec 16) (slot : BitVec 5) (pages : List (Nat × Fin 6)) (g : Wg) (im : Image),
    let uni := fun (k : Ctx) (r : Reg) => (k.uni r).toNat
    let answer := fun (s : State) (k : Ctx) (v : Nat) => s.modWarp k.ci k.wi (·.sput d.val (BitVec.ofNat 64 v) false)
    let p := fun (k : Ctx) (x : Xlat) => match kind with
      | 0 => x.covers pasid (match ao with | some r => uni k r | none => 0)
      | 1 => x.pasid == pasid
      | 2 => true
    Sys (.csrr c (.s d) n) s c [opdS (.s d)] (fun _ => n = 0#12 ∨ n = 2#12 ∨ n = 8#12)
      (fun k => answer k.s k (ctlRead k.s k.ci (8 * n.toNat)).toNat)
    ∧ Sys (.csrw c a 2#12) s c [opdUni a] (fun k => 32 ≤ uni k a ∧ uni k a ≤ 256)
      (fun k => k.s.modCore k.ci fun x => { x with govB := BitVec.ofNat 9 (uni k a) })
    ∧ (∀ k, Ready s c true false [opdS (.s d)] k → k.wi = 31 → k.act ≠ 0#32 → n ≠ 0#12 → n ≠ 2#12 → n ≠ 8#12 →
        Traps (.csrr c (.s d) n) s k c (k.cause 0x02 k.act 0#64))
    ∧ (∀ k, Ready s c true false [opdUni a] k → k.wi = 31 → k.act ≠ 0#32 →
        let v := uni (k.popped [opdUni a]) a
        ((n ≠ 2#12 ∨ v < 32 ∨ 256 < v) → Traps (.csrw c a n) s k c (k.cause 0x02 k.act 0#64))
        ∧ ((v % 128 ≠ 0 ∨ cnt = 0#16) → Traps (.rmapinv c a cnt) s k c (k.cause 0x02 k.act 0#64)))
    ∧ (∀ k, Ready s c true false [opdS (.s d), opdUni a] k → k.wi = 31 → k.act ≠ 0#32 →
        uni (k.popped [opdS (.s d), opdUni a]) a % 4096 ≠ 0 →
        Traps (.ctxsave c (.s d) a slot) s k c (k.cause 0x02 k.act 0#64) ∧ Traps (.ctxload c (.s d) a) s k c (k.cause 0x02 k.act 0#64))
    ∧ Sys (.tlbinv c kind true ao pasid) s c (ao.toList.map opdUni) (fun k => xlatBusy k.s none (p k) = false) (fun k => dropXlats k.s (p k))
    ∧ Sys (.tlbinv c kind false ao pasid) s c (ao.toList.map opdUni)
      (fun k => xlatBusy k.s (some (dieOfCore k.ci)) (p k) = false) (fun k => dropDie k.s (dieOfCore k.ci) (p k))
    ∧ Sys (.rmapinv c a cnt) s c [opdUni a] (fun k => uni k a % 128 = 0 ∧ cnt ≠ 0#16)
      (fun k =>
        let hit := fun (l : Nat) => uni k a / 128 ≤ l && l < uni k a / 128 + cnt.toNat
        let s := ((List.range 96).map (· + 96 * dieOfCore k.ci)).foldl (fun s c =>
          s.modCore c fun x => { x with l1 := x.l1.filter fun e => !hit e.pline }) k.s
        s.modDie (dieOfCore k.ci) fun x => { x with quads := x.quads.map fun q => { q with rmap := q.rmap.filter fun e => !hit e.1 } })
    ∧ Sys (.ctxsave c (.s d) a slot) s c [opdS (.s d), opdUni a]
      (fun k => uni k a % 4096 = 0 ∧ (k.k.warp? slot.toNat).bind k.k.wgOf = none) (fun k => answer k.s k 1)
    ∧ (∀ w : State, Sys (.ctxsave c (.s d) a slot) s c [opdS (.s d), opdUni a]
      (fun k => uni k a % 4096 = 0 ∧ (k.k.warp? slot.toNat).bind k.k.wgOf = some g
        ∧ ctxPages needW (imagePages g (warpN (k.k.warpsOf g.id))) (k.uni a) k = (u, .ok pages) ∧ wgQuiet (stopWg u k.ci g.id) k.ci g.id = true
        ∧ taskDoomed (stopWg u k.ci g.id) g = false ∧ w = saveWg (stopWg u k.ci g.id) k.ci g.id (((pages.head?).map (·.1)).getD 0) pages)
      (fun k => answer (if (gangCores w g.die g.graph g.node g.gang).isEmpty = true then gangGone w g.die g.graph g.node g.gang true else w) k 0))
    ∧ (∀ k, Ready s c true false [opdS (.s d), opdUni a] k → k.wi = 31 → k.act ≠ 0#32 →
        let x := k.popped [opdS (.s d), opdUni a]
        uni x a % 4096 = 0 → (x.k.warp? slot.toNat).bind x.k.wgOf = some g →
        ctxPages needW (imagePages g (warpN (x.k.warpsOf g.id))) (x.uni a) x = (u, .ok pages) →
        (wgQuiet (stopWg u k.ci g.id) k.ci g.id = false ∨ taskDoomed (stopWg u k.ci g.id) g = true) →
        exec (.ctxsave c (.s d) a slot) s = .next (stopWg u k.ci g.id))
    ∧ Sys (.ctxload c (.s d) a) s c [opdS (.s d), opdUni a]
      (fun k => uni k a % 4096 = 0 ∧ loadImage k (k.uni a) = (u, .ok none)) (fun k => answer u k 2)
    ∧ (∀ w : State, Sys (.ctxload c (.s d) a) s c [opdS (.s d), opdUni a]
      (fun k => uni k a % 4096 = 0 ∧ loadImage k (k.uni a) = (u, .ok (some im)) ∧ restoreWg u k.ci im = some w)
      (fun k => answer (if (gangCores w im.wg.die im.wg.graph im.wg.node im.wg.gang).length = 1 then
        w.modNode im.wg.die im.wg.graph im.wg.node fun x => { x with placed := x.placed + 1, back := x.back.erase im.wg.gang } else w) k 0))
    ∧ Sys (.ctxload c (.s d) a) s c [opdS (.s d), opdUni a]
      (fun k => uni k a % 4096 = 0 ∧ loadImage k (k.uni a) = (u, .ok (some im)) ∧ restoreWg u k.ci im = none) (fun k => answer u k 1)
    ∧ (∀ k, loadImage k (k.uni a) = (u, .ok (some im)) → im ∈ u.images ∧ imageOk u im = true ∧ imageIntact u (dieOfCore k.ci) im = true)
    ∧ Sys (.dbghalt c) s c [] (fun k => k.k.halted = false ∧ haltQuiet k.s k.ci = true)
      (fun k => k.s.modCore k.ci fun x => { x with halted := true, haltReq := false, warps := x.warps.map fun y => y.map fun w =>
        if w.wg.isSome then w.endStall else w })
    ∧ Sys (.dbghalt c) s c [] (fun k => k.k.halted = true) (·.s)
    ∧ (∀ k, Ready s c true false [] k → k.wi = 31 → k.act ≠ 0#32 → (k.popped []).k.halted = false →
        haltQuiet (k.popped []).s k.ci = false →
        exec (.dbghalt c) s = .next ((k.popped []).s.modCore k.ci fun x => { x with haltReq := true }))
    ∧ Sys (.dbgres c) s c [] (fun k => k.k.halted = false) (·.s)
    ∧ Sys (.dbgres c) s c [] (fun k => k.k.halted = true)
      (fun k => k.k.tickets.foldl (fun s t => match t.notice with | some st => closeTicket s k.ci t st | none => s)
        (k.k.bpw.foldl (acceptMsg · k.ci ·) (k.s.modCore k.ci fun x => { x with halted := false, bpw := [], bpEng := [] })))

/-! ### Events of issue, tickets and host translations (03 R46-R56, 07 R146-R152, 08 R177-R198, 20 R384-R388, 21 R404-R405) -/

/-- CLAUSE_FETCH of the entry of highest rank whose header and words can be fetched, whose header breaks nothing, and whose MELD
agrees with the ligature: the warp holds the clause at position 1, the entry takes its PRIO, and WAIT holds the warp until its
flags are zero (R52 to R56). The holds of STALL and YIELD end (R46, R47, R163). -/
def Claim.FetchAndHolds : Prop :=
  (∀ (s s1 s2 s3 : State) (core slot : Nat) (w w1 : Warp) (e : Entry) (es : List Entry) (x : Word96) (h : Header) (bs : List Byte),
    s.warp? core slot = some w → w.atBoundary = true → coreIssues s core slot = true → w.resume = none →
    w.job = none → refreshHead s core slot = (s1, true) → (s1.warp? core slot).map Warp.choose = some (w1, true) → w1.front = e :: es →
    fetchWord (s1.modWarp core slot fun _ => w1) core w1.pasid (slot == 31) e.pc = (s2, .ok x) →
    Header.ofWord x = some h → h.bad = false → h.meld = w1.lig.on → 1 ≤ h.len →
    fetchGo s2 core w1.pasid (slot == 31) (3 * h.len) (e.pc + 12#64) = (s3, .ok bs) →
    exec (.clauseFetch core slot) s = .next ((endFetch s3 core slot).modWarp core slot fun w =>
      let w := { w with clause := some ⟨e.pc, h, wordsOf h.len bs, 1⟩, resume := none
                        front := { e with prio := h.prio, pc := e.pc + 12#64 } :: w.front.drop 1 }
      if w.flagsZero h.wait then w.mergeFlags h.wait e.mask else { w with wait := .flags h.wait e.mask }))
  ∧ (∀ (s : State) (core slot : Nat),
      exec (.stallExpiry core slot) s = .next (s.modWarp core slot fun w => { w with stall := false })
      ∧ exec (.yieldHoldExpiry core slot) s = .next (s.modWarp core slot fun w => { w with yieldHold := none })
      ∧ exec (.yieldCcHoldExpiry core slot) s = .next (s.modWarp core slot fun w => { w with yieldCc := false }))

/-- WATCHDOG before an instruction that stays blocked on a queue, or, while the warp waits or a cause of lower code is pending, a cause
that is pending with them (the model's choice of log 101); the spills, refills and merges of the frontier; a spill fault that
is not repaired; a pending cause of lowest code taken at the boundary, which comes once an entry of a spilled frontier is back; an
escalated cause that ends its task as KILLED; the end of a long-latency operation, whose destinations are written and whose flag falls;
and the acknowledgement of a store or of an engine's write, which raises pts to its stamp, the die's FWC for a line homed elsewhere, and
brings the core's older L1 copies of the line up to it (R49, R64, R144, R146, R152, R244, R245, R256, R384, R386, R388). -/
def Claim.WarpEvents : Prop :=
  ∀ (s : State) (core slot id : Nat) (w : Warp), s.warp? core slot = some w →
    (∀ k, queueBlocked { s with cur := (core, slot) } core slot = some k → w.stopped = false → w.escal = none →
      k.w = w → coreIssues s core slot = true →
      let u := { s with cur := (core, slot) }
      let z : Cause := ⟨0x0E, k.act, w.here.1, w.here.2, 0#64, 0#32, 0#4, false⟩
      (w.handler.isSome = true ∨ (w.beforeNext = true ∧ ∀ y ∈ w.causes, 0x0E ≤ y.code) →
        exec (.watchdog core slot) s = .next (takeTrap u core slot z))
      ∧ (w.handler = none → (w.beforeNext = false ∨ ∃ y ∈ w.causes, y.code < 0x0E) → exec (.watchdog core slot) s =
          .next (if w.causes.any (·.code == 0x0E) then u else u.modWarp core slot fun w => { w with causes := w.causes ++ [z] })))
    ∧ (w.job = some .spill → w.unread = false → exec (.frontierSpill core slot) s = .next (s.modWarp core slot fun w => match lowEntry w.front with
        | some e => { w with front := w.front.filter (!·.same e), spilled := w.spilled ++ [e]
                             job := if 8 < (w.front.filter (!·.same e)).length then some .spill else none }
        | none => { w with job := none }))
    ∧ (w.job = some .refill → exec (.frontierRefill core slot) s = .next (s.modWarp core slot fun w => match topEntry w.spilled with
        | some e => ({ w with spilled := w.spilled.filter (!·.same e) }.addEntry e).jobDone
        | none => { w with job := none }))
    ∧ (w.job = some .merge → exec (.spilledMerge core slot) s = .next (s.modWarp core slot Warp.jobDone))
    ∧ (w.job.isSome = true → exec (.frontierSpillFault core slot false) s = .next (s.modWarp core slot fun w' => { w' with
        escal := some ⟨0x11, ((w.front.head?).map (·.mask)).getD 0#32, w.here.1, w.here.2, 0#64, 0#32, 0#4, false⟩ }))
    ∧ (∀ (u : Warp) (z : Cause), (settle s core slot).warp? core slot = some u → u.ended = false → u.stopped = false → u.escal = none →
        u.job = none → u.handler = none → u.wait = .none → coreIssues (settle s core slot) core slot = true → z ∈ u.causes →
        (∀ y ∈ u.causes, z.code ≤ y.code) → u.causes.find? (·.code == z.code) = some z →
        exec (.trapEntry core slot) s = .next (if u.front = [] then (settle s core slot).modWarp core slot fun w => w.choose.1
          else takeTrap ((settle s core slot).modWarp core slot fun w => { w with causes := w.causes.erase z }) core slot z))
    ∧ (∀ g, w.escal.isSome = true → (s.core core).wgOf w = some g →
        exec (.trapEscalation core slot) s = .next (if g.ending then s else endTask s g.die g.graph g.node 8))
    ∧ (∀ o, w.ops.find? (·.id == id) = some o → o.parts = 0 → o.engine = false →
        exec (.longLatencyComplete core slot id) s = .next (settle ((o.writes.foldl (landWrite · core slot ·) s).modWarp core slot
          fun w => { w with ops := w.ops.filter (·.id != id) }.decFlag o.flag) core slot))
    ∧ (∀ p, w.posted.find? (·.id == id) = some p →
        exec (.storeAck core slot id) s
          = .next (drain ((ackWrite s core p).modWarp core slot fun w => { w with posted := w.posted.erase p }) core slot))
    ∧ (∀ p, (s.core core).engPosted.find? (·.id == id) = some p →
        exec (.storeAck core 32 id) s = .next ((ackWrite s core p).modCore core fun k => { k with engPosted := k.engPosted.erase p }))
    ∧ (∀ (p : Posted) (line : Nat) (d : BitVec 1024) (q : BitVec 2) (e : L1Line), core < 384 → p.upd = some (line, d, q) →
        let st := match p.wts with
          | some v => (v, false)
          | none => ((s.die (dieOfCore core)).fwc, (s.die (dieOfCore core)).fwcExp)
        ((ackWrite s core p).core core).pts = (if st.2 then (s.core core).pts else tmax st.1 (s.core core).pts)
        ∧ (e ∈ (s.core core).l1 → e.pline = line → e.born < p.born →
          { e with data := d, pois := q, wts := st.1, rts := st.1, wExp := st.2, exp := st.2, born := p.born } ∈ ((ackWrite s core p).core core).l1)
        ∧ (e ∈ (s.core core).l1 → (e.pline ≠ line ∨ p.born ≤ e.born) → e ∈ ((ackWrite s core p).core core).l1))

/-- The events of issue. -/
def Obligations.IssueEvents : Prop := Claim.FetchAndHolds ∧ Claim.WarpEvents

/-- FAULT_TICKET of a miss that no device table resolves: a ticket takes its entry, with the identifier of a free index at the die's
owner, or the owner answers BUSY; one that a walk now resolves is performed, but that a fetch or an engine's access to a page of
another device may be ticketed there (R177, R179, R181 to R186). A replay of an engine's ticket leaves its translation with the
engine's part, and the page hold ends. BUSY_RETRY, PAGE_SERVICE and
PAGE_HOLD_EXPIRY (R183, R461). A notice of status OK replays its ticket and one of any other status fails it; a halted core only
records it (R188, R189, R396). The query of R190 and its answer (R195), and the failure of a query that no peer answers. -/
def Obligations.TicketEvents : Prop :=
  ∀ (s u : State) (core miss die index : Nat) (m : Miss) (r : OwnRec) (t : Ticket) (tid : Word) (st : BitVec 4),
    ((s.core core).misses.find? (·.id == miss) = some m → m.busy = false → m.ats ≠ .out →
      let enter := fun (s : State) (tid : Word) => (replayed (dropMiss s core m.id) m.kept).modCore core fun k =>
        { k with tickets := k.tickets ++ [⟨tid, m.acc, m.va, m.need, .none, none⟩] }
      (∀ x, translate s core m.acc.pasid m.va = (u, some x) →
        (x.home = none ∨ (∃ w, m.acc.path = .lsu w) →
          exec (.faultTicket core miss) s = .next (resumeAccess (dropMiss u core miss) core m.acc m.va m.kept))
        ∧ ∀ dev, x.home = some dev → (∀ w, m.acc.path ≠ .lsu w) →
          exec (.faultTicket core miss) s = .next (if (Config.coin u.tick = true ∨ unreachable u dev.val = true) ∧ entryFree (u.core core) m = true
            then enter u (peerTid u dev.val) else resumeAccess (dropMiss u core miss) core m.acc m.va m.kept))
      ∧ (∀ v, translate s core m.acc.pasid m.va = (u, none) → entryFree (u.core core) m = true →
          walk u (dieOfCore core) m.acc.pasid m.va ≠ .host → assisted u 0 = false →
          newRec u (dieOfCore core) core m.acc.pasid m.va m.need m.acc.scr .fresh = some (v, r) →
          exec (.faultTicket core miss) s = .next (enter v (ticketId v.pkg.val (dieOfCore core) r.index r.gen))))
    ∧ exec (.busyRetry core miss) s = .next (s.modCore core fun k =>
        { k with misses := updFirst (·.id == miss) (fun (m : Miss) => { m with busy := false }) k.misses })
    ∧ ((s.die die).own.find? (·.index == index) = some r → r.phase = .fresh →
        servePage 8 s die r.pasid r.va.toNat r.need r.scr = (u, .status st) →
        (r.core ≤ 384 → exec (.pageService die index) s = .next (u.modDie die fun k => { k with
          notices := k.notices ++ [⟨r.core, ticketId u.pkg.val die r.index r.gen, st⟩]
          own := if st = 0#4 then updFirst (·.index == r.index) (fun (x : OwnRec) => { x with phase := .noticed }) k.own
            else k.own.filter (·.index != r.index) }))
        ∧ (384 < r.core → exec (.pageService die index) s
            = .next ((originate u ⟨unitSource u die 144, BitVec.ofNat 4 (r.core - 385), 2#3⟩).modDie die fun k => { k with
          own := if st = 0#4 then updFirst (·.index == r.index) (fun (x : OwnRec) => { x with phase := .noticed }) k.own
            else k.own.filter (·.index != r.index) })))
    ∧ exec (.pageHoldExpiry die index) s = .next (s.modDie die fun k =>
        { k with own := k.own.filter fun r => r.index != index || r.phase != .noticed })
    ∧ ((u.core core).tickets.find? (·.tid == tid) = some t →
        ((u.core core).halted = false →
          (takeNotice s core tid (· == 0#4) = some (u, st) → tidDev tid = s.pkg.val →
            exec (.replayNotice core tid) s = .next (closeTicket u core t st))
          ∧ (takeNotice s core tid (· != 0#4) = some (u, st) → tidDev tid = s.pkg.val →
            exec (.ticketFailure core tid 0#4) s = .next (closeTicket u core t st))
          ∧ (tidDev tid ≠ u.pkg.val → 1 ≤ st.toNat → st.toNat ≤ 6 → exec (.ticketFailure core tid st) u = .next (closeTicket u core t st))
          ∧ (tidDev tid ≠ u.pkg.val → t.query = .asked → exec (.linklostTimeout core tid) u = .next (closeTicket u core t 5#4))
          ∧ (tidDev tid ≠ u.pkg.val → t.query = .asked → st.toNat ≤ 6 →
            exec (.ticketQueryAnswer core tid (.status st)) u = .next (closeTicket u core t st)))
        ∧ ((u.core core).halted = true → takeNotice s core tid (· == 0#4) = some (u, st) → tidDev tid = s.pkg.val →
            exec (.replayNotice core tid) s = .next (u.modCore core fun k =>
              { k with tickets := updFirst (·.tid == tid) (fun (t : Ticket) => { t with notice := some st }) k.tickets })))
    ∧ exec (.ticketStatusQuery core tid) s = .next (s.modCore core fun k =>
        { k with tickets := updFirst (·.tid == tid) (fun (t : Ticket) => { t with query := .asked }) k.tickets })
    ∧ ((s.die die).own.find? (·.index == index) = some r → r.phase = .fresh → servePage 8 s die r.pasid r.va.toNat r.need r.scr = (u, .host) →
        exec (.pageService die index) s = .next (u.modDie die fun k =>
          { k with own := updFirst (·.index == index) (fun (x : OwnRec) => { x with phase := .atsDue false }) k.own }))
    ∧ (let d := dropTicket s core t.tid
       (st ≠ 0#4 → closeTicket s core t st = failAccess (ackReplay d t.tid) core t.acc t.va st)
       ∧ (st = 0#4 → ticketLive d core t.acc = false → closeTicket s core t st = resumeAccess d core t.acc t.va (some t.tid))
       ∧ (st = 0#4 → ticketLive d core t.acc = true → translate d core t.acc.pasid t.va = (u, none) →
          closeTicket s core t st = addMissAt u core t.acc t.va t.need (some t.tid))
       ∧ (st = 0#4 → ticketLive d core t.acc = true → ∀ x, translate d core t.acc.pasid t.va = (u, some x) →
          closeTicket s core t st = ackReplay ((keptIds t.acc).foldl (fun s i => keepXlat s core ⟨t.acc.path, i, x⟩) u) t.tid))

/-- ATS and PRI (R180, R404, R405, R198): a request is sent for the die's oldest record that is due, while the link is up and the
host enables ATS; an answer that grants what a ticket needs fills the arrays and posts success; one that errs fails it with
HOSTFAIL; a record on a page whose request is outstanding waits for its answer, and a page request takes a free group; a success asks ATS again, an invalid request and a failure post HOSTFAIL; a stop
marker fails the PASID's requests; an invalidation removes the host translations that it covers, everywhere. -/
def Obligations.HostTranslationEvents : Prop :=
  ∀ (s : State) (die i group : Nat) (r : OwnRec) (b : Bool) (rest : List AtsReq) (ans : AtsAnswer) (pasid : BitVec 20) (va : Dword) (size : Nat),
    (s.port.hpcap.getLsbD 15 = true → s.port.hpcap.getLsbD 5 = true →
      (s.die die).own.find? (fun r => r.phase == .atsDue true || r.phase == .atsDue false) = some r → r.phase = .atsDue b →
      (∀ x ∈ (s.die die).own, x.index = r.index → x = r) →
      ∃ t, exec (.atsTranslationRequest die) s = .next t ∧ (die < 4 → (t.die die).ats = (s.die die).ats ++ [.tick r.index]
        ∧ ∀ x ∈ (t.die die).own, x.index = r.index → x.phase = .atsOut b))
    ∧ ((s.die die).ats = .tick i :: rest → (s.die die).own.find? (·.index == i) = some r → ans.pasid = r.pasid →
        (atsXlat ans).covers r.pasid r.va.toNat = true →
        let u := s.modDie die fun k => { k with ats := rest }
        (ans.err = true → exec (.atsCompletion die ans) s = .next (postNotice u die r 4#4))
        ∧ (ans.err = false → permits (atsXlat ans) r.need true = true → r.core ≠ 384 →
            exec (.atsCompletion die ans) s = .next ((postNotice (tlbFill u r.core (atsXlat ans)) die r 0#4).modDie die fun k =>
              { k with own := updFirst (·.index == i) (fun (x : OwnRec) => { x with xl := some (atsXlat ans) }) k.own })))
    ∧ (let v := s.modDie die Die.joinPri
       let used := (priGroups v).foldl (fun l g => if l.contains g then l else l ++ [g]) []
       s.port.hpcap.getLsbD 6 = true → used.length < min 512 (s.port.hpcap.extractLsb' 16 12).toNat →
         (v.die die).own.find? (·.phase == .priDue) = some r → (List.range 512).find? (fun g => !used.contains g) = some group →
         exec (.priPageRequest die) s = .next (v.modDie die fun k => { k with
           own := k.own.map fun (x : OwnRec) =>
             if x.phase = .priDue ∧ sharesPage x r = true then { x with phase := .priOut group } else x }))
    ∧ (∀ k : Die, k.joinPri.own = k.own.map fun (x : OwnRec) => if x.phase = .priDue then (match groupOf k x with
        | some g => { x with phase := .priOut g } | none => x) else x)
    ∧ exec (.prgSuccess die group) s = .next (s.modDie die fun k => { k with
        own := k.own.map fun r => if r.phase = .priOut group then { r with phase := .atsDue true } else r })
    ∧ exec (.prgInvalidRequest die group) s
        = .next (((s.die die).own.filter (·.phase == .priOut group)).foldl (fun s r => postNotice s die r 4#4) s)
    ∧ ((s.die die).own.any (·.phase == .priOut group) = true →
        ∃ t, exec (.prgResponseFailure die group) s = .next t ∧ t.port.hpcap = s.port.hpcap &&& ~~~0x40#64
          ∧ ∀ d < 4, ∀ x ∈ (t.die d).own, x.phase ≠ .priDue ∧ ∀ g, x.phase ≠ .priOut g)
    ∧ (∃ t, exec (.priStopMarker pasid) s = .next t ∧ ∀ d < 4, ∀ x ∈ (t.die d).own, x.pasid = pasid →
        x.phase ≠ .priDue ∧ ∀ g, x.phase ≠ .priOut g)
    ∧ (xlatKept s none (fun x => x.mt == 2 && x.pasid == pasid && x.meets va.toNat size) = true →
        exec (.atsInvalidateRequest pasid va size) s = .next s)
    ∧ (xlatKept s none (fun x => x.mt == 2 && x.pasid == pasid && x.meets va.toNat size) = false →
        ∃ t, exec (.atsInvalidateRequest pasid va size) s = .next t
        ∧ (∀ c < 384, ∀ x ∈ (t.core c).tlb, x ∈ (s.core c).tlb ∧ ¬ (x.mt = 2 ∧ x.pasid = pasid ∧ x.va < va.toNat + size ∧ va.toNat < x.va + x.size))
        ∧ (∀ c < 384, ∀ x ∈ (s.core c).tlb, (x.mt ≠ 2 ∨ x.pasid ≠ pasid) → x ∈ (t.core c).tlb)
        ∧ t.hbm = s.hbm ∧ t.hostMem = s.hostMem)
    ∧ (xlatKept s none (fun x => x.mt == 2 && x.meets va.toNat size) = true → exec (.globalInvalidate va size) s = .next s)
    ∧ (xlatKept s none (fun x => x.mt == 2 && x.meets va.toNat size) = false → ∃ t, exec (.globalInvalidate va size) s = .next t
        ∧ (∀ c < 384, ∀ x ∈ (t.core c).tlb, x ∈ (s.core c).tlb ∧ ¬ (x.mt = 2 ∧ x.va < va.toNat + size ∧ va.toNat < x.va + x.size))
        ∧ (∀ c < 384, ∀ x ∈ (s.core c).tlb, x.mt ≠ 2 → x ∈ (t.core c).tlb))

/-! ### Coherence (11 R242-R260) -/

/-- LOGICAL TIME. a ≤ b of R243 is cyclic; IDLE_ADVANCE and LTLIM_ADVANCE move one tick and never beyond LTLIM or Tmax + 1,024
(R244, R247); a scrub marks what lies 2^14 or more behind Tmax expired, and nothing it has marked becomes unmarked (R248); a
store at its home die takes the stamp max(rts + 1, pts), which becomes the line's wts and rts (R244). -/
def Claim.LogicalTime : Prop :=
  (∀ a b : BitVec 16, tle a b = true ↔ (b.toNat + 65536 - a.toNat) % 65536 < 32768)
  ∧ tle 0xFFF8#16 0x0004#16 = true ∧ tle 0x0004#16 0xFFF8#16 = false ∧ tmax 0xFFF8#16 0x0004#16 = 0x0004#16
  ∧ (∀ (s : State) (core : Nat), core < 384 → tle ((s.core core).pts + 1) (s.die (dieOfCore core)).ltlim = true →
      ∃ t, exec (.idleAdvance core) s = .next t ∧ (t.core core).pts = (s.core core).pts + 1 ∧ t.dies = s.dies
        ∧ ∀ c, c ≠ core → t.core c = s.core c)
  ∧ (∀ (s : State) (die : Nat), die < 4 → tle ((s.die die).ltlim + 1) (tmaxOf s die + 1024) = true →
      ∃ t, exec (.ltlimAdvance die) s = .next t ∧ (t.die die).ltlim = (s.die die).ltlim + 1 ∧ t.cores = s.cores)
  ∧ (∀ (s : State) (die : Nat), die < 4 → ∃ t, exec (.scrubVisit die) s = .next t
      ∧ (t.die die).l2 = (s.die die).l2.map fun x => { x with
          wExp := x.wExp || (decide (0x4000 ≤ (tmaxOf s die - x.wts).toNat) && tle x.wts (tmaxOf s die))
          rExp := x.rExp || (decide (0x4000 ≤ (tmaxOf s die - x.rts).toNat) && tle x.rts (tmaxOf s die)) })
  ∧ (∀ (s u : State) (c line : Nat) (w : BitVec 16), homeDie (line * 128) = dieOfCore c → dieOfCore c < 4 → storeTrk s c line = .ok (u, some w) →
      let t := (s.die (dieOfCore c)).homeTag line
      w = (if t.rExp then (s.core c).pts else tmax (t.rts + 1) (s.core c).pts) ∧ tle w (s.die (dieOfCore c)).ltlim = true
      ∧ ((u.die (dieOfCore c)).tag? line).map (fun x => (x.wts, x.rts, x.wExp, x.rExp)) = some (w, w, false, false) ∧ u.hbm = s.hbm)

/-- THE HOME DIRECTORY (R251 to R257): a request for a line that is neither in a transaction, reserved, nor held by the host is
served, or begins a forward or invalidations, which go to the agents of other devices too; a busy one is refused; a retry repeats its
request with twice the backoff; a go message lets the reserved requester, of this device or another, try at once; a timeout drops the
reservation; an owner's writeback leaves the line with no owner and its data at the home; a forward leaves it shared, and the owner's
writeback buffer is kept unless its writeback has been taken; the last invalidation gives the line to the writer. The home's own die is no
agent: it only takes the line back from other devices (R251). An invalidation, and a request for writing, are held while their stamp would
pass LTLIM (the model's choice of log 76). -/
def Claim.DirectoryEvents : Prop :=
  ∀ (s : State) (die line a o : Nat) (kind : DirKind) (r : Retry) (st : Dword) (bo : Nat),
    let h := homeDie (line * 128)
    let e := (s.die h).dir line
    let me := agentOf s die
    let home := homeAgent s line
    ((s.die die).waits.any (fun w => w.line == line && w.hold == .dir kind) = true →
      (die = h → exec (.directoryRequest die line kind) s = .next (homeAsk s line (kind != .read)))
      ∧ (die ≠ h → (s.die die).retries.any (·.line == line) = false → (s.die die).wbufs.contains line = false →
        ¬ (e.st = .b ∧ (e.fwd = some me ∨ (e.fwd = none ∧ e.owner = some me))) → grantLim s line kind = false →
        exec (.directoryRequest die line kind) s = .next (dirRequest s me line kind s.gtc 64)))
    ∧ ((s.die die).retries.find? (·.line == line) = some r → grantLim s line r.kind = false → exec (.directoryRetry die line) s =
        .next (dirRequest (s.modDie die fun k => { k with retries := k.retries.erase r }) me line r.kind r.stamp (min 8192 (2 * r.backoff))))
    ∧ (e.st ≠ .b → e.st ≠ .m → e.resv = none → snoopNeeded s line false = false →
        dirRequest s a line .read st bo = give (s.modDie h (·.setDir { e with
          st := .s, sharers := setAdd e.sharers a, resv := none, go := false, refusals := 0, refused := [] })) a line false)
    ∧ (e.st ≠ .b → e.st ≠ .m → e.resv = none → snoopNeeded s line true = false → e.sharers.filter (· != a) = [] →
        dirRequest s a line .own st bo = give (s.modDie h fun k => (k.invalidate line).setDir { e with
          st := .m, sharers := [], owner := some a, resv := none, go := false, refusals := 0, refused := [] }) a line true)
    ∧ (e.st = .m → e.owner = some o → o ≠ a → e.resv = none → snoopNeeded s line false = false →
        let f : DirEnt := { e with st := .b, fwd := some a, resv := none, go := false, refusals := 0, refused := [] }
        let u := s.modDie h (·.setDir f)
        (a / 4 ≠ s.pkg.val → dirRequest s a line .read st bo = dirSend u f)
        ∧ (a / 4 = s.pkg.val → dirRequest s a line .read st bo = dirSend (noRetry u (a % 4) line) f))
    ∧ (e.st = .b → dirRequest s a line kind st bo = refuseDir s a line kind st bo)
    ∧ (e.resv = some a → e.st ≠ .b → e.go = false →
        let u := s.modDie h (·.setDir { e with go := true })
        (a / 4 = s.pkg.val → exec (.goMessage line) s = .next (u.modDie (a % 4) fun k => { k with
          retries := k.retries.map fun r => if r.line = line then { r with backoff := 0 } else r }))
        ∧ (a / 4 ≠ s.pkg.val → exec (.goMessage line) s = .next (sliceSend u h line (a / 4) 1#3)))
    ∧ (e.resv.isSome = true → e.st = .b →
        exec (.reservationTimeout line) s = .next (s.modDie h (·.setDir { e with resv := none, go := false })))
    ∧ ((s.die die).wbufs.contains line = true → peerHome line = none → e.st = .m → e.owner = some me →
        exec (.writeback die line) s = .next (wakeLine (homeFill ((s.modDie h (·.setDir
          { e with st := .i, owner := none, sharers := [] }.settled)).modDie die fun k => { k with wbufs := k.wbufs.erase line }) line) line))
    ∧ (e.st = .b → e.fwd = some a → e.owner = some o → o / 4 = s.pkg.val → ((s.die (o % 4)).tag? line).isSome = true →
        exec (.forward line) s = .next (
          let u := (s.modDie (o % 4) fun k => match k.tag? line with
            | some t => k.setTag { t with st := .shared }
            | none => if e.wbIn then { k with wbufs := k.wbufs.erase line } else k).modDie h (·.setDir
              { e with st := .s, sharers := (if a = home then [o] else setAdd [o] a), owner := none, fwd := none, wbIn := false }.settled)
          wakeLine (give (homeFill u line) a line false) line))
    ∧ (e.st = .b → e.fwd = none → e.owner = some o → e.sharers.contains me = true → invLim (s.die die) line = none →
        let u := s.modDie die fun k => { k.invalidate line with wbufs := if e.wbIn then k.wbufs.erase line else k.wbufs }
        (e.sharers.filter (· != me) ≠ [] → exec (.invalidation die line) s =
          .next (u.modDie h (·.setDir { e with sharers := e.sharers.filter (· != me) })))
        ∧ (e.sharers.filter (· != me) = [] → o ≠ home → exec (.invalidation die line) s =
          .next (wakeLine (give (u.modDie h (·.setDir { e with sharers := [], st := .m, wbIn := false }.settled)) o line true) line))
        ∧ (e.sharers.filter (· != me) = [] → o = home → exec (.invalidation die line) s =
          .next (wakeLine (give (u.modDie h (·.setDir
            { e with sharers := [], st := .i, owner := none, wbIn := false }.settled)) o line true) line)))
    ∧ (∀ d < 4, a = me → die = d → a ≠ home → give s a line false = served (grantRead s d line) d line
        ∧ give s a line true = served (grantOwn s d line) d line)
    ∧ (∀ own, a / 4 ≠ s.pkg.val → give s a line own = sliceSend s h line (a / 4) 2#3)

/-- EVICTION, held writes and the host's copies (R246, R247, R255, R258, R259, R402): an owner's line goes to the writeback buffer, and of
a line of another device at once to its home; a dirty line whose home cannot be reached is offered (R419); a line that
the host holds is asked for with a back-invalidate snoop, and its answer frees the record; a host write reaches memory as a
foreign write, and an AtomicOp of the host answers the old value and writes its new one so; a host read answers the bytes in memory and
changes none; the host's copy is recorded, and none of these waits for the host; one in no window or not admitted has an error response;
a CXL.cache snoop finds nothing. -/
def Claim.HostCopies : Prop :=
  ∀ (s u : State) (die line pa n g off : Nat) (t : L2Tag) (bs : List Byte) (got : List (Byte × Bool)) (m : Bool) (p : Option (BitVec 20))
    (op : HostAtom) (q : HostReq),
    let h := homeDie (line * 128)
    let up := s.boot = .running ∧ s.port.hpcap.getLsbD 15 = true
    let inLine := fun (pa n : Nat) => 0 < n ∧ lineOf pa = lineOf (pa + n - 1)
    ((s.die die).unt? line = none → (s.die die).tag? line = some t →
      (t.st = .owner ∧ unreachable s (lineDev s line) = true → exec (.l2Eviction die line) s =
        .next (s.modDie die fun k => { k with offers := setAdd k.offers line }))
      ∧ (t.st = .owner → unreachable s (lineDev s line) = false →
        let v := (s.modDie die (·.evict line)).modDie die fun k => { k with wbufs := k.wbufs ++ [line] }
        exec (.l2Eviction die line) s = .next (if (peerHome line).isSome then sliceSend v die line (lineDev s line) 2#3 else v))
      ∧ (t.st ≠ .owner → exec (.l2Eviction die line) s = .next (s.modDie die (·.evict line))))
    ∧ exec (.heldWriteRelease die) s = .next (servePeers ((((s.die die).waits.filter fun w => limReached s w.hold).map (·.line)).foldl
        (fun s l => serveWaits s die l (limReached s)) s))
    ∧ ((s.dies.toList.any fun (d : Die) => d.waits.any fun w => w.line == line && w.hold == .snoop) = true →
        (s.die h).snoop.any (·.1 == line) = true → (s.die h).bisnp.contains line = false →
        exec (.backInvalidateSnoop line) s = .next (s.modDie h fun k => { k with bisnp := k.bisnp ++ [line] }))
    ∧ ((s.die h).bisnp.contains line = true → exec (.bisnpResponse line none) s = .next (wakeLine (s.modDie h fun k =>
        { k with snoop := k.snoop.filter (·.1 != line), bisnp := k.bisnp.erase line }) line))
    ∧ (up → isHbm pa = true → inLine pa bs.length → hostRuns s pa bs.length = [((pa, bs.length), none)] → hostHeld s = false →
        (hostLine s pa bs = some u → exec (.hostAccess (.write pa bs p)) s = .next (hostAnswer (hostNote u (lineOf pa) false) (some [])))
        ∧ (hostLine s pa bs = some u → ((s.die (homeDie pa)).unt? (lineOf pa)).isSome = false →
          ∀ b, u.byteAt b = if pa ≤ b ∧ b < pa + bs.length then (bs[b - pa]?).getD 0#8 else s.byteAt b)
        ∧ (hostLine s pa bs = none → exec (.hostAccess (.write pa bs p)) s = .next (homeAsk s (lineOf pa) true)))
    ∧ (up → isHbm pa = true → inLine pa n → hostRuns s pa n = [((pa, n), none)] →
        (hostMemRead s pa n = some (u, got) → exec (.hostAccess (.read pa n p)) s = .next (hostAnswer (hostNote u (lineOf pa) false) (some got))
          ∧ u.hbm = s.hbm ∧ ((s.die (homeDie pa)).unt? (lineOf pa) = none → got.map (·.1) = (List.range n).map fun i => s.byteAt (pa + i)))
        ∧ (hostMemRead s pa n = none → exec (.hostAccess (.read pa n p)) s = .next (homeAsk s (lineOf pa) false)))
    ∧ (up → isHbm pa = true → inLine pa n → hostAtomOk op pa n = true → hostHeld s = false → nibWindow s pa n = none →
        peersHold s (lineOf pa) true = false →
        let old := some ((leBytes n (hostOld s pa n)).map fun b => (b, poisIn (untHome s (lineOf pa)).2 (pa % 128) n))
        (∀ x, hostNew op n (hostOld s pa n) = some x → hostLine s pa (leBytes n x) = some u →
          exec (.hostAccess (.atomic pa n op p)) s = .next (hostAnswer (hostNote u (lineOf pa) false) old))
        ∧ (hostNew op n (hostOld s pa n) = none → exec (.hostAccess (.atomic pa n op p)) s = .next (hostAnswer (hostNote s (lineOf pa) false) old)))
    ∧ (up → s.port.hpcap.getLsbD 0 = true → isHbm (line * 128) = true → (hostRuns s (line * 128) 128).any (·.2.isSome) = false →
        ((s.die h).dir line).st ≠ .b → (m = true → recallLim s line = none) → peersHold s line m = false →
        let v := if m then recallAll s line else recallRead s line
        exec (.hostAccess (.cache (line * 128) m)) s = .next (hostAnswer (hostNote v line m) (some (byteList 128 fun i =>
          (BitVec.ofNat 8 (dataAt (untHome v line).1 i 1), poisIn (untHome v line).2 i 1)))))
    ∧ (s.port.hpcap.getLsbD 0 = true → (h < 4) → ((hostNote s line m).die h).snoop =
        (s.die h).snoop.filter (·.1 != line) ++ [(line, m || (s.die h).snoop.any fun e => e.1 == line && e.2)])
    ∧ (s.boot ≠ .running → exec (.hostAccess q) s = .next (hostAnswer s none))
    ∧ (up → isHbm pa = false → inLine pa n →
        (winSplit pa = none → exec (.hostAccess (.read pa n p)) s = .next (hostAnswer s none))
        ∧ (winSplit pa = some (g, off) → hostWin s g off n .load p = false → exec (.hostAccess (.read pa n p)) s = .next (hostAnswer s none))
        ∧ (winSplit pa = some (g, off) → hostWin s g off n .load p = true → exec (.hostAccess (.read pa n p)) s =
            .next (hostAnswer (s.winSee g off n) (some (byteList n fun i =>
              (BitVec.ofNat 8 (winRead (s.winSee g off n) g (off + i) 1).1, (winRead (s.winSee g off n) g (off + i) 1).2))))))
    ∧ (up → isHbm pa = false → inLine pa bs.length → hostHeld s = false → winSplit pa = some (g, off) →
        (hostWin s g off bs.length .store p = false → exec (.hostAccess (.write pa bs p)) s = .next (hostAnswer s none))
        ∧ (hostWin s g off bs.length .store p = true → exec (.hostAccess (.write pa bs p)) s =
            .next (hostAnswer (outPut s 384 g off bs p) (some []))))
    ∧ exec (.cxlCacheSnoop pa) s = .next s

/-- The events of coherence. -/
def Obligations.CoherenceEvents : Prop := Claim.LogicalTime ∧ Claim.DirectoryEvents ∧ Claim.HostCopies

/-! ### Events of the sync unit, the copy channels and the matrix engine (13 R272-R277, 15 R287-R295, 16 R315-R324) -/

/-- A BARRIER_ARRIVAL that is ready, whose release half is done and before which no acquire of its warp is pending (R231), reaches its
barrier, and RET's D takes the PHASE before it; a remote one that R277 turns away only counts in RBREF. One at a pod barrier goes to
device 0 of the pod, where this device is another, and D takes a free value (logs 1, 107). A SYNC_WRITE takes the oldest posted write
that may go to the sync unit there. What a release publishes with either is the model's record of happens-before (R232; log 17). -/
def Claim.SyncEvents : Prop :=
  (∀ (s : State) (i : Nat) (a : Arrival), s.arrivals[i]? = some a →
    (a.warp = none ∨ ∃ slot id, a.warp = some (slot, id) ∧ (a.rel = false ∨ relReady s a.core slot id = true)
      ∧ (s.core a.core).acqPend slot id = false) →
    let r := { s with arrivals := s.arrivals.eraseIdx i }
    let b := barGet r a.tgt a.level a.n
    let ret := fun (t : State) (phase : Word) => match a.ret, a.warp with
      | some d, some (slot, _) => t.modWarp a.core slot fun w =>
          { w.sput d.val (phase.setWidth 64) false with sbPend := w.sbPend.erase d.val }
      | _, _ => t
    (a.rmt = true → rbarOk r a = false → exec (.barrierArrival i) s = .next (r.modCore a.core fun k => { k with rbref := k.rbref + 1 }))
    ∧ ((a.rmt = false ∨ rbarOk r a = true) →
        (a.level ≠ .pod → exec (.barrierArrival i) s = .next (wakeBar
          (ret (barPut r a.tgt a.level a.n (b.arrive a.count a.flags (arriveRel r a))) b.phase) a.tgt a.level a.n))
        ∧ (a.level = .pod → s.pkg.val ≠ 0 → exec (.barrierArrival i) s = .next
          (ret (originate r ⟨coreSource r a.core, 0#4, 0#3⟩) ((Config.peerValue s.tick a.n).setWidth 32)))
        ∧ (a.level = .pod → s.pkg.val = 0 → exec (.barrierArrival i) s = .next (podArrive (ret r b.phase) a.n a.count (arriveRel r a)))))
  ∧ (∀ (s : State) (core : Nat) (m : SyncMsg), (s.core core).syncQ.find? (syncReady s core) = some m →
      exec (.syncWrite core) s = .next (s.modCore core fun k =>
        { k with syncQ := k.syncQ.erase m, syncHz := Nat.max k.syncHz (if m.rel then s.published core m.slot else 0) }.syncApply m.n m.op))

/-- COPY_RECORD_READ reads the record of the channel's oldest post, once, or takes TCOPY's, and goes on with a record whose DST was
still being translated; COPY_ROW performs one row that passes its checks and marks it; CHUNK_SIGNAL sets the chunk's bit in the map of
every receiving core that holds it; RECORD_COMPLETION of a record that has ended writes its STATUS, where it has one, increments the
semaphore, and the chain ends with the status that R290 and R292 give; INBOUND_WINDOW_WRITE lands the oldest write of the port, or
keeps it back at a core that is halted or is to halt. -/
def Claim.CopyEvents : Prop :=
  ∀ (s u v : State) (core ch i : Nat) (p : CpPost) (r : CpRec) (x : BitVec 512) (a b : List Piece) (bs : List (Byte × Bool)) (st : Byte),
    let c := s.chan core ch
    let eng : Eng := chanEng s core ch
    let row : Eng := { eng with id := cpRow c i, pc := r.at_.getD 0#64 }
    let pasid := eng.pasid
    (chanRuns s core ch = true → c.cur = none → c.queue.head? = some p →
      let from_ := if c.busy then c.next else p.head
      let at0 := s.modChan core ch fun c => { c with busy := true, next := from_ }
      (p.tcopy = some x → exec (.copyRecordRead core ch) s = .next (beginRec s core ch none x stOk))
      ∧ (p.tcopy = none →
          (engRead at0 (chanEng at0 core ch) (cpRecId c) from_ from_ 64 = .ok u bs →
            exec (.copyRecordRead core ch) s = .next (beginRec u core ch (some from_) (BitVec.ofNat 512 (leNat (bs.map (·.1)))) stOk))
          ∧ (engRead at0 (chanEng at0 core ch) (cpRecId c) from_ from_ 64 = .fail u st →
            exec (.copyRecordRead core ch) s = .next (endChain u core ch st))))
    ∧ (chanRuns s core ch = true → c.cur = some r → r.begun = false →
        exec (.copyRecordRead core ch) s = .next (beginRec s core ch r.at_ r.rec_ r.status))
    ∧ (c.cur = some r → chanRuns s core ch = true → r.begun = true → r.status = stOk → i < recRows r.rec_ → r.rows.contains i = false →
        engPending (s.core core) row row.id = false → twinOf s pasid core = none →
        let failed := fun (t : State) => t.modChan core ch fun c => { c with cur := c.cur.map fun (r : CpRec) => { r with status := st } }
        (rowParts s row r i = .fail u st → exec (.copyRow core ch i) s = .next (failed (dropKept u core fun k => k.path == row.path && k.id == row.id)))
        ∧ (rowParts s row r i = .ok u (a, b) →
            let whole := ER.fin ((readPieces u row a).bind fun s bs =>
              rowWrite s row ch (copyUnit (rowSrc r.rec_ i) (rowDst r.rec_ i)) none r b bs) row row.id
            (whole = .ok v () → exec (.copyRow core ch i) s = .next (v.modChan core ch fun c => { c with
              cur := c.cur.map fun (r : CpRec) => { r with rows := setAdd r.rows i } }))
            ∧ (whole = .wait v → exec (.copyRow core ch i) s = .next (keepWaits u v core))
            ∧ (whole = .fail v st → exec (.copyRow core ch i) s = .next (failed v))))
    ∧ (c.cur = some r → (s.core core).holds = false → recCmen r.rec_ = true → r.rows ≠ [] → i < recChunks r.rec_ → r.chunks.contains i = false →
        chunkDone r i = true → chanHeldBack s core ch = false →
        let tgts := r.sigs core
        let holds := fun (t : State) (g : Nat) => signalHeld t pasid g (·.cmMask.getLsbD (recCmap r.rec_))
        tgts.all (holds s) = true →
        exec (.chunkSignal core ch i) s = .next ((tgts.foldl (fun t g => if holds t g then t.modCore g fun k =>
            k.cmPut (recCmap r.rec_) (((k.cmaps[recCmap r.rec_]?).getD 0#512) ||| (1#512 <<< (recCmbit0 r.rec_ + i))) else t) s).modChan
          core ch fun c => { c with cur := c.cur.map fun r => { r with chunks := setAdd r.chunks i, drop := r.drop || false } }))
    ∧ (c.cur = some r → r.begun = true → c.tw.held ≠ [] → (r.status ≠ stOk ∨ r.rows.length = recRows r.rec_) →
        exec (.recordCompletion core ch) s = .next (closeChan s core ch 1))
    ∧ (c.cur = some r → (s.core core).holds = false → r.begun = true → chunkDue r = false → chanHeldBack s core ch = false →
        (r.at_ = none → r.status ≠ stOk → exec (.recordCompletion core ch) s = .next (endChain s core ch r.status))
        ∧ (r.status = stOk → recFull r = true → r.drop = false → r.far = false → recNext r.rec_ = 0#64 →
            let tgts := r.sigs core
            (recSemen r.rec_ = true → tgts.all (fun g => signalHeld s pasid g (·.semMask.getLsbD (recSem r.rec_))) = true) →
            let sem := fun (t : State) => if recSemen r.rec_ then tgts.foldl (fun t g => t.modCore g fun k =>
              k.semPut (recSem r.rec_) (satAdd ((k.sems[recSem r.rec_]?).getD 0#32) 1#32)) t else t
            let fin := fun (t : State) => endChain ((recEnd (sem t) core ch stOk).modChan core ch fun c =>
              { c with done := c.done + 1, next := 0#64 }) core ch stOk
            (r.at_ = none → exec (.recordCompletion core ch) s = .next (fin s))
            ∧ (∀ q, r.at_ = some q →
                let e : Eng := { eng with id := cpStId c, pc := q }
                engPending (s.core core) e e.id = false →
                engParts s e e.id q needW (pieceCheck · e needW ·) (lineParts (q + 44#64) 4) = .ok u a → twinOf u pasid core = none →
                ER.fin (writePieces u e 4 a ((leBytes 4 (recStatus r.rec_ stOk)).map fun b => (b, false))) e e.id = .ok v () →
                exec (.recordCompletion core ch) s = .next (fin v))))
    ∧ (∀ m rest, (s.core core).inW = m :: rest →
        let t := s.modCore core fun k => { k with inW := rest }
        ((t.core core).holds = true → exec (.inboundWindowWrite core) s = .next (t.modCore core fun k => { k with bpw := k.bpw ++ [m] }))
        ∧ ((t.core core).holds = false →
            let ok := fun (e : LaneAcc × Nat) => winHeld t core ((e.2 - winBase) % 0x1000000) e.1.size m.acc.pasid m.acc.scr
            exec (.inboundWindowWrite core) s = .next (endAway (landMsg t core m ok) m.core m.acc
              (maskOf fun l => (m.acc.lanes.zip m.pas).any fun e => e.1.lane == l && !ok e) 2#4)))

/-- MATRIX_ENTRY_START starts, of the workgroups' first entries, the one of highest class and oldest post; MATRIX_ENTRY_COMPLETE of an
entry with no cycle left writes its results, merges its flags on its completion flag, leaves the FIFO and makes its arrival;
GOVERNOR_RELEASE opens the window again and lets the array go on within its budget (R315, R322, R324). -/
def Claim.MatrixEvents : Prop :=
  ∀ (s : State) (core : Nat) (drain : Bool) (e : MxEntry) (g : Wg),
    ((s.core core).halted = false → (s.core core).haltReq = false →
      (s.core core).fifo.any (fun e => e.run && e.array != drain) = false →
      bestEntry ((firstEntries (s.core core).fifo []).filter fun e =>
        !e.run && e.array != drain && !(((s.core core).wg? e.wg).map (·.stopping)).getD false) = some e →
      exec (.matrixEntryStart core drain) s = .next (s.modCore core fun k =>
        { k with fifo := updFirst (·.id == e.id) (fun e => { e with run := true }) k.fifo }.govRun))
    ∧ ((s.core core).fifo.find? (fun e => e.run && e.array != drain) = some e → (s.core core).wg? e.wg = some g → e.left = 0 →
        let r := runEntry s.tick g e (s.core core)
        let k := { r.1 with fifo := r.1.fifo.filter (·.id != e.id) }
        let k := if r.2.2 then k.modWg g.id fun g => { g with lastErr := 1#8 } else k
        let t := s.setCore core (freeWaiting (k.modWarp e.slot (·.engineDone e.op r.2.1)) g.id)
        (e.bar = none → exec (.matrixEntryComplete core drain) s = .next t)
        ∧ (∀ q n, e.bar = some (q, n) → exec (.matrixEntryComplete core drain) s = .next { t with
            arrivals := t.arrivals ++ [⟨core, if q then .quad else .core, core, n, 1, some e.wg, none, false, none, false, g.pasid, r.2.1⟩] }))
    ∧ (core < 384 → ∃ t, exec (.governorRelease core) s = .next t
        ∧ ((s.core core).govBlocked = false → (t.core core).govUsed = 0#9)
        ∧ ((s.core core).govBlocked = true →
            (t.core core).nibLeft = (s.core core).nibLeft - min (s.core core).nibLeft (s.core core).govB.toNat)
        ∧ (t.core core).govUsed.toNat ≤ (s.core core).govB.toNat ∧ (t.core core).nibLeft ≤ (s.core core).nibLeft)

/-- The events of the engines. -/
def Obligations.EngineEvents : Prop := Claim.SyncEvents ∧ Claim.CopyEvents ∧ Claim.MatrixEvents

/-- BINDING a nib (17 R334, R347): NIB_BIND_REQUEST starts a bind of a free nib, on a core that is not fused off; NBIND_COMPLETE goes
through its steps, each done once: a descriptor that cannot be read or is bad ends the bind, and so do windows in no page, misplaced
or overlapping, with no room in the tables, or no free run of granules, and what the device of a pod page turns away, a free value (log 1); the allotted windows and granules then stand, the rows are
read one by one, and the bind is done. -/
def Claim.NibBinding : Prop :=
  ∀ (s u v w : State) (core ni g : Nat) (nib : Fin 4) (pasid : BitVec 20) (va : Dword) (cls : Fin 4) (a q : Xlat)
    (bs : List (Byte × Bool)) (st : Byte),
    let n := (s.core core).nib ni
    let e : Eng := ⟨core, .nib ni, n.pasid, n.scribe, 0, n.descAt, none⟩
    let e1 : Eng := { e with id := nbId n 1 }
    let wins := [(a.to (nibSva n).toNat, strokeBytes n), (q.to (nibTva n).toNat, traceBytes n)]
    let mine := (if a.home.isNone then wins.take 1 else []) ++ (if q.home.isNone then wins.drop 1 else [])
    let good := (nibSva n).toNat % 64 = 0 ∧ (nibTva n).toNat % 64 = 0 ∧ winOk a (nibSva n) (strokeBytes n) = true
      ∧ winOk q (nibTva n) (traceBytes n) = true ∧ apart wins = true ∧ wins.any (fun x => (allWindows u).any (meets x)) = false
    let full := mine.any fun x => decide (2048 < tableUsed u (homeDie x.1) + (mine.filter fun y => homeDie y.1 == homeDie x.1).length)
    (s.fuses.off.contains core = false → ((s.core core).nib nib.val).st = .unbound → ((s.core core).nib nib.val).wg = none →
        va.toNat % 64 = 0 → canonical va = true →
        exec (.nibBindRequest core nib pasid va cls) s = .next (s.modCore core (·.modNib nib.val fun x => { Nib.fresh x.wg with
          gen := x.gen + 1, st := .loading, descAt := va, pasid := pasid, cls := cls, scribe := true
          writers := [(coreSource s core, coreSource s core)], readers := [(coreSource s core, coreSource s core)], sem := none })))
    ∧ (n.st = .loading → n.read = false →
        (nibRead s e (nbId n 0) n.descAt n.descAt 64 = .fail u st →
          exec (.nbindComplete core ni) s = .next (bindFail u core ni 5#8 (bindStatus st)))
        ∧ (nibRead s e (nbId n 0) n.descAt n.descAt 64 = .ok u bs →
          let d := { n with desc := BitVec.ofNat 512 (leNat (bs.map (·.1))), read := true }
          (badDesc d = true → exec (.nbindComplete core ni) s = .next (bindFail u core ni 1#8 0#4))
          ∧ (badDesc d = false → nbindRead s core ni = (u.modCore core (·.setNib ni d), true))))
    ∧ (n.read = true → nbindRead s core ni = (s, true))
    ∧ (n.win = none → (bindWindows s e1 n = .ok u none → nbindAllot s core ni = (bindFail u core ni 3#8 0#4, false))
        ∧ (bindWindows s e1 n = .ok u (some (a, q)) →
          (¬good → nbindAllot s core ni = (bindFail u core ni 3#8 0#4, false))
          ∧ (good → freeGrans (u.core core) n.grans = none →
              nbindAllot s core ni = (bindFail u core ni ((podRefusal u a q).getD 2#8) 0#4, false))
          ∧ (good → freeGrans (u.core core) n.grans = some g → full = true →
              nbindAllot s core ni = (bindFail u core ni ((podRefusal u a q).getD 4#8) 0#4, false))
          ∧ (good → freeGrans (u.core core) n.grans = some g → full = false → nbindAllot s core ni = match podRefusal u a q with
            | some code => (bindFail u core ni code 0#4, false)
            | none => (u.modCore core (·.modNib ni fun n => { n with win := some (a, q), gran := g, granN := n.grans }), true))))
    ∧ (∀ (i : Nat) (t : List Nat), n.got.any (·.1 == i) = false →
        nibRead s e (nbId n (2 + i)) n.descAt (n.desc.extractLsb' 0 64 + BitVec.ofNat 64 (i * nibBits n.desc 192 32)) n.rowBytes = .ok u bs →
        nbindRows core ni (i :: t) s = nbindRows core ni t (u.modCore core (·.modNib ni fun n => { n with got := n.got ++ [(i, bs)] })))
    ∧ (n.st = .loading → nbindRead s core ni = (u, true) → nbindAllot u core ni = (v, true) →
        nbindRows core ni (List.range ((v.core core).nib ni).rows) v = (w, true) → ((w.core core).nib ni).win = some (a, q) →
        let d := (w.core core).nib ni
        exec (.nbindComplete core ni) s = .next (bindDone w core ni d
          ((List.range d.rows).map fun i => ((d.got.find? (·.1 == i)).map (·.2)).getD []) a q))
    ∧ (n.st ≠ .loading → exec (.nbindComplete core ni) s = .next s)

/-- The events of the nib engine (17 R335 to R349): stores and consumes at the head of the engine's queue, by NibSlots; a load of a
stroke slot, which fails with PERM; a load of a trace slot, answered from a DONE slot or kept waiting; the end of its wait; a fill that
takes too long; a pass over the oldest READY slots of one nib; and an application, whose slot becomes DONE with its result. -/
def Claim.NibEngine : Prop :=
  ∀ (s : State) (core ni sl c b z i : Nat) (m : InMsg) (rest : List InMsg),
    ((s.core core).nibIn = m :: rest →
        let t := popNib s core
        let off := ((m.pas.head?).getD 0) - b
        (nibWindow s ((m.pas.head?).getD 0) 1 = some (b, z, false, c, ni) → m.acc.kind = .store →
          exec (.strokeStore core) s = .next (
            let r := strokeStore (t.core c) ni (coreSource s m.core) (off / Nat.max 1 ((s.core c).nib ni).ssz) (msgBytes m b ((s.core c).nib ni).ssz)
            endStore (t.setCore c r.1) c m r.2))
        ∧ (nibWindow s ((m.pas.head?).getD 0) 1 = some (b, z, true, c, ni) → m.acc.kind = .store →
          exec (.consume core) s = .next (
            let r := traceStore (t.core c) ni (coreSource s m.core) off
            endStore (t.setCore c r.1) c m r.2))
        ∧ (nibWindow s ((m.pas.head?).getD 0) 1 = some (b, z, false, c, ni) → m.acc.kind ≠ .store →
          exec (.strokeLoad core) s = .next (endLoad t m.core m.acc [] m.acc.mask 2#4))
        ∧ (nibWindow s ((m.pas.head?).getD 0) 1 = some (b, z, true, c, ni) → m.acc.kind = .load →
            let n := (t.core c).nib ni
            let j := off / Nat.max 1 n.tsz
            inSet n.readers (coreSource t m.core) = true →
            ((n.slot j).st = .done → exec (.traceLoad core) s = .next (endLoad (nibAcquire t c m.core m.acc) m.core m.acc
                (loadWrites n (some (n.slot j)) m.acc m.pas) 0#32 0#4))
            ∧ ((n.slot j).st = .ready → nibBits n.desc 292 16 ≠ 0 → exec (.traceLoad core) s = .next (t.modCore c (·.modNib ni fun n =>
                { n with loads := n.loads ++ [⟨m.core, m.acc, m.pas, j⟩] })))))
    ∧ (∀ l, ((s.core core).nib ni).loads[i]? = some l → exec (.waitLimitExpiry core ni i) s = .next (
        let t := s.modCore core (·.modNib ni fun n => { n with
          loads := n.loads.eraseIdx i, nrcnt := n.nrcnt + 1, lastNr := BitVec.ofNat 8 l.slot })
        endWait t core ((s.core core).nib ni) none l))
    ∧ ((((s.core core).nib ni).slot sl).st = .filling → nibBits ((s.core core).nib ni).desc 276 16 ≠ 0 →
        exec (.fillLimitExpiry core ni sl) s = .next (serveLoads (s.modCore core (·.modNib ni fun n =>
          { n.setSlot sl { Slot.fresh with st := .failed, owner := (n.slot sl).owner } with failcnt := n.failcnt + 1 }))
          core ni (· == sl) true))
    ∧ ((s.core core).nibs.toList.any Nib.busy = false → arrayWanted (s.core core) = false → bestNib (s.core core) = some ni →
        let n := (s.core core).nib ni
        let mine := (readySlots n).take 64
        exec (.nibPass core) s = .next (s.modCore core fun k => { k.setNib ni (mine.foldl (fun (n : Nib) (e : Nat × Nat) =>
          n.setSlot e.2 { n.slot e.2 with st := .applying }) n) with nibLeft := mine.length * n.cycles }.govRun))
    ∧ ((s.core core).nibLeft = 0 → nextApplying (s.core core) = some (ni, sl) → (((s.core core).nib ni).slot sl).drop = false →
        ((s.core core).nib ni).unbind = false →
        let n := (s.core core).nib ni
        let r := nibApply s.tick (s.core core) n (n.slot sl)
        exec (.nibApplicationDone core) s = .next (serveLoads (s.modCore core (·.setNib ni
          { n.setSlot sl { n.slot sl with st := .done, res := r.1, rpois := r.2.1 } with appcnt := n.appcnt + 1, nflags := n.nflags ||| r.2.2 }))
          core ni (· == sl) true))

/-- The events of the nibs. -/
def Obligations.NibEvents : Prop := Claim.NibBinding ∧ Claim.NibEngine

/-! ### Tasks and task graphs (19 R359-R374, 20 R391, R392) -/

/-- SUBMIT takes a well-formed message of this die and reads its nodes: a good graph starts, a bad node fails it with GRAPHFAIL
before any node runs, and its STATUS is written; a malformed message is refused. -/
def Claim.Submit : Prop :=
  ∀ (s u : State) (die : Nat) (seq : Word) (e : BitVec 512), h2dMsg s 0x01 = some (seq, e) →
    let n := fld e 80 16
    let pasid : BitVec 20 := e.extractLsb' 52 20
    let table : Dword := e.extractLsb' 96 64
    let tag : Word := e.extractLsb' 160 32
    ((bodyOk e submitFields = false ∨ n = 0 ∨ table.toNat % 128 ≠ 0) → exec (.submit die) s = .next (h2dRefuse s seq))
    ∧ (bodyOk e submitFields = true → n ≠ 0 → table.toNat % 128 = 0 → fld e 48 2 = die → d2hRoom s 1 = true →
        (∀ nodes, readNodes s die pasid table n n 0 = .ok u (.ok nodes) →
          exec (.submit die) s = .next (endGraphs (startGraph (h2dTake u seq) die ⟨newGraphId u die, tag, pasid, table, nodes, none⟩) die))
        ∧ (∀ i st, readNodes s die pasid table n n 0 = .ok u (.error (i, st)) →
          exec (.submit die) s = .next (h2dTake (d2hRaise (cpuWrite u die pasid (table + BitVec.ofNat 64 (128 * i + 84)) [BitVec.ofNat 8 st]) 0x82 [(48, tag.toNat), (80, die), (88, st), (96, i)]) seq)))

/-- SUCCESSOR_DECREMENT applies the oldest decrement of a die: it is held for a READY or RUNNING node, fails a graph whose node has
no predecessor left, and otherwise lowers PRED, the last one making the node READY or retiring it SKIPPED. -/
def Claim.Decrement : Prop :=
  ∀ (s : State) (die id n : Nat) (run : Bool) (rest : List (Nat × Nat × Bool)) (x : Node), (s.die die).decs = (id, n, run) :: rest →
    let t := s.modDie die fun k => { k with decs := rest }
    t.node? die id n = some x →
    ((x.status = 1 ∨ x.status = 2 ∨ x.release = true) →
      exec (.successorDecrement die) s = .next (t.modNode die id n fun x => { x with held := x.held ++ [run] }))
    ∧ (x.status ≠ 1 → x.status ≠ 2 → x.release = false →
        (x.pred = 0 → exec (.successorDecrement die) s = .next (endGraphs (failNode t die id n 6) die))
        ∧ (∀ p, x.pred = p + 1 →
            let v := (setPred t die id n p).modNode die id n fun x => { x with runMk := x.runMk || run }
            (p ≠ 0 → exec (.successorDecrement die) s = .next v)
            ∧ (p = 0 → (x.runMk || run) = true → exec (.successorDecrement die) s = .next (endGraphs (makeReady v die id n) die))
            ∧ (p = 0 → (x.runMk || run) = false → exec (.successorDecrement die) s = .next (endGraphs (retireNode v die id n 4 false) die))))

/-- COND_NODE and WHILE_NODE evaluate a READY node of their kind in one step: it is RUNNING, then it retires DONE, and its successors'
marks follow the word at CONDW; a word that cannot be read fails the node, which retires FAULT. -/
def Claim.Conditions : Prop :=
  ∀ (s u : State) (graph node : Nat) (x : Node) (g : Graph),
    let d := graphDie graph
    s.node? d graph node = some x → x.status = 1 → (s.die d).graph? graph = some g → g.fail = none →
    (∀ w, cpuRead s d (tcbPasid x.tcb) (tcbCondw x.tcb) 8 = .ok u w →
      let t := endGraphs (retireNode (setStatus u d graph node 2) d graph node 3 (w != 0)) d
      (tcbKind x.tcb = 1 → exec (.condNode graph node) s = .next t) ∧ (tcbKind x.tcb = 2 → exec (.whileNode graph node) s = .next t))
    ∧ (∀ st, cpuRead s d (tcbPasid x.tcb) (tcbCondw x.tcb) 8 = .fail u st →
      let t := endGraphs (retireFailed (setStatus u d graph node 2) d graph node 7) d
      (tcbKind x.tcb = 1 → exec (.condNode graph node) s = .next t) ∧ (tcbKind x.tcb = 2 → exec (.whileNode graph node) s = .next t))

/-- TASK_RETIREMENT retires a RUNNING task whose last gang has retired: DONE, or with the failure that a workgroup has brought.
WORKGROUP_RETIREMENT, of a core that is not halted (R396), ends the warps of a workgroup whose task ends once they are still (R389),
closes what its slice still holds back (R422), returns the resources of a workgroup that is done, and with the gang's last workgroup
the gang leaves; one that stops is saved with its gang. What a retirement passes on is the model's record of happens-before (R368; log
17). -/
def Claim.Retirement : Prop :=
  (∀ (s : State) (graph node : Nat) (x : Node),
    let d := graphDie graph
    s.node? d graph node = some x → x.status = 2 → tcbKind x.tcb = 0 → x.placed = 0 →
    (∀ st, x.doom = some st →
      exec (.taskRetirement graph node) s = .next (endGraphs (retireFailed (dropWide s d graph node) d graph node st) d))
    ∧ (x.doom = none → tcbNgang x.tcb ≤ x.next → x.back = [] →
      exec (.taskRetirement graph node) s = .next (endGraphs (retireNode (dropWide s d graph node) d graph node 3 false) d)))
  ∧ (∀ (s : State) (core wg : Nat) (g : Wg), (s.core core).wg? wg = some g →
      let f := freeWg (releaseNibs s core g.nibMask) core wg
      let t := { f with taskHz := Nat.max f.taskHz (Nat.max (wgPublished s core wg) (s.core core).engHz) }
      ((s.core core).halted = true → exec (.workgroupRetirement core wg) s = .next s)
      ∧ ((s.core core).halted = false → g.ending = true → exec (.workgroupRetirement core wg) s = .next (endStill s core wg))
      ∧ ((s.core core).halted = false → g.ending = false → sliceDue s core g = true →
          exec (.workgroupRetirement core wg) s = .next (closeSlice s core wg))
      ∧ ((s.core core).halted = false → g.ending = false → sliceDue s core g = false →
          (wgDone s core g = true →
            (gangCores t g.die g.graph g.node g.gang = [] →
              exec (.workgroupRetirement core wg) s = .next (gangGone t g.die g.graph g.node g.gang false))
            ∧ (gangCores t g.die g.graph g.node g.gang ≠ [] → exec (.workgroupRetirement core wg) s = .next t))
          ∧ (wgDone s core g = false → g.stopping = true → exec (.workgroupRetirement core wg) s = .next (saveGang s g))))

/-- GANG_PLACEMENT places the next gang of a waiting node whole at a place where it fits, resumes one that was pre-empted, or for
class P begins to pre-empt; a waiting gang or grid of higher rank that fits now goes first (R369). GRID_PLACEMENT places every gang of an
ALLRES grid, or none, and for class P, where the grid fits nowhere, begins to pre-empt where the first gang without a place was to go.
PLACEMENT_WAIT_EXPIRY keeps quads for a node that waits. -/
def Claim.Placement : Prop :=
  (∀ (s u v : State) (graph node g : Nat) (p : Place) (w : Nat × Nat × Node) (x : Node),
    let d := graphDie graph
    (waiting (checkKd s d graph node) d).find? (fun y => y.1 == graph && y.2.1 == node) = some w →
    (∀ st, prepare (checkKd s d graph node) d graph node w.2.2 = .fail u st →
      exec (.gangPlacement graph node p) s = .next (endGraphs (failNode u d graph node st.toNat) d))
    ∧ (prepare (checkKd s d graph node) d graph node w.2.2 = .ok u x →
      (outranked u d x = true → exec (.gangPlacement graph node p) s = .next u)
      ∧ (outranked u d x = false →
          (x.nextGang = some (g, true) →
            (resumeGang u x d graph node g p = some v → exec (.gangPlacement graph node p) s = .next (placed v d graph node g true))
            ∧ (resumeGang u x d graph node g p = none → exec (.gangPlacement graph node p) s = .next (preemptFor u d w p)))
          ∧ (∀ k, x.nextGang = some (g, false) → x.kd = some k → tcbAllres x.tcb = false →
            (placeGang u x k d graph node g p (x.args.getD []) (x.next == 0) true = some v →
              exec (.gangPlacement graph node p) s = .next (placed v d graph node g false))
            ∧ (placeGang u x k d graph node g p (x.args.getD []) (x.next == 0) true = none →
              exec (.gangPlacement graph node p) s = .next (preemptFor u d w p))))))
  ∧ (∀ (s u v : State) (graph node : Nat) (ps : List Place) (w : Nat × Nat × Node) (x : Node) (k : BitVec 512),
    let d := graphDie graph
    (waiting (checkKd s d graph node) d).find? (fun y => y.1 == graph && y.2.1 == node) = some w →
    prepare (checkKd s d graph node) d graph node w.2.2 = .ok u x → x.kd = some k → tcbAllres x.tcb = true → x.next = 0 →
    ps.length = tcbNgang x.tcb → outranked u d x = false →
    let all := placeAll u (fun s i => (ps[i]?).bind fun p =>
      (placeGang s x k d graph node i p (x.args.getD []) (i == 0) true).map fun s => placed s d graph node i false)
      (List.range ps.length)
    (all = some v → exec (.gridPlacement graph node ps) s = .next v)
    ∧ (all = none →
        (fitsNow u d (graph, node, x) = true → exec (.gridPlacement graph node ps) s = .next u)
        ∧ (fitsNow u d (graph, node, x) = false → exec (.gridPlacement graph node ps) s = .next
          (match gridStop x k d graph node ((List.range ps.length).zip ps) u with
            | some p => preemptOn u x p
            | none => u))))
  ∧ (∀ (s : State) (graph node : Nat) (q : Fin 4 × Fin 24) (w : Nat × Nat × Node),
    let d := graphDie graph
    (waiting s d).find? (fun y => y.1 == graph && y.2.1 == node) = some w → w.2.2.waited = none →
    tcbAllres w.2.2.tcb = false → (tcbDies w.2.2.tcb).getLsbD q.1.val = true →
    exec (.placementWaitExpiry graph node [q]) s = .next (s.modNode d graph node fun x =>
      { x with waited := some [24 * q.1.val + q.2.val] }))

/-- PREEMPT stops the gangs that a message names, every gang of the node with ALL and else the one of its number; a message that
names none is refused. -/
def Claim.Preempt : Prop :=
  ∀ (s : State) (seq : Word) (e : BitVec 512), h2dMsg s 0x02 = some (seq, e) →
    bodyOk e [(48, 32), (80, 16), (96, 1), (128, 32)] = true → (fld e 96 1 = 0 ∨ fld e 128 32 = 0) →
    let tag : Word := e.extractLsb' 48 32
    let gangs := s.cores.toList.flatMap fun k => k.wgs.filter fun g =>
      (s.die g.die).graphs.any (fun x => x.id == g.graph && x.tag == tag) && g.die < 4
        && g.node == fld e 80 16 && (fld e 96 1 == 1 || g.gang == fld e 128 32)
    (gangs = [] → exec .preempt s = .next (h2dRefuse s seq))
    ∧ (gangs ≠ [] → exec .preempt s = .next (h2dTake (gangs.foldl (fun s g => stopGang s g.die g.graph g.node g.gang) s) seq))

/-- The events of task graphs have the effects of R364-R373 and R391. -/
def Obligations.GraphEvents : Prop :=
  Claim.Submit ∧ Claim.Decrement ∧ Claim.Conditions ∧ Claim.Retirement ∧ Claim.Placement ∧ Claim.Preempt

/-! ### Services, arenas, the allocator and the assist answers (19 R375-R382, 26 R459, R460) -/

/-- A request of `n` words that asks for a service of R377's table. -/
def Claim.asks (r : MailRec) (code least : Nat) : Prop :=
  r.word 0 = BitVec.ofNat 64 code ∧ least ≤ r.count

/-- The scribe warp takes the oldest record: ALLOC and FREE records go to the die's ring, those of the same workgroup with them, up
to eight, once none of their warps has an earlier write on its way; HOSTMSG's words become one D2H message, or two beyond six words, and its reply names the first; ABORT ends the task
ABORTED; a bad code is answered BADCODE. With each the scribe warp takes the PASID of the record's tag (which it keeps until the next
one: log 85, the model's choice). SVC_REPLY writes the reply into the warp's registers, the other words 0, and frees the
record; what the SVC releases and its reply acquires is the model's record of happens-before (R378; log 17). -/
def Claim.Mailbox : Prop :=
  ∀ (s : State) (core : Nat) (r : MailRec),
    (oldestRec s core = some r →
      ((∀ code least, (code, least) ∈ [(1, 3), (2, 2), (3, 2), (4, 1)] → ¬ Claim.asks r code least) →
        exec (.mailboxServe core) s = .next (answer (serveAs s core r) core r.idx [3#64]))
      ∧ ((Claim.asks r 1 3 ∨ Claim.asks r 2 2) → (s.die (dieOfCore core)).ring.length < 256 →
          let mine := (s.core core).mail.filter fun x => !x.taken && x.idx != r.idx && x.wg == r.wg
            && (recCode x == some 1 || recCode x == some 2)
          let l := r :: mine.take 7
          (l.all (recReady s core) = false → exec (.mailboxServe core) s = .next s)
          ∧ (l.all (recReady s core) = true → exec (.mailboxServe core) s = .next ((serveAs (l.foldl (fun s x =>
              modRec (recStamp s core x) core x.idx fun y => { y with taken := true }) s) core r).modDie (dieOfCore core) fun k => { k with ring := k.ring ++ [⟨core, l.map (·.idx)⟩] })))
      ∧ (Claim.asks r 3 2 →
          let n := r.count - 1
          let v := serveAs s core r
          let pasid := r.pasid.toNat
          let words := fun (i k : Nat) => (List.range k).map fun j => (96 + 64 * j, (r.word (i + j)).toNat)
          let reply : List Dword := [0#64, s.port.d2hNext.setWidth 64]
          (n ≤ 6 → d2hRoom s 1 = true → exec (.hostmsg core) s = .next
            (answer (d2hRaise v 0x83 ([(48, n), (56, pasid)] ++ words 1 n)) core r.idx reply))
          ∧ (6 < n → d2hRoom s 2 = true → exec (.hostmsg core) s = .next (answer (d2hRaise
              (d2hRaise v 0x83 ([(48, 6), (52, 1), (56, pasid)] ++ words 1 6)) 0x83
              ([(48, n - 6), (51, 1), (56, pasid)] ++ words 7 (n - 6))) core r.idx reply)))
      ∧ (∀ g, Claim.asks r 4 1 → (s.core core).wg? r.wg = some g →
          exec (.abort core) s = .next (endTask (serveAs s core r) g.die g.graph g.node 9))
      ∧ serveAs s core r = s.modWarp core 31 fun x => { x with pasid := r.pasid })
    ∧ (∀ w a n d ws, (s.core core).mail.find? (·.reply.isSome) = some r → recWarp s core r = some w →
        w.wait = .svc a n d → r.reply = some ws →
        exec (.svcReply core) s = .next
          ((s.modCore core fun k => { k with mail := k.mail.filter (·.idx != r.idx), hz := Nat.max k.hz s.writes }).modWarp core r.slot fun w =>
            (List.range n).foldl (fun w i => w.sput (a.val + i) ((ws[i]?).getD 0#64) false) { w with wait := .none }))
    ∧ ((s.core core).mail.find? (·.reply.isSome) = some r → recWarp s core r = none → exec (.svcReply core) s =
        .next (s.modCore core fun k => { k with mail := k.mail.filter (·.idx != r.idx), hz := Nat.max k.hz s.writes }))

/-- THE BUDDY ALLOCATOR: an ALLOC at the head of a die's ring takes the lowest block of the smallest sufficient size, and answers its
address, NOMEM where none is free, and BADARG for a size or type out of range; a FREE returns a live block of the PASID, and answers
BADARG for any other address; SYSTEM_CALL_RING serves the message at the head whole. -/
def Claim.Allocator : Prop :=
  (∀ (s : State) (die c : Nat) (r : MailRec), ringHead s die = some (c, r) →
    let pasid := r.pasid
    let size := (r.word 1).toNat
    (r.word 0 = 1#64 → (size = 0 ∨ 2 ^ 30 < size ∨ 1 < (r.word 2).toNat) →
      exec (.alloc die) s = .next (ringPop (answer s c r.idx [2#64]) die))
    ∧ (r.word 0 = 1#64 → 0 < size → size ≤ 2 ^ 30 → (r.word 2).toNat ≤ 1 → assisted s 2 = false →
        (∀ va l, buddyAlloc s.arenas pasid ((r.word 2).getLsbD 0) (blockLog size) = some (va, l) →
          exec (.alloc die) s = .next (ringPop (answer (s.setArenas l) c r.idx [0#64, BitVec.ofNat 64 va]) die))
        ∧ (buddyAlloc s.arenas pasid ((r.word 2).getLsbD 0) (blockLog size) = none →
          exec (.alloc die) s = .next (ringPop (answer s c r.idx [1#64]) die)))
    ∧ (r.word 0 = 2#64 → assisted s 2 = false →
        (∀ l, buddyFree s.arenas pasid size = some l →
          exec (.free die) s = .next (ringPop (answer (s.setArenas l) c r.idx [0#64]) die))
        ∧ (buddyFree s.arenas pasid size = none → exec (.free die) s = .next (ringPop (answer s c r.idx [2#64]) die))))
  ∧ (∀ (s : State) (die : Nat) (m : RingMsg) (t : List RingMsg), (s.die die).ring = m :: t →
      exec (.systemCallRing die) s = .next (serveMany (Nat.max 1 m.recs.length) s die))
  ∧ (∀ (ar l : List Arena) (pasid : BitVec 20) (unt : Bool) (size va : Nat), 0 < size → size ≤ 2 ^ 30 →
      buddyAlloc ar pasid unt (blockLog size) = some (va, l) →
      size ≤ 2 ^ blockLog size ∧ 256 ≤ 2 ^ blockLog size ∧ (2 ^ blockLog size < 2 * size ∨ blockLog size = 8)
      ∧ ∃ a ∈ ar, a.pasid = pasid ∧ a.unt = unt ∧ ∃ b ∈ a.free, a.base + b.1 = va ∧ blockLog size ≤ b.2
          ∧ (∀ a' ∈ ar, a'.pasid = pasid → a'.unt = unt → ∀ b' ∈ a'.free, blockLog size ≤ b'.2 →
              b.2 < b'.2 ∨ (b.2 = b'.2 ∧ va ≤ a'.base + b'.1)))

/-- ARENA_REGISTER gives a PASID an arena of 1 GiB, zeroed, one free block; a second one at the same base is refused. ARENA_REMOVE
takes one away. -/
def Claim.ArenaMessages : Prop :=
  ∀ (s : State) (seq : Word) (e : BitVec 512), h2dMsg s 0x03 = some (seq, e) →
    bodyOk e arenaFields = true → fld e 128 64 % 2 ^ 30 = 0 → canonical (e.extractLsb' 128 64) = true →
    let pasid : BitVec 20 := e.extractLsb' 52 20
    let base := fld e 128 64
    (e.getLsbD 48 = false →
      (s.arenas.any (fun a => a.pasid == pasid && a.base == base) = true → exec .arenaRegister s = .next (h2dRefuse s seq))
      ∧ (s.arenas.any (fun a => a.pasid == pasid && a.base == base) = false →
          let t := (List.range 16384).foldl (fun s i => zeroPage s pasid (base + 0x10000 * i)) s
          exec .arenaRegister s = .next (h2dTake (t.setArenas (t.arenas ++ [⟨pasid, base, e.getLsbD 49, [(0, 30)], []⟩])) seq)))
    ∧ (e.getLsbD 48 = true →
      let hit := fun (a : Arena) => a.pasid == pasid && a.base == base && a.unt == e.getLsbD 49
      (s.arenas.any hit = false → exec .arenaRemove s = .next (h2dRefuse s seq))
      ∧ (s.arenas.any hit = true → exec .arenaRemove s = .next (h2dTake (s.setArenas (s.arenas.filter fun a => !hit a)) seq)))

/-- An answer of the host's software acts on the pending request that it names, which then goes; one that answers none, or is of no type
of R459, is refused. Whether
the peer's host has named the view that VIEWANS names is the peers', a free value (log 1): the port comes up or the answer waits. -/
def Claim.AssistAnswers : Prop :=
  ∀ (s : State) (seq : Word) (e : BitVec 512), a2dNext s = some (seq, e) →
    ((fld e 32 16 < 0xA1 ∨ 0xA5 < fld e 32 16) → ∀ i ∈ [Instr.faultans, .readyans, .allocans, .containans, .viewans],
      exec i s = .next (a2dRefuse s seq))
    ∧ (fld e 32 16 = 0xA1 → bodyOk e [(48, 4), (80, 32)] = true → fld e 48 4 ≤ 6 →
      let hit := fun (r : AssistReq) => match r with
        | .fault d i => ((s.die d).rec? i).bind fun x => if (x.tid s d).toNat = fld e 80 32 ∧ x.phase = .assist then some (r, d, x) else none
        | _ => none
      (∀ r d x, s.assist.pend.findSome? hit = some (r, d, x) →
        exec .faultans s = .next (a2dTake (postNotice (dropPend s r) d x (BitVec.ofNat 4 (fld e 48 4))) seq))
      ∧ (s.assist.pend.findSome? hit = none → exec .faultans s = .next (a2dRefuse s seq)))
    ∧ (fld e 32 16 = 0xA2 → bodyOk e [(48, 32), (80, 2), (96, 16)] = true →
      let hit := fun (r : AssistReq) => match r with
        | .ready d id n => d == fld e 80 2 && n == fld e 96 16 && graphTag s d id == fld e 48 32
        | _ => false
      (∀ d id n, s.assist.pend.find? hit = some (.ready d id n) →
        exec .readyans s = .next (a2dTake (endGraphs (setReady (dropPend s (.ready d id n)) d id n) d) seq))
      ∧ (s.assist.pend.find? hit = none → exec .readyans s = .next (a2dRefuse s seq)))
    ∧ (fld e 32 16 = 0xA3 → bodyOk e [(48, 4), (80, 64), (144, 32)] = true → fld e 48 4 ≤ 3 →
      let hit := fun (r : AssistReq) => match r with
        | .alloc q _ _ => q.toNat == fld e 144 32
        | _ => false
      (∀ q c i, s.assist.pend.find? hit = some (.alloc q c i) →
        exec .allocans s = .next (a2dTake (answer (dropPend s (.alloc q c i)) c i (let st := BitVec.ofNat 64 (fld e 48 4)
            if ((s.core c).mail.any fun r => r.idx == i && r.word 0 == 1#64) = true then [st, e.extractLsb' 80 64] else [st])) seq))
      ∧ (s.assist.pend.find? hit = none → exec .allocans s = .next (a2dRefuse s seq)))
    ∧ (fld e 32 16 = 0xA5 → bodyOk e [(48, 12), (60, 1)] = true →
      let hit := fun (r : AssistReq) => match r with
        | .contain i _ _ _ => i % 4096 == fld e 48 12
        | _ => false
      (∀ i d id n, s.assist.pend.find? hit = some (.contain i d id n) →
        let t := dropPend s (.contain i d id n)
        let go := fun (k : Core) => if k.wgs.any (taskHas d id n) then
            { k with warps := k.warps.map fun (x : Option Warp) => x.map fun w => match k.wgOf w with
                       | some g => if taskHas d id n g && !g.stopping then { w with stopped := false } else w
                       | none => w }
          else k
        (e.getLsbD 60 = true → exec .containans s = .next (a2dTake (endTask t d id n 8) seq))
        ∧ (e.getLsbD 60 = false → exec .containans s = .next (a2dTake { t with cores := t.cores.map go } seq)))
      ∧ (s.assist.pend.find? hit = none → exec .containans s = .next (a2dRefuse s seq)))
    ∧ (fld e 32 16 = 0xA4 → bodyOk e [(48, 4), (52, 1), (64, 8), (72, 2)] = true → fld e 48 4 < 15 → fld e 72 2 ≠ 3 →
      let p := fld e 48 4
      let t := dropPend s (.view p)
      (viewPending s p = true →
        (e.getLsbD 52 = true → exec .viewans s = .next (a2dTake (portDown t p) seq))
        ∧ (e.getLsbD 52 = false →
            let v : Byte × BitVec 2 := (e.extractLsb' 64 8, e.extractLsb' 72 2)
            exec .viewans s = .next (if Config.coin s.tick = true then a2dTake (portUp t p v) seq
              else a2dTake (t.modPort p fun r => { r with hostV := some v }) seq)))
      ∧ (viewPending s p = false → exec .viewans s = .next (a2dRefuse s seq)))

/-- The services of the scribe warp, the service core and the arenas: MAILBOX_SERVE, HOSTMSG, ABORT, SVC_REPLY, ALLOC, FREE,
SYSTEM_CALL_RING, ARENA_REGISTER and ARENA_REMOVE; and the answers of the assist rings: FAULTANS, READYANS, ALLOCANS, CONTAINANS and
VIEWANS, the last of which waits for the peer's host (log 1). -/
def Obligations.ServiceEvents : Prop := Claim.Mailbox ∧ Claim.Allocator ∧ Claim.ArenaMessages ∧ Claim.AssistAnswers

/-! ### The host port (21 R403-R411, R420, R421, 26 R458-R460) -/

/-- A well-formed message is taken with its effect, and H2DRX becomes its number; a malformed one, or one whose effect cannot take place,
is refused. Another device than device 0 of the pod forwards PODBAR to it, and whether it is turned away there is a free value, as is
whether a node on another device holds a barrier that is to be freed (R374; logs 1, 107). That the MODE which places the assist rings
discards the A2D records not taken, and has the D2A records kept written again, is the model's choice (log 98). -/
def Claim.Messages : Prop :=
  ∀ (s : State) (seq : Word) (e : BitVec 512),
    let forwarded := fun (seq : Word) => if Config.coin s.tick then h2dRefuse s seq
      else h2dTake (originate s ⟨unitSource s 0 145, 0#4, 0#3⟩) seq
    (h2dMsg s 0x04 = some (seq, e) → bodyOk e [(48, 1), (49, 1), (50, 1), (51, 1)] = true →
      exec .rootcap s = .next (h2dTake { s with port := { s.port with
        hpcap := (s.port.hpcap &&& ~~~0x1E#64) ||| BitVec.ofNat 64 (2 * fld e 48 4) } } seq))
    ∧ (h2dMsg s 0x04 = some (seq, e) → bodyOk e [(48, 1), (49, 1), (50, 1), (51, 1)] = false → exec .rootcap s = .next (h2dRefuse s seq))
    ∧ (h2dMsg s 0x05 = some (seq, e) → bodyOk e twinFields = true →
      let pasid : BitVec 20 := e.extractLsb' 52 20
      (e.getLsbD 48 = false →
        (s.twins.any (·.pasid == pasid) = false → exec .twinConfigure s = .next (h2dTake { s with
          twins := s.twins ++ [⟨pasid, e.getLsbD 49, (e.extractLsb' 72 4).toFin, e.extractLsb' 80 96, []⟩] } seq))
        ∧ (s.twins.any (·.pasid == pasid) = true → exec .twinConfigure s = .next (h2dRefuse s seq)))
      ∧ (e.getLsbD 48 = true →
        (s.twins.any (·.pasid == pasid) = true → exec .twinDissolve s = .next (h2dTake { s with
          twins := s.twins.filter (·.pasid != pasid) } seq))
        ∧ (s.twins.any (·.pasid == pasid) = false → exec .twinDissolve s = .next (h2dRefuse s seq))))
    ∧ (h2dMsg s 0x06 = some (seq, e) → bodyOk e [(48, 3), (51, 1), (52, 4), (64, 64)] = true → modeOk e = true →
      let base : Dword := e.extractLsb' 64 64
      let want := fun (t : State) (h : Bool) => { t with modes := putMask t.modes (· == fld e 48 3) fun i =>
        { (t.modes[i]?).getD ⟨false, none⟩ with want := some h } }
      (e.getLsbD 51 = false → exec .mode s = .next (h2dTake (want s false) seq))
      ∧ (e.getLsbD 51 = true → anyAssisted s = false →
          exec .mode s = .next (h2dTake (want { s with assist := { s.assist with
            abase := base, asize := fld e 52 4, a2dBell := s.assist.a2dRx, d2aTx := s.assist.d2aAck } } true) seq))
      ∧ (e.getLsbD 51 = true → anyAssisted s = true → s.assist.abase = base → s.assist.asize = fld e 52 4 →
          exec .mode s = .next (h2dTake (want s true) seq))
      ∧ (e.getLsbD 51 = true → anyAssisted s = true → (s.assist.abase ≠ base ∨ s.assist.asize ≠ fld e 52 4) →
          exec .mode s = .next (h2dRefuse s seq)))
    ∧ (h2dMsg s 0x06 = some (seq, e) → (bodyOk e [(48, 3), (51, 1), (52, 4), (64, 64)] = false ∨ modeOk e = false) →
        exec .mode s = .next (h2dRefuse s seq))
    ∧ (h2dMsg s 0x07 = some (seq, e) → bodyOk e podFields = true →
      let b := fld e 49 6
      let pasid : BitVec 20 := e.extractLsb' 56 20
      (e.getLsbD 48 = false → fld e 80 16 ≠ 0 →
        (s.pkg.val = 0 → (s.podBars[b]?).bind (·.pasid) = none → exec .podbarAllot s = .next (h2dTake (podTell { s with
          podBars := s.podBars.setIfInBounds b ⟨{ Bar.fresh with expect := fld e 80 16 }, none, some pasid⟩ }) seq))
        ∧ (s.pkg.val = 0 → (s.podBars[b]?).bind (·.pasid) ≠ none → exec .podbarAllot s = .next (h2dRefuse s seq))
        ∧ (s.pkg.val ≠ 0 → exec .podbarAllot s = .next (forwarded seq)))
      ∧ (e.getLsbD 48 = true → fld e 80 16 = 0 →
        let held := s.dies.toList.any (fun (k : Die) => k.graphs.any fun g => g.nodes.any fun x =>
          (x.status == 1 || x.status == 2) && tcbPasid x.tcb == pasid && (tcbPod x.tcb).getLsbD b)
            || (s.rports.toList.any (·.st == .up) && Config.coin s.tick)
        (s.pkg.val = 0 → held = false → exec .podbarRelease s = .next (h2dTake (podTell { s with
          podBars := s.podBars.setIfInBounds b WideBar.fresh }) seq))
        ∧ (s.pkg.val = 0 → held = true → exec .podbarRelease s = .next (h2dRefuse s seq))
        ∧ (s.pkg.val ≠ 0 → exec .podbarRelease s = .next (forwarded seq))))
    ∧ (h2dNext s = some (seq, e) → (fld e 32 16 < 1 ∨ 7 < fld e 32 16) → exec .h2dEntryRecheck s = .next (h2dRefuse s seq))

/-- A function changes its mode at MODE_CHANGE once no request of it is pending. -/
def Claim.ModeChange : Prop :=
  ∀ (s : State) (f : Fin 5) (b : Bool), s.modes[f].want = some b →
    (funcPending s f.val = false → exec (.modeChange f) s = .next { s with modes := s.modes.set f ⟨b, none⟩ })
    ∧ (funcPending s f.val = true → exec (.modeChange f) s = .next s)

/-- The registers of BAR0: the doorbells, the acknowledgements, and the ring bases and sizes, each with the messages that it drops,
keeps, or has written again; a device in recovery exposes none of them (R453). REGISTER_WRITE at a register's offset is that register's write; one at a read-only or unlisted offset
changes nothing. A message that the host has acknowledged is not written again (R408). -/
def Claim.PortRegisters : Prop :=
  ∀ (s : State) (v : Word) (x : Dword),
    (s.boot ≠ .running → ∀ size, exec (.h2dBell v) s = .next s ∧ exec (.d2hAck v) s = .next s ∧ exec (.a2dBell v) s = .next s
      ∧ exec (.d2aAck v) s = .next s ∧ exec (.h2dRingConfig size x) s = .next s ∧ exec (.d2hRingConfig size x) s = .next s)
    ∧ (s.boot = .running → exec (.h2dBell v) s = .next { s with port := { s.port with h2dBell := v } }
    ∧ exec (.d2hAck v) s = .next { s with port := { s.port with d2hAck := v, kept := s.port.kept.filter (fun m => !seqLe m.1 v)
                                                                d2hTx := ackTx s.port.d2hTx s.port.d2hNext v } }
    ∧ exec (.a2dBell v) s = .next { s with assist := { s.assist with a2dBell := v } }
    ∧ exec (.d2aAck v) s = .next { s with assist := { s.assist with d2aAck := v, kept := s.assist.kept.filter (fun m => !seqLe m.1 v)
                                                                    d2aTx := ackTx s.assist.d2aTx s.assist.d2aNext v } }
    ∧ exec (.h2dRingConfig false x) s = .next { s with port := { s.port with
        h2dBase := x &&& ~~~0xFFF#64, h2dSet := true, h2dBell := s.port.h2dRx } }
    ∧ exec (.h2dRingConfig true x) s = .next { s with port := { s.port with h2dSize := x, h2dBell := s.port.h2dRx } }
    ∧ exec (.d2hRingConfig false x) s = .next { s with port := { s.port with
        d2hBase := x &&& ~~~0xFFF#64, d2hSet := true, d2hTx := s.port.d2hAck } }
    ∧ exec (.d2hRingConfig true x) s = .next { s with port := { s.port with d2hSize := x, d2hTx := s.port.d2hAck } })
    ∧ exec (.registerWrite 0x040#12 x) s = exec (.h2dRingConfig false x) s
    ∧ exec (.registerWrite 0x048#12 x) s = exec (.h2dRingConfig true x) s
    ∧ exec (.registerWrite 0x050#12 x) s = exec (.h2dBell (x.setWidth 32)) s
    ∧ exec (.registerWrite 0x060#12 x) s = exec (.d2hRingConfig false x) s
    ∧ exec (.registerWrite 0x068#12 x) s = exec (.d2hRingConfig true x) s
    ∧ exec (.registerWrite 0x078#12 x) s = exec (.d2hAck (x.setWidth 32)) s
    ∧ exec (.registerWrite 0x0A0#12 x) s = exec (.a2dBell (x.setWidth 32)) s
    ∧ exec (.registerWrite 0x0B8#12 x) s = exec (.d2aAck (x.setWidth 32)) s
    ∧ (∀ off : BitVec 12, off ∉ [0x040#12, 0x048#12, 0x050#12, 0x060#12, 0x068#12, 0x078#12, 0x0A0#12, 0x0B8#12] →
        exec (.registerWrite off x) s = .next s)

/-- D2H_WRITE writes the next message into its ring while it has room, at its number modulo the ring's length; ASSIST_REQUEST_WRITE
does the same for the assist ring, after raising the requests that found no place. -/
def Claim.RingWrites : Prop :=
  (∀ (s : State) (e : BitVec 512),
    let seq := s.port.d2hTx + 1
    let n := s.port.d2hSize.toNat
    s.port.d2hSet = true → 4 ≤ n → n ≤ 8 → linkUp s = true → (seq - s.port.d2hAck).toNat ≤ 2 ^ n →
    (s.port.kept.find? (·.1 == seq)).map (·.2) = some e →
    exec .d2hWrite s = .next { s with
      hostMem := wrBytes s.hostMem (s.port.d2hBase.toNat + 64 * (seq.toNat % 2 ^ n)) (leBytes 64 e.toNat)
      port := { s.port with d2hTx := seq, hpwSeq := s.port.hpwSeq + 1 } })
  ∧ (∀ (s : State) (e : BitVec 512),
    let t := raiseWaiting s
    let seq := t.assist.d2aTx + 1
    let n := t.assist.asize
    4 ≤ n → linkUp t = true → (seq - t.assist.d2aAck).toNat ≤ 2 ^ n → (t.assist.kept.find? (·.1 == seq)).map (·.2) = some e →
    exec .assistRequestWrite s = .next { t with
      hostMem := wrBytes t.hostMem (t.assist.abase.toNat + 64 * (seq.toNat % 2 ^ n)) (leBytes 64 e.toNat)
      port := { t.port with hpwSeq := t.port.hpwSeq + 1 }
      assist := { t.assist with d2aTx := seq } })

/-- HOST_LINK_LOSS clears LINKUP, drops the snoop filter and the host's translations, poisons every line that the host may have
modified and reports it, fails the tickets that wait for the host with LINKLOST, records the posted writes not acknowledged, and counts the PLDM event (R455);
HOST_LINK_RETURN sets LINKUP, WIDTH and SPEED and has the kept D2H messages written again. -/
def Claim.HostLink : Prop :=
  (∀ (s : State) (n : Nat), linkUp s = true →
    let held := s.dies.toList.flatMap fun (k : Die) => k.snoop
    let m := Nat.min n s.port.hpwSeq.toNat
    let last := s.port.hpwSeq
    let u : State := { s with
      port := { s.port with
        hpcap := s.port.hpcap &&& ~~~0x8000#64
        lossEv := s.port.lossEv + 1
        hpwLost := if m = 0 then 0#64 else ((last - BitVec.ofNat 32 (m - 1)).setWidth 64 <<< 32) ||| last.setWidth 64 }
      dies := s.dies.map fun (k : Die) => { k with snoop := [], bisnp := [], ats := [] } }
    let u := ((held.filter (·.2)).map (·.1)).foldl (fun u l => reportError (poisonLine u l) 1 0x206 (unitSource u 0 176) (l * 128) 0 none) u
    let u := (List.range 4).foldl (fun u d => ((u.die d).own.filter hostPhase).foldl (fun u r => postNotice u d r 5#4) u) u
    let u := { u with cores := u.cores.map fun k => { k with misses := k.misses.map fun m => if m.ats = .out then { m with ats := .lost } else m } }
    exec (.hostLinkLoss n) s = .next ((held.map (·.1)).foldl wakeLine u))
  ∧ (∀ (s : State) (w v : Fin 4), linkUp s = false → w ≠ 3 → v ≠ 3 → exec (.hostLinkReturn w v) s = .next { s with port := { s.port with
      hpcap := (s.port.hpcap &&& ~~~0xF00#64) ||| BitVec.ofNat 64 (2 ^ 15 + v.val * 2 ^ 10 + w.val * 2 ^ 8)
      d2hTx := s.port.d2hAck } })

/-- The messages, registers, rings and link of the host port: ROOTCAP, TWIN_CONFIGURE, TWIN_DISSOLVE, MODE, MODE_CHANGE,
PODBAR_ALLOT, PODBAR_RELEASE, H2D_ENTRY_RECHECK, H2DBELL, D2HACK, A2DBELL, D2AACK, H2D_RING_CONFIG, D2H_RING_CONFIG, REGISTER_WRITE,
D2H_WRITE, ASSIST_REQUEST_WRITE, HOST_LINK_LOSS and HOST_LINK_RETURN. -/
def Obligations.HostPortEvents : Prop :=
  Claim.Messages ∧ Claim.ModeChange ∧ Claim.PortRegisters ∧ Claim.RingWrites ∧ Claim.HostLink

/-! ### Rindihan links (21 R412-R419) -/

/-- FLIT_RECEIVE takes an intact flit that is next on its link, freeing what its LACK names; a data flit for this device is delivered,
one for another goes on its direct link with RELAY set; any other flit is dropped, and a NAK that names it is sent for one that is not
intact. NAK sends the flits from the one it names again, and the sixteenth of one flit retrains the port, which has then no view record
of its own. The bodies of control flits are the model's choice (log 108). -/
def Claim.Flits : Prop :=
  (∀ (s : State) (port : Fin 15) (f : BitVec 2048),
    let p := port.val
    let r := s.rport p
    (r.st ≠ .up → exec (.flitReceive port f) s = .next s)
    ∧ (r.st = .up → flitOk f = false → exec (.flitReceive port f) s = .next (sendCtl s p 3 ((r.rxLseq + 1).setWidth 1856)))
    ∧ (r.st = .up → flitOk f = true → f.extractLsb' 60 12 ≠ r.rxLseq + 1 → exec (.flitReceive port f) s = .next s)
    ∧ (r.st = .up → flitOk f = true → f.extractLsb' 60 12 = r.rxLseq + 1 →
        let u := s.modPort p fun r => { r with
          rxLseq := r.rxLseq + 1, retry := r.retry.filter fun e => 2048 ≤ ((f.extractLsb' 48 12 : BitVec 12) - e.1).toNat }
        (fld f 40 8 ≠ 0 → exec (.flitReceive port f) s = .next u)
        ∧ (fld f 40 8 = 0 → fld f 108 4 = s.pkg.val → exec (.flitReceive port f) s = .next (deliver u (p / 4) f))
        ∧ (∀ q, fld f 40 8 = 0 → fld f 108 4 ≠ s.pkg.val → directPort u (fld f 108 4) (fld f 112 16) = some q →
            exec (.flitReceive port f) s = .next (sendOn u q (flitPut f 104 1 1)))
        ∧ (fld f 40 8 = 0 → fld f 108 4 ≠ s.pkg.val → directPort u (fld f 108 4) (fld f 112 16) = none →
            exec (.flitReceive port f) s = .next u)))
  ∧ (∀ (s : State) (port : Fin 15) (l : BitVec 12),
    let p := port.val
    let r := s.rport p
    r.st = .up → r.retry.any (·.1 == l) = true →
    let n := if r.nakOf = l then r.nakN + 1 else 1
    let again := r.retry.map fun e => if (e.1 - l).toNat < 2048 then (e.1, flitSeal e.2 e.1 r.rxLseq) else e
    let u := reportError (s.modPort p fun r => { r with nakOf := l, nakN := n, retry := again }) 0 0x202 (unitSource s (p / 4) (160 + p % 4)) 0 0 none
    (n < 16 → exec (.nak port l) s = .next u) ∧ (16 ≤ n → exec (.nak port l) s = .next (portTrain u p none)))

/-- The end-to-end events: an acknowledgement frees the origin's flits up to its ESEQ, and no other; the timer acknowledges what has
been delivered; a resend sends every unacknowledged flit again in order. -/
def Claim.EndToEnd : Prop :=
  ∀ (s : State) (i : StreamId) (n : Word),
    (s.streams.any (fun x => x.id == i && x.send) = true →
      exec (.endToEndAck i n) s = .next (s.setStream { s.stream i true with
        unack := (s.stream i true).unack.filter fun f => !seqLe f.1 n }))
    ∧ (s.streams.any (fun x => x.id == i && !x.send) = true →
      exec (.endToEndAckTimer i) s = .next (sendAck s i))
    ∧ exec (.endToEndResend i) s = .next ((s.stream i true).unack.foldl (fun s f => sendRouted s f.2) s)

/-- RETRAINING: the port trains and sends its own record; the peer's intact record is kept and acknowledged, this end's ack naming the
peer's record first, and the matching ack brings the port up with the agreed view, or in host-assisted mode with the host's; a timeout, or
the loss of the link, takes it down. THE AGREED VIEW is the same at both ends. -/
def Claim.Retraining : Prop :=
  (∀ (s : State) (port : Fin 15) (lanes : Byte) (speed : Fin 3) (rec : BitVec 128),
    let p := port.val
    let r := s.rport p
    let v : Dword := rec.extractLsb' 0 64
    let own := viewRec s.podId s.pkg.val p speed.val lanes.toNat
    exec (.retrain port lanes speed) s = .next (sendCtl (portTrain s p (some own)) p 1 ((viewCrc own ++ own).setWidth 1856))
    ∧ ((r.st ≠ .training ∨ viewIntact s.podId r.own rec = false) → exec (.linkView port rec) s = .next s)
    ∧ (r.st = .training → viewIntact s.podId r.own rec = true → exec (.linkView port rec) s = .next
        (askView (sendCtl (s.modPort p fun r => { r with peerV := some v, peer := some (v.extractLsb' 28 4).toFin }) p 2
          ((viewCrc v ++ viewCrc r.own).setWidth 1856)) p))
    ∧ (∀ w, r.st = .training → r.peerV = some w → rec.extractLsb' 0 64 = viewCrc w → rec.extractLsb' 64 64 = viewCrc r.own →
        viewPending s p = false → assisted s 3 = false → exec (.viewAck port rec) s = .next (portUp s p (agreedView r.own w)))
    ∧ (r.st = .training → r.lock = true → viewPending s p = false → assisted s 3 = false →
        exec (.viewTimeout port) s = .next (portDown s p))
    ∧ (∀ w h, r.st = .training → r.peerV = some w → rec.extractLsb' 0 64 = viewCrc w → rec.extractLsb' 64 64 = viewCrc r.own →
        viewPending s p = false → assisted s 3 = true → r.hostV = some h → exec (.viewAck port rec) s = .next (portUp s p h))
    ∧ (r.st = .training → r.lock = true → viewPending s p = false → assisted s 3 = true → r.hostV = none →
        exec (.viewTimeout port) s = .next (askView s p))
    ∧ (r.st = .training → (viewPending s p = true ∨ r.hostV.isSome = true) →
        exec (.viewAnswerTimeout port) s = .next (portDown (dropPend s (.view p)) p))
    ∧ (r.st ≠ .down → exec (.podLinkDown port) s = .next (portDown s p)))
  ∧ (∀ a b : Dword, agreedView a b = agreedView b a)

/-- What becomes of lines and accesses when no path leads to a device: a dirty line is offered until it is taken or dropped with its
loss reported; a home's transaction that waits for a lost agent ends poisoned, in I; an access ends with LINKLOST. -/
def Claim.Unreachable : Prop :=
  (∀ (s : State) (die line : Nat), dirtyLine (s.die die) line = true → lineDev s line ≠ s.pkg.val →
    (unreachable s (lineDev s line) = true → exec (.dirtyLineOffer die line) s =
      .next (sliceSend (s.modDie die fun k => { k with offers := setAdd k.offers line }) die line (lineDev s line) 2#3))
    ∧ (unreachable s (lineDev s line) = false →
      exec (.dirtyLineOffer die line) s = .next ((evictLine s die line).modDie die fun k => { k with offers := setDel k.offers line })))
  ∧ (∀ (s : State) (die line : Nat), line ∈ (s.die die).offers → unreachable s (lineDev s line) = true →
      exec (.dirtyLineDrop die line) s = .next (reportError (s.modDie die fun k => { (k.evict line).dropUnt line with offers := setDel k.offers line })
        1 0x204 (sliceSource s die line) (Config.peerPhys line).toNat 0 none))
  ∧ (∀ (s : State) (line a : Nat),
      let h := homeDie (line * 128)
      let e := (s.die h).dir line
      e.st = .b → (e.fwd.isSome = true ∧ e.owner = some a ∨ e.fwd = none ∧ a ∈ e.sharers) → unreachable s (a / 4) = true →
      let t := (poisonLine s line).modDie h (·.setDir (.idle line))
      exec (.homeLinePoison line) s = .next (wakeLine (reportError t 1 0x205 (sliceSource t h line) (line * 128) 0 none) line))
  ∧ (∀ (s : State) (i : Nat) (r : Remote), s.remotes.find? (·.index == i) = some r → unreachable s r.dev.val = true →
      exec (.unreachableAccessTimeout i) s = .next (endRemote s r 5#4))

/-- The events of the pod links: FLIT_RECEIVE, NAK, END_TO_END_ACK, END_TO_END_ACK_TIMER, END_TO_END_RESEND, RETRAIN, LINK_VIEW,
VIEW_ACK, VIEW_TIMEOUT, VIEW_ANSWER_TIMEOUT, POD_LINK_DOWN, DIRTY_LINE_OFFER, DIRTY_LINE_DROP, HOME_LINE_POISON and
UNREACHABLE_ACCESS_TIMEOUT. -/
def Obligations.LinkEvents : Prop := Claim.Flits ∧ Claim.EndToEnd ∧ Claim.Retraining ∧ Claim.Unreachable

/-! ### Twinned partitions (21 R421-R424) -/

/-- DIGEST_RECEIVE compares the partner's digest with that of the agent's oldest closed batch: equal, the secondary's batch is done and
the primary performs its writes; unequal, the partition halts. PARTNER_LOST_TIMEOUT halts it too. OUTSIDE_READ_DATA ends a secondary's
access with the primary's data, lane by lane, and gives a secondary's engine the bytes of the part that it waits for. -/
def Obligations.TwinEvents : Prop :=
  (∀ (s u : State) (pasid : BitVec 20) (agent n : Nat) (d : Dword) (t : Twin) (b : Batch) (rest : List Defer),
    s.twins.find? (·.pasid == pasid) = some t → t.oldest (agent / 64) (agent % 64) = some b →
    (b.index ≠ n → exec (.digestReceive pasid agent n d) s = .next s)
    ∧ (b.index = n → b.digest ≠ d → exec (.digestReceive pasid agent n d) s = .next (haltTwin s t 0 (agent / 64) (agent % 64) n))
    ∧ (b.index = n → b.digest = d → t.second = true → exec (.digestReceive pasid agent n d) s = .next (batchDone s pasid b))
    ∧ (b.index = n → b.digest = d → t.second = false → releaseHeld (agent / 64) (agent % 64) b.writes s = (u, rest) →
        (rest = [] → exec (.digestReceive pasid agent n d) s = .next (batchDone u pasid b))
        ∧ (rest ≠ [] → exec (.digestReceive pasid agent n d) s = .next (modTwin u pasid fun t => { t with
            batches := t.batches.map fun x => if x = b then { x with writes := rest } else x }))))
  ∧ (∀ (s : State) (pasid : BitVec 20) (t : Twin) (b : Batch) (l : List Batch),
      s.twins.find? (·.pasid == pasid) = some t → t.batches = b :: l →
      exec (.partnerLostTimeout pasid) s = .next (haltTwin s t 1 b.core b.agent b.index))
  ∧ (∀ (s : State) (i w : Nat) (data : List Byte) (r : Remote), s.remotes.find? (fun r => r.index == i && secondaries s r) = some r →
      r.acc.path = .lsu w →
      (r.acc.kind.rd = true → data.length = (r.acc.lanes.map fun l => l.size * Nat.max 1 l.grp.length).sum →
        exec (.outsideReadData i data) s = .next (finishOut (dropRemote s r) r.core w r.acc (dataWrites r.acc.ty r.acc.lanes data) 0#32 0#4))
      ∧ (r.acc.kind.rd = false → r.acc.kind ≠ .row →
          exec (.outsideReadData i data) s = .next (finishOut (dropRemote s r) r.core w r.acc [] 0#32 0#4)))
  ∧ (∀ (s : State) (i : Nat) (data : List Byte) (r : Remote), s.remotes.find? (fun r => r.index == i && secondaries s r) = some r →
      r.acc.slot? = none → r.acc.kind = .row → data.length = (r.acc.lanes.map fun l => l.size * Nat.max 1 l.grp.length).sum →
      exec (.outsideReadData i data) s = .next ((dropRemote s r).modCore r.core fun k => { k with
        engGot := k.engGot ++ [⟨r.acc.path, (r.pas.head?).getD 0, data.map fun b => (b, false)⟩] }))

/-! ### The device (08 R199, 10 R85, 26 R449-R457, R461) -/

/-- RESET brings the device up from the image in its flash, or from the image in the 64-MiB load window of a device in recovery: an image
that passes the check of R452 runs, and raises the rollback counter to its SVN; any other leaves the device in recovery with no
warp. A pod port comes up where the peer's record is intact, and stays down otherwise (R417, R418, R451). The fuses other than the
rollback counter, the host's memory and the sensors stay; the rest is as reset leaves it. -/
def Claim.BringUp : Prop :=
  ∀ (s : State) (r : ResetIn), r.width ≠ 3 → r.speed ≠ 3 →
    let flash := match s.boot, r.image with
      | .recovery, some b => if b.length ≤ 0x4000000 then b else s.fuses.flash
      | _, _ => s.fuses.flash
    ∃ t, exec (.reset r) s = .next t
      ∧ t.fuses.flash = flash ∧ t.fuses.key = s.fuses.key ∧ t.fuses.rom = s.fuses.rom ∧ t.fuses.off = s.fuses.off
      ∧ t.hostMem = s.hostMem ∧ t.sens = s.sens ∧ t.sensB = s.sensB ∧ t.agenda = s.agenda ∧ t.tick = s.tick
      ∧ t.hbm = State.reset.hbm ∧ t.dies = State.reset.dies ∧ t.errs = State.reset.errs ∧ t.modes = State.reset.modes
      ∧ (firmwareOk s.fuses.key s.fuses.roll flash = true →
          t.boot = .running ∧ t.fuses.roll.toNat = Nat.max s.fuses.roll.toNat (imgSvn flash) ∧ t.port.hpcap = resetHpcap r r.cxl
          ∧ (∀ pod pkg clock, r.pod = some (pod, pkg, clock) → t.podId = pod ∧ t.pkg = pkg ∧ t.gtc = clock)
          ∧ (∀ c < 384, ∀ w, c ∈ s.fuses.off → t.warp? c w = none)
          ∧ (∀ c < 384, c ∉ s.fuses.off → t.core c = State.reset.core c)
          ∧ (∀ p < 15, (∀ x ∈ r.links, x.1.val ≠ p) → (t.rport p).st = .down)
          ∧ (∀ before after x, r.links = before ++ x :: after → (∀ y ∈ after, y.1 ≠ x.1) →
              (t.rport x.1.val).st = if viewIntact t.podId (viewRec t.podId t.pkg.val x.1.val x.2.2.1.val x.2.1.toNat) x.2.2.2 then .up else .down))
      ∧ (firmwareOk s.fuses.key s.fuses.roll flash = false →
          t.boot = .recovery ∧ t.fuses.roll = s.fuses.roll ∧ t.port.hpcap = resetHpcap r false
          ∧ ∀ c < 384, ∀ w, t.warp? c w = none)

/-- The governor's budget of a die's cores moves by 16, between 32 and the platform's maximum; a
thermal trip is a fatal error with code 0x301 and takes the power of every die away (R450); SENSOR_REFRESH keeps the new readings, and B
of every die. -/
def Claim.Power : Prop :=
  ∀ (s : State) (d : Fin 4),
    (∃ t, exec (.govbDecrease d) s = .next t ∧ ∀ c < 384,
      t.core c = if c / 96 = d.val then { s.core c with govB := BitVec.ofNat 9 (Nat.max 32 ((s.core c).govB.toNat - 16)) } else s.core c)
    ∧ (∃ t, exec (.govbIncrease d) s = .next t ∧ ∀ c < 384,
      t.core c = if c / 96 = d.val then
        { s.core c with govB := BitVec.ofNat 9 (Nat.min (s.core c).govPlat.toNat ((s.core c).govB.toNat + 16)) } else s.core c)
    ∧ exec (.thermalTrip d) s = .next { reportError s 2 0x301 (unitSource s 0 177) 0 d.val none with boot := .off }
    ∧ ∀ x, exec (.sensorRefresh x) s = .next { s with sens := x, sensB := Vector.ofFn fun i => (s.core (96 * i.val)).govB }

/-- SPDM: each request is answered, in its order of state, with a response of its code, or with ERROR: UnexpectedRequest before the
requests that must precede it, InvalidRequest for a slot or index that there is not, UnsupportedRequest for any other request. -/
def Claim.Attestation : Prop :=
  ∀ (s : State),
    let err := fun (t : State) (c : Byte) => t = { s with spdm := { s.spdm with out := [0x13#8, 0x7F#8, c, 0#8] } }
    let code := fun (t : State) (c : Byte) => t.spdm.out[0]? = some 0x13#8 ∧ t.spdm.out[1]? = some c
    (∃ t, exec .getVersion s = .next t ∧ t.spdm.version = true ∧ t.spdm.caps = false ∧ t.spdm.algs = false
      ∧ t.spdm.out = [0x10#8, 0x04#8, 0#8, 0#8, 0#8, 1#8, 0#8, 0x13#8])
    ∧ (∃ t, exec .getCapabilities s = .next t ∧ (s.spdm.version = false → err t 4#8)
        ∧ (s.spdm.version = true → t.spdm.caps = true ∧ code t 0x61#8))
    ∧ (∀ a h, ∃ t, exec (.negotiateAlgorithms a h) s = .next t ∧ (s.spdm.caps = false → err t 4#8)
        ∧ (s.spdm.caps = true → code t 0x63#8 ∧ t.spdm.algs = (a.getLsbD 5 && h.getLsbD 2)))
    ∧ (∃ t, exec .getDigests s = .next t ∧ (s.spdm.algs = false → err t 4#8)
        ∧ (s.spdm.algs = true → t.spdm.out = [0x13#8, 0x01#8, 0#8, 1#8] ++ sha512 certBytes))
    ∧ (∀ slot off len, ∃ t, exec (.getCertificate slot off len) s = .next t ∧ (s.spdm.algs = false → err t 4#8)
        ∧ (s.spdm.algs = true → slot ≠ 0 → err t 1#8)
        ∧ (s.spdm.algs = true → slot = 0 → if Config.certLen ≤ off.toNat then err t 1#8 else
            let p := (certBytes.drop off.toNat).take len.toNat
            t.spdm.out = [0x13#8, 0x02#8, 0#8, 0#8] ++ leBytes 2 p.length ++ leBytes 2 (Config.certLen - off.toNat - p.length) ++ p))
    ∧ (∀ slot n, ∃ t, exec (.challenge slot n) s = .next t ∧ (s.spdm.algs = false → err t 4#8)
        ∧ (s.spdm.algs = true → slot ≠ 0 → err t 1#8)
        ∧ (s.spdm.algs = true → slot = 0 → code t 0x03#8 ∧ (t.spdm.out.drop 4).take (sha512 certBytes).length = sha512 certBytes))
    ∧ (∀ i, ∃ t, exec (.getMeasurements i) s = .next t ∧ (s.spdm.algs = false → err t 4#8)
        ∧ (s.spdm.algs = true → 4 < i.toNat → i.toNat ≠ 255 → err t 1#8)
        ∧ (s.spdm.algs = true → i.toNat = 0 → code t 0x60#8 ∧ t.spdm.out[2]? = some 4#8)
        ∧ (s.spdm.algs = true → 1 ≤ i.toNat → i.toNat ≤ 4 → code t 0x60#8
            ∧ (t.spdm.out.drop 8).take (measureBlock s i.toNat).length = measureBlock s i.toNat)
        ∧ (s.spdm.algs = true → i.toNat = 255 → code t 0x60#8 ∧ t.spdm.out[4]? = some 4#8))
    ∧ (∀ c, ∃ t, exec (.spdmUnsupportedRequest c) s = .next t
        ∧ t.spdm.out = if c ∈ [0x81#8, 0x82#8, 0x83#8, 0x84#8, 0xE0#8, 0xE1#8, 0xE3#8] then s.spdm.out else [0x13#8, 0x7F#8, 7#8, c])

/-- Errors: a read of ERRSTAT clears CONT and nothing else; an uncorrectable soft error destroys its granule and is reported contained,
to the task whose data the granule held; a corrected one,
of an agent of this device, is logged only; the ring's and the directory's failures are fatal. -/
def Claim.ErrorEvents : Prop :=
  ∀ (s : State),
    exec .errstatRead s = .next { s with errs := { s.errs with cont := false } }
    ∧ (∀ g, granuleOk s g = true →
        let addr := match g with
          | .mem pa => pa / 64 * 64
          | .l1 _ l _ | .l2 _ l _ => physOf l
          | .ob _ _ | .acc _ _ | .vreg _ _ | .sreg _ _ _ | .spad _ _ => 0
        exec (.uncorrectableSoftError g) s = .next (reportError (destroy s g) 1 0x203 (granuleSource s g) addr 0
          ((granuleWg s g).map fun w => (w.die, w.graph, w.node))))
    ∧ (s.MemWf → ∀ pa, isHbm pa = true → pa / 64 ∈ (destroy s (.mem pa)).hbmPois
        ∧ ∀ a, a / 64 ≠ pa / 64 → (destroy s (.mem pa)).byteAt a = s.byteAt a)
    ∧ (∀ src pa, (sourceOk s src = true → exec (.singleBitEccRepair src pa) s = .next (logError s 0 0x201 src pa 0).1)
        ∧ (sourceOk s src = false → exec (.singleBitEccRepair src pa) s = .next s))
    ∧ exec .dieToDieRingFailure s = .next (reportError s 2 0x302 (unitSource s 0 192) 0 0 none)
    ∧ (∀ d, exec (.directoryUncorrectableError d) s = .next (reportError s 2 0x303 (unitSource s d.val 96) 0 0 none))

/-- Mapping requests: an entry is set, or a leaf removed, with the translations of its range invalidated, unless a leaf below it
anchors a bound window, or a page of it is held (R183) or has an access waiting under a translation of it (R197); a page of another type in another context is refused unless forced; ranges are declared, and taken
back, and an address space is shared with the host. What a request turned away leaves is the model's choice. ADDRESS_SPACE_DESTRUCTION fails the pending tickets of the space ABORTED, ends the workgroups,
resident and saved, that hold its nibs, and unbinds them; once that is done it takes its tables, ranges, translations and then its frames. -/
def Claim.MappingEvents : Prop :=
  (∀ (s : State) (pasid : BitVec 20) (va : Dword),
    (∀ (level : Fin 3) (entry : Dword) (force : Bool) (t : State),
      let size := 2 ^ levelShift level.val
      let base := va.toNat / size * size
      let old := rootLeaves s pasid base level.val
      let new := rootLeaves t pasid base level.val
      canonical va = true → pageBusy s pasid base size = false →
      (old.any (anchors s ·) = true → exec (.mappingRequest (.setLeaf pasid va level entry force)) s = .next s)
      ∧ (old.any (anchors s ·) = false → setEntry s pasid base level.val entry = some t →
        ((force = false ∧ new.any (mixedType t pasid ·) = true) →
          exec (.mappingRequest (.setLeaf pasid va level entry force)) s = .next s)
        ∧ ((force = true ∨ new.any (mixedType t pasid ·) = false) →
          exec (.mappingRequest (.setLeaf pasid va level entry force)) s = .next
            (invalidateVa (new.foldl (fun t x => if x.own t then takeFrames t x.pa x.size else t) t) pasid base size))))
    ∧ (∀ x, rootLeaf s pasid va.toNat = some x →
        let base := va.toNat / x.size * x.size
        ((anchors s x = true ∨ pageBusy s pasid base x.size = true) → exec (.mappingRequest (.unmap pasid va)) s = .next s)
        ∧ (anchors s x = false → pageBusy s pasid base x.size = false →
            let u := invalidateVa (pteWrite s x.addr 0#64) pasid base x.size
            exec (.mappingRequest (.unmap pasid va)) s = .next (if (rangeOf u pasid base).isSome then giveFrame u x else u)))
    ∧ (∀ bytes unt rd w x big src u root,
        let p := if big then 0x200000 else 0x10000
        bytes ≠ 0 → bytes % p = 0 → va.toNat % p = 0 → canonical va = true →
        ((s.die 0).ranges.any fun r => r.pasid == pasid && r.va < va.toNat + bytes && va.toNat < r.va + r.bytes) = false →
        rootOf s pasid = some (u, root) →
        let rng : Range := ⟨pasid, va.toNat, bytes, unt, rd, w, x, big, src⟩
        exec (.mappingRequest (.declare pasid va bytes unt rd w x big src)) s =
          .next { u with dies := u.dies.map fun (k : Die) => { k with ranges := k.ranges ++ [rng] } })
    ∧ (∀ h u root, rootOf s pasid = some (u, root) → exec (.mappingRequest (.share pasid h)) s = .next { u with
        dies := u.dies.map fun (k : Die) => { k with roots := k.roots.map fun (x : Root) => if x.pasid == pasid then { x with host := h } else x } })
    ∧ (let p := fun (r : Range) => r.pasid == pasid && r.va == va.toNat
       (s.die 0).ranges.any p = true → exec (.mappingRequest (.undeclare pasid va)) s =
          .next { s with dies := s.dies.map fun (k : Die) => { k with ranges := k.ranges.filter fun r => !p r } }))
  ∧ (∀ (s : State) (pasid : BitVec 20),
      let u := (List.range 4).foldl (fun s d => ((s.die d).own.filter fun r => r.pasid == pasid && r.phase != .noticed).foldl
        (fun s r => postNotice s d r 6#4) s) s
      let u := (List.range 384).foldl (fun s c => (List.range 4).foldl (fun s n =>
        let x := (s.core c).nib n
        let ended := match x.wg with
          | some g => { s.modCore c (·.stopWgs (·.id == g) fun g => { g with ending := true }) with
              images := s.images.map fun (i : Image) => if i.core = c ∧ i.wg.id = g then i.discard else i }
          | none => s
        if x.st = .unbound ∨ x.pasid ≠ pasid then s else nibUnbind ended c n) s) u
      let old := ((u.die 0).roots.filter (·.pasid == pasid)).flatMap fun r => leavesAt u 4 r.root
      let v := { u with dies := u.dies.map fun (k : Die) =>
        { k with roots := k.roots.filter (·.pasid != pasid), ranges := k.ranges.filter (·.pasid != pasid) } }
      (spaceHeld u pasid = true → exec (.addressSpaceDestruction pasid) s = .next u)
      ∧ (spaceHeld u pasid = false → exec (.addressSpaceDestruction pasid) s = .next (old.foldl giveFrame (dropXlats v (·.pasid == pasid)))))

/-- The events of the device and of its system software. -/
def Obligations.DeviceEvents : Prop :=
  Claim.BringUp ∧ Claim.Power ∧ Claim.Attestation ∧ Claim.ErrorEvents ∧ Claim.MappingEvents
end

