-- ==== Sys2Proof/Laws/Tab.lean ====
section
/-! SUPPORT. Laws of sparse storage: reading after writing, the canonical form, bytes over it, and sets of numbers. -/

namespace Sys2Proof.Machine

variable {α : Type}

theorem tabGet_filter_same (d : α) (t : List (Nat × α)) (k : Nat) : tabGet d (t.filter fun e => e.1 != k) k = d := by
  induction t with
  | nil => rfl
  | cons e t ih =>
    by_cases h : e.1 = k
    · simp [h, ih]
    · have h' : k ≠ e.1 := fun x => h x.symm
      simp [h, tabGet, h', ih]

theorem tabGet_filter_ne (d : α) (t : List (Nat × α)) {k i : Nat} (h : i ≠ k) :
    tabGet d (t.filter fun e => e.1 != k) i = tabGet d t i := by
  induction t with
  | nil => rfl
  | cons e t ih =>
    by_cases he : e.1 = k
    · have : i ≠ e.1 := fun x => h (x.trans he)
      simp [he, tabGet, ih, h]
    · simp [he, tabGet, ih]

theorem tabGet_tabPut_same (d : α) (t : List (Nat × α)) (k : Nat) (v : α) : tabGet d (tabPut t k v) k = v := by
  induction t with
  | nil => simp [tabPut, tabGet]
  | cons e t ih =>
    simp only [tabPut]
    split
    · simp [tabGet]
    · split
      · simp [tabGet]
      · rename_i h; simp [tabGet, h, ih]

theorem tabGet_tabPut_ne (d : α) (t : List (Nat × α)) {k i : Nat} (v : α) (h : i ≠ k) :
    tabGet d (tabPut t k v) i = tabGet d t i := by
  induction t with
  | nil => simp [tabPut, tabGet, h]
  | cons e t ih =>
    simp only [tabPut]
    split
    · simp [tabGet, h]
    · split
      · rename_i hk; simp [tabGet, ← hk, h]
      · simp [tabGet, ih]

variable [DecidableEq α]

/-- A read after a write to the same number gives the value written. -/
@[simp] theorem tabGet_tabSet_same (d : α) (t : List (Nat × α)) (k : Nat) (v : α) : tabGet d (tabSet d t k v) k = v := by
  by_cases h : v = d
  · simp [tabSet, h, tabGet_filter_same]
  · simp [tabSet, h, tabGet_tabPut_same]

/-- A write leaves every other number alone. -/
theorem tabGet_tabSet_ne (d : α) (t : List (Nat × α)) {k i : Nat} (v : α) (h : i ≠ k) :
    tabGet d (tabSet d t k v) i = tabGet d t i := by
  by_cases hv : v = d
  · simp [tabSet, hv, tabGet_filter_ne d t h]
  · simp [tabSet, hv, tabGet_tabPut_ne d t v h]

theorem tabGet_tabSet (d : α) (t : List (Nat × α)) (k i : Nat) (v : α) :
    tabGet d (tabSet d t k v) i = if i = k then v else tabGet d t i := by
  split
  · rename_i h; rw [h, tabGet_tabSet_same]
  · rename_i h; exact tabGet_tabSet_ne d t v h

/-! ### The canonical form -/

theorem tabWfFrom_mono (d : α) {lo lo' : Nat} {t : List (Nat × α)} (h : tabWfFrom d lo t = true) (hl : lo' ≤ lo) :
    tabWfFrom d lo' t = true := by
  cases t with
  | nil => rfl
  | cons e t =>
    simp only [tabWfFrom, Bool.and_eq_true, decide_eq_true_eq] at h ⊢
    exact ⟨⟨by omega, h.1.2⟩, h.2⟩

theorem tabWfFrom_filter (d : α) (p : Nat × α → Bool) : ∀ {t : List (Nat × α)} {lo : Nat}, tabWfFrom d lo t = true →
    tabWfFrom d lo (t.filter p) = true
  | [], _, h => h
  | e :: t, lo, h => by
    simp only [tabWfFrom, Bool.and_eq_true, decide_eq_true_eq] at h
    have ih := tabWfFrom_filter d p h.2
    by_cases hp : p e
    · simp [hp, tabWfFrom, h.1.1, h.1.2, ih]
    · simp only [List.filter_cons, hp, Bool.false_eq_true, if_false]
      exact tabWfFrom_mono d ih (by omega)

theorem tabWfFrom_tabPut (d : α) {k : Nat} {v : α} (hv : v ≠ d) : ∀ {t : List (Nat × α)} {lo : Nat}, lo ≤ k →
    tabWfFrom d lo t = true → tabWfFrom d lo (tabPut t k v) = true
  | [], lo, hl, _ => by simp [tabPut, tabWfFrom, hl, hv]
  | e :: t, lo, hl, h => by
    simp only [tabWfFrom, Bool.and_eq_true, decide_eq_true_eq] at h
    obtain ⟨⟨h1, h2⟩, h3⟩ := h
    simp only [tabPut]
    split
    · simp only [tabWfFrom, Bool.and_eq_true, decide_eq_true_eq]
      exact ⟨⟨hl, hv⟩, ⟨by omega, h2⟩, h3⟩
    · split
      · rename_i hk
        simp only [tabWfFrom, Bool.and_eq_true, decide_eq_true_eq]
        exact ⟨⟨hl, hv⟩, hk ▸ h3⟩
      · simp only [tabWfFrom, Bool.and_eq_true, decide_eq_true_eq]
        exact ⟨⟨h1, h2⟩, tabWfFrom_tabPut d hv (by omega) h3⟩

/-- A write keeps the canonical form. -/
theorem tabWf_tabSet (d : α) (t : List (Nat × α)) (k : Nat) (v : α) (h : tabWf d t = true) :
    tabWf d (tabSet d t k v) = true := by
  by_cases hv : v = d
  · simpa [tabSet, hv, tabWf] using tabWfFrom_filter d _ h
  · simpa [tabSet, hv, tabWf] using tabWfFrom_tabPut d hv (Nat.zero_le k) h

/-- Dropping a range keeps the canonical form. -/
theorem tabWf_tabDrop (d : α) (lo hi : Nat) (t : List (Nat × α)) (h : tabWf d t = true) : tabWf d (tabDrop lo hi t) = true :=
  tabWfFrom_filter d _ h

theorem tabGet_of_lt (d : α) : ∀ {t : List (Nat × α)} {lo k : Nat}, tabWfFrom d lo t = true → k < lo → tabGet d t k = d
  | [], _, _, _, _ => rfl
  | e :: t, lo, k, h, hk => by
    simp only [tabWfFrom, Bool.and_eq_true, decide_eq_true_eq] at h
    have : k ≠ e.1 := by omega
    simp only [tabGet, this, if_false]
    exact tabGet_of_lt d h.2 (by omega)

/-- Two canonical tables that read alike are the same list. -/
theorem tab_ext (d : α) : ∀ {t u : List (Nat × α)} {lo : Nat}, tabWfFrom d lo t = true → tabWfFrom d lo u = true →
    (∀ k, tabGet d t k = tabGet d u k) → t = u
  | [], [], _, _, _, _ => rfl
  | [], e :: u, lo, _, hu, h => by
    simp only [tabWfFrom, Bool.and_eq_true, decide_eq_true_eq] at hu
    exact absurd (by simpa [tabGet] using (h e.1).symm) hu.1.2
  | e :: t, [], lo, ht, _, h => by
    simp only [tabWfFrom, Bool.and_eq_true, decide_eq_true_eq] at ht
    exact absurd (by simpa [tabGet] using h e.1) ht.1.2
  | e :: t, f :: u, lo, ht, hu, h => by
    simp only [tabWfFrom, Bool.and_eq_true, decide_eq_true_eq] at ht hu
    have hk : e.1 = f.1 := by
      rcases Nat.lt_trichotomy e.1 f.1 with hl | hl | hl
      · have h1 := h e.1
        have : e.1 ≠ f.1 := by omega
        simp only [tabGet, if_true, this, if_false] at h1
        exact absurd (h1.trans (tabGet_of_lt d hu.2 (by omega))) ht.1.2
      · exact hl
      · have h1 := h f.1
        have : f.1 ≠ e.1 := by omega
        simp only [tabGet, if_true, this, if_false] at h1
        exact absurd (h1.symm.trans (tabGet_of_lt d ht.2 (by omega))) hu.1.2
    have hv : e.2 = f.2 := by simpa [tabGet, hk] using h e.1
    have he : e = f := Prod.ext hk hv
    subst he
    refine congrArg (e :: ·) (tab_ext d ht.2 hu.2 fun k => ?_)
    by_cases hke : k = e.1
    · subst hke
      rw [tabGet_of_lt d ht.2 (by omega), tabGet_of_lt d hu.2 (by omega)]
    · have := h k
      simpa only [tabGet, hke, if_false] using this

/-! ### Bytes -/

theorem wrBytes_get (bs : List Byte) : ∀ (t : List (Nat × Byte)) (a i : Nat),
    tabGet 0#8 (wrBytes t a bs) i = if a ≤ i ∧ i < a + bs.length then (bs[i - a]?).getD 0#8 else tabGet 0#8 t i := by
  induction bs with
  | nil => intro t a i; exact (if_neg (by simp only [List.length_nil]; omega)).symm
  | cons b bs ih =>
    intro t a i
    rw [wrBytes, ih, tabGet_tabSet]
    by_cases h1 : a + 1 ≤ i ∧ i < a + 1 + bs.length
    · have h2 : a ≤ i ∧ i < a + (b :: bs).length := by simp only [List.length_cons]; omega
      obtain ⟨n, rfl⟩ : ∃ n, i = a + 1 + n := ⟨i - (a + 1), by omega⟩
      rw [if_pos h1, if_pos h2]
      have e1 : a + 1 + n - (a + 1) = n := by omega
      have e2 : a + 1 + n - a = n + 1 := by omega
      rw [e1, e2]; rfl
    · rw [if_neg h1]
      by_cases h3 : i = a
      · have h2 : a ≤ i ∧ i < a + (b :: bs).length := by simp only [List.length_cons]; omega
        rw [if_pos h3, if_pos h2, h3, Nat.sub_self]; rfl
      · have h2 : ¬(a ≤ i ∧ i < a + (b :: bs).length) := by simp only [List.length_cons]; omega
        rw [if_neg h3, if_neg h2]

/-- A byte outside the bytes written reads as before. -/
theorem wrBytes_get_out (t : List (Nat × Byte)) (a : Nat) (bs : List Byte) {i : Nat} (h : i < a ∨ a + bs.length ≤ i) :
    tabGet 0#8 (wrBytes t a bs) i = tabGet 0#8 t i := by
  rw [wrBytes_get, if_neg (by omega)]

/-- The bytes written read back. -/
theorem rdBytes_wrBytes (t : List (Nat × Byte)) (a : Nat) (bs : List Byte) : rdBytes (wrBytes t a bs) a bs.length = bs := by
  apply List.ext_getElem
  · simp [rdBytes]
  · intro n h1 h2
    simp only [rdBytes, List.getElem_map, List.getElem_range, wrBytes_get]
    rw [if_pos (by omega)]
    have : a + n - a = n := by omega
    rw [this, List.getElem?_eq_getElem h2, Option.getD_some]

theorem tabWf_wrBytes (bs : List Byte) : ∀ (t : List (Nat × Byte)) (a : Nat), tabWf 0#8 t = true →
    tabWf 0#8 (wrBytes t a bs) = true := by
  induction bs with
  | nil => intro t a h; exact h
  | cons b bs ih => intro t a h; exact ih _ _ (tabWf_tabSet 0#8 t a b h)

theorem tabWf_wrMasked : ∀ (bs : List Byte) (ms : List Bool) (t : List (Nat × Byte)) (a : Nat), tabWf 0#8 t = true →
    tabWf 0#8 (wrMasked t a bs ms) = true
  | [], _, _, _, h => by simpa [wrMasked] using h
  | b :: bs, [], _, _, h => by simpa [wrMasked] using h
  | b :: bs, m :: ms, t, a, h => by
    simp only [wrMasked]
    apply tabWf_wrMasked
    split
    · exact tabWf_tabSet 0#8 t a b h
    · exact h

/-! ### Sets of numbers -/

theorem setHas_setDel_same (s : List Nat) (k : Nat) : setHas (setDel s k) k = false := by simp [setHas, setDel]
theorem setHas_setDel_ne (s : List Nat) {k i : Nat} (h : i ≠ k) : setHas (setDel s k) i = setHas s i := by
  simp [setHas, setDel, h]
theorem mem_setAdd (s : List Nat) (k i : Nat) : i ∈ setAdd s k ↔ i = k ∨ i ∈ s := by
  induction s with
  | nil => simp [setAdd]
  | cons j t ih =>
    simp only [setAdd]
    split
    · simp
    · split
      · rename_i h; subst h; simp
      · simp only [List.mem_cons, ih]; exact or_left_comm
theorem setHas_setAdd (s : List Nat) (k i : Nat) : setHas (setAdd s k) i = (i == k || setHas s i) := by
  rw [Bool.eq_iff_iff]; simp [setHas, mem_setAdd]
theorem setHas_setPut (s : List Nat) (k i : Nat) (b : Bool) : setHas (setPut s k b) i = if i = k then b else setHas s i := by
  cases b
  · by_cases h : i = k
    · subst h; simp [setPut, setHas_setDel_same]
    · simp [setPut, setHas_setDel_ne s h, h]
  · by_cases h : i = k <;> simp [setPut, setHas_setAdd, h]

/-- The element that `updFirst` changes is the one that `find?` finds. -/
theorem find_updFirst {β : Type} (p : β → Bool) (f : β → β) (hf : ∀ x, p (f x) = p x) (l : List β) :
    (updFirst p f l).find? p = (l.find? p).map f := by
  induction l with
  | nil => rfl
  | cons x t ih =>
    simp only [updFirst]
    by_cases h : p x
    · simp [h, hf]
    · simp [h, ih]

end Sys2Proof.Machine
end

