-- ==== Sys2Proof/Laws/State.lean ====
section
/-! SUPPORT. What the updates of the state leave alone, one lemma for each field and update, and what they change. -/

namespace Sys2Proof.Machine

/-! ### Updates of the state -/

@[simp] theorem State.setCore_tick (s : State) (c : Nat) (k : Core) : (s.setCore c k).tick = s.tick := rfl
@[simp] theorem State.setCore_agenda (s : State) (c : Nat) (k : Core) : (s.setCore c k).agenda = s.agenda := rfl
@[simp] theorem State.setCore_cur (s : State) (c : Nat) (k : Core) : (s.setCore c k).cur = s.cur := rfl
@[simp] theorem State.setCore_gtc (s : State) (c : Nat) (k : Core) : (s.setCore c k).gtc = s.gtc := rfl
@[simp] theorem State.setCore_pkg (s : State) (c : Nat) (k : Core) : (s.setCore c k).pkg = s.pkg := rfl
@[simp] theorem State.setCore_podId (s : State) (c : Nat) (k : Core) : (s.setCore c k).podId = s.podId := rfl
@[simp] theorem State.setCore_boot (s : State) (c : Nat) (k : Core) : (s.setCore c k).boot = s.boot := rfl
@[simp] theorem State.setCore_fuses (s : State) (c : Nat) (k : Core) : (s.setCore c k).fuses = s.fuses := rfl
@[simp] theorem State.setCore_dies (s : State) (c : Nat) (k : Core) : (s.setCore c k).dies = s.dies := rfl
@[simp] theorem State.setCore_hbm (s : State) (c : Nat) (k : Core) : (s.setCore c k).hbm = s.hbm := rfl
@[simp] theorem State.setCore_hbmPois (s : State) (c : Nat) (k : Core) : (s.setCore c k).hbmPois = s.hbmPois := rfl
@[simp] theorem State.setCore_hostMem (s : State) (c : Nat) (k : Core) : (s.setCore c k).hostMem = s.hostMem := rfl
@[simp] theorem State.setCore_pbars (s : State) (c : Nat) (k : Core) : (s.setCore c k).pbars = s.pbars := rfl
@[simp] theorem State.setCore_podBars (s : State) (c : Nat) (k : Core) : (s.setCore c k).podBars = s.podBars := rfl
@[simp] theorem State.setCore_arrivals (s : State) (c : Nat) (k : Core) : (s.setCore c k).arrivals = s.arrivals := rfl
@[simp] theorem State.setCore_images (s : State) (c : Nat) (k : Core) : (s.setCore c k).images = s.images := rfl
@[simp] theorem State.setCore_port (s : State) (c : Nat) (k : Core) : (s.setCore c k).port = s.port := rfl
@[simp] theorem State.setCore_modes (s : State) (c : Nat) (k : Core) : (s.setCore c k).modes = s.modes := rfl
@[simp] theorem State.setCore_assist (s : State) (c : Nat) (k : Core) : (s.setCore c k).assist = s.assist := rfl
@[simp] theorem State.setCore_rports (s : State) (c : Nat) (k : Core) : (s.setCore c k).rports = s.rports := rfl
@[simp] theorem State.setCore_streams (s : State) (c : Nat) (k : Core) : (s.setCore c k).streams = s.streams := rfl
@[simp] theorem State.setCore_remotes (s : State) (c : Nat) (k : Core) : (s.setCore c k).remotes = s.remotes := rfl
@[simp] theorem State.setCore_remSeq (s : State) (c : Nat) (k : Core) : (s.setCore c k).remSeq = s.remSeq := rfl
@[simp] theorem State.setCore_peerQ (s : State) (c : Nat) (k : Core) : (s.setCore c k).peerQ = s.peerQ := rfl
@[simp] theorem State.setCore_twins (s : State) (c : Nat) (k : Core) : (s.setCore c k).twins = s.twins := rfl
@[simp] theorem State.setCore_spdm (s : State) (c : Nat) (k : Core) : (s.setCore c k).spdm = s.spdm := rfl
@[simp] theorem State.setCore_sens (s : State) (c : Nat) (k : Core) : (s.setCore c k).sens = s.sens := rfl
@[simp] theorem State.setCore_sensB (s : State) (c : Nat) (k : Core) : (s.setCore c k).sensB = s.sensB := rfl
@[simp] theorem State.setCore_errs (s : State) (c : Nat) (k : Core) : (s.setCore c k).errs = s.errs := rfl
@[simp] theorem State.setCore_writes (s : State) (c : Nat) (k : Core) : (s.setCore c k).writes = s.writes := rfl
@[simp] theorem State.setCore_marks (s : State) (c : Nat) (k : Core) : (s.setCore c k).marks = s.marks := rfl
@[simp] theorem State.setCore_taskHz (s : State) (c : Nat) (k : Core) : (s.setCore c k).taskHz = s.taskHz := rfl
@[simp] theorem State.modCore_tick (s : State) (c : Nat) (f : Core → Core) : (s.modCore c f).tick = s.tick := rfl
@[simp] theorem State.modCore_agenda (s : State) (c : Nat) (f : Core → Core) : (s.modCore c f).agenda = s.agenda := rfl
@[simp] theorem State.modCore_cur (s : State) (c : Nat) (f : Core → Core) : (s.modCore c f).cur = s.cur := rfl
@[simp] theorem State.modCore_gtc (s : State) (c : Nat) (f : Core → Core) : (s.modCore c f).gtc = s.gtc := rfl
@[simp] theorem State.modCore_pkg (s : State) (c : Nat) (f : Core → Core) : (s.modCore c f).pkg = s.pkg := rfl
@[simp] theorem State.modCore_podId (s : State) (c : Nat) (f : Core → Core) : (s.modCore c f).podId = s.podId := rfl
@[simp] theorem State.modCore_boot (s : State) (c : Nat) (f : Core → Core) : (s.modCore c f).boot = s.boot := rfl
@[simp] theorem State.modCore_fuses (s : State) (c : Nat) (f : Core → Core) : (s.modCore c f).fuses = s.fuses := rfl
@[simp] theorem State.modCore_dies (s : State) (c : Nat) (f : Core → Core) : (s.modCore c f).dies = s.dies := rfl
@[simp] theorem State.modCore_hbm (s : State) (c : Nat) (f : Core → Core) : (s.modCore c f).hbm = s.hbm := rfl
@[simp] theorem State.modCore_hbmPois (s : State) (c : Nat) (f : Core → Core) : (s.modCore c f).hbmPois = s.hbmPois := rfl
@[simp] theorem State.modCore_hostMem (s : State) (c : Nat) (f : Core → Core) : (s.modCore c f).hostMem = s.hostMem := rfl
@[simp] theorem State.modCore_pbars (s : State) (c : Nat) (f : Core → Core) : (s.modCore c f).pbars = s.pbars := rfl
@[simp] theorem State.modCore_podBars (s : State) (c : Nat) (f : Core → Core) : (s.modCore c f).podBars = s.podBars := rfl
@[simp] theorem State.modCore_arrivals (s : State) (c : Nat) (f : Core → Core) : (s.modCore c f).arrivals = s.arrivals := rfl
@[simp] theorem State.modCore_images (s : State) (c : Nat) (f : Core → Core) : (s.modCore c f).images = s.images := rfl
@[simp] theorem State.modCore_port (s : State) (c : Nat) (f : Core → Core) : (s.modCore c f).port = s.port := rfl
@[simp] theorem State.modCore_modes (s : State) (c : Nat) (f : Core → Core) : (s.modCore c f).modes = s.modes := rfl
@[simp] theorem State.modCore_assist (s : State) (c : Nat) (f : Core → Core) : (s.modCore c f).assist = s.assist := rfl
@[simp] theorem State.modCore_rports (s : State) (c : Nat) (f : Core → Core) : (s.modCore c f).rports = s.rports := rfl
@[simp] theorem State.modCore_streams (s : State) (c : Nat) (f : Core → Core) : (s.modCore c f).streams = s.streams := rfl
@[simp] theorem State.modCore_remotes (s : State) (c : Nat) (f : Core → Core) : (s.modCore c f).remotes = s.remotes := rfl
@[simp] theorem State.modCore_remSeq (s : State) (c : Nat) (f : Core → Core) : (s.modCore c f).remSeq = s.remSeq := rfl
@[simp] theorem State.modCore_peerQ (s : State) (c : Nat) (f : Core → Core) : (s.modCore c f).peerQ = s.peerQ := rfl
@[simp] theorem State.modCore_twins (s : State) (c : Nat) (f : Core → Core) : (s.modCore c f).twins = s.twins := rfl
@[simp] theorem State.modCore_spdm (s : State) (c : Nat) (f : Core → Core) : (s.modCore c f).spdm = s.spdm := rfl
@[simp] theorem State.modCore_sens (s : State) (c : Nat) (f : Core → Core) : (s.modCore c f).sens = s.sens := rfl
@[simp] theorem State.modCore_sensB (s : State) (c : Nat) (f : Core → Core) : (s.modCore c f).sensB = s.sensB := rfl
@[simp] theorem State.modCore_errs (s : State) (c : Nat) (f : Core → Core) : (s.modCore c f).errs = s.errs := rfl
@[simp] theorem State.modCore_writes (s : State) (c : Nat) (f : Core → Core) : (s.modCore c f).writes = s.writes := rfl
@[simp] theorem State.modCore_marks (s : State) (c : Nat) (f : Core → Core) : (s.modCore c f).marks = s.marks := rfl
@[simp] theorem State.modCore_taskHz (s : State) (c : Nat) (f : Core → Core) : (s.modCore c f).taskHz = s.taskHz := rfl
@[simp] theorem State.modWarp_tick (s : State) (c w : Nat) (f : Warp → Warp) : (s.modWarp c w f).tick = s.tick := rfl
@[simp] theorem State.modWarp_agenda (s : State) (c w : Nat) (f : Warp → Warp) : (s.modWarp c w f).agenda = s.agenda := rfl
@[simp] theorem State.modWarp_cur (s : State) (c w : Nat) (f : Warp → Warp) : (s.modWarp c w f).cur = s.cur := rfl
@[simp] theorem State.modWarp_gtc (s : State) (c w : Nat) (f : Warp → Warp) : (s.modWarp c w f).gtc = s.gtc := rfl
@[simp] theorem State.modWarp_pkg (s : State) (c w : Nat) (f : Warp → Warp) : (s.modWarp c w f).pkg = s.pkg := rfl
@[simp] theorem State.modWarp_podId (s : State) (c w : Nat) (f : Warp → Warp) : (s.modWarp c w f).podId = s.podId := rfl
@[simp] theorem State.modWarp_boot (s : State) (c w : Nat) (f : Warp → Warp) : (s.modWarp c w f).boot = s.boot := rfl
@[simp] theorem State.modWarp_fuses (s : State) (c w : Nat) (f : Warp → Warp) : (s.modWarp c w f).fuses = s.fuses := rfl
@[simp] theorem State.modWarp_dies (s : State) (c w : Nat) (f : Warp → Warp) : (s.modWarp c w f).dies = s.dies := rfl
@[simp] theorem State.modWarp_hbm (s : State) (c w : Nat) (f : Warp → Warp) : (s.modWarp c w f).hbm = s.hbm := rfl
@[simp] theorem State.modWarp_hbmPois (s : State) (c w : Nat) (f : Warp → Warp) : (s.modWarp c w f).hbmPois = s.hbmPois := rfl
@[simp] theorem State.modWarp_hostMem (s : State) (c w : Nat) (f : Warp → Warp) : (s.modWarp c w f).hostMem = s.hostMem := rfl
@[simp] theorem State.modWarp_pbars (s : State) (c w : Nat) (f : Warp → Warp) : (s.modWarp c w f).pbars = s.pbars := rfl
@[simp] theorem State.modWarp_podBars (s : State) (c w : Nat) (f : Warp → Warp) : (s.modWarp c w f).podBars = s.podBars := rfl
@[simp] theorem State.modWarp_arrivals (s : State) (c w : Nat) (f : Warp → Warp) : (s.modWarp c w f).arrivals = s.arrivals := rfl
@[simp] theorem State.modWarp_images (s : State) (c w : Nat) (f : Warp → Warp) : (s.modWarp c w f).images = s.images := rfl
@[simp] theorem State.modWarp_port (s : State) (c w : Nat) (f : Warp → Warp) : (s.modWarp c w f).port = s.port := rfl
@[simp] theorem State.modWarp_modes (s : State) (c w : Nat) (f : Warp → Warp) : (s.modWarp c w f).modes = s.modes := rfl
@[simp] theorem State.modWarp_assist (s : State) (c w : Nat) (f : Warp → Warp) : (s.modWarp c w f).assist = s.assist := rfl
@[simp] theorem State.modWarp_rports (s : State) (c w : Nat) (f : Warp → Warp) : (s.modWarp c w f).rports = s.rports := rfl
@[simp] theorem State.modWarp_streams (s : State) (c w : Nat) (f : Warp → Warp) : (s.modWarp c w f).streams = s.streams := rfl
@[simp] theorem State.modWarp_remotes (s : State) (c w : Nat) (f : Warp → Warp) : (s.modWarp c w f).remotes = s.remotes := rfl
@[simp] theorem State.modWarp_remSeq (s : State) (c w : Nat) (f : Warp → Warp) : (s.modWarp c w f).remSeq = s.remSeq := rfl
@[simp] theorem State.modWarp_peerQ (s : State) (c w : Nat) (f : Warp → Warp) : (s.modWarp c w f).peerQ = s.peerQ := rfl
@[simp] theorem State.modWarp_twins (s : State) (c w : Nat) (f : Warp → Warp) : (s.modWarp c w f).twins = s.twins := rfl
@[simp] theorem State.modWarp_spdm (s : State) (c w : Nat) (f : Warp → Warp) : (s.modWarp c w f).spdm = s.spdm := rfl
@[simp] theorem State.modWarp_sens (s : State) (c w : Nat) (f : Warp → Warp) : (s.modWarp c w f).sens = s.sens := rfl
@[simp] theorem State.modWarp_sensB (s : State) (c w : Nat) (f : Warp → Warp) : (s.modWarp c w f).sensB = s.sensB := rfl
@[simp] theorem State.modWarp_errs (s : State) (c w : Nat) (f : Warp → Warp) : (s.modWarp c w f).errs = s.errs := rfl
@[simp] theorem State.modWarp_writes (s : State) (c w : Nat) (f : Warp → Warp) : (s.modWarp c w f).writes = s.writes := rfl
@[simp] theorem State.modWarp_marks (s : State) (c w : Nat) (f : Warp → Warp) : (s.modWarp c w f).marks = s.marks := rfl
@[simp] theorem State.modWarp_taskHz (s : State) (c w : Nat) (f : Warp → Warp) : (s.modWarp c w f).taskHz = s.taskHz := rfl
@[simp] theorem State.setDie_tick (s : State) (d : Nat) (k : Die) : (s.setDie d k).tick = s.tick := rfl
@[simp] theorem State.setDie_agenda (s : State) (d : Nat) (k : Die) : (s.setDie d k).agenda = s.agenda := rfl
@[simp] theorem State.setDie_cur (s : State) (d : Nat) (k : Die) : (s.setDie d k).cur = s.cur := rfl
@[simp] theorem State.setDie_gtc (s : State) (d : Nat) (k : Die) : (s.setDie d k).gtc = s.gtc := rfl
@[simp] theorem State.setDie_pkg (s : State) (d : Nat) (k : Die) : (s.setDie d k).pkg = s.pkg := rfl
@[simp] theorem State.setDie_podId (s : State) (d : Nat) (k : Die) : (s.setDie d k).podId = s.podId := rfl
@[simp] theorem State.setDie_boot (s : State) (d : Nat) (k : Die) : (s.setDie d k).boot = s.boot := rfl
@[simp] theorem State.setDie_fuses (s : State) (d : Nat) (k : Die) : (s.setDie d k).fuses = s.fuses := rfl
@[simp] theorem State.setDie_cores (s : State) (d : Nat) (k : Die) : (s.setDie d k).cores = s.cores := rfl
@[simp] theorem State.setDie_hbm (s : State) (d : Nat) (k : Die) : (s.setDie d k).hbm = s.hbm := rfl
@[simp] theorem State.setDie_hbmPois (s : State) (d : Nat) (k : Die) : (s.setDie d k).hbmPois = s.hbmPois := rfl
@[simp] theorem State.setDie_hostMem (s : State) (d : Nat) (k : Die) : (s.setDie d k).hostMem = s.hostMem := rfl
@[simp] theorem State.setDie_pbars (s : State) (d : Nat) (k : Die) : (s.setDie d k).pbars = s.pbars := rfl
@[simp] theorem State.setDie_podBars (s : State) (d : Nat) (k : Die) : (s.setDie d k).podBars = s.podBars := rfl
@[simp] theorem State.setDie_arrivals (s : State) (d : Nat) (k : Die) : (s.setDie d k).arrivals = s.arrivals := rfl
@[simp] theorem State.setDie_images (s : State) (d : Nat) (k : Die) : (s.setDie d k).images = s.images := rfl
@[simp] theorem State.setDie_port (s : State) (d : Nat) (k : Die) : (s.setDie d k).port = s.port := rfl
@[simp] theorem State.setDie_modes (s : State) (d : Nat) (k : Die) : (s.setDie d k).modes = s.modes := rfl
@[simp] theorem State.setDie_assist (s : State) (d : Nat) (k : Die) : (s.setDie d k).assist = s.assist := rfl
@[simp] theorem State.setDie_rports (s : State) (d : Nat) (k : Die) : (s.setDie d k).rports = s.rports := rfl
@[simp] theorem State.setDie_streams (s : State) (d : Nat) (k : Die) : (s.setDie d k).streams = s.streams := rfl
@[simp] theorem State.setDie_remotes (s : State) (d : Nat) (k : Die) : (s.setDie d k).remotes = s.remotes := rfl
@[simp] theorem State.setDie_remSeq (s : State) (d : Nat) (k : Die) : (s.setDie d k).remSeq = s.remSeq := rfl
@[simp] theorem State.setDie_peerQ (s : State) (d : Nat) (k : Die) : (s.setDie d k).peerQ = s.peerQ := rfl
@[simp] theorem State.setDie_twins (s : State) (d : Nat) (k : Die) : (s.setDie d k).twins = s.twins := rfl
@[simp] theorem State.setDie_spdm (s : State) (d : Nat) (k : Die) : (s.setDie d k).spdm = s.spdm := rfl
@[simp] theorem State.setDie_sens (s : State) (d : Nat) (k : Die) : (s.setDie d k).sens = s.sens := rfl
@[simp] theorem State.setDie_sensB (s : State) (d : Nat) (k : Die) : (s.setDie d k).sensB = s.sensB := rfl
@[simp] theorem State.setDie_errs (s : State) (d : Nat) (k : Die) : (s.setDie d k).errs = s.errs := rfl
@[simp] theorem State.setDie_writes (s : State) (d : Nat) (k : Die) : (s.setDie d k).writes = s.writes := rfl
@[simp] theorem State.setDie_marks (s : State) (d : Nat) (k : Die) : (s.setDie d k).marks = s.marks := rfl
@[simp] theorem State.setDie_taskHz (s : State) (d : Nat) (k : Die) : (s.setDie d k).taskHz = s.taskHz := rfl
@[simp] theorem State.modDie_tick (s : State) (d : Nat) (f : Die → Die) : (s.modDie d f).tick = s.tick := rfl
@[simp] theorem State.modDie_agenda (s : State) (d : Nat) (f : Die → Die) : (s.modDie d f).agenda = s.agenda := rfl
@[simp] theorem State.modDie_cur (s : State) (d : Nat) (f : Die → Die) : (s.modDie d f).cur = s.cur := rfl
@[simp] theorem State.modDie_gtc (s : State) (d : Nat) (f : Die → Die) : (s.modDie d f).gtc = s.gtc := rfl
@[simp] theorem State.modDie_pkg (s : State) (d : Nat) (f : Die → Die) : (s.modDie d f).pkg = s.pkg := rfl
@[simp] theorem State.modDie_podId (s : State) (d : Nat) (f : Die → Die) : (s.modDie d f).podId = s.podId := rfl
@[simp] theorem State.modDie_boot (s : State) (d : Nat) (f : Die → Die) : (s.modDie d f).boot = s.boot := rfl
@[simp] theorem State.modDie_fuses (s : State) (d : Nat) (f : Die → Die) : (s.modDie d f).fuses = s.fuses := rfl
@[simp] theorem State.modDie_cores (s : State) (d : Nat) (f : Die → Die) : (s.modDie d f).cores = s.cores := rfl
@[simp] theorem State.modDie_hbm (s : State) (d : Nat) (f : Die → Die) : (s.modDie d f).hbm = s.hbm := rfl
@[simp] theorem State.modDie_hbmPois (s : State) (d : Nat) (f : Die → Die) : (s.modDie d f).hbmPois = s.hbmPois := rfl
@[simp] theorem State.modDie_hostMem (s : State) (d : Nat) (f : Die → Die) : (s.modDie d f).hostMem = s.hostMem := rfl
@[simp] theorem State.modDie_pbars (s : State) (d : Nat) (f : Die → Die) : (s.modDie d f).pbars = s.pbars := rfl
@[simp] theorem State.modDie_podBars (s : State) (d : Nat) (f : Die → Die) : (s.modDie d f).podBars = s.podBars := rfl
@[simp] theorem State.modDie_arrivals (s : State) (d : Nat) (f : Die → Die) : (s.modDie d f).arrivals = s.arrivals := rfl
@[simp] theorem State.modDie_images (s : State) (d : Nat) (f : Die → Die) : (s.modDie d f).images = s.images := rfl
@[simp] theorem State.modDie_port (s : State) (d : Nat) (f : Die → Die) : (s.modDie d f).port = s.port := rfl
@[simp] theorem State.modDie_modes (s : State) (d : Nat) (f : Die → Die) : (s.modDie d f).modes = s.modes := rfl
@[simp] theorem State.modDie_assist (s : State) (d : Nat) (f : Die → Die) : (s.modDie d f).assist = s.assist := rfl
@[simp] theorem State.modDie_rports (s : State) (d : Nat) (f : Die → Die) : (s.modDie d f).rports = s.rports := rfl
@[simp] theorem State.modDie_streams (s : State) (d : Nat) (f : Die → Die) : (s.modDie d f).streams = s.streams := rfl
@[simp] theorem State.modDie_remotes (s : State) (d : Nat) (f : Die → Die) : (s.modDie d f).remotes = s.remotes := rfl
@[simp] theorem State.modDie_remSeq (s : State) (d : Nat) (f : Die → Die) : (s.modDie d f).remSeq = s.remSeq := rfl
@[simp] theorem State.modDie_peerQ (s : State) (d : Nat) (f : Die → Die) : (s.modDie d f).peerQ = s.peerQ := rfl
@[simp] theorem State.modDie_twins (s : State) (d : Nat) (f : Die → Die) : (s.modDie d f).twins = s.twins := rfl
@[simp] theorem State.modDie_spdm (s : State) (d : Nat) (f : Die → Die) : (s.modDie d f).spdm = s.spdm := rfl
@[simp] theorem State.modDie_sens (s : State) (d : Nat) (f : Die → Die) : (s.modDie d f).sens = s.sens := rfl
@[simp] theorem State.modDie_sensB (s : State) (d : Nat) (f : Die → Die) : (s.modDie d f).sensB = s.sensB := rfl
@[simp] theorem State.modDie_errs (s : State) (d : Nat) (f : Die → Die) : (s.modDie d f).errs = s.errs := rfl
@[simp] theorem State.modDie_writes (s : State) (d : Nat) (f : Die → Die) : (s.modDie d f).writes = s.writes := rfl
@[simp] theorem State.modDie_marks (s : State) (d : Nat) (f : Die → Die) : (s.modDie d f).marks = s.marks := rfl
@[simp] theorem State.modDie_taskHz (s : State) (d : Nat) (f : Die → Die) : (s.modDie d f).taskHz = s.taskHz := rfl

/-! ### Updates of a core -/

@[simp] theorem Core.setWarp_rf (k : Core) (w : Nat) (x : Option Warp) : (k.setWarp w x).rf = k.rf := rfl
@[simp] theorem Core.setWarp_rfPois (k : Core) (w : Nat) (x : Option Warp) : (k.setWarp w x).rfPois = k.rfPois := rfl
@[simp] theorem Core.setWarp_spad (k : Core) (w : Nat) (x : Option Warp) : (k.setWarp w x).spad = k.spad := rfl
@[simp] theorem Core.setWarp_spadPois (k : Core) (w : Nat) (x : Option Warp) : (k.setWarp w x).spadPois = k.spadPois := rfl
@[simp] theorem Core.setWarp_ob (k : Core) (w : Nat) (x : Option Warp) : (k.setWarp w x).ob = k.ob := rfl
@[simp] theorem Core.setWarp_obPois (k : Core) (w : Nat) (x : Option Warp) : (k.setWarp w x).obPois = k.obPois := rfl
@[simp] theorem Core.setWarp_acc (k : Core) (w : Nat) (x : Option Warp) : (k.setWarp w x).acc = k.acc := rfl
@[simp] theorem Core.setWarp_accPois (k : Core) (w : Nat) (x : Option Warp) : (k.setWarp w x).accPois = k.accPois := rfl
@[simp] theorem Core.setWarp_nibStore (k : Core) (w : Nat) (x : Option Warp) : (k.setWarp w x).nibStore = k.nibStore := rfl
@[simp] theorem Core.setWarp_sems (k : Core) (w : Nat) (x : Option Warp) : (k.setWarp w x).sems = k.sems := rfl
@[simp] theorem Core.setWarp_semQ (k : Core) (w : Nat) (x : Option Warp) : (k.setWarp w x).semQ = k.semQ := rfl
@[simp] theorem Core.setWarp_syncQ (k : Core) (w : Nat) (x : Option Warp) : (k.setWarp w x).syncQ = k.syncQ := rfl
@[simp] theorem Core.setWarp_hz (k : Core) (w : Nat) (x : Option Warp) : (k.setWarp w x).hz = k.hz := rfl
@[simp] theorem Core.setWarp_syncHz (k : Core) (w : Nat) (x : Option Warp) : (k.setWarp w x).syncHz = k.syncHz := rfl
@[simp] theorem Core.setWarp_engHz (k : Core) (w : Nat) (x : Option Warp) : (k.setWarp w x).engHz = k.engHz := rfl
@[simp] theorem Core.setWarp_nibHz (k : Core) (w : Nat) (x : Option Warp) : (k.setWarp w x).nibHz = k.nibHz := rfl
@[simp] theorem Core.setWarp_cmaps (k : Core) (w : Nat) (x : Option Warp) : (k.setWarp w x).cmaps = k.cmaps := rfl
@[simp] theorem Core.setWarp_bars (k : Core) (w : Nat) (x : Option Warp) : (k.setWarp w x).bars = k.bars := rfl
@[simp] theorem Core.setWarp_mail (k : Core) (w : Nat) (x : Option Warp) : (k.setWarp w x).mail = k.mail := rfl
@[simp] theorem Core.setWarp_mailMem (k : Core) (w : Nat) (x : Option Warp) : (k.setWarp w x).mailMem = k.mailMem := rfl
@[simp] theorem Core.setWarp_tickets (k : Core) (w : Nat) (x : Option Warp) : (k.setWarp w x).tickets = k.tickets := rfl
@[simp] theorem Core.setWarp_misses (k : Core) (w : Nat) (x : Option Warp) : (k.setWarp w x).misses = k.misses := rfl
@[simp] theorem Core.setWarp_xkeep (k : Core) (w : Nat) (x : Option Warp) : (k.setWarp w x).xkeep = k.xkeep := rfl
@[simp] theorem Core.setWarp_tlb (k : Core) (w : Nat) (x : Option Warp) : (k.setWarp w x).tlb = k.tlb := rfl
@[simp] theorem Core.setWarp_l1 (k : Core) (w : Nat) (x : Option Warp) : (k.setWarp w x).l1 = k.l1 := rfl
@[simp] theorem Core.setWarp_pts (k : Core) (w : Nat) (x : Option Warp) : (k.setWarp w x).pts = k.pts := rfl
@[simp] theorem Core.setWarp_engPosted (k : Core) (w : Nat) (x : Option Warp) : (k.setWarp w x).engPosted = k.engPosted := rfl
@[simp] theorem Core.setWarp_engGot (k : Core) (w : Nat) (x : Option Warp) : (k.setWarp w x).engGot = k.engGot := rfl
@[simp] theorem Core.setWarp_chans (k : Core) (w : Nat) (x : Option Warp) : (k.setWarp w x).chans = k.chans := rfl
@[simp] theorem Core.setWarp_fifo (k : Core) (w : Nat) (x : Option Warp) : (k.setWarp w x).fifo = k.fifo := rfl
@[simp] theorem Core.setWarp_govB (k : Core) (w : Nat) (x : Option Warp) : (k.setWarp w x).govB = k.govB := rfl
@[simp] theorem Core.setWarp_govNow (k : Core) (w : Nat) (x : Option Warp) : (k.setWarp w x).govNow = k.govNow := rfl
@[simp] theorem Core.setWarp_govPlat (k : Core) (w : Nat) (x : Option Warp) : (k.setWarp w x).govPlat = k.govPlat := rfl
@[simp] theorem Core.setWarp_govUsed (k : Core) (w : Nat) (x : Option Warp) : (k.setWarp w x).govUsed = k.govUsed := rfl
@[simp] theorem Core.setWarp_govBlocked (k : Core) (w : Nat) (x : Option Warp) : (k.setWarp w x).govBlocked = k.govBlocked := rfl
@[simp] theorem Core.setWarp_nibs (k : Core) (w : Nat) (x : Option Warp) : (k.setWarp w x).nibs = k.nibs := rfl
@[simp] theorem Core.setWarp_nibLeft (k : Core) (w : Nat) (x : Option Warp) : (k.setWarp w x).nibLeft = k.nibLeft := rfl
@[simp] theorem Core.setWarp_nibIn (k : Core) (w : Nat) (x : Option Warp) : (k.setWarp w x).nibIn = k.nibIn := rfl
@[simp] theorem Core.setWarp_rbref (k : Core) (w : Nat) (x : Option Warp) : (k.setWarp w x).rbref = k.rbref := rfl
@[simp] theorem Core.setWarp_halted (k : Core) (w : Nat) (x : Option Warp) : (k.setWarp w x).halted = k.halted := rfl
@[simp] theorem Core.setWarp_haltReq (k : Core) (w : Nat) (x : Option Warp) : (k.setWarp w x).haltReq = k.haltReq := rfl
@[simp] theorem Core.setWarp_inW (k : Core) (w : Nat) (x : Option Warp) : (k.setWarp w x).inW = k.inW := rfl
@[simp] theorem Core.setWarp_bpw (k : Core) (w : Nat) (x : Option Warp) : (k.setWarp w x).bpw = k.bpw := rfl
@[simp] theorem Core.setWarp_bpEng (k : Core) (w : Nat) (x : Option Warp) : (k.setWarp w x).bpEng = k.bpEng := rfl
@[simp] theorem Core.setWarp_wgs (k : Core) (w : Nat) (x : Option Warp) : (k.setWarp w x).wgs = k.wgs := rfl
@[simp] theorem Core.setWarp_issues (k : Core) (w : Nat) (x : Option Warp) : (k.setWarp w x).issues = k.issues := rfl
@[simp] theorem Core.setWarp_pHist (k : Core) (w : Nat) (x : Option Warp) : (k.setWarp w x).pHist = k.pHist := rfl
@[simp] theorem Core.setWarp_seq (k : Core) (w : Nat) (x : Option Warp) : (k.setWarp w x).seq = k.seq := rfl
@[simp] theorem Core.setWarp_scribeSt (k : Core) (w : Nat) (x : Option Warp) : (k.setWarp w x).scribeSt = k.scribeSt := rfl
@[simp] theorem Core.modWarp_rf (k : Core) (w : Nat) (f : Warp → Warp) : (k.modWarp w f).rf = k.rf := rfl
@[simp] theorem Core.modWarp_rfPois (k : Core) (w : Nat) (f : Warp → Warp) : (k.modWarp w f).rfPois = k.rfPois := rfl
@[simp] theorem Core.modWarp_spad (k : Core) (w : Nat) (f : Warp → Warp) : (k.modWarp w f).spad = k.spad := rfl
@[simp] theorem Core.modWarp_spadPois (k : Core) (w : Nat) (f : Warp → Warp) : (k.modWarp w f).spadPois = k.spadPois := rfl
@[simp] theorem Core.modWarp_ob (k : Core) (w : Nat) (f : Warp → Warp) : (k.modWarp w f).ob = k.ob := rfl
@[simp] theorem Core.modWarp_obPois (k : Core) (w : Nat) (f : Warp → Warp) : (k.modWarp w f).obPois = k.obPois := rfl
@[simp] theorem Core.modWarp_acc (k : Core) (w : Nat) (f : Warp → Warp) : (k.modWarp w f).acc = k.acc := rfl
@[simp] theorem Core.modWarp_accPois (k : Core) (w : Nat) (f : Warp → Warp) : (k.modWarp w f).accPois = k.accPois := rfl
@[simp] theorem Core.modWarp_nibStore (k : Core) (w : Nat) (f : Warp → Warp) : (k.modWarp w f).nibStore = k.nibStore := rfl
@[simp] theorem Core.modWarp_sems (k : Core) (w : Nat) (f : Warp → Warp) : (k.modWarp w f).sems = k.sems := rfl
@[simp] theorem Core.modWarp_semQ (k : Core) (w : Nat) (f : Warp → Warp) : (k.modWarp w f).semQ = k.semQ := rfl
@[simp] theorem Core.modWarp_syncQ (k : Core) (w : Nat) (f : Warp → Warp) : (k.modWarp w f).syncQ = k.syncQ := rfl
@[simp] theorem Core.modWarp_hz (k : Core) (w : Nat) (f : Warp → Warp) : (k.modWarp w f).hz = k.hz := rfl
@[simp] theorem Core.modWarp_syncHz (k : Core) (w : Nat) (f : Warp → Warp) : (k.modWarp w f).syncHz = k.syncHz := rfl
@[simp] theorem Core.modWarp_engHz (k : Core) (w : Nat) (f : Warp → Warp) : (k.modWarp w f).engHz = k.engHz := rfl
@[simp] theorem Core.modWarp_nibHz (k : Core) (w : Nat) (f : Warp → Warp) : (k.modWarp w f).nibHz = k.nibHz := rfl
@[simp] theorem Core.modWarp_cmaps (k : Core) (w : Nat) (f : Warp → Warp) : (k.modWarp w f).cmaps = k.cmaps := rfl
@[simp] theorem Core.modWarp_bars (k : Core) (w : Nat) (f : Warp → Warp) : (k.modWarp w f).bars = k.bars := rfl
@[simp] theorem Core.modWarp_mail (k : Core) (w : Nat) (f : Warp → Warp) : (k.modWarp w f).mail = k.mail := rfl
@[simp] theorem Core.modWarp_mailMem (k : Core) (w : Nat) (f : Warp → Warp) : (k.modWarp w f).mailMem = k.mailMem := rfl
@[simp] theorem Core.modWarp_tickets (k : Core) (w : Nat) (f : Warp → Warp) : (k.modWarp w f).tickets = k.tickets := rfl
@[simp] theorem Core.modWarp_misses (k : Core) (w : Nat) (f : Warp → Warp) : (k.modWarp w f).misses = k.misses := rfl
@[simp] theorem Core.modWarp_xkeep (k : Core) (w : Nat) (f : Warp → Warp) : (k.modWarp w f).xkeep = k.xkeep := rfl
@[simp] theorem Core.modWarp_tlb (k : Core) (w : Nat) (f : Warp → Warp) : (k.modWarp w f).tlb = k.tlb := rfl
@[simp] theorem Core.modWarp_l1 (k : Core) (w : Nat) (f : Warp → Warp) : (k.modWarp w f).l1 = k.l1 := rfl
@[simp] theorem Core.modWarp_pts (k : Core) (w : Nat) (f : Warp → Warp) : (k.modWarp w f).pts = k.pts := rfl
@[simp] theorem Core.modWarp_engPosted (k : Core) (w : Nat) (f : Warp → Warp) : (k.modWarp w f).engPosted = k.engPosted := rfl
@[simp] theorem Core.modWarp_engGot (k : Core) (w : Nat) (f : Warp → Warp) : (k.modWarp w f).engGot = k.engGot := rfl
@[simp] theorem Core.modWarp_chans (k : Core) (w : Nat) (f : Warp → Warp) : (k.modWarp w f).chans = k.chans := rfl
@[simp] theorem Core.modWarp_fifo (k : Core) (w : Nat) (f : Warp → Warp) : (k.modWarp w f).fifo = k.fifo := rfl
@[simp] theorem Core.modWarp_govB (k : Core) (w : Nat) (f : Warp → Warp) : (k.modWarp w f).govB = k.govB := rfl
@[simp] theorem Core.modWarp_govNow (k : Core) (w : Nat) (f : Warp → Warp) : (k.modWarp w f).govNow = k.govNow := rfl
@[simp] theorem Core.modWarp_govPlat (k : Core) (w : Nat) (f : Warp → Warp) : (k.modWarp w f).govPlat = k.govPlat := rfl
@[simp] theorem Core.modWarp_govUsed (k : Core) (w : Nat) (f : Warp → Warp) : (k.modWarp w f).govUsed = k.govUsed := rfl
@[simp] theorem Core.modWarp_govBlocked (k : Core) (w : Nat) (f : Warp → Warp) : (k.modWarp w f).govBlocked = k.govBlocked := rfl
@[simp] theorem Core.modWarp_nibs (k : Core) (w : Nat) (f : Warp → Warp) : (k.modWarp w f).nibs = k.nibs := rfl
@[simp] theorem Core.modWarp_nibLeft (k : Core) (w : Nat) (f : Warp → Warp) : (k.modWarp w f).nibLeft = k.nibLeft := rfl
@[simp] theorem Core.modWarp_nibIn (k : Core) (w : Nat) (f : Warp → Warp) : (k.modWarp w f).nibIn = k.nibIn := rfl
@[simp] theorem Core.modWarp_rbref (k : Core) (w : Nat) (f : Warp → Warp) : (k.modWarp w f).rbref = k.rbref := rfl
@[simp] theorem Core.modWarp_halted (k : Core) (w : Nat) (f : Warp → Warp) : (k.modWarp w f).halted = k.halted := rfl
@[simp] theorem Core.modWarp_haltReq (k : Core) (w : Nat) (f : Warp → Warp) : (k.modWarp w f).haltReq = k.haltReq := rfl
@[simp] theorem Core.modWarp_inW (k : Core) (w : Nat) (f : Warp → Warp) : (k.modWarp w f).inW = k.inW := rfl
@[simp] theorem Core.modWarp_bpw (k : Core) (w : Nat) (f : Warp → Warp) : (k.modWarp w f).bpw = k.bpw := rfl
@[simp] theorem Core.modWarp_bpEng (k : Core) (w : Nat) (f : Warp → Warp) : (k.modWarp w f).bpEng = k.bpEng := rfl
@[simp] theorem Core.modWarp_wgs (k : Core) (w : Nat) (f : Warp → Warp) : (k.modWarp w f).wgs = k.wgs := rfl
@[simp] theorem Core.modWarp_issues (k : Core) (w : Nat) (f : Warp → Warp) : (k.modWarp w f).issues = k.issues := rfl
@[simp] theorem Core.modWarp_pHist (k : Core) (w : Nat) (f : Warp → Warp) : (k.modWarp w f).pHist = k.pHist := rfl
@[simp] theorem Core.modWarp_seq (k : Core) (w : Nat) (f : Warp → Warp) : (k.modWarp w f).seq = k.seq := rfl
@[simp] theorem Core.modWarp_scribeSt (k : Core) (w : Nat) (f : Warp → Warp) : (k.modWarp w f).scribeSt = k.scribeSt := rfl
@[simp] theorem Core.modWg_rf (k : Core) (id : Nat) (f : Wg → Wg) : (k.modWg id f).rf = k.rf := rfl
@[simp] theorem Core.modWg_rfPois (k : Core) (id : Nat) (f : Wg → Wg) : (k.modWg id f).rfPois = k.rfPois := rfl
@[simp] theorem Core.modWg_spad (k : Core) (id : Nat) (f : Wg → Wg) : (k.modWg id f).spad = k.spad := rfl
@[simp] theorem Core.modWg_spadPois (k : Core) (id : Nat) (f : Wg → Wg) : (k.modWg id f).spadPois = k.spadPois := rfl
@[simp] theorem Core.modWg_ob (k : Core) (id : Nat) (f : Wg → Wg) : (k.modWg id f).ob = k.ob := rfl
@[simp] theorem Core.modWg_obPois (k : Core) (id : Nat) (f : Wg → Wg) : (k.modWg id f).obPois = k.obPois := rfl
@[simp] theorem Core.modWg_acc (k : Core) (id : Nat) (f : Wg → Wg) : (k.modWg id f).acc = k.acc := rfl
@[simp] theorem Core.modWg_accPois (k : Core) (id : Nat) (f : Wg → Wg) : (k.modWg id f).accPois = k.accPois := rfl
@[simp] theorem Core.modWg_nibStore (k : Core) (id : Nat) (f : Wg → Wg) : (k.modWg id f).nibStore = k.nibStore := rfl
@[simp] theorem Core.modWg_sems (k : Core) (id : Nat) (f : Wg → Wg) : (k.modWg id f).sems = k.sems := rfl
@[simp] theorem Core.modWg_semQ (k : Core) (id : Nat) (f : Wg → Wg) : (k.modWg id f).semQ = k.semQ := rfl
@[simp] theorem Core.modWg_syncQ (k : Core) (id : Nat) (f : Wg → Wg) : (k.modWg id f).syncQ = k.syncQ := rfl
@[simp] theorem Core.modWg_hz (k : Core) (id : Nat) (f : Wg → Wg) : (k.modWg id f).hz = k.hz := rfl
@[simp] theorem Core.modWg_syncHz (k : Core) (id : Nat) (f : Wg → Wg) : (k.modWg id f).syncHz = k.syncHz := rfl
@[simp] theorem Core.modWg_engHz (k : Core) (id : Nat) (f : Wg → Wg) : (k.modWg id f).engHz = k.engHz := rfl
@[simp] theorem Core.modWg_nibHz (k : Core) (id : Nat) (f : Wg → Wg) : (k.modWg id f).nibHz = k.nibHz := rfl
@[simp] theorem Core.modWg_cmaps (k : Core) (id : Nat) (f : Wg → Wg) : (k.modWg id f).cmaps = k.cmaps := rfl
@[simp] theorem Core.modWg_bars (k : Core) (id : Nat) (f : Wg → Wg) : (k.modWg id f).bars = k.bars := rfl
@[simp] theorem Core.modWg_mail (k : Core) (id : Nat) (f : Wg → Wg) : (k.modWg id f).mail = k.mail := rfl
@[simp] theorem Core.modWg_mailMem (k : Core) (id : Nat) (f : Wg → Wg) : (k.modWg id f).mailMem = k.mailMem := rfl
@[simp] theorem Core.modWg_tickets (k : Core) (id : Nat) (f : Wg → Wg) : (k.modWg id f).tickets = k.tickets := rfl
@[simp] theorem Core.modWg_misses (k : Core) (id : Nat) (f : Wg → Wg) : (k.modWg id f).misses = k.misses := rfl
@[simp] theorem Core.modWg_xkeep (k : Core) (id : Nat) (f : Wg → Wg) : (k.modWg id f).xkeep = k.xkeep := rfl
@[simp] theorem Core.modWg_tlb (k : Core) (id : Nat) (f : Wg → Wg) : (k.modWg id f).tlb = k.tlb := rfl
@[simp] theorem Core.modWg_l1 (k : Core) (id : Nat) (f : Wg → Wg) : (k.modWg id f).l1 = k.l1 := rfl
@[simp] theorem Core.modWg_pts (k : Core) (id : Nat) (f : Wg → Wg) : (k.modWg id f).pts = k.pts := rfl
@[simp] theorem Core.modWg_engPosted (k : Core) (id : Nat) (f : Wg → Wg) : (k.modWg id f).engPosted = k.engPosted := rfl
@[simp] theorem Core.modWg_engGot (k : Core) (id : Nat) (f : Wg → Wg) : (k.modWg id f).engGot = k.engGot := rfl
@[simp] theorem Core.modWg_chans (k : Core) (id : Nat) (f : Wg → Wg) : (k.modWg id f).chans = k.chans := rfl
@[simp] theorem Core.modWg_fifo (k : Core) (id : Nat) (f : Wg → Wg) : (k.modWg id f).fifo = k.fifo := rfl
@[simp] theorem Core.modWg_govB (k : Core) (id : Nat) (f : Wg → Wg) : (k.modWg id f).govB = k.govB := rfl
@[simp] theorem Core.modWg_govNow (k : Core) (id : Nat) (f : Wg → Wg) : (k.modWg id f).govNow = k.govNow := rfl
@[simp] theorem Core.modWg_govPlat (k : Core) (id : Nat) (f : Wg → Wg) : (k.modWg id f).govPlat = k.govPlat := rfl
@[simp] theorem Core.modWg_govUsed (k : Core) (id : Nat) (f : Wg → Wg) : (k.modWg id f).govUsed = k.govUsed := rfl
@[simp] theorem Core.modWg_govBlocked (k : Core) (id : Nat) (f : Wg → Wg) : (k.modWg id f).govBlocked = k.govBlocked := rfl
@[simp] theorem Core.modWg_nibs (k : Core) (id : Nat) (f : Wg → Wg) : (k.modWg id f).nibs = k.nibs := rfl
@[simp] theorem Core.modWg_nibLeft (k : Core) (id : Nat) (f : Wg → Wg) : (k.modWg id f).nibLeft = k.nibLeft := rfl
@[simp] theorem Core.modWg_nibIn (k : Core) (id : Nat) (f : Wg → Wg) : (k.modWg id f).nibIn = k.nibIn := rfl
@[simp] theorem Core.modWg_rbref (k : Core) (id : Nat) (f : Wg → Wg) : (k.modWg id f).rbref = k.rbref := rfl
@[simp] theorem Core.modWg_halted (k : Core) (id : Nat) (f : Wg → Wg) : (k.modWg id f).halted = k.halted := rfl
@[simp] theorem Core.modWg_haltReq (k : Core) (id : Nat) (f : Wg → Wg) : (k.modWg id f).haltReq = k.haltReq := rfl
@[simp] theorem Core.modWg_inW (k : Core) (id : Nat) (f : Wg → Wg) : (k.modWg id f).inW = k.inW := rfl
@[simp] theorem Core.modWg_bpw (k : Core) (id : Nat) (f : Wg → Wg) : (k.modWg id f).bpw = k.bpw := rfl
@[simp] theorem Core.modWg_bpEng (k : Core) (id : Nat) (f : Wg → Wg) : (k.modWg id f).bpEng = k.bpEng := rfl
@[simp] theorem Core.modWg_warps (k : Core) (id : Nat) (f : Wg → Wg) : (k.modWg id f).warps = k.warps := rfl
@[simp] theorem Core.modWg_issues (k : Core) (id : Nat) (f : Wg → Wg) : (k.modWg id f).issues = k.issues := rfl
@[simp] theorem Core.modWg_pHist (k : Core) (id : Nat) (f : Wg → Wg) : (k.modWg id f).pHist = k.pHist := rfl
@[simp] theorem Core.modWg_seq (k : Core) (id : Nat) (f : Wg → Wg) : (k.modWg id f).seq = k.seq := rfl
@[simp] theorem Core.modWg_scribeSt (k : Core) (id : Nat) (f : Wg → Wg) : (k.modWg id f).scribeSt = k.scribeSt := rfl
@[simp] theorem Core.push_rf (k : Core) (wg q : Nat) (e : QEntry) : (k.push wg q e).rf = k.rf := rfl
@[simp] theorem Core.push_rfPois (k : Core) (wg q : Nat) (e : QEntry) : (k.push wg q e).rfPois = k.rfPois := rfl
@[simp] theorem Core.push_spad (k : Core) (wg q : Nat) (e : QEntry) : (k.push wg q e).spad = k.spad := rfl
@[simp] theorem Core.push_spadPois (k : Core) (wg q : Nat) (e : QEntry) : (k.push wg q e).spadPois = k.spadPois := rfl
@[simp] theorem Core.push_ob (k : Core) (wg q : Nat) (e : QEntry) : (k.push wg q e).ob = k.ob := rfl
@[simp] theorem Core.push_obPois (k : Core) (wg q : Nat) (e : QEntry) : (k.push wg q e).obPois = k.obPois := rfl
@[simp] theorem Core.push_acc (k : Core) (wg q : Nat) (e : QEntry) : (k.push wg q e).acc = k.acc := rfl
@[simp] theorem Core.push_accPois (k : Core) (wg q : Nat) (e : QEntry) : (k.push wg q e).accPois = k.accPois := rfl
@[simp] theorem Core.push_nibStore (k : Core) (wg q : Nat) (e : QEntry) : (k.push wg q e).nibStore = k.nibStore := rfl
@[simp] theorem Core.push_sems (k : Core) (wg q : Nat) (e : QEntry) : (k.push wg q e).sems = k.sems := rfl
@[simp] theorem Core.push_semQ (k : Core) (wg q : Nat) (e : QEntry) : (k.push wg q e).semQ = k.semQ := rfl
@[simp] theorem Core.push_syncQ (k : Core) (wg q : Nat) (e : QEntry) : (k.push wg q e).syncQ = k.syncQ := rfl
@[simp] theorem Core.push_hz (k : Core) (wg q : Nat) (e : QEntry) : (k.push wg q e).hz = k.hz := rfl
@[simp] theorem Core.push_syncHz (k : Core) (wg q : Nat) (e : QEntry) : (k.push wg q e).syncHz = k.syncHz := rfl
@[simp] theorem Core.push_engHz (k : Core) (wg q : Nat) (e : QEntry) : (k.push wg q e).engHz = k.engHz := rfl
@[simp] theorem Core.push_nibHz (k : Core) (wg q : Nat) (e : QEntry) : (k.push wg q e).nibHz = k.nibHz := rfl
@[simp] theorem Core.push_cmaps (k : Core) (wg q : Nat) (e : QEntry) : (k.push wg q e).cmaps = k.cmaps := rfl
@[simp] theorem Core.push_bars (k : Core) (wg q : Nat) (e : QEntry) : (k.push wg q e).bars = k.bars := rfl
@[simp] theorem Core.push_mail (k : Core) (wg q : Nat) (e : QEntry) : (k.push wg q e).mail = k.mail := rfl
@[simp] theorem Core.push_mailMem (k : Core) (wg q : Nat) (e : QEntry) : (k.push wg q e).mailMem = k.mailMem := rfl
@[simp] theorem Core.push_tickets (k : Core) (wg q : Nat) (e : QEntry) : (k.push wg q e).tickets = k.tickets := rfl
@[simp] theorem Core.push_misses (k : Core) (wg q : Nat) (e : QEntry) : (k.push wg q e).misses = k.misses := rfl
@[simp] theorem Core.push_xkeep (k : Core) (wg q : Nat) (e : QEntry) : (k.push wg q e).xkeep = k.xkeep := rfl
@[simp] theorem Core.push_tlb (k : Core) (wg q : Nat) (e : QEntry) : (k.push wg q e).tlb = k.tlb := rfl
@[simp] theorem Core.push_l1 (k : Core) (wg q : Nat) (e : QEntry) : (k.push wg q e).l1 = k.l1 := rfl
@[simp] theorem Core.push_pts (k : Core) (wg q : Nat) (e : QEntry) : (k.push wg q e).pts = k.pts := rfl
@[simp] theorem Core.push_engPosted (k : Core) (wg q : Nat) (e : QEntry) : (k.push wg q e).engPosted = k.engPosted := rfl
@[simp] theorem Core.push_engGot (k : Core) (wg q : Nat) (e : QEntry) : (k.push wg q e).engGot = k.engGot := rfl
@[simp] theorem Core.push_chans (k : Core) (wg q : Nat) (e : QEntry) : (k.push wg q e).chans = k.chans := rfl
@[simp] theorem Core.push_fifo (k : Core) (wg q : Nat) (e : QEntry) : (k.push wg q e).fifo = k.fifo := rfl
@[simp] theorem Core.push_govB (k : Core) (wg q : Nat) (e : QEntry) : (k.push wg q e).govB = k.govB := rfl
@[simp] theorem Core.push_govNow (k : Core) (wg q : Nat) (e : QEntry) : (k.push wg q e).govNow = k.govNow := rfl
@[simp] theorem Core.push_govPlat (k : Core) (wg q : Nat) (e : QEntry) : (k.push wg q e).govPlat = k.govPlat := rfl
@[simp] theorem Core.push_govUsed (k : Core) (wg q : Nat) (e : QEntry) : (k.push wg q e).govUsed = k.govUsed := rfl
@[simp] theorem Core.push_govBlocked (k : Core) (wg q : Nat) (e : QEntry) : (k.push wg q e).govBlocked = k.govBlocked := rfl
@[simp] theorem Core.push_nibs (k : Core) (wg q : Nat) (e : QEntry) : (k.push wg q e).nibs = k.nibs := rfl
@[simp] theorem Core.push_nibLeft (k : Core) (wg q : Nat) (e : QEntry) : (k.push wg q e).nibLeft = k.nibLeft := rfl
@[simp] theorem Core.push_nibIn (k : Core) (wg q : Nat) (e : QEntry) : (k.push wg q e).nibIn = k.nibIn := rfl
@[simp] theorem Core.push_rbref (k : Core) (wg q : Nat) (e : QEntry) : (k.push wg q e).rbref = k.rbref := rfl
@[simp] theorem Core.push_halted (k : Core) (wg q : Nat) (e : QEntry) : (k.push wg q e).halted = k.halted := rfl
@[simp] theorem Core.push_haltReq (k : Core) (wg q : Nat) (e : QEntry) : (k.push wg q e).haltReq = k.haltReq := rfl
@[simp] theorem Core.push_inW (k : Core) (wg q : Nat) (e : QEntry) : (k.push wg q e).inW = k.inW := rfl
@[simp] theorem Core.push_bpw (k : Core) (wg q : Nat) (e : QEntry) : (k.push wg q e).bpw = k.bpw := rfl
@[simp] theorem Core.push_bpEng (k : Core) (wg q : Nat) (e : QEntry) : (k.push wg q e).bpEng = k.bpEng := rfl
@[simp] theorem Core.push_warps (k : Core) (wg q : Nat) (e : QEntry) : (k.push wg q e).warps = k.warps := rfl
@[simp] theorem Core.push_issues (k : Core) (wg q : Nat) (e : QEntry) : (k.push wg q e).issues = k.issues := rfl
@[simp] theorem Core.push_pHist (k : Core) (wg q : Nat) (e : QEntry) : (k.push wg q e).pHist = k.pHist := rfl
@[simp] theorem Core.push_seq (k : Core) (wg q : Nat) (e : QEntry) : (k.push wg q e).seq = k.seq := rfl
@[simp] theorem Core.push_scribeSt (k : Core) (wg q : Nat) (e : QEntry) : (k.push wg q e).scribeSt = k.scribeSt := rfl
@[simp] theorem Core.rfPut_spad (k : Core) (i : Nat) (v : Word) (p : Bool) : (k.rfPut i v p).spad = k.spad := rfl
@[simp] theorem Core.rfPut_spadPois (k : Core) (i : Nat) (v : Word) (p : Bool) : (k.rfPut i v p).spadPois = k.spadPois := rfl
@[simp] theorem Core.rfPut_ob (k : Core) (i : Nat) (v : Word) (p : Bool) : (k.rfPut i v p).ob = k.ob := rfl
@[simp] theorem Core.rfPut_obPois (k : Core) (i : Nat) (v : Word) (p : Bool) : (k.rfPut i v p).obPois = k.obPois := rfl
@[simp] theorem Core.rfPut_acc (k : Core) (i : Nat) (v : Word) (p : Bool) : (k.rfPut i v p).acc = k.acc := rfl
@[simp] theorem Core.rfPut_accPois (k : Core) (i : Nat) (v : Word) (p : Bool) : (k.rfPut i v p).accPois = k.accPois := rfl
@[simp] theorem Core.rfPut_nibStore (k : Core) (i : Nat) (v : Word) (p : Bool) : (k.rfPut i v p).nibStore = k.nibStore := rfl
@[simp] theorem Core.rfPut_sems (k : Core) (i : Nat) (v : Word) (p : Bool) : (k.rfPut i v p).sems = k.sems := rfl
@[simp] theorem Core.rfPut_semQ (k : Core) (i : Nat) (v : Word) (p : Bool) : (k.rfPut i v p).semQ = k.semQ := rfl
@[simp] theorem Core.rfPut_syncQ (k : Core) (i : Nat) (v : Word) (p : Bool) : (k.rfPut i v p).syncQ = k.syncQ := rfl
@[simp] theorem Core.rfPut_hz (k : Core) (i : Nat) (v : Word) (p : Bool) : (k.rfPut i v p).hz = k.hz := rfl
@[simp] theorem Core.rfPut_syncHz (k : Core) (i : Nat) (v : Word) (p : Bool) : (k.rfPut i v p).syncHz = k.syncHz := rfl
@[simp] theorem Core.rfPut_engHz (k : Core) (i : Nat) (v : Word) (p : Bool) : (k.rfPut i v p).engHz = k.engHz := rfl
@[simp] theorem Core.rfPut_nibHz (k : Core) (i : Nat) (v : Word) (p : Bool) : (k.rfPut i v p).nibHz = k.nibHz := rfl
@[simp] theorem Core.rfPut_cmaps (k : Core) (i : Nat) (v : Word) (p : Bool) : (k.rfPut i v p).cmaps = k.cmaps := rfl
@[simp] theorem Core.rfPut_bars (k : Core) (i : Nat) (v : Word) (p : Bool) : (k.rfPut i v p).bars = k.bars := rfl
@[simp] theorem Core.rfPut_mail (k : Core) (i : Nat) (v : Word) (p : Bool) : (k.rfPut i v p).mail = k.mail := rfl
@[simp] theorem Core.rfPut_mailMem (k : Core) (i : Nat) (v : Word) (p : Bool) : (k.rfPut i v p).mailMem = k.mailMem := rfl
@[simp] theorem Core.rfPut_tickets (k : Core) (i : Nat) (v : Word) (p : Bool) : (k.rfPut i v p).tickets = k.tickets := rfl
@[simp] theorem Core.rfPut_misses (k : Core) (i : Nat) (v : Word) (p : Bool) : (k.rfPut i v p).misses = k.misses := rfl
@[simp] theorem Core.rfPut_xkeep (k : Core) (i : Nat) (v : Word) (p : Bool) : (k.rfPut i v p).xkeep = k.xkeep := rfl
@[simp] theorem Core.rfPut_tlb (k : Core) (i : Nat) (v : Word) (p : Bool) : (k.rfPut i v p).tlb = k.tlb := rfl
@[simp] theorem Core.rfPut_l1 (k : Core) (i : Nat) (v : Word) (p : Bool) : (k.rfPut i v p).l1 = k.l1 := rfl
@[simp] theorem Core.rfPut_pts (k : Core) (i : Nat) (v : Word) (p : Bool) : (k.rfPut i v p).pts = k.pts := rfl
@[simp] theorem Core.rfPut_engPosted (k : Core) (i : Nat) (v : Word) (p : Bool) : (k.rfPut i v p).engPosted = k.engPosted := rfl
@[simp] theorem Core.rfPut_engGot (k : Core) (i : Nat) (v : Word) (p : Bool) : (k.rfPut i v p).engGot = k.engGot := rfl
@[simp] theorem Core.rfPut_chans (k : Core) (i : Nat) (v : Word) (p : Bool) : (k.rfPut i v p).chans = k.chans := rfl
@[simp] theorem Core.rfPut_fifo (k : Core) (i : Nat) (v : Word) (p : Bool) : (k.rfPut i v p).fifo = k.fifo := rfl
@[simp] theorem Core.rfPut_govB (k : Core) (i : Nat) (v : Word) (p : Bool) : (k.rfPut i v p).govB = k.govB := rfl
@[simp] theorem Core.rfPut_govNow (k : Core) (i : Nat) (v : Word) (p : Bool) : (k.rfPut i v p).govNow = k.govNow := rfl
@[simp] theorem Core.rfPut_govPlat (k : Core) (i : Nat) (v : Word) (p : Bool) : (k.rfPut i v p).govPlat = k.govPlat := rfl
@[simp] theorem Core.rfPut_govUsed (k : Core) (i : Nat) (v : Word) (p : Bool) : (k.rfPut i v p).govUsed = k.govUsed := rfl
@[simp] theorem Core.rfPut_govBlocked (k : Core) (i : Nat) (v : Word) (p : Bool) : (k.rfPut i v p).govBlocked = k.govBlocked := rfl
@[simp] theorem Core.rfPut_nibs (k : Core) (i : Nat) (v : Word) (p : Bool) : (k.rfPut i v p).nibs = k.nibs := rfl
@[simp] theorem Core.rfPut_nibLeft (k : Core) (i : Nat) (v : Word) (p : Bool) : (k.rfPut i v p).nibLeft = k.nibLeft := rfl
@[simp] theorem Core.rfPut_nibIn (k : Core) (i : Nat) (v : Word) (p : Bool) : (k.rfPut i v p).nibIn = k.nibIn := rfl
@[simp] theorem Core.rfPut_rbref (k : Core) (i : Nat) (v : Word) (p : Bool) : (k.rfPut i v p).rbref = k.rbref := rfl
@[simp] theorem Core.rfPut_halted (k : Core) (i : Nat) (v : Word) (p : Bool) : (k.rfPut i v p).halted = k.halted := rfl
@[simp] theorem Core.rfPut_haltReq (k : Core) (i : Nat) (v : Word) (p : Bool) : (k.rfPut i v p).haltReq = k.haltReq := rfl
@[simp] theorem Core.rfPut_inW (k : Core) (i : Nat) (v : Word) (p : Bool) : (k.rfPut i v p).inW = k.inW := rfl
@[simp] theorem Core.rfPut_bpw (k : Core) (i : Nat) (v : Word) (p : Bool) : (k.rfPut i v p).bpw = k.bpw := rfl
@[simp] theorem Core.rfPut_bpEng (k : Core) (i : Nat) (v : Word) (p : Bool) : (k.rfPut i v p).bpEng = k.bpEng := rfl
@[simp] theorem Core.rfPut_wgs (k : Core) (i : Nat) (v : Word) (p : Bool) : (k.rfPut i v p).wgs = k.wgs := rfl
@[simp] theorem Core.rfPut_warps (k : Core) (i : Nat) (v : Word) (p : Bool) : (k.rfPut i v p).warps = k.warps := rfl
@[simp] theorem Core.rfPut_issues (k : Core) (i : Nat) (v : Word) (p : Bool) : (k.rfPut i v p).issues = k.issues := rfl
@[simp] theorem Core.rfPut_pHist (k : Core) (i : Nat) (v : Word) (p : Bool) : (k.rfPut i v p).pHist = k.pHist := rfl
@[simp] theorem Core.rfPut_seq (k : Core) (i : Nat) (v : Word) (p : Bool) : (k.rfPut i v p).seq = k.seq := rfl
@[simp] theorem Core.rfPut_scribeSt (k : Core) (i : Nat) (v : Word) (p : Bool) : (k.rfPut i v p).scribeSt = k.scribeSt := rfl

/-! ### Updates of a warp -/

@[simp] theorem Warp.sput_wg (w : Warp) (n : Nat) (v : Dword) (p : Bool) : (w.sput n v p).wg = w.wg := rfl
@[simp] theorem Warp.sput_num (w : Warp) (n : Nat) (v : Dword) (p : Bool) : (w.sput n v p).num = w.num := rfl
@[simp] theorem Warp.sput_base (w : Warp) (n : Nat) (v : Dword) (p : Bool) : (w.sput n v p).base = w.base := rfl
@[simp] theorem Warp.sput_n (w : Warp) (n : Nat) (v : Dword) (p : Bool) : (w.sput n v p).n = w.n := rfl
@[simp] theorem Warp.sput_pasid (w : Warp) (n : Nat) (v : Dword) (p : Bool) : (w.sput n v p).pasid = w.pasid := rfl
@[simp] theorem Warp.sput_cls (w : Warp) (n : Nat) (v : Dword) (p : Bool) : (w.sput n v p).cls = w.cls := rfl
@[simp] theorem Warp.sput_preds (w : Warp) (n : Nat) (v : Dword) (p : Bool) : (w.sput n v p).preds = w.preds := rfl
@[simp] theorem Warp.sput_cflags (w : Warp) (n : Nat) (v : Dword) (p : Bool) : (w.sput n v p).cflags = w.cflags := rfl
@[simp] theorem Warp.sput_fflags (w : Warp) (n : Nat) (v : Dword) (p : Bool) : (w.sput n v p).fflags = w.fflags := rfl
@[simp] theorem Warp.sput_mflags (w : Warp) (n : Nat) (v : Dword) (p : Bool) : (w.sput n v p).mflags = w.mflags := rfl
@[simp] theorem Warp.sput_sbPend (w : Warp) (n : Nat) (v : Dword) (p : Bool) : (w.sput n v p).sbPend = w.sbPend := rfl
@[simp] theorem Warp.sput_lease (w : Warp) (n : Nat) (v : Dword) (p : Bool) : (w.sput n v p).lease = w.lease := rfl
@[simp] theorem Warp.sput_front (w : Warp) (n : Nat) (v : Dword) (p : Bool) : (w.sput n v p).front = w.front := rfl
@[simp] theorem Warp.sput_spilled (w : Warp) (n : Nat) (v : Dword) (p : Bool) : (w.sput n v p).spilled = w.spilled := rfl
@[simp] theorem Warp.sput_job (w : Warp) (n : Nat) (v : Dword) (p : Bool) : (w.sput n v p).job = w.job := rfl
@[simp] theorem Warp.sput_clause (w : Warp) (n : Nat) (v : Dword) (p : Bool) : (w.sput n v p).clause = w.clause := rfl
@[simp] theorem Warp.sput_resume (w : Warp) (n : Nat) (v : Dword) (p : Bool) : (w.sput n v p).resume = w.resume := rfl
@[simp] theorem Warp.sput_unread (w : Warp) (n : Nat) (v : Dword) (p : Bool) : (w.sput n v p).unread = w.unread := rfl
@[simp] theorem Warp.sput_lig (w : Warp) (n : Nat) (v : Dword) (p : Bool) : (w.sput n v p).lig = w.lig := rfl
@[simp] theorem Warp.sput_stall (w : Warp) (n : Nat) (v : Dword) (p : Bool) : (w.sput n v p).stall = w.stall := rfl
@[simp] theorem Warp.sput_yieldHold (w : Warp) (n : Nat) (v : Dword) (p : Bool) : (w.sput n v p).yieldHold = w.yieldHold := rfl
@[simp] theorem Warp.sput_yieldCc (w : Warp) (n : Nat) (v : Dword) (p : Bool) : (w.sput n v p).yieldCc = w.yieldCc := rfl
@[simp] theorem Warp.sput_last (w : Warp) (n : Nat) (v : Dword) (p : Bool) : (w.sput n v p).last = w.last := rfl
@[simp] theorem Warp.sput_wait (w : Warp) (n : Nat) (v : Dword) (p : Bool) : (w.sput n v p).wait = w.wait := rfl
@[simp] theorem Warp.sput_ops (w : Warp) (n : Nat) (v : Dword) (p : Bool) : (w.sput n v p).ops = w.ops := rfl
@[simp] theorem Warp.sput_posted (w : Warp) (n : Nat) (v : Dword) (p : Bool) : (w.sput n v p).posted = w.posted := rfl
@[simp] theorem Warp.sput_deferred (w : Warp) (n : Nat) (v : Dword) (p : Bool) : (w.sput n v p).deferred = w.deferred := rfl
@[simp] theorem Warp.sput_out (w : Warp) (n : Nat) (v : Dword) (p : Bool) : (w.sput n v p).out = w.out := rfl
@[simp] theorem Warp.sput_acqF (w : Warp) (n : Nat) (v : Dword) (p : Bool) : (w.sput n v p).acqF = w.acqF := rfl
@[simp] theorem Warp.sput_loadWts (w : Warp) (n : Nat) (v : Dword) (p : Bool) : (w.sput n v p).loadWts = w.loadWts := rfl
@[simp] theorem Warp.sput_seen (w : Warp) (n : Nat) (v : Dword) (p : Bool) : (w.sput n v p).seen = w.seen := rfl
@[simp] theorem Warp.sput_loadHz (w : Warp) (n : Nat) (v : Dword) (p : Bool) : (w.sput n v p).loadHz = w.loadHz := rfl
@[simp] theorem Warp.sput_relHz (w : Warp) (n : Nat) (v : Dword) (p : Bool) : (w.sput n v p).relHz = w.relHz := rfl
@[simp] theorem Warp.sput_nibRef (w : Warp) (n : Nat) (v : Dword) (p : Bool) : (w.sput n v p).nibRef = w.nibRef := rfl
@[simp] theorem Warp.sput_causes (w : Warp) (n : Nat) (v : Dword) (p : Bool) : (w.sput n v p).causes = w.causes := rfl
@[simp] theorem Warp.sput_handler (w : Warp) (n : Nat) (v : Dword) (p : Bool) : (w.sput n v p).handler = w.handler := rfl
@[simp] theorem Warp.sput_escal (w : Warp) (n : Nat) (v : Dword) (p : Bool) : (w.sput n v p).escal = w.escal := rfl
@[simp] theorem Warp.sput_frameVa (w : Warp) (n : Nat) (v : Dword) (p : Bool) : (w.sput n v p).frameVa = w.frameVa := rfl
@[simp] theorem Warp.sput_framePa (w : Warp) (n : Nat) (v : Dword) (p : Bool) : (w.sput n v p).framePa = w.framePa := rfl
@[simp] theorem Warp.sput_wins (w : Warp) (n : Nat) (v : Dword) (p : Bool) : (w.sput n v p).wins = w.wins := rfl
@[simp] theorem Warp.sput_ended (w : Warp) (n : Nat) (v : Dword) (p : Bool) : (w.sput n v p).ended = w.ended := rfl
@[simp] theorem Warp.sput_stopped (w : Warp) (n : Nat) (v : Dword) (p : Bool) : (w.sput n v p).stopped = w.stopped := rfl
@[simp] theorem Warp.sput_idNext (w : Warp) (n : Nat) (v : Dword) (p : Bool) : (w.sput n v p).idNext = w.idNext := rfl
@[simp] theorem Warp.sput_twin (w : Warp) (n : Nat) (v : Dword) (p : Bool) : (w.sput n v p).twin = w.twin := rfl
@[simp] theorem Warp.sput_held (w : Warp) (n : Nat) (v : Dword) (p : Bool) : (w.sput n v p).held = w.held := rfl
@[simp] theorem Warp.sput_batch (w : Warp) (n : Nat) (v : Dword) (p : Bool) : (w.sput n v p).batch = w.batch := rfl
@[simp] theorem Warp.orFlags_wg (w : Warp) (l : Nat) (f : Flags5) : (w.orFlags l f).wg = w.wg := rfl
@[simp] theorem Warp.orFlags_num (w : Warp) (l : Nat) (f : Flags5) : (w.orFlags l f).num = w.num := rfl
@[simp] theorem Warp.orFlags_base (w : Warp) (l : Nat) (f : Flags5) : (w.orFlags l f).base = w.base := rfl
@[simp] theorem Warp.orFlags_n (w : Warp) (l : Nat) (f : Flags5) : (w.orFlags l f).n = w.n := rfl
@[simp] theorem Warp.orFlags_pasid (w : Warp) (l : Nat) (f : Flags5) : (w.orFlags l f).pasid = w.pasid := rfl
@[simp] theorem Warp.orFlags_cls (w : Warp) (l : Nat) (f : Flags5) : (w.orFlags l f).cls = w.cls := rfl
@[simp] theorem Warp.orFlags_sregs (w : Warp) (l : Nat) (f : Flags5) : (w.orFlags l f).sregs = w.sregs := rfl
@[simp] theorem Warp.orFlags_sPois (w : Warp) (l : Nat) (f : Flags5) : (w.orFlags l f).sPois = w.sPois := rfl
@[simp] theorem Warp.orFlags_preds (w : Warp) (l : Nat) (f : Flags5) : (w.orFlags l f).preds = w.preds := rfl
@[simp] theorem Warp.orFlags_cflags (w : Warp) (l : Nat) (f : Flags5) : (w.orFlags l f).cflags = w.cflags := rfl
@[simp] theorem Warp.orFlags_mflags (w : Warp) (l : Nat) (f : Flags5) : (w.orFlags l f).mflags = w.mflags := rfl
@[simp] theorem Warp.orFlags_sbPend (w : Warp) (l : Nat) (f : Flags5) : (w.orFlags l f).sbPend = w.sbPend := rfl
@[simp] theorem Warp.orFlags_lease (w : Warp) (l : Nat) (f : Flags5) : (w.orFlags l f).lease = w.lease := rfl
@[simp] theorem Warp.orFlags_front (w : Warp) (l : Nat) (f : Flags5) : (w.orFlags l f).front = w.front := rfl
@[simp] theorem Warp.orFlags_spilled (w : Warp) (l : Nat) (f : Flags5) : (w.orFlags l f).spilled = w.spilled := rfl
@[simp] theorem Warp.orFlags_job (w : Warp) (l : Nat) (f : Flags5) : (w.orFlags l f).job = w.job := rfl
@[simp] theorem Warp.orFlags_clause (w : Warp) (l : Nat) (f : Flags5) : (w.orFlags l f).clause = w.clause := rfl
@[simp] theorem Warp.orFlags_resume (w : Warp) (l : Nat) (f : Flags5) : (w.orFlags l f).resume = w.resume := rfl
@[simp] theorem Warp.orFlags_unread (w : Warp) (l : Nat) (f : Flags5) : (w.orFlags l f).unread = w.unread := rfl
@[simp] theorem Warp.orFlags_lig (w : Warp) (l : Nat) (f : Flags5) : (w.orFlags l f).lig = w.lig := rfl
@[simp] theorem Warp.orFlags_stall (w : Warp) (l : Nat) (f : Flags5) : (w.orFlags l f).stall = w.stall := rfl
@[simp] theorem Warp.orFlags_yieldHold (w : Warp) (l : Nat) (f : Flags5) : (w.orFlags l f).yieldHold = w.yieldHold := rfl
@[simp] theorem Warp.orFlags_yieldCc (w : Warp) (l : Nat) (f : Flags5) : (w.orFlags l f).yieldCc = w.yieldCc := rfl
@[simp] theorem Warp.orFlags_last (w : Warp) (l : Nat) (f : Flags5) : (w.orFlags l f).last = w.last := rfl
@[simp] theorem Warp.orFlags_wait (w : Warp) (l : Nat) (f : Flags5) : (w.orFlags l f).wait = w.wait := rfl
@[simp] theorem Warp.orFlags_ops (w : Warp) (l : Nat) (f : Flags5) : (w.orFlags l f).ops = w.ops := rfl
@[simp] theorem Warp.orFlags_posted (w : Warp) (l : Nat) (f : Flags5) : (w.orFlags l f).posted = w.posted := rfl
@[simp] theorem Warp.orFlags_deferred (w : Warp) (l : Nat) (f : Flags5) : (w.orFlags l f).deferred = w.deferred := rfl
@[simp] theorem Warp.orFlags_out (w : Warp) (l : Nat) (f : Flags5) : (w.orFlags l f).out = w.out := rfl
@[simp] theorem Warp.orFlags_acqF (w : Warp) (l : Nat) (f : Flags5) : (w.orFlags l f).acqF = w.acqF := rfl
@[simp] theorem Warp.orFlags_loadWts (w : Warp) (l : Nat) (f : Flags5) : (w.orFlags l f).loadWts = w.loadWts := rfl
@[simp] theorem Warp.orFlags_seen (w : Warp) (l : Nat) (f : Flags5) : (w.orFlags l f).seen = w.seen := rfl
@[simp] theorem Warp.orFlags_loadHz (w : Warp) (l : Nat) (f : Flags5) : (w.orFlags l f).loadHz = w.loadHz := rfl
@[simp] theorem Warp.orFlags_relHz (w : Warp) (l : Nat) (f : Flags5) : (w.orFlags l f).relHz = w.relHz := rfl
@[simp] theorem Warp.orFlags_nibRef (w : Warp) (l : Nat) (f : Flags5) : (w.orFlags l f).nibRef = w.nibRef := rfl
@[simp] theorem Warp.orFlags_causes (w : Warp) (l : Nat) (f : Flags5) : (w.orFlags l f).causes = w.causes := rfl
@[simp] theorem Warp.orFlags_handler (w : Warp) (l : Nat) (f : Flags5) : (w.orFlags l f).handler = w.handler := rfl
@[simp] theorem Warp.orFlags_escal (w : Warp) (l : Nat) (f : Flags5) : (w.orFlags l f).escal = w.escal := rfl
@[simp] theorem Warp.orFlags_frameVa (w : Warp) (l : Nat) (f : Flags5) : (w.orFlags l f).frameVa = w.frameVa := rfl
@[simp] theorem Warp.orFlags_framePa (w : Warp) (l : Nat) (f : Flags5) : (w.orFlags l f).framePa = w.framePa := rfl
@[simp] theorem Warp.orFlags_wins (w : Warp) (l : Nat) (f : Flags5) : (w.orFlags l f).wins = w.wins := rfl
@[simp] theorem Warp.orFlags_ended (w : Warp) (l : Nat) (f : Flags5) : (w.orFlags l f).ended = w.ended := rfl
@[simp] theorem Warp.orFlags_stopped (w : Warp) (l : Nat) (f : Flags5) : (w.orFlags l f).stopped = w.stopped := rfl
@[simp] theorem Warp.orFlags_idNext (w : Warp) (l : Nat) (f : Flags5) : (w.orFlags l f).idNext = w.idNext := rfl
@[simp] theorem Warp.orFlags_twin (w : Warp) (l : Nat) (f : Flags5) : (w.orFlags l f).twin = w.twin := rfl
@[simp] theorem Warp.orFlags_held (w : Warp) (l : Nat) (f : Flags5) : (w.orFlags l f).held = w.held := rfl
@[simp] theorem Warp.orFlags_batch (w : Warp) (l : Nat) (f : Flags5) : (w.orFlags l f).batch = w.batch := rfl
@[simp] theorem Warp.startOp_wg (w : Warp) (f : Fin 12) (n : Nat) (b : Bool) : (w.startOp f n b).wg = w.wg := rfl
@[simp] theorem Warp.startOp_num (w : Warp) (f : Fin 12) (n : Nat) (b : Bool) : (w.startOp f n b).num = w.num := rfl
@[simp] theorem Warp.startOp_base (w : Warp) (f : Fin 12) (n : Nat) (b : Bool) : (w.startOp f n b).base = w.base := rfl
@[simp] theorem Warp.startOp_n (w : Warp) (f : Fin 12) (n : Nat) (b : Bool) : (w.startOp f n b).n = w.n := rfl
@[simp] theorem Warp.startOp_pasid (w : Warp) (f : Fin 12) (n : Nat) (b : Bool) : (w.startOp f n b).pasid = w.pasid := rfl
@[simp] theorem Warp.startOp_cls (w : Warp) (f : Fin 12) (n : Nat) (b : Bool) : (w.startOp f n b).cls = w.cls := rfl
@[simp] theorem Warp.startOp_sregs (w : Warp) (f : Fin 12) (n : Nat) (b : Bool) : (w.startOp f n b).sregs = w.sregs := rfl
@[simp] theorem Warp.startOp_sPois (w : Warp) (f : Fin 12) (n : Nat) (b : Bool) : (w.startOp f n b).sPois = w.sPois := rfl
@[simp] theorem Warp.startOp_preds (w : Warp) (f : Fin 12) (n : Nat) (b : Bool) : (w.startOp f n b).preds = w.preds := rfl
@[simp] theorem Warp.startOp_fflags (w : Warp) (f : Fin 12) (n : Nat) (b : Bool) : (w.startOp f n b).fflags = w.fflags := rfl
@[simp] theorem Warp.startOp_mflags (w : Warp) (f : Fin 12) (n : Nat) (b : Bool) : (w.startOp f n b).mflags = w.mflags := rfl
@[simp] theorem Warp.startOp_sbPend (w : Warp) (f : Fin 12) (n : Nat) (b : Bool) : (w.startOp f n b).sbPend = w.sbPend := rfl
@[simp] theorem Warp.startOp_lease (w : Warp) (f : Fin 12) (n : Nat) (b : Bool) : (w.startOp f n b).lease = w.lease := rfl
@[simp] theorem Warp.startOp_front (w : Warp) (f : Fin 12) (n : Nat) (b : Bool) : (w.startOp f n b).front = w.front := rfl
@[simp] theorem Warp.startOp_spilled (w : Warp) (f : Fin 12) (n : Nat) (b : Bool) : (w.startOp f n b).spilled = w.spilled := rfl
@[simp] theorem Warp.startOp_job (w : Warp) (f : Fin 12) (n : Nat) (b : Bool) : (w.startOp f n b).job = w.job := rfl
@[simp] theorem Warp.startOp_clause (w : Warp) (f : Fin 12) (n : Nat) (b : Bool) : (w.startOp f n b).clause = w.clause := rfl
@[simp] theorem Warp.startOp_resume (w : Warp) (f : Fin 12) (n : Nat) (b : Bool) : (w.startOp f n b).resume = w.resume := rfl
@[simp] theorem Warp.startOp_unread (w : Warp) (f : Fin 12) (n : Nat) (b : Bool) : (w.startOp f n b).unread = w.unread := rfl
@[simp] theorem Warp.startOp_lig (w : Warp) (f : Fin 12) (n : Nat) (b : Bool) : (w.startOp f n b).lig = w.lig := rfl
@[simp] theorem Warp.startOp_stall (w : Warp) (f : Fin 12) (n : Nat) (b : Bool) : (w.startOp f n b).stall = w.stall := rfl
@[simp] theorem Warp.startOp_yieldHold (w : Warp) (f : Fin 12) (n : Nat) (b : Bool) : (w.startOp f n b).yieldHold = w.yieldHold := rfl
@[simp] theorem Warp.startOp_yieldCc (w : Warp) (f : Fin 12) (n : Nat) (b : Bool) : (w.startOp f n b).yieldCc = w.yieldCc := rfl
@[simp] theorem Warp.startOp_last (w : Warp) (f : Fin 12) (n : Nat) (b : Bool) : (w.startOp f n b).last = w.last := rfl
@[simp] theorem Warp.startOp_wait (w : Warp) (f : Fin 12) (n : Nat) (b : Bool) : (w.startOp f n b).wait = w.wait := rfl
@[simp] theorem Warp.startOp_posted (w : Warp) (f : Fin 12) (n : Nat) (b : Bool) : (w.startOp f n b).posted = w.posted := rfl
@[simp] theorem Warp.startOp_deferred (w : Warp) (f : Fin 12) (n : Nat) (b : Bool) : (w.startOp f n b).deferred = w.deferred := rfl
@[simp] theorem Warp.startOp_out (w : Warp) (f : Fin 12) (n : Nat) (b : Bool) : (w.startOp f n b).out = w.out := rfl
@[simp] theorem Warp.startOp_acqF (w : Warp) (f : Fin 12) (n : Nat) (b : Bool) : (w.startOp f n b).acqF = w.acqF := rfl
@[simp] theorem Warp.startOp_loadWts (w : Warp) (f : Fin 12) (n : Nat) (b : Bool) : (w.startOp f n b).loadWts = w.loadWts := rfl
@[simp] theorem Warp.startOp_seen (w : Warp) (f : Fin 12) (n : Nat) (b : Bool) : (w.startOp f n b).seen = w.seen := rfl
@[simp] theorem Warp.startOp_loadHz (w : Warp) (f : Fin 12) (n : Nat) (b : Bool) : (w.startOp f n b).loadHz = w.loadHz := rfl
@[simp] theorem Warp.startOp_relHz (w : Warp) (f : Fin 12) (n : Nat) (b : Bool) : (w.startOp f n b).relHz = w.relHz := rfl
@[simp] theorem Warp.startOp_nibRef (w : Warp) (f : Fin 12) (n : Nat) (b : Bool) : (w.startOp f n b).nibRef = w.nibRef := rfl
@[simp] theorem Warp.startOp_causes (w : Warp) (f : Fin 12) (n : Nat) (b : Bool) : (w.startOp f n b).causes = w.causes := rfl
@[simp] theorem Warp.startOp_handler (w : Warp) (f : Fin 12) (n : Nat) (b : Bool) : (w.startOp f n b).handler = w.handler := rfl
@[simp] theorem Warp.startOp_escal (w : Warp) (f : Fin 12) (n : Nat) (b : Bool) : (w.startOp f n b).escal = w.escal := rfl
@[simp] theorem Warp.startOp_frameVa (w : Warp) (f : Fin 12) (n : Nat) (b : Bool) : (w.startOp f n b).frameVa = w.frameVa := rfl
@[simp] theorem Warp.startOp_framePa (w : Warp) (f : Fin 12) (n : Nat) (b : Bool) : (w.startOp f n b).framePa = w.framePa := rfl
@[simp] theorem Warp.startOp_wins (w : Warp) (f : Fin 12) (n : Nat) (b : Bool) : (w.startOp f n b).wins = w.wins := rfl
@[simp] theorem Warp.startOp_ended (w : Warp) (f : Fin 12) (n : Nat) (b : Bool) : (w.startOp f n b).ended = w.ended := rfl
@[simp] theorem Warp.startOp_stopped (w : Warp) (f : Fin 12) (n : Nat) (b : Bool) : (w.startOp f n b).stopped = w.stopped := rfl
@[simp] theorem Warp.startOp_twin (w : Warp) (f : Fin 12) (n : Nat) (b : Bool) : (w.startOp f n b).twin = w.twin := rfl
@[simp] theorem Warp.startOp_held (w : Warp) (f : Fin 12) (n : Nat) (b : Bool) : (w.startOp f n b).held = w.held := rfl
@[simp] theorem Warp.startOp_batch (w : Warp) (f : Fin 12) (n : Nat) (b : Bool) : (w.startOp f n b).batch = w.batch := rfl
@[simp] theorem Warp.decFlag_wg (w : Warp) (f : Fin 12) : (w.decFlag f).wg = w.wg := rfl
@[simp] theorem Warp.decFlag_num (w : Warp) (f : Fin 12) : (w.decFlag f).num = w.num := rfl
@[simp] theorem Warp.decFlag_base (w : Warp) (f : Fin 12) : (w.decFlag f).base = w.base := rfl
@[simp] theorem Warp.decFlag_n (w : Warp) (f : Fin 12) : (w.decFlag f).n = w.n := rfl
@[simp] theorem Warp.decFlag_pasid (w : Warp) (f : Fin 12) : (w.decFlag f).pasid = w.pasid := rfl
@[simp] theorem Warp.decFlag_cls (w : Warp) (f : Fin 12) : (w.decFlag f).cls = w.cls := rfl
@[simp] theorem Warp.decFlag_sregs (w : Warp) (f : Fin 12) : (w.decFlag f).sregs = w.sregs := rfl
@[simp] theorem Warp.decFlag_sPois (w : Warp) (f : Fin 12) : (w.decFlag f).sPois = w.sPois := rfl
@[simp] theorem Warp.decFlag_preds (w : Warp) (f : Fin 12) : (w.decFlag f).preds = w.preds := rfl
@[simp] theorem Warp.decFlag_fflags (w : Warp) (f : Fin 12) : (w.decFlag f).fflags = w.fflags := rfl
@[simp] theorem Warp.decFlag_mflags (w : Warp) (f : Fin 12) : (w.decFlag f).mflags = w.mflags := rfl
@[simp] theorem Warp.decFlag_sbPend (w : Warp) (f : Fin 12) : (w.decFlag f).sbPend = w.sbPend := rfl
@[simp] theorem Warp.decFlag_lease (w : Warp) (f : Fin 12) : (w.decFlag f).lease = w.lease := rfl
@[simp] theorem Warp.decFlag_front (w : Warp) (f : Fin 12) : (w.decFlag f).front = w.front := rfl
@[simp] theorem Warp.decFlag_spilled (w : Warp) (f : Fin 12) : (w.decFlag f).spilled = w.spilled := rfl
@[simp] theorem Warp.decFlag_job (w : Warp) (f : Fin 12) : (w.decFlag f).job = w.job := rfl
@[simp] theorem Warp.decFlag_clause (w : Warp) (f : Fin 12) : (w.decFlag f).clause = w.clause := rfl
@[simp] theorem Warp.decFlag_resume (w : Warp) (f : Fin 12) : (w.decFlag f).resume = w.resume := rfl
@[simp] theorem Warp.decFlag_unread (w : Warp) (f : Fin 12) : (w.decFlag f).unread = w.unread := rfl
@[simp] theorem Warp.decFlag_lig (w : Warp) (f : Fin 12) : (w.decFlag f).lig = w.lig := rfl
@[simp] theorem Warp.decFlag_stall (w : Warp) (f : Fin 12) : (w.decFlag f).stall = w.stall := rfl
@[simp] theorem Warp.decFlag_yieldHold (w : Warp) (f : Fin 12) : (w.decFlag f).yieldHold = w.yieldHold := rfl
@[simp] theorem Warp.decFlag_yieldCc (w : Warp) (f : Fin 12) : (w.decFlag f).yieldCc = w.yieldCc := rfl
@[simp] theorem Warp.decFlag_last (w : Warp) (f : Fin 12) : (w.decFlag f).last = w.last := rfl
@[simp] theorem Warp.decFlag_wait (w : Warp) (f : Fin 12) : (w.decFlag f).wait = w.wait := rfl
@[simp] theorem Warp.decFlag_ops (w : Warp) (f : Fin 12) : (w.decFlag f).ops = w.ops := rfl
@[simp] theorem Warp.decFlag_posted (w : Warp) (f : Fin 12) : (w.decFlag f).posted = w.posted := rfl
@[simp] theorem Warp.decFlag_deferred (w : Warp) (f : Fin 12) : (w.decFlag f).deferred = w.deferred := rfl
@[simp] theorem Warp.decFlag_out (w : Warp) (f : Fin 12) : (w.decFlag f).out = w.out := rfl
@[simp] theorem Warp.decFlag_acqF (w : Warp) (f : Fin 12) : (w.decFlag f).acqF = w.acqF := rfl
@[simp] theorem Warp.decFlag_loadWts (w : Warp) (f : Fin 12) : (w.decFlag f).loadWts = w.loadWts := rfl
@[simp] theorem Warp.decFlag_seen (w : Warp) (f : Fin 12) : (w.decFlag f).seen = w.seen := rfl
@[simp] theorem Warp.decFlag_loadHz (w : Warp) (f : Fin 12) : (w.decFlag f).loadHz = w.loadHz := rfl
@[simp] theorem Warp.decFlag_relHz (w : Warp) (f : Fin 12) : (w.decFlag f).relHz = w.relHz := rfl
@[simp] theorem Warp.decFlag_nibRef (w : Warp) (f : Fin 12) : (w.decFlag f).nibRef = w.nibRef := rfl
@[simp] theorem Warp.decFlag_causes (w : Warp) (f : Fin 12) : (w.decFlag f).causes = w.causes := rfl
@[simp] theorem Warp.decFlag_handler (w : Warp) (f : Fin 12) : (w.decFlag f).handler = w.handler := rfl
@[simp] theorem Warp.decFlag_escal (w : Warp) (f : Fin 12) : (w.decFlag f).escal = w.escal := rfl
@[simp] theorem Warp.decFlag_frameVa (w : Warp) (f : Fin 12) : (w.decFlag f).frameVa = w.frameVa := rfl
@[simp] theorem Warp.decFlag_framePa (w : Warp) (f : Fin 12) : (w.decFlag f).framePa = w.framePa := rfl
@[simp] theorem Warp.decFlag_wins (w : Warp) (f : Fin 12) : (w.decFlag f).wins = w.wins := rfl
@[simp] theorem Warp.decFlag_ended (w : Warp) (f : Fin 12) : (w.decFlag f).ended = w.ended := rfl
@[simp] theorem Warp.decFlag_stopped (w : Warp) (f : Fin 12) : (w.decFlag f).stopped = w.stopped := rfl
@[simp] theorem Warp.decFlag_idNext (w : Warp) (f : Fin 12) : (w.decFlag f).idNext = w.idNext := rfl
@[simp] theorem Warp.decFlag_twin (w : Warp) (f : Fin 12) : (w.decFlag f).twin = w.twin := rfl
@[simp] theorem Warp.decFlag_held (w : Warp) (f : Fin 12) : (w.decFlag f).held = w.held := rfl
@[simp] theorem Warp.decFlag_batch (w : Warp) (f : Fin 12) : (w.decFlag f).batch = w.batch := rfl
@[simp] theorem Warp.modOp_wg (w : Warp) (id : Nat) (g : LongOp → LongOp) : (w.modOp id g).wg = w.wg := rfl
@[simp] theorem Warp.modOp_num (w : Warp) (id : Nat) (g : LongOp → LongOp) : (w.modOp id g).num = w.num := rfl
@[simp] theorem Warp.modOp_base (w : Warp) (id : Nat) (g : LongOp → LongOp) : (w.modOp id g).base = w.base := rfl
@[simp] theorem Warp.modOp_n (w : Warp) (id : Nat) (g : LongOp → LongOp) : (w.modOp id g).n = w.n := rfl
@[simp] theorem Warp.modOp_pasid (w : Warp) (id : Nat) (g : LongOp → LongOp) : (w.modOp id g).pasid = w.pasid := rfl
@[simp] theorem Warp.modOp_cls (w : Warp) (id : Nat) (g : LongOp → LongOp) : (w.modOp id g).cls = w.cls := rfl
@[simp] theorem Warp.modOp_sregs (w : Warp) (id : Nat) (g : LongOp → LongOp) : (w.modOp id g).sregs = w.sregs := rfl
@[simp] theorem Warp.modOp_sPois (w : Warp) (id : Nat) (g : LongOp → LongOp) : (w.modOp id g).sPois = w.sPois := rfl
@[simp] theorem Warp.modOp_preds (w : Warp) (id : Nat) (g : LongOp → LongOp) : (w.modOp id g).preds = w.preds := rfl
@[simp] theorem Warp.modOp_cflags (w : Warp) (id : Nat) (g : LongOp → LongOp) : (w.modOp id g).cflags = w.cflags := rfl
@[simp] theorem Warp.modOp_fflags (w : Warp) (id : Nat) (g : LongOp → LongOp) : (w.modOp id g).fflags = w.fflags := rfl
@[simp] theorem Warp.modOp_mflags (w : Warp) (id : Nat) (g : LongOp → LongOp) : (w.modOp id g).mflags = w.mflags := rfl
@[simp] theorem Warp.modOp_sbPend (w : Warp) (id : Nat) (g : LongOp → LongOp) : (w.modOp id g).sbPend = w.sbPend := rfl
@[simp] theorem Warp.modOp_lease (w : Warp) (id : Nat) (g : LongOp → LongOp) : (w.modOp id g).lease = w.lease := rfl
@[simp] theorem Warp.modOp_front (w : Warp) (id : Nat) (g : LongOp → LongOp) : (w.modOp id g).front = w.front := rfl
@[simp] theorem Warp.modOp_spilled (w : Warp) (id : Nat) (g : LongOp → LongOp) : (w.modOp id g).spilled = w.spilled := rfl
@[simp] theorem Warp.modOp_job (w : Warp) (id : Nat) (g : LongOp → LongOp) : (w.modOp id g).job = w.job := rfl
@[simp] theorem Warp.modOp_clause (w : Warp) (id : Nat) (g : LongOp → LongOp) : (w.modOp id g).clause = w.clause := rfl
@[simp] theorem Warp.modOp_resume (w : Warp) (id : Nat) (g : LongOp → LongOp) : (w.modOp id g).resume = w.resume := rfl
@[simp] theorem Warp.modOp_unread (w : Warp) (id : Nat) (g : LongOp → LongOp) : (w.modOp id g).unread = w.unread := rfl
@[simp] theorem Warp.modOp_lig (w : Warp) (id : Nat) (g : LongOp → LongOp) : (w.modOp id g).lig = w.lig := rfl
@[simp] theorem Warp.modOp_stall (w : Warp) (id : Nat) (g : LongOp → LongOp) : (w.modOp id g).stall = w.stall := rfl
@[simp] theorem Warp.modOp_yieldHold (w : Warp) (id : Nat) (g : LongOp → LongOp) : (w.modOp id g).yieldHold = w.yieldHold := rfl
@[simp] theorem Warp.modOp_yieldCc (w : Warp) (id : Nat) (g : LongOp → LongOp) : (w.modOp id g).yieldCc = w.yieldCc := rfl
@[simp] theorem Warp.modOp_last (w : Warp) (id : Nat) (g : LongOp → LongOp) : (w.modOp id g).last = w.last := rfl
@[simp] theorem Warp.modOp_wait (w : Warp) (id : Nat) (g : LongOp → LongOp) : (w.modOp id g).wait = w.wait := rfl
@[simp] theorem Warp.modOp_posted (w : Warp) (id : Nat) (g : LongOp → LongOp) : (w.modOp id g).posted = w.posted := rfl
@[simp] theorem Warp.modOp_deferred (w : Warp) (id : Nat) (g : LongOp → LongOp) : (w.modOp id g).deferred = w.deferred := rfl
@[simp] theorem Warp.modOp_out (w : Warp) (id : Nat) (g : LongOp → LongOp) : (w.modOp id g).out = w.out := rfl
@[simp] theorem Warp.modOp_acqF (w : Warp) (id : Nat) (g : LongOp → LongOp) : (w.modOp id g).acqF = w.acqF := rfl
@[simp] theorem Warp.modOp_loadWts (w : Warp) (id : Nat) (g : LongOp → LongOp) : (w.modOp id g).loadWts = w.loadWts := rfl
@[simp] theorem Warp.modOp_seen (w : Warp) (id : Nat) (g : LongOp → LongOp) : (w.modOp id g).seen = w.seen := rfl
@[simp] theorem Warp.modOp_loadHz (w : Warp) (id : Nat) (g : LongOp → LongOp) : (w.modOp id g).loadHz = w.loadHz := rfl
@[simp] theorem Warp.modOp_relHz (w : Warp) (id : Nat) (g : LongOp → LongOp) : (w.modOp id g).relHz = w.relHz := rfl
@[simp] theorem Warp.modOp_nibRef (w : Warp) (id : Nat) (g : LongOp → LongOp) : (w.modOp id g).nibRef = w.nibRef := rfl
@[simp] theorem Warp.modOp_causes (w : Warp) (id : Nat) (g : LongOp → LongOp) : (w.modOp id g).causes = w.causes := rfl
@[simp] theorem Warp.modOp_handler (w : Warp) (id : Nat) (g : LongOp → LongOp) : (w.modOp id g).handler = w.handler := rfl
@[simp] theorem Warp.modOp_escal (w : Warp) (id : Nat) (g : LongOp → LongOp) : (w.modOp id g).escal = w.escal := rfl
@[simp] theorem Warp.modOp_frameVa (w : Warp) (id : Nat) (g : LongOp → LongOp) : (w.modOp id g).frameVa = w.frameVa := rfl
@[simp] theorem Warp.modOp_framePa (w : Warp) (id : Nat) (g : LongOp → LongOp) : (w.modOp id g).framePa = w.framePa := rfl
@[simp] theorem Warp.modOp_wins (w : Warp) (id : Nat) (g : LongOp → LongOp) : (w.modOp id g).wins = w.wins := rfl
@[simp] theorem Warp.modOp_ended (w : Warp) (id : Nat) (g : LongOp → LongOp) : (w.modOp id g).ended = w.ended := rfl
@[simp] theorem Warp.modOp_stopped (w : Warp) (id : Nat) (g : LongOp → LongOp) : (w.modOp id g).stopped = w.stopped := rfl
@[simp] theorem Warp.modOp_idNext (w : Warp) (id : Nat) (g : LongOp → LongOp) : (w.modOp id g).idNext = w.idNext := rfl
@[simp] theorem Warp.modOp_twin (w : Warp) (id : Nat) (g : LongOp → LongOp) : (w.modOp id g).twin = w.twin := rfl
@[simp] theorem Warp.modOp_held (w : Warp) (id : Nat) (g : LongOp → LongOp) : (w.modOp id g).held = w.held := rfl
@[simp] theorem Warp.modOp_batch (w : Warp) (id : Nat) (g : LongOp → LongOp) : (w.modOp id g).batch = w.batch := rfl
@[simp] theorem Warp.addCause_wg (w : Warp) (z : Cause) : (w.addCause z).wg = w.wg := rfl
@[simp] theorem Warp.addCause_num (w : Warp) (z : Cause) : (w.addCause z).num = w.num := rfl
@[simp] theorem Warp.addCause_base (w : Warp) (z : Cause) : (w.addCause z).base = w.base := rfl
@[simp] theorem Warp.addCause_n (w : Warp) (z : Cause) : (w.addCause z).n = w.n := rfl
@[simp] theorem Warp.addCause_pasid (w : Warp) (z : Cause) : (w.addCause z).pasid = w.pasid := rfl
@[simp] theorem Warp.addCause_cls (w : Warp) (z : Cause) : (w.addCause z).cls = w.cls := rfl
@[simp] theorem Warp.addCause_sregs (w : Warp) (z : Cause) : (w.addCause z).sregs = w.sregs := rfl
@[simp] theorem Warp.addCause_sPois (w : Warp) (z : Cause) : (w.addCause z).sPois = w.sPois := rfl
@[simp] theorem Warp.addCause_preds (w : Warp) (z : Cause) : (w.addCause z).preds = w.preds := rfl
@[simp] theorem Warp.addCause_cflags (w : Warp) (z : Cause) : (w.addCause z).cflags = w.cflags := rfl
@[simp] theorem Warp.addCause_fflags (w : Warp) (z : Cause) : (w.addCause z).fflags = w.fflags := rfl
@[simp] theorem Warp.addCause_mflags (w : Warp) (z : Cause) : (w.addCause z).mflags = w.mflags := rfl
@[simp] theorem Warp.addCause_sbPend (w : Warp) (z : Cause) : (w.addCause z).sbPend = w.sbPend := rfl
@[simp] theorem Warp.addCause_lease (w : Warp) (z : Cause) : (w.addCause z).lease = w.lease := rfl
@[simp] theorem Warp.addCause_front (w : Warp) (z : Cause) : (w.addCause z).front = w.front := rfl
@[simp] theorem Warp.addCause_spilled (w : Warp) (z : Cause) : (w.addCause z).spilled = w.spilled := rfl
@[simp] theorem Warp.addCause_job (w : Warp) (z : Cause) : (w.addCause z).job = w.job := rfl
@[simp] theorem Warp.addCause_clause (w : Warp) (z : Cause) : (w.addCause z).clause = w.clause := rfl
@[simp] theorem Warp.addCause_resume (w : Warp) (z : Cause) : (w.addCause z).resume = w.resume := rfl
@[simp] theorem Warp.addCause_unread (w : Warp) (z : Cause) : (w.addCause z).unread = w.unread := rfl
@[simp] theorem Warp.addCause_lig (w : Warp) (z : Cause) : (w.addCause z).lig = w.lig := rfl
@[simp] theorem Warp.addCause_stall (w : Warp) (z : Cause) : (w.addCause z).stall = w.stall := rfl
@[simp] theorem Warp.addCause_yieldHold (w : Warp) (z : Cause) : (w.addCause z).yieldHold = w.yieldHold := rfl
@[simp] theorem Warp.addCause_yieldCc (w : Warp) (z : Cause) : (w.addCause z).yieldCc = w.yieldCc := rfl
@[simp] theorem Warp.addCause_last (w : Warp) (z : Cause) : (w.addCause z).last = w.last := rfl
@[simp] theorem Warp.addCause_wait (w : Warp) (z : Cause) : (w.addCause z).wait = w.wait := rfl
@[simp] theorem Warp.addCause_ops (w : Warp) (z : Cause) : (w.addCause z).ops = w.ops := rfl
@[simp] theorem Warp.addCause_posted (w : Warp) (z : Cause) : (w.addCause z).posted = w.posted := rfl
@[simp] theorem Warp.addCause_deferred (w : Warp) (z : Cause) : (w.addCause z).deferred = w.deferred := rfl
@[simp] theorem Warp.addCause_out (w : Warp) (z : Cause) : (w.addCause z).out = w.out := rfl
@[simp] theorem Warp.addCause_acqF (w : Warp) (z : Cause) : (w.addCause z).acqF = w.acqF := rfl
@[simp] theorem Warp.addCause_loadWts (w : Warp) (z : Cause) : (w.addCause z).loadWts = w.loadWts := rfl
@[simp] theorem Warp.addCause_seen (w : Warp) (z : Cause) : (w.addCause z).seen = w.seen := rfl
@[simp] theorem Warp.addCause_loadHz (w : Warp) (z : Cause) : (w.addCause z).loadHz = w.loadHz := rfl
@[simp] theorem Warp.addCause_relHz (w : Warp) (z : Cause) : (w.addCause z).relHz = w.relHz := rfl
@[simp] theorem Warp.addCause_nibRef (w : Warp) (z : Cause) : (w.addCause z).nibRef = w.nibRef := rfl
@[simp] theorem Warp.addCause_handler (w : Warp) (z : Cause) : (w.addCause z).handler = w.handler := rfl
@[simp] theorem Warp.addCause_escal (w : Warp) (z : Cause) : (w.addCause z).escal = w.escal := rfl
@[simp] theorem Warp.addCause_frameVa (w : Warp) (z : Cause) : (w.addCause z).frameVa = w.frameVa := rfl
@[simp] theorem Warp.addCause_framePa (w : Warp) (z : Cause) : (w.addCause z).framePa = w.framePa := rfl
@[simp] theorem Warp.addCause_wins (w : Warp) (z : Cause) : (w.addCause z).wins = w.wins := rfl
@[simp] theorem Warp.addCause_ended (w : Warp) (z : Cause) : (w.addCause z).ended = w.ended := rfl
@[simp] theorem Warp.addCause_stopped (w : Warp) (z : Cause) : (w.addCause z).stopped = w.stopped := rfl
@[simp] theorem Warp.addCause_idNext (w : Warp) (z : Cause) : (w.addCause z).idNext = w.idNext := rfl
@[simp] theorem Warp.addCause_twin (w : Warp) (z : Cause) : (w.addCause z).twin = w.twin := rfl
@[simp] theorem Warp.addCause_held (w : Warp) (z : Cause) : (w.addCause z).held = w.held := rfl
@[simp] theorem Warp.addCause_batch (w : Warp) (z : Cause) : (w.addCause z).batch = w.batch := rfl
@[simp] theorem Warp.addOut_wg (w : Warp) (o : OutAcc) (n : Nat) : (w.addOut o n).wg = w.wg := rfl
@[simp] theorem Warp.addOut_num (w : Warp) (o : OutAcc) (n : Nat) : (w.addOut o n).num = w.num := rfl
@[simp] theorem Warp.addOut_base (w : Warp) (o : OutAcc) (n : Nat) : (w.addOut o n).base = w.base := rfl
@[simp] theorem Warp.addOut_n (w : Warp) (o : OutAcc) (n : Nat) : (w.addOut o n).n = w.n := rfl
@[simp] theorem Warp.addOut_pasid (w : Warp) (o : OutAcc) (n : Nat) : (w.addOut o n).pasid = w.pasid := rfl
@[simp] theorem Warp.addOut_cls (w : Warp) (o : OutAcc) (n : Nat) : (w.addOut o n).cls = w.cls := rfl
@[simp] theorem Warp.addOut_sregs (w : Warp) (o : OutAcc) (n : Nat) : (w.addOut o n).sregs = w.sregs := rfl
@[simp] theorem Warp.addOut_sPois (w : Warp) (o : OutAcc) (n : Nat) : (w.addOut o n).sPois = w.sPois := rfl
@[simp] theorem Warp.addOut_preds (w : Warp) (o : OutAcc) (n : Nat) : (w.addOut o n).preds = w.preds := rfl
@[simp] theorem Warp.addOut_cflags (w : Warp) (o : OutAcc) (n : Nat) : (w.addOut o n).cflags = w.cflags := rfl
@[simp] theorem Warp.addOut_fflags (w : Warp) (o : OutAcc) (n : Nat) : (w.addOut o n).fflags = w.fflags := rfl
@[simp] theorem Warp.addOut_mflags (w : Warp) (o : OutAcc) (n : Nat) : (w.addOut o n).mflags = w.mflags := rfl
@[simp] theorem Warp.addOut_sbPend (w : Warp) (o : OutAcc) (n : Nat) : (w.addOut o n).sbPend = w.sbPend := rfl
@[simp] theorem Warp.addOut_lease (w : Warp) (o : OutAcc) (n : Nat) : (w.addOut o n).lease = w.lease := rfl
@[simp] theorem Warp.addOut_front (w : Warp) (o : OutAcc) (n : Nat) : (w.addOut o n).front = w.front := rfl
@[simp] theorem Warp.addOut_spilled (w : Warp) (o : OutAcc) (n : Nat) : (w.addOut o n).spilled = w.spilled := rfl
@[simp] theorem Warp.addOut_job (w : Warp) (o : OutAcc) (n : Nat) : (w.addOut o n).job = w.job := rfl
@[simp] theorem Warp.addOut_clause (w : Warp) (o : OutAcc) (n : Nat) : (w.addOut o n).clause = w.clause := rfl
@[simp] theorem Warp.addOut_resume (w : Warp) (o : OutAcc) (n : Nat) : (w.addOut o n).resume = w.resume := rfl
@[simp] theorem Warp.addOut_unread (w : Warp) (o : OutAcc) (n : Nat) : (w.addOut o n).unread = w.unread := rfl
@[simp] theorem Warp.addOut_lig (w : Warp) (o : OutAcc) (n : Nat) : (w.addOut o n).lig = w.lig := rfl
@[simp] theorem Warp.addOut_stall (w : Warp) (o : OutAcc) (n : Nat) : (w.addOut o n).stall = w.stall := rfl
@[simp] theorem Warp.addOut_yieldHold (w : Warp) (o : OutAcc) (n : Nat) : (w.addOut o n).yieldHold = w.yieldHold := rfl
@[simp] theorem Warp.addOut_yieldCc (w : Warp) (o : OutAcc) (n : Nat) : (w.addOut o n).yieldCc = w.yieldCc := rfl
@[simp] theorem Warp.addOut_last (w : Warp) (o : OutAcc) (n : Nat) : (w.addOut o n).last = w.last := rfl
@[simp] theorem Warp.addOut_wait (w : Warp) (o : OutAcc) (n : Nat) : (w.addOut o n).wait = w.wait := rfl
@[simp] theorem Warp.addOut_ops (w : Warp) (o : OutAcc) (n : Nat) : (w.addOut o n).ops = w.ops := rfl
@[simp] theorem Warp.addOut_posted (w : Warp) (o : OutAcc) (n : Nat) : (w.addOut o n).posted = w.posted := rfl
@[simp] theorem Warp.addOut_deferred (w : Warp) (o : OutAcc) (n : Nat) : (w.addOut o n).deferred = w.deferred := rfl
@[simp] theorem Warp.addOut_acqF (w : Warp) (o : OutAcc) (n : Nat) : (w.addOut o n).acqF = w.acqF := rfl
@[simp] theorem Warp.addOut_loadWts (w : Warp) (o : OutAcc) (n : Nat) : (w.addOut o n).loadWts = w.loadWts := rfl
@[simp] theorem Warp.addOut_seen (w : Warp) (o : OutAcc) (n : Nat) : (w.addOut o n).seen = w.seen := rfl
@[simp] theorem Warp.addOut_loadHz (w : Warp) (o : OutAcc) (n : Nat) : (w.addOut o n).loadHz = w.loadHz := rfl
@[simp] theorem Warp.addOut_relHz (w : Warp) (o : OutAcc) (n : Nat) : (w.addOut o n).relHz = w.relHz := rfl
@[simp] theorem Warp.addOut_nibRef (w : Warp) (o : OutAcc) (n : Nat) : (w.addOut o n).nibRef = w.nibRef := rfl
@[simp] theorem Warp.addOut_causes (w : Warp) (o : OutAcc) (n : Nat) : (w.addOut o n).causes = w.causes := rfl
@[simp] theorem Warp.addOut_handler (w : Warp) (o : OutAcc) (n : Nat) : (w.addOut o n).handler = w.handler := rfl
@[simp] theorem Warp.addOut_escal (w : Warp) (o : OutAcc) (n : Nat) : (w.addOut o n).escal = w.escal := rfl
@[simp] theorem Warp.addOut_frameVa (w : Warp) (o : OutAcc) (n : Nat) : (w.addOut o n).frameVa = w.frameVa := rfl
@[simp] theorem Warp.addOut_framePa (w : Warp) (o : OutAcc) (n : Nat) : (w.addOut o n).framePa = w.framePa := rfl
@[simp] theorem Warp.addOut_wins (w : Warp) (o : OutAcc) (n : Nat) : (w.addOut o n).wins = w.wins := rfl
@[simp] theorem Warp.addOut_ended (w : Warp) (o : OutAcc) (n : Nat) : (w.addOut o n).ended = w.ended := rfl
@[simp] theorem Warp.addOut_stopped (w : Warp) (o : OutAcc) (n : Nat) : (w.addOut o n).stopped = w.stopped := rfl
@[simp] theorem Warp.addOut_idNext (w : Warp) (o : OutAcc) (n : Nat) : (w.addOut o n).idNext = w.idNext := rfl
@[simp] theorem Warp.addOut_twin (w : Warp) (o : OutAcc) (n : Nat) : (w.addOut o n).twin = w.twin := rfl
@[simp] theorem Warp.addOut_held (w : Warp) (o : OutAcc) (n : Nat) : (w.addOut o n).held = w.held := rfl
@[simp] theorem Warp.addOut_batch (w : Warp) (o : OutAcc) (n : Nat) : (w.addOut o n).batch = w.batch := rfl

/-! ### What an update changes -/

theorem State.core_setCore_same (s : State) {c : Nat} (k : Core) (h : c < 384) : (s.setCore c k).core c = k := by
  simp [State.core, State.setCore, h]
theorem State.core_setCore_ne (s : State) {c i : Nat} (k : Core) (h : i ≠ c) : (s.setCore c k).core i = s.core i := by
  simp [State.core, State.setCore, Vector.getElem?_setIfInBounds_ne (Ne.symm h)]
theorem State.core_modCore_same (s : State) {c : Nat} (f : Core → Core) (h : c < 384) :
    (s.modCore c f).core c = f (s.core c) := State.core_setCore_same s _ h
theorem State.core_modCore_ne (s : State) {c i : Nat} (f : Core → Core) (h : i ≠ c) : (s.modCore c f).core i = s.core i :=
  State.core_setCore_ne s _ h
@[simp] theorem State.die_modCore (s : State) (c d : Nat) (f : Core → Core) : (s.modCore c f).die d = s.die d := rfl
@[simp] theorem State.die_modWarp (s : State) (c w d : Nat) (f : Warp → Warp) : (s.modWarp c w f).die d = s.die d := rfl
@[simp] theorem State.core_modDie (s : State) (c d : Nat) (f : Die → Die) : (s.modDie d f).core c = s.core c := rfl
theorem State.die_modDie_same (s : State) {d : Nat} (f : Die → Die) (h : d < 4) : (s.modDie d f).die d = f (s.die d) := by
  simp [State.die, State.modDie, State.setDie, h]
theorem State.die_modDie_ne (s : State) {d i : Nat} (f : Die → Die) (h : i ≠ d) : (s.modDie d f).die i = s.die i := by
  simp [State.die, State.modDie, State.setDie, Vector.getElem?_setIfInBounds_ne (Ne.symm h)]

theorem Core.warp?_setWarp_same (k : Core) {w : Nat} (x : Option Warp) (h : w < 32) : (k.setWarp w x).warp? w = x := by
  simp [Core.warp?, Core.setWarp, h]
theorem Core.warp?_setWarp_ne (k : Core) {w i : Nat} (x : Option Warp) (h : i ≠ w) : (k.setWarp w x).warp? i = k.warp? i := by
  simp [Core.warp?, Core.setWarp, Vector.getElem?_setIfInBounds_ne (Ne.symm h)]
theorem Core.warp?_lt {k : Core} {w : Nat} {x : Warp} (h : k.warp? w = some x) : w < 32 := by
  by_cases hw : w < 32
  · exact hw
  · simp [Core.warp?, Vector.getElem?_eq_none (Nat.le_of_not_lt hw)] at h
theorem Core.warp?_modWarp_same (k : Core) (w : Nat) (f : Warp → Warp) : (k.modWarp w f).warp? w = (k.warp? w).map f := by
  by_cases h : w < 32
  · exact Core.warp?_setWarp_same k _ h
  · simp [Core.modWarp, Core.warp?, Core.setWarp, Vector.getElem?_eq_none (Nat.le_of_not_lt h)]
theorem Core.warp?_modWarp_ne (k : Core) {w i : Nat} (f : Warp → Warp) (h : i ≠ w) : (k.modWarp w f).warp? i = k.warp? i :=
  Core.warp?_setWarp_ne k _ h
theorem State.warp?_modWarp_same (s : State) {c : Nat} (w : Nat) (f : Warp → Warp) (h : c < 384) :
    (s.modWarp c w f).warp? c w = (s.warp? c w).map f := by
  simp [State.warp?, State.modWarp, State.core_modCore_same s _ h, Core.warp?_modWarp_same]
theorem Core.wg?_modWg_same (k : Core) (id : Nat) (f : Wg → Wg) (hf : ∀ g, (f g).id = g.id) :
    (k.modWg id f).wg? id = (k.wg? id).map f := find_updFirst _ f (fun x => by simp [hf]) k.wgs
@[simp] theorem Core.rfPut_rf (k : Core) (i : Nat) (v : Word) (p : Bool) (j : Nat) :
    tabGet 0#32 (k.rfPut i v p).rf j = if j = i then v else tabGet 0#32 k.rf j := tabGet_tabSet 0#32 k.rf i j v
@[simp] theorem Core.rfPut_pois (k : Core) (i : Nat) (v : Word) (p : Bool) (j : Nat) :
    setHas (k.rfPut i v p).rfPois j = if j = i then p else setHas k.rfPois j := setHas_setPut k.rfPois i j p
theorem Warp.sreg_sput (w : Warp) {n : Nat} (v : Dword) (p : Bool) (m : Nat) (h : n < 64) :
    (w.sput n v p).sreg m = if m = n then v else w.sreg m := by
  by_cases hm : m = n
  · subst hm; simp [Warp.sreg, Warp.sput, h]
  · simp [Warp.sreg, Warp.sput, Vector.getElem?_setIfInBounds_ne (Ne.symm hm), hm]

end Sys2Proof.Machine
end

