-- ==== Sys2Proof/Laws/Run.lean ====
section
/-! SUPPORT. What the shared operations of warp instructions do: the frame of R61, taking a trap, the end of a word, and
writing a destination. -/

namespace Sys2Proof.Machine

/-! ### The issuing warp -/

/-- What the context of the issuing warp holds. -/
theorem ctxOf_spec {s : State} {c : Ctl} {k : Ctx} (h : ctxOf s c = some k) :
    k.s = s ∧ s.cur = (k.ci, k.wi) ∧ k.ci < 384 ∧ k.k = s.core k.ci ∧ s.warp? k.ci k.wi = some k.w ∧ k.g = k.k.wgOf k.w
      ∧ k.w.front.head? = some k.e ∧ k.act = activeMask k.w k.e c ∧ k.pops = [] := by
  rcases hc : s.cur with ⟨ci, wi⟩
  simp only [ctxOf, hc] at h
  split at h
  · cases h
  · next w hw =>
    split at h
    · cases h
    · next e es he =>
      split at hw
      · next hlt => cases h; exact ⟨rfl, rfl, hlt, rfl, hw, rfl, by simp [he], rfl, rfl⟩
      · cases hw

/-! ### The frame of R61 -/

/-- A word that runs undisturbed comes to what its body answers. -/
theorem runInstr_ready {s : State} {c : Ctl} {sc long : Bool} {opds : List Opd} {k : Ctx} (h : Ready s c sc long opds k)
    (body : Ctx → Res) : runInstr s c sc long opds body = wordDone k c (body (k.popped opds)) := by
  simp [runInstr, h.issuer, h.fate, h.free, h.pairs, h.clean]

/-- EVERYTHING that a word can come to: no issuer, a trap of the frame, a hold, or its body's answer. -/
theorem runInstr_cases (s : State) (c : Ctl) (sc long : Bool) (opds : List Opd) (body : Ctx → Res) :
    (ctxOf s c = none ∧ runInstr s c sc long opds body = .fault .noIssuer) ∨
    ∃ k, ctxOf s c = some k ∧
      ((∃ z, runInstr s c sc long opds body = wordCause k c z) ∨
       runInstr s c sc long opds body = .next s ∨
       (Ready s c sc long opds k ∧ runInstr s c sc long opds body = wordDone k c (body (k.popped opds)))) := by
  cases hk : ctxOf s c with
  | none => exact .inl ⟨rfl, by simp [runInstr, hk]⟩
  | some k =>
    refine .inr ⟨k, rfl, ?_⟩
    cases hf : wordFate k c sc long opds with
    | some code => exact .inl ⟨_, by simp only [runInstr, hk, hf]; rfl⟩
    | none =>
      cases hh : wordHeld k c long opds with
      | true => exact .inr (.inl (by simp [runInstr, hk, hf, hh]))
      | false =>
        by_cases hp : wordPairs k opds = 0#32
        · by_cases hq : wordPoison (k.popped opds) sc opds = 0#32
          · have hr : Ready s c sc long opds k := ⟨hk, hf, hh, hp, hq⟩
            exact .inr (.inr ⟨hr, runInstr_ready hr body⟩)
          · exact .inl ⟨_, by simp only [runInstr, hk, hf, hh]; simp [hp, hq]; rfl⟩
        · exact .inl ⟨_, by simp only [runInstr, hk, hf, hh]; simp [hp]; rfl⟩

/-- An instruction with one destination gives `aluNext`. -/
theorem runInstr_alu {s : State} {c : Ctl} {sc : Bool} {opds : List Opd} {k : Ctx} (h : Ready s c sc false opds k)
    (t : Ty) (d : Reg) (f : Ctx → Nat → Int × Flags5) :
    runInstr s c sc false opds (perLaneOp t d f) = .next (aluNext k c opds t d f) := runInstr_ready h _

/-! ### The pops of the operands (R43) -/

/-- The pops change only the queues of the warp's workgroup. -/
theorem popped_rest (k : Ctx) (opds : List Opd) : { (k.popped opds).s with cores := k.s.cores } = k.s := by
  cases hg : k.g <;> simp only [Ctx.popped, Ctx.at_, hg] <;> rfl
theorem popped_core_ne (k : Ctx) (opds : List Opd) {i : Nat} (h : i ≠ k.ci) : (k.popped opds).s.core i = k.s.core i := by
  cases hg : k.g <;> simp only [Ctx.popped, Ctx.at_, hg]
  exact State.core_modCore_ne _ _ h
theorem popped_core (k : Ctx) (opds : List Opd) :
    { (k.popped opds).s.core k.ci with wgs := (k.s.core k.ci).wgs } = k.s.core k.ci := by
  cases hg : k.g <;> simp only [Ctx.popped, Ctx.at_, hg]
  by_cases hc : k.ci < 384
  · rw [State.core_modCore_same _ _ hc]; rfl
  · simp [State.core, State.modCore, State.setCore, Vector.setIfInBounds_eq_of_size_le (Nat.le_of_not_lt hc)]
@[simp] theorem popped_ci (k : Ctx) (opds : List Opd) : (k.popped opds).ci = k.ci := by
  cases hg : k.g <;> simp only [Ctx.popped, Ctx.at_, hg]
@[simp] theorem popped_wi (k : Ctx) (opds : List Opd) : (k.popped opds).wi = k.wi := by
  cases hg : k.g <;> simp only [Ctx.popped, Ctx.at_, hg]
@[simp] theorem popped_e (k : Ctx) (opds : List Opd) : (k.popped opds).e = k.e := by
  cases hg : k.g <;> simp only [Ctx.popped, Ctx.at_, hg]
@[simp] theorem popped_act (k : Ctx) (opds : List Opd) : (k.popped opds).act = k.act := by
  cases hg : k.g <;> simp only [Ctx.popped, Ctx.at_, hg]
theorem popped_warp? (k : Ctx) (opds : List Opd) (j : Nat) : (k.popped opds).s.warp? k.ci j = k.s.warp? k.ci j := by
  have h := congrArg Core.warps (popped_core k opds)
  simp only at h
  simp only [State.warp?, Core.warp?, h]
theorem popped_w {s : State} {c : Ctl} {k : Ctx} (h : ctxOf s c = some k) (opds : List Opd) : (k.popped opds).w = k.w := by
  obtain ⟨hs, -, -, hk, hw, -⟩ := ctxOf_spec h
  have e := popped_warp? k opds k.wi
  rw [hs, hw] at e
  cases hg : k.g <;> simp only [Ctx.popped, Ctx.at_, hg] at e ⊢
  · rw [show ((k.s.core k.ci).warp? k.wi) = some k.w from e]; rfl
  · rw [show ((_ : State).core k.ci).warp? k.wi = some k.w from e]; rfl
theorem popped_none {s : State} {c : Ctl} {k : Ctx} (h : ctxOf s c = some k) {opds : List Opd} (hq : popsOf opds = []) :
    (k.popped opds).k.rf = k.k.rf ∧ (k.popped opds).pops = [] := by
  obtain ⟨hs, -, -, hk, hw, -⟩ := ctxOf_spec h
  have e : ((k.popped opds).s.core k.ci).rf = (k.s.core k.ci).rf := by
    have h := congrArg Core.rf (popped_core k opds)
    exact h
  rw [hk, ← hs, ← e]
  cases hg : k.g <;> simp [Ctx.popped, Ctx.at_, hg, hq]

/-! ### The end of a word -/

theorem issued_rest (s : State) (ci wi : Nat) (c : Ctl) : { issued s ci wi c with cores := s.cores } = s := rfl
theorem wordEnd_rest (s : State) (ci wi : Nat) (c : Ctl) : { wordEnd s ci wi c with cores := s.cores } = s := rfl
theorem wordEnd_core_ne (s : State) {ci : Nat} (wi : Nat) (c : Ctl) {i : Nat} (h : i ≠ ci) :
    (wordEnd s ci wi c).core i = s.core i := by
  rw [wordEnd, State.modWarp, State.core_modCore_ne _ _ h, issued, State.core_modCore_ne _ _ h]
/-- The end of a word changes only the warps of the core and its records of the issues. -/
theorem wordEnd_core (s : State) {ci : Nat} (wi : Nat) (c : Ctl) (h : ci < 384) :
    { (wordEnd s ci wi c).core ci with warps := (s.core ci).warps, issues := (s.core ci).issues, pHist := (s.core ci).pHist } = s.core ci
      ∧ ((wordEnd s ci wi c).core ci).issues = (s.core ci).issues + 1 := by
  rw [wordEnd, State.modWarp, State.core_modCore_same _ _ h, issued, State.core_modCore_same _ _ h]
  generalize s.core ci = k
  cases k
  exact ⟨rfl, rfl⟩
theorem wordEnd_other (s : State) {ci wi j : Nat} (c : Ctl) (h : ci < 384) (hj : j ≠ wi) :
    (wordEnd s ci wi c).warp? ci j = (s.warp? ci j).map (Warp.unhold wi) := by
  rw [State.warp?, wordEnd, State.modWarp, State.core_modCore_same _ _ h, Core.warp?_modWarp_ne _ _ hj, issued,
    State.core_modCore_same _ _ h, Core.warp?_modWarp_ne _ _ hj]
  simp only [Core.warp?, State.warp?, Vector.getElem?_map]
  cases (s.core ci).warps[j]? <;> rfl
/-- The warp that has issued: the next place, and the marks of its issue. -/
theorem wordEnd_warp (s : State) {ci wi : Nat} (c : Ctl) {w : Warp} (h : ci < 384) (hw : s.warp? ci wi = some w) :
    ∃ y, (wordEnd s ci wi c).warp? ci wi =
      some ({ w with stall := c.stall != 0, last := some ((s.core ci).issues + 1), yieldHold := y } : Warp).advance := by
  rw [State.warp?, wordEnd, State.modWarp, State.core_modCore_same _ _ h, Core.warp?_modWarp_same, issued,
    State.core_modCore_same _ _ h, Core.warp?_modWarp_same]
  have e : ((s.core ci).warps[wi]?).getD none = some w := hw
  have hm (hs) : (({ s.core ci with issues := (s.core ci).issues + 1, warps := (s.core ci).warps.map fun x => x.map (Warp.unhold wi), pHist := hs } : Core).warp? wi)
      = some (Warp.unhold wi w) := by
    simp only [Core.warp?, Vector.getElem?_map]
    cases hx : (s.core ci).warps[wi]? with
    | none => simp [hx] at e
    | some x => simp [hx] at e; simp [e]
  rw [hm]
  simp only [Option.map_some]
  unfold Warp.unhold
  split <;> exact ⟨_, rfl⟩

/-- A transfer that runs comes to what its body answers. -/
theorem runTransfer_ready {s : State} {c : Ctl} {sc : Bool} {opds : List Opd} {k : Ctx} (h : ReadyTransfer s c sc opds k)
    (body : Ctx → Res) : runTransfer s c sc opds body = wordDone k c (body (k.popped opds)) := by
  have hw : (k.popped opds).w.lig.on = false := by rw [popped_w h.ready.issuer]; exact h.noLig
  simp [runTransfer, h.ready.issuer, h.last, runInstr_ready h.ready, hw]

end Sys2Proof.Machine
end

