-- ==== Sys2Proof/Laws/Access.lean ====
section
/-! SUPPORT. The words that make accesses: each is the frame of R61 around the same operation, and what that operation comes
to. -/

namespace Sys2Proof.Machine

/-- A word that makes accesses is `runAccess` of its shape in the frame of R61. -/
theorem exec_memShape {i : Instr} {m : MemShape} (h : memShape i = some m) (s : State) :
    exec i s = runInstr s m.c m.scalar m.long m.opds fun k =>
      runAccess m.c m.kind m.ty m.sp m.ord m.sc m.long (m.lanes k) (m.res k) := by
  cases i <;> simp only [memShape, Option.some.injEq, reduceCtorEq] at h <;> subst h <;> rfl

/-- No lane, no access. -/
theorem runAccess_none (c : Ctl) (kind : AccKind) (t : Ty) (sp : Bool) (ord : Order) (sc : Scope) (long : Bool) (k : Ctx) :
    runAccess c kind t sp ord sc long [] k = .ok k.s := rfl

/-- The lanes whose address is not a multiple of their size. -/
def misLanes (kind : AccKind) (lanes : List LaneAcc) : List LaneAcc :=
  match kind with
  | .cwb _ => []
  | _ => lanes.filter fun l => l.va.toNat % l.size != 0
/-- The access of a line, as `runAccess` makes it. -/
def lineAcc (kind : AccKind) (t : Ty) (sp : Bool) (ord : Order) (sc : Scope) (long : Bool) (k : Ctx) (ls : List LaneAcc) : Access :=
  ⟨if long then k.w.idNext + 1 else k.w.idNext, .lsu k.wi, kind, k.w.pasid, k.wi == 31, sp, k.w.here.1, k.w.here.2, t, ord, sc,
    k.w.lease, if long then some k.w.idNext else none, ls⟩

theorem runAccess_eq (c : Ctl) (kind : AccKind) (t : Ty) (sp : Bool) (ord : Order) (sc : Scope) (long : Bool) (lanes : List LaneAcc)
    (k : Ctx) (hl : lanes ≠ []) :
    runAccess c kind t sp ord sc long lanes k =
      if !(misLanes kind lanes).isEmpty then
        match lowestCause k ((misLanes kind lanes).map fun l => (cMisaligned, l.lane, l.va)) with
        | some z => .trap z
        | none => .hold
      else
        let accs := groupLines (lineAcc kind t sp ord sc long k) lanes
        let r := lookups k.ci k.g k.s accs
        match lowestCause k ((r.2.map fun e => badLanes e.2).foldl (· ++ ·) []) with
        | some z => .trap z
        | none => if twinFull r.1 k r.2 then .hold else .ok (startAccesses c long (if long then k.w.idNext + 1 else k.w.idNext) accs.length k r.2 r.1) := by
  have h1 : lanes.isEmpty = false := by cases lanes <;> simp_all
  unfold runAccess
  simp only [h1, Bool.false_eq_true, if_false]
  rfl

/-- Reserving a queue entry changes only the state and the core. -/
theorem memShape_res {i m} (h : memShape i = some m) (k : Ctx) : (m.res k).w = k.w ∧ (m.res k).wi = k.wi ∧ (m.res k).ci = k.ci ∧ (m.res k).act = k.act := by
  cases i <;> simp only [memShape, Option.some.injEq, reduceCtorEq] at h <;> subst h <;> first
   | exact ⟨rfl, rfl, rfl, rfl⟩
   | (simp only [Ctx.reserve]; split <;> exact ⟨rfl, rfl, rfl, rfl⟩)
/-- Accesses that pass have no failing lane. -/
theorem foldl_badLanes (fs : List (Access × Found)) (h : ∀ e ∈ fs, badLanes e.2 = []) :
  (fs.map fun e => badLanes e.2).foldl (· ++ ·) ([] : List (Nat × Nat × Dword)) = [] := by
  induction fs with
  | nil => rfl
  | cons e t ih => 
    have := h e (by simp)
    have := ih (fun e he => h e (by simp [he]))
    simp only [List.map_cons, List.foldl_cons]
    simp_all
/-- No active lane, no access. -/
theorem memShape_lanes_none {i m} (h : memShape i = some m) (k : Ctx) (ha : k.act = 0#32) : m.lanes k = [] := by
  have h0 : lanesOf 0#32 = [] := by decide
  cases i <;> simp only [memShape, Option.some.injEq, reduceCtorEq] at h <;> subst h <;> simp [onceLanes, atomrLanes, ha, h0, combine]
/-- The accesses of a word are those that `runAccess` makes. -/
theorem memShape_accs {i m} (h : memShape i = some m) (k : Ctx) : m.accs k = groupLines (lineAcc m.kind m.ty m.sp m.ord m.sc m.long (m.res k)) (m.lanes k) := by
  obtain ⟨h1, h2, -, -⟩ := memShape_res h k
  unfold MemShape.accs
  congr 1
  funext ls
  simp [lineAcc, h1, h2]
theorem misLanes_nil {kind : AccKind} {l} (h : (∀ f, kind ≠ .cwb f) → ∀ x ∈ l, x.va.toNat % x.size = 0) : misLanes kind l = [] := by
  unfold misLanes
  split
  · rfl
  · rename_i h2
    have := h (fun f hf => h2 f hf)
    simpa using this

end Sys2Proof.Machine
end

