-- ==== Sys2Proof/Laws/Encode.lean ====
section
/-! SUPPORT. Laws of the encoding: the fields of a word and back, register numbers and codes and back, and what the decoder
answers for a word written from fields. -/

namespace Sys2Proof

/-! ### Bits of appended fields -/

theorem ext_right {m n : Nat} (a : BitVec m) (b : BitVec n) (s k : Nat) (h : s + k ≤ n) :
    (a ++ b).extractLsb' s k = b.extractLsb' s k := by
  ext i hi
  simp only [BitVec.getElem_extractLsb', BitVec.getLsbD_append]
  rw [if_pos (by omega)]
theorem ext_left {m n : Nat} (a : BitVec m) (b : BitVec n) (s k : Nat) (h : n ≤ s) :
    (a ++ b).extractLsb' s k = a.extractLsb' (s - n) k := by
  ext i hi
  simp only [BitVec.getElem_extractLsb', BitVec.getLsbD_append]
  rw [if_neg (by omega)]
  congr 1; omega
theorem ext_self {n : Nat} (b : BitVec n) : b.extractLsb' 0 n = b := by
  ext i hi; simp
theorem ext_zero {n s k : Nat} : (0#n).extractLsb' s k = 0#k := by
  ext i hi; simp
theorem bit_right {m n : Nat} (a : BitVec m) (b : BitVec n) (s : Nat) (h : s < n) : (a ++ b).getLsbD s = b.getLsbD s := by
  simp [BitVec.getLsbD_append, h]
theorem bit_left {m n : Nat} (a : BitVec m) (b : BitVec n) (s : Nat) (h : n ≤ s) :
    (a ++ b).getLsbD s = a.getLsbD (s - n) := by
  simp [BitVec.getLsbD_append, Nat.not_lt.mpr h]
theorem bit_bool (b : Bool) : (BitVec.ofBool b).getLsbD 0 = b := by simp
theorem ext_bool (b : Bool) : (BitVec.ofBool b).extractLsb' 0 1 = BitVec.ofBool b := ext_self _

/-! ### Widened fields, as appended zeros -/

theorem sw_append {n : Nat} (k m : Nat) (x : BitVec n) (h : m = k + n) : x.setWidth m = (0#k ++ x).cast h.symm := by
  subst h
  ext i hi
  simp only [BitVec.getElem_setWidth, BitVec.getElem_cast, BitVec.getElem_append, BitVec.getElem_zero]
  split
  · simp [*]
  · exact BitVec.getLsbD_of_ge _ _ (by omega)
theorem sw5 (x : BitVec 5) : x.setWidth 32 = 0#27 ++ x := sw_append 27 32 x rfl
theorem sw6 (x : BitVec 6) : x.setWidth 32 = 0#26 ++ x := sw_append 26 32 x rfl
theorem sw8 (x : BitVec 8) : x.setWidth 32 = 0#24 ++ x := sw_append 24 32 x rfl
theorem sw10 (x : BitVec 10) : x.setWidth 32 = 0#22 ++ x := sw_append 22 32 x rfl
theorem sw12 (x : BitVec 12) : x.setWidth 32 = 0#20 ++ x := sw_append 20 32 x rfl
theorem sw16 (x : BitVec 16) : x.setWidth 32 = 0#16 ++ x := sw_append 16 32 x rfl
theorem sw20 (x : BitVec 20) : x.setWidth 32 = 0#12 ++ x := sw_append 12 32 x rfl
theorem sw_low10 (x : BitVec 10) : (0#22 ++ x).setWidth 10 = x := by
  ext i hi
  rw [BitVec.getElem_setWidth, bit_right _ _ _ hi, BitVec.getLsbD_eq_getElem hi]
theorem of6_4 (k : Fin 4) : BitVec.ofNat 6 k.val = 0#4 ++ BitVec.ofNat 2 k.val := by revert k; decide
theorem of32_4 (k : Fin 4) : BitVec.ofNat 32 k.val = 0#30 ++ BitVec.ofNat 2 k.val := by revert k; decide
theorem of32_16 (k : Fin 16) : BitVec.ofNat 32 k.val = 0#28 ++ BitVec.ofNat 4 k.val := by revert k; decide

/-! ### Numbers and codes -/

@[simp] theorem Reg.ofNum_num (r : Reg) : Reg.ofNum r.num = r := by
  have hv : ∀ n : Fin 768, Reg.ofNum (Reg.v n).num = .v n := by
    intro n
    have e : (Reg.v n).num.toNat = n.val := by simp [Reg.num]; omega
    simp [Reg.ofNum, e]
  cases r with
  | v n => exact hv n
  | s n => revert n; decide
  | q n => revert n; decide
  | qr n => revert n; decide
  | sp n => revert n; decide
  | p n => revert n; decide
  | bad n => revert n; decide
@[simp] theorem Ty.ofCode_code (t : Ty) : Ty.ofCode t.code = some t := by cases t <;> rfl
@[simp] theorem Rm.ofCode_code (t : Rm) : Rm.ofCode t.code = some t := by cases t <;> rfl
@[simp] theorem Scope.ofCode_code (t : Scope) : Scope.ofCode t.code = some t := by cases t <;> rfl
@[simp] theorem Order.ofCode_code (t : Order) : Order.ofCode t.code = some t := by cases t <;> rfl
@[simp] theorem Cond.ofCode_code (t : Cond) : Cond.ofCode t.code = some t := by cases t <;> rfl
@[simp] theorem FCond.ofCode_code (t : FCond) : FCond.ofCode t.code = some t := by
  cases t with
  | rel c => cases c <;> rfl
  | relU c => cases c <;> rfl
  | num => rfl
  | nan => rfl
@[simp] theorem POp.ofCode_code (t : POp) : POp.ofCode t.code = some t := by cases t <;> rfl
@[simp] theorem FfOp.ofCode_code (t : FfOp) : FfOp.ofCode t.code = some t := by cases t <;> rfl
@[simp] theorem ShMode.ofCode_code (t : ShMode) : ShMode.ofCode t.code = some t := by cases t <;> rfl
@[simp] theorem VoteOp.ofCode_code (t : VoteOp) : VoteOp.ofCode t.code = some t := by cases t <;> rfl
@[simp] theorem RedOp.ofCode_code (t : RedOp) : RedOp.ofCode t.code = some t := by cases t <;> rfl
@[simp] theorem LmKind.ofCode_code (t : LmKind) : LmKind.ofCode t.code = some t := by cases t <;> rfl
@[simp] theorem AOp.ofCode_code (t : AOp) : AOp.ofCode t.code = some t := by cases t <;> rfl
/-- A 2-bit RM field holds every mode but SR (R129). -/
theorem Rm.ofCode_two (t : Rm) (h : t ≠ .sr) : Rm.ofCode ((t.code.setWidth 2).setWidth 3) = some t := by
  cases t <;> first | rfl | exact absurd rfl h

theorem toFin_ofNat (n : Nat) (k : Fin (2 ^ n)) : (BitVec.ofNat n k.val).toFin = k := by
  apply Fin.ext; simp
@[simp] theorem toFin_ofNat4 (k : Fin 4) : (BitVec.ofNat 2 k.val).toFin = k := toFin_ofNat 2 k
@[simp] theorem toFin_ofNat8 (k : Fin 8) : (BitVec.ofNat 3 k.val).toFin = k := toFin_ofNat 3 k
@[simp] theorem toFin_ofNat16 (k : Fin 16) : (BitVec.ofNat 4 k.val).toFin = k := toFin_ofNat 4 k
@[simp] theorem toFin_ofNat32 (k : Fin 32) : (BitVec.ofNat 5 k.val).toFin = k := toFin_ofNat 5 k
theorem finOf_val {k n : Nat} (x : Fin k) (h : n = x.val) : finOf k n = some x := by
  subst h; simp [finOf]
@[simp] theorem finOf3 (k : Fin 3) : finOf 3 (k.val % 4) = some k := by revert k; decide
@[simp] theorem finOf5 (k : Fin 5) : finOf 5 (k.val % 8) = some k := by revert k; decide
@[simp] theorem finOf6 (k : Fin 6) : finOf 6 (k.val % 8) = some k := by revert k; decide
theorem ext_zeros {n : Nat} (a : BitVec n) : (a ++ 0#1 ++ 0#1).extractLsb' 0 2 = 0#2 := by
  ext i hi
  simp only [BitVec.getElem_extractLsb', BitVec.getLsbD_append, BitVec.getLsbD_zero, BitVec.getElem_zero]
  split <;> first | rfl | (rw [if_pos (by omega)])
@[simp] theorem xReg_xNum (n : Fin 16) : xReg (xNum n) = some n := by revert n; decide
@[simp] theorem qReg_qNum (n : Fin 16) : qReg (qNum n) = some n := by revert n; decide

/-! ### Fields and words -/

/-- The fields of a word written from fields are those fields. -/
@[simp] theorem Fields.ofWord_toWord (f : Fields) : Fields.ofWord f.toWord = f := by
  obtain ⟨op, d, a, b, ⟨g, p, st, y, ra, rb, ss⟩, imm, creg, mx, ty, x⟩ := f
  simp only [Fields.ofWord, Fields.toWord, ctlOfWord, Ctl.bits]
  simp (disch := decide) only [ext_right, ext_left, ext_self, bit_right, bit_left, bit_bool, Nat.reduceSub]
  simp

/-- The decoder reads an instruction from a word written from its fields. -/
theorem decode_fields {i : Instr} {f : Fields} (hw : i.wf = true) (h0 : (f.op == 0) = false)
    (ha : opAssigned f.op.toNat = true) (hs : f.shape = some i) : decode f.toWord = .ok i := by
  have h : ¬ f.op = 0 := by simpa using h0
  unfold decode
  simp only [Fields.ofWord_toWord, if_neg h, ha, Bool.not_true, Bool.false_eq_true, if_false, Fields.instr, hs, hw, if_true]

/-! ### The parts of a word's fields, for simp -/

@[simp] theorem chk_eq {α : Type} (ok : Bool) (r : α) : chk ok r = if ok then some r else none := rfl
@[simp] theorem Fields.src_eq (f : Fields) : f.src = if f.imm then .imm f.x else .reg (.ofNum f.b) := rfl
@[simp] theorem Fields.srcZ_eq (f : Fields) : f.srcZ = if f.imm then f.b == 0 else f.x == 0 := rfl
@[simp] theorem Fields.plain_eq (f : Fields) : f.plain = (!f.imm && !f.creg) := rfl
@[simp] theorem Fields.e_eq (f : Fields) : f.e = Reg.ofNum (f.x.setWidth 10) := rfl
@[simp] theorem Fields.eZ_eq (f : Fields) : f.eZ = (f.x.extractLsb' 10 22 == 0) := rfl
@[simp] theorem Fields.z3_eq (f : Fields) : f.z3 = (!f.creg && f.srcZ) := rfl
@[simp] theorem Fields.z4_eq (f : Fields) : f.z4 = (!f.imm && f.creg && f.eZ) := rfl
@[simp] theorem Fields.noTy_eq (f : Fields) : f.noTy = (f.plain && f.ty == 0) := rfl
@[simp] theorem Fields.mxoZ_eq (f : Fields) : f.mxoZ = (f.xb 30 2 == 0 && f.xb 21 3 == 0 && f.xb 5 3 == 0) := rfl
@[simp] theorem Fields.zR_eq (f : Fields) (xz : Bool) : f.zR xz = (f.plain && xz) := rfl
@[simp] theorem Fields.z2_eq (f : Fields) (xz : Bool) : f.z2 xz = (f.plain && f.b == 0 && xz) := rfl
@[simp] theorem Fields.m_eq (f : Fields) (i n : Nat) : f.m i n = f.mx.extractLsb' i n := rfl
@[simp] theorem Fields.xb_eq (f : Fields) (i n : Nat) : f.xb i n = f.x.extractLsb' i n := rfl
@[simp] theorem Fields.alu3_eq (f : Fields) (t : Ty) : f.alu3 t = ⟨f.ctl, t, .ofNum f.d, .ofNum f.a, f.src⟩ := rfl
@[simp] theorem Fields.aluR_eq (f : Fields) (t : Ty) : f.aluR t = ⟨f.ctl, t, .ofNum f.d, .ofNum f.a, .ofNum f.b⟩ := rfl
@[simp] theorem Fields.alu2_eq (f : Fields) (t : Ty) : f.alu2 t = ⟨f.ctl, t, .ofNum f.d, .ofNum f.a⟩ := rfl
@[simp] theorem Fields.alu4_eq (f : Fields) (t : Ty) : f.alu4 t = ⟨f.ctl, t, .ofNum f.d, .ofNum f.a, .ofNum f.b, f.e⟩ := rfl
@[simp] theorem Fields.mem_eq (f : Fields) (t : Ty) (s : Scope) (o : Order) : f.mem t s o = ⟨f.ctl, t, f.mx.getLsbD 5, s, o, .ofNum f.d, .ofNum f.a, .ofNum f.b, f.x⟩ := rfl
@[simp] theorem Fields.atm_eq (f : Fields) (t : Ty) (s : Scope) (o : Order) : f.atm t s o = ⟨f.ctl, t, f.mx.getLsbD 5, s, o, .ofNum f.a, .ofNum f.b, f.xb 0 28⟩ := rfl
@[simp] theorem Fields.mxo_eq (f : Fields) : f.mxo = ⟨f.ctl, (f.xb 0 5).toFin, (f.xb 8 4).toFin, (f.xb 12 4).toFin, (f.xb 16 5).toFin, f.x.getLsbD 24, f.x.getLsbD 25,
    (f.xb 26 4).toFin⟩ := rfl
@[simp] theorem fld_eq (op : BitVec 10) (c : Ctl) : fld op c = ⟨op, 0, 0, 0, c, false, false, 0, 0, 0⟩ := rfl
@[simp] theorem Fields.withSrc_reg (f : Fields) (r : Reg) : f.withSrc (.reg r) = { f with b := r.num } := rfl
@[simp] theorem Fields.withSrc_imm (f : Fields) (x : Word) : f.withSrc (.imm x) = { f with imm := true, x := x } := rfl
@[simp] theorem encAlu3_eq (op : BitVec 10) (o : Alu3) (mx : BitVec 6) : encAlu3 op o mx = { fld op o.c with d := o.d.num, a := o.a.num, ty := o.ty.code, mx := mx }.withSrc o.b := rfl
@[simp] theorem encAluR_eq (op : BitVec 10) (o : AluR) (mx : BitVec 6) (x : Word) : encAluR op o mx x = { fld op o.c with d := o.d.num, a := o.a.num, b := o.b.num, ty := o.ty.code, mx := mx, x := x } := rfl
@[simp] theorem encAlu2_eq (op : BitVec 10) (o : Alu2) (mx : BitVec 6) (x : Word) : encAlu2 op o mx x = { fld op o.c with d := o.d.num, a := o.a.num, ty := o.ty.code, mx := mx, x := x } := rfl
@[simp] theorem encAlu4_eq (op : BitVec 10) (o : Alu4) (mx : BitVec 6) : encAlu4 op o mx = { fld op o.c with d := o.d.num, a := o.a.num, b := o.b.num, ty := o.ty.code, mx := mx, creg := true, x := o.e.num.setWidth 32 } := rfl
@[simp] theorem encMem_eq (op : BitVec 10) (m : MemOp) : encMem op m = { fld op m.c with d := m.d.num, a := m.a.num, b := m.b.num, ty := m.ty.code, x := m.off, mx := BitVec.ofBool m.sp ++ m.scope.code ++ m.ord.code } := rfl
@[simp] theorem encHint_eq (op : BitVec 10) (o : HintOp) (l : Bool) : encHint op o l = { fld op o.c with a := o.a.num, b := o.b.num, x := o.off, mx := BitVec.ofBool o.sp ++ 0#4 ++ BitVec.ofBool l } := rfl
@[simp] theorem encAtom_eq (op : BitVec 10) (o : AtomOp) (k : BitVec 4) (d : BitVec 10) : encAtom op o k d = { fld op o.c with d := d, a := o.a.num, b := o.b.num, ty := o.ty.code, x := k ++ o.off, mx := BitVec.ofBool o.sp ++ o.scope.code ++ o.ord.code } := rfl
@[simp] theorem encMx_eq (op : BitVec 10) (o : MxOp) (mx : BitVec 6) (seed : Option Reg) : encMx op o mx seed = { fld op o.c with mx := mx, b := optNum seed, x := 0#2 ++ BitVec.ofNat 4 o.bar.val ++ BitVec.ofBool o.barq ++ BitVec.ofBool o.baren ++ 0#3 ++ BitVec.ofNat 5 o.count.val ++ BitVec.ofNat 4 o.hb.val ++ BitVec.ofNat 4 o.ha.val ++ 0#3 ++ BitVec.ofNat 5 o.acc.val } := rfl
@[simp] theorem mBit_eq (b : Bool) : mBit b = 0#5 ++ BitVec.ofBool b := rfl
@[simp] theorem mScope_eq (s : Scope) (b5 b4 : Bool) : mScope s b5 b4 = 0#1 ++ s.code ++ BitVec.ofBool b5 ++ BitVec.ofBool b4 := rfl
@[simp] theorem optNum_eq (r : Option Reg) : optNum r = (r.map Reg.num).getD 0 := rfl

end Sys2Proof
end

