-- ==== Sys2Proof/Laws/Lanes.lean ====
section
/-! SUPPORT. What writing a destination does (R101, R65, R67, R41): which slots of the register file, scalar register or
predicate take which value, and that the others stay. -/

namespace Sys2Proof.Machine

/-! ### Vector registers -/

theorem Warp.slot_mod (w : Warp) {l : Nat} (n : Nat) (h : l < 32) : w.slot l n % 32 = l := by
  simp only [Warp.slot]; omega

/-- One lane's vector register or pair takes its value; every other slot stays. -/
theorem Core.vput_rf (k : Core) (w : Warp) (t : Ty) (l n : Nat) (v : Int) (p : Bool) (j : Nat) :
    tabGet 0#32 (k.vput w t l n v p).rf j =
      if tyWidth t = 64 then
        (if j = w.slot l (n + 1) then (BitVec.ofInt 64 v).extractLsb' 32 32
          else if j = w.slot l n then (BitVec.ofInt 64 v).setWidth 32 else tabGet 0#32 k.rf j)
      else if j = w.slot l n then extend32 t v else tabGet 0#32 k.rf j := by
  unfold Core.vput
  split <;> simp
theorem Core.vput_pois (k : Core) (w : Warp) (t : Ty) (l n : Nat) (v : Int) (p : Bool) (j : Nat) :
    setHas (k.vput w t l n v p).rfPois j =
      if j = w.slot l n ∨ (tyWidth t = 64 ∧ j = w.slot l (n + 1)) then p else setHas k.rfPois j := by
  unfold Core.vput
  split
  · next h => simp only [Core.rfPut_pois, h, true_and]; split <;> split <;> simp_all
  · next h => simp [h]
/-- A write of lane `l` leaves the slots of the other lanes alone. -/
theorem Core.vput_out (k : Core) (w : Warp) (t : Ty) {l : Nat} (n : Nat) (v : Int) (p : Bool) {j : Nat} (hl : l < 32)
    (h : j % 32 ≠ l) : tabGet 0#32 (k.vput w t l n v p).rf j = tabGet 0#32 k.rf j
      ∧ setHas (k.vput w t l n v p).rfPois j = setHas k.rfPois j := by
  have h0 : j ≠ w.slot l n := fun e => h (e ▸ w.slot_mod n hl)
  have h1 : j ≠ w.slot l (n + 1) := fun e => h (e ▸ w.slot_mod (n + 1) hl)
  simp [Core.vput_rf, Core.vput_pois, h0, h1]
/-- What a slot holds after a write of its lane depends on the core only through that slot. -/
theorem Core.vput_congr {k k' : Core} (w : Warp) (t : Ty) (l n : Nat) (v : Int) (p : Bool) {j : Nat}
    (h : tabGet 0#32 k.rf j = tabGet 0#32 k'.rf j) (hp : setHas k.rfPois j = setHas k'.rfPois j) :
    tabGet 0#32 (k.vput w t l n v p).rf j = tabGet 0#32 (k'.vput w t l n v p).rf j
      ∧ setHas (k.vput w t l n v p).rfPois j = setHas (k'.vput w t l n v p).rfPois j := by
  simp [Core.vput_rf, Core.vput_pois, h, hp]

/-- The writes of some lanes, one after the other: a slot holds what the write of its own lane leaves. -/
theorem foldVput (w : Warp) (t : Ty) (n : Nat) (p : Bool) (j : Nat) : ∀ (vals : List (Nat × Int)) (k : Core),
    (∀ e ∈ vals, e.1 < 32) → (vals.map (·.1)).Nodup →
    let r := vals.foldl (fun k e => k.vput w t e.1 n e.2 p) k
    let one := match vals.find? (·.1 == j % 32) with
      | some e => k.vput w t e.1 n e.2 p
      | none => k
    tabGet 0#32 r.rf j = tabGet 0#32 one.rf j ∧ setHas r.rfPois j = setHas one.rfPois j
  | [], k, _, _ => ⟨rfl, rfl⟩
  | e :: es, k, hl, hn => by
    simp only [List.map_cons, List.nodup_cons] at hn
    have ih := foldVput w t n p j es (k.vput w t e.1 n e.2 p) (fun x hx => hl x (.tail _ hx)) hn.2
    simp only [List.foldl_cons, List.find?_cons] at ih ⊢
    by_cases hj : e.1 = j % 32
    · have hf : es.find? (·.1 == j % 32) = none := by
        apply List.find?_eq_none.mpr
        intro x hx hxe
        exact hn.1 (List.mem_map.mpr ⟨x, hx, (beq_iff_eq.mp hxe).trans hj.symm⟩)
      rw [hf] at ih
      simpa [hj] using ih
    · have ho := k.vput_out w t n e.2 p (hl e (.head _)) (fun h => hj h.symm)
      simp only [beq_eq_false_iff_ne.mpr hj] at ih ⊢
      cases hf : es.find? (·.1 == j % 32) with
      | none => rw [hf] at ih; simp only at ih ⊢; exact ⟨ih.1.trans ho.1, ih.2.trans ho.2⟩
      | some x =>
        rw [hf] at ih; simp only at ih ⊢
        have hc := Core.vput_congr (k := k.vput w t e.1 n e.2 p) (k' := k) w t x.1 n x.2 p ho.1 ho.2
        exact ⟨ih.1.trans hc.1, ih.2.trans hc.2⟩
/-- The writes of vector registers leave everything but the register file and its poison alone. -/
theorem foldVput_rest (w : Warp) (t : Ty) (n : Nat) (p : Bool) : ∀ (vals : List (Nat × Int)) (k : Core),
    { vals.foldl (fun k e => k.vput w t e.1 n e.2 p) k with rf := k.rf, rfPois := k.rfPois } = k
  | [], _ => rfl
  | e :: es, k => by
    have ih := foldVput_rest w t n p es (k.vput w t e.1 n e.2 p)
    simp only [List.foldl_cons]
    have hk : { k.vput w t e.1 n e.2 p with rf := k.rf, rfPois := k.rfPois } = k := by
      unfold Core.vput; split <;> rfl
    have := congrArg (fun x : Core => ({ x with rf := k.rf, rfPois := k.rfPois } : Core)) ih
    exact this.trans hk

/-! ### Dst of R101 -/

theorem writeLanes_rest (s : State) (ci wi : Nat) (t : Ty) (d : Reg) (vals : List (Nat × Int)) :
    { writeLanes s ci wi t d vals with cores := s.cores } = s := by
  unfold writeLanes
  split
  · rfl
  · split <;> try rfl
    all_goals (split <;> rfl)
theorem writeLanes_core_ne (s : State) {ci : Nat} (wi : Nat) (t : Ty) (d : Reg) (vals : List (Nat × Int)) {i : Nat} (h : i ≠ ci) :
    (writeLanes s ci wi t d vals).core i = s.core i := by
  unfold writeLanes
  split
  · rfl
  · split <;> try first | rfl | exact State.core_modCore_ne _ _ h
    all_goals (split <;> first | rfl | exact State.core_modCore_ne _ _ h)

/-- A vector D: each slot of the register file, and that nothing else of the core changes. -/
theorem writeLanes_v {s : State} {ci wi : Nat} {w : Warp} (t : Ty) (n : Fin 768) (vals : List (Nat × Int)) (hc : ci < 384)
    (hw : s.warp? ci wi = some w) (hl : ∀ e ∈ vals, e.1 < 32) (hn : (vals.map (·.1)).Nodup) (j : Nat) :
    let k := (writeLanes s ci wi t (.v n) vals).core ci
    let one := match vals.find? (·.1 == j % 32) with
      | some e => (s.core ci).vput w t e.1 n.val e.2 false
      | none => s.core ci
    tabGet 0#32 k.rf j = tabGet 0#32 one.rf j ∧ setHas k.rfPois j = setHas one.rfPois j
      ∧ { k with rf := (s.core ci).rf, rfPois := (s.core ci).rfPois } = s.core ci := by
  simp only [writeLanes, hw, State.core_modCore_same _ _ hc]
  have h := foldVput w t n.val false j vals (s.core ci) hl hn
  exact ⟨h.1, h.2, foldVput_rest w t n.val false vals (s.core ci)⟩

/-- A scalar D takes the first value. -/
theorem writeLanes_s {s : State} {ci wi : Nat} {w : Warp} (t : Ty) (n : Fin 64) (e : Nat × Int) (es : List (Nat × Int))
    (hw : s.warp? ci wi = some w) :
    writeLanes s ci wi t (.s n) (e :: es) = s.modWarp ci wi (·.sput n.val (extend64 t e.2) false) := by
  simp [writeLanes, hw]
/-- A predicate D takes, in the lanes that are written, whether the value is nonzero. -/
theorem writeLanes_p {s : State} {ci wi : Nat} {w : Warp} (t : Ty) (n : Fin 8) (vals : List (Nat × Int))
    (hw : s.warp? ci wi = some w) :
    writeLanes s ci wi t (.p n) vals = s.modWarp ci wi fun w =>
      w.pput n.val (maskOf fun l => vals.any (·.1 == l)) (maskOf fun l => vals.any fun e => e.1 == l && e.2 != 0) := by
  simp [writeLanes, hw]

/-! ### Predicates -/

theorem Warp.pput_zero (w : Warp) (lanes v : Mask) : w.pput 0 lanes v = w := rfl
theorem Warp.pred_pput (w : Warp) {n : Nat} (lanes v : Mask) (m : Nat) (h0 : n ≠ 0) (h : n < 8) :
    (w.pput n lanes v).pred m = if m = n then (w.pred n &&& ~~~lanes) ||| (v &&& lanes) else w.pred m := by
  by_cases hm : m = n
  · subst hm; simp [Warp.pred, Warp.pput, h0, h]
  · by_cases m0 : m = 0
    · simp [Warp.pred, m0, Ne.symm h0]
    · simp [Warp.pred, Warp.pput, h0, hm, m0, Vector.getElem?_setIfInBounds_ne (Ne.symm hm)]

end Sys2Proof.Machine
end

