-- ==== Sys2Proof/Laws/Once.lean ====
section
/-! SUPPORT. What the shared forms of a word performed once come to: the sync unit's, a command's, a workgroup's, a nib's and
the scribe warp's. -/

namespace Sys2Proof.Machine

/-! ### A cause of the popped context -/

theorem popped_cause {s : State} {c : Ctl} {k : Ctx} (h : ctxOf s c = some k) (opds : List Opd) (code : Nat) (m : Mask) (v : Dword) :
    (k.popped opds).cause code m v = k.cause code m v := by
  unfold Ctx.cause
  rw [popped_w h]

/-! ### A scalar destination of 64 bits -/

theorem core_modWarp_none {k : Core} {w : Nat} (f : Warp → Warp) (h : k.warp? w = none) : k.modWarp w f = k := by
  have e : k.warps.setIfInBounds w (none : Option Warp) = k.warps := by
    apply Vector.ext
    intro i hi
    rw [Vector.getElem_setIfInBounds]
    split
    · next he =>
      subst he
      unfold Core.warp? at h
      rw [Vector.getElem?_eq_getElem hi] at h
      simpa using h.symm
    · rfl
  simp [Core.modWarp, Core.setWarp, h, e]
theorem setCore_core (s : State) (c : Nat) : s.setCore c (s.core c) = s := by
  have e : s.cores.setIfInBounds c (s.cores[c]?.getD Core.fresh) = s.cores := by
    apply Vector.ext
    intro i hi
    rw [Vector.getElem_setIfInBounds]
    split
    · next he => subst he; rw [Vector.getElem?_eq_getElem hi]; rfl
    · rfl
  simp [State.setCore, State.core, e]
/-- A natural number written whole to a scalar, whether or not the warp exists. -/
theorem writeLanes_scalar (s : State) (ci wi : Nat) (d : Fin 64) (n : Nat) :
    writeLanes s ci wi .n64 (.s d) [(0, (n : Int))] = s.modWarp ci wi (·.sput d.val (BitVec.ofNat 64 n) false) := by
  unfold writeLanes
  split
  · next h =>
    show s = s.setCore ci ((s.core ci).modWarp wi _)
    rw [core_modWarp_none _ h, setCore_core]
  · simp [extend64]

/-! ### The forms -/

/-- A word of `runOnce`: its body's next state, or nothing where no lane is active. -/
theorem runOnce_once {i : Instr} {s : State} {c : Ctl} {opds : List Opd} {H : Ctx → Prop} {t : Ctx → State} {body : Ctx → Res}
    (he : exec i s = runOnce s c opds body) (hb : ∀ k, k.act ≠ 0#32 → H k → body k = .ok (t k)) : Once i s c opds H t := by
  refine ⟨fun k hr h => ?_, fun k hr h => ?_⟩
  · rw [he, runOnce, runInstr_ready hr, if_neg h.1, hb _ h.1 h.2]; rfl
  · rw [he, runOnce, runInstr_ready hr, if_pos h]; rfl
/-- A command (R291, R312). -/
theorem runCmd_runs {i : Instr} {s : State} {c : Ctl} {opds : List Opd} {H : Ctx → Prop} {t : Ctx → State} {body : Ctx → Res}
    (he : exec i s = runCmd s c opds body) (hb : ∀ k, k.act ≠ 0#32 → H k → body k = .ok (t k)) :
    Runs i s c true true opds (fun k => k.act ≠ 0#32 ∧ H k) t := fun k hr h => by
  rw [he, runCmd, runInstr_ready hr, if_neg h.1, hb _ h.1 h.2]; rfl
theorem runCmd_idle {i : Instr} {s : State} {c : Ctl} {opds : List Opd} {body : Ctx → Res}
    (he : exec i s = runCmd s c opds body) : Idle i s c true true opds := fun k hr h => by
  rw [he, runCmd, runInstr_ready hr, if_pos h]; rfl
theorem runCmd_traps {i : Instr} {s : State} {c : Ctl} {opds : List Opd} {k : Ctx} {body : Ctx → Res} {z : Cause}
    (hr : Ready s c true true opds k) (he : exec i s = runCmd s c opds body) (ha : k.act ≠ 0#32)
    (hb : body (k.popped opds) = .trap z) : Traps i s k c z := by
  unfold Traps
  rw [he, runCmd, runInstr_ready hr, if_neg (by simpa using ha), hb]
  simp [wordDone, wordCause, (ctxOf_spec hr.issuer).1]
/-- A word of a workgroup's warp (R326). -/
theorem runWg_once {i : Instr} {s : State} {c : Ctl} {opds : List Opd} {H : Ctx → Prop} {t : Ctx → State} {body : Ctx → Wg → Res} {g : Wg}
    (he : exec i s = runWg s c opds body) (hb : ∀ k, k.act ≠ 0#32 → H k → body k g = .ok (t k)) :
    Once i s c opds (fun k => k.g = some g ∧ H k) t :=
  runOnce_once (by rw [he]; unfold runWg; rfl) fun k h1 h2 => by simp only [h2.1]; exact hb k h1 h2.2
/-- A word that names a bound nib (R350). -/
theorem runNib_once {i : Instr} {s : State} {c : Ctl} {opds : List Opd} {H : Ctx → Prop} {t : Ctx → State} {n : Fin 4} {body : Ctx → Nib → Res}
    (he : exec i s = runNib s c n opds body) (hh : ∀ k, H k → nibHeld k n.val = true ∧ (k.k.nib n.val).st = .bound)
    (hb : ∀ k, k.act ≠ 0#32 → H k → body k (k.k.nib n.val) = .ok (t k)) : Once i s c opds H t :=
  runOnce_once (by rw [he]; unfold runNib; rfl) fun k h1 h2 => by
    obtain ⟨h3, h4⟩ := hh k h2
    simp only [h3, h4]
    exact hb k h1 h2
/-- A system word of the scribe warp (R396 to R399). -/
theorem runSys_once {i : Instr} {s : State} {c : Ctl} {opds : List Opd} {k : Ctx} {body : Ctx → Res}
    (he : exec i s = runSys s c opds body) (hr : Ready s c true false opds k) (h : k.wi = 31) : exec i s = runOnce s c opds body := by
  rw [he, runSys, hr.issuer]; simp [h]

end Sys2Proof.Machine
end

