-- ==== Sys2Proof/Laws/PerInstr.lean ====
section
/-! SUPPORT. What holds of every instruction, constructor by constructor. RoundTrip: the decoder reads a well-formed
instruction back from the word that the encoder writes for it (R36-R40 and the encoding tables of the families). -/

set_option linter.unusedSimpArgs false
set_option linter.unusedVariables false

namespace Sys2Proof.Laws.RoundTrip

-- One lemma after the other, so that few threads wait at a time.
set_option Elab.async false

/-- A well-formed instruction is read back from its word; an event has no word. -/
def Statement (i : Instr) : Prop := i.wf = true → ∀ w, encode i = some w → decode w = .ok i

theorem of_shape {i : Instr} {f : Fields} (hf : i.fields = some f) (h0 : (f.op == 0) = false)
    (ha : opAssigned f.op.toNat = true) (hs : i.wf = true → f.shape = some i) : Statement i := by
  intro hw w h
  simp only [encode, hf, Option.map_some, Option.some.injEq] at h
  exact h ▸ decode_fields hw h0 ha (hs hw)

theorem of_event {i : Instr} (hf : i.fields = none) : Statement i := by
  intro _ w h
  simp [encode, hf] at h

theorem iadd (o : Alu3) (sat : Bool) : Statement (.iadd o sat) :=
  by
  obtain ⟨c, t, d, a, b⟩ := o
  cases b <;> exact of_shape rfl rfl rfl fun hw => by simp (disch := decide) [-Nat.reduceAdd, Fields.shape, shapeInt, ext_right, ext_left, ext_self, bit_right, bit_left, -BitVec.getLsbD_eq_getElem, sw5, sw6, sw8, sw10, sw12, sw16, sw20, sw_low10, ext_zeros, of6_4, of32_4, of32_16]
theorem isub (o : Alu3) (sat : Bool) : Statement (.isub o sat) :=
  by
  obtain ⟨c, t, d, a, b⟩ := o
  cases b <;> exact of_shape rfl rfl rfl fun hw => by simp (disch := decide) [-Nat.reduceAdd, Fields.shape, shapeInt, ext_right, ext_left, ext_self, bit_right, bit_left, -BitVec.getLsbD_eq_getElem, sw5, sw6, sw8, sw10, sw12, sw16, sw20, sw_low10, ext_zeros, of6_4, of32_4, of32_16]
theorem imul (o : Alu3) (sat : Bool) : Statement (.imul o sat) :=
  by
  obtain ⟨c, t, d, a, b⟩ := o
  cases b <;> exact of_shape rfl rfl rfl fun hw => by simp (disch := decide) [-Nat.reduceAdd, Fields.shape, shapeInt, ext_right, ext_left, ext_self, bit_right, bit_left, -BitVec.getLsbD_eq_getElem, sw5, sw6, sw8, sw10, sw12, sw16, sw20, sw_low10, ext_zeros, of6_4, of32_4, of32_16]
theorem imulhi (o : Alu3) : Statement (.imulhi o) :=
  by
  obtain ⟨c, t, d, a, b⟩ := o
  cases b <;> exact of_shape rfl rfl rfl fun hw => by simp (disch := decide) [-Nat.reduceAdd, Fields.shape, shapeInt, ext_right, ext_left, ext_self, bit_right, bit_left, -BitVec.getLsbD_eq_getElem, sw5, sw6, sw8, sw10, sw12, sw16, sw20, sw_low10, ext_zeros, of6_4, of32_4, of32_16]
theorem imad (o : Alu4) (sat : Bool) : Statement (.imad o sat) :=
  of_shape rfl rfl rfl fun hw => by simp (disch := decide) [-Nat.reduceAdd, Fields.shape, shapeInt, ext_right, ext_left, ext_self, bit_right, bit_left, -BitVec.getLsbD_eq_getElem, sw5, sw6, sw8, sw10, sw12, sw16, sw20, sw_low10, ext_zeros, of6_4, of32_4, of32_16]
theorem idiv (o : Alu3) : Statement (.idiv o) :=
  by
  obtain ⟨c, t, d, a, b⟩ := o
  cases b <;> exact of_shape rfl rfl rfl fun hw => by simp (disch := decide) [-Nat.reduceAdd, Fields.shape, shapeInt, ext_right, ext_left, ext_self, bit_right, bit_left, -BitVec.getLsbD_eq_getElem, sw5, sw6, sw8, sw10, sw12, sw16, sw20, sw_low10, ext_zeros, of6_4, of32_4, of32_16]
theorem irem (o : Alu3) : Statement (.irem o) :=
  by
  obtain ⟨c, t, d, a, b⟩ := o
  cases b <;> exact of_shape rfl rfl rfl fun hw => by simp (disch := decide) [-Nat.reduceAdd, Fields.shape, shapeInt, ext_right, ext_left, ext_self, bit_right, bit_left, -BitVec.getLsbD_eq_getElem, sw5, sw6, sw8, sw10, sw12, sw16, sw20, sw_low10, ext_zeros, of6_4, of32_4, of32_16]
theorem imin (o : Alu3) : Statement (.imin o) :=
  by
  obtain ⟨c, t, d, a, b⟩ := o
  cases b <;> exact of_shape rfl rfl rfl fun hw => by simp (disch := decide) [-Nat.reduceAdd, Fields.shape, shapeInt, ext_right, ext_left, ext_self, bit_right, bit_left, -BitVec.getLsbD_eq_getElem, sw5, sw6, sw8, sw10, sw12, sw16, sw20, sw_low10, ext_zeros, of6_4, of32_4, of32_16]
theorem imax (o : Alu3) : Statement (.imax o) :=
  by
  obtain ⟨c, t, d, a, b⟩ := o
  cases b <;> exact of_shape rfl rfl rfl fun hw => by simp (disch := decide) [-Nat.reduceAdd, Fields.shape, shapeInt, ext_right, ext_left, ext_self, bit_right, bit_left, -BitVec.getLsbD_eq_getElem, sw5, sw6, sw8, sw10, sw12, sw16, sw20, sw_low10, ext_zeros, of6_4, of32_4, of32_16]
theorem iabs (o : Alu2) (sat : Bool) : Statement (.iabs o sat) :=
  of_shape rfl rfl rfl fun hw => by simp (disch := decide) [-Nat.reduceAdd, Fields.shape, shapeInt, ext_right, ext_left, ext_self, bit_right, bit_left, -BitVec.getLsbD_eq_getElem, sw5, sw6, sw8, sw10, sw12, sw16, sw20, sw_low10, ext_zeros, of6_4, of32_4, of32_16]
theorem ineg (o : Alu2) (sat : Bool) : Statement (.ineg o sat) :=
  of_shape rfl rfl rfl fun hw => by simp (disch := decide) [-Nat.reduceAdd, Fields.shape, shapeInt, ext_right, ext_left, ext_self, bit_right, bit_left, -BitVec.getLsbD_eq_getElem, sw5, sw6, sw8, sw10, sw12, sw16, sw20, sw_low10, ext_zeros, of6_4, of32_4, of32_16]
theorem land (o : Alu3) : Statement (.land o) :=
  by
  obtain ⟨c, t, d, a, b⟩ := o
  cases b <;> exact of_shape rfl rfl rfl fun hw => by simp (disch := decide) [-Nat.reduceAdd, Fields.shape, shapeInt, ext_right, ext_left, ext_self, bit_right, bit_left, -BitVec.getLsbD_eq_getElem, sw5, sw6, sw8, sw10, sw12, sw16, sw20, sw_low10, ext_zeros, of6_4, of32_4, of32_16]
theorem lor (o : Alu3) : Statement (.lor o) :=
  by
  obtain ⟨c, t, d, a, b⟩ := o
  cases b <;> exact of_shape rfl rfl rfl fun hw => by simp (disch := decide) [-Nat.reduceAdd, Fields.shape, shapeInt, ext_right, ext_left, ext_self, bit_right, bit_left, -BitVec.getLsbD_eq_getElem, sw5, sw6, sw8, sw10, sw12, sw16, sw20, sw_low10, ext_zeros, of6_4, of32_4, of32_16]
theorem lxor (o : Alu3) : Statement (.lxor o) :=
  by
  obtain ⟨c, t, d, a, b⟩ := o
  cases b <;> exact of_shape rfl rfl rfl fun hw => by simp (disch := decide) [-Nat.reduceAdd, Fields.shape, shapeInt, ext_right, ext_left, ext_self, bit_right, bit_left, -BitVec.getLsbD_eq_getElem, sw5, sw6, sw8, sw10, sw12, sw16, sw20, sw_low10, ext_zeros, of6_4, of32_4, of32_16]
theorem landn (o : Alu3) : Statement (.landn o) :=
  by
  obtain ⟨c, t, d, a, b⟩ := o
  cases b <;> exact of_shape rfl rfl rfl fun hw => by simp (disch := decide) [-Nat.reduceAdd, Fields.shape, shapeInt, ext_right, ext_left, ext_self, bit_right, bit_left, -BitVec.getLsbD_eq_getElem, sw5, sw6, sw8, sw10, sw12, sw16, sw20, sw_low10, ext_zeros, of6_4, of32_4, of32_16]
theorem lnot (o : Alu2) : Statement (.lnot o) :=
  of_shape rfl rfl rfl fun hw => by simp (disch := decide) [-Nat.reduceAdd, Fields.shape, shapeInt, ext_right, ext_left, ext_self, bit_right, bit_left, -BitVec.getLsbD_eq_getElem, sw5, sw6, sw8, sw10, sw12, sw16, sw20, sw_low10, ext_zeros, of6_4, of32_4, of32_16]
theorem shl (o : Alu3) : Statement (.shl o) :=
  by
  obtain ⟨c, t, d, a, b⟩ := o
  cases b <;> exact of_shape rfl rfl rfl fun hw => by simp (disch := decide) [-Nat.reduceAdd, Fields.shape, shapeInt, ext_right, ext_left, ext_self, bit_right, bit_left, -BitVec.getLsbD_eq_getElem, sw5, sw6, sw8, sw10, sw12, sw16, sw20, sw_low10, ext_zeros, of6_4, of32_4, of32_16]
theorem shr (o : Alu3) : Statement (.shr o) :=
  by
  obtain ⟨c, t, d, a, b⟩ := o
  cases b <;> exact of_shape rfl rfl rfl fun hw => by simp (disch := decide) [-Nat.reduceAdd, Fields.shape, shapeInt, ext_right, ext_left, ext_self, bit_right, bit_left, -BitVec.getLsbD_eq_getElem, sw5, sw6, sw8, sw10, sw12, sw16, sw20, sw_low10, ext_zeros, of6_4, of32_4, of32_16]
theorem sar (o : Alu3) : Statement (.sar o) :=
  by
  obtain ⟨c, t, d, a, b⟩ := o
  cases b <;> exact of_shape rfl rfl rfl fun hw => by simp (disch := decide) [-Nat.reduceAdd, Fields.shape, shapeInt, ext_right, ext_left, ext_self, bit_right, bit_left, -BitVec.getLsbD_eq_getElem, sw5, sw6, sw8, sw10, sw12, sw16, sw20, sw_low10, ext_zeros, of6_4, of32_4, of32_16]
theorem rol (o : Alu3) : Statement (.rol o) :=
  by
  obtain ⟨c, t, d, a, b⟩ := o
  cases b <;> exact of_shape rfl rfl rfl fun hw => by simp (disch := decide) [-Nat.reduceAdd, Fields.shape, shapeInt, ext_right, ext_left, ext_self, bit_right, bit_left, -BitVec.getLsbD_eq_getElem, sw5, sw6, sw8, sw10, sw12, sw16, sw20, sw_low10, ext_zeros, of6_4, of32_4, of32_16]
theorem bfx (o : Alu3) : Statement (.bfx o) :=
  by
  obtain ⟨c, t, d, a, b⟩ := o
  cases b <;> exact of_shape rfl rfl rfl fun hw => by simp (disch := decide) [-Nat.reduceAdd, Fields.shape, shapeInt, ext_right, ext_left, ext_self, bit_right, bit_left, -BitVec.getLsbD_eq_getElem, sw5, sw6, sw8, sw10, sw12, sw16, sw20, sw_low10, ext_zeros, of6_4, of32_4, of32_16]
theorem bfi (o : Alu4) : Statement (.bfi o) :=
  of_shape rfl rfl rfl fun hw => by simp (disch := decide) [-Nat.reduceAdd, Fields.shape, shapeInt, ext_right, ext_left, ext_self, bit_right, bit_left, -BitVec.getLsbD_eq_getElem, sw5, sw6, sw8, sw10, sw12, sw16, sw20, sw_low10, ext_zeros, of6_4, of32_4, of32_16]
theorem popc (o : Alu2) : Statement (.popc o) :=
  of_shape rfl rfl rfl fun hw => by simp (disch := decide) [-Nat.reduceAdd, Fields.shape, shapeInt, ext_right, ext_left, ext_self, bit_right, bit_left, -BitVec.getLsbD_eq_getElem, sw5, sw6, sw8, sw10, sw12, sw16, sw20, sw_low10, ext_zeros, of6_4, of32_4, of32_16]
theorem clz (o : Alu2) : Statement (.clz o) :=
  of_shape rfl rfl rfl fun hw => by simp (disch := decide) [-Nat.reduceAdd, Fields.shape, shapeInt, ext_right, ext_left, ext_self, bit_right, bit_left, -BitVec.getLsbD_eq_getElem, sw5, sw6, sw8, sw10, sw12, sw16, sw20, sw_low10, ext_zeros, of6_4, of32_4, of32_16]
theorem ctz (o : Alu2) : Statement (.ctz o) :=
  of_shape rfl rfl rfl fun hw => by simp (disch := decide) [-Nat.reduceAdd, Fields.shape, shapeInt, ext_right, ext_left, ext_self, bit_right, bit_left, -BitVec.getLsbD_eq_getElem, sw5, sw6, sw8, sw10, sw12, sw16, sw20, sw_low10, ext_zeros, of6_4, of32_4, of32_16]
theorem brev (o : Alu2) : Statement (.brev o) :=
  of_shape rfl rfl rfl fun hw => by simp (disch := decide) [-Nat.reduceAdd, Fields.shape, shapeInt, ext_right, ext_left, ext_self, bit_right, bit_left, -BitVec.getLsbD_eq_getElem, sw5, sw6, sw8, sw10, sw12, sw16, sw20, sw_low10, ext_zeros, of6_4, of32_4, of32_16]
theorem prmt (o : Alu3) (e : Option Reg) : Statement (.prmt o e) :=
  by
  obtain ⟨c, t, d, a, b⟩ := o
  cases e <;> cases b
  case some.imm =>
    intro hw
    have h : ((t == .i32 || t == .n32) && false) = true := hw
    simp at h
  all_goals exact of_shape rfl rfl rfl fun hw => by simp (disch := decide) [-Nat.reduceAdd, Fields.shape, shapeInt, ext_right, ext_left, ext_self, bit_right, bit_left, -BitVec.getLsbD_eq_getElem, sw5, sw6, sw8, sw10, sw12, sw16, sw20, sw_low10, ext_zeros, of6_4, of32_4, of32_16]
theorem iset (o : Alu3) (k : Cond) : Statement (.iset o k) :=
  by
  obtain ⟨c, t, d, a, b⟩ := o
  cases b <;> exact of_shape rfl rfl rfl fun hw => by simp (disch := decide) [-Nat.reduceAdd, Fields.shape, shapeInt, ext_right, ext_left, ext_self, bit_right, bit_left, -BitVec.getLsbD_eq_getElem, sw5, sw6, sw8, sw10, sw12, sw16, sw20, sw_low10, ext_zeros, of6_4, of32_4, of32_16]
theorem pset (c : Ctl) (k : POp) (d a b : Reg) : Statement (.pset c k d a b) :=
  of_shape rfl rfl rfl fun hw => by simp (disch := decide) [-Nat.reduceAdd, Fields.shape, shapeInt, ext_right, ext_left, ext_self, bit_right, bit_left, -BitVec.getLsbD_eq_getElem, sw5, sw6, sw8, sw10, sw12, sw16, sw20, sw_low10, ext_zeros, of6_4, of32_4, of32_16]
theorem sel (o : Alu3) (sp : Fin 8) (sneg : Bool) : Statement (.sel o sp sneg) :=
  by
  obtain ⟨c, t, d, a, b⟩ := o
  cases b <;> exact of_shape rfl rfl rfl fun hw => by simp (disch := decide) [-Nat.reduceAdd, Fields.shape, shapeInt, ext_right, ext_left, ext_self, bit_right, bit_left, -BitVec.getLsbD_eq_getElem, sw5, sw6, sw8, sw10, sw12, sw16, sw20, sw_low10, ext_zeros, of6_4, of32_4, of32_16]
theorem mov (o : Alu2) : Statement (.mov o) :=
  of_shape rfl rfl rfl fun hw => by simp (disch := decide) [-Nat.reduceAdd, Fields.shape, shapeInt, ext_right, ext_left, ext_self, bit_right, bit_left, -BitVec.getLsbD_eq_getElem, sw5, sw6, sw8, sw10, sw12, sw16, sw20, sw_low10, ext_zeros, of6_4, of32_4, of32_16]
theorem movi (c : Ctl) (ty : Ty) (hi : Bool) (d : Reg) (x : Word) : Statement (.movi c ty hi d x) :=
  of_shape rfl rfl rfl fun hw => by simp (disch := decide) [-Nat.reduceAdd, Fields.shape, shapeInt, ext_right, ext_left, ext_self, bit_right, bit_left, -BitVec.getLsbD_eq_getElem, sw5, sw6, sw8, sw10, sw12, sw16, sw20, sw_low10, ext_zeros, of6_4, of32_4, of32_16]
theorem lea (o : AluR) (scale : Fin 5) (bsx : Bool) (x : Word) : Statement (.lea o scale bsx x) :=
  of_shape rfl rfl rfl fun hw => by simp (disch := decide) [-Nat.reduceAdd, Fields.shape, shapeInt, ext_right, ext_left, ext_self, bit_right, bit_left, -BitVec.getLsbD_eq_getElem, sw5, sw6, sw8, sw10, sw12, sw16, sw20, sw_low10, ext_zeros, of6_4, of32_4, of32_16]
theorem fadd (o : Alu3) (rm : Rm) : Statement (.fadd o rm) :=
  by
  obtain ⟨c, t, d, a, b⟩ := o
  cases b <;> exact of_shape rfl rfl rfl fun hw => by simp (disch := decide) [-Nat.reduceAdd, Fields.shape, shapeFloat, ext_right, ext_left, ext_self, bit_right, bit_left, -BitVec.getLsbD_eq_getElem, sw5, sw6, sw8, sw10, sw12, sw16, sw20, sw_low10, ext_zeros, of6_4, of32_4, of32_16]
theorem fsub (o : Alu3) (rm : Rm) : Statement (.fsub o rm) :=
  by
  obtain ⟨c, t, d, a, b⟩ := o
  cases b <;> exact of_shape rfl rfl rfl fun hw => by simp (disch := decide) [-Nat.reduceAdd, Fields.shape, shapeFloat, ext_right, ext_left, ext_self, bit_right, bit_left, -BitVec.getLsbD_eq_getElem, sw5, sw6, sw8, sw10, sw12, sw16, sw20, sw_low10, ext_zeros, of6_4, of32_4, of32_16]
theorem fmul (o : Alu3) (rm : Rm) : Statement (.fmul o rm) :=
  by
  obtain ⟨c, t, d, a, b⟩ := o
  cases b <;> exact of_shape rfl rfl rfl fun hw => by simp (disch := decide) [-Nat.reduceAdd, Fields.shape, shapeFloat, ext_right, ext_left, ext_self, bit_right, bit_left, -BitVec.getLsbD_eq_getElem, sw5, sw6, sw8, sw10, sw12, sw16, sw20, sw_low10, ext_zeros, of6_4, of32_4, of32_16]
theorem ffma (o : Alu4) (rm : Rm) : Statement (.ffma o rm) :=
  of_shape rfl rfl rfl fun hw => by simp (disch := decide) [-Nat.reduceAdd, Fields.shape, shapeFloat, ext_right, ext_left, ext_self, bit_right, bit_left, -BitVec.getLsbD_eq_getElem, sw5, sw6, sw8, sw10, sw12, sw16, sw20, sw_low10, ext_zeros, of6_4, of32_4, of32_16]
theorem fmin (o : Alu3) : Statement (.fmin o) :=
  by
  obtain ⟨c, t, d, a, b⟩ := o
  cases b <;> exact of_shape rfl rfl rfl fun hw => by simp (disch := decide) [-Nat.reduceAdd, Fields.shape, shapeFloat, ext_right, ext_left, ext_self, bit_right, bit_left, -BitVec.getLsbD_eq_getElem, sw5, sw6, sw8, sw10, sw12, sw16, sw20, sw_low10, ext_zeros, of6_4, of32_4, of32_16]
theorem fmax (o : Alu3) : Statement (.fmax o) :=
  by
  obtain ⟨c, t, d, a, b⟩ := o
  cases b <;> exact of_shape rfl rfl rfl fun hw => by simp (disch := decide) [-Nat.reduceAdd, Fields.shape, shapeFloat, ext_right, ext_left, ext_self, bit_right, bit_left, -BitVec.getLsbD_eq_getElem, sw5, sw6, sw8, sw10, sw12, sw16, sw20, sw_low10, ext_zeros, of6_4, of32_4, of32_16]
theorem fset (o : Alu3) (k : FCond) : Statement (.fset o k) :=
  by
  obtain ⟨c, t, d, a, b⟩ := o
  cases b <;> exact of_shape rfl rfl rfl fun hw => by simp (disch := decide) [-Nat.reduceAdd, Fields.shape, shapeFloat, ext_right, ext_left, ext_self, bit_right, bit_left, -BitVec.getLsbD_eq_getElem, sw5, sw6, sw8, sw10, sw12, sw16, sw20, sw_low10, ext_zeros, of6_4, of32_4, of32_16]
theorem fclass (o : Alu2) (x : Word) : Statement (.fclass o x) :=
  of_shape rfl rfl rfl fun hw => by simp (disch := decide) [-Nat.reduceAdd, Fields.shape, shapeFloat, ext_right, ext_left, ext_self, bit_right, bit_left, -BitVec.getLsbD_eq_getElem, sw5, sw6, sw8, sw10, sw12, sw16, sw20, sw_low10, ext_zeros, of6_4, of32_4, of32_16]
theorem frcp (o : Alu2) (rm : Rm) : Statement (.frcp o rm) :=
  of_shape rfl rfl rfl fun hw => by simp (disch := decide) [-Nat.reduceAdd, Fields.shape, shapeFloat, ext_right, ext_left, ext_self, bit_right, bit_left, -BitVec.getLsbD_eq_getElem, sw5, sw6, sw8, sw10, sw12, sw16, sw20, sw_low10, ext_zeros, of6_4, of32_4, of32_16]
theorem frsq (o : Alu2) (rm : Rm) : Statement (.frsq o rm) :=
  of_shape rfl rfl rfl fun hw => by simp (disch := decide) [-Nat.reduceAdd, Fields.shape, shapeFloat, ext_right, ext_left, ext_self, bit_right, bit_left, -BitVec.getLsbD_eq_getElem, sw5, sw6, sw8, sw10, sw12, sw16, sw20, sw_low10, ext_zeros, of6_4, of32_4, of32_16]
theorem fsqrt (o : Alu2) (rm : Rm) : Statement (.fsqrt o rm) :=
  of_shape rfl rfl rfl fun hw => by simp (disch := decide) [-Nat.reduceAdd, Fields.shape, shapeFloat, ext_right, ext_left, ext_self, bit_right, bit_left, -BitVec.getLsbD_eq_getElem, sw5, sw6, sw8, sw10, sw12, sw16, sw20, sw_low10, ext_zeros, of6_4, of32_4, of32_16]
theorem fdiv (o : Alu3) (rm : Rm) : Statement (.fdiv o rm) :=
  by
  obtain ⟨c, t, d, a, b⟩ := o
  cases b <;> exact of_shape rfl rfl rfl fun hw => by simp (disch := decide) [-Nat.reduceAdd, Fields.shape, shapeFloat, ext_right, ext_left, ext_self, bit_right, bit_left, -BitVec.getLsbD_eq_getElem, sw5, sw6, sw8, sw10, sw12, sw16, sw20, sw_low10, ext_zeros, of6_4, of32_4, of32_16]
theorem fexp2 (o : Alu2) : Statement (.fexp2 o) :=
  of_shape rfl rfl rfl fun hw => by simp (disch := decide) [-Nat.reduceAdd, Fields.shape, shapeFloat, ext_right, ext_left, ext_self, bit_right, bit_left, -BitVec.getLsbD_eq_getElem, sw5, sw6, sw8, sw10, sw12, sw16, sw20, sw_low10, ext_zeros, of6_4, of32_4, of32_16]
theorem flog2 (o : Alu2) : Statement (.flog2 o) :=
  of_shape rfl rfl rfl fun hw => by simp (disch := decide) [-Nat.reduceAdd, Fields.shape, shapeFloat, ext_right, ext_left, ext_self, bit_right, bit_left, -BitVec.getLsbD_eq_getElem, sw5, sw6, sw8, sw10, sw12, sw16, sw20, sw_low10, ext_zeros, of6_4, of32_4, of32_16]
theorem fsin (o : Alu2) : Statement (.fsin o) :=
  of_shape rfl rfl rfl fun hw => by simp (disch := decide) [-Nat.reduceAdd, Fields.shape, shapeFloat, ext_right, ext_left, ext_self, bit_right, bit_left, -BitVec.getLsbD_eq_getElem, sw5, sw6, sw8, sw10, sw12, sw16, sw20, sw_low10, ext_zeros, of6_4, of32_4, of32_16]
theorem fcos (o : Alu2) : Statement (.fcos o) :=
  of_shape rfl rfl rfl fun hw => by simp (disch := decide) [-Nat.reduceAdd, Fields.shape, shapeFloat, ext_right, ext_left, ext_self, bit_right, bit_left, -BitVec.getLsbD_eq_getElem, sw5, sw6, sw8, sw10, sw12, sw16, sw20, sw_low10, ext_zeros, of6_4, of32_4, of32_16]
theorem ftanh (o : Alu2) : Statement (.ftanh o) :=
  of_shape rfl rfl rfl fun hw => by simp (disch := decide) [-Nat.reduceAdd, Fields.shape, shapeFloat, ext_right, ext_left, ext_self, bit_right, bit_left, -BitVec.getLsbD_eq_getElem, sw5, sw6, sw8, sw10, sw12, sw16, sw20, sw_low10, ext_zeros, of6_4, of32_4, of32_16]
theorem frnd (o : Alu2) (rm : Rm) (exact : Bool) : Statement (.frnd o rm exact) :=
  of_shape rfl rfl rfl fun hw => by simp (disch := decide) [-Nat.reduceAdd, Fields.shape, shapeFloat, ext_right, ext_left, ext_self, bit_right, bit_left, -BitVec.getLsbD_eq_getElem, sw5, sw6, sw8, sw10, sw12, sw16, sw20, sw_low10, ext_zeros, of6_4, of32_4, of32_16]
theorem cvt (o : Alu2) (rm : Rm) (sat : Bool) (seed : Option Reg) (st : Ty) (desc : BitVec 20) : Statement (.cvt o rm sat seed st desc) :=
  of_shape rfl rfl rfl fun hw => by
    have h : (Machine.cvtOk o.ty st rm desc && (seed.isSome == (rm == .sr))) = true := hw
    simp only [Bool.and_eq_true, beq_iff_eq] at h
    have h := h.2
    cases seed <;> cases rm <;> first | (exact absurd h (by decide)) | (exact Bool.noConfusion h) | simp (disch := decide) [-Nat.reduceAdd, Fields.shape, shapeFloat, ext_right, ext_left, ext_self, bit_right, bit_left, -BitVec.getLsbD_eq_getElem, sw5, sw6, sw8, sw10, sw12, sw16, sw20, sw_low10, ext_zeros, of6_4, of32_4, of32_16]
theorem fdot2 (o : AluR) (rm : Rm) : Statement (.fdot2 o rm) :=
  of_shape rfl rfl rfl fun hw => by simp (disch := decide) [-Nat.reduceAdd, Fields.shape, shapeFloat, ext_right, ext_left, ext_self, bit_right, bit_left, -BitVec.getLsbD_eq_getElem, sw5, sw6, sw8, sw10, sw12, sw16, sw20, sw_low10, ext_zeros, of6_4, of32_4, of32_16]
theorem fdot4 (o : AluR) (rm : Rm) (nfd : BitVec 19) : Statement (.fdot4 o rm nfd) :=
  of_shape rfl rfl rfl fun hw => by simp (disch := decide) [-Nat.reduceAdd, Fields.shape, shapeFloat, ext_right, ext_left, ext_self, bit_right, bit_left, -BitVec.getLsbD_eq_getElem, sw5, sw6, sw8, sw10, sw12, sw16, sw20, sw_low10, ext_zeros, of6_4, of32_4, of32_16]
theorem fscale (o : AluR) (rm : Rm) : Statement (.fscale o rm) :=
  of_shape rfl rfl rfl fun hw => by simp (disch := decide) [-Nat.reduceAdd, Fields.shape, shapeFloat, ext_right, ext_left, ext_self, bit_right, bit_left, -BitVec.getLsbD_eq_getElem, sw5, sw6, sw8, sw10, sw12, sw16, sw20, sw_low10, ext_zeros, of6_4, of32_4, of32_16]
theorem fflags (c : Ctl) (k : FfOp) (d : Option Reg) (b : Src) : Statement (.fflags c k d b) :=
  by
  cases d <;> cases b <;> exact of_shape rfl rfl rfl fun hw => by simp (disch := decide) [-Nat.reduceAdd, Fields.shape, shapeFloat, ext_right, ext_left, ext_self, bit_right, bit_left, -BitVec.getLsbD_eq_getElem, sw5, sw6, sw8, sw10, sw12, sw16, sw20, sw_low10, ext_zeros, of6_4, of32_4, of32_16]
theorem shfl (o : Alu3) (k : ShMode) (seg : Fin 6) : Statement (.shfl o k seg) :=
  by
  obtain ⟨c, t, d, a, b⟩ := o
  cases b <;> exact of_shape rfl rfl rfl fun hw => by simp (disch := decide) [-Nat.reduceAdd, Fields.shape, shapeCross, ext_right, ext_left, ext_self, bit_right, bit_left, -BitVec.getLsbD_eq_getElem, sw5, sw6, sw8, sw10, sw12, sw16, sw20, sw_low10, ext_zeros, of6_4, of32_4, of32_16]
theorem vote (c : Ctl) (k : VoteOp) (d a : Reg) : Statement (.vote c k d a) :=
  of_shape rfl rfl rfl fun hw => by simp (disch := decide) [-Nat.reduceAdd, Fields.shape, shapeCross, ext_right, ext_left, ext_self, bit_right, bit_left, -BitVec.getLsbD_eq_getElem, sw5, sw6, sw8, sw10, sw12, sw16, sw20, sw_low10, ext_zeros, of6_4, of32_4, of32_16]
theorem matchv (o : Alu2) (all : Bool) : Statement (.matchv o all) :=
  of_shape rfl rfl rfl fun hw => by simp (disch := decide) [-Nat.reduceAdd, Fields.shape, shapeCross, ext_right, ext_left, ext_self, bit_right, bit_left, -BitVec.getLsbD_eq_getElem, sw5, sw6, sw8, sw10, sw12, sw16, sw20, sw_low10, ext_zeros, of6_4, of32_4, of32_16]
theorem redux (o : Alu2) (k : RedOp) (rm : Rm) : Statement (.redux o k rm) :=
  of_shape rfl rfl rfl fun hw => by
    have h : (rm != .sr && (if Machine.isFloatTy o.ty then k == .add || k == .min || k == .max else Machine.isIntTy o.ty && rm == .rne)) = true := hw
    simp only [Bool.and_eq_true, bne_iff_ne] at h
    have e := Rm.ofCode_two rm h.1
    simp (disch := decide) [-Nat.reduceAdd, Fields.shape, shapeCross, ext_right, ext_left, ext_self, bit_right, bit_left, -BitVec.getLsbD_eq_getElem, sw5, sw6, sw8, sw10, sw12, sw16, sw20, sw_low10, ext_zeros, of6_4, of32_4, of32_16]
    simp [e]
theorem scan (o : Alu2) (k : RedOp) (excl : Bool) (rm : Rm) : Statement (.scan o k excl rm) :=
  of_shape rfl rfl rfl fun hw => by
    have h : (rm != .sr && (if Machine.isFloatTy o.ty then k == .add || k == .min || k == .max else Machine.isIntTy o.ty && rm == .rne)) = true := hw
    simp only [Bool.and_eq_true, bne_iff_ne] at h
    have e := Rm.ofCode_two rm h.1
    simp (disch := decide) [-Nat.reduceAdd, Fields.shape, shapeCross, ext_right, ext_left, ext_self, bit_right, bit_left, -BitVec.getLsbD_eq_getElem, sw5, sw6, sw8, sw10, sw12, sw16, sw20, sw_low10, ext_zeros, of6_4, of32_4, of32_16]
    simp [e]
theorem lanemask (c : Ctl) (k : LmKind) (d : Reg) : Statement (.lanemask c k d) :=
  of_shape rfl rfl rfl fun hw => by simp (disch := decide) [-Nat.reduceAdd, Fields.shape, shapeCross, ext_right, ext_left, ext_self, bit_right, bit_left, -BitVec.getLsbD_eq_getElem, sw5, sw6, sw8, sw10, sw12, sw16, sw20, sw_low10, ext_zeros, of6_4, of32_4, of32_16]
theorem bra (c : Ctl) (off : Word) : Statement (.bra c off) :=
  of_shape rfl rfl rfl fun hw => by simp (disch := decide) [-Nat.reduceAdd, Fields.shape, shapeControl, ext_right, ext_left, ext_self, bit_right, bit_left, -BitVec.getLsbD_eq_getElem, sw5, sw6, sw8, sw10, sw12, sw16, sw20, sw_low10, ext_zeros, of6_4, of32_4, of32_16]
theorem brd (c : Ctl) (a : Reg) (pneg : Bool) (off : Word) : Statement (.brd c a pneg off) :=
  of_shape rfl rfl rfl fun hw => by simp (disch := decide) [-Nat.reduceAdd, Fields.shape, shapeControl, ext_right, ext_left, ext_self, bit_right, bit_left, -BitVec.getLsbD_eq_getElem, sw5, sw6, sw8, sw10, sw12, sw16, sw20, sw_low10, ext_zeros, of6_4, of32_4, of32_16]
theorem brx (c : Ctl) (a : Reg) : Statement (.brx c a) :=
  of_shape rfl rfl rfl fun hw => by simp (disch := decide) [-Nat.reduceAdd, Fields.shape, shapeControl, ext_right, ext_left, ext_self, bit_right, bit_left, -BitVec.getLsbD_eq_getElem, sw5, sw6, sw8, sw10, sw12, sw16, sw20, sw_low10, ext_zeros, of6_4, of32_4, of32_16]
theorem call (c : Ctl) (d : Reg) (off : Word) : Statement (.call c d off) :=
  of_shape rfl rfl rfl fun hw => by simp (disch := decide) [-Nat.reduceAdd, Fields.shape, shapeControl, ext_right, ext_left, ext_self, bit_right, bit_left, -BitVec.getLsbD_eq_getElem, sw5, sw6, sw8, sw10, sw12, sw16, sw20, sw_low10, ext_zeros, of6_4, of32_4, of32_16]
theorem callx (c : Ctl) (d a : Reg) : Statement (.callx c d a) :=
  of_shape rfl rfl rfl fun hw => by simp (disch := decide) [-Nat.reduceAdd, Fields.shape, shapeControl, ext_right, ext_left, ext_self, bit_right, bit_left, -BitVec.getLsbD_eq_getElem, sw5, sw6, sw8, sw10, sw12, sw16, sw20, sw_low10, ext_zeros, of6_4, of32_4, of32_16]
theorem ret (c : Ctl) (a : Reg) : Statement (.ret c a) :=
  of_shape rfl rfl rfl fun hw => by simp (disch := decide) [-Nat.reduceAdd, Fields.shape, shapeControl, ext_right, ext_left, ext_self, bit_right, bit_left, -BitVec.getLsbD_eq_getElem, sw5, sw6, sw8, sw10, sw12, sw16, sw20, sw_low10, ext_zeros, of6_4, of32_4, of32_16]
theorem retTr (c : Ctl) : Statement (.retTr c) :=
  of_shape rfl rfl rfl fun hw => by simp (disch := decide) [-Nat.reduceAdd, Fields.shape, shapeControl, ext_right, ext_left, ext_self, bit_right, bit_left, -BitVec.getLsbD_eq_getElem, sw5, sw6, sw8, sw10, sw12, sw16, sw20, sw_low10, ext_zeros, of6_4, of32_4, of32_16]
theorem exit (c : Ctl) : Statement (.exit c) :=
  of_shape rfl rfl rfl fun hw => by simp (disch := decide) [-Nat.reduceAdd, Fields.shape, shapeControl, ext_right, ext_left, ext_self, bit_right, bit_left, -BitVec.getLsbD_eq_getElem, sw5, sw6, sw8, sw10, sw12, sw16, sw20, sw_low10, ext_zeros, of6_4, of32_4, of32_16]
theorem yield (c : Ctl) (n : BitVec 16) : Statement (.yield c n) :=
  of_shape rfl rfl rfl fun hw => by simp (disch := decide) [-Nat.reduceAdd, Fields.shape, shapeControl, ext_right, ext_left, ext_self, bit_right, bit_left, -BitVec.getLsbD_eq_getElem, sw5, sw6, sw8, sw10, sw12, sw16, sw20, sw_low10, ext_zeros, of6_4, of32_4, of32_16]
theorem nop (c : Ctl) : Statement (.nop c) :=
  of_shape rfl rfl rfl fun hw => by simp (disch := decide) [-Nat.reduceAdd, Fields.shape, shapeControl, ext_right, ext_left, ext_self, bit_right, bit_left, -BitVec.getLsbD_eq_getElem, sw5, sw6, sw8, sw10, sw12, sw16, sw20, sw_low10, ext_zeros, of6_4, of32_4, of32_16]
theorem waitc (c : Ctl) (m : BitVec 12) : Statement (.waitc c m) :=
  of_shape rfl rfl rfl fun hw => by simp (disch := decide) [-Nat.reduceAdd, Fields.shape, shapeControl, ext_right, ext_left, ext_self, bit_right, bit_left, -BitVec.getLsbD_eq_getElem, sw5, sw6, sw8, sw10, sw12, sw16, sw20, sw_low10, ext_zeros, of6_4, of32_4, of32_16]
theorem ligon (c : Ctl) (a : Reg) (b : Option Reg) : Statement (.ligon c a b) :=
  by
  cases b <;> exact of_shape rfl rfl rfl fun hw => by simp (disch := decide) [-Nat.reduceAdd, Fields.shape, shapeControl, ext_right, ext_left, ext_self, bit_right, bit_left, -BitVec.getLsbD_eq_getElem, sw5, sw6, sw8, sw10, sw12, sw16, sw20, sw_low10, ext_zeros, of6_4, of32_4, of32_16]
theorem ligmap (c : Ctl) (path : Fin 4) (slot : Fin 16) (a b : Reg) : Statement (.ligmap c path slot a b) :=
  of_shape rfl rfl rfl fun hw => by simp (disch := decide) [-Nat.reduceAdd, Fields.shape, shapeControl, ext_right, ext_left, ext_self, bit_right, bit_left, -BitVec.getLsbD_eq_getElem, sw5, sw6, sw8, sw10, sw12, sw16, sw20, sw_low10, ext_zeros, of6_4, of32_4, of32_16]
theorem ligoff (c : Ctl) : Statement (.ligoff c) :=
  of_shape rfl rfl rfl fun hw => by simp (disch := decide) [-Nat.reduceAdd, Fields.shape, shapeControl, ext_right, ext_left, ext_self, bit_right, bit_left, -BitVec.getLsbD_eq_getElem, sw5, sw6, sw8, sw10, sw12, sw16, sw20, sw_low10, ext_zeros, of6_4, of32_4, of32_16]
theorem trap (c : Ctl) (code : Word) : Statement (.trap c code) :=
  of_shape rfl rfl rfl fun hw => by simp (disch := decide) [-Nat.reduceAdd, Fields.shape, shapeControl, ext_right, ext_left, ext_self, bit_right, bit_left, -BitVec.getLsbD_eq_getElem, sw5, sw6, sw8, sw10, sw12, sw16, sw20, sw_low10, ext_zeros, of6_4, of32_4, of32_16]
theorem svc (c : Ctl) (a : Reg) (count : Fin 16) : Statement (.svc c a count) :=
  of_shape rfl rfl rfl fun hw => by simp (disch := decide) [-Nat.reduceAdd, Fields.shape, shapeControl, ext_right, ext_left, ext_self, bit_right, bit_left, -BitVec.getLsbD_eq_getElem, sw5, sw6, sw8, sw10, sw12, sw16, sw20, sw_low10, ext_zeros, of6_4, of32_4, of32_16]
theorem brkpt (c : Ctl) (code : Word) : Statement (.brkpt c code) :=
  of_shape rfl rfl rfl fun hw => by simp (disch := decide) [-Nat.reduceAdd, Fields.shape, shapeControl, ext_right, ext_left, ext_self, bit_right, bit_left, -BitVec.getLsbD_eq_getElem, sw5, sw6, sw8, sw10, sw12, sw16, sw20, sw_low10, ext_zeros, of6_4, of32_4, of32_16]
theorem ld (m : MemOp) : Statement (.ld m) :=
  of_shape rfl rfl rfl fun hw => by simp (disch := decide) [-Nat.reduceAdd, Fields.shape, shapeMem, ext_right, ext_left, ext_self, bit_right, bit_left, -BitVec.getLsbD_eq_getElem, sw5, sw6, sw8, sw10, sw12, sw16, sw20, sw_low10, ext_zeros, of6_4, of32_4, of32_16]
theorem st (m : MemOp) : Statement (.st m) :=
  of_shape rfl rfl rfl fun hw => by simp (disch := decide) [-Nat.reduceAdd, Fields.shape, shapeMem, ext_right, ext_left, ext_self, bit_right, bit_left, -BitVec.getLsbD_eq_getElem, sw5, sw6, sw8, sw10, sw12, sw16, sw20, sw_low10, ext_zeros, of6_4, of32_4, of32_16]
theorem ldq (m : MemOp) : Statement (.ldq m) :=
  of_shape rfl rfl rfl fun hw => by simp (disch := decide) [-Nat.reduceAdd, Fields.shape, shapeMem, ext_right, ext_left, ext_self, bit_right, bit_left, -BitVec.getLsbD_eq_getElem, sw5, sw6, sw8, sw10, sw12, sw16, sw20, sw_low10, ext_zeros, of6_4, of32_4, of32_16]
theorem prf (o : HintOp) (l2 : Bool) : Statement (.prf o l2) :=
  of_shape rfl rfl rfl fun hw => by simp (disch := decide) [-Nat.reduceAdd, Fields.shape, shapeMem, ext_right, ext_left, ext_self, bit_right, bit_left, -BitVec.getLsbD_eq_getElem, sw5, sw6, sw8, sw10, sw12, sw16, sw20, sw_low10, ext_zeros, of6_4, of32_4, of32_16]
theorem atom (o : AtomOp) (k : AOp) (d : Reg) : Statement (.atom o k d) :=
  of_shape rfl rfl rfl fun hw => by simp (disch := decide) [-Nat.reduceAdd, Fields.shape, shapeMem, ext_right, ext_left, ext_self, bit_right, bit_left, -BitVec.getLsbD_eq_getElem, sw5, sw6, sw8, sw10, sw12, sw16, sw20, sw_low10, ext_zeros, of6_4, of32_4, of32_16]
theorem red (o : AtomOp) (k : AOp) : Statement (.red o k) :=
  of_shape rfl rfl rfl fun hw => by simp (disch := decide) [-Nat.reduceAdd, Fields.shape, shapeMem, ext_right, ext_left, ext_self, bit_right, bit_left, -BitVec.getLsbD_eq_getElem, sw5, sw6, sw8, sw10, sw12, sw16, sw20, sw_low10, ext_zeros, of6_4, of32_4, of32_16]
theorem cas (o : AtomOp) (d : Reg) : Statement (.cas o d) :=
  of_shape rfl rfl rfl fun hw => by simp (disch := decide) [-Nat.reduceAdd, Fields.shape, shapeMem, ext_right, ext_left, ext_self, bit_right, bit_left, -BitVec.getLsbD_eq_getElem, sw5, sw6, sw8, sw10, sw12, sw16, sw20, sw_low10, ext_zeros, of6_4, of32_4, of32_16]
theorem cas2 (o : AtomOp) (d : Reg) : Statement (.cas2 o d) :=
  of_shape rfl rfl rfl fun hw => by simp (disch := decide) [-Nat.reduceAdd, Fields.shape, shapeMem, ext_right, ext_left, ext_self, bit_right, bit_left, -BitVec.getLsbD_eq_getElem, sw5, sw6, sw8, sw10, sw12, sw16, sw20, sw_low10, ext_zeros, of6_4, of32_4, of32_16]
theorem atomr (o : AtomOp) (k : AOp) (d : Reg) : Statement (.atomr o k d) :=
  of_shape rfl rfl rfl fun hw => by simp (disch := decide) [-Nat.reduceAdd, Fields.shape, shapeMem, ext_right, ext_left, ext_self, bit_right, bit_left, -BitVec.getLsbD_eq_getElem, sw5, sw6, sw8, sw10, sw12, sw16, sw20, sw_low10, ext_zeros, of6_4, of32_4, of32_16]
theorem fence (c : Ctl) (scope : Scope) (ord : Order) (st : BitVec 7) (path : BitVec 5) : Statement (.fence c scope ord st path) :=
  of_shape rfl rfl rfl fun hw => by simp (disch := decide) [-Nat.reduceAdd, Fields.shape, shapeMem, ext_right, ext_left, ext_self, bit_right, bit_left, -BitVec.getLsbD_eq_getElem, sw5, sw6, sw8, sw10, sw12, sw16, sw20, sw_low10, ext_zeros, of6_4, of32_4, of32_16]
theorem lease (c : Ctl) (n : BitVec 8) : Statement (.lease c n) :=
  of_shape rfl rfl rfl fun hw => by simp (disch := decide) [-Nat.reduceAdd, Fields.shape, shapeMem, ext_right, ext_left, ext_self, bit_right, bit_left, -BitVec.getLsbD_eq_getElem, sw5, sw6, sw8, sw10, sw12, sw16, sw20, sw_low10, ext_zeros, of6_4, of32_4, of32_16]
theorem cwb (o : HintOp) (flush : Bool) : Statement (.cwb o flush) :=
  of_shape rfl rfl rfl fun hw => by simp (disch := decide) [-Nat.reduceAdd, Fields.shape, shapeMem, ext_right, ext_left, ext_self, bit_right, bit_left, -BitVec.getLsbD_eq_getElem, sw5, sw6, sw8, sw10, sw12, sw16, sw20, sw_low10, ext_zeros, of6_4, of32_4, of32_16]
theorem tkwait (c : Ctl) : Statement (.tkwait c) :=
  of_shape rfl rfl rfl fun hw => by simp (disch := decide) [-Nat.reduceAdd, Fields.shape, shapeMem, ext_right, ext_left, ext_self, bit_right, bit_left, -BitVec.getLsbD_eq_getElem, sw5, sw6, sw8, sw10, sw12, sw16, sw20, sw_low10, ext_zeros, of6_4, of32_4, of32_16]
theorem tkstat (c : Ctl) (d : Reg) : Statement (.tkstat c d) :=
  of_shape rfl rfl rfl fun hw => by simp (disch := decide) [-Nat.reduceAdd, Fields.shape, shapeMem, ext_right, ext_left, ext_self, bit_right, bit_left, -BitVec.getLsbD_eq_getElem, sw5, sw6, sw8, sw10, sw12, sw16, sw20, sw_low10, ext_zeros, of6_4, of32_4, of32_16]
theorem semset (c : Ctl) (scope : Scope) (a : Reg) (n : BitVec 6) : Statement (.semset c scope a n) :=
  of_shape rfl rfl rfl fun hw => by simp (disch := decide) [-Nat.reduceAdd, Fields.shape, shapeSync, ext_right, ext_left, ext_self, bit_right, bit_left, -BitVec.getLsbD_eq_getElem, sw5, sw6, sw8, sw10, sw12, sw16, sw20, sw_low10, ext_zeros, of6_4, of32_4, of32_16]
theorem seminc (c : Ctl) (scope : Scope) (a : Amt16) (n : BitVec 6) : Statement (.seminc c scope a n) :=
  by
  cases a <;> exact of_shape rfl rfl rfl fun hw => by simp (disch := decide) [-Nat.reduceAdd, Fields.shape, shapeSync, ext_right, ext_left, ext_self, bit_right, bit_left, -BitVec.getLsbD_eq_getElem, sw5, sw6, sw8, sw10, sw12, sw16, sw20, sw_low10, ext_zeros, of6_4, of32_4, of32_16]
theorem semwait (c : Ctl) (dec : Bool) (d : Option Reg) (a : Reg) (n : BitVec 6) : Statement (.semwait c dec d a n) :=
  by
  cases d <;> exact of_shape rfl rfl rfl fun hw => by simp (disch := decide) [-Nat.reduceAdd, Fields.shape, shapeSync, ext_right, ext_left, ext_self, bit_right, bit_left, -BitVec.getLsbD_eq_getElem, sw5, sw6, sw8, sw10, sw12, sw16, sw20, sw_low10, ext_zeros, of6_4, of32_4, of32_16]
theorem barinit (c : Ctl) (level : Scope) (rmt : Bool) (a : Reg) (n : BitVec 6) : Statement (.barinit c level rmt a n) :=
  of_shape rfl rfl rfl fun hw => by simp (disch := decide) [-Nat.reduceAdd, Fields.shape, shapeSync, ext_right, ext_left, ext_self, bit_right, bit_left, -BitVec.getLsbD_eq_getElem, sw5, sw6, sw8, sw10, sw12, sw16, sw20, sw_low10, ext_zeros, of6_4, of32_4, of32_16]
theorem bararr (c : Ctl) (level : Scope) (d : Option Reg) (n : BitVec 6) (count : BitVec 10) : Statement (.bararr c level d n count) :=
  by
  cases d <;> exact of_shape rfl rfl rfl fun hw => by simp (disch := decide) [-Nat.reduceAdd, Fields.shape, shapeSync, ext_right, ext_left, ext_self, bit_right, bit_left, -BitVec.getLsbD_eq_getElem, sw5, sw6, sw8, sw10, sw12, sw16, sw20, sw_low10, ext_zeros, of6_4, of32_4, of32_16]
theorem barwait (c : Ctl) (level : Scope) (a : Reg) (n : BitVec 6) : Statement (.barwait c level a n) :=
  of_shape rfl rfl rfl fun hw => by simp (disch := decide) [-Nat.reduceAdd, Fields.shape, shapeSync, ext_right, ext_left, ext_self, bit_right, bit_left, -BitVec.getLsbD_eq_getElem, sw5, sw6, sw8, sw10, sw12, sw16, sw20, sw_low10, ext_zeros, of6_4, of32_4, of32_16]
theorem rbararr (c : Ctl) (scope : Scope) (a : Reg) (n : BitVec 4) (count : BitVec 10) : Statement (.rbararr c scope a n count) :=
  of_shape rfl rfl rfl fun hw => by simp (disch := decide) [-Nat.reduceAdd, Fields.shape, shapeSync, ext_right, ext_left, ext_self, bit_right, bit_left, -BitVec.getLsbD_eq_getElem, sw5, sw6, sw8, sw10, sw12, sw16, sw20, sw_low10, ext_zeros, of6_4, of32_4, of32_16]
theorem cmset (c : Ctl) (scope : Scope) (a : Reg) (m : BitVec 4) (g : BitVec 3) : Statement (.cmset c scope a m g) :=
  of_shape rfl rfl rfl fun hw => by simp (disch := decide) [-Nat.reduceAdd, Fields.shape, shapeSync, ext_right, ext_left, ext_self, bit_right, bit_left, -BitVec.getLsbD_eq_getElem, sw5, sw6, sw8, sw10, sw12, sw16, sw20, sw_low10, ext_zeros, of6_4, of32_4, of32_16]
theorem cmclr (c : Ctl) (scope : Scope) (a : Reg) (m : BitVec 4) (g : BitVec 3) : Statement (.cmclr c scope a m g) :=
  of_shape rfl rfl rfl fun hw => by simp (disch := decide) [-Nat.reduceAdd, Fields.shape, shapeSync, ext_right, ext_left, ext_self, bit_right, bit_left, -BitVec.getLsbD_eq_getElem, sw5, sw6, sw8, sw10, sw12, sw16, sw20, sw_low10, ext_zeros, of6_4, of32_4, of32_16]
theorem cmwait (c : Ctl) (any : Bool) (a : Reg) (m : BitVec 4) (g : BitVec 3) : Statement (.cmwait c any a m g) :=
  of_shape rfl rfl rfl fun hw => by simp (disch := decide) [-Nat.reduceAdd, Fields.shape, shapeSync, ext_right, ext_left, ext_self, bit_right, bit_left, -BitVec.getLsbD_eq_getElem, sw5, sw6, sw8, sw10, sw12, sw16, sw20, sw_low10, ext_zeros, of6_4, of32_4, of32_16]
theorem cpchain (c : Ctl) (ch : Fin 4) (a : Reg) : Statement (.cpchain c ch a) :=
  of_shape rfl rfl rfl fun hw => by simp (disch := decide) [-Nat.reduceAdd, Fields.shape, shapeCopy, ext_right, ext_left, ext_self, bit_right, bit_left, -BitVec.getLsbD_eq_getElem, sw5, sw6, sw8, sw10, sw12, sw16, sw20, sw_low10, ext_zeros, of6_4, of32_4, of32_16]
theorem tcopy (c : Ctl) (ch : Fin 4) (a : Reg) : Statement (.tcopy c ch a) :=
  of_shape rfl rfl rfl fun hw => by simp (disch := decide) [-Nat.reduceAdd, Fields.shape, shapeCopy, ext_right, ext_left, ext_self, bit_right, bit_left, -BitVec.getLsbD_eq_getElem, sw5, sw6, sw8, sw10, sw12, sw16, sw20, sw_low10, ext_zeros, of6_4, of32_4, of32_16]
theorem cpstat (c : Ctl) (ch : Fin 4) (clr : Bool) (d : Reg) : Statement (.cpstat c ch clr d) :=
  of_shape rfl rfl rfl fun hw => by simp (disch := decide) [-Nat.reduceAdd, Fields.shape, shapeCopy, ext_right, ext_left, ext_self, bit_right, bit_left, -BitVec.getLsbD_eq_getElem, sw5, sw6, sw8, sw10, sw12, sw16, sw20, sw_low10, ext_zeros, of6_4, of32_4, of32_16]
theorem cpabort (c : Ctl) (ch : Fin 4) : Statement (.cpabort c ch) :=
  of_shape rfl rfl rfl fun hw => by simp (disch := decide) [-Nat.reduceAdd, Fields.shape, shapeCopy, ext_right, ext_left, ext_self, bit_right, bit_left, -BitVec.getLsbD_eq_getElem, sw5, sw6, sw8, sw10, sw12, sw16, sw20, sw_low10, ext_zeros, of6_4, of32_4, of32_16]
theorem rwopen (c : Ctl) (slot : Fin 4) (d : Reg) (f n : BitVec 10) : Statement (.rwopen c slot d f n) :=
  of_shape rfl rfl rfl fun hw => by simp (disch := decide) [-Nat.reduceAdd, Fields.shape, shapeCopy, ext_right, ext_left, ext_self, bit_right, bit_left, -BitVec.getLsbD_eq_getElem, sw5, sw6, sw8, sw10, sw12, sw16, sw20, sw_low10, ext_zeros, of6_4, of32_4, of32_16]
theorem rwclose (c : Ctl) (slot : Fin 4) : Statement (.rwclose c slot) :=
  of_shape rfl rfl rfl fun hw => by simp (disch := decide) [-Nat.reduceAdd, Fields.shape, shapeCopy, ext_right, ext_left, ext_self, bit_right, bit_left, -BitVec.getLsbD_eq_getElem, sw5, sw6, sw8, sw10, sw12, sw16, sw20, sw_low10, ext_zeros, of6_4, of32_4, of32_16]
theorem obres (c : Ctl) (res : Fin 16) (d a : Reg) : Statement (.obres c res d a) :=
  of_shape rfl rfl rfl fun hw => by simp (disch := decide) [-Nat.reduceAdd, Fields.shape, shapeMatrix, ext_right, ext_left, ext_self, bit_right, bit_left, -BitVec.getLsbD_eq_getElem, sw5, sw6, sw8, sw10, sw12, sw16, sw20, sw_low10, ext_zeros, of6_4, of32_4, of32_16]
theorem obfree (c : Ctl) (res : Fin 16) : Statement (.obfree c res) :=
  of_shape rfl rfl rfl fun hw => by simp (disch := decide) [-Nat.reduceAdd, Fields.shape, shapeMatrix, ext_right, ext_left, ext_self, bit_right, bit_left, -BitVec.getLsbD_eq_getElem, sw5, sw6, sw8, sw10, sw12, sw16, sw20, sw_low10, ext_zeros, of6_4, of32_4, of32_16]
theorem obset (c : Ctl) (res : Fin 16) (a : Reg) : Statement (.obset c res a) :=
  of_shape rfl rfl rfl fun hw => by simp (disch := decide) [-Nat.reduceAdd, Fields.shape, shapeMatrix, ext_right, ext_left, ext_self, bit_right, bit_left, -BitVec.getLsbD_eq_getElem, sw5, sw6, sw8, sw10, sw12, sw16, sw20, sw_low10, ext_zeros, of6_4, of32_4, of32_16]
theorem thand (c : Ctl) (h res : Fin 16) (col unbind : Bool) (a b : Reg) : Statement (.thand c h res col unbind a b) :=
  of_shape rfl rfl rfl fun hw => by simp (disch := decide) [-Nat.reduceAdd, Fields.shape, shapeMatrix, ext_right, ext_left, ext_self, bit_right, bit_left, -BitVec.getLsbD_eq_getElem, sw5, sw6, sw8, sw10, sw12, sw16, sw20, sw_low10, ext_zeros, of6_4, of32_4, of32_16]
theorem mma (o : MxOp) : Statement (.mma o) :=
  of_shape rfl rfl rfl fun hw => by simp (disch := decide) [-Nat.reduceAdd, Fields.shape, shapeMatrix, ext_right, ext_left, ext_self, bit_right, bit_left, -BitVec.getLsbD_eq_getElem, sw5, sw6, sw8, sw10, sw12, sw16, sw20, sw_low10, ext_zeros, of6_4, of32_4, of32_16]
theorem mmas (o : MxOp) : Statement (.mmas o) :=
  of_shape rfl rfl rfl fun hw => by simp (disch := decide) [-Nat.reduceAdd, Fields.shape, shapeMatrix, ext_right, ext_left, ext_self, bit_right, bit_left, -BitVec.getLsbD_eq_getElem, sw5, sw6, sw8, sw10, sw12, sw16, sw20, sw_low10, ext_zeros, of6_4, of32_4, of32_16]
theorem accz (o : MxOp) : Statement (.accz o) :=
  of_shape rfl rfl rfl fun hw => by simp (disch := decide) [-Nat.reduceAdd, Fields.shape, shapeMatrix, ext_right, ext_left, ext_self, bit_right, bit_left, -BitVec.getLsbD_eq_getElem, sw5, sw6, sw8, sw10, sw12, sw16, sw20, sw_low10, ext_zeros, of6_4, of32_4, of32_16]
theorem accld (o : MxOp) : Statement (.accld o) :=
  of_shape rfl rfl rfl fun hw => by simp (disch := decide) [-Nat.reduceAdd, Fields.shape, shapeMatrix, ext_right, ext_left, ext_self, bit_right, bit_left, -BitVec.getLsbD_eq_getElem, sw5, sw6, sw8, sw10, sw12, sw16, sw20, sw_low10, ext_zeros, of6_4, of32_4, of32_16]
theorem accdrain (o : MxOp) (rm : Rm) (sat : Bool) (seed : Option Reg) : Statement (.accdrain o rm sat seed) :=
  of_shape rfl rfl rfl fun hw => by
    have h : (Machine.mxFields o true false false && (seed.isSome == (rm == .sr))) = true := hw
    simp only [Bool.and_eq_true, beq_iff_eq] at h
    have h := h.2
    cases seed <;> cases rm <;> first | (exact absurd h (by decide)) | (exact Bool.noConfusion h) | simp (disch := decide) [-Nat.reduceAdd, Fields.shape, shapeMatrix, ext_right, ext_left, ext_self, bit_right, bit_left, -BitVec.getLsbD_eq_getElem, sw5, sw6, sw8, sw10, sw12, sw16, sw20, sw_low10, ext_zeros, of6_4, of32_4, of32_16]
theorem accmx (o : MxOp) (rm : Rm) (seed : Option Reg) : Statement (.accmx o rm seed) :=
  of_shape rfl rfl rfl fun hw => by
    have h : (Machine.mxFields o true true false && (seed.isSome == (rm == .sr))) = true := hw
    simp only [Bool.and_eq_true, beq_iff_eq] at h
    have h := h.2
    cases seed <;> cases rm <;> first | (exact absurd h (by decide)) | (exact Bool.noConfusion h) | simp (disch := decide) [-Nat.reduceAdd, Fields.shape, shapeMatrix, ext_right, ext_left, ext_self, bit_right, bit_left, -BitVec.getLsbD_eq_getElem, sw5, sw6, sw8, sw10, sw12, sw16, sw20, sw_low10, ext_zeros, of6_4, of32_4, of32_16]
theorem mxstat (c : Ctl) (sel : Fin 4) (clr : Bool) (d : Reg) : Statement (.mxstat c sel clr d) :=
  of_shape rfl rfl rfl fun hw => by simp (disch := decide) [-Nat.reduceAdd, Fields.shape, shapeMatrix, ext_right, ext_left, ext_self, bit_right, bit_left, -BitVec.getLsbD_eq_getElem, sw5, sw6, sw8, sw10, sw12, sw16, sw20, sw_low10, ext_zeros, of6_4, of32_4, of32_16]
theorem nbind (c : Ctl) (nib : Fin 4) (a : Reg) (semen : Bool) (sem : BitVec 6) : Statement (.nbind c nib a semen sem) :=
  of_shape rfl rfl rfl fun hw => by simp (disch := decide) [-Nat.reduceAdd, Fields.shape, shapeNib, ext_right, ext_left, ext_self, bit_right, bit_left, -BitVec.getLsbD_eq_getElem, sw5, sw6, sw8, sw10, sw12, sw16, sw20, sw_low10, ext_zeros, of6_4, of32_4, of32_16]
theorem nunbind (c : Ctl) (nib : Fin 4) : Statement (.nunbind c nib) :=
  of_shape rfl rfl rfl fun hw => by simp (disch := decide) [-Nat.reduceAdd, Fields.shape, shapeNib, ext_right, ext_left, ext_self, bit_right, bit_left, -BitVec.getLsbD_eq_getElem, sw5, sw6, sw8, sw10, sw12, sw16, sw20, sw_low10, ext_zeros, of6_4, of32_4, of32_16]
theorem ngrant (c : Ctl) (nib : Fin 4) (rdr : Bool) (a : Reg) (count : Fin 16) : Statement (.ngrant c nib rdr a count) :=
  of_shape rfl rfl rfl fun hw => by simp (disch := decide) [-Nat.reduceAdd, Fields.shape, shapeNib, ext_right, ext_left, ext_self, bit_right, bit_left, -BitVec.getLsbD_eq_getElem, sw5, sw6, sw8, sw10, sw12, sw16, sw20, sw_low10, ext_zeros, of6_4, of32_4, of32_16]
theorem nstat (c : Ctl) (nib : Fin 4) (sel : Fin 3) (clr : Bool) (d : Reg) (a : Option Reg) : Statement (.nstat c nib sel clr d a) :=
  of_shape rfl rfl rfl fun hw => by
    have h : ((!clr || sel == 1) && (a.isSome == (sel == 2))) = true := hw
    simp only [Bool.and_eq_true, beq_iff_eq] at h
    have h := h.2
    cases a <;> simp at h <;> simp (disch := decide) [-Nat.reduceAdd, Fields.shape, shapeNib, ext_right, ext_left, ext_self, bit_right, bit_left, -BitVec.getLsbD_eq_getElem, sw5, sw6, sw8, sw10, sw12, sw16, sw20, sw_low10, ext_zeros, of6_4, of32_4, of32_16] <;> simp [h]
theorem nldc (m : MemOp) : Statement (.nldc m) :=
  of_shape rfl rfl rfl fun hw => by simp (disch := decide) [-Nat.reduceAdd, Fields.shape, shapeNib, ext_right, ext_left, ext_self, bit_right, bit_left, -BitVec.getLsbD_eq_getElem, sw5, sw6, sw8, sw10, sw12, sw16, sw20, sw_low10, ext_zeros, of6_4, of32_4, of32_16]
theorem nabort (c : Ctl) (nib : Fin 4) (a : Option Reg) : Statement (.nabort c nib a) :=
  by
  cases a <;> exact of_shape rfl rfl rfl fun hw => by simp (disch := decide) [-Nat.reduceAdd, Fields.shape, shapeNib, ext_right, ext_left, ext_self, bit_right, bit_left, -BitVec.getLsbD_eq_getElem, sw5, sw6, sw8, sw10, sw12, sw16, sw20, sw_low10, ext_zeros, of6_4, of32_4, of32_16]
theorem amov (d : Fin 16) (a : XSrc) : Statement (.amov d a) :=
  by
  cases a <;> exact of_shape rfl rfl rfl fun hw => by simp (disch := decide) [-Nat.reduceAdd, Fields.shape, shapeSlice, ext_right, ext_left, ext_self, bit_right, bit_left, -BitVec.getLsbD_eq_getElem, sw5, sw6, sw8, sw10, sw12, sw16, sw20, sw_low10, ext_zeros, of6_4, of32_4, of32_16]
theorem aadd (d a : Fin 16) (b : XSrc) : Statement (.aadd d a b) :=
  by
  cases b <;> exact of_shape rfl rfl rfl fun hw => by simp (disch := decide) [-Nat.reduceAdd, Fields.shape, shapeSlice, ext_right, ext_left, ext_self, bit_right, bit_left, -BitVec.getLsbD_eq_getElem, sw5, sw6, sw8, sw10, sw12, sw16, sw20, sw_low10, ext_zeros, of6_4, of32_4, of32_16]
theorem aloop (a : Fin 16) (off : Word) : Statement (.aloop a off) :=
  of_shape rfl rfl rfl fun hw => by simp (disch := decide) [-Nat.reduceAdd, Fields.shape, shapeSlice, ext_right, ext_left, ext_self, bit_right, bit_left, -BitVec.getLsbD_eq_getElem, sw5, sw6, sw8, sw10, sw12, sw16, sw20, sw_low10, ext_zeros, of6_4, of32_4, of32_16]
theorem aldq (q a b : Fin 16) (off : Word) : Statement (.aldq q a b off) :=
  of_shape rfl rfl rfl fun hw => by simp (disch := decide) [-Nat.reduceAdd, Fields.shape, shapeSlice, ext_right, ext_left, ext_self, bit_right, bit_left, -BitVec.getLsbD_eq_getElem, sw5, sw6, sw8, sw10, sw12, sw16, sw20, sw_low10, ext_zeros, of6_4, of32_4, of32_16]
theorem astq (q a b : Fin 16) (off : Word) : Statement (.astq q a b off) :=
  of_shape rfl rfl rfl fun hw => by simp (disch := decide) [-Nat.reduceAdd, Fields.shape, shapeSlice, ext_right, ext_left, ext_self, bit_right, bit_left, -BitVec.getLsbD_eq_getElem, sw5, sw6, sw8, sw10, sw12, sw16, sw20, sw_low10, ext_zeros, of6_4, of32_4, of32_16]
theorem aend : Statement .aend :=
  of_shape rfl rfl rfl fun hw => by simp (disch := decide) [-Nat.reduceAdd, Fields.shape, shapeSlice, ext_right, ext_left, ext_self, bit_right, bit_left, -BitVec.getLsbD_eq_getElem, sw5, sw6, sw8, sw10, sw12, sw16, sw20, sw_low10, ext_zeros, of6_4, of32_4, of32_16]
theorem csrr (c : Ctl) (d : Reg) (n : BitVec 12) : Statement (.csrr c d n) :=
  of_shape rfl rfl rfl fun hw => by simp (disch := decide) [-Nat.reduceAdd, Fields.shape, shapeSystem, ext_right, ext_left, ext_self, bit_right, bit_left, -BitVec.getLsbD_eq_getElem, sw5, sw6, sw8, sw10, sw12, sw16, sw20, sw_low10, ext_zeros, of6_4, of32_4, of32_16]
theorem csrw (c : Ctl) (a : Reg) (n : BitVec 12) : Statement (.csrw c a n) :=
  of_shape rfl rfl rfl fun hw => by simp (disch := decide) [-Nat.reduceAdd, Fields.shape, shapeSystem, ext_right, ext_left, ext_self, bit_right, bit_left, -BitVec.getLsbD_eq_getElem, sw5, sw6, sw8, sw10, sw12, sw16, sw20, sw_low10, ext_zeros, of6_4, of32_4, of32_16]
theorem tlbinv (c : Ctl) (kind : Fin 3) (pkg : Bool) (a : Option Reg) (pasid : BitVec 20) : Statement (.tlbinv c kind pkg a pasid) :=
  of_shape rfl rfl rfl fun hw => by
    have h : (true && (a.isSome == (kind == 0))) = true := hw
    simp only [Bool.and_eq_true, beq_iff_eq] at h
    have h := h.2
    cases a <;> simp at h <;> simp (disch := decide) [-Nat.reduceAdd, Fields.shape, shapeSystem, ext_right, ext_left, ext_self, bit_right, bit_left, -BitVec.getLsbD_eq_getElem, sw5, sw6, sw8, sw10, sw12, sw16, sw20, sw_low10, ext_zeros, of6_4, of32_4, of32_16] <;> simp [h]
theorem rmapinv (c : Ctl) (a : Reg) (count : BitVec 16) : Statement (.rmapinv c a count) :=
  of_shape rfl rfl rfl fun hw => by simp (disch := decide) [-Nat.reduceAdd, Fields.shape, shapeSystem, ext_right, ext_left, ext_self, bit_right, bit_left, -BitVec.getLsbD_eq_getElem, sw5, sw6, sw8, sw10, sw12, sw16, sw20, sw_low10, ext_zeros, of6_4, of32_4, of32_16]
theorem ctxsave (c : Ctl) (d a : Reg) (slot : BitVec 5) : Statement (.ctxsave c d a slot) :=
  of_shape rfl rfl rfl fun hw => by simp (disch := decide) [-Nat.reduceAdd, Fields.shape, shapeSystem, ext_right, ext_left, ext_self, bit_right, bit_left, -BitVec.getLsbD_eq_getElem, sw5, sw6, sw8, sw10, sw12, sw16, sw20, sw_low10, ext_zeros, of6_4, of32_4, of32_16]
theorem ctxload (c : Ctl) (d a : Reg) : Statement (.ctxload c d a) :=
  of_shape rfl rfl rfl fun hw => by simp (disch := decide) [-Nat.reduceAdd, Fields.shape, shapeSystem, ext_right, ext_left, ext_self, bit_right, bit_left, -BitVec.getLsbD_eq_getElem, sw5, sw6, sw8, sw10, sw12, sw16, sw20, sw_low10, ext_zeros, of6_4, of32_4, of32_16]
theorem dbghalt (c : Ctl) : Statement (.dbghalt c) :=
  of_shape rfl rfl rfl fun hw => by simp (disch := decide) [-Nat.reduceAdd, Fields.shape, shapeSystem, ext_right, ext_left, ext_self, bit_right, bit_left, -BitVec.getLsbD_eq_getElem, sw5, sw6, sw8, sw10, sw12, sw16, sw20, sw_low10, ext_zeros, of6_4, of32_4, of32_16]
theorem dbgres (c : Ctl) : Statement (.dbgres c) :=
  of_shape rfl rfl rfl fun hw => by simp (disch := decide) [-Nat.reduceAdd, Fields.shape, shapeSystem, ext_right, ext_left, ext_self, bit_right, bit_left, -BitVec.getLsbD_eq_getElem, sw5, sw6, sw8, sw10, sw12, sw16, sw20, sw_low10, ext_zeros, of6_4, of32_4, of32_16]
theorem clauseFetch (core slot : Nat) : Statement (.clauseFetch core slot) := of_event rfl
theorem stallExpiry (core slot : Nat) : Statement (.stallExpiry core slot) := of_event rfl
theorem yieldHoldExpiry (core slot : Nat) : Statement (.yieldHoldExpiry core slot) := of_event rfl
theorem watchdog (core slot : Nat) : Statement (.watchdog core slot) := of_event rfl
theorem frontierSpill (core slot : Nat) : Statement (.frontierSpill core slot) := of_event rfl
theorem frontierRefill (core slot : Nat) : Statement (.frontierRefill core slot) := of_event rfl
theorem spilledMerge (core slot : Nat) : Statement (.spilledMerge core slot) := of_event rfl
theorem frontierSpillFault (core slot : Nat) (repair : Bool) : Statement (.frontierSpillFault core slot repair) := of_event rfl
theorem trapEntry (core slot : Nat) : Statement (.trapEntry core slot) := of_event rfl
theorem trapEscalation (core slot : Nat) : Statement (.trapEscalation core slot) := of_event rfl
theorem longLatencyComplete (core slot op : Nat) : Statement (.longLatencyComplete core slot op) := of_event rfl
theorem storeAck (core slot id : Nat) : Statement (.storeAck core slot id) := of_event rfl
theorem faultTicket (core miss : Nat) : Statement (.faultTicket core miss) := of_event rfl
theorem busyRetry (core miss : Nat) : Statement (.busyRetry core miss) := of_event rfl
theorem pageService (die index : Nat) : Statement (.pageService die index) := of_event rfl
theorem replayNotice (core : Nat) (tid : Word) : Statement (.replayNotice core tid) := of_event rfl
theorem ticketFailure (core : Nat) (tid : Word) (status : BitVec 4) : Statement (.ticketFailure core tid status) := of_event rfl
theorem pageHoldExpiry (die index : Nat) : Statement (.pageHoldExpiry die index) := of_event rfl
theorem ticketStatusQuery (core : Nat) (tid : Word) : Statement (.ticketStatusQuery core tid) := of_event rfl
theorem linklostTimeout (core : Nat) (tid : Word) : Statement (.linklostTimeout core tid) := of_event rfl
theorem ticketQueryAnswer (core : Nat) (tid : Word) (ans : TkAnswer) : Statement (.ticketQueryAnswer core tid ans) := of_event rfl
theorem atsTranslationRequest (die : Nat) : Statement (.atsTranslationRequest die) := of_event rfl
theorem atsCompletion (die : Nat) (ans : AtsAnswer) : Statement (.atsCompletion die ans) := of_event rfl
theorem priPageRequest (die : Nat) : Statement (.priPageRequest die) := of_event rfl
theorem prgSuccess (die group : Nat) : Statement (.prgSuccess die group) := of_event rfl
theorem prgInvalidRequest (die group : Nat) : Statement (.prgInvalidRequest die group) := of_event rfl
theorem prgResponseFailure (die group : Nat) : Statement (.prgResponseFailure die group) := of_event rfl
theorem priStopMarker (pasid : BitVec 20) : Statement (.priStopMarker pasid) := of_event rfl
theorem atsInvalidateRequest (pasid : BitVec 20) (va : Dword) (size : Nat) : Statement (.atsInvalidateRequest pasid va size) := of_event rfl
theorem globalInvalidate (va : Dword) (size : Nat) : Statement (.globalInvalidate va size) := of_event rfl
theorem idleAdvance (core : Nat) : Statement (.idleAdvance core) := of_event rfl
theorem ltlimAdvance (die : Nat) : Statement (.ltlimAdvance die) := of_event rfl
theorem heldWriteRelease (die : Nat) : Statement (.heldWriteRelease die) := of_event rfl
theorem scrubVisit (die : Nat) : Statement (.scrubVisit die) := of_event rfl
theorem l2Eviction (die line : Nat) : Statement (.l2Eviction die line) := of_event rfl
theorem directoryRequest (die line : Nat) (kind : DirKind) : Statement (.directoryRequest die line kind) := of_event rfl
theorem directoryRetry (die line : Nat) : Statement (.directoryRetry die line) := of_event rfl
theorem goMessage (line : Nat) : Statement (.goMessage line) := of_event rfl
theorem reservationTimeout (line : Nat) : Statement (.reservationTimeout line) := of_event rfl
theorem writeback (die line : Nat) : Statement (.writeback die line) := of_event rfl
theorem forward (line : Nat) : Statement (.forward line) := of_event rfl
theorem invalidation (die line : Nat) : Statement (.invalidation die line) := of_event rfl
theorem backInvalidateSnoop (line : Nat) : Statement (.backInvalidateSnoop line) := of_event rfl
theorem hostAccess (r : HostReq) : Statement (.hostAccess r) := of_event rfl
theorem cxlCacheSnoop (hpa : Nat) : Statement (.cxlCacheSnoop hpa) := of_event rfl
theorem barrierArrival (index : Nat) : Statement (.barrierArrival index) := of_event rfl
theorem syncWrite (core : Nat) : Statement (.syncWrite core) := of_event rfl
theorem copyRecordRead (core ch : Nat) : Statement (.copyRecordRead core ch) := of_event rfl
theorem copyRow (core ch row : Nat) : Statement (.copyRow core ch row) := of_event rfl
theorem chunkSignal (core ch chunk : Nat) : Statement (.chunkSignal core ch chunk) := of_event rfl
theorem recordCompletion (core ch : Nat) : Statement (.recordCompletion core ch) := of_event rfl
theorem inboundWindowWrite (core : Nat) : Statement (.inboundWindowWrite core) := of_event rfl
theorem matrixEntryStart (core : Nat) (drain : Bool) : Statement (.matrixEntryStart core drain) := of_event rfl
theorem matrixEntryComplete (core : Nat) (drain : Bool) : Statement (.matrixEntryComplete core drain) := of_event rfl
theorem governorRelease (core : Nat) : Statement (.governorRelease core) := of_event rfl
theorem nbindComplete (core nib : Nat) : Statement (.nbindComplete core nib) := of_event rfl
theorem strokeStore (core : Nat) : Statement (.strokeStore core) := of_event rfl
theorem strokeLoad (core : Nat) : Statement (.strokeLoad core) := of_event rfl
theorem fillLimitExpiry (core nib slot : Nat) : Statement (.fillLimitExpiry core nib slot) := of_event rfl
theorem nibPass (core : Nat) : Statement (.nibPass core) := of_event rfl
theorem nibApplicationDone (core : Nat) : Statement (.nibApplicationDone core) := of_event rfl
theorem traceLoad (core : Nat) : Statement (.traceLoad core) := of_event rfl
theorem waitLimitExpiry (core nib index : Nat) : Statement (.waitLimitExpiry core nib index) := of_event rfl
theorem consume (core : Nat) : Statement (.consume core) := of_event rfl
theorem submit (die : Nat) : Statement (.submit die) := of_event rfl
theorem gangPlacement (graph node : Nat) (p : Place) : Statement (.gangPlacement graph node p) := of_event rfl
theorem gridPlacement (graph node : Nat) (ps : List Place) : Statement (.gridPlacement graph node ps) := of_event rfl
theorem placementWaitExpiry (graph node : Nat) (quads : List (Fin 4 × Fin 24)) : Statement (.placementWaitExpiry graph node quads) := of_event rfl
theorem workgroupRetirement (core wg : Nat) : Statement (.workgroupRetirement core wg) := of_event rfl
theorem taskRetirement (graph node : Nat) : Statement (.taskRetirement graph node) := of_event rfl
theorem successorDecrement (die : Nat) : Statement (.successorDecrement die) := of_event rfl
theorem condNode (graph node : Nat) : Statement (.condNode graph node) := of_event rfl
theorem whileNode (graph node : Nat) : Statement (.whileNode graph node) := of_event rfl
theorem mailboxServe (core : Nat) : Statement (.mailboxServe core) := of_event rfl
theorem alloc (die : Nat) : Statement (.alloc die) := of_event rfl
theorem free (die : Nat) : Statement (.free die) := of_event rfl
theorem hostmsg (core : Nat) : Statement (.hostmsg core) := of_event rfl
theorem abort (core : Nat) : Statement (.abort core) := of_event rfl
theorem systemCallRing (die : Nat) : Statement (.systemCallRing die) := of_event rfl
theorem svcReply (core : Nat) : Statement (.svcReply core) := of_event rfl
theorem preempt : Statement .preempt := of_event rfl
theorem arenaRegister : Statement .arenaRegister := of_event rfl
theorem arenaRemove : Statement .arenaRemove := of_event rfl
theorem rootcap : Statement .rootcap := of_event rfl
theorem twinConfigure : Statement .twinConfigure := of_event rfl
theorem twinDissolve : Statement .twinDissolve := of_event rfl
theorem mode : Statement .mode := of_event rfl
theorem modeChange (func : Fin 5) : Statement (.modeChange func) := of_event rfl
theorem podbarAllot : Statement .podbarAllot := of_event rfl
theorem podbarRelease : Statement .podbarRelease := of_event rfl
theorem h2dBell (v : Word) : Statement (.h2dBell v) := of_event rfl
theorem h2dEntryRecheck : Statement .h2dEntryRecheck := of_event rfl
theorem h2dRingConfig (size : Bool) (v : Dword) : Statement (.h2dRingConfig size v) := of_event rfl
theorem d2hRingConfig (size : Bool) (v : Dword) : Statement (.d2hRingConfig size v) := of_event rfl
theorem d2hAck (v : Word) : Statement (.d2hAck v) := of_event rfl
theorem d2hWrite : Statement .d2hWrite := of_event rfl
theorem hostLinkLoss (unacked : Nat) : Statement (.hostLinkLoss unacked) := of_event rfl
theorem hostLinkReturn (width speed : Fin 4) : Statement (.hostLinkReturn width speed) := of_event rfl
theorem flitReceive (port : Fin 15) (flit : BitVec 2048) : Statement (.flitReceive port flit) := of_event rfl
theorem nak (port : Fin 15) (lseq : BitVec 12) : Statement (.nak port lseq) := of_event rfl
theorem endToEndAck (st : StreamId) (eseq : Word) : Statement (.endToEndAck st eseq) := of_event rfl
theorem endToEndAckTimer (st : StreamId) : Statement (.endToEndAckTimer st) := of_event rfl
theorem endToEndResend (st : StreamId) : Statement (.endToEndResend st) := of_event rfl
theorem retrain (port : Fin 15) (lanes : Byte) (speed : Fin 3) : Statement (.retrain port lanes speed) := of_event rfl
theorem linkView (port : Fin 15) (rec : BitVec 128) : Statement (.linkView port rec) := of_event rfl
theorem viewAck (port : Fin 15) (crcs : BitVec 128) : Statement (.viewAck port crcs) := of_event rfl
theorem viewTimeout (port : Fin 15) : Statement (.viewTimeout port) := of_event rfl
theorem podLinkDown (port : Fin 15) : Statement (.podLinkDown port) := of_event rfl
theorem dirtyLineOffer (die line : Nat) : Statement (.dirtyLineOffer die line) := of_event rfl
theorem dirtyLineDrop (die line : Nat) : Statement (.dirtyLineDrop die line) := of_event rfl
theorem homeLinePoison (line : Nat) : Statement (.homeLinePoison line) := of_event rfl
theorem unreachableAccessTimeout (index : Nat) : Statement (.unreachableAccessTimeout index) := of_event rfl
theorem digestReceive (pasid : BitVec 20) (agent : Nat) (batch : Nat) (digest : Dword) : Statement (.digestReceive pasid agent batch digest) := of_event rfl
theorem partnerLostTimeout (pasid : BitVec 20) : Statement (.partnerLostTimeout pasid) := of_event rfl
theorem outsideReadData (index : Nat) (data : List Byte) : Statement (.outsideReadData index data) := of_event rfl
theorem reset (r : ResetIn) : Statement (.reset r) := of_event rfl
theorem govbDecrease (die : Fin 4) : Statement (.govbDecrease die) := of_event rfl
theorem govbIncrease (die : Fin 4) : Statement (.govbIncrease die) := of_event rfl
theorem thermalTrip (die : Fin 4) : Statement (.thermalTrip die) := of_event rfl
theorem sensorRefresh (r : Reading) : Statement (.sensorRefresh r) := of_event rfl
theorem getVersion : Statement .getVersion := of_event rfl
theorem getCapabilities : Statement .getCapabilities := of_event rfl
theorem negotiateAlgorithms (asym hash : Word) : Statement (.negotiateAlgorithms asym hash) := of_event rfl
theorem getDigests : Statement .getDigests := of_event rfl
theorem getCertificate (slot : Fin 8) (offset length : BitVec 16) : Statement (.getCertificate slot offset length) := of_event rfl
theorem challenge (slot : Fin 8) (nonce : BitVec 256) : Statement (.challenge slot nonce) := of_event rfl
theorem getMeasurements (index : Byte) : Statement (.getMeasurements index) := of_event rfl
theorem spdmUnsupportedRequest (code : Byte) : Statement (.spdmUnsupportedRequest code) := of_event rfl
theorem errstatRead : Statement .errstatRead := of_event rfl
theorem a2dBell (v : Word) : Statement (.a2dBell v) := of_event rfl
theorem d2aAck (v : Word) : Statement (.d2aAck v) := of_event rfl
theorem faultans : Statement .faultans := of_event rfl
theorem readyans : Statement .readyans := of_event rfl
theorem allocans : Statement .allocans := of_event rfl
theorem viewans : Statement .viewans := of_event rfl
theorem viewAnswerTimeout (port : Fin 15) : Statement (.viewAnswerTimeout port) := of_event rfl
theorem containans : Statement .containans := of_event rfl
theorem assistRequestWrite : Statement .assistRequestWrite := of_event rfl
theorem registerWrite (off : BitVec 12) (v : Dword) : Statement (.registerWrite off v) := of_event rfl
theorem bisnpResponse (line : Nat) (dirty : Option (BitVec 1024)) : Statement (.bisnpResponse line dirty) := of_event rfl
theorem uncorrectableSoftError (g : Granule) : Statement (.uncorrectableSoftError g) := of_event rfl
theorem singleBitEccRepair (source : BitVec 16) (pa : Nat) : Statement (.singleBitEccRepair source pa) := of_event rfl
theorem dieToDieRingFailure : Statement .dieToDieRingFailure := of_event rfl
theorem directoryUncorrectableError (die : Fin 4) : Statement (.directoryUncorrectableError die) := of_event rfl
theorem mappingRequest (r : MapReq) : Statement (.mappingRequest r) := of_event rfl
theorem addressSpaceDestruction (pasid : BitVec 20) : Statement (.addressSpaceDestruction pasid) := of_event rfl
theorem nibBindRequest (core : Nat) (nib : Fin 4) (pasid : BitVec 20) (va : Dword) (cls : Fin 4) : Statement (.nibBindRequest core nib pasid va cls) := of_event rfl
theorem yieldCcHoldExpiry (core slot : Nat) : Statement (.yieldCcHoldExpiry core slot) := of_event rfl

end Sys2Proof.Laws.RoundTrip
end

