-- ==== Sys2Proof/Laws/Ring.lean ====
section
/-! SUPPORT. What the shared forms of the device's rings come to (21 R407, R410, 26 R459): a message or record that is next is taken
with its effect, or refused. -/

namespace Sys2Proof.Machine

theorem onH2d_takes {s t : State} {ty : Nat} {fields : List (Nat × Nat)} {ok : BitVec 512 → Bool}
    {f : State → BitVec 512 → Option State} {seq : Word} {e : BitVec 512} (h : h2dMsg s ty = some (seq, e))
    (hb : bodyOk e fields = true) (ho : ok e = true) (hf : f s e = some t) : onH2d s ty fields ok f = .next (h2dTake t seq) := by
  simp [onH2d, h, hb, ho, hf]
theorem onH2d_refuses {s : State} {ty : Nat} {fields : List (Nat × Nat)} {ok : BitVec 512 → Bool}
    {f : State → BitVec 512 → Option State} {seq : Word} {e : BitVec 512} (h : h2dMsg s ty = some (seq, e))
    (hf : bodyOk e fields = true → ok e = true → f s e = none) : onH2d s ty fields ok f = .next (h2dRefuse s seq) := by
  by_cases hb : bodyOk e fields = true <;> by_cases ho : ok e = true <;> simp_all [onH2d]
/-- A message whose operation bit selects the row is taken as any other; the other row of the type leaves the state. -/
theorem onH2dOp_self {s : State} {ty : Nat} {op : Bool} {fields : List (Nat × Nat)} {ok : BitVec 512 → Bool}
    {f : State → BitVec 512 → Option State} {seq : Word} {e : BitVec 512} (h : h2dMsg s ty = some (seq, e)) (hop : e.getLsbD 48 = op) :
    onH2dOp s ty op fields ok f = onH2d s ty fields ok f := by
  subst hop
  unfold onH2dOp
  rw [h]
  simp
theorem onA2d_takes {s t : State} {ty : Nat} {fields : List (Nat × Nat)} {ok : BitVec 512 → Bool}
    {f : State → BitVec 512 → Option State} {seq : Word} {e : BitVec 512} (h : a2dNext s = some (seq, e)) (ht : fld e 32 16 = ty)
    (hb : bodyOk e fields = true) (ho : ok e = true) (hf : f s e = some t) : onA2d s ty fields ok f = .next (a2dTake t seq) := by
  simp [onA2d, h, ht, hb, ho, hf]
theorem onA2d_refuses {s : State} {ty : Nat} {fields : List (Nat × Nat)} {ok : BitVec 512 → Bool}
    {f : State → BitVec 512 → Option State} {seq : Word} {e : BitVec 512} (h : a2dNext s = some (seq, e)) (ht : fld e 32 16 = ty)
    (hf : bodyOk e fields = true → ok e = true → f s e = none) : onA2d s ty fields ok f = .next (a2dRefuse s seq) := by
  by_cases hb : bodyOk e fields = true <;> by_cases ho : ok e = true <;> simp_all [onA2d]
/-- A record of no type of R459 is refused by whichever answer reads it. -/
theorem onA2d_unknown {s : State} {ty : Nat} {fields : List (Nat × Nat)} {ok : BitVec 512 → Bool}
    {f : State → BitVec 512 → Option State} {seq : Word} {e : BitVec 512} (h : a2dNext s = some (seq, e)) (ht : fld e 32 16 ≠ ty)
    (hn : ¬ (0xA1 ≤ fld e 32 16 ∧ fld e 32 16 ≤ 0xA5)) : onA2d s ty fields ok f = .next (a2dRefuse s seq) := by
  simp [onA2d, h, ht, hn]

end Sys2Proof.Machine
end

