-- ==== Sys2Proof/Laws/Trap.lean ====
section
/-! SUPPORT. What a write of Bammar's own, and taking a trap, do to memory (R384, R385; log 14). -/

namespace Sys2Proof.Machine

theorem foldl_hbm {α : Type} (f : State → α → State) (hf : ∀ s a, (f s a).hbm = s.hbm) : ∀ (l : List α) (s : State),
    (l.foldl f s).hbm = s.hbm
  | [], _ => rfl
  | a :: l, s => by rw [List.foldl_cons, foldl_hbm f hf l, hf]
theorem foldl_hostMem {α : Type} (f : State → α → State) (hf : ∀ s a, (f s a).hostMem = s.hostMem) : ∀ (l : List α) (s : State),
    (l.foldl f s).hostMem = s.hostMem
  | [], _ => rfl
  | a :: l, s => by rw [List.foldl_cons, foldl_hostMem f hf l, hf]

@[simp] theorem recallAll_hbm (s : State) (line : Nat) : (recallAll s line).hbm = s.hbm := by
  unfold recallAll
  simp only [State.modDie_hbm]
  exact foldl_hbm _ (fun s a => by split <;> simp) _ _
@[simp] theorem recallAll_hostMem (s : State) (line : Nat) : (recallAll s line).hostMem = s.hostMem := by
  unfold recallAll
  simp only [State.modDie_hostMem]
  exact foldl_hostMem _ (fun s a => by split <;> simp) _ _
@[simp] theorem limitDie_hbm (l : Nat) (s : State) (d : Nat) : (limitDie l s d).hbm = s.hbm := rfl
@[simp] theorem limitDie_hostMem (l : Nat) (s : State) (d : Nat) : (limitDie l s d).hostMem = s.hostMem := rfl
@[simp] theorem ackWrite_hbm (s : State) (c : Nat) (p : Posted) : (ackWrite s c p).hbm = s.hbm := by
  unfold ackWrite
  simp
@[simp] theorem ackWrite_hostMem (s : State) (c : Nat) (p : Posted) : (ackWrite s c p).hostMem = s.hostMem := by
  unfold ackWrite
  simp

@[simp] theorem rmapTrim_hbm (s : State) (c : Nat) : (rmapTrim s c).hbm = s.hbm := rfl
@[simp] theorem rmapTrim_hostMem (s : State) (c : Nat) : (rmapTrim s c).hostMem = s.hostMem := rfl
@[simp] theorem dropL1_hbm (s : State) (c : Nat) (p : Nat → L1Line → Bool) : (dropL1 s c p).hbm = s.hbm := by
  unfold dropL1
  dsimp only
  split
  · rfl
  · rw [rmapTrim_hbm]; exact foldl_hbm _ (fun s a => by simp) _ _
@[simp] theorem dropL1_hostMem (s : State) (c : Nat) (p : Nat → L1Line → Bool) : (dropL1 s c p).hostMem = s.hostMem := by
  unfold dropL1
  dsimp only
  split
  · rfl
  · rw [rmapTrim_hostMem]; exact foldl_hostMem _ (fun s a => by simp) _ _
@[simp] theorem sysAck_hbm (s : State) (c l : Nat) : (sysAck s c l).hbm = s.hbm := by unfold sysAck; split <;> simp
@[simp] theorem sysAck_hostMem (s : State) (c l : Nat) : (sysAck s c l).hostMem = s.hostMem := by unfold sysAck; split <;> simp

theorem leBytes_length (n v : Nat) : (leBytes n v).length = n := by
  induction n generalizing v with
  | zero => rfl
  | succ n ih => simp [leBytes, ih]

/-- A write that reaches memory at once. -/
@[simp] theorem sysPut_hbm (s : State) (c pa : Nat) (bs : List Byte) : (s.sysPut c pa bs).hbm = wrBytes s.hbm pa bs := by
  unfold State.sysPut
  rw [foldl_hbm, foldl_hbm]
  · simp only [State.hbmWrite]
    rw [foldl_hbm _ (fun s a => by split <;> simp)]
  · exact fun _ _ => rfl
  · intro s a
    rw [sysAck_hbm, foldl_hbm _ (fun s d => limitDie_hbm _ s d)]
    split <;> simp
@[simp] theorem sysPut_hostMem (s : State) (c pa : Nat) (bs : List Byte) : (s.sysPut c pa bs).hostMem = s.hostMem := by
  unfold State.sysPut
  rw [foldl_hostMem, foldl_hostMem]
  · simp only [State.hbmWrite]
    rw [foldl_hostMem _ (fun s a => by split <;> simp)]
  · exact fun _ _ => rfl
  · intro s a
    rw [sysAck_hostMem, foldl_hostMem _ (fun s d => limitDie_hostMem _ s d)]
    split <;> simp

/-- A host answer to a snoop changes no byte outside its line. -/
theorem snoopNow_get (c : Nat) (s : State) (l : Nat) {a : Nat} (h : a / 128 ≠ l) : tabGet 0#8 (snoopNow c s l).hbm a = tabGet 0#8 s.hbm a := by
  unfold snoopNow
  dsimp only
  split
  · rfl
  · split
    · rw [sysPut_hbm, wrBytes_get_out _ _ _ (by rw [leBytes_length]; omega)]; rfl
    · rfl
theorem snoopNow_hostMem (c : Nat) (s : State) (l : Nat) : (snoopNow c s l).hostMem = s.hostMem := by
  unfold snoopNow
  dsimp only
  split
  · rfl
  · split <;> simp
theorem snoopNow_memWf {s : State} (c l : Nat) (h : s.MemWf) : (snoopNow c s l).MemWf := by
  refine ⟨?_, by rw [snoopNow_hostMem]; exact h.2⟩
  unfold snoopNow
  dsimp only
  split
  · exact h.1
  · split
    · rw [Memory.wf, sysPut_hbm]; exact tabWf_wrBytes _ _ _ h.1
    · exact h.1
theorem snoopBytes_hostMem (s : State) (c pa n : Nat) : (snoopBytes s c pa n).hostMem = s.hostMem :=
  foldl_hostMem _ (fun s l => snoopNow_hostMem c s l) _ _
theorem foldl_snoopNow_get (c : Nat) {a : Nat} : ∀ (ls : List Nat) (s : State), a / 128 ∉ ls →
    tabGet 0#8 (ls.foldl (snoopNow c) s).hbm a = tabGet 0#8 s.hbm a
  | [], _, _ => rfl
  | l :: ls, s, h => by
    rw [List.foldl_cons, foldl_snoopNow_get c ls _ (fun x => h (by simp [x])), snoopNow_get c s l (fun x => h (by simp [x]))]
/-- A snoop leaves what the host may hold of the other lines. -/
theorem snoopNow_clean (c : Nat) (s : State) (l : Nat) (h : snoopNeeded s l false = false) :
    (snoopNow c s l).hbm = s.hbm ∧ ∀ i, snoopNeeded s i false = false → snoopNeeded (snoopNow c s l) i false = false := by
  unfold snoopNow
  dsimp only
  cases hf : (s.die (homeDie (l * 128))).snoop.find? (·.1 == l) with
  | none => exact ⟨rfl, fun _ h => h⟩
  | some e =>
    have he : e.2 = false := by
      have h1 := List.find?_some hf
      have h2 := List.mem_of_find?_eq_some hf
      simp only [snoopNeeded, List.any_eq_false, Bool.false_or, Bool.and_eq_true, not_and, Bool.not_eq_true] at h
      exact h e h2 h1
    dsimp only
    rw [he]
    refine ⟨rfl, fun i hi => ?_⟩
    simp only [snoopNeeded, List.any_eq_false] at hi ⊢
    intro x hx
    refine hi x ?_
    by_cases hd : homeDie (i * 128) = homeDie (l * 128)
    · rw [hd] at hx ⊢
      by_cases h4 : homeDie (l * 128) < 4
      · rw [if_neg (by simp)] at hx
        simp only [State.die_modDie_same _ _ h4] at hx
        exact (List.mem_filter.mp hx).1
      · simpa [State.modDie, State.setDie, State.die, h4] using hx
    · rw [if_neg (by simp)] at hx
      simpa [State.die_modDie_ne _ _ hd] using hx
theorem foldl_snoopNow_clean (c : Nat) : ∀ (ls : List Nat) (s : State), (∀ l ∈ ls, snoopNeeded s l false = false) →
    (ls.foldl (snoopNow c) s).hbm = s.hbm
  | [], _, _ => rfl
  | l :: ls, s, h => by
    obtain ⟨h1, h2⟩ := snoopNow_clean c s l (h l (by simp))
    rw [List.foldl_cons, foldl_snoopNow_clean c ls _ (fun i hi => h2 i (h i (by simp [hi]))), h1]

/-- Bammar's own write changes no byte outside the lines of its bytes; where the host holds none of those lines modified it changes its
bytes alone. -/
theorem sysWrite_get (s : State) (c pa : Nat) (bs : List Byte) {a : Nat} (h : a < pa ∨ pa + bs.length ≤ a)
    (hc : hostClean s pa bs.length = true ∨ a / 128 ∉ unitsOf 128 pa bs.length) :
    tabGet 0#8 (s.sysWrite c pa bs).hbm a = tabGet 0#8 s.hbm a := by
  rw [State.sysWrite, sysPut_hbm, wrBytes_get_out _ _ _ h, snoopBytes]
  rcases hc with hc | hc
  · rw [foldl_snoopNow_clean]
    intro l hl
    simpa using List.all_eq_true.mp hc l hl
  · exact foldl_snoopNow_get c _ _ hc
@[simp] theorem sysWrite_hostMem (s : State) (c pa : Nat) (bs : List Byte) : (s.sysWrite c pa bs).hostMem = s.hostMem := by
  rw [State.sysWrite, sysPut_hostMem, snoopBytes_hostMem]
theorem foldl_snoopNow_memWf (c : Nat) : ∀ (ls : List Nat) {s : State}, s.MemWf → (ls.foldl (snoopNow c) s).MemWf
  | [], _, h => h
  | l :: ls, _, h => foldl_snoopNow_memWf c ls (snoopNow_memWf c l h)
theorem sysWrite_memWf {s : State} (c pa : Nat) (bs : List Byte) (h : s.MemWf) : (s.sysWrite c pa bs).MemWf :=
  ⟨by rw [Memory.wf, State.sysWrite, sysPut_hbm]; exact tabWf_wrBytes bs _ pa (foldl_snoopNow_memWf c _ h).1,
   by rw [sysWrite_hostMem]; exact h.2⟩

@[simp] theorem frameBytes_length (z : Cause) (l : Bool) (x : Dword) : (frameBytes z l x).length = 128 := leBytes_length _ _

@[simp] theorem logError_hostMem (s : State) (cls code : Nat) (src : BitVec 16) (addr detail : Nat) :
    (logError s cls code src addr detail).1.hostMem = s.hostMem := by
  unfold logError
  simp only []
  split
  · simp
  · split <;> simp
theorem logError_memWf {s : State} (cls code : Nat) (src : BitVec 16) (addr detail : Nat) (h : s.MemWf) :
    (logError s cls code src addr detail).1.MemWf := by
  unfold logError
  simp only []
  split
  · exact sysWrite_memWf _ _ _ h
  · split
    · exact sysWrite_memWf _ _ _ h
    · exact h

theorem errorMsg_memWf {s : State} (cls code : Nat) (src : BitVec 16) (addr i n : Nat) (h : s.MemWf) :
    (errorMsg s cls code src addr i n).MemWf := by
  unfold errorMsg d2hOrDrop
  split <;> exact h

/-- TAKING A TRAP keeps memory canonical. -/
theorem takeTrap_memWf {s : State} (ci wi : Nat) (z : Cause) (h : s.MemWf) : (takeTrap s ci wi z).MemWf := by
  unfold takeTrap
  split
  · exact h
  · split
    · exact errorMsg_memWf _ _ _ _ _ _ (logError_memWf _ _ _ _ _ h)
    · split
      · exact h
      · exact sysWrite_memWf _ _ _ h

end Sys2Proof.Machine
end

