-- ==== Sys2Proof/Tests/Slice0.lean ====
section
/-! SUPPORT. Tests: ill-formed terms that the checks refuse, words written out from the spec's encodings, results of the spec's own
tables, and for every statement with hypotheses a concrete case that meets them. -/

namespace Sys2Proof.Tests

open Sys2Proof Sys2Proof.Machine

-- One theorem after the other: checks that wait for one another would each hold a thread.
set_option Elab.async false

/-! ### Small states -/

/-- A warp in slot 0 with 64 registers from 64, at the only word of a clause, in a workgroup that holds everything. -/
def warp : Warp := (Warp.fresh (some 7) 0 64 64 5#20 1 0x1000#64 0x9000#64 0x5000).atWord 0#96
def wg : Wg := { (default : Wg) with
  id := 7, wgs := 1, ngang := 1, pasid := 5#20, cls := 1, warps := 1, trapv := 0x4000#64, semMask := ~~~0#64, cmMask := 0xFFFF#16
  barMask := 0xFFFF#16, qbarMask := 0xFF#8, chanMask := 0xF#4, nibMask := 0xF#4, dbarMask := ~~~0#32, pbarMask := ~~~0#32
  podMask := ~~~0#64, spadRows := 64, obLen := 256, accN := 24, qconn := Vector.ofFn fun i => if i.val < 8 then .operand else .store
  sliceSt := .running }
/-- Pages of 64 KiB at address 0, for the task and for the scribe warp. -/
def page (pasid : BitVec 20) : Xlat := ⟨pasid, 0, 0x10000, 0, 0, true, true, true, false, none⟩
def core : Core := { Core.fresh with
  tlb := [page 5#20, page 0#20]
  wgs := [wg], warps := Core.fresh.warps.set 0 (some warp)
  chans := Vector.replicate 4 { Chan.fresh with wg := some 7 }, nibs := Vector.replicate 4 (Nib.fresh (some 7)) }
/-- A state whose core 0 is `k`, whose slot 0 issues. -/
def stK (k : Core) : State := { State.reset with cores := State.reset.cores.set 0 k, cur := (0, 0) }
/-- That state with a change of its warp, of its workgroup. -/
def stW (f : Warp → Warp) : State := stK { core with warps := core.warps.set 0 (some (f warp)) }
def stG (f : Wg → Wg) : State := stK { core with wgs := [f wg] }
def st : State := stK core
/-- A state whose die 0 is changed. -/
def stD (f : Die → Die) : State := { st with dies := st.dies.set 0 (f (st.die 0)) }
def c0 : Ctl := Ctl.zero
/-- A guard that no lane passes: `p1` of a fresh warp is 0. -/
def cNo : Ctl := { Ctl.zero with gpred := 1 }

/-- The word with these operands runs undisturbed in `s` (`Ready`), and its context meets `H`. -/
def sees (s : State) (c : Ctl) (scalar long : Bool) (opds : List Opd) (H : Ctx → Bool := fun _ => true) : Bool :=
  match ctxOf s c with
  | none => false
  | some k => (wordFate k c scalar long opds).isNone && !wordHeld k c long opds && wordPairs k opds == 0#32
      && wordPoison (k.popped opds) scalar opds == 0#32 && H k
theorem sees_iff (s : State) (c : Ctl) (scalar long : Bool) (opds : List Opd) (H : Ctx → Bool) :
    sees s c scalar long opds H = true ↔ ∃ k, Ready s c scalar long opds k ∧ H k = true := by
  unfold sees
  constructor
  · intro h
    split at h
    · cases h
    · rename_i k hk
      simp only [Bool.and_eq_true, Option.isNone_iff_eq_none, Bool.not_eq_true', beq_iff_eq] at h
      exact ⟨k, ⟨hk, h.1.1.1.1, h.1.1.1.2, h.1.1.2, h.1.2⟩, h.2⟩
  · rintro ⟨k, ⟨h1, h2, h3, h4, h5⟩, h6⟩
    rw [h1]
    simp [h2, h3, h4, h5, h6]
/-- A transfer that runs (`ReadyTransfer`), and its context meets `H`. -/
def seesT (s : State) (c : Ctl) (scalar : Bool) (opds : List Opd) (H : Ctx → Bool := fun _ => true) : Bool :=
  sees s c scalar false opds fun k => atLast k.w && !k.w.lig.on && H k
theorem seesT_iff (s : State) (c : Ctl) (scalar : Bool) (opds : List Opd) (H : Ctx → Bool) :
    seesT s c scalar opds H = true ↔ ∃ k, ReadyTransfer s c scalar opds k ∧ H k = true := by
  unfold seesT
  rw [sees_iff]
  constructor
  · rintro ⟨k, h, h1⟩
    simp only [Bool.and_eq_true, Bool.not_eq_true'] at h1
    exact ⟨k, ⟨h, h1.1.1, h1.1.2⟩, h1.2⟩
  · rintro ⟨k, ⟨h, h1, h2⟩, h3⟩
    exact ⟨k, h, by simp [h1, h2, h3]⟩

def o3 (t : Ty) (d a : Reg) (b : Src) : Alu3 := ⟨c0, t, d, a, b⟩
def o2 (t : Ty) (d a : Reg) : Alu2 := ⟨c0, t, d, a⟩
/-- The value of scalar `n` of slot 0 after a word. -/
def sAfter (i : Instr) (s : State) (n : Nat) : Option Dword :=
  match exec i s with
  | .next t => (t.warp? 0 0).map (·.sreg n)
  | _ => none
/-- The value of register `n` of lane `l` of slot 0 after a word. -/
def vAfter (i : Instr) (s : State) (l n : Nat) : Option Word :=
  match exec i s with
  | .next t => some (tabGet 0#32 (t.core 0).rf (32 * (64 + n) + l))
  | _ => none

/-! ### Ill-formed terms, one for each check of `staticOk` (R38, R39, R61 and the rows' own restrictions) -/

def mem0 (t : Ty) (ord : Order) (sc : Scope) : MemOp := ⟨c0, t, false, sc, ord, .v 0, .v 2, .s 1, 0#32⟩
def atm0 (t : Ty) (ord : Order) (sc : Scope) : AtomOp := ⟨c0, t, false, sc, ord, .v 2, .v 4, 0#28⟩
def mx0 : MxOp := ⟨c0, 0, 0, 0, 0, false, false, 0⟩

/-- Integer rows refuse other types; an f16 immediate has no high half; IABS takes signed types; PRMT takes 32-bit ones. -/
theorem smoke_integer :
    ([.iadd (o3 .f32 (.v 0) (.v 1) (.reg (.v 2))) false, .idiv (o3 .nf (.v 0) (.v 1) (.reg (.v 2))), .shl (o3 .mx (.v 0) (.v 1) (.imm 0#32)),
      .imad ⟨c0, .f16, .v 0, .v 1, .v 2, .v 3⟩ false, .iabs (o2 .n32 (.v 0) (.v 1)) false, .ineg (o2 .f32 (.v 0) (.v 1)) false,
      .bfi ⟨c0, .f32, .v 0, .v 1, .v 2, .v 3⟩, .prmt (o3 .i16 (.v 0) (.v 1) (.reg (.v 2))) none,
      .prmt (o3 .n32 (.v 0) (.v 1) (.imm 1#32)) (some (.v 3)), .mov (o2 .nf (.v 0) (.v 1)), .movi c0 .f16 false (.v 0) 0x10000#32,
      .movi c0 .i32 true (.v 0) 1#32, .lea ⟨c0, .n32, .v 0, .v 2, .v 4⟩ 0 false 0#32] : List Instr).all (fun i => !i.wf) = true := by
  decide +kernel
/-- Float rows refuse other types, SR, an immediate f16 with a high half, and a class mask that is too wide. -/
theorem smoke_float :
    ([.fadd (o3 .i32 (.v 0) (.v 1) (.reg (.v 2))) .rne, .fadd (o3 .f32 (.v 0) (.v 1) (.reg (.v 2))) .sr,
      .fmin (o3 .f16 (.v 0) (.v 1) (.imm 0x10000#32)), .ffma ⟨c0, .f32, .v 0, .v 1, .v 2, .v 3⟩ .sr, .fclass (o2 .f32 (.p 1) (.v 1)) 0x400#32,
      .fclass (o2 .f32 (.v 0) (.v 1)) 1#32, .fsqrt (o2 .i32 (.v 0) (.v 1)) .rne, .fsin (o2 .f64 (.v 0) (.v 2)),
      .cvt (o2 .nf (.v 0) (.v 1)) .rne false none .i32 0x50739#20, .cvt (o2 .f32 (.v 0) (.v 1)) .rne false none .f16 1#20,
      .cvt (o2 .i32 (.v 0) (.v 1)) .sr false (some (.v 2)) .f32 0#20, .cvt (o2 .f16 (.v 0) (.v 1)) .sr false none .f32 0#20,
      .fdot2 ⟨c0, .f32, .v 0, .v 1, .v 2⟩ .rne, .fdot4 ⟨c0, .i8, .v 0, .v 1, .v 2⟩ .rne 1#19, .fscale ⟨c0, .n8, .v 0, .v 1, .v 2⟩ .rne,
      .redux (o2 .f32 (.v 0) (.v 1)) .xor .rne, .redux (o2 .i32 (.v 0) (.v 1)) .add .rz, .scan (o2 .nf (.v 0) (.v 1)) .add false .rne,
      .shfl (o3 .i32 (.v 0) (.v 1) (.imm 0#32)) .idx 0, .matchv (o2 .n16 (.v 0) (.v 1)) false] : List Instr).all (fun i => !i.wf) = true := by
  decide +kernel
/-- Control, memory and sync rows: guards on ligature words, COUNT of SVC, orderings and scopes, operations and types of atomics,
empty fences, zero leases, and barrier numbers outside their level. -/
theorem smoke_control_memory_sync :
    ([.ligon { c0 with gpred := 1 } (.p 1) none, .ligmap { c0 with gneg := true } 0 0 (.v 0) (.v 1), .ligoff { c0 with gpred := 7 },
      .svc c0 (.s 0) 0, .svc c0 (.s 0) 9, .ld (mem0 .n32 .rel .core), .ld (mem0 .n32 .rlx .core), .ld (mem0 .nf .rlx .warp),
      .st (mem0 .n32 .acq .core), .ldq (mem0 .n64 .rlx .warp), .nldc { mem0 .n32 .rlx .warp with sp := true },
      .atom (atm0 .n16 .rlx .warp) .add (.v 0), .atom (atm0 .f32 .rlx .warp) .and (.v 0), .red (atm0 .n32 .acq .core) .add,
      .cas (atm0 .f32 .rlx .warp) (.v 0), .cas2 (atm0 .n32 .rlx .warp) (.v 0), .atomr (atm0 .n32 .rlx .warp) .exch (.v 0),
      .atomr (atm0 .n32 .acq .core) .add (.v 0), .fence c0 .core .rlx 1#7 1#5, .fence c0 .core .acq 0#7 1#5, .fence c0 .core .acq 1#7 0#5,
      .lease c0 0#8, .barinit c0 .die false (.s 0) 0#6, .barinit c0 .quad false (.s 0) 8#6, .bararr c0 .core none 16#6 1#10,
      .bararr c0 .core none 0#6 0#10, .barwait c0 .pkg (.s 0) 32#6, .rbararr c0 .warp (.s 0) 0#4 1#10, .rbararr c0 .die (.s 0) 0#4 0#10,
      .rwopen c0 0 (.s 0) 0#10 0#10] : List Instr).all (fun i => !i.wf) = true := by
  decide +kernel
/-- Matrix, nib and system rows: tiles outside the 24, a quad barrier above 7, fields that a row does not use, a seed that does not
go with SR, CLR and an operand with the wrong selector, COUNT above 8, an operand that the kind of TLBINV does not take. -/
theorem smoke_matrix_nib_system :
    ([.mma { mx0 with acc := 24 }, .mma { mx0 with barq := true, bar := 8 }, .mmas { mx0 with count := 1 }, .accz { mx0 with ha := 1, count := 1 },
      .accz mx0, .accz { mx0 with acc := 23, count := 2 }, .accld { mx0 with hb := 1 }, .accdrain mx0 .sr false none,
      .accdrain mx0 .rne false (some (.v 0)), .accmx mx0 .rne (some (.v 0)), .mxstat c0 1 true (.s 0), .ngrant c0 0 false (.s 0) 9,
      .nstat c0 0 0 true (.s 0) none, .nstat c0 0 2 false (.s 0) none, .nstat c0 0 1 false (.s 0) (some (.s 1)),
      .tlbinv c0 0 false none 0#20, .tlbinv c0 1 false (some (.s 0)) 0#20, .rmapinv c0 (.s 0) 0#16,
      .thand c0 0 0 false true (.s 1) (.v 0)] : List Instr).all (fun i => !i.wf) = true := by
  decide +kernel
/-- The same rows with nothing wrong are well formed. -/
theorem smoke_accepts :
    ([.iadd (o3 .i32 (.v 0) (.v 1) (.reg (.v 2))) true, .fadd (o3 .f32 (.v 0) (.v 1) (.imm 0#32)) .rd, .ld (mem0 .n32 .acq .sys),
      .atom (atm0 .f32 .ar .sys) .max (.v 0), .barwait c0 .pod (.s 0) 63#6, .accz { mx0 with acc := 23, count := 1 },
      .nstat c0 0 2 false (.s 0) (some (.s 1)), .tlbinv c0 0 false (some (.s 0)) 0#20] : List Instr).all Instr.wf = true := by decide +kernel

/-! ### Words written out from the spec's encodings (03 R36-R40, R50, R112, R128, R203, R281, R303, R327, R355, R399) -/

/-- Three 32-bit words as they stand in memory, the first at the lowest address. -/
def w3 (a b c : Nat) : Nat := a + b * 2 ^ 32 + c * 2 ^ 64
def c1 : Ctl := { c0 with gpred := 1 }

theorem decode_alu :
    decodeTableWord 96 (w3 0x00501C01 0x80203A00 0x0000012C)
      = some (.iadd ⟨{ c0 with gneg := true, gpred := 2, stall := 3 }, .i32, .v 7, .v 5, .imm 300#32⟩ false)
    ∧ decodeTableWord 96 (w3 0xF0402021 0x0B700000 0x00000040) = some (.lea ⟨c0, .n64, .v 8, .s 4, .v 3⟩ 3 true 0x40#32)
    ∧ decodeTableWord 96 (w3 0x80501083 0x41A00001 0x00000007) = some (.ffma ⟨c0, .f32, .v 4, .v 5, .v 6, .v 7⟩ .rz)
    ∧ decodeTableWord 96 (w3 0x00200D02 0x00600000 0) = some (.matchv ⟨c0, .n32, .v 3, .v 2⟩ false) := by decide +kernel
theorem decode_control :
    decodeTableWord 96 (w3 0x00000140 0x00000100 0xFFFFFFD0) = some (.bra c1 0xFFFFFFD0#32)
    ∧ decodeTableWord 96 (w3 0x3080014E 0x02000000 0) = some (.svc c0 (.s 8) 2)
    ∧ decodeTableWord 96 (w3 0x3710014A 0 0) = some (.ligon c0 (.p 1) none)
    ∧ decodeTableWord 96 (w3 0x4040014B 0x01000001 0) = some (.ligmap c0 1 0 (.v 4) (.v 5)) := by decide +kernel
theorem decode_memory :
    decodeTableWord 96 (w3 0x70000980 0x0D600000 0x40) = some (.ld ⟨c0, .n32, false, .die, .acq, .v 2, .s 0, .v 1, 0x40#32⟩)
    ∧ decodeTableWord 96 (w3 0x302C1D81 0x004000D8 1) = some (.st ⟨c0, .n8, false, .warp, .rlx, .s 7, .s 2, .sp 0, 1#32⟩)
    ∧ decodeTableWord 96 (w3 0x70200D84 0x00200001 0x20000010) = some (.atom ⟨c0, .i32, false, .warp, .rlx, .s 2, .v 5, 0x10#28⟩ .max (.v 3))
    ∧ decodeTableWord 96 (w3 0x30001187 0x19700102 0) = some (.cas2 ⟨c1, .n64, false, .sys, .acq, .s 0, .v 8, 0#28⟩ (.v 4))
    ∧ decodeTableWord 96 (w3 0xF00C1986 0x197000C1 0x10) = some (.cas ⟨c0, .n64, false, .sys, .acq, .s 0, .s 7, 0x10#28⟩ (.s 6))
    ∧ decodeTableWord 96 (w3 0x00000189 0x0E000000 0x305) = some (.fence c0 .die .rel 5#7 3#5) := by decide +kernel
theorem decode_sync_copy :
    decodeTableWord 96 (w3 0x30300201 0x04000000 5) = some (.seminc c0 .core (.reg (.s 3)) 5#6)
    ∧ decodeTableWord 96 (w3 0x30500205 0x08000000 2) = some (.barwait c0 .quad (.s 5) 2#6)
    ∧ decodeTableWord 96 (w3 0x00000204 0x08000000 0x00010001) = some (.bararr c0 .quad none 1#6 1#10)
    ∧ decodeTableWord 96 (w3 0x30400240 0x01000000 0) = some (.cpchain c0 1 (.s 4))
    ∧ decodeTableWord 96 (w3 0x000C2644 0x02000000 0x2010) = some (.rwopen c0 2 (.s 9) 16#10 8#10) := by decide +kernel
theorem decode_matrix_nib :
    decodeTableWord 96 (w3 0x304C0A80 0 2) = some (.obres c0 2 (.s 2) (.s 4))
    ∧ decodeTableWord 96 (w3 0xF0A00283 0xC2 0x201) = some (.thand c0 1 2 false false (.s 10) (.s 11))
    ∧ decodeTableWord 96 (w3 0x284 0 0x15002103) = some (.mma ⟨c0, 3, 1, 2, 0, true, false, 5⟩)
    ∧ decodeTableWord 96 (w3 0x30400300 0 0x4601) = some (.nbind c0 1 (.s 4) true 6#6)
    ∧ decodeTableWord 96 (w3 0xB0101304 0x11200000 0) = some (.nldc ⟨c0, .i32, false, .pkg, .acq, .v 4, .s 1, .v 2, 0#32⟩)
    ∧ decodeTableWord 96 (w3 0x30500302 0x01000000 0x10) = some (.ngrant c0 0 true (.s 5) 1) := by decide +kernel
theorem decode_slice_system :
    decodeTableWord 96 (w3 0x740 0x80000000 4) = some (.amov 1 (.imm 4#32))
    ∧ decodeTableWord 96 (w3 0x400D0343 0 0) = some (.aldq 0 0 1 0#32)
    ∧ decodeTableWord 96 (w3 0x00200342 0 0xFFFFFFFE) = some (.aloop 2 0xFFFFFFFE#32)
    ∧ decodeTableWord 96 (w3 0x000C1780 0 8) = some (.csrr c0 (.s 5) 8#12)
    ∧ decodeTableWord 96 (w3 0x306C0F84 0 0xC) = some (.ctxsave c0 (.s 3) (.s 6) 12#5)
    ∧ decodeTableWord 96 (w3 0x386 0 0) = some (.dbghalt c0) := by decide +kernel
/-- The clause headers of 03 R50's and 18's examples, field by field. -/
theorem decode_headers :
    Header.ofWord (BitVec.ofNat 96 (w3 0x1400 0x1900 0)) = some ⟨5, 0#12, none, none, false, 100#12, false⟩
    ∧ Header.ofWord (BitVec.ofNat 96 (w3 0x44025000 0x3219 0)) = some ⟨4, 9#12, some 1#4, some 2#4, true, 200#12, false⟩ := by decide +kernel
/-- Words that no row admits (R38, R58, R61): reserved TYPEs, an unassigned opcode, a reserved register, a field that must be 0. -/
theorem decode_refuses :
    decodeTableWord 96 (w3 0x00501C01 0x00E00000 0) = none ∧ decodeTableWord 96 (w3 0x3FF 0 0) = none
    ∧ decodeTableWord 96 (w3 0x386 0 1) = none ∧ decodeTableWord 96 (w3 0x386 0x00100000 0) = none := by decide +kernel

/-! ### Results of the spec's own tables and rules, one step each -/

/-- Registers of lane 0 of slot 0. -/
def stV (l : List (Nat × Word)) : State := stK { core with rf := l.map fun e => (32 * (64 + e.1), e.2) }
/-- The value that an instruction of D `v0`, A `v1` and B `v2` leaves in lane 0. -/
def res (i : Instr) (a b : Word) : Option Word := vAfter i (stV [(1, a), (2, b)]) 0 0
def r3 (t : Ty) : Alu3 := o3 t (.v 0) (.v 1) (.reg (.v 2))
def r2 (t : Ty) : Alu2 := o2 t (.v 0) (.v 1)
/-- R112's table of edges: wrap, clamp, narrow clamp, absolute value of the least number, division by 0, remainder's sign. -/
theorem test_integer_edges :
    res (.iadd (r3 .i32) false) 0x7FFFFFFF#32 1#32 = some 0x80000000#32 ∧ res (.iadd (r3 .i32) true) 0x7FFFFFFF#32 1#32 = some 0x7FFFFFFF#32
    ∧ res (.isub (r3 .n16) true) 3#32 5#32 = some 0#32 ∧ res (.iabs (r2 .i8) false) 0x80#32 0#32 = some 0xFFFFFF80#32
    ∧ res (.idiv (r3 .i32)) 7#32 0#32 = some 0xFFFFFFFF#32 ∧ res (.irem (r3 .i32)) 0xFFFFFFF9#32 2#32 = some 0xFFFFFFFF#32 := by decide +kernel
/-- R112's table: shifts of the width and more, SAR's sign fill, CLZ of zero, a narrow shift that sign-extends, a signed field, the
bytes of PRMT reversed. -/
theorem test_shift_and_field_edges :
    res (.shl (r3 .n32)) 1#32 32#32 = some 0#32 ∧ res (.sar (r3 .n32)) 0x80000000#32 40#32 = some 0xFFFFFFFF#32
    ∧ res (.clz (r2 .n16)) 0#32 0#32 = some 16#32 ∧ res (.shl (r3 .i8)) 0x40#32 1#32 = some 0xFFFFFF80#32
    ∧ res (.bfx (r3 .i32)) 0xC00#32 0x0408#32 = some 0xFFFFFFFC#32 ∧ res (.prmt (r3 .n32) none) 0x11223344#32 0x0123#32 = some 0x44332211#32
    ∧ res (.brev (r2 .n8)) 1#32 0#32 = some 0x80#32 := by decide +kernel
/-- IMAD clamps once, after the addition (R102): 100 × 2 − 100 is 100. -/
theorem test_imad_sat : vAfter (.imad ⟨c0, .i8, .v 0, .v 1, .v 2, .v 3⟩ true) (stV [(1, 100#32), (2, 2#32), (3, 0xFFFFFF9C#32)]) 0 0 = some 100#32 := by
  decide +kernel
/-- A source that is also the destination: a 64-bit negation of v2:v3. -/
theorem test_pair_in_place : (vAfter (.ineg (o2 .i64 (.v 2) (.v 2)) false) (stV [(2, 1#32)]) 0 2,
    vAfter (.ineg (o2 .i64 (.v 2) (.v 2)) false) (stV [(2, 1#32)]) 0 3) = (some 0xFFFFFFFF#32, some 0xFFFFFFFF#32) := by decide +kernel
/-- A scalar of a narrow signed type is sign-extended, of an unsigned one zero-extended (R42, R67). -/
theorem test_scalar_extension : sAfter (.movi c0 .i8 false (.s 1) 0xFF#32) st 1 = some 0xFFFFFFFFFFFFFFFF#64
    ∧ sAfter (.movi c0 .n8 false (.s 1) 0xFF#32) st 1 = some 0xFF#64 ∧ sAfter (.movi c0 .i64 true (.s 1) 1#32) st 1 = some 0x100000000#64 := by
  decide +kernel
/-- Float: 1 + 2^-24 rounds to 1 under RNE and up under RU; −0 − (−0) is +0, −0 under RD; 1/0 is +∞; 0/0 is the canonical NaN (R79,
R116, R120). -/
theorem test_float :
    res (.fadd (r3 .f32) .rne) 0x3F800000#32 0x33800000#32 = some 0x3F800000#32 ∧ res (.fadd (r3 .f32) .ru) 0x3F800000#32 0x33800000#32 = some 0x3F800001#32
    ∧ res (.fsub (r3 .f32) .rne) 0x80000000#32 0x80000000#32 = some 0#32 ∧ res (.fsub (r3 .f32) .rd) 0x80000000#32 0x80000000#32 = some 0x80000000#32
    ∧ res (.fdiv (r3 .f32) .rne) 0x3F800000#32 0#32 = some 0x7F800000#32 ∧ res (.fdiv (r3 .f32) .rne) 0#32 0#32 = some 0x7FC00000#32
    ∧ res (.fsqrt (r2 .f32) .rne) 0x40800000#32 0#32 = some 0x40000000#32 ∧ res (.fmul (r3 .f16) .rz) 0x7BFF#32 0x4000#32 = some 0x7BFF#32 := by
  decide +kernel
/-- CVT of 1.0625 to E4M3 gives 0x38 with IX (R124). -/
theorem test_cvt_e4m3 : res (.cvt (r2 .nf) .rne false none .f32 0x50739#20) 0x3F880000#32 0#32 = some 0x38#32
    ∧ (match exec (.cvt (r2 .nf) .rne false none .f32 0x50739#20) (stV [(1, 0x3F880000#32)]) with
      | .next t => (t.warp? 0 0).bind fun w => w.fflags[0]?
      | _ => none) = some flIX := by decide +kernel
/-- A store whose lanes overlap: the highest lane's byte stands (R210); to its scratchpad. -/
theorem test_store_overlap : (match exec (.st ⟨c0, .n32, true, .warp, .rlx, .v 1, .sp 0, .sp 0, 0#32⟩)
      (stK { core with rf := [(32 * 65 + 0, 1#32), (32 * 65 + 31, 0xAABBCCDD#32)] }) with
    | .next t => some ((List.range 5).map (tabGet 0#8 (t.core 0).spad ·))
    | _ => none) = some [0xDD#8, 0xCC#8, 0xBB#8, 0xAA#8, 0#8] := by decide +kernel
/-- A misaligned lane traps MISALIGNED before the store, and memory keeps its bytes (R205). -/
theorem test_misaligned : (match exec (.st ⟨c0, .n32, true, .warp, .rlx, .v 1, .sp 0, .sp 0, 2#32⟩) st with
    | .next t => some (leNat (rdBytes t.hbm 0x5000 1), (t.warp? 0 0).map fun w => w.front.map (·.pc), (t.core 0).spad)
    | _ => none) = some (0x04, some [0x4000#64], []) := by decide +kernel
/-- A guard that no lane passes leaves the destination (R45). -/
theorem test_guard : vAfter (.iadd { r3 .i32 with c := cNo } false) (stV [(0, 9#32), (1, 1#32), (2, 1#32)]) 0 0 = some 9#32 := by decide +kernel
/-- R81's draws, R243's order, R33's source numbers. -/
theorem test_small_tables : tle 0xFFF8#16 0x0004#16 = true ∧ coreSource { st with pkg := 2 } 263 = 0x2847#16
    ∧ unitSource { st with pkg := 2 } 0 176 = 0x20B0#16 := by decide +kernel
/-- R418's example: LANES 0xFF and 0xDF at equal speed give width 4 on lanes 0 to 3. -/
theorem test_agreed_view : agreedView (viewRec 1#16 0 0 1 0xFF) (viewRec 1#16 1 2 1 0xDF) = (0x0F#8, 1#2) := by decide +kernel
/-- R382's example: ALLOC of 300 B and of 256 B in an empty arena. -/
theorem test_buddy :
    (buddyAlloc [⟨5#20, 0x4000000000, false, [(0, 30)], []⟩] 5#20 false (blockLog 300)).map (·.1) = some 0x4000000000
    ∧ ((buddyAlloc [⟨5#20, 0x4000000000, false, [(0, 30)], []⟩] 5#20 false (blockLog 300)).bind fun x =>
        (buddyAlloc x.2 5#20 false (blockLog 256)).map (·.1)) = some 0x4000000200 := by decide +kernel

/-! ### Cases that meet the hypotheses of the statements: decoding, reset, integers -/

/-- DecodeOfEncode, EncodeOfDecode: instructions with a word, and words that decode, operands at the ends of their ranges. -/
theorem case_DecodeOfEncode : ([.iadd ⟨{ c0 with gneg := true, gpred := 7, stall := 15, setsel := true }, .n64, .v 766, .sp 15, .imm 0xFFFFFFFF#32⟩ true,
    .ld (mem0 .n32 .acq .sys), .mma ⟨c0, 23, 15, 15, 0, true, true, 7⟩, .aloop 15 0x80000000#32, .csrr c0 (.s 63) 8#12, .csrw c0 (.s 63) 2#12] : List Instr).all
    (fun i => i.wf && (encode i).isSome) = true := by decide +kernel
theorem case_EncodeOfDecode : (decode (BitVec.ofNat 96 (w3 0x00501C01 0x80203A00 0x12C))).toOption.isSome = true := by decide +kernel
theorem case_HeaderRoundTrip : (Header.ofWord (BitVec.ofNat 96 (w3 0x44025000 0x3219 0))).map (·.bad) = some false
    ∧ (∀ h ∈ ([⟨1, 0#12, none, none, false, 0#12, false⟩, ⟨15, 0xFFF#12, some 11#4, some 0#4, true, 0xFFF#12, false⟩] : List Header),
        1 ≤ h.len ∧ h.len ≤ 15 ∧ (∀ f ∈ h.setA, f.toNat < 12) ∧ (∀ f ∈ h.setB, f.toNat < 12) ∧ h.bad = false) := by decide +kernel
/-- HeaderFaults: the scribe warp after reset of core 0 reaches address 0, whose zeros have a LEN of 0: as it begins a clause, and as it resumes. -/
def fetchCase (s : State) (core slot : Nat) (resume : Bool) : Bool :=
  match s.warp? core slot with
  | none => false
  | some w =>
    w.atBoundary && coreIssues s core slot && w.resume.isSome == resume && w.job.isNone && (resume || (refreshHead s core slot).2) &&
      let t := if resume then s else (refreshHead s core slot).1
      match (if resume then some (w, true) else (t.warp? core slot).map Warp.choose) with
      | some (w1, true) => match w1.front with
        | e :: _ => match fetchWord (if resume then t else t.modWarp core slot fun _ => w1) core w1.pasid (slot == 31) e.pc with
          | (_, .ok x) => x.extractLsb' 0 10 == 0#10 && x.extractLsb' 10 4 == 0#4
          | _ => false
        | [] => false
      | _ => false
theorem case_HeaderFaults : fetchCase st 0 31 false && fetchCase (st.modWarp 0 31 fun w => { w with resume := some 2 }) 0 31 true = true := by decide +kernel
theorem case_UnassignedOpcode : (∀ o ∈ [0x022, 0x07F, 0x097, 0x0FF, 0x106, 0x13F, 0x150, 0x17F, 0x18E, 0x1FF, 0x20A, 0x23F, 0x246, 0x27F,
      0x28B, 0x2FF, 0x306, 0x33F, 0x346, 0x37F, 0x388, 0x3BF, 0x3C0, 0x3FF, 0x340, 0x345],
      unassignedR58 ((BitVec.ofNat 96 o).extractLsb' 0 10).toNat ∧ (ctxOf (landEarly { st with cur := (0, 0) } 0 0) (ctlOfWord (BitVec.ofNat 96 o))).isSome = true) := by
  unfold unassignedR58
  decide +kernel
theorem case_SystemWordDenied : [0x380, 0x387].all (fun o => (ctxOf (landEarly { st with cur := (0, 0) } 0 0) (ctlOfWord (BitVec.ofNat 96 o))).isSome
    && 0x380 ≤ ((BitVec.ofNat 96 o).extractLsb' 0 10).toNat && ((BitVec.ofNat 96 o).extractLsb' 0 10).toNat ≤ 0x387) = true := by decide +kernel

/-- StepRunsDecoded: a warp's word that is next, an event, a slice word. -/
def iaddWord : Word96 := BitVec.ofNat 96 (w3 0x00500001 0x80200000 0x12C)
def stIssue : State := { stW (·.atWord iaddWord) with agenda := [.issue 0 0] }
theorem case_StepRunsDecoded_issue :
    let v := settled stIssue 0 0
    warpsRun (nextAct stIssue).2 && candidates v 0 0 == [0] && eligible v 0 0
      && ((v.warp? 0 0).bind (·.clause)).any (fun c => c.word? == some iaddWord && c.pos == c.hdr.len)
      && decide ((iaddWord.extractLsb' 0 10).toNat ≠ 0) && (decode iaddWord).toOption.isSome = true := by decide +kernel
theorem case_StepRunsDecoded_event : Instr.errstatRead.fields = none
    ∧ (let s := { stW id with agenda := [.event (.trapEntry 0 0)] }
       lowerFirst (settle (nextAct s).2 0 0) 0 0 = none) := by decide +kernel
def amovWord : Word96 := BitVec.ofNat 96 (w3 0x740 0x80000000 4)
def stSlice : State := { stG (fun g => { g with sliceWord := some amovWord }) with agenda := [.slice 0] }
theorem case_StepRunsDecoded_slice :
    let u := (nextAct stSlice).2
    sliceRuns u 0 && ((u.core 0).wgs.find? (·.sliceSt == .running)).any (fun g => (u.core 0).wg? g.id == some g && g.sliceWord == some amovWord)
      && (decode amovWord).toOption == some (.amov 1 (.imm 4#32)) = true := by decide +kernel
/-- What those steps do: `v0 := v5 + 300`, and `x1 := 4`. -/
theorem test_step : (match step stIssue with | .next t => some (tabGet 0#32 (t.core 0).rf (32 * 64)) | _ => none) = some 300#32
    ∧ (match step stSlice with | .next t => ((t.core 0).wg? 7).bind (·.x[1]?) | _ => none) = some 4#64 := by decide +kernel
theorem case_MemoryStaysCanonical : stIssue.MemWf ∧ (match step stIssue with | .next _ => true | _ => false) = true := by
  unfold State.MemWf; decide +kernel
theorem case_HeaderFaults_admitted : (BitVec.ofNat 96 (w3 0x44025000 0x3219 0) : Word96).extractLsb' 0 10 = 0#10
    ∧ ¬ breaksR51 (BitVec.ofNat 96 (w3 0x44025000 0x3219 0)) := by unfold breaksR51; decide +kernel
/-- A word placed by `withFetchWord` runs next after reset, as a warp's word and as a slice's. -/
theorem test_withFetchWord :
    (match step (State.reset.withFetchWord 96 iaddWord.toNat) with
      | .next t => some (tabGet 0#32 (t.core 0).rf (32 * 4032 + 31)) | _ => none) = some 300#32
    ∧ (match step (State.reset.withFetchWord 96 amovWord.toNat) with
      | .next t => (t.core 0).wgs.head?.bind (·.x[1]?) | _ => none) = some 4#64 := by decide +kernel

theorem case_MemoryWrites : Memory.wf ([] : List Host.Cell) = true ∧ Memory.wf ([(0, 1#8), (5, 2#8)] : List Host.Cell) = true
    ∧ State.reset.MemWf ∧ 255 < 256 ^ 1 ∧ (5 < 6 ∨ 6 + 2 ≤ 5) := by
  unfold State.MemWf; decide +kernel

def oV : Alu3 := o3 .i32 (.v 0) (.v 63) (.reg (.v 1))
def oS : Alu3 := o3 .i64 (.s 0) (.s 63) (.imm 1#32)
def o4 (t : Ty) : Alu4 := ⟨c0, t, .v 0, .v 2, .v 4, .v 6⟩
theorem case_IntegerArithmetic : sees st c0 false false (opds3 oV false) && sees st c0 true false (opds3 oS false)
    && sees st c0 false false (opds2 (o2 .n64 (.v 62) (.v 0)))
    && sees st c0 false false [opdD (.v 0) .i64 false, opdA (.v 2) .i64 false, opdA (.v 4) .i64 false, opdA (.v 6) .i64 false]
    && isIntTy .i8 && decide ((128 : Int) > 127 ∧ (-129 : Int) < -128) = true := by decide +kernel
theorem case_IntegerDivision : sees st c0 false false (opds3 (o3 .i32 (.v 0) (.v 1) (.reg (.v 2))) false)
    && isSignedTy .i8 && isSignedTy .i64 && decide (((7 : Int) ≠ 0) ∧ iremRes (-7) 2 ≠ 0) = true := by decide +kernel
theorem case_LogicAndShifts : sees st c0 false false (opds3 (o3 .n32 (.v 0) (.v 1) (.reg (.v 2))) false)
    && sees st c0 false false (opds2 (o2 .n8 (.v 0) (.v 1))) && sees st c0 false false (opdsAmt (o3 .n64 (.v 0) (.v 2) (.imm 64#32))) = true := by
  decide +kernel
theorem case_BitCountsAndFields : 255 < 2 ^ 8 ∧ (255 : Nat) ≠ 0 ∧ (0 : Nat) < 2 ^ 8 ∧ isSignedTy .n64 = false ∧ 3 < 4
    ∧ sees st c0 false false (opdsAmt (o3 .i32 (.v 0) (.v 1) (.reg (.v 2)))) = true
    ∧ sees st c0 false false [opdD (.v 0) .n64 false, opdA (.v 2) .n64 false, { opdA (.v 5) .n64 false with n := 1 }, opdA (.v 6) .n64 false] = true
    ∧ sees st c0 false false ([opdD (.v 0) .n32 false, opdA (.v 1) .n32 false] ++ opdAmt (.reg (.v 2)) .n32 ++ [opdA (.v 3) .n32 false]) = true := by
  decide +kernel
theorem case_CompareSelectMove : sees st c0 false false (opds3 (o3 .i32 (.p 7) (.v 1) (.reg (.v 2))) true)
    && sees st c0 false false [{ r := .p 1, adm := admPred, dst := true, src := false }, { r := .p 0, adm := admPred }, { r := .p 7, adm := admPred }]
    && sees st c0 false false ([{ opdD (.v 0) .i32 false with adm := { admDst with s := false } }, opdA (.v 1) .i32 false] ++ opdSrc (.reg (.v 2)) .i32)
    && sees st c0 false false [opdD (.v 0) .i32 true, opdA (.sp 1) .i32 true] && sees st c0 true false [opdD (.s 1) .i64 false]
    && sees st c0 false false [opdD (.v 0) .n64 false, { opdA (.s 4) .n64 false with adm := { admSrc with q := false } },
        { opdA (.v 3) .n64 false with n := 1 }] = true := by decide +kernel

/-! ### Floating point, cross-lane work, destinations -/

def f3 (t : Ty) : Alu3 := o3 t (.v 0) (.v 2) (.reg (.v 4))
theorem case_FloatArithmetic : sees st c0 false false (opds3 (f3 .f32) false) && sees st c0 false false (opds3 (f3 .f64) false)
    && sees st c0 false false (opds3 (o3 .f16 (.p 1) (.v 1) (.imm 0x3C00#32)) true) && sees st c0 false false (opds2 (o2 .b16 (.v 0) (.v 1)))
    && sees st c0 false false [opdD (.v 0) .f32 false, opdA (.v 1) .f32 false, opdA (.v 2) .f32 false, opdA (.s 0) .f32 false]
    && sees st c0 false false [opdD (.p 1) .f32 true, opdA (.v 1) .f32 false] = true := by decide +kernel
theorem case_FloatSpecialCases : ((Val.nan true).isNan || (Val.inf true).isNan) = true ∧ (Mag.dy 0 0).isZero = true
    ∧ (Mag.dy 1 (-149)).isZero = false ∧ 0 < 1
    ∧ (let ps : List (Val × Flags5) := [(.inf false, 0#5), (.nan true, 0#5), (.inf true, 0#5)]
       Val.inf false ∈ ps.map (·.1) ∧ Val.inf true ∈ ps.map (·.1)) := by decide
theorem case_Rounding : (255 : Nat) < 256 ∧ 255 % 128 = 127 ∧ 254 % 128 ≠ 127 ∧ (0 : Nat) % 128 ≠ 127 := by decide
theorem case_FloatFunctions : sees st c0 false false (opds2 (o2 .f32 (.v 0) (.v 1)))
    && sees st c0 false false [cvtOpd (.v 0) .i32 true false, cvtOpd (.v 1) .f32 false false]
    && sees st c0 false false [cvtOpd (.v 0) .mx true true, cvtOpd (.v 1) .f32 false false, { r := .v 2, adm := admSrc }]
    && sees st c0 false false [{ r := .v 0, adm := admVS, dst := true, src := true }, { r := .v 1, adm := admSrc }, { r := .v 2, adm := admSrc }]
    && sees st c0 false false [opdD (.v 0) .f32 false, opdA (.v 1) .f32 false, { opdA (.v 2) .f32 false with n := 1 }]
    && sees st c0 false false ([{ r := .v 0, adm := admVec, dst := true, src := false }] ++ opdB (.imm 31#32) 1 false) = true := by decide +kernel

def x3 : Alu3 := o3 .n32 (.v 0) (.v 1) (.imm 31#32)
def x2 : Alu2 := o2 .n32 (.v 0) (.v 1)
/-- A state in which lane 31 of `v1` is poisoned. -/
def stPois : State := stK { core with rfPois := [32 * 65 + 31] }
theorem case_CrossLane_results : sees st c0 false false (opdsShfl x3) (fun k => shflBad x3 .idx 5 (k.popped (opdsShfl x3)) == 0#32)
    && sees st c0 false false [opdXD (.v 0) .n32 false true, { r := .p 1, adm := admPred }]
    && sees st c0 false false [{ opdXD (.v 0) .n32 false false with noQ := false }, opdX (.v 1) .n32]
        (fun k => regPoison (k.popped [{ opdXD (.v 0) .n32 false false with noQ := false }, opdX (.v 1) .n32]) (opdX (.v 1) .n32) == 0#32)
    && sees st c0 false false [opdXD (.v 0) .n32 false true, opdX (.v 1) .n32]
        (fun k => scanBad x2 true (k.popped [opdXD (.v 0) .n32 false true, opdX (.v 1) .n32]) == 0#32)
    && sees st c0 false false [opdXD (.v 0) .n32 false false] = true := by decide +kernel
theorem case_CrossLane_poison : sees stPois c0 false false (opdsShfl x3) (fun k => shflBad x3 .idx 5 (k.popped (opdsShfl x3)) != 0#32)
    && sees stPois c0 false false [{ opdXD (.v 0) .n32 false false with noQ := false }, opdX (.v 1) .n32]
        (fun k => regPoison (k.popped [{ opdXD (.v 0) .n32 false false with noQ := false }, opdX (.v 1) .n32]) (opdX (.v 1) .n32) == 0x80000000#32
          && k.act != 0#32)
    && sees stPois c0 false false [opdXD (.v 0) .n32 false true, opdX (.v 1) .n32]
        (fun k => scanBad x2 false (k.popped [opdXD (.v 0) .n32 false true, opdX (.v 1) .n32]) == 0x80000000#32
          && scanBad x2 true (k.popped [opdXD (.v 0) .n32 false true, opdX (.v 1) .n32]) == 0#32)
    && !sees stPois c0 false false [opdXD (.v 0) .n32 false true, opdX (.v 1) .n32]
        (fun k => regPoison (k.popped [opdXD (.v 0) .n32 false true, opdX (.v 1) .n32]) (opdX (.v 1) .n32) == 0#32) = true := by decide +kernel
/-- R134: REDUX ADD f32 folds in its tree's order, SCAN in lane order; 2^24 and two 1s. -/
def stRed : State := stK { core with rf := [(32 * 65, 0x4B800000#32), (32 * 65 + 1, 0x3F800000#32), (32 * 65 + 2, 0x3F800000#32)] }
theorem test_shfl_vote : vAfter (.shfl x3 .idx 5) (stK { core with rf := [(32 * 65 + 31, 7#32)] }) 0 0 = some 7#32
    ∧ vAfter (.vote c0 .ballot (.v 0) (.p 0)) st 5 0 = some 0xFFFFFFFF#32 ∧ vAfter (.lanemask c0 .lt (.v 0)) st 5 0 = some 31#32
    ∧ vAfter (.matchv x2 false) (stK { core with rf := [(32 * 65, 9#32), (32 * 65 + 4, 9#32)] }) 4 0 = some 0x11#32 := by decide +kernel
theorem test_scan : vAfter (.scan (o2 .f32 (.v 0) (.v 1)) .add false .rne) stRed 31 0 = some 0x4B800000#32
    ∧ vAfter (.redux (o2 .n32 (.v 0) (.v 1)) .max .rne) stRed 31 0 = some 0x4B800000#32 := by decide +kernel

theorem case_VectorDestination : (ctxOf st c0).isSome = true ∧ (31 : Nat) < 32
    ∧ (ctxOf st c0).any (fun k => laneIn k.act 0 && laneIn k.act 31 && k.w.slot 31 63 != k.w.slot 31 62) = true
    ∧ tyWidth .i8 ≠ 64 ∧ tyWidth .n64 = 64 := by decide +kernel
theorem case_OtherDestinations : (ctxOf st c0).any (fun k => k.act != 0#32 && (k.popped []).g.isSome) = true
    ∧ (ctxOf st cNo).any (fun k => k.act == 0#32) = true ∧ ((0 : Fin 8) = 0 ∧ (7 : Fin 8) ≠ 0) := by decide +kernel
/-- OneDestinationFrame: IADD, a queue source, a scalar. -/
def qent : QEntry := ⟨0, Vector.replicate 32 5#32, 0#32, 0xFFFFFFFF#32⟩
def stQ : State := stG fun g => { g with queues := g.queues.set 0 [qent] }
def oQ : Alu3 := o3 .n32 (.q 16) (.q 0) (.imm 1#32)
theorem case_OneDestinationFrame :
    ([(Instr.iadd oQ false, stQ), (.iadd oV false, st), (.movi c0 .i64 true (.s 63) 1#32, st), (.lanemask c0 .eq (.v 63), st)] : List (Instr × State)).all
      (fun x => (aluShape x.1).any fun a => sees x.2 a.c a.scalar false a.opds (fun k => a.clean (k.popped a.opds))
        && (match exec x.1 x.2 with | .next _ => true | _ => false)) = true := by decide +kernel
theorem test_queue : (match exec (.iadd oQ false) stQ with
    | .next t => ((t.core 0).wg? 7).map fun g => (g.queues[0].length, (g.queues[16].map fun e => e.lanes[31]))
    | _ => none) = some (0, [6#32]) := by decide +kernel

/-! ### Control -/

/-- Memory with the header of R50's example (LEN 5, PRIO 100) at 0x1000 and at 0x1018; `s1` and `v2:v3` hold 0x1000. -/
def hdrAt (m : List Host.Cell) (a : Nat) : List Host.Cell := wrBytes m a (leBytes 12 (w3 0x1400 0x1900 0))
def stHdr (f : Warp → Warp) : State := { stW fun w => f { w with sregs := w.sregs.set 1 0x1000#64 } with hbm := hdrAt (hdrAt [] 0x1000) 0x1018 }
def readsHeader (k : Ctx) (t : Dword) : Bool := match readTarget k k.s t with | (_, .header _) => true | _ => false
theorem case_DirectTransfers :
    seesT (stHdr id) c0 false [] (fun k => k.act != 0#32 && readsHeader (k.popped []) (k.e.pc + (0xFFFFFFF4#32).signExtend 64))
    && seesT (stHdr id) c0 false [{ r := .p 0, adm := admPred }] (fun k =>
        (maskOf fun l => laneIn k.act l && ((k.rd (.p 0) l 1 == 1) != false)) != 0#32
        && readsHeader (k.popped [{ r := .p 0, adm := admPred }]) (k.e.pc + (12#32).signExtend 64))
    && seesT (stHdr fun w => { w with front := w.front.map fun e => { e with depth := 62 } }) c0 true [opdReturn (.s 0)] (fun k =>
        (63 : Fin 64).val == k.e.depth.val + 1 && k.act != 0#32 && readsHeader (k.popped [opdReturn (.s 0)]) (k.e.pc + (12#32).signExtend 64))
    && seesT (stHdr id) cNo false [] (fun k => k.act == 0#32)
    && seesT (stHdr id) c0 false [{ r := .p 1, adm := admPred }] (fun k =>
        (maskOf fun l => laneIn k.act l && ((k.rd (.p 1) l 1 == 1) != false)) == 0#32)
    && seesT (stHdr id) cNo true [opdReturn (.s 0)] (fun k => k.act == 0#32) = true := by decide +kernel
def readsHeaders (k : Ctx) (a : Reg) : Bool := (readTargets k k.s (groupTargets (eachTo k a))).2.all fun x => match x.2.2 with | .header _ => true | _ => false
theorem case_IndirectTransfers :
    (seesT (stHdr id) c0 false [opdTarget (.s 1)] (fun k => k.act != 0#32 && readsHeaders (k.popped [opdTarget (.s 1)]) (.s 1))
    && seesT (stHdr id) c0 true [opdReturn (.s 0), opdTarget (.s 1)] (fun k => k.act != 0#32 && k.e.depth == 0
        && readsHeaders (k.popped [opdReturn (.s 0), opdTarget (.s 1)]) (.s 1))
    && seesT (stHdr fun w => { w with front := w.front.map fun e => { e with depth := 63 } }) c0 false [opdTarget (.s 1)] (fun k =>
        k.act != 0#32 && k.e.depth.val == 62 + 1 && readsHeaders (k.popped [opdTarget (.s 1)]) (.s 1))
    && seesT (stHdr id) cNo false [opdTarget (.s 1)] (fun k => k.act == 0#32)) = true
    ∧ (∀ x ∈ [((0 : Nat), 0#64), (31, 0x1000#64)], x.1 < 32) := by decide +kernel
theorem case_ControlErrors_depth :
    seesT (stHdr fun w => { w with front := w.front.map fun e => { e with depth := 63 } }) c0 true [opdReturn (.s 0)] (fun k => k.e.depth == 63 && k.act != 0#32)
    && seesT (stHdr fun w => { w with front := w.front.map fun e => { e with depth := 63 } }) c0 true [opdReturn (.s 0), opdTarget (.s 1)]
        (fun k => k.e.depth == 63 && k.act != 0#32)
    && seesT (stHdr id) c0 false [opdTarget (.s 1)] (fun k => k.e.depth == 0 && k.act != 0#32)
    && seesT (stHdr id) c0 false [] (fun k => k.w.handler.isNone && k.act != 0#32) = true := by decide +kernel
def ligOn (w : Warp) : Warp := { w with lig := { w.lig with on := true } }
def opdsP : List Opd := [{ r := .p 1, adm := admPred }, { r := .p 2, adm := admPred }]
def opdsL : List Opd := [{ r := .v 0, adm := admVec, src := false }, { r := .v 63, adm := admVec, src := false }]
theorem case_ControlErrors_ligature :
    sees (stW ligOn) c0 false false opdsP (fun k => k.w.lig.on)
    && sees (stW fun w => { w with front := w.front ++ w.front }) c0 false false opdsP (fun k => 1 < k.w.front.length + k.w.spilled.length)
    && sees st c0 false false opdsL (fun k => !k.w.lig.on && !k.w.lig.pendOn) && sees st c0 false false [] (fun k => !k.w.lig.on)
    && sees (stW ligOn) c0 false false [] (fun k => atLast k.w && k.w.lig.on) = true := by decide +kernel

/-- A warp in its handler, whose frame in memory is that of a BRKPT at position 1 of the clause at 0x1000. -/
def stTrapped : State := match exec (.brkpt c0 9#32) st with
  | .next t => { t with cores := t.cores.map fun k => { k with warps := k.warps.map fun (x : Option Warp) => x.map fun w => if w.wg.isSome then w.atWord 0#96 else w } }
  | _ => st
theorem case_ExitAndReturn :
    seesT (stHdr id) c0 false [] (fun k => k.act != 0#32 && !closeHeld k) && seesT (stHdr id) cNo false [] (fun k => k.act == 0#32)
    && seesT stTrapped c0 false [] (fun k => k.act != 0#32 && k.w.handler.isSome && k.w.front.length + k.w.spilled.length == 1
        && !frameBusy k.s k.ci k.wi k.w && !k.w.sbPend.contains 63
        && !frameReserved (leNat (rdBytes (snoopBytes k.s k.ci k.w.framePa 128).hbm k.w.framePa 128))) = true := by decide +kernel
/-- A breakpoint and its return: the warp goes on after the word, at position 2, with its `s63` (R167, R385, R387). -/
theorem test_trap_and_return :
    (match exec (.retTr c0) stTrapped with
      | .next t => (t.warp? 0 0).map fun w => (w.front.map (·.pc), w.resume, w.handler.isSome, w.sreg 63)
      | _ => none) = some ([0x1000#64], some 2, false, 0#64) := by decide +kernel
/-- R384, R385: the handler finds the frame that was written, not the L1 copy of the one before it. -/
theorem test_frame_seen : (match exec (.brkpt c0 9#32) (stK { core with l1 := [⟨5#20, 160, 160, 0, 0, 0, 9, false, false, 0, 0⟩, ⟨5#20, 161, 161, 0, 0, 0, 9, false, false, 0, 0⟩] }) with
    | .next t => (t.core 0).l1.map (·.pline)
    | _ => []) = [161] := by decide +kernel
theorem case_WaitsAndLigatures :
    sees st c0 false false [] (fun k => k.act != 0#32) && sees st cNo false false [] (fun k => k.act == 0#32) && decide (1#12 ≠ 0#12)
    && sees st c0 false false opdsP (fun k => !k.w.lig.on && !k.w.lig.pendOn && k.w.front.length + k.w.spilled.length == 1)
    && sees (stW ligOn) c0 false false opdsL (fun k => k.w.lig.on) && sees (stW ligOn) c0 false false [] (fun k => k.w.lig.on) = true := by
  decide +kernel
/-- YIELD with X leaves its two holds, and the warp at the next word (R47, R163). -/
theorem test_yield : (match exec (.yield c0 5#16) (stK { core with warps := core.warps.set 1 (some { warp with num := 1 }) }) with
    | .next t => (t.warp? 0 0).map fun w => (w.yieldCc, w.yieldHold)
    | _ => none) = some (true, some [1]) := by decide +kernel
theorem case_TrapsAndCalls :
    sees st c0 false false [] (fun k => k.act != 0#32) && sees st cNo false false [] (fun k => k.act == 0#32)
    && sees st cNo true false (scalarRun (.s 56) 8) (fun k => k.act == 0#32 && k.k.mail.all (·.idx != 15))
    && sees st c0 true false (scalarRun (.s 0) 8) (fun k => k.act != 0#32 && !closeHeld k && k.k.mail.all (·.idx != 0))
    && sees (stK { core with mail := (List.range 16).map fun i => ⟨i, 0, 7, 5#20, 1, 0x100C#64, [], true, none⟩ }) c0 true false (scalarRun (.s 0) 1)
        (fun k => (List.range 16).all fun j => k.k.mail.any (·.idx == j)) = true := by decide +kernel
theorem case_TakingATrap : 0 < 384 ∧ (st.warp? 0 0).any (fun w => (st.core 0).wgOf w == some wg && w.handler.isNone && !w.front.isEmpty) = true
    ∧ wg.trapv ≠ 0#64 ∧ (0x12 < 64 ∧ 15 < 16)
    ∧ ((stG fun g => { g with trapv := 0#64 }).warp? 0 0).any (fun w => ((stG fun g => { g with trapv := 0#64 }).core 0).wgOf w
        == some { wg with trapv := 0#64 }) = true
    ∧ (stTrapped.warp? 0 0).any (fun w => w.handler.isSome) = true := by decide +kernel

/-! ### Memory -/

def mAt (d : Reg) (off : Word) : MemOp := ⟨c0, .n32, false, .warp, .rlx, d, .s 1, .sp 0, off⟩
def aAt (t : Ty) (b : Reg) : AtomOp := ⟨c0, t, false, .warp, .rlx, .s 1, b, 0#28⟩
/-- The words that make accesses, at `s1`. -/
def accesses (off : Word) : List Instr := [.ld (mAt (.v 0) off), .ld (mAt (.s 0) off), .st (mAt (.v 0) off), .ldq (mAt (.q 16) off),
  .atom (aAt .n32 (.v 1)) .add (.v 0), .red (aAt .i32 (.v 1)) .min, .cas (aAt .n64 (.v 2)) (.v 0), .cas2 (aAt .n64 (.v 4)) (.v 0),
  .atomr (aAt .n32 (.v 1)) .add (.v 0), .cwb ⟨c0, false, .s 1, .sp 0, off⟩ true]
/-- The word runs, has room, and its lanes are aligned or not; its checks at the core pass, or fail. -/
def accCase (i : Instr) (s : State) (aligned denied : Bool) : Bool :=
  (memShape i).any fun m => sees s m.c m.scalar m.long m.opds fun k =>
    let x := k.popped m.opds
    let y := m.res x
    let u := lookups k.ci y.g y.s (m.accs x)
    let fs := u.2
    !twinFull u.1 y fs && !(m.lanes x).isEmpty
      && ((m.lanes x).all fun l => l.va.toNat % l.size == 0) == aligned && fs.any (fun e => !(badLanes e.2).isEmpty) == denied
      && (lowestCause k ((fs.map fun e => badLanes e.2).foldl (· ++ ·) [])).isSome == denied
/-- The state of `stHdr` with its page of another type. -/
def stPage (f : Xlat → Xlat) : State := let s := stHdr id
  { s with cores := s.cores.set 0 { s.core 0 with tlb := [f (page 5#20)] } }
/-- AccessesStart: every word that makes accesses; and with no active lane. -/
theorem case_AccessesStart : ((accesses 0#32).all fun i => accCase i (stHdr id) true false) = true
    ∧ accCase (.nldc (mAt (.v 0) 0#32)) (stPage fun p => { p with mt := mtNibw }) true false = true ∧ ((memShape (.ldq { mAt (.q 16) 0#32 with c := cNo })).any fun m => sees (stHdr id) m.c m.scalar m.long m.opds fun k => k.act == 0#32) = true := by
  decide +kernel
theorem case_MisalignedAccess : accCase (.ld (mAt (.v 0) 1#32)) (stHdr id) false false && accCase (.st (mAt (.v 0) 3#32)) (stHdr id) false false
    && decide (16 ∈ [1, 2, 4, 8, 16] ∧ 112 % 16 = 0) = true := by decide +kernel
/-- AccessDenied: a page that may not be written, and addresses that are not canonical. -/
def stRo : State := stPage fun p => { p with w := false }
theorem case_AccessDenied : accCase (.st (mAt (.v 0) 0#32)) stRo true true
    && accCase (.red (aAt .n32 (.v 1)) .add) stRo true true && accCase (.ld (mAt (.v 0) 0#32)) stRo true false = true := by decide +kernel

def acc0 (kind : AccKind) (lanes : List LaneAcc) : Access :=
  ⟨0, .lsu 0, kind, 5#20, false, false, 0x100C#64, 1, .n32, .rlx, .warp, 10#8, none, lanes⟩
def lane0 (l pa size data : Nat) : LaneAcc × Nat := (⟨l, BitVec.ofNat 64 pa, size, data, 0, .none, []⟩, pa)
def two : List (LaneAcc × Nat) := [lane0 0 0x1000 4 1, lane0 31 0x107C 4 2]
theorem case_TrackedLoad : (ownPosted st 0 (acc0 .load (two.map (·.1))) (lineOf 0x1000) || (l1Hit st 0 5#20 (0x1000 / 128)).isNone) = true
    ∧ (∀ x ∈ two, x.2 / 128 = 0x1000 / 128 ∧ 0 < x.1.size ∧ x.2 % 128 + x.1.size ≤ 128)
    ∧ (match l2Read st 0 (lineOf 0x1000) with | .ok _ => true | _ => false) = true
    ∧ (match perfTrk st 0 (acc0 .load (two.map (·.1))) two with | .done _ _ _ _ => true | _ => false) = true := by decide +kernel
theorem case_TrackedStore : (match perfTrk st 0 (acc0 .store (two.map (·.1))) two with | .done _ _ _ _ => true | _ => false) = true
    ∧ two = [] ++ lane0 0 0x1000 4 1 :: [lane0 31 0x107C 4 2] ∧ (0x1000 ≤ 0x1003 ∧ 0x1003 < 0x1000 + 4)
    ∧ (∀ y ∈ [lane0 31 0x107C 4 2], ¬ (y.2 ≤ 0x1003 ∧ 0x1003 < y.2 + y.1.size)) := by decide +kernel
theorem case_AtomicValues : isIntTy .n64 = true ∧ 2 ^ 64 - 1 < 2 ^ tyWidth .n64 ∧ isFloatTy .f16 = true ∧ Ty.n32 ∈ [Ty.n32, Ty.n64]
    ∧ (⟨0, 0#64, 4, 3, 0, .none, [(0, 1, .none), (31, 2, .none)]⟩ : LaneAcc).grp = [(0, 1, .none)] ++ (31, 2, .none) :: [] := by decide
/-- Integer and float atomics (R215, R216): a wrap, a signed minimum, a compare that fails. -/
theorem test_atomics : aopNew .add .n32 0xFFFFFFFF 2 = 1 ∧ aopNew .min .i32 0x80000000 1 = 0x80000000 ∧ aopNew .min .n32 0x80000000 1 = 1
    ∧ rmwNew .cas .n32 5 ⟨0, 0#64, 4, 9, 4, .none, []⟩ = none ∧ aopNew .add .f32 0x3F800000 0x3F800000 = 0x40000000 := by decide +kernel
theorem case_FencesAndTickets : sees st c0 false false [] (fun k => k.act != 0#32 && !rels .acq && rels .rel && rels .ar && k.w.held.isEmpty)
    && sees st cNo false false [] (fun k => k.act == 0#32) && sees st c0 true false [{ r := .s 63, adm := admScalar, dst := true, src := false }]
    && sees st cNo true false [{ r := .s 63, adm := admScalar, dst := true, src := false }] (fun k => k.act == 0#32)
    && sees st c0 false false [{ opdBase (.s 1) with src := false }, { opdIndex (.v 0) with src := false }] = true := by decide +kernel
def tick0 : Ticket := ⟨1#32, acc0 .load [], 0x8000#64, needRd, .none, none⟩
def stTick : State := stK { core with tickets := [tick0] }
theorem case_FencesAndTickets_status : (ctxOf stTick c0).any (fun k => k.k.tickets.length + (k.k.misses.filter (·.kept.isSome)).length ≤ 64
      && k.k.tickets.all (fun t => t.slot? == some k.wi)) = true
    ∧ (ctxOf st c0).any (fun k => k.k.tickets.all fun t => t.slot? != some k.wi) = true := by decide +kernel

/-! ### Sync unit, copy channels -/

/-- A word performed once with an active lane and `H`, and with none. -/
def once (s : State) (opds : List Opd) (H : Ctx → Bool := fun _ => true) : Bool :=
  sees s c0 true false opds (fun k => k.act != 0#32 && H (k.popped opds)) && sees s cNo true false opds fun k => k.act == 0#32
def stS (n : Nat) (v : Dword) : State := stW fun w => { w with sregs := w.sregs.setIfInBounds n v }
theorem case_SyncInstructions :
    once st [opdUni (.s 0)] (fun k => semHeld k.g 63 && cmHeld k.g 15 && barHeld k.g .core 15 && barHeld k.g .quad 7 && barHeld k.g .die 31
      && barHeld k.g .pkg 31 && barHeld k.g .pod 63)
    && once st [] (fun k => semHeld k.g 0) && once st [opdS (.s 63), opdUni (.s 0)] (fun k => semHeld k.g 0)
    && once (stS 0 65535#64) [opdUni (.s 0)] (fun k => 1 ≤ k.rd (.s 0) 0 64 && k.rd (.s 0) 0 64 ≤ 65535)
    && once st [opdS (.s 0)] (fun k => barHeld k.g .core 0) && once (stS 0 383#64) [opdUni (.s 0)] (fun k => k.rd (.s 0) 0 64 < 384) = true := by
  decide +kernel
def stBare (v : Dword) : State := let s := stG fun g => { g with semMask := 0#64, cmMask := 0#16, barMask := 0#16 }
  s.modWarp 0 0 fun w => { w with sregs := w.sregs.setIfInBounds 0 v }
theorem case_SyncInstructions_holders :
    sees (stBare 384#64) c0 true false [opdUni (.s 0)] (fun k => k.act != 0#32 && !semHeld (k.popped [opdUni (.s 0)]).g 0
      && !cmHeld (k.popped [opdUni (.s 0)]).g 0 && !barHeld (k.popped [opdUni (.s 0)]).g .core 0 && 383 < k.rd (.s 0) 0 64)
    && sees (stBare 65536#64) c0 true false [opdUni (.s 0)] (fun k => 65535 < k.rd (.s 0) 0 64)
    && sees (stBare 0#64) c0 true false [opdUni (.s 0)] (fun k => k.rd (.s 0) 0 64 == 0) = true := by decide +kernel
theorem case_BarrierArithmetic : 1 ≤ Bar.fresh.expect := by decide
/-- R275: 5 arrivals at an EXPECT of 2 move PHASE by 2 and leave 1. -/
theorem test_barrier : let b := ({ Bar.fresh with expect := 2 } : Bar).arrive 5 0#5 0
    (b.count, b.phase, b.met 0#32, b.met 2#32) = (1, 2#32, true, false) := by decide
/-- R273: a DEC wait takes its threshold off; a younger one waits. -/
theorem test_semaphore : let k := ({ core with sems := core.sems.set 3 5#32, semQ := [⟨3, 0, 4#32, true⟩, ⟨3, 1, 2#32, true⟩] } : Core).semExam 3
    (k.sems[3], k.semQ.map (·.slot)) = (1#32, [1]) := by decide +kernel
theorem case_SemaphoreWaiters : ∀ x ∈ [SemWait.mk 3 0 4#32 true], ({ core with semQ := [SemWait.mk 3 0 4#32 true] } : Core).ownSync x.slot (3, none) = false
    ∧ ({ core with semQ := [SemWait.mk 3 0 4#32 true] } : Core).waitHeld x.slot = false := by decide +kernel

def opdsLong (s : State) (opds : List Opd) (H : Ctx → Bool) : Bool := sees s c0 true true opds fun k => k.act != 0#32 && H (k.popped opds)
def post0 : CpPost := ⟨0, 0, 0#64, none, false⟩
def stChan (f : Chan → Chan) : State := stK { core with chans := core.chans.set 3 (f core.chans[3]) }
theorem case_CopyCommands :
    opdsLong st [opdUni (.s 0)] (fun k => chanHeld k.g 3 && k.rd (.s 0) 0 64 % 64 == 0 && canonical (BitVec.ofNat 64 (k.rd (.s 0) 0 64))
      && !cmdBlocked k.s k.ci k.wi 1 && (k.k.chan 3).queue.length < 8 && flagOf k.w c0 == some 0)
    && opdsLong (stChan fun c => { c with queue := List.replicate 8 post0 }) (scalarRun (.s 58) 6) (fun k => chanHeld k.g 3
      && !cmdBlocked k.s k.ci k.wi 1 && 8 ≤ (k.k.chan 3).queue.length)
    && sees st cNo true true [opdUni (.s 0)] (fun k => k.act == 0#32) && sees st cNo true true (scalarRun (.s 58) 6) (fun k => k.act == 0#32)
    && once st [opdS (.s 63)] (fun k => chanHeld k.g 3) && once st [] (fun k => chanHeld k.g 0)
    && sees st c0 true false [opdS (.s 0)] (fun k => k.act != 0#32 && decide (64#10 ≠ 0#10) && 0 + 64 ≤ k.w.n && !k.w.wins.any (·.slot == 3) && !k.w.lig.on)
    && sees st cNo true false [opdS (.s 0)] (fun k => k.act == 0#32 && 0 + 64 ≤ k.w.n) && once st [] (fun k => !k.w.lig.on) = true := by decide +kernel
theorem case_CopyCommands_errors :
    (Chan.fresh.done.toNat < 2 ^ 26 ∧ ({ Chan.fresh with queue := List.replicate 8 post0 } : Chan).queue.length ≤ 8)
    ∧ (sees (stG fun g => { g with chanMask := 0#4 }) c0 true true [opdUni (.s 0)] (fun k => k.act != 0#32 && !chanHeld (k.popped [opdUni (.s 0)]).g 0)
      && opdsLong (stS 0 63#64) [opdUni (.s 0)] (fun k => chanHeld k.g 0 && k.rd (.s 0) 0 64 % 64 != 0)
      && opdsLong (stS 0 0x4000000000000000#64) [opdUni (.s 0)] (fun k => k.rd (.s 0) 0 64 % 64 == 0 && !canonical (BitVec.ofNat 64 (k.rd (.s 0) 0 64)))
      && sees st c0 true false [opdS (.s 0)] (fun k => k.w.n < 0 + 65)
      && sees (stW fun w => { w with wins := [⟨0, 0, 1⟩] }) c0 true false [opdS (.s 0)] (fun k => k.act != 0#32 && k.w.wins.any (·.slot == 0))
      && sees (stW ligOn) c0 true false [opdS (.s 0)] (fun k => k.act != 0#32 && k.w.lig.on)) = true := by decide +kernel

/-! ### Matrix engine -/

/-- Reservations of f16 tiles: 64 rows of 32 elements, a pitch of 64 bytes, 2 OB rows each; a sparse FP8 one of 48 columns. -/
def resA (base : Nat) : Resv := ⟨0#20, 0, false, false, 8, 2, base, 0, 0, 32, 64⟩
def resF (f : Nat) : Resv := { resA 4 with fmt := f, len := 8, cols := 16 }
def resS : Resv := ⟨0#20, 0, true, false, 4, 4, 16, 64, 0, 48, 64⟩
def resX : Resv := ⟨0x0000B#20, 0, false, false, 13, 16, 64, 0, 256, 32, 64⟩
def hand (r : Fin 16) (k : Nat) : View := ⟨r, 0, 0, 64, k, false⟩
def wgM : Wg := { wg with
  resv := [(0, resA 0), (1, resA 2), (2, resF 10), (3, resS), (4, { resA 20 with fmt := 4, cols := 48 }), (5, resX)]
  hands := [(0, hand 0 32), (1, hand 1 32), (2, hand 2 16), (3, hand 3 48), (4, hand 4 48), (5, hand 5 32)] }
def stM : State := stG fun _ => wgM
def mx (a b : Fin 16) (acc : Fin 32) (n : Fin 32) : MxOp := ⟨c0, acc, a, b, n, true, false, 3⟩
def isGo : PostChk → Bool
  | .go _ _ _ => true
  | _ => false
/-- The posted word runs: its checks give operands, the FIFO has room. -/
def postCase (s : State) (o : MxOp) (opds : List Opd) (chk : Wg → PostChk) : Bool :=
  sees s c0 true true opds (fun k => k.act != 0#32 && k.g.any (fun g => mxBar g o && isGo (chk g)) && k.k.fifo.length < 64
    && (k.k.fifo.length < 56 || k.w.cls == 0) && !cmdBlocked k.s k.ci k.wi 2 && (flagOf k.w o.c).isSome)
  && sees s cNo true true opds fun k => k.act == 0#32
theorem case_MatrixCommands_multiply :
    (postCase stM (mx 0 1 22 0) [] (chkMma (mx 0 1 22 0) false) && postCase stM (mx 0 1 23 0) [] (chkMma (mx 0 1 23 0) false)
    && postCase stM (mx 3 4 0 0) [] (chkMma (mx 3 4 0 0) true)) = true := by decide +kernel
theorem case_MatrixCommands_moves :
    (postCase stM (mx 0 0 20 4) [] (fun g => if g.accN < 20 + 4 then .ill else .go none none 0)
    && postCase stM (mx 2 0 0 0) [] (fun g => chkView (mx 2 0 0 0) false g fun _ _ r => r)
    && postCase stM (mx 0 0 0 0) (opdSeed (some (.s 1))) (fun g => chkView (mx 0 0 0 0) (Rm.sr == .sr) g fun a _ r =>
      if [8, 9, 10, 12].contains a.fmt then r else .tile)
    && [mx 5 4 0 0, mx 5 5 0 0].all fun o => postCase stM o (opdSeed none) (fun g => chkView o false g fun a v r =>
      if a.fmt != 13 || a.bcol || v.col || v.lc % a.blk != 0 then .tile
      else match r, g.operand o.hb with
        | .go x _ _, some b =>
          if o.ha == o.hb then .go x (some b) 0
          else if b.1.fmt == 4 && !b.1.sparse && v.lc / a.blk ≤ b.2.lc && v.lr ≤ b.2.lr then .go x (some b) 0 else .tile
        | .go _ _ _, none => .tile
        | r, _ => r)) = true := by decide +kernel
def once2 (s : State) (opds : List Opd) (H : Ctx → Wg → Bool) : Bool := once s opds fun k => k.g.any (H k)
def stRec (w0 w1 : Dword) : State := stM.modWarp 0 0 fun w => { w with sregs := (w.sregs.setIfInBounds 2 w0).setIfInBounds 3 w1 }
/-- A record of f16, LEN 2 at BASE 40, 32 columns of 64 rows. -/
def rec0 : Dword := 0x200428#64
def rec1 : Dword := 0x200040#64
theorem case_MatrixCommands_records :
    (once2 (stRec rec0 rec1) (opdS (.s 0) :: scalarRun (.s 2) 2) (fun k g => match resvOf (k.w.sreg 2) (k.w.sreg 3) with
        | some r => (g.resv? 6).isNone && r.ok g && !g.resv.any fun x => meets (x.2.base, x.2.len) (r.base, r.len)
        | none => false)
    && once2 stM [] (fun k g => (g.resv? 0).isSome && !captured k.k g 0)
    && once2 (stRec 0x200400#64 rec1) (scalarRun (.s 2) 2) (fun k g => match resvOf (k.w.sreg 2) (k.w.sreg 3), g.resv? 0 with
        | some r, some q => r.ok g && r.base == q.base && r.len == q.len
        | _, _ => false)
    && once2 (stRec 0#64 0x200040#64) [opdUni (.s 2), opdUni (.s 3)] (fun k g => (g.resv? 0).any fun r =>
        viewOk r ⟨0, k.rd (.s 2) 0 64 % 2 ^ 16, k.rd (.s 2) 0 64 / 2 ^ 16 % 2 ^ 16, k.rd (.s 3) 0 64 % 2 ^ 16, k.rd (.s 3) 0 64 / 2 ^ 16 % 2 ^ 16, false⟩)
    && once2 stM [] (fun _ _ => true) && once2 stM [opdS (.s 63)] (fun _ _ => true)) = true := by decide +kernel
/-- The checks of a multiply at its corners: the last tiles of the allocation, 128 rows, 4,096 cycles. -/
theorem case_MultiplyChecks : isGo (chkMma (mx 0 1 23 0) false wgM) = true ∧ isGo (chkMma (mx 3 4 0 0) true wgM) = true := by decide +kernel
theorem test_multiply_refused :
    isGo (chkMma (mx 0 1 24 0) false wgM) = false ∧ isGo (chkMma (mx 0 2 0 0) false wgM) = false ∧ isGo (chkMma (mx 3 4 0 0) false wgM) = false := by
  decide +kernel
/-- MatrixResults: an element of clean inputs, and an element outside the cleared tiles. -/
theorem case_MatrixResults :
    setHas ({ core with obPois := [] } : Core).accPois (accAt wgM 0 1 2) = false ∧ accAt wgM 0 1 3 ≠ accAt wgM 0 1 2
    ∧ (∀ t, t < 32 → ((⟨resA 0, hand 0 32, 0⟩ : Opr).elem core 1 t).2 = false ∧ ((⟨resA 2, hand 1 32, 4096⟩ : Opr).elem core 2 t).2 = false) := by
  decide +kernel
/-- R309, R313: a worked dot product: 1·2 + 3·4 on an accumulator of 5 is 19. -/
theorem test_multiply : addGroups false [[(fmtF32.value 0x3F800000, fmtF32.value 0x40000000), (fmtF32.value 0x40400000, fmtF32.value 0x40800000)]] (0x40A00000, 0#5) = (0x41980000, 0#5) := by decide +kernel

/-! ### Nibs -/

/-- A bound nib of one 1 × 4 matrix of FP8 elements and four slots, which core 0 may write and read. -/
def nibB : Nib := { Nib.fresh (some 7) with
  st := .bound, desc := BitVec.ofNat 512 (3 * 2 ^ 234 + 3 * 2 ^ 244), writers := [(0#16, 0#16)], readers := [(0#16, 0#16)]
  slots := List.replicate 4 Slot.fresh }
def coreN (f : Nib → Nib) : Core := { core with nibs := Vector.replicate 4 (f nibB) }
def stN (f : Nib → Nib) : State := stK (coreN f)
theorem case_NibInstructions :
    (once st [opdUni (.s 1)] (fun k => nibHeld k 3 && (k.k.nib 3).st == .unbound && semHeld k.g 63 && k.rd (.s 1) 0 64 % 64 == 0
      && canonical (BitVec.ofNat 64 (k.rd (.s 1) 0 64)) && !cmdBlocked k.s k.ci k.wi 3)
    && once (stN id) [] (fun k => nibHeld k 0 && (k.k.nib 0).st == .bound)
    && once (stN id) (scalarRun (.s 56) ((15 + 1) / 2)) (fun k => nibHeld k 0 && (k.k.nib 0).st == .bound)
    && once (stN id) [opdUni (.sp 0)] (fun k => nibHeld k 3 && (k.k.nib 3).st == .bound)
    && once st [opdS (.s 63)] (fun k => nibHeld k 3)
    && once ((stN id).modWarp 0 0 fun w => { w with sregs := w.sregs.setIfInBounds 2 3#64 }) [opdS (.s 0), opdUni (.s 2)] (fun k =>
      nibHeld k 0 && (k.k.nib 0).st == .bound && decide (k.rd (.s 2) 0 64 < (k.k.nib 0).nslots) && k.rd (.s 2) 0 64 == 3)
    && once (stN id) [opdUni (.s 0)] (fun k => nibHeld k 0 && (k.k.nib 0).st == .bound && decide (k.rd (.s 0) 0 64 < (k.k.nib 0).nslots)))
      = true := by decide +kernel

def slotOf (st : SlotSt) (owner : BitVec 16) : Slot := { Slot.fresh with st := st, owner := owner }
def withSlot (x : Slot) : Core := coreN fun n => { n with slots := n.slots.set 3 x }
def bytes0 : List (Nat × Byte × Bool) := [(3, 7#8, false), (4, 9#8, false)]
/-- NibSlots: a source outside the set; every state of the slot, with a byte of the vector; and freed results. -/
theorem case_NibSlots :
    inSet (coreN id).nibs[0].writers 1#16 = false ∧ inSet (coreN id).nibs[0].readers 1#16 = false ∧ inSet (coreN id).nibs[0].writers 0#16 = true
    ∧ (∃ e ∈ bytes0, e.1 < nibB.vb) ∧ nibB.overwrite = false ∧ 3 < nibB.slots.length
    ∧ ({ nibB with desc := nibB.desc ||| BitVec.ofNat 512 (2 ^ 252) } : Nib).overwrite = true
    ∧ ((withSlot (slotOf .filling 0#16)).nib 0).slot 3 = slotOf .filling 0#16 ∧ (slotOf .filling 2#16).owner ≠ 0#16 := by decide +kernel
/-- R338, R339: a first byte claims the slot, another core's is refused and counted. -/
theorem test_stroke : ((strokeStore (coreN id) 0 0#16 3 bytes0).1.nib 0).slot 3 = { slotOf .filling 0#16 with bytes := [(3, 7#8)], map := [3] }
    ∧ ((strokeStore (coreN id) 0 1#16 3 bytes0).1.nib 0).refcnt = 1#16 := by decide +kernel

/-! ### Slice -/

def xregs : Vector Dword 16 := ((Vector.replicate 16 0#64).set 1 0x1000#64).set 2 4#64
def entry0 : QEntry := ⟨0, Vector.replicate 32 5#32, 0#32, 0xFFFFFFFF#32⟩
def stX (f : Wg → Wg) : State := stG fun g => f { g with x := xregs, sliceWord := some 0#96 }
/-- The lanes of ALDQ and ASTQ outside a mask, from A = x1, B = x2 and an offset of 0x7C. -/
def accsX (g : Wg) (done : Mask) (data : Nat → Word) : List LaneAcc := ((List.range 32).filter fun l => !laneIn done l).map fun l =>
  ⟨l, (g.x[1]?).getD 0#64 + BitVec.ofNat 64 l * (g.x[2]?).getD 0#64 + (0x7C#32).signExtend 64, 4, (data l).toNat, 0, .none, []⟩
def runDone (x : LaneRun) : Bool := x.left.isEmpty && !x.halt
/-- ALDQ of the running slice, of which the lanes of a mask have been loaded, loads the rest. -/
def ldCase (s : State) : Bool := (sliceOn s).any fun p =>
  let q := p.2.ldq.getD ⟨0, Vector.replicate 32 0#32, 0#32, 0#32⟩
  let x := sliceLanes (s.modWg p.1 p.2.id fun g => { g with ldq := some q }) (sliceEng p.1 p.2) .load (ldLane p.2.id) (accsX p.2 q.landed fun _ => 0#32)
  (p.2.qconn[7]?).getD .none == .operand && decide (((p.2.queues[7]?).getD []).length < 8) && runDone x
    && (((x.s.core p.1).wg? p.2.id).bind (·.ldq)).isSome
/-- ASTQ stores the lanes of the entry that are still to be stored. -/
def stCase (u : State) (e : QEntry) (done : Mask) : Bool := (sliceOn u).any fun p =>
  (p.2.qconn[8]?).getD .none == .store
    && runDone (sliceLanes u (sliceEng p.1 p.2) .store (stLane p.2.id e) (accsX p.2 done fun l => e.word l))
theorem case_SliceWords :
    (sliceOn (stX id)).any (fun p => (p.2.x[2]?).getD 0#64 == 4#64 && decide (((p.2.x[0]?).getD 0#64).toNat ≤ 1)
      && decide (1 < ((p.2.x[2]?).getD 0#64).toNat)) = true
    ∧ ldCase (stX fun g => { g with ldq := some { entry0 with landed := 0x7FFFFFFE#32 } }) = true := by decide +kernel
def stXq : State := stX fun g => { g with queues := g.queues.setIfInBounds 8 [entry0] }
theorem case_SliceWords_store :
    (sliceOn stXq).any (fun p => p.2.stq.isNone && (p.2.queues[8]?).getD [] == [entry0]) = true ∧ entry0.landed = 0xFFFFFFFF#32
    ∧ stCase (stX fun g => { g with stq := some (entry0, 0x7FFFFFFE#32) }) entry0 0x7FFFFFFE#32 = true := by decide +kernel
/-- A lane of a slice word: at an odd address, behind one at its address, translated, and denied or done. -/
def laneX (va : Dword) : LaneAcc := ⟨31, va, 4, 5, 0, .none, []⟩
def laneCase (s : State) (denied : Bool) : Bool := (sliceOn s).any fun p =>
  let f : Eng := { sliceEng p.1 p.2 with id := 31, lane := some (.store, laneX 0x107C#64) }
  !lanePending (s.core f.ci) f 31 && match engXlat s f 31 0x107C#64 with
    | (u, some t) => (pieceCheck u f AccKind.store.need ⟨t, 0x107C, 4⟩).isSome == denied
      && (denied || match ER.fin (stLane p.2.id entry0 u f ⟨t, 0x107C, 4⟩ (laneX 0x107C#64)) f 31 with | .ok _ _ => true | _ => false)
    | _ => false
theorem case_SliceWords_lanes : (LaneRun.mk stXq [] [0x107C#64] false).halt = false ∧ (laneX 0x107E#64).va.toNat % 4 ≠ 0
    ∧ canonical 0x4000000000000000#64 = false ∧ (laneX 0x107C#64).va ∈ [0x107C#64] ∧ laneCase (stX id) false = true
    ∧ laneCase { stX id with cores := (stX id).cores.set 0 { (stX id).core 0 with tlb := [{ page 5#20 with w := false }] } } true = true
    ∧ ({ wg with ldq := some entry0 } : Wg).ldq = some entry0 ∧ 31 < 32 := by decide +kernel

/-! ### System words of the scribe warp -/

def scr (f : State → State) : State := { f (st.modWarp 0 31 (·.atWord 0#96)) with cur := (0, 31) }
/-- A system word that runs, with `H`, and with no active lane. -/
def sysCase (s : State) (opds : List Opd) (H : Ctx → Bool := fun _ => true) : Bool :=
  once s opds H && sees s c0 true false opds fun k => k.wi == 31
def scrS (n : Nat) (v : Dword) : State := scr (·.modWarp 0 31 fun w => { w with sregs := w.sregs.setIfInBounds n v })
theorem case_SystemInstructions :
    (sysCase (scr id) [opdS (.s 0)] && sysCase (scrS 1 256#64) [opdUni (.s 1)] (fun k => 32 ≤ k.rd (.s 1) 0 64 && k.rd (.s 1) 0 64 ≤ 256)
    && sysCase (scrS 1 32#64) [opdUni (.s 1)] (fun k => 32 ≤ k.rd (.s 1) 0 64 && k.rd (.s 1) 0 64 ≤ 256)
    && sysCase (scr id) [opdUni (.s 1)] (fun k => k.rd (.s 1) 0 64 % 128 == 0)
    && sysCase (scr id) [] (fun k => !xlatBusy k.s none fun _ => true)
    && sysCase (scr id) [opdS (.s 2), opdUni (.s 1)] (fun k => k.rd (.s 1) 0 64 % 4096 == 0 && ((k.k.warp? 30).bind k.k.wgOf).isNone)
    && sysCase (scr id) [] (fun k => !xlatBusy k.s (some (dieOfCore k.ci)) fun _ => true)
    && sysCase (scrS 1 128#64) [opdUni (.s 1)] (fun k => (k.uni (.s 1)).toNat % 128 == 0 && decide (0xFFFF#16 ≠ 0#16))
    && sysCase (scr id) [] (fun k => !k.k.halted && haltQuiet k.s k.ci)
    && sysCase (scr fun s => s.modCore 0 fun k => { k with halted := true }) [] (fun k => k.k.halted)
    && sees (scr fun s => s.modCore 0 fun k => { k with fifo := [{ (default : MxEntry) with run := true }] }) c0 true false []
      (fun k => k.wi == 31 && k.act != 0#32 && !k.k.halted && !haltQuiet k.s k.ci)) = true := by decide +kernel

/-- A task of graph 0, node 0 with address space 5, of which gang 0 has a second workgroup on core 1. -/
def node0 : Node := { (default : Node) with tcb := BitVec.ofNat 1024 (5 * 2 ^ 560), pred := 0, status := 2 }
def graph0 : Graph := { (default : Graph) with pasid := 5#20, nodes := [node0] }
def stCtx : State := let s := scrS 1 0x2000#64
  let s := s.modCore 1 fun k => { k with wgs := [{ wg with id := 9, wgno := 1, wgs := 2 }] }
  { s with dies := s.dies.set 0 { s.die 0 with graphs := [graph0] } }
def ctxOpds : List Opd := [opdS (.s 2), opdUni (.s 1)]
/-- The operands that trap: a value of CSRW below 32, a misaligned line, a misaligned image. -/
theorem case_SystemInstructions_traps :
    (sysCase (scr id) [opdUni (.s 1)] (fun k => (k.uni (.s 1)).toNat < 32) && sysCase (scrS 1 32#64) [opdUni (.s 1)] (fun k => (k.uni (.s 1)).toNat % 128 != 0)
    && sysCase (scrS 1 32#64) ctxOpds (fun k => (k.uni (.s 1)).toNat % 4096 != 0)) = true := by decide +kernel
/-- CTXSAVE of slot 0: the workgroup is quiet or not, and its gang has another workgroup or not. -/
def saveCase (s : State) (quiet alone : Bool) : Bool :=
  sysCase s ctxOpds fun k => (k.uni (.s 1)).toNat % 4096 == 0 && ((k.k.warp? 0).bind k.k.wgOf).any fun g =>
    match ctxPages needW (imagePages g (warpN (k.k.warpsOf g.id))) (k.uni (.s 1)) k with
    | (u, .ok pages) => wgQuiet (stopWg u k.ci g.id) k.ci g.id == quiet && !taskDoomed (stopWg u k.ci g.id) g &&
      (!quiet || (gangCores (saveWg (stopWg u k.ci g.id) k.ci g.id (((pages.head?).map (·.1)).getD 0) pages) g.die g.graph g.node g.gang).isEmpty == alone)
    | _ => false
/-- The workgroup without runs: its image takes few pages, which are of the host. -/
def stSave : State := (stCtx.modWg 0 7 fun g => { g with spadRows := 0, obLen := 0, accN := 0 }).modCore 0 fun k => { k with
  tlb := [page 5#20, { page 0#20 with mt := mtHst }] }
theorem case_SystemInstructions_save : (saveCase stSave true false && saveCase (stSave.modCore 1 fun k => { k with wgs := [] }) true true
    && saveCase (stSave.modWarp 0 0 fun w => { w with posted := [⟨4, some 9#16, none, 0⟩] }) false false) = true := by decide +kernel
/-- An image of a workgroup with no warps and no runs, whose gang has another workgroup; and no image at the address. -/
def image0 : Image := { (default : Image) with
  at_ := 0x2000, core := 0, wg := { wg with wgs := 2, warps := 0, spadRows := 0, obLen := 0, accN := 0, semMask := 0#64, cmMask := 0#16, barMask := 0#16
                                            qbarMask := 0#8, chanMask := 0#4, nibMask := 0#4, sliceSt := .none } }
def stImg (n : Nat) (ob : Nat := 0) : State :=
  { stCtx.modWarp 0 31 (fun w => { w with sregs := w.sregs.setIfInBounds 1 (BitVec.ofNat 64 n) }) with
    images := [{ image0 with wg := { image0.wg with obLen := ob } }] }
def findImage (k : Ctx) : Option (Option Image × State) :=
  match loadImage k (k.uni (.s 1)) with
  | (u, .ok im) => some (im, u)
  | _ => none
def loadCase (s : State) (alone : Bool) : Bool :=
  sysCase s ctxOpds fun k => (k.uni (.s 1)).toNat % 4096 == 0 && (findImage k).any fun p => p.1.any fun im =>
    (restoreWg p.2 k.ci im).any fun w => ((gangCores w im.wg.die im.wg.graph im.wg.node im.wg.gang).length == 1) == alone
theorem case_SystemInstructions_load :
    (loadCase (stImg 0x2000) false && loadCase (({ stImg 0x2000 with images := [{ image0 with wg := { image0.wg with gang := 1 } }] })) true
    && sysCase (stImg 0x2000 256) ctxOpds (fun k => (k.uni (.s 1)).toNat % 4096 == 0 && (findImage k).any fun p => p.1.any fun im => (restoreWg p.2 k.ci im).isNone)
    && sysCase (stImg 0x3000) ctxOpds (fun k => (k.uni (.s 1)).toNat % 4096 == 0 && (findImage k).any fun p => p.1.isNone)) = true := by
  decide +kernel

/-! ### Issue -/

/-- Slot 0 at the boundary of the clause at 0x1000, which begins. -/
def stAt (f : Warp → Warp) : State := stHdr fun w => f { w with clause := none, front := w.front.map fun e => { e with pc := 0x1000#64 } }
theorem case_IssueEvents_fetch :
    (let s := stAt id
     match s.warp? 0 0 with
     | none => false
     | some w => w.atBoundary && coreIssues s 0 0 && w.resume.isNone && w.job.isNone && (refreshHead s 0 0).2 &&
       match ((refreshHead s 0 0).1.warp? 0 0).map Warp.choose with
       | some (w1, true) => match w1.front with
         | e :: _ => match fetchWord ((refreshHead s 0 0).1.modWarp 0 0 fun _ => w1) 0 w1.pasid (0 == 31) e.pc with
           | (s2, .ok x) => match Header.ofWord x with
             | some h => !h.bad && h.meld == w1.lig.on && decide (1 ≤ h.len) && match fetchGo s2 0 w1.pasid (0 == 31) (3 * h.len) (e.pc + 12#64) with
               | (_, .ok _) => true
               | _ => false
             | none => false
           | _ => false
         | [] => false
       | _ => false) = true := by decide +kernel
/-- A pop of an empty queue, a full matrix FIFO; a job of each kind, a cause, an operation of a flag, a posted store. -/
def popWord : Word96 := (encode (.iadd (o3 .n32 (.v 0) (.q 0) (.imm 1#32)) false)).getD 0#96
def cause0 : Cause := ⟨0x08, 1#32, 0x1000#64, 0, 0#64, 0#32, 0#4, false⟩
def op0 : LongOp := ⟨3, 2, 0, [], 0#5, false⟩
def post1 : Posted := ⟨4, some 9#16, some (32, 0, 0#2), 6⟩
def l1line (line born : Nat) : L1Line := ⟨5#20, 7, line, 0, 0#2, 3#16, 5#16, false, false, born, 0⟩
def accWord : Word96 := (encode (.accz { mx 0 0 0 1 with baren := false, bar := 0 })).getD 0#96
theorem case_IssueEvents_warp :
    (∀ e ∈ ([(stW (·.atWord popWord), fun w => w.beforeNext && w.causes.all (0x0E ≤ ·.code)),
        ((stK { core with fifo := List.replicate 64 default }).modWarp 0 0 (·.atWord accWord), fun w => w.beforeNext && w.causes.all (0x0E ≤ ·.code)),
        (stW fun w => { w.atWord popWord with handler := some ⟨[], [], w.lig⟩ }, fun w => w.handler.isSome),
        (stW fun w => { w.atWord popWord with wait := .tkwait }, fun w => w.handler.isNone && !w.beforeNext),
        (stW fun w => { w.atWord popWord with causes := [cause0] }, fun w => w.handler.isNone && w.causes.any (·.code < 0x0E))] : List (State × (Warp → Bool))),
      ((queueBlocked { e.1 with cur := (0, 0) } 0 0).any fun k => e.1.warp? 0 0 == some k.w && !k.w.stopped && k.w.escal.isNone
        && coreIssues e.1 0 0 && e.2 k.w) = true)
    ∧ (∀ j ∈ [SpillJob.spill, .refill, .merge], ((stW fun w => { w with job := some j }).warp? 0 0).any (fun w => w.job == some j && !w.unread) = true)
    ∧ (let s := settle (stAt fun w => { w with causes := [cause0] }) 0 0
       (s.warp? 0 0).any fun u => !u.ended && !u.stopped && u.escal.isNone && u.job.isNone && u.handler.isNone && u.wait == .none && coreIssues s 0 0
         && u.causes.contains cause0 && u.causes.all (cause0.code ≤ ·.code) && u.causes.find? (·.code == cause0.code) == some cause0) = true
    ∧ (let s := stW fun w => { w with escal := some cause0, ops := [op0], posted := [post1] }
       (s.warp? 0 0).any fun w => w.escal.isSome && ((s.core 0).wgOf w).isSome && w.ops.find? (·.id == 3) == some op0 && op0.parts == 0
         && !op0.engine && w.posted.find? (·.id == 4) == some post1) = true
    ∧ (let s := stK { core with engPosted := [post1], l1 := [l1line 32 5, l1line 32 6, l1line 33 5] }
       (s.core 0).engPosted.find? (·.id == 4) == some post1 && post1.upd == some (32, 0, 0#2) && [l1line 32 5, l1line 32 6, l1line 33 5].all (s.core 0).l1.contains
         && (l1line 32 5).born < post1.born && post1.born ≤ (l1line 32 6).born && ({ post1 with wts := none } : Posted).upd == some (32, 0, 0#2)) = true := by decide +kernel

/-! ### Tickets, host translations -/

/-- A miss of core 0 at an address without a page, in an address space that has a table and a declared range. -/
def miss0 (va : Dword) : Miss := ⟨5, acc0 .load [], va, needRd, false, none, .none⟩
def stMiss (va : Dword) : State := let s := stK { core with misses := [miss0 va] }
  { s with dies := s.dies.set 0 { s.die 0 with roots := [⟨5#20, 0x100000, false⟩], ranges := [⟨5#20, 0x200000, 0x1000, false, true, true, false, false, .zero⟩] } }
theorem case_TicketEvents_miss :
    (let s := stMiss 0x1000#64
     ((s.core 0).misses.find? (·.id == 5)).any (fun m => !m.busy && m.ats != .out && (translate s 0 m.acc.pasid m.va).2.any (·.home.isNone))) = true
    ∧ (let a : Access := { acc0 .row [] with path := .cpy 0 }
       let s := stK { core with tlb := [{ page 5#20 with home := some 3 }], misses := [{ miss0 0x1000#64 with acc := a }] }
       ((s.core 0).misses.find? (·.id == 5)).any (fun m => !m.busy && m.ats != .out && match translate s 0 m.acc.pasid m.va with
         | (u, some x) => x.home == some 3 && entryFree (u.core 0) m && (match m.acc.path with | .lsu _ => false | _ => true)
         | _ => false)) = true
    ∧ (let s := stMiss 0x80000#64
       ((s.core 0).misses.find? (·.id == 5)).any fun m => !m.busy && m.ats != .out && match translate s 0 m.acc.pasid m.va with
         | (u, none) => entryFree (u.core 0) m && walk u (dieOfCore 0) m.acc.pasid m.va != .host && !assisted u 0
           && (newRec u (dieOfCore 0) 0 m.acc.pasid m.va m.need m.acc.scr .fresh).isSome
         | _ => false) = true := by decide +kernel
/-- Records of die 0, notices for core 0, tickets of this device and of device 1. -/
def own0 (p : Phase) (c : Nat := 0) : OwnRec := ⟨0, 0#10, c, 5#20, 0x80000#64, needRd, p, false, none⟩
def stOwn (p : Phase) (f : Die → Die := id) (c : Nat := 0) : State := let s := stMiss 0x80000#64
  { s with dies := s.dies.set 0 (f { s.die 0 with own := [own0 p c] }) }
def stTk (tid : Word) (f : Core → Core) (ns : List Notice) : State :=
  let s := stK (f { core with tickets := [{ tick0 with tid := tid, query := .asked }] })
  { s with dies := s.dies.set 0 { s.die 0 with notices := ns } }
theorem case_TicketEvents_service :
    ∀ c ∈ [0, 384, 385], (((stOwn .fresh id c).die 0).own.find? (·.index == 0) == some (own0 .fresh c)
      && (match servePage 8 (stOwn .fresh id c) 0 5#20 0x80000 needRd false with | (_, .status _) => true | _ => false)) = true := by decide +kernel
theorem case_TicketEvents_notice :
    (∀ f ∈ [id, fun (k : Core) => { k with halted := true }], (takeNotice (stTk 1#32 f [⟨0, 1#32, 0#4⟩]) 0 1#32 (· == 0#4)).any (fun p =>
      p.2 == 0#4 && ((p.1.core 0).tickets.find? (·.tid == 1#32)).isSome) = true)
    ∧ (takeNotice (stTk 1#32 id [⟨0, 1#32, 3#4⟩]) 0 1#32 (· != 0#4)).any (fun p => p.2 == 3#4) = true
    ∧ (let s := stTk 0x10000000#32 id []
       tidDev 1#32 == s.pkg.val && tidDev 0x10000000#32 != s.pkg.val
         && ((s.core 0).tickets.find? (·.tid == 0x10000000#32)).any fun t => t.query == .asked) = true
    ∧ ticketLive st 0 { acc0 .row [] with path := .cpy 0 } = true ∧ ticketLive st 0 tick0.acc = false
    ∧ (translate st 0 5#20 0x8000#64).2.isSome = true ∧ (translate st 0 5#20 0x80000#64).2.isNone = true := by decide +kernel
/-- A page of a process of the host without an entry: the ticket waits for ATS. -/
theorem case_TicketEvents_host :
    (let s := stOwn .fresh
     let s := { s with dies := s.dies.set 0 { s.die 0 with roots := [⟨5#20, 0x100000, true⟩], ranges := [] } }
     match servePage 8 s 0 5#20 0x80000 needRd false with | (_, .host) => true | _ => false) = true := by decide +kernel

/-- The link is up, the host enables ATS and page requests with 512 credits. -/
def withAts (s : State) : State := { s with port := { s.port with hpcap := 0x2008060#64 } }
def ans0 : AtsAnswer := ⟨5#20, 0x80000#64, 0x1000, 0x4000, true, true, false⟩
theorem case_HostTranslationEvents :
    (∀ b ∈ [true, false], (let s := withAts (stOwn (.atsDue b))
       s.port.hpcap.getLsbD 15 && s.port.hpcap.getLsbD 5
         && (s.die 0).own.find? (fun r => r.phase == .atsDue true || r.phase == .atsDue false) == some (own0 (.atsDue b))
         && (s.die 0).own.all fun x => x.index != 0 || x == own0 (.atsDue b)) = true)
    ∧ (let s := withAts (stOwn (.atsOut true) fun k => { k with ats := [.tick 0] })
       (s.die 0).ats == [.tick 0] && (s.die 0).own.find? (·.index == 0) == some (own0 (.atsOut true)) && ans0.pasid == 5#20
         && (atsXlat ans0).covers 5#20 0x80000 && permits (atsXlat ans0) needRd true) = true
    ∧ (let s := withAts (stOwn .priDue)
       let used := (priGroups s).foldl (fun l g => if l.contains g then l else l ++ [g]) ([] : List Nat)
       s.port.hpcap.getLsbD 6 && decide (used.length < min 512 (s.port.hpcap.extractLsb' 16 12).toNat)
         && (s.die 0).own.find? (·.phase == .priDue) == some (own0 .priDue)
         && ((List.range 512).find? fun g => !used.contains g) == some 0) = true
    ∧ ((stOwn (.priOut 3)).die 0).own.any (·.phase == .priOut 3) = true := by decide +kernel
/-- An access waits under a host translation of a range, or none does. -/
theorem case_HostTranslationEvents_kept : ∀ b ∈ [true, false],
    xlatKept (stW fun w => { w with deferred := if b then [{ acc := acc0 .load [], xl := some { page 5#20 with mt := 2 } }] else [] }) none
      (fun x => x.mt == 2 && x.pasid == 5#20 && x.meets 0x8000 0x1000) = b := by decide +kernel

/-! ### Coherence -/

/-- A line whose home is die 0. -/
def ln : Nat := 32
def dir0 : DirEnt := ⟨ln, .s, [1], none, 0, [], none, false, none, false⟩
/-- Die 0 with a directory entry of the line, die 1 changed. -/
def stDir (e : DirEnt) (f : Die → Die := id) (h : Die → Die := id) : State :=
  { st with dies := (st.dies.set 0 (h ((st.die 0).setDir e))).set 1 (f (st.die 1)) }
def wait0 (h : Hold) : SliceWait := ⟨ln, 96, acc0 .load [], mtTrk, [ln * 128], h⟩
def retry0 : Retry := ⟨ln, .read, 7#64, 64⟩
def tag0 (st : L2St) : L2Tag := ⟨ln, st, 3#16, 5#16, false, false, 0#2⟩
theorem case_LogicalTime : homeDie (ln * 128) = 0
    ∧ (tle ((st.core 383).pts + 1) (st.die (dieOfCore 383)).ltlim && (let s := stD fun d => { d with ltlim := 1023#16 }; tle ((s.die 0).ltlim + 1) (tmaxOf s 0 + 1024))) = true
    ∧ dieOfCore 95 = 0 ∧ (match storeTrk st 95 ln with | .ok _ => true | _ => false) = true := by decide +kernel
/-- The directory entry of the line in a state. -/
def dirIs (e : DirEnt) : Bool := ((stDir e).die 0).dir ln == e
theorem case_DirectoryEvents :
    agentOf st 1 = 1 ∧ homeAgent st ln = 0 ∧ grantLim (stDir dir0) ln .read = false ∧ grantLim (stDir dir0) ln .own = false
    ∧ (∀ d ∈ [0, 1], (let s := (stDir dir0).modDie d fun k => { k with waits := [wait0 (.dir .read)], retries := [], wbufs := [] }
       (s.die d).waits.any (fun w => w.line == ln && w.hold == .dir .read) && !(s.die d).retries.any (·.line == ln) && !(s.die d).wbufs.contains ln) = true)
    ∧ ((stDir dir0 fun k => { k with retries := [retry0] }).die 1).retries.find? (·.line == ln) = some retry0
    ∧ (dirIs dir0 = true ∧ dir0.st ≠ .b ∧ dir0.st ≠ .m ∧ dir0.resv = none ∧ snoopNeeded (stDir dir0) ln false = false
      ∧ snoopNeeded (stDir dir0) ln true = false ∧ dir0.sharers.filter (· != 1) = [])
    ∧ (let e : DirEnt := { dir0 with st := .m, owner := some 2, sharers := [] }
       dirIs e = true ∧ snoopNeeded (stDir e) ln false = false ∧ 1 / 4 = st.pkg.val ∧ 5 / 4 ≠ st.pkg.val)
    ∧ dirIs { dir0 with resv := some 1 } = true ∧ dirIs { dir0 with resv := some 5 } = true
    ∧ dirIs { dir0 with resv := some 1, st := .b } = true ∧ dir0.go = false := by decide +kernel
theorem case_DirectoryEvents_ends :
    (let e : DirEnt := { dir0 with st := .m, owner := some 1 }
     let s := stDir e fun k => { k with wbufs := [ln] }
     (s.die 1).wbufs.contains ln && (peerHome ln).isNone && (s.die 0).dir ln == e) = true
    ∧ (∀ b ∈ [false, true], (let e : DirEnt := { dir0 with st := .b, owner := some 1, fwd := some 2, wbIn := b }
       let s := stDir e fun k => k.setTag (tag0 .owner)
       (s.die 0).dir ln == e && ((s.die 1).tag? ln).isSome) = true)
    ∧ (∀ o ∈ [0, 3], ∀ l ∈ [[1], [1, 2]], dirIs { dir0 with st := .b, owner := some o, sharers := l } = true ∧ l.contains 1 = true
      ∧ invLim (st.die 1) ln = none) := by decide +kernel
def stHost (f : Die → Die) (e : DirEnt := dir0) : State := { stDir e id f with port := { st.port with hpcap := 0x8001#64 } }
/-- The name of a line of device 3, to which no link is up. -/
def lnP : Nat := lineOf (peerAddr 3 5#20 0x1000)
/-- No port up: every other device is unreachable, whatever links the peers have (R416). -/
theorem unreachable_down {s : State} {d : Nat}
    (h : (List.range 16).all (fun r => (directPort s r 0).isNone) = true) (hd : d < 16) (hp : d ≠ s.pkg.val) :
    unreachable s d = true := by
  have hn : ∀ r, r < 16 → directPort s r 0 = none := fun r hr => by
    simpa using List.all_eq_true.mp h r (List.mem_range.mpr hr)
  have : ((List.range 16).findSome? fun r =>
      if r = d ∨ r = s.pkg.val ∨ !Config.peerLink s.tick r d then none else directPort s r 0) = none := by
    rw [List.findSome?_eq_none_iff]
    intro r hr
    rw [hn r (List.mem_range.mp hr)]; split <;> rfl
  simp only [unreachable, routeTo, hn d hd, this]
  simp [hp]
/-- Evictions of a line of this device, owned or shared, and of one whose home is out of reach; a snoop that is due, and one that is out. -/
theorem case_HostCopies :
    (∀ st ∈ [L2St.owner, .shared], (let s := stDir dir0 fun k => k.setTag (tag0 st)
       ((s.die 1).unt? ln).isNone && (s.die 1).tag? ln == some (tag0 st) && !unreachable s (lineDev s ln)) = true)
    ∧ (let s := stDir dir0 fun k => k.setTag { tag0 .owner with line := lnP }
       ((s.die 1).unt? lnP).isNone && (s.die 1).tag? lnP == some { tag0 .owner with line := lnP }) = true
    ∧ (let s := stHost fun k => { k with snoop := [(ln, true)], waits := [{ wait0 .snoop with core := 0 }] }
       s.dies.toList.any (fun (d : Die) => d.waits.any fun w => w.line == ln && w.hold == .snoop) && (s.die 0).snoop.any (·.1 == ln)
         && !(s.die 0).bisnp.contains ln) = true
    ∧ ((stHost fun k => { k with bisnp := [ln] }).die 0).bisnp.contains ln = true := by decide +kernel
/-- The home of a peer's line with no port up is unreachable. -/
theorem case_HostCopies_lost : unreachable (stDir dir0 fun k => k.setTag { tag0 .owner with line := lnP }) (lineDev (stDir dir0 id) lnP) = true :=
  unreachable_down (by decide +kernel) (by decide +kernel) (by decide +kernel)
/-- Accesses of the host to a whole line of memory: done, or waiting for the owner in device 1; an AtomicOp of each kind. -/
theorem case_HostCopies_memory :
    (let s := stHost id
     let pa := ln * 128
     s.boot == .running && s.port.hpcap.getLsbD 15 && s.port.hpcap.getLsbD 0 && isHbm pa && lineOf pa == lineOf (pa + 128 - 1)
       && hostRuns s pa 128 == [((pa, 128), none)] && !(hostRuns s pa 128).any (·.2.isSome)
       && (hostLine s pa (List.replicate 128 1#8)).isSome && ((s.die (homeDie pa)).unt? (lineOf pa)).isNone && !hostHeld s
       && (hostMemRead s pa 128).isSome && ((s.die (homeDie pa)).dir (lineOf pa)).st != .b && (recallLim s (lineOf pa)).isNone
       && !peersHold s (lineOf pa) false && !peersHold s (lineOf pa) true) = true
    ∧ (let s := stHost id { dir0 with st := .m, owner := some 5, sharers := [] }
       let pa := ln * 128
       hostRuns s pa 128 == [((pa, 128), none)] && !hostHeld s && (hostLine s pa (List.replicate 128 1#8)).isNone && (hostMemRead s pa 128).isNone) = true
    ∧ (let s := stHost id
       let pa := ln * 128
       (∀ op ∈ [HostAtom.add 5, .swap 5, .cas 0 5, .cas 1 5], (hostAtomOk op pa 8 && (nibWindow s pa 8).isNone
         && match hostNew op 8 (hostOld s pa 8) with | some x => (hostLine s pa (leBytes 8 x)).isSome | none => op == .cas 1 5) = true)
         ∧ hostNew (.cas 1 5) 8 (hostOld s pa 8) = none) := by decide +kernel
/-- Accesses of the host outside HBM: in no window, in the sync unit of core 0, admitted and not. -/
theorem case_HostCopies_window :
    (let s := stHost id
     isHbm (winBase - 8) == false && (winSplit (winBase - 8)).isNone && lineOf (winBase - 8) == lineOf (winBase - 8 + 8 - 1) && !hostHeld s
       && isHbm (winBase + 0x400000) == false && winSplit (winBase + 0x400000) == some (0, 0x400000)
       && [WKind.load, .store].all fun k => hostWin s 0 0x400000 4 k none && !hostWin s 0 0xFFFFF0 4 k none) = true
    ∧ ({ stHost id with boot := .recovery } : State).boot ≠ .running := by decide +kernel
/-- R248: a stamp exactly 2^14 behind Tmax expires, one less does not; R244: a wrapped maximum. -/
theorem test_stale : stale 0x4000#16 0#16 = true ∧ stale 0x3FFF#16 0#16 = false ∧ stale 0x2000#16 0xE001#16 = false ∧ tmax 0xFFFF#16 0#16 = 0#16 := by decide

/-! ### Engines -/

def arr0 (ret : Option (Fin 64)) (rmt : Bool) (warp : Option (Nat × Nat)) : Arrival := ⟨0, .core, 1, 15, 3, some 7, warp, warp.isSome, ret, rmt, 5#20, 0#5⟩
def stArr (a : Arrival) (rmt : Bool) : State :=
  let s := { st with arrivals := [a] }
  s.modCore 1 fun k => { k with wgs := [wg], bars := k.bars.map fun b => { b with rmt := rmt } }
theorem case_SyncEvents :
    (let s := stArr (arr0 none true none) false
     s.arrivals[0]? == some (arr0 none true none) && !rbarOk { s with arrivals := s.arrivals.eraseIdx 0 } (arr0 none true none)) = true
    ∧ (let s := stArr (arr0 none true none) true
       rbarOk { s with arrivals := s.arrivals.eraseIdx 0 } (arr0 none true none)) = true
    ∧ (∀ p ∈ [0, 15], ∀ l ∈ [Scope.core, .pod], (let a := { arr0 (some 63) false (some (0, 4)) with level := l }
       let s := { stArr a true with pkg := p }
       s.arrivals[0]? == some a && relReady s 0 0 4 && !(s.core 0).acqPend 0 4 && !a.rmt && s.pkg == p) = true)
    ∧ (let s := stK { core with syncQ := [⟨0, 4, true, 63, .semInc 1#32⟩] }
       ((s.core 0).syncQ.find? (syncReady s 0)).isSome) = true := by decide +kernel

/-- A record of two rows of 512 bytes from 0x1000 to 0x2000, chunk signals to map 15 from bit 0; the first ends a chain. -/
def recW : BitVec 512 := BitVec.ofNat 512 (0x1000 + 0x2000 * 2 ^ 64 + 512 * 2 ^ 192 + 2 * 2 ^ 224 + 512 * 2 ^ 256 + 512 * 2 ^ 288 + 2 ^ 353 + 15 * 2 ^ 354)
def cur0 (rows chunks : List Nat) (status : Byte) : CpRec := ⟨none, recW, true, [], false, true, rows, chunks, status, false⟩
def postR (t : Option (BitVec 512)) : CpPost := ⟨0, 2, 0x1000#64, t, false⟩
def stCh (f : Chan → Chan) : State := stChan fun c => f { c with queue := [postR (some recW)] }
/-- Core 0's translations. -/
def withTlb (s : State) (p : List Xlat) : State := { s with cores := s.cores.set 0 { s.core 0 with tlb := p } }
theorem case_CopyEvents_read :
    (let s := stCh id
     chanRuns s 0 3 && (s.chan 0 3).cur.isNone && (s.chan 0 3).queue.head? == some (postR (some recW))) = true
    ∧ (let r : CpRec := { cur0 [] [] 0#8 with begun := false }
       let s := stCh fun c => { c with cur := some r }
       chanRuns s 0 3 && (s.chan 0 3).cur == some r && !r.begun) = true
    ∧ (∀ rd ∈ [true, false], (let s := withTlb (stChan fun c => { c with queue := [postR none] }) [{ page 5#20 with rd := rd }]
       let t := s.modChan 0 3 fun c => { c with busy := true, next := 0x1000#64 }
       chanRuns s 0 3 && (s.chan 0 3).cur.isNone && (s.chan 0 3).queue.head? == some (postR none) && !(s.chan 0 3).busy &&
         match engRead t (chanEng t 0 3) (cpRecId (s.chan 0 3)) 0x1000#64 0x1000#64 64 with | .ok _ _ => rd | .fail _ _ => !rd | .wait _ => false) = true) := by
  decide +kernel
/-- Row 1 of a record whose destination lies in a page of its own: what its checks and the row itself come to. -/
def rowCase (f : Xlat → Xlat) (g : State → State) (parts whole : Nat) : Bool :=
  let r := cur0 [0] [] 0#8
  let s := g (withTlb (stCh fun c => { c with cur := some r }) [{ page 5#20 with size := 0x2000 }, f { page 5#20 with va := 0x2000, size := 0x2000, pa := 0x2000 }])
  let e : Eng := { chanEng s 0 3 with id := cpRow (s.chan 0 3) 1, pc := r.at_.getD 0#64 }
  (s.chan 0 3).cur == some r && chanRuns s 0 3 && r.begun && r.status == stOk && decide (1 < recRows r.rec_) && !r.rows.contains 1
    && !engPending (s.core 0) e e.id && (twinOf s e.pasid 0).isNone && match rowParts s e r 1 with
      | .ok u (a, b) => parts == 0 && (match ER.fin ((readPieces u e a).bind fun s bs =>
          rowWrite s e 3 (copyUnit (rowSrc r.rec_ 1) (rowDst r.rec_ 1)) none r b bs) e e.id with | .ok _ _ => whole == 0 | .wait _ => whole == 1 | .fail _ _ => whole == 2)
      | .fail _ _ => parts == 2
      | .wait _ => false
/-- A row that is done, one whose destination may not be written, one into no nib window, and one into the window of a halted core. -/
theorem case_CopyEvents_row : rowCase id id 0 0 = true ∧ rowCase (fun x => { x with w := false }) id 2 0 = true
    ∧ rowCase (fun x => { x with mt := mtNibw }) id 0 2 = true
    ∧ rowCase (fun x => { x with mt := mtWin, pa := winBase + 0x1000000 })
        (·.modCore 1 fun k => { k with halted := true, wgs := [wg] }) 0 1 = true := by decide +kernel
theorem case_CopyEvents_signal :
    (let r := cur0 [0, 1] [0] 0#8
     let s := stCh fun c => { c with cur := some r }
     (s.chan 0 3).cur == some r && !(s.core 0).holds && recCmen r.rec_ && !r.rows.isEmpty && decide (1 < recChunks r.rec_) && !r.chunks.contains 1
       && chunkDone r 1 && !chanHeldBack s 0 3 && signalHeld s (chanEng s 0 3).pasid 0 (·.cmMask.getLsbD (recCmap r.rec_))) = true
    ∧ (let r := cur0 [] [] stDenied
       (stCh fun c => { c with cur := some r }).chan 0 3 |>.cur) = some (cur0 [] [] stDenied) ∧ chunkDue (cur0 [] [] stDenied) = false := by
  decide +kernel
/-- A record that has ended, of a channel that holds back writes of a twin. -/
theorem case_CopyEvents_held : ∀ r ∈ [cur0 [0, 1] [] 0#8, cur0 [] [] stDenied],
    (let s := stCh fun c => { c with cur := some r, tw := ⟨[], [⟨acc0 .store [], none⟩], 0⟩ }
     (s.chan 0 3).cur == some r && r.begun && !(s.chan 0 3).tw.held.isEmpty && (r.status != stOk || r.rows.length == recRows r.rec_)) = true := by decide +kernel
/-- SEM enabled for semaphore 63. -/
def recSemBits : BitVec 512 := BitVec.ofNat 512 (2 ^ 358 + 63 * 2 ^ 359)
/-- RECORD_COMPLETION: of TCOPY's record and of one at 0x1000, with a semaphore and without. -/
theorem case_CopyEvents_completion : ∀ r ∈ [cur0 [0, 1] [0, 1] 0#8, { cur0 [0, 1] [0, 1] 0#8 with at_ := some 0x1000#64 },
      { cur0 [0, 1] [0, 1] 0#8 with rec_ := recW ||| recSemBits }],
    (let s := stCh fun c => { c with cur := some r }
     (s.chan 0 3).cur == some r && !(s.core 0).holds && r.begun && !chunkDue r && r.status == stOk && recFull r && !r.drop && !r.far
       && recNext r.rec_ == 0#64 && !chanHeldBack s 0 3
       && recSemen r.rec_ == (r.rec_ != recW) && signalHeld s (chanEng s 0 3).pasid 0 (·.semMask.getLsbD (recSem r.rec_))
       && (let e : Eng := { chanEng s 0 3 with id := cpStId (s.chan 0 3), pc := 0x1000#64 }
           !engPending (s.core 0) e e.id && match engParts s e e.id 0x1000#64 needW (pieceCheck · e needW ·) (lineParts (0x1000#64 + 44#64) 4) with
             | .ok u a => (twinOf u e.pasid 0).isNone && match ER.fin (writePieces u e 4 a ((leBytes 4 (recStatus r.rec_ stOk)).map fun b => (b, false))) e e.id with
               | .ok _ _ => true
               | _ => false
             | _ => false)) = true := by decide +kernel
def msg0 (k : AccKind) (pa : Nat) : InMsg := ⟨0, acc0 k [⟨0, BitVec.ofNat 64 pa, 4, 5, 0, .none, []⟩], [pa]⟩
theorem case_CopyEvents_window :
    ((stK { core with inW := [msg0 .store winBase] }).core 0).inW = [msg0 .store winBase]
    ∧ ((stK { core with inW := [msg0 .store winBase], halted := true }).core 0).holds = true ∧ ((stK { core with inW := [] }).core 0).holds = false := by
  decide +kernel
def entM (k : MxKind) (run : Bool) : MxEntry := { (default : MxEntry) with wg := 7, kind := k, run := run, count := 1, bar := some (true, 7) }
theorem case_MatrixEvents :
    (∀ p ∈ [(MxKind.mma, false), (.accz, true)], (let s := stK { core with fifo := [entM p.1 false] }
       !(s.core 0).halted && !(s.core 0).haltReq && !(s.core 0).fifo.any (fun e => e.run && e.array != p.2)
         && (bestEntry ((firstEntries (s.core 0).fifo []).filter fun e =>
           !e.run && e.array != p.2 && !(((s.core 0).wg? e.wg).map (·.stopping)).getD false)).isSome) = true)
    ∧ (∀ e ∈ [entM .accz true, { entM .accz true with bar := none }], (let s := stK { core with fifo := [e] }
       (s.core 0).fifo.find? (fun e => e.run && e.array != true) == some e && ((s.core 0).wg? e.wg).isSome && e.left == 0) = true)
    ∧ (st.core 383).govBlocked = false := by decide +kernel

/-! ### Nib engine -/

/-- A descriptor of an 1 × 4 FP8 matrix at 0x3000, result in binary32, windows at 0x10000 and 0x20000, four slots, keep lifetime. -/
def desc0 : BitVec 512 := BitVec.ofNat 512 (0x3000 + 0x10000 * 2 ^ 64 + 0x20000 * 2 ^ 128 + 4 * 2 ^ 192 + 3 * 2 ^ 234 + 3 * 2 ^ 244 + 2 ^ 253
  + 10 * 2 ^ 264 + 5 * 2 ^ 276 + 5 * 2 ^ 292)
def nibPage (va : Nat) : Xlat := { page 5#20 with va := va, pa := va, mt := mtNibw }
def stBind (d : BitVec 512) : State :=
  let k := coreN fun n => { n with st := .loading, descAt := 0x1000#64, pasid := 5#20 }
  { stK { k with tlb := [page 5#20, nibPage 0x10000, nibPage 0x20000] } with hbm := wrBytes [] 0x1000 (leBytes 64 d.toNat) }
def engN (part : Nat) : Eng := ⟨0, .nib 2, 5#20, false, nbId nibB part, 0x1000#64, none⟩
def bindRead (s : State) : ER (List (Byte × Bool)) := nibRead s { engN 0 with id := 0 } (nbId nibB 0) 0x1000#64 0x1000#64 64
theorem case_NibEvents_bind :
    (((stBind desc0).core 0).nib 2 == { nibB with st := .loading, descAt := 0x1000#64, pasid := 5#20 } && !nibB.read) = true
    ∧ (match bindRead (stBind 1#512), bindRead (stBind desc0) with
      | .ok _ a, .ok _ b => badDesc { nibB with desc := BitVec.ofNat 512 (leNat (a.map (·.1))) }
          && !badDesc { nibB with desc := BitVec.ofNat 512 (leNat (b.map (·.1))) }
      | _, _ => false) = true
    ∧ (match bindRead (let s := stBind desc0
        s.setCore 0 { s.core 0 with tlb := [{ page 5#20 with rd := false }] }) with | .fail _ _ => true | _ => false) = true
    ∧ (((stBind desc0).modCore 0 (·.modNib 2 fun n => { n with read := true })).core 0 |>.nib 2).read = true := by decide +kernel
/-- The bind after step 1, of a state that `f` changes; what step 3 finds in it. -/
def stRead (d : BitVec 512) (f : State → State) : State := (nbindRead (f (stBind d)) 0 2).1
def allotCase (s : State) (good : Bool) (gran : Bool) (full : Bool) : Bool :=
  let n := (s.core 0).nib 2
  n.read && n.win.isNone && match bindWindows s (engN 1) n with
  | .ok u (some (a, q)) =>
    let mine := [(a.to (nibSva n).toNat, strokeBytes n), (q.to (nibTva n).toNat, traceBytes n)]
    a.home.isNone && q.home.isNone
      && ((nibSva n).toNat % 64 == 0 && (nibTva n).toNat % 64 == 0 && winOk a (nibSva n) (strokeBytes n) && winOk q (nibTva n) (traceBytes n) && apart mine
        && !mine.any (fun x => (allWindows u).any (meets x))) == good
      && (!good || ((freeGrans (u.core 0) n.grans).isSome == gran
        && (!gran || (mine.any fun x => decide (2048 < tableUsed u (homeDie x.1) + (mine.filter fun y => homeDie y.1 == homeDie x.1).length)) == full)))
  | _ => false
theorem case_NibEvents_allot :
    (allotCase (stRead desc0 id) true true false
    && allotCase (stRead desc0 fun s => s.modCore 0 fun k => { k with tlb := [page 5#20, nibPage 0x10000, { nibPage 0x20000 with mt := mtTrk }] }) false true false
    && allotCase (stRead desc0 fun s => s.modCore 0 (·.modNib 3 fun n => { n with granN := 128 })) true false false
    && allotCase (stRead desc0 fun s => s.modDie 0 fun k => { k with windows := List.replicate 2047 (0x7000000, 64, false, 0, 3) }) true true true
    && match bindWindows (stRead (desc0 ||| BitVec.ofNat 512 (2 ^ 126)) id) (engN 1) (((stRead (desc0 ||| BitVec.ofNat 512 (2 ^ 126)) id).core 0).nib 2) with
      | .ok _ none => true
      | _ => false) = true := by decide +kernel
/-- The bind as a whole: its row is read, and it is done. -/
theorem case_NibEvents_bound :
    (let u := nbindRead (stBind desc0) 0 2
     let v := nbindAllot u.1 0 2
     let n := (v.1.core 0).nib 2
     let w := nbindRows 0 2 (List.range n.rows) v.1
     u.2 && v.2 && w.2 && (((w.1.core 0).nib 2).win).isSome && n.rows == 1 && n.got.isEmpty
       && match nibRead v.1 { engN 0 with id := 0 } (nbId nibB 2) n.descAt (n.desc.extractLsb' 0 64 + 0#64) n.rowBytes with
         | .ok _ _ => true
         | _ => false) = true := by decide +kernel
/-- A message at the nib engine of core 0 for nib 2, whose windows are at 0x10000 and 0x20000. -/
def stIn (k : AccKind) (pa : Nat) (f : Nib → Nib) : State :=
  let s := stK { coreN (fun n => f { n with desc := desc0 }) with nibIn := [msg0 k pa] }
  { s with dies := s.dies.set 0 { s.die 0 with windows := [(0x10000, 256, false, 0, 2), (0x20000, 256, true, 0, 2)] } }
theorem case_NibEvents_messages :
    (∀ k ∈ [AccKind.store, .load], ((stIn k 0x10040 id).core 0).nibIn = [msg0 k 0x10040])
    ∧ nibWindow (stIn .store 0x10040 id) 0x10040 1 = some (0x10000, 256, false, 0, 2)
    ∧ nibWindow (stIn .store 0x20040 id) 0x20040 1 = some (0x20000, 256, true, 0, 2)
    ∧ (∀ x ∈ [SlotSt.done, .ready], (let s := stIn .load 0x20040 fun n => { n with slots := n.slots.set 1 (slotOf x 0#16) }
       let t := popNib s 0
       let n := (t.core 0).nib 2
       inSet n.readers (coreSource t 0) && (n.slot ((0x20040 - 0x20000) / Nat.max 1 n.tsz)).st == x && nibBits n.desc 292 16 != 0) = true) := by
  decide +kernel
theorem case_NibEvents_passes :
    ((((stN fun n => { n with loads := [⟨1, acc0 .load [], [], 3⟩] }).core 0).nib 2).loads[0]?).isSome = true
    ∧ (let s := stN fun n => { n with desc := desc0, slots := n.slots.set 1 (slotOf .filling 0#16) }
       (((s.core 0).nib 2).slot 1).st == .filling && nibBits ((s.core 0).nib 2).desc 276 16 != 0) = true
    ∧ (let s := stN fun n => { n with slots := n.slots.set 1 (slotOf .ready 0#16) }
       !(s.core 0).nibs.toList.any Nib.busy && !arrayWanted (s.core 0) && bestNib (s.core 0) == some 0) = true
    ∧ (let s := stN fun n => { n with slots := n.slots.set 1 (slotOf .applying 0#16) }
       (s.core 0).nibLeft == 0 && nextApplying (s.core 0) == some (0, 1) && !(((s.core 0).nib 0).slot 1).drop && !((s.core 0).nib 0).unbind) = true
    ∧ (let s := stK { core with nibs := Vector.replicate 4 (Nib.fresh none) }
       ((s.core 0).nib 3).st == .unbound && ((s.core 0).nib 3).wg.isNone && !s.fuses.off.contains 0 && canonical 0xFFFFFFFFFFFFFFC0#64) = true := by decide +kernel
/-- R341: (1, 2, 3, -1) · (5, 6, 7, 2) of signed bytes is 36. -/
theorem test_nib : nibElem { core with nibStore := [(0, 1#8), (1, 2#8), (2, 3#8), (3, 0xFF#8)] }
    { nibB with desc := BitVec.ofNat 512 (3 * 2 ^ 234 + 2 * 2 ^ 264) } { Slot.fresh with bytes := [(0, 5#8), (1, 6#8), (2, 7#8), (3, 2#8)] } 0
      = (36, 0#5, false) := by decide +kernel

/-! ### Graphs -/

/-- A state with an H2D message of a type at its head. -/
def msg (ty body : Nat) : BitVec 512 := BitVec.ofNat 512 (1 + ty * 2 ^ 32 + body + 2 ^ 480)
def stMsg (s : State) (ty body : Nat) : State := { s with
  boot := .running, hostMem := wrBytes s.hostMem 0x8040 (leBytes 64 (msg ty body).toNat)
  port := { s.port with h2dSet := true, h2dSize := 4#64, h2dBase := 0x8000#64, h2dBell := 1#32, h2dRx := 0#32, hpcap := 0x8000#64 } }
/-- The walker of die 0 reads host memory at 0 for address space 5. -/
def stHx (s : State) : State := { s with dies := s.dies.set 0 { s.die 0 with hx := [{ page 5#20 with mt := mtHst }] } }
/-- A TCB of a task of one gang of one workgroup of one warp on die 0, its kernel descriptor at 0x3000; of a condition node. -/
def tcb0 : Nat := 0x3000 + 0xFFFFFFFFFFFFFFFFFFFFFFFFFFFFFFFF * 2 ^ 256 + 2 ^ 384 + 5 * 2 ^ 560 + 2 ^ 580 + 2 ^ 584 + 2 ^ 587 + 4 * 2 ^ 597
def tcbC (k : Nat) : Nat := 0x2000 * 2 ^ 128 + 0xFFFFFFFFFFFFFFFFFFFFFFFFFFFFFFFF * 2 ^ 256 + 5 * 2 ^ 560 + 2 ^ 580 + k * 2 ^ 594 + 4 * 2 ^ 597
def submit0 : Nat := 5 * 2 ^ 52 + 2 ^ 80 + 0x1000 * 2 ^ 96 + 0xFFFFFFFF * 2 ^ 160
def stSub (t : Nat) : State := stHx { stMsg st 1 submit0 with hostMem := wrBytes (stMsg st 1 submit0).hostMem 0x1000 (leBytes 128 t) }
theorem case_Submit :
    (h2dMsg (stMsg st 1 (2 ^ 80 + 2 ^ 300)) 1).any (fun m => !bodyOk m.2 submitFields) = true
    ∧ (h2dMsg (stSub tcb0) 1).any (fun m => bodyOk m.2 submitFields && Machine.fld m.2 80 16 == 1 && (m.2.extractLsb' 96 64).toNat % 128 == 0
      && Machine.fld m.2 48 2 == 0 && d2hRoom (stSub tcb0) 1) = true
    ∧ (match readNodes (stSub tcb0) 0 5#20 0x1000#64 1 1 0 with | .ok _ (.ok l) => l.length | _ => 0) = 1
    ∧ (match readNodes (stSub 0) 0 5#20 0x1000#64 1 1 0 with | .ok _ (.error e) => some e | _ => none) = some (0, 6) := by decide +kernel
def nodeT (t st : Nat) : Node := { (default : Node) with tcb := BitVec.ofNat 1024 t, status := st }
/-- Die 0 with a graph 0 of one node. -/
def stGr (x : Node) (f : Die → Die := id) (s : State := st) : State :=
  { s with dies := s.dies.set 0 (f { s.die 0 with graphs := [{ graph0 with nodes := [x] }] }) }
theorem case_Decrement : ∀ x ∈ [{ nodeT tcb0 1 with pred := 1 }, { nodeT tcb0 0 with pred := 0 }, { nodeT tcb0 0 with pred := 2 },
      { nodeT tcb0 0 with pred := 1 }, { nodeT tcb0 0 with pred := 1, runMk := true }, { nodeT tcb0 0 with release := true }],
    (let s := stGr x fun k => { k with decs := [(0, 0, false)] }
     (s.die 0).decs == [(0, 0, false)] && (s.modDie 0 fun k => { k with decs := [] }).node? 0 0 0 == some x) = true := by decide +kernel
theorem case_Conditions : ∀ k ∈ [1, 2], (let s := stHx (stGr (nodeT (tcbC k) 1))
    s.node? (graphDie 0) 0 0 == some (nodeT (tcbC k) 1) && ((s.die 0).graph? 0).any (fun g => g.fail.isNone)
      && tcbKind (BitVec.ofNat 1024 (tcbC k)) == k && (match cpuRead s 0 5#20 0x2000#64 8 with | .ok _ _ => true | _ => false)
      && match cpuRead (stMiss 0#64) 0 5#20 0x2000#64 8 with
        | .fail _ _ => true | _ => false) = true := by decide +kernel
theorem case_Retirement :
    (∀ x ∈ [{ nodeT tcb0 2 with next := 1 }, { nodeT tcb0 2 with doom := some 9 }], (let s := stGr x
      s.node? (graphDie 0) 0 0 == some x && tcbKind x.tcb == 0 && x.placed == 0 && decide (tcbNgang x.tcb ≤ 1) && x.back.isEmpty) = true)
    ∧ (let s := stK { core with halted := true }
       (s.core 0).halted && ((s.core 0).wg? 7).isSome) = true
    ∧ (let s := stG fun g => { g with ending := true }
       !(s.core 0).halted && ((s.core 0).wg? 7).any (·.ending)) = true
    ∧ (let s := stK { core with warps := Core.fresh.warps, wgs := [{ wg with tw := { wg.tw with held := [⟨acc0 .store [], none⟩] } }] }
       !(s.core 0).halted && ((s.core 0).wg? 7).any fun g => !g.ending && sliceDue s 0 g) = true
    ∧ (let s := stK { core with warps := Core.fresh.warps, chans := Vector.replicate 4 Chan.fresh }
       !(s.core 0).halted && ((s.core 0).wg? 7).any fun g => !g.ending && !sliceDue s 0 g && wgDone s 0 g) = true
    ∧ (let s := stG fun g => { g with stopping := true }
       !(s.core 0).halted && ((s.core 0).wg? 7).any fun g => !g.ending && !sliceDue s 0 g && !wgDone s 0 g && g.stopping) = true := by decide +kernel
/-- With another workgroup of its gang on core 1, and alone, once the workgroup is free. -/
theorem case_Retirement_gang : ∀ ws ∈ [[], [{ wg with id := 9 }]],
    (let s := (stK { core with warps := Core.fresh.warps, chans := Vector.replicate 4 Chan.fresh }).modCore 1 fun k => { k with wgs := ws }
     let t := freeWg (releaseNibs s 0 wg.nibMask) 0 7
     (gangCores t wg.die wg.graph wg.node wg.gang).isEmpty == ws.isEmpty) = true := by decide +kernel

/-- A waiting task that needs no resources of its core, so that where it is placed leaves no choice; an ALLRES one; one of class P. -/
def tcbW : Nat := 2 ^ 384 + 5 * 2 ^ 560 + 2 ^ 580 + 2 ^ 584
def nodeW (t : Nat) : Node := { nodeT t 1 with kd := some (BitVec.ofNat 512 (2 ^ 224)), args := some [] }
def place0 : Place := { (default : Place) with die := 0, quad := 5, c0 := 3 }
def waits0 (s : State) : Option (Nat × Nat × Node) := (waiting (checkKd s 0 0 0) 0).find? fun y => y.1 == 0 && y.2.1 == 0
theorem case_Placement :
    (let x := nodeW tcbW
     let s := stGr x
     waits0 s == some (0, 0, x) && (match prepare (checkKd s 0 0 0) 0 0 0 x with
       | .ok u y => y.nextGang == some (0, false) && !outranked u 0 y && !tcbAllres y.tcb
         && (y.kd).any fun k => (placeGang u y k 0 0 0 0 place0 (y.args.getD []) (y.next == 0) true).isSome
           && (placeGang u y k 0 0 0 0 { place0 with die := 3 } (y.args.getD []) (y.next == 0) true).isNone
       | _ => false)) = true
    ∧ (let x := nodeW (tcbW + 2 ^ 680)
       waits0 (stGr x) == some (0, 0, x) && match prepare (checkKd (stGr x) 0 0 0) 0 0 0 x with | .fail _ _ => true | _ => false) = true
    ∧ (let x : Node := { nodeW tcbW with back := [0], next := 1 }
       let s := { stGr x id (stK { core with wgs := [], warps := Core.fresh.warps }) with
         images := [{ image0 with wg := { image0.wg with wgs := 1 } }] }
       waits0 s == some (0, 0, x) && match prepare (checkKd s 0 0 0) 0 0 0 x with
         | .ok u y => y.nextGang == some (0, true) && (resumeGang u y 0 0 0 0 place0).isSome && (resumeGang u y 0 0 0 0 { place0 with die := 3 }).isNone && !outranked u 0 y
         | _ => false) = true := by decide +kernel
/-- A grid of one gang, and what becomes of it at a place. -/
def grid (tcb : Nat) (p : Place) (g : Die → Die) (f : State → Node → Option State → Bool) : Bool :=
  let x := nodeW (tcb + 2 ^ 596)
  let s := stGr x g
  waits0 s == some (0, 0, x) && match prepare (checkKd s 0 0 0) 0 0 0 x with
    | .ok u y => tcbAllres y.tcb && y.next == 0 && tcbNgang y.tcb == 1 && (y.kd).any fun k =>
        f u y (placeAll u (fun s i => ([p][i]?).bind fun p =>
          (placeGang s y k 0 0 0 i p (y.args.getD []) (i == 0) true).map fun s => placed s 0 0 0 i false) (List.range 1))
    | _ => false
theorem case_Placement_rank :
    (let x := nodeW (tcbW + 2 ^ 592)
     let z : Node := nodeW tcbW
     let s := { st with dies := st.dies.set 0 { st.die 0 with graphs := [{ graph0 with nodes := [x, z] }] } }
     waits0 s == some (0, 0, x) && match prepare (checkKd s 0 0 0) 0 0 0 x with
       | .ok u y => outranked u 0 y
       | _ => false) = true
    ∧ (grid tcbW place0 id fun u y all => all.isSome && !outranked u 0 y) = true
    ∧ (grid tcbW { place0 with die := 3 } id fun u y all => all.isNone && fitsNow u 0 (0, 0, y) && !outranked u 0 y) = true
    ∧ (grid (tcbW + 2 ^ 608) place0 (fun k => { k with bars := k.bars.map fun b => { b with owner := some (0, 1, 1) } }) fun u y all => all.isNone && !fitsNow u 0 (0, 0, y) && !outranked u 0 y) = true
    ∧ (let x := nodeW tcbW
       ((waiting (stGr x) 0).find? fun y => y.1 == 0 && y.2.1 == 0) == some (0, 0, x) && x.waited.isNone && !tcbAllres x.tcb
         && (tcbDies x.tcb).getLsbD 0) = true := by decide +kernel
def stPre (gs : List Wg) : State := let s := stGr (nodeT tcb0 2) id (stMsg st 2 0)
  s.modCore 0 fun k => { k with wgs := gs }
theorem case_Preempt : ∀ gs ∈ [[], [wg]],
    ((h2dMsg (stPre gs) 2).any fun m => bodyOk m.2 [(48, 32), (80, 16), (96, 1), (128, 32)] && (Machine.fld m.2 96 1 == 0 || Machine.fld m.2 128 32 == 0)) = true
    ∧ (((stPre gs).cores.toList.flatMap fun k => k.wgs.filter fun g =>
        ((stPre gs).die g.die).graphs.any (fun x => x.id == g.graph && x.tag == 0#32) && g.die < 4 && g.node == 0 && g.gang == 0).isEmpty
      = gs.isEmpty) := by decide +kernel

/-! ### Services -/

/-- Warp 0 waits for an SVC of `n` registers from s8, whose record holds `ws`. -/
def rec8 (n : Nat) (ws : List Dword) : MailRec := ⟨3, 0, 7, 5#20, n, 0x100C#64, ws, false, none⟩
def stMail (n : Nat) (r : MailRec) : State := stK { core with
  warps := core.warps.set 0 (some { warp with wait := .svc 8 n 3 }), mail := [r] }
theorem case_Mailbox :
    (∀ p ∈ [(3, [9#64]), (3, [1#64, 64#64, 0#64]), (2, [2#64, 0x100#64]), (2, [3#64, 5#64]), (8, 3#64 :: List.replicate 7 5#64), (1, [4#64])],
      let s := stMail p.1 (rec8 p.1 p.2)
      oldestRec s 0 = some (rec8 p.1 p.2) ∧ d2hRoom s 2 = true ∧ (s.die 0).ring.length < 256 ∧ [rec8 p.1 p.2].all (recReady s 0) = true)
    ∧ ((stMail 1 (rec8 1 [4#64])).core 0).wg? 7 = some wg
    ∧ (let r := { rec8 3 [] with taken := true, reply := some [3#64] }
       ((stMail 3 r).core 0).mail.find? (·.reply.isSome) = some r ∧ (recWarp (stMail 3 r) 0 r).any (·.wait == .svc 8 3 3) = true
       ∧ (let s := (stMail 3 r).modWarp 0 0 fun w => { w with wait := .none }
          (s.core 0).mail.find? (·.reply.isSome) = some r ∧ recWarp s 0 r = none)) := by decide +kernel
/-- R378, R379: an ALLOC whose workgroup has a second one, from a warp that has a synchronization write on its way. -/
def stMail2 : State := let a := rec8 3 [1#64, 64#64, 0#64]
  stK { core with
    warps := (core.warps.set 0 (some { warp with wait := .svc 8 3 3 })).set 1
      (some { warp with wait := .svc 8 3 4, posted := [⟨4, some 9#16, none, 0⟩] })
    mail := [a, { a with idx := 4, slot := 1 }] }
theorem case_Mailbox_waits : let a := rec8 3 [1#64, 64#64, 0#64]
    oldestRec stMail2 0 = some a ∧ ((a :: [{ a with idx := 4, slot := 1 }]).all (recReady stMail2 0)) = false := by decide +kernel
/-- A message of one record at the head of die 0's ring, with an arena of 1 GiB whose first 512 bytes are live. -/
def arena0 (fr : List (Nat × Nat)) : Arena := ⟨5#20, 0x40000000, false, fr, [(0, 9)]⟩
def stRing (ws : List Dword) (fr : List (Nat × Nat)) : State :=
  let s := stMail ws.length (rec8 ws.length ws)
  { s with dies := s.dies.set 0 { s.die 0 with ring := [⟨0, [3]⟩], arenas := [arena0 fr] } }
theorem case_Allocator :
    (∀ ws ∈ [[1#64, 0#64, 0#64], [1#64, 0x40000001#64, 0#64], [1#64, 64#64, 2#64], [1#64, 0x40000000#64, 1#64], [2#64, 0x40000000#64]],
      ringHead (stRing ws []) 0 = some (0, rec8 ws.length ws) ∧ assisted (stRing ws []) 2 = false)
    ∧ ((buddyAlloc [arena0 [(512, 9)]] 5#20 false (blockLog 257)).map (·.1), (buddyAlloc [arena0 []] 5#20 false 8).isNone,
       (buddyFree [arena0 []] 5#20 0x40000000).isSome, (buddyFree [arena0 []] 5#20 0x40000100).isNone)
      = (some 0x40000200, true, true, true) := by decide +kernel
/-- R381: sizes of 1, 256, 257 and 1 GiB take blocks of 256 B, 256 B, 512 B and 1 GiB; a split gives back the upper halves. -/
theorem test_buddy_blocks : [1, 256, 257, 2 ^ 30].map blockLog = [8, 8, 9, 30] ∧ splitTo 0 8 10 = [(512, 9), (256, 8)] ∧ buddy 512 9 = 0
    ∧ joinFree 30 0 9 [(512, 9)] = [(0, 10)] := by decide +kernel
def arenaBody (rm : Nat) : Nat := rm * 2 ^ 48 + 5 * 2 ^ 52 + 0x40000000 * 2 ^ 128
theorem case_ArenaMessages : ∀ p ∈ [(0, false), (0, true), (1, false), (1, true)],
    (let s := let t := stMsg st 3 (arenaBody p.1)
       if p.2 then { t with dies := t.dies.set 0 { t.die 0 with arenas := [arena0 []] } } else t
     (h2dMsg s 3).any fun m => bodyOk m.2 arenaFields && Machine.fld m.2 128 64 % 2 ^ 30 == 0 && canonical (m.2.extractLsb' 128 64)
       && m.2.getLsbD 48 == (p.1 == 1) && s.arenas.any (fun a => a.pasid == m.2.extractLsb' 52 20 && a.base == 0x40000000) == p.2) = true := by
  decide +kernel

/-! ### Host port -/

theorem case_Messages :
    (∀ p ∈ [(3 * 2 ^ 48, true), (2 ^ 52, false)], (h2dMsg (stMsg st 4 p.1) 4).any (fun m =>
      bodyOk m.2 [(48, 1), (49, 1), (50, 1), (51, 1)] == p.2) = true)
    ∧ (∀ p ∈ [(0, false), (0, true), (1, false), (1, true)],
        (let s := { stMsg st 5 (p.1 * 2 ^ 48 + 5 * 2 ^ 52) with twins := if p.2 then [⟨5#20, false, 1, 1#96, []⟩] else [] }
         (h2dMsg s 5).any fun m => bodyOk m.2 twinFields && m.2.getLsbD 48 == (p.1 == 1)
           && s.twins.any (·.pasid == m.2.extractLsb' 52 20) == p.2) = true)
    ∧ (h2dNext (stMsg st 9 0)).any (fun m => 7 < Machine.fld m.2 32 16) = true := by decide +kernel
theorem case_Messages_mode : ∀ p ∈ [(0, false), (2 ^ 51 + 4 * 2 ^ 52 + 0x9000 * 2 ^ 64, false), (2 ^ 51 + 4 * 2 ^ 52 + 0x9000 * 2 ^ 64, true)],
    (let s := let t := stMsg st 6 p.1
       { t with modes := t.modes.set 0 ⟨p.2, none⟩ }
     (h2dMsg s 6).any fun m => bodyOk m.2 [(48, 3), (51, 1), (52, 4), (64, 64)] && modeOk m.2 && anyAssisted s == p.2
       && s.assist.abase != 0x9000#64) = true
    ∧ (let s := let t := stMsg st 6 (2 ^ 51 + 4 * 2 ^ 52 + 0x9000 * 2 ^ 64)
         { t with modes := t.modes.set 0 ⟨true, none⟩, assist := { t.assist with abase := 0x9000#64, asize := 4 } }
       (h2dMsg s 6).any fun m => modeOk m.2 && anyAssisted s && s.assist.abase == m.2.extractLsb' 64 64 && s.assist.asize == Machine.fld m.2 52 4) = true := by
  decide +kernel
theorem case_Messages_mode_bad : ∀ b ∈ [5 * 2 ^ 48, 2 ^ 52 + 2 ^ 200],
    (h2dMsg (stMsg st 6 b) 6).any (fun m => !bodyOk m.2 [(48, 3), (51, 1), (52, 4), (64, 64)] || !modeOk m.2) = true := by decide +kernel
theorem case_Messages_podbar : ∀ k ∈ [0, 15], ∀ p ∈ [(2 * 2 ^ 80, none, 0), (2 * 2 ^ 80, some 5#20, 0), (1, none, 0), (1, none, 1)],
    (let s := let t := stGr (nodeT (tcb0 + 2 ^ 680) p.2.2) id (stMsg st 7 (p.1 % 2 * 2 ^ 48 + p.1 / 2 * 2 + 5 * 2 ^ 56))
       { t with pkg := k, podBars := t.podBars.setIfInBounds 0 ⟨{ Bar.fresh with expect := 1 }, none, p.2.1⟩ }
     (h2dMsg s 7).any fun m => bodyOk m.2 podFields && m.2.getLsbD 48 == (p.1 == 1) && (Machine.fld m.2 80 16 == 0) == (p.1 == 1)
       && ((s.podBars[0]?).bind (·.pasid)) == p.2.1 && s.pkg == k && Machine.fld m.2 49 6 == 0
       && s.dies.toList.any (fun (k : Die) => k.graphs.any fun g => g.nodes.any fun x =>
          (x.status == 1 || x.status == 2) && tcbPasid x.tcb == m.2.extractLsb' 56 20 && (tcbPod x.tcb).getLsbD 0) == (p.2.2 != 0)
       && !s.rports.toList.any (·.st == .up)) = true := by decide +kernel
theorem case_ModeChange : ∀ l ∈ [[], [RingMsg.mk 0 [3]]],
    (let s := { stD (fun k => { k with ring := l }) with modes := st.modes.set 2 ⟨false, some true⟩ }
     s.modes[2].want == some true && funcPending s 2 == !l.isEmpty) = true := by decide +kernel
theorem case_PortRegisters : st.boot = .running ∧ { st with boot := .recovery }.boot ≠ .running ∧ 0x008#12 ∉ [0#12, 0x040#12, 0x048#12, 0x050#12, 0x060#12, 0x068#12, 0x078#12, 0x0A0#12, 0x0B8#12] := by decide
theorem case_RingWrites :
    (let s : State := { st with port := { st.port with
       d2hSet := true, d2hSize := 8#64, d2hBase := 0x4000#64, hpcap := 0x8000#64, d2hAck := 0xFFFFFF00#32, d2hTx := 0xFFFFFFFF#32, kept := [(0#32, 7#512)] } }
     let q := s.port.d2hTx + 1
     linkUp s && decide ((q - s.port.d2hAck).toNat ≤ 2 ^ 8) && (s.port.kept.find? (·.1 == q)).map (·.2) == some 7#512) = true
    ∧ (let s : State := { st with port := { st.port with hpcap := 0x8000#64 }, assist := { st.assist with
         asize := 4, abase := 0x4000#64, d2aAck := 0#32, d2aTx := 15#32, kept := [(16#32, 7#512)] } }
       let t := raiseWaiting s
       let q := t.assist.d2aTx + 1
       linkUp t && decide ((q - t.assist.d2aAck).toNat ≤ 2 ^ 4) && (t.assist.kept.find? (·.1 == q)).map (·.2) == some 7#512) = true := by decide +kernel
theorem case_HostLink : linkUp (stMsg st 4 0) = true ∧ linkUp { st with port := { st.port with hpcap := 0#64 } } = false ∧ (2 : Fin 4) ≠ 3 := by decide +kernel

/-! ### Assist answers -/

/-- A state with an A2D record at its head and a request pending. -/
def stAns (ty body : Nat) (l : List AssistReq) (s : State := st) : State := { s with
  boot := .running, hostMem := wrBytes s.hostMem (0x8000 + 64 * 17) (leBytes 64 (msg ty body).toNat)
  port := { s.port with hpcap := 0x8000#64 }
  assist := { s.assist with abase := 0x8000#64, asize := 4, a2dBell := 1#32, a2dRx := 0#32, pend := l } }
def ansIs (s : State) (ty : Nat) (P : BitVec 512 → Bool) : Bool := (a2dNext s).any fun m => Machine.fld m.2 32 16 == ty && P m.2
theorem case_AssistAnswers_unknown : ∀ ty ∈ [0xA0, 0xA6], ansIs (stAns ty 0 []) ty (fun _ => ty < 0xA1 || 0xA5 < ty) = true := by decide +kernel
theorem case_AssistAnswers_fault : ∀ l ∈ [[], [AssistReq.fault 0 0]],
    (let s := stAns 0xA1 (6 * 2 ^ 48) l (stOwn .assist)
     ansIs s 0xA1 fun e => bodyOk e [(48, 4), (80, 32)] && Machine.fld e 48 4 ≤ 6 && (s.assist.pend.findSome? fun r => match r with
       | .fault d i => ((s.die d).rec? i).bind fun x => if (x.tid s d).toNat = Machine.fld e 80 32 ∧ x.phase = .assist then some (r, d, x) else none
       | _ => none).isSome == !l.isEmpty) = true := by decide +kernel
theorem case_AssistAnswers_ready : ∀ l ∈ [[], [AssistReq.ready 0 0 0]],
    (let s := stAns 0xA2 0 l (stGr { nodeT tcb0 0 with release := true })
     ansIs s 0xA2 fun e => bodyOk e [(48, 32), (80, 2), (96, 16)] && (s.assist.pend.find? fun r => match r with
       | .ready d id n => d == Machine.fld e 80 2 && n == Machine.fld e 96 16 && graphTag s d id == Machine.fld e 48 32
       | _ => false) == l.head?) = true := by decide +kernel
theorem case_AssistAnswers_alloc : ∀ l ∈ [[], [AssistReq.alloc 7#32 0 3]],
    (let s := stAns 0xA3 (3 * 2 ^ 48 + 7 * 2 ^ 144) l
     ansIs s 0xA3 fun e => bodyOk e [(48, 4), (80, 64), (144, 32)] && Machine.fld e 48 4 ≤ 3 && (s.assist.pend.find? fun r => match r with
       | .alloc q _ _ => q.toNat == Machine.fld e 144 32
       | _ => false) == l.head?) = true := by decide +kernel
theorem case_AssistAnswers_contain : ∀ p ∈ [(0, []), (0, [AssistReq.contain 4097 0 0 0]), (2 ^ 60, [AssistReq.contain 4097 0 0 0])],
    (let s := stAns 0xA5 (2 ^ 48 + p.1) p.2
     ansIs s 0xA5 fun e => bodyOk e [(48, 12), (60, 1)] && e.getLsbD 60 == (p.1 != 0) && (s.assist.pend.find? fun r => match r with
       | .contain i _ _ _ => i % 4096 == Machine.fld e 48 12
       | _ => false) == p.2.head?) = true := by decide +kernel
theorem case_AssistAnswers_view : ∀ p ∈ [(0, []), (0, [AssistReq.view 14]), (2 ^ 52, [AssistReq.view 14])],
    (let s := stAns 0xA4 (14 * 2 ^ 48 + p.1 + 3 * 2 ^ 64 + 2 * 2 ^ 72) p.2
     ansIs s 0xA4 fun e => bodyOk e [(48, 4), (52, 1), (64, 8), (72, 2)] && Machine.fld e 48 4 < 15 && Machine.fld e 72 2 != 3
       && e.getLsbD 52 == (p.1 != 0) && viewPending s 14 == !p.2.isEmpty) = true := by decide +kernel

/-! ### Links -/

def stPort (f : RPort → RPort) : State := st.modPort 14 f
def up (peer : Fin 16) (r : RPort) : RPort := { r with st := .up, peer := some peer }
/-- A data flit of device 1 for a device, ESEQ 1, as its link sends it with LSEQ 1. -/
def flit0 (dpkg kind : Nat) : BitVec 2048 := flitSeal (flitOf 0x1000#16 dpkg 0 false 1#32 kind 1 0) 1#12 0#12
set_option maxRecDepth 20000 in
theorem case_Flits_taken : ∀ p ∈ [(0, 0), (0, 1), (2, 0), (3, 0)],
    (let s := (stPort (up 1)).modPort 0 (up 2)
     let f := flit0 p.1 p.2
     (s.rport 14).st == .up && flitOk f && f.extractLsb' 60 12 == (s.rport 14).rxLseq + 1 && (Machine.fld f 40 8 == 0) == (p.2 == 0)
       && Machine.fld f 108 4 == p.1 && (p.1 == 0 || (directPort s p.1 (Machine.fld f 112 16)).isSome == (p.1 == 2))) = true := by decide +kernel
set_option maxRecDepth 20000 in
theorem case_Flits_dropped : flitOk 0 = true ∧ flitOk 1 = false ∧ (0 : BitVec 2048).extractLsb' 60 12 ≠ (1 : BitVec 12)
    ∧ (st.rport 14).st ≠ .up := by decide +kernel
theorem case_Flits_nak : ∀ n ∈ [0, 14, 15],
    (let s := stPort fun r => { up 1 r with retry := [(5#12, 0)], nakOf := 5#12, nakN := n }
     (s.rport 14).st == .up && (s.rport 14).retry.any (·.1 == 5#12) && (s.rport 14).nakN + 1 == n + 1) = true := by decide +kernel
def str0 (send : Bool) : StreamSt := ⟨⟨0#16, 1#4, 0#3⟩, send, 3#32, [(2#32, 0), (3#32, 0)], 5⟩
theorem case_EndToEnd : (∀ b ∈ [false, true], ({ st with streams := [str0 b] }).streams.any (fun x => x.id == (str0 b).id && x.send == b) = true)
    ∧ seqLe 2#32 2#32 = true ∧ seqLe 3#32 2#32 = false := by decide +kernel
/-- R418: a view record that arrives intact for port 14 of a device whose own record has lanes 0-3. -/
def own1 : Dword := viewRec 0#16 0 14 2 0x0F
def peer1 : Dword := viewRec 0#16 1 3 1 0xFE
theorem case_Retraining :
    (let s := stPort fun r => { r with st := .training, own := own1 }
     (s.rport 14).st == .training && viewIntact s.podId (s.rport 14).own (viewCrc peer1 ++ peer1) && !viewPending s 14 && !assisted s 3) = true
    ∧ (let s := stPort fun r => { r with st := .training, own := own1, peerV := some peer1 }
       let rec_ : BitVec 128 := viewCrc own1 ++ viewCrc peer1
       (s.rport 14).peerV == some peer1 && rec_.extractLsb' 0 64 == viewCrc peer1 && rec_.extractLsb' 64 64 == viewCrc (s.rport 14).own
         && !viewPending s 14 && !assisted s 3) = true
    ∧ (let s := stPort fun r => { r with st := .training, lock := true }
       (s.rport 14).st == .training && (s.rport 14).lock && !viewPending s 14 && !assisted s 3) = true
    ∧ (let s := { stPort (fun r => { r with st := .training, lock := true }) with modes := st.modes.set 3 ⟨true, none⟩ }
       (s.rport 14).st == .training && (s.rport 14).lock && !viewPending s 14 && assisted s 3 && (s.rport 14).hostV.isNone) = true
    ∧ (let s := { stPort (fun r => { r with st := .training, own := own1, peerV := some peer1, hostV := some (0x06#8, 2#2) }) with
         modes := st.modes.set 3 ⟨true, none⟩ }
       let rec_ : BitVec 128 := viewCrc own1 ++ viewCrc peer1
       (s.rport 14).peerV == some peer1 && rec_.extractLsb' 0 64 == viewCrc peer1 && rec_.extractLsb' 64 64 == viewCrc (s.rport 14).own
         && !viewPending s 14 && assisted s 3 && (s.rport 14).hostV.isSome) = true
    ∧ (let s := { stPort (fun r => { r with st := .training }) with assist := { st.assist with pend := [.view 14] } }
       (s.rport 14).st == .training && viewPending s 14) = true := by decide +kernel
/-- The lanes that both ends have, at most a power of two of them, at the slower speed (the larger code). -/
theorem test_view : agreedView own1 peer1 = (0x06#8, 2#2) ∧ viewWidth 0x7F#8 = 4 ∧ viewLanes 0x7F#8 = 0x0F#8 := by decide +kernel
/-- A line whose home is device 1, which no port leads to, or which port 14 leads to. -/
def farLine : Nat := 17 * 2 ^ 57 + 32
def stFar : State := stD fun k => { k.setTag { tag0 .owner with line := farLine } with offers := [farLine] }
theorem unreachable_none (s : State) (d : Nat) (hd : d ≠ s.pkg.val) (h : ∀ p < 15, ((s.rport p).st == .up) = false) :
    unreachable s d = true := by
  have hp : ∀ d src, directPort s d src = none := fun d src => by
    have : ((List.range 15).filter fun p => (s.rport p).st == .up && ((s.rport p).peer.map (·.val)) == some d) = [] := by
      simp only [List.filter_eq_nil_iff, List.mem_range, Bool.and_eq_true]
      exact fun p hp h1 => by simp [h p hp] at h1
    simp [directPort, this]
  simp [unreachable, routeTo, hp, hd]
theorem far_unreachable : unreachable st 1 = true := unreachable_none _ _ (by decide +kernel) (by decide +kernel)
theorem case_Unreachable :
    dirtyLine (stFar.die 0) farLine = true ∧ lineDev stFar farLine = 1 ∧ stFar.pkg = 0
    ∧ (routeTo (stFar.modPort 14 (up 1)) 1 0).isNone = false ∧ farLine ∈ (stFar.die 0).offers := by decide +kernel
theorem case_Unreachable_home : homeDie (ln * 128) = 0 ∧ 5 / 4 = 1
    ∧ (∀ e ∈ [{ dir0 with st := .b, owner := some 5, fwd := some 1 }, { dir0 with st := .b, sharers := [5] }],
        ((stDir e).die 0).dir ln = e ∧ e.st = .b ∧ (e.fwd.isSome = true ∧ e.owner = some 5 ∨ e.fwd = none ∧ 5 ∈ e.sharers))
    ∧ (({ st with remotes := [⟨4, 0, acc0 .load [], mtTrk, [], 1⟩] } : State).remotes.find? fun (r : Remote) => r.index == 4).any (fun (r : Remote) => r.dev.val == 1) = true := by
  decide +kernel

/-! ### Twins -/

def batch0 : Batch := ⟨0, 0, 3, 7#64, []⟩
def twin0 (second : Bool) (l : List Batch) : Twin := ⟨5#20, second, 1, 1#96, l⟩
theorem case_TwinEvents :
    (∀ b ∈ [false, true], (let s := { st with twins := [twin0 b [batch0]] }
      s.twins.find? (·.pasid == 5#20) == some (twin0 b [batch0]) && (twin0 b [batch0]).oldest (0 / 64) (0 % 64) == some batch0
        && (releaseHeld 0 0 batch0.writes s).2.isEmpty) = true)
    ∧ (let a : Access := { acc0 .row [⟨0, 0x20000#64, 4, 5, 0, .none, []⟩] with path := .cpy 3 }
       let w : Defer := ⟨a, some { page 5#20 with mt := mtWin, pa := winBase + 0x400000, va := 0x20000 }⟩
       let s := { stK { core with halted := true } with twins := [twin0 false [{ batch0 with agent := 35, writes := [w] }]] }
       (releaseHeld 0 35 [w] s).2 == [w] && ((s.twins.head?).bind fun t => t.oldest (35 / 64) (35 % 64)).isSome) = true
    ∧ (twin0 true [batch0]).batches = [batch0]
    ∧ (∀ k ∈ [AccKind.load, .store], (let r : Remote := ⟨4, 0, acc0 k [⟨0, 0x1000#64, 4, 5, 0, .none, []⟩], mtTrk, [0x1000], 1⟩
       let s := { st with twins := [twin0 true []], remotes := [r] }
       (s.remotes.find? fun r => r.index == 4 && secondaries s r) == some r && (match r.acc.path with | .lsu _ => true | _ => false)
         && (r.acc.lanes.map fun l => l.size * Nat.max 1 l.grp.length).sum == 4) = true)
    ∧ (let r : Remote := ⟨4, 0, { acc0 .row [⟨0, 0x1000#64, 4, 5, 0, .none, []⟩] with path := .ace 7 }, mtTrk, [0x1000], 1⟩
       let s := { st with twins := [twin0 true []], remotes := [r] }
       (s.remotes.find? fun r => r.index == 4 && secondaries s r) == some r && r.acc.slot?.isNone) = true := by decide +kernel

/-! ### Device -/

/-- RESET's image of one byte: a header, then a modulus that is one above the encoded message of its hash, under which that message is
its own signature. -/
def imgBody : List Byte := leBytes 64 (0x47583346 + 2 ^ 64 + 7 * 2 ^ 112) ++ [0x5A#8]
def imgKey : List Byte := beBytes 512 (beNat (pkcsBlock (sha512 imgBody)) + 1)
def img : List Byte := imgBody ++ imgKey ++ pkcsBlock (sha512 imgBody)
/-- R418: the record of the far end of port 14, intact for pod 0, and one that is not. -/
def link0 : BitVec 128 := viewCrc (viewRec 0#16 1 3 1 0xFE) ++ viewRec 0#16 1 3 1 0xFE
theorem case_BringUp_links :
    viewIntact 0#16 (viewRec 0#16 0 14 2 0x0F) link0 = true ∧ viewIntact 0#16 (viewRec 0#16 0 14 2 0x0F) (link0 ^^^ 1#128) = false := by decide +kernel
theorem case_BringUp : (∀ w ∈ [(0 : Fin 4), 1, 2], w ≠ 3) ∧ firmwareOk 0 0 [] = false := by decide +kernel
theorem case_BringUp_image : firmwareOk (BitVec.ofNat 512 (leNat (sha512 imgKey))) 7#16 img = true := by decide +kernel
/-- R453: an image whose SVN is below the rollback counter is refused. -/
theorem test_rollback : firmwareOk (BitVec.ofNat 512 (leNat (sha512 imgKey))) 8#16 img = false := by decide +kernel
theorem case_Power : (95 / 96 = (0 : Fin 4).val) ∧ ¬ (96 / 96 = (0 : Fin 4).val) := by decide
theorem case_Attestation : ∀ b ∈ [false, true], ({ st with spdm := ⟨b, b, b, []⟩ }).spdm.algs = b ∧ (4 < (5#8).toNat ∧ (5#8).toNat ≠ 255)
    ∧ (1#8).toNat ≤ 4 := by decide
theorem case_ErrorEvents : granuleOk st (.mem 0x1000) = true ∧ granuleOk (stD fun k => k.setTag { tag0 .owner with line := 32 }) (.l2 0 32 true) = true
    ∧ [Granule.l1 0 0 true, .ob 383 0, .acc 0 0, .vreg 0 0, .sreg 0 0 63, .spad 0 4095].all (granuleOk st) = true ∧ isHbm 0x1000 = true ∧ sourceOk st (coreSource st 0) = true ∧ sourceOk st 0xFFFF#16 = false := by decide +kernel
/-- Tables of address space 5 with the root at 0x1000, whose one leaf maps 0x10000 to the frame at 0x70000. -/
def tables : List Host.Cell :=
  [(0x1000, 0x2001), (0x2000, 0x3001), (0x3000, 0x4001), (0x4000, 0x5001), (0x5008, 2 + 0x70000 + 2 ^ 52)].foldl
    (fun m e => wrBytes m e.1 (leBytes 8 e.2)) []
def stMap (f : Die → Die) : State :=
  { st with hbm := tables, dies := st.dies.set 0 (f { st.die 0 with roots := [⟨5#20, 0x1000, false⟩] }) }
/-- R184, R461: a page that the tables map already is serviced OK. -/
theorem case_TicketEvents_service_page :
    (let r := { own0 .fresh with va := 0x10000#64 }
     let s := stMap fun k => { k with own := [r] }
     (s.die 0).own.find? (·.index == 0) == some r
       && (match servePage 8 s 0 5#20 0x10000 needRd false with | (_, .status st) => st == 0#4 | _ => false)) = true := by decide +kernel
/-- An entry of a level is set at 0x20000 in `s`, below which no leaf anchors a window or is held, and the leaves there then meet `H`. -/
def setsLeaf (s : State) (lv : Nat) (e : Nat) (H : State → List Leaf → Bool) : Bool :=
  let base := 0x20000 / 2 ^ levelShift lv * 2 ^ levelShift lv
  canonical 0x20000#64 && !pageBusy s 5#20 base (2 ^ levelShift lv) && !((rootLeaves s 5#20 base lv).any (anchors s ·))
    && (setEntry s 5#20 base lv (BitVec.ofNat 64 e)).any fun t => H t (rootLeaves t 5#20 base lv)
theorem case_MappingEvents_set : setsLeaf (stMap id) 0 (2 + 2 ^ 14 + 0x80000) (fun t l => l.length == 1 && !l.any (mixedType t 5#20 ·)) = true
    ∧ setsLeaf (stMap id) 0 0 (fun _ l => l.isEmpty) = true ∧ setsLeaf (stMap id) 1 0 (fun _ l => l.isEmpty) = true
    ∧ (let s := stMap fun k => { k with windows := [(0x7FFC0, 64, false, 0, 0)] }
       (rootLeaves s 5#20 0 1).any (anchors s ·) && !pageBusy s 5#20 0 (2 ^ levelShift 1)) = true := by decide +kernel
theorem foldl_mem {α β : Type} (F : List α → β → List α) (x : α) (mono : ∀ l b, x ∈ l → x ∈ F l b) :
    ∀ (bs : List β) (l : List α), (x ∈ l ∨ ∃ b ∈ bs, ∀ l, x ∈ F l b) → x ∈ bs.foldl F l
  | [], l, h => by simpa using h
  | b :: bs, l, h => by
    refine foldl_mem F x mono bs _ ?_
    rcases h with h | ⟨c, hc, h⟩
    · exact .inl (mono _ _ h)
    · rcases List.mem_cons.1 hc with rfl | hc
      · exact .inl (h _)
      · exact .inr ⟨c, hc, h⟩
/-- A leaf in entry `i` of a table, or under the table in entry `i`, is a leaf of the table. -/
theorem leaf_mem (s : State) (lv tab i a : Nat) (e : Dword) (x : Leaf) (hi : i < if lv = 0 then 32 else 512) (ha : tab + 8 * i = a)
    (he : s.hbm64 a = e) (h : (e.extractLsb' 0 2 = 2#2 ∧ x = ⟨a, lv, e⟩)
      ∨ ∃ m t, lv = m + 1 ∧ e.extractLsb' 0 2 = 1#2 ∧ (e.extractLsb' 8 44).toNat * 256 = t ∧ x ∈ leavesAt s m t) : x ∈ leavesAt s lv tab := by
  subst ha
  subst he
  cases lv <;> unfold leavesAt <;> refine foldl_mem _ x (fun l b hl => ?_) _ _ (.inr ⟨i, List.mem_range.2 hi, fun l => ?_⟩)
  all_goals dsimp only
  · split
    · exact List.mem_append_left _ hl
    · split <;> exact hl
  · rcases h with ⟨h1, rfl⟩ | ⟨m, t, h, -⟩
    · rw [if_pos h1]; simp
    · simp at h
  · split
    · exact List.mem_append_left _ hl
    · split
      · exact List.mem_append_left _ hl
      · exact hl
  · rcases h with ⟨h1, rfl⟩ | ⟨m, t, h, h1, rfl, h2⟩
    · rw [if_pos h1]; simp
    · cases h; rw [if_neg (by rw [h1]; decide), if_pos h1]; exact List.mem_append_right _ h2
def mixed0 : Dword := BitVec.ofNat 64 (2 + 2 ^ 13 + 0x70000 + 2 ^ 52)
/-- The tables of another address space, 6, and an empty one's: a leaf of the other maps the frame TRK, and one is set that maps it UNT. -/
def stMix : State :=
  { st with
    hbm := [(0x11000, 0x12001), (0x12000, 0x13001), (0x13000, 0x14001), (0x14000, 0x15001)].foldl (fun m e => wrBytes m e.1 (leBytes 8 e.2)) tables
    dies := st.dies.set 0 { st.die 0 with roots := [⟨5#20, 0x11000, false⟩, ⟨6#20, 0x1000, false⟩] } }
def stMixed : State := (setEntry stMix 5#20 0x20000 0 mixed0).getD st
theorem mixed_entries : (stMixed.die 0).roots = [⟨5#20, 0x11000, false⟩, ⟨6#20, 0x1000, false⟩] ∧ stMixed.hbm64 0x1000 = 0x2001#64 ∧ stMixed.hbm64 0x2000 = 0x3001#64
    ∧ stMixed.hbm64 0x3000 = 0x4001#64 ∧ stMixed.hbm64 0x4000 = 0x5001#64 ∧ stMixed.hbm64 0x5008 = BitVec.ofNat 64 (2 + 0x70000 + 2 ^ 52)
    ∧ setsLeaf stMix 0 (2 + 2 ^ 13 + 0x70000 + 2 ^ 52) (fun _ l => l == [⟨0x15010, 0, mixed0⟩]) = true := by decide +kernel
def old0 : Leaf := ⟨0x5008, 0, BitVec.ofNat 64 (2 + 0x70000 + 2 ^ 52)⟩
theorem old_leaf (s : State) (h0 : (s.die 0).roots = [⟨5#20, 0x11000, false⟩, ⟨6#20, 0x1000, false⟩]) (h4 : s.hbm64 0x1000 = 0x2001#64)
    (h3 : s.hbm64 0x2000 = 0x3001#64) (h2 : s.hbm64 0x3000 = 0x4001#64) (h1 : s.hbm64 0x4000 = 0x5001#64) (h : s.hbm64 0x5008 = old0.e) :
    old0 ∈ leavesOf s (·.pasid != 5#20) := by
  have hf : ((s.die 0).roots.filter (·.pasid != 5#20)) = [⟨6#20, 0x1000, false⟩] := by rw [h0]; decide
  unfold leavesOf
  rw [hf]
  simp only [List.foldl, List.nil_append]
  exact leaf_mem s 4 0x1000 0 _ _ _ (by decide) rfl h4 (.inr ⟨3, 0x2000, rfl, by decide, by decide, leaf_mem s 3 0x2000 0 _ _ _ (by decide) rfl h3
    (.inr ⟨2, 0x3000, rfl, by decide, by decide, leaf_mem s 2 0x3000 0 _ _ _ (by decide) rfl h2 (.inr ⟨1, 0x4000, rfl, by decide, by decide,
      leaf_mem s 1 0x4000 0 _ _ _ (by decide) rfl h1 (.inr ⟨0, 0x5000, rfl, by decide, by decide,
        leaf_mem s 0 0x5000 1 _ _ _ (by decide) rfl h (.inl ⟨by decide, rfl⟩)⟩)⟩)⟩)⟩)
theorem mixed_of (s : State) (h : old0 ∈ leavesOf s (·.pasid != 5#20)) : mixedType s 5#20 ⟨0x15010, 0, mixed0⟩ = true := by
  unfold mixedType
  simp only [Bool.and_eq_true, List.any_eq_true]
  exact ⟨by simp [Leaf.own, Leaf.mt, mixed0], _, h, by simp [Leaf.own, Leaf.mt, Leaf.meets, Leaf.pa, Leaf.size, levelShift, mixed0, old0]⟩
theorem case_MappingEvents_mixed : mixedType stMixed 5#20 ⟨0x15010, 0, mixed0⟩ = true :=
  have ⟨h0, h4, h3, h2, h1, h, _⟩ := mixed_entries
  mixed_of _ (old_leaf _ h0 h4 h3 h2 h1 h)
theorem case_MappingEvents_unmap : ∀ w ∈ [[], [(0x7FFC0, 64, false, 0, 0)]],
    (let s := stMap fun k => { k with windows := w }
     (rootLeaf s 5#20 0x1FFFF).any fun x => anchors s x == !w.isEmpty && !pageBusy s 5#20 0x10000 x.size) = true := by decide +kernel
theorem case_MappingEvents_declare :
    (let s := stMap id
     !((s.die 0).ranges.any fun r => r.pasid == 5#20 && r.va < 0x40000 + 0x10000 && 0x40000 < r.va + r.bytes) && (rootOf s 5#20).isSome
       && canonical 0x40000#64) = true
    ∧ ((stMap fun k => { k with ranges := [⟨5#20, 0x40000, 0x10000, false, true, true, false, false, .zero⟩] }).die 0).ranges.any
        (fun r => r.pasid == 5#20 && r.va == 0x40000) = true := by decide +kernel
/-- A fold that a list's elements leave as it is. -/
theorem foldl_keep {α β : Type} (F : α → β → α) (a : α) : ∀ l : List β, (∀ b ∈ l, F a b = a) → l.foldl F a = a
  | [], _ => rfl
  | b :: l, h => by rw [List.foldl_cons, h b (by simp)]; exact foldl_keep F a l fun c hc => h c (by simp [hc])
def idle (s : State) (p : BitVec 20) (c : Nat) : Bool := (List.range 4).all fun n => ((s.core c).nib n).st == .unbound || ((s.core c).nib n).pasid != p
/-- A space none of whose nibs is bound but on core 0: only that core's are unbound. -/
theorem unbind_first (s u : State) (p : BitVec 20) (hu : u = unbindNibs p s 0) (h : (List.range' 1 383).all (idle u p) = true) : unbindSpace s p = u := by
  have h384 : List.range 384 = 0 :: List.range' 1 383 := by decide +kernel
  unfold unbindSpace
  rw [h384, List.foldl_cons, ← hu]
  refine foldl_keep _ _ _ fun c hc => ?_
  refine foldl_keep _ _ _ fun n hn => ?_
  have := List.all_eq_true.1 (List.all_eq_true.1 h c hc) n hn
  simp only [Bool.or_eq_true, beq_iff_eq, bne_iff_ne] at this
  exact if_pos this
/-- An address space with a bound nib, one slot of which is being applied, and one without. -/
theorem case_MappingEvents_destroy :
    (let s := stN fun n => { n with pasid := 5#20, slots := n.slots.set 1 (slotOf .applying 0#16) }
     spaceHeld (unbindSpace (abortSpace s 5#20) 5#20) 5#20) = true
    ∧ spaceHeld (unbindSpace (abortSpace st 9#20) 9#20) 9#20 = false := by
  constructor
  · simp only []; rw [unbind_first _ _ _ rfl (by decide +kernel)]; decide +kernel
  · rw [unbind_first _ _ _ rfl (by decide +kernel)]; decide +kernel

end Sys2Proof.Tests
end

section
/-! PROOFS. The obligations of 03 on the instruction word: the headers that break R51, the opcodes that R58 leaves unassigned, and
the system words of R59. -/

namespace Sys2Proof

/-! ### Headers (R50, R51) -/

/-- The fields of a header word are marked bad exactly where the word breaks R51. -/
theorem Header.ofWord_bad_iff_breaksR51 {x : Word96} (hop : x.extractLsb' 0 10 = 0#10) :
    ∃ h, Header.ofWord x = some h ∧ (h.bad = true ↔ breaksR51 x) := by
  refine ⟨_, if_pos hop, ?_⟩
  have hlen : (x.extractLsb' 10 4).toNat = 0 ↔ x.extractLsb' 10 4 = 0#4 := BitVec.toNat_inj (y := 0#4)
  simp only [breaksR51, Bool.or_eq_true, Bool.and_eq_true, Bool.not_eq_true', beq_iff_eq, bne_iff_ne, decide_eq_true_eq, hlen,
    or_assoc]

namespace Machine

/-! ### Clause fetch (R52, R54, R56) -/

theorem exec_clauseFetch (core slot : Nat) (s : State) : exec (.clauseFetch core slot) s = execClauseFetch core slot s := rfl

/-- At a boundary without a resumption, the entry that the warp chooses begins its clause. -/
theorem execClauseFetch_begin {s s1 : State} {core slot : Nat} {w w1 : Warp} {e : Entry} (hw : s.warp? core slot = some w)
    (hb : w.atBoundary = true) (hi : coreIssues s core slot = true) (hr : w.resume = none) (hj : w.job = none)
    (hh : refreshHead s core slot = (s1, true)) (hc : (s1.warp? core slot).map Warp.choose = some (w1, true))
    (he : w1.front.head? = some e) :
    execClauseFetch core slot s = .next (fetchClause (s1.modWarp core slot fun _ => w1) core slot w1 e 1 true) := by
  obtain ⟨es, hf⟩ := List.head?_eq_some_iff.1 he
  simp [execClauseFetch, hw, hb, hi, hr, hj, hh, hc, hf]

/-- At a resumption, the clause of the head entry is fetched again and issues from the position at which it resumes. -/
theorem execClauseFetch_resume {s : State} {core slot p : Nat} {w : Warp} {e : Entry} (hw : s.warp? core slot = some w)
    (hb : w.atBoundary = true) (hi : coreIssues s core slot = true) (hr : w.resume = some p) (he : w.front.head? = some e) :
    execClauseFetch core slot s = .next (fetchClause s core slot w e p false) := by
  obtain ⟨es, hf⟩ := List.head?_eq_some_iff.1 he
  simp [execClauseFetch, hw, hb, hi, hr, hf]

/-- A header that breaks R51 is refused before its MELD, its LEN and its words are looked at. -/
theorem fetchClause_of_breaksR51 {s s2 : State} {ci slot : Nat} {w : Warp} {e : Entry} {x : Word96} (pos : Nat) (begins : Bool)
    (hx : fetchWord s ci w.pasid (slot == 31) e.pc = (s2, .ok x)) (hop : x.extractLsb' 0 10 = 0#10) (hbad : breaksR51 x) :
    fetchClause s ci slot w e pos begins = takeTrap s2 ci slot (headerCause e cIllegalClause 0#64) := by
  obtain ⟨h, hh, hiff⟩ := Header.ofWord_bad_iff_breaksR51 hop
  simp [fetchClause, hx, hh, hiff.2 hbad]

/-! ### Words refused before they are decoded (R58, R59, R61) -/

theorem wordTrap_of_ctxOf {s : State} {c : Ctl} {k : Ctx} (h : ctxOf s c = some k) (ci slot code : Nat) :
    wordTrap s ci slot c code = takeTrap (issued s ci slot c) ci slot (k.cause code k.act 0#64) := by
  simp [wordTrap, h]

/-- R58's table leaves unassigned what the decoder's does, and no opcode of it is a clause header or may end a clause. -/
theorem unassignedR58_spec {o : Nat} (h : unassignedR58 o) :
    o ≠ 0 ∧ endsClause o = false ∧ (!opAssigned o || (0x340 ≤ o && o ≤ 0x345)) = true := by
  unfold unassignedR58 at h
  simp only [opAssigned, endsClause, Bool.or_eq_true, Bool.or_eq_false_iff, Bool.and_eq_true, Bool.and_eq_false_iff, Bool.not_eq_true',
    decide_eq_true_eq, decide_eq_false_iff_not]
  omega

/-- A system opcode is assigned and outside the access slice; it is no clause header and may stand anywhere in a clause. -/
theorem systemOpcode_spec {o : Nat} (hlo : 0x380 ≤ o) (hhi : o ≤ 0x387) :
    o ≠ 0 ∧ endsClause o = false ∧ (!opAssigned o || (0x340 ≤ o && o ≤ 0x345)) = false := by
  simp only [opAssigned, endsClause, Bool.or_eq_true, Bool.or_eq_false_iff, Bool.and_eq_true, Bool.and_eq_false_iff, Bool.not_eq_false',
    decide_eq_true_eq, decide_eq_false_iff_not]
  omega

section
variable {s : State} {ci slot : Nat} {x : Word96} (cl : Clause)

/-- R61's first refusal of a word that may stand at its place: its opcode. -/
theorem issueWord_of_unassignedR58 (h : unassignedR58 (x.extractLsb' 0 10).toNat) :
    issueWord s ci slot cl x
      = .next (wordTrap (landEarly { s with cur := (ci, slot) } ci slot) ci slot (ctlOfWord x) cIllegalOpcode) := by
  obtain ⟨h0, hend, hop⟩ := unassignedR58_spec h
  simp only [issueWord, h0, hend, hop, decide_false, Bool.false_and, Bool.or_self, Bool.false_eq_true, if_false, if_true]

/-- R61's second: the right to issue it. The fields are not read. -/
theorem issueWord_of_systemOpcode (hslot : slot ≠ 31) (hlo : 0x380 ≤ (x.extractLsb' 0 10).toNat)
    (hhi : (x.extractLsb' 0 10).toNat ≤ 0x387) :
    issueWord s ci slot cl x
      = .next (wordTrap (landEarly { s with cur := (ci, slot) } ci slot) ci slot (ctlOfWord x) cAccessDenied) := by
  obtain ⟨h0, hend, hop⟩ := systemOpcode_spec hlo hhi
  have hother : (slot != 31) = true := bne_iff_ne.2 hslot
  simp only [issueWord, h0, hend, hop, hlo, hother, decide_false, decide_true, Bool.false_and, Bool.or_self, Bool.and_self,
    Bool.false_eq_true, if_false, if_true]

end

end Machine

/-! ### The obligations -/

open Machine

/-- Settles O5: `breaksR51` is what marks a header's fields as bad, and a clause's fetch, begun or resumed, refuses bad fields
first. -/
theorem headerFaults : Obligations.HeaderFaults := by
  refine ⟨?begins, ?resumes, ?admitted⟩
  case begins =>
    intro s s1 s2 core slot w w1 e x hw hb hi hr hj hh hc he hx hop hbad
    rw [exec_clauseFetch, execClauseFetch_begin hw hb hi hr hj hh hc he, fetchClause_of_breaksR51 1 true hx hop hbad]
    rfl
  case resumes =>
    intro s s2 core slot p w e x hw hb hi hr he hx hop hbad
    rw [exec_clauseFetch, execClauseFetch_resume hw hb hi hr he, fetchClause_of_breaksR51 p false hx hop hbad]
    rfl
  case admitted =>
    intro x hop hgood
    obtain ⟨h, hh, hiff⟩ := Header.ofWord_bad_iff_breaksR51 hop
    exact ⟨h, hh, Bool.eq_false_iff.2 fun hb => hgood (hiff.1 hb)⟩

/-- Settles O6: no opcode of R58's table passes the opcode check of R61. -/
theorem unassignedOpcode : Obligations.UnassignedOpcode := by
  intro s ci slot cl x k u hk hop
  rw [issueWord_of_unassignedR58 cl hop, wordTrap_of_ctxOf hk]
  rfl

/-- Settles O7: a system opcode passes the opcode check of R61 and fails the one of R59 before the word is decoded. -/
theorem systemWordDenied : Obligations.SystemWordDenied := by
  intro s ci slot cl x k u hk hslot hlo hhi
  rw [issueWord_of_systemOpcode cl hslot hlo hhi, wordTrap_of_ctxOf hk]
  rfl

end Sys2Proof
end

section
/-! PROOFS. The obligations of 09 on the memory instructions: the lane addresses that are not multiples of their size (R205). -/

namespace Sys2Proof

namespace Machine

/-! ### Sets of lanes as masks -/

/-- The sum that `maskOf` takes over the lanes below `n` has the chosen lanes' bits, and no other. -/
theorem testBit_sum_two_pow (p : Nat → Bool) (n : Nat) :
    (List.range n).foldl (fun a l => if p l then a + 2 ^ l else a) 0 < 2 ^ n
      ∧ ∀ i, ((List.range n).foldl (fun a l => if p l then a + 2 ^ l else a) 0).testBit i = (decide (i < n) && p i) := by
  induction n with
  | zero => simp
  | succ n ih =>
    rw [List.range_succ, List.foldl_append]
    generalize (List.range n).foldl (fun a l => if p l then a + 2 ^ l else a) 0 = a at ih ⊢
    obtain ⟨hlt, hbit⟩ := ih
    have hor : a + 2 ^ n = 2 ^ n ||| a := by
      have h := Nat.two_pow_add_eq_or_of_lt hlt 1
      rw [Nat.mul_one] at h
      omega
    have hbelow {i : Nat} (hi : i ≠ n) : decide (i < n + 1) = decide (i < n) := decide_eq_decide.2 (by omega)
    rw [List.foldl_cons, List.foldl_nil, Nat.pow_succ]
    by_cases hp : p n = true
    · rw [if_pos hp]
      refine ⟨by omega, fun i => ?_⟩
      rw [hor, Nat.testBit_or, Nat.testBit_two_pow, hbit]
      by_cases hi : i = n
      · rw [hi, hp, decide_eq_true rfl, decide_eq_true (Nat.lt_succ_self n)]
        rfl
      · rw [hbelow hi, decide_eq_false (Ne.symm hi), Bool.false_or]
    · rw [if_neg hp]
      refine ⟨by omega, fun i => ?_⟩
      rw [hbit]
      by_cases hi : i = n
      · rw [hi, Bool.eq_false_iff.2 hp, Bool.and_false, Bool.and_false]
      · rw [hbelow hi]

@[simp] theorem laneIn_maskOf (p : Nat → Bool) (i : Nat) : laneIn (maskOf p) i = (decide (i < 32) && p i) := by
  rw [laneIn, maskOf, BitVec.getLsbD_ofNat, (testBit_sum_two_pow p 32).2 i, ← Bool.and_assoc, Bool.and_self]

/-- The lowest lane of a mask: it is chosen, and no lane below it is. -/
theorem head?_lanesOf_maskOf {p : Nat → Bool} {i : Nat} (hi : i < 32) (hp : p i = true) (hlow : ∀ j < i, p j = false) :
    (lanesOf (maskOf p)).head? = some i := by
  rw [lanesOf, List.head?_filter, List.find?_range_eq_some]
  exact ⟨by simp [hi, hp], by simpa using hi, fun j hj => by simp [hlow j hj]⟩

/-! ### The lowest cause of lanes that raise the same one (R64) -/

/-- Lane accesses in ascending order of their lanes, each lane at most once. -/
def LanesAscend (ls : List LaneAcc) : Prop := (ls.map (·.lane)).Sublist (List.range 32)

theorem LanesAscend.filter {ls : List LaneAcc} (h : LanesAscend ls) (p : LaneAcc → Bool) : LanesAscend (ls.filter p) :=
  (List.filter_sublist.map _).trans h

/-- The head's lane is a lane, and the lowest. -/
theorem LanesAscend.head {l : LaneAcc} {t : List LaneAcc} (h : LanesAscend (l :: t)) :
    l.lane < 32 ∧ ∀ x ∈ t, l.lane < x.lane := by
  have hs := List.pairwise_lt_range.sublist h
  rw [List.map_cons, List.pairwise_cons] at hs
  exact ⟨by simpa using h.subset (List.mem_cons_self ..), fun x hx => hs.1 _ (List.mem_map_of_mem hx)⟩

/-- Lanes that all raise `code` give it as the cause of exactly those lanes, with the lowest one's address. -/
theorem lowestCause_same (k : Ctx) (code : Nat) {l : LaneAcc} {t : List LaneAcc} (h : LanesAscend (l :: t)) :
    lowestCause k ((l :: t).map fun x => (code, x.lane, x.va))
      = some (k.cause code (maskOf fun j => (l :: t).any (·.lane == j)) l.va) := by
  obtain ⟨hlt, hlow⟩ := h.head
  have hmin : (((l :: t).map fun x => (code, x.lane, x.va)).map (·.1)).min? = some code := by
    rw [List.min?_eq_some_iff]
    simp
  have hmine : ((l :: t).map fun x => (code, x.lane, x.va)).filter (·.1 == code) = (l :: t).map fun x => (code, x.lane, x.va) := by
    simp
  have hhead : (lanesOf (maskOf fun j => (l :: t).any (·.lane == j))).head? = some l.lane :=
    head?_lanesOf_maskOf hlt (by simp) fun j hj => by
      simp only [List.any_cons, Bool.or_eq_false_iff, beq_eq_false_iff_ne, List.any_eq_false, beq_iff_eq]
      exact ⟨Nat.ne_of_gt hj, fun x hx => Nat.ne_of_gt (Nat.lt_trans hj (hlow x hx))⟩
  have hany : (fun j => ((l :: t).map fun x => (code, x.lane, x.va)).any (·.2.1 == j)) = fun j => (l :: t).any (·.lane == j) := by
    funext j
    rw [List.any_map]
    rfl
  simp only [lowestCause, hmin, hmine, hany, hhead]
  simp

/-! ### The lanes of a word that makes accesses -/

theorem onceLanes_sublist (k : Ctx) (once : Bool) : (onceLanes k once).Sublist (List.range 32) := by
  unfold onceLanes
  split
  · exact (List.take_sublist ..).trans List.filter_sublist
  · exact List.filter_sublist

/-- Lane accesses made for each of some lanes. -/
theorem lanesAscend_map {f : Nat → LaneAcc} (hf : ∀ l, (f l).lane = l) {ls : List Nat} (h : ls.Sublist (List.range 32)) :
    LanesAscend (ls.map f) := by
  rw [LanesAscend, List.map_map, show (fun x : LaneAcc => x.lane) ∘ f = id from funext hf, List.map_id]
  exact h

/-- A combined lane access of ATOMR has the address and the size of a lane's (R219). -/
theorem exists_mem_of_mem_combine {t : Ty} {aop : AOp} {ls : List LaneAcc} {x : LaneAcc} (h : x ∈ combine t aop ls) :
    ∃ y ∈ ls, x.va = y.va ∧ x.size = y.size := by
  obtain ⟨a, -, ha⟩ := List.mem_filterMap.1 h
  dsimp only at ha
  split at ha
  · cases ha
  · next y ys hy =>
    cases ha
    exact ⟨y, (List.mem_filter.1 (hy ▸ List.mem_cons_self .. : y ∈ ls.filter (·.va == a))).1, rfl, rfl⟩

/-- The size of a lane access (R205): w/8 bytes, 16 for CAS2. -/
def MemShape.laneSize (m : MemShape) : Nat := if m.kind = .cas2 then 16 else tyWidth m.ty / 8

/-- The lane accesses of a word: one of the word's size for each of some lanes, ascending; or, where all of these are aligned,
these combined by address (R219). -/
def MemShape.LanesFrom (m : MemShape) (k : Ctx) : Prop :=
  ∃ ls, LanesAscend ls ∧ (∀ x ∈ ls, x.size = m.laneSize)
    ∧ (m.lanes k = ls ∨ (∀ x ∈ ls, x.va.toNat % x.size = 0) ∧ ∃ t aop, m.lanes k = combine t aop ls)

theorem MemShape.lanesFrom_of_map {m : MemShape} {k : Ctx} {once : Bool} {f : Nat → LaneAcc}
    (h : m.lanes k = (onceLanes k once).map f) (hlane : ∀ l, (f l).lane = l) (hsize : ∀ l, (f l).size = m.laneSize) :
    m.LanesFrom k :=
  ⟨_, lanesAscend_map hlane (onceLanes_sublist k once), List.forall_mem_map.2 fun l _ => hsize l, .inl h⟩

/-- ATOMR combines its lanes only where none of them is misaligned. -/
theorem atomrLanes_cases (o : AtomOp) (aop : AOp) (d : Reg) (k : Ctx) :
    let ls := (onceLanes k (isScalar d)).map fun l => atomLane k o (destOf k o.ty d l) l
    atomrLanes o aop d k = ls
      ∨ (∀ x ∈ ls, x.va.toNat % x.size = 0) ∧ atomrLanes o aop d k = combine o.ty aop ls := by
  intro ls
  dsimp only [atomrLanes]
  split
  · exact .inl rfl
  · next hany =>
    refine .inr ⟨fun x hx => Decidable.byContradiction fun hmis => ?_, rfl⟩
    have hne : (x.va.toNat % x.size != 0) = true := bne_iff_ne.2 hmis
    exact hany (List.any_eq_true.2 ⟨x, hx, by rw [hne, Bool.true_or]⟩)

theorem memShape_lanesFrom {i : Instr} {m : MemShape} (h : memShape i = some m) (k : Ctx) : m.LanesFrom k := by
  cases i <;> simp only [memShape, Option.some.injEq, reduceCtorEq] at h <;> subst h
  case atomr o aop d =>
    refine ⟨_, lanesAscend_map (fun _ => rfl) (onceLanes_sublist k _), ?size, (atomrLanes_cases o aop d k).imp_right ?combined⟩
    case size => exact List.forall_mem_map.2 fun _ _ => rfl
    case combined => exact fun ⟨hal, hc⟩ => ⟨hal, o.ty, aop, hc⟩
  case cwb =>
    exact MemShape.lanesFrom_of_map (once := false) rfl (fun _ => rfl) fun _ => by simp [MemShape.laneSize, tyWidth]
  case ldq | red | cas2 => exact MemShape.lanesFrom_of_map (once := false) rfl (fun _ => rfl) fun _ => rfl
  all_goals exact MemShape.lanesFrom_of_map rfl (fun _ => rfl) fun _ => rfl

/-- Every lane access of a word has the word's size. -/
theorem size_of_mem_lanes {i : Instr} {m : MemShape} (h : memShape i = some m) {k : Ctx} {l : LaneAcc} (hl : l ∈ m.lanes k) :
    l.size = m.laneSize := by
  obtain ⟨ls, -, hsize, hls | ⟨-, t, aop, hls⟩⟩ := memShape_lanesFrom h k
  · exact hsize l (hls ▸ hl)
  · obtain ⟨y, hy, -, hs⟩ := exists_mem_of_mem_combine (hls ▸ hl)
    exact hs.trans (hsize y hy)

/-- Where a lane is misaligned, no lanes are combined: they stand in ascending order. -/
theorem lanesAscend_of_misaligned {i : Instr} {m : MemShape} (h : memShape i = some m) {k : Ctx} {l : LaneAcc}
    (hl : l ∈ m.lanes k) (hmis : l.va.toNat % l.size ≠ 0) : LanesAscend (m.lanes k) := by
  obtain ⟨ls, hasc, -, hls | ⟨hal, t, aop, hls⟩⟩ := memShape_lanesFrom h k
  · exact hls ▸ hasc
  · obtain ⟨y, hy, hva, hs⟩ := exists_mem_of_mem_combine (hls ▸ hl)
    exact absurd (hal y hy) (hva ▸ hs ▸ hmis)

/-! ### The cause of a misaligned lane (R205) -/

theorem misLanes_of_ne_cwb {kind : AccKind} (hc : ∀ f, kind ≠ .cwb f) (lanes : List LaneAcc) :
    misLanes kind lanes = lanes.filter fun l => l.va.toNat % l.size != 0 := by
  unfold misLanes
  split
  · next f => exact absurd rfl (hc f)
  · rfl

/-- Misaligned lanes, whatever the others are, come to MISALIGNED before any access is looked up. -/
theorem runAccess_misaligned (c : Ctl) {kind : AccKind} (hc : ∀ f, kind ≠ .cwb f) (t : Ty) (sp : Bool) (ord : Order) (sc : Scope)
    (long : Bool) {lanes : List LaneAcc} (k : Ctx) (hasc : LanesAscend lanes) {l : LaneAcc} {bad : List LaneAcc}
    (hbad : (lanes.filter fun l => l.va.toNat % l.size != 0) = l :: bad) :
    runAccess c kind t sp ord sc long lanes k = .trap (k.cause cMisaligned (maskOf fun j => (l :: bad).any (·.lane == j)) l.va) := by
  have hne : lanes ≠ [] := by rintro rfl; cases hbad
  have hcause := lowestCause_same k cMisaligned (hbad ▸ hasc.filter _)
  rw [runAccess_eq _ _ _ _ _ _ _ _ _ hne, misLanes_of_ne_cwb hc, hbad, hcause]
  rfl

/-- A cause names the place of the context's warp, and nothing else of the context. -/
theorem Ctx.cause_congr {k k' : Ctx} (h : k'.w = k.w) (code : Nat) (mask : Mask) (va : Dword) :
    k'.cause code mask va = k.cause code mask va := by
  unfold Ctx.cause
  rw [h]

/-- A body that raises a cause: the word, which runs undisturbed, traps with it. -/
theorem traps_of_body {i : Instr} {s : State} {c : Ctl} {sc long : Bool} {opds : List Opd} {k : Ctx} {body : Ctx → Res} {z : Cause}
    (he : exec i s = runInstr s c sc long opds body) (hr : Ready s c sc long opds k) (hb : body (k.popped opds) = .trap z) :
    Traps i s k c z := by
  obtain ⟨hs, -⟩ := ctxOf_spec hr.issuer
  rw [Traps, he, runInstr_ready hr, hb, wordDone, wordCause, hs]

/-- Bytes that begin at a multiple of their number, a power of two up to 16, lie in one line. -/
theorem unitsOf_aligned {va n : Nat} (hn : n ∈ [1, 2, 4, 8, 16]) (hal : va % n = 0) : unitsOf 128 va n = [va / 128] := by
  have hpos : n ≠ 0 := by rintro rfl; simp at hn
  have hlast : (va + n - 1) / 128 = va / 128 := by
    simp only [List.mem_cons, List.not_mem_nil, or_false] at hn
    obtain rfl | rfl | rfl | rfl | rfl := hn <;> omega
  simp [unitsOf, hpos, hlast]

end Machine

/-! ### The obligations -/

open Machine

/-- Settles O33: lanes are combined only where all are aligned, so the misaligned ones stand in ascending order and the first of
them gives the address. -/
theorem misalignedAccess : Obligations.MisalignedAccess := by
  refine ⟨?traps, fun i m k hm _ l hl => size_of_mem_lanes hm hl, fun va n hn hal => unitsOf_aligned hn hal⟩
  intro i m s k l hm hc hr bad hhead
  obtain ⟨t, hbad⟩ := List.head?_eq_some_iff.1 hhead
  have hmem := List.mem_filter.1 (List.mem_of_mem_head? hhead)
  have hasc := lanesAscend_of_misaligned hm hmem.1 (by simpa using hmem.2)
  have hw : (m.res (k.popped m.opds)).w = k.w := (memShape_res hm _).1.trans (popped_w hr.issuer _)
  refine traps_of_body (exec_memShape hm s) hr ?_
  rw [runAccess_misaligned m.c hc m.ty m.sp m.ord m.sc m.long _ hasc hbad, Ctx.cause_congr hw, ← hbad]
  rfl

end Sys2Proof
end

section
/-! PROOFS. The obligations of 03 on decoding and encoding: an instruction and its word, a clause header and its word (R36 to R40, R50,
R61). -/
namespace Sys2Proof

/-! ### The number or code that a field is read from -/

@[simp] theorem Reg.num_ofNum (n : BitVec 10) : (Reg.ofNum n).num = n := by
  unfold Reg.ofNum
  repeat' split
  all_goals (simp only [Reg.num]; bv_omega)
theorem Ty.code_of_ofCode {c : BitVec 4} {t : Ty} (h : Ty.ofCode c = some t) : t.code = c := by revert c t; decide
theorem Rm.code_of_ofCode {c : BitVec 3} {t : Rm} (h : Rm.ofCode c = some t) : t.code = c := by revert c t; decide
theorem Rm.code_of_ofCode_two {c : BitVec 2} {t : Rm} (h : Rm.ofCode (c.setWidth 3) = some t) : t.code.setWidth 2 = c := by revert c t; decide
theorem Cond.code_of_ofCode {c : BitVec 3} {t : Cond} (h : Cond.ofCode c = some t) : t.code = c := by revert c t; decide
theorem POp.code_of_ofCode {c : BitVec 2} {t : POp} (h : POp.ofCode c = some t) : t.code = c := by revert c t; decide
theorem Scope.code_of_ofCode {c : BitVec 3} {t : Scope} (h : Scope.ofCode c = some t) : t.code = c := by revert c t; decide
theorem Order.code_of_ofCode {c : BitVec 2} {t : Order} (h : Order.ofCode c = some t) : t.code = c := by revert c t; decide
theorem FfOp.code_of_ofCode {c : BitVec 2} {t : FfOp} (h : FfOp.ofCode c = some t) : t.code = c := by revert c t; decide
theorem ShMode.code_of_ofCode {c : BitVec 2} {t : ShMode} (h : ShMode.ofCode c = some t) : t.code = c := by revert c t; decide
theorem VoteOp.code_of_ofCode {c : BitVec 2} {t : VoteOp} (h : VoteOp.ofCode c = some t) : t.code = c := by revert c t; decide
theorem RedOp.code_of_ofCode {c : BitVec 3} {t : RedOp} (h : RedOp.ofCode c = some t) : t.code = c := by revert c t; decide
theorem LmKind.code_of_ofCode {c : BitVec 3} {t : LmKind} (h : LmKind.ofCode c = some t) : t.code = c := by revert c t; decide
theorem AOp.code_of_ofCode {c : BitVec 4} {t : AOp} (h : AOp.ofCode c = some t) : t.code = c := by revert c t; decide
theorem FCond.code_of_ofCode {c : BitVec 4} {t : FCond} (h : FCond.ofCode c = some t) : t.code = c := by
  have hall : ∀ c : BitVec 4, ∀ t ∈ FCond.ofCode c, t.code = c := by decide
  exact hall c t h
theorem val_of_finOf {k n : Nat} {x : Fin k} (h : finOf k n = some x) : x.val = n := by
  unfold finOf at h
  split at h
  · cases h; rfl
  · cases h
theorem xNum_of_xReg {c : BitVec 10} {n : Fin 16} (h : xReg c = some n) : xNum n = c := by
  rw [xNum, val_of_finOf h, BitVec.ofNat_toNat, BitVec.setWidth_eq]
theorem qNum_of_qReg {c : BitVec 10} {n : Fin 16} (h : qReg c = some n) : qNum n = c := by
  unfold qReg at h
  split at h
  · next hle =>
    rw [qNum, val_of_finOf h]
    bv_omega
  · cases h

/-! ### Fields put together from their parts -/

theorem ofNat_toFin {n : Nat} (x : BitVec n) : BitVec.ofNat n x.toFin.val = x := by simp
theorem ofBool_getLsbD {n : Nat} (x : BitVec n) (i : Nat) : BitVec.ofBool (x.getLsbD i) = x.extractLsb' i 1 := by
  ext j hj
  obtain rfl : j = 0 := by omega
  simp
theorem extract_append_extract {n a b s t : Nat} (x : BitVec n) (h : t = s + b) :
    x.extractLsb' t a ++ x.extractLsb' s b = x.extractLsb' s (a + b) :=
  BitVec.extractLsb'_append_extractLsb'_eq_extractLsb' h
theorem append_part {n a b : Nat} {x : BitVec n} {y : BitVec a} {z : BitVec b} (s : Nat) (hy : y = x.extractLsb' (s + b) a)
    (hz : z = x.extractLsb' s b) : y ++ z = x.extractLsb' s (a + b) := by
  rw [hy, hz, extract_append_extract x rfl]
theorem append_whole {a b : Nat} {x : BitVec (a + b)} {y : BitVec a} {z : BitVec b} (hy : y = x.extractLsb' b a)
    (hz : z = x.extractLsb' 0 b) : y ++ z = x := by
  rw [hy, hz, extract_append_extract x (Nat.zero_add b).symm]
  exact ext_self x
/-- A field whose upper bits are 0 is its lower bits widened. -/
theorem setWidth_low {a b : Nat} {x : BitVec (a + b)} (h : x.extractLsb' b a = 0#a) : (x.extractLsb' 0 b).setWidth (a + b) = x := by
  rw [sw_append a (a + b) _ rfl]
  exact append_whole h.symm rfl
theorem mBit_low {f : Fields} (h : f.m 1 5 = 0) : mBit (f.mx.getLsbD 0) = f.mx := append_whole h.symm (ofBool_getLsbD _ 0)
theorem mScope_low {f : Fields} {s : Scope} {b5 b4 : Bool} (h : f.m 5 1 = 0) (hs : Scope.ofCode (f.m 2 3) = some s)
    (h5 : BitVec.ofBool b5 = f.m 1 1) (h4 : BitVec.ofBool b4 = f.m 0 1) : mScope s b5 b4 = f.mx :=
  append_whole (append_part 1 (append_part 2 h.symm (Scope.code_of_ofCode hs)) h5) h4
/-- The two flag bits of a SCOPE field are 0. -/
theorem flags_of_zero {f : Fields} (h : f.m 0 2 = 0) : BitVec.ofBool false = f.m 1 1 ∧ BitVec.ofBool false = f.m 0 1 := by
  have hall : ∀ m : BitVec 6, m.extractLsb' 0 2 = 0 →
      BitVec.ofBool false = m.extractLsb' 1 1 ∧ BitVec.ofBool false = m.extractLsb' 0 1 := by decide
  exact hall f.mx h
/-- An optional register's field: 0 where there is none. -/
theorem optNum_ite {p : Prop} [Decidable p] {n : BitVec 10} (h : p ∨ n = 0) : optNum (if p then some (Reg.ofNum n) else none) = n := by
  by_cases hp : p
  · rw [if_pos hp]
    exact Reg.num_ofNum n
  · rw [if_neg hp]
    exact (h.resolve_left hp).symm
/-- An optional register's flag. -/
theorem flag_isSome {m : BitVec 6} {r : Reg} {i : Nat} :
    BitVec.ofBool (if m.getLsbD i = true then some r else none).isSome = m.extractLsb' i 1 := by
  rw [← ofBool_getLsbD]
  cases m.getLsbD i <;> rfl

/-! ### The shared shapes -/

theorem Fields.eq_of {f g : Fields} (hop : f.op = g.op) (hd : f.d = g.d) (ha : f.a = g.a) (hb : f.b = g.b) (hc : f.ctl = g.ctl)
  (himm : f.imm = g.imm) (hcreg : f.creg = g.creg) (hmx : f.mx = g.mx) (hty : f.ty = g.ty) (hx : f.x = g.x) : f = g := by
  cases f; cases g; simp_all

/-- Fields with B or X. -/
theorem withSrc_src {f : Fields} {op d a : BitVec 10} {mx : BitVec 6} {ty : BitVec 4} (hop : op = f.op) (hz : f.z3 = true)
    (hd : d = f.d) (ha : a = f.a) (hmx : mx = f.mx) (hty : ty = f.ty) :
    Fields.withSrc ⟨op, d, a, 0, f.ctl, false, false, mx, ty, 0⟩ f.src = f := by
  simp only [Fields.z3_eq, Fields.srcZ_eq, Bool.and_eq_true, Bool.not_eq_true'] at hz
  obtain ⟨hcreg, hz⟩ := hz
  cases himm : f.imm
  all_goals
    simp only [himm, if_true, if_false, Bool.false_eq_true, beq_iff_eq] at hz
    apply Fields.eq_of <;> simp [himm, hz, hop, hmx, hty, hcreg, hd, ha]
section
variable {f : Fields} {op : BitVec 10} {mx : BitVec 6} {t : Ty} (hop : op = f.op) (hmx : mx = f.mx) (ht : Ty.ofCode f.ty = some t)
include hop hmx ht
theorem encAlu3_alu3 (hz : f.z3 = true) : encAlu3 op (f.alu3 t) mx = f :=
  withSrc_src hop hz (Reg.num_ofNum _) (Reg.num_ofNum _) hmx (Ty.code_of_ofCode ht)
theorem encAlu2_alu2 {x : Word} {xz : Bool} (hx : x = f.x) (hz : f.z2 xz = true) : encAlu2 op (f.alu2 t) mx x = f := by
  have hty := Ty.code_of_ofCode ht
  simp only [Fields.z2_eq, Fields.plain_eq, Bool.and_eq_true, Bool.not_eq_true', beq_iff_eq] at hz
  apply Fields.eq_of <;> simp [hz, hop, hmx, hty, hx]
theorem encAluR_aluR {x : Word} {xz : Bool} (hx : x = f.x) (hz : f.zR xz = true) : encAluR op (f.aluR t) mx x = f := by
  have hty := Ty.code_of_ofCode ht
  simp only [Fields.zR_eq, Fields.plain_eq, Bool.and_eq_true, Bool.not_eq_true'] at hz
  apply Fields.eq_of <;> simp [hz, hop, hmx, hty, hx]
end
theorem setWidth_low10 {x : Word} (h : x.extractLsb' 10 22 = 0#22) : (x.setWidth 10).setWidth 32 = x := by
  have hlow : x.setWidth 10 = x.extractLsb' 0 10 := by
    ext i hi
    simp [BitVec.getLsbD_eq_getElem (show i < 32 by omega)]
  rw [hlow, sw10, ← h, extract_append_extract x (Nat.zero_add 10).symm]
  exact ext_self x
theorem encAlu4_alu4 {f : Fields} {op : BitVec 10} {mx : BitVec 6} {t : Ty} (hop : op = f.op) (hmx : mx = f.mx) (ht : Ty.ofCode f.ty = some t)
    (hz : f.z4 = true) : encAlu4 op (f.alu4 t) mx = f := by
  have hty := Ty.code_of_ofCode ht
  simp only [Fields.z4_eq, Fields.eZ_eq, Bool.and_eq_true, Bool.not_eq_true', beq_iff_eq] at hz
  have hx := setWidth_low10 hz.2
  apply Fields.eq_of <;> simp only [encAlu4_eq, Fields.alu4_eq, fld_eq, hz, hop, hmx, hty, hx, Reg.num_ofNum, Fields.e_eq]

theorem Fields.zero_of_z2 {f : Fields} (h : f.z2 (f.x == 0) = true) : 0 = f.x := by
  unfold Fields.z2 at h
  rw [Bool.and_eq_true, beq_iff_eq] at h
  exact h.2.symm
theorem Fields.zero_of_zR {f : Fields} (h : f.zR (f.x == 0) = true) : 0 = f.x := by
  unfold Fields.zR at h
  rw [Bool.and_eq_true, beq_iff_eq] at h
  exact h.2.symm
theorem Fields.plain_iff {f : Fields} : f.plain = true ↔ false = f.imm ∧ false = f.creg := by
  rw [Fields.plain, Bool.and_eq_true, Bool.not_eq_true', Bool.not_eq_true', eq_comm, @eq_comm _ f.creg]
theorem Fields.noTy_iff {f : Fields} : f.noTy = true ↔ false = f.imm ∧ false = f.creg ∧ 0 = f.ty := by
  rw [Fields.noTy, Bool.and_eq_true, Fields.plain_iff, and_assoc, beq_iff_eq, @eq_comm _ f.ty]
/-- Fields without IMM, CREG and TYPE. -/
theorem Fields.eq_noTy {f : Fields} {op d a b : BitVec 10} {mx : BitVec 6} {x : Word} (hop : op = f.op) (hz : f.noTy = true)
    (hd : d = f.d) (ha : a = f.a) (hb : b = f.b) (hmx : mx = f.mx) (hx : x = f.x) :
    (⟨op, d, a, b, f.ctl, false, false, mx, 0, x⟩ : Fields) = f := by
  obtain ⟨himm, hcreg, hty⟩ := Fields.noTy_iff.1 hz
  exact Fields.eq_of hop hd ha hb rfl himm hcreg hmx hty hx

theorem Fields.of_z2 {f : Fields} (h : f.z2 (f.x == 0) = true) : false = f.imm ∧ false = f.creg ∧ 0 = f.b ∧ 0 = f.x := by
  rw [Fields.z2, Bool.and_eq_true, Bool.and_eq_true, Fields.plain_iff, beq_iff_eq, beq_iff_eq] at h
  obtain ⟨⟨⟨himm, hcreg⟩, hb⟩, hx⟩ := h
  exact ⟨himm, hcreg, hb.symm, hx.symm⟩
theorem ofNat_of_finOf {n k : Nat} {c : BitVec n} {x : Fin k} (h : finOf k c.toNat = some x) : BitVec.ofNat n x.val = c := by
  rw [val_of_finOf h, BitVec.ofNat_toNat, BitVec.setWidth_eq]

/-! ### Family by family: what a decoder's arm accepts is written back as it was (R99 to R397) -/

theorem shapeInt_fields {f : Fields} {i : Instr} {n : Nat} (hop : f.op.toNat = n) (h : shapeInt f n = some i) :
    i.fields = some f := by
  have hop' : BitVec.ofNat 10 n = f.op := by simp [← hop]
  unfold shapeInt at h
  split at h
  all_goals simp only [Option.bind_eq_some_iff, chk_eq, Option.ite_none_right_eq_some, Bool.and_eq_true, beq_iff_eq, Option.some.injEq,
    reduceCtorEq] at h
  case h_1 | h_2 | h_3 =>
    obtain ⟨t, ht, ⟨hz, hm⟩, rfl⟩ := h
    exact congrArg some (encAlu3_alu3 hop' (mBit_low hm) ht hz)
  case h_4 | h_6 | h_7 | h_8 | h_9 | h_12 | h_13 | h_14 | h_15 | h_17 | h_18 | h_19 | h_20 | h_21 =>
    obtain ⟨t, ht, ⟨hz, hm⟩, rfl⟩ := h
    exact congrArg some (encAlu3_alu3 hop' hm.symm ht hz)
  case h_5 =>
    obtain ⟨t, ht, ⟨hz, hm⟩, rfl⟩ := h
    exact congrArg some (encAlu4_alu4 hop' (mBit_low hm) ht hz)
  case h_22 =>
    obtain ⟨t, ht, ⟨hz, hm⟩, rfl⟩ := h
    exact congrArg some (encAlu4_alu4 hop' hm.symm ht hz)
  case h_10 | h_11 =>
    obtain ⟨t, ht, ⟨hz, hm⟩, rfl⟩ := h
    exact congrArg some (encAlu2_alu2 hop' (mBit_low hm) ht (Fields.zero_of_z2 hz) hz)
  case h_16 | h_23 | h_24 | h_25 | h_26 | h_31 =>
    obtain ⟨t, ht, ⟨hz, hm⟩, rfl⟩ := h
    exact congrArg some (encAlu2_alu2 hop' hm.symm ht (Fields.zero_of_z2 hz) hz)
  case h_27 =>
    obtain ⟨t, ht, h⟩ := h
    split at h
    case isTrue hc =>
      rw [Option.ite_none_right_eq_some, Option.some.injEq] at h
      obtain ⟨⟨hz, hm⟩, rfl⟩ := h
      exact congrArg some (encAlu4_alu4 hop' hm.symm ht (by simp only [Fields.z4, hc, hz]; rfl))
    case isFalse hc =>
      rw [Option.ite_none_right_eq_some, Option.some.injEq] at h
      obtain ⟨⟨hz, hm⟩, rfl⟩ := h
      exact congrArg some (encAlu3_alu3 hop' hm.symm ht (by simp only [Fields.z3, hc, hz]; rfl))
  case h_28 =>
    obtain ⟨t, ht, k, hk, ⟨hz, hm⟩, rfl⟩ := h
    exact congrArg some (encAlu3_alu3 hop' (append_whole hm.symm (Cond.code_of_ofCode hk)) ht hz)
  case h_29 =>
    obtain ⟨k, hk, ⟨⟨hz, hx⟩, hm⟩, rfl⟩ := h
    exact congrArg some (Fields.eq_noTy hop' hz (Reg.num_ofNum _) (Reg.num_ofNum _) (Reg.num_ofNum _)
      (append_whole hm.symm (POp.code_of_ofCode hk)) hx.symm)
  case h_30 =>
    obtain ⟨t, ht, ⟨hz, hm⟩, rfl⟩ := h
    exact congrArg some (encAlu3_alu3 hop' (append_whole (append_part 3 hm.symm (ofBool_getLsbD _ 3)) (ofNat_toFin _)) ht hz)
  case h_32 =>
    obtain ⟨t, ht, ⟨⟨hz, ha⟩, hm⟩, rfl⟩ := h
    simp only [Fields.z2, Bool.and_eq_true, beq_iff_eq, Fields.plain_iff] at hz
    obtain ⟨⟨⟨himm, hcreg⟩, hb⟩, -⟩ := hz
    exact congrArg some (Fields.eq_of hop' (Reg.num_ofNum _) ha.symm hb.symm rfl himm hcreg (mBit_low hm) (Ty.code_of_ofCode ht) rfl)
  case h_33 =>
    obtain ⟨t, ht, k, hk, ⟨hz, hm⟩, rfl⟩ := h
    exact congrArg some (encAluR_aluR hop' (append_whole (append_part 3 hm.symm (ofBool_getLsbD _ 3)) (by rw [val_of_finOf hk, BitVec.ofNat_toNat, BitVec.setWidth_eq]; rfl)) ht rfl hz)

theorem shapeFloat_fields {f : Fields} {i : Instr} {n : Nat} (hop : f.op.toNat = n) (h : shapeFloat f n = some i) :
    i.fields = some f := by
  have hop' : BitVec.ofNat 10 n = f.op := by simp [← hop]
  unfold shapeFloat at h
  split at h
  all_goals simp only [Option.bind_eq_some_iff, chk_eq, Option.ite_none_right_eq_some, Bool.and_eq_true, Bool.or_eq_true, beq_iff_eq, Option.some.injEq,
    reduceCtorEq] at h
  case h_1 | h_2 | h_3 | h_12 =>
    obtain ⟨t, ht, rm, hrm, ⟨hz, hm⟩, rfl⟩ := h
    exact congrArg some (encAlu3_alu3 hop' (append_whole hm.symm (Rm.code_of_ofCode hrm)) ht hz)
  case h_4 =>
    obtain ⟨t, ht, rm, hrm, ⟨hz, hm⟩, rfl⟩ := h
    exact congrArg some (encAlu4_alu4 hop' (append_whole hm.symm (Rm.code_of_ofCode hrm)) ht hz)
  case h_5 | h_6 =>
    obtain ⟨t, ht, ⟨hz, hm⟩, rfl⟩ := h
    exact congrArg some (encAlu3_alu3 hop' hm.symm ht hz)
  case h_7 =>
    obtain ⟨t, ht, k, hk, ⟨hz, hm⟩, rfl⟩ := h
    exact congrArg some (encAlu3_alu3 hop' (append_whole hm.symm (FCond.code_of_ofCode hk)) ht hz)
  case h_8 =>
    obtain ⟨t, ht, ⟨hz, hm⟩, rfl⟩ := h
    exact congrArg some (encAlu2_alu2 hop' hm.symm ht rfl hz)
  case h_9 | h_10 | h_11 =>
    obtain ⟨t, ht, rm, hrm, ⟨hz, hm⟩, rfl⟩ := h
    exact congrArg some (encAlu2_alu2 hop' (append_whole hm.symm (Rm.code_of_ofCode hrm)) ht (Fields.zero_of_z2 hz) hz)
  case h_13 | h_14 | h_15 | h_16 | h_17 =>
    obtain ⟨t, ht, ⟨hz, hm⟩, rfl⟩ := h
    exact congrArg some (encAlu2_alu2 hop' hm.symm ht (Fields.zero_of_z2 hz) hz)
  case h_18 =>
    obtain ⟨t, ht, rm, hrm, ⟨hz, hm⟩, rfl⟩ := h
    exact congrArg some (encAlu2_alu2 hop' (append_whole (append_part 3 hm.symm (ofBool_getLsbD _ 3)) (Rm.code_of_ofCode hrm)) ht
      (Fields.zero_of_z2 hz) hz)
  case h_19 =>
    obtain ⟨t, ht, rm, hrm, st, hst, ⟨⟨⟨hz, hm⟩, hx⟩, hb⟩, rfl⟩ := h
    obtain ⟨himm, hcreg⟩ := Fields.plain_iff.1 hz
    exact congrArg some (Fields.eq_of hop' (Reg.num_ofNum _) (Reg.num_ofNum _) (optNum_ite hb) rfl himm hcreg
      (append_whole (append_part 3 hm.symm (ofBool_getLsbD _ 3)) (Rm.code_of_ofCode hrm)) (Ty.code_of_ofCode ht)
      (append_whole (append_part 20 hx.symm (Ty.code_of_ofCode hst)) rfl))
  case h_20 | h_22 =>
    obtain ⟨t, ht, rm, hrm, ⟨hz, hm⟩, rfl⟩ := h
    exact congrArg some (encAluR_aluR hop' (append_whole hm.symm (Rm.code_of_ofCode hrm)) ht (Fields.zero_of_zR hz) hz)
  case h_21 =>
    obtain ⟨t, ht, rm, hrm, ⟨hz, hm⟩, rfl⟩ := h
    have hx : f.xb 19 13 = 0 := by
      simp only [Fields.zR, Bool.and_eq_true, beq_iff_eq] at hz
      exact hz.2
    exact congrArg some (encAluR_aluR hop' (append_whole hm.symm (Rm.code_of_ofCode hrm)) ht (append_whole hx.symm rfl) hz)
  case h_23 =>
    obtain ⟨k, hk, ⟨⟨⟨⟨hz, hty⟩, ha⟩, hm⟩, hd⟩, rfl⟩ := h
    have hd' : optNum (if f.mx.getLsbD 2 = true then none else some (Reg.ofNum f.d)) = f.d := by
      rw [← ite_not]
      exact optNum_ite (hd.imp_left fun h => by simpa using h)
    have hbit : BitVec.ofBool (if f.mx.getLsbD 2 = true then none else some (Reg.ofNum f.d)).isNone = f.mx.extractLsb' 2 1 := by
      rw [← ofBool_getLsbD]
      cases f.mx.getLsbD 2 <;> rfl
    exact congrArg some (withSrc_src hop' hz hd' ha.symm (append_whole (append_part 2 hm.symm hbit) (FfOp.code_of_ofCode hk)) hty.symm)

theorem shapeCross_fields {f : Fields} {i : Instr} {n : Nat} (hop : f.op.toNat = n) (h : shapeCross f n = some i) :
    i.fields = some f := by
  have hop' : BitVec.ofNat 10 n = f.op := by simp [← hop]
  unfold shapeCross at h
  split at h
  all_goals simp only [Option.bind_eq_some_iff, chk_eq, Option.ite_none_right_eq_some, Bool.and_eq_true, beq_iff_eq, Option.some.injEq,
    reduceCtorEq] at h
  case h_1 =>
    obtain ⟨t, ht, k, hk, g, hg, ⟨hz, hm⟩, rfl⟩ := h
    exact congrArg some (encAlu3_alu3 hop' (append_whole (append_part 2 hm.symm (ofNat_of_finOf hg)) (ShMode.code_of_ofCode hk)) ht hz)
  case h_2 =>
    obtain ⟨k, hk, ⟨⟨hz, hty⟩, hm⟩, rfl⟩ := h
    obtain ⟨himm, hcreg, hb, hx⟩ := Fields.of_z2 hz
    exact congrArg some (Fields.eq_of hop' (Reg.num_ofNum _) (Reg.num_ofNum _) hb rfl himm hcreg
      (append_whole hm.symm (VoteOp.code_of_ofCode hk)) hty.symm hx)
  case h_3 =>
    obtain ⟨t, ht, ⟨hz, hm⟩, rfl⟩ := h
    exact congrArg some (encAlu2_alu2 hop' (mBit_low hm) ht (Fields.zero_of_z2 hz) hz)
  case h_4 =>
    obtain ⟨t, ht, k, hk, rm, hrm, ⟨hz, hm⟩, rfl⟩ := h
    exact congrArg some (encAlu2_alu2 hop' (append_whole (append_part (b := 1) 3 (Rm.code_of_ofCode_two hrm) hm.symm) (RedOp.code_of_ofCode hk)) ht
      (Fields.zero_of_z2 hz) hz)
  case h_5 =>
    obtain ⟨t, ht, k, hk, rm, hrm, hz, rfl⟩ := h
    exact congrArg some (encAlu2_alu2 hop' (append_whole (append_part (b := 1) 3 (Rm.code_of_ofCode_two hrm) (ofBool_getLsbD _ 3))
      (RedOp.code_of_ofCode hk)) ht (Fields.zero_of_z2 hz) hz)
  case h_6 =>
    obtain ⟨k, hk, ⟨⟨⟨hz, ha⟩, hty⟩, hm⟩, rfl⟩ := h
    obtain ⟨himm, hcreg, hb, hx⟩ := Fields.of_z2 hz
    exact congrArg some (Fields.eq_of hop' (Reg.num_ofNum _) ha.symm hb rfl himm hcreg
      (append_whole hm.symm (LmKind.code_of_ofCode hk)) hty.symm hx)

theorem shapeControl_fields {f : Fields} {i : Instr} {n : Nat} (hop : f.op.toNat = n) (h : shapeControl f n = some i) :
    i.fields = some f := by
  have hop' : BitVec.ofNat 10 n = f.op := by simp [← hop]
  unfold shapeControl at h
  split at h
  all_goals simp only [chk_eq, Option.ite_none_right_eq_some, Bool.and_eq_true, Bool.or_eq_true, beq_iff_eq, Option.some.injEq,
    reduceCtorEq] at h
  case h_1 | h_14 | h_16 =>
    obtain ⟨⟨⟨⟨⟨hz, hd⟩, ha⟩, hb⟩, hm⟩, rfl⟩ := h
    exact congrArg some (Fields.eq_noTy hop' hz hd.symm ha.symm hb.symm hm.symm rfl)
  case h_2 =>
    obtain ⟨⟨⟨⟨hz, hd⟩, hb⟩, hm⟩, rfl⟩ := h
    exact congrArg some (Fields.eq_noTy hop' hz hd.symm (Reg.num_ofNum _) hb.symm (mBit_low hm) rfl)
  case h_3 =>
    obtain ⟨⟨⟨⟨⟨hz, hd⟩, hb⟩, hx⟩, hm⟩, rfl⟩ := h
    exact congrArg some (Fields.eq_noTy hop' hz hd.symm (Reg.num_ofNum _) hb.symm hm.symm hx.symm)
  case h_4 =>
    obtain ⟨⟨⟨⟨hz, ha⟩, hb⟩, hm⟩, rfl⟩ := h
    exact congrArg some (Fields.eq_noTy hop' hz (Reg.num_ofNum _) ha.symm hb.symm hm.symm rfl)
  case h_5 =>
    obtain ⟨⟨⟨⟨hz, hb⟩, hx⟩, hm⟩, rfl⟩ := h
    exact congrArg some (Fields.eq_noTy hop' hz (Reg.num_ofNum _) (Reg.num_ofNum _) hb.symm hm.symm hx.symm)
  case h_6 =>
    split at h
    case isTrue htr =>
      rw [Option.ite_none_right_eq_some, Option.some.injEq] at h
      obtain ⟨⟨⟨⟨⟨⟨hz, hd⟩, ha⟩, hb⟩, hx⟩, hm⟩, rfl⟩ := h
      exact congrArg some (Fields.eq_noTy hop' hz hd.symm ha.symm hb.symm (htr ▸ mBit_low hm) hx.symm)
    case isFalse htr =>
      rw [Option.ite_none_right_eq_some, Option.some.injEq] at h
      obtain ⟨⟨⟨⟨⟨hz, hd⟩, hb⟩, hx⟩, hm⟩, rfl⟩ := h
      have hm' := mBit_low hm
      rw [Bool.eq_false_iff.2 htr] at hm'
      exact congrArg some (Fields.eq_noTy hop' hz hd.symm (Reg.num_ofNum _) hb.symm hm' hx.symm)
  case h_7 | h_9 | h_13 =>
    obtain ⟨⟨⟨⟨⟨⟨hz, hd⟩, ha⟩, hb⟩, hx⟩, hm⟩, rfl⟩ := h
    exact congrArg some (Fields.eq_noTy hop' hz hd.symm ha.symm hb.symm hm.symm hx.symm)
  case h_8 | h_10 =>
    obtain ⟨⟨⟨⟨⟨⟨hz, hd⟩, ha⟩, hb⟩, hm⟩, hx⟩, rfl⟩ := h
    exact congrArg some (Fields.eq_noTy hop' hz hd.symm ha.symm hb.symm hm.symm (setWidth_low hx))
  case h_11 =>
    obtain ⟨⟨⟨⟨⟨hz, hd⟩, hx⟩, hm⟩, hb⟩, rfl⟩ := h
    exact congrArg some (Fields.eq_noTy hop' hz hd.symm (Reg.num_ofNum _) (optNum_ite hb) (append_whole hm.symm flag_isSome) hx.symm)
  case h_12 =>
    obtain ⟨⟨⟨hz, hd⟩, hx⟩, rfl⟩ := h
    exact congrArg some (Fields.eq_noTy hop' hz hd.symm (Reg.num_ofNum _) (Reg.num_ofNum _) (append_whole (ofNat_toFin _) (ofNat_toFin _)) hx.symm)
  case h_15 =>
    obtain ⟨⟨⟨⟨⟨hz, hd⟩, hb⟩, hx⟩, hm⟩, rfl⟩ := h
    exact congrArg some (Fields.eq_noTy hop' hz hd.symm (Reg.num_ofNum _) hb.symm (append_whole hm.symm (ofNat_toFin _)) hx.symm)

theorem spFlags_low {f : Fields} {sc : Scope} {o : Order} (hsc : Scope.ofCode (f.m 2 3) = some sc) (ho : Order.ofCode (f.m 0 2) = some o) :
    BitVec.ofBool (f.mx.getLsbD 5) ++ sc.code ++ o.code = f.mx :=
  append_whole (append_part (b := 3) 2 (ofBool_getLsbD _ 5) (Scope.code_of_ofCode hsc)) (Order.code_of_ofCode ho)
theorem encMem_mem {f : Fields} {op : BitVec 10} {t : Ty} {sc : Scope} {o : Order} (hop : op = f.op) (ht : Ty.ofCode f.ty = some t)
    (hsc : Scope.ofCode (f.m 2 3) = some sc) (ho : Order.ofCode (f.m 0 2) = some o) (hz : f.plain = true) :
    encMem op (f.mem t sc o) = f := by
  obtain ⟨himm, hcreg⟩ := Fields.plain_iff.1 hz
  exact Fields.eq_of hop (Reg.num_ofNum _) (Reg.num_ofNum _) (Reg.num_ofNum _) rfl himm hcreg (spFlags_low hsc ho) (Ty.code_of_ofCode ht) rfl
theorem encAtom_atm {f : Fields} {op d : BitVec 10} {t : Ty} {sc : Scope} {o : Order} {k : BitVec 4} (hop : op = f.op) (ht : Ty.ofCode f.ty = some t)
    (hsc : Scope.ofCode (f.m 2 3) = some sc) (ho : Order.ofCode (f.m 0 2) = some o) (hz : f.plain = true) (hk : k = f.xb 28 4) (hd : d = f.d) :
    encAtom op (f.atm t sc o) k d = f := by
  obtain ⟨himm, hcreg⟩ := Fields.plain_iff.1 hz
  exact Fields.eq_of hop hd (Reg.num_ofNum _) (Reg.num_ofNum _) rfl himm hcreg (spFlags_low hsc ho) (Ty.code_of_ofCode ht) (append_whole hk rfl)
theorem hint_low {f : Fields} (h : f.m 1 4 = 0) : BitVec.ofBool (f.mx.getLsbD 5) ++ 0#4 ++ BitVec.ofBool (f.mx.getLsbD 0) = f.mx :=
  append_whole (append_part 1 (ofBool_getLsbD _ 5) h.symm) (ofBool_getLsbD _ 0)

theorem shapeMem_fields {f : Fields} {i : Instr} {n : Nat} (hop : f.op.toNat = n) (h : shapeMem f n = some i) :
    i.fields = some f := by
  have hop' : BitVec.ofNat 10 n = f.op := by simp [← hop]
  unfold shapeMem at h
  split at h
  all_goals simp only [Option.bind_eq_some_iff, chk_eq, Option.ite_none_right_eq_some, Bool.and_eq_true, beq_iff_eq, Option.some.injEq,
    reduceCtorEq] at h
  case h_1 | h_2 | h_3 =>
    obtain ⟨t, ht, sc, hsc, o, ho, hz, rfl⟩ := h
    exact congrArg some (encMem_mem hop' ht hsc ho hz)
  case h_4 | h_12 =>
    obtain ⟨⟨⟨hz, hd⟩, hm⟩, rfl⟩ := h
    exact congrArg some (Fields.eq_noTy hop' hz hd.symm (Reg.num_ofNum _) (Reg.num_ofNum _) (hint_low hm) rfl)
  case h_5 | h_9 =>
    obtain ⟨t, ht, sc, hsc, o, ho, k, hk, hz, rfl⟩ := h
    exact congrArg some (encAtom_atm hop' ht hsc ho hz (AOp.code_of_ofCode hk) (Reg.num_ofNum _))
  case h_6 =>
    obtain ⟨t, ht, sc, hsc, o, ho, k, hk, ⟨hz, hd⟩, rfl⟩ := h
    exact congrArg some (encAtom_atm hop' ht hsc ho hz (AOp.code_of_ofCode hk) hd.symm)
  case h_7 | h_8 =>
    obtain ⟨t, ht, sc, hsc, o, ho, ⟨hz, hk⟩, rfl⟩ := h
    exact congrArg some (encAtom_atm hop' ht hsc ho hz hk.symm (Reg.num_ofNum _))
  case h_10 =>
    obtain ⟨sc, hsc, o, ho, ⟨⟨⟨⟨⟨⟨hz, hd⟩, ha⟩, hb⟩, hm⟩, hx7⟩, hx⟩, rfl⟩ := h
    exact congrArg some (Fields.eq_noTy hop' hz hd.symm ha.symm hb.symm (append_whole (append_part (b := 3) 2 hm.symm (Scope.code_of_ofCode hsc)) (Order.code_of_ofCode ho)) (append_whole (append_part 7 (append_part (b := 5) 8 hx.symm rfl) hx7.symm) rfl))
  case h_11 =>
    obtain ⟨⟨⟨⟨⟨⟨hz, hd⟩, ha⟩, hb⟩, hm⟩, hx⟩, rfl⟩ := h
    exact congrArg some (Fields.eq_noTy hop' hz hd.symm ha.symm hb.symm hm.symm (setWidth_low hx))
  case h_13 =>
    obtain ⟨⟨⟨⟨⟨⟨hz, hd⟩, ha⟩, hb⟩, hx⟩, hm⟩, rfl⟩ := h
    exact congrArg some (Fields.eq_noTy hop' hz hd.symm ha.symm hb.symm hm.symm hx.symm)
  case h_14 =>
    obtain ⟨⟨⟨⟨⟨hz, ha⟩, hb⟩, hx⟩, hm⟩, rfl⟩ := h
    exact congrArg some (Fields.eq_noTy hop' hz (Reg.num_ofNum _) ha.symm hb.symm hm.symm hx.symm)

theorem shapeSync_fields {f : Fields} {i : Instr} {n : Nat} (hop : f.op.toNat = n) (h : shapeSync f n = some i) :
    i.fields = some f := by
  have hop' : BitVec.ofNat 10 n = f.op := by simp [← hop]
  unfold shapeSync at h
  split at h
  all_goals simp only [Option.bind_eq_some_iff, chk_eq, Option.ite_none_right_eq_some, Bool.and_eq_true, Bool.or_eq_true, beq_iff_eq, Option.some.injEq,
    reduceCtorEq] at h
  case h_1 | h_6 =>
    obtain ⟨sc, hsc, ⟨⟨⟨⟨⟨hz, hd⟩, hb⟩, hm⟩, hm5⟩, hx⟩, rfl⟩ := h
    exact congrArg some (Fields.eq_noTy hop' hz hd.symm (Reg.num_ofNum _) hb.symm (mScope_low hm5 hsc (flags_of_zero hm).1 (flags_of_zero hm).2) (setWidth_low hx))
  case h_2 =>
    obtain ⟨sc, hsc, ⟨⟨⟨⟨⟨⟨hz, hd⟩, hb⟩, hm1⟩, hm5⟩, hx⟩, hax⟩, rfl⟩ := h
    by_cases himm : f.mx.getLsbD 0 = true
    · rw [if_pos himm, beq_iff_eq] at hax
      rw [if_pos himm]
      exact congrArg some (Fields.eq_noTy hop' hz hd.symm hax.symm hb.symm (mScope_low hm5 hsc hm1.symm (himm ▸ ofBool_getLsbD f.mx 0)) (append_whole (append_part (b := 10) 6 rfl hx.symm) rfl))
    · rw [if_neg himm, beq_iff_eq] at hax
      rw [if_neg himm]
      have hx26 : f.x.extractLsb' 6 26 = 0#26 := (append_part (x := f.x) (a := 16) (b := 10) 6 hax.symm hx.symm).symm
      exact congrArg some (Fields.eq_noTy hop' hz hd.symm (Reg.num_ofNum _) hb.symm (mScope_low hm5 hsc hm1.symm (Bool.eq_false_iff.2 himm ▸ ofBool_getLsbD f.mx 0)) (setWidth_low hx26))
  case h_3 =>
    obtain ⟨⟨⟨⟨⟨hz, hb⟩, hm⟩, hx⟩, hd⟩, rfl⟩ := h
    exact congrArg some (Fields.eq_noTy hop' hz (optNum_ite hd) (Reg.num_ofNum _) hb.symm (append_whole (append_part (b := 1) 1 hm.symm flag_isSome) (ofBool_getLsbD _ 0)) (setWidth_low hx))
  case h_4 =>
    obtain ⟨sc, hsc, ⟨⟨⟨⟨⟨hz, hd⟩, hb⟩, hm1⟩, hm5⟩, hx⟩, rfl⟩ := h
    exact congrArg some (Fields.eq_noTy hop' hz hd.symm (Reg.num_ofNum _) hb.symm (mScope_low hm5 hsc hm1.symm (ofBool_getLsbD _ 0)) (setWidth_low hx))
  case h_5 =>
    obtain ⟨sc, hsc, ⟨⟨⟨⟨⟨⟨⟨hz, ha⟩, hb⟩, hm0⟩, hm5⟩, hx6⟩, hx⟩, hd⟩, rfl⟩ := h
    exact congrArg some (Fields.eq_noTy hop' hz (optNum_ite hd) ha.symm hb.symm (mScope_low hm5 hsc flag_isSome hm0.symm) (append_whole (append_part 6 (append_part (b := 10) 16 hx.symm rfl) hx6.symm) rfl))
  case h_7 =>
    obtain ⟨sc, hsc, ⟨⟨⟨⟨⟨⟨hz, hd⟩, hb⟩, hm⟩, hm5⟩, hx4⟩, hx⟩, rfl⟩ := h
    exact congrArg some (Fields.eq_noTy hop' hz hd.symm (Reg.num_ofNum _) hb.symm (mScope_low hm5 hsc (flags_of_zero hm).1 (flags_of_zero hm).2) (append_whole (append_part 4 (append_part (b := 10) 16 hx.symm rfl) hx4.symm) rfl))
  case h_8 | h_9 =>
    obtain ⟨sc, hsc, ⟨⟨⟨⟨⟨hz, hd⟩, hb⟩, hm⟩, hm5⟩, hx⟩, rfl⟩ := h
    exact congrArg some (Fields.eq_noTy hop' hz hd.symm (Reg.num_ofNum _) hb.symm (mScope_low hm5 hsc (flags_of_zero hm).1 (flags_of_zero hm).2) (append_whole (append_part (b := 3) 4 hx.symm rfl) rfl))
  case h_10 =>
    obtain ⟨⟨⟨⟨⟨hz, hd⟩, hb⟩, hm⟩, hx⟩, rfl⟩ := h
    exact congrArg some (Fields.eq_noTy hop' hz hd.symm (Reg.num_ofNum _) hb.symm (mBit_low hm) (append_whole (append_part (b := 3) 4 hx.symm rfl) rfl))

theorem ofNat6_low {f : Fields} (h : f.m 2 4 = 0) : BitVec.ofNat 6 (f.m 0 2).toFin.val = f.mx := by
  rw [of6_4]
  exact append_whole h.symm (ofNat_toFin _)
theorem ofNat32_low4 {x : Word} (h : x.extractLsb' 4 28 = 0) : BitVec.ofNat 32 (x.extractLsb' 0 4).toFin.val = x := by
  rw [of32_16]
  exact append_whole h.symm (ofNat_toFin _)
theorem ofNat32_low2 {x : Word} (h : x.extractLsb' 2 30 = 0) : BitVec.ofNat 32 (x.extractLsb' 0 2).toFin.val = x := by
  rw [of32_4]
  exact append_whole h.symm (ofNat_toFin _)

theorem shapeCopy_fields {f : Fields} {i : Instr} {n : Nat} (hop : f.op.toNat = n) (h : shapeCopy f n = some i) :
    i.fields = some f := by
  have hop' : BitVec.ofNat 10 n = f.op := by simp [← hop]
  unfold shapeCopy at h
  split at h
  all_goals simp only [chk_eq, Option.ite_none_right_eq_some, Bool.and_eq_true, beq_iff_eq, Option.some.injEq,
    reduceCtorEq] at h
  case h_1 | h_2 =>
    obtain ⟨⟨⟨⟨⟨hz, hd⟩, hb⟩, hx⟩, hm⟩, rfl⟩ := h
    exact congrArg some (Fields.eq_noTy hop' hz hd.symm (Reg.num_ofNum _) hb.symm (ofNat6_low hm) hx.symm)
  case h_3 =>
    obtain ⟨⟨⟨⟨⟨hz, ha⟩, hb⟩, hx⟩, hm⟩, rfl⟩ := h
    exact congrArg some (Fields.eq_noTy hop' hz (Reg.num_ofNum _) ha.symm hb.symm (append_whole (append_part (b := 1) 2 hm.symm (ofBool_getLsbD _ 2)) (ofNat_toFin _)) hx.symm)
  case h_4 | h_6 =>
    obtain ⟨⟨⟨⟨⟨⟨hz, hd⟩, ha⟩, hb⟩, hx⟩, hm⟩, rfl⟩ := h
    exact congrArg some (Fields.eq_noTy hop' hz hd.symm ha.symm hb.symm (ofNat6_low hm) hx.symm)
  case h_5 =>
    obtain ⟨⟨⟨⟨⟨hz, ha⟩, hb⟩, hm⟩, hx⟩, rfl⟩ := h
    exact congrArg some (Fields.eq_noTy hop' hz (Reg.num_ofNum _) ha.symm hb.symm (ofNat6_low hm) (append_whole (append_part (b := 10) 10 hx.symm rfl) rfl))

theorem encMx_mxo {f : Fields} {op : BitVec 10} {mx : BitVec 6} {seed : Option Reg} (hop : op = f.op) (hz : f.noTy = true) (hd : f.d = 0) (ha : f.a = 0)
    (hx : f.mxoZ = true) (hmx : mx = f.mx) (hseed : optNum seed = f.b) : encMx op f.mxo mx seed = f := by
  rw [Fields.mxoZ, Bool.and_eq_true, Bool.and_eq_true, beq_iff_eq, beq_iff_eq, beq_iff_eq] at hx
  obtain ⟨⟨h30, h21⟩, h5⟩ := hx
  refine Fields.eq_noTy hop hz hd.symm ha.symm hseed hmx ?_
  have h26 := append_part (x := f.x) 26 h30.symm (ofNat_toFin (f.x.extractLsb' 26 4))
  have h24 := append_part (x := f.x) 24 (append_part (b := 1) 25 h26 (ofBool_getLsbD _ 25)) (ofBool_getLsbD _ 24)
  have h16 := append_part (x := f.x) 16 (append_part 21 h24 h21.symm) (ofNat_toFin (f.x.extractLsb' 16 5))
  have h8 := append_part (x := f.x) 8 (append_part 12 h16 (ofNat_toFin (f.x.extractLsb' 12 4))) (ofNat_toFin (f.x.extractLsb' 8 4))
  exact append_whole (append_part 5 h8 h5.symm) (ofNat_toFin _)

theorem shapeMatrix_fields {f : Fields} {i : Instr} {n : Nat} (hop : f.op.toNat = n) (h : shapeMatrix f n = some i) :
    i.fields = some f := by
  have hop' : BitVec.ofNat 10 n = f.op := by simp [← hop]
  unfold shapeMatrix at h
  split at h
  all_goals simp only [Option.bind_eq_some_iff, chk_eq, Option.ite_none_right_eq_some, Bool.and_eq_true, Bool.or_eq_true, beq_iff_eq, Option.some.injEq,
    reduceCtorEq] at h
  case h_1 =>
    obtain ⟨⟨⟨⟨hz, hb⟩, hm⟩, hx⟩, rfl⟩ := h
    exact congrArg some (Fields.eq_noTy hop' hz (Reg.num_ofNum _) (Reg.num_ofNum _) hb.symm hm.symm (ofNat32_low4 hx))
  case h_2 =>
    obtain ⟨⟨⟨⟨⟨⟨hz, hd⟩, ha⟩, hb⟩, hm⟩, hx⟩, rfl⟩ := h
    exact congrArg some (Fields.eq_noTy hop' hz hd.symm ha.symm hb.symm hm.symm (ofNat32_low4 hx))
  case h_3 =>
    obtain ⟨⟨⟨⟨⟨hz, hd⟩, hb⟩, hm⟩, hx⟩, rfl⟩ := h
    exact congrArg some (Fields.eq_noTy hop' hz hd.symm (Reg.num_ofNum _) hb.symm hm.symm (ofNat32_low4 hx))
  case h_4 =>
    obtain ⟨⟨⟨⟨⟨hz, hd⟩, hm⟩, hx4⟩, hx⟩, rfl⟩ := h
    exact congrArg some (Fields.eq_noTy hop' hz hd.symm (Reg.num_ofNum _) (Reg.num_ofNum _) (mBit_low hm) (append_whole (append_part 4 (append_part (b := 4) 8 (append_part (b := 1) 12 hx.symm (ofBool_getLsbD _ 12)) (ofNat_toFin _)) hx4.symm) (ofNat_toFin _)))
  case h_5 | h_6 | h_7 | h_8 =>
    obtain ⟨⟨⟨⟨⟨⟨hz, hd⟩, ha⟩, hb⟩, hm⟩, hx⟩, rfl⟩ := h
    exact congrArg some (encMx_mxo hop' hz hd ha hx hm.symm hb.symm)
  case h_9 =>
    obtain ⟨rm, hrm, ⟨⟨⟨⟨⟨hz, hd⟩, ha⟩, hm⟩, hx⟩, hb⟩, rfl⟩ := h
    exact congrArg some (encMx_mxo hop' hz hd ha hx (append_whole (append_part 3 hm.symm (ofBool_getLsbD _ 3)) (Rm.code_of_ofCode hrm)) (optNum_ite hb))
  case h_10 =>
    obtain ⟨rm, hrm, ⟨⟨⟨⟨⟨hz, hd⟩, ha⟩, hm⟩, hx⟩, hb⟩, rfl⟩ := h
    exact congrArg some (encMx_mxo hop' hz hd ha hx (append_whole hm.symm (Rm.code_of_ofCode hrm)) (optNum_ite hb))
  case h_11 =>
    obtain ⟨⟨⟨⟨⟨hz, ha⟩, hb⟩, hm⟩, hx⟩, rfl⟩ := h
    exact congrArg some (Fields.eq_noTy hop' hz (Reg.num_ofNum _) ha.symm hb.symm (mBit_low hm) (ofNat32_low2 hx))

theorem shapeNib_fields {f : Fields} {i : Instr} {n : Nat} (hop : f.op.toNat = n) (h : shapeNib f n = some i) :
    i.fields = some f := by
  have hop' : BitVec.ofNat 10 n = f.op := by simp [← hop]
  unfold shapeNib at h
  split at h
  all_goals simp only [Option.bind_eq_some_iff, chk_eq, Option.ite_none_right_eq_some, Bool.and_eq_true, Bool.or_eq_true, beq_iff_eq, Option.some.injEq,
    reduceCtorEq] at h
  case h_1 =>
    obtain ⟨⟨⟨⟨⟨⟨hz, hd⟩, hb⟩, hm⟩, hx2⟩, hx⟩, rfl⟩ := h
    exact congrArg some (Fields.eq_noTy hop' hz hd.symm (Reg.num_ofNum _) hb.symm hm.symm (append_whole (append_part 2 (append_part (b := 6) 8 (append_part (b := 1) 14 hx.symm (ofBool_getLsbD _ 14)) rfl) hx2.symm) (ofNat_toFin _)))
  case h_2 =>
    obtain ⟨⟨⟨⟨⟨⟨hz, hd⟩, ha⟩, hb⟩, hm⟩, hx⟩, rfl⟩ := h
    exact congrArg some (Fields.eq_noTy hop' hz hd.symm ha.symm hb.symm hm.symm (ofNat32_low2 hx))
  case h_3 =>
    obtain ⟨⟨⟨⟨⟨⟨hz, hd⟩, hb⟩, hm⟩, hx2⟩, hx⟩, rfl⟩ := h
    exact congrArg some (Fields.eq_noTy hop' hz hd.symm (Reg.num_ofNum _) hb.symm (mBit_low hm) (append_whole (append_part 2 (append_part (b := 4) 4 hx.symm (ofNat_toFin _)) hx2.symm) (ofNat_toFin _)))
  case h_4 =>
    obtain ⟨k, hk, ⟨⟨⟨⟨hz, hb⟩, hm⟩, hx⟩, ha⟩, rfl⟩ := h
    exact congrArg some (Fields.eq_noTy hop' hz (Reg.num_ofNum _) (optNum_ite ha) hb.symm (append_whole (append_part (b := 1) 2 hm.symm (ofBool_getLsbD _ 2)) (ofNat_of_finOf hk)) (ofNat32_low2 hx))
  case h_5 =>
    obtain ⟨t, ht, sc, hsc, o, ho, hz, rfl⟩ := h
    exact congrArg some (encMem_mem hop' ht hsc ho hz)
  case h_6 =>
    obtain ⟨⟨⟨⟨⟨⟨hz, hd⟩, hb⟩, hm⟩, hx⟩, ha⟩, rfl⟩ := h
    have ha' : optNum (if f.mx.getLsbD 0 = true then none else some (Reg.ofNum f.a)) = f.a := by
      rw [← ite_not]
      exact optNum_ite (ha.imp_left fun h => by simpa using h)
    have hbit : BitVec.ofBool (if f.mx.getLsbD 0 = true then none else some (Reg.ofNum f.a)).isNone = f.mx.extractLsb' 0 1 := by
      rw [← ofBool_getLsbD]
      cases f.mx.getLsbD 0 <;> rfl
    exact congrArg some (Fields.eq_noTy hop' hz hd.symm ha' hb.symm (append_whole hm.symm hbit) (ofNat32_low2 hx))

theorem Fields.eq_slice {f : Fields} {op d a b : BitVec 10} {imm : Bool} {x : Word} (hop : op = f.op) (hc : f.ctl = Ctl.zero) (hty : f.ty = 0)
    (hmx : f.mx = 0) (hcreg : (!f.creg) = true) (himm : imm = f.imm) (hd : d = f.d) (ha : a = f.a) (hb : b = f.b) (hx : x = f.x) :
    (⟨op, d, a, b, Ctl.zero, imm, false, 0, 0, x⟩ : Fields) = f :=
  Fields.eq_of hop hd ha hb hc.symm himm ((Bool.not_eq_true' _).mp hcreg).symm hmx.symm hty.symm hx

theorem shapeSlice_fields {f : Fields} {i : Instr} {n : Nat} (hop : f.op.toNat = n) (h : shapeSlice f n = some i) :
    i.fields = some f := by
  have hop' : BitVec.ofNat 10 n = f.op := by simp [← hop]
  unfold shapeSlice at h
  split at h
  all_goals simp only [Option.bind_eq_some_iff, chk_eq, Option.ite_none_right_eq_some, Bool.and_eq_true, beq_iff_eq, Option.some.injEq,
    reduceCtorEq] at h
  case h_1 =>
    obtain ⟨d, hd, h⟩ := h
    split at h
    case isTrue himm =>
      rw [Option.ite_none_right_eq_some, Option.some.injEq] at h
      obtain ⟨⟨⟨⟨⟨⟨hc, hty⟩, hmx⟩, hcreg⟩, ha⟩, hb⟩, rfl⟩ := h
      exact congrArg some (Fields.eq_slice hop' hc hty hmx hcreg himm.symm (xNum_of_xReg hd) ha.symm hb.symm rfl)
    case isFalse himm =>
      simp only [Option.bind_eq_some_iff, Option.ite_none_right_eq_some, Option.some.injEq] at h
      obtain ⟨a, ha, ⟨⟨⟨⟨⟨hc, hty⟩, hmx⟩, hcreg⟩, hb⟩, hx⟩, rfl⟩ := h
      exact congrArg some (Fields.eq_slice hop' hc hty hmx hcreg (Bool.eq_false_iff.2 himm).symm (xNum_of_xReg hd) (xNum_of_xReg ha) hb.symm hx.symm)
  case h_2 =>
    obtain ⟨d, hd, a, ha, h⟩ := h
    split at h
    case isTrue himm =>
      rw [Option.ite_none_right_eq_some, Option.some.injEq] at h
      obtain ⟨⟨⟨⟨⟨hc, hty⟩, hmx⟩, hcreg⟩, hb⟩, rfl⟩ := h
      exact congrArg some (Fields.eq_slice hop' hc hty hmx hcreg himm.symm (xNum_of_xReg hd) (xNum_of_xReg ha) hb.symm rfl)
    case isFalse himm =>
      simp only [Option.bind_eq_some_iff, Option.ite_none_right_eq_some, Option.some.injEq] at h
      obtain ⟨b, hb, ⟨⟨⟨⟨hc, hty⟩, hmx⟩, hcreg⟩, hx⟩, rfl⟩ := h
      exact congrArg some (Fields.eq_slice hop' hc hty hmx hcreg (Bool.eq_false_iff.2 himm).symm (xNum_of_xReg hd) (xNum_of_xReg ha) (xNum_of_xReg hb) hx.symm)
  case h_3 =>
    obtain ⟨a, ha, ⟨⟨⟨⟨⟨⟨hc, hty⟩, hmx⟩, hcreg⟩, himm⟩, hd⟩, hb⟩, rfl⟩ := h
    exact congrArg some (Fields.eq_slice hop' hc hty hmx hcreg ((Bool.not_eq_true' _).mp himm).symm hd.symm (xNum_of_xReg ha) hb.symm rfl)
  case h_4 | h_5 =>
    obtain ⟨q, hq, a, ha, b, hb, ⟨⟨⟨⟨hc, hty⟩, hmx⟩, hcreg⟩, himm⟩, rfl⟩ := h
    exact congrArg some (Fields.eq_slice hop' hc hty hmx hcreg ((Bool.not_eq_true' _).mp himm).symm (qNum_of_qReg hq) (xNum_of_xReg ha) (xNum_of_xReg hb) rfl)
  case h_6 =>
    obtain ⟨⟨⟨⟨⟨⟨⟨⟨⟨hc, hty⟩, hmx⟩, hcreg⟩, himm⟩, hd⟩, ha⟩, hb⟩, hx⟩, rfl⟩ := h
    exact congrArg some (Fields.eq_slice hop' hc hty hmx hcreg ((Bool.not_eq_true' _).mp himm).symm hd.symm ha.symm hb.symm hx.symm)

theorem shapeSystem_fields {f : Fields} {i : Instr} {n : Nat} (hop : f.op.toNat = n) (h : shapeSystem f n = some i) :
    i.fields = some f := by
  have hop' : BitVec.ofNat 10 n = f.op := by simp [← hop]
  unfold shapeSystem at h
  split at h
  all_goals simp only [Option.bind_eq_some_iff, chk_eq, Option.ite_none_right_eq_some, Bool.and_eq_true, Bool.or_eq_true, beq_iff_eq, Option.some.injEq,
    reduceCtorEq] at h
  case h_1 =>
    obtain ⟨⟨⟨⟨⟨hz, ha⟩, hb⟩, hm⟩, hx⟩, rfl⟩ := h
    exact congrArg some (Fields.eq_noTy hop' hz (Reg.num_ofNum _) ha.symm hb.symm hm.symm (setWidth_low hx))
  case h_2 =>
    obtain ⟨⟨⟨⟨⟨hz, hd⟩, hb⟩, hm⟩, hx⟩, rfl⟩ := h
    exact congrArg some (Fields.eq_noTy hop' hz hd.symm (Reg.num_ofNum _) hb.symm hm.symm (setWidth_low hx))
  case h_3 =>
    obtain ⟨k, hk, ⟨⟨⟨⟨⟨hz, hd⟩, hb⟩, hm⟩, hx⟩, ha⟩, rfl⟩ := h
    exact congrArg some (Fields.eq_noTy hop' hz hd.symm (optNum_ite ha) hb.symm (append_whole (append_part (b := 1) 2 hm.symm (ofBool_getLsbD _ 2)) (ofNat_of_finOf hk)) (setWidth_low hx))
  case h_4 =>
    obtain ⟨⟨⟨⟨⟨hz, hd⟩, hb⟩, hm⟩, hx⟩, rfl⟩ := h
    exact congrArg some (Fields.eq_noTy hop' hz hd.symm (Reg.num_ofNum _) hb.symm hm.symm (setWidth_low hx))
  case h_5 =>
    obtain ⟨⟨⟨⟨hz, hb⟩, hm⟩, hx⟩, rfl⟩ := h
    exact congrArg some (Fields.eq_noTy hop' hz (Reg.num_ofNum _) (Reg.num_ofNum _) hb.symm hm.symm (setWidth_low hx))
  case h_6 =>
    obtain ⟨⟨⟨⟨hz, hb⟩, hx⟩, hm⟩, rfl⟩ := h
    exact congrArg some (Fields.eq_noTy hop' hz (Reg.num_ofNum _) (Reg.num_ofNum _) hb.symm hm.symm hx.symm)
  case h_7 | h_8 =>
    obtain ⟨⟨⟨⟨⟨⟨hz, hd⟩, ha⟩, hb⟩, hx⟩, hm⟩, rfl⟩ := h
    exact congrArg some (Fields.eq_noTy hop' hz hd.symm ha.symm hb.symm hm.symm hx.symm)

/-- The instruction that a word's fields make has those fields. -/
theorem Fields.fields_of_shape {f : Fields} {i : Instr} (h : f.shape = some i) : i.fields = some f := by
  unfold Fields.shape at h
  dsimp only at h
  split at h
  · exact shapeInt_fields rfl h
  split at h
  · exact shapeFloat_fields rfl h
  split at h
  · exact shapeCross_fields rfl h
  split at h
  · exact shapeControl_fields rfl h
  split at h
  · exact shapeMem_fields rfl h
  split at h
  · exact shapeSync_fields rfl h
  split at h
  · exact shapeCopy_fields rfl h
  split at h
  · exact shapeMatrix_fields rfl h
  split at h
  · exact shapeNib_fields rfl h
  split at h
  · exact shapeSlice_fields rfl h
  · exact shapeSystem_fields rfl h

/-! ### The parts of a word -/

theorem Ctl.bits_ctlOfWord (w : Word96) : (ctlOfWord w).bits = w.extractLsb' 40 12 := by
  have h50 := append_part (x := w) 50 (ofBool_getLsbD w 51) (ofBool_getLsbD w 50)
  have h48 := append_part (x := w) 48 (append_part 49 h50 (ofBool_getLsbD w 49)) (ofBool_getLsbD w 48)
  have h43 := append_part (x := w) 43 (append_part 44 h48 (ofNat_toFin (w.extractLsb' 44 4))) (ofBool_getLsbD w 43)
  exact append_part 40 h43 (ofNat_toFin (w.extractLsb' 40 3))
theorem Fields.toWord_ofWord (w : Word96) : (Fields.ofWord w).toWord = w := by
  have hm : BitVec.ofBool (w.getLsbD 63) ++ BitVec.ofBool (w.getLsbD 62) ++ w.extractLsb' 56 6 ++ w.extractLsb' 52 4 = w.extractLsb' 52 12 :=
    append_part 52 (append_part 56 (append_part 62 (ofBool_getLsbD w 63) (ofBool_getLsbD w 62)) rfl) rfl
  have h40 := append_part (x := w) 40 (append_part (y := w.extractLsb' 64 32) 52 rfl hm) (Ctl.bits_ctlOfWord w)
  exact append_whole (append_part (b := 10) 10 (append_part (b := 10) 20 (append_part (b := 10) 30 h40 rfl) rfl) rfl) rfl
/-- What decodes has the fields of its word, and is well formed. -/
theorem decode_eq_ok {w : Word96} {i : Instr} (h : decode w = .ok i) : i.fields = some (Fields.ofWord w) ∧ i.wf = true := by
  unfold decode at h
  dsimp only at h
  split at h
  · cases h
  split at h
  · cases h
  unfold Fields.instr at h
  split at h
  · next j hj =>
    cases h
    split at hj
    · next j' hs =>
      split at hj
      · next hw =>
        cases hj
        exact ⟨Fields.fields_of_shape hs, hw⟩
      · cases hj
    · cases hj
  · cases h
/-! ### The obligations -/

/-- Settles O1: the decoder reads every word's fields back as the encoder wrote them, one lemma for each row of the encoding tables; an
event has no word. -/
theorem decodeOfEncode : Obligations.DecodeOfEncode := by
  intro i w hw h
  refine (?_ : Laws.RoundTrip.Statement i) hw w h
  cases i with
  | iadd => apply Laws.RoundTrip.iadd
  | isub => apply Laws.RoundTrip.isub
  | imul => apply Laws.RoundTrip.imul
  | imulhi => apply Laws.RoundTrip.imulhi
  | imad => apply Laws.RoundTrip.imad
  | idiv => apply Laws.RoundTrip.idiv
  | irem => apply Laws.RoundTrip.irem
  | imin => apply Laws.RoundTrip.imin
  | imax => apply Laws.RoundTrip.imax
  | iabs => apply Laws.RoundTrip.iabs
  | ineg => apply Laws.RoundTrip.ineg
  | land => apply Laws.RoundTrip.land
  | lor => apply Laws.RoundTrip.lor
  | lxor => apply Laws.RoundTrip.lxor
  | landn => apply Laws.RoundTrip.landn
  | lnot => apply Laws.RoundTrip.lnot
  | shl => apply Laws.RoundTrip.shl
  | shr => apply Laws.RoundTrip.shr
  | sar => apply Laws.RoundTrip.sar
  | rol => apply Laws.RoundTrip.rol
  | bfx => apply Laws.RoundTrip.bfx
  | bfi => apply Laws.RoundTrip.bfi
  | popc => apply Laws.RoundTrip.popc
  | clz => apply Laws.RoundTrip.clz
  | ctz => apply Laws.RoundTrip.ctz
  | brev => apply Laws.RoundTrip.brev
  | prmt => apply Laws.RoundTrip.prmt
  | iset => apply Laws.RoundTrip.iset
  | pset => apply Laws.RoundTrip.pset
  | sel => apply Laws.RoundTrip.sel
  | mov => apply Laws.RoundTrip.mov
  | movi => apply Laws.RoundTrip.movi
  | lea => apply Laws.RoundTrip.lea
  | fadd => apply Laws.RoundTrip.fadd
  | fsub => apply Laws.RoundTrip.fsub
  | fmul => apply Laws.RoundTrip.fmul
  | ffma => apply Laws.RoundTrip.ffma
  | fmin => apply Laws.RoundTrip.fmin
  | fmax => apply Laws.RoundTrip.fmax
  | fset => apply Laws.RoundTrip.fset
  | fclass => apply Laws.RoundTrip.fclass
  | frcp => apply Laws.RoundTrip.frcp
  | frsq => apply Laws.RoundTrip.frsq
  | fsqrt => apply Laws.RoundTrip.fsqrt
  | fdiv => apply Laws.RoundTrip.fdiv
  | fexp2 => apply Laws.RoundTrip.fexp2
  | flog2 => apply Laws.RoundTrip.flog2
  | fsin => apply Laws.RoundTrip.fsin
  | fcos => apply Laws.RoundTrip.fcos
  | ftanh => apply Laws.RoundTrip.ftanh
  | frnd => apply Laws.RoundTrip.frnd
  | cvt => apply Laws.RoundTrip.cvt
  | fdot2 => apply Laws.RoundTrip.fdot2
  | fdot4 => apply Laws.RoundTrip.fdot4
  | fscale => apply Laws.RoundTrip.fscale
  | fflags => apply Laws.RoundTrip.fflags
  | shfl => apply Laws.RoundTrip.shfl
  | vote => apply Laws.RoundTrip.vote
  | matchv => apply Laws.RoundTrip.matchv
  | redux => apply Laws.RoundTrip.redux
  | scan => apply Laws.RoundTrip.scan
  | lanemask => apply Laws.RoundTrip.lanemask
  | bra => apply Laws.RoundTrip.bra
  | brd => apply Laws.RoundTrip.brd
  | brx => apply Laws.RoundTrip.brx
  | call => apply Laws.RoundTrip.call
  | callx => apply Laws.RoundTrip.callx
  | ret => apply Laws.RoundTrip.ret
  | retTr => apply Laws.RoundTrip.retTr
  | exit => apply Laws.RoundTrip.exit
  | yield => apply Laws.RoundTrip.yield
  | nop => apply Laws.RoundTrip.nop
  | waitc => apply Laws.RoundTrip.waitc
  | ligon => apply Laws.RoundTrip.ligon
  | ligmap => apply Laws.RoundTrip.ligmap
  | ligoff => apply Laws.RoundTrip.ligoff
  | trap => apply Laws.RoundTrip.trap
  | svc => apply Laws.RoundTrip.svc
  | brkpt => apply Laws.RoundTrip.brkpt
  | ld => apply Laws.RoundTrip.ld
  | st => apply Laws.RoundTrip.st
  | ldq => apply Laws.RoundTrip.ldq
  | prf => apply Laws.RoundTrip.prf
  | atom => apply Laws.RoundTrip.atom
  | red => apply Laws.RoundTrip.red
  | cas => apply Laws.RoundTrip.cas
  | cas2 => apply Laws.RoundTrip.cas2
  | atomr => apply Laws.RoundTrip.atomr
  | fence => apply Laws.RoundTrip.fence
  | lease => apply Laws.RoundTrip.lease
  | cwb => apply Laws.RoundTrip.cwb
  | tkwait => apply Laws.RoundTrip.tkwait
  | tkstat => apply Laws.RoundTrip.tkstat
  | semset => apply Laws.RoundTrip.semset
  | seminc => apply Laws.RoundTrip.seminc
  | semwait => apply Laws.RoundTrip.semwait
  | barinit => apply Laws.RoundTrip.barinit
  | bararr => apply Laws.RoundTrip.bararr
  | barwait => apply Laws.RoundTrip.barwait
  | rbararr => apply Laws.RoundTrip.rbararr
  | cmset => apply Laws.RoundTrip.cmset
  | cmclr => apply Laws.RoundTrip.cmclr
  | cmwait => apply Laws.RoundTrip.cmwait
  | cpchain => apply Laws.RoundTrip.cpchain
  | tcopy => apply Laws.RoundTrip.tcopy
  | cpstat => apply Laws.RoundTrip.cpstat
  | cpabort => apply Laws.RoundTrip.cpabort
  | rwopen => apply Laws.RoundTrip.rwopen
  | rwclose => apply Laws.RoundTrip.rwclose
  | obres => apply Laws.RoundTrip.obres
  | obfree => apply Laws.RoundTrip.obfree
  | obset => apply Laws.RoundTrip.obset
  | thand => apply Laws.RoundTrip.thand
  | mma => apply Laws.RoundTrip.mma
  | mmas => apply Laws.RoundTrip.mmas
  | accz => apply Laws.RoundTrip.accz
  | accld => apply Laws.RoundTrip.accld
  | accdrain => apply Laws.RoundTrip.accdrain
  | accmx => apply Laws.RoundTrip.accmx
  | mxstat => apply Laws.RoundTrip.mxstat
  | nbind => apply Laws.RoundTrip.nbind
  | nunbind => apply Laws.RoundTrip.nunbind
  | ngrant => apply Laws.RoundTrip.ngrant
  | nstat => apply Laws.RoundTrip.nstat
  | nldc => apply Laws.RoundTrip.nldc
  | nabort => apply Laws.RoundTrip.nabort
  | amov => apply Laws.RoundTrip.amov
  | aadd => apply Laws.RoundTrip.aadd
  | aloop => apply Laws.RoundTrip.aloop
  | aldq => apply Laws.RoundTrip.aldq
  | astq => apply Laws.RoundTrip.astq
  | aend => apply Laws.RoundTrip.aend
  | csrr => apply Laws.RoundTrip.csrr
  | csrw => apply Laws.RoundTrip.csrw
  | tlbinv => apply Laws.RoundTrip.tlbinv
  | rmapinv => apply Laws.RoundTrip.rmapinv
  | ctxsave => apply Laws.RoundTrip.ctxsave
  | ctxload => apply Laws.RoundTrip.ctxload
  | dbghalt => apply Laws.RoundTrip.dbghalt
  | dbgres => apply Laws.RoundTrip.dbgres
  | _ => exact Laws.RoundTrip.of_event rfl

/-- Settles O2: the fields that a family's decoder accepts are those that the encoder writes for what it reads. -/
theorem encodeOfDecode : Obligations.EncodeOfDecode := by
  intro w i h
  obtain ⟨hf, hw⟩ := decode_eq_ok h
  rw [encode, hf, Option.map_some, Fields.toWord_ofWord]
  exact ⟨rfl, hw⟩

/-- Settles O3, by running the decoder on each word. -/
theorem workedWords : Obligations.WorkedWords := by
  refine ⟨?_, ?_, ?_, ?_, ?_, ?_, ?_⟩ <;> decide

/-! ### Headers (R50, R51) -/

/-- What a word that breaks nothing in R51 says of its parts: the reserved bits are 0, and a set field without its valid bit is 0. -/
theorem Header.ofWord_not_bad {w : Word96} {h : Header} (hw : Header.ofWord w = some h) (hb : h.bad = false) :
    w.extractLsb' 0 10 = 0#10 ∧ (w.getLsbD 30 = true ∨ w.extractLsb' 26 4 = 0#4) ∧ (w.getLsbD 35 = true ∨ w.extractLsb' 31 4 = 0#4)
      ∧ w.getLsbD 37 = false ∧ w.extractLsb' 50 46 = 0#46 := by
  obtain hop | hop := Decidable.em (w.extractLsb' 0 10 = 0#10)
  · obtain ⟨h', hh, hiff⟩ := Header.ofWord_bad_iff_breaksR51 hop
    obtain rfl : h' = h := Option.some.inj (hh.symm.trans hw)
    have hgood : ¬ breaksR51 w := fun hbr => by simp [hb] at hiff; exact hiff hbr
    simp only [breaksR51, not_or, not_and, Classical.not_not, Bool.not_eq_true] at hgood
    obtain ⟨-, -, -, ha, hb, h37, h50⟩ := hgood
    refine ⟨hop, ?_, ?_, h37, h50⟩
    · exact (Bool.eq_false_or_eq_true _).imp_right ha
    · exact (Bool.eq_false_or_eq_true _).imp_right hb
  · rw [Header.ofWord, if_neg hop] at hw
    cases hw

/-- A set field and its valid bit, from the bits `v` and `x` of a word. -/
theorem Header.set_parts {v : Bool} {x : BitVec 4} (h : v = true ∨ x = 0#4) :
    (if v = true then some x else none).isSome = v ∧ (if v = true then some x else none).getD 0#4 = x := by
  cases v
  · exact ⟨rfl, (h.resolve_left Bool.false_ne_true).symm⟩
  · exact ⟨rfl, rfl⟩

theorem Header.toWord_ofWord {w : Word96} {h : Header} (hw : Header.ofWord w = some h) (hb : h.bad = false) : h.toWord = w := by
  obtain ⟨hop, hA, hB, h37, h50⟩ := Header.ofWord_not_bad hw hb
  rw [Header.ofWord, if_pos hop] at hw
  cases hw
  obtain ⟨hvA, hfA⟩ := Header.set_parts hA
  obtain ⟨hvB, hfB⟩ := Header.set_parts hB
  simp only [Header.toWord, hvA, hfA, hvB, hfB]
  have h38 := append_part (x := w) (b := 12) 38 h50.symm rfl
  have h35 := append_part (x := w) 35 (append_part 36 (append_part 37 h38 (h37 ▸ ofBool_getLsbD w 37)) (ofBool_getLsbD w 36)) (ofBool_getLsbD w 35)
  have h26 := append_part (x := w) (b := 4) 26 (append_part 30 (append_part (b := 4) 31 h35 rfl) (ofBool_getLsbD w 30)) rfl
  have h10 := append_part (x := w) 10 (append_part (b := 12) 14 h26 rfl) (ofNat_toFin (w.extractLsb' 10 4))
  exact append_whole h10 hop.symm

theorem Header.ofWord_toWord {h : Header} (hlo : 1 ≤ h.len) (hhi : h.len ≤ 15) (hA : ∀ f ∈ h.setA, f.toNat < 12)
    (hB : ∀ f ∈ h.setB, f.toNat < 12) (hb : h.bad = false) : Header.ofWord h.toWord = some h := by
  obtain ⟨len, wait, setA, setB, meld, prio, bad⟩ := h
  simp only [Header.ofWord, Header.toWord]
  simp (disch := decide) only [ext_right, ext_left, ext_self, bit_right, bit_left, bit_bool, Nat.reduceSub]
  have hlen : (BitVec.ofNat 4 len).toNat = len := by
    rw [BitVec.toNat_ofNat]
    exact Nat.mod_eq_of_lt (by simpa using Nat.lt_succ_of_le hhi)
  simp only at hlo hA hB hb
  rw [if_pos trivial]
  cases setA <;> cases setB <;> simp_all <;> omega

/-- Settles O4: a word's header fields are its parts, put together again in the order of R50. -/
theorem headerRoundTrip : Obligations.HeaderRoundTrip :=
  ⟨fun _ _ hw hb => Header.toWord_ofWord hw hb, fun _ hlo hhi hA hB hb => Header.ofWord_toWord hlo hhi hA hB hb⟩
end Sys2Proof
end

section
/-! PROOFS. The integer and address family (05 R99-R112): the meaning of each word through the frame of R61, and the arithmetic of
the results. -/

namespace Sys2Proof
open Machine

/-! ### Words with one destination -/

/-- A word whose meaning is the frame of R61 around the lanes of `f` gives `f`. -/
theorem gives_of_exec {i : Instr} {s : State} {k : Ctx} {c : Ctl} {scalar : Bool} {opds : List Opd} {t : Ty} {d : Reg}
    {f g : Ctx → Nat → Int × Flags5} (he : exec i s = runInstr s c scalar false opds (perLaneOp t d g)) (hfg : g = f) :
    Gives i s k c scalar opds t d f :=
  fun h => hfg ▸ he.trans (runInstr_alu h t d g)

theorem int_min_eq (a b : Int) : min a b = if a ≤ b then a else b := Int.min_def a b
theorem int_max_eq (a b : Int) : max a b = if a ≤ b then b else a := Int.max_def a b
theorem int_natAbs_eq (a : Int) : (a.natAbs : Int) = if a < 0 then -a else a := by
  split <;> omega

theorem integerResults : Claim.IntegerResults := by
  intro s k o o2 o4 sat
  refine ⟨gives_of_exec rfl rfl, gives_of_exec rfl rfl, gives_of_exec rfl rfl, gives_of_exec rfl rfl, ?_, ?_, ?_,
    gives_of_exec rfl rfl, gives_of_exec rfl rfl⟩
  · exact gives_of_exec rfl (by simp only [int_min_eq])
  · exact gives_of_exec rfl (by simp only [int_max_eq])
  · exact gives_of_exec rfl (by simp only [int_natAbs_eq])

theorem clampRange : Claim.ClampRange := by
  intro t v lo hi _ hlo hhi
  have hs : (0 : Int) < 2 ^ (tyWidth t - 1) := Int.pow_pos (by decide)
  have hu : (0 : Int) < 2 ^ tyWidth t := Int.pow_pos (by decide)
  simp only [clampTy]
  cases h : isSignedTy t <;> simp only [h, if_true, if_false, Bool.false_eq_true] at hlo hhi ⊢ <;> omega

/-- Settles O15: the words by the frame of R61, the clamp by the order of its bounds. -/
theorem integerArithmetic : Obligations.IntegerArithmetic := ⟨integerResults, clampRange⟩

/-! ### Division (R103) -/

theorem iremRes_eq_tmod {a b : Int} (hb : b ≠ 0) : iremRes a b = a.tmod b := by
  have := Int.tmod_add_tdiv_mul a b
  simp only [iremRes, hb, if_false]
  omega

theorem tmod_neg_iff {a b : Int} (h : a.tmod b ≠ 0) : a.tmod b < 0 ↔ a < 0 := by
  by_cases ha : a < 0
  · have hn : (-a).tmod b = -a.tmod b := Int.neg_tmod ..
    have := Int.tmod_nonneg b (a := -a) (by omega)
    omega
  · have := Int.tmod_nonneg b (Int.not_lt.1 ha)
    omega

/-- The least signed number over -1 (R103). -/
theorem idivRes_least (t : Ty) (h : isSignedTy t = true) : iremRes (-(2 ^ (tyWidth t - 1))) (-1) = 0
    ∧ tyInt t (BitVec.ofInt (tyWidth t) (idivRes t (-(2 ^ (tyWidth t - 1))) (-1))).toNat = -(2 ^ (tyWidth t - 1)) := by
  cases t <;> first | (cases h; done) | decide

/-- Settles O12: the words by the frame of R61, the values by truncated division. -/
theorem integerDivision : Obligations.IntegerDivision := by
  refine ⟨fun s k o => ⟨gives_of_exec rfl rfl, gives_of_exec rfl rfl⟩, fun t a => by simp [idivRes, iremRes], fun t a b hb => ?_,
    idivRes_least⟩
  have hr := iremRes_eq_tmod (a := a) hb
  refine ⟨?_, ?_, fun h => ?_⟩
  · simp only [idivRes, iremRes, hb, if_false]
    omega
  · rw [hr, Int.natAbs_tmod]
    exact Nat.mod_lt _ (Int.natAbs_pos.mpr hb)
  · rw [hr] at h ⊢
    exact tmod_neg_iff h

/-! ### Logic, shifts, compares and moves (R104, R107-R112) -/

/-- Settles O13: each word through the frame of R61. -/
theorem logicAndShifts : Obligations.LogicAndShifts := fun _ _ _ _ =>
  ⟨gives_of_exec rfl rfl, gives_of_exec rfl rfl, gives_of_exec rfl rfl, gives_of_exec rfl rfl, gives_of_exec rfl rfl,
    gives_of_exec rfl rfl, gives_of_exec rfl rfl, gives_of_exec rfl rfl, gives_of_exec rfl rfl, gives_of_exec rfl rfl,
    gives_of_exec rfl rfl, gives_of_exec rfl rfl, gives_of_exec rfl rfl⟩

/-- Settles O14: each word through the frame of R61; the conditions and the selector are read as Booleans. -/
theorem compareSelectMove : Obligations.CompareSelectMove := by
  intro s k o o2 oR cond c op d a b sp sneg hi bsx t x scale
  refine ⟨?_, ?_, ?_, gives_of_exec rfl rfl, gives_of_exec rfl rfl, gives_of_exec rfl rfl⟩
  · refine gives_of_exec rfl (congrArg noFlags ?_)
    funext k l
    cases cond <;> simp [boolInt, condHolds]
  · refine gives_of_exec rfl (congrArg noFlags ?_)
    funext k l
    cases op <;> rfl
  · exact gives_of_exec rfl rfl

/-! ### Counts of bits (R104) -/

theorem testBit_eq_decide (a i : Nat) : a.testBit i = decide (a / 2 ^ i % 2 = 1) := Nat.testBit_eq_decide_div_mod_eq

theorem popcount_eq_length (w a : Nat) : popcount w a = ((List.range w).filter fun i => a.testBit i).length := by
  induction w generalizing a with
  | zero => rfl
  | succ w ih =>
    rw [popcount, ih, List.range_succ_eq_map, List.filter_cons, List.filter_map, Nat.testBit_zero]
    have e : ((fun i => a.testBit i) ∘ Nat.succ) = fun i => (a / 2).testBit i := by
      funext i
      simp [Nat.testBit_succ]
    rw [e]
    rcases Nat.mod_two_eq_zero_or_one a with h | h <;> simp [h]
    omega

theorem ctzRes_zero (w : Nat) : ctzRes w 0 = w := by
  induction w with
  | zero => rfl
  | succ w ih => simp [ctzRes, ih]; omega

theorem ctzRes_spec {w a : Nat} (ha : a < 2 ^ w) (h0 : a ≠ 0) :
    a.testBit (ctzRes w a) = true ∧ ∀ i, i < ctzRes w a → a.testBit i = false := by
  induction w generalizing a with
  | zero => simp at ha; omega
  | succ w ih =>
    rw [ctzRes]
    split
    · next h => simp [Nat.testBit_zero, h]
    · next h =>
      obtain ⟨hb, hl⟩ := ih (a := a / 2) (by rw [Nat.pow_succ] at ha; omega) (by omega)
      rw [Nat.add_comm 1]
      refine ⟨by simpa [Nat.testBit_succ] using hb, fun i hi => ?_⟩
      cases i with
      | zero => simp [Nat.testBit_zero, h]
      | succ i => simpa [Nat.testBit_succ] using hl i (by omega)

theorem clzRes_spec {w a : Nat} (ha : a < 2 ^ w) (h0 : a ≠ 0) :
    clzRes w a < w ∧ a.testBit (w - 1 - clzRes w a) = true ∧ ∀ i, w - 1 - clzRes w a < i → a.testBit i = false := by
  have hlt : a.log2 < w := (Nat.log2_lt h0).mpr ha
  have e : w - 1 - clzRes w a = a.log2 := by simp only [clzRes, h0, if_false]; omega
  rw [e]
  refine ⟨by simp only [clzRes, h0, if_false]; omega, Nat.testBit_log2 h0, fun i hi => ?_⟩
  exact Nat.testBit_lt_two_pow ((Nat.log2_lt h0).mp hi)

theorem brevRes_lt (w a : Nat) : brevRes w a < 2 ^ w := by
  induction w generalizing a with
  | zero => simp [brevRes]
  | succ w ih =>
    have := ih (a / 2)
    have h2 : a % 2 * 2 ^ w ≤ 1 * 2 ^ w := Nat.mul_le_mul_right _ (by omega)
    rw [brevRes, Nat.pow_succ]
    omega

theorem brevRes_testBit {w i : Nat} (a : Nat) (hi : i < w) : (brevRes w a).testBit (w - 1 - i) = a.testBit i := by
  induction w generalizing a i with
  | zero => omega
  | succ w ih =>
    rw [brevRes, Nat.mul_comm, Nat.testBit_two_pow_mul_add _ (brevRes_lt w _)]
    cases i with
    | zero => simp [Nat.testBit_zero, Nat.testBit_zero]
    | succ i =>
      rw [if_pos (by omega), show w + 1 - 1 - (i + 1) = w - 1 - i by omega, ih _ (by omega), Nat.testBit_succ]

theorem bitCounts : Claim.BitCounts := by
  intro w a ha
  refine ⟨popcount_eq_length w a, fun h => ?_, fun h => ?_, fun i hi => brevRes_testBit a hi, brevRes_lt w a⟩
  · exact h ▸ ⟨by simp [clzRes], ctzRes_zero w⟩
  · obtain ⟨h1, h2, h3⟩ := clzRes_spec ha h
    exact ⟨h1, h2, h3, ctzRes_spec ha h⟩

/-! ### Bit fields (R105, R106) -/

theorem fieldOf_eq (w amt : Nat) : fieldOf w amt =
    (amt % 256, if w ≤ amt % 256 then 0 else min (amt / 256 % 256) (w - amt % 256)) := by
  simp only [fieldOf]
  split <;> rfl

theorem bfxRes_unsigned {t : Ty} (a amt : Nat) (h : isSignedTy t = false) :
    bfxRes t a amt = ((a / 2 ^ (fieldOf (tyWidth t) amt).1 % 2 ^ (fieldOf (tyWidth t) amt).2 : Nat) : Int) := by
  simp [bfxRes, h]

/-- The bits of a number put together from what lies below, in and above a field. -/
theorem testBit_field (a c pos len i : Nat) :
    (c % 2 ^ pos + a % 2 ^ len * 2 ^ pos + c / 2 ^ (pos + len) * 2 ^ (pos + len)).testBit i =
      if pos ≤ i ∧ i < pos + len then a.testBit (i - pos) else c.testBit i := by
  have hp : c % 2 ^ pos < 2 ^ pos := Nat.mod_lt _ (Nat.two_pow_pos _)
  have hl : a % 2 ^ len < 2 ^ len := Nat.mod_lt _ (Nat.two_pow_pos _)
  have hlow : c % 2 ^ pos + a % 2 ^ len * 2 ^ pos < 2 ^ (pos + len) := by
    have : a % 2 ^ len * 2 ^ pos + 2 ^ pos ≤ 2 ^ len * 2 ^ pos := by
      rw [← Nat.succ_mul]; exact Nat.mul_le_mul_right _ hl
    rw [Nat.pow_add, Nat.mul_comm (2 ^ pos)]
    omega
  rw [Nat.add_comm _ (c / _ * _), Nat.mul_comm (c / _), Nat.testBit_two_pow_mul_add _ hlow,
    Nat.add_comm (c % _), Nat.mul_comm (a % _), Nat.testBit_two_pow_mul_add _ hp]
  by_cases h1 : i < pos
  · rw [if_pos (by omega), if_pos h1, if_neg (by omega), Nat.testBit_mod_two_pow]
    simp [h1]
  · by_cases h2 : i < pos + len
    · rw [if_pos h2, if_neg h1, if_pos (by omega), Nat.testBit_mod_two_pow]
      simp [show i - pos < len by omega]
    · rw [if_neg h2, if_neg (by omega), Nat.testBit_div_two_pow]
      congr 1; omega

theorem bfiRes_testBit (w a c amt i : Nat) : (bfiRes w a c amt).testBit i =
    if (fieldOf w amt).1 ≤ i ∧ i < (fieldOf w amt).1 + (fieldOf w amt).2 then a.testBit (i - (fieldOf w amt).1)
    else c.testBit i := by
  simp only [bfiRes]
  split
  · next h => rw [h, if_neg (by omega)]
  · exact testBit_field ..

/-- Bytes put together in order, each below 256. -/
theorem bytes_lt {f : Nat → Nat} (hf : ∀ i, f i < 256) (n : Nat) :
    (List.range n).foldl (fun r i => r + f i * 2 ^ (8 * i)) 0 < 2 ^ (8 * n) := by
  induction n with
  | zero => simp
  | succ n ih =>
    have h : f n * 2 ^ (8 * n) ≤ 255 * 2 ^ (8 * n) := Nat.mul_le_mul_right _ (Nat.le_of_lt_succ (hf n))
    rw [List.range_succ, List.foldl_append, List.foldl_cons, List.foldl_nil, Nat.mul_succ, Nat.pow_add]
    omega

/-- Byte `i` of bytes put together in order, each below 256. -/
theorem bytes_div_mod {f : Nat → Nat} (hf : ∀ i, f i < 256) {n i : Nat} (hi : i < n) :
    (List.range n).foldl (fun r i => r + f i * 2 ^ (8 * i)) 0 / 2 ^ (8 * i) % 256 = f i := by
  induction n with
  | zero => omega
  | succ n ih =>
    rw [List.range_succ, List.foldl_append, List.foldl_cons, List.foldl_nil]
    rcases Nat.lt_succ_iff_lt_or_eq.mp hi with h | rfl
    · obtain ⟨m, rfl⟩ : ∃ m, n = i + 1 + m := ⟨n - i - 1, by omega⟩
      have e : f (i + 1 + m) * 2 ^ (8 * (i + 1 + m)) = 2 ^ (8 * i) * (256 * (f (i + 1 + m) * 2 ^ (8 * m))) := by
        rw [show 8 * (i + 1 + m) = 8 * i + 8 + 8 * m by omega, Nat.pow_add, Nat.pow_add,
          show (256 : Nat) = 2 ^ 8 from rfl]
        ac_rfl
      rw [e, Nat.add_mul_div_left _ _ (Nat.two_pow_pos _), Nat.add_mul_mod_self_left, ih h]
    · rw [Nat.add_mul_div_right _ _ (Nat.two_pow_pos _), Nat.div_eq_of_lt (bytes_lt hf i), Nat.zero_add,
        Nat.mod_eq_of_lt (hf i)]

/-- The byte that PRMT's nibble `i` chooses. -/
def prmtByte (a c sel i : Nat) : Nat :=
  let nib := sel / 2 ^ (4 * i) % 16
  let b := (a % 2 ^ 32 + 2 ^ 32 * (c % 2 ^ 32)) / 2 ^ (8 * (nib % 8)) % 256
  if 8 ≤ nib then (if 128 ≤ b then 255 else 0) else b

theorem prmtByte_lt (a c sel i : Nat) : prmtByte a c sel i < 256 := by
  simp only [prmtByte]
  split
  · split <;> omega
  · exact Nat.mod_lt _ (by omega)

theorem prmtRes_byte (a c sel : Nat) {i : Nat} (hi : i < 4) : prmtRes a c sel / 2 ^ (8 * i) % 256 = prmtByte a c sel i :=
  bytes_div_mod (prmtByte_lt a c sel) hi

theorem bitFields : Claim.BitFields :=
  ⟨fun _ _ _ _ _ => ⟨gives_of_exec rfl rfl, gives_of_exec rfl rfl, gives_of_exec rfl rfl⟩,
    fun w amt => by rw [fieldOf_eq]; exact ⟨rfl, rfl⟩, fun _ a amt h => bfxRes_unsigned a amt h, bfiRes_testBit,
    fun a c sel _ hi => prmtRes_byte a c sel hi⟩

/-- Settles O16: the counts by induction on the width, the fields by the bits of a number in three parts. -/
theorem bitCountsAndFields : Obligations.BitCountsAndFields := ⟨bitCounts, bitFields⟩

end Sys2Proof
end

section
/-! PROOFS. The floating-point family (04 R66-R84, 06 R114-R128): the words through the frame of R61, the special cases by the kinds
of the operands, and rounding to an integer by division with remainder. -/

namespace Sys2Proof
open Machine

/-! ### The words -/

theorem boolInt_eq (b : Bool) : boolInt b = if b then 1 else 0 := rfl
theorem boolInt_bne (m : Nat) : boolInt (m != 0) = if m ≠ 0 then 1 else 0 := by
  by_cases h : m = 0 <;> simp [boolInt, h]

/-- Settles O17: each word through the frame of R61. -/
theorem floatArithmetic : Obligations.FloatArithmetic := by
  intro s k o o2 o4 rm fc x
  refine ⟨gives_of_exec rfl rfl, gives_of_exec rfl rfl, gives_of_exec rfl rfl, gives_of_exec rfl rfl, gives_of_exec rfl rfl,
    gives_of_exec rfl rfl, gives_of_exec rfl rfl, gives_of_exec rfl rfl, gives_of_exec rfl rfl, gives_of_exec rfl rfl,
    gives_of_exec rfl rfl, gives_of_exec rfl ?_⟩
  simp only [boolInt_bne]

theorem execCvt_of_ne_mx {o : Alu2} (h : o.ty ≠ .mx) (rm : Rm) (sat : Bool) (seed : Option Reg) (st : Ty) (desc : BitVec 20)
    (s : State) : exec (.cvt o rm sat seed st desc) s = runInstr s o.c (isScalar o.d) false
      ([cvtOpd o.d o.ty true (o.ty == .mx), cvtOpd o.a st false false] ++
        (seed.toList.map fun r => { r := r, adm := admSrc, noQ := is64 o.ty || is64 st }))
      (perLaneOp (if o.ty == .nf then .n32 else o.ty) o.d fun k l =>
        let v := cvtValue st desc (k.bits st o.a l)
        if isIntTy o.ty then
          if isIntTy st then (satTy sat o.ty (tyInt st (k.bits st o.a l)), 0#5) else cvtToInt o.ty rm v
        else cvtToFloat (if o.ty = .nf then nfdFmt (desc.extractLsb' 0 19) else fmtOf o.ty) rm sat v
          (if v.isSnan then flNV else 0#5) (match seed with | some r => BitVec.ofNat 32 (k.rd r l 32) | none => 1#32)) := by
  show execCvt o rm sat seed st desc s = _
  rw [execCvt, if_neg h] <;> rfl

theorem execCvt_of_eq_mx {o : Alu2} (h : o.ty = .mx) (rm : Rm) (sat : Bool) (seed : Option Reg) (st : Ty) (desc : BitVec 20)
    (s : State) : exec (.cvt o rm sat seed st desc) s = runInstr s o.c (isScalar o.d) false
      ([cvtOpd o.d o.ty true (o.ty == .mx), cvtOpd o.a st false false] ++
        (seed.toList.map fun r => { r := r, adm := admSrc, noQ := is64 o.ty || is64 st }))
      (fun k => .ok (cvtMx o rm seed st desc k)) := by
  show execCvt o rm sat seed st desc s = _
  rw [execCvt, if_pos h]

/-- Settles O19: each word through the frame of R61; CVT by whether it goes to `mx`. -/
theorem floatFunctions : Obligations.FloatFunctions := by
  intro s k o2 oR rm exact sat seed d st desc nfd c op b
  refine ⟨gives_of_exec rfl rfl, gives_of_exec rfl rfl, gives_of_exec rfl rfl, gives_of_exec rfl rfl, gives_of_exec rfl rfl,
    gives_of_exec rfl rfl, fun h => gives_of_exec (execCvt_of_ne_mx h ..) rfl, ?_, gives_of_exec rfl rfl, gives_of_exec rfl rfl,
    gives_of_exec rfl rfl, ?_⟩
  · intro k hk hm
    exact (execCvt_of_eq_mx hm ..).trans (runInstr_ready hk _)
  · intro k hk _
    refine (show exec (.fflags c op d b) s = execFflags c op d b s from rfl).trans ((runInstr_ready hk _).trans ?_)
    cases op <;> cases d <;> rfl

/-! ### Special cases (R68, R84, R116, R120) -/

theorem nan_operand (x y : Val) (rd : Bool) (h : (x.isNan || y.isNan) = true) :
    let f := if x.isSnan || y.isSnan then flNV else 0#5
    x.add y rd = (.nan false, f) ∧ x.mul y = (.nan false, f) ∧ x.div y = (.nan false, f) := by
  cases x <;> cases y <;> simp [Val.isNan, Val.isSnan, Val.add, Val.mul, Val.div] at h ⊢

theorem add_opposite {n : Nat} (e : Int) (a rd : Bool) (hn : 0 < n) :
    (Val.fin a (.dy n e)).add (.fin (!a) (.dy n e)) rd = (.zero rd, 0#5) := by
  have hz : (Mag.dy n e).isZero = false := by simp [Mag.dy, Mag.isZero]; omega
  have hs : dyAt a (.dy n e) e + dyAt (!a) (.dy n e) e = 0 := by cases a <;> simp [dyAt, Mag.dy, Int.add_right_neg, Int.add_left_neg]
  have hk : (if (Mag.dy n e).exp ≤ (Mag.dy n e).exp then (Mag.dy n e).exp else (Mag.dy n e).exp) = e := by simp [Mag.dy]
  simp only [Val.add, hz, Bool.and_self, Bool.false_eq_true, if_false, hk, hs]
  rfl

theorem has_inf {ps : List (Val × Flags5)} {n : Bool} (h : Val.inf n ∈ ps.map (·.1)) :
    (ps.any fun p => p.1 == .inf n) = true := by
  obtain ⟨p, hp, he⟩ := List.mem_map.mp h
  exact List.any_eq_true.mpr ⟨p, hp, by simp [he]⟩

theorem or_and_right_self (a b : Flags5) : (a ||| b) &&& b = b := by
  ext i
  simp +contextual

/-- Settles O18: by the kinds of the operands. -/
theorem floatSpecialCases : Obligations.FloatSpecialCases := by
  refine ⟨nan_operand, fun a rd => ?_, fun a b m h => ?_, fun a b m z hm hz => ?_, fun n e a rd hn => add_opposite e a rd hn,
    fun a b rd => ?_, fun m z hm hz => ?_, fun ps h1 h2 => ?_⟩
  · cases a <;> simp [Val.add]
  · simp [Val.mul, h]
  · simp [Val.div, hm, hz]
  · simp [Val.add, Val.zero, Mag.dy, Mag.isZero]
  · have h1 : (Mag.dy 1 0).isZero = false := rfl
    simp [fsqrtRes, frsqRes, frcpRes, Val.div, hm, hz, h1]
  · simp only [exactSum, has_inf h1, has_inf h2, Bool.and_self, if_true, true_and]
    exact or_and_right_self _ _

/-! ### Rounding to an integer (R79, R81, R122) -/

/-- A dyadic magnitude at `j` fraction bits. -/
theorem scaled_dy (n k j : Nat) : (Mag.dy n (-(k : Int))).scaled j = (n * 2 ^ j / 2 ^ k, n * 2 ^ j % 2 ^ k != 0) := by
  simp only [Mag.scaled, Mag.dy, Bool.false_eq_true, if_false, Nat.one_mul]
  by_cases h : k ≤ j
  · obtain ⟨i, rfl⟩ := Nat.exists_eq_add_of_le h
    have e : (-(k : Int) + ((k + i : Nat) : Int)) = i := by omega
    have hm : n * 2 ^ (k + i) = n * 2 ^ i * 2 ^ k := by rw [Nat.add_comm, Nat.pow_add, Nat.mul_assoc]
    rw [e, if_pos (by omega), if_pos (by omega), hm, Nat.mul_div_cancel _ (Nat.two_pow_pos _), Nat.mul_mod_left]
    simp [Nat.mod_one]
  · obtain ⟨i, rfl⟩ := Nat.exists_eq_add_of_le (Nat.le_of_not_le h)
    have e : (-((j + i : Nat) : Int) + (j : Int)) = -(i : Int) := by omega
    have hd : n * 2 ^ j / (2 ^ i * 2 ^ j) = n / 2 ^ i := Nat.mul_div_mul_right _ _ (Nat.two_pow_pos _)
    have hr : (n * 2 ^ j % (2 ^ i * 2 ^ j) != 0) = (n % 2 ^ i != 0) := by
      rw [Nat.mul_mod_mul_right, Bool.eq_iff_iff, bne_iff_ne, bne_iff_ne, Ne, Ne, Nat.mul_eq_zero,
        or_iff_left (Nat.ne_of_gt (Nat.two_pow_pos j))]
    rw [e, if_neg (by omega), if_neg (by omega), Nat.add_comm j i, Nat.pow_add, hd, hr]
    simp

/-- The rounding of R79 to an integer, from what lies at no, one and 32 fraction bits. -/
theorem roundInt_dy (neg : Bool) (n k : Nat) (rm : Rm) (g : Word) :
    roundInt neg (.dy n (-(k : Int))) rm g =
      (if (match rm with
          | .rz => false
          | .ru => n % 2 ^ k != 0 && !neg
          | .rd => n % 2 ^ k != 0 && neg
          | .rne => n * 2 / 2 ^ k % 2 == 1 && (n * 2 % 2 ^ k != 0 || n / 2 ^ k % 2 == 1)
          | .sr => decide (2 ^ 32 ≤ n * 2 ^ 32 / 2 ^ k % 2 ^ 32 + g.toNat)) then n / 2 ^ k + 1 else n / 2 ^ k,
        n % 2 ^ k != 0) := by
  have h0 := scaled_dy n k 0
  have h1 := scaled_dy n k 1
  have h32 := scaled_dy n k 32
  simp only [Nat.pow_zero, Nat.mul_one, Nat.pow_one] at h0 h1
  simp only [roundInt, Fmt.roundMag, Fmt.grid, beq_self_eq_true, if_true, Int.neg_zero, Int.sub_zero, Bool.true_or] at *
  erw [h0, h1, h32] <;> cases rm <;> rfl

theorem decide_ne_zero (r : Nat) : (r != 0) = decide (r ≠ 0) := by
  by_cases h : r = 0 <;> simp [h]

/-- The bit below the units, and what lies under it: the remainder against half a unit. -/
theorem half_bit (n k : Nat) : n * 2 / 2 ^ k % 2 = 1 ↔ 2 ^ k ≤ 2 * (n % 2 ^ k) := by
  have hp : 0 < 2 ^ k := Nat.two_pow_pos _
  have hr : n % 2 ^ k < 2 ^ k := Nat.mod_lt _ hp
  have e : n * 2 = 2 * (n % 2 ^ k) + 2 ^ k * (2 * (n / 2 ^ k)) := by
    have := Nat.mod_add_div n (2 ^ k)
    rw [Nat.mul_left_comm]
    omega
  rw [e, Nat.add_mul_div_left _ _ hp]
  by_cases h : 2 ^ k ≤ 2 * (n % 2 ^ k)
  · rw [show 2 * (n % 2 ^ k) / 2 ^ k = 1 from Nat.div_eq_of_lt_le (by omega) (by omega)]
    omega
  · rw [Nat.div_eq_of_lt (by omega)]
    omega

theorem half_rest {n k : Nat} (h : 2 ^ k ≤ 2 * (n % 2 ^ k)) : n * 2 % 2 ^ k ≠ 0 ↔ 2 ^ k < 2 * (n % 2 ^ k) := by
  have hr : n % 2 ^ k < 2 ^ k := Nat.mod_lt _ (Nat.two_pow_pos _)
  have e : n * 2 % 2 ^ k = 2 * (n % 2 ^ k) - 2 ^ k := by
    rw [Nat.mul_comm, ← Nat.mul_mod_mod, Nat.mod_eq_sub_mod h, Nat.mod_eq_of_lt (by omega)]
  omega

/-- The 32 bits below the units are those of the remainder. -/
theorem fraction_bits (n k : Nat) : n * 2 ^ 32 / 2 ^ k % 2 ^ 32 = n % 2 ^ k * 2 ^ 32 / 2 ^ k := by
  have hp : 0 < 2 ^ k := Nat.two_pow_pos _
  have hr : n % 2 ^ k * 2 ^ 32 / 2 ^ k < 2 ^ 32 :=
    (Nat.div_lt_iff_lt_mul hp).mpr (by rw [Nat.mul_comm]; exact Nat.mul_lt_mul_of_pos_left (Nat.mod_lt _ hp) (Nat.two_pow_pos _))
  have e : n * 2 ^ 32 = n % 2 ^ k * 2 ^ 32 + 2 ^ k * (2 ^ 32 * (n / 2 ^ k)) := by
    have := Nat.mod_add_div n (2 ^ k)
    calc n * 2 ^ 32 = (n % 2 ^ k + 2 ^ k * (n / 2 ^ k)) * 2 ^ 32 := by rw [this]
      _ = _ := by rw [Nat.add_mul, Nat.mul_assoc (2 ^ k), Nat.mul_comm (n / 2 ^ k)]
  rw [e, Nat.add_mul_div_left _ _ hp, Nat.add_mul_mod_self_left, Nat.mod_eq_of_lt hr]

theorem integralRounding : Claim.IntegralRounding := by
  intro neg n k g
  simp only [roundInt_dy, decide_ne_zero, fraction_bits]
  refine ⟨rfl, ?_, ?_, ?_, ?_⟩
  · cases neg <;> simp
  · cases neg <;> simp
  · have hb := half_bit n k
    have hr := half_rest (n := n) (k := k)
    congr 1
    by_cases h : 2 ^ k ≤ 2 * (n % 2 ^ k)
    · have hr := hr h
      simp only [hb.mpr h, Bool.and_eq_true, beq_iff_eq, Bool.or_eq_true, decide_eq_true_eq, true_and, hr]
      exact ite_congr (propext (by omega)) (fun _ => rfl) fun _ => rfl
    · have h1 : ¬ n * 2 / 2 ^ k % 2 = 1 := mt hb.mp h
      rw [if_neg (by simp [h1]), if_neg (by omega)]
  · simp

/-- The codes of E4M3 that are no NaN. -/
theorem e4m3_roundTrip : ∀ c < 256, c % 128 ≠ 127 → ∀ rm ∈ [Rm.rne, .rz, .ru, .rd, .sr],
    ((nfdFmt 0x50739#19).round ((nfdFmt 0x50739#19).value c) rm 1#32).code = c
    ∧ ((nfdFmt 0x50739#19).round ((nfdFmt 0x50739#19).value c) rm 1#32).flags = 0#5 := by
  decide +kernel

/-- Settles O20: division with remainder, and the 254 codes of E4M3. -/
theorem rounding : Obligations.Rounding :=
  ⟨integralRounding, e4m3_roundTrip, by decide +kernel, by decide +kernel⟩

end Sys2Proof
end

section
/-! PROOFS. The cross-lane family (06 R129-R135): each word through the frame of R61 and the poison condition of R130. -/

namespace Sys2Proof
open Machine

/-! ### The frame of a cross-lane word -/

/-- A cross-lane word whose results depend on no poisoned A comes to what its body answers. -/
theorem crossOp_ready {s : State} {c : Ctl} {opds : List Opd} {k : Ctx} (h : Ready s c false false opds k) (a : Option Opd)
    (bad : Ctx → Mask → Mask) (body : Ctx → Res)
    (hb : ∀ o, a = some o → bad (k.popped opds) (regPoison (k.popped opds) o) = 0#32) :
    crossOp s c opds a bad body = wordDone k c (body (k.popped opds)) := by
  rw [crossOp, runInstr_ready h]
  cases a with
  | none => rfl
  | some o => simp only [hb o rfl]; rfl

/-- One whose results depend on a poisoned A in the lanes of `m` traps with them. -/
theorem crossOp_traps {i : Instr} {s : State} {c : Ctl} {opds : List Opd} {k : Ctx} (h : Ready s c false false opds k) {o : Opd}
    {bad : Ctx → Mask → Mask} {body : Ctx → Res} {m : Mask} (he : exec i s = crossOp s c opds (some o) bad body)
    (hb : bad (k.popped opds) (regPoison (k.popped opds) o) = m) (hm : m ≠ 0#32) : Traps i s k c (k.cause 0x08 m 0#64) := by
  have hm : (m != 0#32) = true := by simpa using hm
  rw [Traps, he, crossOp, runInstr_ready h]
  simp only [hb, hm, if_true, wordDone, wordCause, popped_cause h.issuer, (ctxOf_spec h.issuer).1]
  rfl

/-- A cross-lane word with its poison condition `H` and the lanes of its body runs. -/
theorem crossOp_runs {i : Instr} {s : State} {c : Ctl} {opds : List Opd} {a : Option Opd} {bad : Ctx → Mask → Mask}
    {body : Ctx → Res} {H : Ctx → Prop} {t : Ctx → State} (he : exec i s = crossOp s c opds a bad body)
    (hb : ∀ k o, H k → a = some o → bad k (regPoison k o) = 0#32) (ht : ∀ k, body k = .ok (t k)) :
    Runs i s c false false opds H t := fun k hk hH => by
  rw [he, crossOp_ready hk a bad body (fun o => hb _ o hH), ht]
  rfl

theorem Machine.Runs.imp {i : Instr} {s : State} {c : Ctl} {scalar long : Bool} {opds : List Opd} {H H' : Ctx → Prop}
    {t : Ctx → State} (h : Runs i s c scalar long opds H t) (hi : ∀ k, H' k → H k) : Runs i s c scalar long opds H' t :=
  fun k hk h' => h k hk (hi _ h')

/-- Of MATCH and REDUX every active lane depends on every A (R130). -/
theorem allBad_eq_zero {pm act : Mask} (h : pm = 0#32 ∨ act = 0#32) : (if pm != 0#32 then act else 0#32) = 0#32 := by
  rcases h with h | h <;> simp [h]
theorem allBad_eq_act {pm act : Mask} (h : pm ≠ 0#32) : (if pm != 0#32 then act else 0#32) = act := by simp [h]

/-! ### Results -/

theorem boolInt_beq (a b : Mask) : boolInt (a == b) = if a = b then 1 else 0 := by
  by_cases h : a = b <;> simp [boolInt, h]
theorem boolInt_bne_zero (a : Mask) : boolInt (a != 0#32) = if a ≠ 0#32 then 1 else 0 := by
  by_cases h : a = 0#32 <;> simp [boolInt, h]
theorem boolInt_beq_or (a b : Mask) : boolInt (a == b || a == 0#32) = if a = b ∨ a = 0#32 then 1 else 0 := by
  by_cases h : a = b <;> by_cases h0 : a = 0#32 <;> simp [boolInt, h, h0]

theorem matchAll_eq (all : Bool) (m act : Mask) :
    (if all then (if m == act then (m.toNat : Int) else 0) else (m.toNat : Int)) =
      if all = true ∧ m ≠ act then 0 else (m.toNat : Int) := by
  cases all <;> by_cases h : m = act <;> simp [h]

theorem lanemaskOf_eq (lm : LmKind) (l : Nat) : lanemaskOf lm l = maskOf fun j => match lm with
    | .eq => decide (j = l) | .lt => decide (j < l) | .le => decide (j ≤ l)
    | .gt => decide (j > l) | .ge => decide (j ≥ l) := by
  cases lm <;> rfl

theorem exec_shfl (o : Alu3) (m : ShMode) (seg : Fin 6) (s : State) :
    exec (.shfl o m seg) s = crossOp s o.c (opdsShfl o) (some (opdX o.a o.ty))
      (fun k pm => ((opdAmt o.b o.ty).map fun x => { x with pois := false }).foldl (fun m x => m ||| regPoison k x)
        (maskOf fun l => laneIn k.act l && laneIn pm (shflFrom m (2 ^ seg.val) l (k.amt o.b l) k.act)))
      (perLaneOp o.ty o.d (noFlags fun k l => k.src o.ty o.a (shflFrom m (2 ^ seg.val) l (k.amt o.b l) k.act))) := rfl
theorem exec_vote (c : Ctl) (op : VoteOp) (d a : Reg) (s : State) : exec (.vote c op d a) s = execVote c op d a s := rfl
theorem exec_matchv (o : Alu2) (all : Bool) (s : State) : 
    exec (.matchv o all) s = crossOp s o.c [{ opdXD o.d .n32 false false with noQ := is64 o.ty }, opdX o.a o.ty]
      (some (opdX o.a o.ty)) (fun k pm => if pm != 0#32 then k.act else 0#32)
      (perLaneOp .n32 o.d (noFlags fun k l =>
        let m := maskOf fun j => laneIn k.act j && k.bits o.ty o.a j == k.bits o.ty o.a l
        if all then (if m == k.act then (m.toNat : Int) else 0) else (m.toNat : Int))) := rfl
theorem exec_redux (o : Alu2) (op : RedOp) (rm : Rm) (s : State) : 
    exec (.redux o op rm) s = crossOp s o.c [opdXD o.d o.ty false true, opdX o.a o.ty] (some (opdX o.a o.ty))
      (fun k pm => if pm != 0#32 then k.act else 0#32)
      (fun k =>
        let r := redTree o.ty op rm ((List.range 32).map fun p => if laneIn k.act p then some (k.bits o.ty o.a p) else none)
        perLaneOp o.ty o.d (fun _ _ => (((r.1.getD 0 : Nat) : Int), r.2)) k) := rfl
theorem exec_scan (o : Alu2) (op : RedOp) (excl : Bool) (rm : Rm) (s : State) :
    exec (.scan o op excl rm) s = crossOp s o.c [opdXD o.d o.ty false true, opdX o.a o.ty] (some (opdX o.a o.ty))
      (fun k pm => match (lanesOf pm).head? with
        | some j => maskOf fun l => laneIn k.act l && (if excl then j < l else j ≤ l)
        | none => 0#32)
      (fun k =>
        let outs := scanGo o.ty op excl rm ((lanesOf k.act).map fun l => (l, k.bits o.ty o.a l)) (none, 0#5)
        perLaneOp o.ty o.d (fun _ l => match outs.find? (·.1 == l) with
          | some (_, v, f) => ((v : Int), f)
          | none => (0, 0#5)) k) := rfl
theorem exec_lanemask (c : Ctl) (lm : LmKind) (d : Reg) (s : State) : exec (.lanemask c lm d) s = execLanemask c lm d s := rfl

/-- The lanes that SHFL would give a poisoned value, from the poison of A. -/
theorem shflBad_eq (o : Alu3) (m : ShMode) (seg : Fin 6) (k : Ctx) :
    ((opdAmt o.b o.ty).map fun x => { x with pois := false }).foldl (fun m x => m ||| regPoison k x)
      (maskOf fun l => laneIn k.act l
        && laneIn (regPoison k (opdX o.a o.ty)) (shflFrom m (2 ^ seg.val) l (k.amt o.b l) k.act)) = shflBad o m seg k := by
  rw [shflBad]
theorem scanBad_eq (o : Alu2) (excl : Bool) (k : Ctx) :
    (match (lanesOf (regPoison k (opdX o.a o.ty))).head? with
      | some j => maskOf fun l => laneIn k.act l && (if excl then j < l else j ≤ l)
      | none => 0#32) = scanBad o excl k := by
  rw [scanBad] <;> rfl

theorem shfl_runs (s : State) (o : Alu3) (m : ShMode) (seg : Fin 6) :
    Runs (.shfl o m seg) s o.c false false (opdsShfl o) (fun k => shflBad o m seg k = 0#32)
      (laneResults o.ty o.d (noFlags fun k l => k.src o.ty o.a (shflFrom m (2 ^ seg.val) l (k.amt o.b l) k.act))) :=
  fun k hk hH => by
    rw [exec_shfl, crossOp_ready hk]
    · rfl
    · intro x hx
      cases hx
      rw [← hH, ← shflBad_eq]
theorem vote_runs (s : State) (c : Ctl) (op : VoteOp) (d a : Reg) :
    Runs (.vote c op d a) s c false false [opdXD d .n32 (op != .ballot) true, { r := a, adm := admPred }] (fun _ => True)
      (laneResults .n32 d (noFlags fun k _ =>
        let m := maskOf fun l => laneIn k.act l && k.rd a l 1 == 1
        match op with
        | .all => if m = k.act then 1 else 0
        | .any => if m ≠ 0#32 then 1 else 0
        | .uni => if m = k.act ∨ m = 0#32 then 1 else 0
        | .ballot => (m.toNat : Int))) :=
  fun k hk _ => by
    rw [exec_vote, execVote, crossOp_ready hk _ _ _ (fun x hx => by cases hx)]
    cases op
    · simp only [boolInt_beq]; rfl
    · simp only [boolInt_bne_zero]; rfl
    · simp only [boolInt_beq_or]; rfl
    · rfl
theorem matchv_runs (s : State) (o : Alu2) (all : Bool) :
    Runs (.matchv o all) s o.c false false [{ opdXD o.d .n32 false false with noQ := is64 o.ty }, opdX o.a o.ty]
      (fun k => regPoison k (opdX o.a o.ty) = 0#32 ∨ k.act = 0#32)
      (laneResults .n32 o.d (noFlags fun k l =>
        let m := maskOf fun j => laneIn k.act j && k.bits o.ty o.a j == k.bits o.ty o.a l
        if all = true ∧ m ≠ k.act then 0 else (m.toNat : Int))) :=
  fun k hk hH => by
    rw [exec_matchv, crossOp_ready hk _ _ _ (fun x hx => by cases hx; exact allBad_eq_zero hH)]
    simp only [matchAll_eq]
    rfl
theorem redux_runs (s : State) (o : Alu2) (ro : RedOp) (rm : Rm) :
    Runs (.redux o ro rm) s o.c false false [opdXD o.d o.ty false true, opdX o.a o.ty]
      (fun k => regPoison k (opdX o.a o.ty) = 0#32 ∨ k.act = 0#32)
      (fun k =>
        let r := redTree o.ty ro rm ((List.range 32).map fun p => if laneIn k.act p then some (k.bits o.ty o.a p) else none)
        laneResults o.ty o.d (fun _ _ => (((r.1.getD 0 : Nat) : Int), r.2)) k) :=
  fun k hk hH => by
    rw [exec_redux, crossOp_ready hk _ _ _ (fun x hx => by cases hx; exact allBad_eq_zero hH)]
    rfl
theorem scan_runs (s : State) (o : Alu2) (ro : RedOp) (excl : Bool) (rm : Rm) :
    Runs (.scan o ro excl rm) s o.c false false [opdXD o.d o.ty false true, opdX o.a o.ty] (fun k => scanBad o excl k = 0#32)
      (fun k =>
        let outs := scanGo o.ty ro excl rm ((lanesOf k.act).map fun l => (l, k.bits o.ty o.a l)) (none, 0#5)
        laneResults o.ty o.d (fun _ l => match outs.find? (·.1 == l) with
          | some (_, v, f) => ((v : Int), f)
          | none => (0, 0#5)) k) :=
  fun k hk hH => by
    rw [exec_scan, crossOp_ready hk]
    · rfl
    · intro x hx
      cases hx
      exact (scanBad_eq ..).trans hH
theorem lanemask_runs (s : State) (c : Ctl) (lm : LmKind) (d : Reg) :
    Runs (.lanemask c lm d) s c false false [opdXD d .n32 false false] (fun _ => True)
      (laneResults .n32 d (noFlags fun _ l => ((maskOf fun j => match lm with
        | .eq => decide (j = l) | .lt => decide (j < l) | .le => decide (j ≤ l)
        | .gt => decide (j > l) | .ge => decide (j ≥ l)).toNat : Int))) :=
  fun k hk _ => by
    rw [exec_lanemask, execLanemask, crossOp_ready hk _ _ _ (fun x hx => by cases hx)]
    simp only [lanemaskOf_eq]
    rfl

theorem crossLaneResults : Claim.CrossLaneResults := fun s o o2 c m seg op d a all excl ro rm lm =>
  ⟨shfl_runs s o m seg, vote_runs s c op d a, (matchv_runs s o2 all).imp fun _ => .inl,
    (redux_runs s o2 ro rm).imp fun _ => .inl, scan_runs s o2 ro excl rm,
    lanemask_runs s c lm d⟩

theorem shfl_traps {s : State} {k : Ctx} {o : Alu3} {m : ShMode} {seg : Fin 6} (hr : Ready s o.c false false (opdsShfl o) k)
    (hb : shflBad o m seg (k.popped (opdsShfl o)) ≠ 0#32) :
    Traps (.shfl o m seg) s k o.c (k.cause 0x08 (shflBad o m seg (k.popped (opdsShfl o))) 0#64) := by
  have h := exec_shfl o m seg s
  refine crossOp_traps hr h ?_ hb
  rw [← shflBad_eq]

theorem crossLanePoison : Claim.CrossLanePoison := by
  intro s k o o2 m seg all excl ro rm
  have hm := exec_matchv o2 all s
  have hx := exec_redux o2 ro rm s
  have hs := exec_scan o2 ro excl rm s
  refine ⟨shfl_traps, fun hr hp ha => crossOp_traps hr hm ((allBad_eq_act hp).trans (popped_act k _)) ha,
    fun hr hp ha => crossOp_traps hr hx ((allBad_eq_act hp).trans (popped_act k _)) ha, fun hr hb => crossOp_traps hr hs ?_ hb⟩
  rw [← scanBad_eq]

/-- Settles O23: results and traps through the frame of a cross-lane word. -/
theorem crossLane : Obligations.CrossLane := ⟨crossLaneResults, crossLanePoison⟩

end Sys2Proof
end

section
/-! PROOFS. Destinations (04 R65-R67, 05 R41-R45, R101): which words have one destination, what the write of it leaves in the
core, the frame of every such word, and the flags under a scalar destination. -/

namespace Sys2Proof
open Machine

/-! ### The words with one destination -/

/-- A word with one destination, where it runs, gives its D the lanes of some `f`. -/
theorem exec_aluShape {i : Instr} {a : AluShape} {s : State} {k : Ctx} (h : aluShape i = some a)
    (hr : Ready s a.c a.scalar false a.opds k) (hc : a.clean (k.popped a.opds) = true) :
    ∃ f, exec i s = .next (aluNext k a.c a.opds a.ty a.d f) := by
  cases i
  case shfl o m seg =>
    obtain rfl := Option.some.inj h
    exact ⟨_, shfl_runs s o m seg k hr (by simpa using hc)⟩
  case vote c op d r =>
    obtain rfl := Option.some.inj h
    exact ⟨_, vote_runs s c op d r k hr trivial⟩
  case matchv o all =>
    obtain rfl := Option.some.inj h
    exact ⟨_, matchv_runs s o all k hr (by simpa using hc)⟩
  case redux o op rm =>
    obtain rfl := Option.some.inj h
    exact ⟨_, redux_runs s o op rm k hr (by simpa using hc)⟩
  case scan o op excl rm =>
    obtain rfl := Option.some.inj h
    exact ⟨_, scan_runs s o op excl rm k hr (by simpa using hc)⟩
  case lanemask c lm d =>
    obtain rfl := Option.some.inj h
    exact ⟨_, lanemask_runs s c lm d k hr trivial⟩
  case cvt o rm sat seed st desc =>
    by_cases hm : o.ty = .mx
    · simp [aluShape, hm] at h
    · simp only [aluShape, hm, if_false] at h
      obtain rfl := Option.some.inj h
      exact ⟨_, (execCvt_of_ne_mx hm ..).trans (runInstr_alu hr _ _ _)⟩
  all_goals
    simp only [aluShape, Option.some.injEq, reduceCtorEq] at h
  all_goals
    subst h
    exact ⟨_, runInstr_alu hr _ _ _⟩

/-! ### The lanes that a word writes -/

theorem mem_lanesOf {m : Mask} {l : Nat} : l ∈ lanesOf m ↔ l < 32 ∧ laneIn m l = true := by
  simp [lanesOf]
theorem nodup_lanesOf (m : Mask) : (lanesOf m).Nodup := List.nodup_range.filter _
theorem lanesOf_zero : lanesOf 0#32 = [] := by decide
theorem lanesOf_ne_nil {m : Mask} (h : m ≠ 0#32) : lanesOf m ≠ [] := by
  intro e
  refine h (BitVec.eq_of_getLsbD_eq fun l hl => ?_)
  have : l ∉ lanesOf m := by simp [e]
  simpa [mem_lanesOf, hl, laneIn] using this

/-- The values that `laneResults` writes: one for each working lane. -/
theorem laneVals_vals (d : Reg) (f : Ctx → Nat → Int × Flags5) (k : Ctx) :
    ((laneVals d f k).map fun e => (e.1, e.2.1)) = (workLanes k d).map fun l => (l, (f k l).1) := by
  simp [laneVals, Function.comp_def]

theorem find?_map_lane {α : Type} (ls : List Nat) (g : Nat → α) (l : Nat) :
    (ls.map fun l => (l, g l)).find? (·.1 == l) = if l ∈ ls then some (l, g l) else none := by
  induction ls with
  | nil => rfl
  | cons x xs ih =>
    rw [List.map_cons, List.find?_cons]
    by_cases hx : x = l
    · simp [hx]
    · simp only [beq_eq_false_iff_ne.mpr hx, ih, List.mem_cons, Ne.symm hx, false_or]

/-! ### The core after a word with one destination -/

/-- D written in the working lanes, before the flags and the end of the word. -/
def aluWritten (k : Ctx) (t : Ty) (d : Reg) (f : Ctx → Nat → Int × Flags5) : State :=
  writeLanes k.s k.ci k.wi t d ((workLanes k d).map fun l => (l, (f k l).1))

theorem aluNext_eq (k : Ctx) (c : Ctl) (opds : List Opd) (t : Ty) (d : Reg) (f : Ctx → Nat → Int × Flags5) :
    aluNext k c opds t d f = wordEnd ((aluWritten (k.popped opds) t d f).modWarp k.ci k.wi
      (·.raise d k.e.mask (laneVals d f (k.popped opds)))) k.ci k.wi c := by
  simp only [aluNext, laneResults, laneVals_vals, popped_ci, popped_wi, popped_e, aluWritten]

theorem aluNext_core {k : Ctx} (c : Ctl) (opds : List Opd) (t : Ty) (d : Reg) (f : Ctx → Nat → Int × Flags5) (hc : k.ci < 384) :
    let u := (aluWritten (k.popped opds) t d f).core k.ci
    { (aluNext k c opds t d f).core k.ci with warps := u.warps, issues := u.issues, pHist := u.pHist } = u := by
  intro u
  rw [aluNext_eq]
  have h := (wordEnd_core ((aluWritten (k.popped opds) t d f).modWarp k.ci k.wi
      (·.raise d k.e.mask (laneVals d f (k.popped opds)))) k.wi c hc).1
  rw [State.modWarp, State.core_modCore_same _ _ hc] at h
  have := congrArg (fun x : Core => ({ x with warps := u.warps } : Core)) h
  exact this

/-- The issuing warp as the word finds it after its pops. -/
theorem popped_warp {s : State} {c : Ctl} {k : Ctx} (h : ctxOf s c = some k) (opds : List Opd) :
    (k.popped opds).s.warp? k.ci k.wi = some k.w := by
  obtain ⟨hs, -, -, -, hw, -⟩ := ctxOf_spec h
  rw [popped_warp?, hs, hw]

/-- A vector D: each slot of the register file and its poison. -/
theorem aluNext_v {s : State} {c : Ctl} {k : Ctx} (h : ctxOf s c = some k) (opds : List Opd) (t : Ty) (n : Fin 768)
    (f : Ctx → Nat → Int × Flags5) (j : Nat) :
    let p := k.popped opds
    let one := if j % 32 ∈ lanesOf k.act then (p.s.core k.ci).vput k.w t (j % 32) n.val (f p (j % 32)).1 false else p.s.core k.ci
    let u := (aluNext k c opds t (.v n) f).core k.ci
    tabGet 0#32 u.rf j = tabGet 0#32 one.rf j ∧ setHas u.rfPois j = setHas one.rfPois j := by
  intro p one u
  obtain ⟨-, -, hc, -⟩ := ctxOf_spec h
  have hu := aluNext_core c opds t (.v n) f hc
  have hw := writeLanes_v (s := p.s) (ci := k.ci) (wi := k.wi) t n ((lanesOf k.act).map fun l => (l, (f p l).1)) hc
    (popped_warp h opds) (List.forall_mem_map.mpr fun l hl => (mem_lanesOf.mp hl).1) (by simpa [Function.comp_def] using nodup_lanesOf _) j
  rw [find?_map_lane] at hw
  have hl : workLanes p (.v n) = lanesOf k.act := by simp [workLanes, p]
  have e : aluWritten p t (.v n) f = writeLanes p.s k.ci k.wi t (.v n) ((lanesOf k.act).map fun l => (l, (f p l).1)) := by
    simp only [aluWritten, hl]; simp [p]
  have hrf : u.rf = ((aluWritten p t (.v n) f).core k.ci).rf := by rw [← congrArg Core.rf hu]
  have hpo : u.rfPois = ((aluWritten p t (.v n) f).core k.ci).rfPois := by rw [← congrArg Core.rfPois hu]
  rw [hrf, hpo, e]
  by_cases hj : j % 32 ∈ lanesOf k.act
  · simp only [one, hj, if_true] at hw ⊢
    exact ⟨hw.1, hw.2.1⟩
  · simp only [one, hj, if_false] at hw ⊢
    exact ⟨hw.1, hw.2.1⟩

theorem extend32_eq {t : Ty} (h : tyWidth t ≠ 64) (v : Int) : extend32 t v =
    if isSignedTy t then (BitVec.ofInt (tyWidth t) v).signExtend 32 else (BitVec.ofInt (tyWidth t) v).setWidth 32 := by
  cases t <;> simp [tyWidth, isSignedTy, extend32] at h ⊢

theorem halves_append (b : BitVec 64) : b.extractLsb' 32 32 ++ b.setWidth 32 = b := by
  ext i hi
  simp only [BitVec.getElem_append, BitVec.getElem_setWidth, BitVec.getElem_extractLsb']
  split
  · exact BitVec.getLsbD_eq_getElem hi
  · rw [show 32 + (i - 32) = i by omega, BitVec.getLsbD_eq_getElem hi]

/-- Settles O21: each slot of the register file holds what the write of its own lane leaves. -/
theorem vectorDestination : Obligations.VectorDestination := by
  intro s c k opds t n f l hk hl ha u v
  have hin : l ∈ lanesOf k.act := mem_lanesOf.mpr ⟨hl, ha⟩
  have at_ := fun m => aluNext_v hk opds t n f (k.w.slot l m)
  simp only [Warp.slot_mod _ _ hl, hin, if_true] at at_
  refine ⟨fun h64 => ?_, fun h64 hne => ?_⟩
  · obtain ⟨h1, h2⟩ := at_ n.val
    rw [Core.vput_rf, if_neg h64, if_pos rfl, extend32_eq h64] at h1
    rw [Core.vput_pois, if_pos (.inl rfl)] at h2
    exact ⟨h1, h2⟩
  · obtain ⟨h1, h2⟩ := at_ n.val
    obtain ⟨h3, h4⟩ := at_ (n.val + 1)
    rw [Core.vput_rf, if_pos h64, if_neg (Ne.symm hne), if_pos rfl] at h1
    rw [Core.vput_rf, if_pos h64, if_pos rfl] at h3
    rw [Core.vput_pois, if_pos (.inl rfl)] at h2
    rw [Core.vput_pois, if_pos (.inr ⟨h64, rfl⟩)] at h4
    refine ⟨?_, h2, h4⟩
    rw [h1, h3, halves_append]

/-! ### The frame -/

theorem Machine.Core.warp?_congr {k k' : Core} (h : k.warps = k'.warps) (j : Nat) : k.warp? j = k'.warp? j := by
  simp [Core.warp?, h]

/-- The writes of a word touch, of their core, only what D can name. -/
theorem writeLanes_core_frame (s : State) {ci : Nat} (wi : Nat) (t : Ty) (d : Reg) (vals : List (Nat × Int)) (hc : ci < 384) :
    let k := s.core ci
    { (writeLanes s ci wi t d vals).core ci with rf := k.rf, rfPois := k.rfPois, warps := k.warps, wgs := k.wgs, seq := k.seq } = k := by
  intro k
  unfold writeLanes
  split
  · rfl
  · next w hw =>
    split
    · next n =>
      rw [State.core_modCore_same _ _ hc]
      have := congrArg (fun x : Core => ({ x with warps := k.warps, wgs := k.wgs, seq := k.seq } : Core))
        (foldVput_rest w t n.val false vals k)
      exact this
    · split
      · rfl
      · rw [State.modWarp, State.core_modCore_same _ _ hc]; rfl
    · rw [State.modWarp, State.core_modCore_same _ _ hc]; rfl
    · split
      · rfl
      · rw [State.core_modCore_same _ _ hc]; rfl
    · rfl

/-- What a write of D leaves of the warp `w` when it has become `w'`. -/
structure WarpKept (d : Reg) (w w' : Warp) : Prop where
  rest : { w' with sregs := w.sregs, sPois := w.sPois, preds := w.preds } = w
  scalars : ∀ n : Fin 64, d ≠ .s n → w'.sreg n.val = w.sreg n.val ∧ w'.sPois.getLsbD n.val = w.sPois.getLsbD n.val
  preds : ∀ n : Fin 8, d ≠ .p n → w'.pred n.val = w.pred n.val

theorem WarpKept.refl (d : Reg) (w : Warp) : WarpKept d w w := ⟨rfl, fun _ _ => ⟨rfl, rfl⟩, fun _ _ => rfl⟩

theorem sPois_sput (w : Warp) {n m : Nat} (v : Dword) (h : m ≠ n) :
    (w.sput n v false).sPois.getLsbD m = w.sPois.getLsbD m := by
  by_cases hm : m < 64
  · simp [Warp.sput, hm]
    omega
  · simp [BitVec.getLsbD_of_ge _ _ (Nat.le_of_not_lt hm)]

theorem WarpKept.sput (w : Warp) (n : Fin 64) (v : Dword) : WarpKept (.s n) w (w.sput n.val v false) where
  rest := rfl
  scalars m hm := by
    have hne : m.val ≠ n.val := fun e => hm (congrArg Reg.s (Fin.ext e.symm))
    exact ⟨by rw [Warp.sreg_sput _ _ _ _ n.isLt, if_neg hne], sPois_sput w v hne⟩
  preds _ _ := rfl

theorem WarpKept.pput (w : Warp) (n : Fin 8) (lanes v : Mask) : WarpKept (.p n) w (w.pput n.val lanes v) := by
  by_cases h0 : n.val = 0
  · rw [h0, Warp.pput_zero]
    exact .refl _ _
  · refine ⟨?_, fun m _ => ?_, fun m hm => ?_⟩
    · simp [Warp.pput, h0]
    · simp [Warp.pput, h0, Warp.sreg]
    · have hne : m.val ≠ n.val := fun e => hm (congrArg Reg.p (Fin.ext e.symm))
      rw [Warp.pred_pput _ _ _ _ h0 n.isLt, if_neg hne]

theorem writeLanes_warp {s : State} {ci wi : Nat} {w : Warp} (t : Ty) (d : Reg) (vals : List (Nat × Int)) (hc : ci < 384)
    (hw : s.warp? ci wi = some w) :
    ∃ w', (writeLanes s ci wi t d vals).warp? ci wi = some w' ∧ WarpKept d w w' := by
  unfold writeLanes
  rw [hw]
  simp only
  split
  · next n =>
    refine ⟨w, ?_, .refl _ _⟩
    have hr := congrArg Core.warps (foldVput_rest w t n.val false vals (s.core ci))
    rw [State.warp?, State.core_modCore_same _ _ hc, ← hw]
    exact Core.warp?_congr hr wi
  · split
    · exact ⟨w, hw, .refl _ _⟩
    · exact ⟨_, by rw [State.warp?_modWarp_same _ _ _ hc, hw]; rfl, .sput _ _ _⟩
  · exact ⟨_, by rw [State.warp?_modWarp_same _ _ _ hc, hw]; rfl, .pput _ _ _ _⟩
  · split
    · exact ⟨w, hw, .refl _ _⟩
    · refine ⟨w, ?_, .refl _ _⟩
      rw [State.warp?, State.core_modCore_same _ _ hc, ← hw]
      rfl
  · exact ⟨w, hw, .refl _ _⟩

theorem writeLanes_warp_ne (s : State) {ci wi j : Nat} (t : Ty) (d : Reg) (vals : List (Nat × Int)) (hc : ci < 384)
    (hj : j ≠ wi) : (writeLanes s ci wi t d vals).warp? ci j = s.warp? ci j := by
  unfold writeLanes
  split
  · rfl
  · next w hw =>
    split
    · next n =>
      have hr := congrArg Core.warps (foldVput_rest w t n.val false vals (s.core ci))
      rw [State.warp?, State.core_modCore_same _ _ hc]
      exact Core.warp?_congr hr j
    · split
      · rfl
      · rw [State.warp?, State.modWarp, State.core_modCore_same _ _ hc, Core.warp?_modWarp_ne _ _ hj]; rfl
    · rw [State.warp?, State.modWarp, State.core_modCore_same _ _ hc, Core.warp?_modWarp_ne _ _ hj]; rfl
    · split
      · rfl
      · rw [State.warp?, State.core_modCore_same _ _ hc]; rfl
    · rfl

/-- Only a vector D writes the register file. -/
theorem writeLanes_rf (s : State) {ci : Nat} (wi : Nat) (t : Ty) (d : Reg) (vals : List (Nat × Int)) (hc : ci < 384)
    (hd : ∀ n, d ≠ .v n) : ((writeLanes s ci wi t d vals).core ci).rf = (s.core ci).rf
      ∧ ((writeLanes s ci wi t d vals).core ci).rfPois = (s.core ci).rfPois := by
  unfold writeLanes
  split
  · exact ⟨rfl, rfl⟩
  · split
    · next n => exact absurd rfl (hd n)
    · split
      · exact ⟨rfl, rfl⟩
      · rw [State.modWarp, State.core_modCore_same _ _ hc]; exact ⟨rfl, rfl⟩
    · rw [State.modWarp, State.core_modCore_same _ _ hc]; exact ⟨rfl, rfl⟩
    · split
      · exact ⟨rfl, rfl⟩
      · rw [State.core_modCore_same _ _ hc]; exact ⟨rfl, rfl⟩
    · exact ⟨rfl, rfl⟩

/-! ### Queues -/

theorem map_updFirst {α β : Type} (p : α → Bool) {f : α → α} {g : α → β} (h : ∀ x, g (f x) = g x) (l : List α) :
    (updFirst p f l).map g = l.map g := by
  induction l with
  | nil => rfl
  | cons x t ih =>
    simp only [updFirst]
    split <;> simp [h, ih]

theorem find?_updFirst_map {α β : Type} (p q : α → Bool) {f : α → α} {g : α → β} (hq : ∀ x, q (f x) = q x)
    (h : ∀ x, g (f x) = g x) (l : List α) : ((updFirst p f l).find? q).map g = (l.find? q).map g := by
  induction l with
  | nil => rfl
  | cons x t ih =>
    simp only [updFirst]
    split
    · simp only [List.find?_cons, hq]
      split <;> simp [h]
    · simp only [List.find?_cons]
      split <;> simp [ih]

/-- A workgroup without its queues. -/
def noQueues (g : Wg) : Wg := { g with queues := default }

/-- What a change of the queues of some workgroups leaves: everything else of them, and the queues that `keep` names. -/
structure WgsKept (keep : Fin 24 → Prop) (k k' : Core) : Prop where
  rest : k'.wgs.map noQueues = k.wgs.map noQueues
  queues : ∀ (id : Nat) (q : Fin 24), keep q → (k'.wg? id).map (·.queues[q]) = (k.wg? id).map (·.queues[q])

theorem WgsKept.of_eq {keep : Fin 24 → Prop} {k k' : Core} (h : k'.wgs = k.wgs) : WgsKept keep k k' :=
  ⟨by rw [h], fun _ _ _ => by simp only [Core.wg?, h]⟩
theorem WgsKept.trans {keep : Fin 24 → Prop} {k k' k'' : Core} (h : WgsKept keep k k') (h' : WgsKept keep k' k'') :
    WgsKept keep k k'' :=
  ⟨h'.rest.trans h.rest, fun id q hq => (h'.queues id q hq).trans (h.queues id q hq)⟩
theorem WgsKept.imp {keep keep' : Fin 24 → Prop} {k k' : Core} (h : WgsKept keep k k') (hi : ∀ q, keep' q → keep q) :
    WgsKept keep' k k' := ⟨h.rest, fun id q hq => h.queues id q (hi q hq)⟩
theorem WgsKept.modWg (k : Core) (id : Nat) {keep : Fin 24 → Prop} {f : Wg → Vector (List QEntry) 24}
    (hf : ∀ g q, keep q → (f g)[q] = g.queues[q]) : WgsKept keep k (k.modWg id fun g => { g with queues := f g }) where
  rest := by
    have h := map_updFirst (fun g : Wg => g.id == id) (f := fun g : Wg => { g with queues := f g }) (g := noQueues) (fun _ => rfl) k.wgs
    exact h
  queues id' q hq := by
    have h := find?_updFirst_map (fun g : Wg => g.id == id) (fun g : Wg => g.id == id') (f := fun g : Wg => { g with queues := f g })
      (g := fun g : Wg => g.queues[q]) (fun _ => rfl) (fun g => hf g q hq) k.wgs
    exact h

theorem foldl_setIfInBounds_ne {α : Type} {n : Nat} (ps : List Nat) (g : Vector α n → Nat → α) (q : Fin n) (h : q.val ∉ ps) :
    ∀ v : Vector α n, (ps.foldl (fun v i => v.setIfInBounds i (g v i)) v)[q] = v[q] := by
  induction ps with
  | nil => intro v; rfl
  | cons p ps ih =>
    intro v
    simp only [List.mem_cons, not_or] at h
    rw [List.foldl_cons, ih h.2]
    exact Vector.getElem_setIfInBounds_ne q.isLt (Ne.symm h.1)

theorem popped_wgs (k : Ctx) (opds : List Opd) (hc : k.ci < 384) :
    WgsKept (fun q => q.val ∉ popsOf opds) (k.s.core k.ci) ((k.popped opds).s.core k.ci) := by
  cases hg : k.g <;> simp only [Ctx.popped, Ctx.at_, hg]
  · exact .of_eq rfl
  · rw [State.core_modCore_same _ _ hc]
    exact .modWg _ _ fun g q hq => foldl_setIfInBounds_ne _ (fun v i => ((v[i]?).getD []).drop 1) q hq g.queues

theorem push_wgs (k : Core) (wg : Nat) (n : Fin 24) (e : QEntry) : WgsKept (fun q => q ≠ n) k (k.push wg n.val e) := by
  refine .modWg _ _ fun g q hq => Vector.getElem_setIfInBounds_ne q.isLt fun h => hq (Fin.ext h.symm)

theorem writeLanes_wgs (s : State) {ci : Nat} (wi : Nat) (t : Ty) (d : Reg) (vals : List (Nat × Int)) (hc : ci < 384) :
    WgsKept (fun q => d ≠ .q q) (s.core ci) ((writeLanes s ci wi t d vals).core ci) := by
  unfold writeLanes
  split
  · exact .of_eq rfl
  · next w hw =>
    split
    · next n =>
      rw [State.core_modCore_same _ _ hc]
      have hr := congrArg Core.wgs (foldVput_rest w t n.val false vals (s.core ci))
      exact .of_eq hr
    · split
      · exact .of_eq rfl
      · rw [State.modWarp, State.core_modCore_same _ _ hc]; exact .of_eq rfl
    · rw [State.modWarp, State.core_modCore_same _ _ hc]; exact .of_eq rfl
    · next n =>
      split
      · exact .of_eq rfl
      · next g _ =>
        rw [State.core_modCore_same _ _ hc]
        have h := push_wgs (s.core ci) g n ⟨(s.core ci).seq, Vector.ofFn fun l => match vals.find? (·.1 == l.val) with
          | some e => extend32 t e.2
          | none => 0#32, 0#32, 0xFFFFFFFF#32⟩
        exact ⟨h.rest, fun id q hq => h.queues id q fun e => hq (e ▸ rfl)⟩
    · exact .of_eq rfl

/-! ### Flags and the end of a word -/

/-- The flags of some lanes, raised one after the other: only those lanes change. -/
theorem foldOrFlags {α : Type} (lane : α → Nat) (fl : α → Flags5) (es : List α) : ∀ w : Warp,
    { es.foldl (fun w e => w.orFlags (lane e) (fl e)) w with fflags := w.fflags } = w
      ∧ ∀ l, (∀ e ∈ es, lane e ≠ l) → (es.foldl (fun w e => w.orFlags (lane e) (fl e)) w).fflags[l]? = w.fflags[l]? := by
  induction es with
  | nil => exact fun w => ⟨rfl, fun _ _ => rfl⟩
  | cons e es ih =>
    intro w
    obtain ⟨hr, hl⟩ := ih (w.orFlags (lane e) (fl e))
    refine ⟨?_, fun l h => ?_⟩
    · have := congrArg (fun x : Warp => ({ x with fflags := w.fflags } : Warp)) hr
      exact this
    · rw [List.foldl_cons, hl l fun x hx => h x (.tail _ hx)]
      exact Vector.getElem?_setIfInBounds_ne (h e (.head _))

theorem raise_kept (w : Warp) (k : Ctx) (d : Reg) (f : Ctx → Nat → Int × Flags5) :
    let w' := w.raise d k.e.mask (laneVals d f k)
    { w' with fflags := w.fflags } = w
      ∧ ∀ l, laneIn (if isScalar d then k.e.mask else k.act) l = false → w'.fflags[l]? = w.fflags[l]? := by
  intro w'
  by_cases hd : isScalar d = true
  · simp only [w', Warp.raise, hd, if_true]
    split
    · next e _ _ =>
      obtain ⟨hr, hl⟩ := foldOrFlags id (fun _ => e.2.2) (lanesOf k.e.mask) w
      refine ⟨hr, fun l h => hl l fun x hx hxl => ?_⟩
      rw [← hxl, id, (mem_lanesOf.mp hx).2] at h
      cases h
    · exact ⟨rfl, fun _ _ => rfl⟩
  · have hw : workLanes k d = lanesOf k.act := by cases d <;> first | rfl | exact absurd rfl hd
    simp only [w', Warp.raise, hd, if_false, Bool.false_eq_true]
    obtain ⟨hr, hl⟩ := foldOrFlags (fun e : Nat × Int × Flags5 => e.1) (fun e => e.2.2) (laneVals d f k) w
    refine ⟨hr, fun l h => hl l fun x hx hxl => ?_⟩
    obtain ⟨y, hy, rfl⟩ := List.mem_map.mp hx
    rw [hw] at hy
    rw [← hxl, (mem_lanesOf.mp hy).2] at h
    cases h

theorem headTo_rest (w : Warp) (pc : Dword) :
    { w.headTo pc with front := w.front, unread := w.unread, spilled := w.spilled, job := w.job } = w := by
  unfold Warp.headTo
  split
  · rfl
  · simp only
    split
    · rfl
    · split <;> rfl

/-- The end of a word moves the place of its warp and nothing else. -/
theorem advance_rest (w : Warp) : { w.advance with
    front := w.front, clause := w.clause, lig := w.lig, spilled := w.spilled, job := w.job, resume := w.resume,
    unread := w.unread } = w := by
  unfold Warp.advance
  split
  · split
    · rfl
    · unfold Warp.fall
      split
      · rfl
      · have := fun pc => congrArg
          (fun x : Warp => ({ x with clause := w.clause, lig := w.lig, resume := w.resume, unread := w.unread } : Warp))
          (headTo_rest ({ w with clause := none, resume := none, lig := w.lig.boundary } : Warp) pc)
        exact this _
  · rfl

/-- A warp but for its registers, its flags and its place, which are those of `w0`. -/
def Machine.Warp.keepPlace (w0 w : Warp) : Warp := { w with
  sregs := w0.sregs, sPois := w0.sPois, preds := w0.preds, fflags := w0.fflags, front := w0.front,
  clause := w0.clause, lig := w0.lig, stall := w0.stall, last := w0.last, yieldHold := w0.yieldHold,
  spilled := w0.spilled, job := w0.job, resume := w0.resume, unread := w0.unread }

/-- The marks of an issue and the next place leave a warp's registers and flags alone. -/
theorem advance_marks (w : Warp) (a : Bool) (b : Option Nat) (y : Option (List Nat)) :
    let x := ({ w with stall := a, last := b, yieldHold := y } : Warp).advance
    { x with
        front := w.front, clause := w.clause, lig := w.lig, spilled := w.spilled, job := w.job, resume := w.resume,
        unread := w.unread, stall := w.stall, last := w.last, yieldHold := w.yieldHold } = w
      ∧ x.sregs = w.sregs ∧ x.sPois = w.sPois ∧ x.preds = w.preds ∧ x.fflags = w.fflags := by
  intro x
  have h := advance_rest ({ w with stall := a, last := b, yieldHold := y } : Warp)
  have h0 := congrArg (fun z : Warp => ({ z with stall := w.stall, last := w.last, yieldHold := w.yieldHold } : Warp)) h
  have h1 := congrArg Warp.sregs h
  have h2 := congrArg Warp.sPois h
  have h3 := congrArg Warp.preds h
  have h4 := congrArg Warp.fflags h
  exact ⟨h0, h1, h2, h3, h4⟩

/-! ### The frame, part by part -/

theorem core_frame_trans {a b c : Core}
    (h1 : { a with rf := b.rf, rfPois := b.rfPois, warps := b.warps, wgs := b.wgs, seq := b.seq } = b)
    (h2 : { b with wgs := c.wgs } = c) :
    { a with rf := c.rf, rfPois := c.rfPois, warps := c.warps, wgs := c.wgs, seq := c.seq } = c := by
  have e1 := congrArg (fun x : Core => ({ x with
    rf := c.rf, rfPois := c.rfPois, warps := c.warps, wgs := c.wgs, seq := c.seq } : Core)) h1
  have e2 := congrArg (fun x : Core => ({ x with rf := c.rf, rfPois := c.rfPois, warps := c.warps, seq := c.seq } : Core)) h2
  exact e1.trans e2

section
variable {s : State} {c : Ctl} {k : Ctx} (h : ctxOf s c = some k) (opds : List Opd) (t : Ty) (d : Reg)
  (f : Ctx → Nat → Int × Flags5)
include h

theorem popped_frame : { (k.popped opds).s.core k.ci with wgs := k.k.wgs } = k.k := by
  obtain ⟨hs, -, -, hk, -⟩ := ctxOf_spec h
  have := popped_core k opds
  rw [hs] at this
  rw [hk, this]

theorem aluWritten_frame :
    let u := (aluWritten (k.popped opds) t d f).core k.ci
    { u with rf := k.k.rf, rfPois := k.k.rfPois, warps := k.k.warps, wgs := k.k.wgs, seq := k.k.seq } = k.k := by
  intro u
  have h1 := writeLanes_core_frame (k.popped opds).s k.wi t d
    ((workLanes (k.popped opds) d).map fun l => (l, (f (k.popped opds) l).1)) (ctxOf_spec h).2.2.1
  simp only [u, aluWritten, popped_ci, popped_wi]
  exact core_frame_trans h1 (popped_frame h opds)

theorem aluNext_rest : { aluNext k c opds t d f with cores := s.cores } = s := by
  have h1 := popped_rest k opds
  have h2 := writeLanes_rest (k.popped opds).s k.ci k.wi t d
    ((workLanes (k.popped opds) d).map fun l => (l, (f (k.popped opds) l).1))
  have hs := (ctxOf_spec h).1
  rw [hs] at h1
  rw [aluNext_eq, aluWritten, popped_ci, popped_wi]
  have := (congrArg (fun x : State => ({ x with cores := s.cores } : State)) h2).trans h1
  exact this

theorem aluNext_core_ne {i : Nat} (hi : i ≠ k.ci) : (aluNext k c opds t d f).core i = s.core i := by
  rw [aluNext_eq, aluWritten, popped_ci, popped_wi, wordEnd_core_ne _ _ _ hi, State.modWarp, State.core_modCore_ne _ _ hi,
    writeLanes_core_ne _ _ _ _ _ hi, popped_core_ne _ _ hi, (ctxOf_spec h).1]

theorem aluNext_core_frame : { (aluNext k c opds t d f).core k.ci with
    rf := k.k.rf, rfPois := k.k.rfPois, warps := k.k.warps, wgs := k.k.wgs, issues := k.k.issues, pHist := k.k.pHist,
    seq := k.k.seq } = k.k := by
  have h1 := congrArg (fun x : Core => ({ x with
    rf := k.k.rf, rfPois := k.k.rfPois, warps := k.k.warps, wgs := k.k.wgs, issues := k.k.issues, pHist := k.k.pHist,
    seq := k.k.seq } : Core)) (aluNext_core c opds t d f (ctxOf_spec h).2.2.1)
  have h2 := congrArg (fun x : Core => ({ x with issues := k.k.issues, pHist := k.k.pHist } : Core)) (aluWritten_frame h opds t d f)
  exact h1.trans h2

theorem aluNext_wgs : WgsKept (fun q => q.val ∉ popsOf opds ∧ d ≠ .q q) k.k ((aluNext k c opds t d f).core k.ci) := by
  obtain ⟨hs, -, hc, hk, -⟩ := ctxOf_spec h
  have h1 := popped_wgs k opds hc
  have h2 := writeLanes_wgs (k.popped opds).s k.wi t d
    ((workLanes (k.popped opds) d).map fun l => (l, (f (k.popped opds) l).1)) hc
  have h3 : ((aluNext k c opds t d f).core k.ci).wgs = ((aluWritten (k.popped opds) t d f).core k.ci).wgs := by
    have := congrArg Core.wgs (aluNext_core c opds t d f hc)
    exact this
  rw [hs, ← hk] at h1
  rw [aluWritten, popped_ci, popped_wi] at h3
  have h4 := WgsKept.of_eq (keep := fun q => q.val ∉ popsOf opds ∧ d ≠ .q q) h3
  have h5 := h2.imp fun q (hq : q.val ∉ popsOf opds ∧ d ≠ .q q) => hq.2
  have h6 := h1.imp fun q (hq : q.val ∉ popsOf opds ∧ d ≠ .q q) => hq.1
  exact (h6.trans h5).trans h4

theorem aluNext_others {j : Nat} (hj : j ≠ k.wi) :
    (aluNext k c opds t d f).warp? k.ci j = (s.warp? k.ci j).map (Warp.unhold k.wi) := by
  obtain ⟨hs, -, hc, -⟩ := ctxOf_spec h
  rw [aluNext_eq, wordEnd_other _ _ hc hj, State.warp?, State.modWarp, State.core_modCore_same _ _ hc,
    Core.warp?_modWarp_ne _ _ hj, aluWritten, popped_ci, popped_wi, ← State.warp?, writeLanes_warp_ne _ _ _ _ hc hj,
    popped_warp?, hs]

theorem aluNext_warp : ∃ w, (aluNext k c opds t d f).warp? k.ci k.wi = some w
    ∧ { w with
        sregs := k.w.sregs, sPois := k.w.sPois, preds := k.w.preds, fflags := k.w.fflags, front := k.w.front,
        clause := k.w.clause, lig := k.w.lig, stall := k.w.stall, last := k.w.last, yieldHold := k.w.yieldHold,
        spilled := k.w.spilled, job := k.w.job, resume := k.w.resume, unread := k.w.unread } = k.w
    ∧ (∀ n : Fin 64, d ≠ .s n → w.sreg n.val = k.w.sreg n.val ∧ w.sPois.getLsbD n.val = k.w.sPois.getLsbD n.val)
    ∧ (∀ n : Fin 8, d ≠ .p n → w.pred n.val = k.w.pred n.val)
    ∧ (∀ l, laneIn (if isScalar d then k.e.mask else k.act) l = false → w.fflags[l]? = k.w.fflags[l]?) := by
  obtain ⟨-, -, hc, -⟩ := ctxOf_spec h
  obtain ⟨w1, hw1, hkept⟩ := writeLanes_warp t d
    ((workLanes (k.popped opds) d).map fun l => (l, (f (k.popped opds) l).1)) hc (popped_warp h opds)
  obtain ⟨hr, hfl⟩ := raise_kept w1 (k.popped opds) d f
  rw [popped_e] at hr hfl
  have hv : ((aluWritten (k.popped opds) t d f).modWarp k.ci k.wi
      (·.raise d k.e.mask (laneVals d f (k.popped opds)))).warp? k.ci k.wi
        = some (w1.raise d k.e.mask (laneVals d f (k.popped opds))) := by
    rw [State.warp?_modWarp_same _ _ _ hc, aluWritten, popped_ci, popped_wi, hw1]
    rfl
  obtain ⟨y, hy⟩ := wordEnd_warp _ c hc hv
  rw [← aluNext_eq] at hy
  obtain ⟨hrest, hsr, hsp, hpr, hff⟩ := advance_marks (w1.raise d k.e.mask (laneVals d f (k.popped opds)))
    (c.stall != 0) (some ((((aluWritten (k.popped opds) t d f).modWarp k.ci k.wi
      (·.raise d k.e.mask (laneVals d f (k.popped opds)))).core k.ci).issues + 1)) y
  have r1 := congrArg Warp.sregs hr
  have r2 := congrArg Warp.sPois hr
  have r3 := congrArg Warp.preds hr
  refine ⟨_, hy, ?_, fun n hn => ?_, fun n hn => ?_, fun l hl => ?_⟩
  · have e1 := congrArg (Warp.keepPlace k.w) hrest
    have e2 := congrArg (Warp.keepPlace k.w) hr
    have e3 := congrArg (Warp.keepPlace k.w) hkept.rest
    exact e1.trans (e2.trans e3)
  · obtain ⟨ha, hb⟩ := hkept.scalars n hn
    refine ⟨?_, ?_⟩
    · rw [Warp.sreg, hsr, ← ha, Warp.sreg, ← r1]
    · rw [hsp, ← hb, ← r2]
  · rw [← hkept.preds n hn, Warp.pred, Warp.pred, hpr, ← r3]
  · have r4 := congrArg Warp.fflags hkept.rest
    rw [hff, hfl l hl]
    exact congrArg (·[l]?) r4

theorem aluNext_regs {j : Nat} (hj : ¬ namesSlot k t d j) :
    tabGet 0#32 ((aluNext k c opds t d f).core k.ci).rf j = tabGet 0#32 k.k.rf j
      ∧ setHas ((aluNext k c opds t d f).core k.ci).rfPois j = setHas k.k.rfPois j := by
  have hrf := congrArg Core.rf (popped_frame h opds)
  have hpo := congrArg Core.rfPois (popped_frame h opds)
  simp only at hrf hpo
  by_cases hd : ∃ n, d = .v n
  · obtain ⟨n, rfl⟩ := hd
    obtain ⟨h1, h2⟩ := aluNext_v (c := c) h opds t n f j
    rw [h1, h2]
    by_cases hl : j % 32 ∈ lanesOf k.act
    · obtain ⟨hl1, hl2⟩ := mem_lanesOf.mp hl
      have hn : ∀ m, (m = n.val ∨ tyWidth t = 64 ∧ m = n.val + 1) → j ≠ k.w.slot (j % 32) m := by
        intro m hm hjm
        refine hj ⟨_, hl1, hl2, ?_⟩
        rcases hm with rfl | ⟨h64, rfl⟩
        · exact .inl hjm
        · exact .inr ⟨h64, hjm⟩
      have h0 := hn n.val (.inl rfl)
      simp only [hl, if_true, Core.vput_rf, Core.vput_pois, h0, if_false, false_or, hrf, hpo]
      by_cases h64 : tyWidth t = 64
      · simp [h64, hn (n.val + 1) (.inr ⟨h64, rfl⟩)]
      · simp [h64]
    · simp only [hl, if_false, hrf, hpo, and_self]
  · have hu := writeLanes_rf (k.popped opds).s k.wi t d
      ((workLanes (k.popped opds) d).map fun l => (l, (f (k.popped opds) l).1)) (ctxOf_spec h).2.2.1
      (fun n e => hd ⟨n, e⟩)
    have e1 := congrArg Core.rf (aluNext_core c opds t d f (ctxOf_spec h).2.2.1)
    have e2 := congrArg Core.rfPois (aluNext_core c opds t d f (ctxOf_spec h).2.2.1)
    simp only [aluWritten, popped_ci, popped_wi] at e1 e2
    rw [e1, e2, hu.1, hu.2, hrf, hpo]
    exact ⟨rfl, rfl⟩

end

/-- WHAT A WORD WITH ONE DESTINATION LEAVES ALONE. -/
theorem aluNext_frame {s : State} {c : Ctl} {k : Ctx} (h : ctxOf s c = some k) (opds : List Opd) (t : Ty) (d : Reg)
    (f : Ctx → Nat → Int × Flags5) : AluFrame s (aluNext k c opds t d f) k opds t d where
  rest := aluNext_rest h opds t d f
  cores _ hi := aluNext_core_ne h opds t d f hi
  core := aluNext_core_frame h opds t d f
  regs _ hj := aluNext_regs h opds t d f hj
  others _ hj := aluNext_others h opds t d f hj
  warp := aluNext_warp h opds t d f
  wgs := (aluNext_wgs h opds t d f).rest
  queues id q hq hd := (aluNext_wgs h opds t d f).queues id q ⟨hq, hd⟩

/-- Settles O22: each word with one destination leaves `aluNext` of some lanes, and that keeps the frame. -/
theorem oneDestinationFrame : Obligations.OneDestinationFrame := by
  intro i a s t k ha hr hc he
  obtain ⟨f, hf⟩ := exec_aluShape ha hr hc
  obtain rfl : _ = t := Host.Outcome.next.inj (hf.symm.trans he)
  exact aluNext_frame hr.issuer ..

/-! ### A scalar destination and the flags (R115) -/

/-- A warp at the one word of its clause, in the workgroup numbered 7: the states of the refutations hold it in slot 0 of core 0. -/
def loneWarp : Warp := (Warp.fresh (some 7) 0 64 64 5#20 1 0x1000#64 0x9000#64 0x5000).atWord 0#96
def loneWg : Wg := { (default : Wg) with
  id := 7, wgs := 1, ngang := 1, warps := 1, pasid := 5#20, cls := 1, trapv := 0x4000#64, sliceSt := .running }
/-- Its page of 64 KiB at address 0. -/
def lonePage : Xlat := ⟨5#20, 0, 0x10000, 0, 0, true, true, true, false, none⟩
def loneSt (w : Warp) (gs : List Wg) : State := { State.reset with
  cur := (0, 0)
  cores := State.reset.cores.set 0 { Core.fresh with tlb := [lonePage], wgs := gs, warps := Core.fresh.warps.set 0 (some w) } }

/-- The guard `p1`, of whose lanes only lane 0 passes. -/
def guardP1 : Ctl := { Ctl.zero with gpred := 1 }
def guardedSt : State := loneSt { loneWarp with preds := loneWarp.preds.set 1 1#32 } [loneWg]
/-- Every lane's value is 0 and raises NV. -/
def raisesNv (_ : Ctx) (_ : Nat) : Int × Flags5 := (0, flNV)

/-- Lane 1 of the entry does not pass the guard, and its flags change. -/
theorem scalar_flags_reach_inactive_lane : (match ctxOf guardedSt guardP1 with
    | some k => laneIn k.act 1 == false && (match (aluNext k guardP1 [] .n32 (.s 0) raisesNv).warp? k.ci k.wi with
        | some w => w.fflags[1] == flNV && k.w.fflags[1] == 0#5
        | none => false)
    | none => false) = true := by decide +kernel

/-- Refutes O24: under a scalar D the flags go to every lane of the frontier entry (R115), so that lane 1, which the guard holds
back, takes NV. -/
theorem not_otherDestinations : ¬ Obligations.OtherDestinations := by
  rintro ⟨-, hflags⟩
  have hrun := scalar_flags_reach_inactive_lane
  split at hrun
  · next k hk =>
    obtain ⟨w, hw, hl⟩ := hflags guardedSt guardP1 k [] .n32 (.s 0) raisesNv hk
    simp only [hw, Bool.and_eq_true, beq_iff_eq] at hrun
    obtain ⟨hin, hnew, hold⟩ := hrun
    have h1 := hl 1
    simp [hin] at h1
    rw [hnew, hold] at h1
    exact absurd h1 (by decide)
  · cases hrun

end Sys2Proof
end

section
/-! PROOFS. Control (07 R157-R168): what a transfer comes to once its targets are read, how its lanes are grouped, and each control
word through the frame of a transfer or of R61. -/

namespace Sys2Proof
open Machine

/-! ### The frames -/

theorem jumps_of {i : Instr} {s : State} {c : Ctl} {scalar : Bool} {opds : List Opd} {body : Ctx → Res} {H : Ctx → Prop}
    {t : Ctx → State} (he : exec i s = runTransfer s c scalar opds body) (hb : ∀ k, H k → body k = .jump (t k)) :
    Jumps i s c scalar opds H t := fun k hk hH => by
  rw [he, runTransfer_ready hk, hb _ hH]; rfl
theorem falls_of {i : Instr} {s : State} {c : Ctl} {scalar : Bool} {opds : List Opd} {body : Ctx → Res} {H : Ctx → Prop}
    (he : exec i s = runTransfer s c scalar opds body) (hb : ∀ k, H k → body k = .ok k.s) :
    Falls i s c scalar opds H := fun k hk hH => by
  rw [he, runTransfer_ready hk, hb _ hH]; rfl
theorem runs_of {i : Instr} {s : State} {c : Ctl} {scalar long : Bool} {opds : List Opd} {body : Ctx → Res} {H : Ctx → Prop}
    {t : Ctx → State} (he : exec i s = runInstr s c scalar long opds body) (hb : ∀ k, H k → body k = .ok (t k)) :
    Runs i s c scalar long opds H t := fun k hk hH => by
  rw [he, runInstr_ready hk, hb _ hH]; rfl
theorem transfer_traps {i : Instr} {s : State} {c : Ctl} {scalar : Bool} {opds : List Opd} {body : Ctx → Res} {k : Ctx} {z : Cause}
    (he : exec i s = runTransfer s c scalar opds body) (hk : ReadyTransfer s c scalar opds k)
    (hb : body (k.popped opds) = .trap z) : Traps i s k c z := by
  rw [Traps, he, runTransfer_ready hk, hb, wordDone, wordCause, (ctxOf_spec hk.ready.issuer).1]
/-- A transfer in a MELD clause (R156). -/
theorem meld_traps {i : Instr} {s : State} {c : Ctl} {scalar : Bool} {opds : List Opd} {body : Ctx → Res} {k : Ctx}
    (he : exec i s = runTransfer s c scalar opds body) (hk : Ready s c scalar false opds k) (hl : atLast k.w = true)
    (hon : k.w.lig.on = true) : Traps i s k c (k.cause 0x09 k.act 0#64) := by
  have hw : (k.popped opds).w.lig.on = true := by rw [popped_w hk.issuer]; exact hon
  rw [Traps, he, runTransfer, hk.issuer]
  simp only [hl, Bool.not_true, Bool.false_eq_true, if_false, runInstr_ready hk, hw, if_true, wordDone, wordCause,
    popped_cause hk.issuer, popped_act, (ctxOf_spec hk.issuer).1]
  rfl

/-! ### The lanes of a transfer, grouped by address (R158) -/

theorem laneIn_or (m n : Mask) (l : Nat) : laneIn (m ||| n) l = (laneIn m l || laneIn n l) := BitVec.getLsbD_or
theorem laneIn_shift {j : Nat} (hj : j < 32) (l : Nat) : laneIn (1#32 <<< j) l = decide (l = j) := by
  simp only [laneIn, BitVec.getLsbD_shiftLeft]
  by_cases h : l = j
  · subst h; simp [hj]
  · by_cases hl : l < 32
    · simp [hl, h]; omega
    · simp [hl, h]
theorem laneIn_foldl_or {t : Dword} (g : List (Dword × Mask)) (l : Nat) : ∀ m : Mask,
    laneIn (g.foldl (fun m e => if e.1 == t then m ||| e.2 else m) m) l
      = (laneIn m l || g.any fun e => e.1 == t && laneIn e.2 l) := by
  induction g with
  | nil => intro m; simp
  | cons e g ih =>
    intro m
    rw [List.foldl_cons, ih, List.any_cons]
    by_cases h : e.1 = t
    · simp [h, laneIn_or, Bool.or_assoc]
    · simp [beq_eq_false_iff_ne.mpr h]

/-- The addresses that have a group are those that some lane goes to. -/
theorem mem_groupTargets_fst (goes : List (Nat × Dword)) (t : Dword) :
    t ∈ (groupTargets goes).map (·.1) ↔ ∃ l, (l, t) ∈ goes := by
  induction goes with
  | nil => simp [groupTargets]
  | cons x r ih =>
    obtain ⟨j, u⟩ := x
    have step : t ∈ (groupTargets ((j, u) :: r)).map (·.1) ↔ t = u ∨ t ∈ (groupTargets r).map (·.1) := by
      simp only [groupTargets]
      split
      · by_cases h : t = u <;> simp [h]
      · simp
    rw [step, ih]
    simp only [List.mem_cons, Prod.mk.injEq]
    constructor
    · rintro (h | ⟨l, h⟩)
      · exact ⟨j, .inl ⟨rfl, h⟩⟩
      · exact ⟨l, .inr h⟩
    · rintro ⟨l, ⟨-, h⟩ | h⟩
      · exact .inl h
      · exact .inr ⟨l, h⟩

theorem nodup_groupTargets (goes : List (Nat × Dword)) : ((groupTargets goes).map (·.1)).Nodup := by
  induction goes with
  | nil => simp [groupTargets]
  | cons x r ih =>
    simp only [groupTargets]
    split
    · refine List.nodup_cons.mpr ⟨by simp, ?_⟩
      exact ih.sublist (List.filter_sublist.map _)
    · next h =>
      refine List.nodup_cons.mpr ⟨fun hm => h ?_, ih⟩
      obtain ⟨e, he, ht⟩ := List.mem_map.mp hm
      exact List.any_eq_true.mpr ⟨e, he, by simp [ht]⟩

/-- A lane is in the group of its address and in no other. -/
theorem laneIn_groupTargets (goes : List (Nat × Dword)) (hlt : ∀ x ∈ goes, x.1 < 32) : ∀ t m, (t, m) ∈ groupTargets goes →
    ∀ l, laneIn m l = true ↔ (l, t) ∈ goes := by
  induction goes with
  | nil => simp [groupTargets]
  | cons x r ih =>
    obtain ⟨j, u⟩ := x
    have ih := ih fun x hx => hlt x (.tail _ hx)
    have hj : j < 32 := hlt _ (.head _)
    intro t m hm l
    simp only [groupTargets] at hm
    split at hm
    · rcases List.mem_cons.mp hm with he | he
      · obtain ⟨rfl, rfl⟩ := Prod.mk.inj he
        have hg : (groupTargets r).any (fun e => e.1 == t && laneIn e.2 l) = true ↔ (l, t) ∈ r := by
          rw [List.any_eq_true]
          constructor
          · rintro ⟨e, he, h⟩
            simp only [Bool.and_eq_true, beq_iff_eq] at h
            obtain ⟨h1, h2⟩ := h
            exact h1 ▸ (ih _ _ he l).mp h2
          · intro h
            obtain ⟨e, he, ht⟩ := List.mem_map.mp ((mem_groupTargets_fst r t).mpr ⟨l, h⟩)
            refine ⟨e, he, ?_⟩
            simp only [ht, beq_self_eq_true, Bool.true_and]
            exact (ih _ _ he l).mpr (ht ▸ h)
        rw [laneIn_foldl_or, Bool.or_eq_true, hg, laneIn_shift hj]
        simp
      · obtain ⟨h1, h2⟩ := List.mem_filter.mp he
        have hne : t ≠ u := by simpa using h2
        rw [ih _ _ h1 l]
        simp [hne]
    · next hany =>
      have hu : ¬ ∃ l, (l, u) ∈ r := fun h => hany (by
        obtain ⟨e, he, ht⟩ := List.mem_map.mp ((mem_groupTargets_fst r u).mpr h)
        exact List.any_eq_true.mpr ⟨e, he, by simp [ht]⟩)
      rcases List.mem_cons.mp hm with he | he
      · obtain ⟨rfl, rfl⟩ := Prod.mk.inj he
        rw [laneIn_shift hj]
        have : (l, t) ∉ r := fun h => hu ⟨l, h⟩
        simp [this]
      · have hne : t ≠ u := fun e => hu ((mem_groupTargets_fst r u).mp (List.mem_map.mpr ⟨_, e ▸ he, rfl⟩))
        rw [ih _ _ he l]
        simp [hne]

theorem targetGroups : Claim.TargetGroups := fun goes hlt =>
  ⟨nodup_groupTargets goes, fun x hx => by
    obtain ⟨e, he, ht⟩ := List.mem_map.mp ((mem_groupTargets_fst goes x.2).mpr ⟨x.1, hx⟩)
    exact ⟨e.2, ht ▸ he⟩, laneIn_groupTargets goes hlt⟩

theorem mask_ext {m n : Mask} (h : ∀ l < 32, laneIn m l = laneIn n l) : m = n := BitVec.eq_of_getLsbD_eq h

/-- The lanes of a mask that all go to one address are one group. -/
theorem groupTargets_one {m : Mask} (hm : m ≠ 0#32) (t : Dword) : groupTargets ((lanesOf m).map fun l => (l, t)) = [(t, m)] := by
  obtain ⟨goes, hg⟩ : ∃ goes, goes = (lanesOf m).map fun l => (l, t) := ⟨_, rfl⟩
  rw [← hg]
  have hlt : ∀ x ∈ goes, x.1 < 32 := by
    intro x hx
    obtain ⟨l, hl, rfl⟩ := List.mem_map.mp (hg ▸ hx)
    exact (mem_lanesOf.mp hl).1
  have hfst : ∀ u, u ∈ (groupTargets goes).map (·.1) → u = t := by
    intro u hu
    obtain ⟨l, hl⟩ := (mem_groupTargets_fst goes u).mp hu
    obtain ⟨_, _, e⟩ := List.mem_map.mp (hg ▸ hl)
    exact (Prod.mk.inj e).2.symm
  have hnd := nodup_groupTargets goes
  have hmem := laneIn_groupTargets goes hlt
  obtain ⟨l, hl⟩ := List.exists_mem_of_ne_nil _ (lanesOf_ne_nil hm)
  have hne : t ∈ (groupTargets goes).map (·.1) := (mem_groupTargets_fst goes t).mpr ⟨l, hg ▸ List.mem_map.mpr ⟨l, hl, rfl⟩⟩
  match hx : groupTargets goes with
  | [] => rw [hx] at hne; cases hne
  | [e] =>
    have he : e ∈ groupTargets goes := by rw [hx]; exact .head _
    have h1 : e.1 = t := hfst _ (List.mem_map.mpr ⟨e, he, rfl⟩)
    have h2 : e.2 = m := mask_ext fun l hl => by
      rw [Bool.eq_iff_iff, hmem e.1 e.2 he l, h1, hg]
      simp [mem_lanesOf, hl]
    rw [← h1, ← h2]
  | e :: f :: r =>
    have h1 : e.1 = t := hfst _ (by rw [hx]; simp)
    have h2 : f.1 = t := hfst _ (by rw [hx]; simp)
    rw [hx] at hnd
    simp [h1, h2] at hnd

/-! ### Sending lanes -/

/-- Where every target reads as a header, the lanes are sent. -/
theorem sendLanes_headers {k : Ctx} {goes : List (Nat × Dword)} {s' : State} {hs : List (Dword × Mask × Header)}
    (h : ReadHeaders k goes s' hs) (stay : Mask) (depth : Fin 64) (pre : State → State) :
    sendLanes k goes stay depth pre = .jump (sentTo k (pre s') (sentEntries hs depth) stay) := by
  have hnone : ∀ β : Type, hs.findSome? (fun _ => (none : Option β)) = none := fun β =>
    List.findSome?_eq_none_iff.mpr fun _ _ => rfl
  have hnil : ∀ β : Type, hs.filterMap (fun _ => (none : Option β)) = [] := fun β =>
    List.filterMap_eq_nil_iff.mpr fun _ _ => rfl
  rw [sendLanes, h]
  simp only [List.findSome?_map, List.filterMap_map, Function.comp_def, hnone, hnil, List.filterMap_eq_map', List.min?_nil] <;> rfl

/-- Every lane of `m` to one address that reads as a header. -/
theorem readHeaders_one {k : Ctx} {m : Mask} (hm : m ≠ 0#32) {t : Dword} {s' : State} {h : Header}
    (hr : readTarget k k.s t = (s', .header h)) : ReadHeaders k ((lanesOf m).map fun l => (l, t)) s' [(t, m, h)] := by
  simp [ReadHeaders, groupTargets_one hm, readTargets, hr]

/-! ### The words -/

theorem exec_bra (c : Ctl) (off : Word) (s : State) : exec (.bra c off) s = runTransfer s c false [] fun k =>
    if k.act = 0#32 then .ok k.s else sendLanes k (allTo k (directTarget k off)) (inactive k) k.e.depth id := rfl
theorem exec_brd (c : Ctl) (a : Reg) (pneg : Bool) (off : Word) (s : State) :
    exec (.brd c a pneg off) s = runTransfer s c false [{ r := a, adm := admPred }] fun k =>
      let go := maskOf fun l => laneIn k.act l && ((k.rd a l 1 == 1) != pneg)
      if go = 0#32 then .ok k.s
      else sendLanes k ((lanesOf go).map fun l => (l, directTarget k off)) (k.e.mask &&& ~~~go) k.e.depth id := rfl
theorem exec_brx (c : Ctl) (a : Reg) (s : State) : exec (.brx c a) s = runTransfer s c false [opdTarget a] fun k =>
    if k.act = 0#32 then .ok k.s else sendLanes k (eachTo k a) (inactive k) k.e.depth id := rfl
theorem exec_call (c : Ctl) (d : Reg) (off : Word) (s : State) : exec (.call c d off) s =
    runTransfer s c (isScalar d) [opdReturn d] fun k => callTo k d (allTo k (directTarget k off)) := rfl
theorem exec_callx (c : Ctl) (d a : Reg) (s : State) : exec (.callx c d a) s =
    runTransfer s c (isScalar d) [opdReturn d, opdTarget a] fun k => callTo k d (eachTo k a) := rfl
theorem exec_ret (c : Ctl) (a : Reg) (s : State) : exec (.ret c a) s = runTransfer s c false [opdTarget a] fun k =>
    if k.act = 0#32 then .ok k.s
    else if k.e.depth.val = 0 then .trap (k.cause cIllegalOperand k.act 0#64)
    else sendLanes k (eachTo k a) (inactive k) ⟨k.e.depth.val - 1, by omega⟩ id := rfl

/-- CALL and CALLX where every target reads as a header (R160). -/
theorem callTo_headers {k : Ctx} {d : Reg} {goes : List (Nat × Dword)} {s' : State} {hs : List (Dword × Mask × Header)} {depth : Fin 64}
    (ha : k.act ≠ 0#32) (hd : k.e.depth.val + 1 = depth.val) (h : ReadHeaders k goes s' hs) :
    callTo k d goes = .jump (sentTo k (writeLanes s' k.ci k.wi .n64 d
      ((lanesOf k.act).map fun l => (l, ((fallThrough k).toNat : Int)))) (sentEntries hs depth) (inactive k)) := by
  have hlt : k.e.depth.val + 1 < 64 := by omega
  have e : (⟨k.e.depth.val + 1, hlt⟩ : Fin 64) = depth := Fin.ext hd
  rw [callTo, if_neg ha, dif_pos hlt, sendLanes_headers h, e]

theorem callTo_none {k : Ctx} (d : Reg) (goes : List (Nat × Dword)) (ha : k.act = 0#32) : callTo k d goes = .ok k.s := by
  rw [callTo, if_pos ha]
theorem callTo_deep {k : Ctx} (d : Reg) (goes : List (Nat × Dword)) (ha : k.act ≠ 0#32) (hd : k.e.depth.val = 63) :
    callTo k d goes = .trap (k.cause 0x02 k.act 0#64) := by
  rw [callTo, if_neg ha, dif_neg (by omega)]
  rfl

theorem indirectTargets : Claim.IndirectTargets := by
  intro s s' c a d hs depth
  refine ⟨jumps_of (exec_brx c a s) ?_, jumps_of (exec_callx c d a s) ?_, jumps_of (exec_ret c a s) ?_,
    falls_of (exec_brx c a s) ?_, falls_of (exec_callx c d a s) fun k ha => callTo_none _ _ ha, falls_of (exec_ret c a s) ?_⟩
  · rintro k ⟨ha, rfl, hr⟩
    rw [if_neg ha, sendLanes_headers hr]
    rfl
  · rintro k ⟨ha, hd, hr⟩
    exact callTo_headers ha hd hr
  · rintro k ⟨ha, hd, hr⟩
    have e : (⟨k.e.depth.val - 1, by omega⟩ : Fin 64) = depth := Fin.ext (by simp only; omega)
    rw [if_neg ha, if_neg (by omega), sendLanes_headers hr, e]
    rfl
  · exact fun k ha => if_pos ha
  · exact fun k ha => if_pos ha

/-- Settles O29: the targets read as headers are sent, one entry for each group; the groups by induction on the lanes. -/
theorem indirectTransfers : Obligations.IndirectTransfers := ⟨indirectTargets, targetGroups⟩

/-- A predicate operand whose number is legal is a predicate register (R41). -/
theorem pred_of_fate {k : Ctx} {c : Ctl} {a : Reg} {opds : List Opd}
    (h : wordFate k c false false ({ r := a, adm := admPred } :: opds) = none) : ∃ n, a = .p n := by
  have h1 : opdErr k false { r := a, adm := admPred } = none := by
    simp only [wordFate, List.findSome?_cons, Option.or_eq_none_iff] at h
    have := h.1
    split at this
    · cases this
    · next h2 => simp only [opdFate, Option.or_eq_none_iff] at h2; exact h2.1
  cases a with
  | p n => exact ⟨n, rfl⟩
  | v n => simp [opdErr, admPred] at h1
  | s n => simp [opdErr, admPred] at h1
  | q n => simp [opdErr, admPred] at h1
  | qr n => simp [opdErr] at h1
  | sp n => simp [opdErr, admPred] at h1
  | bad n => simp [opdErr] at h1

theorem rd_p_congr {k k' : Ctx} (h : k.w = k'.w) (n : Fin 8) (l bits : Nat) : k.rd (.p n) l bits = k'.rd (.p n) l bits := by
  simp [Ctx.rd, h]

/-- Settles O25: the active lanes are one group, and its header is read. -/
theorem directTransfers : Obligations.DirectTransfers := by
  intro s s' k c a d pneg off h t
  refine ⟨fun hk ha hr => ?_, fun hk hgo hr => ?_, fun deep hdeep hk ha hr => ?_, ?_, ?_, ?_⟩
  · rw [exec_bra, runTransfer_ready hk]
    have hr := readHeaders_one (k := k.popped []) (m := k.act) ha hr
    rw [popped_act, if_neg ha, allTo, directTarget, popped_act, popped_e, sendLanes_headers hr]
    simp [wordDone, sentEntries, inactive, t]
  · obtain ⟨n, rfl⟩ := pred_of_fate hk.ready.fate
    have hw := popped_w hk.ready.issuer [{ r := .p n, adm := admPred }]
    rw [exec_brd, runTransfer_ready hk]
    have hr := readHeaders_one hgo hr
    simp only [popped_act, rd_p_congr hw, directTarget, popped_e] at hr ⊢
    rw [if_neg hgo, sendLanes_headers hr]
    rfl
  · have hr := readHeaders_one (k := k.popped [opdReturn d]) (m := k.act) ha hr
    have hgoes : allTo (k.popped [opdReturn d]) (directTarget (k.popped [opdReturn d]) off) = (lanesOf k.act).map fun l => (l, t) := by
      simp [allTo, directTarget, t]
    rw [exec_call, runTransfer_ready hk]
    have hto := callTo_headers (k := k.popped [opdReturn d]) (d := d) (depth := deep) (by simpa using ha) (by simp [hdeep]) (hgoes ▸ hr)
    rw [hto]
    simp [wordDone, sentEntries, inactive, fallThrough]
  · exact falls_of (exec_bra c off s) fun k ha => if_pos ha
  · exact falls_of (exec_brd c a pneg off s) fun k ha => if_pos ha
  · exact falls_of (exec_call c d off s) fun k ha => callTo_none _ _ ha

theorem exec_exit (c : Ctl) (s : State) : exec (.exit c) s = runTransfer s c false [] fun k =>
    if k.act = 0#32 then .ok k.s
    else if closeHeld k then .hold
    else
      let s := closeBatch k.s k.ci k.wi
      .jump (s.modWarp k.ci k.wi fun w =>
        let w := w.transfer [] (inactive k) (fallThrough k)
        if w.front.isEmpty && w.spilled.isEmpty then { w with ended := true, mflags := Vector.replicate 12 0#5, wait := .none }
        else w) := rfl
theorem exec_retTr (c : Ctl) (s : State) : exec (.retTr c) s = runTransfer s c false [] fun k =>
    if k.act = 0#32 then .ok k.s
    else match k.w.handler with
      | none => .trap (k.cause cIllegalOperand k.act 0#64)
      | some sv =>
        let s := snoopBytes k.s k.ci k.w.framePa 128
        let f := leNat (rdBytes s.hbm k.w.framePa 128)
        if k.w.front.length + k.w.spilled.length != 1 then .trap (k.cause cIllegalOperand k.act 0#64)
        else if frameBusy k.s k.ci k.wi k.w || k.w.sbPend.contains 63 then .hold
        else if frameReserved f then .trap (k.cause cIllegalOperand k.act 0#64)
        else .jump (s.modWarp k.ci k.wi fun w => returnTrap w sv f) := rfl

theorem transferDepths : Claim.TransferDepths := by
  intro s k c a d off ha
  refine ⟨fun hk hd => transfer_traps (exec_call c d off s) hk ?_, fun hk hd => transfer_traps (exec_callx c d a s) hk ?_,
    fun hk hd => transfer_traps (exec_ret c a s) hk ?_, fun hk hn => transfer_traps (exec_retTr c s) hk ?_⟩
  · rw [callTo_deep _ _ (by simpa using ha) (by simpa using hd), popped_cause hk.ready.issuer, popped_act]
  · rw [callTo_deep _ _ (by simpa using ha) (by simpa using hd), popped_cause hk.ready.issuer, popped_act]
  · rw [popped_act, if_neg ha, if_pos ((congrArg (·.depth.val) (popped_e k _)).trans hd), popped_cause hk.ready.issuer]
    rfl
  · rw [popped_act, if_neg ha, popped_w hk.ready.issuer, hn, popped_cause hk.ready.issuer]
    rfl

theorem exec_ligon (c : Ctl) (a : Reg) (b : Option Reg) (s : State) : exec (.ligon c a b) s =
    runInstr s c false false ({ r := a, adm := admPred } :: b.toList.map fun r => { r := r, adm := admPred }) fun k =>
      if k.w.lig.on || k.w.lig.pendOn || 1 < k.w.front.length + k.w.spilled.length then .trap (k.cause cLigature k.act 0#64)
      else
        let p0 := maskOf fun l => laneIn k.e.mask l && k.rd a l 1 == 1
        let p1 := match b with
          | some r => maskOf fun l => laneIn k.e.mask l && k.rd r l 1 == 1
          | none => 0#32
        .ok (k.s.modWarp k.ci k.wi fun w =>
          { w with lig := { w.lig with path0 := p0, path1 := p1, map := [], pendMap := [], pendOn := true } }) := rfl
theorem exec_ligmap (c : Ctl) (path : Fin 4) (slot : Fin 16) (a b : Reg) (s : State) : exec (.ligmap c path slot a b) s =
    runInstr s c false false [{ r := a, adm := admVec, src := false }, { r := b, adm := admVec, src := false }] fun k =>
      if !(k.w.lig.on || k.w.lig.pendOn) then .trap (k.cause cLigature k.act 0#64)
      else match a, b with
        | .v x, .v y => .ok (k.s.modWarp k.ci k.wi fun w =>
            { w with lig := { w.lig with pendMap := w.lig.pendMap ++ [⟨path, slot, x.val, y.val⟩] } })
        | _, _ => .ok k.s := rfl
theorem exec_ligoff (c : Ctl) (s : State) : exec (.ligoff c) s = runInstr s c false false [] fun k =>
    if !k.w.lig.on then .trap (k.cause cLigature k.act 0#64)
    else .ok (k.s.modWarp k.ci k.wi fun w => { w with lig := { w.lig with pendOff := true } }) := rfl

theorem ligatureErrors : Claim.LigatureErrors := by
  intro s k c a b path slot x y off
  refine ⟨fun hk h => traps_of_body (exec_ligon c a b s) hk ?_, fun hk h1 h2 => traps_of_body (exec_ligmap c path slot x y s) hk ?_,
    fun hk h => traps_of_body (exec_ligoff c s) hk ?_,
    fun hk hl hon => ⟨meld_traps (exec_bra c off s) hk hl hon, meld_traps (exec_exit c s) hk hl hon,
      meld_traps (exec_retTr c s) hk hl hon⟩⟩
  · rw [popped_w hk.issuer, if_pos (by simpa [or_assoc] using h), popped_cause hk.issuer, popped_act]
    rfl
  · rw [popped_w hk.issuer, if_pos (by simp [h1, h2]), popped_cause hk.issuer, popped_act]
    rfl
  · rw [popped_w hk.issuer, if_pos (by simp [h]), popped_cause hk.issuer, popped_act]
    rfl

/-- Settles O30: the body of each word answers its cause. -/
theorem controlErrors : Obligations.ControlErrors := ⟨transferDepths, ligatureErrors⟩

/-! ### EXIT and RET with TR (R162, R387) -/

/-- RET with TR, as the statement writes it. -/
theorem returnTrap_eq (w : Warp) (sv : Saved) (f : Nat) : returnTrap w sv f =
    (let at_ := BitVec.ofNat 64 (f / 2 ^ 128) - BitVec.ofNat 64 (12 * (f / 2 ^ 16 % 16))
     let w := { w with
       sregs := w.sregs.setIfInBounds 63 (BitVec.ofNat 64 (f / 2 ^ 320))
       sPois := w.sPois &&& ~~~(1#64 <<< 63)
       front := sv.front, spilled := sv.spilled, lig := sv.lig, clause := none, resume := none, unread := false, handler := none
       job := if 8 < sv.front.length then some .spill else none }
     if f / 2 ^ 16 % 16 + f / 2 ^ 24 % 2 = 0 then w.headTo at_
     else { w with
       front := (match sv.front with | e :: es => { e with pc := at_ } :: es | [] => [])
       resume := some (f / 2 ^ 16 % 16 + f / 2 ^ 24 % 2) }) := by
  have hmod : ∀ n, BitVec.ofNat 64 (n % 2 ^ 64) = BitVec.ofNat 64 n := fun n => BitVec.eq_of_toNat_eq (by simp)
  rw [returnTrap]
  simp only [hmod, Warp.sput, Bool.false_eq_true, if_false] <;> split <;> cases sv.front <;> rfl

/-- Settles O26: the guards of the two bodies, one after the other. -/
theorem exitAndReturn : Obligations.ExitAndReturn := by
  intro s c sv f
  refine ⟨jumps_of (exec_exit c s) ?_, falls_of (exec_exit c s) fun k ha => if_pos ha, jumps_of (exec_retTr c s) ?_,
    falls_of (exec_retTr c s) fun k ha => if_pos ha⟩
  · rintro k ⟨ha, hh⟩
    rw [if_neg ha, hh]
    simp [inactive, fallThrough]
  · rintro k ⟨ha, hsv, hone, hbusy, hpend, hf, hres⟩
    rw [if_neg ha, hsv]
    dsimp only
    rw [← hf, if_neg (by simp [hone]), if_neg (by simp [hbusy, hpend]), if_neg (by rw [hres]; exact Bool.false_ne_true)]
    exact congrArg (fun g => Res.jump (State.modWarp _ k.ci k.wi g)) (funext fun w => returnTrap_eq w sv f)

/-! ### Waits and ligatures (R163-R166) -/

theorem exec_nop (c : Ctl) (s : State) : exec (.nop c) s = runInstr s c false false [] fun k => .ok k.s := rfl
theorem exec_yield (c : Ctl) (n : BitVec 16) (s : State) : exec (.yield c n) s =
    runInstr s (if anyActive s c then { c with yld := true } else c) false false [] fun k =>
      if k.act = 0#32 then .ok k.s else .ok (k.s.modWarp k.ci k.wi fun w => { w with yieldCc := n != 0#16 }) := rfl
theorem exec_waitc (c : Ctl) (m : BitVec 12) (s : State) : exec (.waitc c m) s = runInstr s c false false [] fun k =>
    if k.act = 0#32 || m = 0#12 then .ok k.s
    else .ok (k.s.modWarp k.ci k.wi fun w =>
      if w.flagsZero m then w.mergeFlags m k.act else { w with wait := .flags m k.act }) := rfl

/-- YIELD's own hint changes nothing of the frame. -/
theorem ready_yld {s : State} {c : Ctl} {k : Ctx} (h : Ready s c false false [] k) :
    Ready s { c with yld := true } false false [] k := ⟨h.issuer, h.fate, h.free, h.pairs, h.clean⟩

/-- Settles O27: each word through the frame of R61. -/
theorem waitsAndLigatures : Obligations.WaitsAndLigatures := by
  intro s c n m a b path slot x y
  refine ⟨runs_of (exec_nop c s) fun _ _ => rfl, fun k hk ha => ?_, runs_of (exec_waitc c m s) ?_, runs_of (exec_waitc c m s) ?_,
    runs_of (exec_ligon c a b s) ?_, runs_of (exec_ligmap c path slot (.v x) (.v y) s) ?_, runs_of (exec_ligoff c s) ?_⟩
  · have hany : anyActive s c = true := by simpa [anyActive, hk.issuer] using ha
    rw [exec_yield, hany, if_pos rfl, runInstr_ready (ready_yld hk), popped_act, if_neg ha, popped_ci, popped_wi]
    rfl
  · rintro k ⟨ha, hm⟩
    rw [if_neg (by simp [ha, hm])]
  · intro k h
    rw [if_pos (by simpa using h)]
  · rintro k ⟨hon, hpend, hone⟩
    rw [if_neg (by simp [hon, hpend, hone])] <;> rfl
  · intro k h
    rw [if_neg (by rcases h with h | h <;> simp [h])]
  · intro k h
    rw [if_neg (by simp [h])]

/-! ### TRAP (R167) -/

/-- The place of the trapped entry that the handler of slot 0 of core 0 has saved. -/
def savedPc (o : Out) : Option Dword :=
  match o with
  | .next t => (t.warp? 0 0).bind fun w => w.handler.bind fun h => h.front.head?.map (·.pc)
  | _ => none
/-- The statement's outcome of TRAP with code 5. -/
def trapAtNext (k : Ctx) : Out :=
  .next (takeTrap (wordEnd (k.popped []).s k.ci k.wi Ctl.zero) k.ci k.wi
    ⟨0x0D, k.act, k.w.here.1, k.w.here.2, 0#64, 5#32, 0#4, true⟩)

/-- A word without operands runs undisturbed, in a context that meets `H`. -/
def runsBare (s : State) (c : Ctl) (H : Ctx → Bool) : Bool :=
  match ctxOf s c with
  | some k => (wordFate k c false false []).isNone && !wordHeld k c false [] && wordPairs k [] == 0#32
      && wordPoison (k.popped []) false [] == 0#32 && H k
  | none => false
theorem ready_of_runsBare {s : State} {c : Ctl} {H : Ctx → Bool} (h : runsBare s c H = true) :
    ∃ k, Ready s c false false [] k ∧ H k = true := by
  cases hk : ctxOf s c with
  | none =>
    rw [runsBare, hk] at h
    exact absurd h Bool.false_ne_true
  | some k =>
    simp only [runsBare, hk, Bool.and_eq_true, Bool.not_eq_true', beq_iff_eq, Option.isNone_iff_eq_none] at h
    obtain ⟨⟨⟨⟨hfate, hheld⟩, hpairs⟩, hpoison⟩, hH⟩ := h
    exact ⟨k, ⟨hk, hfate, hheld, hpairs, hpoison⟩, hH⟩

theorem trap_saves_its_own_place : savedPc (exec (.trap Ctl.zero 5#32) (loneSt loneWarp [loneWg])) = some 0x100C#64 := by
  decide +kernel
theorem trap_at_next_place : runsBare (loneSt loneWarp [loneWg]) Ctl.zero
    (fun k => k.act != 0#32 && savedPc (trapAtNext k) == some 0x1018#64) = true := by decide +kernel

/-- Refutes O28: TRAP saves its own place in the frontier, and SKIP alone makes RET go on after it; the statement has the place
moved on before the trap is taken. -/
theorem not_trapsAndCalls : ¬ Obligations.TrapsAndCalls := by
  intro h
  obtain ⟨k, hk, hrun⟩ := ready_of_runsBare trap_at_next_place
  simp only [Bool.and_eq_true, bne_iff_ne, ne_eq, beq_iff_eq] at hrun
  obtain ⟨hact, hpc⟩ := hrun
  have htrap := ((h (loneSt loneWarp [loneWg]) Ctl.zero 5#32 0 0 0).1 k hk hact).1
  have hsaved := trap_saves_its_own_place
  rw [htrap] at hsaved
  exact absurd (hsaved.symm.trans hpc) (by decide)

end Sys2Proof
end

section
/-! PROOFS. Memory, reset and traps (02 R5, 09 R207, 20 R384, R385, R388, 26 R451): little-endian numbers and canonical form, what
reset leaves, and what taking a trap does to the core, the warp and memory. -/

namespace Sys2Proof
open Machine

/-! ### Little-endian numbers -/

theorem leNat_leBytes (n v : Nat) : leNat (leBytes n v) = v % 256 ^ n := by
  induction n generalizing v with
  | zero => simp [leBytes, leNat, Nat.mod_one]
  | succ n ih =>
    have hb : (BitVec.ofNat 8 (v % 256)).toNat = v % 256 := by simp
    rw [leBytes, leNat, ih, hb, Nat.pow_succ', Nat.mod_mul]

theorem hbmLanes_memWf {s : State} (ws : List (Nat × Nat × Nat)) (p : Bool) (h : s.MemWf) : (hbmLanes s ws p).MemWf := by
  refine ⟨?_, h.2⟩
  have hfold : ∀ (ws : List (Nat × Nat × Nat)) (m : List Host.Cell), Memory.wf m = true →
      Memory.wf (ws.foldl (fun m w => wrBytes m w.1 (leBytes w.2.1 w.2.2)) m) = true := by
    intro ws
    induction ws with
    | nil => exact fun _ hm => hm
    | cons w ws ih => exact fun m hm => ih _ (tabWf_wrBytes _ _ _ hm)
  exact hfold ws s.hbm h.1

/-- Settles O10: the laws of the byte writes, and little-endian numbers by induction on their length. -/
theorem memoryWrites : Obligations.MemoryWrites :=
  ⟨⟨fun m a bs h => tabWf_wrBytes bs m a h, fun m a bs ms h => tabWf_wrMasked bs ms m a h,
    fun _ ws p h => hbmLanes_memWf ws p h, fun _ c pa bs h => sysWrite_memWf c pa bs h,
    fun _ cls code src a d h => logError_memWf cls code src a d h, fun _ ci wi z h => takeTrap_memWf ci wi z h⟩,
   fun m a n v hv => by
    have h := rdBytes_wrBytes m a (leBytes n v)
    rw [leBytes_length] at h
    rw [h, leNat_leBytes, Nat.mod_eq_of_lt hv],
   fun m a bs b h => wrBytes_get_out m a bs h⟩

/-! ### Reset -/

theorem reset_core {ci : Nat} (h : ci < 384) : State.reset.core ci = Core.fresh := by
  simp [State.core, State.reset, h]
theorem reset_die {d : Nat} (h : d < 4) : State.reset.die d = Die.fresh d := by
  simp [State.die, State.reset, h]

/-- Settles O9: every core is `Core.fresh` and every die `Die.fresh`. -/
theorem resetState : Obligations.ResetState := by
  refine ⟨⟨rfl, rfl, rfl, rfl, fun ci h => ?_, rfl, rfl, fun n => ?_, fun d h => ?_, rfl, rfl, rfl⟩, rfl, rfl⟩
  · rw [reset_core h]
    refine ⟨rfl, rfl, rfl, rfl, by decide, fun j hj => ?_⟩
    revert j
    decide
  · by_cases hn : n < 64 <;> simp [Warp.sreg, Warp.scribe, Warp.fresh, hn]
  · rw [reset_die h]
    exact ⟨rfl, rfl⟩

/-! ### What a write of Bammar's own leaves of the cores -/

/-- Every core is as before but for its logical time and its L1. -/
def CoresKept (s t : State) : Prop := ∀ i, { t.core i with pts := (s.core i).pts, l1 := (s.core i).l1 } = s.core i

theorem CoresKept.refl (s : State) : CoresKept s s := fun _ => rfl
theorem CoresKept.of_cores {s t : State} (h : t.cores = s.cores) : CoresKept s t := fun i => by simp [State.core, h]
theorem CoresKept.trans {s t u : State} (h : CoresKept s t) (h' : CoresKept t u) : CoresKept s u := fun i => by
  have e := congrArg (fun k : Core => ({ k with pts := (s.core i).pts, l1 := (s.core i).l1 } : Core)) (h' i)
  exact e.trans (h i)
theorem CoresKept.foldl {α : Type} {f : State → α → State} (hf : ∀ s a, CoresKept s (f s a)) :
    ∀ (l : List α) (s : State), CoresKept s (l.foldl f s)
  | [], s => .refl s
  | a :: l, s => (hf s a).trans (foldl hf l _)
theorem core_modCore (s : State) (c i : Nat) (f : Core → Core) :
    (s.modCore c f).core i = if i = c ∧ c < 384 then f (s.core c) else s.core i := by
  by_cases hi : i = c
  · subst hi
    by_cases hc : i < 384
    · simp [hc, State.core_modCore_same]
    · simp [hc, State.core, State.modCore, State.setCore, Vector.setIfInBounds_eq_of_size_le (Nat.le_of_not_lt hc)]
  · simp [hi, State.core_modCore_ne]
theorem CoresKept.modCore {s : State} {c : Nat} {f : Core → Core} (hf : ∀ k : Core, { f k with pts := k.pts, l1 := k.l1 } = k) :
    CoresKept s (s.modCore c f) := fun i => by
  rw [core_modCore]
  split
  · next h => rw [h.1]; exact hf _
  · rfl

theorem recallAll_cores (s : State) (line : Nat) : (recallAll s line).cores = s.cores := by
  have hfold : ∀ (h : Nat) (l : List Nat) (s : State),
      (l.foldl (fun s d => if d = h then s else s.modDie d (·.invalidate line)) s).cores = s.cores := by
    intro h l
    induction l with
    | nil => exact fun _ => rfl
    | cons d l ih =>
      intro s
      rw [List.foldl_cons, ih]
      split <;> simp
  simp only [recallAll, State.modDie_cores, hfold]

theorem rmapTrim_kept (s : State) (c : Nat) : CoresKept s (rmapTrim s c) := .of_cores rfl
theorem modDie_kept (s : State) (d : Nat) (f : Die → Die) : CoresKept s (s.modDie d f) := .of_cores rfl
theorem hbmWrite_kept (s : State) (pa : Nat) (bs : List Byte) (p : Bool) : CoresKept s (s.hbmWrite pa bs p) := .of_cores rfl
theorem noteOuter_kept (s : State) (l : Nat) : CoresKept s (s.noteOuter l) := .of_cores rfl
theorem limitDie_kept (l : Nat) (s : State) (d : Nat) : CoresKept s (limitDie l s d) := .of_cores rfl
theorem dropL1_kept (s : State) (c : Nat) (p : Nat → L1Line → Bool) : CoresKept s (dropL1 s c p) := by
  unfold dropL1
  dsimp only
  split
  · exact .refl s
  · refine CoresKept.trans ?_ (rmapTrim_kept _ c)
    refine CoresKept.foldl (fun s q => ?_) _ s
    exact .modCore fun _ => rfl
theorem ackWrite_kept (s : State) (c : Nat) (p : Posted) : CoresKept s (ackWrite s c p) := by
  unfold ackWrite
  dsimp only
  exact .modCore fun k => by cases p.upd <;> rfl
theorem sysAck_kept (s : State) (c l : Nat) : CoresKept s (sysAck s c l) := by
  unfold sysAck
  split
  · exact ackWrite_kept _ _ _
  · exact dropL1_kept _ _ _
theorem sysPut_kept (s : State) (c pa : Nat) (bs : List Byte) : CoresKept s (s.sysPut c pa bs) := by
  unfold State.sysPut
  dsimp only
  refine CoresKept.trans ?_ (CoresKept.foldl (fun s l => ?_) _ _)
  · refine CoresKept.trans ?_ (CoresKept.foldl noteOuter_kept _ _)
    refine CoresKept.trans ?_ (hbmWrite_kept _ pa bs false)
    refine CoresKept.foldl (fun s l => ?_) _ s
    split
    · exact .of_cores (recallAll_cores _ _)
    · exact .refl _
  · refine CoresKept.trans ?_ (sysAck_kept _ _ _)
    refine CoresKept.trans ?_ (CoresKept.foldl (limitDie_kept l) _ _)
    split
    · exact modDie_kept _ _ _
    · exact modDie_kept _ _ _
theorem snoopNow_kept (c : Nat) (s : State) (l : Nat) : CoresKept s (snoopNow c s l) := by
  unfold snoopNow
  dsimp only
  split
  · exact .refl s
  · split
    · exact CoresKept.trans (modDie_kept _ _ _) (sysPut_kept _ _ _ _)
    · exact modDie_kept _ _ _
theorem sysWrite_kept (s : State) (c pa : Nat) (bs : List Byte) : CoresKept s (s.sysWrite c pa bs) :=
  (CoresKept.foldl (snoopNow_kept c) _ s).trans (sysPut_kept _ c pa bs)
theorem CoresKept.warp? {s t : State} (h : CoresKept s t) (ci wi : Nat) : t.warp? ci wi = s.warp? ci wi := by
  have := congrArg Core.warps (h ci)
  exact Core.warp?_congr this wi

/-! ### Taking a trap -/

/-- Outside a handler, under a TRAPV: the frame is written, and the warp takes its entry. -/
theorem takeTrap_taken {s : State} {ci wi : Nat} {w : Warp} {g : Wg} {e : Entry} {es : List Entry} (z : Cause)
    (hw : s.warp? ci wi = some w) (hg : (s.core ci).wgOf w = some g) (hh : w.handler = none) (ht : g.trapv ≠ 0#64)
    (hf : w.front = e :: es) :
    takeTrap s ci wi z = (s.sysWrite ci w.framePa (frameBytes z w.lig.on (w.sreg 63))).modWarp ci wi fun w =>
      { w.sput 63 w.frameVa false with
          front := [⟨g.trapv, 0, 0#12, e.mask⟩]
          spilled := []
          job := none
          clause := none
          resume := none
          unread := true
          lig := ⟨false, 0#32, 0#32, [], false, [], false⟩
          wait := .none
          handler := some ⟨w.front, w.spilled, w.lig⟩ } := by
  unfold takeTrap
  simp only [hw, hg, hh, Option.isSome_none, Bool.false_eq_true, ht, decide_false, Bool.or_self, if_false, hf]

theorem trapEntry_holds : Claim.TrapEntry := by
  intro s ci wi z w g e es hc hw hg hh ht hf
  rw [takeTrap_taken z hw hg hh ht hf]
  have hk := sysWrite_kept s ci w.framePa (frameBytes z w.lig.on (w.sreg 63))
  refine ⟨_, by rw [State.warp?_modWarp_same _ _ _ hc, hk.warp?, hw, Option.map_some], ?_⟩
  refine ⟨?_, fun n => ?_, rfl, rfl, rfl, rfl, rfl, rfl, rfl, rfl, rfl, rfl, rfl, ?_, ?_, fun a ha hcl => ?_⟩
  · exact (Warp.sreg_sput w w.frameVa false 63 (by decide)).trans (if_pos rfl)
  · exact (Warp.sreg_sput w w.frameVa false n.val (by decide)).trans (if_neg (by omega))
  · have := congrArg Core.tickets (hk ci)
    rw [State.modWarp, State.core_modCore_same _ _ hc, Core.modWarp_tickets]
    exact this
  · have := congrArg Core.rf (hk ci)
    rw [State.modWarp, State.core_modCore_same _ _ hc, Core.modWarp_rf]
    exact this
  · have := sysWrite_get s ci w.framePa (frameBytes z w.lig.on (w.sreg 63)) (a := a) (by simpa using ha) (by simpa using hcl)
    exact this

theorem trapWaits {s : State} {ci wi : Nat} {w : Warp} {g : Wg} (z : Cause) (hw : s.warp? ci wi = some w)
    (hg : (s.core ci).wgOf w = some g) (h : w.handler.isSome = true ∨ g.trapv = 0#64) :
    takeTrap s ci wi z = s.modWarp ci wi fun w => { w with escal := some z, clause := none } := by
  unfold takeTrap
  simp only [hw, hg]
  rw [if_pos (by simpa using h)]

/-- The number that the trap frame's bytes hold. -/
theorem frameNat (z : Cause) (lig : Bool) (s63 : Dword) (hc : z.code < 64) (hp : z.pos < 16) :
    leNat (frameBytes z lig s63) = z.code + z.pos * 2 ^ 16 + z.tkst.toNat * 2 ^ 20 + (if z.skip then 2 ^ 24 else 0)
      + (if lig then 2 ^ 25 else 0) + z.mask.toNat * 2 ^ 96 + z.pc.toNat * 2 ^ 128 + z.xcode.toNat * 2 ^ 192
      + (if hasFaultVa z.code then z.va.toNat * 2 ^ 256 else 0) + s63.toNat * 2 ^ 320 := by
  rw [frameBytes, leNat_leBytes, Nat.mod_eq_of_lt]
  have h1 := z.tkst.isLt
  have h2 := z.mask.isLt
  have h3 := z.pc.isLt
  have h4 := z.xcode.isLt
  have h5 := z.va.isLt
  have h6 := s63.isLt
  split <;> split <;> split <;> omega

/-- The fields of a number put together as the trap frame is (R385). -/
theorem frame_fields {c p t a b m pc x va s63 v : Nat} (hv : v = c + p * 2 ^ 16 + t * 2 ^ 20 + a * 2 ^ 24 + b * 2 ^ 25 + m * 2 ^ 96
      + pc * 2 ^ 128 + x * 2 ^ 192 + (va + s63 * 2 ^ 64) * 2 ^ 256)
    (hc : c < 2 ^ 6) (hp : p < 2 ^ 4) (ht : t < 2 ^ 4) (ha : a < 2) (hb : b < 2) (hm : m < 2 ^ 32) (hpc : pc < 2 ^ 64)
    (hx : x < 2 ^ 64) (hva : va < 2 ^ 64) :
    v % 2 ^ 6 = c ∧ v / 2 ^ 6 % 2 ^ 10 = 0 ∧ v / 2 ^ 16 % 2 ^ 4 = p ∧ v / 2 ^ 20 % 2 ^ 4 = t ∧ v / 2 ^ 24 % 2 = a
      ∧ v / 2 ^ 25 % 2 = b ∧ v / 2 ^ 26 % 2 ^ 70 = 0 ∧ v / 2 ^ 96 % 2 ^ 32 = m ∧ v / 2 ^ 128 % 2 ^ 64 = pc
      ∧ v / 2 ^ 192 % 2 ^ 64 = x ∧ v / 2 ^ 256 % 2 ^ 64 = va ∧ v / 2 ^ 320 = s63 := by
  have htop : v / 2 ^ 256 = va + s63 * 2 ^ 64 := by omega
  have hlast : v / 2 ^ 320 = v / 2 ^ 256 / 2 ^ 64 := by rw [Nat.div_div_eq_div_mul, ← Nat.pow_add]
  rw [hlast, htop]
  refine ⟨?_, ?_, ?_, ?_, ?_, ?_, ?_, ?_, ?_, ?_, ?_, ?_⟩ <;> omega

theorem hasFaultVa_iff (c : Nat) : hasFaultVa c = true ↔ c = 0x04 ∨ c = 0x05 ∨ c = 0x06 := by
  simp [hasFaultVa, cMisaligned, cAccessDenied, cTicketError, or_assoc]

theorem ite_mul_nat (c : Prop) [Decidable c] (a b n : Nat) : (if c then a else b) * n = if c then a * n else b * n := by
  split <;> rfl

theorem trapFrame_holds : Claim.TrapFrame := by
  refine ⟨fun z lig s63 hc hp => ⟨frameBytes_length _ _ _, ?_⟩, fun s ci wi z w g hw hg h => trapWaits z hw hg h⟩
  have hv := frameNat z lig s63 hc hp
  have hva : (if hasFaultVa z.code then z.va.toNat else 0) < 2 ^ 64 := by
    split
    · exact z.va.isLt
    · decide
  have hsum : leNat (frameBytes z lig s63) = z.code + z.pos * 2 ^ 16 + z.tkst.toNat * 2 ^ 20 + (if z.skip then 1 else 0) * 2 ^ 24
      + (if lig then 1 else 0) * 2 ^ 25 + z.mask.toNat * 2 ^ 96 + z.pc.toNat * 2 ^ 128 + z.xcode.toNat * 2 ^ 192
      + ((if hasFaultVa z.code then z.va.toNat else 0) + s63.toNat * 2 ^ 64) * 2 ^ 256 := by
    have hpow : (2 : Nat) ^ 320 = 2 ^ 64 * 2 ^ 256 := by rw [← Nat.pow_add]
    rw [hv, hpow, Nat.add_mul _ _ (2 ^ 256), ← Nat.add_assoc, Nat.mul_assoc s63.toNat]
    simp only [ite_mul_nat, Nat.zero_mul, Nat.one_mul]
  obtain ⟨h1, h2, h3, h4, h5, h6, h7, h8, h9, h10, h11, h12⟩ := frame_fields hsum (by omega) (by omega)
    z.tkst.isLt (by split <;> decide) (by split <;> decide) z.mask.isLt z.pc.isLt
    (Nat.lt_trans z.xcode.isLt (by decide)) hva
  refine ⟨h1, h2, h3, h4, ?_, ?_, h7, h8, h9, h10, ?_, h12⟩
  · rw [h5]; cases z.skip <;> simp
  · rw [h6]; cases lig <;> simp
  · simp only [h11, hasFaultVa_iff]

/-- Settles O31: the write of the frame keeps the core and every other byte, and the frame's number is put together from its fields. -/
theorem takingATrap : Obligations.TakingATrap := ⟨trapEntry_holds, trapFrame_holds⟩

end Sys2Proof
end

section
/-! PROOFS. The obligations of 09 on the memory instructions: how their accesses start, and what a denied lane does. -/

namespace Sys2Proof

open Machine

/-! ### The accesses of a word that runs (R186, R191, R205, R206) -/

/-- The lowest cause names the place of the context's warp, and nothing else of the context. -/
theorem lowestCause_congr {k k' : Ctx} (h : k'.w = k.w) (l : List (Nat × Nat × Dword)) : lowestCause k' l = lowestCause k l := by
  simp only [lowestCause, Ctx.cause_congr h]

section
variable {i : Instr} {m : MemShape} {s u : State} {k : Ctx} {fs : List (Access × Found)}

/-- Aligned lanes that some word has: `runAccess` looks its accesses up. -/
theorem runAccess_aligned (hm : memShape i = some m) {x : Ctx} (ha : m.aligned x)
    (hl : lookups (m.res x).ci (m.res x).g (m.res x).s (m.accs x) = (u, fs)) :
    runAccess m.c m.kind m.ty m.sp m.ord m.sc m.long (m.lanes x) (m.res x) =
      match lowestCause (m.res x) ((fs.map fun e => badLanes e.2).foldl (· ++ ·) []) with
      | some z => .trap z
      | none => if twinFull u (m.res x) fs then .hold else
          .ok (startAccesses m.c m.long (if m.long then (m.res x).w.idNext + 1 else (m.res x).w.idNext) (m.accs x).length (m.res x) fs u) := by
  obtain ⟨hne, hal⟩ := ha
  rw [runAccess_eq _ _ _ _ _ _ _ _ _ hne, misLanes_nil hal, ← memShape_accs hm]
  simp only [hl, List.isEmpty_nil, Bool.not_true, Bool.false_eq_true, if_false] <;> rfl

/-- Accesses that pass their checks, of no full twin buffer, start. -/
theorem runAccess_starts (hm : memShape i = some m) {x : Ctx} (ha : m.aligned x)
    (hl : lookups x.ci (m.res x).g (m.res x).s (m.accs x) = (u, fs)) (hb : ∀ e ∈ fs, badLanes e.2 = [])
    (ht : twinFull u (m.res x) fs = false) :
    runAccess m.c m.kind m.ty m.sp m.ord m.sc m.long (m.lanes x) (m.res x) =
      .ok (startAccesses m.c m.long (if m.long then x.w.idNext + 1 else x.w.idNext) (m.accs x).length (m.res x) fs u) := by
  obtain ⟨hw, -, hci, -⟩ := memShape_res hm x
  have hnone : lowestCause (m.res x) [] = none := rfl
  have hl' : lookups (m.res x).ci (m.res x).g (m.res x).s (m.accs x) = (u, fs) := by rw [hci]; exact hl
  rw [runAccess_aligned hm ha hl', foldl_badLanes fs hb, hnone, ht, hw]
  rfl

end

/-! ### What a step of the caches leaves alone -/

/-- A fold of steps that each keep a part of the state keeps it. -/
theorem foldl_keeps {α β σ : Type} {g : σ → β} {f : σ → α → σ} (hf : ∀ s a, g (f s a) = g s) :
    ∀ (l : List α) (s : σ), g (l.foldl f s) = g s
  | [], _ => rfl
  | a :: l, s => (foldl_keeps hf l (f s a)).trans (hf s a)

theorem noteRead_rest (s : State) (ci : Nat) (a : Access) (w : BitVec 16) (x : Bool) :
    { noteRead s ci a w x with cores := s.cores } = s := by
  unfold noteRead
  split
  · rfl
  · split <;> cases acqs a.ord <;> rfl
theorem noteSee_rest (s : State) (ci : Nat) (a : Access) (n rel : Nat) :
    { noteSee s ci a n rel with cores := s.cores } = s := by
  unfold noteSee
  split
  · cases acqs a.ord <;> rfl
  · rfl
theorem noteCopy_rest (s : State) (ci : Nat) (a : Access) (vline line : Nat) :
    { noteCopy s ci a vline line with cores := s.cores } = s := by
  unfold noteCopy
  split
  · split
    · exact noteSee_rest s ci a _ _
    · exact noteSee_rest s ci a _ _
  · exact noteSee_rest s ci a _ _
/-- A core's writes are numbered, and a window's release is noted; only the cores and the record of happens-before change. -/
theorem noteStore_rest (s : State) (ci : Nat) (a : Access) (line : Nat) :
    { noteStore s ci a line with cores := s.cores, writes := s.writes, marks := s.marks } = s := by
  unfold noteStore
  dsimp only
  split <;> split <;> rfl
theorem noteWrite_rest (s : State) (ci : Nat) (a : Access) (w : Option (BitVec 16)) (u : Option (Nat × BitVec 1024 × BitVec 2)) :
    { noteWrite s ci a w u with cores := s.cores } = s := by
  unfold noteWrite
  split <;> rfl

/-- A read's note keeps whatever does not look at the cores. -/
theorem noteRead_keeps {β : Type} (g : State → β) (hg : ∀ (s : State) c, g { s with cores := c } = g s) (s : State) (ci : Nat)
    (a : Access) (w : BitVec 16) (x : Bool) (vline line : Nat) :
    g (noteCopy (noteRead s ci a w x) ci a vline line) = g s := by
  have h1 := congrArg g (noteCopy_rest (noteRead s ci a w x) ci a vline line)
  have h2 := congrArg g (noteRead_rest s ci a w x)
  rw [hg] at h1 h2
  rw [h1, h2]

/-- A write's note and its wait for the acknowledgement keep whatever does not look at the cores or at happens-before. -/
theorem written_keeps {β : Type} (g : State → β) (hg : ∀ (s : State) c w m, g { s with cores := c, writes := w, marks := m } = g s)
    (s : State) (ci : Nat) (a : Access) (line : Nat) (w : Option (BitVec 16)) (u : Option (Nat × BitVec 1024 × BitVec 2)) :
    g (noteWrite (noteStore s ci a line) ci a w u) = g s := by
  have h1 := congrArg g (noteWrite_rest (noteStore s ci a line) ci a w u)
  have h2 := congrArg g (noteStore_rest s ci a line)
  rw [hg] at h2
  rw [← h2, ← h1]
  exact (hg _ _ _ _).symm

theorem die_modDie (s : State) (d i : Nat) (f : Die → Die) :
    (s.modDie d f).die i = if i = d ∧ d < 4 then f (s.die d) else s.die i := by
  by_cases hi : i = d
  · subst hi
    by_cases hd : i < 4
    · simp [hd, State.die_modDie_same]
    · simp [hd, State.die, State.modDie, State.setDie]
  · simp [hi, State.die_modDie_ne]
/-- The tags of a die stay where a change of dies keeps them. -/
theorem die_modDie_l2 {f : Die → Die} (hf : ∀ k, (f k).l2 = k.l2) (s : State) (d i : Nat) :
    ((s.modDie d f).die i).l2 = (s.die i).l2 := by
  rw [die_modDie]
  split
  · next h => rw [hf, h.1]
  · rfl

/-- A fill of an L1 changes cores and reverse maps only. -/
theorem l1Fill_keeps {β : Type} (g : State → β) (hc : ∀ (s : State) c f, g (s.modCore c f) = g s)
    (hq : ∀ (s : State) d q f, g (s.modDie d fun k => k.modQuad q f) = g s) (s : State) (c : Nat) (e : L1Line) :
    g (l1Fill s c e) = g s := by
  rw [l1Fill, rmapTrim, hq, hq, hc]
  exact foldl_keeps (fun s a => hc s a _) _ _

/-! ### Little-endian bytes of a line -/

theorem leNat_append (a b : List Byte) : leNat (a ++ b) = leNat a + 256 ^ a.length * leNat b := by
  induction a with
  | nil => simp [leNat]
  | cons x a ih => rw [List.cons_append, leNat, leNat, ih, List.length_cons, Nat.pow_succ, Nat.mul_add, ← Nat.add_assoc,
      Nat.mul_comm (256 ^ a.length) 256, Nat.mul_assoc]
theorem leNat_lt (a : List Byte) : leNat a < 256 ^ a.length := by
  induction a with
  | nil => simp [leNat]
  | cons x a ih =>
    have hx : x.toNat < 256 := x.isLt
    rw [leNat, List.length_cons, Nat.pow_succ]
    omega
theorem rdBytes_length (m : List (Nat × Byte)) (a n : Nat) : (rdBytes m a n).length = n := by simp [rdBytes]
theorem rdBytes_add (m : List (Nat × Byte)) (a i n : Nat) : rdBytes m a (i + n) = rdBytes m a i ++ rdBytes m (a + i) n := by
  simp [rdBytes, List.range_add, Nat.add_assoc]

/-- Bytes that lie within others are those of their place in the number. -/
theorem leNat_rdBytes_part (m : List (Nat × Byte)) (a : Nat) {o n len : Nat} (h : o + n ≤ len) :
    leNat (rdBytes m a len) / 256 ^ o % 256 ^ n = leNat (rdBytes m (a + o) n) := by
  obtain ⟨r, rfl⟩ := Nat.exists_eq_add_of_le h
  have ho := leNat_lt (rdBytes m a o)
  have hn := leNat_lt (rdBytes m (a + o) n)
  rw [rdBytes_length] at ho hn
  rw [Nat.add_assoc, rdBytes_add, rdBytes_add, leNat_append, leNat_append, rdBytes_length, rdBytes_length,
    Nat.add_mul_div_left _ _ (Nat.pow_pos (by decide)), Nat.div_eq_of_lt ho, Nat.zero_add, Nat.add_mul_mod_self_left, Nat.mod_eq_of_lt hn]

/-- Data of a line are the bytes in memory. -/
theorem dataAt_lineData (s : State) {p n line : Nat} (hl : p / 128 = line) (hn : p % 128 + n ≤ 128) :
    dataAt (lineData s line) (p % 128) n = leNat (rdBytes s.hbm p n) := by
  have hpow : ∀ k, (2 : Nat) ^ (8 * k) = 256 ^ k := fun k => Nat.pow_mul 2 8 k
  have hlt : leNat (rdBytes s.hbm (line * 128) 128) < 2 ^ (8 * 128) := by
    have := leNat_lt (rdBytes s.hbm (line * 128) 128)
    rwa [rdBytes_length, ← hpow] at this
  rw [dataAt, lineData, BitVec.toNat_ofNat, Nat.mod_eq_of_lt hlt, hpow, hpow, leNat_rdBytes_part _ _ hn,
    show line * 128 + p % 128 = p from by omega]

/-! ### TRK loads (R5, R209, R244) -/

theorem recallRead_rest (s : State) (line : Nat) : { recallRead s line with dies := s.dies } = s := by
  unfold recallRead
  dsimp only
  split
  · split <;> rfl
  · rfl
theorem Die.homeTag_line (k : Die) (line : Nat) : (k.homeTag line).line = line := by
  unfold Die.homeTag
  split
  · next t ht => simpa using List.find?_some ht
  · split <;> rfl

/-- A read at the L2 changes only the dies, and answers a tag of its line. -/
theorem l2Read_ok {s u : State} {d line : Nat} {g : L2Tag} (h : l2Read s d line = .ok (u, g)) :
    { u with dies := s.dies } = s ∧ g.line = line := by
  unfold l2Read at h
  dsimp only at h
  split at h
  · cases h
  split at h
  · split at h
    · cases h
    split at h
    · cases h
    · obtain ⟨rfl, rfl⟩ := Prod.mk.inj (Except.ok.inj h)
      exact ⟨recallRead_rest s line, Die.homeTag_line _ _⟩
  · split at h
    · next t ht =>
      obtain ⟨rfl, rfl⟩ := Prod.mk.inj (Except.ok.inj h)
      exact ⟨rfl, by simpa using List.find?_some ht⟩
    · cases h

/-- The tag of a load that its slice answers: its lease extends rts within LTLIM. -/
def leasedTag (u : State) (c : Nat) (g : L2Tag) (lease : BitVec 8) : L2Tag :=
  { g with rts := tmin (tmaxE g.rExp g.rts ((u.core c).pts + lease.setWidth 16)) (u.die (dieOfCore c)).ltlim, rExp := false }

/-- The L1 line that such a load leaves. -/
def leasedLine (u : State) (c : Nat) (pasid : BitVec 20) (vline line : Nat) (g : L2Tag) (lease : BitVec 8) : L1Line :=
  let r := (leasedTag u c g lease).rts
  ⟨pasid, vline, line, lineData u line, linePois u line ||| g.pois, g.wts, r, g.wExp, !(tle (u.core c).pts r), u.writes,
    (u.mark line).rel⟩

/-- A load that no L1 copy answers: the line's bytes and poison, and a state whose slice holds the extended tag. -/
theorem loadTrk_slice {s u : State} {c line vline : Nat} {pasid : BitVec 20} {lease : BitVec 8} {own : Bool} {g : L2Tag} (hc : c < 384)
    (hm : own = true ∨ l1Hit s c pasid vline = none) (hr : l2Read s (dieOfCore c) line = .ok (u, g)) :
    ∃ t, loadTrk s c pasid vline line lease true own = .ok t (lineData s line) (linePois s line ||| g.pois) g.wts g.wExp
      ∧ t.hbm = s.hbm ∧ t.hostMem = s.hostMem ∧ (t.die (dieOfCore c)).tag? line = some (leasedTag u c g lease) := by
  have hmiss : (if own then none else l1Hit s c pasid vline) = none := by rcases hm with h | h <;> simp [h]
  obtain ⟨hu, hl⟩ := l2Read_ok hr
  have hhbm : u.hbm = s.hbm := by have := congrArg State.hbm hu; exact this
  have hpois : u.hbmPois = s.hbmPois := by have := congrArg State.hbmPois hu; exact this
  have hhost : u.hostMem = s.hostMem := by have := congrArg State.hostMem hu; exact this
  have hd : dieOfCore c < 4 := by unfold dieOfCore; omega
  refine ⟨l1Fill (u.modDie (dieOfCore c) (·.setTag (leasedTag u c g lease))) c (leasedLine u c pasid vline line g lease), ?_, ?_, ?_, ?_⟩
  · have e1 : lineData s line = lineData u line := by rw [lineData, lineData, hhbm]
    have e2 : linePois s line = linePois u line := by rw [linePois, linePois, hpois]
    rw [e1, e2, loadTrk, hmiss]
    simp only [hr] <;> rfl
  · exact (l1Fill_keeps State.hbm (fun _ _ _ => rfl) (fun _ _ _ _ => rfl) _ c _).trans hhbm
  · exact (l1Fill_keeps State.hostMem (fun _ _ _ => rfl) (fun _ _ _ _ => rfl) _ c _).trans hhost
  · have hl2 := l1Fill_keeps (fun s => (s.die (dieOfCore c)).l2) (fun _ _ _ => rfl)
      (fun s d q f => die_modDie_l2 (f := fun k => k.modQuad q f) (fun _ => rfl) s d _) (u.modDie (dieOfCore c) (·.setTag (leasedTag u c g lease))) c
      (leasedLine u c pasid vline line g lease)
    rw [Die.tag?, hl2, State.die_modDie_same _ _ hd]
    simp [Die.setTag, leasedTag, hl]

/-! ### TRK stores (R5, R207, R210) -/

theorem modDie_rest (s : State) (d : Nat) (f : Die → Die) (x : Vector Die 4) :
    ({ s.modDie d f with dies := x } : State) = { s with dies := x } := rfl
theorem recallAll_rest (s : State) (line : Nat) : { recallAll s line with dies := s.dies } = s := by
  have h := foldl_keeps (g := fun u : State => ({ u with dies := s.dies } : State))
    (f := fun u d => if d = homeDie (line * 128) then u else u.modDie d (·.invalidate line))
    (fun u d => by split <;> rfl) (List.range 4) s
  exact h

/-- A store that its slice stamps changes only the dies. -/
theorem storeTrk_rest {s u : State} {c line : Nat} {w : Option (BitVec 16)} (h : storeTrk s c line = .ok (u, w)) :
    { u with dies := s.dies } = s := by
  unfold storeTrk at h
  dsimp only at h
  split at h
  · cases h
  split at h
  · split at h
    · cases h
    split at h
    · cases h
    split at h
    · cases h
    split at h
    · cases h
    · obtain ⟨rfl, -⟩ := Prod.mk.inj (Except.ok.inj h)
      exact (modDie_rest _ _ _ _).trans (recallAll_rest s line)
  · split at h
    · split at h
      · split at h
        · cases h
        split at h
        · cases h
        · obtain ⟨rfl, -⟩ := Prod.mk.inj (Except.ok.inj h)
          rfl
      · cases h
    · cases h

/-- Byte `i` of a number. -/
theorem leBytes_getElem? (n : Nat) : ∀ (v : Nat) {i : Nat}, i < n → (leBytes n v)[i]? = some (BitVec.ofNat 8 (v / 2 ^ (8 * i))) := by
  induction n with
  | zero => intro v i h; omega
  | succ n ih =>
    intro v i h
    cases i with
    | zero => simp only [leBytes, List.getElem?_cons_zero, Nat.mul_zero, Nat.pow_zero, Nat.div_one, Option.some.injEq]
              exact BitVec.eq_of_toNat_eq (by simp)
    | succ i =>
      rw [leBytes, List.getElem?_cons_succ, ih _ (by omega), Nat.div_div_eq_div_mul, Nat.mul_succ, Nat.add_comm]
      exact congrArg (fun p => some (BitVec.ofNat 8 (v / p))) (Nat.pow_add 2 8 (8 * i)).symm

/-- A number's bytes in memory. -/
theorem tabGet_wrBytes_leBytes (m : List (Nat × Byte)) {a n v b : Nat} (h : a ≤ b) (h' : b < a + n) :
    tabGet 0#8 (wrBytes m a (leBytes n v)) b = BitVec.ofNat 8 (v / 2 ^ (8 * (b - a))) := by
  rw [wrBytes_get, leBytes_length, if_pos ⟨h, h'⟩, leBytes_getElem? _ _ (by omega), Option.getD_some]

/-- Memory after the lanes of a store, in ascending order. -/
def lanesMem (m : List (Nat × Byte)) (ls : List (LaneAcc × Nat)) : List (Nat × Byte) :=
  ls.foldl (fun m x => wrBytes m x.2 (leBytes x.1.size x.1.data)) m

theorem lanesMem_out {ls : List (LaneAcc × Nat)} {b : Nat} (h : ∀ x ∈ ls, ¬ (x.2 ≤ b ∧ b < x.2 + x.1.size)) :
    ∀ m, tabGet 0#8 (lanesMem m ls) b = tabGet 0#8 m b := by
  induction ls with
  | nil => exact fun _ => rfl
  | cons x ls ih =>
    intro m
    have hx := h x List.mem_cons_self
    have e := ih (fun y hy => h y (List.mem_cons_of_mem _ hy)) (wrBytes m x.2 (leBytes x.1.size x.1.data))
    exact e.trans (wrBytes_get_out _ _ _ (by rw [leBytes_length]; omega))

theorem lanesMem_last (m : List (Nat × Byte)) (pre : List (LaneAcc × Nat)) {post : List (LaneAcc × Nat)} {x : LaneAcc × Nat} {b : Nat}
    (h : x.2 ≤ b) (h' : b < x.2 + x.1.size) (hp : ∀ y ∈ post, ¬ (y.2 ≤ b ∧ b < y.2 + y.1.size)) :
    tabGet 0#8 (lanesMem m (pre ++ x :: post)) b = BitVec.ofNat 8 (x.1.data / 2 ^ (8 * (b - x.2))) := by
  rw [lanesMem, List.foldl_append, List.foldl_cons]
  exact (lanesMem_out hp _).trans (tabGet_wrBytes_leBytes _ h h')

theorem hbmLanes_hbm (s : State) (ls : List (LaneAcc × Nat)) (p : Bool) :
    (hbmLanes s (ls.map fun x => (x.2, x.1.size, x.1.data)) p).hbm = lanesMem s.hbm ls := by
  simp only [hbmLanes, List.foldl_map, lanesMem]

/-- A performed store of a TRK line: what it writes, and that it writes nothing else of the memories. -/
theorem perfTrk_store {s t : State} {ci : Nat} {a : Access} {ls : List (LaneAcc × Nat)} {ws : List RegWrite} {bad : Mask}
    {st : BitVec 4} (hk : a.kind = .store) (h : perfTrk s ci a ls = .done t ws bad st) :
    ws = [] ∧ bad = 0#32 ∧ t.hostMem = s.hostMem ∧ t.hbm = lanesMem s.hbm ls := by
  simp only [perfTrk, hk] at h
  split at h
  · cases h
  · next u w hs =>
    obtain ⟨rfl, rfl, rfl, -⟩ := Perf.done.inj h
    have hu := storeTrk_rest hs
    have hhbm : u.hbm = s.hbm := by have := congrArg State.hbm hu; exact this
    have hhost : u.hostMem = s.hostMem := by have := congrArg State.hostMem hu; exact this
    exact ⟨rfl, rfl, (written_keeps State.hostMem (fun _ _ _ _ => rfl) _ ci a _ w _).trans hhost,
      (written_keeps State.hbm (fun _ _ _ _ => rfl) _ ci a _ w _).trans ((hbmLanes_hbm u ls false).trans (by rw [hhbm]))⟩

/-! ### The obligations -/

/-- Settles O32: the body of the word is `runAccess` of its shape, whose checks all pass; with no active lane there is no access. -/
theorem accessesStart : Obligations.AccessesStart := by
  intro i m s u k fs hm hr x y
  have he : exec i s = wordDone k m.c (runAccess m.c m.kind m.ty m.sp m.ord m.sc m.long (m.lanes x) y) :=
    (exec_memShape hm s).trans (runInstr_ready hr _)
  refine ⟨fun ha hl hb ht => ?_, fun h0 => ?_⟩
  · have hl' : lookups x.ci y.g y.s (m.accs x) = (u, fs) := by rw [popped_ci]; exact hl
    rw [he, runAccess_starts hm ha hl' hb ht] <;> rfl
  · rw [he, memShape_lanes_none hm x ((popped_act k m.opds).trans h0), runAccess_none]
    rfl

/-- Settles O34: the lanes are aligned, so the checks of the core decide, and the lowest cause among them is the word's. -/
theorem accessDenied : Obligations.AccessDenied := by
  intro i m s u k fs z hm hr x ha hl hz
  obtain ⟨hw, -, hci, -⟩ := memShape_res hm x
  have hz' : lowestCause (m.res x) ((fs.map fun e => badLanes e.2).foldl (· ++ ·) []) = some z :=
    (lowestCause_congr (hw.trans (popped_w hr.issuer m.opds)) _).trans hz
  have hl' : lookups (m.res x).ci (m.res x).g (m.res x).s (m.accs x) = (u, fs) := by rw [hci, popped_ci]; exact hl
  refine traps_of_body (exec_memShape hm s) hr ?_
  rw [runAccess_aligned hm ha hl', hz']

/-- Settles O35: the load goes to its slice, whose line is the memory's bytes and whose tag it extends; the notes of the read change
no die and no memory. -/
theorem trackedLoad : Obligations.TrackedLoad := by
  intro s t u ci slot a ls ws bad st l0 pa0 g hci hk hp hls hmiss hin hr hperf
  obtain ⟨v, hload, hhbm, hhost, htag⟩ := loadTrk_slice (vline := (((a.lanes.head?).map (·.va.toNat)).getD 0) / 128)
    (pasid := a.pasid) (lease := a.lease) (own := ownPosted s ci a (lineOf pa0)) hci hmiss hr
  simp only [perfTrk, hk, hp, hls, Option.map_some, Option.getD_some, if_true, hload] at hperf
  obtain ⟨rfl, rfl, rfl, -⟩ := Perf.done.inj hperf
  refine ⟨?_, rfl, ?_, ?_, ?_⟩
  · refine List.map_congr_left fun x hx => ?_
    obtain ⟨hline, -, hsize⟩ := hin x hx
    rw [dataAt_lineData s (line := lineOf pa0) hline hsize]
  · exact (noteRead_keeps State.hbm (fun _ _ => rfl) v ci a _ _ _ _).trans hhbm
  · exact (noteRead_keeps State.hostMem (fun _ _ => rfl) v ci a _ _ _ _).trans hhost
  · have := noteRead_keeps (fun s => s.die (dieOfCore ci)) (fun _ _ => rfl) v ci a g.wts g.wExp
      ((((a.lanes.head?).map (·.va.toNat)).getD 0) / 128) (lineOf pa0)
    rw [this, htag]
    rfl

/-- Settles O36: the store's lanes are written in order, so the last one that covers a byte gives it. -/
theorem trackedStore : Obligations.TrackedStore := by
  intro s t ci a ls ws bad st hk h
  obtain ⟨hws, hbad, hhost, hhbm⟩ := perfTrk_store hk h
  refine ⟨hws, hbad, hhost, fun b hb => ?_, fun pre post x b hls hb hb' hp => ?_⟩
  · rw [State.byteAt, hhbm, lanesMem_out hb, State.byteAt]
  · rw [State.byteAt, hhbm, hls, lanesMem_last _ pre hb hb' hp]

end Sys2Proof
end

section
/-! PROOFS. The obligations of 09 on atomics, fences, leases and ticket instructions. -/

namespace Sys2Proof

open Machine

/-! ### Atomics (R214-R219) -/

/-- One atomic of an integer type is a step of REDUX without flags. -/
theorem redStep_int {t : Ty} (h : isIntTy t = true) (op : RedOp) (rm : Rm) (x y : Nat) :
    (redStep t op rm x y).1 = match op with
      | .add => (x + y) % 2 ^ tyWidth t
      | .min => if tyInt t x ≤ tyInt t y then x else y
      | .max => if tyInt t x ≤ tyInt t y then y else x
      | .and => x &&& y
      | .or => x ||| y
      | .xor => x ^^^ y := by
  have hf : isFloatTy t = false := by cases t <;> first | rfl | cases h
  cases op <;> simp only [redStep, hf, Bool.false_eq_true, if_false]

theorem aopNew_add_int {t : Ty} (h : isIntTy t = true) (x y : Nat) : aopNew .add t x y = (x + y) % 2 ^ tyWidth t :=
  redStep_int h .add .rne x y

/-- One lane of an ATOMR: the location's next value, and what the lane is answered. -/
def atomrStep (k : AOp) (t : Ty) (p : Bool) (r : Nat × List RegWrite) (g : Nat × Nat × Dest) : Nat × List RegWrite :=
  (aopNew k t r.1 g.2.1, r.2 ++ [⟨g.2.2, t, r.1, p⟩])

/-- The lanes of an ATOMR leave the location with each lane's B applied in order. -/
theorem atomr_new (k : AOp) (t : Ty) (p : Bool) : ∀ (l : List (Nat × Nat × Dest)) (r : Nat × List RegWrite),
    (l.foldl (atomrStep k t p) r).1 = l.foldl (fun v g => aopNew k t v g.2.1) r.1
  | [], _ => rfl
  | _ :: l, _ => atomr_new k t p l _
/-- Each lane of an ATOMR adds one answer behind the ones before it. -/
theorem atomr_answers (k : AOp) (t : Ty) (p : Bool) : ∀ (l : List (Nat × Nat × Dest)) (r : Nat × List RegWrite),
    ∃ ws, (l.foldl (atomrStep k t p) r).2 = r.2 ++ ws ∧ ws.length = l.length
  | [], _ => ⟨[], by simp⟩
  | g :: l, r => by
    obtain ⟨ws, he, hl⟩ := atomr_answers k t p l (atomrStep k t p r g)
    exact ⟨⟨g.2.2, t, r.1, p⟩ :: ws, by rw [List.foldl_cons, he]; simp [atomrStep], by simp [hl]⟩
/-- A lane of an ATOMR is answered what the location held after the lanes before it. -/
theorem atomr_answer (k : AOp) (t : Ty) (p : Bool) (old : Nat) (pre post : List (Nat × Nat × Dest)) (g : Nat × Nat × Dest) :
    ((pre ++ g :: post).foldl (atomrStep k t p) (old, [])).2[pre.length]? =
      some ⟨g.2.2, t, pre.foldl (fun v g => aopNew k t v g.2.1) old, p⟩ := by
  rw [List.foldl_append, List.foldl_cons]
  obtain ⟨ws, he, hl⟩ := atomr_answers k t p pre (old, [])
  obtain ⟨ws', he', -⟩ := atomr_answers k t p post (atomrStep k t p (pre.foldl (atomrStep k t p) (old, [])) g)
  rw [he', atomrStep, he, atomr_new]
  simp [← hl]

/-- Unsigned or wrapping adds in a row add up modulo 2^w. -/
theorem foldl_add {t : Ty} (h : isIntTy t = true) : ∀ (l : List (Nat × Nat × Dest)) (v : Nat), v < 2 ^ tyWidth t →
    l.foldl (fun v g => aopNew .add t v g.2.1) v = (v + (l.map (·.2.1)).foldl (· + ·) 0) % 2 ^ tyWidth t
  | [], v, hv => (Nat.mod_eq_of_lt hv).symm
  | g :: l, v, hv => by
    have hs : ∀ (l : List Nat) a, l.foldl (· + ·) a = a + l.foldl (· + ·) 0 := fun l a => by
      simpa using (List.foldl_assoc (op := ((· + ·) : Nat → Nat → Nat)) (l := l) (a₁ := a) (a₂ := 0))
    rw [List.foldl_cons, aopNew_add_int h, foldl_add h l _ (Nat.mod_lt _ (Nat.two_pow_pos _)), List.map_cons, List.foldl_cons, hs _ (0 + _),
      Nat.zero_add, Nat.mod_add_mod, Nat.add_assoc]

/-! ### The obligations -/

/-- Settles O37: an atomic of an integer type is a step of REDUX; the lanes of an ATOMR apply it in a row. -/
theorem atomicValues : Obligations.AtomicValues := by
  refine ⟨⟨fun t old b ht _ _ => ⟨redStep_int ht .add .rne old b, redStep_int ht .min .rne old b, redStep_int ht .max .rne old b, rfl, rfl,
    rfl, rfl⟩, fun t old b ht => ?_, fun k t old l => ⟨rfl, rfl, rfl, rfl⟩⟩, fun t old p l pre post g ht hold hl => ?_⟩
  · simp only [aopNew, redStep, ht, if_true]
    exact ⟨rfl, trivial, trivial, trivial⟩
  · have hi : isIntTy t = true := by
      simp only [List.mem_cons, List.not_mem_nil, or_false] at ht
      rcases ht with rfl | rfl <;> rfl
    rw [← foldl_add hi pre old hold, ← atomr_answer .add t p old pre post g, ← hl]
    rfl

end Sys2Proof
end

section
/-! PROOFS. The obligations of 13 on the sync unit: arrivals at a barrier, the waiters of a semaphore, and the sync instructions. -/

namespace Sys2Proof

open Machine

/-! ### Words performed once pop no queue (R43, R44) -/

/-- A workgroup's change that changes nothing. -/
theorem updFirst_id {α : Type} (p : α → Bool) : ∀ l : List α, updFirst p (fun x => x) l = l
  | [] => rfl
  | x :: l => by rw [updFirst, updFirst_id p l, ite_self]

/-- With no queue to pop, the context stays as it is. -/
theorem popped_self {s : State} {c : Ctl} {k : Ctx} (h : ctxOf s c = some k) {opds : List Opd} (hq : popsOf opds = []) :
    k.popped opds = k := by
  obtain ⟨hs, -, -, hk, hw, hg, -, -, hp⟩ := ctxOf_spec h
  have hw' : ((k.s.core k.ci).warp? k.wi).getD k.w = k.w := by rw [hs, ← State.warp?, hw, Option.getD_some]
  have hat : { k.at_ k.s with pops := [] } = k := by
    simp only [Ctx.at_, hw']
    rw [hs, ← hk, ← hg, ← hp, ← hs]
  have hmod : ∀ g : Wg, k.s.modCore k.ci (fun x => x.modWg g.id fun g => { g with queues := g.queues }) = k.s := fun g => by
    have e : (k.s.core k.ci).modWg g.id (fun g => { g with queues := g.queues }) = k.s.core k.ci := by
      rw [Core.modWg, updFirst_id]
    rw [State.modCore, e, setCore_core]
  unfold Ctx.popped
  rw [hq]
  cases k.g with
  | none => exact hat
  | some g => simpa only [List.foldl_nil, List.filterMap_nil, hmod g] using hat

/-- A queue is no operand of a word performed once (R44). -/
theorem popsOf_scalar {k : Ctx} {c : Ctl} {long : Bool} {opds : List Opd} (h : wordFate k c true long opds = none) :
    popsOf opds = [] := by
  have hfate : ∀ o ∈ opds, opdFate k true o = none := fun o ho => by
    rw [wordFate, Option.or_eq_none_iff, List.findSome?_eq_none_iff] at h
    exact h.1 o ho
  have hnq : ∀ o ∈ opds, ∀ n, o.r ≠ .q n := fun o ho n hr => by
    have := hfate o ho
    simp [opdFate, opdErr, hr] at this
  clear h hfate
  unfold popsOf
  induction opds with
  | nil => rfl
  | cons o t ih =>
    rw [List.foldl_cons]
    have := hnq o List.mem_cons_self
    cases hr : o.r
    case q n => exact absurd hr (this n)
    all_goals exact ih fun o ho => hnq o (List.mem_cons_of_mem _ ho)

theorem popped_scalar {s : State} {c : Ctl} {long : Bool} {opds : List Opd} {k : Ctx} (h : Ready s c true long opds k) :
    k.popped opds = k := popped_self h.issuer (popsOf_scalar h.fate)

/-! ### Barriers (R275) -/

/-- An arrival that does not reach EXPECT. -/
theorem arrive_below {b : Bar} {n : Nat} (f : Flags5) (ts : Nat) (h1 : 1 ≤ b.expect) (h : b.count + n < b.expect) :
    b.arrive n f ts = { b with cur := b.cur ||| f, hz := Nat.max b.hz ts, count := b.count + n } := by
  have he : Nat.max 1 b.expect = b.expect := Nat.max_eq_right h1
  simp only [Bar.arrive, he, h, if_true]
/-- What an arrival that reaches EXPECT leaves of the flags of older phases: those whose numbers do not end with it. -/
def pastOf (b : Bar) (n : Nat) : List (Word × Flags5) := b.done.filter fun d => (b.count + n) / b.expect ≤ (d.1 - b.phase).toNat
/-- An arrival that reaches EXPECT: the excess carries. -/
theorem arrive_reaches {b : Bar} {n : Nat} (f : Flags5) (ts : Nat) (h1 : 1 ≤ b.expect) (h : ¬ b.count + n < b.expect) :
    b.arrive n f ts = { b with
      cur := 0#5, hz := Nat.max b.hz ts, count := (b.count + n) % b.expect
      phase := b.phase + BitVec.ofNat 32 ((b.count + n) / b.expect)
      done := if b.cur ||| f = 0#5 then pastOf b n else (b.phase, b.cur ||| f) :: pastOf b n } := by
  have he : Nat.max 1 b.expect = b.expect := Nat.max_eq_right h1
  simp only [Bar.arrive, he, h, if_false, pastOf]

/-- COUNT and PHASE after an arrival, whether or not it reaches EXPECT. -/
theorem arrive_count {b : Bar} (n : Nat) (f : Flags5) (ts : Nat) (h1 : 1 ≤ b.expect) :
    (b.arrive n f ts).count = (b.count + n) % b.expect ∧ (b.arrive n f ts).expect = b.expect ∧ (b.arrive n f ts).rmt = b.rmt
      ∧ (b.arrive n f ts).phase = b.phase + BitVec.ofNat 32 ((b.count + n) / b.expect) := by
  by_cases h : b.count + n < b.expect
  · rw [arrive_below f ts h1 h]
    simp [Nat.mod_eq_of_lt h, Nat.div_eq_of_lt h]
  · rw [arrive_reaches f ts h1 h]
    exact ⟨rfl, rfl, rfl, rfl⟩

/-- No flags of a phase that ends are among those of older phases; the others are as before. -/
theorem find_pastOf (b : Bar) (n : Nat) (p : Word) :
    ((pastOf b n).find? (·.1 == p)) =
      if (p - b.phase).toNat < (b.count + n) / b.expect then none else b.done.find? (·.1 == p) := by
  unfold pastOf
  induction b.done with
  | nil => simp
  | cons d t ih =>
    by_cases hd : d.1 = p
    · subst hd
      by_cases hlt : (d.1 - b.phase).toNat < (b.count + n) / b.expect
      · rw [List.filter_cons_of_neg (by simpa using hlt), ih, if_pos hlt, if_pos hlt]
      · rw [List.filter_cons_of_pos (by simpa using hlt), if_neg hlt]
        simp
    · have hne : (d.1 == p) = false := by simpa using hd
      rw [List.find?_cons_of_neg (by simp [hne]), ← ih]
      by_cases hk : (b.count + n) / b.expect ≤ (d.1 - b.phase).toNat
      · rw [List.filter_cons_of_pos (by simpa using hk), List.find?_cons_of_neg (by simp [hne])]
      · rw [List.filter_cons_of_neg (by simpa using hk)]

/-- The flags of a phase after an arrival that ends phases: the phase that ends keeps its own, and the ones after it that end with
it have none. -/
theorem arrive_flagsOf {b : Bar} {n : Nat} (f : Flags5) (ts : Nat) (h1 : 1 ≤ b.expect) (h : ¬ b.count + n < b.expect) (p : Word) :
    (b.arrive n f ts).flagsOf p =
      if p = b.phase then b.cur ||| f
      else if (p - b.phase).toNat < (b.count + n) / b.expect then 0#5 else b.flagsOf p := by
  have hpos : 0 < (b.count + n) / b.expect := Nat.div_pos (by omega) h1
  have hpast : ((pastOf b n).find? (·.1 == p)).map (·.2) =
      if (p - b.phase).toNat < (b.count + n) / b.expect then none else (b.done.find? (·.1 == p)).map (·.2) := by
    rw [find_pastOf]; split <;> rfl
  rw [arrive_reaches f ts h1 h, Bar.flagsOf]
  by_cases hp : p = b.phase
  · subst hp
    rw [if_pos rfl]
    by_cases hz : b.cur ||| f = 0#5
    · simp only [hz, if_true, hpast, BitVec.sub_self]
      rw [if_pos (by simpa using hpos)]; rfl
    · simp only [hz, if_false, List.find?_cons_of_pos (p := fun d : Word × Flags5 => d.1 == b.phase) (a := (b.phase, b.cur ||| f)) (by simp)]
      rfl
  · rw [if_neg hp]
    have hdrop : ((if b.cur ||| f = 0#5 then pastOf b n else (b.phase, b.cur ||| f) :: pastOf b n).find? (·.1 == p)) =
        (pastOf b n).find? (·.1 == p) := by
      split
      · rfl
      · rw [List.find?_cons_of_neg (by simpa using fun h => hp h.symm)]
    simp only [hdrop, hpast]
    split <;> rfl

/-- Settles O39: an arrival divides COUNT + n by EXPECT, whose quotient moves PHASE and whose remainder is COUNT. -/
theorem barrierArithmetic : Obligations.BarrierArithmetic := by
  refine ⟨fun b n f ts h1 => ⟨(b.count + n) / b.expect, ?_⟩, fun b n m f g x y z h1 => ?_, fun b t => ?_⟩
  · obtain ⟨hc, he, hr, hp⟩ := arrive_count n f ts h1
    refine ⟨by rw [hc, Nat.mul_comm]; exact (Nat.mod_add_div _ _).symm, by rw [hc]; exact Nat.mod_lt _ h1, hp, he, hr, ?_⟩
    by_cases h : b.count + n < b.expect
    · rw [if_pos (Nat.div_eq_of_lt h), arrive_below f ts h1 h]
      exact ⟨rfl, rfl⟩
    · rw [if_neg (Nat.ne_of_gt (Nat.div_pos (by omega) h1))]
      refine ⟨by rw [arrive_reaches f ts h1 h], by rw [arrive_flagsOf f ts h1 h, if_pos rfl], fun p hne => ?_⟩
      rw [arrive_flagsOf f ts h1 h, if_neg hne]
  · obtain ⟨hc, he, -, hp⟩ := arrive_count n f x h1
    obtain ⟨hc', -, -, hp'⟩ := arrive_count (b := b.arrive n f x) m g y (by rw [he]; exact h1)
    obtain ⟨hcs, -, -, hps⟩ := arrive_count (n + m) f z h1
    have hsum := Nat.div_add_mod (b.count + n) b.expect
    have hdiv : (b.count + n) / b.expect + ((b.count + n) % b.expect + m) / b.expect = (b.count + (n + m)) / b.expect := by
      have e : b.count + (n + m) = b.expect * ((b.count + n) / b.expect) + ((b.count + n) % b.expect + m) := by omega
      rw [e, Nat.mul_add_div h1]
    rw [hc', hp', he, hc, hp, hcs, hps]
    refine ⟨by rw [Nat.mod_add_mod, Nat.add_assoc], ?_⟩
    rw [BitVec.add_assoc, ← BitVec.ofNat_add, hdiv]
  · simp only [Bar.met, Bool.and_eq_true, decide_eq_true_eq]
    omega

/-! ### The waiters of a semaphore (R272, R273) -/

/-- The value of a semaphore. -/
def semVal (k : Core) (n : Nat) : Nat := ((k.sems[n]?).getD 0#32).toNat
/-- The wait ends: the value reaches its threshold, no older DEC wait stays, and its warp has nothing older under way. -/
def semEnds (n : Nat) (stuck : Bool) (k : Core) (x : SemWait) : Bool :=
  x.thr.toNat ≤ semVal k n && !(x.dec && stuck) && !k.ownSync x.slot (n, none) && !k.waitHeld x.slot
/-- The core after the end of a wait. -/
def semEnd (n : Nat) (k : Core) (x : SemWait) : Core :=
  let v := (k.sems[n]?).getD 0#32
  let k := { k.modWarp x.slot (·.endSem v) with hz := Nat.max k.hz k.syncHz }
  if x.dec then { k with sems := k.sems.setIfInBounds n (v - x.thr) } else k

theorem semGo_cons (n : Nat) (x : SemWait) (t : List SemWait) (st : Bool) (k : Core) :
    semGo n (x :: t) st k =
      if x.sem ≠ n then ((semGo n t st k).1, x :: (semGo n t st k).2)
      else if semEnds n st k x = true then semGo n t st (semEnd n k x)
      else ((semGo n t (st || x.dec) k).1, x :: (semGo n t (st || x.dec) k).2) := rfl

/-- Induction along the examination of the waiters: a wait on another semaphore, one that ends, one that stays. -/
theorem semGo_induct {n : Nat} {P : List SemWait → Bool → Core → Core × List SemWait → Prop}
    (nil : ∀ st k, P [] st k (k, []))
    (other : ∀ x t st k r, x.sem ≠ n → P t st k r → P (x :: t) st k (r.1, x :: r.2))
    (ends : ∀ x t st k r, x.sem = n → semEnds n st k x = true → P t st (semEnd n k x) r → P (x :: t) st k r)
    (stays : ∀ x t st k r, x.sem = n → semEnds n st k x = false → P t (st || x.dec) k r → P (x :: t) st k (r.1, x :: r.2)) :
    ∀ l st k, P l st k (semGo n l st k)
  | [], st, k => nil st k
  | x :: t, st, k => by
    have ih := semGo_induct nil other ends stays t
    rw [semGo_cons]
    by_cases hx : x.sem = n
    · rw [if_neg (Classical.not_not.2 hx)]
      by_cases he : semEnds n st k x = true
      · rw [if_pos he]
        exact ends x t st k _ hx he (ih _ _)
      · rw [if_neg he]
        exact stays x t st k _ hx (by simpa using he) (ih _ _)
    · rw [if_pos hx]
      exact other x t st k _ hx (ih _ _)

theorem semEnd_sems (n : Nat) (k : Core) (x : SemWait) {m : Nat} (h : m ≠ n) : (semEnd n k x).sems[m]? = k.sems[m]? := by
  unfold semEnd
  dsimp only
  split
  · exact Vector.getElem?_setIfInBounds_ne (Ne.symm h)
  · rfl
/-- A wait that ends does not raise the value. -/
theorem semVal_semEnd_le {n : Nat} {k : Core} {x : SemWait} (h : x.thr.toNat ≤ semVal k n) : semVal (semEnd n k x) n ≤ semVal k n := by
  unfold semEnd semVal
  dsimp only
  split
  · simp only [Core.modWarp_sems]
    by_cases hn : n < 64
    · rw [Vector.getElem?_setIfInBounds_self_of_lt hn, Option.getD_some]
      have hle : x.thr ≤ (k.sems[n]?).getD 0#32 := BitVec.le_def.2 h
      rw [BitVec.toNat_sub_of_le hle]
      exact Nat.sub_le _ _
    · simp [hn]
  · exact Nat.le_refl _

theorem endSem_accs (v : Word) (w : Warp) : (w.endSem v).out = w.out ∧ (w.endSem v).deferred = w.deferred := by
  unfold Warp.endSem
  split
  · split <;> exact ⟨rfl, rfl⟩
  · exact ⟨rfl, rfl⟩
/-- What the end of a wait leaves of the warps' accesses. -/
theorem semEnd_holds (n : Nat) (k : Core) (x : SemWait) (slot : Nat) (l : Nat × Option Nat) :
    (semEnd n k x).ownSync slot l = k.ownSync slot l ∧ (semEnd n k x).waitHeld slot = k.waitHeld slot := by
  have h : ∀ (k' : Core) (f : Warp → Warp), (∀ w, (f w).out = w.out ∧ (f w).deferred = w.deferred) → k'.syncQ = k.syncQ →
      k'.tickets = k.tickets → k'.misses = k.misses → k'.warp? slot = (k.modWarp x.slot f).warp? slot →
      k'.ownSync slot l = k.ownSync slot l ∧ k'.waitHeld slot = k.waitHeld slot := by
    intro k' f hf h1 h2 h3 h4
    refine ⟨by rw [Core.ownSync, Core.ownSync, h1], ?_⟩
    rw [Core.waitHeld, Core.waitHeld, h2, h3, h4]
    by_cases hs : slot = x.slot
    · subst hs
      rw [Core.warp?_modWarp_same]
      cases k.warp? x.slot with
      | none => rfl
      | some w => simp only [Option.map_some, (hf w).1, (hf w).2]
    · rw [Core.warp?_modWarp_ne k f hs]
  unfold semEnd
  dsimp only
  split
  · exact h _ _ (endSem_accs _) rfl rfl rfl rfl
  · exact h _ _ (endSem_accs _) rfl rfl rfl rfl

/-- No own write is on its way to the semaphore, and nothing older holds a waiter. -/
def SemFree (n : Nat) (l : List SemWait) (k : Core) : Prop := ∀ x ∈ l, k.ownSync x.slot (n, none) = false ∧ k.waitHeld x.slot = false

theorem SemFree.tail {n : Nat} {x : SemWait} {t : List SemWait} {k : Core} (h : SemFree n (x :: t) k) : SemFree n t k :=
  fun y hy => h y (List.mem_cons_of_mem _ hy)
theorem SemFree.end {n : Nat} {t : List SemWait} {k : Core} (h : SemFree n t k) (x : SemWait) : SemFree n t (semEnd n k x) :=
  fun y hy => by rw [(semEnd_holds n k x y.slot (n, none)).1, (semEnd_holds n k x y.slot (n, none)).2]; exact h y hy
/-- A free wait that stays: its threshold is above the value, or it is a DEC wait behind one that stays. -/
theorem lt_of_stays {n : Nat} {st : Bool} {x : SemWait} {t : List SemWait} {k : Core} (h : SemFree n (x :: t) k)
    (he : semEnds n st k x = false) : semVal k n < x.thr.toNat ∨ (x.dec = true ∧ st = true) := by
  obtain ⟨h1, h2⟩ := h x List.mem_cons_self
  refine Classical.byContradiction fun hc => ?_
  simp only [not_or, Nat.not_lt] at hc
  obtain ⟨h3, h4⟩ := hc
  have h5 : (x.dec && st) = false := by
    cases hx : x.dec <;> cases hst : st <;> simp_all
  simp [semEnds, h1, h2, h3, h5] at he
theorem le_of_ends {n : Nat} {st : Bool} {x : SemWait} {k : Core} (he : semEnds n st k x = true) : x.thr.toNat ≤ semVal k n := by
  simp only [semEnds, Bool.and_eq_true, decide_eq_true_eq] at he
  exact he.1.1.1

section
variable (n : Nat) (l : List SemWait) (st : Bool) (k : Core)

theorem semGo_sems {m : Nat} (h : m ≠ n) : (semGo n l st k).1.sems[m]? = k.sems[m]? :=
  semGo_induct (P := fun _ _ k r => r.1.sems[m]? = k.sems[m]?) (fun _ _ => rfl) (fun _ _ _ _ _ _ ih => ih)
    (fun x _ _ k _ _ _ ih => ih.trans (semEnd_sems n k x h)) (fun _ _ _ _ _ _ _ ih => ih) l st k
theorem semGo_val_le : semVal (semGo n l st k).1 n ≤ semVal k n :=
  semGo_induct (P := fun _ _ k r => semVal r.1 n ≤ semVal k n) (fun _ _ => Nat.le_refl _) (fun _ _ _ _ _ _ ih => ih)
    (fun _ _ _ _ _ _ he ih => Nat.le_trans ih (semVal_semEnd_le (le_of_ends he))) (fun _ _ _ _ _ _ _ ih => ih) l st k
theorem semGo_sublist : (semGo n l st k).2.Sublist l :=
  semGo_induct (P := fun l _ _ r => r.2.Sublist l) (fun _ _ => List.Sublist.refl _) (fun _ _ _ _ _ _ ih => ih.cons_cons _)
    (fun _ _ _ _ _ _ _ ih => ih.cons _) (fun _ _ _ _ _ _ _ ih => ih.cons_cons _) l st k
/-- Waits on other semaphores stay. -/
theorem semGo_others : (semGo n l st k).2.filter (·.sem != n) = l.filter (·.sem != n) :=
  semGo_induct (P := fun l _ _ r => r.2.filter (·.sem != n) = l.filter (·.sem != n)) (fun _ _ => rfl)
    (fun x _ _ _ _ hx ih => by rw [List.filter_cons_of_pos (by simpa using hx), List.filter_cons_of_pos (by simpa using hx), ih])
    (fun x _ _ _ _ hx _ ih => by rw [List.filter_cons_of_neg (by simpa using hx), ih])
    (fun x _ _ _ _ hx _ ih => by rw [List.filter_cons_of_neg (by simpa using hx), List.filter_cons_of_neg (by simpa using hx), ih])
    l st k
/-- No free wait without DEC stays whose threshold the value reaches. -/
theorem semGo_plain (hf : SemFree n l k) :
    ∀ x ∈ (semGo n l st k).2, x.sem = n → x.dec = false → semVal (semGo n l st k).1 n < x.thr.toNat := by
  refine (semGo_induct (P := fun l _ k r => semVal r.1 n ≤ semVal k n ∧
    (SemFree n l k → ∀ x ∈ r.2, x.sem = n → x.dec = false → semVal r.1 n < x.thr.toNat)) ?_ ?_ ?_ ?_ l st k).2 hf
  · exact fun _ _ => ⟨Nat.le_refl _, fun _ _ h => absurd h List.not_mem_nil⟩
  · intro x t st k r hx ih
    refine ⟨ih.1, fun hf y hy hs hd => ?_⟩
    rcases List.mem_cons.1 hy with rfl | hy
    · exact absurd hs hx
    · exact ih.2 hf.tail y hy hs hd
  · intro x t st k r _ he ih
    exact ⟨Nat.le_trans ih.1 (semVal_semEnd_le (le_of_ends he)), fun hf => ih.2 (hf.tail.end x)⟩
  · intro x t st k r _ he ih
    refine ⟨ih.1, fun hf y hy hs hd => ?_⟩
    rcases List.mem_cons.1 hy with rfl | hy
    · rcases lt_of_stays hf he with h | h
      · exact Nat.lt_of_le_of_lt ih.1 h
      · exact absurd h.1 (by simp [hd])
    · exact ih.2 hf.tail y hy hs hd
/-- The DEC waits that stay are the youngest ones; once one stays, all do. -/
theorem semGo_dec : (semGo n l st k).2.filter (fun x => x.sem == n && x.dec) <:+ l.filter (fun x => x.sem == n && x.dec)
    ∧ (st = true → (semGo n l st k).2.filter (fun x => x.sem == n && x.dec) = l.filter (fun x => x.sem == n && x.dec)) := by
  refine semGo_induct (P := fun l st _ r => r.2.filter (fun x => x.sem == n && x.dec) <:+ l.filter (fun x => x.sem == n && x.dec)
    ∧ (st = true → r.2.filter (fun x => x.sem == n && x.dec) = l.filter (fun x => x.sem == n && x.dec))) ?_ ?_ ?_ ?_ l st k
  · exact fun _ _ => ⟨List.suffix_rfl, fun _ => rfl⟩
  · intro x t st k r hx ih
    rwa [List.filter_cons_of_neg (by simp [hx]), List.filter_cons_of_neg (by simp [hx])]
  · intro x t st k r hx he ih
    by_cases hd : x.dec = true
    · have hst : st = false := by
        simp only [semEnds, hd, Bool.true_and, Bool.and_eq_true, Bool.not_eq_true'] at he
        exact he.1.1.2
      rw [List.filter_cons_of_pos (by simp [hx, hd])]
      exact ⟨ih.1.trans (List.suffix_cons _ _), fun h => absurd h (by simp [hst])⟩
    · rwa [List.filter_cons_of_neg (by simp [hd])]
  · intro x t st k r hx he ih
    by_cases hd : x.dec = true
    · rw [List.filter_cons_of_pos (by simp [hx, hd]), List.filter_cons_of_pos (by simp [hx, hd]), ih.2 (by simp [hd])]
      exact ⟨List.suffix_rfl, fun _ => rfl⟩
    · rw [(Bool.not_eq_true _).mp hd, Bool.or_false] at ih
      rwa [List.filter_cons_of_neg (by simp [hd]), List.filter_cons_of_neg (by simp [hd])]
/-- The oldest free DEC wait that stays is above the value. -/
theorem semGo_oldest (hf : SemFree n l k) (hst : st = false) :
    ∀ x, ((semGo n l st k).2.filter (fun x => x.sem == n && x.dec)).head? = some x → semVal (semGo n l st k).1 n < x.thr.toNat := by
  refine (semGo_induct (P := fun l st k r => semVal r.1 n ≤ semVal k n ∧ (SemFree n l k → st = false →
    ∀ x, (r.2.filter (fun x => x.sem == n && x.dec)).head? = some x → semVal r.1 n < x.thr.toNat)) ?_ ?_ ?_ ?_ l st k).2 hf hst
  · exact fun _ _ => ⟨Nat.le_refl _, fun _ _ _ h => by simp at h⟩
  · intro x t st k r hx ih
    refine ⟨ih.1, fun hf hst y hy => ?_⟩
    rw [List.filter_cons_of_neg (by simp [hx])] at hy
    exact ih.2 hf.tail hst y hy
  · intro x t st k r _ he ih
    exact ⟨Nat.le_trans ih.1 (semVal_semEnd_le (le_of_ends he)), fun hf => ih.2 (hf.tail.end x)⟩
  · intro x t st k r hx he ih
    refine ⟨ih.1, fun hf hst y hy => ?_⟩
    by_cases hd : x.dec = true
    · rw [List.filter_cons_of_pos (by simp [hx, hd]), List.head?_cons, Option.some.injEq] at hy
      subst hy
      rcases lt_of_stays hf he with h | h
      · exact Nat.lt_of_le_of_lt ih.1 h
      · exact absurd h.2 (by simp [hst])
    · rw [List.filter_cons_of_neg (by simp [hd])] at hy
      exact ih.2 hf.tail (by simp [hst, hd]) y hy

end

theorem satAdd_toNat (a b : Word) : (satAdd a b).toNat = min (a.toNat + b.toNat) 0xFFFFFFFF := by
  have ha := a.isLt
  have hb := b.isLt
  unfold satAdd
  split
  · rw [BitVec.toNat_add]
    omega
  · simp only [BitVec.reduceToNat]
    omega

/-- Settles O40, by induction along the examination of the waiters: the value only falls, so a threshold that was above it stays so. -/
theorem semaphoreWaiters : Obligations.SemaphoreWaiters := by
  refine ⟨satAdd_toNat, fun k n => ?_⟩
  have hv : ∀ x : SemWait, semVal (semGo n k.semQ false k).1 n < x.thr.toNat →
      (((k.semExam n).sems[n]?).getD 0#32).toNat < x.thr.toNat := fun _ h => h
  refine ⟨semGo_sublist n k.semQ false k, semGo_others n k.semQ false k, fun hf x hx hs hd => hv x (semGo_plain n _ _ _ hf x hx hs hd),
    (semGo_dec n k.semQ false k).1, fun hf x hx => hv x (semGo_oldest n _ _ _ hf rfl x hx), fun m hm => semGo_sems n k.semQ false k hm⟩

/-! ### The sync instructions (R280, R281) -/

/-- A word performed once that answers a cause where a lane is active. -/
theorem runOnce_traps {i : Instr} {s : State} {c : Ctl} {opds : List Opd} {k : Ctx} {z : Cause} {body : Ctx → Res}
    (he : exec i s = runOnce s c opds body) (hr : Ready s c true false opds k) (ha : k.act ≠ 0#32) (hb : body k = .trap z) :
    Traps i s k c z := by
  refine traps_of_body (i := i) (body := fun k => if k.act = 0#32 then .ok k.s else body k) he hr ?_
  rw [popped_scalar hr, if_neg ha, hb]

section
variable (s : State) (c : Ctl) (sc lv : Scope) (a : Reg) (am : Amt16) (n : BitVec 6) (m b : BitVec 4) (g : BitVec 3) (cnt : BitVec 10)
  (dec any rmt : Bool) (d : Option Reg)

theorem exec_semset : exec (.semset c sc a n) s = runOnce s c [opdUni a] fun k =>
    if !semHeld k.g n.toNat then k.ill else postSync k sc n.toNat (.semSet ((k.uni a).setWidth 32)) := rfl
theorem exec_seminc : exec (.seminc c sc am n) s = runOnce s c (match am with | .reg r => [opdUni r] | .imm _ => []) fun k =>
    if !semHeld k.g n.toNat then k.ill
    else postSync k sc n.toNat (.semInc (match am with | .reg r => (k.uni r).setWidth 32 | .imm v => v.setWidth 32)) := rfl
theorem exec_semwait : exec (.semwait c dec d a n) s = runOnce s c ((d.toList.map opdS) ++ [opdUni a]) fun k =>
    if !semHeld k.g n.toNat then k.ill
    else
      let thr := (k.uni a).setWidth 32
      let s := k.s.modWarp k.ci k.wi fun w => { w with wait := .sem n.toNat thr dec (sregOf d) w.idNext, idNext := w.idNext + 1 }
      .ok (s.modCore k.ci fun x => { x with semQ := x.semQ ++ [SemWait.mk n.toNat k.wi thr dec] }.semExam n.toNat) := rfl
theorem exec_barinit : exec (.barinit c lv rmt a n) s = runOnce s c [opdUni a] fun k =>
    let v := (k.uni a).toNat
    if !barHeld k.g lv n.toNat || v = 0 || 65535 < v then k.ill
    else .ok (barPut k.s k.ci lv n.toNat { barGet k.s k.ci lv n.toNat with expect := v, count := 0, rmt := rmt }) := rfl
theorem exec_bararr : exec (.bararr c lv d n cnt) s = runOnce s c (d.toList.map opdS) fun k =>
    if !barHeld k.g lv n.toNat then k.ill
    else
      let s := closeRel k true
      let a : Arrival := ⟨k.ci, lv, k.ci, n.toNat, cnt.toNat, k.w.wg, some (k.wi, k.w.idNext), true, sregOf d, false, k.w.pasid, 0#5⟩
      .ok ({ s with arrivals := s.arrivals ++ [a] }.modWarp k.ci k.wi fun w =>
        { w with idNext := w.idNext + 1, sbPend := w.sbPend ++ (sregOf d).toList.map fun (x : Fin 64) => x.val }) := rfl
theorem exec_barwait : exec (.barwait c lv a n) s = runOnce s c [opdUni a] fun k =>
    if !barHeld k.g lv n.toNat then k.ill
    else
      let s := k.s.modWarp k.ci k.wi fun w => { w with wait := .bar lv n.toNat ((k.uni a).setWidth 32) k.act }
      .ok (wakeCore s k.ci lv n.toNat (barGet s k.ci lv n.toNat)) := rfl
theorem exec_rbararr : exec (.rbararr c sc a b cnt) s = runOnce s c [opdUni a] fun k =>
    let g := (k.uni a).toNat
    if 383 < g then k.ill
    else
      let x : Arrival := ⟨k.ci, .core, g, b.toNat, cnt.toNat, k.w.wg, some (k.wi, k.w.idNext), sc != .warp, none, true, k.w.pasid, 0#5⟩
      let s := closeRel k (sc != .warp)
      .ok ({ s with arrivals := s.arrivals ++ [x] }.modWarp k.ci k.wi fun w => { w with idNext := w.idNext + 1 }) := rfl
theorem exec_cmset : exec (.cmset c sc a m g) s = runOnce s c [opdUni a] fun k =>
    if !cmHeld k.g m.toNat then k.ill else postSync k sc m.toNat (.cmSet g.toNat (k.uni a)) := rfl
theorem exec_cmclr : exec (.cmclr c sc a m g) s = runOnce s c [opdUni a] fun k =>
    if !cmHeld k.g m.toNat then k.ill else postSync k sc m.toNat (.cmClr g.toNat (k.uni a)) := rfl
theorem exec_cmwait : exec (.cmwait c any a m g) s = runOnce s c [opdUni a] fun k =>
    if !cmHeld k.g m.toNat then k.ill
    else
      let s := k.s.modWarp k.ci k.wi fun w => { w with wait := .cm m.toNat g.toNat (k.uni a) any }
      .ok (s.modCore k.ci (·.cmExam m.toNat)) := rfl

end

/-- A number that is held passes the check of R280. -/
theorem ite_held {α : Type} {b : Bool} (h : b = true) (x y : α) : (if !b then x else y) = y := by simp [h]
/-- One that is not held does not. -/
theorem ite_not_held {α : Type} {b : Bool} (h : b = false) (x y : α) : (if !b then x else y) = x := by simp [h]

theorem syncThatRun : Claim.SyncThatRun := by
  intro s c sc lv a am n m b g cnt dec any rmt d u amOpds dr
  have hd : sregOf dr = d := by cases d <;> rfl
  refine ⟨runOnce_once (exec_semset s c sc a n) fun k _ h => ?_, runOnce_once (exec_seminc s c sc am n) fun k _ h => ?_,
    runOnce_once (exec_semwait s c a n dec dr) fun k _ h => ?_, runOnce_once (exec_barinit s c lv a n rmt) fun k _ h => ?_,
    runOnce_once (exec_bararr s c lv n cnt dr) fun k _ h => ?_, runOnce_once (exec_barwait s c lv a n) fun k _ h => ?_,
    runOnce_once (exec_rbararr s c sc a b cnt) fun k _ h => ?_, runOnce_once (exec_cmset s c sc a m g) fun k _ h => ?_,
    runOnce_once (exec_cmclr s c sc a m g) fun k _ h => ?_, runOnce_once (exec_cmwait s c a m g any) fun k _ h => ?_⟩
  · exact ite_held h _ _
  · exact ite_held h _ _
  · rw [ite_held h, hd] <;> rfl
  · obtain ⟨hh, h1, h2⟩ := h
    have hu : (k.uni a).toNat = (u k a).toNat := rfl
    exact if_neg (by simp only [hh, hu, Bool.not_true, Bool.false_or, Bool.or_eq_true, decide_eq_true_eq]; omega)
  · rw [ite_held h, hd]
  · exact ite_held h _ _
  · exact if_neg (Nat.not_lt.2 (Nat.le_of_lt_succ h))
  · exact ite_held h _ _
  · exact ite_held h _ _
  · exact ite_held h _ _

/-- A register's bits are within their width. -/
theorem rd_lt (k : Ctx) (r : Reg) (l bits : Nat) : k.rd r l bits < 2 ^ bits := Nat.mod_lt _ (Nat.two_pow_pos _)
theorem uni_toNat (k : Ctx) (a : Reg) : (k.uni a).toNat = k.rd a 0 64 := by
  rw [Ctx.uni, Ctx.src64, BitVec.toNat_ofNat, Nat.mod_eq_of_lt (rd_lt k a 0 64)]

theorem syncHolders : Claim.SyncHolders := by
  intro s k c sc lv a n m b g cnt dec any rmt hr ha x ill
  have hx : x = k := popped_scalar hr
  have hreg := fun {i : Instr} {body : Ctx → Res} (he : exec i s = runOnce s c [opdUni a] body) (hb : body k = k.ill) =>
    runOnce_traps (z := ill) he hr ha hb
  rw [hx]
  refine ⟨fun h => ⟨hreg (exec_semset s c sc a n) (ite_not_held h _ _), hreg (exec_seminc s c sc (.reg a) n) (ite_not_held h _ _),
      hreg (exec_semwait s c a n dec none) (ite_not_held h _ _)⟩,
    fun h => ⟨hreg (exec_cmset s c sc a m g) (ite_not_held h _ _), hreg (exec_cmclr s c sc a m g) (ite_not_held h _ _),
      hreg (exec_cmwait s c a m g any) (ite_not_held h _ _)⟩,
    fun h => hreg (exec_barwait s c lv a n) (ite_not_held h _ _), fun h => hreg (exec_barinit s c lv a n rmt) (if_pos ?_),
    fun h => hreg (exec_rbararr s c sc a b cnt) (if_pos (by rw [uni_toNat]; exact h))⟩
  simp only [uni_toNat, Bool.or_eq_true, Bool.not_eq_true', decide_eq_true_eq]
  exact or_assoc.2 h

/-- Settles O41: each word is its body performed once, whose check of R280 decides between its effect and the cause. -/
theorem syncInstructions : Obligations.SyncInstructions := ⟨syncThatRun, syncHolders⟩

end Sys2Proof
end

section
/-! PROOFS. The obligation of 15 on the copy instructions. -/

namespace Sys2Proof

open Machine

/-! ### Posts to a channel (R291) -/

section
variable {k : Ctx} {c : Ctl} {n : Nat} (head : Dword) (t : Option (BitVec 512))

theorem postCopy_room {fl : Fin 12} (h1 : cmdBlocked k.s k.ci k.wi 1 = false) (h2 : (k.k.chan n).queue.length < 8)
    (h3 : flagOf k.w c = some fl) :
    postCopy k c n head t = .ok ((k.s.modWarp k.ci k.wi (·.startOp fl 1 true)).modChan k.ci n fun ch =>
      { ch with queue := ch.queue ++ [CpPost.mk k.wi k.w.idNext head t false] }) := by
  simp only [postCopy, h1, Nat.not_le.2 h2, h3, Bool.false_eq_true, if_false]
theorem postCopy_full (h1 : cmdBlocked k.s k.ci k.wi 1 = false) (h2 : 8 ≤ (k.k.chan n).queue.length) :
    postCopy k c n head t = .ok (k.s.modChan k.ci n fun ch => { ch with ovf := true }) := by
  simp only [postCopy, h1, h2, Bool.false_eq_true, if_false, if_true]

end

/-- A command whose checks come to a post appends it, or sets OVF. -/
theorem postsCopy_of {i : Instr} {s : State} {c : Ctl} {opds : List Opd} {n : Nat} {H : Ctx → Prop} {head : Ctx → Dword}
    {t : Ctx → Option (BitVec 512)} {body : Ctx → Res} (he : exec i s = runCmd s c opds body)
    (hb : ∀ k, chanHeld k.g n = true → H k → body k = postCopy k c n (head k) (t k)) : PostsCopy i s c opds n H head t := by
  refine ⟨fun fl => ?_, ?_, runCmd_idle he⟩
  · refine runCmd_runs (H := fun k => chanHeld k.g n = true ∧ H k ∧ cmdBlocked k.s k.ci k.wi 1 = false
      ∧ (k.k.chan n).queue.length < 8 ∧ flagOf k.w c = some fl) he fun k _ h => ?_
    obtain ⟨hc, hH, h1, h2, h3⟩ := h
    rw [hb k hc hH, postCopy_room _ _ h1 h2 h3]
  · refine runCmd_runs (H := fun k => chanHeld k.g n = true ∧ H k ∧ cmdBlocked k.s k.ci k.wi 1 = false
      ∧ 8 ≤ (k.k.chan n).queue.length) he fun k _ h => ?_
    obtain ⟨hc, hH, h1, h2⟩ := h
    rw [hb k hc hH, postCopy_full _ _ h1 h2]

/-! ### The copy instructions (R297 to R302) -/

section
variable (s : State) (c : Ctl) (ch slot : Fin 4) (a d : Reg) (i : Fin 64) (clr : Bool) (f n : BitVec 10)

theorem exec_cpchain : exec (.cpchain c ch a) s = runCmd s c [opdUni a] fun k =>
    let h := k.uni a
    if !chanHeld k.g ch.val then k.ill
    else if h.toNat % 64 ≠ 0 then .trap (k.cause cMisaligned k.act h)
    else if !canonical h then .trap (k.cause cAccessDenied k.act h)
    else postCopy k c ch.val h none := rfl
theorem exec_tcopy : exec (.tcopy c ch (.s i)) s = runCmd s c (scalarRun (.s i) 6) fun k =>
    if !chanHeld k.g ch.val then k.ill
    else postCopy k c ch.val 0#64 (some (BitVec.ofNat 512 ((List.range 6).foldl (fun v j => v + (k.w.sreg (i.val + j)).toNat * 2 ^ (64 * j)) 0))) := rfl
theorem exec_cpstat : exec (.cpstat c ch clr d) s = runOnce s c [opdS d] fun k =>
    if !chanHeld k.g ch.val then k.ill
    else
      let s := writeLanes k.s k.ci k.wi .n64 d [(0, (cpstatOf (k.k.chan ch.val) : Int))]
      .ok (if clr then s.modChan k.ci ch.val fun c => { c with ovf := false, lastSt := 0#8 } else s) := rfl
theorem exec_cpabort : exec (.cpabort c ch) s = runOnce s c [] fun k =>
    if !chanHeld k.g ch.val then k.ill else .ok (cpAbort k.s k.ci ch.val) := rfl
theorem exec_rwopen : exec (.rwopen c slot d f n) s = runInstr s c true false [opdS d] fun k =>
    if n = 0#10 || k.w.n < f.toNat + n.toNat then k.ill
    else if k.act = 0#32 then .ok k.s
    else if k.w.wins.any (·.slot == slot) || k.w.lig.on then k.ill
    else
      let s := k.s.modWarp k.ci k.wi fun w => { w with wins := w.wins ++ [RWin.mk slot f.toNat n.toNat] }
      .ok (writeLanes s k.ci k.wi .n64 d [(0, ((128 * (k.w.base + f.toNat) : Nat) : Int))]) := rfl
theorem exec_rwclose : exec (.rwclose c slot) s = runOnce s c [] fun k =>
    if k.w.lig.on then k.ill
    else .ok (k.s.modWarp k.ci k.wi fun w => { w with wins := w.wins.filter (·.slot != slot) }) := rfl

end

theorem copyInstructions : Claim.CopyInstructions := by
  intro s c ch a i d clr slot f n
  refine ⟨postsCopy_of (exec_cpchain s c ch a) fun k hc h => ?_, postsCopy_of (exec_tcopy s c ch i) fun k hc _ => ite_held hc _ _,
    runOnce_once (exec_cpstat s c ch (.s d) clr) fun k _ h => ?_, runOnce_once (exec_cpabort s c ch) fun k _ h => ?_,
    runs_of (exec_rwopen s c slot (.s d) f n) fun k h => ?_, runs_of (exec_rwopen s c slot (.s d) f n) fun k h => ?_,
    runOnce_once (exec_rwclose s c slot) fun k _ h => ?_⟩
  · obtain ⟨h1, h2⟩ := h
    have hu : k.uni a = BitVec.ofNat 64 (k.rd a 0 64) := rfl
    dsimp only
    rw [ite_held hc, if_neg (by rw [uni_toNat]; exact Classical.not_not.2 h1), hu, ite_held h2]
  · rw [ite_held h, writeLanes_scalar]
  · exact ite_held h _ _
  · obtain ⟨ha, hn, hf, hw, hl⟩ := h
    rw [if_neg (by simp [hn, hf]), if_neg ha, if_neg (by simp [hw, hl])]
    exact congrArg Res.ok (writeLanes_scalar _ _ _ _ _)
  · obtain ⟨ha, hn, hf⟩ := h
    rw [if_neg (by simp [hn, hf]), if_pos ha]
  · exact if_neg (by simp [h])

/-- The fields of CPSTAT do not overlap. -/
theorem cpstat_fields (c : Chan) (hq : c.queue.length ≤ 8) :
    cpstatOf c % 2 ^ 26 = c.done.toNat ∧ cpstatOf c / 2 ^ 26 % 2 ^ 4 = c.queue.length
    ∧ (cpstatOf c / 2 ^ 30 % 2 = 1 ↔ c.ovf = true) ∧ (cpstatOf c / 2 ^ 31 % 2 = 1 ↔ c.busy = true)
    ∧ cpstatOf c / 2 ^ 32 = c.lastSt.toNat := by
  unfold cpstatOf
  cases c.ovf <;> cases c.busy <;> simp only [if_true, Bool.false_eq_true, if_false, iff_false, iff_true] <;> refine ⟨?_, ?_, ?_, ?_, ?_⟩ <;> omega

/-- Where a command's body answers a cause. -/
theorem cmd_traps {i : Instr} {s : State} {c : Ctl} {opds : List Opd} {k : Ctx} {body : Ctx → Res} {z : Cause}
    (he : exec i s = runCmd s c opds body) (hr : Ready s c true true opds k) (ha : k.act ≠ 0#32) (hb : body k = .trap z) :
    Traps i s k c z := runCmd_traps hr he ha (by rw [popped_scalar hr]; exact hb)

theorem copyErrors : Claim.CopyErrors := by
  refine ⟨fun c _ hq => cpstat_fields c hq, fun s k c ch a hr ha => ?_, fun s k c slot d f n hr => ⟨fun h => ?_, fun ha h => ?_⟩⟩
  · have hu : k.uni a = BitVec.ofNat 64 (k.rd a 0 64) := rfl
    rw [popped_scalar hr]
    dsimp only
    rw [← hu]
    refine ⟨fun hc => ?_, fun hc h => ?_, fun hc h h' => ?_⟩ <;> refine cmd_traps (exec_cpchain s c ch a) hr ha ?_ <;> dsimp only
    · exact ite_not_held hc _ _
    · rw [ite_held hc, if_pos h]; rfl
    · rw [ite_held hc, if_neg (Classical.not_not.2 h), ite_not_held h']; rfl
  · refine traps_of_body (exec_rwopen s c slot d f n) hr ?_
    rw [popped_scalar hr]
    exact if_pos (by simpa using h)
  · refine traps_of_body (exec_rwopen s c slot d f n) hr ?_
    rw [popped_scalar hr]
    by_cases hn : (decide (n = 0#10) || decide (k.w.n < f.toNat + n.toNat)) = true
    · exact if_pos hn
    · rw [if_neg hn, if_neg ha]
      exact if_pos (by simpa using h)

/-- Settles O42: each word is its body, whose checks decide between its effect and its cause. -/
theorem copyCommands : Obligations.CopyCommands := ⟨copyInstructions, copyErrors⟩

end Sys2Proof
end

section
/-! PROOFS. The obligations of 16 on the matrix engine: its posts and checks, and the results of ACCZ and of a multiply. -/

namespace Sys2Proof

open Machine

/-! ### Posts (R312, R314) -/

section
variable (s : State) (o : MxOp) (rm : Rm) (sat : Bool) (seed : Option Reg)

theorem exec_mma : exec (.mma o) s = postMx s o.c o .mma [] .rne false (fun _ => 0#32) (chkMma o false) := rfl
theorem exec_mmas : exec (.mmas o) s = postMx s o.c o .mmas [] .rne false (fun _ => 0#32) (chkMma o true) := rfl
theorem exec_accz : exec (.accz o) s = postMx s o.c o .accz [] .rne false (fun _ => 0#32) fun g =>
    if g.accN < o.acc.val + o.count.val then .ill else .go none none 0 := rfl
theorem exec_accld : exec (.accld o) s = postMx s o.c o .accld [] .rne false (fun _ => 0#32) fun g =>
    chkView o false g fun _ _ r => r := rfl
theorem exec_accdrain : exec (.accdrain o rm sat seed) s = postMx s o.c o .accdrain (opdSeed seed) rm sat (seedOf seed) fun g =>
    chkView o (rm == .sr) g fun a _ r => if [8, 9, 10, 12].contains a.fmt then r else .tile := rfl
theorem exec_accmx : exec (.accmx o rm seed) s = execAccmx o rm seed s := rfl

end

/-- A matrix word is posted whole, and does nothing with no active lane. -/
theorem postsMatrix_of {i : Instr} {s : State} {o : MxOp} {kind : MxKind} {opds : List Opd} {rm : Rm} {sat : Bool} {seed : Ctx → Word}
    {chk : Wg → PostChk} (he : exec i s = postMx s o.c o kind opds rm sat seed chk) : PostsMatrix i s o kind opds rm sat seed chk := by
  refine ⟨fun g a b cyc fl => ?_, runCmd_idle he⟩
  refine runCmd_runs (H := fun k => k.g = some g ∧ mxBar g o = true ∧ chk g = .go a b cyc ∧ k.k.fifo.length < 64
    ∧ (k.k.fifo.length < 56 ∨ k.w.cls = 0) ∧ cmdBlocked k.s k.ci k.wi 2 = false ∧ flagOf k.w o.c = some fl) he fun k _ h => ?_
  obtain ⟨hg, hbar, hchk, h64, h56, hblk, hfl⟩ := h
  have hfull : k.mxFull = false := by
    simp only [Ctx.mxFull, Bool.or_eq_false_iff, decide_eq_false_iff_not, Nat.not_le, Bool.and_eq_false_iff, bne_eq_false_iff_eq]
    exact ⟨h64, h56⟩
  simp only [hg, hbar, hchk, hfull, hblk, hfl, Bool.not_true, Bool.or_self, Bool.false_eq_true, if_false]

/-! ### Instructions that are not posted (R326) -/

section
variable (s : State) (c : Ctl) (res h : Fin 16) (col : Bool) (d a b : Reg) (sel : Fin 4) (clr : Bool)

theorem exec_obres : exec (.obres c res d a) s = execObres c res d a s := rfl
theorem exec_obfree : exec (.obfree c res) s = execObfree c res s := rfl
theorem exec_obset : exec (.obset c res a) s = execObset c res a s := rfl
theorem exec_mxstat : exec (.mxstat c sel clr d) s = runWg s c [opdS d] fun k g =>
    .ok ((writeLanes k.s k.ci k.wi .n64 d [(0, (mxstatOf k.k g sel.val : Int))]).modWg k.ci g.id fun g =>
      if sel = 0 then { g with lastErr := 0#8 } else if sel = 2 && clr then { g with acyc := 0#32, gstall := 0#32 } else g) := rfl

end

theorem dBits_uni (k : Ctx) (a : Reg) (n : Nat) : dBits (k.uni a) n 16 = k.rd a 0 64 / 2 ^ n % 2 ^ 16 := by rw [dBits, uni_toNat]
/-- The view that THAND binds. -/
def thandView (k : Ctx) (res : Fin 16) (col : Bool) (a b : Reg) : View :=
  ⟨res, dBits (k.uni a) 0 16, dBits (k.uni a) 16 16, dBits (k.uni b) 0 16, dBits (k.uni b) 16 16, col⟩
theorem thandView_eq (k : Ctx) (res : Fin 16) (col : Bool) (a b : Reg) : thandView k res col a b =
    ⟨res, k.rd a 0 64 % 2 ^ 16, k.rd a 0 64 / 2 ^ 16 % 2 ^ 16, k.rd b 0 64 % 2 ^ 16, k.rd b 0 64 / 2 ^ 16 % 2 ^ 16, col⟩ := by
  simp only [thandView, dBits_uni, Nat.pow_zero, Nat.div_one]

theorem exec_thand_bind (s : State) (c : Ctl) (h res : Fin 16) (col : Bool) (a b : Reg) :
    exec (.thand c h res col false a b) s = runWg s c [opdUni a, opdUni b] fun k g =>
      match g.resv? res.val with
      | none => k.ill
      | some r => if !viewOk r (thandView k res col a b) then k.ill
        else .ok (k.s.modWg k.ci g.id fun g => { g with hands := g.hands.filter (·.1 != h.val) ++ [(h.val, thandView k res col a b)] }) := rfl
theorem exec_thand_unbind (s : State) (c : Ctl) (h res : Fin 16) (col : Bool) (a b : Reg) :
    exec (.thand c h res col true a b) s = runWg s c [] fun k g =>
      .ok (k.s.modWg k.ci g.id fun g => { g with hands := g.hands.filter (·.1 != h.val) }) := rfl

/-- A word of a workgroup's warp that has no check of its own. -/
theorem runWg_plain {i : Instr} {s : State} {c : Ctl} {opds : List Opd} {t : Ctx → State} {body : Ctx → Wg → Res} {g : Wg}
    (he : exec i s = runWg s c opds body) (hb : ∀ k, body k g = .ok (t k)) : Once i s c opds (fun k => k.g = some g) t := by
  obtain ⟨h1, h2⟩ := runWg_once (g := g) (H := fun _ => True) he fun k _ _ => hb k
  exact ⟨fun k hr hk => h1 k hr ⟨hk.1, hk.2, trivial⟩, h2⟩

theorem matrixInstructions : Claim.MatrixInstructions := by
  intro s c o rm sat col clr seed res h d i a b sel g r q
  refine ⟨postsMatrix_of (exec_mma s o), postsMatrix_of (exec_mmas s o), postsMatrix_of (exec_accz s o), postsMatrix_of (exec_accld s o),
    postsMatrix_of (exec_accdrain s o rm sat seed), postsMatrix_of (exec_accmx s o rm seed),
    runWg_once (g := g) (exec_obres s c res (.s d) (.s i)) fun k _ hk => ?_, runWg_once (g := g) (exec_obfree s c res) fun k _ hk => ?_,
    runWg_once (g := g) (exec_obset s c res (.s i)) fun k _ hk => ?_, runWg_once (g := g) (exec_thand_bind s c h res col a b) fun k _ hk => ?_,
    runWg_plain (exec_thand_unbind s c h res col a b) fun _ => rfl,
    runWg_plain (exec_mxstat s c (.s d) sel clr) fun _ => congrArg (fun u : State => Res.ok (u.modWg _ _ _)) (writeLanes_scalar _ _ _ _ _)⟩
  · obtain ⟨hr, hnone, hok, hmeet⟩ := hk
    simp only [recordAt, hr, hnone, hok, hmeet]
    exact congrArg Res.ok (writeLanes_scalar _ _ _ _ _)
  · have hsome : (g.resv? res.val).isNone = false := by cases hg : g.resv? res.val <;> simp_all
    rw [if_neg (by simp [hsome])]
    split <;> rfl
  · obtain ⟨hq, hr, hok, hb, hl⟩ := hk
    simp only [recordAt, hq, hr]
    exact if_neg (by simp [hok, hb, hl])
  · obtain ⟨hr, hv⟩ := hk
    rw [← thandView_eq] at hv ⊢
    simp only [hr]
    exact ite_held hv _ _

/-! ### The checks of a multiply (R311, R312) -/

/-- A bound handle whose view holds is bound. -/
theorem hand_of_operand {g : Wg} {h : Fin 16} {a : Resv × View} (ha : g.operand h = some a) : g.hand? h.val = some a.2 := by
  unfold Wg.operand at ha
  split at ha
  · cases ha
  · next v hv =>
    split at ha
    · cases ha
    · next r hr =>
      split at ha
      · cases ha; exact hv
      · cases ha

theorem multiplyChecks : Claim.MultiplyChecks := by
  intro o sp g x y cyc
  constructor
  · intro h
    unfold chkMma at h
    split at h
    · cases h
    next hacc =>
    split at h
    · cases h
    next hb =>
    split at h
    next a b ha hb' =>
      split at h
      · cases h
      next cl hcl =>
      dsimp only at h
      split at h
      · cases h
      next hchk =>
      obtain ⟨rfl, rfl, rfl⟩ := PostChk.go.inj h
      rw [hand_of_operand hb'] at hb
      simp only [Option.any_some, decide_eq_true_eq, Nat.not_lt] at hb
      simp only [Bool.or_eq_true, not_or, bne_iff_ne, ne_eq, Classical.not_not, decide_eq_true_eq, Nat.not_lt, Bool.not_eq_true', Bool.not_eq_false,
        Bool.not_eq_true] at hchk
      obtain ⟨⟨⟨⟨⟨⟨⟨h1, h2⟩, h3⟩, h4⟩, h5⟩, h6⟩, h7⟩, h8⟩ := hchk
      exact ⟨a, b, cl, rfl, rfl, ha, hb', Nat.not_le.1 hacc, hb, hcl, h1, h2, h3, h4, h5, h6, h7, rfl, h8⟩
    · cases h
  · rintro ⟨a, b, cl, rfl, rfl, ha, hb, hacc, htile, hcl, h1, h2, h3, h4, h5, h6, h7, rfl, h8⟩
    simp only [chkMma, ha, hb, hcl, hand_of_operand hb, Nat.not_le.2 hacc, if_false, Option.any_some, Nat.not_lt.2 htile, decide_false,
      Bool.false_eq_true]
    exact if_neg (by simp [← h1, h2, h3, h4, h5, h6, h7, h8])

/-- Settles O43: a post's checks give its entry, and the words that are not posted act at once. -/
theorem matrixCommands : Obligations.MatrixCommands := ⟨matrixInstructions, multiplyChecks⟩

/-! ### Results (R84, R85, R313) -/

theorem accPut_acc (tick : Nat) (k : Core) (x : Nat) (v : Word) (y : Nat) :
    tabGet 0#32 (accPut tick k x v false).acc y = (if y = x then v else tabGet 0#32 k.acc y)
      ∧ setHas (accPut tick k x v false).accPois y = (if y = x then false else setHas k.accPois y) := by
  simp only [accPut, Bool.false_eq_true, if_false]
  exact ⟨by rw [tabGet_tabSet], setHas_setPut _ _ _ _⟩

/-- Clearing elements from `b` upward. -/
theorem accClear (tick b : Nat) (y : Nat) : ∀ (n : Nat) (k : Core),
    let u := (List.range n).foldl (fun k i => accPut tick k (b + i) 0#32 false) k
    tabGet 0#32 u.acc y = (if b ≤ y ∧ y < b + n then 0#32 else tabGet 0#32 k.acc y)
      ∧ setHas u.accPois y = (if b ≤ y ∧ y < b + n then false else setHas k.accPois y)
  | 0, k => by simp; omega
  | n + 1, k => by
    obtain ⟨h1, h2⟩ := accClear tick b y n k
    simp only [List.range_succ, List.foldl_append, List.foldl_cons, List.foldl_nil]
    obtain ⟨h3, h4⟩ := accPut_acc tick ((List.range n).foldl (fun k i => accPut tick k (b + i) 0#32 false) k) (b + n) 0#32 y
    rw [h3, h4, h1, h2]
    by_cases hy : y = b + n
    · subst hy
      simp
    · rw [if_neg hy, if_neg hy]
      have : (b ≤ y ∧ y < b + n) ↔ (b ≤ y ∧ y < b + (n + 1)) := by omega
      simp only [this, and_self]

/-- The groups of a multiply's element: their inputs, with poison. -/
def mmaTerms (k0 : Core) (oa ob : Opr) (cl : MxClass) (kd i j : Nat) : List (List ((Val × Bool) × (Val × Bool))) :=
  (List.range (ceilDiv kd cl.group)).map fun q => (List.range (Nat.min cl.group (kd - q * cl.group))).map fun t =>
    (oa.elem k0 i (t + q * cl.group), ob.elem k0 j (t + q * cl.group))

/-- All additions of an element of a multiply of dense rows. -/
theorem mmaElem_dense (tick : Nat) (g : Wg) (k0 : Core) {oa : Opr} (ob : Opr) (cl : MxClass) (acc kd i j : Nat) (k : Core) (f : Flags5)
    (hsp : oa.r.sparse = false) :
    mmaElem tick g k0 oa ob cl acc kd i j false 0 (ceilDiv kd cl.group) (k, f) =
      let x := accAt g acc i j
      let terms := mmaTerms k0 oa ob cl kd i j
      if terms.isEmpty then (k, f)
      else if false || setHas k.accPois x || terms.any fun l => l.any fun t => t.1.2 || t.2.2 then (accPut tick k x 0#32 true, f)
      else
        let r := addGroups (oa.r.int && ob.r.int) (terms.map fun l => l.map fun t => (t.1.1, t.2.1)) ((accGet k x).toNat, 0#5)
        (accPut tick k x (BitVec.ofNat 32 r.1) false, f ||| r.2) := by
  have ha : ∀ kk, oa.a k0 i kk = some (oa.elem k0 i kk) := fun kk => by rw [Opr.a, hsp]; rfl
  have ht : ((((List.range (ceilDiv kd cl.group)).drop 0).take (ceilDiv kd cl.group - 0)).map fun q =>
      ((List.range (Nat.min cl.group (kd - q * cl.group))).map (· + q * cl.group)).filterMap fun kk =>
        (oa.a k0 i kk).map fun a => (a, ob.elem k0 j kk)) = mmaTerms k0 oa ob cl kd i j := by
    simp only [ha, Option.map_some, List.drop_zero, Nat.sub_zero, mmaTerms, List.filterMap_map]
    rw [List.take_of_length_le (by simp)]
    refine List.map_congr_left fun q _ => ?_
    exact congrFun List.filterMap_eq_map' _
  rw [mmaElem, ht]

/-- Clean inputs leave no poison in the groups. -/
theorem mmaTerms_clean {k0 : Core} {oa ob : Opr} {cl : MxClass} {kd i j : Nat}
    (h : ∀ t, t < kd → (oa.elem k0 i t).2 = false ∧ (ob.elem k0 j t).2 = false) :
    ((mmaTerms k0 oa ob cl kd i j).any fun l => l.any fun t => t.1.2 || t.2.2) = false := by
  simp only [mmaTerms, List.any_map, List.any_eq_false, Function.comp, List.mem_range]
  intro q _
  simp only [Bool.not_eq_true, List.any_eq_false, List.mem_range]
  intro t ht
  obtain ⟨h1, h2⟩ := h (t + q * cl.group) (by have := Nat.min_le_right cl.group (kd - q * cl.group); simp only [Nat.min_def] at *; omega)
  simp [h1, h2]

/-- Settles O44: ACCZ clears its elements in turn; an element of a multiply whose inputs are clean takes its additions. -/
theorem matrixResults : Obligations.MatrixResults := by
  refine ⟨fun tick g acc n k x => ?_, ?_⟩
  · have hu : runAccz tick g acc n (fun _ => 0) k =
        (List.range (n * 8192)).foldl (fun k i => accPut tick k ((g.accBase + acc) * 8192 + i) 0#32 false) k := by
      simp only [runAccz, if_true]
    obtain ⟨h1, h2⟩ := accClear tick ((g.accBase + acc) * 8192) x (n * 8192) k
    rw [hu]
    exact ⟨fun h => ⟨by rw [h1, if_pos h], by rw [h2, if_pos h]⟩, fun h => ⟨by rw [h1, if_neg h], by rw [h2, if_neg h]⟩⟩
  · intro tick g k0 k oa ob cl acc kd i j f hsp hpois hclean q r u
    have hq : (mmaTerms k0 oa ob cl kd i j).map (fun l => l.map fun t => (t.1.1, t.2.1)) = q := by
      simp only [mmaTerms, List.map_map, Function.comp_def]
      rfl
    have hu := mmaElem_dense tick g k0 ob cl acc kd i j k f hsp
    simp only [mmaTerms_clean hclean, hpois, hq, Bool.or_self, Bool.false_eq_true, if_false] at hu
    have hput := accPut_acc tick k (accAt g acc i j) (BitVec.ofNat 32 r.1)
    by_cases hempty : (mmaTerms k0 oa ob cl kd i j).isEmpty = true
    · have hnil : q = [] := by rw [← hq, List.isEmpty_iff.1 hempty]; rfl
      have hr : r = ((accGet k (accAt g acc i j)).toNat, 0#5) := by
        show addGroups _ q _ = _
        rw [hnil]; rfl
      rw [if_pos hempty] at hu
      have hku : u = (k, f) := hu
      rw [hku, hr]
      exact ⟨by simp [accGet], hpois, by simp, fun y _ => ⟨rfl, rfl⟩⟩
    · rw [if_neg hempty] at hu
      have hku : u = (accPut tick k (accAt g acc i j) (BitVec.ofNat 32 r.1) false, f ||| r.2) := hu
      rw [hku]
      refine ⟨by rw [(hput _).1, if_pos rfl], by rw [(hput _).2, if_pos rfl], rfl, fun y hy => ⟨?_, ?_⟩⟩
      · rw [(hput y).1, if_neg hy]
      · rw [(hput y).2, if_neg hy]

end Sys2Proof
end

section
/-! PROOFS. The obligations of 17 on the nib instructions and on what a store or a consume does to a slot. -/

namespace Sys2Proof

open Machine

/-! ### The nib instructions (R350 to R355) -/

/-- The slot that NSTAT names. -/
def slotArg (k : Ctx) (ao : Option Reg) : Nat := match ao with | some r => (k.uni r).toNat | none => 0

section
variable (s : State) (c : Ctl) (nib : Fin 4) (a d : Reg) (semen rdr clr : Bool) (sem : BitVec 6) (i : Fin 64) (sel : Fin 3) (ao : Option Reg)

theorem exec_nbind : exec (.nbind c nib a semen sem) s = runOnce s c [opdUni a] fun k =>
    let va := k.uni a
    if !nibHeld k nib.val || (k.k.nib nib.val).st != .unbound || (semen && !semHeld k.g sem.toNat) then k.ill
    else if va.toNat % 64 ≠ 0 then .trap (k.cause cMisaligned k.act va)
    else if !canonical va then .trap (k.cause cAccessDenied k.act va)
    else if cmdBlocked k.s k.ci k.wi 3 then .hold
    else .ok (k.s.modCore k.ci (·.modNib nib.val fun x =>
      x.start va k.w.pasid k.w.cls (k.wi == 31) (coreSource k.s k.ci) (if semen then some sem.toNat else none))) := rfl
theorem exec_nunbind : exec (.nunbind c nib) s = runNib s c nib [] fun k _ =>
    .ok (settle ((nibUnbind k.s k.ci nib.val).modWarp k.ci k.wi fun w => { w with wait := .nunbind nib.val (k.k.nib nib.val).gen }) k.ci k.wi) := rfl
theorem exec_ngrant (count : Fin 16) : exec (.ngrant c nib rdr (.s i) count) s =
    runNib s c nib (if count = 0 then [opdUni (.s i)] else scalarRun (.s i) ((count.val + 1) / 2)) fun k _ =>
      .ok (k.s.modCore k.ci (·.modNib nib.val fun x =>
        if rdr then { x with readers := (List.range count.val).map (grantRange k i.val) }
        else { x with writers := (List.range count.val).map (grantRange k i.val) })) := rfl
theorem exec_ngrant_none : exec (.ngrant c nib rdr a 0) s = runNib s c nib [opdUni a] fun k _ =>
    .ok (k.s.modCore k.ci (·.modNib nib.val fun x => if rdr then { x with readers := [] } else { x with writers := [] })) := rfl
theorem exec_nstat : exec (.nstat c nib sel clr d ao) s = runOnce s c (opdS d :: ao.toList.map opdUni) fun k =>
    let x := k.k.nib nib.val
    let sl := slotArg k ao
    if !nibHeld k nib.val || (sel = 2 && (x.st != .bound || x.nslots ≤ sl)) then k.ill
    else
      let s := writeLanes k.s k.ci k.wi .n64 d [(0, (nstatOf x sel.val sl : Int))]
      .ok (if clr then s.modCore k.ci (·.modNib nib.val fun x =>
        { x with refcnt := 0#16, nrcnt := 0#16, failcnt := 0#16, appcnt := 0#16 }) else s) := rfl
theorem exec_nabort_all : exec (.nabort c nib none) s = runNib s c nib [] fun k _ =>
    .ok (nibAbort k.s k.ci nib.val fun _ => true) := rfl
theorem exec_nabort : exec (.nabort c nib (some a)) s = runNib s c nib [opdUni a] fun k x =>
    if x.nslots ≤ (k.uni a).toNat then k.ill else .ok (nibAbort k.s k.ci nib.val (· == (k.uni a).toNat)) := rfl

end

/-- Settles O45: the body of each word, whose checks its hypotheses meet. -/
theorem nibInstructions : Obligations.NibInstructions := by
  intro s c nib a semen rdr clr sem count i d sel ao may bound at_
  refine ⟨runOnce_once (exec_nbind s c nib a semen sem) fun k _ h => ?_,
    runNib_once (exec_nunbind s c nib) (fun k h => h) fun k _ _ => rfl,
    fun hc => runNib_once ((exec_ngrant s c nib rdr i count).trans (by rw [if_neg hc])) (fun k h => h) fun k _ _ => rfl,
    runNib_once (exec_ngrant_none s c nib a rdr) (fun k h => h) fun k _ _ => rfl,
    runOnce_once (exec_nstat s c nib (.s d) clr sel ao) fun k _ h => ?_,
    runNib_once (exec_nabort_all s c nib) (fun k h => h) fun k _ _ => rfl,
    runNib_once (exec_nabort s c nib a) (fun k h => h.1) fun k _ h => if_neg (Nat.not_le.2 h.2)⟩
  · obtain ⟨hmay, hst, hsem, h64, hcan, hblk⟩ := h
    have hu : k.uni a = at_ k a := rfl
    have hs : (semen && !semHeld k.g sem.toNat) = false := by cases semen <;> simp_all
    have hm : nibHeld k nib.val = true := hmay
    simp only [hu, hm, hst, hs, h64, hcan, hblk, Bool.not_true, bne_self_eq_false, Bool.or_self, Bool.false_eq_true, if_false, ne_eq,
      not_true_eq_false]
    rfl
  · obtain ⟨hmay, hsel⟩ := h
    have hm : nibHeld k nib.val = true := hmay
    have hok : (sel = 2 && ((k.k.nib nib.val).st != .bound || (k.k.nib nib.val).nslots ≤ slotArg k ao)) = false := by
      by_cases h2 : sel = 2
      · obtain ⟨hb, hn⟩ := hsel h2
        simp only [hb, bne_self_eq_false, Bool.false_or, Bool.and_eq_false_iff, decide_eq_false_iff_not, Nat.not_le]
        exact .inr hn
      · simp [h2]
    dsimp only
    rw [if_neg (by rw [hm, hok]; decide), writeLanes_scalar]
    rfl

/-! ### Slots (R338, R339, R343) -/

theorem nib_setNib (k : Core) {ni : Nat} (h : ni < 4) (n : Nib) : (k.setNib ni n).nib ni = n := by
  simp only [Core.nib, Core.setNib, Vector.getElem?_setIfInBounds_self_of_lt h, Option.getD_some]
theorem slot_setSlot (n : Nib) {sl : Nat} (h : sl < n.slots.length) (x : Slot) : (n.setSlot sl x).slot sl = x := by
  simp only [Nib.slot, Nib.setSlot, List.getElem?_set_self h, Option.getD_some]
theorem slot_setSlot_ne (n : Nib) {sl j : Nat} (h : j ≠ sl) (x : Slot) : (n.setSlot sl x).slot j = n.slot j := by
  simp only [Nib.slot, Nib.setSlot, List.getElem?_set_ne (Ne.symm h)]

/-- A slot after one vector byte of a store. -/
def storeByte (x : Slot) (e : Nat × Byte × Bool) : Slot :=
  { x with bytes := tabSet 0#8 x.bytes e.1 e.2.1, map := setAdd x.map e.1, vpois := setPut x.vpois e.1 e.2.2 }
/-- A slot after the vector bytes of a store. -/
def storedSlot (vb : Nat) (x : Slot) (bs : List (Nat × Byte × Bool)) : Slot := (bs.filter (·.1 < vb)).foldl storeByte x
theorem storedSlot_owner (vb : Nat) (x : Slot) (bs : List (Nat × Byte × Bool)) :
    (storedSlot vb x bs).owner = x.owner ∧ (storedSlot vb x bs).st = x.st :=
  ⟨foldl_keeps (g := Slot.owner) (f := storeByte) (fun _ _ => rfl) _ x, foldl_keeps (g := Slot.st) (f := storeByte) (fun _ _ => rfl) _ x⟩
/-- A claimed slot as its writer's store leaves it: READY once its bitmap is full. -/
def filledSlot (vb seq : Nat) (x : Slot) (bs : List (Nat × Byte × Bool)) : Slot :=
  if (storedSlot vb x bs).map.length = vb then { storedSlot vb x bs with st := .ready, seq := seq } else storedSlot vb x bs
theorem fill_claimed (n : Nib) {sl : Nat} (h : sl < n.slots.length) (seq : Nat) (x : Slot) (bs : List (Nat × Byte × Bool)) :
    ((n.setSlot sl x).fill sl seq bs).1.slot sl = filledSlot n.vb seq x bs
      ∧ ∀ j, j ≠ sl → ((n.setSlot sl x).fill sl seq bs).1.slot j = n.slot j := by
  have hlen : sl < (n.setSlot sl x).slots.length := by rw [Nib.setSlot, List.length_set]; exact h
  have hvb : (n.setSlot sl x).vb = n.vb := rfl
  have hf : (n.setSlot sl x).fill sl seq bs =
      if (storedSlot n.vb x bs).map.length = n.vb then
        ((n.setSlot sl x).setSlot sl { storedSlot n.vb x bs with st := .ready, seq := seq }, true)
      else ((n.setSlot sl x).setSlot sl (storedSlot n.vb x bs), false) := by
    rw [Nib.fill, slot_setSlot n h, hvb] <;> rfl
  rw [hf, filledSlot]
  split
  · exact ⟨slot_setSlot _ hlen _, fun j hj => by rw [slot_setSlot_ne _ hj, slot_setSlot_ne _ hj]⟩
  · exact ⟨slot_setSlot _ hlen _, fun j hj => by rw [slot_setSlot_ne _ hj, slot_setSlot_ne _ hj]⟩
/-- A filled slot keeps its owner, and is READY exactly where its bitmap is full. -/
theorem filledSlot_spec (vb seq : Nat) {x : Slot} (bs : List (Nat × Byte × Bool)) (h : x.st = .filling) :
    (filledSlot vb seq x bs).owner = x.owner
      ∧ ((filledSlot vb seq x bs).st = .filling ∨ (filledSlot vb seq x bs).st = .ready)
      ∧ ((filledSlot vb seq x bs).st = .ready ↔ (filledSlot vb seq x bs).map.length = vb) := by
  obtain ⟨ho, hs⟩ := storedSlot_owner vb x bs
  unfold filledSlot
  split
  · next hm => exact ⟨ho, .inr rfl, by simp [hm]⟩
  · next hm => exact ⟨ho, .inl (hs.trans h), by simp [hs, h, hm]⟩

section
variable {k : Core} {ni sl : Nat} {g : BitVec 16} {bs : List (Nat × Byte × Bool)}

/-- A store that claims the slot, or goes on filling it. -/
def storeWrite (k : Core) (ni sl : Nat) (bs : List (Nat × Byte × Bool)) (x : Slot) : Core × Bool :=
  let f := ((k.nib ni).setSlot sl x).fill sl k.seq bs
  ({ k with seq := if f.2 then k.seq + 1 else k.seq }.setNib ni f.1, false)
/-- The slot of a writer that claims it. -/
def claimed (g : BitVec 16) : Slot := { Slot.fresh with st := .filling, owner := g }
theorem strokeStore_writer (hg : inSet (k.nib ni).writers g = true) (hb : ∃ e ∈ bs, e.1 < (k.nib ni).vb) :
    strokeStore k ni g sl bs = match ((k.nib ni).slot sl).st with
      | .empty => storeWrite k ni sl bs (claimed g)
      | .filling => if ((k.nib ni).slot sl).owner = g then storeWrite k ni sl bs ((k.nib ni).slot sl)
          else (k.setNib ni (k.nib ni).refuse, true)
      | .done | .failed => if (k.nib ni).overwrite then storeWrite k ni sl bs (claimed g) else (k.setNib ni (k.nib ni).refuse, true)
      | .ready | .applying => (k.setNib ni (k.nib ni).refuse, true) := by
  have hall : bs.all ((k.nib ni).vb ≤ ·.1) = false := by
    obtain ⟨e, he, hlt⟩ := hb
    rw [List.all_eq_false]
    exact ⟨e, he, by simpa using hlt⟩
  simp only [strokeStore, hg, hall, Bool.not_true, Bool.false_eq_true, if_false] <;> rfl
theorem storeWrite_spec (hni : ni < 4) (hsl : sl < (k.nib ni).slots.length) {x : Slot} (hx : x.st = .filling) (ho : x.owner = g) :
    let r := storeWrite k ni sl bs x
    r.2 = false ∧ ((r.1.nib ni).slot sl).owner = g
      ∧ (((r.1.nib ni).slot sl).st = .filling ∨ ((r.1.nib ni).slot sl).st = .ready)
      ∧ (((r.1.nib ni).slot sl).st = .ready ↔ ((r.1.nib ni).slot sl).map.length = (k.nib ni).vb)
      ∧ ∀ j, j ≠ sl → (r.1.nib ni).slot j = (k.nib ni).slot j := by
  obtain ⟨h1, h2⟩ := fill_claimed (k.nib ni) hsl k.seq x bs
  obtain ⟨h3, h4, h5⟩ := filledSlot_spec (k.nib ni).vb k.seq bs hx
  dsimp only
  rw [storeWrite, nib_setNib _ hni, h1]
  exact ⟨rfl, h3.trans ho, h4, h5, h2⟩

end

/-- Settles O46, by the state of the slot. -/
theorem nibSlots : Obligations.NibSlots := by
  intro k ni sl g bs hni n x r refused
  have hrefuse : ∀ {y : Core × Bool}, y = (k.setNib ni n.refuse, true) → y.2 = true ∧ y.1.nib ni = { n with refcnt := n.refcnt + 1 } :=
    fun h => by rw [h]; exact ⟨rfl, nib_setNib k hni _⟩
  refine ⟨fun hg => hrefuse ?_, fun hg hb => ⟨fun h => hrefuse ?_, fun hsl h => ?_⟩, fun off => ⟨fun hg => hrefuse ?_, fun hg => ?_⟩⟩
  · show strokeStore k ni g sl bs = _
    have hg' : inSet (k.nib ni).writers g = false := hg
    simp only [strokeStore, hg', Bool.not_false, if_true] <;> rfl
  · show strokeStore k ni g sl bs = _
    rw [strokeStore_writer hg hb]
    rcases h with h | h | ⟨h, ho⟩ | ⟨h | h, ho⟩
    · have h' : ((k.nib ni).slot sl).st = .ready := h
      rw [h']
    · have h' : ((k.nib ni).slot sl).st = .applying := h
      rw [h']
    · have h' : ((k.nib ni).slot sl).st = .filling := h
      rw [h']
      exact if_neg ho
    · have h' : ((k.nib ni).slot sl).st = .done := h
      rw [h']
      exact if_neg (by rw [show (k.nib ni).overwrite = false from ho]; decide)
    · have h' : ((k.nib ni).slot sl).st = .failed := h
      rw [h']
      exact if_neg (by rw [show (k.nib ni).overwrite = false from ho]; decide)
  · have hr : ∃ x, r = storeWrite k ni sl bs x ∧ x.st = .filling ∧ x.owner = g := by
      have hs : r = _ := strokeStore_writer hg hb
      rcases h with h | ⟨h, ho⟩ | ⟨h | h, ho⟩
      · exact ⟨claimed g, by rw [hs, show ((k.nib ni).slot sl).st = .empty from h], rfl, rfl⟩
      · exact ⟨_, by rw [hs, show ((k.nib ni).slot sl).st = .filling from h]; exact if_pos ho, h, ho⟩
      · exact ⟨claimed g, by rw [hs, show ((k.nib ni).slot sl).st = .done from h]; exact if_pos ho, rfl, rfl⟩
      · exact ⟨claimed g, by rw [hs, show ((k.nib ni).slot sl).st = .failed from h]; exact if_pos ho, rfl, rfl⟩
    obtain ⟨y, hy, hst, how⟩ := hr
    rw [hy]
    exact storeWrite_spec hni hsl hst how
  · show traceStore k ni g off = _
    have hg' : inSet (k.nib ni).readers g = false := hg
    simp only [traceStore, hg', Bool.not_false, if_true] <;> rfl
  · have ht : traceStore k ni g off = match (n.slot (off / Nat.max 1 n.tsz)).st with
        | .done | .failed => (k.setNib ni (n.free (off / Nat.max 1 n.tsz)), false)
        | _ => (k, false) := by
      have hg' : inSet (k.nib ni).readers g = true := hg
      simp only [traceStore, hg', Bool.not_true, Bool.false_eq_true, if_false] <;> rfl
    rw [ht]
    cases hst : (n.slot (off / Nat.max 1 n.tsz)).st
    case done => exact ⟨rfl, (nib_setNib k hni _).trans (by simp; rfl)⟩
    case failed => exact ⟨rfl, (nib_setNib k hni _).trans (by simp; rfl)⟩
    all_goals exact ⟨rfl, by simp; rfl⟩

end Sys2Proof
end

section
/-! PROOFS. The obligation of 07 on the words of the access slice. -/

namespace Sys2Proof

open Machine

/-! ### Two workgroups of one number on a core (R148) -/

/-- The entry of an ALDQ whose lanes have all been read, each with the word `v`. -/
def readEntry (v : Word) : QEntry := ⟨0, Vector.replicate 32 v, 0#32, 0xFFFFFFFF#32⟩
/-- Queue 0 feeds operands. -/
def operandWg : Wg := { loneWg with qconn := loneWg.qconn.set 0 .operand }
/-- A workgroup whose slice has ended stands before the one that runs, under the same number. -/
def endedWg : Wg := { operandWg with sliceSt := .ended, ldq := some (readEntry 5#32) }
def runningWg : Wg := { operandWg with ldq := some (readEntry 0#32) }
def sameNumberSt : State := loneSt loneWarp [endedWg, runningWg]
/-- The words of the first lane in queue 0 of the workgroup numbered 7. -/
def pushedWords : Out → Option (List Word)
  | .next t => ((t.core 0).wg? 7).map fun g => g.queues[0].map fun e => e.lanes[0]
  | _ => none

theorem aldq_pushes_running : pushedWords (exec (.aldq 0 0 0 0#32) sameNumberSt) = some [0#32] := by decide +kernel
theorem sliceOn_sameNumberSt : sliceOn sameNumberSt = some (0, runningWg) := by decide +kernel

/-- A word with no lane left to do comes to the state that it finds. -/
theorem sliceLanes_nil (s : State) (e : Eng) (kind : AccKind) (body : State → Eng → Piece → LaneAcc → ER Unit) :
    sliceLanes s e kind body [] = ⟨s, [], [], false⟩ := rfl

/-- Refutes O47: where a core has two workgroups of one number, a change by number reaches the first of them, so that the entry that
stands in the state before the lanes (the claim's) is not the running workgroup's, which ALDQ pushes. -/
theorem not_sliceWords : ¬ Obligations.SliceWords := by
  rintro ⟨h, -⟩
  obtain ⟨-, -, -, -, -, haldq, -⟩ := h sameNumberSt 0 runningWg 0 0 0 0 (.imm 0#32) (.imm 0#32) 0#32 sliceOn_sameNumberSt
  have hnil : ((List.range 32).filter fun l => !laneIn 0xFFFFFFFF#32 l) = [] := by decide +kernel
  refine absurd (haldq (sameNumberSt.modWg 0 7 fun g => { g with ldq := some (g.ldq.getD ⟨0, Vector.replicate 32 0#32, 0#32, 0#32⟩) }) []
    (readEntry 5#32) (by decide +kernel) (by decide +kernel) ?_ (by decide +kernel)) ?_
  rotate_left
  · intro h1
    have h2 := congrArg pushedWords h1
    rw [aldq_pushes_running] at h2
    exact absurd h2 (by decide +kernel)
  · have hland : (runningWg.ldq.getD ⟨0, Vector.replicate 32 0#32, 0#32, 0#32⟩).landed = 0xFFFFFFFF#32 := rfl
    simp only [hland, hnil, List.map_nil, sliceLanes_nil]
    rfl

end Sys2Proof
end

section
/-! PROOFS. What a translation leaves alone, and the obligation of 20 on the system instructions. -/

namespace Sys2Proof

open Machine

/-! ### What a translation leaves alone (R177, R258) -/

/-- A die is as before but for its caches, its directory and its logical time. -/
def DieKept (k k' : Die) : Prop :=
  { k' with
    quads := k.quads, l2 := k.l2, dirs := k.dirs, evmax := k.evmax, evExp := k.evExp, fwc := k.fwc, fwcExp := k.fwcExp
    ltlim := k.ltlim, snoop := k.snoop, bisnp := k.bisnp } = k
/-- A core is as before but for its translations, its L1 and its logical time. -/
def CoreKept (k k' : Core) : Prop := { k' with pts := k.pts, l1 := k.l1, tlb := k.tlb } = k
/-- Everything but the caches, the directory, logical time and device memory. -/
structure CachesKept (s t : State) : Prop where
  core : ∀ i, CoreKept (s.core i) (t.core i)
  die : ∀ d, DieKept (s.die d) (t.die d)
  rest : { t with cores := s.cores, dies := s.dies, hbm := s.hbm, hbmPois := s.hbmPois, writes := s.writes, marks := s.marks } = s

theorem DieKept.trans {a b c : Die} (h : DieKept a b) (h' : DieKept b c) : DieKept a c := by
  have e := congrArg (fun k : Die => ({ k with
    quads := a.quads, l2 := a.l2, dirs := a.dirs, evmax := a.evmax, evExp := a.evExp, fwc := a.fwc, fwcExp := a.fwcExp
    ltlim := a.ltlim, snoop := a.snoop, bisnp := a.bisnp } : Die)) h'
  exact e.trans h
theorem CoreKept.trans {a b c : Core} (h : CoreKept a b) (h' : CoreKept b c) : CoreKept a c := by
  have e := congrArg (fun k : Core => ({ k with pts := a.pts, l1 := a.l1, tlb := a.tlb } : Core)) h'
  exact e.trans h

namespace CachesKept

theorem refl (s : State) : CachesKept s s := ⟨fun _ => rfl, fun _ => rfl, rfl⟩
theorem trans {s t u : State} (h : CachesKept s t) (h' : CachesKept t u) : CachesKept s u where
  core i := (h.core i).trans (h'.core i)
  die d := (h.die d).trans (h'.die d)
  rest := by
    have e := congrArg (fun x : State => ({ x with
      cores := s.cores, dies := s.dies, hbm := s.hbm, hbmPois := s.hbmPois, writes := s.writes, marks := s.marks } : State)) h'.rest
    exact e.trans h.rest
theorem foldl {α : Type} {f : State → α → State} (hf : ∀ s a, CachesKept s (f s a)) :
    ∀ (l : List α) (s : State), CachesKept s (l.foldl f s)
  | [], s => .refl s
  | a :: l, s => (hf s a).trans (foldl hf l _)
theorem modCore {s : State} {c : Nat} {f : Core → Core} (hf : ∀ k, CoreKept k (f k)) : CachesKept s (s.modCore c f) where
  core i := by
    rw [core_modCore]
    split
    · next h => rw [h.1]; exact hf _
    · rfl
  die _ := rfl
  rest := rfl
theorem modDie {s : State} {d : Nat} {f : Die → Die} (hf : ∀ k, DieKept k (f k)) : CachesKept s (s.modDie d f) where
  core _ := rfl
  die i := by
    rw [die_modDie]
    split
    · next h => rw [h.1]; exact hf _
    · rfl
  rest := rfl
theorem writes {s : State} {m : List (Nat × Byte)} {p : List Nat} {n : Nat} {l : List Mark} :
    CachesKept s { s with hbm := m, hbmPois := p, writes := n, marks := l } := ⟨fun _ => rfl, fun _ => rfl, rfl⟩

end CachesKept

theorem evict_kept (k : Die) (line : Nat) : DieKept k (k.evict line) := by
  unfold Die.evict
  split
  · rfl
  · dsimp only
    split <;> rfl
theorem foreign_kept (k : Die) (line : Nat) : DieKept k (k.foreign line).2 := by
  unfold Die.foreign
  split
  · split <;> rfl
  · rfl
theorem invalidate_kept (k : Die) (line : Nat) : DieKept k (k.invalidate line) := by
  unfold Die.invalidate
  split
  · rfl
  · exact (foreign_kept k line).trans (evict_kept _ line)
theorem recallAll_kept (s : State) (line : Nat) : CachesKept s (recallAll s line) := by
  unfold recallAll
  refine CachesKept.trans (CachesKept.foldl (fun s d => ?_) _ s) (.modDie (by intro; rfl))
  split
  · exact .refl s
  · exact .modDie fun k => invalidate_kept k line
theorem rmapTrim_caches (s : State) (c : Nat) : CachesKept s (rmapTrim s c) := by
  unfold rmapTrim
  exact .modDie (by intro; rfl)
theorem dropL1_caches (s : State) (c : Nat) (p : Nat → L1Line → Bool) : CachesKept s (dropL1 s c p) := by
  unfold dropL1
  dsimp only
  split
  · exact .refl s
  · refine CachesKept.trans (CachesKept.foldl (fun s q => ?_) _ s) (rmapTrim_caches _ c)
    exact .modCore (by intro; rfl)
theorem ackWrite_caches (s : State) (c : Nat) (p : Posted) : CachesKept s (ackWrite s c p) := by
  unfold ackWrite
  dsimp only
  exact .modCore fun k => by cases p.upd <;> rfl
theorem sysAck_caches (s : State) (c l : Nat) : CachesKept s (sysAck s c l) := by
  unfold sysAck
  split
  · exact ackWrite_caches _ _ _
  · exact dropL1_caches _ _ _
theorem limitDie_caches (l : Nat) (s : State) (d : Nat) : CachesKept s (limitDie l s d) := by
  unfold limitDie
  exact .modDie (by intro; rfl)
theorem noteOuter_caches (s : State) (l : Nat) : CachesKept s (s.noteOuter l) := .writes
theorem sysPut_caches (s : State) (c pa : Nat) (bs : List Byte) : CachesKept s (s.sysPut c pa bs) := by
  unfold State.sysPut
  dsimp only
  refine CachesKept.trans ?_ (CachesKept.foldl (fun s l => ?_) _ _)
  · refine CachesKept.trans ?_ (CachesKept.foldl noteOuter_caches _ _)
    refine CachesKept.trans ?_ .writes
    refine CachesKept.foldl (fun s l => ?_) _ s
    split
    · exact recallAll_kept _ _
    · exact .refl _
  · refine CachesKept.trans ?_ (sysAck_caches _ _ _)
    refine CachesKept.trans ?_ (CachesKept.foldl (limitDie_caches l) _ _)
    split
    · exact .modDie fun k => by split <;> rfl
    · refine .modDie fun k => ?_
      split
      · exact (foreign_kept k l).trans rfl
      · rfl
theorem snoopNow_caches (c : Nat) (s : State) (l : Nat) : CachesKept s (snoopNow c s l) := by
  unfold snoopNow
  dsimp only
  split
  · exact .refl s
  · split
    · refine CachesKept.trans ?_ (sysPut_caches _ _ _ _)
      exact .modDie (by intro; rfl)
    · exact .modDie (by intro; rfl)

theorem walkSnoop_caches (c va : Nat) : ∀ (lv tab : Nat) (s : State), CachesKept s (walkSnoop c va lv tab s)
  | 0, _, _ => snoopNow_caches _ _ _
  | lv + 1, tab, s => by
    rw [walkSnoop]
    split
    · exact (snoopNow_caches _ _ _).trans (walkSnoop_caches c va lv _ _)
    · exact snoopNow_caches _ _ _
theorem snoopWalk_caches (s : State) (c : Nat) (pasid : BitVec 20) (va : Dword) : CachesKept s (snoopWalk s c pasid va) := by
  unfold snoopWalk
  split
  · exact .refl s
  · split
    · exact .refl s
    · exact walkSnoop_caches _ _ _ _ _
theorem tlbFill_caches (s : State) (c : Nat) (x : Xlat) : CachesKept s (tlbFill s c x) := by
  unfold tlbFill
  exact CachesKept.trans (.modCore (by intro; rfl)) (.modDie (by intro; rfl))
theorem translate_caches (s : State) (c : Nat) (pasid : BitVec 20) (va : Dword) : CachesKept s (Machine.translate s c pasid va).1 := by
  unfold Machine.translate
  dsimp only
  split
  · exact .refl s
  · split
    · dsimp only
      exact .modCore (by intro; rfl)
    · have h := snoopWalk_caches s c pasid va
      split
      · exact h.trans (tlbFill_caches _ c _)
      · split
        · exact h.trans (tlbFill_caches _ c _)
        · exact h
theorem checkVa_caches (s : State) (c : Nat) (pasid : BitVec 20) (scribe : Bool) (va : Dword) (need : BitVec 3) :
    CachesKept s (checkVa s c pasid scribe va need).1 := by
  have h := translate_caches s c pasid va
  unfold checkVa
  split
  · exact .refl s
  · split
    · next e => rw [e] at h; exact h
    · next e => rw [e] at h; exact h

/-! ### The pages of a context image (R399) -/

theorem ctxPlace_ok {k : Ctx} {va : Dword} {need : BitVec 3} {u : State} {p : Nat × Fin 6} (h : ctxPlace k va need = (u, .ok p)) :
    CachesKept k.s u := by
  have hk := checkVa_caches k.s k.ci k.w.pasid true va need
  unfold ctxPlace at h
  split at h
  · next e =>
    rw [e] at hk
    cases h
    exact hk
  · cases h
  · cases h
theorem ctxPages_ok (need : BitVec 3) : ∀ (n : Nat) (va : Dword) (k : Ctx) {u : State} {l : List (Nat × Fin 6)},
    ctxPages need n va k = (u, .ok l) → CachesKept k.s u
  | 0, _, k, u, l, h => by
    cases h
    exact .refl _
  | n + 1, va, k, u, l, h => by
    rw [ctxPages] at h
    split at h
    · cases h
    · next e =>
      split at h
      · next e' =>
        cases h
        exact (ctxPlace_ok e).trans (ctxPages_ok need n _ _ e')
      · next hne => exact absurd h (hne u l)
theorem CachesKept.node? {s t : State} (h : CachesKept s t) (d id n : Nat) : t.node? d id n = s.node? d id n := by
  have e := congrArg Die.graphs (h.die d)
  simp only [State.node?, Die.graph?, show (t.die d).graphs = (s.die d).graphs from e]
theorem CachesKept.images {s t : State} (h : CachesKept s t) : t.images = s.images := by
  have e := congrArg State.images h.rest
  exact e
theorem CachesKept.imageOk {s t : State} (h : CachesKept s t) (im : Image) : imageOk t im = imageOk s im := by
  simp only [Machine.imageOk, h.node?]

/-- An image that is found is one that was saved, whose node is still there and whose bytes are still what was saved. -/
theorem loadImage_some {k : Ctx} {va : Dword} {u : State} {im : Image} (h : loadImage k va = (u, .ok (some im))) :
    im ∈ u.images ∧ imageOk u im = true ∧ imageIntact u (dieOfCore k.ci) im = true := by
  unfold loadImage at h
  split at h
  · cases h
  split at h
  · cases h
  next im' hf =>
  split at h
  · cases h
  next e =>
    have hkept := ctxPages_ok _ _ _ _ e
    obtain ⟨rfl, h⟩ := Prod.mk.inj h
    split at h
    · next hi =>
      cases h
      have hp := List.find?_some hf
      simp only [Bool.and_eq_true] at hp hi
      exact ⟨by rw [hkept.images]; exact List.mem_of_find?_eq_some hf, by rw [hkept.imageOk]; exact hp.2, hi.2⟩
    · cases h

/-! ### The system instructions (R396 to R399) -/

/-- A system instruction of the scribe warp is its body, performed once. -/
theorem sys_of {i : Instr} {s : State} {c : Ctl} {opds : List Opd} {H : Ctx → Prop} {t : Ctx → State} {body : Ctx → Res}
    (he : exec i s = runSys s c opds body) (hb : ∀ k, H k → body k = .ok (t k)) : Sys i s c opds H t := by
  refine ⟨fun k hr h => ?_, fun k hr h => ?_⟩
  · have hwi : k.wi = 31 := (popped_wi k opds).symm.trans h.1
    exact (runOnce_once (runSys_once he hr hwi) fun k _ => hb k).1 k hr h.2
  · have hwi : k.wi = 31 := (popped_wi k opds).symm.trans h.1
    rw [runSys_once he hr hwi, runOnce, runInstr_ready hr, if_pos h.2]
    rfl
section
variable {i : Instr} {s : State} {c : Ctl} {opds : List Opd} {k : Ctx} {body : Ctx → Res}

theorem sys_traps (he : exec i s = runSys s c opds body) (hr : Ready s c true false opds k) (hwi : k.wi = 31) (ha : k.act ≠ 0#32)
    {z : Cause} (hb : body k = .trap z) : Traps i s k c z := runOnce_traps (runSys_once he hr hwi) hr ha hb
/-- A system instruction that has begun and is not done: the warp stays at it. -/
theorem sys_again (he : exec i s = runSys s c opds body) (hr : Ready s c true false opds k) (hwi : k.wi = 31) (ha : k.act ≠ 0#32)
    {u : State} (hb : body k = .again u) : exec i s = .next u := by
  rw [runSys_once he hr hwi, runOnce, runInstr_ready hr, popped_scalar hr, if_neg ha, hb]
  rfl

end

/-- The translations that TLBINV removes. -/
def tlbinvHit (kind : Fin 3) (ao : Option Reg) (pasid : BitVec 20) (k : Ctx) (x : Xlat) : Bool :=
  match kind with
  | 0 => x.covers pasid (slotArg k ao)
  | 1 => x.pasid == pasid
  | 2 => true

section
variable (s : State) (c : Ctl) (a d : Reg) (ao : Option Reg) (n : BitVec 12) (kind : Fin 3) (pkg : Bool) (pasid : BitVec 20)
  (cnt : BitVec 16) (slot : BitVec 5)

theorem exec_csrr : exec (.csrr c d n) s = runSys s c [opdS d] fun k =>
    if csrListed n then
      .ok (writeLanes k.s k.ci k.wi .n64 d [(0, ((ctlRead k.s k.ci (8 * n.toNat)).toNat : Int))])
    else k.ill := rfl
theorem exec_csrw : exec (.csrw c a n) s = runSys s c [opdUni a] fun k =>
    let v := (k.uni a).toNat
    if csrWritable n && 32 ≤ v && v ≤ 256 then .ok (k.s.modCore k.ci fun x => { x with govB := BitVec.ofNat 9 v }) else k.ill := rfl
theorem exec_tlbinv : exec (.tlbinv c kind pkg ao pasid) s = runSys s c (ao.toList.map opdUni) fun k =>
    if xlatBusy k.s (if pkg then none else some (dieOfCore k.ci)) (tlbinvHit kind ao pasid k) then .hold
    else .ok (if pkg then dropXlats k.s (tlbinvHit kind ao pasid k) else dropDie k.s (dieOfCore k.ci) (tlbinvHit kind ao pasid k)) := rfl
theorem exec_rmapinv : exec (.rmapinv c a cnt) s = runSys s c [opdUni a] fun k =>
    let pa := (k.uni a).toNat
    if pa % 128 ≠ 0 || cnt = 0#16 then k.ill
    else
      let d := dieOfCore k.ci
      let hit := fun (l : Nat) => pa / 128 ≤ l && l < pa / 128 + cnt.toNat
      let s := ((List.range 96).map (· + 96 * d)).foldl (fun s c => s.modCore c fun x => { x with l1 := x.l1.filter fun e => !hit e.pline }) k.s
      .ok (s.modDie d fun x => { x with quads := x.quads.map fun q => { q with rmap := q.rmap.filter fun e => !hit e.1 } }) := rfl
theorem exec_dbghalt : exec (.dbghalt c) s = runSys s c [] fun k =>
    if k.k.halted then .ok k.s
    else if haltQuiet k.s k.ci then .ok (k.s.modCore k.ci fun x => { x with halted := true, haltReq := false, warps := haltWarps x.warps })
    else .again (k.s.modCore k.ci fun x => { x with haltReq := true }) := rfl
theorem exec_dbgres : exec (.dbgres c) s = runSys s c [] fun k =>
    if !k.k.halted then .ok k.s
    else
      let s := k.s.modCore k.ci fun x => { x with halted := false, bpw := [], bpEng := [] }
      let s := k.k.bpw.foldl (acceptMsg · k.ci ·) s
      .ok (k.k.tickets.foldl (fun s t => match t.notice with | some st => closeTicket s k.ci t st | none => s) s) := rfl

end

/-- An answer written to a scalar. -/
theorem putStatus_scalar (s : State) (k : Ctx) (d : Fin 64) (v : Nat) :
    putStatus s k (.s d) v = .ok (s.modWarp k.ci k.wi (·.sput d.val (BitVec.ofNat 64 v) false)) :=
  congrArg Res.ok (writeLanes_scalar _ _ _ _ _)

/-! What CTXSAVE and CTXLOAD come to (R399). -/

/-- The body of CTXSAVE. -/
def ctxsaveRes (d a : Reg) (slot : BitVec 5) (k : Ctx) : Res :=
  if (k.uni a).toNat % 4096 ≠ 0 then k.ill
  else match (k.k.warp? slot.toNat).bind k.k.wgOf with
    | none => putStatus k.s k d 1
    | some g => match ctxPages needW (imagePages g (warpN (k.k.warpsOf g.id))) (k.uni a) k with
      | (_, .error r) => r
      | (s, .ok pages) =>
        let s := stopWg s k.ci g.id
        if !wgQuiet s k.ci g.id || taskDoomed s g then .again s
        else
          let s := saveWg s k.ci g.id (((pages.head?).map (·.1)).getD 0) pages
          let s := if (gangCores s g.die g.graph g.node g.gang).isEmpty then gangGone s g.die g.graph g.node g.gang true else s
          putStatus s k d 0
/-- The body of CTXLOAD. -/
def ctxloadRes (d a : Reg) (k : Ctx) : Res :=
  if (k.uni a).toNat % 4096 ≠ 0 then k.ill
  else match loadImage k (k.uni a) with
    | (_, .error r) => r
    | (s, .ok none) => putStatus s k d 2
    | (s, .ok (some im)) => match restoreWg s k.ci im with
      | none => putStatus s k d 1
      | some s =>
        let g := im.wg
        let s := if (gangCores s g.die g.graph g.node g.gang).length = 1 then
            s.modNode g.die g.graph g.node fun x => { x with placed := x.placed + 1, back := x.back.erase g.gang }
          else s
        putStatus s k d 0
theorem exec_ctxsave_eq (s : State) (c : Ctl) (d a : Reg) (slot : BitVec 5) :
    exec (.ctxsave c d a slot) s = runSys s c [opdS d, opdUni a] (ctxsaveRes d a slot) := rfl
theorem exec_ctxload_eq (s : State) (c : Ctl) (d a : Reg) : exec (.ctxload c d a) s = runSys s c [opdS d, opdUni a] (ctxloadRes d a) := rfl

section
variable {k : Ctx} {d a : Reg} {slot : BitVec 5} {u : State} {g : Wg} {pages : List (Nat × Fin 6)} {im : Image}

theorem ctxsaveRes_odd (h : (k.uni a).toNat % 4096 ≠ 0) : ctxsaveRes d a slot k = k.ill := if_pos h
theorem ctxsaveRes_none (h : (k.uni a).toNat % 4096 = 0) (hg : (k.k.warp? slot.toNat).bind k.k.wgOf = none) :
    ctxsaveRes d a slot k = putStatus k.s k d 1 := by
  simp only [ctxsaveRes, h, hg, ne_eq, not_true_eq_false, if_false]
theorem ctxsaveRes_pages (h : (k.uni a).toNat % 4096 = 0) (hg : (k.k.warp? slot.toNat).bind k.k.wgOf = some g)
    (hp : ctxPages needW (imagePages g (warpN (k.k.warpsOf g.id))) (k.uni a) k = (u, .ok pages)) :
    ctxsaveRes d a slot k =
      if !wgQuiet (stopWg u k.ci g.id) k.ci g.id || taskDoomed (stopWg u k.ci g.id) g then .again (stopWg u k.ci g.id)
      else
        let s := saveWg (stopWg u k.ci g.id) k.ci g.id (((pages.head?).map (·.1)).getD 0) pages
        putStatus (if (gangCores s g.die g.graph g.node g.gang).isEmpty = true then gangGone s g.die g.graph g.node g.gang true else s) k d 0 := by
  simp only [ctxsaveRes, h, hg, hp, ne_eq, not_true_eq_false, if_false]
theorem ctxloadRes_odd (h : (k.uni a).toNat % 4096 ≠ 0) : ctxloadRes d a k = k.ill := if_pos h
theorem ctxloadRes_none (h : (k.uni a).toNat % 4096 = 0) (hl : loadImage k (k.uni a) = (u, .ok none)) :
    ctxloadRes d a k = putStatus u k d 2 := by
  simp only [ctxloadRes, h, hl, ne_eq, not_true_eq_false, if_false]
theorem ctxloadRes_full (h : (k.uni a).toNat % 4096 = 0) (hl : loadImage k (k.uni a) = (u, .ok (some im)))
    (hr : restoreWg u k.ci im = none) : ctxloadRes d a k = putStatus u k d 1 := by
  simp only [ctxloadRes, h, hl, hr, ne_eq, not_true_eq_false, if_false]
theorem ctxloadRes_restored (h : (k.uni a).toNat % 4096 = 0) (hl : loadImage k (k.uni a) = (u, .ok (some im))) {w : State}
    (hr : restoreWg u k.ci im = some w) : ctxloadRes d a k =
      putStatus (if (gangCores w im.wg.die im.wg.graph im.wg.node im.wg.gang).length = 1 then
        w.modNode im.wg.die im.wg.graph im.wg.node fun x => { x with placed := x.placed + 1, back := x.back.erase im.wg.gang } else w) k d 0 := by
  simp only [ctxloadRes, h, hl, hr, ne_eq, not_true_eq_false, if_false]

end

/-- Settles O48: each word is its body performed once by the scribe warp, whose checks its hypotheses decide. -/
theorem systemInstructions : Obligations.SystemInstructions := by
  intro s u c a ao d n kind pasid cnt slot pages g im uni answer p
  have hp : p = tlbinvHit kind ao pasid := rfl
  refine ⟨sys_of (exec_csrr s c (.s d) n) fun k h => ?_, sys_of (exec_csrw s c a 2#12) fun k h => ?_,
    fun k hr hwi ha h0 h2 h8 => sys_traps (exec_csrr s c (.s d) n) hr hwi ha (if_neg (by simp [csrListed, h0, h2, h8])),
    fun k hr hwi ha => ⟨fun h => sys_traps (exec_csrw s c a n) hr hwi ha (if_neg ?_),
      fun h => sys_traps (exec_rmapinv s c a cnt) hr hwi ha (if_pos ?_)⟩,
    fun k hr hwi ha h => ⟨sys_traps (exec_ctxsave_eq s c (.s d) a slot) hr hwi ha (ctxsaveRes_odd ?_),
      sys_traps (exec_ctxload_eq s c (.s d) a) hr hwi ha (ctxloadRes_odd ?_)⟩,
    sys_of (exec_tlbinv s c ao kind true pasid) fun k h => ?_, sys_of (exec_tlbinv s c ao kind false pasid) fun k h => ?_,
    sys_of (exec_rmapinv s c a cnt) fun k h => if_neg (by simpa using h),
    sys_of (exec_ctxsave_eq s c (.s d) a slot) fun k h => (ctxsaveRes_none h.1 h.2).trans (putStatus_scalar _ _ _ _),
    fun w => sys_of (exec_ctxsave_eq s c (.s d) a slot) fun k h => ?_, fun k hr hwi ha h hg hpg hq => ?_,
    sys_of (exec_ctxload_eq s c (.s d) a) fun k h => (ctxloadRes_none h.1 h.2).trans (putStatus_scalar _ _ _ _),
    fun w => sys_of (exec_ctxload_eq s c (.s d) a) fun k h => (ctxloadRes_restored h.1 h.2.1 h.2.2).trans (putStatus_scalar _ _ _ _),
    sys_of (exec_ctxload_eq s c (.s d) a) fun k h => (ctxloadRes_full h.1 h.2.1 h.2.2).trans (putStatus_scalar _ _ _ _),
    fun k h => loadImage_some h, sys_of (exec_dbghalt s c) fun k h => ?_, sys_of (exec_dbghalt s c) fun k h => if_pos h,
    fun k hr hwi ha hh hq => ?_, sys_of (exec_dbgres s c) fun k h => ite_not_held h _ _, sys_of (exec_dbgres s c) fun k h => ite_held h _ _⟩
  · rw [if_pos (by rcases h with h | h | h <;> rw [h] <;> decide)]
    exact congrArg Res.ok (writeLanes_scalar _ _ _ _ _)
  · exact if_pos (by rw [show csrWritable 2#12 = true from rfl]; simpa using h)
  · rw [popped_scalar hr] at h
    simp only [csrWritable, Bool.and_eq_true, beq_iff_eq, decide_eq_true_eq]
    rintro ⟨⟨h1, h2⟩, h3⟩
    rcases h with h | h | h
    · exact h h1
    · exact absurd h2 (Nat.not_le.2 h)
    · exact absurd h3 (Nat.not_le.2 h)
  · rw [popped_scalar hr] at h
    simpa using h
  · rw [popped_scalar hr] at h
    exact h
  · rw [popped_scalar hr] at h
    exact h
  · exact if_neg (by rw [← hp]; simp [h])
  · exact if_neg (by rw [← hp]; simp [h])
  · obtain ⟨h4, hg, hpg, hq, hd, rfl⟩ := h
    rw [ctxsaveRes_pages h4 hg hpg, if_neg (by simp [hq, hd])]
    exact putStatus_scalar _ _ _ _
  · rw [popped_scalar hr] at h hg hpg
    refine sys_again (exec_ctxsave_eq s c (.s d) a slot) hr hwi ha ?_
    rw [ctxsaveRes_pages h hg hpg]
    exact if_pos (by simpa using hq)
  · rw [if_neg (by simp [h.1]), if_pos h.2]
    rfl
  · rw [popped_scalar hr] at hh hq ⊢
    refine sys_again (exec_dbghalt s c) hr hwi ha ?_
    rw [if_neg (by simp [hh]), if_neg (by simp [hq])]

end Sys2Proof
end

section
/-! PROOFS. The obligation of 03, 07, 11 and 20 on the events of issue. -/

namespace Sys2Proof

open Machine

namespace Machine

/-! ### A change of one warp -/

/-- Changes that agree on the warp of the slot are the same change of the core. -/
theorem Core.modWarp_congr {k : Core} {slot : Nat} {w : Warp} {f g : Warp → Warp} (hw : k.warp? slot = some w) (h : f w = g w) :
    k.modWarp slot f = k.modWarp slot g := by
  simp only [Core.modWarp, hw, Option.map_some, h]

theorem State.modWarp_congr {s : State} {core slot : Nat} {w : Warp} {f g : Warp → Warp} (hw : s.warp? core slot = some w)
    (h : f w = g w) : s.modWarp core slot f = s.modWarp core slot g := by
  unfold State.modWarp State.modCore
  dsimp only
  rw [Core.modWarp_congr hw h]

/-- A slot that has a warp is one of the 32. -/
theorem slot_lt_of_warp {s : State} {core slot : Nat} {w : Warp} (hw : s.warp? core slot = some w) : slot < 32 := by
  refine Nat.lt_of_not_le fun hge => ?_
  have hnone : (s.core core).warps[slot]? = none := by simp only [Vector.getElem?_eq_none_iff]; omega
  simp [State.warp?, Core.warp?, hnone] at hw

/-! ### The events -/

theorem exec_watchdog (core slot : Nat) (s : State) : exec (.watchdog core slot) s = execWatchdog core slot s := rfl
theorem exec_frontierSpill (core slot : Nat) (s : State) : exec (.frontierSpill core slot) s = execFrontierSpill core slot s := rfl
theorem exec_frontierRefill (core slot : Nat) (s : State) : exec (.frontierRefill core slot) s = execFrontierRefill core slot s := rfl
theorem exec_spilledMerge (core slot : Nat) (s : State) : exec (.spilledMerge core slot) s = execSpilledMerge core slot s := rfl
theorem exec_frontierSpillFault (core slot : Nat) (r : Bool) (s : State) :
    exec (.frontierSpillFault core slot r) s = execFrontierSpillFault core slot r s := rfl
theorem exec_trapEntry (core slot : Nat) (s : State) : exec (.trapEntry core slot) s = execTrapEntry core slot s := rfl
theorem exec_trapEscalation (core slot : Nat) (s : State) : exec (.trapEscalation core slot) s = execTrapEscalation core slot s := rfl
theorem exec_longLatencyComplete (core slot id : Nat) (s : State) :
    exec (.longLatencyComplete core slot id) s = execLongLatencyComplete core slot id s := rfl
theorem exec_storeAck (core slot id : Nat) (s : State) : exec (.storeAck core slot id) s = execStoreAck core slot id s := rfl

/-- The entry's clause is fetched whole and held at its first position (R52 to R56). -/
theorem fetchClause_begins {s s2 s3 : State} {core slot : Nat} {w : Warp} {e : Entry} {x : Word96} {h : Header} {bs : List Byte}
    (hx : fetchWord s core w.pasid (slot == 31) e.pc = (s2, .ok x)) (hh : Header.ofWord x = some h) (hbad : h.bad = false)
    (hm : h.meld = w.lig.on) (hl : 1 ≤ h.len)
    (hgo : fetchGo s2 core w.pasid (slot == 31) (3 * h.len) (e.pc + 12#64) = (s3, .ok bs)) :
    fetchClause s core slot w e 1 true = (endFetch s3 core slot).modWarp core slot fun w =>
      let w := { w with clause := some ⟨e.pc, h, wordsOf h.len bs, 1⟩, resume := none
                        front := { e with prio := h.prio, pc := e.pc + 12#64 } :: w.front.drop 1 }
      if w.flagsZero h.wait then w.mergeFlags h.wait e.mask else { w with wait := .flags h.wait e.mask } := by
  have hlen : ¬ h.len < 1 := by omega
  have hmeld : (true && h.meld != w.lig.on) = false := by simp [hm]
  simp only [fetchClause, hx, hh, hbad, hmeld, hlen, hgo, Bool.false_eq_true, if_false, if_true, Nat.mul_one]

/-- WATCHDOG before a blocked instruction, where the warp neither is stopped nor escalates. -/
theorem execWatchdog_blocked {s : State} {core slot : Nat} {k : Ctx} (hq : queueBlocked { s with cur := (core, slot) } core slot = some k)
    (hst : k.w.stopped = false) (hesc : k.w.escal = none) (hi : coreIssues s core slot = true) :
    execWatchdog core slot s =
      if k.w.handler.isSome || (k.w.beforeNext && !k.w.lowerPending cWatchdog) then
        .next (takeTrap { s with cur := (core, slot) } core slot (k.cause cWatchdog k.act 0#64))
      else if k.w.pends cWatchdog then .next { s with cur := (core, slot) }
      else .next (State.modWarp { s with cur := (core, slot) } core slot (·.addCause (k.cause cWatchdog k.act 0#64))) := by
  have hi' : coreIssues { s with cur := (core, slot) } core slot = true := hi
  simp only [execWatchdog, hq, hst, hesc, hi', Option.isSome_none, Bool.not_true, Bool.or_self, Bool.false_eq_true, if_false]

/-- No cause below a code is pending where each pending one is at least it. -/
theorem lowerPending_iff (w : Warp) (c : Nat) : w.lowerPending c = true ↔ ∃ y ∈ w.causes, y.code < c := by
  simp [Warp.lowerPending]

/-- The pending cause of lowest code comes first (R64). -/
theorem firstCause_of_least {l : List Cause} {z : Cause} (hz : z ∈ l) (hmin : ∀ y ∈ l, z.code ≤ y.code) :
    firstCause l = l.find? (·.code == z.code) := by
  have hm : (l.map (·.code)).min? = some z.code := by
    rw [List.min?_eq_some_iff]
    refine ⟨List.mem_map_of_mem hz, fun b hb => ?_⟩
    obtain ⟨y, hy, rfl⟩ := List.mem_map.1 hb
    exact hmin y hy
  simp [firstCause, hm]

/-- TRAP_ENTRY at a boundary: the pending cause of lowest code is taken, or a spilled entry comes back first. -/
theorem execTrapEntry_takes {s : State} {core slot : Nat} {u : Warp} {z : Cause} (hu : (settle s core slot).warp? core slot = some u)
    (hend : u.ended = false) (hst : u.stopped = false) (hesc : u.escal = none) (hjob : u.job = none) (hhd : u.handler = none)
    (hwt : u.wait = .none) (hi : coreIssues (settle s core slot) core slot = true) (hz : firstCause u.causes = some z) :
    execTrapEntry core slot s = .next (if u.front.isEmpty then (settle s core slot).modWarp core slot fun w => w.choose.1
      else takeTrap ((settle s core slot).modWarp core slot fun w => { w with causes := w.causes.erase z }) core slot z) := by
  have hwt' : (u.wait != .none) = false := by rw [hwt]; rfl
  simp only [execTrapEntry, hu, hend, hst, hesc, hjob, hhd, hwt', hi, hz, Option.isSome_none, Bool.not_true, Bool.or_self,
    Bool.false_eq_true, if_false]
  exact (apply_ite Host.Outcome.next _ _ _).symm

/-- An acknowledgement changes its core by its stamp (R244, R256). -/
theorem ackWrite_core {s : State} {core : Nat} (p : Posted) (h : core < 384) : (ackWrite s core p).core core =
    (let st := ackStamp s core p
     let k := { s.core core with pts := tmaxE st.2 st.1 (s.core core).pts }
     match p.upd with
     | none => k
     | some (line, d, q) => { k with l1 := k.l1.map fun e =>
        if e.pline == line && e.born < p.born then
          { e with data := d, pois := q, wts := st.1, rts := st.1, wExp := st.2, exp := st.2, born := p.born } else e }) := by
  exact (core_modCore s core core _).trans (if_pos ⟨rfl, h⟩)

/-- The fields of an acknowledged write's line that its core's copies take (R244). -/
theorem ackWrite_l1 {s : State} {core line : Nat} {p : Posted} {d : BitVec 1024} {q : BitVec 2} {e : L1Line} (h : core < 384)
    (hp : p.upd = some (line, d, q)) (he : e ∈ (s.core core).l1) :
    (if e.pline == line && e.born < p.born then
      { e with data := d, pois := q, wts := (ackStamp s core p).1, rts := (ackStamp s core p).1
               wExp := (ackStamp s core p).2, exp := (ackStamp s core p).2, born := p.born } else e) ∈ ((ackWrite s core p).core core).l1 := by
  rw [ackWrite_core p h, hp]
  exact List.mem_map_of_mem he

end Machine

/-! ### The obligation -/

/-- What CLAUSE_FETCH and the ends of the holds do. -/
theorem fetchAndHolds : Claim.FetchAndHolds := by
  refine ⟨?fetch, fun s core slot => ⟨rfl, rfl, rfl⟩⟩
  intro s s1 s2 s3 core slot w w1 e es x h bs hw hb hi hr hj hh hc hf hx hhead hbad hmeld hlen hgo
  rw [exec_clauseFetch, execClauseFetch_begin hw hb hi hr hj hh hc (by rw [hf]; rfl), fetchClause_begins hx hhead hbad hmeld hlen hgo]

/-- What the other events of issue do. -/
theorem warpEvents : Claim.WarpEvents := by
  intro s core slot id w hw
  refine ⟨?watchdog, ?spill, ?refill, ?merge, ?fault, ?entry, ?escal, ?long, ?ack, ?engAck, ?ackWrite⟩
  case watchdog =>
    intro k hq hst hesc hkw hi
    subst hkw
    have hrun := execWatchdog_blocked hq hst hesc hi
    refine ⟨fun hnow => ?_, fun hhd hlater => ?_⟩
    · rw [exec_watchdog, hrun, if_pos]
      · rfl
      · obtain hhd | ⟨hbef, hmin⟩ := hnow
        · rw [hhd, Bool.true_or]
        · have hlow : k.w.lowerPending cWatchdog = false := by
            rw [← Bool.not_eq_true, lowerPending_iff]
            rintro ⟨y, hy, hlt⟩
            exact absurd (hmin y hy) (Nat.not_le.2 hlt)
          rw [hbef, hlow, Bool.not_false, Bool.and_true, Bool.or_true]
    · rw [exec_watchdog, hrun, if_neg, apply_ite Host.Outcome.next]
      · rfl
      · obtain hbef | hlow := hlater
        · simp [hhd, hbef]
        · simp [hhd, (lowerPending_iff k.w cWatchdog).2 hlow]
  case spill =>
    intro hjob hun
    rw [exec_frontierSpill, execFrontierSpill, hw, Option.bind_some, hjob]
    refine congrArg Host.Outcome.next (State.modWarp_congr hw ((if_neg (by simp [hun])).trans ?_))
    unfold Warp.spill
    cases lowEntry w.front <;> rfl
  case refill =>
    intro hjob
    rw [exec_frontierRefill, execFrontierRefill, hw, Option.bind_some, hjob]
    refine congrArg Host.Outcome.next (State.modWarp_congr hw ?_)
    unfold Warp.refill
    cases topEntry w.spilled <;> rfl
  case merge =>
    intro hjob
    rw [exec_spilledMerge, execSpilledMerge, hw, Option.bind_some, hjob]
  case fault =>
    intro hjob
    rw [exec_frontierSpillFault, execFrontierSpillFault, hw]
    have hsome : (w.job.isNone || false) = false := by simpa using hjob
    simp only [hsome, Bool.false_eq_true, if_false]
    refine congrArg Host.Outcome.next (State.modWarp_congr hw ?_)
    cases w.front <;> rfl
  case entry =>
    intro u z hu hend hst hesc hjob hhd hwt hi hz hmin hfind
    rw [exec_trapEntry, execTrapEntry_takes hu hend hst hesc hjob hhd hwt hi ((firstCause_of_least hz hmin).trans hfind)]
    simp only [List.isEmpty_iff]
  case escal =>
    intro g hesc hg
    obtain ⟨z, hz⟩ := Option.isSome_iff_exists.1 hesc
    rw [exec_trapEscalation, execTrapEscalation, hw]
    simp only [hz, hg]
  case long =>
    intro o ho hparts heng
    rw [exec_longLatencyComplete, execLongLatencyComplete, hw]
    simp only [ho, hparts, heng, ne_eq, not_true_eq_false, decide_false, Bool.or_self, Bool.false_eq_true, if_false]
    rfl
  case ack =>
    intro p hp
    have hlt : slot < 32 := slot_lt_of_warp hw
    have hposted : (postedOf s core slot).find? (·.id == id) = some p := by
      rw [postedOf, if_pos hlt, hw]
      exact hp
    rw [exec_storeAck, execStoreAck, hposted]
    exact congrArg Host.Outcome.next (if_pos hlt)
  case engAck =>
    intro p hp
    have hposted : (postedOf s core 32).find? (·.id == id) = some p := hp
    rw [exec_storeAck, execStoreAck, hposted]
    rfl
  case ackWrite =>
    intro p line d q e hcore hp
    refine ⟨?_, fun he hline hborn => ?_, fun he hkeep => ?_⟩
    · rw [ackWrite_core p hcore, hp]
      rfl
    · have hmem := ackWrite_l1 hcore hp he
      rw [if_pos (by simp [hline, hborn])] at hmem
      exact hmem
    · have hmem := ackWrite_l1 hcore hp he
      rw [if_neg] at hmem
      · exact hmem
      · simp only [Bool.and_eq_true, beq_iff_eq, decide_eq_true_eq, not_and]
        intro hline hborn
        obtain hne | hle := hkeep
        · exact hne hline
        · omega

/-- Settles O49: each event is run on the warp that its slot has; the deciding facts are the boundary's least cause and that a slot
with a warp is one of the 32. -/
theorem issueEvents : Obligations.IssueEvents := ⟨fetchAndHolds, warpEvents⟩

end Sys2Proof
end

section
/-! PROOFS. The obligation of 08 on the events of tickets. -/

namespace Sys2Proof

open Machine

namespace Machine

/-! ### FAULT_TICKET (R177, R179, R181 to R186) -/

theorem exec_faultTicket (core miss : Nat) (s : State) : exec (.faultTicket core miss) s = execFaultTicket core miss s := rfl
theorem exec_pageService (die index : Nat) (s : State) : exec (.pageService die index) s = execPageService die index s := rfl
theorem exec_replayNotice (core : Nat) (tid : Word) (s : State) : exec (.replayNotice core tid) s = execReplayNotice core tid s := rfl
theorem exec_ticketFailure (core : Nat) (tid : Word) (st : BitVec 4) (s : State) :
    exec (.ticketFailure core tid st) s = execTicketFailure core tid st s := rfl
theorem exec_linklostTimeout (core : Nat) (tid : Word) (s : State) :
    exec (.linklostTimeout core tid) s = execLinklostTimeout core tid s := rfl
theorem exec_ticketQueryAnswer (core : Nat) (tid : Word) (a : TkAnswer) (s : State) :
    exec (.ticketQueryAnswer core tid a) s = execTicketQueryAnswer core tid a s := rfl

section
variable {s u : State} {core miss : Nat} {m : Miss} (hm : (s.core core).misses.find? (·.id == miss) = some m)
  (hb : m.busy = false) (ha : m.ats ≠ .out)
include hm hb ha

/-- A miss that a walk resolves, to a page that the access's own requester performs. -/
theorem execFaultTicket_performs {x : Xlat} (ht : Machine.translate s core m.acc.pasid m.va = (u, some x))
    (h : x.home = none ∨ ∃ w, m.acc.path = .lsu w) :
    execFaultTicket core miss s = .next (resumeAccess (dropMiss u core miss) core m.acc m.va m.kept) := by
  have hgo : (m.busy || m.ats == .out) = false := by simp [hb, ha]
  simp only [execFaultTicket, hm, hgo, ht, Bool.false_eq_true, if_false]
  obtain hhome | ⟨w, hpath⟩ := h
  · simp only [hhome]
  · cases hhome : x.home <;> simp only [hpath]

/-- A miss that a walk resolves to another device's page, which may ticket it. -/
theorem execFaultTicket_peer {x : Xlat} {dev : Fin 16} (ht : Machine.translate s core m.acc.pasid m.va = (u, some x)) (hhome : x.home = some dev)
    (hpath : ∀ w, m.acc.path ≠ .lsu w) : execFaultTicket core miss s =
      .next (if (Config.coin u.tick || unreachable u dev.val) && entryFree (u.core core) m then enterTicket u core m (peerTid u dev.val)
        else resumeAccess (dropMiss u core miss) core m.acc m.va m.kept) := by
  have hgo : (m.busy || m.ats == .out) = false := by simp [hb, ha]
  simp only [execFaultTicket, hm, hgo, ht, Bool.false_eq_true, if_false]
  cases hp : m.acc.path
  case lsu w => exact absurd hp (hpath w)
  all_goals simp only [hhome]

/-- A miss that no device table resolves takes an entry under a free index of the owner. -/
theorem execFaultTicket_enters {v : State} {r : OwnRec} (ht : Machine.translate s core m.acc.pasid m.va = (u, none))
    (hfree : entryFree (u.core core) m = true) (hw : walk u (dieOfCore core) m.acc.pasid m.va ≠ .host) (has : assisted u 0 = false)
    (hr : newRec u (dieOfCore core) core m.acc.pasid m.va m.need m.acc.scr .fresh = some (v, r)) :
    execFaultTicket core miss s = .next (enterTicket v core m (r.tid v (dieOfCore core))) := by
  have hgo : (m.busy || m.ats == .out) = false := by simp [hb, ha]
  simp only [execFaultTicket, hm, hgo, ht, hfree, has, hr, Bool.false_eq_true, Bool.not_true, if_false, reduceCtorEq]

end

/-! ### Notices and queries (R188 to R195) -/

/-- A notice reaches a core that is not halted. -/
theorem notice_closes {s : State} {core : Nat} {tid : Word} {t : Ticket} (ht : (s.core core).tickets.find? (·.tid == tid) = some t)
    (hh : (s.core core).halted = false) (st : BitVec 4) : notice s core tid st = closeTicket s core t st := by
  have ht' : (s.core core).ticket? tid = some t := ht
  simp only [notice, ht', hh, Bool.false_eq_true, if_false]

/-- A halted core only records it. -/
theorem notice_records {s : State} {core : Nat} {tid : Word} {t : Ticket} (ht : (s.core core).tickets.find? (·.tid == tid) = some t)
    (hh : (s.core core).halted = true) (st : BitVec 4) : notice s core tid st = s.modCore core fun k =>
      { k with tickets := updFirst (·.tid == tid) (fun (t : Ticket) => { t with notice := some st }) k.tickets } := by
  have ht' : (s.core core).ticket? tid = some t := ht
  simp only [notice, ht', hh, if_true]

/-- The notice that a ticket's owner on this device has posted arrives. -/
theorem execReplayNotice_own {s u : State} {core : Nat} {tid : Word} {st : BitVec 4} (hd : tidDev tid = s.pkg.val)
    (h : takeNotice s core tid (· == 0#4) = some (u, st)) : execReplayNotice core tid s = .next (notice u core tid st) := by
  simp only [execReplayNotice, hd, ne_eq, not_true_eq_false, if_false, h]

theorem execTicketFailure_own {s u : State} {core : Nat} {tid : Word} {st : BitVec 4} (x : BitVec 4) (hd : tidDev tid = s.pkg.val)
    (h : takeNotice s core tid (· != 0#4) = some (u, st)) : execTicketFailure core tid x s = .next (notice u core tid st) := by
  simp only [execTicketFailure, hd, ne_eq, not_true_eq_false, if_false, h]

theorem execTicketFailure_peer {s : State} {core : Nat} {tid : Word} {st : BitVec 4} (hd : tidDev tid ≠ s.pkg.val)
    (h1 : 1 ≤ st.toNat) (h6 : st.toNat ≤ 6) : execTicketFailure core tid st s = .next (notice s core tid st) := by
  have hst : ¬ (decide (st = 0#4) || decide (6 < st.toNat)) = true := by
    simp only [Bool.or_eq_true, decide_eq_true_eq]
    rintro (rfl | hlt)
    · exact absurd h1 (by decide)
    · omega
  simp only [execTicketFailure, hd, ne_eq, not_false_eq_true, if_true, if_neg hst]

theorem execLinklostTimeout_asked {s : State} {core : Nat} {tid : Word} {t : Ticket}
    (ht : (s.core core).tickets.find? (·.tid == tid) = some t) (hq : t.query = .asked) (hd : tidDev tid ≠ s.pkg.val) :
    execLinklostTimeout core tid s = .next (notice s core tid stLinklost) := by
  have ht' : (s.core core).ticket? tid = some t := ht
  simp only [execLinklostTimeout, ht', hq, hd, ne_eq, not_false_eq_true, and_self, if_true]

theorem execTicketQueryAnswer_peer {s : State} {core : Nat} {tid : Word} {t : Ticket} {st : BitVec 4}
    (ht : (s.core core).tickets.find? (·.tid == tid) = some t) (hq : t.query = .asked) (hd : tidDev tid ≠ s.pkg.val)
    (h6 : st.toNat ≤ 6) : execTicketQueryAnswer core tid (.status st) s = .next (notice s core tid st) := by
  have ht' : (s.core core).ticket? tid = some t := ht
  simp only [execTicketQueryAnswer, ht', hq, ne_eq, not_true_eq_false, if_false, if_neg hd, if_neg (Nat.not_lt.2 h6)]

/-- The notice of a record whose requester is a core or the die's walker. -/
theorem postNotice_core {s : State} (d : Nat) {r : OwnRec} (st : BitVec 4) (h : r.core ≤ 384) : postNotice s d r st = s.modDie d fun k =>
    { k with
      notices := k.notices ++ [⟨r.core, ticketId s.pkg.val d r.index r.gen, st⟩]
      own := if st = 0#4 then updFirst (·.index == r.index) (fun (x : OwnRec) => { x with phase := .noticed }) k.own
        else k.own.filter (·.index != r.index) } := by
  have h' : r.core ≤ walkerCore := h
  simp only [postNotice, if_pos h']
  rfl

/-- The notice of a record whose requester is another device. -/
theorem postNotice_peer {s : State} (d : Nat) {r : OwnRec} (st : BitVec 4) (h : 384 < r.core) : postNotice s d r st =
    (originate s ⟨unitSource s d 144, BitVec.ofNat 4 (r.core - 385), 2#3⟩).modDie d fun k =>
    { k with own := if st = 0#4 then updFirst (·.index == r.index) (fun (x : OwnRec) => { x with phase := .noticed }) k.own
        else k.own.filter (·.index != r.index) } := by
  have h' : ¬ r.core ≤ walkerCore := Nat.not_le.2 h
  simp only [postNotice, if_neg h']
  rfl

/-- PAGE_SERVICE of a record that has not been serviced. -/
theorem execPageService_fresh {s : State} {die index : Nat} {r : OwnRec} (hr : (s.die die).own.find? (·.index == index) = some r)
    (hp : r.phase = .fresh) : execPageService die index s =
      match servePage 8 s die r.pasid r.va.toNat r.need r.scr with
      | (s, .status st) => .next (postNotice s die r st)
      | (s, .host) => .next (s.modDie die fun k =>
          { k with own := updFirst (·.index == index) (fun (x : OwnRec) => { x with phase := .atsDue false }) k.own }) := by
  have hr' : (s.die die).rec? index = some r := hr
  simp only [execPageService, hr', hp, ne_eq, not_true_eq_false, if_false] <;> rfl

/-- A status other than OK fails the ticket. -/
theorem closeTicket_fails {s : State} {core : Nat} {t : Ticket} {st : BitVec 4} (h : st ≠ 0#4) :
    closeTicket s core t st = failAccess (ackReplay (dropTicket s core t.tid) t.tid) core t.acc t.va st := if_pos h

/-- OK replays it. -/
theorem closeTicket_ok {s : State} {core : Nat} {t : Ticket} : closeTicket s core t 0#4 =
    if ticketLive (dropTicket s core t.tid) core t.acc then
      match Machine.translate (dropTicket s core t.tid) core t.acc.pasid t.va with
      | (s, none) => addMissAt s core t.acc t.va t.need (some t.tid)
      | (s, some x) => ackReplay ((keptIds t.acc).foldl (fun s i => keepXlat s core ⟨t.acc.path, i, x⟩) s) t.tid
    else resumeAccess (dropTicket s core t.tid) core t.acc t.va (some t.tid) := by
  simp only [closeTicket, ne_eq, not_true_eq_false, if_false] <;> rfl

end Machine

/-! ### The obligation -/

/-- Settles O50: each event is run on the miss, the record or the ticket that it names. -/
theorem ticketEvents : Obligations.TicketEvents := by
  intro s u core miss die index m r t tid st
  refine ⟨?fault, rfl, ?service, rfl, ?notices, rfl, ?host, ?closing⟩
  case fault =>
    intro hm hb ha
    refine ⟨fun x ht => ⟨fun h => ?_, fun dev hdev hpath => ?_⟩, fun v ht hfree hw has hr => ?_⟩
    · rw [exec_faultTicket, execFaultTicket_performs hm hb ha ht h]
    · rw [exec_faultTicket, execFaultTicket_peer hm hb ha ht hdev hpath]
      simp only [Bool.and_eq_true, Bool.or_eq_true]
      rfl
    · rw [exec_faultTicket, execFaultTicket_enters hm hb ha ht hfree hw has hr]
      rfl
  case service =>
    intro hr hp hs
    refine ⟨fun hc => ?_, fun hc => ?_⟩
    · rw [exec_pageService, execPageService_fresh hr hp, hs]
      exact congrArg Host.Outcome.next (postNotice_core die st hc)
    · rw [exec_pageService, execPageService_fresh hr hp, hs]
      exact congrArg Host.Outcome.next (postNotice_peer die st hc)
  case notices =>
    intro ht
    refine ⟨fun hh => ⟨fun htake hd => ?_, fun htake hd => ?_, fun hd h1 h6 => ?_, fun hd hq => ?_, fun hd hq h6 => ?_⟩, fun hh htake hd => ?_⟩
    · rw [exec_replayNotice, execReplayNotice_own hd htake, notice_closes ht hh]
    · rw [exec_ticketFailure, execTicketFailure_own _ hd htake, notice_closes ht hh]
    · rw [exec_ticketFailure, execTicketFailure_peer hd h1 h6, notice_closes ht hh]
    · rw [exec_linklostTimeout, execLinklostTimeout_asked ht hq hd, notice_closes ht hh]
      rfl
    · rw [exec_ticketQueryAnswer, execTicketQueryAnswer_peer ht hq hd h6, notice_closes ht hh]
    · rw [exec_replayNotice, execReplayNotice_own hd htake, notice_records ht hh]
  case host =>
    intro hr hp hs
    rw [exec_pageService, execPageService_fresh hr hp, hs]
  case closing =>
    refine ⟨closeTicket_fails, ?_, ?_, ?_⟩
    · rintro rfl hl
      rw [closeTicket_ok, if_neg (by simp [hl])]
    · rintro rfl hl ht
      rw [closeTicket_ok, if_pos hl, ht]
    · rintro rfl hl x ht
      rw [closeTicket_ok, if_pos hl, ht]

end Sys2Proof
end

section
/-! PROOFS. The obligation of 08 and 21 on the events of host translations. -/

namespace Sys2Proof

open Machine

namespace Machine

/-! ### Flits that are sent (R413 to R416) -/

/-- A port's send changes the ports only. -/
theorem sendOn_rest (s : State) (p : Nat) (f : BitVec 2048) : { sendOn s p f with rports := s.rports } = s := by
  unfold sendOn
  split <;> rfl

theorem sendRouted_rest (s : State) (f : BitVec 2048) : { sendRouted s f with rports := s.rports } = s := by
  unfold sendRouted
  split
  · exact sendOn_rest s _ _
  · rfl

/-- What a device originates changes its ports and its streams only. -/
theorem originate_rest (s : State) (i : StreamId) :
    { originate s i with rports := s.rports, streams := s.streams } = s := by
  have h := sendRouted_rest (s.setStream { s.stream i true with
    eseq := (s.stream i true).eseq + 1
    unack := (s.stream i true).unack ++ [((s.stream i true).eseq + 1,
      flitOf i.src i.dpkg.toNat i.cls.toNat false ((s.stream i true).eseq + 1) 0 1 (Config.packets s.tick))] })
    (flitOf i.src i.dpkg.toNat i.cls.toNat false ((s.stream i true).eseq + 1) 0 1 (Config.packets s.tick))
  have h2 := congrArg (fun t : State => { t with streams := s.streams }) h
  exact h2

@[simp] theorem originate_dies (s : State) (i : StreamId) : (originate s i).dies = s.dies := by
  have h := congrArg State.dies (originate_rest s i)
  exact h

/-! ### Records of an owner (R181, R404) -/

/-- A notice of a status other than OK takes its record away, and no other (R183). -/
theorem own_postNotice {s : State} {d : Nat} (r : OwnRec) {st : BitVec 4} (hst : st ≠ 0#4) (hd : d < 4) (i : Nat) :
    ((postNotice s d r st).die i).own = if i = d then (s.die d).own.filter (·.index != r.index) else (s.die i).own := by
  have hdie : ∀ j, (originate s ⟨unitSource s d 144, BitVec.ofNat 4 (r.core - 385), 2#3⟩).die j = s.die j :=
    fun j => congrArg (fun v : Vector Die 4 => v[j]?.getD (Die.fresh j)) (originate_dies s _)
  by_cases hc : r.core ≤ 384
  · rw [postNotice_core d st hc, die_modDie]
    simp only [hd, and_true, if_neg hst]
    split <;> rfl
  · rw [postNotice_peer d st (Nat.lt_of_not_le hc), die_modDie, hdie, hdie]
    simp only [hd, and_true, if_neg hst]
    split <;> rfl

/-- Notices of failure for some records of a die: what stays is what none of them names. -/
theorem own_foldl_postNotice {st : BitVec 4} (hst : st ≠ 0#4) {d : Nat} (hd : d < 4) (rs : List OwnRec) (s : State) (i : Nat) :
    ((rs.foldl (fun s r => postNotice s d r st) s).die i).own
      = if i = d then (s.die d).own.filter (fun x => !rs.any (·.index == x.index)) else (s.die i).own := by
  induction rs generalizing s with
  | nil =>
    by_cases h : i = d
    · subst h
      rw [if_pos rfl]
      exact (List.filter_eq_self.2 fun _ _ => rfl).symm
    · rw [if_neg h]
      rfl
  | cons r rs ih =>
    rw [List.foldl_cons, ih]
    simp only [own_postNotice r hst hd, if_true]
    split
    · rw [List.filter_filter]
      refine List.filter_congr fun x _ => ?_
      simp only [List.any_cons, Bool.not_or, bne, Bool.beq_comm (a := x.index), Bool.and_comm]
    · rfl

/-- A die's failures for `p`. -/
def failDie (p : OwnRec → Bool) (s : State) (d : Nat) : State :=
  ((s.die d).own.filter p).foldl (fun s r => postNotice s d r stHostfail) s

theorem failRecs_eq (s : State) (p : OwnRec → Bool) : failRecs s p = (List.range 4).foldl (failDie p) s := rfl

/-- The records that stay are among those before, and of the die that fails its records none is one of them. -/
theorem own_failDie {p : OwnRec → Bool} {s : State} {d i : Nat} (hd : d < 4) {x : OwnRec} (hx : x ∈ ((failDie p s d).die i).own) :
    x ∈ (s.die i).own ∧ (i = d → p x = false) := by
  rw [failDie, own_foldl_postNotice (by decide) hd] at hx
  split at hx
  · next h =>
    subst h
    obtain ⟨hmem, hnone⟩ := List.mem_filter.1 hx
    refine ⟨hmem, fun _ => ?_⟩
    refine Bool.eq_false_iff.2 fun hp => ?_
    have hany : ((s.die i).own.filter p).any (·.index == x.index) = true :=
      List.any_eq_true.2 ⟨x, List.mem_filter.2 ⟨hmem, hp⟩, beq_self_eq_true _⟩
    simp [hany] at hnone
  · next h => exact ⟨hx, fun hi => absurd hi h⟩

/-- Once every die has failed its records, none of them stays. -/
theorem own_foldl_failDie {p : OwnRec → Bool} {i : Nat} {x : OwnRec} : ∀ {ds : List Nat} {s : State}, (∀ d ∈ ds, d < 4) →
    x ∈ ((ds.foldl (failDie p) s).die i).own → x ∈ (s.die i).own ∧ (i ∈ ds → p x = false)
  | [], _, _, hx => ⟨hx, fun h => absurd h List.not_mem_nil⟩
  | d :: ds, s, hds, hx => by
    obtain ⟨hmem, hrest⟩ := own_foldl_failDie (fun e he => hds e (List.mem_cons_of_mem _ he)) hx
    obtain ⟨hmem, hfirst⟩ := own_failDie (hds d List.mem_cons_self) hmem
    refine ⟨hmem, fun hi => ?_⟩
    obtain rfl | hi := List.mem_cons.1 hi
    · exact hfirst rfl
    · exact hrest hi

theorem failRecs_none {s : State} {p : OwnRec → Bool} {d : Nat} (hd : d < 4) {x : OwnRec} (hx : x ∈ ((failRecs s p).die d).own) :
    p x = false := by
  rw [failRecs_eq] at hx
  exact (own_foldl_failDie (fun e he => List.mem_range.1 he) hx).2 (List.mem_range.2 hd)

/-- A record that waits for no page request is neither due nor out. -/
theorem not_queuedPri {x : OwnRec} (h : queuedPri x = false) : x.phase ≠ .priDue ∧ ∀ g, x.phase ≠ .priOut g := by
  unfold queuedPri at h
  split at h
  · cases h
  · cases h
  · next h1 h2 => exact ⟨h1, h2⟩

/-- A record on the page of a request that is outstanding waits for its answer (R404). -/
theorem joinPri_own (k : Die) : k.joinPri.own = k.own.map fun (x : OwnRec) => if x.phase = .priDue then (match groupOf k x with
    | some g => { x with phase := .priOut g } | none => x) else x := by
  refine List.map_congr_left fun x _ => ?_
  by_cases hp : x.phase = .priDue
  · cases hg : groupOf k x <;> simp [hp, hg]
  · simp [hp]

/-! ### The events -/

theorem exec_atsTranslationRequest (die : Nat) (s : State) :
    exec (.atsTranslationRequest die) s = execAtsTranslationRequest die s := rfl
theorem exec_atsCompletion (die : Nat) (a : AtsAnswer) (s : State) : exec (.atsCompletion die a) s = execAtsCompletion die a s := rfl
theorem exec_priPageRequest (die : Nat) (s : State) : exec (.priPageRequest die) s = execPriPageRequest die s := rfl
theorem exec_prgResponseFailure (die g : Nat) (s : State) :
    exec (.prgResponseFailure die g) s = execPrgResponseFailure die g s := rfl

/-- The phase that a record takes as its ATS request is sent. -/
def atsSent (r : OwnRec) : Phase := match r.phase with | .atsDue b => .atsOut b | p => p

theorem die_setPort (s : State) (p : Port) (d : Nat) : { s with port := p }.die d = s.die d := rfl

/-- A failure answers every page request, and PRIEN reads 0 (R404). -/
theorem execPrgResponseFailure_fails {s : State} {die group : Nat} (h : (s.die die).own.any (·.phase == .priOut group) = true) :
    execPrgResponseFailure die group s
      = .next { failRecs s queuedPri with port := { s.port with hpcap := s.port.hpcap &&& ~~~0x40#64 } } := by
  rw [execPrgResponseFailure, if_pos h]
  rfl

/-- The oldest record that is due has its request sent. -/
theorem execAtsTranslationRequest_sends {s : State} {die : Nat} {r : OwnRec} (hup : s.port.hpcap.getLsbD 15 = true)
    (hats : s.port.hpcap.getLsbD 5 = true)
    (hr : (s.die die).own.find? (fun r => r.phase == .atsDue true || r.phase == .atsDue false) = some r) :
    execAtsTranslationRequest die s = .next (s.modDie die fun k =>
      { k.setPhase (·.index == r.index) atsSent with ats := k.ats ++ [.tick r.index] }) := by
  simp only [execAtsTranslationRequest, hup, hats, hr, Bool.not_true, Bool.or_self, Bool.false_eq_true, if_false]
  rfl

/-- The oldest request is a ticket's, and the answer is to its page. -/
theorem execAtsCompletion_tick {s : State} {die i : Nat} {r : OwnRec} {rest : List AtsReq} {ans : AtsAnswer}
    (hq : (s.die die).ats = .tick i :: rest) (hr : (s.die die).own.find? (·.index == i) = some r) (hp : ans.pasid = r.pasid)
    (hcov : (atsXlat ans).covers r.pasid r.va.toNat = true) : execAtsCompletion die ans s =
      (let s := s.modDie die fun k => { k with ats := rest }
       if ans.err then .next (postNotice s die r stHostfail)
       else if permits (atsXlat ans) r.need true then
         if r.core = walkerCore then
           .next (flushCpu (s.modDie die fun k => { k with hx := k.hx ++ [(atsXlat ans)], own := k.own.filter (·.index != i) }) die)
         else .next ((postNotice (tlbFill s r.core (atsXlat ans)) die r 0#4).modDie die fun k =>
           { k with own := updFirst (·.index == i) (fun (x : OwnRec) => { x with xl := some (atsXlat ans) }) k.own })
       else if r.phase = .atsOut true || !s.port.hpcap.getLsbD 6 then .next (postNotice s die r stHostfail)
       else .next (s.modDie die (·.setPhase (·.index == i) fun _ => .priDue))) := by
  have hr' : (s.die die).rec? i = some r := hr
  have hfits : (!(ans.pasid == r.pasid && (atsXlat ans).covers r.pasid r.va.toNat)) = false := by simp [hp, hcov]
  simp only [execAtsCompletion, hq, hr', hfits, Bool.false_eq_true, if_false]

/-- A page request takes a free group for the oldest record that is due. -/
theorem execPriPageRequest_sends {s : State} {die group : Nat} {r : OwnRec} :
    let v := s.modDie die Die.joinPri
    let used := (priGroups v).foldl (fun l g => if l.contains g then l else l ++ [g]) []
    s.port.hpcap.getLsbD 6 = true → used.length < min 512 (s.port.hpcap.extractLsb' 16 12).toNat →
    (v.die die).own.find? (·.phase == .priDue) = some r → (List.range 512).find? (fun g => !used.contains g) = some group →
    execPriPageRequest die s
      = .next (v.modDie die (·.setPhase (fun x => x.phase == .priDue && sharesPage x r) fun _ => .priOut group)) := by
  intro v used hen hcred hr hg
  have hport : v.port = s.port := rfl
  have hgo : (!v.port.hpcap.getLsbD 6 || decide (Nat.min 512 (v.port.hpcap.extractLsb' 16 12).toNat ≤ used.length)) = false := by
    rw [hport, hen, Bool.not_true, Bool.false_or]
    exact decide_eq_false (Nat.not_le.2 hcred)
  show (if _ then _ else _) = _
  rw [if_neg (by rw [← Bool.not_eq_false, Classical.not_not]; exact hgo)]
  show (match (v.die die).own.find? (·.phase == .priDue), (List.range 512).find? fun g => !used.contains g with
    | some r, some g => _
    | _, _ => _) = _
  rw [hr, hg]

/-! ### Invalidations of host translations (R198, R405) -/

/-- The translations of a core that stay are those that `p` does not take. -/
theorem tlb_dropXlats {s : State} {p : Xlat → Bool} {c : Nat} (hc : c < 384) {x : Xlat} :
    x ∈ ((dropXlats s p).core c).tlb ↔ x ∈ (s.core c).tlb ∧ p x = false := by
  have hcore : (dropXlats s p).core c
      = if (s.core c).tlb.any p then { s.core c with tlb := (s.core c).tlb.filter fun x => !p x } else s.core c := by
    simp only [State.core, dropXlats, Vector.getElem?_eq_getElem hc, Option.getD_some]
    rw [Vector.getElem_map]
  rw [hcore]
  split
  · simp only [List.mem_filter, Bool.not_eq_true']
  · next h =>
    simp only [List.any_eq_true, not_exists, not_and, Bool.not_eq_true] at h
    exact ⟨fun hx => ⟨hx, h x hx⟩, And.left⟩

theorem exec_atsInvalidateRequest (pasid : BitVec 20) (va : Dword) (size : Nat) (s : State) :
    exec (.atsInvalidateRequest pasid va size) s
      = .next (invalidateWhere s fun x => x.mt == 2 && x.pasid == pasid && x.meets va.toNat size) := rfl
theorem exec_globalInvalidate (va : Dword) (size : Nat) (s : State) :
    exec (.globalInvalidate va size) s = .next (invalidateWhere s fun x => x.mt == 2 && x.meets va.toNat size) := rfl
/-- An invalidation waits for the accesses under a translation that it takes. -/
theorem invalidateWhere_waits {s : State} {p : Xlat → Bool} (h : xlatKept s none p = true) : invalidateWhere s p = s := if_pos h
theorem invalidateWhere_drops {s : State} {p : Xlat → Bool} (h : xlatKept s none p = false) : invalidateWhere s p = dropXlats s p :=
  if_neg (by simp [h])

end Machine

/-! ### The obligation -/

/-- Settles O51: each event is run on the record that it names; a failure for some records leaves none of them in any die. -/
theorem hostTranslationEvents : Obligations.HostTranslationEvents := by
  intro s die i group r b rest ans pasid va size
  refine ⟨?request, ?completion, ?page, joinPri_own, ?success, rfl, ?failure, ?stop, fun h => ?_, fun h => ?_, fun h => ?_, fun h => ?_⟩
  case request =>
    intro hup hats hr hph huniq
    refine ⟨_, (exec_atsTranslationRequest die s).trans (execAtsTranslationRequest_sends hup hats hr), fun hd => ?_⟩
    rw [die_modDie, if_pos ⟨rfl, hd⟩]
    refine ⟨rfl, fun x hx hi => ?_⟩
    obtain ⟨y, hy, rfl⟩ := List.mem_map.1 hx
    by_cases hyi : y.index = r.index
    · have hyr := huniq y hy hyi
      subst hyr
      simp [atsSent, hph]
    · simp [hyi] at hi
  case completion =>
    intro hq hr hp hcov u
    have hrun := (exec_atsCompletion die ans s).trans (execAtsCompletion_tick hq hr hp hcov)
    refine ⟨fun herr => hrun.trans (if_pos herr), fun herr hperm hcore => hrun.trans ?_⟩
    exact (if_neg (by simp [herr])).trans ((if_pos hperm).trans (if_neg hcore))
  case page =>
    intro v used hen hcred hr hg
    rw [exec_priPageRequest, execPriPageRequest_sends hen hcred hr hg]
    simp only [Die.setPhase, Bool.and_eq_true, beq_iff_eq]
    rfl
  case success =>
    refine congrArg (fun f => Host.Outcome.next (s.modDie die f)) (funext fun k => ?_)
    simp only [Die.setPhase, beq_iff_eq]
  case failure =>
    intro hany
    refine ⟨_, (exec_prgResponseFailure die group s).trans (execPrgResponseFailure_fails hany), rfl, fun d hd x hx => ?_⟩
    rw [die_setPort (failRecs s queuedPri)] at hx
    exact not_queuedPri (failRecs_none hd hx)
  case stop =>
    refine ⟨_, rfl, fun d hd x hx hpas => not_queuedPri ?_⟩
    have hfail := failRecs_none hd hx
    simpa [hpas] using hfail
  · rw [exec_atsInvalidateRequest, invalidateWhere_waits h]
  · refine ⟨_, (exec_atsInvalidateRequest pasid va size s).trans (congrArg _ (invalidateWhere_drops h)), fun c hc x hx => ?_,
      fun c hc x hx hne => ?_, rfl, rfl⟩
    · obtain ⟨hmem, hp⟩ := (tlb_dropXlats hc).1 hx
      refine ⟨hmem, fun ⟨hmt, hpas, hlo, hhi⟩ => ?_⟩
      simp [hmt, hpas, Xlat.meets, hlo, hhi] at hp
    · refine (tlb_dropXlats hc).2 ⟨hx, ?_⟩
      obtain hmt | hpas := hne
      · simp [hmt]
      · simp [hpas]
  · rw [exec_globalInvalidate, invalidateWhere_waits h]
  · refine ⟨_, (exec_globalInvalidate va size s).trans (congrArg _ (invalidateWhere_drops h)), fun c hc x hx => ?_,
      fun c hc x hx hmt => ?_⟩
    · obtain ⟨hmem, hp⟩ := (tlb_dropXlats hc).1 hx
      refine ⟨hmem, fun ⟨hmt, hlo, hhi⟩ => ?_⟩
      simp [hmt, Xlat.meets, hlo, hhi] at hp
    · exact (tlb_dropXlats hc).2 ⟨hx, by simp [hmt]⟩

end Sys2Proof
end

section
/-! PROOFS. The obligation of 11 on the events of coherence. -/

namespace Sys2Proof

open Machine

namespace Machine

/-! ### Logical time (R243, R244, R247, R248) -/

/-- The order of R243 is cyclic: `b` lies less than 2^15 after `a`. -/
theorem tle_iff (a b : BitVec 16) : tle a b = true ↔ (b.toNat + 65536 - a.toNat) % 65536 < 32768 := by
  have ha := a.isLt
  have hsub : (b - a).toNat = (b.toNat + 65536 - a.toNat) % 65536 := by
    rw [BitVec.toNat_sub]
    omega
  simp only [tle, decide_eq_true_eq, hsub]

theorem exec_idleAdvance (core : Nat) (s : State) : exec (.idleAdvance core) s = execIdleAdvance core s := rfl
theorem exec_ltlimAdvance (die : Nat) (s : State) : exec (.ltlimAdvance die) s = execLtlimAdvance die s := rfl
theorem exec_scrubVisit (die : Nat) (s : State) : exec (.scrubVisit die) s = execScrubVisit die s := rfl

theorem modCore_dies (s : State) (c : Nat) (f : Core → Core) : (s.modCore c f).dies = s.dies := rfl
theorem modDie_cores (s : State) (d : Nat) (f : Die → Die) : (s.modDie d f).cores = s.cores := rfl

/-- What a scrub does to the tags of its die (R248), whatever it has done to the cores before. -/
theorem scrub_l2 {s t : State} {die : Nat} {m : BitVec 16} (h : t.dies = s.dies) (hd : die < 4) :
    ((t.modDie die fun k => { k with
      l2 := k.l2.map fun t => { t with wExp := t.wExp || stale m t.wts, rExp := t.rExp || stale m t.rts }
      evExp := Vector.ofFn fun i => k.evExp[i] || stale m k.evmax[i]
      fwcExp := k.fwcExp || stale m k.fwc }).die die).l2
    = (s.die die).l2.map fun x => { x with
        wExp := x.wExp || (decide (0x4000 ≤ (m - x.wts).toNat) && tle x.wts m)
        rExp := x.rExp || (decide (0x4000 ≤ (m - x.rts).toNat) && tle x.rts m) } := by
  have hdie : t.die die = s.die die := by simp only [State.die, h]
  rw [die_modDie, if_pos ⟨rfl, hd⟩, hdie]
  rfl

/-- What a scrub of a die does to its cores and to the images that were saved on it (R248). -/
def scrubOthers (s : State) (die : Nat) : State :=
  let m := tmaxOf s die
  let t := ((List.range 96).map (· + 96 * die)).foldl (fun s c => s.modCore c fun k =>
    { k with l1 := k.l1.map fun e => { e with exp := e.exp || stale m e.rts, wExp := e.wExp || stale m e.wts }
             warps := k.warps.map fun (x : Option Warp) => x.map (Warp.scrub m) }) s
  { t with images := t.images.map fun (i : Image) =>
    if dieOfCore i.core = die then { i with ptsExp := i.ptsExp || stale m i.pts, warps := i.warps.map (Warp.scrub m) } else i }

theorem scrubOthers_dies (s : State) (die : Nat) : (scrubOthers s die).dies = s.dies := by
  simp only [scrubOthers]
  generalize (List.range 96).map (· + 96 * die) = cores
  exact foldl_keeps (g := State.dies) (by intros; rfl) cores s

theorem execScrubVisit_eq (s : State) (die : Nat) : execScrubVisit die s = .next ((scrubOthers s die).modDie die fun k => { k with
    l2 := k.l2.map fun t => { t with wExp := t.wExp || stale (tmaxOf s die) t.wts, rExp := t.rExp || stale (tmaxOf s die) t.rts }
    evExp := Vector.ofFn fun i => k.evExp[i] || stale (tmaxOf s die) k.evmax[i]
    fwcExp := k.fwcExp || stale (tmaxOf s die) k.fwc }) := rfl

/-- The tag of a line that a die has just taken. -/
theorem tag?_setTag_same (k : Die) (t : L2Tag) : (k.setTag t).tag? t.line = some t := by
  simp [Die.tag?, Die.setTag]

/-- A store that is stamped at its home die (R244). -/
theorem storeTrk_home {s u : State} {c line : Nat} {w : BitVec 16} (hh : homeDie (line * 128) = dieOfCore c)
    (h : storeTrk s c line = .ok (u, some w)) :
    let t := (s.die (dieOfCore c)).homeTag line
    w = tmaxE t.rExp (t.rts + 1) (s.core c).pts ∧ tle w (s.die (dieOfCore c)).ltlim = true
    ∧ u = (recallAll s line).modDie (dieOfCore c) (·.setTag { t with wts := w, rts := w, wExp := false, rExp := false }) := by
  intro t
  unfold storeTrk at h
  dsimp only at h
  split at h
  · cases h
  rw [if_pos hh.symm] at h
  split at h
  · cases h
  split at h
  · cases h
  split at h
  · cases h
  next hlim =>
  split at h
  · cases h
  cases h
  exact ⟨rfl, by simpa using hlim, rfl⟩

/-! ### The home directory (R251 to R257) -/

theorem exec_directoryRequest (die line : Nat) (kind : DirKind) (s : State) :
    exec (.directoryRequest die line kind) s = execDirectoryRequest die line kind s := rfl
theorem exec_directoryRetry (die line : Nat) (s : State) : exec (.directoryRetry die line) s = execDirectoryRetry die line s := rfl
theorem exec_goMessage (line : Nat) (s : State) : exec (.goMessage line) s = execGoMessage line s := rfl
theorem exec_reservationTimeout (line : Nat) (s : State) : exec (.reservationTimeout line) s = execReservationTimeout line s := rfl
theorem exec_writeback (die line : Nat) (s : State) : exec (.writeback die line) s = execWriteback die line s := rfl
theorem exec_forward (line : Nat) (s : State) : exec (.forward line) s = execForward line s := rfl
theorem exec_invalidation (die line : Nat) (s : State) : exec (.invalidation die line) s = execInvalidation die line s := rfl

/-- An agent of this device is one of its dies. -/
theorem agentDie_own {s : State} {a : Nat} (h : a / 4 = s.pkg.val) : agentDie s a = some (a % 4) := if_pos h
theorem agentDie_far {s : State} {a : Nat} (h : a / 4 ≠ s.pkg.val) : agentDie s a = none := if_neg h
theorem agentDie_agentOf {s : State} {d : Nat} (h : d < 4) : agentDie s (agentOf s d) = some d := by
  have h1 : agentOf s d / 4 = s.pkg.val := by rw [agentOf]; omega
  have h2 : agentOf s d % 4 = d := by rw [agentOf]; omega
  rw [agentDie_own h1, h2]

/-- A request for a line that is in a transaction is refused. -/
theorem dirRequest_busy {s : State} {a line : Nat} {kind : DirKind} {st : Dword} {bo : Nat}
    (hb : ((s.die (homeDie (line * 128))).dir line).st = .b) : dirRequest s a line kind st bo = refuseDir s a line kind st bo := by
  simp only [dirRequest, hb, decide_true, Bool.true_or, if_true]

/-- A line in no transaction that nobody owns is in I or S. -/
theorem DirSt.eq_i_or_s {x : DirSt} (hb : x ≠ .b) (hm : x ≠ .m) : x = .i ∨ x = .s := by
  cases x
  case i => exact .inl rfl
  case s => exact .inr rfl
  case m => exact absurd rfl hm
  case b => exact absurd rfl hb

section
variable {s : State} {a line : Nat} {e : DirEnt} (he : (s.die (homeDie (line * 128))).dir line = e) (hb : e.st ≠ .b) (hr : e.resv = none)
include he hb hr

/-- A reader of a line that nobody owns joins its sharers. -/
theorem dirRequest_read (st : Dword) (bo : Nat) (hm : e.st ≠ .m) (hs : snoopNeeded s line false = false) :
    dirRequest s a line .read st bo = give (s.modDie (homeDie (line * 128)) (·.setDir { e with
      st := .s, sharers := setAdd e.sharers a, resv := none, go := false, refusals := 0, refused := [] })) a line false := by
  have hkind : (DirKind.read != DirKind.read) = false := rfl
  obtain hst | hst := DirSt.eq_i_or_s hb hm <;>
  simp only [dirRequest, he, hst, hr, hkind, hs, DirEnt.settled, decide_false, reduceCtorEq, Option.isSome_none, Option.isNone_none, Bool.false_and,
    Bool.or_self, Bool.false_eq_true, if_false, if_true]

/-- A writer of a line that no other agent has owns it at once. -/
theorem dirRequest_own (st : Dword) (bo : Nat) (hm : e.st ≠ .m) (hs : snoopNeeded s line true = false)
    (hsh : e.sharers.filter (· != a) = []) :
    dirRequest s a line .own st bo = give (s.modDie (homeDie (line * 128)) fun k => (k.invalidate line).setDir { e with
      st := .m, sharers := [], owner := some a, resv := none, go := false, refusals := 0, refused := [] }) a line true := by
  have hkind : (DirKind.own != DirKind.read) = true := rfl
  obtain hst | hst := DirSt.eq_i_or_s hb hm <;>
  simp only [dirRequest, he, hst, hr, hkind, hs, hsh, DirEnt.settled, decide_false, reduceCtorEq, Option.isSome_none, Option.isNone_none, Bool.false_and,
    Bool.or_self, Bool.false_eq_true, if_false, if_true, List.isEmpty_nil]

omit hb in
/-- A reader of a line that another agent owns begins a forward. -/
theorem dirRequest_forward (st : Dword) (bo : Nat) {o : Nat} (hm : e.st = .m) (ho : e.owner = some o) (hoa : o ≠ a)
    (hs : snoopNeeded s line false = false) :
    let f : DirEnt := { e with st := .b, fwd := some a, resv := none, go := false, refusals := 0, refused := [] }
    let u := s.modDie (homeDie (line * 128)) (·.setDir f)
    dirRequest s a line .read st bo = match agentDie s a with
      | some d => dirSend (noRetry u d line) f
      | none => dirSend u f := by
  intro f u
  have hkind : (DirKind.read != DirKind.read) = false := rfl
  have hagent : ∀ f, agentDie (s.modDie (homeDie (line * 128)) f) a = agentDie s a := fun _ => rfl
  simp only [f, u, dirRequest, he, hr, hkind, hs, hm, ho, if_neg hoa, hagent, DirEnt.settled, Option.isSome_none, Option.isNone_none,
    Bool.false_and, Bool.or_self, Bool.false_eq_true, if_false, if_true, reduceCtorEq, decide_false]
  cases agentDie s a <;> rfl

end

/-- The transaction of the line is the die's own request's. -/
theorem under_iff (e : DirEnt) (me : Nat) : (e.st == .b && (e.fwd == some me || (e.fwd.isNone && e.owner == some me))) = true
    ↔ e.st = .b ∧ (e.fwd = some me ∨ (e.fwd = none ∧ e.owner = some me)) := by
  simp only [Bool.and_eq_true, Bool.or_eq_true, beq_iff_eq, Option.isNone_iff_eq_none]

theorem execDirectoryRequest_home {s : State} {die line : Nat} {kind : DirKind}
    (hw : (s.die die).waits.any (fun w => w.line == line && w.hold == .dir kind) = true) (hh : die = homeDie (line * 128)) :
    execDirectoryRequest die line kind s = .next (homeAsk s line (kind != .read)) := by
  simp only [execDirectoryRequest, if_pos hh, hw, if_true]

theorem execDirectoryRequest_asks {s : State} {die line : Nat} {kind : DirKind}
    (hw : (s.die die).waits.any (fun w => w.line == line && w.hold == .dir kind) = true) (hh : die ≠ homeDie (line * 128))
    (hr : (s.die die).retries.any (·.line == line) = false) (hwb : (s.die die).wbufs.contains line = false)
    (hu : let e := (s.die (homeDie (line * 128))).dir line
      ¬ (e.st = .b ∧ (e.fwd = some (agentOf s die) ∨ (e.fwd = none ∧ e.owner = some (agentOf s die)))))
    (hl : grantLim s line kind = false) :
    execDirectoryRequest die line kind s = .next (dirRequest s (agentOf s die) line kind s.gtc 64) := by
  dsimp only at hu
  rw [← under_iff, Bool.not_eq_true] at hu
  simp only [execDirectoryRequest, if_neg hh, hw, hr, hwb, hu, hl, Bool.not_false, Bool.and_self, if_true]

theorem execDirectoryRetry_asks {s : State} {die line : Nat} {r : Retry}
    (hr : (s.die die).retries.find? (·.line == line) = some r) (hl : grantLim s line r.kind = false) :
    execDirectoryRetry die line s = .next (dirRequest (s.modDie die fun k => { k with retries := k.retries.erase r })
      (agentOf s die) line r.kind r.stamp (min 8192 (2 * r.backoff))) := by
  simp only [execDirectoryRetry, hr, hl, Bool.false_eq_true, if_false]

/-- The reserved requester is told once that the line has left its transaction (R253). -/
theorem execGoMessage_tells {s : State} {line a : Nat} {e : DirEnt} (he : (s.die (homeDie (line * 128))).dir line = e)
    (hr : e.resv = some a) (hb : e.st ≠ .b) (hg : e.go = false) :
    let u := s.modDie (homeDie (line * 128)) (·.setDir { e with go := true })
    execGoMessage line s = .next (match agentDie s a with
      | none => sliceSend u (homeDie (line * 128)) line (a / 4) 1#3
      | some d => u.modDie d fun k => { k with retries := k.retries.map fun r => if r.line = line then { r with backoff := 0 } else r }) := by
  intro u
  have hagent : ∀ f, agentDie (s.modDie (homeDie (line * 128)) f) a = agentDie s a := fun _ => rfl
  simp only [u, execGoMessage, he, hr, hb, hg, decide_false, Bool.or_self, Bool.false_eq_true, if_false, hagent]
  cases agentDie s a <;> rfl

theorem execReservationTimeout_busy {s : State} {line : Nat} {e : DirEnt} (he : (s.die (homeDie (line * 128))).dir line = e)
    (hr : e.resv.isSome = true) (hb : e.st = .b) : execReservationTimeout line s =
      .next (s.modDie (homeDie (line * 128)) (·.setDir { e with resv := none, go := false })) := by
  have hn : e.resv.isNone = false := by simpa using hr
  simp only [execReservationTimeout, he, hn, hb, Bool.false_eq_true, if_false, if_true]

/-- The owner's writeback reaches the home (R255). -/
theorem execWriteback_applied {s : State} {die line : Nat} {e : DirEnt} (he : (s.die (homeDie (line * 128))).dir line = e)
    (hw : (s.die die).wbufs.contains line = true) (hp : peerHome line = none) (hm : e.st = .m) (ho : e.owner = some (agentOf s die)) :
    execWriteback die line s = .next (wakeLine (homeFill ((s.modDie (homeDie (line * 128)) (·.setDir
      { e with st := .i, owner := none, sharers := [] }.settled)).modDie die fun k => { k with wbufs := k.wbufs.erase line }) line) line) := by
  simp only [execWriteback, he, hw, hp, hm, ho, Bool.not_true, Option.isSome_none, Bool.or_self, Bool.false_eq_true, if_false, and_self, if_true]

/-- What the owner's die does for a forward: it keeps a shared copy, or its buffer. -/
def forwarded (s : State) (d line : Nat) (wbIn : Bool) : State := s.modDie d fun k => match k.tag? line with
  | some t => k.setTag { t with st := .shared }
  | none => if wbIn then { k with wbufs := k.wbufs.erase line } else k

/-- It leaves the directories as they are. -/
theorem forwarded_dir (s : State) (d line : Nat) (wb : Bool) (i : Nat) (l : Nat) : ((forwarded s d line wb).die i).dir l = (s.die i).dir l := by
  have hdirs : ((forwarded s d line wb).die i).dirs = (s.die i).dirs := by
    rw [forwarded, die_modDie]
    split
    · next h =>
      obtain ⟨rfl, -⟩ := h
      split
      · rfl
      · split <;> rfl
    · rfl
  simp only [Die.dir, Die.dir?, hdirs]

theorem execForward_eq (s : State) (line : Nat) : execForward line s =
    let e := (s.die (homeDie (line * 128))).dir line
    match e.st, e.fwd, e.owner.bind (agentDie s) with
    | .b, some a, some d => .next (endForward (forwarded s d line e.wbIn) line a
        (if ((s.die d).tag? line).isSome then [agentOf (forwarded s d line e.wbIn) d] else []))
    | _, _, _ => .next s := rfl

/-- The owner, a die of this device that holds the line, answers a reader (R254). -/
theorem execForward_held {s : State} {line a o : Nat} {e : DirEnt} (he : (s.die (homeDie (line * 128))).dir line = e)
    (hb : e.st = .b) (hf : e.fwd = some a) (ho : e.owner = some o) (hpkg : o / 4 = s.pkg.val)
    (ht : ((s.die (o % 4)).tag? line).isSome = true) :
    execForward line s = .next (
      let u := (forwarded s (o % 4) line e.wbIn).modDie (homeDie (line * 128)) (·.setDir { e with
        st := .s, sharers := (if a = homeAgent s line then [o] else setAdd [o] a), owner := none, fwd := none, wbIn := false }.settled)
      wakeLine (give (homeFill u line) a line false) line) := by
  have hagent : agentOf (forwarded s (o % 4) line e.wbIn) (o % 4) = o := by
    show s.pkg.val * 4 + o % 4 = o
    omega
  have hdir := (forwarded_dir s (o % 4) line e.wbIn (homeDie (line * 128)) line).trans he
  have hsh : (if a = homeAgent s line then [o] else setAdd [o] a).isEmpty = false := by
    split
    · rfl
    · simp only [setAdd]
      repeat' split
      all_goals rfl
  have hrun : execForward line s = .next (endForward (forwarded s (o % 4) line e.wbIn) line a [o]) := by
    simp only [execForward_eq, he, hb, hf, ho, Option.bind_some, agentDie_own hpkg, ht, hagent, if_true]
  have hhome : homeAgent (forwarded s (o % 4) line e.wbIn) line = homeAgent s line := rfl
  rw [hrun]
  simp only [endForward, hdir, hhome, hsh, Bool.false_eq_true, if_false]

/-- The agent of a die that does not hold the invalidation back acknowledges it. -/
theorem execInvalidation_acks {s : State} {die line o : Nat} {e : DirEnt} (he : (s.die (homeDie (line * 128))).dir line = e)
    (hb : e.st = .b) (hf : e.fwd = none) (ho : e.owner = some o) (hs : e.sharers.contains (agentOf s die) = true)
    (hl : invLim (s.die die) line = none) :
    execInvalidation die line s = .next (ackInvalid (s.modDie die fun k =>
      { k.invalidate line with wbufs := if e.wbIn then k.wbufs.erase line else k.wbufs }) (agentOf s die) line) := by
  have haw : awaits s (agentOf s die) line = true := by simp only [awaits, he, hb, hf, ho, hs]; rfl
  simp only [execInvalidation, he, haw, hl, Bool.not_true, Option.isSome_none, Bool.or_self, Bool.false_eq_true, if_false]

/-- A die that drops a line keeps its directory. -/
theorem invalidate_dirs (k : Die) (line : Nat) : (k.invalidate line).dirs = k.dirs := by
  have hforeign : ((k.foreign line).2).dirs = k.dirs := by
    unfold Die.foreign
    split
    · split <;> rfl
    · rfl
  unfold Die.invalidate
  split
  · rfl
  · rw [← hforeign]
    unfold Die.evict
    split
    · rfl
    · dsimp only
      split <;> rfl

/-- The state in which a die has dropped its copy, and its buffer where the writeback has been taken. -/
def dropped (s : State) (die line : Nat) (wbIn : Bool) : State :=
  s.modDie die fun k => { k.invalidate line with wbufs := if wbIn then k.wbufs.erase line else k.wbufs }

theorem dropped_dir (s : State) (die line : Nat) (wb : Bool) (i l : Nat) : ((dropped s die line wb).die i).dir l = (s.die i).dir l := by
  have hdirs : ((dropped s die line wb).die i).dirs = (s.die i).dirs := by
    rw [dropped, die_modDie]
    split
    · next h => rw [h.1]; exact invalidate_dirs _ _
    · rfl
  simp only [Die.dir, Die.dir?, hdirs]

section
variable {s : State} {line a o : Nat} {e : DirEnt} (he : (s.die (homeDie (line * 128))).dir line = e) (ho : e.owner = some o)
include he ho

/-- An acknowledgement that is not the last one leaves the transaction. -/
theorem ackInvalid_waits (hs : e.sharers.filter (· != a) ≠ []) :
    ackInvalid s a line = s.modDie (homeDie (line * 128)) (·.setDir { e with sharers := e.sharers.filter (· != a) }) := by
  simp only [ackInvalid, he, ho]
  split
  · next h _ => exact absurd h hs
  · rfl

/-- The last one gives the line to the writer, or, at the home's own request, leaves it in I. -/
theorem ackInvalid_last (hs : e.sharers.filter (· != a) = []) : ackInvalid s a line =
    let f := if o = homeAgent s line then { e with sharers := [], st := .i, owner := none, wbIn := false }
      else { e with sharers := [], st := .m, wbIn := false }
    wakeLine (give (s.modDie (homeDie (line * 128)) (·.setDir f.settled)) o line true) line := by
  simp only [ackInvalid, he, ho, hs]

end

/-! ### Eviction and the host's copies (R246, R247, R255, R258) -/

theorem exec_l2Eviction (die line : Nat) (s : State) : exec (.l2Eviction die line) s = execL2Eviction die line s := rfl
theorem exec_backInvalidateSnoop (line : Nat) (s : State) : exec (.backInvalidateSnoop line) s = execBackInvalidateSnoop line s := rfl
theorem exec_bisnpResponse (line : Nat) (d : Option (BitVec 1024)) (s : State) :
    exec (.bisnpResponse line d) s = execBisnpResponse line d s := rfl
theorem exec_hostAccess (r : HostReq) (s : State) : exec (.hostAccess r) s = execHostAccess r s := rfl

/-- The eviction of a line that the die holds no UNT copy of: an owner's copy must reach its home. -/
theorem execL2Eviction_trk {s : State} {die line : Nat} {t : L2Tag} (hu : (s.die die).unt? line = none)
    (ht : (s.die die).tag? line = some t) : execL2Eviction die line s =
      if t.st = .owner ∧ unreachable s (lineDev s line) = true then .next (s.modDie die fun k => { k with offers := setAdd k.offers line })
      else .next (
        if t.st ≠ .owner then s.modDie die (·.evict line)
        else
          let v := (s.modDie die (·.evict line)).modDie die fun k => { k with wbufs := k.wbufs ++ [line] }
          if (peerHome line).isSome then sliceSend v die line (lineDev s line) 2#3 else v) := by
  have hdirty : dirtyLine (s.die die) line = (t.st == .owner) := by
    simp only [dirtyLine, ht, hu, Option.any_some, Option.any_none, Bool.or_false]
  have hno : ((s.die die).unt? line).isSome = false := by rw [hu]; rfl
  simp only [execL2Eviction, hdirty, hno, Bool.false_and, Bool.false_eq_true, if_false, evictLine, ht, Bool.and_eq_true, beq_iff_eq,
    bne_iff_ne]
  rfl

/-! ### Host accesses (R258, R259, R402) -/

/-- A host access while the device does not run gets an error response (R453). -/
theorem execHostAccess_off {s : State} (r : HostReq) (h : s.boot ≠ .running) : execHostAccess r s = .next (hostAnswer s none) := by
  have hb : (s.boot != .running) = true := bne_iff_ne.2 h
  simp only [execHostAccess, hb, if_true]

section
variable {s : State} {pa n : Nat} (hup : s.boot = .running ∧ s.port.hpcap.getLsbD 15 = true)
  (hl : 0 < n ∧ lineOf pa = lineOf (pa + n - 1))
include hup hl

/-- A read of one line reaches its place. -/
theorem execHostAccess_read (p : Option (BitVec 20)) : execHostAccess (.read pa n p) s = .next (if isHbm pa then hostRead s pa n
    else match winSplit pa with | some (g, off) => hostWindow s g off (.read pa n p) | none => hostAnswer s none) := by
  have hb : (s.boot != .running) = false := by simp [hup.1]
  have hn : n ≠ 0 := by omega
  have hline : (lineOf pa != lineOf (pa + n - 1)) = false := by rw [← hl.2]; simp
  simp only [execHostAccess, hostPlace, hb, hup.2, hn, hline, decide_false, Bool.not_true, Bool.false_and, Bool.or_self, Bool.false_eq_true,
    if_false]
  by_cases hm : isHbm pa = true
  · simp only [hm, Bool.not_true, Bool.false_eq_true, if_false, if_true]
  · simp only [hm, Bool.not_false, if_true]
    rfl

/-- A write of one line, where no write is held back before it. -/
theorem execHostAccess_write {bs : List Byte} (hbs : bs.length = n) (hh : hostHeld s = false) (p : Option (BitVec 20)) :
    execHostAccess (.write pa bs p) s = .next (if isHbm pa then hostWrite s pa bs
      else match winSplit pa with | some (g, off) => hostWindow s g off (.write pa bs p) | none => hostAnswer s none) := by
  have hb : (s.boot != .running) = false := by simp [hup.1]
  have hn : n ≠ 0 := by omega
  have hline : (lineOf pa != lineOf (pa + n - 1)) = false := by rw [← hl.2]; simp
  simp only [execHostAccess, hostPlace, hb, hup.2, hbs, hn, hline, hh, decide_false, Bool.not_true, Bool.and_false, Bool.or_self,
    Bool.false_eq_true, if_false]
  by_cases hm : isHbm pa = true
  · simp only [hm, Bool.not_true, Bool.false_eq_true, if_false, if_true]
  · simp only [hm, Bool.not_false, if_true]
    rfl

/-- An AtomicOp on device memory, where no write is held back before it. -/
theorem execHostAccess_atomic {op : HostAtom} (hm : isHbm pa = true) (hok : hostAtomOk op pa n = true) (hh : hostHeld s = false)
    (p : Option (BitVec 20)) : execHostAccess (.atomic pa n op p) s = .next (hostAtomic s pa n op) := by
  have hb : (s.boot != .running) = false := by simp [hup.1]
  have hn : n ≠ 0 := by omega
  have hline : (lineOf pa != lineOf (pa + n - 1)) = false := by rw [← hl.2]; simp
  simp only [execHostAccess, hostPlace, hb, hup.2, hn, hline, hh, hm, hok, decide_false, Bool.not_true, Bool.and_false, Bool.or_self,
    Bool.false_eq_true, if_false, if_true]

end

/-- A copy that the host takes in CXL mode. -/
theorem execHostAccess_cache {s : State} {line : Nat} {m : Bool} (hup : s.boot = .running ∧ s.port.hpcap.getLsbD 15 = true)
    (hcxl : s.port.hpcap.getLsbD 0 = true) (hm : isHbm (line * 128) = true)
    (hr : (hostRuns s (line * 128) 128).any (·.2.isSome) = false) :
    execHostAccess (.cache (line * 128) m) s = .next (hostCopy s line m) := by
  have hb : (s.boot != .running) = false := by simp [hup.1]
  have hpa : line * 128 / 128 * 128 = line * 128 := by omega
  have hlo : lineOf (line * 128) = line := by rw [lineOf]; omega
  have hhi : lineOf (line * 128 + 128 - 1) = line := by rw [lineOf]; omega
  simp only [execHostAccess, hostPlace, hb, hup.2, hpa, hlo, hhi, hm, hcxl, hr, bne_self_eq_false, Bool.not_true, Bool.false_and, Bool.or_self,
    Bool.false_eq_true, if_false, show ¬ (128 : Nat) = 0 by decide, decide_false]

/-- A host write in no window is performed at the home, or asks for the line. -/
theorem hostWrite_mem {s : State} {pa : Nat} {bs : List Byte} (h : hostRuns s pa bs.length = [((pa, bs.length), none)]) :
    hostWrite s pa bs = match hostLine s pa bs with
      | some t => hostAnswer (hostNote t (lineOf pa) false) (some [])
      | none => homeAsk s (lineOf pa) true := by
  have hpart : (bs.drop (pa - pa)).take bs.length = bs := by simp
  simp only [hostWrite, h, List.foldl_cons, List.foldl_nil, hostRun, Option.bind_some, hpart, List.any_cons, List.any_nil, Option.isNone_none,
    Bool.or_false, if_true]
  cases hostLine s pa bs <;> rfl

/-- The host gets as many bytes as it reads. -/
theorem hostMemRead_length {s u : State} {pa n : Nat} {got : List (Byte × Bool)} (h : hostMemRead s pa n = some (u, got)) :
    got.length = n := by
  unfold hostMemRead at h
  dsimp only at h
  split at h
  · cases h
    simp [untBytes, byteList]
  · split at h
    · cases h
      simp [trkBytes, byteList]
    · cases h

/-- A host read in no window is answered by the home, or asks for the line. -/
theorem hostRead_mem {s : State} {pa n : Nat} (h : hostRuns s pa n = [((pa, n), none)]) : hostRead s pa n = match hostMemRead s pa n with
    | some (t, got) => hostAnswer (hostNote t (lineOf pa) false) (some got)
    | none => homeAsk s (lineOf pa) false := by
  simp only [hostRead, h, List.any_cons, List.any_nil, Option.isNone_none, Bool.or_false, if_true]
  cases hr : hostMemRead s pa n with
  | none => rfl
  | some x =>
    obtain ⟨t, got⟩ := x
    have hlen := hostMemRead_length hr
    have hpart : (got.drop (pa - pa)).take n = got := by rw [Nat.sub_self, List.drop_zero, ← hlen, List.take_length]
    simp only [List.foldl_cons, List.foldl_nil, List.nil_append, hpart]
    simp

/-- It changes no memory, and answers what memory holds where the home die has written no byte of an UNT line. -/
theorem hostMemRead_bytes {s u : State} {pa n : Nat} {got : List (Byte × Bool)} (h : hostMemRead s pa n = some (u, got)) :
    u.hbm = s.hbm ∧ ((s.die (homeDie pa)).unt? (lineOf pa) = none → got.map (·.1) = (List.range n).map fun i => s.byteAt (pa + i)) := by
  unfold hostMemRead at h
  dsimp only at h
  split at h
  · next hu =>
    cases h
    exact ⟨rfl, fun hn => by rw [hn] at hu; cases hu⟩
  · split at h
    · next hl =>
      cases h
      have hrest := congrArg State.hbm (l2Read_ok hl).1
      refine ⟨hrest, fun _ => ?_⟩
      simp only [trkBytes, byteList, List.map_map]
      refine List.map_congr_left fun i _ => ?_
      rfl
    · cases h

/-- A write that LTLIM and the line's holders admit changes only the dies before its bytes land. -/
theorem storeForeign_rest {s u : State} {line : Nat} (h : storeForeign s line = .ok u) : { u with dies := s.dies } = s := by
  unfold storeForeign at h
  dsimp only at h
  split at h
  · cases h
  split at h
  · cases h
  split at h
  · cases h
  split at h
  · cases h
  split at h
  · cases h
  cases h
  have hrest := congrArg (fun t : State => { t with dies := s.dies })
    (recallAll_rest (s.setDie (homeDie (line * 128)) ((s.die (homeDie (line * 128))).foreign line).2) line)
  exact hrest

/-- A host write to a line that its home holds no UNT copy of writes exactly its bytes. -/
theorem hostLine_byteAt {s u : State} {pa : Nat} {bs : List Byte} (h : hostLine s pa bs = some u)
    (hunt : ((s.die (homeDie pa)).unt? (lineOf pa)).isSome = false) (b : Nat) :
    u.byteAt b = if pa ≤ b ∧ b < pa + bs.length then (bs[b - pa]?).getD 0#8 else s.byteAt b := by
  obtain ⟨t, ht, rfl⟩ := Option.map_eq_some_iff.1 h
  have hun : (((noSnoop s (lineOf pa)).die (homeDie pa)).unt? (lineOf pa)).isSome = false := by
    rw [← hunt]
    simp only [noSnoop, State.die, Vector.getElem?_map]
    cases s.dies[homeDie pa]? <;> rfl
  unfold outLine at ht
  simp only [hun, Bool.false_eq_true, if_false] at ht
  split at ht
  · cases ht
  split at ht
  · next v hv =>
    cases ht
    have hmem := congrArg State.hbm (storeForeign_rest hv)
    have hmem' : v.hbm = s.hbm := hmem
    have hmark : (v.noteOuter (lineOf pa)).hbm = s.hbm := hmem'
    show tabGet 0#8 (wrBytes (v.noteOuter (lineOf pa)).hbm pa bs) b = _
    rw [hmark, wrBytes_get]
    rfl
  · cases ht

end Machine

/-! ### The obligation -/

theorem logicalTime : Claim.LogicalTime := by
  refine ⟨tle_iff, by decide, by decide, by decide, ?idle, ?ltlim, ?scrub, ?store⟩
  case idle =>
    intro s core hc hle
    refine ⟨_, exec_idleAdvance core s, ?_, rfl, fun c hne => ?_⟩
    · rw [core_modCore, if_pos ⟨rfl, hc⟩, if_pos hle]
    · rw [core_modCore, if_neg fun h => hne h.1]
  case ltlim =>
    intro s die hd hle
    refine ⟨_, exec_ltlimAdvance die s, ?_, rfl⟩
    rw [die_modDie, if_pos ⟨rfl, hd⟩, if_pos hle]
  case scrub =>
    intro s die hd
    exact ⟨_, (exec_scrubVisit die s).trans (execScrubVisit_eq s die), scrub_l2 (scrubOthers_dies s die) hd⟩
  case store =>
    intro s u c line w hh hd hst
    obtain ⟨hw, hle, rfl⟩ := storeTrk_home hh hst
    have hline := Die.homeTag_line (s.die (dieOfCore c)) line
    refine ⟨hw, hle, ?_, ?_⟩
    · rw [die_modDie, if_pos ⟨rfl, hd⟩]
      have htag := tag?_setTag_same ((recallAll s line).die (dieOfCore c))
        { (s.die (dieOfCore c)).homeTag line with wts := w, rts := w, wExp := false, rExp := false }
      rw [hline] at htag
      rw [htag]
      rfl
    · have hmem := congrArg State.hbm (storeTrk_rest hst)
      exact hmem

theorem directoryEvents : Claim.DirectoryEvents := by
  intro s die line a o kind r st bo h e me home
  refine ⟨?request, ?retry, ?read, ?own, ?forward, dirRequest_busy, ?go, ?timeout, ?writeback, ?answer, ?invalidation, ?grant, ?far⟩
  case request =>
    intro hw
    refine ⟨fun hh => ?_, fun hh hr hwb hu hl => ?_⟩
    · rw [exec_directoryRequest, execDirectoryRequest_home hw hh]
    · rw [exec_directoryRequest, execDirectoryRequest_asks hw hh hr hwb hu hl]
  case retry =>
    intro hr hl
    rw [exec_directoryRetry, execDirectoryRetry_asks hr hl]
  case read => exact fun hb hm hr hs => dirRequest_read rfl hb hr st bo hm hs
  case own => exact fun hb hm hr hs hsh => dirRequest_own rfl hb hr st bo hm hs hsh
  case forward =>
    intro hm ho hoa hr hs f u
    have hrun := dirRequest_forward rfl hr st bo hm ho hoa hs
    refine ⟨fun hfar => ?_, fun hown => ?_⟩
    · rw [hrun, agentDie_far hfar]
    · rw [hrun, agentDie_own hown]
  case go =>
    intro hr hb hg u
    have hrun := execGoMessage_tells rfl hr hb hg
    refine ⟨fun hown => ?_, fun hfar => ?_⟩
    · rw [exec_goMessage, hrun, agentDie_own hown]
    · rw [exec_goMessage, hrun, agentDie_far hfar]
  case timeout =>
    intro hr hb
    rw [exec_reservationTimeout, execReservationTimeout_busy rfl hr hb]
  case writeback =>
    intro hw hp hm ho
    rw [exec_writeback, execWriteback_applied rfl hw hp hm ho]
  case answer =>
    intro hb hf ho hpkg ht
    rw [exec_forward, execForward_held rfl hb hf ho hpkg ht]
    rfl
  case invalidation =>
    intro hb hf ho hs hl u
    have hdir : (u.die h).dir line = e := dropped_dir s die line e.wbIn h line
    have hrun : exec (.invalidation die line) s = .next (ackInvalid u me line) :=
      (exec_invalidation die line s).trans (execInvalidation_acks rfl hb hf ho hs hl)
    refine ⟨fun hne => ?_, fun hnil hne => ?_, fun hnil heq => ?_⟩
    · rw [hrun, ackInvalid_waits hdir ho hne]
    · rw [hrun, ackInvalid_last hdir ho hnil]
      have hhome : ¬ o = homeAgent u line := hne
      simp only [if_neg hhome]
      rfl
    · rw [hrun, ackInvalid_last hdir ho hnil]
      have hhome : o = homeAgent u line := heq
      simp only [if_pos hhome]
      rfl
  case grant =>
    intro d hd ha hdie hne
    subst hdie
    have hagent : agentDie s a = some die := ha ▸ agentDie_agentOf hd
    have hne' : ¬ a = homeAgent s line := hne
    simp only [give, hagent, if_neg hne', Bool.false_eq_true, if_false, if_true, and_self]
  case far =>
    intro own hfar
    simp only [give, agentDie_far hfar]
    rfl

theorem hostCopies : Claim.HostCopies := by
  intro s u die line pa n g off t bs got m p op q h up inLine
  refine ⟨?evict, rfl, ?snoop, ?response, ?write, ?read, ?atomic, ?cache, ?note, ?off, ?winRead, ?winWrite, rfl⟩
  case evict =>
    intro hu ht
    have hrun := (exec_l2Eviction die line s).trans (execL2Eviction_trk hu ht)
    refine ⟨fun hfar => hrun.trans (if_pos hfar), fun hown hreach => hrun.trans ?_, fun hne => hrun.trans ?_⟩
    · exact (if_neg (by simp [hreach])).trans (congrArg _ (if_neg (Classical.not_not.2 hown)))
    · exact (if_neg fun h => hne h.1).trans (congrArg _ (if_pos hne))
  case snoop =>
    intro hw hs hb
    refine (exec_backInvalidateSnoop line s).trans (if_pos ?_)
    rw [hw, hs, hb]
    rfl
  case response =>
    intro hb
    refine (exec_bisnpResponse line none s).trans (if_neg ?_)
    rw [hb]
    simp
  case write =>
    intro hup hm hl hr hh
    have hrun := ((exec_hostAccess _ s).trans (execHostAccess_write hup hl rfl hh p)).trans
      (congrArg Host.Outcome.next ((if_pos hm).trans (hostWrite_mem hr)))
    refine ⟨fun hu => ?_, fun hu hunt b => hostLine_byteAt hu hunt b, fun hu => ?_⟩
    · rw [hrun, hu]
    · rw [hrun, hu]
  case read =>
    intro hup hm hl hr
    have hrun := ((exec_hostAccess _ s).trans (execHostAccess_read hup hl p)).trans
      (congrArg Host.Outcome.next ((if_pos hm).trans (hostRead_mem hr)))
    refine ⟨fun hu => ⟨?_, hostMemRead_bytes hu⟩, fun hu => ?_⟩
    · rw [hrun, hu]
    · rw [hrun, hu]
  case atomic =>
    intro hup hm hl hok hh hw hp old
    have hrun := (exec_hostAccess _ s).trans (execHostAccess_atomic hup hl hm hok hh p)
    have hnw : ¬ (nibWindow s pa n).isSome = true := by simp [hw]
    have hnp : ¬ peersHold s (lineOf pa) true = true := by simp [hp]
    refine ⟨fun x hx hu => hrun.trans ?_, fun hx => hrun.trans ?_⟩
    · simp only [hostAtomic, if_neg hnw, if_neg hnp, hx, hu, Option.map_some, Option.getD_some]
      rfl
    · simp only [hostAtomic, if_neg hnw, if_neg hnp, hx]
      rfl
  case cache =>
    intro hup hcxl hm hr hb hrec hp v
    have hrun := (exec_hostAccess _ s).trans (execHostAccess_cache (m := m) hup hcxl hm hr)
    have hno : ¬ (decide (((s.die (homeDie (line * 128))).dir line).st = .b) || (m && (recallLim s line).isSome)) = true := by
      rw [Bool.or_eq_true, decide_eq_true_eq, Bool.and_eq_true]
      rintro (h1 | ⟨hmt, h2⟩)
      · exact hb h1
      · rw [hrec hmt] at h2
        cases h2
    have hnp : ¬ peersHold s line m = true := by simp [hp]
    refine hrun.trans ?_
    simp only [hostCopy, if_neg hno, if_neg hnp]
    rfl
  case note =>
    intro hcxl hd
    have hgo : ¬ (!s.port.hpcap.getLsbD 0) = true := by simp only [hcxl, Bool.not_true, Bool.false_eq_true, not_false_eq_true]
    rw [hostNote, if_neg hgo, die_modDie, if_pos ⟨rfl, hd⟩]
  case off => exact fun hb => (exec_hostAccess q s).trans (execHostAccess_off q hb)
  case winRead =>
    intro hup hm hl
    have hrun := ((exec_hostAccess _ s).trans (execHostAccess_read hup hl p)).trans
      (congrArg Host.Outcome.next (if_neg (by simp [hm])))
    refine ⟨fun hw => ?_, fun hw hadm => ?_, fun hw hadm => ?_⟩
    · rw [hrun, hw]
    · rw [hrun, hw]
      simp only [hostWindow, hadm, Bool.not_false, if_true]
    · rw [hrun, hw]
      simp only [hostWindow, hadm, Bool.not_true, Bool.false_eq_true, if_false]
  case winWrite =>
    intro hup hm hl hh hw
    have hrun := ((exec_hostAccess _ s).trans (execHostAccess_write hup hl rfl hh p)).trans
      (congrArg Host.Outcome.next (if_neg (by simp [hm])))
    refine ⟨fun hadm => ?_, fun hadm => ?_⟩
    · rw [hrun, hw]
      simp only [hostWindow, hadm, Bool.not_false, if_true]
    · rw [hrun, hw]
      simp only [hostWindow, hadm, Bool.not_true, Bool.false_eq_true, if_false]

/-- Settles O52: logical time, the home directory and the host's copies, each event run on the entry or the line that it names. -/
theorem coherenceEvents : Obligations.CoherenceEvents := ⟨logicalTime, directoryEvents, hostCopies⟩

end Sys2Proof
end

section
/-! PROOFS. The obligation of 13, 15 and 16 on the events of the sync unit, the copy channels and the matrix engine. -/

namespace Sys2Proof

open Machine

namespace Machine

/-! ### Barriers and the sync unit (R272, R275, R277) -/

theorem exec_barrierArrival (i : Nat) (s : State) : exec (.barrierArrival i) s = execBarrierArrival i s := rfl
theorem exec_syncWrite (core : Nat) (s : State) : exec (.syncWrite core) s = execSyncWrite core s := rfl

/-- An arrival is ready once its release half is done and no acquire of its warp is pending (R231, R279). -/
theorem arrivalReady_of {s : State} {a : Arrival} (h : a.warp = none ∨ ∃ slot id, a.warp = some (slot, id)
    ∧ (a.rel = false ∨ relReady s a.core slot id = true) ∧ (s.core a.core).acqPend slot id = false) : arrivalReady s a = true := by
  obtain hn | ⟨slot, id, hw, hrel, hacq⟩ := h
  · simp only [arrivalReady, hn]
  · obtain hrel | hrel := hrel <;> simp [arrivalReady, hw, hrel, hacq]

/-- The arrival leaves the queue and goes to its barrier. -/
theorem execBarrierArrival_ready {s : State} {i : Nat} {a : Arrival} (ha : s.arrivals[i]? = some a) (hr : arrivalReady s a = true) :
    execBarrierArrival i s =
      let r := { s with arrivals := s.arrivals.eraseIdx i }
      let b := barGet r a.tgt a.level a.n
      if a.rmt && !rbarOk r a then .next (r.modCore a.core fun k => { k with rbref := k.rbref + 1 })
      else if a.level == .pod && r.pkg.val != 0 then
        .next (arrivalRet (originate r ⟨coreSource r a.core, 0#4, 0#3⟩) a ((Config.peerValue r.tick a.n).setWidth 32))
      else if a.level == .pod then .next (podArrive (arrivalRet r a b.phase) a.n a.count (arriveRel r a))
      else .next (wakeBar (arrivalRet (barPut r a.tgt a.level a.n (b.arrive a.count a.flags (arriveRel r a))) a b.phase) a.tgt a.level a.n) := by
  simp only [execBarrierArrival, ha, hr, Bool.not_true, Bool.false_eq_true, if_false]

/-! ### Copy channels (R287 to R295) -/

theorem exec_copyRecordRead (core ch : Nat) (s : State) : exec (.copyRecordRead core ch) s = execCopyRecordRead core ch s := rfl
theorem exec_copyRow (core ch i : Nat) (s : State) : exec (.copyRow core ch i) s = execCopyRow core ch i s := rfl
theorem exec_chunkSignal (core ch i : Nat) (s : State) : exec (.chunkSignal core ch i) s = execChunkSignal core ch i s := rfl
theorem exec_recordCompletion (core ch : Nat) (s : State) : exec (.recordCompletion core ch) s = execRecordCompletion core ch s := rfl
theorem exec_inboundWindowWrite (core : Nat) (s : State) : exec (.inboundWindowWrite core) s = execInboundWindowWrite core s := rfl

/-- What a row that has passed its checks comes to (R289). -/
def rowOut (core ch i : Nat) (u : State) : ER Unit → Out
  | .wait v => .next (keepWaits u v core)
  | .fail v st => .next (v.modChan core ch fun c => { c with cur := c.cur.map fun (r : CpRec) => { r with status := st } })
  | .ok v _ => .next (v.modChan core ch fun c => { c with cur := c.cur.map fun (r : CpRec) => { r with rows := setAdd r.rows i } })

section
variable {s : State} {core ch : Nat} (hrun : chanRuns s core ch = true)
include hrun

/-- The record of TCOPY begins as it was posted. -/
theorem execCopyRecordRead_tcopy {p : CpPost} {x : BitVec 512} (hc : (s.chan core ch).cur = none) (hq : (s.chan core ch).queue.head? = some p)
    (ht : p.tcopy = some x) : execCopyRecordRead core ch s = .next (beginRec s core ch none x stOk) := by
  obtain ⟨rest, hq⟩ := List.head?_eq_some_iff.1 hq
  simp only [execCopyRecordRead, hrun, hc, hq, ht, Bool.not_true, Bool.false_eq_true, if_false]

/-- The record of a chain is read at its place. -/
theorem execCopyRecordRead_chain {p : CpPost} (hc : (s.chan core ch).cur = none) (hq : (s.chan core ch).queue.head? = some p)
    (ht : p.tcopy = none) : execCopyRecordRead core ch s =
      let from_ := if (s.chan core ch).busy then (s.chan core ch).next else p.head
      let at0 := s.modChan core ch fun c => { c with busy := true, next := from_ }
      match engRead at0 (chanEng at0 core ch) (cpRecId (s.chan core ch)) from_ from_ 64 with
      | .wait s => .next s
      | .fail s st => .next (endChain s core ch st)
      | .ok s bs => .next (beginRec s core ch (some from_) (BitVec.ofNat 512 (leNat (bs.map (·.1)))) stOk) := by
  obtain ⟨rest, hq⟩ := List.head?_eq_some_iff.1 hq
  simp only [execCopyRecordRead, hrun, hc, hq, ht, Bool.not_true, Bool.false_eq_true, if_false] <;> rfl

/-- A record whose DST was still being translated goes on. -/
theorem execCopyRecordRead_goesOn {r : CpRec} (hc : (s.chan core ch).cur = some r) (hb : r.begun = false) :
    execCopyRecordRead core ch s = .next (beginRec s core ch r.at_ r.rec_ r.status) := by
  simp only [execCopyRecordRead, hrun, hc, hb, Bool.not_true, Bool.false_eq_true, if_false]

/-- A row of an untwinned channel is checked whole, then performed. -/
theorem execCopyRow_untwinned {r : CpRec} {i : Nat} (hc : (s.chan core ch).cur = some r) (hb : r.begun = true) (hst : r.status = stOk)
    (hi : i < recRows r.rec_) (hrow : r.rows.contains i = false) :
    let row : Eng := { chanEng s core ch with id := cpRow (s.chan core ch) i, pc := r.at_.getD 0#64 }
    engPending (s.core core) row row.id = false → twinOf s (chanEng s core ch).pasid core = none →
    execCopyRow core ch i s =
      let failed := fun (t : State) (st : Byte) => t.modChan core ch fun c => { c with cur := c.cur.map fun (r : CpRec) => { r with status := st } }
      match rowParts s row r i with
      | .fail s st => .next (failed (dropKept s core fun k => k.path == row.path && k.id == row.id) st)
      | .wait s => .next s
      | .ok u (a, b) => rowOut core ch i u (ER.fin ((readPieces u row a).bind fun s bs =>
            rowWrite s row ch (copyUnit (rowSrc r.rec_ i) (rowDst r.rec_ i)) none r b bs) row row.id) := by
  intro row hp htw
  have hgo : (!chanRuns s core ch || !r.begun || r.status != stOk || decide (recRows r.rec_ ≤ i) || r.rows.contains i
      || engPending (s.core core) row row.id) = false := by
    simp only [hrun, hb, hst, hrow, hp, Nat.not_le.2 hi, bne_self_eq_false, decide_false, Bool.not_true, Bool.or_self]
  simp only [execCopyRow, hc]
  refine (if_neg (by simp only [Bool.not_eq_true]; exact hgo)).trans ?_
  simp only [htw, Option.any_none, Bool.false_and, Bool.false_eq_true, if_false, Option.isSome_none]
  rfl

end

section
variable {s : State} {core ch : Nat} {r : CpRec} (hc : (s.chan core ch).cur = some r)
include hc

/-- The bit of a chunk that is complete reaches every receiving core, where they all hold the map (R290). -/
theorem execChunkSignal_sends {i : Nat} (hh : (s.core core).holds = false) (hcm : recCmen r.rec_ = true) (hr : r.rows ≠ [])
    (hi : i < recChunks r.rec_) (hn : r.chunks.contains i = false) (hd : chunkDone r i = true) (hb : chanHeldBack s core ch = false) :
    let holds := fun (t : State) (g : Nat) => signalHeld t (chanEng s core ch).pasid g (·.cmMask.getLsbD (recCmap r.rec_))
    (r.sigs core).all (holds s) = true →
    execChunkSignal core ch i s = .next (((r.sigs core).foldl (fun t g => if holds t g then t.modCore g fun k =>
        k.cmPut (recCmap r.rec_) (((k.cmaps[recCmap r.rec_]?).getD 0#512) ||| (1#512 <<< (recCmbit0 r.rec_ + i))) else t) s).modChan
      core ch fun c => { c with cur := c.cur.map fun r => { r with chunks := setAdd r.chunks i, drop := r.drop || false } }) := by
  intro holds hall
  have hempty : r.rows.isEmpty = false := by simpa using hr
  have hdrop : ((r.sigs core).any fun g => !signalHeld s (chanEng s core ch).pasid g (·.cmMask.getLsbD (recCmap r.rec_))) = false := by
    rw [← Bool.not_eq_true, List.any_eq_true]
    rintro ⟨g, hg, hno⟩
    have hyes := List.all_eq_true.1 hall g hg
    simp only [holds] at hyes
    simp [hyes] at hno
  simp only [execChunkSignal, hc, hh, hcm, hempty, hn, hd, hb, hdrop, Nat.not_le.2 hi, decide_false, Bool.not_true, Bool.or_self,
    Bool.false_eq_true, if_false]
  rfl

/-- A record that has ended with writes still held back closes its batch first (R422). -/
theorem execRecordCompletion_closes (hb : r.begun = true) (hh : (s.chan core ch).tw.held ≠ [])
    (he : r.status ≠ stOk ∨ r.rows.length = recRows r.rec_) : execRecordCompletion core ch s = .next (closeChan s core ch 1) := by
  have hne : (s.chan core ch).tw.held.isEmpty = false := by simpa using hh
  have hend : (r.status != stOk || r.rows.length == recRows r.rec_) = true := by simpa using he
  simp only [execRecordCompletion, hc, hb, hne, hend, Bool.not_false, Bool.and_self, if_true]

section
variable (hh : (s.core core).holds = false) (hb : r.begun = true) (hd : chunkDue r = false) (hbk : chanHeldBack s core ch = false)
include hh hb hd hbk

/-- A record of TCOPY that has failed ends its chain with its status. -/
theorem execRecordCompletion_fails (ha : r.at_ = none) (hst : r.status ≠ stOk) :
    execRecordCompletion core ch s = .next (endChain s core ch r.status) := by
  have hheld : (s.chan core ch).tw.held.isEmpty = true := by
    simp only [chanHeldBack, Bool.or_eq_false_iff, Bool.not_eq_false'] at hbk
    exact hbk.1
  have hne : (r.status == stOk) = false := beq_eq_false_iff_ne.2 hst
  have hne' : (r.status != stOk) = true := bne_iff_ne.2 hst
  have hfin : finalStatus s core (chanEng s core ch).pasid r = r.status := by rw [finalStatus, if_pos hne']
  simp only [execRecordCompletion, hc, hh, hb, hd, hbk, hheld, hne, hne', ha, hfin, hst, decide_false, Bool.not_true, Bool.and_false,
    Bool.false_and, Bool.or_self, Bool.false_eq_true, if_false, if_true]

/-- The increment of the semaphore at every receiving core (R290). -/
def signalSem (core : Nat) (r : CpRec) (t : State) : State :=
  if recSemen r.rec_ then (r.sigs core).foldl (fun t g => t.modCore g fun k =>
    k.semPut (recSem r.rec_) (satAdd ((k.sems[recSem r.rec_]?).getD 0#32) 1#32)) t else t
/-- The end of the last record of a chain. -/
def lastRec (core ch : Nat) (r : CpRec) (t : State) : State :=
  endChain ((recEnd (signalSem core r t) core ch stOk).modChan core ch fun c => { c with done := c.done + 1, next := 0#64 }) core ch stOk

/-- The engine that writes a record's STATUS. -/
def statusEng (s : State) (core ch : Nat) (q : Dword) : Eng := { chanEng s core ch with id := cpStId (s.chan core ch), pc := q }

section
variable (hst : r.status = stOk) (hf : recFull r = true) (hdr : r.drop = false) (hfar : r.far = false) (hn : recNext r.rec_ = 0#64)
  (hsem : recSemen r.rec_ = true →
    (r.sigs core).all (fun g => signalHeld s (chanEng s core ch).pasid g (·.semMask.getLsbD (recSem r.rec_))) = true)
include hst hdr hfar hsem

omit hc hh hb hd hbk in
/-- A record all of whose signals are held, and which has not failed, ends with OK. -/
theorem finalStatus_ok : finalStatus s core (chanEng s core ch).pasid r = stOk := by
  have hsig : (recSemen r.rec_ && (r.sigs core).any fun g => !signalHeld s (chanEng s core ch).pasid g (·.semMask.getLsbD (recSem r.rec_)))
      = false := by
    rw [← Bool.not_eq_true, Bool.and_eq_true, List.any_eq_true]
    rintro ⟨hen, g, hg, hno⟩
    have hyes := List.all_eq_true.1 (hsem hen) g hg
    simp [hyes] at hno
  simp only [finalStatus, hst, hdr, hfar, hsig, bne_self_eq_false, Bool.false_and, Bool.or_self, Bool.false_eq_true, if_false]

include hf hn

/-- The last record of TCOPY, performed whole, ends with its semaphore. -/
theorem execRecordCompletion_last (ha : r.at_ = none) : execRecordCompletion core ch s = .next (lastRec core ch r s) := by
  have hheld : (s.chan core ch).tw.held.isEmpty = true := by
    simp only [chanHeldBack, Bool.or_eq_false_iff, Bool.not_eq_false'] at hbk
    exact hbk.1
  simp only [execRecordCompletion, hc, hh, hb, hd, hbk, hheld, hst, hf, ha, hn, finalStatus_ok hst hdr hfar hsem, bne_self_eq_false,
    Bool.not_true, Bool.and_false, Bool.or_self, Bool.false_eq_true, if_false, if_true, decide_true, Bool.true_and]
  rfl

/-- The last record of a chain, performed whole, has its status written first. -/
theorem execRecordCompletion_last_status {q : Dword} {u v : State} {a : List Piece} (ha : r.at_ = some q)
    (hp : engPending (s.core core) (statusEng s core ch q) (cpStId (s.chan core ch)) = false)
    (hparts : engParts s (statusEng s core ch q) (cpStId (s.chan core ch)) q needW (pieceCheck · (statusEng s core ch q) needW ·)
      (lineParts (q + 44#64) 4) = .ok u a)
    (htw : twinOf u (chanEng s core ch).pasid core = none)
    (hw : ER.fin (writePieces u (statusEng s core ch q) 4 a ((leBytes 4 (recStatus r.rec_ stOk)).map fun b => (b, false)))
      (statusEng s core ch q) (cpStId (s.chan core ch)) = .ok v ()) :
    execRecordCompletion core ch s = .next (lastRec core ch r v) := by
  have hheld : (s.chan core ch).tw.held.isEmpty = true := by
    simp only [chanHeldBack, Bool.or_eq_false_iff, Bool.not_eq_false'] at hbk
    exact hbk.1
  simp only [statusEng] at hp hparts hw
  simp only [execRecordCompletion, hc, hh, hb, hd, hbk, hheld, hst, hf, ha, hn, finalStatus_ok hst hdr hfar hsem, Option.getD_some, hp,
    hparts, htw, hw, ER.bind, bne_self_eq_false, Bool.not_true, Bool.and_false, Bool.or_self, Bool.false_eq_true, if_false, if_true,
    decide_true, Bool.true_and]
  rfl

end

end

end

/-- The oldest write of a window port is kept back at a core that is halted, and lands otherwise. -/
theorem execInboundWindowWrite_takes {s : State} {core : Nat} {m : InMsg} {rest : List InMsg} (h : (s.core core).inW = m :: rest) :
    execInboundWindowWrite core s =
      let t := s.modCore core fun k => { k with inW := rest }
      if (t.core core).holds then .next (t.modCore core fun k => { k with bpw := k.bpw ++ [m] })
      else
        let ok := fun (e : LaneAcc × Nat) => winHeld t core ((e.2 - winBase) % 0x1000000) e.1.size m.acc.pasid m.acc.scr
        .next (endAway (landMsg t core m ok) m.core m.acc
          (maskOf fun l => (m.acc.lanes.zip m.pas).any fun e => e.1.lane == l && !ok e) stPerm) := by
  simp only [execInboundWindowWrite, h]

/-! ### The matrix engine (R315, R322, R324) -/

theorem exec_matrixEntryStart (core : Nat) (d : Bool) (s : State) : exec (.matrixEntryStart core d) s = execMatrixEntryStart core d s := rfl
theorem exec_matrixEntryComplete (core : Nat) (d : Bool) (s : State) :
    exec (.matrixEntryComplete core d) s = execMatrixEntryComplete core d s := rfl
theorem exec_governorRelease (core : Nat) (s : State) : exec (.governorRelease core) s = execGovernorRelease core s := rfl

theorem execMatrixEntryStart_starts {s : State} {core : Nat} {drain : Bool} {e : MxEntry} (hh : (s.core core).halted = false)
    (hr : (s.core core).haltReq = false) (hrun : (s.core core).fifo.any (fun e => e.run && e.array != drain) = false)
    (hbest : bestEntry ((firstEntries (s.core core).fifo []).filter fun e =>
      !e.run && e.array != drain && !(((s.core core).wg? e.wg).map (·.stopping)).getD false) = some e) :
    execMatrixEntryStart core drain s = .next (s.modCore core fun k =>
      { k with fifo := updFirst (·.id == e.id) (fun e => { e with run := true }) k.fifo }.govRun) := by
  simp only [execMatrixEntryStart, hh, hr, hrun, hbest, Bool.or_self, Bool.false_eq_true, if_false]

/-- What array cycles leave of the nib engine's and of the budget. -/
theorem govRun_nibLeft (k : Core) : k.govRun.nibLeft = k.nibLeft - min k.nibLeft (k.govNow.toNat - k.govUsed.toNat) := by
  unfold Core.govRun
  dsimp only
  split <;> rfl

/-- The array cycles that the running multiply still needs. -/
def arrayLeft (k : Core) : Nat := match k.fifo.find? fun e => e.run && e.array with | some e => e.left | none => 0

theorem govRun_govUsed (k : Core) : k.govRun.govUsed =
    let room := k.govNow.toNat - k.govUsed.toNat
    BitVec.ofNat 9 (k.govUsed.toNat + min (arrayLeft k) (room - min k.nibLeft room) + min k.nibLeft room) := by
  unfold Core.govRun
  dsimp only
  split <;> rfl

/-- A window that begins stays within its budget (R322). -/
theorem govRun_govUsed_le {k : Core} (h : k.govUsed = 0#9) : k.govRun.govUsed.toNat ≤ k.govNow.toNat := by
  have hlt := k.govNow.isLt
  have h0 : k.govUsed.toNat = 0 := by rw [h]; rfl
  rw [govRun_govUsed]
  simp only [h0, BitVec.toNat_ofNat]
  omega

/-- A window begins where the budget had not stopped the engine. -/
theorem execGovernorRelease_free {s : State} {core : Nat} (h : (s.core core).govBlocked = false) :
    execGovernorRelease core s = .next (s.modCore core fun k => { k with govUsed := 0#9, govNow := k.govB }) := by
  simp only [execGovernorRelease, h, Bool.not_false, if_true]

/-- The core as a window begins in which the engine had waited for its budget. -/
def reopened (tick : Nat) (k : Core) : Core :=
  let k := match k.fifo.find? fun e => e.run && e.array with
    | some e => if e.left = 0 then k else k.modWg e.wg fun g => { g with gstall := g.gstall + Config.waitedCc tick }
    | none => k
  { k with govUsed := 0#9, govNow := k.govB, govBlocked := false }

theorem execGovernorRelease_blocked {s : State} {core : Nat} (h : (s.core core).govBlocked = true) :
    execGovernorRelease core s = .next (s.modCore core fun k => (reopened s.tick k).govRun) := by
  simp only [execGovernorRelease, h, Bool.not_true, Bool.false_eq_true, if_false]
  rfl

theorem reopened_spec (tick : Nat) (k : Core) :
    (reopened tick k).govUsed = 0#9 ∧ (reopened tick k).govNow = k.govB ∧ (reopened tick k).nibLeft = k.nibLeft := by
  unfold reopened
  dsimp only
  split
  · split <;> exact ⟨rfl, rfl, rfl⟩
  · exact ⟨rfl, rfl, rfl⟩

end Machine

/-! ### The obligation -/

theorem syncEvents : Claim.SyncEvents := by
  refine ⟨?arrival, ?write⟩
  case arrival =>
    intro s i a ha hready r b ret
    have hrun := (exec_barrierArrival i s).trans (execBarrierArrival_ready ha (arrivalReady_of hready))
    refine ⟨fun hr hno => ?_, fun hok => ?_⟩
    · refine hrun.trans (if_pos ?_)
      rw [hr, Bool.true_and, Bool.not_eq_true']
      exact hno
    · have hgo : ¬ (a.rmt && !rbarOk r a) = true := by
        obtain h | h := hok <;> simp [h]
      refine ⟨fun hl => ?_, fun hl hp => ?_, fun hl hp => ?_⟩
      · have hpod : (a.level == .pod) = false := beq_eq_false_iff_ne.2 hl
        refine hrun.trans ((if_neg hgo).trans ?_)
        rw [hpod]
        rfl
      · have hpkg : (a.level == .pod && r.pkg.val != 0) = true := by
          rw [hl, beq_self_eq_true, Bool.true_and, bne_iff_ne]
          exact hp
        exact hrun.trans ((if_neg hgo).trans (if_pos hpkg))
      · have hpkg : ¬ (a.level == .pod && r.pkg.val != 0) = true := by
          rw [hl, beq_self_eq_true, Bool.true_and, bne_iff_ne, Classical.not_not]
          exact hp
        exact hrun.trans ((if_neg hgo).trans ((if_neg hpkg).trans (if_pos (by rw [hl]; rfl))))
  case write =>
    intro s core m hm
    rw [exec_syncWrite, execSyncWrite, hm]

theorem copyEvents : Claim.CopyEvents := by
  intro s u v core ch i p r x a b bs st c eng row pasid
  refine ⟨?read, ?goesOn, ?row, ?chunk, ?closes, ?completion, ?inbound⟩
  case read =>
    intro hrun hc hq from_ at0
    refine ⟨fun ht => ?_, fun ht => ?_⟩
    · rw [exec_copyRecordRead, execCopyRecordRead_tcopy hrun hc hq ht]
    · have hread := (exec_copyRecordRead core ch s).trans (execCopyRecordRead_chain hrun hc hq ht)
      refine ⟨fun hok => hread.trans ?_, fun hfail => hread.trans ?_⟩
      · dsimp only
        rw [hok]
      · dsimp only
        rw [hfail]
  case goesOn =>
    intro hrun hc hb
    rw [exec_copyRecordRead, execCopyRecordRead_goesOn hrun hc hb]
  case row =>
    intro hc hrun hb hst hi hrow hp htw failed
    have hgo := (exec_copyRow core ch i s).trans (execCopyRow_untwinned hrun hc hb hst hi hrow hp htw)
    refine ⟨fun hfail => hgo.trans ?_, ?_⟩
    · dsimp only
      rw [hfail]
    · intro hok whole
      refine ⟨fun hw => hgo.trans ?_, fun hw => hgo.trans ?_, fun hw => hgo.trans ?_⟩ <;>
      · dsimp only
        rw [hok]
        exact congrArg (rowOut core ch i u) hw
  case chunk =>
    intro hc hh hcm hr hi hn hd hb tgts holds hall
    rw [exec_chunkSignal, execChunkSignal_sends hc hh hcm hr hi hn hd hb hall]
  case closes =>
    intro hc hb hh he
    rw [exec_recordCompletion, execRecordCompletion_closes hc hb hh he]
  case completion =>
    intro hc hh hb hd hbk
    refine ⟨fun ha hst => ?_, ?_⟩
    · rw [exec_recordCompletion, execRecordCompletion_fails hc hh hb hd hbk ha hst]
    intro hst hf hdr hfar hn tgts hsem sem fin
    refine ⟨fun ha => ?_, ?_⟩
    · exact (exec_recordCompletion core ch s).trans (execRecordCompletion_last hc hh hb hd hbk hst hf hdr hfar hn hsem ha)
    · intro q ha e hp hparts htw hw
      exact (exec_recordCompletion core ch s).trans
        (execRecordCompletion_last_status hc hh hb hd hbk hst hf hdr hfar hn hsem ha hp hparts htw hw)
  case inbound =>
    intro m rest h t
    have hrun := (exec_inboundWindowWrite core s).trans (execInboundWindowWrite_takes h)
    exact ⟨fun hh => hrun.trans (if_pos hh), fun hh => hrun.trans (if_neg (by rw [hh]; simp))⟩

theorem matrixEvents : Claim.MatrixEvents := by
  intro s core drain e g
  refine ⟨fun hh hr hrun hbest => ?_, ?_, fun hc => ?_⟩
  · rw [exec_matrixEntryStart, execMatrixEntryStart_starts hh hr hrun hbest]
  · intro he hg hl r k k2 t
    have hl' : ¬ e.left ≠ 0 := Classical.not_not.2 hl
    refine ⟨fun hb => ?_, fun q n hb => ?_⟩
    · simp only [exec_matrixEntryComplete, execMatrixEntryComplete, he, hg, if_neg hl', hb]
      rfl
    · simp only [exec_matrixEntryComplete, execMatrixEntryComplete, he, hg, if_neg hl', hb]
      rfl
  · have hcore (f : Core → Core) : (s.modCore core f).core core = f (s.core core) :=
      (core_modCore s core core f).trans (if_pos ⟨rfl, hc⟩)
    cases hb : (s.core core).govBlocked with
    | false =>
      refine ⟨_, (exec_governorRelease core s).trans (execGovernorRelease_free hb), fun _ => ?_, fun h => (Bool.noConfusion h), ?_, ?_⟩
      · rw [hcore]
      · rw [hcore]
        exact Nat.zero_le _
      · exact Nat.le_of_eq (by rw [hcore])
    | true =>
      obtain ⟨hused, hnow, hnib⟩ := reopened_spec s.tick (s.core core)
      have h0 : (reopened s.tick (s.core core)).govUsed.toNat = 0 := by rw [hused]; rfl
      refine ⟨_, (exec_governorRelease core s).trans (execGovernorRelease_blocked hb), fun h => (Bool.noConfusion h), fun _ => ?_, ?_, ?_⟩
      · rw [hcore, govRun_nibLeft, hnib, hnow, h0, Nat.sub_zero]
      · rw [hcore, ← hnow]
        exact govRun_govUsed_le hused
      · rw [hcore, govRun_nibLeft, hnib]
        exact Nat.sub_le _ _

/-- Settles O53: each event of the sync unit, the copy channels and the matrix engine is run on the arrival, record or entry that is
there; a window that opens again stays within its budget. -/
theorem engineEvents : Obligations.EngineEvents := ⟨syncEvents, copyEvents, matrixEvents⟩

end Sys2Proof
end

section
/-! PROOFS. The obligation of 17 on the events of the nibs. -/

namespace Sys2Proof

open Machine

namespace Machine

/-! ### Binding (R334, R347) -/

theorem exec_nibBindRequest (core : Nat) (nib : Fin 4) (pasid : BitVec 20) (va : Dword) (cls : Fin 4) (s : State) :
    exec (.nibBindRequest core nib pasid va cls) s = execNibBindRequest core nib pasid va cls s := rfl
theorem exec_nbindComplete (core ni : Nat) (s : State) : exec (.nbindComplete core ni) s = execNbindComplete core ni s := rfl

/-- The engine that reads for a bind. -/
def bindEng (s : State) (core ni : Nat) : Eng :=
  ⟨core, .nib ni, ((s.core core).nib ni).pasid, ((s.core core).nib ni).scribe, 0, ((s.core core).nib ni).descAt, none⟩

section
variable {s : State} {core ni : Nat}

theorem nbindRead_done (h : ((s.core core).nib ni).read = true) : nbindRead s core ni = (s, true) := by
  simp only [nbindRead, h, if_true]

/-- The descriptor is read once (R347). -/
theorem nbindRead_reads (h : ((s.core core).nib ni).read = false) : nbindRead s core ni =
    let n := (s.core core).nib ni
    match nibRead s (bindEng s core ni) (nbId n 0) n.descAt n.descAt 64 with
    | .wait s => (s, false)
    | .fail s st => (bindFail s core ni 5#8 (bindStatus st), false)
    | .ok s bs =>
      let n := { n with desc := BitVec.ofNat 512 (leNat (bs.map (·.1))), read := true }
      if badDesc n then (bindFail s core ni 1#8 0#4, false) else (s.modCore core (·.setNib ni n), true) := by
  simp only [nbindRead, h, Bool.false_eq_true, if_false] <;> rfl

/-- A stage that fails ends the bind. -/
theorem execNbindComplete_stops {u : State} (hl : ((s.core core).nib ni).st = .loading) (h : nbindRead s core ni = (u, false)) :
    execNbindComplete core ni s = .next u := by
  have hld : (((s.core core).nib ni).st != .loading) = false := by rw [hl]; rfl
  simp only [execNbindComplete, hld, h, Stage.next, Bool.not_false, Bool.false_eq_true, if_false, if_true]

/-- The windows' entries in the tables of this device (R334). -/
def bindWins (n : Nib) (a q : Xlat) : List (Nat × Nat) := [(a.to (nibSva n).toNat, strokeBytes n), (q.to (nibTva n).toNat, traceBytes n)]
def ownWins (n : Nib) (a q : Xlat) : List (Nat × Nat) :=
  (if a.home.isNone then (bindWins n a q).take 1 else []) ++ (if q.home.isNone then (bindWins n a q).drop 1 else [])
/-- The windows lie in their pages, and clear of one another and of every bound window. -/
def winsGood (u : State) (n : Nib) (a q : Xlat) : Prop :=
  (nibSva n).toNat % 64 = 0 ∧ (nibTva n).toNat % 64 = 0 ∧ winOk a (nibSva n) (strokeBytes n) = true
    ∧ winOk q (nibTva n) (traceBytes n) = true ∧ apart (bindWins n a q) = true ∧ (bindWins n a q).any (fun x => (allWindows u).any (meets x)) = false
/-- A table has no room for its windows. -/
def winsFull (u : State) (n : Nib) (a q : Xlat) : Bool :=
  (ownWins n a q).any fun x => decide (2048 < tableUsed u (homeDie x.1) + ((ownWins n a q).filter fun y => homeDie y.1 == homeDie x.1).length)

section
variable {u : State} (hw : ((s.core core).nib ni).win = none)
include hw

theorem nbindAllot_noPage (hb : bindWindows s { bindEng s core ni with id := nbId ((s.core core).nib ni) 1 } ((s.core core).nib ni) = .ok u none) :
    nbindAllot s core ni = (bindFail u core ni 3#8 0#4, false) := by
  simp only [bindEng] at hb
  simp only [nbindAllot, hw, hb, Option.isSome_none, Bool.false_eq_true, if_false]

variable {a q : Xlat}
  (hb : bindWindows s { bindEng s core ni with id := nbId ((s.core core).nib ni) 1 } ((s.core core).nib ni) = .ok u (some (a, q)))
include hb

/-- Windows that are misplaced end the bind (R334). -/
theorem nbindAllot_misplaced (hg : ¬ winsGood u ((s.core core).nib ni) a q) : nbindAllot s core ni = (bindFail u core ni 3#8 0#4, false) := by
  simp only [bindEng] at hb
  simp only [nbindAllot, hw, hb, Option.isSome_none, Bool.false_eq_true, if_false]
  refine if_pos ?_
  rw [← Bool.not_eq_false]
  intro hall
  simp only [Bool.or_eq_false_iff, decide_eq_false_iff_not, Classical.not_not, ne_eq, Bool.not_eq_false'] at hall
  obtain ⟨⟨⟨⟨⟨h1, h2⟩, h3⟩, h4⟩, h5⟩, h6⟩ := hall
  exact hg ⟨h1, h2, h3, h4, h5, h6⟩

/-- Windows in place are allotted, unless the device of a pod page turns the bind away, or there is no room. -/
theorem nbindAllot_placed (hg : winsGood u ((s.core core).nib ni) a q) : nbindAllot s core ni =
    match podRefusal u a q with
    | some code => (bindFail u core ni code 0#4, false)
    | none => match freeGrans (u.core core) ((s.core core).nib ni).grans with
      | none => (bindFail u core ni 2#8 0#4, false)
      | some g =>
        if winsFull u ((s.core core).nib ni) a q then (bindFail u core ni 4#8 0#4, false)
        else (u.modCore core (·.modNib ni fun n => { n with win := some (a, q), gran := g, granN := n.grans }), true) := by
  obtain ⟨h1, h2, h3, h4, h5, h6⟩ := hg
  simp only [bindWins] at h5 h6
  simp only [bindEng] at hb
  simp only [nbindAllot, hw, hb, h1, h2, h3, h4, h5, h6, Option.isSome_none, Bool.false_eq_true, if_false, ne_eq, not_true_eq_false,
    decide_false, Bool.not_true, Bool.or_self]
  rfl

end

/-- One row is read and kept (R347). -/
theorem nbindRows_reads {u : State} {i : Nat} {t : List Nat} {bs : List (Byte × Bool)}
    (hg : ((s.core core).nib ni).got.any (·.1 == i) = false)
    (hr : nibRead s (bindEng s core ni) (nbId ((s.core core).nib ni) (2 + i)) ((s.core core).nib ni).descAt
      (((s.core core).nib ni).desc.extractLsb' 0 64 + BitVec.ofNat 64 (i * nibBits ((s.core core).nib ni).desc 192 32))
      ((s.core core).nib ni).rowBytes = .ok u bs) :
    nbindRows core ni (i :: t) s = nbindRows core ni t (u.modCore core (·.modNib ni fun n => { n with got := n.got ++ [(i, bs)] })) := by
  simp only [bindEng] at hr
  simp only [nbindRows, hg, hr, Bool.false_eq_true, if_false]

/-- Once every step is done, the nib is bound. -/
theorem execNbindComplete_binds {u v w : State} {a q : Xlat} (hl : ((s.core core).nib ni).st = .loading)
    (hr : nbindRead s core ni = (u, true)) (ha : nbindAllot u core ni = (v, true))
    (hrows : nbindRows core ni (List.range ((v.core core).nib ni).rows) v = (w, true)) (hwin : ((w.core core).nib ni).win = some (a, q)) :
    let d := (w.core core).nib ni
    execNbindComplete core ni s = .next (bindDone w core ni d
      ((List.range d.rows).map fun i => ((d.got.find? (·.1 == i)).map (·.2)).getD []) a q) := by
  have hld : (((s.core core).nib ni).st != .loading) = false := by rw [hl]; rfl
  simp only [execNbindComplete, hld, hr, Stage.next, ha, hrows, hwin, Bool.not_true, Bool.false_eq_true, if_false, if_true]

end

/-! ### The nib engine (R335 to R349) -/

theorem exec_strokeStore (core : Nat) (s : State) : exec (.strokeStore core) s = execStrokeStore core s := rfl
theorem exec_consume (core : Nat) (s : State) : exec (.consume core) s = execConsume core s := rfl
theorem exec_strokeLoad (core : Nat) (s : State) : exec (.strokeLoad core) s = execStrokeLoad core s := rfl
theorem exec_traceLoad (core : Nat) (s : State) : exec (.traceLoad core) s = execTraceLoad core s := rfl
theorem exec_waitLimitExpiry (core ni i : Nat) (s : State) : exec (.waitLimitExpiry core ni i) s = execWaitLimitExpiry core ni i s := rfl
theorem exec_fillLimitExpiry (core ni i : Nat) (s : State) : exec (.fillLimitExpiry core ni i) s = execFillLimitExpiry core ni i s := rfl
theorem exec_nibPass (core : Nat) (s : State) : exec (.nibPass core) s = execNibPass core s := rfl
theorem exec_nibApplicationDone (core : Nat) (s : State) : exec (.nibApplicationDone core) s = execNibApplicationDone core s := rfl

section
variable {s : State} {core c b z ni : Nat} {m : InMsg} {rest : List InMsg} (hin : (s.core core).nibIn = m :: rest)
include hin

/-- The message at the head of the engine's queue, with the window that it lies in. -/
theorem nibHead_of {trace : Bool} (hw : nibWindow s ((m.pas.head?).getD 0) 1 = some (b, z, trace, c, ni)) :
    nibHead s core = some (m, some (b, z, trace, c, ni)) := by
  simp only [nibHead, hin, hw]

theorem execStrokeStore_head (hw : nibWindow s ((m.pas.head?).getD 0) 1 = some (b, z, false, c, ni)) (hk : m.acc.kind = .store) :
    execStrokeStore core s = .next (
      let r := strokeStore ((popNib s core).core c) ni (coreSource s m.core)
        ((((m.pas.head?).getD 0) - b) / Nat.max 1 ((s.core c).nib ni).ssz) (msgBytes m b ((s.core c).nib ni).ssz)
      endStore ((popNib s core).setCore c r.1) c m r.2) := by
  have hst : ¬ (m.acc.kind != .store) = true := by simp [hk]
  simp only [execStrokeStore, nibHead_of hin hw, if_neg hst]

theorem execConsume_head (hw : nibWindow s ((m.pas.head?).getD 0) 1 = some (b, z, true, c, ni)) (hk : m.acc.kind = .store) :
    execConsume core s = .next (
      let r := traceStore ((popNib s core).core c) ni (coreSource s m.core) (((m.pas.head?).getD 0) - b)
      endStore ((popNib s core).setCore c r.1) c m r.2) := by
  have hst : ¬ (m.acc.kind != .store) = true := by simp [hk]
  simp only [execConsume, nibHead_of hin hw, if_neg hst]

theorem execStrokeLoad_head (hw : nibWindow s ((m.pas.head?).getD 0) 1 = some (b, z, false, c, ni)) (hk : m.acc.kind ≠ .store) :
    execStrokeLoad core s = .next (endLoad (popNib s core) m.core m.acc [] m.acc.mask stPerm) := by
  have hst : ¬ (m.acc.kind == .store) = true := by simp [hk]
  simp only [execStrokeLoad, nibHead_of hin hw, if_neg hst]

section
variable (hw : nibWindow s ((m.pas.head?).getD 0) 1 = some (b, z, true, c, ni)) (hk : m.acc.kind = .load)
  (hr : inSet (((popNib s core).core c).nib ni).readers (coreSource (popNib s core) m.core) = true)
include hw hk hr

/-- A load of a trace slot that holds its result is answered from it (R343). -/
theorem execTraceLoad_done :
    let t := popNib s core
    let n := (t.core c).nib ni
    let j := (((m.pas.head?).getD 0) - b) / Nat.max 1 n.tsz
    (n.slot j).st = .done → execTraceLoad core s =
      .next (endLoad (nibAcquire t c m.core m.acc) m.core m.acc (loadWrites n (some (n.slot j)) m.acc m.pas) 0#32 0#4) := by
  intro t n j hd
  have hst : (m.acc.kind == .store) = false := by rw [hk]; rfl
  have hnl : (m.acc.kind == .nldc) = false := by rw [hk]; rfl
  simp only [execTraceLoad, nibHead_of hin hw, hst, hr, Bool.not_true, Bool.false_eq_true, if_false]
  simp only [n, j, t] at hd
  simp only [hd, hnl, Bool.false_and, Bool.false_eq_true, if_false, if_true]
  rfl

/-- One of a slot that is READY waits at the nib. -/
theorem execTraceLoad_waits :
    let t := popNib s core
    let n := (t.core c).nib ni
    let j := (((m.pas.head?).getD 0) - b) / Nat.max 1 n.tsz
    (n.slot j).st = .ready → nibBits n.desc 292 16 ≠ 0 → execTraceLoad core s =
      .next (t.modCore c (·.modNib ni fun n => { n with loads := n.loads ++ [⟨m.core, m.acc, m.pas, j⟩] })) := by
  intro t n j hd hz
  have hst : (m.acc.kind == .store) = false := by rw [hk]; rfl
  simp only [execTraceLoad, nibHead_of hin hw, hst, hr, Bool.not_true, Bool.false_eq_true, if_false]
  simp only [n, j, t] at hd hz
  simp only [hd, if_neg hz]
  rfl

end

end

section
variable {s : State} {core ni : Nat}

/-- The wait of a load ends with poison (R343). -/
theorem execWaitLimitExpiry_ends {i : Nat} {l : NibLoad} (hl : ((s.core core).nib ni).loads[i]? = some l) :
    execWaitLimitExpiry core ni i s = .next (endWait (s.modCore core (·.modNib ni fun n =>
      { n with loads := n.loads.eraseIdx i, nrcnt := n.nrcnt + 1, lastNr := BitVec.ofNat 8 l.slot })) core ((s.core core).nib ni) none l) := by
  simp only [execWaitLimitExpiry, hl]
  rfl

/-- A fill that takes too long fails its slot (R340). -/
theorem execFillLimitExpiry_fails {sl : Nat} (hf : (((s.core core).nib ni).slot sl).st = .filling)
    (hz : nibBits ((s.core core).nib ni).desc 276 16 ≠ 0) :
    execFillLimitExpiry core ni sl s = .next (serveLoads (s.modCore core (·.modNib ni fun n =>
      { n.setSlot sl { Slot.fresh with st := .failed, owner := (n.slot sl).owner } with failcnt := n.failcnt + 1 })) core ni (· == sl) true) := by
  have hgo : ¬ ((((s.core core).nib ni).slot sl).st != .filling || nibBits ((s.core core).nib ni).desc 276 16 == 0) = true := by
    simp [hf, hz]
  simp only [execFillLimitExpiry, if_neg hgo]

/-- A pass takes the oldest READY slots of the nib that is to be served (R341). -/
theorem execNibPass_takes (hb : (s.core core).nibs.toList.any Nib.busy = false) (ha : arrayWanted (s.core core) = false)
    (hn : bestNib (s.core core) = some ni) :
    let n := (s.core core).nib ni
    let mine := (readySlots n).take 64
    execNibPass core s = .next (s.modCore core fun k => { k.setNib ni (mine.foldl (fun (n : Nib) (e : Nat × Nat) =>
      n.setSlot e.2 { n.slot e.2 with st := .applying }) n) with nibLeft := mine.length * n.cycles }.govRun) := by
  simp only [execNibPass, hb, ha, hn, Bool.or_self, Bool.false_eq_true, if_false]

/-- The slot of an application that is done takes its result (R341, R345). -/
theorem execNibApplicationDone_done {sl : Nat} (hl : (s.core core).nibLeft = 0) (hn : nextApplying (s.core core) = some (ni, sl))
    (hd : (((s.core core).nib ni).slot sl).drop = false) (hu : ((s.core core).nib ni).unbind = false) :
    let n := (s.core core).nib ni
    let r := nibApply s.tick (s.core core) n (n.slot sl)
    execNibApplicationDone core s = .next (serveLoads (s.modCore core (·.setNib ni
      { n.setSlot sl { n.slot sl with st := .done, res := r.1, rpois := r.2.1 } with appcnt := n.appcnt + 1, nflags := n.nflags ||| r.2.2 }))
      core ni (· == sl) true) := by
  have hset (x : Slot) : (((s.core core).nib ni).setSlot sl x).unbind = false := hu
  simp only [execNibApplicationDone, hl, hn, hd, hset, ne_eq, not_true_eq_false, Bool.false_and, Bool.false_eq_true, if_false]

end

end Machine

/-! ### The obligation -/

theorem nibBinding : Claim.NibBinding := by
  intro s u v w core ni g nib pasid va cls a q bs st n e e1 wins mine good full
  refine ⟨?request, ?read, nbindRead_done, ?allot, ?rows, ?binds, ?idle⟩
  case request =>
    intro hoff hst hwg hal hcan
    have hgo : ¬ (s.fuses.off.contains core || ((s.core core).nib nib.val).st != .unbound || ((s.core core).nib nib.val).wg.isSome
        || va.toNat % 64 != 0 || !canonical va) = true := by
      rw [hoff, hst, hwg, hal, hcan]
      decide
    exact (exec_nibBindRequest core nib pasid va cls s).trans (if_neg hgo)
  case read =>
    intro hl hr
    have hrun := nbindRead_reads hr
    refine ⟨fun hf => ?_, ?_⟩
    · refine (exec_nbindComplete core ni s).trans (execNbindComplete_stops hl (hrun.trans ?_))
      dsimp only
      rw [show nibRead s (bindEng s core ni) _ _ _ 64 = _ from hf]
    · intro hok d
      have hrun' : nbindRead s core ni = if badDesc d then (bindFail u core ni 1#8 0#4, false) else (u.modCore core (·.setNib ni d), true) := by
        refine hrun.trans ?_
        dsimp only
        rw [show nibRead s (bindEng s core ni) _ _ _ 64 = _ from hok]
      refine ⟨fun hb => ?_, fun hb => hrun'.trans (if_neg (by rw [hb]; simp))⟩
      exact (exec_nbindComplete core ni s).trans (execNbindComplete_stops hl (hrun'.trans (if_pos hb)))
  case allot =>
    intro hw
    refine ⟨nbindAllot_noPage hw, fun hb => ⟨nbindAllot_misplaced hw hb, fun hg hf => ?_, fun hg hf hfull => ?_, fun hg hf hfull => ?_⟩⟩
    all_goals
      have hrun := nbindAllot_placed hw hb hg
      have hf' : freeGrans (u.core core) ((s.core core).nib ni).grans = _ := hf
      rw [hrun, hf']
    · cases podRefusal u a q <;> rfl
    · have hfull' : winsFull u ((s.core core).nib ni) a q = true := hfull
      cases podRefusal u a q
      · simp only [hfull', if_true, Option.getD_none]
      · rfl
    · have hfull' : winsFull u ((s.core core).nib ni) a q = false := hfull
      cases podRefusal u a q
      · simp only [hfull', Bool.false_eq_true, if_false]
      · rfl
  case rows => exact fun i t hg hr => nbindRows_reads hg hr
  case binds =>
    intro hl hr ha hrows hwin
    exact (exec_nbindComplete core ni s).trans (execNbindComplete_binds hl hr ha hrows hwin)
  case idle =>
    intro hl
    exact (exec_nbindComplete core ni s).trans (if_pos (bne_iff_ne.2 hl))

theorem nibEngine : Claim.NibEngine := by
  intro s core ni sl c b z i m rest
  refine ⟨?head, fun l hl => ?_, fun hf hz => ?_, ?pass, ?apply⟩
  case head =>
    intro hin t off
    refine ⟨fun hw hk => ?_, fun hw hk => ?_, fun hw hk => ?_, ?_⟩
    · rw [exec_strokeStore, execStrokeStore_head hin hw hk]
    · rw [exec_consume, execConsume_head hin hw hk]
    · rw [exec_strokeLoad, execStrokeLoad_head hin hw hk]
      rfl
    · intro hw hk n j hr
      exact ⟨fun hd => (exec_traceLoad core s).trans (execTraceLoad_done hin hw hk hr hd),
        fun hd hz => (exec_traceLoad core s).trans (execTraceLoad_waits hin hw hk hr hd hz)⟩
  case pass =>
    intro hb ha hn n mine
    exact (exec_nibPass core s).trans (execNibPass_takes hb ha hn)
  case apply =>
    intro hl hn hd hu n r
    exact (exec_nibApplicationDone core s).trans (execNibApplicationDone_done hl hn hd hu)
  · rw [exec_waitLimitExpiry, execWaitLimitExpiry_ends hl]
  · rw [exec_fillLimitExpiry, execFillLimitExpiry_fails hf hz]

/-- Settles O54: a bind goes through its stages, each by the lemma about it; each event of the engine is run on the message or the slot
that is there. -/
theorem nibEvents : Obligations.NibEvents := ⟨nibBinding, nibEngine⟩

end Sys2Proof
end

section
/-! PROOFS. The obligation of 19 and 20 on the events of task graphs. -/

namespace Sys2Proof

open Machine

namespace Machine

theorem exec_submit (die : Nat) (s : State) : exec (.submit die) s = execSubmit die s := rfl
theorem exec_successorDecrement (die : Nat) (s : State) : exec (.successorDecrement die) s = execSuccessorDecrement die s := rfl
theorem exec_condNode (g n : Nat) (s : State) : exec (.condNode g n) s = evalNode 1 g n s := rfl
theorem exec_whileNode (g n : Nat) (s : State) : exec (.whileNode g n) s = evalNode 2 g n s := rfl
theorem exec_taskRetirement (g n : Nat) (s : State) : exec (.taskRetirement g n) s = execTaskRetirement g n s := rfl
theorem exec_workgroupRetirement (c g : Nat) (s : State) : exec (.workgroupRetirement c g) s = execWorkgroupRetirement c g s := rfl
theorem exec_gangPlacement (g n : Nat) (p : Place) (s : State) : exec (.gangPlacement g n p) s = execGangPlacement g n p s := rfl
theorem exec_gridPlacement (g n : Nat) (ps : List Place) (s : State) : exec (.gridPlacement g n ps) s = execGridPlacement g n ps s := rfl
theorem exec_placementWaitExpiry (g n : Nat) (qs : List (Fin 4 × Fin 24)) (s : State) :
    exec (.placementWaitExpiry g n qs) s = execPlacementWaitExpiry g n qs s := rfl

/-! ### SUBMIT (R364) -/

section
variable {s : State} {die : Nat} {seq : Word} {e : BitVec 512} (hm : h2dMsg s 0x01 = some (seq, e))
include hm

/-- A malformed message is refused. -/
theorem execSubmit_refuses (h : bodyOk e submitFields = false ∨ fld e 80 16 = 0 ∨ (e.extractLsb' 96 64).toNat % 128 ≠ 0) :
    execSubmit die s = .next (h2dRefuse s seq) := by
  simp only [execSubmit, hm]
  refine if_pos ?_
  simpa only [Bool.or_eq_true, Bool.not_eq_true', decide_eq_true_eq, or_assoc] using h

/-- A well-formed one of this die has its nodes read. -/
theorem execSubmit_reads (hb : bodyOk e submitFields = true) (hn : fld e 80 16 ≠ 0) (ht : (e.extractLsb' 96 64).toNat % 128 = 0)
    (hd : fld e 48 2 = die) (hr : d2hRoom s 1 = true) : execSubmit die s =
      let table : Dword := e.extractLsb' 96 64
      let pasid : BitVec 20 := e.extractLsb' 52 20
      let tag : Word := e.extractLsb' 160 32
      match readNodes s die pasid table (fld e 80 16) (fld e 80 16) 0 with
      | .wait s => .next s
      | .fail s _ => .next s
      | .ok s (.error (i, st)) =>
        .next (h2dTake (d2hRaise (cpuWrite s die pasid (table + BitVec.ofNat 64 (128 * i + 84)) [BitVec.ofNat 8 st]) 0x82
          [(48, tag.toNat), (80, die), (88, st), (96, i)]) seq)
      | .ok s (.ok nodes) => .next (endGraphs (startGraph (h2dTake s seq) die ⟨newGraphId s die, tag, pasid, table, nodes, none⟩) die) := by
  simp only [execSubmit, hm, hb, hn, ht, hd, hr, decide_false, ne_eq, not_true_eq_false, Bool.not_true, Bool.or_self, Bool.false_eq_true,
    if_false] <;> rfl

end

/-! ### SUCCESSOR_DECREMENT (R365, R366) -/

/-- The oldest decrement of a die reaches its node. -/
theorem execSuccessorDecrement_oldest {s : State} {die id n : Nat} {run : Bool} {rest : List (Nat × Nat × Bool)} {x : Node}
    (hd : (s.die die).decs = (id, n, run) :: rest) :
    let t := s.modDie die fun k => { k with decs := rest }
    t.node? die id n = some x → execSuccessorDecrement die s =
      if x.status = 1 || x.status = 2 || x.release then .next (t.modNode die id n fun x => { x with held := x.held ++ [run] })
      else if x.pred = 0 then .next (endGraphs (failNode t die id n 6) die)
      else
        let v := (setPred t die id n (x.pred - 1)).modNode die id n fun x => { x with runMk := x.runMk || run }
        if x.pred = 1 then .next (endGraphs (if x.runMk || run then makeReady v die id n else retireNode v die id n 4 false) die)
        else .next v := by
  intro t hx
  simp only [t] at hx
  simp only [execSuccessorDecrement, hd, hx] <;> rfl

/-! ### Conditions (R362, R365) -/

/-- A READY node of its kind, in a graph that has not failed, reads its word. -/
theorem evalNode_ready {s : State} {graph node kind : Nat} {x : Node} {g : Graph} (hx : s.node? (graphDie graph) graph node = some x)
    (hst : x.status = 1) (hg : (s.die (graphDie graph)).graph? graph = some g) (hf : g.fail = none) (hk : tcbKind x.tcb = kind) :
    evalNode kind graph node s =
      let d := graphDie graph
      match cpuRead s d (tcbPasid x.tcb) (tcbCondw x.tcb) 8 with
      | .wait s => .next s
      | .fail s _ => .next (endGraphs (retireFailed (setStatus s d graph node 2) d graph node 7) d)
      | .ok s v => .next (endGraphs (retireNode (setStatus s d graph node 2) d graph node 3 (v != 0)) d) := by
  have hok : graphFailed s (graphDie graph) graph = false := by
    simp only [graphFailed, hg, Option.map_some, hf, Option.getD_some]
    rfl
  simp only [evalNode, hx, hst, hk, hok, ne_eq, not_true_eq_false, decide_false, Bool.or_self, Bool.false_eq_true, if_false] <;> rfl

/-! ### Retirement (R366, R368, R389) -/

/-- A RUNNING task whose last gang has retired. -/
theorem execTaskRetirement_running {s : State} {graph node : Nat} {x : Node} (hx : s.node? (graphDie graph) graph node = some x)
    (hst : x.status = 2) (hk : tcbKind x.tcb = 0) (hp : x.placed = 0) : execTaskRetirement graph node s =
      let d := graphDie graph
      match x.doom with
      | some st => .next (endGraphs (retireFailed (dropWide s d graph node) d graph node st) d)
      | none =>
        if x.next < tcbNgang x.tcb || !x.back.isEmpty then .next (endGraphs s d)
        else .next (endGraphs (retireNode (dropWide s d graph node) d graph node 3 false) d) := by
  simp only [execTaskRetirement, hx, hst, hk, hp, ne_eq, not_true_eq_false, decide_false, Bool.or_self, Bool.false_eq_true, if_false] <;> rfl

/-! ### Placement (R369 to R373) -/

section
variable {s u : State} {graph node : Nat} {w : Nat × Nat × Node}
  (hw : (waiting (checkKd s (graphDie graph) graph node) (graphDie graph)).find? (fun y => y.1 == graph && y.2.1 == node) = some w)
include hw

/-- A waiting node whose checks or reads fail. -/
theorem execGangPlacement_fails (p : Place) {st : BitVec 4}
    (h : prepare (checkKd s (graphDie graph) graph node) (graphDie graph) graph node w.2.2 = .fail u st) :
    execGangPlacement graph node p s = .next (endGraphs (failNode u (graphDie graph) graph node st.toNat) (graphDie graph)) := by
  simp only [execGangPlacement, hw, h]

variable {x : Node} (hp : prepare (checkKd s (graphDie graph) graph node) (graphDie graph) graph node w.2.2 = .ok u x)
include hp

/-- A waiting node that is prepared has its next gang placed, unless another goes first. -/
theorem execGangPlacement_prepared (p : Place) : execGangPlacement graph node p s =
    let d := graphDie graph
    if outranked u d x then .next u
    else match x.nextGang, x.kd with
      | some (g, true), _ => match resumeGang u x d graph node g p with
        | some s => .next (placed s d graph node g true)
        | none => .next (preemptFor u d w p)
      | some (g, false), some k =>
        if tcbAllres x.tcb then .next u
        else match placeGang u x k d graph node g p (x.args.getD []) (x.next == 0) true with
          | some s => .next (placed s d graph node g false)
          | none => .next (preemptFor u d w p)
      | _, _ => .next u := by
  simp only [execGangPlacement, hw, hp] <;> rfl

/-- A waiting ALLRES grid that is prepared is placed whole, or not at all. -/
theorem execGridPlacement_prepared {ps : List Place} {k : BitVec 512} (hk : x.kd = some k) (ha : tcbAllres x.tcb = true)
    (hn : x.next = 0) (hl : ps.length = tcbNgang x.tcb) (ho : outranked u (graphDie graph) x = false) :
    execGridPlacement graph node ps s =
      let d := graphDie graph
      match placeAll u (fun s i => (ps[i]?).bind fun p =>
          (placeGang s x k d graph node i p (x.args.getD []) (i == 0) true).map fun s => placed s d graph node i false) (List.range ps.length) with
        | some s => .next s
        | none => .next (preemptGrid u x k d graph node ps) := by
  simp only [execGridPlacement, hw, hp, hk, ha, hn, hl, ho, ne_eq, not_true_eq_false, decide_false, Bool.not_true, Bool.or_self,
    Bool.false_eq_true, if_false] <;> rfl

end

/-- A quad of a die that the node may use is one of its quads. -/
theorem mem_allQuads {t : BitVec 1024} {q : Fin 4 × Fin 24} (h : (tcbDies t).getLsbD q.1.val = true) :
    (allQuads t).contains (24 * q.1.val + q.2.val) = true := by
  have h1 := q.1.isLt
  have h2 := q.2.isLt
  have hdie : (24 * q.1.val + q.2.val) / 24 = q.1.val := by omega
  rw [List.contains_iff_mem, allQuads, List.mem_filter, hdie]
  exact ⟨List.mem_range.2 (by omega), h⟩

/-! ### PREEMPT (R391) -/

/-- The graphs of a tag, with their dies. -/
def taggedGraphs (s : State) (tag : Word) : List (Nat × Nat) :=
  (List.range 4).foldl (fun l d => l ++ ((s.die d).graphs.filter (·.tag == tag)).map fun g => (d, g.id)) []

theorem taggedGraphs_contains (s : State) (tag : Word) (d id : Nat) :
    (taggedGraphs s tag).contains (d, id) = ((s.die d).graphs.any (fun x => x.id == id && x.tag == tag) && decide (d < 4)) := by
  have hflat : taggedGraphs s tag = (List.range 4).flatMap fun d => ((s.die d).graphs.filter (·.tag == tag)).map fun g => (d, g.id) := by
    rw [taggedGraphs, List.flatMap_eq_foldl]
  rw [Bool.eq_iff_iff, List.contains_iff_mem, hflat]
  simp only [List.mem_flatMap, List.mem_range, List.mem_map, List.mem_filter, Prod.mk.injEq, Bool.and_eq_true, List.any_eq_true,
    beq_iff_eq, decide_eq_true_eq]
  constructor
  · rintro ⟨i, hi, g, ⟨hg, ht⟩, rfl, rfl⟩
    exact ⟨⟨g, hg, rfl, ht⟩, hi⟩
  · rintro ⟨⟨g, hg, hid, ht⟩, hi⟩
    exact ⟨d, hi, g, ⟨hg, ht⟩, rfl, hid⟩

/-- The gangs that the message names. -/
def preemptGangs (s : State) (e : BitVec 512) : List Wg :=
  s.cores.toList.flatMap fun k => k.wgs.filter fun g =>
    (s.die g.die).graphs.any (fun x => x.id == g.graph && x.tag == e.extractLsb' 48 32) && g.die < 4
      && g.node == fld e 80 16 && (fld e 96 1 == 1 || g.gang == fld e 128 32)

theorem exec_preempt (s : State) : exec .preempt s =
    onH2d s 0x02 [(48, 32), (80, 16), (96, 1), (128, 32)] (fun e => fld e 96 1 == 0 || fld e 128 32 == 0) fun s e =>
      if (preemptGangs s e).isEmpty then none
      else some ((preemptGangs s e).foldl (fun s g => stopGang s g.die g.graph g.node g.gang) s) := by
  have hgangs (s : State) (e : BitVec 512) : s.cores.toList.foldl (fun (m : List Wg) k => m ++ k.wgs.filter fun g =>
      (taggedGraphs s (e.extractLsb' 48 32)).contains (g.die, g.graph) && g.node == fld e 80 16
        && (fld e 96 1 == 1 || g.gang == fld e 128 32)) [] = preemptGangs s e := by
    rw [← List.flatMap_eq_foldl]
    simp only [taggedGraphs_contains]
    rfl
  simp only [← hgangs]
  rfl

end Machine

/-! ### The obligation -/

theorem submit_holds : Claim.Submit := by
  intro s u die seq e hm n pasid table tag
  refine ⟨fun h => (exec_submit die s).trans (execSubmit_refuses hm h), fun hb hn ht hd hr => ?_⟩
  have hrun := (exec_submit die s).trans (execSubmit_reads hm hb hn ht hd hr)
  refine ⟨fun nodes hok => hrun.trans ?_, fun i st herr => hrun.trans ?_⟩
  · dsimp only
    rw [hok]
  · dsimp only
    rw [herr]

theorem decrement_holds : Claim.Decrement := by
  intro s die id n run rest x hd t hx
  have hrun := (exec_successorDecrement die s).trans (execSuccessorDecrement_oldest hd hx)
  refine ⟨fun hheld => hrun.trans (if_pos ?_), fun h1 h2 hrel => ?_⟩
  · simpa only [Bool.or_eq_true, decide_eq_true_eq, or_assoc] using hheld
  · have hno : ¬ (decide (x.status = 1) || decide (x.status = 2) || x.release) = true := by simp [h1, h2, hrel]
    refine ⟨fun hp => hrun.trans ((if_neg hno).trans (if_pos hp)), ?_⟩
    intro p hp v
    have hp0 : ¬ x.pred = 0 := by omega
    have hsub : x.pred - 1 = p := by omega
    have hgo := hrun.trans ((if_neg hno).trans (if_neg hp0))
    rw [hsub] at hgo
    refine ⟨fun hne => hgo.trans (if_neg (by omega)), fun h0 hr => hgo.trans ((if_pos (by omega)).trans ?_),
      fun h0 hr => hgo.trans ((if_pos (by omega)).trans ?_)⟩
    · rw [if_pos hr]
    · rw [if_neg (by rw [hr]; simp)]

theorem conditions_hold : Claim.Conditions := by
  intro s u graph node x g d hx hst hg hf
  refine ⟨?_, ?_⟩
  · intro w hr t
    refine ⟨fun hk => (exec_condNode graph node s).trans ((evalNode_ready hx hst hg hf hk).trans ?_),
      fun hk => (exec_whileNode graph node s).trans ((evalNode_ready hx hst hg hf hk).trans ?_)⟩ <;>
    · dsimp only
      rw [hr]
  · intro st hr t
    refine ⟨fun hk => (exec_condNode graph node s).trans ((evalNode_ready hx hst hg hf hk).trans ?_),
      fun hk => (exec_whileNode graph node s).trans ((evalNode_ready hx hst hg hf hk).trans ?_)⟩ <;>
    · dsimp only
      rw [hr]

theorem retirement_holds : Claim.Retirement := by
  refine ⟨?task, ?wg⟩
  case task =>
    intro s graph node x d hx hst hk hp
    have hrun := (exec_taskRetirement graph node s).trans (execTaskRetirement_running hx hst hk hp)
    refine ⟨fun st hd => hrun.trans ?_, fun hd hn hb => hrun.trans ?_⟩
    · dsimp only
      rw [hd]
    · dsimp only
      rw [hd]
      refine if_neg ?_
      simp [hb, Nat.not_lt.2 hn]
  case wg =>
    intro s core wg g hg f t
    refine ⟨fun hh => ?_, fun hh he => ?_, fun hh he hs => ?_, fun hh he hs => ⟨fun hd => ⟨fun hc => ?_, fun hc => ?_⟩, fun hd hst => ?_⟩⟩
    · simp only [exec_workgroupRetirement, execWorkgroupRetirement, hg, hh, if_true]
    · simp only [exec_workgroupRetirement, execWorkgroupRetirement, hg, hh, he, Bool.false_eq_true, if_false, if_true]
    · simp only [exec_workgroupRetirement, execWorkgroupRetirement, hg, hh, he, hs, Bool.false_eq_true, if_false, if_true]
    · have hempty : (gangCores t g.die g.graph g.node g.gang).isEmpty = true := by rw [hc]; rfl
      simp only [exec_workgroupRetirement, execWorkgroupRetirement, hg, hh, he, hs, hd, Bool.false_eq_true, if_false, if_true]
      exact congrArg Host.Outcome.next (if_pos hempty)
    · have hempty : ¬ (gangCores t g.die g.graph g.node g.gang).isEmpty = true := by simpa using hc
      simp only [exec_workgroupRetirement, execWorkgroupRetirement, hg, hh, he, hs, hd, Bool.false_eq_true, if_false, if_true]
      exact congrArg Host.Outcome.next (if_neg hempty)
    · simp only [exec_workgroupRetirement, execWorkgroupRetirement, hg, hh, he, hs, hd, hst, Bool.false_eq_true, if_false, if_true]

theorem placement_holds : Claim.Placement := by
  refine ⟨?gang, ?grid, ?wait⟩
  case gang =>
    intro s u v graph node g p w x d hw
    refine ⟨fun st hf => (exec_gangPlacement graph node p s).trans (execGangPlacement_fails hw p hf), fun hp => ?_⟩
    have hrun := (exec_gangPlacement graph node p s).trans (execGangPlacement_prepared hw hp p)
    refine ⟨fun ho => hrun.trans (if_pos ho), fun ho => ?_⟩
    have hgo := hrun.trans (if_neg (by rw [ho]; simp))
    refine ⟨fun hn => ⟨fun hr => hgo.trans ?_, fun hr => hgo.trans ?_⟩, fun k hn hk ha => ⟨fun hr => hgo.trans ?_, fun hr => hgo.trans ?_⟩⟩
    · rw [hn]
      dsimp only
      rw [hr]
    · rw [hn]
      dsimp only
      rw [hr]
    · rw [hn, hk]
      dsimp only
      rw [ha, hr]
      rfl
    · rw [hn, hk]
      dsimp only
      rw [ha, hr]
      rfl
  case grid =>
    intro s u v graph node ps w x k d hw hp hk ha hn hl ho all
    have hrun := (exec_gridPlacement graph node ps s).trans (execGridPlacement_prepared hw hp hk ha hn hl ho)
    refine ⟨fun hall => hrun.trans ?_, fun hall => ⟨fun hf => hrun.trans ?_, fun hf => hrun.trans ?_⟩⟩
    · dsimp only
      rw [show placeAll u _ _ = _ from hall]
    · dsimp only
      rw [show placeAll u _ _ = _ from hall]
      exact congrArg Host.Outcome.next (if_pos hf)
    · dsimp only
      rw [show placeAll u _ _ = _ from hall]
      exact congrArg Host.Outcome.next (if_neg (by rw [hf]; simp))
  case wait =>
    intro s graph node q w d hw hnone ha hq
    have hmem : (!(allQuads w.2.2.tcb).contains (24 * q.1.val + q.2.val)) = false := by rw [mem_allQuads hq]; rfl
    simp only [exec_placementWaitExpiry, execPlacementWaitExpiry]
    rw [show (waiting s (graphDie graph)).find? _ = _ from hw]
    simp only [hnone, ha, hmem, List.map_cons, List.map_nil, List.length_cons, List.length_nil, List.any_cons, List.any_nil, Option.isSome_none,
      Bool.false_and, Bool.false_eq_true, if_false, Nat.zero_add, beq_self_eq_true, Bool.not_true, Bool.or_self]
    rfl

theorem preempt_holds : Claim.Preempt := by
  intro s seq e hm hb ho tag gangs
  have hok : (Machine.fld e 96 1 == 0 || Machine.fld e 128 32 == 0) = true := by simpa using ho
  refine ⟨fun hg => ?_, fun hg => ?_⟩
  · have hempty : (preemptGangs s e).isEmpty = true := List.isEmpty_iff.2 hg
    exact (exec_preempt s).trans (onH2d_refuses hm fun _ _ => if_pos hempty)
  · have hempty : ¬ (preemptGangs s e).isEmpty = true := fun h => hg (List.isEmpty_iff.1 h)
    exact (exec_preempt s).trans (onH2d_takes hm hb hok (if_neg hempty))

/-- Settles O55: each event is run on the message, decrement, node or workgroup that is there; the gangs of a PREEMPT are those of the
graphs of its tag. -/
theorem graphEvents : Obligations.GraphEvents :=
  ⟨submit_holds, decrement_holds, conditions_hold, retirement_holds, placement_holds, preempt_holds⟩

end Sys2Proof
end


section
/-! PROOFS. The obligation of 19 and 26 on the services of the scribe warp, the allocator, the arenas and the assist answers. -/

namespace Sys2Proof

open Machine

namespace Machine

theorem exec_mailboxServe (core : Nat) (s : State) : exec (.mailboxServe core) s = execMailboxServe core s := rfl
theorem exec_hostmsg (core : Nat) (s : State) : exec (.hostmsg core) s = execHostmsg core s := rfl
theorem exec_abort (core : Nat) (s : State) : exec (.abort core) s = execAbort core s := rfl
theorem exec_svcReply (core : Nat) (s : State) : exec (.svcReply core) s = execSvcReply core s := rfl
theorem exec_alloc (die : Nat) (s : State) : exec (.alloc die) s = execAlloc die s := rfl
theorem exec_free (die : Nat) (s : State) : exec (.free die) s = execFree die s := rfl
theorem exec_systemCallRing (die : Nat) (s : State) : exec (.systemCallRing die) s = execSystemCallRing die s := rfl
theorem exec_arenaRegister (s : State) : exec .arenaRegister s = execArenaRegister s := rfl
theorem exec_arenaRemove (s : State) : exec .arenaRemove s = execArenaRemove s := rfl
theorem exec_faultans (s : State) : exec .faultans s = execFaultans s := rfl
theorem exec_readyans (s : State) : exec .readyans s = execReadyans s := rfl
theorem exec_allocans (s : State) : exec .allocans s = execAllocans s := rfl
theorem exec_containans (s : State) : exec .containans s = execContainans s := rfl
theorem exec_viewans (s : State) : exec .viewans s = execViewans s := rfl

/-! ### The service that a record asks for (R377) -/

theorem toNat_word_iff {r : MailRec} {code : Nat} (h : code < 2 ^ 64) : (r.word 0).toNat = code ↔ r.word 0 = BitVec.ofNat 64 code := by
  rw [BitVec.toNat_eq, BitVec.toNat_ofNat, Nat.mod_eq_of_lt h]

theorem recCode_of_asks {r : MailRec} {code least : Nat} (h : Claim.asks r code least)
    (hc : (code, least) ∈ [(1, 3), (2, 2), (3, 2), (4, 1)]) : recCode r = some code := by
  obtain ⟨hw, hn⟩ := h
  have hw' : (r.word 0).toNat = code := (toNat_word_iff (by simp at hc; omega)).2 hw
  simp only [List.mem_cons, Prod.mk.injEq, List.not_mem_nil, or_false] at hc
  unfold recCode
  rw [hw']
  exact if_pos (by omega)

theorem recCode_none {r : MailRec} (h : ∀ code least, (code, least) ∈ [(1, 3), (2, 2), (3, 2), (4, 1)] → ¬ Claim.asks r code least) :
    recCode r = none := by
  refine if_neg fun hw => ?_
  rcases hw with ⟨hw, hn⟩ | ⟨hw, hn⟩ | ⟨hw, hn⟩ | ⟨hw, hn⟩
  · exact h 1 3 (by simp) ⟨(toNat_word_iff (by omega)).1 hw, hn⟩
  · exact h 2 2 (by simp) ⟨(toNat_word_iff (by omega)).1 hw, hn⟩
  · exact h 3 2 (by simp) ⟨(toNat_word_iff (by omega)).1 hw, hn⟩
  · exact h 4 1 (by simp) ⟨(toNat_word_iff (by omega)).1 hw, hn⟩

/-! ### The scribe warp takes the oldest record (R379, R380) -/

section
variable {s : State} {core : Nat} {r : MailRec} (ho : oldestRec s core = some r)
include ho

theorem execMailboxServe_badcode (hc : recCode r = none) :
    execMailboxServe core s = .next (answer (serveAs s core r) core r.idx [svcBadcode]) := by
  simp only [execMailboxServe, ho, hc]

/-- The records of the same workgroup that may go with it. -/
theorem execMailboxServe_forward {n : Nat} (hc : recCode r = some n) (hn : n ≤ 2) (hroom : (s.die (dieOfCore core)).ring.length < 256) :
    let mine := (s.core core).mail.filter fun x => !x.taken && x.idx != r.idx && x.wg == r.wg
      && (recCode x == some 1 || recCode x == some 2)
    let l := r :: mine.take 7
    execMailboxServe core s = if l.all (recReady s core) = false then .next s else .next ((serveAs (l.foldl (fun s x =>
        modRec (recStamp s core x) core x.idx fun y => { y with taken := true }) s) core r).modDie (dieOfCore core) fun k =>
          { k with ring := k.ring ++ [⟨core, l.map (·.idx)⟩] }) := by
  have h2 : ¬ 2 < n := by omega
  have hr : ringRoom s (dieOfCore core) = true := decide_eq_true hroom
  intro mine l
  simp only [execMailboxServe, ho, hc, h2, hr, if_false, Bool.not_true, Bool.false_or, Bool.not_eq_true'] <;> rfl

theorem execHostmsg_one (hc : recCode r = some 3) (hn : r.count - 1 ≤ 6) (hroom : d2hRoom s 1 = true) :
    execHostmsg core s = .next (answer (d2hRaise (serveAs s core r) 0x83 ([(48, r.count - 1), (56, r.pasid.toNat)]
      ++ (List.range (r.count - 1)).map fun j => (96 + 64 * j, (r.word (1 + j)).toNat))) core r.idx
        [0#64, s.port.d2hNext.setWidth 64]) := by
  have hroom' : d2hRoom (serveAs s core r) 1 = true := hroom
  simp only [execHostmsg, ho, hc, hn, hroom', ne_eq, not_true_eq_false, if_false, if_true, Bool.not_true, Bool.false_eq_true] <;> rfl

theorem execHostmsg_two (hc : recCode r = some 3) (hn : 6 < r.count - 1) (hroom : d2hRoom s 2 = true) :
    execHostmsg core s = .next (answer (d2hRaise
      (d2hRaise (serveAs s core r) 0x83 ([(48, 6), (52, 1), (56, r.pasid.toNat)]
        ++ (List.range 6).map fun j => (96 + 64 * j, (r.word (1 + j)).toNat))) 0x83
      ([(48, r.count - 1 - 6), (51, 1), (56, r.pasid.toNat)]
        ++ (List.range (r.count - 1 - 6)).map fun j => (96 + 64 * j, (r.word (7 + j)).toNat))) core r.idx
        [0#64, s.port.d2hNext.setWidth 64]) := by
  have hroom' : d2hRoom (serveAs s core r) 2 = true := hroom
  simp only [execHostmsg, ho, hc, Nat.not_le.2 hn, hroom', ne_eq, not_true_eq_false, if_false, Bool.not_true, Bool.false_eq_true] <;> rfl

theorem execAbort_ends (hc : recCode r = some 4) {g : Wg} (hg : (s.core core).wg? r.wg = some g) :
    execAbort core s = .next (endTask (serveAs s core r) g.die g.graph g.node 9) := by
  simp only [execAbort, ho, hc, hg, ne_eq, not_true_eq_false, if_false]

end

section
variable {s : State} {core : Nat} {r : MailRec} (hf : (s.core core).mail.find? (·.reply.isSome) = some r)
include hf

theorem execSvcReply_writes {w : Warp} {a : Fin 64} {n d : Nat} {ws : List Dword} (hw : recWarp s core r = some w)
    (ha : w.wait = .svc a n d) (hr : r.reply = some ws) : execSvcReply core s = .next
      ((s.modCore core fun k => { k with mail := k.mail.filter (·.idx != r.idx), hz := Nat.max k.hz s.writes }).modWarp core r.slot fun w =>
        (List.range n).foldl (fun w i => w.sput (a.val + i) ((ws[i]?).getD 0#64) false) { w with wait := .none }) := by
  simp only [execSvcReply, hf, hw, Option.map_some, ha, hr, Option.getD_some]

theorem execSvcReply_frees (hw : recWarp s core r = none) : execSvcReply core s =
    .next (s.modCore core fun k => { k with mail := k.mail.filter (·.idx != r.idx), hz := Nat.max k.hz s.writes }) := by
  simp only [execSvcReply, hf, hw, Option.map_none]

end

theorem mailbox : Claim.Mailbox := by
  intro s core r
  refine ⟨fun ho => ⟨fun hc => ?_, fun hc hroom => ?_, fun hc => ?_, fun g hc hg => ?_, rfl⟩, fun w a n d ws hf hw ha hr => ?_,
    fun hf hw => ?_⟩
  · exact execMailboxServe_badcode ho (recCode_none hc)
  · have hcode : ∃ n, recCode r = some n ∧ n ≤ 2 := by
      rcases hc with hc | hc
      · exact ⟨1, recCode_of_asks hc (by simp), by omega⟩
      · exact ⟨2, recCode_of_asks hc (by simp), by omega⟩
    obtain ⟨n, hn, hle⟩ := hcode
    intro mine l
    have h := (exec_mailboxServe core s).trans (execMailboxServe_forward ho hn hle hroom)
    exact ⟨fun hl => h.trans (if_pos hl), fun hl => h.trans (if_neg (by rw [show l.all (recReady s core) = true from hl]; decide))⟩
  · have hc := recCode_of_asks hc (by simp)
    exact ⟨execHostmsg_one ho hc, execHostmsg_two ho hc⟩
  · exact execAbort_ends ho (recCode_of_asks hc (by simp)) hg
  · exact execSvcReply_writes hf hw ha hr
  · exact execSvcReply_frees hf hw

/-! ### The service core serves a ring (R381, R382) -/

theorem toNat_word_one {r : MailRec} (h : r.word 0 = 1#64) : ((r.word 0).toNat == 1) = true := by rw [h]; rfl
theorem toNat_word_two {r : MailRec} (h : r.word 0 = 2#64) : ((r.word 0).toNat == 1) = false := by rw [h]; rfl

section
variable {s : State} {die c : Nat} {r : MailRec} (hh : ringHead s die = some (c, r))
include hh

theorem execAlloc_serves {t : State} (hw : r.word 0 = 1#64) (hs : serveRec s c r = some t) :
    execAlloc die s = .next (ringPop t die) := by
  simp only [execAlloc, serveHead, hh, hw, beq_self_eq_true, if_true, hs, Option.map_some, Option.getD_some]

theorem execFree_serves {t : State} (hw : r.word 0 = 2#64) (hs : serveRec s c r = some t) :
    execFree die s = .next (ringPop t die) := by
  simp only [execFree, serveHead, hh, hw, beq_self_eq_true, if_true, hs, Option.map_some, Option.getD_some]

end

section
variable {s : State} {c : Nat} {r : MailRec}

theorem serveRec_badarg (hw : r.word 0 = 1#64) (h : (r.word 1).toNat = 0 ∨ 2 ^ 30 < (r.word 1).toNat ∨ 1 < (r.word 2).toNat) :
    serveRec s c r = some (answer s c r.idx [svcBadarg]) := by
  refine if_pos ?_
  simpa only [toNat_word_one hw, Bool.true_and, Bool.or_eq_true, beq_iff_eq, decide_eq_true_eq, or_assoc] using h

/-- A well-formed ALLOC that the allocator serves. -/
theorem serveRec_alloc (hw : r.word 0 = 1#64) (h0 : 0 < (r.word 1).toNat) (h30 : (r.word 1).toNat ≤ 2 ^ 30)
    (h2 : (r.word 2).toNat ≤ 1) (ha : assisted s 2 = false) :
    serveRec s c r = match buddyAlloc s.arenas r.pasid ((r.word 2).getLsbD 0) (blockLog (r.word 1).toNat) with
      | some (va, l) => some (answer (s.setArenas l) c r.idx [svcOk, BitVec.ofNat 64 va])
      | none => some (answer s c r.idx [svcNomem]) := by
  have hb : ((r.word 1).toNat == 0 || decide (2 ^ 30 < (r.word 1).toNat) || decide (1 < (r.word 2).toNat)) = false := by
    simp only [Bool.or_eq_false_iff, beq_eq_false_iff_ne, decide_eq_false_iff_not]
    omega
  simp only [serveRec, toNat_word_one hw, hb, ha, Bool.and_false, if_true, if_false, Bool.false_eq_true] <;> rfl

theorem serveRec_free (hw : r.word 0 = 2#64) (ha : assisted s 2 = false) :
    serveRec s c r = match buddyFree s.arenas r.pasid (r.word 1).toNat with
      | some l => some (answer (s.setArenas l) c r.idx [svcOk])
      | none => some (answer s c r.idx [svcBadarg]) := by
  simp only [serveRec, toNat_word_two hw, ha, Bool.false_and, if_false, Bool.false_eq_true] <;> rfl

end

theorem execSystemCallRing_serves {s : State} {die : Nat} {m : RingMsg} {t : List RingMsg} (h : (s.die die).ring = m :: t) :
    execSystemCallRing die s = .next (serveMany (Nat.max 1 m.recs.length) s die) := by
  simp only [execSystemCallRing, h]

/-! ### The buddy allocator (R381) -/

/-- A block is at most another: smaller, or of its size at an address that is not above. -/
def BlockLe (b c : Nat × Nat × Nat) : Prop := b.2.2 < c.2.2 ∨ (b.2.2 = c.2.2 ∧ b.1 + b.2.1 ≤ c.1 + c.2.1)

theorem BlockLe.refl (b : Nat × Nat × Nat) : BlockLe b b := .inr ⟨rfl, Nat.le_refl _⟩
theorem BlockLe.trans {a b c : Nat × Nat × Nat} (h : BlockLe a b) (h' : BlockLe b c) : BlockLe a c := by
  unfold BlockLe at *
  omega

/-- The free blocks of at least 2^e bytes of a PASID's arenas of a type, as (base, offset, log of the size). -/
def fitting (ar : List Arena) (pasid : BitVec 20) (unt : Bool) (e : Nat) : List (Nat × Nat × Nat) :=
  ar.foldl (fun (l : List (Nat × Nat × Nat)) a => if a.pasid = pasid ∧ a.unt = unt then
    l ++ (a.free.filter fun b => e ≤ b.2).map fun b => (a.base, b.1, b.2) else l) []
/-- The lower of the block in hand, if any, and another one. -/
def lowerBlock (o : Option (Nat × Nat × Nat)) (b : Nat × Nat × Nat) : Option (Nat × Nat × Nat) :=
  match o with
  | none => some b
  | some c => if b.2.2 < c.2.2 || (b.2.2 == c.2.2 && b.1 + b.2.1 < c.1 + c.2.1) then some b else some c

theorem freeBlock_eq (ar : List Arena) (pasid : BitVec 20) (unt : Bool) (e : Nat) :
    freeBlock ar pasid unt e = (fitting ar pasid unt e).foldl lowerBlock none := rfl

/-- Of two blocks the one that is kept is one of them, and at most both. -/
theorem lowerBlock_some (b c : Nat × Nat × Nat) :
    ∃ m, lowerBlock (some c) b = some m ∧ (m = c ∨ m = b) ∧ BlockLe m c ∧ BlockLe m b := by
  unfold lowerBlock
  by_cases h : b.2.2 < c.2.2 ∨ (b.2.2 = c.2.2 ∧ b.1 + b.2.1 < c.1 + c.2.1)
  · exact ⟨b, by simp [h], .inr rfl, by unfold BlockLe; omega, .refl b⟩
  · exact ⟨c, by simp [h], .inl rfl, .refl c, by unfold BlockLe; omega⟩

theorem foldl_lowerBlock_some (l : List (Nat × Nat × Nat)) (c : Nat × Nat × Nat) :
    ∃ m, l.foldl lowerBlock (some c) = some m ∧ (m = c ∨ m ∈ l) ∧ BlockLe m c ∧ ∀ b ∈ l, BlockLe m b := by
  induction l generalizing c with
  | nil => exact ⟨c, rfl, .inl rfl, .refl c, by simp⟩
  | cons b l ih =>
    obtain ⟨x, hx, hxin, hxc, hxb⟩ := lowerBlock_some b c
    obtain ⟨m, hm, hin, hmx, hml⟩ := ih x
    refine ⟨m, by rw [List.foldl_cons, hx, hm], ?_, hmx.trans hxc, ?_⟩
    · rcases hin with rfl | hin
      · exact hxin.imp id fun h => List.mem_cons.2 (.inl h)
      · exact .inr (List.mem_cons_of_mem b hin)
    · intro y hy
      rcases List.mem_cons.1 hy with rfl | hy
      · exact hmx.trans hxb
      · exact hml y hy

theorem mem_fitting {ar : List Arena} {pasid : BitVec 20} {unt : Bool} {e : Nat} {x : Nat × Nat × Nat} :
    x ∈ fitting ar pasid unt e ↔
      ∃ a ∈ ar, a.pasid = pasid ∧ a.unt = unt ∧ ∃ b ∈ a.free, e ≤ b.2 ∧ x = (a.base, b.1, b.2) := by
  have key : ∀ (l : List (Nat × Nat × Nat)), x ∈ ar.foldl (fun (l : List (Nat × Nat × Nat)) a => if a.pasid = pasid ∧ a.unt = unt then
      l ++ (a.free.filter fun b => e ≤ b.2).map fun b => (a.base, b.1, b.2) else l) l ↔
      x ∈ l ∨ ∃ a ∈ ar, a.pasid = pasid ∧ a.unt = unt ∧ ∃ b ∈ a.free, e ≤ b.2 ∧ x = (a.base, b.1, b.2) := by
    induction ar with
    | nil => simp
    | cons a ar ih =>
      intro l
      rw [List.foldl_cons, ih]
      by_cases h : a.pasid = pasid ∧ a.unt = unt
      · simp only [h, and_self, if_true, List.mem_append, List.mem_map, List.mem_filter, decide_eq_true_eq, List.mem_cons,
          exists_eq_or_imp, or_assoc, true_and, and_assoc, @eq_comm _ _ x]
      · rw [if_neg h]
        simp only [List.mem_cons, exists_eq_or_imp]
        exact or_congr_right (or_iff_right fun hc => h ⟨hc.1, hc.2.1⟩).symm
  exact (key []).trans (or_iff_right List.not_mem_nil)

/-- The block that an ALLOC takes fits, and none that fits is below it. -/
theorem freeBlock_least {ar : List Arena} {pasid : BitVec 20} {unt : Bool} {e : Nat} {m : Nat × Nat × Nat}
    (h : freeBlock ar pasid unt e = some m) :
    m ∈ fitting ar pasid unt e ∧ ∀ x ∈ fitting ar pasid unt e, BlockLe m x := by
  rw [freeBlock_eq] at h
  cases hl : fitting ar pasid unt e with
  | nil => simp [hl] at h
  | cons b l =>
    rw [hl, List.foldl_cons] at h
    obtain ⟨m', hm, hin, hb, hall⟩ := foldl_lowerBlock_some l b
    obtain rfl : m' = m := Option.some.inj (hm.symm.trans h)
    exact ⟨List.mem_cons.2 hin, List.forall_mem_cons.2 ⟨hb, hall⟩⟩

theorem le_two_pow_blockLog {size : Nat} (h : 0 < size) : size ≤ 2 ^ blockLog size := by
  have hlt : 2 * size - 1 < 2 ^ (Nat.log2 (2 * size - 1) + 1) := Nat.lt_log2_self
  have hle : 2 ^ Nat.log2 (2 * size - 1) ≤ 2 ^ blockLog size := Nat.pow_le_pow_right (by omega) (Nat.le_max_right _ _)
  rw [Nat.pow_succ] at hlt
  omega

theorem two_pow_blockLog_lt {size : Nat} (h : 0 < size) : 2 ^ blockLog size < 2 * size ∨ blockLog size = 8 := by
  have hle : 2 ^ Nat.log2 (2 * size - 1) ≤ 2 * size - 1 := Nat.log2_self_le (by omega)
  rcases Nat.le_total 8 (Nat.log2 (2 * size - 1)) with h8 | h8
  · have hm : blockLog size = Nat.log2 (2 * size - 1) := Nat.max_eq_right h8
    rw [hm]
    omega
  · exact .inr (Nat.max_eq_left h8)

theorem buddyAlloc_least {ar l : List Arena} {pasid : BitVec 20} {unt : Bool} {e va : Nat}
    (h : buddyAlloc ar pasid unt e = some (va, l)) :
    ∃ a ∈ ar, a.pasid = pasid ∧ a.unt = unt ∧ ∃ b ∈ a.free, a.base + b.1 = va ∧ e ≤ b.2
      ∧ (∀ a' ∈ ar, a'.pasid = pasid → a'.unt = unt → ∀ b' ∈ a'.free, e ≤ b'.2 →
          b.2 < b'.2 ∨ (b.2 = b'.2 ∧ va ≤ a'.base + b'.1)) := by
  obtain ⟨m, hm, hva⟩ := Option.map_eq_some_iff.1 h
  obtain rfl : m.1 + m.2.1 = va := (Prod.mk.inj hva).1
  obtain ⟨hin, hall⟩ := freeBlock_least hm
  obtain ⟨a, ha, hp, hu, b, hb, he, rfl⟩ := mem_fitting.1 hin
  exact ⟨a, ha, hp, hu, b, hb, rfl, he, fun a' ha' hp' hu' b' hb' he' =>
    hall (a'.base, b'.1, b'.2) (mem_fitting.2 ⟨a', ha', hp', hu', b', hb', he', rfl⟩)⟩

theorem allocator : Claim.Allocator := by
  refine ⟨fun s die c r hh => ⟨fun hw h => ?_, fun hw h0 h30 h2 ha => ⟨fun va l hb => ?_, fun hb => ?_⟩,
    fun hw ha => ⟨fun l hb => ?_, fun hb => ?_⟩⟩, fun s die m t h => ?_, fun ar l pasid unt size va h0 h30 h => ?_⟩
  · exact execAlloc_serves hh hw (serveRec_badarg hw h)
  · exact execAlloc_serves hh hw (by rw [serveRec_alloc hw h0 h30 h2 ha, hb]; rfl)
  · exact execAlloc_serves hh hw (by rw [serveRec_alloc hw h0 h30 h2 ha, hb]; rfl)
  · exact execFree_serves hh hw (by rw [serveRec_free hw ha, hb]; rfl)
  · exact execFree_serves hh hw (by rw [serveRec_free hw ha, hb]; rfl)
  · exact execSystemCallRing_serves h
  · exact ⟨le_two_pow_blockLog h0, Nat.pow_le_pow_right (n := 2) (by omega) (Nat.le_max_left 8 _), two_pow_blockLog_lt h0,
      buddyAlloc_least h⟩

/-! ### The ARENA messages (R381, R410) -/

theorem arenaMessages : Claim.ArenaMessages := by
  intro s seq e hm hb hbase hcan
  have hok : arenaOk e = true := Bool.and_eq_true_iff.2 ⟨beq_iff_eq.2 hbase, hcan⟩
  refine ⟨fun hop => ⟨fun hany => ?_, fun hany => ?_⟩, fun hop => ⟨fun hany => ?_, fun hany => ?_⟩⟩
  · exact (onH2dOp_self hm hop).trans (onH2d_refuses hm fun _ _ => if_pos hany)
  · exact (onH2dOp_self hm hop).trans (onH2d_takes hm hb hok (if_neg (by rw [hany]; decide)))
  · exact (onH2dOp_self hm hop).trans (onH2d_refuses hm fun _ _ => if_neg (by rw [hany]; decide))
  · exact (onH2dOp_self hm hop).trans (onH2d_takes hm hb hok (if_pos hany))

/-! ### The answers of the host's software (26 R459) -/

/-- A record of no type of R459 is refused, whichever answer reads it. -/
theorem answers_unknown {s : State} {seq : Word} {e : BitVec 512} (h : a2dNext s = some (seq, e))
    (ht : fld e 32 16 < 0xA1 ∨ 0xA5 < fld e 32 16) :
    ∀ i ∈ [Instr.faultans, .readyans, .allocans, .containans, .viewans], exec i s = .next (a2dRefuse s seq) := by
  simp only [List.forall_mem_cons, List.not_mem_nil, false_imp_iff, implies_true, and_true]
  exact ⟨(exec_faultans s).trans (onA2d_unknown h (by omega) (by omega)), (exec_readyans s).trans (onA2d_unknown h (by omega) (by omega)),
    (exec_allocans s).trans (onA2d_unknown h (by omega) (by omega)), (exec_containans s).trans (onA2d_unknown h (by omega) (by omega)),
    (exec_viewans s).trans (onA2d_unknown h (by omega) (by omega))⟩

theorem viewans_admits {e : BitVec 512} (hp : fld e 48 4 < 15) (hw : fld e 72 2 ≠ 3) : (fld e 48 4 < 15 && fld e 72 2 != 3) = true := by
  simp [hp, hw]

theorem assistAnswers : Claim.AssistAnswers := by
  intro s seq e h
  refine ⟨answers_unknown h, fun ht hb hok => ⟨fun r d x hf => ?_, fun hf => ?_⟩, fun ht hb => ⟨fun d id n hf => ?_, fun hf => ?_⟩,
    fun ht hb hok => ⟨fun q c i hf => ?_, fun hf => ?_⟩, fun ht hb => ⟨fun i d id n hf => ⟨fun h60 => ?_, fun h60 => ?_⟩, fun hf => ?_⟩,
    fun ht hb hp hw => ⟨fun hv => ⟨fun h52 => ?_, fun h52 => ?_⟩, fun hv => ?_⟩⟩
  · exact (exec_faultans s).trans (onA2d_takes h ht hb (decide_eq_true hok) (congrArg (Option.map _) hf))
  · exact (exec_faultans s).trans (onA2d_refuses h ht fun _ _ => congrArg (Option.map _) hf)
  · exact (exec_readyans s).trans (onA2d_takes h ht hb rfl (congrArg (Option.bind · _) hf))
  · exact (exec_readyans s).trans (onA2d_refuses h ht fun _ _ => congrArg (Option.bind · _) hf)
  · exact (exec_allocans s).trans (onA2d_takes h ht hb (decide_eq_true hok) (congrArg (Option.bind · _) hf))
  · exact (exec_allocans s).trans (onA2d_refuses h ht fun _ _ => congrArg (Option.bind · _) hf)
  · exact (exec_containans s).trans (onA2d_takes h ht hb rfl ((congrArg (Option.bind · _) hf).trans (congrArg some (if_pos h60))))
  · exact (exec_containans s).trans (onA2d_takes h ht hb rfl ((congrArg (Option.bind · _) hf).trans (congrArg some (if_neg (by rw [h60]; decide)))))
  · exact (exec_containans s).trans (onA2d_refuses h ht fun _ _ => congrArg (Option.bind · _) hf)
  · exact (exec_viewans s).trans (onA2d_takes h ht hb (viewans_admits hp hw) ((if_neg (by rw [hv]; decide)).trans (congrArg some (if_pos h52))))
  · have hd : execViewans s = .next (a2dTake (if Config.coin s.tick = true
        then portUp (dropPend s (.view (fld e 48 4))) (fld e 48 4) (e.extractLsb' 64 8, e.extractLsb' 72 2)
        else (dropPend s (.view (fld e 48 4))).modPort (fld e 48 4)
          fun r => { r with hostV := some (e.extractLsb' 64 8, e.extractLsb' 72 2) }) seq) :=
      onA2d_takes h ht hb (viewans_admits hp hw)
        ((if_neg (by rw [hv]; decide)).trans (congrArg some (if_neg (by rw [h52]; decide))))
    exact (hd.trans (congrArg Host.Outcome.next (apply_ite (a2dTake · seq) _ _ _)))
  · exact (exec_viewans s).trans (onA2d_refuses h ht fun _ _ => if_pos (by rw [hv]; decide))

end Machine

/-! ### The obligation -/

/-- Settles O56. -/
theorem serviceEvents : Obligations.ServiceEvents := ⟨mailbox, allocator, arenaMessages, assistAnswers⟩

end Sys2Proof
end


section
/-! PROOFS. The obligation of 21 and 26 on the messages, registers, rings and link of the host port. -/

namespace Sys2Proof

open Machine

namespace Machine

theorem exec_rootcap (s : State) : exec .rootcap s = execRootcap s := rfl
theorem exec_twinConfigure (s : State) : exec .twinConfigure s = execTwinConfigure s := rfl
theorem exec_twinDissolve (s : State) : exec .twinDissolve s = execTwinDissolve s := rfl
theorem exec_mode (s : State) : exec .mode s = execMode s := rfl
theorem exec_modeChange (f : Fin 5) (s : State) : exec (.modeChange f) s = execModeChange f s := rfl
theorem exec_podbarAllot (s : State) : exec .podbarAllot s = execPodbarAllot s := rfl
theorem exec_podbarRelease (s : State) : exec .podbarRelease s = execPodbarRelease s := rfl
theorem exec_h2dEntryRecheck (s : State) : exec .h2dEntryRecheck s = execH2dEntryRecheck s := rfl
theorem exec_registerWrite (off : BitVec 12) (x : Dword) (s : State) : exec (.registerWrite off x) s = execRegisterWrite off x s := rfl
theorem exec_d2hWrite (s : State) : exec .d2hWrite s = execD2hWrite s := rfl
theorem exec_assistRequestWrite (s : State) : exec .assistRequestWrite s = execAssistRequestWrite s := rfl
theorem exec_hostLinkLoss (n : Nat) (s : State) : exec (.hostLinkLoss n) s = execHostLinkLoss n s := rfl
theorem exec_hostLinkReturn (w v : Fin 4) (s : State) : exec (.hostLinkReturn w v) s = execHostLinkReturn w v s := rfl

/-! ### Messages (R409, R410) -/

/-- What the body of a MODE message does (R458). -/
def modeEffect (s : State) (e : BitVec 512) : Option State :=
  let hosta := e.getLsbD 51
  let base : Dword := e.extractLsb' 64 64
  if hosta && anyAssisted s && !(s.assist.abase == base && s.assist.asize == fld e 52 4) then none
  else
    let s := if hosta && !anyAssisted s then { s with assist := { s.assist with
        abase := base, asize := fld e 52 4, a2dBell := s.assist.a2dRx, d2aTx := s.assist.d2aAck } } else s
    some { s with modes := putMask s.modes (· == fld e 48 3) fun i => { (s.modes[i]?).getD ⟨false, none⟩ with want := some hosta } }

theorem execMode_eq (s : State) :
    execMode s = onH2d s 0x06 [(48, 3), (51, 1), (52, 4), (64, 64)] modeOk modeEffect := rfl

/-- The function that a MODE message names is to change its mode. -/
def wantMode (s : State) (e : BitVec 512) (hosta : Bool) : State :=
  { s with modes := putMask s.modes (· == fld e 48 3) fun i => { (s.modes[i]?).getD ⟨false, none⟩ with want := some hosta } }

section
variable {s : State} {e : BitVec 512}

theorem modeEffect_own (h : e.getLsbD 51 = false) : modeEffect s e = some (wantMode s e false) := by
  simp only [modeEffect, h, Bool.false_and, Bool.false_eq_true, if_false] <;> rfl
/-- The first host-assisted function gives the assist rings their place. -/
theorem modeEffect_first (h : e.getLsbD 51 = true) (hn : anyAssisted s = false) : modeEffect s e =
    some (wantMode { s with assist := { s.assist with abase := e.extractLsb' 64 64, asize := fld e 52 4
                                                      a2dBell := s.assist.a2dRx, d2aTx := s.assist.d2aAck } } e true) := by
  simp only [modeEffect, h, hn, Bool.and_false, Bool.false_and, Bool.false_eq_true, if_false, Bool.not_false, Bool.and_true, if_true]
    <;> rfl
theorem modeEffect_same (h : e.getLsbD 51 = true) (hn : anyAssisted s = true) (hb : s.assist.abase = e.extractLsb' 64 64)
    (hz : s.assist.asize = fld e 52 4) : modeEffect s e = some (wantMode s e true) := by
  simp only [modeEffect, h, hn, hb, hz, beq_self_eq_true, Bool.and_self, Bool.not_true, Bool.and_false, Bool.false_eq_true, if_false]
    <;> rfl
theorem modeEffect_other (h : e.getLsbD 51 = true) (hn : anyAssisted s = true)
    (ho : s.assist.abase ≠ e.extractLsb' 64 64 ∨ s.assist.asize ≠ fld e 52 4) : modeEffect s e = none := by
  refine if_pos ?_
  rcases ho with ho | ho <;> simp [h, hn, ho]

end

theorem podGive_free {s : State} {b : Nat} (h : (s.podBars[b]?).bind (·.pasid) = none) (pasid : BitVec 20) (n : Nat) :
    podGive s b pasid n = some (podTell { s with
      podBars := s.podBars.setIfInBounds b ⟨{ Bar.fresh with expect := n }, none, some pasid⟩ }) :=
  if_neg (by rw [h]; decide)
theorem podGive_allotted {s : State} {b : Nat} (h : (s.podBars[b]?).bind (·.pasid) ≠ none) (pasid : BitVec 20) (n : Nat) :
    podGive s b pasid n = none :=
  if_pos (Option.isSome_iff_ne_none.2 h)

/-- A message that another device than device 0 forwards is taken, or turned away there. -/
theorem podForward_outcome {s : State} {ty : Nat} {fields : List (Nat × Nat)} {ok : BitVec 512 → Bool}
    {f : State → BitVec 512 → Option State} {seq : Word} {e : BitVec 512} (hm : h2dMsg s ty = some (seq, e))
    (hb : bodyOk e fields = true) (ho : ok e = true) (hf : f s e = podForward s) : onH2d s ty fields ok f =
      .next (if Config.coin s.tick then h2dRefuse s seq else h2dTake (originate s ⟨unitSource s 0 145, 0#4, 0#3⟩) seq) := by
  unfold podForward at hf
  by_cases hc : Config.coin s.tick = true
  · rw [if_pos hc] at hf ⊢
    exact onH2d_refuses hm fun _ _ => hf
  · rw [if_neg hc] at hf ⊢
    exact onH2d_takes hm hb ho hf

section
variable {s : State} {seq : Word} {e : BitVec 512} (hm : h2dMsg s 0x07 = some (seq, e)) (hb : bodyOk e podFields = true)
include hm hb

theorem execPodbarAllot_allots (hop : e.getLsbD 48 = false) (hn : fld e 80 16 ≠ 0) :
    (s.pkg.val = 0 → (s.podBars[fld e 49 6]?).bind (·.pasid) = none → execPodbarAllot s = .next (h2dTake (podTell { s with
      podBars := s.podBars.setIfInBounds (fld e 49 6) ⟨{ Bar.fresh with expect := fld e 80 16 }, none, some (e.extractLsb' 56 20)⟩ }) seq))
    ∧ (s.pkg.val = 0 → (s.podBars[fld e 49 6]?).bind (·.pasid) ≠ none → execPodbarAllot s = .next (h2dRefuse s seq))
    ∧ (s.pkg.val ≠ 0 → execPodbarAllot s = .next (if Config.coin s.tick then h2dRefuse s seq
        else h2dTake (originate s ⟨unitSource s 0 145, 0#4, 0#3⟩) seq)) := by
  have hok : (fld e 80 16 != 0) = true := bne_iff_ne.2 hn
  refine ⟨fun h0 hf => ?_, fun h0 hf => ?_, fun h0 => ?_⟩
  · exact (onH2dOp_self hm hop).trans (onH2d_takes hm hb hok ((if_neg (not_not_intro h0)).trans (podGive_free hf _ _)))
  · exact (onH2dOp_self hm hop).trans (onH2d_refuses hm fun _ _ => (if_neg (not_not_intro h0)).trans (podGive_allotted hf _ _))
  · exact (onH2dOp_self hm hop).trans (podForward_outcome hm hb hok (if_pos h0))

theorem execPodbarRelease_frees (hop : e.getLsbD 48 = true) (hn : fld e 80 16 = 0) {held : Bool}
    (hheld : (s.dies.toList.any (fun (k : Die) => k.graphs.any fun g => g.nodes.any fun x =>
      (x.status == 1 || x.status == 2) && tcbPasid x.tcb == e.extractLsb' 56 20 && (tcbPod x.tcb).getLsbD (fld e 49 6))
        || (s.rports.toList.any (·.st == .up) && Config.coin s.tick)) = held) :
    (s.pkg.val = 0 → held = false → execPodbarRelease s = .next (h2dTake (podTell { s with
      podBars := s.podBars.setIfInBounds (fld e 49 6) WideBar.fresh }) seq))
    ∧ (s.pkg.val = 0 → held = true → execPodbarRelease s = .next (h2dRefuse s seq))
    ∧ (s.pkg.val ≠ 0 → execPodbarRelease s = .next (if Config.coin s.tick then h2dRefuse s seq
        else h2dTake (originate s ⟨unitSource s 0 145, 0#4, 0#3⟩) seq)) := by
  have hok : (fld e 80 16 == 0) = true := beq_iff_eq.2 hn
  refine ⟨fun h0 hh => ?_, fun h0 hh => ?_, fun h0 => ?_⟩
  · exact (onH2dOp_self hm hop).trans (onH2d_takes hm hb hok ((if_neg (not_not_intro h0)).trans (if_neg (by
      rw [hheld, hh]; decide))))
  · exact (onH2dOp_self hm hop).trans (onH2d_refuses hm fun _ _ => (if_neg (not_not_intro h0)).trans (if_pos (hheld.trans hh)))
  · exact (onH2dOp_self hm hop).trans (podForward_outcome hm hb hok (if_pos h0))

end

section
variable {s : State} {seq : Word} {e : BitVec 512} (hm : h2dMsg s 0x05 = some (seq, e)) (hb : bodyOk e twinFields = true)
include hm hb

theorem execTwinConfigure_outcome (hop : e.getLsbD 48 = false) :
    (s.twins.any (·.pasid == e.extractLsb' 52 20) = false → execTwinConfigure s = .next (h2dTake { s with
      twins := s.twins ++ [⟨e.extractLsb' 52 20, e.getLsbD 49, (e.extractLsb' 72 4).toFin, e.extractLsb' 80 96, []⟩] } seq))
    ∧ (s.twins.any (·.pasid == e.extractLsb' 52 20) = true → execTwinConfigure s = .next (h2dRefuse s seq)) :=
  ⟨fun h => (onH2dOp_self hm hop).trans (onH2d_takes hm hb rfl (if_neg (by rw [h]; decide))),
    fun h => (onH2dOp_self hm hop).trans (onH2d_refuses hm fun _ _ => if_pos h)⟩

theorem execTwinDissolve_outcome (hop : e.getLsbD 48 = true) :
    (s.twins.any (·.pasid == e.extractLsb' 52 20) = true → execTwinDissolve s = .next (h2dTake { s with
      twins := s.twins.filter (·.pasid != e.extractLsb' 52 20) } seq))
    ∧ (s.twins.any (·.pasid == e.extractLsb' 52 20) = false → execTwinDissolve s = .next (h2dRefuse s seq)) :=
  ⟨fun h => (onH2dOp_self hm hop).trans (onH2d_takes hm hb rfl (if_pos h)),
    fun h => (onH2dOp_self hm hop).trans (onH2d_refuses hm fun _ _ => if_neg (by rw [h]; decide))⟩

end

theorem execH2dEntryRecheck_unknown {s : State} {seq : Word} {e : BitVec 512} (h : h2dNext s = some (seq, e))
    (ht : fld e 32 16 < 1 ∨ 7 < fld e 32 16) : execH2dEntryRecheck s = .next (h2dRefuse s seq) := by
  have hn : ¬ (1 ≤ fld e 32 16 ∧ fld e 32 16 ≤ 7) := by omega
  simp only [execH2dEntryRecheck, h, hn, if_false]

/-- A message whose body is malformed is refused. -/
theorem onH2d_malformed {s : State} {ty : Nat} {fields : List (Nat × Nat)} {ok : BitVec 512 → Bool}
    {f : State → BitVec 512 → Option State} {seq : Word} {e : BitVec 512} (h : h2dMsg s ty = some (seq, e))
    (hbad : bodyOk e fields = false ∨ ok e = false) : onH2d s ty fields ok f = .next (h2dRefuse s seq) := by
  refine onH2d_refuses h fun hb ho => ?_
  simp [hb, ho] at hbad

theorem messages : Claim.Messages := by
  intro s seq e
  refine ⟨fun hm hb => ?_, fun hm hb => ?_, fun hm hb => ⟨execTwinConfigure_outcome hm hb, execTwinDissolve_outcome hm hb⟩,
    fun hm hb hok => ⟨fun h => ?_, fun h hn => ?_, fun h hn hbase hz => ?_, fun h hn ho => ?_⟩, fun hm hbad => ?_,
    fun hm hb => ⟨fun hop hn => execPodbarAllot_allots hm hb hop hn, fun hop hn => ?_⟩, execH2dEntryRecheck_unknown⟩
  · exact (exec_rootcap s).trans (onH2d_takes hm hb rfl rfl)
  · exact (exec_rootcap s).trans (onH2d_malformed hm (.inl hb))
  · exact (exec_mode s).trans ((execMode_eq s).trans (onH2d_takes hm hb hok (modeEffect_own h)))
  · exact (exec_mode s).trans ((execMode_eq s).trans (onH2d_takes hm hb hok (modeEffect_first h hn)))
  · exact (exec_mode s).trans ((execMode_eq s).trans (onH2d_takes hm hb hok (modeEffect_same h hn hbase hz)))
  · exact (exec_mode s).trans ((execMode_eq s).trans (onH2d_refuses hm fun _ _ => modeEffect_other h hn ho))
  · exact (exec_mode s).trans ((execMode_eq s).trans (onH2d_malformed hm hbad))
  · exact execPodbarRelease_frees hm hb hop hn rfl

theorem modeChange : Claim.ModeChange := by
  intro s f b hw
  refine ⟨fun hp => ?_, fun hp => ?_⟩
  · simp only [exec_modeChange, execModeChange, hw, hp, Bool.false_eq_true, if_false]
  · simp only [exec_modeChange, execModeChange, hw, hp, if_true]

/-! ### Registers and rings (R406 to R408, R453) -/

theorem bar0_running {s : State} (h : s.boot = .running) (t : State) : bar0 s t = .next t :=
  congrArg Host.Outcome.next (if_pos (beq_iff_eq.2 h))
theorem bar0_recovery {s : State} (h : s.boot ≠ .running) (t : State) : bar0 s t = .next s :=
  congrArg Host.Outcome.next (if_neg (mt beq_iff_eq.1 h))

/-- A write at an offset that is no register's changes nothing. -/
theorem execRegisterWrite_unlisted {off : BitVec 12}
    (h : off ∉ [0x040#12, 0x048#12, 0x050#12, 0x060#12, 0x068#12, 0x078#12, 0x0A0#12, 0x0B8#12]) (x : Dword) (s : State) :
    execRegisterWrite off x s = .next s := by
  unfold execRegisterWrite
  split
  case h_9 => rfl
  all_goals
    rename_i ho
    simp [BitVec.toNat_eq, ho] at h

theorem portRegisters : Claim.PortRegisters := by
  intro s v x
  exact ⟨fun hb size => ⟨bar0_recovery hb _, bar0_recovery hb _, bar0_recovery hb _, bar0_recovery hb _, bar0_recovery hb _,
      bar0_recovery hb _⟩,
    fun hb => ⟨bar0_running hb _, bar0_running hb _, bar0_running hb _, bar0_running hb _, bar0_running hb _, bar0_running hb _,
      bar0_running hb _, bar0_running hb _⟩,
    rfl, rfl, rfl, rfl, rfl, rfl, rfl, rfl, fun off h => execRegisterWrite_unlisted h x s⟩

theorem execD2hWrite_writes {s : State} {m : Word × BitVec 512} (hset : s.port.d2hSet = true) (h4 : 4 ≤ s.port.d2hSize.toNat)
    (h8 : s.port.d2hSize.toNat ≤ 8) (hl : linkUp s = true)
    (hroom : (s.port.d2hTx + 1 - s.port.d2hAck).toNat ≤ 2 ^ s.port.d2hSize.toNat)
    (hm : s.port.kept.find? (·.1 == s.port.d2hTx + 1) = some m) : execD2hWrite s = .next { s with
      hostMem := wrBytes s.hostMem (s.port.d2hBase.toNat + 64 * ((s.port.d2hTx + 1).toNat % 2 ^ s.port.d2hSize.toNat))
        (leBytes 64 m.2.toNat)
      port := { s.port with d2hTx := s.port.d2hTx + 1, hpwSeq := s.port.hpwSeq + 1 } } := by
  refine (if_neg (by
    simp only [hset, Nat.not_lt.2 h4, Nat.not_lt.2 h8, hl, Nat.not_lt.2 hroom, decide_false, Bool.not_true, Bool.or_self,
      Bool.false_eq_true, not_false_eq_true])).trans ?_
  dsimp only
  rw [hm]
  rfl

/-- The next D2A record is written while the ring has room: what ASSIST_REQUEST_WRITE does once the waiting requests are raised. -/
def assistWrite (t : State) : Out :=
  let a := t.assist
  let seq := a.d2aTx + 1
  if a.asize < 4 || !linkUp t || 2 ^ a.asize < (seq - a.d2aAck).toNat then .next t
  else match a.kept.find? (·.1 == seq) with
    | none => .next t
    | some m =>
      let t := hostPost t (a.abase.toNat + 64 * (seq.toNat % 2 ^ a.asize)) m.2
      .next { t with assist := { t.assist with d2aTx := seq } }

theorem execAssistRequestWrite_eq (s : State) : execAssistRequestWrite s = assistWrite (raiseWaiting s) := by
  unfold execAssistRequestWrite
  generalize raiseWaiting s = t
  rfl

theorem assistWrite_writes {t : State} {m : Word × BitVec 512} (h4 : 4 ≤ t.assist.asize)
    (hl : linkUp t = true) (hroom : (t.assist.d2aTx + 1 - t.assist.d2aAck).toNat ≤ 2 ^ t.assist.asize)
    (hm : t.assist.kept.find? (·.1 == t.assist.d2aTx + 1) = some m) : assistWrite t = .next { t with
      hostMem := wrBytes t.hostMem (t.assist.abase.toNat + 64 * ((t.assist.d2aTx + 1).toNat % 2 ^ t.assist.asize))
        (leBytes 64 m.2.toNat)
      port := { t.port with hpwSeq := t.port.hpwSeq + 1 }
      assist := { t.assist with d2aTx := t.assist.d2aTx + 1 } } := by
  refine (if_neg (by
    simp only [Nat.not_lt.2 h4, hl, Nat.not_lt.2 hroom, decide_false, Bool.not_true, Bool.or_self, Bool.false_eq_true,
      not_false_eq_true])).trans ?_
  dsimp only
  rw [hm]
  rfl

theorem ringWrites : Claim.RingWrites := by
  refine ⟨fun s e hset h4 h8 hl hroom hm => ?_, fun s e => ?_⟩
  · obtain ⟨m, hm', rfl⟩ := Option.map_eq_some_iff.1 hm
    exact execD2hWrite_writes hset h4 h8 hl hroom hm'
  · rw [exec_assistRequestWrite, execAssistRequestWrite_eq]
    generalize raiseWaiting s = t
    intro t seq n h4 hl hroom hm
    obtain ⟨m, hm', rfl⟩ := Option.map_eq_some_iff.1 hm
    exact assistWrite_writes h4 hl hroom hm'

/-! ### The host link (R420) -/

theorem hostLink : Claim.HostLink :=
  ⟨fun s n hl => (exec_hostLinkLoss n s).trans (if_neg (by rw [hl]; decide)),
    fun s w v hl hw hv => (exec_hostLinkReturn w v s).trans (if_neg (by simp [hl, hw, hv]))⟩

end Machine

/-! ### The obligation -/

/-- Settles O57. -/
theorem hostPortEvents : Obligations.HostPortEvents := ⟨messages, modeChange, portRegisters, ringWrites, hostLink⟩

end Sys2Proof
end


section
/-! PROOFS. The obligation of 21 on the events of the pod links. -/

namespace Sys2Proof

open Machine

namespace Machine

theorem exec_flitReceive (p : Fin 15) (f : BitVec 2048) (s : State) : exec (.flitReceive p f) s = execFlitReceive p f s := rfl
theorem exec_nak (p : Fin 15) (l : BitVec 12) (s : State) : exec (.nak p l) s = execNak p l s := rfl
theorem exec_endToEndAck (i : StreamId) (n : Word) (s : State) : exec (.endToEndAck i n) s = execEndToEndAck i n s := rfl
theorem exec_endToEndAckTimer (i : StreamId) (s : State) : exec (.endToEndAckTimer i) s = execEndToEndAckTimer i s := rfl
theorem exec_linkView (p : Fin 15) (r : BitVec 128) (s : State) : exec (.linkView p r) s = execLinkView p r s := rfl
theorem exec_viewAck (p : Fin 15) (r : BitVec 128) (s : State) : exec (.viewAck p r) s = execViewAck p r s := rfl
theorem exec_viewTimeout (p : Fin 15) (s : State) : exec (.viewTimeout p) s = execViewTimeout p s := rfl
theorem exec_viewAnswerTimeout (p : Fin 15) (s : State) : exec (.viewAnswerTimeout p) s = execViewAnswerTimeout p s := rfl
theorem exec_podLinkDown (p : Fin 15) (s : State) : exec (.podLinkDown p) s = execPodLinkDown p s := rfl
theorem exec_dirtyLineOffer (die line : Nat) (s : State) : exec (.dirtyLineOffer die line) s = execDirtyLineOffer die line s := rfl
theorem exec_dirtyLineDrop (die line : Nat) (s : State) : exec (.dirtyLineDrop die line) s = execDirtyLineDrop die line s := rfl
theorem exec_homeLinePoison (line : Nat) (s : State) : exec (.homeLinePoison line) s = execHomeLinePoison line s := rfl
theorem exec_unreachableAccessTimeout (i : Nat) (s : State) :
    exec (.unreachableAccessTimeout i) s = execUnreachableAccessTimeout i s := rfl

/-! ### Flits (R413, R416) -/

section
variable {s : State} {port : Fin 15} {f : BitVec 2048}

theorem execFlitReceive_closed (h : (s.rport port.val).st ≠ .up) : execFlitReceive port f s = .next s := if_pos h

section
variable (h : (s.rport port.val).st = .up)
include h

theorem execFlitReceive_damaged (hf : flitOk f = false) :
    execFlitReceive port f s = .next (sendCtl s port.val 3 (((s.rport port.val).rxLseq + 1).setWidth 1856)) :=
  (if_neg (not_not_intro h)).trans (if_pos (by rw [hf]; rfl))

theorem execFlitReceive_other (hf : flitOk f = true) (hl : f.extractLsb' 60 12 ≠ (s.rport port.val).rxLseq + 1) :
    execFlitReceive port f s = .next s :=
  (if_neg (not_not_intro h)).trans ((if_neg (by rw [hf]; decide)).trans (if_pos hl))

/-- The flit that is next on its link is taken: it goes where its kind and its destination say. -/
theorem execFlitReceive_next (hf : flitOk f = true) (hl : f.extractLsb' 60 12 = (s.rport port.val).rxLseq + 1) :
    let u := s.modPort port.val fun r => { r with
      rxLseq := r.rxLseq + 1, retry := r.retry.filter fun e => 2048 ≤ ((f.extractLsb' 48 12 : BitVec 12) - e.1).toNat }
    execFlitReceive port f s =
      if fld f 40 8 ≠ 0 then .next u
      else if fld f 108 4 = s.pkg.val then .next (deliver u (port.val / 4) f)
      else match directPort u (fld f 108 4) (fld f 112 16) with
        | some q => .next (sendOn u q (flitPut f 104 1 1))
        | none => .next u := by
  have hu : (s.modPort port.val fun r => { r with
      rxLseq := r.rxLseq + 1, retry := r.retry.filter fun e => 2048 ≤ ((f.extractLsb' 48 12 : BitVec 12) - e.1).toNat })
      = s.modPort port.val fun r => { r with
      rxLseq := f.extractLsb' 60 12, retry := r.retry.filter fun e => 2048 ≤ ((f.extractLsb' 48 12 : BitVec 12) - e.1).toNat } := by
    rw [hl]
    rfl
  intro u
  rw [show u = _ from hu]
  exact (if_neg (not_not_intro h)).trans ((if_neg (by rw [hf]; decide)).trans (if_neg (not_not_intro hl)))

end

/-- The flits from the one that a NAK names are sent again. -/
theorem execNak_again {l : BitVec 12} (h : (s.rport port.val).st = .up) (hl : (s.rport port.val).retry.any (·.1 == l) = true) :
    let p := port.val
    let r := s.rport p
    let n := if r.nakOf = l then r.nakN + 1 else 1
    let again := r.retry.map fun e => if (e.1 - l).toNat < 2048 then (e.1, flitSeal e.2 e.1 r.rxLseq) else e
    let u := reportError (s.modPort p fun r => { r with nakOf := l, nakN := n, retry := again }) 0 0x202
      (unitSource s (p / 4) (160 + p % 4)) 0 0 none
    execNak port l s = .next (if 16 ≤ n then portTrain u p none else u) :=
  if_neg (by simp [h, hl])

end

theorem flits : Claim.Flits := by
  refine ⟨fun s port f => ⟨execFlitReceive_closed, execFlitReceive_damaged, execFlitReceive_other, fun h hf hl => ?_⟩,
    fun s port l h hl => ⟨fun hn => ?_, fun hn => ?_⟩⟩
  · have hx := (exec_flitReceive port f s).trans (execFlitReceive_next h hf hl)
    refine ⟨fun hk => hx.trans (if_pos hk), fun hk hd => hx.trans ((if_neg (not_not_intro hk)).trans (if_pos hd)),
      fun q hk hd hq => ?_, fun hk hd hq => ?_⟩
    · refine hx.trans ((if_neg (not_not_intro hk)).trans ((if_neg hd).trans ?_))
      rw [hq]
    · refine hx.trans ((if_neg (not_not_intro hk)).trans ((if_neg hd).trans ?_))
      rw [hq]
  · exact (execNak_again h hl).trans (congrArg Host.Outcome.next (if_neg (Nat.not_le.2 hn)))
  · exact (execNak_again h hl).trans (congrArg Host.Outcome.next (if_pos hn))

theorem endToEnd : Claim.EndToEnd := fun s i n =>
  ⟨fun h => (exec_endToEndAck i n s).trans (if_pos h), fun h => (exec_endToEndAckTimer i s).trans (if_pos h), rfl⟩

/-! ### Retraining (R417, R418, R459) -/

section
variable {s : State} {port : Fin 15} {rec : BitVec 128}

theorem execLinkView_dropped (h : (s.rport port.val).st ≠ .training ∨ viewIntact s.podId (s.rport port.val).own rec = false) :
    execLinkView port rec s = .next s :=
  if_pos (by rcases h with h | h <;> simp [h])

section
variable (h : (s.rport port.val).st = .training)
include h

theorem execLinkView_kept (hv : viewIntact s.podId (s.rport port.val).own rec = true) :
    let v : Dword := rec.extractLsb' 0 64
    execLinkView port rec s = .next
      (askView (sendCtl (s.modPort port.val fun r => { r with peerV := some v, peer := some (v.extractLsb' 28 4).toFin }) port.val 2
        ((viewCrc v ++ viewCrc (s.rport port.val).own).setWidth 1856)) port.val) :=
  if_neg (by simp [h, hv])

/-- The matching ack, where the host is not to be waited for. -/
theorem execViewAck_matches {w : Dword} (hp : (s.rport port.val).peerV = some w) (h0 : rec.extractLsb' 0 64 = viewCrc w)
    (h1 : rec.extractLsb' 64 64 = viewCrc (s.rport port.val).own) (hv : viewPending s port.val = false) :
    execViewAck port rec s = if assisted s 3 then .next (match (s.rport port.val).hostV with
        | some w => portUp s port.val w
        | none => s)
      else .next (portUp s port.val (agreedView (s.rport port.val).own w)) := by
  simp only [execViewAck, h, hp, h0, h1, hv, ne_eq, not_true_eq_false, decide_false, Bool.or_self, Bool.false_eq_true, if_false] <;> rfl

theorem execViewTimeout_locked (hk : (s.rport port.val).lock = true) (hv : viewPending s port.val = false) :
    execViewTimeout port s = if assisted s 3 then .next (if (s.rport port.val).hostV.isSome then s else askView s port.val)
      else .next (portDown s port.val) :=
  if_neg (by simp [h, hk, hv])

end
end

/-- The agreed view is the same at both ends. -/
theorem agreedView_comm (a b : Dword) : agreedView a b = agreedView b a := by
  have hs : ∀ x y : BitVec 2, (if x.toNat < y.toNat then y else x) = if y.toNat < x.toNat then x else y := by decide
  unfold agreedView
  rw [BitVec.and_comm (a.extractLsb' 0 8)]
  exact congrArg (Prod.mk _) (hs _ _)

theorem retraining : Claim.Retraining := by
  refine ⟨fun s port lanes speed rec => ⟨rfl, execLinkView_dropped, execLinkView_kept, fun w h hp h0 h1 hv ha => ?_,
    fun h hk hv ha => ?_, fun w g h hp h0 h1 hv ha hg => ?_, fun h hk hv ha hg => ?_, fun h hv => ?_, fun h => ?_⟩, agreedView_comm⟩
  · exact (execViewAck_matches h hp h0 h1 hv).trans (if_neg (by rw [ha]; decide))
  · exact (execViewTimeout_locked h hk hv).trans (if_neg (by rw [ha]; decide))
  · refine (execViewAck_matches h hp h0 h1 hv).trans ((if_pos ha).trans ?_)
    rw [hg]
  · refine (execViewTimeout_locked h hk hv).trans ((if_pos ha).trans ?_)
    rw [hg]
    rfl
  · exact (exec_viewAnswerTimeout port s).trans (if_pos ⟨h, hv⟩)
  · exact (exec_podLinkDown port s).trans (if_neg h)

/-! ### No path to a device (R416, R419) -/

section
variable {s : State} {die line : Nat}

theorem execDirtyLineOffer_far (hd : dirtyLine (s.die die) line = true) (hf : lineDev s line ≠ s.pkg.val) :
    execDirtyLineOffer die line s = if unreachable s (lineDev s line) then
        .next (sliceSend (s.modDie die fun k => { k with offers := setAdd k.offers line }) die line (lineDev s line) 2#3)
      else .next ((evictLine s die line).modDie die fun k => { k with offers := setDel k.offers line }) :=
  if_neg (by simp [hd, hf])

theorem execDirtyLineDrop_offered (ho : line ∈ (s.die die).offers) (hu : unreachable s (lineDev s line) = true) :
    execDirtyLineDrop die line s = .next (reportError (s.modDie die fun k =>
      { (k.evict line).dropUnt line with offers := setDel k.offers line }) 1 0x204 (sliceSource s die line)
        (Config.peerPhys line).toNat 0 none) :=
  if_neg (by simp [ho, hu])

/-- The agents that a home's transaction waits for: the owner where it forwards, the sharers otherwise. -/
theorem execHomeLinePoison_lost {a : Nat} (hb : ((s.die (homeDie (line * 128))).dir line).st = .b)
    (hw : ((s.die (homeDie (line * 128))).dir line).fwd.isSome = true ∧ ((s.die (homeDie (line * 128))).dir line).owner = some a
      ∨ ((s.die (homeDie (line * 128))).dir line).fwd = none ∧ a ∈ ((s.die (homeDie (line * 128))).dir line).sharers)
    (hu : unreachable s (a / 4) = true) :
    let h := homeDie (line * 128)
    let t := (poisonLine s line).modDie h (·.setDir (.idle line))
    execHomeLinePoison line s = .next (wakeLine (reportError t 1 0x205 (sliceSource t h line) (line * 128) 0 none) line) := by
  refine if_neg ?_
  rcases hw with ⟨hf, ho⟩ | ⟨hf, hs⟩
  · simp [hb, hf, ho, hu]
  · simp only [hb, hf, ne_eq, not_true_eq_false, decide_false, Option.isSome_none, Bool.false_eq_true, if_false, Bool.false_or,
      Bool.not_eq_true', Bool.not_eq_false]
    exact List.any_eq_true.2 ⟨a, hs, hu⟩

theorem execUnreachableAccessTimeout_ends {i : Nat} {r : Remote} (hf : s.remotes.find? (·.index == i) = some r)
    (hu : unreachable s r.dev.val = true) : execUnreachableAccessTimeout i s = .next (endRemote s r stLinklost) := by
  simp only [execUnreachableAccessTimeout, hf, hu, if_true]

end

theorem unreachableClaim : Claim.Unreachable :=
  ⟨fun _ _ _ hd hf => ⟨fun hu => (execDirtyLineOffer_far hd hf).trans (if_pos hu),
      fun hu => (execDirtyLineOffer_far hd hf).trans (if_neg (by rw [hu]; decide))⟩,
    fun _ _ _ => execDirtyLineDrop_offered, fun _ _ _ => execHomeLinePoison_lost, fun _ _ _ => execUnreachableAccessTimeout_ends⟩

end Machine

/-! ### The obligation -/

/-- Settles O58. -/
theorem linkEvents : Obligations.LinkEvents := ⟨flits, endToEnd, retraining, unreachableClaim⟩

end Sys2Proof
end


section
/-! PROOFS. The obligation of 21 on the events of twinned partitions. -/

namespace Sys2Proof

open Machine

namespace Machine

theorem exec_digestReceive (pasid : BitVec 20) (agent n : Nat) (d : Dword) (s : State) :
    exec (.digestReceive pasid agent n d) s = execDigestReceive pasid agent n d s := rfl
theorem exec_partnerLostTimeout (pasid : BitVec 20) (s : State) :
    exec (.partnerLostTimeout pasid) s = execPartnerLostTimeout pasid s := rfl
theorem exec_outsideReadData (i : Nat) (data : List Byte) (s : State) :
    exec (.outsideReadData i data) s = execOutsideReadData i data s := rfl

/-! ### Digests (R422, R424) -/

/-- The partner's digest of the agent's oldest closed batch. -/
theorem execDigestReceive_oldest {s : State} {pasid : BitVec 20} {agent n : Nat} {d : Dword} {t : Twin} {b : Batch}
    (ht : s.twins.find? (·.pasid == pasid) = some t) (hb : t.oldest (agent / 64) (agent % 64) = some b) :
    execDigestReceive pasid agent n d s =
      if b.index ≠ n then .next s
      else if b.digest ≠ d then .next (haltTwin s t 0 (agent / 64) (agent % 64) n)
      else if t.second then .next (batchDone s pasid b)
      else match releaseHeld (agent / 64) (agent % 64) b.writes s with
        | (s, []) => .next (batchDone s pasid b)
        | (s, rest) => .next (modTwin s pasid fun t => { t with
            batches := t.batches.map fun (x : Batch) => if x = b then { x with writes := rest } else x }) := by
  simp only [execDigestReceive, ht, hb] <;> rfl

theorem digestReceive {s u : State} {pasid : BitVec 20} {agent n : Nat} {d : Dword} {t : Twin} {b : Batch} {rest : List Defer}
    (ht : s.twins.find? (·.pasid == pasid) = some t) (hb : t.oldest (agent / 64) (agent % 64) = some b) :
    (b.index ≠ n → exec (.digestReceive pasid agent n d) s = .next s)
    ∧ (b.index = n → b.digest ≠ d → exec (.digestReceive pasid agent n d) s = .next (haltTwin s t 0 (agent / 64) (agent % 64) n))
    ∧ (b.index = n → b.digest = d → t.second = true → exec (.digestReceive pasid agent n d) s = .next (batchDone s pasid b))
    ∧ (b.index = n → b.digest = d → t.second = false → releaseHeld (agent / 64) (agent % 64) b.writes s = (u, rest) →
        (rest = [] → exec (.digestReceive pasid agent n d) s = .next (batchDone u pasid b))
        ∧ (rest ≠ [] → exec (.digestReceive pasid agent n d) s = .next (modTwin u pasid fun t => { t with
            batches := t.batches.map fun x => if x = b then { x with writes := rest } else x }))) := by
  have h := (exec_digestReceive pasid agent n d s).trans (execDigestReceive_oldest ht hb)
  refine ⟨fun hi => h.trans (if_pos hi), fun hi hd => h.trans ((if_neg (not_not_intro hi)).trans (if_pos hd)),
    fun hi hd hs => h.trans ((if_neg (not_not_intro hi)).trans ((if_neg (not_not_intro hd)).trans (if_pos hs))),
    fun hi hd hs hr => ?_⟩
  have h' := h.trans ((if_neg (not_not_intro hi)).trans ((if_neg (not_not_intro hd)).trans (if_neg (by rw [hs]; decide))))
  rw [hr] at h'
  refine ⟨fun hn => ?_, fun hn => ?_⟩
  · subst hn
    exact h'
  · obtain ⟨x, l, rfl⟩ := List.exists_cons_of_ne_nil hn
    exact h'

theorem execPartnerLostTimeout_halts {s : State} {pasid : BitVec 20} {t : Twin} {b : Batch} {l : List Batch}
    (ht : s.twins.find? (·.pasid == pasid) = some t) (hb : t.batches = b :: l) :
    execPartnerLostTimeout pasid s = .next (haltTwin s t 1 b.core b.agent b.index) := by
  simp only [execPartnerLostTimeout, ht, hb]

/-! ### The data of the primary (R423) -/

/-- The bytes that the primary's answer must hold. -/
theorem foldl_laneBytes (l : List LaneAcc) (n : Nat) :
    l.foldl (fun n l => n + l.size * Nat.max 1 l.grp.length) n = n + (l.map fun l => l.size * Nat.max 1 l.grp.length).sum := by
  induction l generalizing n with
  | nil => rfl
  | cons x l ih => rw [List.foldl_cons, ih, List.map_cons, List.sum_cons, Nat.add_assoc]

section
variable {s : State} {i : Nat} {data : List Byte} {r : Remote}
  (hf : s.remotes.find? (fun r => r.index == i && secondaries s r) = some r)
include hf

theorem execOutsideReadData_arrives
    (hd : ((r.acc.kind.rd || r.acc.kind == .row) && data.length ≠ (r.acc.lanes.map fun l => l.size * Nat.max 1 l.grp.length).sum) = false) :
    execOutsideReadData i data s = match r.acc.path with
      | .lsu w => .next (finishOut (dropRemote s r) r.core w r.acc
          (if r.acc.kind.rd then dataWrites r.acc.ty r.acc.lanes data else []) 0#32 0#4)
      | p => .next ((dropRemote s r).modCore r.core fun k => { k with
          engGot := k.engGot ++ [⟨p, (r.pas.head?).getD 0, data.map fun b => (b, false)⟩] }) := by
  simp only [execOutsideReadData, hf, foldl_laneBytes, Nat.zero_add]
  exact if_neg (by rw [hd]; decide)

end

end Machine

/-! ### The obligation -/

/-- Settles O59. -/
theorem twinEvents : Obligations.TwinEvents := by
  refine ⟨fun s u pasid agent n d t b rest => digestReceive, fun s pasid t b l => execPartnerLostTimeout_halts,
    fun s i w data r hf hp => ⟨fun hr hd => ?_, fun hr hrow => ?_⟩, fun s i data r hf hp hrow hd => ?_⟩
  · refine (exec_outsideReadData i data s).trans ((execOutsideReadData_arrives hf (by simp [hd])).trans ?_)
    rw [hp, hr]
    rfl
  · refine (exec_outsideReadData i data s).trans ((execOutsideReadData_arrives hf ?_).trans ?_)
    · rw [hr, beq_eq_false_iff_ne.2 hrow]
      rfl
    · rw [hp, hr]
      rfl
  · refine (exec_outsideReadData i data s).trans ((execOutsideReadData_arrives hf (by simp [hd])).trans ?_)
    cases hq : r.acc.path with
    | lsu w => simp [Access.slot?, hq] at hp
    | _ => rfl

end Sys2Proof
end


section
/-! PROOFS. The obligation of 26 on the events of the device: bring-up, power, attestation, errors and mapping requests. -/

namespace Sys2Proof

open Machine

namespace Machine

theorem exec_reset (r : ResetIn) (s : State) : exec (.reset r) s = execReset r s := rfl
theorem exec_govbDecrease (d : Fin 4) (s : State) : exec (.govbDecrease d) s = execGovbDecrease d s := rfl
theorem exec_govbIncrease (d : Fin 4) (s : State) : exec (.govbIncrease d) s = execGovbIncrease d s := rfl
theorem exec_getCapabilities (s : State) : exec .getCapabilities s = execGetCapabilities s := rfl
theorem exec_negotiateAlgorithms (a h : Word) (s : State) :
    exec (.negotiateAlgorithms a h) s = execNegotiateAlgorithms a h s := rfl
theorem exec_getDigests (s : State) : exec .getDigests s = execGetDigests s := rfl
theorem exec_getCertificate (slot : Fin 8) (o l : BitVec 16) (s : State) :
    exec (.getCertificate slot o l) s = execGetCertificate slot o l s := rfl
theorem exec_challenge (slot : Fin 8) (n : BitVec 256) (s : State) : exec (.challenge slot n) s = execChallenge slot n s := rfl
theorem exec_getMeasurements (i : Byte) (s : State) : exec (.getMeasurements i) s = execGetMeasurements i s := rfl
theorem exec_spdmUnsupportedRequest (c : Byte) (s : State) :
    exec (.spdmUnsupportedRequest c) s = execSpdmUnsupportedRequest c s := rfl
theorem exec_uncorrectableSoftError (g : Granule) (s : State) :
    exec (.uncorrectableSoftError g) s = execUncorrectableSoftError g s := rfl
theorem exec_singleBitEccRepair (src : BitVec 16) (pa : Nat) (s : State) :
    exec (.singleBitEccRepair src pa) s = execSingleBitEccRepair src pa s := rfl
theorem exec_mappingRequest (r : MapReq) (s : State) : exec (.mappingRequest r) s = execMappingRequest r s := rfl
theorem exec_addressSpaceDestruction (p : BitVec 20) (s : State) :
    exec (.addressSpaceDestruction p) s = execAddressSpaceDestruction p s := rfl

/-! ### The ports train (R417, R418) -/

theorem rport_modPort_same {s : State} {p : Nat} (h : p < 15) (f : RPort → RPort) : (s.modPort p f).rport p = f (s.rport p) := by
  simp [State.rport, State.modPort, h]
theorem rport_modPort_other {s : State} {p q : Nat} (h : q ≠ p) (f : RPort → RPort) : (s.modPort p f).rport q = s.rport q := by
  simp [State.rport, State.modPort, Ne.symm h]

/-- Between two states no more has changed than a port's record and the D2H queue. -/
structure OnlyPort (p : Nat) (s t : State) : Prop where
  rest : { t with port := s.port, rports := s.rports } = s
  hpcap : t.port.hpcap = s.port.hpcap
  others : ∀ q, q ≠ p → t.rport q = s.rport q

namespace OnlyPort

theorem streams {p : Nat} {s t : State} (h : OnlyPort p s t) : t.streams = s.streams := by
  have h := congrArg State.streams h.rest
  exact h

theorem trans {p : Nat} {s t u : State} (h : OnlyPort p s t) (h' : OnlyPort p t u) : OnlyPort p s u where
  rest := (congrArg (fun x : State => { x with port := s.port, rports := s.rports }) h'.rest).trans h.rest
  hpcap := h'.hpcap.trans h.hpcap
  others q hq := (h'.others q hq).trans (h.others q hq)

end OnlyPort

theorem modPort_onlyPort (s : State) (p : Nat) (f : RPort → RPort) : OnlyPort p s (s.modPort p f) :=
  ⟨rfl, rfl, fun _ hq => rport_modPort_other hq f⟩

theorem sendCtl_onlyPort (s : State) (p k : Nat) (x : BitVec 1856) : OnlyPort p s (sendCtl s p k x) := modPort_onlyPort s p _

theorem d2hOrDrop_onlyPort (s : State) (p ty : Nat) (l : List (Nat × Nat)) : OnlyPort p s (d2hOrDrop s ty l) := by
  unfold d2hOrDrop
  split
  · exact ⟨rfl, rfl, fun _ _ => rfl⟩
  · exact ⟨rfl, rfl, fun _ _ => rfl⟩

/-- With no stream, none is routed anew. -/
theorem reroute_noStreams (old : State) {s : State} (h : s.streams = []) : reroute old s = s := by
  unfold reroute
  rw [h]
  rfl

/-- What a change of a port's state does to its record. -/
def linkPut (st : LinkSt) (f : RPort → RPort) (r : RPort) : RPort := { f r with st := st }

section
variable {s : State} (h : s.streams = [])
include h

theorem setLink_noStreams (p : Nat) (st : LinkSt) (f : RPort → RPort) :
    setLink s p st f = s.modPort p (linkPut st f) ∨ ∃ l, setLink s p st f = d2hOrDrop (s.modPort p (linkPut st f)) 0x85 l := by
  have hm := modPort_onlyPort s p (linkPut st f)
  by_cases hs : (s.rport p).st = st
  · have he : setLink s p st f = reroute s (s.modPort p (linkPut st f)) := congrArg (reroute s) (if_pos hs)
    exact .inl (he.trans (reroute_noStreams s (hm.streams.trans h)))
  · have he : ∃ l, setLink s p st f = reroute s (d2hOrDrop (s.modPort p (linkPut st f)) 0x85 l) :=
      ⟨_, congrArg (reroute s) (if_neg hs)⟩
    obtain ⟨l, he⟩ := he
    exact .inr ⟨l, he.trans (reroute_noStreams s ((hm.trans (d2hOrDrop_onlyPort _ p 0x85 l)).streams.trans h))⟩

theorem setLink_onlyPort (p : Nat) (st : LinkSt) (f : RPort → RPort) : OnlyPort p s (setLink s p st f) := by
  have hm := modPort_onlyPort s p (linkPut st f)
  rcases setLink_noStreams h p st f with he | ⟨l, he⟩
  · exact he ▸ hm
  · exact he ▸ hm.trans (d2hOrDrop_onlyPort _ p 0x85 l)

theorem setLink_st {p : Nat} (hp : p < 15) (st : LinkSt) (f : RPort → RPort) : ((setLink s p st f).rport p).st = st := by
  have hr : ((s.modPort p (linkPut st f)).rport p).st = st := congrArg RPort.st (rport_modPort_same hp _)
  rcases setLink_noStreams h p st f with he | ⟨l, he⟩
  · rw [he, hr]
  · rw [he]
    unfold d2hOrDrop
    split
    · exact hr
    · exact hr

end

/-- A port has trained and sent its own view record. -/
def bootTrain (s : State) (p : Nat) (v : Dword) : State :=
  sendCtl (portTrain s p (some v)) p 1 ((viewCrc v ++ v).setWidth 1856)
/-- It has the peer's view record too, and has acknowledged it. -/
def bootGreet (s : State) (p : Nat) (v w : Dword) : State :=
  sendCtl (s.modPort p fun r => { r with peerV := some w, peer := some (w.extractLsb' 28 4).toFin }) p 2
    ((viewCrc w ++ viewCrc v).setWidth 1856)

theorem bootPort_eq (s : State) (p : Fin 15) (lanes : Byte) (speed : Fin 3) (rec : BitVec 128) :
    bootPort s (p, lanes, speed, rec) =
      let v := viewRec s.podId s.pkg.val p.val speed.val lanes.toNat
      let t := bootTrain s p.val v
      if !viewIntact t.podId v rec then portDown t p.val
      else portUp (bootGreet t p.val v (rec.extractLsb' 0 64)) p.val (agreedView v (rec.extractLsb' 0 64)) := rfl

section
variable {s : State} (h : s.streams = [])
include h

theorem bootTrain_onlyPort (p : Nat) (v : Dword) : OnlyPort p s (bootTrain s p v) :=
  (setLink_onlyPort h p .training _).trans (sendCtl_onlyPort _ p 1 _)

/-- A port of bring-up comes up where the peer's record is intact, and is declared down otherwise. -/
theorem bootPort_trains (x : Fin 15 × Byte × Fin 3 × BitVec 128) :
    OnlyPort x.1.val s (bootPort s x) ∧ ((bootPort s x).rport x.1.val).st =
      if viewIntact s.podId (viewRec s.podId s.pkg.val x.1.val x.2.2.1.val x.2.1.toNat) x.2.2.2 then .up else .down := by
  obtain ⟨p, lanes, speed, rec⟩ := x
  rw [bootPort_eq]
  generalize viewRec s.podId s.pkg.val p.val speed.val lanes.toNat = v
  have ht := bootTrain_onlyPort h p.val v
  have hpod := congrArg State.podId ht.rest
  have hpod : (bootTrain s p.val v).podId = s.podId := hpod
  dsimp only
  rw [hpod]
  by_cases hv : viewIntact s.podId v rec = true
  · have hg : OnlyPort p.val s (bootGreet (bootTrain s p.val v) p.val v (rec.extractLsb' 0 64)) :=
      ht.trans ((modPort_onlyPort _ p.val _).trans (sendCtl_onlyPort _ p.val 2 _))
    rw [if_neg (by rw [hv]; decide), if_pos hv]
    exact ⟨hg.trans (setLink_onlyPort (hg.streams.trans h) _ _ _), setLink_st (hg.streams.trans h) p.isLt _ _⟩
  · rw [if_pos (by rw [Bool.eq_false_iff.2 hv]; decide), if_neg hv]
    exact ⟨ht.trans (setLink_onlyPort (ht.streams.trans h) _ _ _), setLink_st (ht.streams.trans h) p.isLt _ _⟩

end

/-- What the training of some ports leaves: everything but the ports' records and the D2H queue. -/
structure OnlyPorts (s t : State) : Prop where
  rest : { t with port := s.port, rports := s.rports } = s
  hpcap : t.port.hpcap = s.port.hpcap

theorem OnlyPorts.streams {s t : State} (h : OnlyPorts s t) : t.streams = s.streams := by
  have h := congrArg State.streams h.rest
  exact h
theorem OnlyPorts.podId {s t : State} (h : OnlyPorts s t) : t.podId = s.podId := by
  have h := congrArg State.podId h.rest
  exact h
theorem OnlyPorts.pkg {s t : State} (h : OnlyPorts s t) : t.pkg = s.pkg := by
  have h := congrArg State.pkg h.rest
  exact h

theorem bootPorts_onlyPorts (l : List (Fin 15 × Byte × Fin 3 × BitVec 128)) {s : State} (h : s.streams = []) :
    OnlyPorts s (l.foldl bootPort s) ∧ ∀ q, (∀ x ∈ l, x.1.val ≠ q) → (l.foldl bootPort s).rport q = s.rport q := by
  induction l generalizing s with
  | nil => exact ⟨⟨rfl, rfl⟩, fun _ _ => rfl⟩
  | cons x l ih =>
    have hx := (bootPort_trains h x).1
    obtain ⟨hl, ho⟩ := ih (hx.streams.trans h)
    refine ⟨⟨?_, hl.hpcap.trans hx.hpcap⟩, fun q hq => ?_⟩
    · exact (congrArg (fun y : State => { y with port := s.port, rports := s.rports }) hl.rest).trans hx.rest
    · obtain ⟨hq, hql⟩ := List.forall_mem_cons.1 hq
      exact (ho q hql).trans (hx.others q (Ne.symm hq))

/-- The last training of a port decides its state. -/
theorem bootPorts_st {before after : List (Fin 15 × Byte × Fin 3 × BitVec 128)} {x : Fin 15 × Byte × Fin 3 × BitVec 128}
    {s : State} (h : s.streams = []) (hlast : ∀ y ∈ after, y.1 ≠ x.1) :
    (((before ++ x :: after).foldl bootPort s).rport x.1.val).st =
      if viewIntact s.podId (viewRec s.podId s.pkg.val x.1.val x.2.2.1.val x.2.1.toNat) x.2.2.2 then .up else .down := by
  have hb := (bootPorts_onlyPorts before h).1
  obtain ⟨hx, hst⟩ := bootPort_trains (hb.streams.trans h) x
  have ha := (bootPorts_onlyPorts after (hx.streams.trans (hb.streams.trans h))).2 x.1.val fun y hy hv => hlast y hy (Fin.ext hv)
  rw [List.foldl_append, List.foldl_cons, ha, hst, hb.podId, hb.pkg]

/-! ### Bring-up (R451 to R453) -/

theorem core_noWarps (s : State) (p : Nat → Bool) {c : Nat} (hc : c < 384) :
    (noWarps s p).core c = if p c then { s.core c with warps := Vector.replicate 32 none } else s.core c := by
  have h : (noWarps s p).cores[c]? = some (if p c then { s.cores[c] with warps := Vector.replicate 32 none } else s.cores[c]) :=
    (Vector.getElem?_eq_getElem hc).trans (congrArg some (Vector.getElem_ofFn hc))
  rw [State.core, h, State.core, Vector.getElem?_eq_getElem hc]
  rfl

theorem warp?_noWarps (s : State) {p : Nat → Bool} {c : Nat} (hc : c < 384) (hp : p c = true) (w : Nat) :
    (noWarps s p).warp? c w = none := by
  rw [State.warp?, core_noWarps s p hc, if_pos hp]
  by_cases hw : w < 32
  · simp [Core.warp?, hw]
  · simp [Core.warp?, hw]

/-- A component other than the cores stays. -/
theorem noWarps_field {β : Type} (s : State) (p : Nat → Bool) (f : State → β) (hf : ∀ x c, f { x with cores := c } = f x) :
    f (noWarps s p) = f s := by
  unfold noWarps
  exact hf s _

/-- What bring-up from an accepted image makes of a state: its ports train, and no warp stands on the cores that `p` names. -/
def booted (u : State) (l : List (Fin 15 × Byte × Fin 3 × BitVec 128)) (p : Nat → Bool) : State := noWarps (l.foldl bootPort u) p

section
variable {u : State} (h : u.streams = []) (l : List (Fin 15 × Byte × Fin 3 × BitVec 128)) (p : Nat → Bool)
include h

/-- A component other than the ports, the host port and the cores stays. -/
theorem booted_field {β : Type} (f : State → β)
    (hf : ∀ x a b c, f { x with port := a, rports := b, cores := c } = f x) : f (booted u l p) = f u := by
  have hr := congrArg f (bootPorts_onlyPorts l h).1.rest
  have hp := hf (l.foldl bootPort u) u.port u.rports (l.foldl bootPort u).cores
  exact (noWarps_field _ p f fun x c => hf x x.port x.rports c).trans (hp.symm.trans hr)

theorem booted_hpcap : (booted u l p).port.hpcap = u.port.hpcap :=
  (noWarps_field _ p (fun s => s.port.hpcap) fun _ _ => rfl).trans (bootPorts_onlyPorts l h).1.hpcap

theorem booted_core {c : Nat} (hc : c < 384) (hp : p c = false) : (booted u l p).core c = u.core c := by
  have hr := congrArg State.cores (bootPorts_onlyPorts l h).1.rest
  have hr : (l.foldl bootPort u).cores = u.cores := hr
  rw [booted, core_noWarps _ _ hc, if_neg (by rw [hp]; decide), State.core, hr]
  rfl

theorem booted_rport {q : Nat} (hq : ∀ x ∈ l, x.1.val ≠ q) : (booted u l p).rport q = u.rport q :=
  (noWarps_field _ p (fun s => s.rport q) fun _ _ => rfl).trans ((bootPorts_onlyPorts l h).2 q hq)

end

theorem rport_reset (q : Nat) : State.reset.rport q = RPort.fresh := by
  by_cases hq : q < 15 <;> simp [State.rport, State.reset, hq]

/-- The state in which the ports of an accepted image train. -/
def bootImage (s : State) (r : ResetIn) (flash : List Byte) : State :=
  let t := resetKeep { s with fuses := { s.fuses with flash := flash } }
  let t := { t with
    fuses := { t.fuses with roll := BitVec.ofNat 16 (Nat.max s.fuses.roll.toNat (imgSvn flash)) }
    port := { t.port with hpcap := resetHpcap r r.cxl } }
  match r.pod with
  | some (pod, pkg, clock) => { t with podId := pod, pkg := pkg, gtc := clock }
  | none => t
/-- The state after a refused image. -/
def bootRecovery (s : State) (r : ResetIn) (flash : List Byte) : State :=
  let t := resetKeep { s with fuses := { s.fuses with flash := flash } }
  noWarps { t with boot := .recovery, port := { t.port with hpcap := resetHpcap r false } } fun _ => true
theorem bootRecovery_noWarp (s : State) (r : ResetIn) (flash : List Byte) {c : Nat} (hc : c < 384) (w : Nat) :
    (bootRecovery s r flash).warp? c w = none := warp?_noWarps _ hc (p := fun _ => true) rfl w
/-- The image that bring-up reads: the one in the load window of a device in recovery, or the one in the flash (R453). -/
def bootFlash (s : State) (r : ResetIn) : List Byte :=
  match s.boot, r.image with
  | .recovery, some b => if b.length ≤ 0x4000000 then b else s.fuses.flash
  | _, _ => s.fuses.flash

theorem execReset_eq {s : State} {r : ResetIn} (hw : r.width ≠ 3) (hv : r.speed ≠ 3) : execReset r s =
    if firmwareOk s.fuses.key s.fuses.roll (bootFlash s r) then
      .next (booted (bootImage s r (bootFlash s r)) r.links (bootImage s r (bootFlash s r)).fuses.off.contains)
    else .next (bootRecovery s r (bootFlash s r)) :=
  if_neg (by simp [hw, hv])

theorem bootImage_field {β : Type} (s : State) (r : ResetIn) (flash : List Byte) (f : State → β)
    (hf : ∀ x a b c, f { x with podId := a, pkg := b, gtc := c } = f x) :
    f (bootImage s r flash) = f { resetKeep s with
      fuses := { s.fuses with flash := flash, roll := BitVec.ofNat 16 (Nat.max s.fuses.roll.toNat (imgSvn flash)) }
      port := { State.reset.port with hpcap := resetHpcap r r.cxl } } := by
  unfold bootImage
  split
  · exact hf _ _ _ _
  · rfl

theorem imgSvn_lt (b : List Byte) : imgSvn b < 2 ^ 16 := Nat.mod_lt _ (by decide)

section
variable (s : State) (r : ResetIn) (flash : List Byte) (p : Nat → Bool)

theorem bootImage_streams : (bootImage s r flash).streams = [] := bootImage_field s r flash State.streams fun _ _ _ _ => rfl

/-- A component that neither the pod's answer nor the training of the ports decides is the one of reset, or is kept. -/
theorem boot_field {β : Type} (f : State → β)
    (hf : ∀ x a b c d e g, f { x with port := a, rports := b, cores := c, podId := d, pkg := e, gtc := g } = f x) :
    f (booted (bootImage s r flash) r.links p) = f { resetKeep s with
      fuses := { s.fuses with flash := flash, roll := BitVec.ofNat 16 (Nat.max s.fuses.roll.toNat (imgSvn flash)) }
      port := { State.reset.port with hpcap := resetHpcap r r.cxl } } :=
  (booted_field (bootImage_streams s r flash) r.links p f fun x a b c => hf x a b c x.podId x.pkg x.gtc).trans
    (bootImage_field s r flash f fun x a b c => hf x x.port x.rports x.cores a b c)

theorem boot_hpcap : (booted (bootImage s r flash) r.links p).port.hpcap = resetHpcap r r.cxl :=
  (booted_hpcap (bootImage_streams s r flash) r.links p).trans
    (bootImage_field s r flash (fun s => s.port.hpcap) fun _ _ _ _ => rfl)

theorem boot_pod {pod : BitVec 16} {pkg : Fin 16} {clock : Dword} (h : r.pod = some (pod, pkg, clock)) :
    (booted (bootImage s r flash) r.links p).podId = pod ∧ (booted (bootImage s r flash) r.links p).pkg = pkg
      ∧ (booted (bootImage s r flash) r.links p).gtc = clock := by
  have hs := bootImage_streams s r flash
  rw [booted_field hs r.links p State.podId fun _ _ _ _ => rfl, booted_field hs r.links p State.pkg fun _ _ _ _ => rfl,
    booted_field hs r.links p State.gtc fun _ _ _ _ => rfl]
  simp only [bootImage, h, and_self]

theorem boot_core {c : Nat} (hc : c < 384) (hp : p c = false) :
    (booted (bootImage s r flash) r.links p).core c = State.reset.core c :=
  (booted_core (bootImage_streams s r flash) r.links p hc hp).trans
    (bootImage_field s r flash (fun s => s.core c) fun _ _ _ _ => rfl)

theorem boot_roll : (booted (bootImage s r flash) r.links p).fuses.roll.toNat = Nat.max s.fuses.roll.toNat (imgSvn flash) := by
  rw [boot_field s r flash p (fun s => s.fuses.roll) fun _ _ _ _ _ _ _ => rfl]
  exact Nat.mod_eq_of_lt (Nat.max_lt.2 ⟨s.fuses.roll.isLt, imgSvn_lt flash⟩)

theorem boot_port_down {q : Nat} (hq : ∀ x ∈ r.links, x.1.val ≠ q) :
    ((booted (bootImage s r flash) r.links p).rport q).st = .down := by
  have hr : (bootImage s r flash).rport q = State.reset.rport q := bootImage_field s r flash (fun s => s.rport q) fun _ _ _ _ => rfl
  rw [booted_rport (bootImage_streams s r flash) r.links p hq, hr, rport_reset]
  rfl

theorem boot_port_trained {before after : List (Fin 15 × Byte × Fin 3 × BitVec 128)} {x : Fin 15 × Byte × Fin 3 × BitVec 128}
    (hl : r.links = before ++ x :: after) (hlast : ∀ y ∈ after, y.1 ≠ x.1) :
    let t := booted (bootImage s r flash) r.links p
    (t.rport x.1.val).st =
      if viewIntact t.podId (viewRec t.podId t.pkg.val x.1.val x.2.2.1.val x.2.1.toNat) x.2.2.2 then .up else .down := by
  have hs := bootImage_streams s r flash
  intro t
  rw [show t.podId = _ from booted_field hs r.links p State.podId fun _ _ _ _ => rfl,
    show t.pkg = _ from booted_field hs r.links p State.pkg fun _ _ _ _ => rfl,
    show t.rport x.1.val = _ from noWarps_field _ p (fun s => s.rport x.1.val) fun _ _ => rfl]
  rw [hl]
  exact bootPorts_st hs hlast

end

theorem bringUp : Claim.BringUp := by
  intro s r hw hv
  have he := (exec_reset r s).trans (execReset_eq hw hv)
  by_cases hf : firmwareOk s.fuses.key s.fuses.roll (bootFlash s r) = true
  · have hoff : (bootImage s r (bootFlash s r)).fuses.off = s.fuses.off :=
      bootImage_field s r _ (fun s => s.fuses.off) fun _ _ _ _ => rfl
    rw [hoff] at he
    have hk := fun {β : Type} => boot_field s r (bootFlash s r) s.fuses.off.contains (β := β)
    refine ⟨_, he.trans (if_pos hf), ?_⟩
    exact ⟨hk (fun s => s.fuses.flash) fun _ _ _ _ _ _ _ => rfl, hk (fun s => s.fuses.key) fun _ _ _ _ _ _ _ => rfl,
      hk (fun s => s.fuses.rom) fun _ _ _ _ _ _ _ => rfl, hk (fun s => s.fuses.off) fun _ _ _ _ _ _ _ => rfl,
      hk State.hostMem fun _ _ _ _ _ _ _ => rfl, hk State.sens fun _ _ _ _ _ _ _ => rfl, hk State.sensB fun _ _ _ _ _ _ _ => rfl,
      hk State.agenda fun _ _ _ _ _ _ _ => rfl, hk State.tick fun _ _ _ _ _ _ _ => rfl, hk State.hbm fun _ _ _ _ _ _ _ => rfl,
      hk State.dies fun _ _ _ _ _ _ _ => rfl, hk State.errs fun _ _ _ _ _ _ _ => rfl, hk State.modes fun _ _ _ _ _ _ _ => rfl,
      fun _ => ⟨hk State.boot fun _ _ _ _ _ _ _ => rfl, boot_roll .., boot_hpcap .., fun pod pkg clock hp => boot_pod s r _ _ hp,
        fun c hc w ho => warp?_noWarps _ hc (List.contains_iff_mem.2 ho) w,
        fun c hc ho => boot_core s r _ _ hc (Bool.eq_false_iff.2 (mt List.contains_iff_mem.1 ho)),
        fun q _ hq => boot_port_down s r _ _ hq, fun before after x hl hx => boot_port_trained s r _ _ hl hx⟩,
      fun h => absurd hf (by rw [show firmwareOk s.fuses.key s.fuses.roll (bootFlash s r) = false from h]; decide)⟩
  · refine ⟨_, he.trans (if_neg hf), rfl, rfl, rfl, rfl, rfl, rfl, rfl, rfl, rfl, rfl, rfl, rfl, rfl, fun h => absurd h hf,
      fun _ => ⟨rfl, rfl, rfl, fun c hc w => bootRecovery_noWarp s r _ hc w⟩⟩

/-! ### Power and sensors (R449, R450, R455) -/

/-- A change of some cores, each once, changes those cores and no other. -/
theorem foldl_modCore_core (g : Core → Core) {i : Nat} (hi : i < 384) :
    ∀ (l : List Nat) (s : State), l.Nodup →
      (l.foldl (fun s c => s.modCore c g) s).core i = if i ∈ l then g (s.core i) else s.core i
  | [], _, _ => (if_neg List.not_mem_nil).symm
  | c :: l, s, hn => by
    obtain ⟨hc, hl⟩ := List.nodup_cons.1 hn
    rw [List.foldl_cons, foldl_modCore_core g hi l _ hl, core_modCore]
    by_cases hic : i = c
    · subst hic
      rw [if_neg hc, if_pos ⟨rfl, hi⟩, if_pos List.mem_cons_self]
    · rw [if_neg (fun h : i = c ∧ c < 384 => hic h.1)]
      simp only [List.mem_cons, hic, false_or]

theorem setGovb_core (s : State) (d : Fin 4) (f : Core → BitVec 9) {c : Nat} (hc : c < 384) :
    (setGovb s d.val f).core c = if c / 96 = d.val then { s.core c with govB := f (s.core c) } else s.core c := by
  have hmem : c ∈ (List.range 96).map (· + 96 * d.val) ↔ c / 96 = d.val := by
    simp only [List.mem_map, List.mem_range]
    constructor
    · rintro ⟨x, hx, rfl⟩
      omega
    · intro h
      exact ⟨c - 96 * d.val, by omega, by omega⟩
  have hn : ((List.range 96).map (· + 96 * d.val)).Nodup :=
    List.pairwise_map.2 (List.nodup_range.imp fun h e => h (Nat.add_right_cancel e))
  rw [setGovb, foldl_modCore_core _ hc _ s hn]
  simp only [hmem]

theorem power : Claim.Power := fun s d =>
  ⟨⟨_, exec_govbDecrease d s, fun _ hc => setGovb_core s d _ hc⟩, ⟨_, exec_govbIncrease d s, fun _ hc => setGovb_core s d _ hc⟩,
    rfl, fun _ => rfl⟩

/-! ### SPDM (R454) -/

/-- A request that must be preceded by another is answered with an ERROR, or with its response. -/
theorem answered {x : Out} {b : Bool} {t u : State} (h : x = if !b then .next t else .next u) :
    ∃ v, x = .next v ∧ (b = false → v = t) ∧ (b = true → v = u) := by
  cases b
  · exact ⟨t, h, fun _ => rfl, fun h => absurd h (by decide)⟩
  · exact ⟨u, h, fun h => absurd h (by decide), fun _ => rfl⟩

/-- The response to a GET_CERTIFICATE. -/
def certAnswer (s : State) (slot : Fin 8) (off len : BitVec 16) : State :=
  if slot ≠ 0 || Config.certLen ≤ off.toNat then spdmErr s 1
  else
    let p := (certBytes.drop off.toNat).take len.toNat
    spdmMsg s 0x02 0 0 (leBytes 2 p.length ++ leBytes 2 (Config.certLen - off.toNat - p.length) ++ p)
/-- The response to a CHALLENGE. -/
def challengeAnswer (s : State) (slot : Fin 8) : State :=
  if slot ≠ 0 then spdmErr s 1
  else spdmMsg s 0x03 0 1 (sha512 certBytes ++ spdmFree s 32 ++ [0#8, 0#8] ++ (spdmFree s 544).drop 32)

theorem execGetCertificate_eq (slot : Fin 8) (off len : BitVec 16) (s : State) : execGetCertificate slot off len s =
    if !s.spdm.algs then .next (spdmErr s 4) else .next (certAnswer s slot off len) :=
  congrArg (ite _ _) (apply_ite Host.Outcome.next _ _ _).symm
theorem execChallenge_eq (slot : Fin 8) (n : BitVec 256) (s : State) : execChallenge slot n s =
    if !s.spdm.algs then .next (spdmErr s 4) else .next (challengeAnswer s slot) :=
  congrArg (ite _ _) (apply_ite Host.Outcome.next _ _ _).symm

/-- The response to a GET_MEASUREMENTS of an index. -/
def measureAnswer (s : State) (i : Nat) : State :=
  let put := fun (l : List Nat) =>
    let b := l.foldl (fun b i => b ++ measureBlock s i) []
    spdmMsg s 0x60 0 0 ([BitVec.ofNat 8 l.length] ++ leBytes 3 b.length ++ b ++ spdmFree s 32 ++ [0#8, 0#8] ++ (spdmFree s 544).drop 32)
  if i = 0 then spdmMsg s 0x60 4 0 ([0#8, 0#8, 0#8, 0#8] ++ spdmFree s 32 ++ [0#8, 0#8])
  else if i = 255 then put [1, 2, 3, 4]
  else if i ≤ 4 then put [i] else spdmErr s 1

theorem execGetMeasurements_eq (i : Byte) (s : State) :
    execGetMeasurements i s = if !s.spdm.algs then .next (spdmErr s 4) else .next (measureAnswer s i.toNat) := by
  unfold execGetMeasurements measureAnswer
  generalize i.toNat = n
  split
  · rfl
  · dsimp only
    split
    · rfl
    · rfl
    · rename_i h0 h255
      exact congrArg Host.Outcome.next ((if_neg h0).trans (if_neg h255)).symm

theorem measureAnswer_out_of_range {s : State} {i : Nat} (h4 : 4 < i) (h255 : i ≠ 255) : measureAnswer s i = spdmErr s 1 := by
  exact (if_neg (by omega)).trans ((if_neg h255).trans (if_neg (Nat.not_le.2 h4)))

/-- The bytes of one measurement block in its response. -/
theorem measureAnswer_one {s : State} {i : Nat} (h1 : 1 ≤ i) (h4 : i ≤ 4) : ∃ hdr rest, hdr.length = 8 ∧ hdr[0]? = some 0x13#8
    ∧ hdr[1]? = some 0x60#8 ∧ (measureAnswer s i).spdm.out = hdr ++ (measureBlock s i ++ rest) := by
  have hm : measureAnswer s i = spdmMsg s 0x60 0 0 ([1#8] ++ leBytes 3 (measureBlock s i).length ++ measureBlock s i
      ++ spdmFree s 32 ++ [0#8, 0#8] ++ (spdmFree s 544).drop 32) :=
    (if_neg (by omega)).trans ((if_neg (by omega)).trans (if_pos h4))
  refine ⟨[0x13#8, 0x60#8, 0#8, 0#8, 1#8] ++ leBytes 3 (measureBlock s i).length, spdmFree s 32 ++ [0#8, 0#8] ++ (spdmFree s 544).drop 32,
    rfl, rfl, rfl, ?_⟩
  rw [hm]
  simp only [spdmMsg, List.append_assoc]
  rfl

theorem take_drop_of_append {α : Type} {l hdr b rest : List α} (h : l = hdr ++ (b ++ rest)) :
    (l.drop hdr.length).take b.length = b := by
  rw [h, List.drop_left, List.take_left]

theorem attestation : Claim.Attestation := by
  intro s
  refine ⟨⟨_, rfl, rfl, rfl, rfl, rfl⟩, ?_, fun a h => ?_, ?_, fun slot off len => ?_, fun slot n => ?_, fun i => ?_, fun c => ?_⟩
  · obtain ⟨v, hv, h0, h1⟩ := answered (exec_getCapabilities s)
    exact ⟨v, hv, h0, fun h => h1 h ▸ ⟨rfl, rfl, rfl⟩⟩
  · obtain ⟨v, hv, h0, h1⟩ := answered (exec_negotiateAlgorithms a h s)
    exact ⟨v, hv, h0, fun h => h1 h ▸ ⟨⟨rfl, rfl⟩, rfl⟩⟩
  · obtain ⟨v, hv, h0, h1⟩ := answered ((exec_getDigests s).trans (apply_ite _ _ _ _))
    exact ⟨v, hv, h0, fun h => h1 h ▸ rfl⟩
  · obtain ⟨v, hv, h0, h1⟩ := answered ((exec_getCertificate slot off len s).trans (execGetCertificate_eq slot off len s))
    refine ⟨v, hv, h0, fun h hslot => (h1 h).trans (if_pos (by simp [hslot])), fun h hslot => ?_⟩
    split
    · next hc => exact (h1 h).trans (if_pos (by simp [hc]))
    · next hc =>
      rw [h1 h, certAnswer, if_neg (by simp [hslot, hc])]
      simp only [spdmMsg, List.append_assoc]
  · obtain ⟨v, hv, h0, h1⟩ := answered ((exec_challenge slot n s).trans (execChallenge_eq slot n s))
    refine ⟨v, hv, h0, fun h hslot => (h1 h).trans (if_pos hslot), fun h hslot => ?_⟩
    rw [h1 h, challengeAnswer, if_neg (not_not_intro hslot)]
    refine ⟨⟨rfl, rfl⟩, ?_⟩
    simp only [spdmMsg, List.append_assoc]
    exact take_drop_of_append (hdr := [0x13#8, 0x03#8, 0#8, 1#8]) rfl
  · obtain ⟨v, hv, h0, h1⟩ := answered ((exec_getMeasurements i s).trans (execGetMeasurements_eq i s))
    refine ⟨v, hv, h0, fun h h4 h255 => (h1 h).trans (measureAnswer_out_of_range h4 h255), fun h hi => ?_, fun h hl h4 => ?_,
      fun h hi => ?_⟩
    · rw [h1 h, hi]
      exact ⟨⟨rfl, rfl⟩, rfl⟩
    · obtain ⟨hdr, rest, hlen, hz, ho, hout⟩ := measureAnswer_one (s := s) hl h4
      rw [h1 h]
      refine ⟨⟨?_, ?_⟩, ?_⟩
      · rw [hout, List.getElem?_append_left (by omega), hz]
      · rw [hout, List.getElem?_append_left (by omega), ho]
      · have hb := take_drop_of_append hout
        rwa [hlen] at hb
    · rw [h1 h, hi]
      exact ⟨⟨rfl, rfl⟩, rfl⟩
  · refine ⟨_, rfl, ?_⟩
    by_cases hc : c ∈ spdmSupported
    · rw [if_pos (List.contains_iff_mem.2 hc)]
      exact (if_pos hc).symm
    · rw [if_neg (mt List.contains_iff_mem.1 hc)]
      refine Eq.trans ?_ (if_neg hc).symm
      simp [spdmMsg]

/-! ### Errors (R85, R456, R457) -/

/-- A corrected error is logged only. -/
theorem reportError_corrected (s : State) (code : Nat) (src : BitVec 16) (addr detail : Nat) :
    reportError s 0 code src addr detail none = (logError s 0 code src addr detail).1 := rfl

theorem lostBytes_length (s : State) (n : Nat) : (lostBytes s n).length = n := by
  simp [lostBytes]

/-- Every byte outside a destroyed granule of memory stays. -/
theorem destroy_mem_byteAt (s : State) {pa a : Nat} (h : a / 64 ≠ pa / 64) : (destroy s (.mem pa)).byteAt a = s.byteAt a := by
  refine wrBytes_get_out s.hbm (pa / 64 * 64) (lostBytes s 64) ?_
  rw [lostBytes_length]
  omega

theorem errorEvents : Claim.ErrorEvents := by
  intro s
  refine ⟨rfl, fun g hg => (exec_uncorrectableSoftError g s).trans (if_neg (by rw [hg]; decide)),
    fun _ pa _ => ⟨(mem_setAdd _ _ _).2 (.inl rfl), fun a ha => destroy_mem_byteAt s ha⟩, fun src pa => ⟨fun h => ?_, fun h => ?_⟩,
    rfl, fun _ => rfl⟩
  · exact (exec_singleBitEccRepair src pa s).trans (congrArg Host.Outcome.next ((if_pos h).trans (reportError_corrected ..)))
  · exact (exec_singleBitEccRepair src pa s).trans (congrArg Host.Outcome.next (if_neg (by rw [h]; decide)))

/-! ### Mapping requests (R197, R199, R336) -/

theorem mappingRequest_applies {s t : State} {r : MapReq} (h : mapRequest s r = some t) : exec (.mappingRequest r) s = .next t :=
  (exec_mappingRequest r s).trans (congrArg (fun o : Option State => Host.Outcome.next (o.getD s)) h)
theorem mappingRequest_refuses {s : State} {r : MapReq} (h : mapRequest s r = none) : exec (.mappingRequest r) s = .next s :=
  (exec_mappingRequest r s).trans (congrArg (fun o : Option State => Host.Outcome.next (o.getD s)) h)

section
variable {s : State} {pasid : BitVec 20} {va : Dword}

section
variable {level : Fin 3} {entry : Dword} {force : Bool}

theorem mapRequest_setLeaf_anchored
    (ha : (rootLeaves s pasid (va.toNat / 2 ^ levelShift level.val * 2 ^ levelShift level.val) level.val).any (anchors s ·) = true) :
    mapRequest s (.setLeaf pasid va level entry force) = none :=
  if_pos (by rw [ha]; simp)

theorem mapRequest_setLeaf {t : State} (hc : canonical va = true)
    (hb : pageBusy s pasid (va.toNat / 2 ^ levelShift level.val * 2 ^ levelShift level.val) (2 ^ levelShift level.val) = false)
    (ha : (rootLeaves s pasid (va.toNat / 2 ^ levelShift level.val * 2 ^ levelShift level.val) level.val).any (anchors s ·) = false)
    (ht : setEntry s pasid (va.toNat / 2 ^ levelShift level.val * 2 ^ levelShift level.val) level.val entry = some t) :
    let size := 2 ^ levelShift level.val
    let base := va.toNat / size * size
    let new := rootLeaves t pasid base level.val
    mapRequest s (.setLeaf pasid va level entry force) =
      if !force && new.any (mixedType t pasid ·) then none
      else some (invalidateVa (new.foldl (fun t x => if x.own t then takeFrames t x.pa x.size else t) t) pasid base size) :=
  (if_neg (by rw [hc, hb, ha]; decide)).trans (congrArg (Option.bind · _) ht)

end

section
variable {x : Leaf} (hx : rootLeaf s pasid va.toNat = some x)
include hx

theorem mapRequest_unmap : mapRequest s (.unmap pasid va) =
    if anchors s x || pageBusy s pasid (va.toNat / x.size * x.size) x.size then none
    else
      let u := invalidateVa (pteWrite s x.addr 0#64) pasid (va.toNat / x.size * x.size) x.size
      some (if (rangeOf u pasid (va.toNat / x.size * x.size)).isSome then giveFrame u x else u) := by
  simp only [mapRequest, hx]

end

theorem mapRequest_declare {bytes : Nat} {unt rd w x big : Bool} {src : FillSource} {u : State} {root : Nat}
    (h0 : bytes ≠ 0) (hb : bytes % (if big then 0x200000 else 0x10000) = 0) (hv : va.toNat % (if big then 0x200000 else 0x10000) = 0)
    (hc : canonical va = true)
    (hm : ((s.die 0).ranges.any fun r => r.pasid == pasid && r.va < va.toNat + bytes && va.toNat < r.va + r.bytes) = false)
    (hr : rootOf s pasid = some (u, root)) : mapRequest s (.declare pasid va bytes unt rd w x big src) = some { u with
      dies := u.dies.map fun (k : Die) => { k with ranges := k.ranges ++ [⟨pasid, va.toNat, bytes, unt, rd, w, x, big, src⟩] } } :=
  (if_neg (by
    rw [hm, hc, hb, hv]
    simp [h0])).trans (congrArg (Option.map _) hr)

end

/-- The leaves of some tables, one after the other. -/
theorem destroyed_leaves (s : State) (l : List Root) :
    l.foldl (fun l r => l ++ leavesAt s 4 r.root) [] = l.flatMap fun r => leavesAt s 4 r.root :=
  List.flatMap_eq_foldl.symm

/-- What the end of an address space does once its tickets have failed and its nibs are unbound. -/
def endSpace (pasid : BitVec 20) (u : State) : Out :=
  let old := ((u.die 0).roots.filter (·.pasid == pasid)).flatMap fun r => leavesAt u 4 r.root
  let v := { u with dies := u.dies.map fun (k : Die) =>
    { k with roots := k.roots.filter (·.pasid != pasid), ranges := k.ranges.filter (·.pasid != pasid) } }
  if spaceHeld u pasid then .next u else .next (old.foldl giveFrame (dropXlats v (·.pasid == pasid)))

theorem execAddressSpaceDestruction_eq (pasid : BitVec 20) (s : State) :
    execAddressSpaceDestruction pasid s = endSpace pasid (unbindSpace (abortSpace s pasid) pasid) := by
  unfold execAddressSpaceDestruction endSpace
  generalize unbindSpace (abortSpace s pasid) pasid = u
  dsimp only
  rw [destroyed_leaves]

theorem mappingEvents : Claim.MappingEvents := by
  refine ⟨fun s pasid va => ⟨fun level entry force t => ?_, fun x hx => ⟨fun h => ?_, fun ha hb => ?_⟩, ?_, ?_, fun h => ?_⟩,
    fun s pasid => ?_⟩
  · intro size base old new hc hb
    refine ⟨fun ha => mappingRequest_refuses (mapRequest_setLeaf_anchored ha), fun ha ht => ⟨fun hf => ?_, fun hf => ?_⟩⟩
    · refine mappingRequest_refuses ((mapRequest_setLeaf hc hb ha ht).trans (if_pos ?_))
      rw [hf.1, show new.any (mixedType t pasid ·) = true from hf.2]
      rfl
    · refine mappingRequest_applies ((mapRequest_setLeaf hc hb ha ht).trans (if_neg ?_))
      rcases hf with hf | hf
      · rw [hf]
        simp
      · rw [show new.any (mixedType t pasid ·) = false from hf]
        simp
  · exact mappingRequest_refuses ((mapRequest_unmap hx).trans (if_pos (Bool.or_eq_true_iff.2 h)))
  · exact mappingRequest_applies ((mapRequest_unmap hx).trans (if_neg (by rw [ha, show pageBusy .. = false from hb]; decide)))
  · intro bytes unt rd w x big src u root p h0 hb hv hc hm hr
    exact mappingRequest_applies (mapRequest_declare h0 hb hv hc hm hr)
  · intro h u root hr
    exact mappingRequest_applies (congrArg (Option.map _) hr)
  · exact mappingRequest_applies (if_pos h)
  · intro u1 u old v
    have hu : unbindSpace (abortSpace s pasid) pasid = u := by
      unfold unbindSpace abortSpace unbindNibs
      rfl
    clear_value u
    have he : exec (.addressSpaceDestruction pasid) s = endSpace pasid u := by
      rw [exec_addressSpaceDestruction, execAddressSpaceDestruction_eq, hu]
    exact ⟨fun h => he.trans (if_pos h), fun h => he.trans (if_neg (by rw [h]; decide))⟩

end Machine

/-! ### The obligation -/

/-- Settles O60. -/
theorem deviceEvents : Obligations.DeviceEvents := ⟨bringUp, power, attestation, errorEvents, mappingEvents⟩

end Sys2Proof
end


section
/-! PROOFS. The obligation of 03 and 07 on what a step runs. -/

namespace Sys2Proof

open Machine

namespace Machine

/-- A device whose dies have no power (R450), with a contained error in its log and a read of ERRSTAT as the next event. -/
def poweredOff : State :=
  { State.reset with boot := .off, errs := { State.reset.errs with cont := true }, agenda := [.event .errstatRead] }

/-- Nothing but a reset and the sensors acts without power: the event leaves the state. -/
theorem step_poweredOff : step poweredOff = .next (nextAct poweredOff).2 := rfl

theorem exec_errstatRead (s : State) : exec .errstatRead s = .next { s with errs := { s.errs with cont := false } } := rfl

end Machine

/-! ### The obligation -/

/-- Refutes O8: the second part leaves out that an event other than a reset or a sensor reading does nothing on a device whose power a
thermal trip has taken away (R450), so there a step is not `exec` of the event: a read of ERRSTAT keeps CONT. -/
theorem not_stepRunsDecoded : ¬ Obligations.StepRunsDecoded := by
  unfold Obligations.StepRunsDecoded
  rintro ⟨-, hevent, -⟩
  have h := hevent poweredOff .errstatRead [] rfl rfl (fun c w he => Instr.noConfusion he)
  rw [step_poweredOff, exec_errstatRead] at h
  have hcont : (nextAct poweredOff).2.errs.cont = false := congrArg (fun u : State => u.errs.cont) (Host.Outcome.next.inj h)
  exact absurd hcont (by decide +kernel)

end Sys2Proof
end


section
/-! PROOFS. What keeps a memory canonical: the predicate on the answers of the model's functions, and the rules of its shared forms. -/

namespace Sys2Proof

open Machine

namespace Machine

/-! ### Answers that hold a state -/

/-- The state that comes first in a pair has canonical memories. -/
abbrev FstWf {α : Type} (p : State × α) : Prop := p.1.MemWf
/-- So has the one that comes second. -/
abbrev SndWf {α : Type} (p : α × State) : Prop := p.2.MemWf
/-- So has the one that an instruction issues from. -/
abbrev CtxWf (k : Ctx) : Prop := k.s.MemWf
/-- So has the one that the lanes of a slice word have come to. -/
abbrev RunWf (x : LaneRun) : Prop := x.s.MemWf
/-- So has the answer of an optional value, where there is one. -/
def AllWf {α : Type} (P : α → Prop) : Option α → Prop
  | some x => P x
  | none => True
def ExceptWf {ε α : Type} (P : α → Prop) : Except ε α → Prop
  | .ok x => P x
  | .error _ => True
def OutWf : Out → Prop
  | .next s => s.MemWf
  | _ => True
def ResWf : Res → Prop
  | .ok s | .jump s | .after s _ | .again s => s.MemWf
  | .trap _ | .hold => True
def SResWf : SRes → Prop
  | .next s | .goto s _ | .stop s _ | .hold s => s.MemWf
def CRWf {α : Type} : CR α → Prop
  | .ok s _ | .wait s | .fail s _ => s.MemWf
def ERWf {α : Type} : ER α → Prop
  | .ok s _ | .wait s | .fail s _ => s.MemWf
def LineWf : LineRes → Prop
  | .ok s _ _ _ _ => s.MemWf
  | .wait _ => True
def PerfWf : Perf → Prop
  | .done s _ _ _ | .hold s _ | .away s _ => s.MemWf
def XlatWf : PeerXlat → Prop
  | .ticket s => s.MemWf
  | _ => True

/-! ### What is known of the states that such an answer holds -/

section
variable {s : State} {α β ε : Type}

theorem FstWf.get {p : State × α} {a : α} (h : FstWf p) (e : p = (s, a)) : s.MemWf := by subst e; exact h
theorem SndWf.get {p : α × State} {a : α} (h : SndWf p) (e : p = (a, s)) : s.MemWf := by subst e; exact h
theorem AllWf.get {P : α → Prop} {o : Option α} {x : α} (h : AllWf P o) (e : o = some x) : P x := by subst e; exact h
theorem AllWf.fst {o : Option (State × α)} {p : State × α} (h : AllWf FstWf o) (e : o = some p) : p.1.MemWf := by subst e; exact h
theorem AllWf.snd {o : Option (α × State)} {p : α × State} (h : AllWf SndWf o) (e : o = some p) : p.2.MemWf := by subst e; exact h
theorem AllWf.ctx {o : Option Ctx} {k : Ctx} (h : AllWf CtxWf o) (e : o = some k) : k.s.MemWf := by subst e; exact h
theorem AllWf.get_fst {o : Option (State × α)} {a : α} (h : AllWf FstWf o) (e : o = some (s, a)) : s.MemWf := by subst e; exact h
theorem AllWf.get_snd {o : Option (α × State)} {a : α} (h : AllWf SndWf o) (e : o = some (a, s)) : s.MemWf := by subst e; exact h
theorem ExceptWf.get {P : α → Prop} {o : Except ε α} {x : α} (h : ExceptWf P o) (e : o = .ok x) : P x := by subst e; exact h
theorem ExceptWf.get_fst {o : Except ε (State × α)} {a : α} (h : ExceptWf FstWf o) (e : o = .ok (s, a)) : s.MemWf := by
  subst e; exact h
theorem OutWf.get {o : Out} (h : OutWf o) (e : o = .next s) : s.MemWf := by subst e; exact h
theorem ERWf.get_ok {x : ER α} {a : α} (h : ERWf x) (e : x = .ok s a) : s.MemWf := by subst e; exact h
theorem ERWf.get_wait {x : ER α} (h : ERWf x) (e : x = .wait s) : s.MemWf := by subst e; exact h
theorem ERWf.get_fail {x : ER α} {st : Byte} (h : ERWf x) (e : x = .fail s st) : s.MemWf := by subst e; exact h
theorem CRWf.get_ok {x : CR α} {a : α} (h : CRWf x) (e : x = .ok s a) : s.MemWf := by subst e; exact h
theorem CRWf.get_wait {x : CR α} (h : CRWf x) (e : x = .wait s) : s.MemWf := by subst e; exact h
theorem CRWf.get_fail {x : CR α} {st : BitVec 4} (h : CRWf x) (e : x = .fail s st) : s.MemWf := by subst e; exact h
theorem PerfWf.get_done {x : Perf} {ws : List RegWrite} {m : Mask} {st : BitVec 4} (h : PerfWf x) (e : x = .done s ws m st) :
    s.MemWf := by subst e; exact h
theorem PerfWf.get_hold {x : Perf} {k : Hold} (h : PerfWf x) (e : x = .hold s k) : s.MemWf := by subst e; exact h
theorem PerfWf.get_away {x : Perf} {n : Nat} (h : PerfWf x) (e : x = .away s n) : s.MemWf := by subst e; exact h
theorem LineWf.get {x : LineRes} {d : BitVec 1024} {p : BitVec 2} {w : BitVec 16} {b : Bool} (h : LineWf x) (e : x = .ok s d p w b) :
    s.MemWf := by subst e; exact h
theorem XlatWf.get {x : PeerXlat} (h : XlatWf x) (e : x = .ticket s) : s.MemWf := by subst e; exact h
theorem SResWf.get_next {x : SRes} (h : SResWf x) (e : x = .next s) : s.MemWf := by subst e; exact h
theorem SResWf.get_goto {x : SRes} {a : Dword} (h : SResWf x) (e : x = .goto s a) : s.MemWf := by subst e; exact h
theorem SResWf.get_stop {x : SRes} {a : SliceSt} (h : SResWf x) (e : x = .stop s a) : s.MemWf := by subst e; exact h
theorem SResWf.get_hold {x : SRes} (h : SResWf x) (e : x = .hold s) : s.MemWf := by subst e; exact h

end

/-! ### The rules of the shared forms -/

/-- A change that leaves both memories. -/
theorem memWf_same {s t : State} (hd : t.hbm = s.hbm) (hh : t.hostMem = s.hostMem) (h : s.MemWf) : t.MemWf := by
  unfold State.MemWf
  rw [hd, hh]
  exact h

/-- A change that writes bytes of device memory. -/
theorem memWf_wrHbm {s t : State} {a : Nat} {bs : List Byte} (hd : t.hbm = wrBytes s.hbm a bs) (hh : t.hostMem = s.hostMem)
    (h : s.MemWf) : t.MemWf :=
  ⟨by rw [hd]; exact tabWf_wrBytes bs _ a h.1, by rw [hh]; exact h.2⟩
/-- A change that writes bytes of host memory. -/
theorem memWf_wrHost {s t : State} {a : Nat} {bs : List Byte} (hh : t.hostMem = wrBytes s.hostMem a bs) (hd : t.hbm = s.hbm)
    (h : s.MemWf) : t.MemWf :=
  ⟨by rw [hd]; exact h.1, by rw [hh]; exact tabWf_wrBytes bs _ a h.2⟩

section
variable {α β γ ε : Type} {P : α → Prop} {Q : β → Prop}

theorem ite_wf {α : Type} {P : α → Prop} {c : Prop} [Decidable c] {a b : α} (ha : P a) (hb : P b) : P (if c then a else b) := by
  split
  · exact ha
  · exact hb

theorem dite_wf {α : Type} {P : α → Prop} {c : Prop} [Decidable c] {a : c → α} {b : ¬ c → α} (ha : ∀ h, P (a h)) (hb : ∀ h, P (b h)) :
    P (if h : c then a h else b h) := by
  split
  · exact ha _
  · exact hb _

theorem foldl_wf {F : α → γ → α} (hF : ∀ a x, P a → P (F a x)) : ∀ (l : List γ) {a : α}, P a → P (l.foldl F a)
  | [], _, h => h
  | x :: l, a, h => foldl_wf hF l (hF a x h)

theorem getD_wf {o : Option α} {a : α} (ho : AllWf P o) (ha : P a) : P (o.getD a) := by
  cases o with
  | none => exact ha
  | some x => exact ho

theorem map_wf {o : Option α} {f : α → β} (hf : ∀ x, o = some x → Q (f x)) : AllWf Q (o.map f) := by
  cases o with
  | none => trivial
  | some x => exact hf x rfl

theorem bind_wf {o : Option α} {f : α → Option β} (hf : ∀ x, o = some x → AllWf Q (f x)) : AllWf Q (o.bind f) := by
  cases o with
  | none => trivial
  | some x => exact hf x rfl

theorem ER.bind_wf {x : ER α} {f : State → α → ER β} (hx : ERWf x) (hf : ∀ s a, s.MemWf → ERWf (f s a)) : ERWf (x.bind f) := by
  cases x with
  | ok s a => exact hf s a hx
  | wait s => exact hx
  | fail s st => exact hx

theorem CR.bind_wf {x : CR α} {f : State → α → CR β} (hx : CRWf x) (hf : ∀ s a, s.MemWf → CRWf (f s a)) : CRWf (x.bind f) := by
  cases x with
  | ok s a => exact hf s a hx
  | wait s => exact hx
  | fail s st => exact hx

end

end Machine

end Sys2Proof
end


section
/-! PROOFS. Every function of the model keeps the memories canonical: memory, the arithmetic families and translation. -/

namespace Sys2Proof

open Machine

namespace Machine

/-! ### The state -/

theorem State.reset_memWf : State.reset.MemWf := by
  unfold State.reset
  exact ⟨rfl, rfl⟩

/-! ### Memory, logical time and the caches -/

theorem State.setCore_memWf {s : State} {c} {k} (h : s.MemWf) : (State.setCore s c k).MemWf := by
  unfold State.setCore
  exact memWf_same rfl rfl h
theorem State.modCore_memWf {s : State} {c} {f} (hs : s.MemWf) : (State.modCore s c f).MemWf := by
  unfold State.modCore
  exact State.setCore_memWf hs
theorem State.setDie_memWf {s : State} {d} {k} (h : s.MemWf) : (State.setDie s d k).MemWf := by
  unfold State.setDie
  exact memWf_same rfl rfl h
theorem State.modDie_memWf {s : State} {d} {f} (hs : s.MemWf) : (State.modDie s d f).MemWf := by
  unfold State.modDie
  exact State.setDie_memWf hs
theorem State.modWarp_memWf {s : State} {c} {w} {f} (hs : s.MemWf) : (State.modWarp s c w f).MemWf := by
  unfold State.modWarp
  exact State.modCore_memWf hs
theorem State.noteMark_memWf {s : State} {line} {rel} (h : s.MemWf) : (State.noteMark s line rel).MemWf := by
  unfold State.noteMark
  exact memWf_same rfl rfl h
theorem State.noteOuter_memWf {s : State} {line} (h : s.MemWf) : (State.noteOuter s line).MemWf := by
  unfold State.noteOuter
  exact State.noteMark_memWf h
theorem recallAll_memWf {s : State} {line} (h : s.MemWf) : (recallAll s line).MemWf := by
  unfold recallAll
  exact State.modDie_memWf (foldl_wf (fun _ _ h0 => ite_wf h0 (State.modDie_memWf h0)) _ h)
theorem recallRead_memWf {s : State} {line} (h : s.MemWf) : (recallRead s line).MemWf := by
  unfold recallRead
  dsimp only
  split
  · exact ite_wf (State.modDie_memWf (State.modDie_memWf h)) (State.modDie_memWf h)
  · exact h
theorem State.soil_memWf {s : State} {line} {p} (h : s.MemWf) : (State.soil s line p).MemWf := by
  unfold State.soil
  exact memWf_same rfl rfl h
theorem State.hbmWrite_memWf {s : State} {pa} {bs} {poison} (h : s.MemWf) : (State.hbmWrite s pa bs poison).MemWf := by
  unfold State.hbmWrite
  exact memWf_wrHbm rfl rfl h
theorem rmapTrim_memWf {s : State} {c} (h : s.MemWf) : (rmapTrim s c).MemWf := by
  unfold rmapTrim
  exact State.modDie_memWf h
theorem dropL1_memWf {s : State} {c} {p} (hs : s.MemWf) : (dropL1 s c p).MemWf := by
  unfold dropL1
  exact ite_wf hs (rmapTrim_memWf (foldl_wf (fun _ _ h0 => State.modCore_memWf h0) _ hs))
theorem l1Fill_memWf {s : State} {c} {e} (h : s.MemWf) : (l1Fill s c e).MemWf := by
  unfold l1Fill
  exact rmapTrim_memWf (State.modDie_memWf (State.modCore_memWf (foldl_wf (fun _ _ h0 => State.modCore_memWf h0) _ h)))
theorem ackWrite_memWf {s : State} {c} {p} (h : s.MemWf) : (ackWrite s c p).MemWf := by
  unfold ackWrite
  exact State.modCore_memWf h
theorem l2Read_memWf {s : State} {d} {line} (h : s.MemWf) : ExceptWf FstWf (l2Read s d line) := by
  unfold l2Read
  refine ite_wf ?_ ?_
  · exact trivial
  · refine ite_wf (ite_wf (P := ExceptWf FstWf) trivial (ite_wf (P := ExceptWf FstWf) trivial (State.modDie_memWf (recallRead_memWf h)))) ?_
    split
    · exact h
    · exact trivial
theorem loadTrk_memWf {s : State} {c} {pasid} {vline} {line} {lease} {fill} {own} (h : s.MemWf) :
    LineWf (loadTrk s c pasid vline line lease fill own) := by
  unfold loadTrk
  split
  · exact h
  · split
    · dsimp only
      split
      · exact trivial
      · exact l1Fill_memWf (State.modDie_memWf (ExceptWf.get_fst (l2Read_memWf h) (by assumption)))
    · dsimp only
      split
      · exact trivial
      · exact State.modDie_memWf (ExceptWf.get_fst (l2Read_memWf h) (by assumption))
theorem storeTrk_memWf {s : State} {c} {line} (h : s.MemWf) : ExceptWf FstWf (storeTrk s c line) := by
  unfold storeTrk
  refine ite_wf ?_ ?_
  · exact trivial
  · refine ite_wf ?_ ?_
    · refine ite_wf ?_ ?_
      · exact trivial
      · refine ite_wf ?_ ?_
        · exact trivial
        · refine ite_wf ?_ ?_
          · exact trivial
          · split
            · exact trivial
            · exact State.modDie_memWf (recallAll_memWf h)
    · split
      · split
        · exact ite_wf (P := ExceptWf FstWf) trivial (ite_wf (P := ExceptWf FstWf) trivial (State.setDie_memWf (State.setDie_memWf h)))
        · exact trivial
      · exact trivial
theorem storeForeign_memWf {s : State} {line} (h : s.MemWf) : ExceptWf State.MemWf (storeForeign s line) := by
  unfold storeForeign
  refine ite_wf ?_ ?_
  · exact trivial
  · refine ite_wf ?_ ?_
    · exact trivial
    · refine ite_wf ?_ ?_
      · exact trivial
      · refine ite_wf ?_ ?_
        · exact trivial
        · split
          · exact trivial
          · exact State.modDie_memWf (recallAll_memWf (State.setDie_memWf h))
theorem limitDie_memWf {line} {s : State} {d} (h : s.MemWf) : (limitDie line s d).MemWf := by
  unfold limitDie
  exact State.modDie_memWf h
theorem sysAck_memWf {s : State} {c} {line} (h : s.MemWf) : (sysAck s c line).MemWf := by
  unfold sysAck
  split
  · exact ackWrite_memWf h
  · exact dropL1_memWf h
theorem State.sysPut_memWf {s : State} {c} {pa} {bs} (h : s.MemWf) : (State.sysPut s c pa bs).MemWf := by
  unfold State.sysPut
  exact foldl_wf (fun _ _ h0 => sysAck_memWf (foldl_wf (fun _ _ h1 => limitDie_memWf h1) _ (ite_wf (State.modDie_memWf h0)
      (State.modDie_memWf h0)))) _ (foldl_wf (fun _ _ h0 => State.noteOuter_memWf h0) _ (State.hbmWrite_memWf (foldl_wf (fun _ _ h0 => ite_wf
      (recallAll_memWf h0) h0) _ h)))
theorem snoopBytes_memWf {s : State} {c} {pa} {n} (h : s.MemWf) : (snoopBytes s c pa n).MemWf := by
  unfold snoopBytes
  exact foldl_wf (fun _ _ h0 => snoopNow_memWf _ _ h0) _ h
theorem untWriteBack_memWf {s : State} {d} {line} (h : s.MemWf) : (untWriteBack s d line).MemWf := by
  unfold untWriteBack
  split
  · exact h
  · refine ite_wf h ?_
    dsimp only
    refine ite_wf (State.modDie_memWf h) ?_
    split
    · exact State.modDie_memWf (State.modDie_memWf h)
    · exact ⟨tabWf_wrMasked _ _ _ _ h.1, h.2⟩
theorem untFill_memWf {s : State} {d} {line} (h : s.MemWf) : FstWf (untFill s d line) := by
  unfold untFill
  split
  · exact h
  · exact State.modDie_memWf h
theorem untWrite_memWf {s : State} {d} {line} {o} {n} {v} {poison} (h : s.MemWf) : (untWrite s d line o n v poison).MemWf :=
  State.modDie_memWf (untFill_memWf h)
theorem untClean_memWf {s : State} {d} {line} {ws} (h : s.MemWf) : (untClean s d line ws).MemWf :=
  State.modDie_memWf (untFill_memWf h)
theorem putLine_memWf {s : State} {line} {data} {pois} (h : s.MemWf) : (putLine s line data pois).MemWf := by
  unfold putLine
  exact ⟨tabWf_wrBytes _ _ _ h.1, (State.noteOuter_memWf (line := line) h).2⟩
theorem putPeer_memWf {s : State} {line} (h : s.MemWf) : (putPeer s line).MemWf := by
  unfold putPeer
  exact putLine_memWf h
theorem peerUnt_memWf {s : State} {d} {line} (h : s.MemWf) : (peerUnt s d line).MemWf := by
  unfold peerUnt
  exact ite_wf h (State.modDie_memWf h)
theorem Ctx.s_memWf {self : Ctx} (h : CtxWf self) : (Ctx.s self).MemWf := by
  unfold Ctx.s
  exact h

/-! ### Operands of warp instructions -/

theorem writeLanes_memWf {s : State} {ci} {wi} {t} {d} {vals} (h : s.MemWf) : (writeLanes s ci wi t d vals).MemWf := by
  unfold writeLanes
  split
  · exact h
  · split
    · exact State.modCore_memWf h
    · split
      · exact h
      · exact State.modWarp_memWf h
    · exact State.modWarp_memWf h
    · split
      · exact h
      · exact State.modCore_memWf h
    · exact h

/-! ### Shared operations of warp instructions -/

theorem d2hRaise_memWf {s : State} {ty} {fields} (h : s.MemWf) : (d2hRaise s ty fields).MemWf := by
  unfold d2hRaise
  exact memWf_same rfl rfl h
theorem d2hOrDrop_memWf {s : State} {ty} {fields} (h : s.MemWf) : (d2hOrDrop s ty fields).MemWf := by
  unfold d2hOrDrop
  exact ite_wf (d2hRaise_memWf h) (memWf_same rfl rfl h)
theorem restartScribe_memWf {s : State} {ci} {z} (h : s.MemWf) : (restartScribe s ci z).MemWf :=
  errorMsg_memWf _ _ _ _ _ _ (logError_memWf _ _ _ _ _ (State.modCore_memWf h))
theorem ctxOf_memWf {s : State} {c} (h : s.MemWf) : AllWf CtxWf (ctxOf s c) := by
  unfold ctxOf
  split
  · split
    · dsimp only
      split
      · exact trivial
      · split
        · exact trivial
        · exact h
    · exact trivial
theorem Ctx.at__memWf {k : Ctx} {s : State} (hk : CtxWf k) (hs : s.MemWf) : CtxWf (Ctx.at_ k s) := by
  unfold Ctx.at_
  exact hs
theorem issued_memWf {s : State} {ci} {wi} {c} (h : s.MemWf) : (issued s ci wi c).MemWf := by
  unfold issued
  exact State.modCore_memWf h
theorem Ctx.popped_memWf {k : Ctx} {opds} (h : CtxWf k) : CtxWf (Ctx.popped k opds) := by
  unfold Ctx.popped Ctx.at_
  dsimp only
  split
  · exact State.modCore_memWf h
  · exact h
theorem wordCause_memWf {k : Ctx} {c} {z} (h : CtxWf k) : OutWf (wordCause k c z) := by
  unfold wordCause
  exact takeTrap_memWf _ _ _ (issued_memWf h)
theorem wordEnd_memWf {s : State} {ci} {wi} {c} (h : s.MemWf) : (wordEnd s ci wi c).MemWf := by
  unfold wordEnd
  exact State.modWarp_memWf (issued_memWf h)
theorem wordDone_memWf {k : Ctx} {c} {x2 : Res} (hk : CtxWf k) (hx2 : ResWf x2) : OutWf (wordDone k c x2) := by
  unfold wordDone
  split
  · exact wordEnd_memWf hx2
  · exact issued_memWf hx2
  · exact wordCause_memWf hk
  · exact takeTrap_memWf _ _ _ (issued_memWf hx2)
  · exact hk
  · exact hx2
theorem runInstr_memWf {s : State} {c} {scalar} {long} {opds} {body} (hs : s.MemWf) (hbody : ∀ y0, CtxWf y0 → ResWf (body y0)) :
    OutWf (runInstr s c scalar long opds body) := by
  unfold runInstr
  split
  · exact trivial
  · split
    · exact wordCause_memWf (AllWf.ctx (ctxOf_memWf hs) (by assumption))
    · exact ite_wf hs (ite_wf (wordCause_memWf (AllWf.ctx (ctxOf_memWf hs) (by assumption))) (ite_wf (wordCause_memWf (AllWf.ctx (ctxOf_memWf hs)
          (by assumption))) (wordDone_memWf (AllWf.ctx (ctxOf_memWf hs) (by assumption)) (hbody _ (Ctx.popped_memWf (AllWf.ctx (ctxOf_memWf hs)
          (by assumption)))))))
theorem laneResults_memWf {t} {d} {f} {k : Ctx} (hk : CtxWf k) : (laneResults t d f k).MemWf := by
  unfold laneResults
  exact State.modWarp_memWf (writeLanes_memWf hk)
theorem perLaneOp_memWf {t} {d} {f} {k : Ctx} (hk : CtxWf k) : ResWf (perLaneOp t d f k) := by
  unfold perLaneOp
  exact laneResults_memWf hk

/-! ### Integers, bits and moves -/

theorem int3_memWf {o} {p} {f} {s : State} (hs : s.MemWf) : OutWf (int3 o p f s) := by
  unfold int3
  exact runInstr_memWf hs (fun _ h0 => perLaneOp_memWf h0)
theorem pat3_memWf {o} {f} {s : State} (hs : s.MemWf) : OutWf (pat3 o f s) := by
  unfold pat3
  exact runInstr_memWf hs (fun _ h0 => perLaneOp_memWf h0)
theorem amt3_memWf {o} {f} {s : State} (hs : s.MemWf) : OutWf (amt3 o f s) := by
  unfold amt3
  exact runInstr_memWf hs (fun _ h0 => perLaneOp_memWf h0)
theorem int2_memWf {o} {f} {s : State} (hs : s.MemWf) : OutWf (int2 o f s) := by
  unfold int2
  exact runInstr_memWf hs (fun _ h0 => perLaneOp_memWf h0)
theorem pat2_memWf {o} {f} {s : State} (hs : s.MemWf) : OutWf (pat2 o f s) := by
  unfold pat2
  exact runInstr_memWf hs (fun _ h0 => perLaneOp_memWf h0)
theorem execIadd_memWf {o} {sat} {s : State} (h : s.MemWf) : OutWf (execIadd o sat s) := by
  unfold execIadd
  exact int3_memWf h
theorem execIsub_memWf {o} {sat} {s : State} (h : s.MemWf) : OutWf (execIsub o sat s) := by
  unfold execIsub
  exact int3_memWf h
theorem execImul_memWf {o} {sat} {s : State} (h : s.MemWf) : OutWf (execImul o sat s) := by
  unfold execImul
  exact int3_memWf h
theorem execImulhi_memWf {o} {s : State} (h : s.MemWf) : OutWf (execImulhi o s) := by
  unfold execImulhi
  exact int3_memWf h
theorem execImad_memWf {o} {sat} {s : State} (h : s.MemWf) : OutWf (execImad o sat s) := by
  unfold execImad
  exact runInstr_memWf h (fun _ h0 => perLaneOp_memWf h0)
theorem execIdiv_memWf {o} {s : State} (h : s.MemWf) : OutWf (execIdiv o s) := by
  unfold execIdiv
  exact int3_memWf h
theorem execIrem_memWf {o} {s : State} (h : s.MemWf) : OutWf (execIrem o s) := by
  unfold execIrem
  exact int3_memWf h
theorem execImin_memWf {o} {s : State} (h : s.MemWf) : OutWf (execImin o s) := by
  unfold execImin
  exact int3_memWf h
theorem execImax_memWf {o} {s : State} (h : s.MemWf) : OutWf (execImax o s) := by
  unfold execImax
  exact int3_memWf h
theorem execIabs_memWf {o} {sat} {s : State} (h : s.MemWf) : OutWf (execIabs o sat s) := by
  unfold execIabs
  exact int2_memWf h
theorem execIneg_memWf {o} {sat} {s : State} (h : s.MemWf) : OutWf (execIneg o sat s) := by
  unfold execIneg
  exact int2_memWf h
theorem execLand_memWf {o} {s : State} (h : s.MemWf) : OutWf (execLand o s) := by
  unfold execLand
  exact pat3_memWf h
theorem execLor_memWf {o} {s : State} (h : s.MemWf) : OutWf (execLor o s) := by
  unfold execLor
  exact pat3_memWf h
theorem execLxor_memWf {o} {s : State} (h : s.MemWf) : OutWf (execLxor o s) := by
  unfold execLxor
  exact pat3_memWf h
theorem execLandn_memWf {o} {s : State} (h : s.MemWf) : OutWf (execLandn o s) := by
  unfold execLandn
  exact pat3_memWf h
theorem execLnot_memWf {o} {s : State} (h : s.MemWf) : OutWf (execLnot o s) := by
  unfold execLnot
  exact pat2_memWf h
theorem execShl_memWf {o} {s : State} (h : s.MemWf) : OutWf (execShl o s) := by
  unfold execShl
  exact amt3_memWf h
theorem execShr_memWf {o} {s : State} (h : s.MemWf) : OutWf (execShr o s) := by
  unfold execShr
  exact amt3_memWf h
theorem execSar_memWf {o} {s : State} (h : s.MemWf) : OutWf (execSar o s) := by
  unfold execSar
  exact amt3_memWf h
theorem execRol_memWf {o} {s : State} (h : s.MemWf) : OutWf (execRol o s) := by
  unfold execRol
  exact amt3_memWf h
theorem execBfx_memWf {o} {s : State} (h : s.MemWf) : OutWf (execBfx o s) := by
  unfold execBfx
  exact amt3_memWf h
theorem execBfi_memWf {o} {s : State} (h : s.MemWf) : OutWf (execBfi o s) := by
  unfold execBfi
  exact runInstr_memWf h (fun _ h0 => perLaneOp_memWf h0)
theorem execPopc_memWf {o} {s : State} (h : s.MemWf) : OutWf (execPopc o s) := by
  unfold execPopc
  exact pat2_memWf h
theorem execClz_memWf {o} {s : State} (h : s.MemWf) : OutWf (execClz o s) := by
  unfold execClz
  exact pat2_memWf h
theorem execCtz_memWf {o} {s : State} (h : s.MemWf) : OutWf (execCtz o s) := by
  unfold execCtz
  exact pat2_memWf h
theorem execBrev_memWf {o} {s : State} (h : s.MemWf) : OutWf (execBrev o s) := by
  unfold execBrev
  exact pat2_memWf h
theorem execPrmt_memWf {o} {e} {s : State} (h : s.MemWf) : OutWf (execPrmt o e s) := by
  unfold execPrmt
  exact runInstr_memWf h (fun _ h0 => perLaneOp_memWf h0)
theorem execIset_memWf {o} {c} {s : State} (h : s.MemWf) : OutWf (execIset o c s) := by
  unfold execIset
  exact int3_memWf h
theorem execPset_memWf {c} {op} {d} {a} {b} {s : State} (h : s.MemWf) : OutWf (execPset c op d a b s) := by
  unfold execPset
  exact runInstr_memWf h (fun _ h0 => perLaneOp_memWf h0)
theorem execSel_memWf {o} {sp} {sneg} {s : State} (h : s.MemWf) : OutWf (execSel o sp sneg s) := by
  unfold execSel
  exact runInstr_memWf h (fun _ h0 => perLaneOp_memWf h0)
theorem execMov_memWf {o} {s : State} (h : s.MemWf) : OutWf (execMov o s) := by
  unfold execMov
  exact runInstr_memWf h (fun _ h0 => perLaneOp_memWf h0)
theorem execMovi_memWf {c} {t} {hi} {d} {x} {s : State} (h : s.MemWf) : OutWf (execMovi c t hi d x s) := by
  unfold execMovi
  exact runInstr_memWf h (fun _ h0 => perLaneOp_memWf h0)
theorem execLea_memWf {o} {scale} {bsx} {x} {s : State} (h : s.MemWf) : OutWf (execLea o scale bsx x s) := by
  unfold execLea
  exact runInstr_memWf h (fun _ h0 => perLaneOp_memWf h0)

/-! ### Floating point -/

theorem flt3_memWf {o} {rm} {f} {s : State} (hs : s.MemWf) : OutWf (flt3 o rm f s) := by
  unfold flt3
  exact runInstr_memWf hs (fun _ h0 => perLaneOp_memWf h0)
theorem flt2_memWf {o} {rm} {f} {s : State} (hs : s.MemWf) : OutWf (flt2 o rm f s) := by
  unfold flt2
  exact runInstr_memWf hs (fun _ h0 => perLaneOp_memWf h0)
theorem fcode2_memWf {o} {p} {f} {s : State} (hs : s.MemWf) : OutWf (fcode2 o p f s) := by
  unfold fcode2
  exact runInstr_memWf hs (fun _ h0 => perLaneOp_memWf h0)
theorem execFadd_memWf {o} {rm} {s : State} (h : s.MemWf) : OutWf (execFadd o rm s) := by
  unfold execFadd
  exact flt3_memWf h
theorem execFsub_memWf {o} {rm} {s : State} (h : s.MemWf) : OutWf (execFsub o rm s) := by
  unfold execFsub
  exact flt3_memWf h
theorem execFmul_memWf {o} {rm} {s : State} (h : s.MemWf) : OutWf (execFmul o rm s) := by
  unfold execFmul
  exact flt3_memWf h
theorem execFfma_memWf {o} {rm} {s : State} (h : s.MemWf) : OutWf (execFfma o rm s) := by
  unfold execFfma
  exact runInstr_memWf h (fun _ h0 => perLaneOp_memWf h0)
theorem fmm_memWf {o} {wantMax} {s : State} (h : s.MemWf) : OutWf (fmm o wantMax s) := by
  unfold fmm
  exact runInstr_memWf h (fun _ h0 => perLaneOp_memWf h0)
theorem execFmin_memWf {o} {s : State} (h : s.MemWf) : OutWf (execFmin o s) := by
  unfold execFmin
  exact fmm_memWf h
theorem execFmax_memWf {o} {s : State} (h : s.MemWf) : OutWf (execFmax o s) := by
  unfold execFmax
  exact fmm_memWf h
theorem execFset_memWf {o} {c} {s : State} (h : s.MemWf) : OutWf (execFset o c s) := by
  unfold execFset
  exact runInstr_memWf h (fun _ h0 => perLaneOp_memWf h0)
theorem execFclass_memWf {o} {x} {s : State} (h : s.MemWf) : OutWf (execFclass o x s) := by
  unfold execFclass
  exact fcode2_memWf h
theorem execFrcp_memWf {o} {rm} {s : State} (h : s.MemWf) : OutWf (execFrcp o rm s) := by
  unfold execFrcp
  exact flt2_memWf h
theorem execFrsq_memWf {o} {rm} {s : State} (h : s.MemWf) : OutWf (execFrsq o rm s) := by
  unfold execFrsq
  exact flt2_memWf h
theorem execFsqrt_memWf {o} {rm} {s : State} (h : s.MemWf) : OutWf (execFsqrt o rm s) := by
  unfold execFsqrt
  exact flt2_memWf h
theorem execFdiv_memWf {o} {rm} {s : State} (h : s.MemWf) : OutWf (execFdiv o rm s) := by
  unfold execFdiv
  exact flt3_memWf h
theorem execFexp2_memWf {o} {s : State} (h : s.MemWf) : OutWf (execFexp2 o s) := by
  unfold execFexp2
  exact fcode2_memWf h
theorem execFlog2_memWf {o} {s : State} (h : s.MemWf) : OutWf (execFlog2 o s) := by
  unfold execFlog2
  exact fcode2_memWf h
theorem execFsin_memWf {o} {s : State} (h : s.MemWf) : OutWf (execFsin o s) := by
  unfold execFsin
  exact fcode2_memWf h
theorem execFcos_memWf {o} {s : State} (h : s.MemWf) : OutWf (execFcos o s) := by
  unfold execFcos
  exact fcode2_memWf h
theorem execFtanh_memWf {o} {s : State} (h : s.MemWf) : OutWf (execFtanh o s) := by
  unfold execFtanh
  exact fcode2_memWf h
theorem execFrnd_memWf {o} {rm} {exact} {s : State} (h : s.MemWf) : OutWf (execFrnd o rm exact s) := by
  unfold execFrnd
  exact fcode2_memWf h
theorem cvtMx_memWf {o} {rm} {seed} {st} {desc} {k : Ctx} (h : CtxWf k) : (cvtMx o rm seed st desc k).MemWf := by
  unfold cvtMx
  exact State.modWarp_memWf (writeLanes_memWf h)
theorem execCvt_memWf {o} {rm} {sat} {seed} {st} {desc} {s : State} (h : s.MemWf) : OutWf (execCvt o rm sat seed st desc s) := by
  unfold execCvt
  refine runInstr_memWf h fun k hk => ?_
  split
  · exact cvtMx_memWf hk
  · exact perLaneOp_memWf hk
theorem dotOp_memWf {o} {rm} {nfd} {s : State} (h : s.MemWf) : OutWf (dotOp o rm nfd s) := by
  unfold dotOp
  exact runInstr_memWf h (fun _ h0 => perLaneOp_memWf h0)
theorem execFdot2_memWf {o} {rm} {s : State} (h : s.MemWf) : OutWf (execFdot2 o rm s) := by
  unfold execFdot2
  exact dotOp_memWf h
theorem execFdot4_memWf {o} {rm} {nfd} {s : State} (h : s.MemWf) : OutWf (execFdot4 o rm nfd s) := by
  unfold execFdot4
  exact dotOp_memWf h
theorem execFscale_memWf {o} {rm} {s : State} (h : s.MemWf) : OutWf (execFscale o rm s) := by
  unfold execFscale
  exact runInstr_memWf h (fun _ h0 => perLaneOp_memWf h0)
theorem execFflags_memWf {c} {op} {d} {b} {s : State} (h : s.MemWf) : OutWf (execFflags c op d b s) := by
  unfold execFflags
  refine runInstr_memWf h (fun _ h0 => ?_)
  show State.MemWf _
  split
  · exact writeLanes_memWf (State.modWarp_memWf h0)
  · exact State.modWarp_memWf h0

/-! ### Cross-lane instructions -/

theorem crossOp_memWf {s : State} {c} {opds} {a} {bad} {body} (hs : s.MemWf) (hbody : ∀ y0, CtxWf y0 → ResWf (body y0)) :
    OutWf (crossOp s c opds a bad body) := by
  unfold crossOp
  exact runInstr_memWf hs (fun _ h0 => ite_wf (P := ResWf) trivial (hbody _ h0))
theorem execShfl_memWf {o} {m} {seg} {s : State} (h : s.MemWf) : OutWf (execShfl o m seg s) := by
  unfold execShfl
  exact crossOp_memWf h (fun _ h0 => perLaneOp_memWf h0)
theorem execVote_memWf {c} {op} {d} {a} {s : State} (h : s.MemWf) : OutWf (execVote c op d a s) := by
  unfold execVote
  exact crossOp_memWf h (fun _ h0 => perLaneOp_memWf h0)
theorem execMatch_memWf {o} {all} {s : State} (h : s.MemWf) : OutWf (execMatch o all s) := by
  unfold execMatch
  exact crossOp_memWf h (fun _ h0 => perLaneOp_memWf h0)
theorem execRedux_memWf {o} {op} {rm} {s : State} (h : s.MemWf) : OutWf (execRedux o op rm s) := by
  unfold execRedux
  exact crossOp_memWf h (fun _ h0 => perLaneOp_memWf h0)
theorem execScan_memWf {o} {op} {excl} {rm} {s : State} (h : s.MemWf) : OutWf (execScan o op excl rm s) := by
  unfold execScan
  exact crossOp_memWf h (fun _ h0 => perLaneOp_memWf h0)
theorem execLanemask_memWf {c} {m} {d} {s : State} (h : s.MemWf) : OutWf (execLanemask c m d s) := by
  unfold execLanemask
  exact crossOp_memWf h (fun _ h0 => perLaneOp_memWf h0)

/-! ### What the matrix engine works on -/

theorem State.winSee_memWf {s : State} {g} {off} {n} (h : s.MemWf) : (State.winSee s g off n).MemWf := by
  unfold State.winSee
  exact State.modCore_memWf h

/-! ### Flits and streams -/

theorem State.modPort_memWf {s : State} {p} {f} (hs : s.MemWf) : (State.modPort s p f).MemWf := by
  unfold State.modPort
  exact memWf_same rfl rfl hs
theorem sendOn_memWf {s : State} {p} {f} (h : s.MemWf) : (sendOn s p f).MemWf := by
  unfold sendOn
  exact ite_wf h (State.modPort_memWf h)
theorem sendRouted_memWf {s : State} {f} (h : s.MemWf) : (sendRouted s f).MemWf := by
  unfold sendRouted
  split
  · exact sendOn_memWf h
  · exact h
theorem State.setStream_memWf {s : State} {x} (h : s.MemWf) : (State.setStream s x).MemWf := by
  unfold State.setStream
  exact memWf_same rfl rfl h
theorem originate_memWf {s : State} {i} (h : s.MemWf) : (originate s i).MemWf := by
  unfold originate
  exact sendRouted_memWf (State.setStream_memWf h)
theorem sliceSend_memWf {s : State} {d} {line} {dev} {cls} (h : s.MemWf) : (sliceSend s d line dev cls).MemWf := by
  unfold sliceSend
  exact originate_memWf h
theorem dirSend_memWf {s : State} {e} (h : s.MemWf) : (dirSend s e).MemWf := by
  unfold dirSend
  exact foldl_wf (fun _ _ h0 => sliceSend_memWf h0) _ h
theorem homeAsk_memWf {s : State} {line} {write} (h : s.MemWf) : (homeAsk s line write).MemWf := by
  unfold homeAsk
  exact ite_wf h (dirSend_memWf (State.modDie_memWf h))
theorem peerGrant_memWf {s : State} {d} {line} {own} (h : s.MemWf) : AllWf State.MemWf (peerGrant s d line own) := by
  unfold peerGrant
  refine ite_wf ?_ ?_
  · exact trivial
  · show State.MemWf _
    refine State.modDie_memWf ?_
    refine ite_wf ?_ (foldl_wf (fun _ _ h5 => State.modDie_memWf h5) _ (foldl_wf (fun _ _ h5 => ite_wf (sliceSend_memWf h5) h5) _ (ite_wf h
        (putPeer_memWf h))))
    split
    · exact State.soil_memWf (foldl_wf (fun _ _ h7 => State.modDie_memWf h7) _ (foldl_wf (fun _ _ h7 => ite_wf (sliceSend_memWf h7) h7) _
          (ite_wf h (putPeer_memWf h))))
    · exact foldl_wf (fun _ _ h7 => State.modDie_memWf h7) _ (foldl_wf (fun _ _ h7 => ite_wf (sliceSend_memWf h7) h7) _ (ite_wf h (putPeer_memWf h)))
theorem untGive_memWf {s : State} {d} {line} (h : s.MemWf) : (untGive s d line).MemWf := by
  unfold untGive
  exact ite_wf (sliceSend_memWf (untWriteBack_memWf h)) (untWriteBack_memWf h)

/-! ### Address translation -/

theorem walkSnoop_memWf {c} {va} {x2} {x3} {x4 : State} (h : x4.MemWf) : (walkSnoop c va x2 x3 x4).MemWf := by
  unfold walkSnoop
  split
  · exact snoopNow_memWf _ _ h
  · exact ite_wf (walkSnoop_memWf (snoopNow_memWf _ _ h)) (snoopNow_memWf _ _ h)
theorem snoopWalk_memWf {s : State} {c} {pasid} {va} (h : s.MemWf) : (snoopWalk s c pasid va).MemWf := by
  unfold snoopWalk
  refine ite_wf h ?_
  split
  · exact h
  · exact walkSnoop_memWf h
theorem tlbFill_memWf {s : State} {c} {x} (h : s.MemWf) : (tlbFill s c x).MemWf := by
  unfold tlbFill
  exact State.modDie_memWf (State.modCore_memWf h)
theorem translate_memWf {s : State} {c} {pasid} {va} (h : s.MemWf) : FstWf (translate s c pasid va) := by
  unfold translate
  dsimp only
  split
  · exact h
  · split
    · exact State.modCore_memWf h
    · split
      · exact tlbFill_memWf (snoopWalk_memWf h)
      · split
        · exact tlbFill_memWf (snoopWalk_memWf h)
        · exact snoopWalk_memWf h
theorem dropKept_memWf {s : State} {c} {p} (hs : s.MemWf) : (dropKept s c p).MemWf := by
  unfold dropKept
  exact ite_wf (State.modCore_memWf hs) hs
theorem endFetch_memWf {s : State} {c} {slot} (h : s.MemWf) : (endFetch s c slot).MemWf := by
  unfold endFetch
  exact dropKept_memWf h
theorem keepXlat_memWf {s : State} {c} {e} (h : s.MemWf) : (keepXlat s c e).MemWf := by
  unfold keepXlat
  exact ite_wf h (State.modCore_memWf h)
theorem checkVa_memWf {s : State} {c} {pasid} {scribe} {va} {need} (h : s.MemWf) : FstWf (checkVa s c pasid scribe va need) := by
  unfold checkVa
  refine ite_wf h ?_
  split
  · exact FstWf.get (translate_memWf h) (by assumption)
  · exact FstWf.get (translate_memWf h) (by assumption)
theorem fetchGo_memWf {s : State} {c} {pasid} {scribe} {x4} {x5} (h : s.MemWf) : FstWf (fetchGo s c pasid scribe x4 x5) := by
  unfold fetchGo
  split
  · exact h
  · split
    · exact FstWf.get (checkVa_memWf h) (by assumption)
    · exact FstWf.get (checkVa_memWf h) (by assumption)
    · refine ite_wf (FstWf.get (checkVa_memWf h) (by assumption)) ?_
      refine ite_wf (FstWf.get (checkVa_memWf h) (by assumption)) ?_
      split
      · exact FstWf.get (fetchGo_memWf (FstWf.get (checkVa_memWf h) (by assumption))) (by assumption)
      · exact fetchGo_memWf (FstWf.get (checkVa_memWf h) (by assumption))
theorem fetchWord_memWf {s : State} {c} {pasid} {scribe} {va} (h : s.MemWf) : FstWf (fetchWord s c pasid scribe va) := by
  unfold fetchWord
  split
  · exact FstWf.get (fetchGo_memWf h) (by assumption)
  · exact FstWf.get (fetchGo_memWf h) (by assumption)
theorem fetchMiss_memWf {s : State} {ci} {wi} {w} {pc} {va} {tgt} {wait} (h : s.MemWf) : (fetchMiss s ci wi w pc va tgt wait).MemWf := by
  unfold fetchMiss
  exact State.modCore_memWf h

/-! ### Batches of twinned agents -/

theorem pushBatch_memWf {s : State} {t} {b} (h : s.MemWf) : (pushBatch s t b).MemWf := by
  unfold pushBatch
  exact originate_memWf (memWf_same rfl rfl h)
theorem closeBatch_memWf {s : State} {ci} {wi} (h : s.MemWf) : (closeBatch s ci wi).MemWf := by
  unfold closeBatch
  split
  · exact h
  · split
    · exact ite_wf h (State.modWarp_memWf (pushBatch_memWf h))
    · exact h

end Machine

end Sys2Proof
end


section
/-! PROOFS. Every function of the model keeps the memories canonical: accesses and the control family. -/

namespace Sys2Proof

open Machine

namespace Machine

/-! ### One access, line by line -/

theorem rmwLanes_memWf {a} {rd} {wr} {x3} {x4 : State} (hwr : ∀ y0 y1 y2 y3, y0.MemWf → (wr y0 y1 y2 y3).MemWf) (hx4 : x4.MemWf) :
    FstWf (rmwLanes a rd wr x3 x4) := by
  induction x3 generalizing x4 with
  | nil => exact hx4
  | cons y t ih =>
    obtain ⟨l, pa⟩ := y
    rw [rmwLanes]
    refine ih ?_
    split
    · exact hwr _ _ _ _ hx4
    · exact hx4
theorem noteRead_memWf {s : State} {ci} {a} {wts} {exp} (h : s.MemWf) : (noteRead s ci a wts exp).MemWf := by
  unfold noteRead
  refine ite_wf h ?_
  refine ite_wf ?_ ?_
  · refine State.modCore_memWf ?_
    split
    · exact State.modWarp_memWf h
    · exact h
  · split
    · exact State.modWarp_memWf h
    · exact h
theorem noteSee_memWf {s : State} {ci} {a} {n} {rel} (h : s.MemWf) : (noteSee s ci a n rel).MemWf := by
  unfold noteSee
  split
  · exact ite_wf (State.modCore_memWf (State.modWarp_memWf h)) (State.modWarp_memWf h)
  · exact h
theorem noteLine_memWf {s : State} {ci} {a} {line} (h : s.MemWf) : (noteLine s ci a line).MemWf := by
  unfold noteLine
  exact noteSee_memWf h
theorem noteCopy_memWf {s : State} {ci} {a} {vline} {line} (h : s.MemWf) : (noteCopy s ci a vline line).MemWf := by
  unfold noteCopy
  split
  · exact ite_wf (noteSee_memWf h) (noteLine_memWf h)
  · exact noteLine_memWf h
theorem noteStore_memWf {s : State} {ci} {a} {line} (h : s.MemWf) : (noteStore s ci a line).MemWf := by
  unfold noteStore
  split
  · split
    · exact State.modCore_memWf (State.modWarp_memWf (State.noteMark_memWf h))
    · exact State.modWarp_memWf (State.noteMark_memWf h)
  · split
    · exact State.modCore_memWf (State.modCore_memWf (State.noteMark_memWf h))
    · exact State.modCore_memWf (State.noteMark_memWf h)
theorem engWrite_memWf {s : State} {ci} {wts} {upd} (h : s.MemWf) : (engWrite s ci wts upd).MemWf := by
  unfold engWrite
  exact State.modCore_memWf h
theorem noteWrite_memWf {s : State} {ci} {a} {wts} {upd} (h : s.MemWf) : (noteWrite s ci a wts upd).MemWf := by
  unfold noteWrite
  split
  · exact State.modWarp_memWf h
  · exact engWrite_memWf h
theorem l2Line_memWf {s : State} {d} {line} (h : s.MemWf) : LineWf (match l2Read s d line with
      | .error x => .wait x
      | .ok (s, t) => .ok s (lineData s line) (linePois s line ||| t.pois) t.wts t.wExp) := by
  split
  · trivial
  · exact ExceptWf.get_fst (l2Read_memWf h) (by assumption)
theorem rmwTrk_memWf {s : State} {ci} {d} {e} {line} (h : s.MemWf) : ExceptWf FstWf (if d = e then storeTrk s ci line
      else match storeForeign s line with
        | .error x => .error x
        | .ok s => .ok (s.modDie e fun k => k.setTag (k.stamped (k.homeTag line) k.fwc), none)) := by
  refine ite_wf (P := ExceptWf FstWf) (storeTrk_memWf h) ?_
  split
  · trivial
  · exact State.modDie_memWf (ExceptWf.get (storeForeign_memWf h) (by assumption))
theorem rmwLanes_hbm_memWf {a} {l} {s : State} (h : s.MemWf) :
    FstWf (rmwLanes a hbmRead (fun s pa n v => hbmLanes s [(pa, n, v)] false) l s) :=
  rmwLanes_memWf (fun _ _ _ _ h0 => hbmLanes_memWf _ _ h0) h
theorem perfTrk_memWf {s : State} {ci} {a} {ls} (h : s.MemWf) : PerfWf (perfTrk s ci a ls) := by
  unfold perfTrk
  dsimp only
  split
  iterate 6
    · split
      · exact h
      · have hr := LineWf.get (ite_wf (P := LineWf) (loadTrk_memWf h) (l2Line_memWf h)) (by assumption)
        exact ite_wf (P := PerfWf) hr (noteCopy_memWf (noteRead_memWf hr))
  · split
    · exact h
    · exact ExceptWf.get_fst (l2Read_memWf h) (by assumption)
  · split
    · exact h
    · exact noteWrite_memWf (noteStore_memWf (hbmLanes_memWf _ _ (ExceptWf.get_fst (storeTrk_memWf h) (by assumption))))
  · exact ite_wf (dropL1_memWf h) h
  iterate 5
    · split
      · exact ite_wf (P := PerfWf) h (homeAsk_memWf h)
      · exact h
      · have hr := ExceptWf.get_fst (rmwTrk_memWf h) (by assumption)
        exact noteRead_memWf (noteWrite_memWf (noteStore_memWf (rmwLanes_hbm_memWf (noteLine_memWf hr))))
theorem untFillFor_memWf {s : State} {ci} {line} (h : s.MemWf) : FstWf (untFillFor s ci line) := by
  unfold untFillFor
  refine ite_wf (untFill_memWf h) ?_
  show State.MemWf _
  refine dropL1_memWf ?_
  exact untFill_memWf h
theorem perfUnt_memWf {s : State} {ci} {a} {ls} (h : s.MemWf) : PerfWf (perfUnt s ci a ls) := by
  unfold perfUnt
  refine ite_wf h ?_
  dsimp only
  split
  · exact noteLine_memWf (untFillFor_memWf h)
  · exact noteLine_memWf (untFillFor_memWf h)
  · exact noteLine_memWf (untFillFor_memWf h)
  · exact noteLine_memWf (untFillFor_memWf h)
  · exact noteLine_memWf (untFillFor_memWf h)
  · exact untFillFor_memWf h
  · exact noteStore_memWf (untClean_memWf (foldl_wf (fun _ _ h2 => untWrite_memWf h2) _ (untFillFor_memWf h)))
  · exact ite_wf (dropL1_memWf (State.modDie_memWf (untGive_memWf h))) (untGive_memWf h)
  · exact noteStore_memWf (rmwLanes_memWf (fun _ _ _ _ h2 => ite_wf (untWrite_memWf h2) (hbmLanes_memWf _ _ h2)) (noteLine_memWf (ite_wf h
        (State.modDie_memWf (untGive_memWf h)))))
  · exact noteStore_memWf (rmwLanes_memWf (fun _ _ _ _ h2 => ite_wf (untWrite_memWf h2) (hbmLanes_memWf _ _ h2)) (noteLine_memWf (ite_wf h
        (State.modDie_memWf (untGive_memWf h)))))
  · exact noteStore_memWf (rmwLanes_memWf (fun _ _ _ _ h2 => ite_wf (untWrite_memWf h2) (hbmLanes_memWf _ _ h2)) (noteLine_memWf (ite_wf h
        (State.modDie_memWf (untGive_memWf h)))))
  · exact noteStore_memWf (rmwLanes_memWf (fun _ _ _ _ h2 => ite_wf (untWrite_memWf h2) (hbmLanes_memWf _ _ h2)) (noteLine_memWf (ite_wf h
        (State.modDie_memWf (untGive_memWf h)))))
  · exact noteStore_memWf (rmwLanes_memWf (fun _ _ _ _ h2 => ite_wf (untWrite_memWf h2) (hbmLanes_memWf _ _ h2)) (noteLine_memWf (ite_wf h
        (State.modDie_memWf (untGive_memWf h)))))
theorem hostLanes_memWf (l : List (LaneAcc × Nat)) {s : State} (h : s.MemWf) : (l.foldl (fun (s : State) (x : LaneAcc × Nat) =>
      { s with hostMem := wrBytes s.hostMem x.2 (leBytes x.1.size x.1.data) }) s).MemWf := by
  refine foldl_wf (P := State.MemWf) (fun u x hu => ?_) l h
  exact memWf_wrHost (s := u) rfl rfl hu
theorem perfHst_memWf {s : State} {ci} {a} {ls} (h : s.MemWf) : PerfWf (perfHst s ci a ls) := by
  unfold perfHst
  dsimp only
  split
  · exact noteStore_memWf (ite_wf (hostLanes_memWf _ (memWf_same rfl rfl h)) (memWf_same rfl rfl h))
  · exact h
  · exact h
  iterate 5
    · exact ite_wf (P := PerfWf) h (ite_wf (P := PerfWf) (noteLine_memWf h) h)
  iterate 5
    · refine ite_wf (P := PerfWf) h (ite_wf (P := PerfWf) ?_ h)
      exact noteStore_memWf (rmwLanes_memWf (fun y _ _ _ h0 => memWf_wrHost (s := y) rfl rfl h0) (noteLine_memWf h))
theorem perfNib_memWf {s : State} {ci} {a} {ls} {slotOf} (hs : s.MemWf) : PerfWf (perfNib s ci a ls slotOf) := by
  unfold perfNib
  split
  · exact hs
  · exact hs
  · refine ite_wf hs ?_
    split
    · exact ite_wf (foldl_wf (fun _ _ h3 => State.modCore_memWf h3) _ hs) (State.modCore_memWf (foldl_wf (fun _ _ h3 => State.modCore_memWf h3) _ hs))
    · exact foldl_wf (fun _ _ h3 => State.modCore_memWf h3) _ hs
theorem perfWin_memWf {s : State} {ci} {a} {ls} (h : s.MemWf) : PerfWf (perfWin s ci a ls) := by
  unfold perfWin
  split
  · exact h
  · exact h
  · split
    · exact h
    · exact ite_wf (State.modCore_memWf h) (ite_wf (State.modCore_memWf h) (ite_wf (State.modCore_memWf (foldl_wf (fun _ _ h2 =>
          State.modCore_memWf h2) _ (noteStore_memWf h))) (ite_wf (rmwLanes_memWf (fun _ _ _ _ h2 => State.modCore_memWf h2) (noteStore_memWf
          (noteLine_memWf h))) (noteLine_memWf (foldl_wf (fun _ _ h2 => State.winSee_memWf h2) _ h)))))
theorem perfSpad_memWf {s : State} {ci} {a} (h : s.MemWf) : PerfWf (perfSpad s ci a) := by
  unfold perfSpad
  refine ite_wf (State.modCore_memWf h) ?_
  split
  · exact State.modCore_memWf (foldl_wf (fun _ _ h2 => State.modCore_memWf h2) _ (foldl_wf (fun _ _ h2 => noteStore_memWf h2) _ h))
  · exact h
  · exact h
  · exact rmwLanes_memWf (fun _ _ _ _ h2 => State.modCore_memWf h2) (foldl_wf (fun _ _ h2 => noteStore_memWf h2) _ (foldl_wf (fun _ _ h2 =>
        noteLine_memWf h2) _ h))
  · exact rmwLanes_memWf (fun _ _ _ _ h2 => State.modCore_memWf h2) (foldl_wf (fun _ _ h2 => noteStore_memWf h2) _ (foldl_wf (fun _ _ h2 =>
        noteLine_memWf h2) _ h))
  · exact rmwLanes_memWf (fun _ _ _ _ h2 => State.modCore_memWf h2) (foldl_wf (fun _ _ h2 => noteStore_memWf h2) _ (foldl_wf (fun _ _ h2 =>
        noteLine_memWf h2) _ h))
  · exact rmwLanes_memWf (fun _ _ _ _ h2 => State.modCore_memWf h2) (foldl_wf (fun _ _ h2 => noteStore_memWf h2) _ (foldl_wf (fun _ _ h2 =>
        noteLine_memWf h2) _ h))
  · exact rmwLanes_memWf (fun _ _ _ _ h2 => State.modCore_memWf h2) (foldl_wf (fun _ _ h2 => noteStore_memWf h2) _ (foldl_wf (fun _ _ h2 =>
        noteLine_memWf h2) _ h))
  · exact foldl_wf (fun _ _ h2 => noteLine_memWf h2) _ h
theorem perfPhys_memWf {s : State} {ci} {a} {mt} {pas} (h : s.MemWf) : PerfWf (perfPhys s ci a mt pas) := by
  unfold perfPhys
  exact ite_wf (perfTrk_memWf h) (ite_wf (perfUnt_memWf h) (ite_wf (perfHst_memWf h) (ite_wf (perfNib_memWf h) (perfWin_memWf h))))
theorem addRemote_memWf {s : State} {ci} {a} {mt} {pas} {dev} (h : s.MemWf) : (addRemote s ci a mt pas dev).MemWf := by
  unfold addRemote
  exact memWf_same rfl rfl h
theorem sendRemote_memWf {s : State} {ci} {a} {mt} {pas} {dev} (h : s.MemWf) : (sendRemote s ci a mt pas dev).MemWf := by
  unfold sendRemote
  exact originate_memWf (addRemote_memWf h)
theorem perfPeer_memWf {s : State} {ci} {a} {mt} {pas} {dev} (h : s.MemWf) : PerfWf (perfPeer s ci a mt pas dev) := by
  unfold perfPeer
  exact ite_wf (perfPhys_memWf h) (sendRemote_memWf (ite_wf (State.modDie_memWf (untGive_memWf h)) h))
theorem holdStore_memWf {s : State} {ci} {wi} {a} {x} (h : s.MemWf) : (holdStore s ci wi a x).MemWf := by
  unfold holdStore
  exact ite_wf (closeBatch_memWf (State.modWarp_memWf h)) (State.modWarp_memWf h)
theorem twinSend_memWf {s : State} {t} {ci} (h : s.MemWf) : (twinSend s t ci).MemWf := by
  unfold twinSend
  exact originate_memWf h
theorem performGo_memWf {s : State} {ci} {a} {x : Xlat} {pas} {c : Bool} (h : s.MemWf) :
    PerfWf (match (if c then limHeld s (lineOf ((pas.head?).getD 0)) else none) with
    | some w => .hold s (.ltlim w)
    | none => match x.home with
      | some d => perfPeer s ci a x.mt pas d
      | none => perfPhys s ci a x.mt pas) := by
  split
  · exact h
  · split
    · exact perfPeer_memWf h
    · exact perfPhys_memWf h
theorem perform_memWf {s : State} {ci} {a} {x} (h : s.MemWf) : PerfWf (perform s ci a x) := by
  unfold perform
  dsimp only
  split
  · refine ite_wf (P := PerfWf) (performGo_memWf h) (ite_wf (P := PerfWf) (holdStore_memWf h) ?_)
    refine ite_wf (P := PerfWf) (addRemote_memWf (closeBatch_memWf h)) ?_
    split
    · exact twinSend_memWf (PerfWf.get_done (performGo_memWf (closeBatch_memWf h)) (by assumption))
    · exact performGo_memWf (closeBatch_memWf h)
  · exact performGo_memWf h

/-! ### Messages and reports -/

theorem refuseMsg_memWf {s : State} {seq} (h : s.MemWf) : (refuseMsg s seq).MemWf := by
  unfold refuseMsg
  exact errorMsg_memWf _ _ _ _ _ _ h
theorem refuseRec_memWf {s : State} {seq} (h : s.MemWf) : (refuseRec s seq).MemWf := by
  unfold refuseRec
  exact errorMsg_memWf _ _ _ _ _ _ h
theorem State.modGraph_memWf {s : State} {d} {id} {f} (hs : s.MemWf) : (State.modGraph s d id f).MemWf := by
  unfold State.modGraph
  exact State.modDie_memWf hs
theorem State.modNode_memWf {s : State} {d} {id} {n} {f} (hs : s.MemWf) : (State.modNode s d id n f).MemWf := by
  unfold State.modNode
  exact State.modGraph_memWf hs
theorem doomNode_memWf {s : State} {d} {id} {n} {st} (h : s.MemWf) : (doomNode s d id n st).MemWf := by
  unfold doomNode
  exact State.modNode_memWf h
theorem mapTask_memWf {s : State} {d} {id} {n} {f} (hs : s.MemWf) : (mapTask s d id n f).MemWf := by
  unfold mapTask
  exact memWf_same rfl rfl hs
theorem raiseAssist_memWf {s : State} {r} {ty} {fields} (h : s.MemWf) : (raiseAssist s r ty fields).MemWf := by
  unfold raiseAssist
  exact memWf_same rfl rfl h
theorem raiseContain_memWf {s : State} {i} {d} {id} {n} (h : s.MemWf) : (raiseContain s i d id n).MemWf := by
  unfold raiseContain
  exact raiseAssist_memWf h
theorem reportError_memWf {s : State} {cls} {code} {src} {addr} {detail} {task} (h : s.MemWf) :
    (reportError s cls code src addr detail task).MemWf := by
  have hl := logError_memWf cls code src addr detail h
  have hm : (if cls = 0 then (logError s cls code src addr detail).1 else
      errorMsg (logError s cls code src addr detail).1 cls code src addr ((logError s cls code src addr detail).2.getD 0) 0).MemWf :=
    ite_wf hl (errorMsg_memWf _ _ _ _ _ _ hl)
  unfold reportError
  dsimp only
  split
  · next d id n =>
    have ht := mapTask_memWf (d := d) (id := id) (n := n) (f := Warp.stop) hm
    exact ite_wf (ite_wf (raiseContain_memWf ht) (memWf_same rfl rfl ht)) hm
  · exact hm
theorem endedFailure_memWf {s : State} {ci} {g} {st} {pc} {va} (h : s.MemWf) : (endedFailure s ci g st pc va).MemWf := by
  unfold endedFailure
  split
  · exact doomNode_memWf (reportError_memWf h)
  · exact reportError_memWf h

/-! ### Accesses in flight -/

theorem landWrite_memWf {s : State} {ci} {slot} {w} (h : s.MemWf) : (landWrite s ci slot w).MemWf := by
  unfold landWrite
  split
  · exact State.modCore_memWf h
  · exact State.modCore_memWf h
  · exact State.modWarp_memWf h
  · exact h
  · exact h
theorem landEarly_memWf {s : State} {ci} {slot} (h : s.MemWf) : (landEarly s ci slot).MemWf := by
  unfold landEarly
  exact foldl_wf (fun _ _ h0 => ite_wf (landWrite_memWf h0) h0) _ h
theorem landQueue_memWf {s : State} {ci} {wg} {q} {id} {lane} {v} {p} (h : s.MemWf) : (landQueue s ci wg q id lane v p).MemWf := by
  unfold landQueue
  exact State.modCore_memWf h
theorem landQueues_memWf {s : State} {ci} {wg} {ws} (h : s.MemWf) : (landQueues s ci wg ws).MemWf := by
  unfold landQueues
  refine foldl_wf (fun _ _ h0 => ?_) _ h
  split
  · exact landQueue_memWf h0
  · exact h0
theorem resolveFences_memWf {s : State} {ci} {slot} (h : s.MemWf) : (resolveFences s ci slot).MemWf := by
  unfold resolveFences
  split
  · exact h
  · refine ite_wf h ?_
    split
    · exact State.modCore_memWf (State.modCore_memWf (State.modWarp_memWf h))
    · exact State.modCore_memWf (State.modWarp_memWf h)
theorem finishWith_memWf {code} {s : State} {ci} {slot} {a} {ws} {bad} {st} (h : s.MemWf) : (finishWith code s ci slot a ws bad st).MemWf := by
  unfold finishWith
  split
  · exact h
  · refine ite_wf ?_ ?_
    · refine State.modWarp_memWf ?_
      refine ite_wf ?_ ?_
      · split
        · refine State.modWarp_memWf ?_
          split
          · exact landQueues_memWf h
          · exact h
        · split
          · exact landQueues_memWf h
          · exact h
      · refine ite_wf ?_ ?_
        · refine endedFailure_memWf ?_
          split
          · refine State.modWarp_memWf ?_
            split
            · exact landQueues_memWf h
            · exact h
          · split
            · exact landQueues_memWf h
            · exact h
        · refine State.modWarp_memWf ?_
          split
          · refine State.modWarp_memWf ?_
            split
            · exact landQueues_memWf h
            · exact h
          · split
            · exact landQueues_memWf h
            · exact h
    · refine ite_wf ?_ ?_
      · split
        · refine State.modWarp_memWf ?_
          split
          · exact landQueues_memWf h
          · exact h
        · split
          · exact landQueues_memWf h
          · exact h
      · refine ite_wf ?_ ?_
        · refine endedFailure_memWf ?_
          split
          · refine State.modWarp_memWf ?_
            split
            · exact landQueues_memWf h
            · exact h
          · split
            · exact landQueues_memWf h
            · exact h
        · refine State.modWarp_memWf ?_
          split
          · refine State.modWarp_memWf ?_
            split
            · exact landQueues_memWf h
            · exact h
          · split
            · exact landQueues_memWf h
            · exact h
theorem finishLsu_memWf {s : State} {ci} {slot} {a} {ws} {bad} {st} (h : s.MemWf) : (finishLsu s ci slot a ws bad st).MemWf := by
  unfold finishLsu
  exact finishWith_memWf h
theorem holdAt_memWf {s : State} {ci} {a} {mt} {pas} {x5} (h : s.MemWf) : (holdAt s ci a mt pas x5).MemWf := by
  unfold holdAt
  exact State.modDie_memWf h
theorem performNow_memWf {s : State} {ci} {slot} {a} {x} {rep} (h : s.MemWf) : (performNow s ci slot a x rep).MemWf := by
  unfold performNow
  dsimp only
  split
  · exact finishLsu_memWf (PerfWf.get_done (perform_memWf h) (by assumption))
  · exact State.modWarp_memWf (holdAt_memWf (PerfWf.get_hold (perform_memWf h) (by assumption)))
  · refine State.modWarp_memWf ?_
    split
    · exact State.modWarp_memWf (PerfWf.get_away (perform_memWf h) (by assumption))
    · exact PerfWf.get_away (perform_memWf h) (by assumption)
theorem performPrf_memWf {s : State} {ci} {a} {x} (h : s.MemWf) : (performPrf s ci a x).MemWf := by
  unfold performPrf
  dsimp only
  split
  · exact PerfWf.get_done (perform_memWf h) (by assumption)
  · exact PerfWf.get_away (perform_memWf h) (by assumption)
  · exact holdAt_memWf (PerfWf.get_hold (perform_memWf h) (by assumption))
theorem performSpad_memWf {s : State} {ci} {slot} {a} (h : s.MemWf) : (performSpad s ci slot a).MemWf := by
  unfold performSpad
  split
  · exact finishLsu_memWf (PerfWf.get_done (perfSpad_memWf h) (by assumption))
  · exact PerfWf.get_hold (perfSpad_memWf h) (by assumption)
  · exact State.modWarp_memWf (PerfWf.get_away (perfSpad_memWf h) (by assumption))
theorem findXlat_memWf {s : State} {ci} {a} (h : s.MemWf) : FstWf (findXlat s ci a) := by
  unfold findXlat
  split
  · exact h
  · split
    · dsimp only
      split
      · exact h
      · exact translate_memWf h
    · exact translate_memWf h
theorem addMissAt_memWf {s : State} {ci} {a} {va} {need} {kept} (h : s.MemWf) : (addMissAt s ci a va need kept).MemWf := by
  unfold addMissAt
  exact State.modCore_memWf h
theorem addMiss_memWf {s : State} {ci} {a} {kept} (h : s.MemWf) : (addMiss s ci a kept).MemWf := by
  unfold addMiss
  exact addMissAt_memWf h
theorem sealBatch_memWf {s : State} {ci} {slot} (h : s.MemWf) : (sealBatch s ci slot).MemWf := by
  unfold sealBatch
  split
  · exact h
  · exact ite_wf h (ite_wf (closeBatch_memWf h) h)
theorem flushHeld_memWf {s : State} {ci} {slot} {a} {x} (h : s.MemWf) : (flushHeld s ci slot a x).MemWf := by
  unfold flushHeld
  split
  · exact h
  · exact ite_wf h (ite_wf (closeBatch_memWf h) h)
theorem place_memWf {s : State} {ci} {slot} {d} (h : s.MemWf) : (place s ci slot d).MemWf := by
  unfold place
  refine ite_wf (State.modWarp_memWf (flushHeld_memWf h)) ?_
  split
  · exact performNow_memWf (flushHeld_memWf h)
  · exact performSpad_memWf (flushHeld_memWf h)
theorem drain_memWf {s : State} {ci} {slot} (h : s.MemWf) : (drain s ci slot).MemWf := by
  unfold drain
  dsimp only
  split
  · exact resolveFences_memWf h
  · refine sealBatch_memWf ?_
    refine foldl_wf (fun _ _ h4 => ?_) _ (resolveFences_memWf h)
    refine ite_wf (flushHeld_memWf h4) ?_
    refine sealBatch_memWf ?_
    split
    · exact performNow_memWf (State.modWarp_memWf (flushHeld_memWf h4))
    · exact performSpad_memWf (State.modWarp_memWf (flushHeld_memWf h4))
theorem twinAnswer_memWf {s : State} {ci} {a} (h : s.MemWf) : (twinAnswer s ci a).MemWf := by
  unfold twinAnswer
  split
  · exact h
  · exact ite_wf (twinSend_memWf h) h
theorem finishOut_memWf {s : State} {ci} {slot} {a} {ws} {bad} {st} (h : s.MemWf) : (finishOut s ci slot a ws bad st).MemWf := by
  unfold finishOut
  exact drain_memWf (finishLsu_memWf (State.modWarp_memWf (twinAnswer_memWf h)))
theorem settle_memWf {s : State} {ci} {slot} (h : s.MemWf) : (settle s ci slot).MemWf := by
  have hb := sealBatch_memWf (ci := ci) (slot := slot) h
  unfold settle
  generalize sealBatch s ci slot = u at hb ⊢
  dsimp only
  split
  · exact hb
  · next w _ =>
    generalize w.wait = x
    cases x
    case flags => exact ite_wf (State.modWarp_memWf hb) hb
    case tkwait => exact ite_wf (State.modWarp_memWf hb) hb
    case fence => exact ite_wf (resolveFences_memWf (State.modWarp_memWf hb)) hb
    case nunbind => exact ite_wf (State.modWarp_memWf hb) hb
    case sem => exact State.modCore_memWf hb
    case cm => exact State.modCore_memWf hb
    case obfree r =>
      dsimp only
      split
      · exact ite_wf hb (State.modWarp_memWf hb)
      · exact State.modWarp_memWf hb
    all_goals exact hb

/-! ### Transfers, waits, ligatures and traps -/

theorem runTransfer_memWf {s : State} {c} {scalar} {opds} {body} (hs : s.MemWf) (hbody : ∀ y0, CtxWf y0 → ResWf (body y0)) :
    OutWf (runTransfer s c scalar opds body) := by
  unfold runTransfer
  split
  · exact trivial
  · exact ite_wf (takeTrap_memWf _ _ _ (issued_memWf hs)) (runInstr_memWf hs (fun _ h1 => ite_wf (P := ResWf) trivial (hbody _ h1)))
theorem readTarget_memWf {k : Ctx} {s : State} {t} (hk : CtxWf k) (hs : s.MemWf) : FstWf (readTarget k s t) := by
  unfold readTarget
  refine ite_wf hs ?_
  split
  · split
    · exact FstWf.get (fetchWord_memWf hs) (by assumption)
    · exact FstWf.get (fetchWord_memWf hs) (by assumption)
  · exact FstWf.get (fetchWord_memWf hs) (by assumption)
  · exact FstWf.get (fetchWord_memWf hs) (by assumption)
theorem readTargets_memWf {k : Ctx} {x1 : State} {x2} (hk : CtxWf k) (hx1 : x1.MemWf) : FstWf (readTargets k x1 x2) := by
  unfold readTargets
  dsimp only
  split
  · exact hx1
  · exact readTargets_memWf hk (readTarget_memWf hk hx1)
theorem sendLanes_memWf {k : Ctx} {goes} {stay} {depth} {pre} (hk : CtxWf k) (hpre : ∀ y0, y0.MemWf → (pre y0).MemWf) :
    ResWf (sendLanes k goes stay depth pre) := by
  unfold sendLanes
  split
  · split
    · exact fetchMiss_memWf (FstWf.get (readTargets_memWf hk hk) (by assumption))
    · dsimp only
      split
      · exact ite_wf (P := ResWf) trivial trivial
      · exact State.modWarp_memWf (hpre _ (FstWf.get (readTargets_memWf hk hk) (by assumption)))
theorem execBra_memWf {c} {off} {s : State} (h : s.MemWf) : OutWf (execBra c off s) := by
  unfold execBra
  exact runTransfer_memWf h (fun _ h0 => ite_wf h0 (sendLanes_memWf h0 (fun _ h1 => h1)))
theorem execBrd_memWf {c} {a} {pneg} {off} {s : State} (h : s.MemWf) : OutWf (execBrd c a pneg off s) := by
  unfold execBrd
  exact runTransfer_memWf h (fun _ h0 => ite_wf h0 (sendLanes_memWf h0 (fun _ h1 => h1)))
theorem execBrx_memWf {c} {a} {s : State} (h : s.MemWf) : OutWf (execBrx c a s) := by
  unfold execBrx
  exact runTransfer_memWf h (fun _ h0 => ite_wf h0 (sendLanes_memWf h0 (fun _ h1 => h1)))
theorem callTo_memWf {k : Ctx} {d} {goes} (h : CtxWf k) : ResWf (callTo k d goes) := by
  unfold callTo
  exact ite_wf h (dite_wf (fun _ => sendLanes_memWf h (fun _ h0 => writeLanes_memWf h0)) (fun _ => trivial))
theorem execCall_memWf {c} {d} {off} {s : State} (h : s.MemWf) : OutWf (execCall c d off s) := by
  unfold execCall
  exact runTransfer_memWf h (fun _ h0 => callTo_memWf h0)
theorem execCallx_memWf {c} {d} {a} {s : State} (h : s.MemWf) : OutWf (execCallx c d a s) := by
  unfold execCallx
  exact runTransfer_memWf h (fun _ h0 => callTo_memWf h0)
theorem execRet_memWf {c} {a} {s : State} (h : s.MemWf) : OutWf (execRet c a s) := by
  unfold execRet
  exact runTransfer_memWf h (fun _ h0 => ite_wf h0 (ite_wf (P := ResWf) trivial (sendLanes_memWf h0 (fun _ h1 => h1))))
theorem execRetTr_memWf {c} {s : State} (h : s.MemWf) : OutWf (execRetTr c s) := by
  unfold execRetTr
  refine runTransfer_memWf h (fun _ h0 => ?_)
  refine ite_wf h0 ?_
  split
  · exact trivial
  · exact ite_wf (P := ResWf) trivial (ite_wf (P := ResWf) trivial (ite_wf (P := ResWf) trivial (State.modWarp_memWf (snoopBytes_memWf h0))))
theorem execExit_memWf {c} {s : State} (h : s.MemWf) : OutWf (execExit c s) := by
  unfold execExit
  exact runTransfer_memWf h (fun _ h0 => ite_wf h0 (ite_wf (P := ResWf) trivial (State.modWarp_memWf (closeBatch_memWf h0))))
theorem execYield_memWf {c} {n} {s : State} (h : s.MemWf) : OutWf (execYield c n s) := by
  unfold execYield
  exact runInstr_memWf h (fun _ h0 => ite_wf h0 (State.modWarp_memWf h0))
theorem execNop_memWf {c} {s : State} (h : s.MemWf) : OutWf (execNop c s) := by
  unfold execNop
  exact runInstr_memWf h (fun _ h0 => h0)
theorem execWaitc_memWf {c} {m} {s : State} (h : s.MemWf) : OutWf (execWaitc c m s) := by
  unfold execWaitc
  exact runInstr_memWf h (fun _ h0 => ite_wf h0 (State.modWarp_memWf h0))
theorem execLigon_memWf {c} {a} {b} {s : State} (h : s.MemWf) : OutWf (execLigon c a b s) := by
  unfold execLigon
  exact runInstr_memWf h (fun _ h0 => ite_wf (P := ResWf) trivial (State.modWarp_memWf h0))
theorem execLigmap_memWf {c} {path} {slot} {a} {b} {s : State} (h : s.MemWf) : OutWf (execLigmap c path slot a b s) := by
  unfold execLigmap
  refine runInstr_memWf h (fun _ h0 => ?_)
  refine ite_wf ?_ ?_
  · exact trivial
  · split
    · exact State.modWarp_memWf h0
    · exact h0
theorem execLigoff_memWf {c} {s : State} (h : s.MemWf) : OutWf (execLigoff c s) := by
  unfold execLigoff
  exact runInstr_memWf h (fun _ h0 => ite_wf (P := ResWf) trivial (State.modWarp_memWf h0))
theorem execTrap_memWf {c} {code} {s : State} (h : s.MemWf) : OutWf (execTrap c code s) := by
  unfold execTrap
  exact runInstr_memWf h (fun _ h0 => ite_wf h0 h0)
theorem execBrkpt_memWf {c} {code} {s : State} (h : s.MemWf) : OutWf (execBrkpt c code s) := by
  unfold execBrkpt
  exact runInstr_memWf h (fun _ h0 => ite_wf (P := ResWf) h0 trivial)
theorem execSvc_memWf {c} {a} {count} {s : State} (h : s.MemWf) : OutWf (execSvc c a count s) := by
  unfold execSvc
  refine ite_wf h ?_
  refine runInstr_memWf h (fun _ h1 => ?_)
  refine ite_wf h1 ?_
  refine ite_wf ?_ ?_
  · exact trivial
  · split
    · exact State.modWarp_memWf (State.modCore_memWf (closeBatch_memWf h1))
    · exact trivial
    · exact h1

/-! ### What a nib does with an access -/

theorem endLoad_memWf {s : State} {core} {acc} {ws} {bad} {st} (h : s.MemWf) : (endLoad s core acc ws bad st).MemWf := by
  unfold endLoad
  split
  · exact foldl_wf (P := FstWf) (fun _ _ h0 => finishOut_memWf h0) _ h
  · exact h
theorem endWait_memWf {s : State} {ci} {n} {x} {l} (h : s.MemWf) : (endWait s ci n x l).MemWf := by
  unfold endWait
  split
  · exact endLoad_memWf h
  · exact ite_wf (State.modCore_memWf h) (ite_wf (memWf_same rfl rfl h) (originate_memWf h))
  · exact h
theorem nibAcquire_memWf {s : State} {ci} {core} {acc} (h : s.MemWf) : (nibAcquire s ci core acc).MemWf := by
  unfold nibAcquire
  exact noteSee_memWf h
theorem serveLoads_memWf {s : State} {ci} {ni} {p} {result} (hs : s.MemWf) : (serveLoads s ci ni p result).MemWf := by
  unfold serveLoads
  exact ite_wf (foldl_wf (fun _ _ h0 => ite_wf (State.modCore_memWf h0) h0) _ (foldl_wf (fun _ _ h0 => endWait_memWf (ite_wf
      (nibAcquire_memWf h0) h0)) _ (State.modCore_memWf hs))) (foldl_wf (fun _ _ h0 => endWait_memWf (ite_wf (nibAcquire_memWf h0) h0)) _
      (State.modCore_memWf hs))

/-! ### Accesses of the engines -/

theorem ackReplay_memWf {s : State} {tid} (h : s.MemWf) : (ackReplay s tid).MemWf := by
  unfold ackReplay
  exact ite_wf h (State.modDie_memWf h)
theorem endKept_memWf {s : State} {ci} {p} (h : s.MemWf) : (endKept s ci p).MemWf := by
  unfold endKept
  exact dropKept_memWf h
theorem ER.fin_memWf {α : Type} {x : ER α} {e} {id} (h : ERWf x) : ERWf (ER.fin x e id) := by
  unfold ER.fin
  split
  · exact dropKept_memWf h
  · exact dropKept_memWf h
  · exact h
theorem engXlat_memWf {s : State} {e} {id} {va} (h : s.MemWf) : FstWf (engXlat s e id va) := by
  unfold engXlat
  split
  · exact h
  · split
    · exact keepXlat_memWf (FstWf.get (translate_memWf h) (by assumption))
    · exact translate_memWf h
theorem engMissOf_memWf {s : State} {e} {id} {pc} {va} {need} {kind} {lanes} (h : s.MemWf) : (engMissOf s e id pc va need kind lanes).MemWf := by
  unfold engMissOf
  exact State.modCore_memWf h
theorem engMiss_memWf {s : State} {e} {id} {pc} {va} {need} (h : s.MemWf) : (engMiss s e id pc va need).MemWf := by
  unfold engMiss
  split
  · exact engMissOf_memWf h
  · exact engMissOf_memWf h
theorem engParts_memWf {s : State} {e} {id} {pc} {need} {chk} {x6} (hs : s.MemWf) : ERWf (engParts s e id pc need chk x6) := by
  unfold engParts
  split
  · exact hs
  · refine ite_wf hs ?_
    split
    · split
      · split
        · exact ERWf.get_fail (engParts_memWf (FstWf.get (engXlat_memWf hs) (by assumption))) (by assumption)
        · exact engMiss_memWf (ERWf.get_ok (engParts_memWf (FstWf.get (engXlat_memWf hs) (by assumption))) (by assumption))
        · exact engMiss_memWf (ERWf.get_wait (engParts_memWf (FstWf.get (engXlat_memWf hs) (by assumption))) (by assumption))
      · dsimp only
        split
        · exact FstWf.get (engXlat_memWf hs) (by assumption)
        · exact ER.bind_wf (engParts_memWf (FstWf.get (engXlat_memWf hs) (by assumption))) (fun _ _ h5 => h5)
theorem engHold_memWf {s : State} {e} {line} {x3} (h : s.MemWf) : (engHold s e line x3).MemWf := by
  unfold engHold
  exact State.modDie_memWf h
theorem engNote_memWf {s : State} {e} {line} (h : s.MemWf) : (engNote s e line).MemWf := by
  unfold engNote
  exact State.modCore_memWf h
theorem engMark_memWf {s : State} {e} {line} (h : s.MemWf) : (engMark s e line).MemWf := by
  unfold engMark
  exact State.modCore_memWf (State.noteMark_memWf h)
theorem engPeer_memWf {α : Type} {s : State} {e} {p} {need} {go : ER α} (hs : s.MemWf) (hgo : ERWf go) : ERWf (engPeer s e p need go) := by
  unfold engPeer
  refine ite_wf (ite_wf hs hs) ?_
  refine ite_wf (engMiss_memWf hs) ?_
  split
  · exact hs
  · exact hgo
theorem readPeer_memWf {s : State} {e} {p} (h : s.MemWf) : ERWf (readPeer s e p) := by
  unfold readPeer
  refine ite_wf ?_ ?_
  · refine ER.bind_wf ?_ (fun _ _ h1 => engNote_memWf h1)
    refine ite_wf h ?_
    refine engPeer_memWf h ?_
    refine ite_wf ?_ (peerUnt_memWf h)
    show State.MemWf _
    refine State.modDie_memWf ?_
    refine ite_wf ?_ (foldl_wf (fun _ _ h13 => State.modDie_memWf h13) _ (foldl_wf (fun _ _ h13 => ite_wf (sliceSend_memWf h13) h13) _ (ite_wf h
        (putPeer_memWf h))))
    split
    · exact State.soil_memWf (foldl_wf (fun _ _ h15 => State.modDie_memWf h15) _ (foldl_wf (fun _ _ h15 => ite_wf (sliceSend_memWf h15) h15) _
          (ite_wf h (putPeer_memWf h))))
    · exact foldl_wf (fun _ _ h15 => State.modDie_memWf h15) _ (foldl_wf (fun _ _ h15 => ite_wf (sliceSend_memWf h15) h15) _ (ite_wf h
          (putPeer_memWf h)))
  · refine ite_wf ?_ (engPeer_memWf h (engNote_memWf h))
    refine ER.bind_wf ?_ (fun _ _ h2 => engNote_memWf h2)
    refine ite_wf h ?_
    refine engPeer_memWf h ?_
    refine ite_wf ?_ (peerUnt_memWf h)
    show State.MemWf _
    refine State.modDie_memWf ?_
    refine ite_wf ?_ (foldl_wf (fun _ _ h14 => State.modDie_memWf h14) _ (foldl_wf (fun _ _ h14 => ite_wf (sliceSend_memWf h14) h14) _ (ite_wf h
        (putPeer_memWf h))))
    split
    · exact State.soil_memWf (foldl_wf (fun _ _ h16 => State.modDie_memWf h16) _ (foldl_wf (fun _ _ h16 => ite_wf (sliceSend_memWf h16) h16) _
          (ite_wf h (putPeer_memWf h))))
    · exact foldl_wf (fun _ _ h16 => State.modDie_memWf h16) _ (foldl_wf (fun _ _ h16 => ite_wf (sliceSend_memWf h16) h16) _ (ite_wf h
          (putPeer_memWf h)))
theorem takeGot_memWf {s : State} {e} {pa} (h : s.MemWf) : AllWf FstWf (takeGot s e pa) := by
  unfold takeGot
  exact map_wf (fun _ e => State.modCore_memWf h)
theorem readTrace_memWf {s : State} {e} {pa} {n} (h : s.MemWf) : ERWf (readTrace s e pa n) := by
  unfold readTrace
  split
  · exact engNote_memWf (AllWf.get_fst (takeGot_memWf h) (by assumption))
  · split
    · exact h
    · refine ite_wf h ?_
      refine ite_wf h ?_
      split
      · exact h
      · exact engNote_memWf h
      · exact ite_wf (State.modCore_memWf h) (State.modCore_memWf h)
theorem readTraces_memWf {s : State} {e} {x2} (h : s.MemWf) : ERWf (readTraces s e x2) := by
  unfold readTraces
  split
  · exact h
  · exact ER.bind_wf (readTrace_memWf h) (fun _ _ h1 => ER.bind_wf (readTraces_memWf h1) (fun _ _ h2 => h2))
theorem readHere_memWf {s : State} {e} {p} (h : s.MemWf) : ERWf (readHere s e p) := by
  unfold readHere
  refine ite_wf (P := ERWf) (readPeer_memWf h) (ite_wf (P := ERWf) ?_ (ite_wf (P := ERWf) ?_ (ite_wf (P := ERWf) ?_
    (ite_wf (P := ERWf) (readTraces_memWf h) ?_))))
  · split
    · exact engHold_memWf h
    · exact engNote_memWf (ExceptWf.get_fst (l2Read_memWf h) (by assumption))
  · exact ite_wf (P := ERWf) (engHold_memWf h) (engNote_memWf (untFillFor_memWf h))
  · exact ite_wf (P := ERWf) h (ite_wf (P := ERWf) h (engNote_memWf h))
  · split
    · exact h
    · exact engNote_memWf (State.winSee_memWf h)
theorem readSecond_memWf {s : State} {e} {t} {p} (h : s.MemWf) : ERWf (readSecond s e t p) := by
  unfold readSecond
  split
  · exact engNote_memWf (AllWf.get_fst (takeGot_memWf h) (by assumption))
  · exact ite_wf h (addRemote_memWf h)
theorem readPiece_memWf {s : State} {e} {p} (h : s.MemWf) : ERWf (readPiece s e p) := by
  unfold readPiece
  split
  · exact readHere_memWf h
  · exact ite_wf (readHere_memWf h) (ite_wf (readSecond_memWf h) (ER.bind_wf (readHere_memWf h) (fun _ _ h1 => twinSend_memWf h1)))
theorem writeTrk_memWf {s : State} {e} {p} {bs} (h : s.MemWf) : ERWf (writeTrk s e p bs) := by
  have hs : ExceptWf FstWf (match limHeld s (lineOf p.pa) with
      | some w => Except.error (Hold.ltlim w)
      | none => storeTrk s e.ci (lineOf p.pa)) := by
    split
    · trivial
    · exact storeTrk_memWf h
  unfold writeTrk
  dsimp only
  split
  · exact engHold_memWf h
  · next t w he =>
    have ht : t.MemWf := ExceptWf.get_fst hs he
    exact engWrite_memWf (engMark_memWf (memWf_wrHbm (s := t) rfl rfl ht))
theorem writeUnt_memWf {s : State} {e} {p} {bs} (h : s.MemWf) : (writeUnt s e p bs).MemWf := by
  unfold writeUnt
  exact engMark_memWf (foldl_wf (fun _ _ h0 => untWrite_memWf h0) _ h)
theorem writePeer_memWf {s : State} {e} {p} {bs} (h : s.MemWf) : ERWf (writePeer s e p bs) := by
  unfold writePeer
  refine ite_wf ?_ (ite_wf (ite_wf (writeUnt_memWf h) (engPeer_memWf h (writeUnt_memWf (peerUnt_memWf h)))) (engPeer_memWf h (engWrite_memWf
      (engMark_memWf h))))
  refine ite_wf (writeTrk_memWf h) ?_
  refine engPeer_memWf h ?_
  split
  · exact writeTrk_memWf (AllWf.get (peerGrant_memWf h) (by assumption))
  · exact h
theorem writeNib_memWf {s : State} {e} {x2} (h : s.MemWf) : ERWf (writeNib s e x2) := by
  unfold writeNib
  split
  · exact h
  · split
    · exact h
    · exact ite_wf (State.setCore_memWf h) (writeNib_memWf (State.setCore_memWf h))
theorem writePiece_memWf {s : State} {e} {u} {p} {bs} (h : s.MemWf) : ERWf (writePiece s e u p bs) := by
  have hp : ∀ l, (engMark { s with port := { s.port with hpwSeq := s.port.hpwSeq + 1 } } e l).MemWf := fun l =>
    engMark_memWf (memWf_same rfl rfl h)
  unfold writePiece
  refine ite_wf (P := ERWf) (writePeer_memWf h) (ite_wf (P := ERWf) (writeTrk_memWf h) (ite_wf (P := ERWf) ?_ (ite_wf (P := ERWf) ?_
    (ite_wf (P := ERWf) (writeNib_memWf h) ?_))))
  · exact ite_wf (P := ERWf) (engHold_memWf h) (writeUnt_memWf (untFillFor_memWf h))
  · exact ite_wf (P := State.MemWf) (memWf_wrHost rfl rfl (hp _)) (hp _)
  · split
    · exact h
    · exact ite_wf (P := ERWf) (State.modCore_memWf h) (State.modCore_memWf (engMark_memWf h))
theorem readPieces_memWf {s : State} {e} {x2} (h : s.MemWf) : ERWf (readPieces s e x2) := by
  unfold readPieces
  split
  · exact h
  · exact ER.bind_wf (readPiece_memWf h) (fun _ _ h1 => ER.bind_wf (readPieces_memWf h1) (fun _ _ h2 => h2))
theorem writePieces_memWf {s : State} {e} {u} {x3} {x4} (h : s.MemWf) : ERWf (writePieces s e u x3 x4) := by
  unfold writePieces
  split
  · exact h
  · exact ER.bind_wf (writePiece_memWf h) (fun _ _ h1 => writePieces_memWf h1)
theorem engRead_memWf {s : State} {e} {id} {pc} {va} {n} (h : s.MemWf) : ERWf (engRead s e id pc va n) := by
  unfold engRead
  exact ite_wf h (ER.fin_memWf (ER.bind_wf (engParts_memWf h) (fun _ _ h0 => readPieces_memWf h0)))
theorem keepWaits_memWf {s : State} {t : State} {ci} (hs : s.MemWf) (ht : t.MemWf) : (keepWaits s t ci).MemWf := by
  unfold keepWaits
  refine State.modDie_memWf (State.modCore_memWf ?_)
  exact memWf_same (s := s) rfl rfl hs
theorem dropGot_memWf {s : State} {ci} {p} (h : s.MemWf) : (dropGot s ci p).MemWf := by
  unfold dropGot
  exact State.modCore_memWf (memWf_same rfl rfl h)

end Machine

end Sys2Proof
end


section
/-! PROOFS. Every function of the model keeps the memories canonical: the memory, sync, copy and matrix families and the access slice. -/

namespace Sys2Proof

open Machine

namespace Machine

/-! ### Memory instructions -/

theorem Ctx.reserve_memWf {k : Ctx} {d} (h : CtxWf k) : CtxWf (Ctx.reserve k d) := by
  unfold Ctx.reserve
  split
  · exact State.modCore_memWf h
  · exact h
theorem lookup_memWf {s : State} {ci} {g} {a} (h : s.MemWf) : FstWf (lookup s ci g a) := by
  unfold lookup
  refine ite_wf h ?_
  refine ite_wf h ?_
  split
  · exact FstWf.get (findXlat_memWf h) (by assumption)
  · exact FstWf.get (findXlat_memWf h) (by assumption)
theorem lookups_memWf {ci} {g} {x2 : State} {x3} (h : x2.MemWf) : FstWf (lookups ci g x2 x3) := by
  unfold lookups
  dsimp only
  split
  · exact h
  · exact lookups_memWf (lookup_memWf h)
theorem startAccesses_memWf {c} {long} {id} {n} {k : Ctx} {fs} {s : State} (hk : CtxWf k) (hs : s.MemWf) :
    (startAccesses c long id n k fs s).MemWf := by
  unfold startAccesses
  refine sealBatch_memWf ?_
  refine foldl_wf (fun _ _ h3 => ?_) _ (State.modWarp_memWf hs)
  split
  · exact place_memWf h3
  · exact place_memWf h3
  · exact addMiss_memWf h3
  · exact h3
theorem runAccess_memWf {c} {kind} {t} {sp} {ord} {sc} {long} {lanes} {k : Ctx} (h : CtxWf k) :
    ResWf (runAccess c kind t sp ord sc long lanes k) := by
  unfold runAccess
  refine ite_wf h ?_
  refine ite_wf ?_ ?_
  · split
    · exact trivial
    · exact trivial
  · split
    · split
      · split
        · dsimp only
          split
          · exact trivial
          · exact ite_wf (P := ResWf) trivial (startAccesses_memWf h (lookups_memWf h))
        · dsimp only
          split
          · exact trivial
          · exact ite_wf (P := ResWf) trivial (startAccesses_memWf h (lookups_memWf h))
      · split
        · dsimp only
          split
          · exact trivial
          · exact ite_wf (P := ResWf) trivial (startAccesses_memWf h (lookups_memWf h))
        · dsimp only
          split
          · exact trivial
          · exact ite_wf (P := ResWf) trivial (startAccesses_memWf h (lookups_memWf h))
    · split
      · split
        · dsimp only
          split
          · exact trivial
          · exact ite_wf (P := ResWf) trivial (startAccesses_memWf h (lookups_memWf h))
        · dsimp only
          split
          · exact trivial
          · exact ite_wf (P := ResWf) trivial (startAccesses_memWf h (lookups_memWf h))
      · split
        · dsimp only
          split
          · exact trivial
          · exact ite_wf (P := ResWf) trivial (startAccesses_memWf h (lookups_memWf h))
        · dsimp only
          split
          · exact trivial
          · exact ite_wf (P := ResWf) trivial (startAccesses_memWf h (lookups_memWf h))
theorem execLd_memWf {m} {s : State} (h : s.MemWf) : OutWf (execLd m s) := by
  unfold execLd
  exact runInstr_memWf h (fun _ h0 => runAccess_memWf h0)
theorem execSt_memWf {m} {s : State} (h : s.MemWf) : OutWf (execSt m s) := by
  unfold execSt
  exact runInstr_memWf h (fun _ h0 => runAccess_memWf h0)
theorem execLdq_memWf {m} {s : State} (h : s.MemWf) : OutWf (execLdq m s) := by
  unfold execLdq
  exact runInstr_memWf h (fun _ h0 => runAccess_memWf (Ctx.reserve_memWf h0))
theorem prfLane_memWf {k : Ctx} {l2} {va} {l} {s : State} (hk : CtxWf k) (hs : s.MemWf) : (prfLane k l2 va l s).MemWf := by
  unfold prfLane
  refine ite_wf hs ?_
  split
  · exact FstWf.get (translate_memWf hs) (by assumption)
  · exact ite_wf (FstWf.get (translate_memWf hs) (by assumption)) (performPrf_memWf (FstWf.get (translate_memWf hs) (by assumption)))
theorem execPrf_memWf {o} {l2} {s : State} (h : s.MemWf) : OutWf (execPrf o l2 s) := by
  unfold execPrf
  exact runInstr_memWf h (fun _ h0 => ite_wf h0 (State.modWarp_memWf (foldl_wf (fun _ _ h1 => prfLane_memWf h0 h1) _ h0)))
theorem execAtom_memWf {o} {aop} {d} {s : State} (h : s.MemWf) : OutWf (execAtom o aop d s) := by
  unfold execAtom
  exact runInstr_memWf h (fun _ h0 => runAccess_memWf (Ctx.reserve_memWf h0))
theorem execRed_memWf {o} {aop} {s : State} (h : s.MemWf) : OutWf (execRed o aop s) := by
  unfold execRed
  exact runInstr_memWf h (fun _ h0 => runAccess_memWf h0)
theorem execCas_memWf {o} {d} {s : State} (h : s.MemWf) : OutWf (execCas o d s) := by
  unfold execCas
  exact runInstr_memWf h (fun _ h0 => runAccess_memWf h0)
theorem execCas2_memWf {o} {d} {s : State} (h : s.MemWf) : OutWf (execCas2 o d s) := by
  unfold execCas2
  exact runInstr_memWf h (fun _ h0 => runAccess_memWf h0)
theorem execAtomr_memWf {o} {aop} {d} {s : State} (h : s.MemWf) : OutWf (execAtomr o aop d s) := by
  unfold execAtomr
  exact runInstr_memWf h (fun _ h0 => runAccess_memWf (Ctx.reserve_memWf h0))
theorem execFence_memWf {c} {x1} {ord} {st} {path} {s : State} (h : s.MemWf) : OutWf (execFence c x1 ord st path s) := by
  unfold execFence
  exact runInstr_memWf h (fun _ h0 => ite_wf h0 (ite_wf (P := ResWf) trivial (ite_wf (settle_memWf (State.modWarp_memWf h0)) (resolveFences_memWf
      (State.modWarp_memWf h0)))))
theorem execLease_memWf {c} {n} {s : State} (h : s.MemWf) : OutWf (execLease c n s) := by
  unfold execLease
  exact runInstr_memWf h (fun _ h0 => ite_wf h0 (State.modWarp_memWf h0))
theorem execCwb_memWf {o} {flush} {s : State} (h : s.MemWf) : OutWf (execCwb o flush s) := by
  unfold execCwb
  exact runInstr_memWf h (fun _ h0 => runAccess_memWf h0)
theorem execTkwait_memWf {c} {s : State} (h : s.MemWf) : OutWf (execTkwait c s) := by
  unfold execTkwait
  exact runInstr_memWf h (fun _ h0 => ite_wf h0 (settle_memWf (State.modWarp_memWf h0)))
theorem execTkstat_memWf {c} {d} {s : State} (h : s.MemWf) : OutWf (execTkstat c d s) := by
  unfold execTkstat
  exact runInstr_memWf h (fun _ h0 => ite_wf h0 (writeLanes_memWf h0))

/-! ### The sync unit -/

theorem runOnce_memWf {s : State} {c} {opds} {body} (hs : s.MemWf) (hbody : ∀ y0, CtxWf y0 → ResWf (body y0)) : OutWf (runOnce s c opds body) := by
  unfold runOnce
  exact runInstr_memWf hs (fun _ h0 => ite_wf h0 (hbody _ h0))
theorem Ctx.ill_memWf {k : Ctx} (h : CtxWf k) : ResWf (Ctx.ill k) := by
  unfold Ctx.ill
  exact trivial
theorem barPut_memWf {s : State} {ci} {lv} {n} {b} (h : s.MemWf) : (barPut s ci lv n b).MemWf := by
  unfold barPut
  split
  · exact State.modCore_memWf h
  · exact State.modDie_memWf h
  · exact State.modDie_memWf h
  · exact memWf_same rfl rfl h
  · exact memWf_same rfl rfl h
  · exact h
theorem wakeCore_memWf {s : State} {ci} {lv} {n} {b} (h : s.MemWf) : (wakeCore s ci lv n b).MemWf := by
  unfold wakeCore
  refine foldl_wf (fun _ _ h0 => ?_) _ h
  split
  · split
    · exact ite_wf (State.modCore_memWf (State.modWarp_memWf h0)) h0
    · exact h0
  · exact h0
theorem wakeBar_memWf {s : State} {ci} {lv} {n} (h : s.MemWf) : (wakeBar s ci lv n).MemWf := by
  unfold wakeBar
  exact foldl_wf (fun _ _ h0 => ite_wf h0 (wakeCore_memWf h0)) _ h
theorem podTell_memWf {s : State} (h : s.MemWf) : (podTell s).MemWf := by
  unfold podTell
  exact ite_wf h (foldl_wf (fun _ _ h0 => originate_memWf h0) _ h)
theorem podArrive_memWf {s : State} {n} {count} {rel} (h : s.MemWf) : (podArrive s n count rel).MemWf := by
  unfold podArrive
  exact ite_wf (wakeBar_memWf (barPut_memWf h)) (podTell_memWf (wakeBar_memWf (barPut_memWf h)))
theorem settleBar_memWf {s : State} {ci} {slot} (h : s.MemWf) : (settleBar s ci slot).MemWf := by
  unfold settleBar
  split
  · exact h
  · split
    · exact wakeCore_memWf h
    · exact h
theorem arrivalRet_memWf {s : State} {a} {phase} (h : s.MemWf) : (arrivalRet s a phase).MemWf := by
  unfold arrivalRet
  split
  · exact State.modWarp_memWf h
  · exact h
theorem execBarrierArrival_memWf {index} {s : State} (h : s.MemWf) : OutWf (execBarrierArrival index s) := by
  unfold execBarrierArrival
  split
  · exact h
  · exact ite_wf h (ite_wf (State.modCore_memWf (memWf_same rfl rfl h)) (ite_wf (arrivalRet_memWf (originate_memWf (memWf_same rfl rfl h)))
        (ite_wf (podArrive_memWf (arrivalRet_memWf (memWf_same rfl rfl h))) (wakeBar_memWf (arrivalRet_memWf (barPut_memWf
        (memWf_same rfl rfl h)))))))
theorem execSyncWrite_memWf {core} {s : State} (h : s.MemWf) : OutWf (execSyncWrite core s) := by
  unfold execSyncWrite
  split
  · exact h
  · exact State.modCore_memWf h
theorem closeRel_memWf {k : Ctx} {rel} (h : CtxWf k) : (closeRel k rel).MemWf := by
  unfold closeRel
  exact ite_wf (closeBatch_memWf h) h
theorem postSync_memWf {k : Ctx} {sc} {n} {op} (h : CtxWf k) : ResWf (postSync k sc n op) := by
  unfold postSync
  exact State.modWarp_memWf (State.modCore_memWf (closeRel_memWf h))
theorem execSemset_memWf {c} {sc} {a} {n} {s : State} (h : s.MemWf) : OutWf (execSemset c sc a n s) := by
  unfold execSemset
  exact runOnce_memWf h (fun _ h0 => ite_wf (Ctx.ill_memWf h0) (postSync_memWf h0))
theorem execSeminc_memWf {c} {sc} {a} {n} {s : State} (h : s.MemWf) : OutWf (execSeminc c sc a n s) := by
  unfold execSeminc
  exact runOnce_memWf h (fun _ h0 => ite_wf (Ctx.ill_memWf h0) (postSync_memWf h0))
theorem execSemwait_memWf {c} {dec} {d} {a} {n} {s : State} (h : s.MemWf) : OutWf (execSemwait c dec d a n s) := by
  unfold execSemwait
  exact runOnce_memWf h (fun _ h0 => ite_wf (Ctx.ill_memWf h0) (State.modCore_memWf (State.modWarp_memWf h0)))
theorem execBarinit_memWf {c} {lv} {rmt} {a} {n} {s : State} (h : s.MemWf) : OutWf (execBarinit c lv rmt a n s) := by
  unfold execBarinit
  exact runOnce_memWf h (fun _ h0 => ite_wf (Ctx.ill_memWf h0) (barPut_memWf h0))
theorem execBararr_memWf {c} {lv} {d} {n} {count} {s : State} (h : s.MemWf) : OutWf (execBararr c lv d n count s) := by
  unfold execBararr
  exact runOnce_memWf h (fun _ h0 => ite_wf (Ctx.ill_memWf h0) (State.modWarp_memWf (memWf_same rfl rfl (closeRel_memWf h0))))
theorem execBarwait_memWf {c} {lv} {a} {n} {s : State} (h : s.MemWf) : OutWf (execBarwait c lv a n s) := by
  unfold execBarwait
  exact runOnce_memWf h (fun _ h0 => ite_wf (Ctx.ill_memWf h0) (wakeCore_memWf (State.modWarp_memWf h0)))
theorem execRbararr_memWf {c} {sc} {a} {n} {count} {s : State} (h : s.MemWf) : OutWf (execRbararr c sc a n count s) := by
  unfold execRbararr
  exact runOnce_memWf h (fun _ h0 => ite_wf (Ctx.ill_memWf h0) (State.modWarp_memWf (memWf_same rfl rfl (closeRel_memWf h0))))
theorem execCmset_memWf {c} {sc} {a} {m} {g} {s : State} (h : s.MemWf) : OutWf (execCmset c sc a m g s) := by
  unfold execCmset
  exact runOnce_memWf h (fun _ h0 => ite_wf (Ctx.ill_memWf h0) (postSync_memWf h0))
theorem execCmclr_memWf {c} {sc} {a} {m} {g} {s : State} (h : s.MemWf) : OutWf (execCmclr c sc a m g s) := by
  unfold execCmclr
  exact runOnce_memWf h (fun _ h0 => ite_wf (Ctx.ill_memWf h0) (postSync_memWf h0))
theorem execCmwait_memWf {c} {any} {a} {m} {g} {s : State} (h : s.MemWf) : OutWf (execCmwait c any a m g s) := by
  unfold execCmwait
  exact runOnce_memWf h (fun _ h0 => ite_wf (Ctx.ill_memWf h0) (State.modCore_memWf (State.modWarp_memWf h0)))

/-! ### Copy channels and windows -/

theorem State.modWg_memWf {s : State} {ci} {id} {f} (hs : s.MemWf) : (State.modWg s ci id f).MemWf := by
  unfold State.modWg
  exact State.modCore_memWf hs
theorem State.modChan_memWf {s : State} {ci} {n} {f} (hs : s.MemWf) : (State.modChan s ci n f).MemWf := by
  unfold State.modChan
  exact State.modCore_memWf hs
theorem recEnd_memWf {s : State} {ci} {n} {st} (h : s.MemWf) : (recEnd s ci n st).MemWf := by
  unfold recEnd
  exact State.modChan_memWf (dropGot_memWf (endKept_memWf h))
theorem endPosts_memWf {s : State} {ci} {l} (h : s.MemWf) : (endPosts s ci l).MemWf := by
  unfold endPosts
  exact foldl_wf (fun _ _ h0 => State.modWarp_memWf h0) _ h
theorem endChain_memWf {s : State} {ci} {n} {st} (h : s.MemWf) : (endChain s ci n st).MemWf := by
  unfold endChain
  exact endPosts_memWf (State.modChan_memWf (recEnd_memWf h))
theorem postCopy_memWf {k : Ctx} {c} {n} {head} {t} (h : CtxWf k) : ResWf (postCopy k c n head t) := by
  unfold postCopy
  refine ite_wf ?_ ?_
  · exact trivial
  · refine ite_wf (State.modChan_memWf h) ?_
    split
    · exact h
    · exact State.modChan_memWf (State.modWarp_memWf h)
theorem runCmd_memWf {s : State} {c} {opds} {body} (hs : s.MemWf) (hbody : ∀ y0, CtxWf y0 → ResWf (body y0)) : OutWf (runCmd s c opds body) := by
  unfold runCmd
  exact runInstr_memWf hs (fun _ h0 => ite_wf h0 (hbody _ h0))
theorem execCpchain_memWf {c} {ch} {a} {s : State} (h : s.MemWf) : OutWf (execCpchain c ch a s) := by
  unfold execCpchain
  exact runCmd_memWf h (fun _ h0 => ite_wf (Ctx.ill_memWf h0) (ite_wf (P := ResWf) trivial (ite_wf (P := ResWf) trivial (postCopy_memWf h0))))
theorem execTcopy_memWf {c} {ch} {a} {s : State} (h : s.MemWf) : OutWf (execTcopy c ch a s) := by
  unfold execTcopy
  refine runCmd_memWf h (fun _ h0 => ?_)
  split
  · exact ite_wf (Ctx.ill_memWf h0) (postCopy_memWf h0)
  · exact h0
theorem execCpstat_memWf {c} {ch} {clr} {d} {s : State} (h : s.MemWf) : OutWf (execCpstat c ch clr d s) := by
  unfold execCpstat
  exact runOnce_memWf h (fun _ h0 => ite_wf (Ctx.ill_memWf h0) (ite_wf (State.modChan_memWf (writeLanes_memWf h0)) (writeLanes_memWf h0)))
theorem cpAbort_memWf {s : State} {ci} {n} (h : s.MemWf) : (cpAbort s ci n).MemWf := by
  unfold cpAbort
  dsimp only
  split
  · exact State.modChan_memWf h
  · exact endPosts_memWf (State.modChan_memWf (recEnd_memWf h))
theorem execCpabort_memWf {c} {ch} {s : State} (h : s.MemWf) : OutWf (execCpabort c ch s) := by
  unfold execCpabort
  exact runOnce_memWf h (fun _ h0 => ite_wf (Ctx.ill_memWf h0) (cpAbort_memWf h0))
theorem execRwopen_memWf {c} {slot} {d} {f} {n} {s : State} (h : s.MemWf) : OutWf (execRwopen c slot d f n s) := by
  unfold execRwopen
  exact runInstr_memWf h (fun _ h0 => ite_wf (Ctx.ill_memWf h0) (ite_wf h0 (ite_wf (Ctx.ill_memWf h0) (writeLanes_memWf (State.modWarp_memWf h0)))))
theorem execRwclose_memWf {c} {slot} {s : State} (h : s.MemWf) : OutWf (execRwclose c slot s) := by
  unfold execRwclose
  exact runOnce_memWf h (fun _ h0 => ite_wf (Ctx.ill_memWf h0) (State.modWarp_memWf h0))
theorem partXlats_memWf {s : State} {e} {x2} (h : s.MemWf) : FstWf (partXlats s e x2) := by
  unfold partXlats
  split
  · exact h
  · dsimp only
    split
    · exact partXlats_memWf (engXlat_memWf h)
    · exact partXlats_memWf (engXlat_memWf h)
theorem beginRec_memWf {s : State} {ci} {n} {x3} {r} {st} (h : s.MemWf) : (beginRec s ci n x3 r st).MemWf := by
  unfold beginRec
  exact ite_wf (State.modChan_memWf (ite_wf (dropKept_memWf h) h)) (ite_wf (State.modChan_memWf (ite_wf (dropKept_memWf h) h)) (ite_wf
      (State.modChan_memWf (ite_wf (dropKept_memWf h) h)) (ite_wf (State.modChan_memWf (ite_wf (dropKept_memWf (foldl_wf (fun _ _ h0 =>
      engMiss_memWf h0) _ (partXlats_memWf h))) (foldl_wf (fun _ _ h0 => engMiss_memWf h0) _ (partXlats_memWf h)))) (State.modChan_memWf (ite_wf
      (dropKept_memWf (partXlats_memWf h)) (partXlats_memWf h))))))
theorem execCopyRecordRead_memWf {core} {ch} {s : State} (h : s.MemWf) : OutWf (execCopyRecordRead core ch s) := by
  unfold execCopyRecordRead
  refine ite_wf h ?_
  split
  · exact ite_wf h (beginRec_memWf h)
  · split
    · exact h
    · split
      · exact beginRec_memWf h
      · split
        · dsimp only
          split
          · exact ERWf.get_wait (engRead_memWf (State.modChan_memWf h)) (by assumption)
          · exact endChain_memWf (ERWf.get_fail (engRead_memWf (State.modChan_memWf h)) (by assumption))
          · exact beginRec_memWf (ERWf.get_ok (engRead_memWf (State.modChan_memWf h)) (by assumption))
        · dsimp only
          split
          · exact ERWf.get_wait (engRead_memWf (State.modChan_memWf h)) (by assumption)
          · exact endChain_memWf (ERWf.get_fail (engRead_memWf (State.modChan_memWf h)) (by assumption))
          · exact beginRec_memWf (ERWf.get_ok (engRead_memWf (State.modChan_memWf h)) (by assumption))
theorem closeChan_memWf {s : State} {ci} {ch} {n} (h : s.MemWf) : (closeChan s ci ch n).MemWf := by
  unfold closeChan
  split
  · exact h
  · exact foldl_wf (fun _ _ h1 => ite_wf h1 (State.modChan_memWf (pushBatch_memWf h1))) _ h
theorem holdPiece_memWf {s : State} {e} {n} {u} {p} {bs} (h : s.MemWf) : (holdPiece s e n u p bs).MemWf := by
  unfold holdPiece
  exact closeChan_memWf (State.modChan_memWf h)
theorem rowWrite_memWf {s : State} {e} {n} {u} {t} {r} {x6} {x7} (h : s.MemWf) : ERWf (rowWrite s e n u t r x6 x7) := by
  unfold rowWrite
  split
  · exact h
  · exact ER.bind_wf (ite_wf (holdPiece_memWf h) (ite_wf (writePiece_memWf h) (foldl_wf (fun _ _ h1 => ER.bind_wf h1 (fun _ _ h2 =>
        writePiece_memWf h2)) _ h))) (fun _ _ h1 => rowWrite_memWf h1)
theorem rowParts_memWf {s : State} {e} {r} {row} (h : s.MemWf) : ERWf (rowParts s e r row) := by
  unfold rowParts
  dsimp only
  split
  · exact ERWf.get_fail (engParts_memWf h) (by assumption)
  · split
    · exact ERWf.get_fail (engParts_memWf (ERWf.get_wait (engParts_memWf h) (by assumption))) (by assumption)
    · exact ERWf.get_ok (engParts_memWf (ERWf.get_wait (engParts_memWf h) (by assumption))) (by assumption)
    · exact ERWf.get_wait (engParts_memWf (ERWf.get_wait (engParts_memWf h) (by assumption))) (by assumption)
  · exact ER.bind_wf (engParts_memWf (ERWf.get_ok (engParts_memWf h) (by assumption))) (fun _ _ h1 => h1)
theorem execCopyRow_memWf {core} {ch} {row} {s : State} (h : s.MemWf) : OutWf (execCopyRow core ch row s) := by
  unfold execCopyRow
  split
  · exact h
  · refine ite_wf h ?_
    split
    · exact State.modChan_memWf (dropKept_memWf (ERWf.get_fail (rowParts_memWf h) (by assumption)))
    · exact ERWf.get_wait (rowParts_memWf h) (by assumption)
    · refine ite_wf (ite_wf (closeChan_memWf (ERWf.get_ok (rowParts_memWf h) (by assumption))) (ERWf.get_ok (rowParts_memWf h) (by assumption))) ?_
      split
      · exact keepWaits_memWf (ite_wf (closeChan_memWf (ERWf.get_ok (rowParts_memWf h) (by assumption))) (ERWf.get_ok (rowParts_memWf h)
            (by assumption))) (ERWf.get_wait (ER.fin_memWf (ER.bind_wf (readPieces_memWf (ite_wf (closeChan_memWf (ERWf.get_ok (rowParts_memWf h)
            (by assumption))) (ERWf.get_ok (rowParts_memWf h) (by assumption)))) (fun _ _ h5 => rowWrite_memWf h5))) (by assumption))
      · exact State.modChan_memWf (ERWf.get_fail (ER.fin_memWf (ER.bind_wf (readPieces_memWf (ite_wf (closeChan_memWf (ERWf.get_ok
            (rowParts_memWf h) (by assumption))) (ERWf.get_ok (rowParts_memWf h) (by assumption)))) (fun _ _ h5 => rowWrite_memWf h5)))
            (by assumption))
      · exact ite_wf (closeChan_memWf (State.modChan_memWf (ERWf.get_ok (ER.fin_memWf (ER.bind_wf (readPieces_memWf (ite_wf (closeChan_memWf
            (ERWf.get_ok (rowParts_memWf h) (by assumption))) (ERWf.get_ok (rowParts_memWf h) (by assumption)))) (fun _ _ h5 =>
            rowWrite_memWf h5))) (by assumption)))) (State.modChan_memWf (ERWf.get_ok (ER.fin_memWf (ER.bind_wf (readPieces_memWf (ite_wf
            (closeChan_memWf (ERWf.get_ok (rowParts_memWf h) (by assumption))) (ERWf.get_ok (rowParts_memWf h) (by assumption)))) (fun _ _ h5 =>
            rowWrite_memWf h5))) (by assumption)))
theorem execChunkSignal_memWf {core} {ch} {chunk} {s : State} (h : s.MemWf) : OutWf (execChunkSignal core ch chunk s) := by
  unfold execChunkSignal
  split
  · exact h
  · exact ite_wf h (State.modChan_memWf (foldl_wf (fun _ _ h1 => ite_wf (State.modCore_memWf h1) h1) _ h))
/-- The write of a record's STATUS, where it has one. -/
def recStatusWrite (s : State) (core ch : Nat) (r : CpRec) (e : Eng) (id : Nat) (st : Byte) : ER Unit :=
  match r.at_ with
  | none => .ok s ()
  | some a =>
    if engPending (s.core core) e id then .wait s
    else ER.fin (e := e) (id := id) <|
      (engParts s e id a needW (pieceCheck · e needW ·) (lineParts (a + 44#64) 4)).bind fun s ps =>
        match twinOf s e.pasid core with
        | some t =>
          if ps.any (pieceOutside s t) then
            (rowWrite s e ch 4 (some t) { r with rec_ := 0#512 } ps ((leBytes 4 (recStatus r.rec_ st)).map fun b => (b, false))).bind fun s _ =>
              .wait ((closeChan s core ch 1).modChan core ch fun c => { c with cur := some { r with at_ := none, status := st } })
          else writePieces s e 4 ps ((leBytes 4 (recStatus r.rec_ st)).map fun b => (b, false))
        | none => writePieces s e 4 ps ((leBytes 4 (recStatus r.rec_ st)).map fun b => (b, false))
theorem recStatusWrite_memWf {s : State} {core ch : Nat} {r : CpRec} {e : Eng} {id : Nat} {st : Byte} (h : s.MemWf) :
    ERWf (recStatusWrite s core ch r e id st) := by
  unfold recStatusWrite
  split
  · exact h
  · refine ite_wf (P := ERWf) h (ER.fin_memWf (ER.bind_wf (engParts_memWf h) fun u ps hu => ?_))
    split
    · exact ite_wf (P := ERWf) (ER.bind_wf (rowWrite_memWf hu) fun _ _ hs => State.modChan_memWf (closeChan_memWf hs)) (writePieces_memWf hu)
    · exact writePieces_memWf hu
/-- A record that has ended with its status leaves its channel, and the chain goes on or ends. -/
def recDone (core ch : Nat) (r : CpRec) (s : State) (st : Byte) : State :=
  if st != stOk then endChain s core ch st
  else
    let s := (recEnd s core ch stOk).modChan core ch fun c => { c with done := c.done + 1, next := recNext r.rec_ }
    if recNext r.rec_ = 0#64 then endChain s core ch stOk else s
theorem recDone_memWf {s : State} {core ch : Nat} {r : CpRec} {st : Byte} (h : s.MemWf) : (recDone core ch r s st).MemWf :=
  have hn := State.modChan_memWf (recEnd_memWf h)
  ite_wf (P := State.MemWf) (endChain_memWf h) (ite_wf (P := State.MemWf) (endChain_memWf hn) hn)
/-- What follows that write. -/
def recFollow (core ch : Nat) (r : CpRec) (st : Byte) : ER Unit → Out
  | .wait s => .next s
  | .fail s f => .next (recDone core ch r s (if st = stOk then f else st))
  | .ok s _ =>
    let s := if st = stOk && recSemen r.rec_ then (r.sigs core).foldl (fun s g => s.modCore g fun k =>
        k.semPut (recSem r.rec_) (satAdd ((k.sems[recSem r.rec_]?).getD 0#32) 1#32)) s else s
    .next (recDone core ch r s st)
theorem recFollow_memWf {core ch : Nat} {r : CpRec} {st : Byte} {x : ER Unit} (h : ERWf x) : OutWf (recFollow core ch r st x) := by
  cases x with
  | wait s => exact h
  | fail s f => exact recDone_memWf h
  | ok s u => exact recDone_memWf (ite_wf (P := State.MemWf) (foldl_wf (P := State.MemWf) (fun _ _ h0 => State.modCore_memWf h0) _ h) h)
theorem execRecordCompletion_follow {core ch : Nat} {s : State} {r : CpRec} (hr : (s.chan core ch).cur = some r) :
    execRecordCompletion core ch s =
      if r.begun && !(s.chan core ch).tw.held.isEmpty && (r.status != stOk || r.rows.length == recRows r.rec_) then
        .next (closeChan s core ch 1)
      else if (s.core core).holds || !r.begun || (r.status == stOk && !recFull r) || chunkDue r || chanHeldBack s core ch then .next s
      else
        let id := cpStId (s.chan core ch)
        let e := { chanEng s core ch with id := id, pc := r.at_.getD 0#64 }
        let st := finalStatus s core e.pasid r
        recFollow core ch r st (recStatusWrite s core ch r e id st) := by
  unfold execRecordCompletion
  rw [hr]
  dsimp only
  congr 2
theorem execRecordCompletion_memWf {core} {ch} {s : State} (h : s.MemWf) : OutWf (execRecordCompletion core ch s) := by
  cases hr : (s.chan core ch).cur with
  | none =>
    unfold execRecordCompletion
    rw [hr]
    exact h
  | some r =>
    rw [execRecordCompletion_follow hr]
    exact ite_wf (P := OutWf) (closeChan_memWf h) (ite_wf (P := OutWf) h (recFollow_memWf (recStatusWrite_memWf h)))
theorem endAway_memWf {s : State} {core} {a} {bad} {st} (h : s.MemWf) : (endAway s core a bad st).MemWf := by
  unfold endAway
  split
  · exact finishOut_memWf h
  · exact h
theorem landMark_memWf {s : State} {m} {line} (h : s.MemWf) : (landMark s m line).MemWf := by
  unfold landMark
  exact ite_wf (noteStore_memWf h) (State.noteOuter_memWf h)
theorem landMsg_memWf {s : State} {g} {m} {ok} (hs : s.MemWf) : (landMsg s g m ok).MemWf := by
  unfold landMsg
  exact State.modCore_memWf (foldl_wf (fun _ _ h0 => State.modCore_memWf (landMark_memWf h0)) _ hs)
theorem execInboundWindowWrite_memWf {core} {s : State} (h : s.MemWf) : OutWf (execInboundWindowWrite core s) := by
  unfold execInboundWindowWrite
  split
  · exact h
  · exact ite_wf (State.modCore_memWf (State.modCore_memWf h)) (endAway_memWf (landMsg_memWf (State.modCore_memWf h)))

/-! ### The matrix engine -/

theorem runWg_memWf {s : State} {c} {opds} {body} (hs : s.MemWf) (hbody : ∀ y0 y1, CtxWf y0 → ResWf (body y0 y1)) : OutWf (runWg s c opds body) := by
  unfold runWg
  refine runOnce_memWf hs (fun _ h0 => ?_)
  split
  · exact hbody _ _ h0
  · exact Ctx.ill_memWf h0
theorem execObres_memWf {c} {res} {d} {a} {s : State} (h : s.MemWf) : OutWf (execObres c res d a s) := by
  unfold execObres
  refine runWg_memWf h (fun _ _ h0 => ?_)
  split
  · exact Ctx.ill_memWf h0
  · exact ite_wf (Ctx.ill_memWf h0) (writeLanes_memWf (State.modWg_memWf h0))
theorem execObfree_memWf {c} {res} {s : State} (h : s.MemWf) : OutWf (execObfree c res s) := by
  unfold execObfree
  exact runWg_memWf h (fun _ _ h0 => ite_wf (Ctx.ill_memWf h0) (ite_wf (State.modWarp_memWf h0) (State.modWg_memWf h0)))
theorem execObset_memWf {c} {res} {a} {s : State} (h : s.MemWf) : OutWf (execObset c res a s) := by
  unfold execObset
  refine runWg_memWf h (fun _ _ h0 => ?_)
  split
  · exact ite_wf (Ctx.ill_memWf h0) (State.modWg_memWf h0)
  · exact Ctx.ill_memWf h0
theorem execThand_memWf {c} {x1} {res} {col} {unbind} {a} {b} {s : State} (h : s.MemWf) : OutWf (execThand c x1 res col unbind a b s) := by
  unfold execThand
  refine runWg_memWf h (fun _ _ h0 => ?_)
  refine ite_wf (State.modWg_memWf h0) ?_
  split
  · exact Ctx.ill_memWf h0
  · exact ite_wf (Ctx.ill_memWf h0) (State.modWg_memWf h0)
theorem postMx_memWf {s : State} {c} {o} {kind} {opds} {rm} {sat} {seed} {chk} (hs : s.MemWf) : OutWf (postMx s c o kind opds rm sat seed chk) := by
  unfold postMx
  refine runCmd_memWf hs (fun _ h0 => ?_)
  split
  · exact Ctx.ill_memWf h0
  · refine ite_wf (Ctx.ill_memWf h0) ?_
    split
    · exact Ctx.ill_memWf h0
    · exact trivial
    · refine ite_wf ?_ ?_
      · exact trivial
      · split
        · exact h0
        · exact State.modCore_memWf (State.modWarp_memWf h0)
theorem execMma_memWf {o} {s : State} (h : s.MemWf) : OutWf (execMma o s) := by
  unfold execMma
  exact postMx_memWf h
theorem execMmas_memWf {o} {s : State} (h : s.MemWf) : OutWf (execMmas o s) := by
  unfold execMmas
  exact postMx_memWf h
theorem execAccz_memWf {o} {s : State} (h : s.MemWf) : OutWf (execAccz o s) := by
  unfold execAccz
  exact postMx_memWf h
theorem execAccld_memWf {o} {s : State} (h : s.MemWf) : OutWf (execAccld o s) := by
  unfold execAccld
  exact postMx_memWf h
theorem execAccdrain_memWf {o} {rm} {sat} {seed} {s : State} (h : s.MemWf) : OutWf (execAccdrain o rm sat seed s) := by
  unfold execAccdrain
  exact postMx_memWf h
theorem execAccmx_memWf {o} {rm} {seed} {s : State} (h : s.MemWf) : OutWf (execAccmx o rm seed s) := by
  unfold execAccmx
  exact postMx_memWf h
theorem execMxstat_memWf {c} {sel} {clr} {d} {s : State} (h : s.MemWf) : OutWf (execMxstat c sel clr d s) := by
  unfold execMxstat
  exact runWg_memWf h (fun _ _ h0 => State.modWg_memWf (writeLanes_memWf h0))
theorem execGovernorRelease_memWf {core} {s : State} (h : s.MemWf) : OutWf (execGovernorRelease core s) := by
  unfold execGovernorRelease
  exact ite_wf (State.modCore_memWf h) (State.modCore_memWf h)
theorem execMatrixEntryStart_memWf {core} {drain} {s : State} (h : s.MemWf) : OutWf (execMatrixEntryStart core drain s) := by
  unfold execMatrixEntryStart
  refine ite_wf h ?_
  dsimp only
  split
  · exact h
  · exact State.modCore_memWf h
theorem execMatrixEntryComplete_memWf {core} {drain} {s : State} (h : s.MemWf) : OutWf (execMatrixEntryComplete core drain s) := by
  unfold execMatrixEntryComplete
  dsimp only
  split
  · exact h
  · split
    · exact State.modCore_memWf h
    · refine ite_wf (P := OutWf) h ?_
      show State.MemWf _
      split
      · exact memWf_same (s := s) rfl rfl h
      · exact memWf_same (s := s) rfl rfl h

/-! ### The access slice -/

theorem sliceHalt_memWf {s : State} (h : s.MemWf) : SResWf (sliceHalt s) := by
  unfold sliceHalt
  exact h
theorem runSlice_memWf {s : State} {body} (hs : s.MemWf) (hbody : ∀ y0 y1, SResWf (body y0 y1)) : OutWf (runSlice s body) := by
  unfold runSlice
  split
  · exact trivial
  · split
    · exact State.modWg_memWf (SResWf.get_next (hbody _ _) (by assumption))
    · exact State.modWg_memWf (SResWf.get_goto (hbody _ _) (by assumption))
    · exact State.modWg_memWf (dropGot_memWf (endKept_memWf (SResWf.get_stop (hbody _ _) (by assumption))))
    · exact SResWf.get_hold (hbody _ _) (by assumption)
theorem execAmov_memWf {d} {a} {s : State} (h : s.MemWf) : OutWf (execAmov d a s) := by
  unfold execAmov
  exact runSlice_memWf h (fun _ _ => State.modWg_memWf h)
theorem execAadd_memWf {d} {a} {b} {s : State} (h : s.MemWf) : OutWf (execAadd d a b s) := by
  unfold execAadd
  exact runSlice_memWf h (fun _ _ => State.modWg_memWf h)
theorem execAloop_memWf {a} {off} {s : State} (h : s.MemWf) : OutWf (execAloop a off s) := by
  unfold execAloop
  exact runSlice_memWf h (fun _ _ => ite_wf (State.modWg_memWf h) (State.modWg_memWf h))
theorem sliceMiss_memWf {s : State} {e} {kind} {ls} (h : s.MemWf) : (sliceMiss s e kind ls).MemWf := by
  unfold sliceMiss
  exact foldl_wf (fun _ _ h0 => engMissOf_memWf h0) _ h
theorem LaneRun.s_memWf {self : LaneRun} (h : RunWf self) : (LaneRun.s self).MemWf := by
  unfold LaneRun.s
  exact h
theorem sliceLane_memWf {e} {kind} {body} {x : LaneRun} {l} (hbody : ∀ y0 y1 y2 y3, y0.MemWf → ERWf (body y0 y1 y2 y3)) (hx : RunWf x) :
    RunWf (sliceLane e kind body x l) := by
  unfold sliceLane
  refine ite_wf hx ?_
  refine ite_wf hx ?_
  refine ite_wf hx ?_
  split
  · exact FstWf.get (engXlat_memWf hx) (by assumption)
  · refine ite_wf (FstWf.get (engXlat_memWf hx) (by assumption)) ?_
    split
    · exact ERWf.get_ok (ER.fin_memWf (hbody _ _ _ _ (FstWf.get (engXlat_memWf hx) (by assumption)))) (by assumption)
    · exact ERWf.get_wait (ER.fin_memWf (hbody _ _ _ _ (FstWf.get (engXlat_memWf hx) (by assumption)))) (by assumption)
    · exact ERWf.get_fail (ER.fin_memWf (hbody _ _ _ _ (FstWf.get (engXlat_memWf hx) (by assumption)))) (by assumption)
theorem sliceLanes_memWf {s : State} {e} {kind} {body} {ls} (hs : s.MemWf) (hbody : ∀ y0 y1 y2 y3, y0.MemWf → ERWf (body y0 y1 y2 y3)) :
    RunWf (sliceLanes s e kind body ls) := by
  unfold sliceLanes
  exact ite_wf (foldl_wf (fun _ _ h0 => sliceLane_memWf (fun _ _ _ _ h1 => hbody _ _ _ _ h1) h0) _ hs) (sliceMiss_memWf (foldl_wf (fun _ _ h0 =>
      sliceLane_memWf (fun _ _ _ _ h1 => hbody _ _ _ _ h1) h0) _ hs))
theorem closeSlice_memWf {s : State} {ci} {id} (h : s.MemWf) : (closeSlice s ci id).MemWf := by
  unfold closeSlice
  split
  · exact h
  · split
    · exact h
    · exact ite_wf h (State.modWg_memWf (pushBatch_memWf h))
theorem sliceRead_memWf {s : State} {e} {id} {p} (h : s.MemWf) : ERWf (sliceRead s e id p) := by
  unfold sliceRead
  exact ite_wf (readPiece_memWf h) (ite_wf (readPiece_memWf (closeSlice_memWf h)) (closeSlice_memWf h))
theorem sliceWrite_memWf {s : State} {e} {id} {p} {v} {q} (h : s.MemWf) : ERWf (sliceWrite s e id p v q) := by
  unfold sliceWrite
  exact ite_wf (writePiece_memWf h) (ite_wf h (ite_wf (closeSlice_memWf (State.modWg_memWf h)) (State.modWg_memWf h)))
theorem ldLane_memWf {id} {s : State} {e} {p} {l} (h : s.MemWf) : ERWf (ldLane id s e p l) := by
  unfold ldLane
  exact ER.bind_wf (sliceRead_memWf h) (fun _ _ h0 => State.modWg_memWf h0)
theorem execAldq_memWf {q} {a} {b} {off} {s : State} (h : s.MemWf) : OutWf (execAldq q a b off s) := by
  unfold execAldq
  exact runSlice_memWf h (fun _ _ => ite_wf (sliceHalt_memWf h) (ite_wf h (ite_wf (sliceHalt_memWf (sliceLanes_memWf (State.modWg_memWf h)
      (fun _ _ _ _ h0 => ldLane_memWf h0))) (ite_wf (sliceLanes_memWf (State.modWg_memWf h) (fun _ _ _ _ h0 => ldLane_memWf h0))
      (State.modCore_memWf (sliceLanes_memWf (State.modWg_memWf h) (fun _ _ _ _ h0 => ldLane_memWf h0)))))))
theorem sliceEntry_memWf {s : State} {ci} {g} {q} (h : s.MemWf) : AllWf FstWf (sliceEntry s ci g q) := by
  unfold sliceEntry
  split
  · exact h
  · exact ite_wf (P := AllWf FstWf) trivial (State.modWg_memWf h)
  · exact trivial
theorem stLane_memWf {id} {ent} {s : State} {e} {p} {l} (h : s.MemWf) : ERWf (stLane id ent s e p l) := by
  unfold stLane
  exact ER.bind_wf (sliceWrite_memWf h) (fun _ _ h0 => State.modWg_memWf h0)
theorem execAstq_memWf {q} {a} {b} {off} {s : State} (h : s.MemWf) : OutWf (execAstq q a b off s) := by
  unfold execAstq
  refine runSlice_memWf h (fun _ _ => ?_)
  refine ite_wf (sliceHalt_memWf h) ?_
  split
  · exact h
  · exact ite_wf (sliceHalt_memWf (sliceLanes_memWf (AllWf.get_fst (sliceEntry_memWf h) (by assumption)) (fun _ _ _ _ h5 => stLane_memWf h5)))
        (ite_wf (sliceLanes_memWf (AllWf.get_fst (sliceEntry_memWf h) (by assumption)) (fun _ _ _ _ h5 => stLane_memWf h5)) (State.modWg_memWf
        (sliceLanes_memWf (AllWf.get_fst (sliceEntry_memWf h) (by assumption)) (fun _ _ _ _ h5 => stLane_memWf h5))))
theorem execAend_memWf {s : State} (h : s.MemWf) : OutWf (execAend s) := by
  unfold execAend
  exact runSlice_memWf h (fun _ _ => closeSlice_memWf h)

end Machine

end Sys2Proof
end


section
/-! PROOFS. Every function of the model keeps the memories canonical: nibs, pages, tickets and the places of workgroups. -/

namespace Sys2Proof

open Machine

namespace Machine

/-! ### The nib family -/

theorem runNib_memWf {s : State} {c} {n} {opds} {body} (hs : s.MemWf) (hbody : ∀ y0 y1, CtxWf y0 → ResWf (body y0 y1)) :
    OutWf (runNib s c n opds body) := by
  unfold runNib
  exact runOnce_memWf hs (fun _ h0 => ite_wf (Ctx.ill_memWf h0) (hbody _ _ h0))
theorem execNbind_memWf {c} {nib} {a} {semen} {sem} {s : State} (h : s.MemWf) : OutWf (execNbind c nib a semen sem s) := by
  unfold execNbind
  exact runOnce_memWf h (fun _ h0 => ite_wf (Ctx.ill_memWf h0) (ite_wf (P := ResWf) trivial (ite_wf (P := ResWf) trivial (ite_wf
      (P := ResWf) trivial (State.modCore_memWf h0)))))
theorem execNibBindRequest_memWf {core} {nib} {pasid} {va} {cls} {s : State} (h : s.MemWf) : OutWf (execNibBindRequest core nib pasid va cls s) := by
  unfold execNibBindRequest
  exact ite_wf h (State.modCore_memWf h)
theorem nibSend_memWf {s : State} {ci} {pa} (h : s.MemWf) : (nibSend s ci pa).MemWf := by
  unfold nibSend
  split
  · exact originate_memWf h
  · exact h
theorem nibRead_memWf {s : State} {e} {id} {pc} {va} {n} (h : s.MemWf) : ERWf (nibRead s e id pc va n) := by
  unfold nibRead
  exact ite_wf h (ER.fin_memWf (ER.bind_wf (engParts_memWf h) (fun _ _ h0 => readPieces_memWf h0)))
theorem bindSem_memWf {s : State} {core} {ni} (h : s.MemWf) : (bindSem s core ni).MemWf := by
  unfold bindSem
  dsimp only
  split
  · split
    · exact ite_wf (State.modCore_memWf h) h
    · exact memWf_same rfl rfl h
  · exact h
theorem bindFail_memWf {s : State} {core} {ni} {code} {tk} (h : s.MemWf) : (bindFail s core ni code tk).MemWf := by
  unfold bindFail
  exact bindSem_memWf (State.modCore_memWf (dropGot_memWf (endKept_memWf h)))
theorem bindWindows_memWf {s : State} {e} {n} (h : s.MemWf) : ERWf (bindWindows s e n) := by
  unfold bindWindows
  refine ite_wf h ?_
  refine ite_wf h ?_
  split
  · split
    · split
      · exact ER.fin_memWf (FstWf.get (engXlat_memWf (FstWf.get (engXlat_memWf h) (by assumption))) (by assumption))
      · exact ite_wf (engMiss_memWf (ite_wf (engMiss_memWf (FstWf.get (engXlat_memWf (FstWf.get (engXlat_memWf h) (by assumption)))
            (by assumption))) (FstWf.get (engXlat_memWf (FstWf.get (engXlat_memWf h) (by assumption))) (by assumption)))) (ite_wf (engMiss_memWf
            (FstWf.get (engXlat_memWf (FstWf.get (engXlat_memWf h) (by assumption))) (by assumption))) (FstWf.get (engXlat_memWf (FstWf.get
            (engXlat_memWf h) (by assumption))) (by assumption)))
theorem bindDone_memWf {s : State} {core} {ni} {n} {rows} {a} {b} (h : s.MemWf) : (bindDone s core ni n rows a b).MemWf := by
  unfold bindDone
  exact bindSem_memWf (State.modCore_memWf (ite_wf (nibSend_memWf (ite_wf (nibSend_memWf (dropGot_memWf (endKept_memWf h))) (State.modDie_memWf
      (dropGot_memWf (endKept_memWf h))))) (State.modDie_memWf (ite_wf (nibSend_memWf (dropGot_memWf (endKept_memWf h))) (State.modDie_memWf
      (dropGot_memWf (endKept_memWf h)))))))
theorem Stage.next_memWf {x : Stage} {f} (hx : FstWf x) (hf : ∀ y0, y0.MemWf → FstWf (f y0)) : FstWf (Stage.next x f) := by
  unfold Stage.next
  exact ite_wf (hf _ hx) hx
theorem nbindRead_memWf {s : State} {core} {ni} (h : s.MemWf) : FstWf (nbindRead s core ni) := by
  unfold nbindRead
  refine ite_wf h ?_
  split
  · exact ERWf.get_wait (nibRead_memWf h) (by assumption)
  · exact bindFail_memWf (ERWf.get_fail (nibRead_memWf h) (by assumption))
  · exact ite_wf (bindFail_memWf (ERWf.get_ok (nibRead_memWf h) (by assumption))) (State.modCore_memWf (ERWf.get_ok (nibRead_memWf h)
        (by assumption)))
theorem nbindAllot_memWf {s : State} {core} {ni} (h : s.MemWf) : FstWf (nbindAllot s core ni) := by
  unfold nbindAllot
  refine ite_wf h ?_
  split
  · exact ERWf.get_wait (bindWindows_memWf h) (by assumption)
  · exact bindFail_memWf (ERWf.get_fail (bindWindows_memWf h) (by assumption))
  · exact bindFail_memWf (ERWf.get_ok (bindWindows_memWf h) (by assumption))
  · refine ite_wf (bindFail_memWf (ERWf.get_ok (bindWindows_memWf h) (by assumption))) ?_
    split
    · exact bindFail_memWf (ERWf.get_ok (bindWindows_memWf h) (by assumption))
    · split
      · split
        · dsimp only
          split
          · exact bindFail_memWf (ERWf.get_ok (bindWindows_memWf h) (by assumption))
          · exact ite_wf (bindFail_memWf (ERWf.get_ok (bindWindows_memWf h) (by assumption))) (State.modCore_memWf (ERWf.get_ok
                (bindWindows_memWf h) (by assumption)))
        · dsimp only
          split
          · exact bindFail_memWf (ERWf.get_ok (bindWindows_memWf h) (by assumption))
          · exact ite_wf (bindFail_memWf (ERWf.get_ok (bindWindows_memWf h) (by assumption))) (State.modCore_memWf (ERWf.get_ok
                (bindWindows_memWf h) (by assumption)))
      · split
        · dsimp only
          split
          · exact bindFail_memWf (ERWf.get_ok (bindWindows_memWf h) (by assumption))
          · exact ite_wf (bindFail_memWf (ERWf.get_ok (bindWindows_memWf h) (by assumption))) (State.modCore_memWf (ERWf.get_ok
                (bindWindows_memWf h) (by assumption)))
        · dsimp only
          split
          · exact bindFail_memWf (ERWf.get_ok (bindWindows_memWf h) (by assumption))
          · exact ite_wf (bindFail_memWf (ERWf.get_ok (bindWindows_memWf h) (by assumption))) (State.modCore_memWf (ERWf.get_ok
                (bindWindows_memWf h) (by assumption)))
theorem nbindRows_memWf {core} {ni} {x2} {x3 : State} (h : x3.MemWf) : FstWf (nbindRows core ni x2 x3) := by
  unfold nbindRows
  split
  · exact h
  · refine ite_wf (nbindRows_memWf h) ?_
    split
    · exact ERWf.get_wait (nibRead_memWf h) (by assumption)
    · exact bindFail_memWf (ERWf.get_fail (nibRead_memWf h) (by assumption))
    · exact nbindRows_memWf (State.modCore_memWf (ERWf.get_ok (nibRead_memWf h) (by assumption)))
theorem execNbindComplete_memWf {core} {nib} {s : State} (h : s.MemWf) : OutWf (execNbindComplete core nib s) := by
  unfold execNbindComplete
  refine ite_wf h ?_
  refine ite_wf (Stage.next_memWf (Stage.next_memWf (nbindRead_memWf h) (fun _ h1 => nbindAllot_memWf h1)) (fun _ h1 => nbindRows_memWf h1)) ?_
  dsimp only
  split
  · exact Stage.next_memWf (Stage.next_memWf (nbindRead_memWf h) (fun _ h3 => nbindAllot_memWf h3)) (fun _ h3 => nbindRows_memWf h3)
  · exact bindDone_memWf (Stage.next_memWf (Stage.next_memWf (nbindRead_memWf h) (fun _ h3 => nbindAllot_memWf h3)) (fun _ h3 => nbindRows_memWf h3))
theorem dropWindows_memWf {s : State} {core} {ni} (h : s.MemWf) : (dropWindows s core ni).MemWf := by
  unfold dropWindows
  exact memWf_same rfl rfl (foldl_wf (fun _ _ h0 => nibSend_memWf h0) _ h)
theorem nibUnbind_memWf {s : State} {core} {ni} (h : s.MemWf) : (nibUnbind s core ni).MemWf := by
  unfold nibUnbind
  exact State.modCore_memWf (serveLoads_memWf (dropWindows_memWf h))
theorem execNunbind_memWf {c} {nib} {s : State} (h : s.MemWf) : OutWf (execNunbind c nib s) := by
  unfold execNunbind
  exact runNib_memWf h (fun _ _ h0 => settle_memWf (State.modWarp_memWf (nibUnbind_memWf h0)))
theorem nibAbort_memWf {s : State} {core} {ni} {p} (hs : s.MemWf) : (nibAbort s core ni p).MemWf := by
  unfold nibAbort
  exact State.modCore_memWf (serveLoads_memWf hs)
theorem execNabort_memWf {c} {nib} {a} {s : State} (h : s.MemWf) : OutWf (execNabort c nib a s) := by
  unfold execNabort
  refine runNib_memWf h (fun _ _ h0 => ?_)
  split
  · exact nibAbort_memWf h0
  · exact ite_wf (Ctx.ill_memWf h0) (nibAbort_memWf h0)
theorem execNgrant_memWf {c} {nib} {rdr} {a} {count} {s : State} (h : s.MemWf) : OutWf (execNgrant c nib rdr a count s) := by
  unfold execNgrant
  exact runNib_memWf h (fun _ _ h0 => State.modCore_memWf h0)
theorem execNstat_memWf {c} {nib} {sel} {clr} {d} {a} {s : State} (h : s.MemWf) : OutWf (execNstat c nib sel clr d a s) := by
  unfold execNstat
  exact runOnce_memWf h (fun _ h0 => ite_wf (Ctx.ill_memWf h0) (ite_wf (State.modCore_memWf (writeLanes_memWf h0)) (writeLanes_memWf h0)))
theorem execNldc_memWf {m} {s : State} (h : s.MemWf) : OutWf (execNldc m s) := by
  unfold execNldc
  exact runInstr_memWf h (fun _ h0 => runAccess_memWf h0)
theorem popNib_memWf {s : State} {core} (h : s.MemWf) : (popNib s core).MemWf := by
  unfold popNib
  exact State.modCore_memWf h
theorem nibNomap_memWf {s : State} {core} {m} (h : s.MemWf) : (nibNomap s core m).MemWf := by
  unfold nibNomap
  exact endLoad_memWf (popNib_memWf h)
theorem endStore_memWf {s : State} {g} {m} {refused} (h : s.MemWf) : (endStore s g m refused).MemWf := by
  unfold endStore
  split
  · exact h
  · exact finishOut_memWf (ite_wf (State.modWarp_memWf (ite_wf h (State.modCore_memWf (noteStore_memWf h)))) (ite_wf h (State.modCore_memWf
        (noteStore_memWf h))))
theorem execStrokeStore_memWf {core} {s : State} (h : s.MemWf) : OutWf (execStrokeStore core s) := by
  unfold execStrokeStore
  split
  · exact ite_wf (nibNomap_memWf h) h
  · exact ite_wf h (endStore_memWf (State.setCore_memWf (popNib_memWf h)))
  · exact h
theorem execConsume_memWf {core} {s : State} (h : s.MemWf) : OutWf (execConsume core s) := by
  unfold execConsume
  split
  · exact ite_wf h (endStore_memWf (State.setCore_memWf (popNib_memWf h)))
  · exact h
theorem execStrokeLoad_memWf {core} {s : State} (h : s.MemWf) : OutWf (execStrokeLoad core s) := by
  unfold execStrokeLoad
  split
  · exact ite_wf h (endLoad_memWf (popNib_memWf h))
  · exact h
theorem execTraceLoad_memWf {core} {s : State} (h : s.MemWf) : OutWf (execTraceLoad core s) := by
  unfold execTraceLoad
  split
  · exact ite_wf h (nibNomap_memWf h)
  · refine ite_wf h ?_
    refine ite_wf (endLoad_memWf (popNib_memWf h)) ?_
    split
    · exact ite_wf (State.modCore_memWf (endLoad_memWf (ite_wf (nibAcquire_memWf (popNib_memWf h)) (popNib_memWf h)))) (endLoad_memWf (ite_wf
          (nibAcquire_memWf (popNib_memWf h)) (popNib_memWf h)))
    · exact ite_wf (State.modCore_memWf (endLoad_memWf (ite_wf (nibAcquire_memWf (popNib_memWf h)) (popNib_memWf h)))) (endLoad_memWf (ite_wf
          (nibAcquire_memWf (popNib_memWf h)) (popNib_memWf h)))
    · exact ite_wf (endLoad_memWf (State.modCore_memWf (popNib_memWf h))) (State.modCore_memWf (popNib_memWf h))
  · exact h
theorem execWaitLimitExpiry_memWf {core} {nib} {index} {s : State} (h : s.MemWf) : OutWf (execWaitLimitExpiry core nib index s) := by
  unfold execWaitLimitExpiry
  dsimp only
  split
  · exact h
  · exact endWait_memWf (State.modCore_memWf h)
theorem execFillLimitExpiry_memWf {core} {nib} {slot} {s : State} (h : s.MemWf) : OutWf (execFillLimitExpiry core nib slot s) := by
  unfold execFillLimitExpiry
  exact ite_wf h (serveLoads_memWf (State.modCore_memWf h))
theorem execNibPass_memWf {core} {s : State} (h : s.MemWf) : OutWf (execNibPass core s) := by
  unfold execNibPass
  refine ite_wf h ?_
  split
  · exact h
  · exact State.modCore_memWf h
theorem execNibApplicationDone_memWf {core} {s : State} (h : s.MemWf) : OutWf (execNibApplicationDone core s) := by
  unfold execNibApplicationDone
  refine ite_wf h ?_
  split
  · exact h
  · exact ite_wf (State.modCore_memWf h) (serveLoads_memWf (State.modCore_memWf h))

/-! ### Page tables, frames and the service of pages -/

theorem takeFrame_memWf {s : State} {d} {size} (h : s.MemWf) : AllWf SndWf (takeFrame s d size) := by
  unfold takeFrame
  exact map_wf (fun _ e => State.modDie_memWf h)
theorem dropCopies_memWf {s : State} {pa} {n} (h : s.MemWf) : (dropCopies s pa n).MemWf := by
  unfold dropCopies
  exact memWf_same rfl rfl h
theorem zeroHbm_memWf {s : State} {pa} {n} (h : s.MemWf) : (zeroHbm s pa n).MemWf := by
  have hd : (dropCopies s pa n).MemWf := dropCopies_memWf h
  unfold zeroHbm
  generalize dropCopies s pa n = u at hd ⊢
  exact ⟨tabWf_tabDrop _ _ _ _ hd.1, hd.2⟩
theorem pteWrite_memWf {s : State} {a} {e} (h : s.MemWf) : (pteWrite s a e).MemWf := by
  unfold pteWrite
  exact State.modDie_memWf (sysWrite_memWf _ _ _ h)
theorem tableAt_memWf {s : State} {va} {low} {x3} {x4} (h : s.MemWf) : AllWf FstWf (tableAt s va low x3 x4) := by
  unfold tableAt
  refine ite_wf h ?_
  split
  · exact h
  · refine ite_wf (tableAt_memWf h) ?_
    refine ite_wf ?_ ?_
    · split
      · exact trivial
      · exact tableAt_memWf (pteWrite_memWf (zeroHbm_memWf (AllWf.get_snd (takeFrame_memWf h) (by assumption))))
    · exact trivial
theorem rootOf_memWf {s : State} {pasid} (h : s.MemWf) : AllWf FstWf (rootOf s pasid) := by
  unfold rootOf
  split
  · exact h
  · exact map_wf (fun _ e1 => memWf_same rfl rfl (zeroHbm_memWf (AllWf.snd (takeFrame_memWf h) e1)))
theorem setEntry_memWf {s : State} {pasid} {va} {lv} {e} (h : s.MemWf) : AllWf State.MemWf (setEntry s pasid va lv e) := by
  unfold setEntry
  exact bind_wf (fun _ e => map_wf (fun _ e1 => pteWrite_memWf (AllWf.fst (tableAt_memWf (AllWf.fst (rootOf_memWf h) e)) e1)))
theorem fillFrame_memWf {s : State} {pa} {n} {f} (hs : s.MemWf) : (fillFrame s pa n f).MemWf := by
  unfold fillFrame
  exact foldl_wf (fun _ _ h0 => State.hbmWrite_memWf h0) _ (dropCopies_memWf hs)
theorem makePage_memWf {s : State} {pasid} {va} {r} {src} (hs : s.MemWf) (hsrc : ∀ y0 y1, y0.MemWf → (src y0 y1).MemWf) :
    FstWf (makePage s pasid va r src) := by
  unfold makePage
  split
  · split
    · dsimp only
      split
      · exact reportError_memWf hs
      · split
        · show State.MemWf _
          exact AllWf.get (setEntry_memWf (zeroHbm_memWf (AllWf.get_snd (takeFrame_memWf hs) (by assumption)))) (by assumption)
        · exact reportError_memWf (zeroHbm_memWf (AllWf.get_snd (takeFrame_memWf hs) (by assumption)))
    · dsimp only
      split
      · exact reportError_memWf hs
      · split
        · show State.MemWf _
          exact AllWf.get (setEntry_memWf (zeroHbm_memWf (AllWf.get_snd (takeFrame_memWf hs) (by assumption)))) (by assumption)
        · exact reportError_memWf (zeroHbm_memWf (AllWf.get_snd (takeFrame_memWf hs) (by assumption)))
  · split
    · dsimp only
      split
      · exact reportError_memWf hs
      · split
        · show State.MemWf _
          exact AllWf.get (setEntry_memWf (fillFrame_memWf (AllWf.get_snd (takeFrame_memWf hs) (by assumption)))) (by assumption)
        · exact reportError_memWf (fillFrame_memWf (AllWf.get_snd (takeFrame_memWf hs) (by assumption)))
    · dsimp only
      split
      · exact reportError_memWf hs
      · split
        · show State.MemWf _
          exact AllWf.get (setEntry_memWf (fillFrame_memWf (AllWf.get_snd (takeFrame_memWf hs) (by assumption)))) (by assumption)
        · exact reportError_memWf (fillFrame_memWf (AllWf.get_snd (takeFrame_memWf hs) (by assumption)))
  · split
    · dsimp only
      split
      · exact reportError_memWf hs
      · split
        · show State.MemWf _
          exact AllWf.get (setEntry_memWf (fillFrame_memWf (foldl_wf (fun _ _ h5 => hsrc _ _ h5) _ (AllWf.get_snd (takeFrame_memWf hs)
              (by assumption))))) (by assumption)
        · exact reportError_memWf (fillFrame_memWf (foldl_wf (fun _ _ h4 => hsrc _ _ h4) _ (AllWf.get_snd (takeFrame_memWf hs) (by assumption))))
    · dsimp only
      split
      · exact reportError_memWf hs
      · split
        · show State.MemWf _
          exact AllWf.get (setEntry_memWf (fillFrame_memWf (foldl_wf (fun _ _ h5 => hsrc _ _ h5) _ (AllWf.get_snd (takeFrame_memWf hs)
              (by assumption))))) (by assumption)
        · exact reportError_memWf (fillFrame_memWf (foldl_wf (fun _ _ h4 => hsrc _ _ h4) _ (AllWf.get_snd (takeFrame_memWf hs) (by assumption))))
theorem servePage_memWf {x0} {x1 : State} {x2} {x3} {x4} {x5} {x6} (h : x1.MemWf) : FstWf (servePage x0 x1 x2 x3 x4 x5 x6) := by
  unfold servePage
  split
  · exact h
  · split
    · exact h
    · exact h
    · dsimp only
      split
      · exact h
      · exact ite_wf (makePage_memWf h (fun _ _ h3 => servePage_memWf h3)) (ite_wf (makePage_memWf h (fun _ _ h3 => servePage_memWf h3))
            (makePage_memWf h (fun _ _ h3 => servePage_memWf h3)))
    · split
      · exact ite_wf h (servePage_memWf (pteWrite_memWf h))
      · exact h
theorem newRec_memWf {s : State} {d} {core} {pasid} {va} {need} {scr} {ph} (h : s.MemWf) : AllWf FstWf (newRec s d core pasid va need scr ph) := by
  unfold newRec
  dsimp only
  split
  · exact trivial
  · exact ite_wf (P := AllWf FstWf) trivial (State.setDie_memWf h)
theorem postNotice_memWf {s : State} {d} {r} {st} (h : s.MemWf) : (postNotice s d r st).MemWf := by
  unfold postNotice
  exact State.modDie_memWf (ite_wf h (originate_memWf h))
theorem cpuXlat_memWf {s : State} {d} {pasid} {va} {need} (h : s.MemWf) : CRWf (cpuXlat s d pasid va need) := by
  unfold cpuXlat
  refine ite_wf h ?_
  split
  · refine ite_wf (FstWf.get (servePage_memWf h) (by assumption)) ?_
    split
    · exact FstWf.get (servePage_memWf h) (by assumption)
    · exact FstWf.get (servePage_memWf h) (by assumption)
  · split
    · exact FstWf.get (servePage_memWf h) (by assumption)
    · split
      · dsimp only
        split
        · exact FstWf.get (servePage_memWf h) (by assumption)
        · split
          · exact State.setDie_memWf (FstWf.get (servePage_memWf h) (by assumption))
          · exact AllWf.get_fst (newRec_memWf (FstWf.get (servePage_memWf h) (by assumption))) (by assumption)
      · dsimp only
        split
        · exact FstWf.get (servePage_memWf h) (by assumption)
        · split
          · exact State.setDie_memWf (FstWf.get (servePage_memWf h) (by assumption))
          · exact FstWf.get (servePage_memWf h) (by assumption)
theorem cpuRead_memWf {s : State} {d} {pasid} {va} {n} (h : s.MemWf) : CRWf (cpuRead s d pasid va n) := by
  unfold cpuRead
  exact CR.bind_wf (cpuXlat_memWf h) (fun _ _ h0 => ite_wf (ite_wf h0 h0) (ite_wf h0 (ite_wf h0 (snoopBytes_memWf h0))))
theorem cpuPut_memWf {s : State} {d} {x} {va} {bs} (h : s.MemWf) : (cpuPut s d x va bs).MemWf := by
  unfold cpuPut
  exact ite_wf h (ite_wf (memWf_wrHost rfl rfl h) (ite_wf (foldl_wf (fun _ _ h0 => untWrite_memWf h0) _ h) (ite_wf (sysWrite_memWf _ _ _ h) h)))
theorem cpuWrite_memWf {s : State} {d} {pasid} {va} {bs} (h : s.MemWf) : (cpuWrite s d pasid va bs).MemWf := by
  unfold cpuWrite
  split
  · exact CRWf.get_fail (cpuXlat_memWf h) (by assumption)
  · exact State.modDie_memWf (CRWf.get_wait (cpuXlat_memWf h) (by assumption))
  · exact cpuPut_memWf (CRWf.get_ok (cpuXlat_memWf h) (by assumption))

/-! ### Fault tickets and host translations -/

theorem chanFail_memWf {s : State} {ci} {ch} {id} {st} (h : s.MemWf) : (chanFail s ci ch id st).MemWf := by
  unfold chanFail
  refine ite_wf h ?_
  split
  · exact ite_wf (endChain_memWf h) h
  · exact ite_wf (endChain_memWf h) (ite_wf (State.modChan_memWf h) (State.modChan_memWf h))
theorem failAccess_memWf {s : State} {ci} {a} {va} {st} (h : s.MemWf) : (failAccess s ci a va st).MemWf := by
  unfold failAccess
  split
  · exact drain_memWf (finishLsu_memWf h)
  · split
    · exact h
    · exact takeTrap_memWf _ _ _ (State.modWarp_memWf h)
  · exact chanFail_memWf h
  · split
    · exact h
    · exact ite_wf (endedFailure_memWf (State.modWg_memWf (endKept_memWf h))) (State.modWg_memWf (endKept_memWf h))
  · exact ite_wf (bindFail_memWf h) h
  · exact h
theorem replayed_memWf {s : State} {kept} (h : s.MemWf) : (replayed s kept).MemWf := by
  unfold replayed
  split
  · exact ackReplay_memWf h
  · exact h
theorem resumeAccess_memWf {s : State} {ci} {a} {va} {kept} (h : s.MemWf) : (resumeAccess s ci a va kept).MemWf := by
  unfold resumeAccess
  split
  · split
    · exact addMiss_memWf (FstWf.get (findXlat_memWf h) (by assumption))
    · split
      · exact drain_memWf (finishWith_memWf (replayed_memWf (FstWf.get (findXlat_memWf h) (by assumption))))
      · exact ite_wf (drain_memWf (replayed_memWf (sealBatch_memWf (performNow_memWf (flushHeld_memWf (FstWf.get (findXlat_memWf h)
            (by assumption))))))) (ite_wf (addMiss_memWf (flushHeld_memWf (FstWf.get (findXlat_memWf h) (by assumption)))) (State.modWarp_memWf
            (flushHeld_memWf (FstWf.get (findXlat_memWf h) (by assumption)))))
  · split
    · exact addMiss_memWf (FstWf.get (translate_memWf h) (by assumption))
    · exact ite_wf (failAccess_memWf (replayed_memWf (FstWf.get (translate_memWf h) (by assumption)))) (State.modWarp_memWf (ite_wf
          (keepXlat_memWf (replayed_memWf (FstWf.get (translate_memWf h) (by assumption)))) (replayed_memWf (FstWf.get (translate_memWf h)
          (by assumption)))))
  · exact replayed_memWf h
theorem dropMiss_memWf {s : State} {ci} {id} (h : s.MemWf) : (dropMiss s ci id).MemWf := by
  unfold dropMiss
  exact State.modCore_memWf h
theorem enterTicket_memWf {s : State} {ci} {m} {tid} (h : s.MemWf) : (enterTicket s ci m tid).MemWf := by
  unfold enterTicket
  exact State.modCore_memWf (replayed_memWf (dropMiss_memWf h))
theorem execFaultTicket_memWf {core} {miss} {s : State} (h : s.MemWf) : OutWf (execFaultTicket core miss s) := by
  unfold execFaultTicket
  split
  · exact h
  · refine ite_wf h ?_
    split
    · show State.MemWf _
      split
      · exact resumeAccess_memWf (dropMiss_memWf (FstWf.get (translate_memWf h) (by assumption)))
      · exact resumeAccess_memWf (dropMiss_memWf (FstWf.get (translate_memWf h) (by assumption)))
      · exact ite_wf (enterTicket_memWf (FstWf.get (translate_memWf h) (by assumption))) (resumeAccess_memWf (dropMiss_memWf (FstWf.get
            (translate_memWf h) (by assumption))))
    · refine ite_wf (FstWf.get (translate_memWf h) (by assumption)) ?_
      split
      · refine ite_wf (FstWf.get (translate_memWf h) (by assumption)) ?_
        refine ite_wf ?_ ?_
        · split
          · show State.MemWf _
            dsimp only
            split
            · exact State.modCore_memWf (FstWf.get (translate_memWf h) (by assumption))
            · exact ite_wf (raiseAssist_memWf (enterTicket_memWf (AllWf.get_fst (newRec_memWf (FstWf.get (translate_memWf h) (by assumption)))
                  (by assumption)))) (enterTicket_memWf (AllWf.get_fst (newRec_memWf (FstWf.get (translate_memWf h) (by assumption)))
                  (by assumption)))
          · exact postNotice_memWf (enterTicket_memWf (AllWf.get_fst (newRec_memWf (FstWf.get (translate_memWf h) (by assumption))) (by assumption)))
        · show State.MemWf _
          dsimp only
          split
          · exact State.modCore_memWf (FstWf.get (translate_memWf h) (by assumption))
          · exact ite_wf (raiseAssist_memWf (enterTicket_memWf (AllWf.get_fst (newRec_memWf (FstWf.get (translate_memWf h) (by assumption)))
                (by assumption)))) (enterTicket_memWf (AllWf.get_fst (newRec_memWf (FstWf.get (translate_memWf h) (by assumption))) (by assumption)))
      · refine ite_wf ?_ ?_
        · refine ite_wf ?_ (FstWf.get (translate_memWf h) (by assumption))
          show State.MemWf _
          dsimp only
          split
          · exact State.modCore_memWf (FstWf.get (translate_memWf h) (by assumption))
          · exact ite_wf (raiseAssist_memWf (enterTicket_memWf (AllWf.get_fst (newRec_memWf (FstWf.get (translate_memWf h) (by assumption)))
                (by assumption)))) (enterTicket_memWf (AllWf.get_fst (newRec_memWf (FstWf.get (translate_memWf h) (by assumption))) (by assumption)))
        · show State.MemWf _
          dsimp only
          split
          · exact State.modCore_memWf (FstWf.get (translate_memWf h) (by assumption))
          · exact ite_wf (raiseAssist_memWf (enterTicket_memWf (AllWf.get_fst (newRec_memWf (FstWf.get (translate_memWf h) (by assumption)))
                (by assumption)))) (enterTicket_memWf (AllWf.get_fst (newRec_memWf (FstWf.get (translate_memWf h) (by assumption))) (by assumption)))
theorem execBusyRetry_memWf {core} {miss} {s : State} (h : s.MemWf) : OutWf (execBusyRetry core miss s) := by
  unfold execBusyRetry
  exact State.modCore_memWf h
theorem execPageService_memWf {die} {index} {s : State} (h : s.MemWf) : OutWf (execPageService die index s) := by
  unfold execPageService
  split
  · exact h
  · refine ite_wf h ?_
    split
    · exact postNotice_memWf (FstWf.get (servePage_memWf h) (by assumption))
    · exact State.modDie_memWf (FstWf.get (servePage_memWf h) (by assumption))
theorem execPageHoldExpiry_memWf {die} {index} {s : State} (h : s.MemWf) : OutWf (execPageHoldExpiry die index s) := by
  unfold execPageHoldExpiry
  exact State.modDie_memWf h
theorem dropTicket_memWf {s : State} {ci} {tid} (h : s.MemWf) : (dropTicket s ci tid).MemWf := by
  unfold dropTicket
  exact State.modCore_memWf h
theorem takeNotice_memWf {s : State} {core} {tid} {p} (hs : s.MemWf) : AllWf FstWf (takeNotice s core tid p) := by
  unfold takeNotice
  exact ite_wf (P := AllWf FstWf) trivial (map_wf (fun _ e => State.modDie_memWf hs))
theorem closeTicket_memWf {s : State} {core} {t} {st} (h : s.MemWf) : (closeTicket s core t st).MemWf := by
  unfold closeTicket
  refine ite_wf (failAccess_memWf (ackReplay_memWf (dropTicket_memWf h))) ?_
  refine ite_wf ?_ (resumeAccess_memWf (dropTicket_memWf h))
  split
  · exact addMissAt_memWf (FstWf.get (translate_memWf (dropTicket_memWf h)) (by assumption))
  · exact ackReplay_memWf (foldl_wf (fun _ _ h3 => keepXlat_memWf h3) _ (FstWf.get (translate_memWf (dropTicket_memWf h)) (by assumption)))
theorem notice_memWf {s : State} {core} {tid} {st} (h : s.MemWf) : (notice s core tid st).MemWf := by
  unfold notice
  split
  · exact h
  · exact ite_wf (State.modCore_memWf h) (closeTicket_memWf h)
theorem execReplayNotice_memWf {core} {tid} {s : State} (h : s.MemWf) : OutWf (execReplayNotice core tid s) := by
  unfold execReplayNotice
  refine ite_wf (notice_memWf h) ?_
  split
  · exact h
  · exact notice_memWf (AllWf.get_fst (takeNotice_memWf h) (by assumption))
theorem execTicketFailure_memWf {core} {tid} {status} {s : State} (h : s.MemWf) : OutWf (execTicketFailure core tid status s) := by
  unfold execTicketFailure
  refine ite_wf (ite_wf h (notice_memWf h)) ?_
  split
  · exact h
  · exact notice_memWf (AllWf.get_fst (takeNotice_memWf h) (by assumption))
theorem execTicketStatusQuery_memWf {core} {tid} {s : State} (h : s.MemWf) : OutWf (execTicketStatusQuery core tid s) := by
  unfold execTicketStatusQuery
  exact State.modCore_memWf h
theorem execTicketQueryAnswer_memWf {core} {tid} {ans} {s : State} (h : s.MemWf) : OutWf (execTicketQueryAnswer core tid ans s) := by
  unfold execTicketQueryAnswer
  split
  · exact h
  · refine ite_wf h ?_
    split
    · exact State.modCore_memWf h
    · exact ite_wf h (notice_memWf h)
theorem execLinklostTimeout_memWf {core} {tid} {s : State} (h : s.MemWf) : OutWf (execLinklostTimeout core tid s) := by
  unfold execLinklostTimeout
  split
  · exact h
  · exact ite_wf (notice_memWf h) h
theorem execAtsTranslationRequest_memWf {die} {s : State} (h : s.MemWf) : OutWf (execAtsTranslationRequest die s) := by
  unfold execAtsTranslationRequest
  refine ite_wf h ?_
  split
  · exact State.modDie_memWf h
  · split
    · exact State.modDie_memWf (State.modCore_memWf h)
    · exact h
theorem flushCpu_memWf {s : State} {d} (h : s.MemWf) : (flushCpu s d).MemWf := by
  unfold flushCpu
  exact foldl_wf (fun _ _ h0 => cpuWrite_memWf h0) _ (State.modDie_memWf h)
theorem execAtsCompletion_memWf {die} {ans} {s : State} (h : s.MemWf) : OutWf (execAtsCompletion die ans s) := by
  unfold execAtsCompletion
  split
  · exact h
  · split
    · split
      · exact State.modDie_memWf h
      · exact ite_wf h (ite_wf (State.modCore_memWf (State.modDie_memWf h)) (ite_wf (resumeAccess_memWf (tlbFill_memWf (dropMiss_memWf
            (State.modDie_memWf h)))) (State.modCore_memWf (State.modDie_memWf h))))
    · split
      · exact State.modDie_memWf h
      · exact ite_wf h (ite_wf (postNotice_memWf (State.modDie_memWf h)) (ite_wf (ite_wf (flushCpu_memWf (State.modDie_memWf
            (State.modDie_memWf h))) (State.modDie_memWf (postNotice_memWf (tlbFill_memWf (State.modDie_memWf h))))) (ite_wf (postNotice_memWf
            (State.modDie_memWf h)) (State.modDie_memWf (State.modDie_memWf h)))))
theorem execPriPageRequest_memWf {die} {s : State} (h : s.MemWf) : OutWf (execPriPageRequest die s) := by
  unfold execPriPageRequest
  refine ite_wf (State.modDie_memWf h) ?_
  split
  · exact State.modDie_memWf (State.modDie_memWf h)
  · exact State.modDie_memWf h
theorem failRecs_memWf {s : State} {p} (hs : s.MemWf) : (failRecs s p).MemWf := by
  unfold failRecs
  exact foldl_wf (fun _ _ h0 => foldl_wf (fun _ _ h1 => postNotice_memWf h1) _ h0) _ hs
theorem execPrgSuccess_memWf {die} {group} {s : State} (h : s.MemWf) : OutWf (execPrgSuccess die group s) := by
  unfold execPrgSuccess
  exact State.modDie_memWf h
theorem execPrgInvalidRequest_memWf {die} {group} {s : State} (h : s.MemWf) : OutWf (execPrgInvalidRequest die group s) := by
  unfold execPrgInvalidRequest
  exact foldl_wf (fun _ _ h0 => postNotice_memWf h0) _ h
theorem execPrgResponseFailure_memWf {die} {group} {s : State} (h : s.MemWf) : OutWf (execPrgResponseFailure die group s) := by
  have hf : (failRecs s queuedPri).MemWf := failRecs_memWf h
  unfold execPrgResponseFailure
  generalize failRecs s queuedPri = u at hf ⊢
  exact ite_wf (P := OutWf) (memWf_same (s := u) rfl rfl hf) h
theorem execPriStopMarker_memWf {pasid} {s : State} (h : s.MemWf) : OutWf (execPriStopMarker pasid s) := by
  unfold execPriStopMarker
  exact failRecs_memWf h
theorem dropXlats_memWf {s : State} {p} (hs : s.MemWf) : (dropXlats s p).MemWf := by
  unfold dropXlats
  exact memWf_same rfl rfl hs
theorem invalidateWhere_memWf {s : State} {p} (hs : s.MemWf) : (invalidateWhere s p).MemWf := by
  unfold invalidateWhere
  exact ite_wf hs (dropXlats_memWf hs)
theorem execAtsInvalidateRequest_memWf {pasid} {va} {size} {s : State} (h : s.MemWf) : OutWf (execAtsInvalidateRequest pasid va size s) := by
  unfold execAtsInvalidateRequest
  exact invalidateWhere_memWf h
theorem execGlobalInvalidate_memWf {va} {size} {s : State} (h : s.MemWf) : OutWf (execGlobalInvalidate va size s) := by
  unfold execGlobalInvalidate
  exact invalidateWhere_memWf h

/-! ### Workgroups and what they hold -/

theorem releaseNibs_memWf {s : State} {c} {m} (h : s.MemWf) : (releaseNibs s c m).MemWf := by
  unfold releaseNibs
  exact foldl_wf (fun _ _ h0 => ite_wf (State.modCore_memWf (nibUnbind_memWf h0)) h0) _ h
theorem freeWg_memWf {s : State} {c} {id} (h : s.MemWf) : (freeWg s c id).MemWf := by
  unfold freeWg
  exact State.modCore_memWf h
theorem putPage_memWf {tag} {s : State} {e} (h : s.MemWf) : (putPage tag s e).MemWf := by
  have hn : ∀ l : List Nat, (l.foldl State.noteOuter (dropCopies s e.1.1 4096)).MemWf := fun l =>
    foldl_wf (P := State.MemWf) (fun _ _ h0 => State.noteOuter_memWf h0) l (dropCopies_memWf h)
  have ht := hn (unitsOf 128 e.1.1 4096)
  unfold putPage
  dsimp only
  generalize (unitsOf 128 e.1.1 4096).foldl State.noteOuter (dropCopies s e.1.1 4096) = u at ht ⊢
  have hu := fun bs q => memWf_wrHbm (t := { u with hbm := wrBytes u.hbm e.1.1 bs, hbmPois := q }) rfl rfl ht
  have hv := fun bs => memWf_wrHost (t := { s with hostMem := wrBytes s.hostMem e.1.1 bs }) rfl rfl h
  generalize pageBytes tag e.2 = bs
  exact ite_wf (P := State.MemWf) (hv _) (ite_wf (P := State.MemWf) (hu _ _) h)
theorem putImage_memWf {s : State} {pages} (h : s.MemWf) : (putImage s pages).MemWf := by
  unfold putImage
  exact foldl_wf (fun _ _ h0 => putPage_memWf h0) _ h
theorem saveWg_memWf {s : State} {c} {id} {x3} {pages} (h : s.MemWf) : (saveWg s c id x3 pages).MemWf := by
  unfold saveWg
  dsimp only
  split
  · exact h
  · exact freeWg_memWf (State.modDie_memWf (State.modCore_memWf (memWf_same rfl rfl (putImage_memWf h))))
theorem restoreQbars_memWf {s : State} {c} {g} (h : s.MemWf) : (restoreQbars s c g).MemWf := by
  unfold restoreQbars
  refine ite_wf h ?_
  split
  · exact h
  · exact State.modDie_memWf h
theorem restoreWg_memWf {s : State} {c} {im} (h : s.MemWf) : AllWf State.MemWf (restoreWg s c im) := by
  unfold restoreWg
  refine ite_wf (P := AllWf State.MemWf) trivial (ite_wf (P := AllWf State.MemWf) trivial ?_)
  refine bind_wf fun a _ => ite_wf (P := AllWf State.MemWf) trivial ?_
  exact memWf_same (s := restoreQbars s c im.wg) rfl rfl (restoreQbars_memWf h)
theorem endWg_memWf {s : State} {c} {id} (h : s.MemWf) : (endWg s c id).MemWf := by
  unfold endWg
  exact foldl_wf (fun _ _ h0 => ite_wf (cpAbort_memWf h0) h0) _ (State.modWg_memWf (State.modCore_memWf h))
theorem endTask_memWf {s : State} {d} {graph} {node} {status} (h : s.MemWf) : (endTask s d graph node status).MemWf := by
  unfold endTask
  exact doomNode_memWf (memWf_same rfl rfl (foldl_wf (fun _ _ h0 => releaseNibs_memWf h0) _ (memWf_same rfl rfl h)))
theorem endStill_memWf {s : State} {c} {id} (h : s.MemWf) : (endStill s c id).MemWf := by
  unfold endStill
  exact ite_wf (endWg_memWf h) h
theorem execTrapEscalation_memWf {core} {slot} {s : State} (h : s.MemWf) : OutWf (execTrapEscalation core slot s) := by
  unfold execTrapEscalation
  split
  · exact h
  · split
    · exact ite_wf h (endTask_memWf h)
    · exact h

end Machine

end Sys2Proof
end


section
/-! PROOFS. Every function of the model keeps the memories canonical: task graphs, services and system instructions. -/

namespace Sys2Proof

open Machine

namespace Machine

/-! ### The rings that the device reads -/

theorem h2dTake_memWf {s : State} {seq} (h : s.MemWf) : (h2dTake s seq).MemWf := by
  unfold h2dTake
  exact memWf_same rfl rfl h
theorem h2dRefuse_memWf {s : State} {seq} (h : s.MemWf) : (h2dRefuse s seq).MemWf := by
  unfold h2dRefuse
  exact h2dTake_memWf (refuseMsg_memWf h)
theorem onH2d_memWf {s : State} {ty} {fields} {ok} {f} (hs : s.MemWf) (hf : ∀ y0 y1, y0.MemWf → AllWf State.MemWf (f y0 y1)) :
    OutWf (onH2d s ty fields ok f) := by
  unfold onH2d
  split
  · exact hs
  · refine ite_wf (h2dRefuse_memWf hs) ?_
    split
    · exact h2dTake_memWf (AllWf.get (hf _ _ hs) (by assumption))
    · exact h2dRefuse_memWf hs
theorem a2dTake_memWf {s : State} {seq} (h : s.MemWf) : (a2dTake s seq).MemWf := by
  unfold a2dTake
  exact memWf_same rfl rfl h
theorem a2dRefuse_memWf {s : State} {seq} (h : s.MemWf) : (a2dRefuse s seq).MemWf := by
  unfold a2dRefuse
  exact a2dTake_memWf (refuseRec_memWf h)
theorem onA2d_memWf {s : State} {ty} {fields} {ok} {f} (hs : s.MemWf) (hf : ∀ y0 y1, y0.MemWf → AllWf State.MemWf (f y0 y1)) :
    OutWf (onA2d s ty fields ok f) := by
  unfold onA2d
  split
  · exact hs
  · refine ite_wf (ite_wf hs (a2dRefuse_memWf hs)) ?_
    refine ite_wf (a2dRefuse_memWf hs) ?_
    split
    · exact a2dTake_memWf (AllWf.get (hf _ _ hs) (by assumption))
    · exact a2dRefuse_memWf hs

/-! ### The graph walker -/

theorem setStatus_memWf {s : State} {d} {id} {n} {st} (h : s.MemWf) : (setStatus s d id n st).MemWf := by
  unfold setStatus
  split
  · exact h
  · exact cpuWrite_memWf (State.modNode_memWf h)
theorem setPred_memWf {s : State} {d} {id} {n} {p} (h : s.MemWf) : (setPred s d id n p).MemWf := by
  unfold setPred
  split
  · exact h
  · exact cpuWrite_memWf (State.modNode_memWf h)
theorem failGraph_memWf {s : State} {d} {id} {n} {st} (h : s.MemWf) : (failGraph s d id n st).MemWf := by
  unfold failGraph
  exact State.modDie_memWf (State.modGraph_memWf h)
theorem readKd_memWf {s : State} {d} {id} {n} (h : s.MemWf) : (readKd s d id n).MemWf := by
  unfold readKd
  split
  · exact h
  · refine ite_wf h ?_
    split
    · exact CRWf.get_wait (cpuRead_memWf h) (by assumption)
    · exact failGraph_memWf (setStatus_memWf (CRWf.get_fail (cpuRead_memWf h) (by assumption)))
    · exact State.modNode_memWf (CRWf.get_ok (cpuRead_memWf h) (by assumption))
theorem failNode_memWf {s : State} {d} {id} {n} {st} (h : s.MemWf) : (failNode s d id n st).MemWf := by
  unfold failNode
  exact failGraph_memWf (setStatus_memWf h)
theorem checkKd_memWf {s : State} {d} {id} {n} (h : s.MemWf) : (checkKd s d id n).MemWf := by
  unfold checkKd
  dsimp only
  split
  · exact readKd_memWf h
  · split
    · exact failNode_memWf (readKd_memWf h)
    · exact readKd_memWf h
theorem setReady_memWf {s : State} {d} {id} {n} (h : s.MemWf) : (setReady s d id n).MemWf := by
  unfold setReady
  exact ite_wf (State.modNode_memWf h) (checkKd_memWf (State.modDie_memWf (State.modNode_memWf (setStatus_memWf h))))
theorem askReady_memWf {s : State} {d} {id} {n} (h : s.MemWf) : (askReady s d id n).MemWf := by
  unfold askReady
  exact ite_wf (raiseAssist_memWf h) h
theorem makeReady_memWf {s : State} {d} {id} {n} (h : s.MemWf) : (makeReady s d id n).MemWf := by
  unfold makeReady
  exact ite_wf h (ite_wf (askReady_memWf (State.modNode_memWf h)) (setReady_memWf h))
theorem retireNode_memWf {s : State} {d} {id} {n} {st} {nonzero} (h : s.MemWf) : (retireNode s d id n st nonzero).MemWf := by
  unfold retireNode
  split
  · exact h
  · exact ite_wf (State.modNode_memWf (setPred_memWf (setStatus_memWf h))) (State.modDie_memWf (State.modNode_memWf (setPred_memWf
        (setStatus_memWf h))))
theorem retireFailed_memWf {s : State} {d} {id} {n} {st} (h : s.MemWf) : (retireFailed s d id n st).MemWf := by
  unfold retireFailed
  exact retireNode_memWf (failGraph_memWf h)
theorem dropGraph_memWf {s : State} {d} {id} (h : s.MemWf) : (dropGraph s d id).MemWf := by
  unfold dropGraph
  exact memWf_same rfl rfl (foldl_wf (fun _ _ h0 => releaseNibs_memWf h0) _ h)
theorem endGraph_memWf {s : State} {d} {id} (h : s.MemWf) : (endGraph s d id).MemWf := by
  unfold endGraph
  split
  · exact h
  · refine ite_wf h ?_
    refine State.modDie_memWf ?_
    refine dropGraph_memWf ?_
    split
    · exact d2hRaise_memWf h
    · exact d2hRaise_memWf h
theorem endGraphs_memWf {s : State} {d} (h : s.MemWf) : (endGraphs s d).MemWf := by
  unfold endGraphs
  exact foldl_wf (fun _ _ h0 => endGraph_memWf h0) _ h
theorem readOvf_memWf {s : State} {d} {pasid} {n} {x4} {x5} (h : s.MemWf) : CRWf (readOvf s d pasid n x4 x5) := by
  unfold readOvf
  split
  · exact h
  · exact ite_wf h (ite_wf h (CR.bind_wf (cpuRead_memWf h) (fun _ _ h1 => ite_wf h1 (CR.bind_wf (readOvf_memWf h1) (fun _ _ h2 => h2)))))
theorem readNodes_memWf {s : State} {d} {pasid} {table} {n} {x5} {x6} (h : s.MemWf) : CRWf (readNodes s d pasid table n x5 x6) := by
  unfold readNodes
  split
  · exact h
  · split
    · exact CRWf.get_wait (cpuRead_memWf h) (by assumption)
    · exact CRWf.get_fail (cpuRead_memWf h) (by assumption)
    · refine ite_wf (CRWf.get_ok (cpuRead_memWf h) (by assumption)) ?_
      split
      · exact CRWf.get_wait (readOvf_memWf (CRWf.get_ok (cpuRead_memWf h) (by assumption))) (by assumption)
      · exact CRWf.get_fail (readOvf_memWf (CRWf.get_ok (cpuRead_memWf h) (by assumption))) (by assumption)
      · exact CRWf.get_ok (readOvf_memWf (CRWf.get_ok (cpuRead_memWf h) (by assumption))) (by assumption)
      · exact CR.bind_wf (readNodes_memWf (CRWf.get_ok (readOvf_memWf (CRWf.get_ok (cpuRead_memWf h) (by assumption))) (by assumption)))
            (fun _ _ h4 => h4)
theorem startGraph_memWf {s : State} {d} {g} (h : s.MemWf) : (startGraph s d g).MemWf := by
  unfold startGraph
  refine foldl_wf (fun _ _ h0 => ?_) _ ?_
  · split
    · exact ite_wf (makeReady_memWf h0) h0
    · exact h0
  · refine foldl_wf (fun _ _ h3 => ?_) _ (State.modDie_memWf h)
    split
    · exact setPred_memWf (setStatus_memWf h3)
    · exact h3
theorem execSubmit_memWf {die} {s : State} (h : s.MemWf) : OutWf (execSubmit die s) := by
  unfold execSubmit
  split
  · exact h
  · refine ite_wf (h2dRefuse_memWf h) ?_
    refine ite_wf h ?_
    dsimp only
    split
    · exact CRWf.get_wait (readNodes_memWf h) (by assumption)
    · exact CRWf.get_fail (readNodes_memWf h) (by assumption)
    · exact h2dTake_memWf (d2hRaise_memWf (cpuWrite_memWf (CRWf.get_ok (readNodes_memWf h) (by assumption))))
    · exact endGraphs_memWf (startGraph_memWf (h2dTake_memWf (CRWf.get_ok (readNodes_memWf h) (by assumption))))
theorem readArgs_memWf {s : State} {d} {pasid} {x3} {x4} (h : s.MemWf) : CRWf (readArgs s d pasid x3 x4) := by
  unfold readArgs
  split
  · exact h
  · exact CR.bind_wf (cpuRead_memWf h) (fun _ _ h1 => CR.bind_wf (readArgs_memWf h1) (fun _ _ h2 => h2))
theorem takeWide_memWf {s : State} {d} {id} {n} {t} (h : s.MemWf) : (takeWide s d id n t).MemWf := by
  unfold takeWide
  exact memWf_same rfl rfl h
theorem dropWide_memWf {s : State} {d} {id} {n} (h : s.MemWf) : (dropWide s d id n).MemWf := by
  unfold dropWide
  exact memWf_same rfl rfl h
theorem podGive_memWf {s : State} {b} {pasid} {expect} (h : s.MemWf) : AllWf State.MemWf (podGive s b pasid expect) := by
  unfold podGive
  exact ite_wf (P := AllWf State.MemWf) trivial (podTell_memWf (memWf_same rfl rfl h))
theorem podTake_memWf {s : State} {b} {pasid} (h : s.MemWf) : AllWf State.MemWf (podTake s b pasid) := by
  unfold podTake
  exact ite_wf (P := AllWf State.MemWf) trivial (podTell_memWf (memWf_same rfl rfl h))
theorem podForward_memWf {s : State} (h : s.MemWf) : AllWf State.MemWf (podForward s) := by
  unfold podForward
  exact ite_wf (P := AllWf State.MemWf) trivial (originate_memWf h)
theorem placeWg_memWf {s : State} {x} {k} {d} {graph} {n} {gang} {i} {p} {args} (h : s.MemWf) :
    AllWf State.MemWf (placeWg s x k d graph n gang i p args) := by
  unfold placeWg
  exact map_wf (fun _ e => State.modCore_memWf h)
theorem placeAll_memWf {s : State} {f} {x2} (hs : s.MemWf) (hf : ∀ y0 y1, y0.MemWf → AllWf State.MemWf (f y0 y1)) :
    AllWf State.MemWf (placeAll s f x2) := by
  unfold placeAll
  split
  · exact hs
  · exact bind_wf (fun _ e1 => placeAll_memWf (AllWf.get (hf _ _ hs) e1) (fun _ _ h2 => hf _ _ h2))
theorem placeGang_memWf {s : State} {x} {k} {d} {id} {n} {gang} {p} {args} {first} {ctx} (h : s.MemWf) :
    AllWf State.MemWf (placeGang s x k d id n gang p args first ctx) := by
  unfold placeGang
  exact ite_wf (P := AllWf State.MemWf) trivial (placeAll_memWf (ite_wf (takeWide_memWf (State.modDie_memWf h)) (State.modDie_memWf h))
      (fun _ _ h0 => placeWg_memWf h0))
theorem resumeGang_memWf {s : State} {x} {d} {id} {n} {gang} {p} (h : s.MemWf) : AllWf State.MemWf (resumeGang s x d id n gang p) := by
  unfold resumeGang
  refine ite_wf ?_ ?_
  · exact trivial
  · refine placeAll_memWf h (fun _ _ h1 => ?_)
    split
    · exact restoreWg_memWf h1
    · exact h1
theorem somewhere_wf {α : Type} {P : α → Prop} {t : BitVec 1024} {f : Place → Option α} (hf : ∀ p, AllWf P (f p)) :
    AllWf P (somewhere t f) := by
  cases ho : somewhere t f with
  | none => trivial
  | some x =>
    obtain ⟨q, -, hq⟩ := List.exists_of_findSome?_eq_some ho
    obtain ⟨c, -, hc⟩ := List.exists_of_findSome?_eq_some hq
    exact (hf _).get hc
theorem gridPut_memWf {x} {k} {d} {id} {n} {x5} {x6} {x7 : State} (h : x7.MemWf) : AllWf State.MemWf (gridPut x k d id n x5 x6 x7) := by
  unfold gridPut
  split
  · exact h
  · exact bind_wf (fun _ e1 => gridPut_memWf (AllWf.get (somewhere_wf (fun _ => placeGang_memWf h)) e1))
theorem stopGang_memWf {s : State} {d} {id} {n} {gang} (h : s.MemWf) : (stopGang s d id n gang).MemWf := by
  unfold stopGang
  exact memWf_same rfl rfl h
theorem preemptOn_memWf {s : State} {x} {p} (h : s.MemWf) : (preemptOn s x p).MemWf := by
  unfold preemptOn
  refine ite_wf h ?_
  split
  · exact stopGang_memWf h
  · exact h
theorem preemptFor_memWf {s : State} {d} {y} {p} (h : s.MemWf) : (preemptFor s d y p).MemWf := by
  unfold preemptFor
  exact ite_wf h (preemptOn_memWf h)
theorem preemptGrid_memWf {s : State} {x} {k} {d} {id} {n} {ps} (h : s.MemWf) : (preemptGrid s x k d id n ps).MemWf := by
  unfold preemptGrid
  refine ite_wf h ?_
  split
  · exact preemptOn_memWf h
  · exact h
theorem placed_memWf {s : State} {d} {id} {n} {gang} {back} (h : s.MemWf) : (placed s d id n gang back).MemWf := by
  unfold placed
  refine State.modNode_memWf ?_
  split
  · exact ite_wf (setStatus_memWf h) h
  · exact h
theorem prepare_memWf {s : State} {d} {id} {n} {x} (h : s.MemWf) : CRWf (prepare s d id n x) := by
  unfold prepare
  refine ite_wf h ?_
  split
  · exact h
  · split
    · exact State.modNode_memWf (CRWf.get_ok (readArgs_memWf h) (by assumption))
    · exact CRWf.get_wait (readArgs_memWf h) (by assumption)
    · exact CRWf.get_fail (readArgs_memWf h) (by assumption)
theorem execGangPlacement_memWf {graph} {node} {p} {s : State} (h : s.MemWf) : OutWf (execGangPlacement graph node p s) := by
  unfold execGangPlacement
  dsimp only
  split
  · exact endGraphs_memWf (checkKd_memWf h)
  · split
    · exact CRWf.get_wait (prepare_memWf (checkKd_memWf h)) (by assumption)
    · exact endGraphs_memWf (failNode_memWf (CRWf.get_fail (prepare_memWf (checkKd_memWf h)) (by assumption)))
    · refine ite_wf (CRWf.get_ok (prepare_memWf (checkKd_memWf h)) (by assumption)) ?_
      split
      · split
        · exact placed_memWf (AllWf.get (resumeGang_memWf (CRWf.get_ok (prepare_memWf (checkKd_memWf h)) (by assumption))) (by assumption))
        · exact preemptFor_memWf (CRWf.get_ok (prepare_memWf (checkKd_memWf h)) (by assumption))
      · refine ite_wf (CRWf.get_ok (prepare_memWf (checkKd_memWf h)) (by assumption)) ?_
        split
        · exact placed_memWf (AllWf.get (placeGang_memWf (CRWf.get_ok (prepare_memWf (checkKd_memWf h)) (by assumption))) (by assumption))
        · exact preemptFor_memWf (CRWf.get_ok (prepare_memWf (checkKd_memWf h)) (by assumption))
      · exact CRWf.get_ok (prepare_memWf (checkKd_memWf h)) (by assumption)
theorem execGridPlacement_memWf {graph} {node} {ps} {s : State} (h : s.MemWf) : OutWf (execGridPlacement graph node ps s) := by
  unfold execGridPlacement
  dsimp only
  split
  · exact endGraphs_memWf (checkKd_memWf h)
  · split
    · exact CRWf.get_wait (prepare_memWf (checkKd_memWf h)) (by assumption)
    · exact endGraphs_memWf (failNode_memWf (CRWf.get_fail (prepare_memWf (checkKd_memWf h)) (by assumption)))
    · split
      · exact CRWf.get_ok (prepare_memWf (checkKd_memWf h)) (by assumption)
      · refine ite_wf (CRWf.get_ok (prepare_memWf (checkKd_memWf h)) (by assumption)) ?_
        split
        · show State.MemWf _
          exact AllWf.get (placeAll_memWf (CRWf.get_ok (prepare_memWf (checkKd_memWf h)) (by assumption)) (fun _ _ h6 => bind_wf (fun _ e7 =>
              map_wf (fun _ e8 => placed_memWf (AllWf.get (placeGang_memWf h6) e8))))) (by assumption)
        · exact preemptGrid_memWf (CRWf.get_ok (prepare_memWf (checkKd_memWf h)) (by assumption))
theorem execPlacementWaitExpiry_memWf {graph} {node} {quads} {s : State} (h : s.MemWf) : OutWf (execPlacementWaitExpiry graph node quads s) := by
  unfold execPlacementWaitExpiry
  dsimp only
  split
  · exact h
  · exact ite_wf h (State.modNode_memWf h)
theorem gangGone_memWf {s : State} {d} {id} {n} {gang} {back} (h : s.MemWf) : (gangGone s d id n gang back).MemWf := by
  unfold gangGone
  exact State.modNode_memWf h
theorem saveGang_memWf {s : State} {g} (h : s.MemWf) : (saveGang s g).MemWf := by
  unfold saveGang
  exact ite_wf h (gangGone_memWf (foldl_wf (fun _ _ h0 => saveWg_memWf h0) _ h))
theorem execWorkgroupRetirement_memWf {core} {wg} {s : State} (h : s.MemWf) : OutWf (execWorkgroupRetirement core wg s) := by
  unfold execWorkgroupRetirement
  split
  · exact h
  · next g _ =>
    have hd := memWf_same (t := { freeWg (releaseNibs s core g.nibMask) core wg with
      taskHz := Nat.max (freeWg (releaseNibs s core g.nibMask) core wg).taskHz (Nat.max (wgPublished s core wg) (s.core core).engHz) })
      rfl rfl (freeWg_memWf (c := core) (id := wg) (releaseNibs_memWf (c := core) (m := g.nibMask) h))
    refine ite_wf (P := OutWf) h (ite_wf (P := OutWf) (endStill_memWf h) (ite_wf (P := OutWf) (closeSlice_memWf h)
      (ite_wf (P := OutWf) ?_ (ite_wf (P := OutWf) (saveGang_memWf h) h))))
    exact ite_wf (P := State.MemWf) (gangGone_memWf hd) hd
theorem execTaskRetirement_memWf {graph} {node} {s : State} (h : s.MemWf) : OutWf (execTaskRetirement graph node s) := by
  unfold execTaskRetirement
  dsimp only
  split
  · exact h
  · refine ite_wf h ?_
    split
    · exact endGraphs_memWf (retireFailed_memWf (dropWide_memWf h))
    · exact ite_wf (endGraphs_memWf h) (endGraphs_memWf (retireNode_memWf (dropWide_memWf h)))
theorem execSuccessorDecrement_memWf {die} {s : State} (h : s.MemWf) : OutWf (execSuccessorDecrement die s) := by
  unfold execSuccessorDecrement
  split
  · exact endGraphs_memWf h
  · dsimp only
    split
    · exact State.modDie_memWf h
    · exact ite_wf (State.modNode_memWf (State.modDie_memWf h)) (ite_wf (endGraphs_memWf (failNode_memWf (State.modDie_memWf h))) (ite_wf
          (endGraphs_memWf (ite_wf (makeReady_memWf (State.modNode_memWf (setPred_memWf (State.modDie_memWf h)))) (retireNode_memWf
          (State.modNode_memWf (setPred_memWf (State.modDie_memWf h)))))) (State.modNode_memWf (setPred_memWf (State.modDie_memWf h)))))
theorem evalNode_memWf {kind} {graph} {node} {s : State} (h : s.MemWf) : OutWf (evalNode kind graph node s) := by
  unfold evalNode
  dsimp only
  split
  · exact h
  · refine ite_wf h ?_
    split
    · exact CRWf.get_wait (cpuRead_memWf h) (by assumption)
    · exact endGraphs_memWf (retireFailed_memWf (setStatus_memWf (CRWf.get_fail (cpuRead_memWf h) (by assumption))))
    · exact endGraphs_memWf (retireNode_memWf (setStatus_memWf (CRWf.get_ok (cpuRead_memWf h) (by assumption))))
theorem execCondNode_memWf {graph} {node} {s : State} (h : s.MemWf) : OutWf (execCondNode graph node s) := by
  unfold execCondNode
  exact evalNode_memWf h
theorem execWhileNode_memWf {graph} {node} {s : State} (h : s.MemWf) : OutWf (execWhileNode graph node s) := by
  unfold execWhileNode
  exact evalNode_memWf h
theorem execPreempt_memWf {s : State} (h : s.MemWf) : OutWf (execPreempt s) := by
  unfold execPreempt
  exact onH2d_memWf h (fun _ _ h0 => ite_wf (P := AllWf State.MemWf) trivial (foldl_wf (fun _ _ h1 => stopGang_memWf h1) _ h0))

/-! ### The scribe warp’s services -/

theorem State.setArenas_memWf {s : State} {l} (h : s.MemWf) : (State.setArenas s l).MemWf := by
  unfold State.setArenas
  exact State.modDie_memWf h
theorem modRec_memWf {s : State} {c} {idx} {f} (hs : s.MemWf) : (modRec s c idx f).MemWf := by
  unfold modRec
  exact State.modCore_memWf hs
theorem recStamp_memWf {s : State} {c} {r} (h : s.MemWf) : (recStamp s c r).MemWf := by
  unfold recStamp
  exact State.modWarp_memWf h
theorem serveAs_memWf {s : State} {c} {r} (h : s.MemWf) : (serveAs s c r).MemWf := by
  unfold serveAs
  exact State.modWarp_memWf h
theorem answer_memWf {s : State} {c} {idx} {ws} (h : s.MemWf) : (answer s c idx ws).MemWf := by
  unfold answer
  exact modRec_memWf h
theorem execMailboxServe_memWf {core} {s : State} (h : s.MemWf) : OutWf (execMailboxServe core s) := by
  unfold execMailboxServe
  split
  · exact h
  · split
    · exact answer_memWf (serveAs_memWf h)
    · exact ite_wf h (ite_wf h (State.modDie_memWf (serveAs_memWf (foldl_wf (fun _ _ h2 => modRec_memWf (recStamp_memWf h2)) _ h))))
theorem ringPop_memWf {s : State} {d} (h : s.MemWf) : (ringPop s d).MemWf := by
  unfold ringPop
  exact State.modDie_memWf h
theorem serveRec_memWf {s : State} {c} {r} (h : s.MemWf) : AllWf State.MemWf (serveRec s c r) := by
  unfold serveRec
  refine ite_wf (P := AllWf State.MemWf) (answer_memWf h) (ite_wf (P := AllWf State.MemWf) (ite_wf (P := AllWf State.MemWf) trivial ?_)
    (ite_wf (P := AllWf State.MemWf) ?_ ?_))
  · exact memWf_same (s := s) rfl rfl h
  · split
    · exact answer_memWf (State.setArenas_memWf h)
    · exact answer_memWf h
  · split
    · exact answer_memWf (State.setArenas_memWf h)
    · exact answer_memWf h
theorem serveHead_memWf {s : State} {d} {p} (hs : s.MemWf) : AllWf State.MemWf (serveHead s d p) := by
  unfold serveHead
  split
  · exact ite_wf (P := AllWf State.MemWf) (map_wf (fun _ e1 => ringPop_memWf (AllWf.get (serveRec_memWf hs) e1))) trivial
  · exact ite_wf (P := AllWf State.MemWf) trivial (ringPop_memWf hs)
theorem execAlloc_memWf {die} {s : State} (h : s.MemWf) : OutWf (execAlloc die s) := by
  unfold execAlloc
  exact getD_wf (serveHead_memWf h) h
theorem execFree_memWf {die} {s : State} (h : s.MemWf) : OutWf (execFree die s) := by
  unfold execFree
  exact getD_wf (serveHead_memWf h) h
theorem serveMany_memWf {x0} {x1 : State} {x2} (h : x1.MemWf) : (serveMany x0 x1 x2).MemWf := by
  unfold serveMany
  split
  · exact h
  · split
    · exact serveMany_memWf (AllWf.get (serveHead_memWf h) (by assumption))
    · exact h
theorem execSystemCallRing_memWf {die} {s : State} (h : s.MemWf) : OutWf (execSystemCallRing die s) := by
  unfold execSystemCallRing
  split
  · exact h
  · exact serveMany_memWf h
theorem execHostmsg_memWf {core} {s : State} (h : s.MemWf) : OutWf (execHostmsg core s) := by
  unfold execHostmsg
  split
  · exact h
  · exact ite_wf h (ite_wf (ite_wf (serveAs_memWf h) (answer_memWf (d2hRaise_memWf (serveAs_memWf h)))) (ite_wf (serveAs_memWf h) (answer_memWf
        (d2hRaise_memWf (d2hRaise_memWf (serveAs_memWf h))))))
theorem execAbort_memWf {core} {s : State} (h : s.MemWf) : OutWf (execAbort core s) := by
  unfold execAbort
  split
  · exact h
  · refine ite_wf h ?_
    split
    · exact endTask_memWf (serveAs_memWf h)
    · exact h
theorem execSvcReply_memWf {core} {s : State} (h : s.MemWf) : OutWf (execSvcReply core s) := by
  unfold execSvcReply
  split
  · exact h
  · split
    · exact State.modWarp_memWf (State.modCore_memWf h)
    · exact State.modCore_memWf h
theorem onH2dOp_memWf {s : State} {ty} {op} {fields} {ok} {f} (hs : s.MemWf) (hf : ∀ y0 y1, y0.MemWf → AllWf State.MemWf (f y0 y1)) :
    OutWf (onH2dOp s ty op fields ok f) := by
  unfold onH2dOp
  exact ite_wf (onH2d_memWf hs (fun _ _ h0 => hf _ _ h0)) hs
theorem zeroPage_memWf {s : State} {pasid} {va} (h : s.MemWf) : (zeroPage s pasid va).MemWf := by
  unfold zeroPage
  dsimp only
  split
  · exact ite_wf (zeroHbm_memWf (servePage_memWf h)) (servePage_memWf h)
  · exact servePage_memWf h
theorem execArenaRegister_memWf {s : State} (h : s.MemWf) : OutWf (execArenaRegister s) := by
  unfold execArenaRegister
  exact onH2dOp_memWf h (fun _ _ h0 => ite_wf (P := AllWf State.MemWf) trivial (State.setArenas_memWf (foldl_wf (fun _ _ h1 =>
      zeroPage_memWf h1) _ h0)))
theorem execArenaRemove_memWf {s : State} (h : s.MemWf) : OutWf (execArenaRemove s) := by
  unfold execArenaRemove
  exact onH2dOp_memWf h (fun _ _ h0 => ite_wf (P := AllWf State.MemWf) (State.setArenas_memWf h0) trivial)

/-! ### System instructions -/

theorem runSys_memWf {s : State} {c} {opds} {body} (hs : s.MemWf) (hbody : ∀ y0, CtxWf y0 → ResWf (body y0)) : OutWf (runSys s c opds body) := by
  unfold runSys
  split
  · exact trivial
  · exact ite_wf (takeTrap_memWf _ _ _ (issued_memWf hs)) (runOnce_memWf hs (fun _ h1 => hbody _ h1))
theorem execCsrr_memWf {c} {d} {n} {s : State} (h : s.MemWf) : OutWf (execCsrr c d n s) := by
  unfold execCsrr
  exact runSys_memWf h (fun _ h0 => ite_wf (writeLanes_memWf h0) (Ctx.ill_memWf h0))
theorem execCsrw_memWf {c} {a} {n} {s : State} (h : s.MemWf) : OutWf (execCsrw c a n s) := by
  unfold execCsrw
  exact runSys_memWf h (fun _ h0 => ite_wf (State.modCore_memWf h0) (Ctx.ill_memWf h0))
theorem dropDie_memWf {s : State} {d} {p} (hs : s.MemWf) : (dropDie s d p).MemWf := by
  unfold dropDie
  exact State.modDie_memWf (foldl_wf (fun _ _ h0 => State.modCore_memWf h0) _ hs)
theorem execTlbinv_memWf {c} {kind} {pkg} {a} {pasid} {s : State} (h : s.MemWf) : OutWf (execTlbinv c kind pkg a pasid s) := by
  unfold execTlbinv
  exact runSys_memWf h (fun _ h0 => ite_wf (P := ResWf) trivial (ite_wf (dropXlats_memWf h0) (dropDie_memWf h0)))
theorem execRmapinv_memWf {c} {a} {count} {s : State} (h : s.MemWf) : OutWf (execRmapinv c a count s) := by
  unfold execRmapinv
  exact runSys_memWf h (fun _ h0 => ite_wf (Ctx.ill_memWf h0) (State.modDie_memWf (foldl_wf (fun _ _ h1 => State.modCore_memWf h1) _ h0)))
theorem ctxPlace_memWf {k : Ctx} {va} {need} (h : CtxWf k) : FstWf (ctxPlace k va need) := by
  unfold ctxPlace
  split
  · exact FstWf.get (checkVa_memWf h) (by assumption)
  · exact FstWf.get (checkVa_memWf h) (by assumption)
  · exact FstWf.get (checkVa_memWf h) (by assumption)
theorem ctxPages_memWf {need} {x1} {x2} {x3 : Ctx} (h : CtxWf x3) : FstWf (ctxPages need x1 x2 x3) := by
  induction x1 generalizing x2 x3 with
  | zero => exact h
  | succ n ih =>
    rw [ctxPages]
    split
    · exact FstWf.get (ctxPlace_memWf h) (by assumption)
    · next s p he =>
      have hs : s.MemWf := FstWf.get (ctxPlace_memWf h) he
      split
      · exact FstWf.get (ih (x3 := { x3 with s := s }) hs) (by assumption)
      · exact ih (x3 := { x3 with s := s }) hs
theorem putStatus_memWf {s : State} {k : Ctx} {d} {v} (hs : s.MemWf) (hk : CtxWf k) : ResWf (putStatus s k d v) := by
  unfold putStatus
  exact writeLanes_memWf hs
theorem stopWg_memWf {s : State} {c} {id} (h : s.MemWf) : (stopWg s c id).MemWf := by
  unfold stopWg
  exact State.modCore_memWf h
theorem ctxPlace_error {k : Ctx} {va need} {t : State} {r : Res} (h : CtxWf k) (e : ctxPlace k va need = (t, .error r)) : ResWf r := by
  unfold ctxPlace at e
  split at e
  · cases e
  · cases e
    trivial
  · next he =>
    have hc : State.MemWf _ := FstWf.get (checkVa_memWf h) he
    cases e
    exact State.modWarp_memWf (State.modCore_memWf hc)
theorem ctxPages_error {need} {n : Nat} {va} {k : Ctx} {t : State} {r : Res} (h : CtxWf k) (e : ctxPages need n va k = (t, .error r)) :
    ResWf r := by
  induction n generalizing va k t with
  | zero => cases e
  | succ n ih =>
    rw [ctxPages] at e
    split at e
    · next he =>
      cases e
      exact ctxPlace_error h he
    · next s p he =>
      have hs : s.MemWf := FstWf.get (ctxPlace_memWf h) he
      split at e
      · cases e
      · exact ih (k := { k with s := s }) hs e
theorem loadImage_memWf {k : Ctx} {va} (h : CtxWf k) : FstWf (loadImage k va) := by
  unfold loadImage
  split
  · exact FstWf.get (ctxPlace_memWf h) (by assumption)
  · next s p he =>
    have hs : s.MemWf := FstWf.get (ctxPlace_memWf h) he
    split
    · exact hs
    · split
      · exact FstWf.get (ctxPages_memWf (x3 := { k with s := s }) hs) (by assumption)
      · exact FstWf.get (ctxPages_memWf (x3 := { k with s := s }) hs) (by assumption)
theorem loadImage_error {k : Ctx} {va} {t : State} {r : Res} (h : CtxWf k) (e : loadImage k va = (t, .error r)) : ResWf r := by
  unfold loadImage at e
  split at e
  · next he =>
    cases e
    exact ctxPlace_error h he
  · next s p he =>
    have hs : s.MemWf := FstWf.get (ctxPlace_memWf h) he
    split at e
    · cases e
    · split at e
      · next hp =>
        cases e
        exact ctxPages_error (k := { k with s := s }) hs hp
      · cases e
theorem execCtxsave_memWf {c} {d} {a} {slot} {s : State} (h : s.MemWf) : OutWf (execCtxsave c d a slot s) := by
  unfold execCtxsave
  refine runSys_memWf h fun k hk => ?_
  dsimp only
  refine ite_wf (P := ResWf) (Ctx.ill_memWf hk) ?_
  split
  · exact putStatus_memWf hk hk
  · next g _ =>
    split
    · exact ctxPages_error hk (by assumption)
    · next t pages he =>
      have hs : (stopWg t k.ci g.id).MemWf := stopWg_memWf (FstWf.get (ctxPages_memWf hk) he)
      refine ite_wf (P := ResWf) hs (putStatus_memWf ?_ hk)
      exact ite_wf (P := State.MemWf) (gangGone_memWf (saveWg_memWf hs)) (saveWg_memWf hs)
theorem execCtxload_memWf {c} {d} {a} {s : State} (h : s.MemWf) : OutWf (execCtxload c d a s) := by
  unfold execCtxload
  refine runSys_memWf h fun k hk => ?_
  dsimp only
  refine ite_wf (P := ResWf) (Ctx.ill_memWf hk) ?_
  split
  · exact loadImage_error hk (by assumption)
  · exact putStatus_memWf (FstWf.get (loadImage_memWf hk) (by assumption)) hk
  · next t im he =>
    have ht : t.MemWf := FstWf.get (loadImage_memWf hk) he
    split
    · exact putStatus_memWf ht hk
    · next u hu =>
      have hr : u.MemWf := AllWf.get (restoreWg_memWf ht) hu
      exact putStatus_memWf (ite_wf (P := State.MemWf) (State.modNode_memWf hr) hr) hk
theorem execDbghalt_memWf {c} {s : State} (h : s.MemWf) : OutWf (execDbghalt c s) := by
  unfold execDbghalt
  exact runSys_memWf h (fun _ h0 => ite_wf h0 (ite_wf (State.modCore_memWf h0) (State.modCore_memWf h0)))
theorem acceptMark_memWf {s : State} {m} (h : s.MemWf) : (acceptMark s m).MemWf := by
  unfold acceptMark
  exact noteStore_memWf (noteLine_memWf h)
theorem acceptMsg_memWf {s : State} {g} {m} (h : s.MemWf) : (acceptMsg s g m).MemWf := by
  unfold acceptMsg
  refine ite_wf ?_ (endAway_memWf (landMsg_memWf h))
  split
  · split
    · exact finishOut_memWf (FstWf.get (rmwLanes_memWf (fun _ _ _ _ h3 => State.modCore_memWf h3) (acceptMark_memWf h)) (by assumption))
    · exact FstWf.get (rmwLanes_memWf (fun _ _ _ _ h3 => State.modCore_memWf h3) (acceptMark_memWf h)) (by assumption)
theorem execDbgres_memWf {c} {s : State} (h : s.MemWf) : OutWf (execDbgres c s) := by
  unfold execDbgres
  refine runSys_memWf h (fun _ h0 => ?_)
  refine ite_wf h0 ?_
  show State.MemWf _
  refine foldl_wf (fun _ _ h5 => ?_) _ (foldl_wf (fun _ _ h5 => acceptMsg_memWf h5) _ (State.modCore_memWf h0))
  split
  · exact closeTicket_memWf h5
  · exact h5

end Machine

end Sys2Proof
end


section
/-! PROOFS. Every function of the model keeps the memories canonical: coherence, the host port and the pod. -/

namespace Sys2Proof

open Machine

namespace Machine

/-! ### Coherence -/

theorem execIdleAdvance_memWf {core} {s : State} (h : s.MemWf) : OutWf (execIdleAdvance core s) := by
  unfold execIdleAdvance
  exact State.modCore_memWf h
theorem execLtlimAdvance_memWf {die} {s : State} (h : s.MemWf) : OutWf (execLtlimAdvance die s) := by
  unfold execLtlimAdvance
  exact State.modDie_memWf h
theorem scrubCores_memWf {s : State} {f : Core → Core} (l : List Nat) (h : s.MemWf) : (l.foldl (fun s c => s.modCore c f) s).MemWf :=
  foldl_wf (P := State.MemWf) (fun _ _ h0 => State.modCore_memWf h0) l h
theorem execScrubVisit_memWf {die} {s : State} (h : s.MemWf) : OutWf (execScrubVisit die s) := by
  have hs := fun f => scrubCores_memWf (f := f) ((List.range 96).map (· + 96 * die)) h
  unfold execScrubVisit
  generalize (List.range 96).map (· + 96 * die) = l at hs ⊢
  dsimp only
  refine State.modDie_memWf ?_
  exact memWf_same rfl rfl (hs _)
theorem retryWait_memWf {s : State} {w} (h : s.MemWf) : FstWf (retryWait s w) := by
  unfold retryWait
  split
  · split
    · exact ite_wf (State.modDie_memWf (PerfWf.get_done (perfPhys_memWf h) (by assumption))) (finishOut_memWf (State.modDie_memWf (PerfWf.get_done
          (perfPhys_memWf h) (by assumption))))
    · exact State.modDie_memWf (PerfWf.get_away (perfPhys_memWf h) (by assumption))
    · split
      · exact sendRemote_memWf (State.modDie_memWf (PerfWf.get_hold (perfPhys_memWf h) (by assumption)))
      · exact State.modDie_memWf (PerfWf.get_hold (perfPhys_memWf h) (by assumption))
  · exact State.modDie_memWf h
theorem serveWaits_memWf {s : State} {d} {line} {p} (hs : s.MemWf) : (serveWaits s d line p).MemWf := by
  unfold serveWaits
  exact foldl_wf (fun _ _ h0 => ite_wf h0 (retryWait_memWf h0)) _ hs
theorem wakeLine_memWf {s : State} {line} (h : s.MemWf) : (wakeLine s line).MemWf := by
  unfold wakeLine
  exact foldl_wf (fun _ _ h0 => serveWaits_memWf h0) _ h
theorem evictLine_memWf {s : State} {die} {line} (h : s.MemWf) : (evictLine s die line).MemWf := by
  unfold evictLine
  split
  · split
    · dsimp only
      split
      · exact State.modDie_memWf (untGive_memWf h)
      · exact ite_wf (State.modDie_memWf (State.modDie_memWf (untGive_memWf h))) (sliceSend_memWf (State.modDie_memWf (State.modDie_memWf
            (State.modDie_memWf (untGive_memWf h)))))
    · dsimp only
      split
      · exact State.modDie_memWf (untGive_memWf h)
      · exact ite_wf (State.modDie_memWf (State.modDie_memWf (untGive_memWf h))) (State.modDie_memWf (State.modDie_memWf (State.modDie_memWf
            (untGive_memWf h))))
  · split
    · dsimp only
      split
      · exact h
      · exact ite_wf (State.modDie_memWf h) (sliceSend_memWf (State.modDie_memWf (State.modDie_memWf h)))
    · dsimp only
      split
      · exact h
      · exact ite_wf (State.modDie_memWf h) (State.modDie_memWf (State.modDie_memWf h))
theorem execL2Eviction_memWf {die} {line} {s : State} (h : s.MemWf) : OutWf (execL2Eviction die line s) := by
  unfold execL2Eviction
  exact ite_wf (State.modDie_memWf h) (ite_wf h (evictLine_memWf h))
theorem homeFill_memWf {s : State} {line} (h : s.MemWf) : (homeFill s line).MemWf := by
  unfold homeFill
  exact State.modDie_memWf h
theorem execWriteback_memWf {die} {line} {s : State} (h : s.MemWf) : OutWf (execWriteback die line s) := by
  unfold execWriteback
  exact ite_wf h (ite_wf (wakeLine_memWf (homeFill_memWf (State.modDie_memWf (State.modDie_memWf h)))) (ite_wf (State.modDie_memWf h)
      (State.modDie_memWf h)))
theorem grantRead_memWf {s : State} {d} {line} (h : s.MemWf) : (grantRead s d line).MemWf := by
  unfold grantRead
  exact State.modDie_memWf h
theorem grantOwn_memWf {s : State} {d} {line} (h : s.MemWf) : (grantOwn s d line).MemWf := by
  unfold grantOwn
  split
  · exact State.modDie_memWf (State.soil_memWf h)
  · exact State.modDie_memWf h
theorem noRetry_memWf {s : State} {d} {line} (h : s.MemWf) : (noRetry s d line).MemWf := by
  unfold noRetry
  exact State.modDie_memWf h
theorem served_memWf {s : State} {d} {line} (h : s.MemWf) : (served s d line).MemWf := by
  unfold served
  exact serveWaits_memWf (noRetry_memWf h)
theorem give_memWf {s : State} {a} {line} {own} (h : s.MemWf) : (give s a line own).MemWf := by
  unfold give
  split
  · exact served_memWf (ite_wf h (ite_wf (grantOwn_memWf h) (grantRead_memWf h)))
  · exact sliceSend_memWf h
theorem refuseDir_memWf {s : State} {a} {line} {kind} {stamp} {backoff} (h : s.MemWf) : (refuseDir s a line kind stamp backoff).MemWf := by
  unfold refuseDir
  dsimp only
  split
  · exact State.modDie_memWf (noRetry_memWf (State.modDie_memWf h))
  · exact sliceSend_memWf (State.modDie_memWf h)
theorem dirSnoop_memWf {s : State} {a} {line} (h : s.MemWf) : (dirSnoop s a line).MemWf := by
  unfold dirSnoop
  split
  · exact State.modDie_memWf h
  · exact sliceSend_memWf (State.modDie_memWf h)
theorem dirRequest_memWf {s : State} {a} {line} {kind} {stamp} {backoff} (h : s.MemWf) : (dirRequest s a line kind stamp backoff).MemWf := by
  unfold dirRequest
  refine ite_wf (refuseDir_memWf h) ?_
  refine ite_wf (dirSnoop_memWf h) ?_
  split
  · dsimp only
    split
    · split
      · exact dirSend_memWf (noRetry_memWf (State.modDie_memWf h))
      · exact dirSend_memWf (State.modDie_memWf h)
      · exact give_memWf (State.modDie_memWf h)
    · exact give_memWf (State.modDie_memWf h)
    · split
      · exact dirSend_memWf (noRetry_memWf (State.modDie_memWf h))
      · exact dirSend_memWf (State.modDie_memWf h)
      · exact give_memWf (State.modDie_memWf h)
    · split
      · exact dirSend_memWf (noRetry_memWf (State.modDie_memWf h))
      · exact dirSend_memWf (State.modDie_memWf h)
      · exact give_memWf (State.modDie_memWf h)
  · dsimp only
    split
    · split
      · exact dirSend_memWf (noRetry_memWf (State.modDie_memWf h))
      · exact dirSend_memWf (State.modDie_memWf h)
      · exact give_memWf (State.modDie_memWf h)
    · exact give_memWf (State.modDie_memWf h)
    · split
      · exact dirSend_memWf (noRetry_memWf (State.modDie_memWf h))
      · exact dirSend_memWf (State.modDie_memWf h)
      · exact give_memWf (State.modDie_memWf h)
    · split
      · exact dirSend_memWf (noRetry_memWf (State.modDie_memWf h))
      · exact dirSend_memWf (State.modDie_memWf h)
      · exact give_memWf (State.modDie_memWf h)
theorem execDirectoryRequest_memWf {die} {line} {kind} {s : State} (h : s.MemWf) : OutWf (execDirectoryRequest die line kind s) := by
  unfold execDirectoryRequest
  exact ite_wf (ite_wf (homeAsk_memWf h) h) (ite_wf (dirRequest_memWf h) h)
theorem execDirectoryRetry_memWf {die} {line} {s : State} (h : s.MemWf) : OutWf (execDirectoryRetry die line s) := by
  unfold execDirectoryRetry
  split
  · exact h
  · exact ite_wf h (dirRequest_memWf (State.modDie_memWf h))
theorem execGoMessage_memWf {line} {s : State} (h : s.MemWf) : OutWf (execGoMessage line s) := by
  unfold execGoMessage
  dsimp only
  split
  · exact h
  · refine ite_wf h ?_
    split
    · exact sliceSend_memWf (State.modDie_memWf h)
    · exact State.modDie_memWf (State.modDie_memWf h)
theorem execReservationTimeout_memWf {line} {s : State} (h : s.MemWf) : OutWf (execReservationTimeout line s) := by
  unfold execReservationTimeout
  exact ite_wf h (State.modDie_memWf h)
theorem endForward_memWf {s : State} {line} {a} {sh} (h : s.MemWf) : (endForward s line a sh).MemWf := by
  unfold endForward
  exact wakeLine_memWf (give_memWf (homeFill_memWf (State.modDie_memWf h)))
theorem execForward_memWf {line} {s : State} (h : s.MemWf) : OutWf (execForward line s) := by
  unfold execForward
  dsimp only
  split
  · exact endForward_memWf (State.modDie_memWf h)
  · exact h
theorem ackInvalid_memWf {s : State} {a} {line} (h : s.MemWf) : (ackInvalid s a line).MemWf := by
  unfold ackInvalid
  dsimp only
  split
  · exact wakeLine_memWf (give_memWf (State.modDie_memWf h))
  · exact State.modDie_memWf h
theorem execInvalidation_memWf {die} {line} {s : State} (h : s.MemWf) : OutWf (execInvalidation die line s) := by
  unfold execInvalidation
  exact ite_wf h (ackInvalid_memWf (State.modDie_memWf h))
theorem execBackInvalidateSnoop_memWf {line} {s : State} (h : s.MemWf) : OutWf (execBackInvalidateSnoop line s) := by
  unfold execBackInvalidateSnoop
  exact ite_wf (State.modDie_memWf h) h
theorem execBisnpResponse_memWf {line} {dirty} {s : State} (h : s.MemWf) : OutWf (execBisnpResponse line dirty s) := by
  unfold execBisnpResponse
  refine ite_wf h ?_
  show State.MemWf _
  refine wakeLine_memWf ?_
  split
  · exact ite_wf (State.modDie_memWf (State.hbmWrite_memWf (State.noteOuter_memWf (recallAll_memWf (State.setDie_memWf (State.modDie_memWf h))))))
        (State.modDie_memWf h)
  · exact State.modDie_memWf h
theorem noSnoop_memWf {s : State} {line} (h : s.MemWf) : (noSnoop s line).MemWf := by
  unfold noSnoop
  exact memWf_same rfl rfl h
theorem keepSnoop_memWf {s : State} {t : State} (hs : s.MemWf) (ht : t.MemWf) : (keepSnoop s t).MemWf := by
  unfold keepSnoop
  exact memWf_same rfl rfl ht
theorem outLine_memWf {s : State} {pa} {bs} (h : s.MemWf) : AllWf State.MemWf (outLine s pa bs) := by
  unfold outLine
  refine ite_wf (ite_wf (P := AllWf State.MemWf) trivial (untClean_memWf (State.noteOuter_memWf (foldl_wf (fun _ _ h0 => untWrite_memWf h0) _ h)))) ?_
  refine ite_wf ?_ ?_
  · exact trivial
  · split
    · exact State.hbmWrite_memWf (State.noteOuter_memWf (ExceptWf.get (storeForeign_memWf h) (by assumption)))
    · exact trivial
theorem hostLine_memWf {s : State} {pa} {bs} (h : s.MemWf) : AllWf State.MemWf (hostLine s pa bs) := by
  unfold hostLine
  exact map_wf (fun _ e => keepSnoop_memWf h (AllWf.get (outLine_memWf (noSnoop_memWf h)) e))
theorem outNib_memWf {s : State} {src} {w} {pa} {bs} (h : s.MemWf) : FstWf (outNib s src w pa bs) := by
  unfold outNib
  exact State.setCore_memWf h
theorem outTrace_memWf {s : State} {x1} {src} {w} {pa} {n} (h : s.MemWf) : FstWf (outTrace s x1 src w pa n) := by
  unfold outTrace
  refine ite_wf h ?_
  split
  · exact h
  · exact h
  · exact ite_wf (State.modCore_memWf h) (State.modCore_memWf h)
theorem hostNote_memWf {s : State} {line} {modified} (h : s.MemWf) : (hostNote s line modified).MemWf := by
  unfold hostNote
  exact ite_wf h (State.modDie_memWf h)
theorem hostRun_memWf {pa} {bs} {s : Option (State × Bool)} {r} (h : AllWf FstWf s) : AllWf FstWf (hostRun pa bs s r) := by
  unfold hostRun
  refine bind_wf fun x hx => ?_
  have hw : FstWf x := AllWf.get h hx
  obtain ⟨u, bad⟩ := x
  dsimp only
  split
  · exact outNib_memWf hw
  · exact map_wf fun t ht => AllWf.get (P := State.MemWf) (hostLine_memWf hw) ht
theorem outPut_memWf {s : State} {x1} {g} {off} {bs} {pasid} (h : s.MemWf) : (outPut s x1 g off bs pasid).MemWf := by
  unfold outPut
  exact ite_wf (State.modCore_memWf h) (State.modCore_memWf (State.noteOuter_memWf h))
theorem hostAnswer_memWf {s : State} {a} (h : s.MemWf) : (hostAnswer s a).MemWf := by
  unfold hostAnswer
  exact memWf_same rfl rfl h
theorem hostMemRead_memWf {s : State} {pa} {n} (h : s.MemWf) : AllWf FstWf (hostMemRead s pa n) := by
  unfold hostMemRead
  dsimp only
  split
  · exact h
  · split
    · exact keepSnoop_memWf h (ExceptWf.get_fst (l2Read_memWf (noSnoop_memWf h)) (by assumption))
    · exact trivial
theorem hostReadRun_memWf {u : State} {src : BitVec 16} {bs : List (Byte × Bool)} {pa} (l : List ((Nat × Nat) × Option
    (Nat × Nat × Bool × Nat × Nat)))
    {v : List NibRd} (h : u.MemWf) : FstWf (l.foldl (fun (x : State × List NibRd) r => match r.2 with
      | none => (x.1, x.2 ++ [.bytes ((bs.drop (r.1.1 - pa)).take r.1.2)])
      | some w => let (s, v) := outTrace x.1 384 src w r.1.1 r.1.2; (s, x.2 ++ [v])) (u, v)) := by
  refine foldl_wf (P := FstWf) (fun x r hx => ?_) l h
  split
  · exact hx
  · exact outTrace_memWf hx
theorem hostRead_memWf {s : State} {pa} {n} (h : s.MemWf) : (hostRead s pa n).MemWf := by
  have hm : AllWf FstWf (if (hostRuns s pa n).any (·.2.isNone) then hostMemRead s pa n else some (s, [])) :=
    ite_wf (P := AllWf FstWf) (hostMemRead_memWf h) h
  unfold hostRead
  dsimp only
  split
  · exact homeAsk_memWf h
  · next t bs he =>
    have ht : t.MemWf := AllWf.get_fst hm he
    have hn : (if (hostRuns s pa n).any (·.2.isNone) then hostNote t (lineOf pa) false else t).MemWf := ite_wf (hostNote_memWf ht) ht
    generalize (if (hostRuns s pa n).any (·.2.isNone) then hostNote t (lineOf pa) false else t) = u at hn ⊢
    have hf := hostReadRun_memWf (src := hostSource u) (bs := bs) (pa := pa) (hostRuns s pa n) (v := []) hn
    exact ite_wf (P := State.MemWf) (hostAnswer_memWf hf) (ite_wf (P := State.MemWf) hf (hostAnswer_memWf hf))
theorem hostWrite_memWf {s : State} {pa} {bs} (h : s.MemWf) : (hostWrite s pa bs).MemWf := by
  have hr : AllWf FstWf ((hostRuns s pa bs.length).foldl (hostRun pa bs) (some (s, false))) :=
    foldl_wf (P := AllWf FstWf) (fun _ _ h1 => hostRun_memWf h1) _ h
  unfold hostWrite
  dsimp only
  split
  · next t bad he =>
    have ht : t.MemWf := AllWf.get_fst hr he
    exact hostAnswer_memWf (ite_wf (hostNote_memWf ht) ht)
  · exact homeAsk_memWf h
theorem hostAtomic_memWf {s : State} {pa} {size} {op} (h : s.MemWf) : (hostAtomic s pa size op).MemWf := by
  unfold hostAtomic
  refine ite_wf (hostAnswer_memWf h) ?_
  refine ite_wf (homeAsk_memWf h) ?_
  split
  · exact hostAnswer_memWf (hostNote_memWf h)
  · exact getD_wf (map_wf (fun _ e3 => hostAnswer_memWf (hostNote_memWf (AllWf.get (hostLine_memWf h) e3)))) h
theorem hostCopy_memWf {s : State} {line} {modified} (h : s.MemWf) : (hostCopy s line modified).MemWf := by
  unfold hostCopy
  exact ite_wf h (ite_wf (homeAsk_memWf h) (hostAnswer_memWf (hostNote_memWf (ite_wf (recallAll_memWf h) (recallRead_memWf h)))))
theorem hostWindow_memWf {s : State} {g} {off} {x3} (h : s.MemWf) : (hostWindow s g off x3).MemWf := by
  unfold hostWindow
  split
  · exact ite_wf (hostAnswer_memWf h) (hostAnswer_memWf (State.winSee_memWf h))
  · exact ite_wf (hostAnswer_memWf h) (hostAnswer_memWf (outPut_memWf h))
  · refine ite_wf (hostAnswer_memWf h) ?_
    refine ite_wf h ?_
    split
    · split
      · exact outPut_memWf (hostAnswer_memWf h)
      · exact hostAnswer_memWf h
  · exact hostAnswer_memWf h
theorem execHostAccess_memWf {r} {s : State} (h : s.MemWf) : OutWf (execHostAccess r s) := by
  unfold execHostAccess
  refine ite_wf (hostAnswer_memWf h) ?_
  refine ite_wf h ?_
  refine ite_wf ?_ ?_
  · show State.MemWf _
    split
    · exact hostWindow_memWf h
    · exact hostAnswer_memWf h
  · split
    · exact hostRead_memWf h
    · exact hostWrite_memWf h
    · exact ite_wf (hostAtomic_memWf h) (hostAnswer_memWf h)
    · exact ite_wf (hostAnswer_memWf h) (hostCopy_memWf h)
theorem execCxlCacheSnoop_memWf {x0} {s : State} (h : s.MemWf) : OutWf (execCxlCacheSnoop x0 s) := by
  unfold execCxlCacheSnoop
  exact h

/-! ### The host port -/

theorem bar0_memWf {s : State} {t : State} (hs : s.MemWf) (ht : t.MemWf) : OutWf (bar0 s t) := by
  unfold bar0
  exact ite_wf ht hs
theorem execH2dBell_memWf {v} {s : State} (h : s.MemWf) : OutWf (execH2dBell v s) := by
  unfold execH2dBell
  exact bar0_memWf h (memWf_same rfl rfl h)
theorem execH2dEntryRecheck_memWf {s : State} (h : s.MemWf) : OutWf (execH2dEntryRecheck s) := by
  unfold execH2dEntryRecheck
  split
  · exact h
  · exact ite_wf h (h2dRefuse_memWf h)
theorem execH2dRingConfig_memWf {size} {v} {s : State} (h : s.MemWf) : OutWf (execH2dRingConfig size v s) := by
  unfold execH2dRingConfig
  exact bar0_memWf h (memWf_same rfl rfl h)
theorem execD2hRingConfig_memWf {size} {v} {s : State} (h : s.MemWf) : OutWf (execD2hRingConfig size v s) := by
  unfold execD2hRingConfig
  exact bar0_memWf h (memWf_same rfl rfl h)
theorem execD2hAck_memWf {v} {s : State} (h : s.MemWf) : OutWf (execD2hAck v s) := by
  unfold execD2hAck
  exact bar0_memWf h (memWf_same rfl rfl h)
theorem hostPost_memWf {s : State} {a} {e} (h : s.MemWf) : (hostPost s a e).MemWf := by
  unfold hostPost
  exact memWf_wrHost rfl rfl h
theorem execD2hWrite_memWf {s : State} (h : s.MemWf) : OutWf (execD2hWrite s) := by
  unfold execD2hWrite
  refine ite_wf (P := OutWf) h ?_
  dsimp only
  split
  · exact h
  · next m _ =>
    have hp := fun a => hostPost_memWf (a := a) (e := m.2) h
    exact memWf_same rfl rfl (hp _)
theorem execRootcap_memWf {s : State} (h : s.MemWf) : OutWf (execRootcap s) := by
  unfold execRootcap
  exact onH2d_memWf h (fun _ _ h0 => memWf_same rfl rfl h0)
theorem execTwinConfigure_memWf {s : State} (h : s.MemWf) : OutWf (execTwinConfigure s) := by
  unfold execTwinConfigure
  exact onH2dOp_memWf h (fun _ _ h0 => ite_wf (P := AllWf State.MemWf) trivial (memWf_same rfl rfl h0))
theorem execTwinDissolve_memWf {s : State} (h : s.MemWf) : OutWf (execTwinDissolve s) := by
  unfold execTwinDissolve
  exact onH2dOp_memWf h (fun _ _ h0 => ite_wf (P := AllWf State.MemWf) (memWf_same rfl rfl h0) trivial)
theorem modeEffect_memWf {s : State} {e : BitVec 512} (h : s.MemWf) : AllWf State.MemWf (modeEffect s e) := by
  unfold modeEffect
  refine ite_wf (P := AllWf State.MemWf) trivial ?_
  have ha := ite_wf (P := State.MemWf) (c := (e.getLsbD 51 && !anyAssisted s) = true) (memWf_same (t := { s with assist := { s.assist with
          abase := e.extractLsb' 64 64, asize := fld e 52 4, a2dBell := s.assist.a2dRx, d2aTx := s.assist.d2aAck } }) rfl rfl h) h
  exact memWf_same rfl rfl ha
theorem execMode_memWf {s : State} (h : s.MemWf) : OutWf (execMode s) := by
  rw [execMode_eq]
  exact onH2d_memWf h fun _ _ h0 => modeEffect_memWf h0
theorem execModeChange_memWf {func} {s : State} (h : s.MemWf) : OutWf (execModeChange func s) := by
  unfold execModeChange
  split
  · exact h
  · exact ite_wf h (memWf_same rfl rfl h)
theorem execPodbarAllot_memWf {s : State} (h : s.MemWf) : OutWf (execPodbarAllot s) := by
  unfold execPodbarAllot
  exact onH2dOp_memWf h (fun _ _ h0 => ite_wf (podForward_memWf h0) (podGive_memWf h0))
theorem execPodbarRelease_memWf {s : State} (h : s.MemWf) : OutWf (execPodbarRelease s) := by
  unfold execPodbarRelease
  exact onH2dOp_memWf h (fun _ _ h0 => ite_wf (podForward_memWf h0) (podTake_memWf h0))
theorem poisonLine_memWf {s : State} {line} (h : s.MemWf) : (poisonLine s line).MemWf := by
  have hd : (dropCopies (recallAll s line) (line * 128) 128).MemWf := dropCopies_memWf (recallAll_memWf h)
  unfold poisonLine
  generalize dropCopies (recallAll s line) (line * 128) 128 = u at hd ⊢
  exact memWf_same (s := u) rfl rfl hd
theorem poisonLost_memWf {s : State} (l : List Nat) (h : s.MemWf) :
    (l.foldl (fun s l => reportError (poisonLine s l) 1 0x206 (unitSource s 0 176) (l * 128) 0 none) s).MemWf :=
  foldl_wf (P := State.MemWf) (fun _ _ h0 => reportError_memWf (poisonLine_memWf h0)) l h
theorem lostTickets_memWf {s : State} (l : List Nat) (h : s.MemWf) :
    (l.foldl (fun s d => ((s.die d).own.filter hostPhase).foldl (fun s r => postNotice s d r stLinklost) s) s).MemWf :=
  foldl_wf (P := State.MemWf) (fun _ d h0 => foldl_wf (P := State.MemWf) (fun _ _ h1 => postNotice_memWf h1) _ h0) l h
theorem execHostLinkLoss_memWf {unacked} {s : State} (h : s.MemWf) : OutWf (execHostLinkLoss unacked s) := by
  unfold execHostLinkLoss
  refine ite_wf (P := OutWf) h ?_
  extract_lets held n last q s1 s2 s3 s4 s5
  have h1 : s1.MemWf := memWf_same (s := s) rfl rfl h
  have h2 : s2.MemWf := memWf_same (s := s1) rfl rfl h1
  have h3 : s3.MemWf := poisonLost_memWf _ h2
  clear_value s3
  have h4 : s4.MemWf := lostTickets_memWf _ h3
  clear_value s4
  exact foldl_wf (P := State.MemWf) (fun _ _ h0 => wakeLine_memWf h0) _ (memWf_same (s := s4) rfl rfl h4)
theorem execHostLinkReturn_memWf {width} {speed} {s : State} (h : s.MemWf) : OutWf (execHostLinkReturn width speed s) := by
  unfold execHostLinkReturn
  exact ite_wf h (memWf_same rfl rfl h)
theorem execA2dBell_memWf {v} {s : State} (h : s.MemWf) : OutWf (execA2dBell v s) := by
  unfold execA2dBell
  exact bar0_memWf h (memWf_same rfl rfl h)
theorem execD2aAck_memWf {v} {s : State} (h : s.MemWf) : OutWf (execD2aAck v s) := by
  unfold execD2aAck
  exact bar0_memWf h (memWf_same rfl rfl h)
theorem raiseLate_memWf {s : State} (l : List (Nat × Nat × Nat × Nat)) (h : s.MemWf) : (l.foldl (fun s r => if assistRoom s then
      raiseContain { s with assist := { s.assist with late := s.assist.late.drop 1 } } r.1 r.2.1 r.2.2.1 r.2.2.2
    else s) s).MemWf := by
  refine foldl_wf (P := State.MemWf) (fun u r hu => ?_) l h
  exact ite_wf (P := State.MemWf) (raiseContain_memWf (memWf_same (s := u) rfl rfl hu)) hu
theorem raiseReady_memWf {s : State} (d : Nat) (g : Graph) (l : List Nat) (h : s.MemWf) :
    (l.foldl (fun s i => match g.nodes[i]? with
      | some x => if x.release then askReady s d g.id i else s
      | none => s) s).MemWf := by
  refine foldl_wf (P := State.MemWf) (fun u i hu => ?_) l h
  split
  · exact ite_wf (P := State.MemWf) (askReady_memWf hu) hu
  · exact hu
theorem raiseWaiting_memWf {s : State} (h : s.MemWf) : (raiseWaiting s).MemWf := by
  have hl := raiseLate_memWf s.assist.late h
  unfold raiseWaiting
  dsimp only
  exact foldl_wf (P := State.MemWf) (fun u d hu => foldl_wf (P := State.MemWf) (fun v g hv => raiseReady_memWf d g _ hv) _ hu) _ hl
theorem assistWrite_memWf {t : State} (h : t.MemWf) : OutWf (assistWrite t) := by
  unfold assistWrite
  refine ite_wf (P := OutWf) h ?_
  dsimp only
  split
  · exact h
  · next m _ =>
    have hp := fun a => hostPost_memWf (a := a) (e := m.2) h
    exact memWf_same rfl rfl (hp _)
theorem execAssistRequestWrite_memWf {s : State} (h : s.MemWf) : OutWf (execAssistRequestWrite s) := by
  have hr : (raiseWaiting s).MemWf := raiseWaiting_memWf h
  rw [execAssistRequestWrite_eq]
  generalize raiseWaiting s = u at hr ⊢
  exact assistWrite_memWf hr
theorem dropPend_memWf {s : State} {r} (h : s.MemWf) : (dropPend s r).MemWf := by
  unfold dropPend
  exact memWf_same rfl rfl h
theorem execFaultans_memWf {s : State} (h : s.MemWf) : OutWf (execFaultans s) := by
  unfold execFaultans
  exact onA2d_memWf h (fun _ _ h0 => map_wf (fun _ e1 => postNotice_memWf (dropPend_memWf h0)))
theorem execReadyans_memWf {s : State} (h : s.MemWf) : OutWf (execReadyans s) := by
  unfold execReadyans
  refine onA2d_memWf h (fun _ _ h0 => ?_)
  refine bind_wf (fun _ e3 => ?_)
  split
  · exact endGraphs_memWf (setReady_memWf (dropPend_memWf h0))
  · exact trivial
theorem execAllocans_memWf {s : State} (h : s.MemWf) : OutWf (execAllocans s) := by
  unfold execAllocans
  refine onA2d_memWf h (fun _ _ h0 => ?_)
  refine bind_wf (fun _ e3 => ?_)
  split
  · exact answer_memWf (dropPend_memWf h0)
  · exact trivial
theorem execContainans_memWf {s : State} (h : s.MemWf) : OutWf (execContainans s) := by
  unfold execContainans
  refine onA2d_memWf h fun u e hu => bind_wf fun r _ => ?_
  split
  · refine ite_wf (P := State.MemWf) (endTask_memWf (dropPend_memWf hu)) (memWf_same (s := u) rfl rfl hu)
  · trivial
theorem execRegisterWrite_memWf {off} {v} {s : State} (h : s.MemWf) : OutWf (execRegisterWrite off v s) := by
  unfold execRegisterWrite
  split
  · exact execH2dRingConfig_memWf h
  · exact execH2dRingConfig_memWf h
  · exact execH2dBell_memWf h
  · exact execD2hRingConfig_memWf h
  · exact execD2hRingConfig_memWf h
  · exact execD2hAck_memWf h
  · exact execA2dBell_memWf h
  · exact execD2aAck_memWf h
  · exact h

/-! ### The other devices of the pod -/

theorem reply_memWf {s : State} {m} {unit} (h : s.MemWf) : (reply s m unit).MemWf := by
  unfold reply
  exact originate_memWf h
theorem peerTicket_memWf {s : State} {m} {pasid} {va} {need} (h : s.MemWf) : (peerTicket s m pasid va need).MemWf := by
  unfold peerTicket
  refine ite_wf h ?_
  split
  · exact h
  · exact ite_wf (raiseAssist_memWf (AllWf.get_fst (newRec_memWf h) (by assumption))) (AllWf.get_fst (newRec_memWf h) (by assumption))
theorem peerXlat_memWf {s : State} {m} {pasid} {va} {need} (h : s.MemWf) : XlatWf (peerXlat s m pasid va need) := by
  unfold peerXlat
  refine ite_wf ?_ ?_
  · exact trivial
  · split
    · exact ite_wf (P := XlatWf) trivial trivial
    · split
      · exact ite_wf (P := XlatWf) trivial trivial
      · exact reply_memWf (peerTicket_memWf h)
theorem peerAccess_memWf {s : State} {m} {kind} {ty} {pasid} {x} {pa} {size} {data} {cmp} (h : s.MemWf) :
    AllWf State.MemWf (peerAccess s m kind ty pasid x pa size data cmp) := by
  unfold peerAccess
  dsimp only
  refine ite_wf (P := AllWf State.MemWf) ?_ (ite_wf (P := AllWf State.MemWf) ?_ (ite_wf (P := AllWf State.MemWf) ?_
    (ite_wf (P := AllWf State.MemWf) ?_ h)))
  · refine ite_wf (P := AllWf State.MemWf) h ?_
    split
    · exact outLine_memWf h
    · refine ite_wf (P := AllWf State.MemWf) (ite_wf (P := AllWf State.MemWf) trivial h) ?_
      split
      · exact ExceptWf.get_fst (l2Read_memWf h) (by assumption)
      · trivial
  · refine foldl_wf (P := State.MemWf) (fun u r hu => ?_) _ h
    split
    · exact ite_wf (P := State.MemWf) (outNib_memWf hu) (ite_wf (P := State.MemWf) hu (outTrace_memWf hu))
    · exact hu
  · split
    · exact h
    · refine ite_wf (P := AllWf State.MemWf) h (ite_wf (P := AllWf State.MemWf) trivial ?_)
      split
      · exact outPut_memWf h
      · exact h
  · show State.MemWf _
    split
    · refine ite_wf (P := State.MemWf) h ?_
      have hn : (State.noteOuter s (hostMark (lineOf pa))).MemWf := State.noteOuter_memWf h
      exact ite_wf (P := State.MemWf) (memWf_wrHost rfl rfl hn) (memWf_same rfl rfl hn)
    · exact h
theorem peerData_memWf {s : State} {line} {data} {pois} (h : s.MemWf) : AllWf State.MemWf (peerData s line data pois) := by
  unfold peerData
  exact ite_wf (P := AllWf State.MemWf) trivial (putLine_memWf (State.setDie_memWf h))
theorem peerWriteback_memWf {s : State} {a} {line} {data} {pois} (h : s.MemWf) : AllWf State.MemWf (peerWriteback s a line data pois) := by
  unfold peerWriteback
  exact ite_wf (map_wf (fun _ e => wakeLine_memWf (homeFill_memWf (State.modDie_memWf (AllWf.get (peerData_memWf h) e))))) (ite_wf
      (State.modDie_memWf h) h)
theorem peerForwarded_memWf {s : State} {a} {line} {data} {pois} (h : s.MemWf) : AllWf State.MemWf (peerForwarded s a line data pois) := by
  unfold peerForwarded
  dsimp only
  split
  · exact ite_wf h (map_wf (fun _ e1 => endForward_memWf (AllWf.get (peerData_memWf h) e1)))
  · exact h
theorem peerInvalidated_memWf {s : State} {a} {line} {data} (h : s.MemWf) : AllWf State.MemWf (peerInvalidated s a line data) := by
  unfold peerInvalidated
  refine ite_wf (P := AllWf State.MemWf) h (map_wf fun t ht => ackInvalid_memWf ?_)
  split at ht
  · exact AllWf.get (P := State.MemWf) (peerData_memWf h) ht
  · cases ht
    exact h
theorem homeInvalidate_memWf {s : State} {m} {d} {pick} (h : s.MemWf) : AllWf State.MemWf (homeInvalidate s m d pick) := by
  unfold homeInvalidate
  split
  · exact reply_memWf h
  · exact ite_wf (P := AllWf State.MemWf) trivial (reply_memWf (State.modDie_memWf h))
theorem homeForward_memWf {s : State} {m} {d} {pick} (h : s.MemWf) : (homeForward s m d pick).MemWf := by
  unfold homeForward
  split
  · exact reply_memWf h
  · exact reply_memWf (State.modDie_memWf h)
theorem homeAcked_memWf {s : State} {m} {d} {pick} (h : s.MemWf) : (homeAcked s m d pick).MemWf := by
  unfold homeAcked
  dsimp only
  split
  · exact h
  · exact State.modDie_memWf h
theorem podHear_memWf {s : State} {m} {n} {phase} {pasid} (h : s.MemWf) : (podHear s m n phase pasid).MemWf := by
  unfold podHear
  exact ite_wf h (wakeBar_memWf (memWf_same rfl rfl h))
theorem podPeer_memWf {s : State} {m} {n} {count} (h : s.MemWf) : (podPeer s m n count).MemWf := by
  unfold podPeer
  exact ite_wf (reply_memWf h) (reply_memWf (podArrive_memWf h))
theorem peerNib_memWf {s : State} {m} {core} {ni} {trace} {store} {agent} {off} {size} {data} (h : s.MemWf) :
    (peerNib s m core ni trace store agent off size data).MemWf := by
  unfold peerNib
  dsimp only
  refine ite_wf (P := State.MemWf) (ite_wf (P := State.MemWf) (reply_memWf (outNib_memWf h)) ?_) (reply_memWf h)
  exact ite_wf (P := State.MemWf) (outTrace_memWf h) (reply_memWf (outTrace_memWf h))
theorem servePeer_memWf {s : State} {m} (h : s.MemWf) : AllWf State.MemWf (servePeer s m) := by
  unfold servePeer
  split
  · exact h
  · refine ite_wf h ?_
    split
    · exact reply_memWf h
    · exact XlatWf.get (peerXlat_memWf h) (by assumption)
    · exact map_wf (fun _ e3 => ite_wf (AllWf.get (peerAccess_memWf h) e3) (reply_memWf (AllWf.get (peerAccess_memWf h) e3)))
  · split
    · exact reply_memWf h
    · exact XlatWf.get (peerXlat_memWf h) (by assumption)
    · exact ite_wf (reply_memWf h) (dirRequest_memWf h)
  · exact map_wf (fun _ e1 => reply_memWf (AllWf.get (peerWriteback_memWf h) e1))
  · exact peerInvalidated_memWf h
  · exact peerForwarded_memWf h
  · exact homeInvalidate_memWf h
  · exact homeForward_memWf h
  · exact podPeer_memWf h
  · show State.MemWf _
    refine reply_memWf ?_
    refine ite_wf h ?_
    refine getD_wf ?_ h
    split
    · exact podGive_memWf h
    · exact podTake_memWf h
  · exact podHear_memWf h
  · exact homeAcked_memWf h
  · exact peerNib_memWf h
theorem peerBegin_memWf {s : State} {m} (h : s.MemWf) : (peerBegin s m).MemWf := by
  unfold peerBegin
  split
  · split
    · exact ite_wf h (ite_wf (State.modDie_memWf h) (ite_wf (homeAsk_memWf h) h))
    · exact h
    · exact h
  · exact h
theorem servePeers_memWf {s : State} (h : s.MemWf) : (servePeers s).MemWf := by
  unfold servePeers
  refine foldl_wf (P := FstWf) (fun x m hx => ?_) s.peerQ h
  refine ite_wf (P := FstWf) hx ?_
  split
  · next t ht =>
    have ht := AllWf.get (P := State.MemWf) (servePeer_memWf hx) ht
    exact memWf_same rfl rfl ht
  · exact peerBegin_memWf hx
theorem execHeldWriteRelease_memWf {die} {s : State} (h : s.MemWf) : OutWf (execHeldWriteRelease die s) := by
  unfold execHeldWriteRelease
  exact servePeers_memWf (foldl_wf (fun _ _ h0 => serveWaits_memWf h0) _ h)

/-! ### The pod links -/

theorem resend_memWf {s : State} {x} (h : s.MemWf) : (resend s x).MemWf := by
  unfold resend
  exact foldl_wf (fun _ _ h0 => sendRouted_memWf h0) _ h
theorem reroute_memWf {old : State} {s : State} (hold : old.MemWf) (hs : s.MemWf) : (reroute old s).MemWf := by
  unfold reroute
  exact foldl_wf (fun _ _ h0 => ite_wf (resend_memWf h0) h0) _ hs
theorem setLink_memWf {s : State} {p} {st} {f} (hs : s.MemWf) : (setLink s p st f).MemWf := by
  unfold setLink
  exact reroute_memWf hs (ite_wf (State.modPort_memWf hs) (d2hOrDrop_memWf (State.modPort_memWf hs)))
theorem portDown_memWf {s : State} {p} (h : s.MemWf) : (portDown s p).MemWf := by
  unfold portDown
  exact setLink_memWf h
theorem portTrain_memWf {s : State} {p} {own} (h : s.MemWf) : (portTrain s p own).MemWf := by
  unfold portTrain
  exact setLink_memWf h
theorem sendCtl_memWf {s : State} {p} {kind} {payload} (h : s.MemWf) : (sendCtl s p kind payload).MemWf := by
  unfold sendCtl
  exact State.modPort_memWf h
theorem keepRefused_memWf {s : State} {r} {bad} (h : s.MemWf) : (keepRefused s r bad).MemWf := by
  unfold keepRefused
  split
  · exact ite_wf h (State.modWarp_memWf h)
  · exact h
theorem dropRemote_memWf {s : State} {r} (h : s.MemWf) : (dropRemote s r).MemWf := by
  unfold dropRemote
  exact memWf_same rfl rfl h
theorem dropOut_memWf {s : State} {r} (h : s.MemWf) : (dropOut s r).MemWf := by
  unfold dropOut
  split
  · exact State.modWarp_memWf (dropRemote_memWf h)
  · exact dropRemote_memWf h
theorem remotePerf_memWf {s : State} {r} (h : s.MemWf) : AllWf PerfWf (remotePerf s r) := by
  unfold remotePerf
  exact ite_wf (ite_wf (ite_wf (P := AllWf PerfWf) trivial (keepRefused_memWf (ite_wf (noteRead_memWf (ite_wf (noteWrite_memWf (noteStore_memWf
      (ite_wf (noteSee_memWf (foldl_wf (fun _ _ h0 => State.modDie_memWf h0) _ h)) (foldl_wf (fun _ _ h0 => State.modDie_memWf h0) _ h)))) (ite_wf
      (noteSee_memWf (foldl_wf (fun _ _ h0 => State.modDie_memWf h0) _ h)) (foldl_wf (fun _ _ h0 => State.modDie_memWf h0) _ h)))) (ite_wf
      (noteWrite_memWf (noteStore_memWf (ite_wf (noteSee_memWf (foldl_wf (fun _ _ h0 => State.modDie_memWf h0) _ h)) (foldl_wf (fun _ _ h0 =>
      State.modDie_memWf h0) _ h)))) (ite_wf (noteSee_memWf (foldl_wf (fun _ _ h0 => State.modDie_memWf h0) _ h)) (foldl_wf (fun _ _ h0 =>
      State.modDie_memWf h0) _ h)))))) (map_wf (fun _ e => perfPhys_memWf (AllWf.get (peerGrant_memWf h) e)))) (ite_wf (perfPhys_memWf
      (peerUnt_memWf h)) (keepRefused_memWf (ite_wf (noteRead_memWf (ite_wf (noteWrite_memWf (noteStore_memWf (ite_wf (noteSee_memWf h) h)))
      (ite_wf (noteSee_memWf h) h))) (ite_wf (noteWrite_memWf (noteStore_memWf (ite_wf (noteSee_memWf h) h))) (ite_wf (noteSee_memWf h) h)))))
theorem endRemote_memWf {s : State} {r} {st} (h : s.MemWf) : (endRemote s r st).MemWf := by
  unfold endRemote
  split
  · refine ite_wf (P := State.MemWf) (ite_wf (P := State.MemWf) (dropRemote_memWf h) (finishOut_memWf (dropRemote_memWf h))) ?_
    split
    · exact h
    · have hp := PerfWf.get_done (AllWf.get (remotePerf_memWf (dropRemote_memWf h)) (by assumption)) rfl
      exact ite_wf (P := State.MemWf) hp (finishOut_memWf hp)
    · exact holdAt_memWf (PerfWf.get_hold (AllWf.get (remotePerf_memWf (dropRemote_memWf h)) (by assumption)) rfl)
    · exact PerfWf.get_away (AllWf.get (remotePerf_memWf (dropRemote_memWf h)) (by assumption)) rfl
  · exact dropRemote_memWf h
theorem peerAnswer_memWf {s : State} {dev} (h : s.MemWf) : (peerAnswer s dev).MemWf := by
  unfold peerAnswer
  split
  · exact h
  · exact ite_wf (dropRemote_memWf h) (ite_wf (State.modCore_memWf (dropOut_memWf h)) (endRemote_memWf h))
theorem deliverPacket_memWf {s : State} {die} {src} {cls} (h : s.MemWf) : (deliverPacket s die src cls).MemWf := by
  unfold deliverPacket
  dsimp only
  split
  · exact peerAnswer_memWf h
  · exact servePeers_memWf (memWf_same rfl rfl h)
theorem sendAck_memWf {s : State} {i} (h : s.MemWf) : (sendAck s i).MemWf := by
  unfold sendAck
  exact sendRouted_memWf (State.setStream_memWf h)
theorem deliver_memWf {s : State} {die} {f} (h : s.MemWf) : (deliver s die f).MemWf := by
  unfold deliver
  exact ite_wf h (deliverPacket_memWf (ite_wf (sendAck_memWf (State.setStream_memWf h)) (State.setStream_memWf h)))
theorem execFlitReceive_memWf {port} {flit} {s : State} (h : s.MemWf) : OutWf (execFlitReceive port flit s) := by
  unfold execFlitReceive
  refine ite_wf h ?_
  refine ite_wf (sendCtl_memWf h) ?_
  refine ite_wf h ?_
  refine ite_wf (State.modPort_memWf h) ?_
  refine ite_wf (deliver_memWf (State.modPort_memWf h)) ?_
  split
  · exact sendOn_memWf (State.modPort_memWf h)
  · exact State.modPort_memWf h
theorem execNak_memWf {port} {lseq} {s : State} (h : s.MemWf) : OutWf (execNak port lseq s) := by
  unfold execNak
  exact ite_wf h (ite_wf (portTrain_memWf (reportError_memWf (State.modPort_memWf h))) (reportError_memWf (State.modPort_memWf h)))
theorem execEndToEndAck_memWf {st} {eseq} {s : State} (h : s.MemWf) : OutWf (execEndToEndAck st eseq s) := by
  unfold execEndToEndAck
  exact ite_wf (State.setStream_memWf h) h
theorem execEndToEndAckTimer_memWf {st} {s : State} (h : s.MemWf) : OutWf (execEndToEndAckTimer st s) := by
  unfold execEndToEndAckTimer
  exact ite_wf (sendAck_memWf h) h
theorem execEndToEndResend_memWf {st} {s : State} (h : s.MemWf) : OutWf (execEndToEndResend st s) := by
  unfold execEndToEndResend
  exact resend_memWf h
theorem execRetrain_memWf {port} {lanes} {speed} {s : State} (h : s.MemWf) : OutWf (execRetrain port lanes speed s) := by
  unfold execRetrain
  exact sendCtl_memWf (portTrain_memWf h)
theorem askView_memWf {s : State} {p} (h : s.MemWf) : (askView s p).MemWf := by
  unfold askView
  exact ite_wf h (raiseAssist_memWf h)
theorem execLinkView_memWf {port} {rec} {s : State} (h : s.MemWf) : OutWf (execLinkView port rec s) := by
  unfold execLinkView
  exact ite_wf h (askView_memWf (sendCtl_memWf (State.modPort_memWf h)))
theorem portUp_memWf {s : State} {p} {v} (h : s.MemWf) : (portUp s p v).MemWf := by
  unfold portUp
  exact setLink_memWf h
theorem execViewAck_memWf {port} {crcs} {s : State} (h : s.MemWf) : OutWf (execViewAck port crcs s) := by
  unfold execViewAck
  split
  · dsimp only
    split
    · refine ite_wf h ?_
      refine ite_wf h ?_
      show State.MemWf _
      split
      · exact portUp_memWf h
      · exact h
    · exact h
  · dsimp only
    split
    · exact ite_wf h (ite_wf h (portUp_memWf h))
    · exact h
theorem execViewTimeout_memWf {port} {s : State} (h : s.MemWf) : OutWf (execViewTimeout port s) := by
  unfold execViewTimeout
  exact ite_wf h (ite_wf (ite_wf h (askView_memWf h)) (portDown_memWf h))
theorem execViewans_memWf {s : State} (h : s.MemWf) : OutWf (execViewans s) := by
  unfold execViewans
  exact onA2d_memWf h (fun _ _ h0 => ite_wf (P := AllWf State.MemWf) trivial (ite_wf (portDown_memWf (dropPend_memWf h0)) (ite_wf (portUp_memWf
      (dropPend_memWf h0)) (State.modPort_memWf (dropPend_memWf h0)))))
theorem execViewAnswerTimeout_memWf {port} {s : State} (h : s.MemWf) : OutWf (execViewAnswerTimeout port s) := by
  unfold execViewAnswerTimeout
  exact ite_wf (portDown_memWf (dropPend_memWf h)) h
theorem execPodLinkDown_memWf {port} {s : State} (h : s.MemWf) : OutWf (execPodLinkDown port s) := by
  unfold execPodLinkDown
  exact ite_wf h (portDown_memWf h)
theorem execDirtyLineOffer_memWf {die} {line} {s : State} (h : s.MemWf) : OutWf (execDirtyLineOffer die line s) := by
  unfold execDirtyLineOffer
  exact ite_wf h (ite_wf (sliceSend_memWf (State.modDie_memWf h)) (State.modDie_memWf (evictLine_memWf h)))
theorem execDirtyLineDrop_memWf {die} {line} {s : State} (h : s.MemWf) : OutWf (execDirtyLineDrop die line s) := by
  unfold execDirtyLineDrop
  exact ite_wf h (reportError_memWf (State.modDie_memWf h))
theorem execHomeLinePoison_memWf {line} {s : State} (h : s.MemWf) : OutWf (execHomeLinePoison line s) := by
  unfold execHomeLinePoison
  exact ite_wf h (wakeLine_memWf (reportError_memWf (State.modDie_memWf (poisonLine_memWf h))))
theorem execUnreachableAccessTimeout_memWf {index} {s : State} (h : s.MemWf) : OutWf (execUnreachableAccessTimeout index s) := by
  unfold execUnreachableAccessTimeout
  split
  · exact h
  · exact ite_wf (endRemote_memWf h) h

/-! ### Twinned partitions -/

theorem modTwin_memWf {s : State} {pasid} {f} (hs : s.MemWf) : (modTwin s pasid f).MemWf := by
  unfold modTwin
  exact memWf_same rfl rfl hs
theorem sendHeld_memWf {s : State} {core} {slot} {a} {x} (h : s.MemWf) : (sendHeld s core slot a x).MemWf := by
  unfold sendHeld
  split
  · dsimp only
    split
    · exact finishLsu_memWf (PerfWf.get_done (perfPeer_memWf h) (by assumption))
    · exact State.modWarp_memWf (holdAt_memWf (PerfWf.get_hold (perfPeer_memWf h) (by assumption)))
    · exact State.modWarp_memWf (PerfWf.get_away (perfPeer_memWf h) (by assumption))
  · dsimp only
    split
    · exact finishLsu_memWf (PerfWf.get_done (perfPhys_memWf h) (by assumption))
    · exact State.modWarp_memWf (holdAt_memWf (PerfWf.get_hold (perfPhys_memWf h) (by assumption)))
    · exact State.modWarp_memWf (PerfWf.get_away (perfPhys_memWf h) (by assumption))
theorem engHeld_memWf {s : State} {core} {a} {l} {x} (h : s.MemWf) : ERWf (engHeld s core a l x) := by
  unfold engHeld
  exact writePiece_memWf h
theorem heldFail_memWf {s : State} {core} {a} {st} (h : s.MemWf) : (heldFail s core a st).MemWf := by
  unfold heldFail
  split
  · exact ite_wf (State.modChan_memWf h) h
  · exact State.modWg_memWf h
  · exact h
theorem releaseHeld_memWf {core} {agent} {x2} {x3 : State} (h : x3.MemWf) : FstWf (releaseHeld core agent x2 x3) := by
  unfold releaseHeld
  split
  · exact h
  · split
    · refine ite_wf (releaseHeld_memWf (sendHeld_memWf h)) ?_
      split
      · exact releaseHeld_memWf (ERWf.get_ok (engHeld_memWf h) (by assumption))
      · exact ERWf.get_wait (engHeld_memWf h) (by assumption)
      · exact releaseHeld_memWf (heldFail_memWf (ERWf.get_fail (engHeld_memWf h) (by assumption)))
    · exact releaseHeld_memWf h
theorem batchDone_memWf {s : State} {pasid} {b} (h : s.MemWf) : (batchDone s pasid b).MemWf := by
  unfold batchDone
  exact foldl_wf (fun _ _ h0 => ite_wf (settle_memWf (drain_memWf h0)) h0) _ (modTwin_memWf h)
theorem divergence_memWf {s : State} {core} {pasid} (h : s.MemWf) : (divergence s core pasid).MemWf := by
  unfold divergence
  exact State.modCore_memWf h
theorem endTasks_memWf {s : State} (l : List (Nat × Nat × Nat)) (h : s.MemWf) : (l.foldl (fun s x => endTask s x.1 x.2.1 x.2.2 8) s).MemWf :=
  foldl_wf (P := State.MemWf) (fun _ _ h0 => endTask_memWf h0) l h
theorem haltTwin_memWf {s : State} {t} {kind} {core} {agent} {batch} (h : s.MemWf) : (haltTwin s t kind core agent batch).MemWf := by
  unfold haltTwin
  extract_lets inPart add tasks tasks' u v w stop y
  clear_value inPart add tasks tasks' stop
  have hu : u.MemWf := endTasks_memWf _ h
  have hv : v.MemWf := ite_wf (P := State.MemWf) (divergence_memWf hu) hu
  have hw : w.MemWf := modTwin_memWf hv
  clear_value w
  have hy : y.MemWf := memWf_same (s := w) rfl rfl hw
  exact ite_wf (P := State.MemWf) (d2hRaise_memWf hy) hy
theorem execDigestReceive_memWf {pasid} {agent} {batch} {digest} {s : State} (h : s.MemWf) :
    OutWf (execDigestReceive pasid agent batch digest s) := by
  unfold execDigestReceive
  split
  · exact h
  · split
    · dsimp only
      split
      · exact h
      · exact ite_wf h (ite_wf (haltTwin_memWf h) (batchDone_memWf h))
    · dsimp only
      split
      · exact h
      · refine ite_wf h ?_
        refine ite_wf (haltTwin_memWf h) ?_
        split
        · exact batchDone_memWf (FstWf.get (releaseHeld_memWf h) (by assumption))
        · exact modTwin_memWf (FstWf.get (releaseHeld_memWf h) (by assumption))
theorem execPartnerLostTimeout_memWf {pasid} {s : State} (h : s.MemWf) : OutWf (execPartnerLostTimeout pasid s) := by
  unfold execPartnerLostTimeout
  split
  · exact h
  · split
    · exact h
    · exact haltTwin_memWf h
theorem execOutsideReadData_memWf {index} {data} {s : State} (h : s.MemWf) : OutWf (execOutsideReadData index data s) := by
  unfold execOutsideReadData
  split
  · exact h
  · refine ite_wf h ?_
    split
    · exact finishOut_memWf (dropRemote_memWf h)
    · exact State.modCore_memWf (dropRemote_memWf h)

end Machine

end Sys2Proof
end


section
/-! PROOFS. Every function of the model keeps the memories canonical: the device, the events of issue, and a step. -/

namespace Sys2Proof

open Machine

namespace Machine

/-! ### Bring-up, power, attestation, errors and mapping requests -/

theorem resetKeep_memWf {s : State} (h : s.MemWf) : (resetKeep s).MemWf := by
  unfold resetKeep
  have hr : State.reset.MemWf := State.reset_memWf
  exact ⟨hr.1, h.2⟩
theorem bootPort_memWf {s : State} {x} (h : s.MemWf) : (bootPort s x).MemWf := by
  unfold bootPort
  exact ite_wf (portDown_memWf (sendCtl_memWf (portTrain_memWf h))) (portUp_memWf (sendCtl_memWf (State.modPort_memWf (sendCtl_memWf
      (portTrain_memWf h)))))
theorem noWarps_memWf {s : State} {p} (hs : s.MemWf) : (noWarps s p).MemWf := by
  unfold State.MemWf
  rw [noWarps_field s p State.hbm fun _ _ => rfl, noWarps_field s p State.hostMem fun _ _ => rfl]
  exact hs
theorem bootImage_memWf {s : State} {r : ResetIn} {flash : List Byte} (h : s.MemWf) : (bootImage s r flash).MemWf := by
  have ht : (resetKeep { s with fuses := { s.fuses with flash := flash } }).MemWf := resetKeep_memWf (memWf_same (s := s) rfl rfl h)
  unfold bootImage
  generalize resetKeep { s with fuses := { s.fuses with flash := flash } } = t at ht ⊢
  dsimp only
  split
  · exact memWf_same (s := t) rfl rfl ht
  · exact memWf_same (s := t) rfl rfl ht
theorem bootRecovery_memWf {s : State} {r : ResetIn} {flash : List Byte} (h : s.MemWf) : (bootRecovery s r flash).MemWf := by
  have ht : (resetKeep { s with fuses := { s.fuses with flash := flash } }).MemWf := resetKeep_memWf (memWf_same (s := s) rfl rfl h)
  unfold bootRecovery
  generalize resetKeep { s with fuses := { s.fuses with flash := flash } } = t at ht ⊢
  exact noWarps_memWf (memWf_same (s := t) rfl rfl ht)
theorem booted_memWf {s : State} {l p} (h : s.MemWf) : (booted s l p).MemWf := by
  unfold booted
  exact noWarps_memWf (foldl_wf (P := State.MemWf) (fun _ _ h0 => bootPort_memWf h0) l h)
theorem execReset_memWf {r} {s : State} (h : s.MemWf) : OutWf (execReset r s) := by
  by_cases hw : r.width = 3
  · unfold execReset
    rw [if_pos (by simp [hw])]
    exact h
  · by_cases hv : r.speed = 3
    · unfold execReset
      rw [if_pos (by simp [hv])]
      exact h
    · rw [execReset_eq hw hv]
      exact ite_wf (P := OutWf) (booted_memWf (bootImage_memWf h)) (bootRecovery_memWf h)
theorem setGovb_memWf {s : State} {die} {f} (hs : s.MemWf) : (setGovb s die f).MemWf := by
  unfold setGovb
  exact foldl_wf (fun _ _ h0 => State.modCore_memWf h0) _ hs
theorem execGovbDecrease_memWf {die} {s : State} (h : s.MemWf) : OutWf (execGovbDecrease die s) := by
  unfold execGovbDecrease
  exact setGovb_memWf h
theorem execGovbIncrease_memWf {die} {s : State} (h : s.MemWf) : OutWf (execGovbIncrease die s) := by
  unfold execGovbIncrease
  exact setGovb_memWf h
theorem execThermalTrip_memWf {die} {s : State} (h : s.MemWf) : OutWf (execThermalTrip die s) := by
  unfold execThermalTrip
  exact memWf_same rfl rfl (reportError_memWf h)
theorem execSensorRefresh_memWf {r} {s : State} (h : s.MemWf) : OutWf (execSensorRefresh r s) := by
  unfold execSensorRefresh
  exact memWf_same rfl rfl h
theorem spdmMsg_memWf {s : State} {code} {p1} {p2} {body} (h : s.MemWf) : (spdmMsg s code p1 p2 body).MemWf := by
  unfold spdmMsg
  exact memWf_same rfl rfl h
theorem spdmErr_memWf {s : State} {code} (h : s.MemWf) : (spdmErr s code).MemWf := by
  unfold spdmErr
  exact spdmMsg_memWf h
theorem execGetVersion_memWf {s : State} (h : s.MemWf) : OutWf (execGetVersion s) := by
  unfold execGetVersion
  exact memWf_same rfl rfl h
theorem execGetCapabilities_memWf {s : State} (h : s.MemWf) : OutWf (execGetCapabilities s) := by
  unfold execGetCapabilities
  exact ite_wf (spdmErr_memWf h) (spdmMsg_memWf (memWf_same rfl rfl h))
theorem execNegotiateAlgorithms_memWf {asym} {hash} {s : State} (h : s.MemWf) : OutWf (execNegotiateAlgorithms asym hash s) := by
  unfold execNegotiateAlgorithms
  exact ite_wf (spdmErr_memWf h) (spdmMsg_memWf (memWf_same rfl rfl h))
theorem execGetDigests_memWf {s : State} (h : s.MemWf) : OutWf (execGetDigests s) := by
  unfold execGetDigests
  exact ite_wf (spdmErr_memWf h) (spdmMsg_memWf h)
theorem execGetCertificate_memWf {slot} {offset} {length} {s : State} (h : s.MemWf) : OutWf (execGetCertificate slot offset length s) := by
  unfold execGetCertificate
  exact ite_wf (spdmErr_memWf h) (ite_wf (spdmErr_memWf h) (spdmMsg_memWf h))
theorem execChallenge_memWf {slot} {x1} {s : State} (h : s.MemWf) : OutWf (execChallenge slot x1 s) := by
  unfold execChallenge
  exact ite_wf (spdmErr_memWf h) (ite_wf (spdmErr_memWf h) (spdmMsg_memWf h))
theorem execGetMeasurements_memWf {index} {s : State} (h : s.MemWf) : OutWf (execGetMeasurements index s) := by
  unfold execGetMeasurements
  refine ite_wf (spdmErr_memWf h) ?_
  split
  · exact spdmMsg_memWf h
  · exact spdmMsg_memWf h
  · exact ite_wf (spdmMsg_memWf h) (spdmErr_memWf h)
theorem execSpdmUnsupportedRequest_memWf {code} {s : State} (h : s.MemWf) : OutWf (execSpdmUnsupportedRequest code s) := by
  unfold execSpdmUnsupportedRequest
  exact ite_wf h (spdmMsg_memWf h)
theorem execErrstatRead_memWf {s : State} (h : s.MemWf) : OutWf (execErrstatRead s) := by
  unfold execErrstatRead
  exact memWf_same rfl rfl h
theorem destroy_memWf {s : State} {x1} (h : s.MemWf) : (destroy s x1).MemWf := by
  unfold destroy
  split
  · exact memWf_wrHbm rfl rfl h
  · exact State.modCore_memWf h
  · exact State.modCore_memWf h
  · exact State.modCore_memWf h
  · exact State.modCore_memWf h
  · exact State.modWarp_memWf h
  · exact State.modCore_memWf h
  · split
    · split
      · exact State.modDie_memWf h
      · exact ite_wf (State.modDie_memWf h) (State.soil_memWf (memWf_wrHbm rfl rfl h))
      · exact h
    · split
      · exact State.modDie_memWf h
      · exact ite_wf (State.modDie_memWf h) (State.soil_memWf (memWf_wrHbm rfl rfl h))
      · exact h
theorem execUncorrectableSoftError_memWf {g} {s : State} (h : s.MemWf) : OutWf (execUncorrectableSoftError g s) := by
  unfold execUncorrectableSoftError
  exact ite_wf h (reportError_memWf (destroy_memWf h))
theorem execSingleBitEccRepair_memWf {source} {pa} {s : State} (h : s.MemWf) : OutWf (execSingleBitEccRepair source pa s) := by
  unfold execSingleBitEccRepair
  exact ite_wf (reportError_memWf h) h
theorem execDieToDieRingFailure_memWf {s : State} (h : s.MemWf) : OutWf (execDieToDieRingFailure s) := by
  unfold execDieToDieRingFailure
  exact reportError_memWf h
theorem execDirectoryUncorrectableError_memWf {die} {s : State} (h : s.MemWf) : OutWf (execDirectoryUncorrectableError die s) := by
  unfold execDirectoryUncorrectableError
  exact reportError_memWf h
theorem invalidateVa_memWf {s : State} {pasid} {va} {size} (h : s.MemWf) : (invalidateVa s pasid va size).MemWf := by
  unfold invalidateVa
  extract_lets u hit
  have hu : u.MemWf := dropXlats_memWf h
  exact memWf_same (s := u) rfl rfl hu
theorem takeFrames_memWf {s : State} {pa} {size} (h : s.MemWf) : (takeFrames s pa size).MemWf := by
  unfold takeFrames
  exact ite_wf (State.modDie_memWf h) h
theorem giveFrame_memWf {s : State} {l} (h : s.MemWf) : (giveFrame s l).MemWf := by
  unfold giveFrame
  exact ite_wf (State.modDie_memWf h) h
theorem mapRequest_memWf {s : State} {x1} (h : s.MemWf) : AllWf State.MemWf (mapRequest s x1) := by
  unfold mapRequest
  split
  · exact ite_wf (P := AllWf State.MemWf) trivial (map_wf (fun _ e1 => memWf_same rfl rfl (AllWf.fst (rootOf_memWf h) e1)))
  · exact ite_wf (P := AllWf State.MemWf) (memWf_same rfl rfl h) trivial
  · exact ite_wf (P := AllWf State.MemWf) trivial (bind_wf (fun _ e1 => ite_wf (P := AllWf State.MemWf) trivial (invalidateVa_memWf (foldl_wf
        (fun _ _ h2 => ite_wf (takeFrames_memWf h2) h2) _ (AllWf.get (setEntry_memWf h) e1)))))
  · exact map_wf (fun _ e1 => memWf_same rfl rfl (AllWf.fst (rootOf_memWf h) e1))
  · split
    · exact trivial
    · exact ite_wf (P := AllWf State.MemWf) trivial (ite_wf (giveFrame_memWf (invalidateVa_memWf (pteWrite_memWf h))) (invalidateVa_memWf
          (pteWrite_memWf h)))
theorem execMappingRequest_memWf {r} {s : State} (h : s.MemWf) : OutWf (execMappingRequest r s) := by
  unfold execMappingRequest
  exact getD_wf (mapRequest_memWf h) h
theorem abortSpace_memWf {s : State} {pasid} (h : s.MemWf) : (abortSpace s pasid).MemWf := by
  unfold abortSpace
  exact foldl_wf (fun _ _ h0 => foldl_wf (fun _ _ h1 => postNotice_memWf h1) _ h0) _ h
theorem unbindNibs_memWf {pasid} {s : State} {c} (h : s.MemWf) : (unbindNibs pasid s c).MemWf := by
  unfold unbindNibs
  refine foldl_wf (P := State.MemWf) (fun u n hu => ?_) _ h
  refine ite_wf (P := State.MemWf) hu (nibUnbind_memWf ?_)
  split
  · exact memWf_same (s := u) rfl rfl hu
  · exact hu
theorem unbindSpace_memWf {s : State} {pasid} (h : s.MemWf) : (unbindSpace s pasid).MemWf := by
  have all : ∀ l : List Nat, (l.foldl (unbindNibs pasid) s).MemWf := fun l =>
    foldl_wf (P := State.MemWf) (fun _ _ h0 => unbindNibs_memWf h0) l h
  unfold unbindSpace
  exact all _
theorem endSpace_memWf {pasid} {u : State} (h : u.MemWf) : OutWf (endSpace pasid u) :=
  ite_wf (P := OutWf) h
    (foldl_wf (P := State.MemWf) (fun _ _ h0 => giveFrame_memWf h0) _ (dropXlats_memWf (memWf_same rfl rfl h)))
theorem execAddressSpaceDestruction_memWf {pasid} {s : State} (h : s.MemWf) : OutWf (execAddressSpaceDestruction pasid s) := by
  have hu : (unbindSpace (abortSpace s pasid) pasid).MemWf := unbindSpace_memWf (abortSpace_memWf h)
  rw [execAddressSpaceDestruction_eq]
  generalize unbindSpace (abortSpace s pasid) pasid = u at hu ⊢
  exact endSpace_memWf hu

/-! ### The events of issue -/

theorem refreshHead_memWf {s : State} {ci} {slot} (h : s.MemWf) : FstWf (refreshHead s ci slot) := by
  unfold refreshHead
  split
  · exact h
  · split
    · exact h
    · refine ite_wf h ?_
      split
      · exact fetchMiss_memWf (FstWf.get (fetchWord_memWf h) (by assumption))
      · exact State.modWarp_memWf (endFetch_memWf (FstWf.get (fetchWord_memWf h) (by assumption)))
theorem fetchClause_memWf {s : State} {ci} {slot} {w} {e} {pos} {begins} (h : s.MemWf) : (fetchClause s ci slot w e pos begins).MemWf := by
  unfold fetchClause
  split
  · dsimp only
    split
    · exact fetchMiss_memWf (FstWf.get (fetchWord_memWf h) (by assumption))
    · exact takeTrap_memWf _ _ _ (FstWf.get (fetchWord_memWf h) (by assumption))
    · exact FstWf.get (fetchWord_memWf h) (by assumption)
    · split
      · exact takeTrap_memWf _ _ _ (FstWf.get (fetchWord_memWf h) (by assumption))
      · refine ite_wf (takeTrap_memWf _ _ _ (FstWf.get (fetchWord_memWf h) (by assumption))) ?_
        refine ite_wf (takeTrap_memWf _ _ _ (FstWf.get (fetchWord_memWf h) (by assumption))) ?_
        refine ite_wf (State.modWarp_memWf (FstWf.get (fetchWord_memWf h) (by assumption))) ?_
        split
        · exact fetchMiss_memWf (FstWf.get (fetchGo_memWf (FstWf.get (fetchWord_memWf h) (by assumption))) (by assumption))
        · exact takeTrap_memWf _ _ _ (FstWf.get (fetchGo_memWf (FstWf.get (fetchWord_memWf h) (by assumption))) (by assumption))
        · exact State.modWarp_memWf (endFetch_memWf (FstWf.get (fetchGo_memWf (FstWf.get (fetchWord_memWf h) (by assumption))) (by assumption)))
  · dsimp only
    split
    · exact fetchMiss_memWf (FstWf.get (fetchWord_memWf h) (by assumption))
    · exact takeTrap_memWf _ _ _ (FstWf.get (fetchWord_memWf h) (by assumption))
    · exact FstWf.get (fetchWord_memWf h) (by assumption)
    · split
      · exact takeTrap_memWf _ _ _ (FstWf.get (fetchWord_memWf h) (by assumption))
      · refine ite_wf (takeTrap_memWf _ _ _ (FstWf.get (fetchWord_memWf h) (by assumption))) ?_
        refine ite_wf (takeTrap_memWf _ _ _ (FstWf.get (fetchWord_memWf h) (by assumption))) ?_
        refine ite_wf (State.modWarp_memWf (FstWf.get (fetchWord_memWf h) (by assumption))) ?_
        split
        · exact fetchMiss_memWf (FstWf.get (fetchGo_memWf (FstWf.get (fetchWord_memWf h) (by assumption))) (by assumption))
        · exact takeTrap_memWf _ _ _ (FstWf.get (fetchGo_memWf (FstWf.get (fetchWord_memWf h) (by assumption))) (by assumption))
        · exact State.modWarp_memWf (endFetch_memWf (FstWf.get (fetchGo_memWf (FstWf.get (fetchWord_memWf h) (by assumption))) (by assumption)))
theorem execClauseFetch_memWf {core} {slot} {s : State} (h : s.MemWf) : OutWf (execClauseFetch core slot s) := by
  unfold execClauseFetch
  split
  · exact h
  · refine ite_wf h ?_
    split
    · split
      · exact h
      · exact fetchClause_memWf h
    · split
      · exact FstWf.get (refreshHead_memWf h) (by assumption)
      · refine ite_wf (FstWf.get (refreshHead_memWf h) (by assumption)) ?_
        split
        · exact FstWf.get (refreshHead_memWf h) (by assumption)
        · split
          · exact fetchClause_memWf (State.modWarp_memWf (FstWf.get (refreshHead_memWf h) (by assumption)))
          · exact State.modWarp_memWf (FstWf.get (refreshHead_memWf h) (by assumption))
theorem execStallExpiry_memWf {core} {slot} {s : State} (h : s.MemWf) : OutWf (execStallExpiry core slot s) := by
  unfold execStallExpiry
  exact State.modWarp_memWf h
theorem execYieldHoldExpiry_memWf {core} {slot} {s : State} (h : s.MemWf) : OutWf (execYieldHoldExpiry core slot s) := by
  unfold execYieldHoldExpiry
  exact State.modWarp_memWf h
theorem execYieldCcHoldExpiry_memWf {core} {slot} {s : State} (h : s.MemWf) : OutWf (execYieldCcHoldExpiry core slot s) := by
  unfold execYieldCcHoldExpiry
  exact State.modWarp_memWf h
theorem queueBlocked_memWf {s : State} {ci} {slot} (h : s.MemWf) : AllWf CtxWf (queueBlocked s ci slot) := by
  unfold queueBlocked
  split
  · exact trivial
  · split
    · exact trivial
    · split
      · exact trivial
      · split
        · exact trivial
        · exact ite_wf (P := AllWf CtxWf) (AllWf.ctx (ctxOf_memWf h) (by assumption)) trivial
theorem execWatchdog_memWf {core} {slot} {s : State} (h : s.MemWf) : OutWf (execWatchdog core slot s) := by
  unfold execWatchdog
  dsimp only
  split
  · exact memWf_same rfl rfl h
  · exact ite_wf (memWf_same rfl rfl h) (ite_wf (takeTrap_memWf _ _ _ (memWf_same rfl rfl h)) (ite_wf (memWf_same rfl rfl h) (State.modWarp_memWf
        (memWf_same rfl rfl h))))
theorem execFrontierSpill_memWf {core} {slot} {s : State} (h : s.MemWf) : OutWf (execFrontierSpill core slot s) := by
  unfold execFrontierSpill
  split
  · exact State.modWarp_memWf h
  · exact h
theorem execFrontierRefill_memWf {core} {slot} {s : State} (h : s.MemWf) : OutWf (execFrontierRefill core slot s) := by
  unfold execFrontierRefill
  split
  · exact State.modWarp_memWf h
  · exact h
theorem execSpilledMerge_memWf {core} {slot} {s : State} (h : s.MemWf) : OutWf (execSpilledMerge core slot s) := by
  unfold execSpilledMerge
  split
  · exact State.modWarp_memWf h
  · exact h
theorem execFrontierSpillFault_memWf {core} {slot} {repair} {s : State} (h : s.MemWf) : OutWf (execFrontierSpillFault core slot repair s) := by
  unfold execFrontierSpillFault
  split
  · exact h
  · exact ite_wf h (State.modWarp_memWf h)
theorem execTrapEntry_memWf {core} {slot} {s : State} (h : s.MemWf) : OutWf (execTrapEntry core slot s) := by
  unfold execTrapEntry
  dsimp only
  split
  · exact settle_memWf h
  · refine ite_wf (settle_memWf h) ?_
    split
    · exact settle_memWf h
    · exact ite_wf (State.modWarp_memWf (settle_memWf h)) (takeTrap_memWf _ _ _ (State.modWarp_memWf (settle_memWf h)))
theorem landWrites_memWf {s : State} {ci} {slot} {ws} (h : s.MemWf) : (landWrites s ci slot ws).MemWf := by
  unfold landWrites
  exact foldl_wf (fun _ _ h0 => landWrite_memWf h0) _ h
theorem execLongLatencyComplete_memWf {core} {slot} {op} {s : State} (h : s.MemWf) : OutWf (execLongLatencyComplete core slot op s) := by
  unfold execLongLatencyComplete
  split
  · exact h
  · split
    · exact h
    · exact ite_wf h (settle_memWf (State.modWarp_memWf (landWrites_memWf h)))
theorem execStoreAck_memWf {core} {slot} {id} {s : State} (h : s.MemWf) : OutWf (execStoreAck core slot id s) := by
  unfold execStoreAck
  split
  · exact h
  · exact ite_wf (drain_memWf (State.modWarp_memWf (ackWrite_memWf h))) (State.modCore_memWf (ackWrite_memWf h))

/-! ### Every instruction and event -/

theorem exec_memWf {i} {s : State} (h : s.MemWf) : OutWf (exec i s) := by
  cases i with
  | iadd => exact execIadd_memWf h
  | isub => exact execIsub_memWf h
  | imul => exact execImul_memWf h
  | imulhi => exact execImulhi_memWf h
  | imad => exact execImad_memWf h
  | idiv => exact execIdiv_memWf h
  | irem => exact execIrem_memWf h
  | imin => exact execImin_memWf h
  | imax => exact execImax_memWf h
  | iabs => exact execIabs_memWf h
  | ineg => exact execIneg_memWf h
  | land => exact execLand_memWf h
  | lor => exact execLor_memWf h
  | lxor => exact execLxor_memWf h
  | landn => exact execLandn_memWf h
  | lnot => exact execLnot_memWf h
  | shl => exact execShl_memWf h
  | shr => exact execShr_memWf h
  | sar => exact execSar_memWf h
  | rol => exact execRol_memWf h
  | bfx => exact execBfx_memWf h
  | bfi => exact execBfi_memWf h
  | popc => exact execPopc_memWf h
  | clz => exact execClz_memWf h
  | ctz => exact execCtz_memWf h
  | brev => exact execBrev_memWf h
  | prmt => exact execPrmt_memWf h
  | iset => exact execIset_memWf h
  | pset => exact execPset_memWf h
  | sel => exact execSel_memWf h
  | mov => exact execMov_memWf h
  | movi => exact execMovi_memWf h
  | lea => exact execLea_memWf h
  | fadd => exact execFadd_memWf h
  | fsub => exact execFsub_memWf h
  | fmul => exact execFmul_memWf h
  | ffma => exact execFfma_memWf h
  | fmin => exact execFmin_memWf h
  | fmax => exact execFmax_memWf h
  | fset => exact execFset_memWf h
  | fclass => exact execFclass_memWf h
  | frcp => exact execFrcp_memWf h
  | frsq => exact execFrsq_memWf h
  | fsqrt => exact execFsqrt_memWf h
  | fdiv => exact execFdiv_memWf h
  | fexp2 => exact execFexp2_memWf h
  | flog2 => exact execFlog2_memWf h
  | fsin => exact execFsin_memWf h
  | fcos => exact execFcos_memWf h
  | ftanh => exact execFtanh_memWf h
  | frnd => exact execFrnd_memWf h
  | cvt => exact execCvt_memWf h
  | fdot2 => exact execFdot2_memWf h
  | fdot4 => exact execFdot4_memWf h
  | fscale => exact execFscale_memWf h
  | fflags => exact execFflags_memWf h
  | shfl => exact execShfl_memWf h
  | vote => exact execVote_memWf h
  | matchv => exact execMatch_memWf h
  | redux => exact execRedux_memWf h
  | scan => exact execScan_memWf h
  | lanemask => exact execLanemask_memWf h
  | bra => exact execBra_memWf h
  | brd => exact execBrd_memWf h
  | brx => exact execBrx_memWf h
  | call => exact execCall_memWf h
  | callx => exact execCallx_memWf h
  | ret => exact execRet_memWf h
  | retTr => exact execRetTr_memWf h
  | exit => exact execExit_memWf h
  | yield => exact execYield_memWf h
  | nop => exact execNop_memWf h
  | waitc => exact execWaitc_memWf h
  | ligon => exact execLigon_memWf h
  | ligmap => exact execLigmap_memWf h
  | ligoff => exact execLigoff_memWf h
  | trap => exact execTrap_memWf h
  | svc => exact execSvc_memWf h
  | brkpt => exact execBrkpt_memWf h
  | ld => exact execLd_memWf h
  | st => exact execSt_memWf h
  | ldq => exact execLdq_memWf h
  | prf => exact execPrf_memWf h
  | atom => exact execAtom_memWf h
  | red => exact execRed_memWf h
  | cas => exact execCas_memWf h
  | cas2 => exact execCas2_memWf h
  | atomr => exact execAtomr_memWf h
  | fence a0 a1 a2 a3 a4 => exact execFence_memWf (x1 := a1) h
  | lease => exact execLease_memWf h
  | cwb => exact execCwb_memWf h
  | tkwait => exact execTkwait_memWf h
  | tkstat => exact execTkstat_memWf h
  | semset => exact execSemset_memWf h
  | seminc => exact execSeminc_memWf h
  | semwait => exact execSemwait_memWf h
  | barinit => exact execBarinit_memWf h
  | bararr => exact execBararr_memWf h
  | barwait => exact execBarwait_memWf h
  | rbararr => exact execRbararr_memWf h
  | cmset => exact execCmset_memWf h
  | cmclr => exact execCmclr_memWf h
  | cmwait => exact execCmwait_memWf h
  | cpchain => exact execCpchain_memWf h
  | tcopy => exact execTcopy_memWf h
  | cpstat => exact execCpstat_memWf h
  | cpabort => exact execCpabort_memWf h
  | rwopen => exact execRwopen_memWf h
  | rwclose => exact execRwclose_memWf h
  | obres => exact execObres_memWf h
  | obfree => exact execObfree_memWf h
  | obset => exact execObset_memWf h
  | thand => exact execThand_memWf h
  | mma => exact execMma_memWf h
  | mmas => exact execMmas_memWf h
  | accz => exact execAccz_memWf h
  | accld => exact execAccld_memWf h
  | accdrain => exact execAccdrain_memWf h
  | accmx => exact execAccmx_memWf h
  | mxstat => exact execMxstat_memWf h
  | nbind => exact execNbind_memWf h
  | nunbind => exact execNunbind_memWf h
  | ngrant => exact execNgrant_memWf h
  | nstat => exact execNstat_memWf h
  | nldc => exact execNldc_memWf h
  | nabort => exact execNabort_memWf h
  | amov => exact execAmov_memWf h
  | aadd => exact execAadd_memWf h
  | aloop => exact execAloop_memWf h
  | aldq => exact execAldq_memWf h
  | astq => exact execAstq_memWf h
  | aend => exact execAend_memWf h
  | csrr => exact execCsrr_memWf h
  | csrw => exact execCsrw_memWf h
  | tlbinv => exact execTlbinv_memWf h
  | rmapinv => exact execRmapinv_memWf h
  | ctxsave => exact execCtxsave_memWf h
  | ctxload => exact execCtxload_memWf h
  | dbghalt => exact execDbghalt_memWf h
  | dbgres => exact execDbgres_memWf h
  | clauseFetch => exact execClauseFetch_memWf h
  | stallExpiry => exact execStallExpiry_memWf h
  | yieldHoldExpiry => exact execYieldHoldExpiry_memWf h
  | watchdog => exact execWatchdog_memWf h
  | frontierSpill => exact execFrontierSpill_memWf h
  | frontierRefill => exact execFrontierRefill_memWf h
  | spilledMerge => exact execSpilledMerge_memWf h
  | frontierSpillFault => exact execFrontierSpillFault_memWf h
  | trapEntry => exact execTrapEntry_memWf h
  | trapEscalation => exact execTrapEscalation_memWf h
  | longLatencyComplete => exact execLongLatencyComplete_memWf h
  | storeAck => exact execStoreAck_memWf h
  | faultTicket => exact execFaultTicket_memWf h
  | busyRetry => exact execBusyRetry_memWf h
  | pageService => exact execPageService_memWf h
  | replayNotice => exact execReplayNotice_memWf h
  | ticketFailure => exact execTicketFailure_memWf h
  | pageHoldExpiry => exact execPageHoldExpiry_memWf h
  | ticketStatusQuery => exact execTicketStatusQuery_memWf h
  | linklostTimeout => exact execLinklostTimeout_memWf h
  | ticketQueryAnswer => exact execTicketQueryAnswer_memWf h
  | atsTranslationRequest => exact execAtsTranslationRequest_memWf h
  | atsCompletion => exact execAtsCompletion_memWf h
  | priPageRequest => exact execPriPageRequest_memWf h
  | prgSuccess => exact execPrgSuccess_memWf h
  | prgInvalidRequest => exact execPrgInvalidRequest_memWf h
  | prgResponseFailure => exact execPrgResponseFailure_memWf h
  | priStopMarker => exact execPriStopMarker_memWf h
  | atsInvalidateRequest => exact execAtsInvalidateRequest_memWf h
  | globalInvalidate => exact execGlobalInvalidate_memWf h
  | idleAdvance => exact execIdleAdvance_memWf h
  | ltlimAdvance => exact execLtlimAdvance_memWf h
  | heldWriteRelease => exact execHeldWriteRelease_memWf h
  | scrubVisit => exact execScrubVisit_memWf h
  | l2Eviction => exact execL2Eviction_memWf h
  | directoryRequest => exact execDirectoryRequest_memWf h
  | directoryRetry => exact execDirectoryRetry_memWf h
  | goMessage => exact execGoMessage_memWf h
  | reservationTimeout => exact execReservationTimeout_memWf h
  | writeback => exact execWriteback_memWf h
  | forward => exact execForward_memWf h
  | invalidation => exact execInvalidation_memWf h
  | backInvalidateSnoop => exact execBackInvalidateSnoop_memWf h
  | hostAccess => exact execHostAccess_memWf h
  | cxlCacheSnoop a0 => exact execCxlCacheSnoop_memWf (x0 := a0) h
  | barrierArrival => exact execBarrierArrival_memWf h
  | syncWrite => exact execSyncWrite_memWf h
  | copyRecordRead => exact execCopyRecordRead_memWf h
  | copyRow => exact execCopyRow_memWf h
  | chunkSignal => exact execChunkSignal_memWf h
  | recordCompletion => exact execRecordCompletion_memWf h
  | inboundWindowWrite => exact execInboundWindowWrite_memWf h
  | matrixEntryStart => exact execMatrixEntryStart_memWf h
  | matrixEntryComplete => exact execMatrixEntryComplete_memWf h
  | governorRelease => exact execGovernorRelease_memWf h
  | nbindComplete => exact execNbindComplete_memWf h
  | strokeStore => exact execStrokeStore_memWf h
  | strokeLoad => exact execStrokeLoad_memWf h
  | fillLimitExpiry => exact execFillLimitExpiry_memWf h
  | nibPass => exact execNibPass_memWf h
  | nibApplicationDone => exact execNibApplicationDone_memWf h
  | traceLoad => exact execTraceLoad_memWf h
  | waitLimitExpiry => exact execWaitLimitExpiry_memWf h
  | consume => exact execConsume_memWf h
  | submit => exact execSubmit_memWf h
  | gangPlacement => exact execGangPlacement_memWf h
  | gridPlacement => exact execGridPlacement_memWf h
  | placementWaitExpiry => exact execPlacementWaitExpiry_memWf h
  | workgroupRetirement => exact execWorkgroupRetirement_memWf h
  | taskRetirement => exact execTaskRetirement_memWf h
  | successorDecrement => exact execSuccessorDecrement_memWf h
  | condNode => exact execCondNode_memWf h
  | whileNode => exact execWhileNode_memWf h
  | mailboxServe => exact execMailboxServe_memWf h
  | alloc => exact execAlloc_memWf h
  | free => exact execFree_memWf h
  | hostmsg => exact execHostmsg_memWf h
  | abort => exact execAbort_memWf h
  | systemCallRing => exact execSystemCallRing_memWf h
  | svcReply => exact execSvcReply_memWf h
  | preempt => exact execPreempt_memWf h
  | arenaRegister => exact execArenaRegister_memWf h
  | arenaRemove => exact execArenaRemove_memWf h
  | rootcap => exact execRootcap_memWf h
  | twinConfigure => exact execTwinConfigure_memWf h
  | twinDissolve => exact execTwinDissolve_memWf h
  | mode => exact execMode_memWf h
  | modeChange => exact execModeChange_memWf h
  | podbarAllot => exact execPodbarAllot_memWf h
  | podbarRelease => exact execPodbarRelease_memWf h
  | h2dBell => exact execH2dBell_memWf h
  | h2dEntryRecheck => exact execH2dEntryRecheck_memWf h
  | h2dRingConfig => exact execH2dRingConfig_memWf h
  | d2hRingConfig => exact execD2hRingConfig_memWf h
  | d2hAck => exact execD2hAck_memWf h
  | d2hWrite => exact execD2hWrite_memWf h
  | hostLinkLoss => exact execHostLinkLoss_memWf h
  | hostLinkReturn => exact execHostLinkReturn_memWf h
  | flitReceive => exact execFlitReceive_memWf h
  | nak => exact execNak_memWf h
  | endToEndAck => exact execEndToEndAck_memWf h
  | endToEndAckTimer => exact execEndToEndAckTimer_memWf h
  | endToEndResend => exact execEndToEndResend_memWf h
  | retrain => exact execRetrain_memWf h
  | linkView => exact execLinkView_memWf h
  | viewAck => exact execViewAck_memWf h
  | viewTimeout => exact execViewTimeout_memWf h
  | podLinkDown => exact execPodLinkDown_memWf h
  | dirtyLineOffer => exact execDirtyLineOffer_memWf h
  | dirtyLineDrop => exact execDirtyLineDrop_memWf h
  | homeLinePoison => exact execHomeLinePoison_memWf h
  | unreachableAccessTimeout => exact execUnreachableAccessTimeout_memWf h
  | digestReceive => exact execDigestReceive_memWf h
  | partnerLostTimeout => exact execPartnerLostTimeout_memWf h
  | outsideReadData => exact execOutsideReadData_memWf h
  | reset => exact execReset_memWf h
  | govbDecrease => exact execGovbDecrease_memWf h
  | govbIncrease => exact execGovbIncrease_memWf h
  | thermalTrip => exact execThermalTrip_memWf h
  | sensorRefresh => exact execSensorRefresh_memWf h
  | getVersion => exact execGetVersion_memWf h
  | getCapabilities => exact execGetCapabilities_memWf h
  | negotiateAlgorithms => exact execNegotiateAlgorithms_memWf h
  | getDigests => exact execGetDigests_memWf h
  | getCertificate => exact execGetCertificate_memWf h
  | challenge a0 a1 => exact execChallenge_memWf (x1 := a1) h
  | getMeasurements => exact execGetMeasurements_memWf h
  | spdmUnsupportedRequest => exact execSpdmUnsupportedRequest_memWf h
  | errstatRead => exact execErrstatRead_memWf h
  | a2dBell => exact execA2dBell_memWf h
  | d2aAck => exact execD2aAck_memWf h
  | faultans => exact execFaultans_memWf h
  | readyans => exact execReadyans_memWf h
  | allocans => exact execAllocans_memWf h
  | viewans => exact execViewans_memWf h
  | viewAnswerTimeout => exact execViewAnswerTimeout_memWf h
  | containans => exact execContainans_memWf h
  | assistRequestWrite =>
    have hr : (raiseWaiting s).MemWf := raiseWaiting_memWf h
    rw [exec_assistRequestWrite, execAssistRequestWrite_eq]
    generalize raiseWaiting s = u at hr ⊢
    exact assistWrite_memWf hr
  | registerWrite => exact execRegisterWrite_memWf h
  | bisnpResponse => exact execBisnpResponse_memWf h
  | uncorrectableSoftError => exact execUncorrectableSoftError_memWf h
  | singleBitEccRepair => exact execSingleBitEccRepair_memWf h
  | dieToDieRingFailure => exact execDieToDieRingFailure_memWf h
  | directoryUncorrectableError => exact execDirectoryUncorrectableError_memWf h
  | mappingRequest => exact execMappingRequest_memWf h
  | addressSpaceDestruction pasid =>
    have hu : (unbindSpace (abortSpace s pasid) pasid).MemWf := unbindSpace_memWf (abortSpace_memWf h)
    rw [exec_addressSpaceDestruction, execAddressSpaceDestruction_eq]
    generalize unbindSpace (abortSpace s pasid) pasid = u at hu ⊢
    exact endSpace_memWf hu
  | nibBindRequest => exact execNibBindRequest_memWf h
  | yieldCcHoldExpiry => exact execYieldCcHoldExpiry_memWf h

/-! ### The issue of an instruction, and a step -/

theorem wordTrap_memWf {s : State} {ci} {slot} {c} {code} (h : s.MemWf) : (wordTrap s ci slot c code).MemWf := by
  unfold wordTrap
  split
  · exact h
  · exact takeTrap_memWf _ _ _ (issued_memWf h)
theorem issueWord_memWf {s : State} {ci} {slot} {c} {x} (h : s.MemWf) : OutWf (issueWord s ci slot c x) := by
  unfold issueWord
  refine ite_wf (wordTrap_memWf (landEarly_memWf (memWf_same rfl rfl h))) ?_
  refine ite_wf (wordTrap_memWf (landEarly_memWf (memWf_same rfl rfl h))) ?_
  refine ite_wf (wordTrap_memWf (landEarly_memWf (memWf_same rfl rfl h))) ?_
  split
  · exact exec_memWf (landEarly_memWf (memWf_same rfl rfl h))
  · exact wordTrap_memWf (landEarly_memWf (memWf_same rfl rfl h))
theorem issueWarp_memWf {s : State} {ci} {slot} (h : s.MemWf) : OutWf (issueWarp s ci slot) := by
  unfold issueWarp
  refine ite_wf ?_ ?_
  · show State.MemWf _
    split
    · refine ite_wf ?_ h
      split
      · exact OutWf.get (execClauseFetch_memWf h) (by assumption)
      · exact h
    · exact h
  · split
    · show State.MemWf _
      split
      · refine ite_wf ?_ h
        split
        · exact OutWf.get (execClauseFetch_memWf h) (by assumption)
        · exact h
      · exact h
    · split
      · show State.MemWf _
        split
        · refine ite_wf ?_ h
          split
          · exact OutWf.get (execClauseFetch_memWf h) (by assumption)
          · exact h
        · exact h
      · refine issueWord_memWf ?_
        split
        · refine ite_wf ?_ h
          split
          · exact OutWf.get (execClauseFetch_memWf h) (by assumption)
          · exact h
        · exact h
theorem issueFirst_memWf {ci} {x1} {x2 : State} (h : x2.MemWf) : OutWf (issueFirst ci x1 x2) := by
  unfold issueFirst
  split
  · exact h
  · split
    · exact ite_wf (issueFirst_memWf (OutWf.get (issueWarp_memWf h) (by assumption))) (OutWf.get (issueWarp_memWf h) (by assumption))
    · exact issueWarp_memWf h
theorem settlePart_memWf {s : State} {ci} {part} (h : s.MemWf) : (settlePart s ci part).MemWf := by
  unfold settlePart
  exact foldl_wf (fun _ _ h0 => ite_wf (settleBar_memWf (settle_memWf (drain_memWf h0))) h0) _ h
theorem endYields_memWf {s : State} {ci} {part} (h : s.MemWf) : (endYields s ci part).MemWf := by
  unfold endYields
  refine foldl_wf (fun _ _ h0 => ?_) _ h
  split
  · exact ite_wf h0 (State.modWarp_memWf h0)
  · exact h0
theorem issuePart_memWf {ci} {part} {s : State} (h : s.MemWf) : OutWf (issuePart ci part s) := by
  unfold issuePart
  exact ite_wf h (issueFirst_memWf (endYields_memWf (settlePart_memWf h)))
theorem sliceFetch_memWf {s : State} {ci} {g} (h : s.MemWf) : (sliceFetch s ci g).MemWf := by
  unfold sliceFetch
  refine ite_wf h ?_
  split
  · exact State.modWg_memWf (dropKept_memWf (FstWf.get (fetchWord_memWf h) (by assumption)))
  · exact ite_wf (FstWf.get (fetchWord_memWf h) (by assumption)) (engMiss_memWf (FstWf.get (fetchWord_memWf h) (by assumption)))
  · exact State.modWg_memWf (endKept_memWf (FstWf.get (fetchWord_memWf h) (by assumption)))
theorem issueSlice_memWf {ci} {s : State} (h : s.MemWf) : OutWf (issueSlice ci s) := by
  unfold issueSlice
  refine ite_wf h ?_
  dsimp only
  split
  · exact memWf_same rfl rfl h
  · split
    · exact sliceFetch_memWf (memWf_same rfl rfl h)
    · refine ite_wf (State.modWg_memWf (sliceFetch_memWf (memWf_same rfl rfl h))) ?_
      split
      · exact exec_memWf (sliceFetch_memWf (memWf_same rfl rfl h))
      · exact State.modWg_memWf (sliceFetch_memWf (memWf_same rfl rfl h))
theorem lowerFirst_memWf {s : State} {ci} {slot} (h : s.MemWf) : AllWf State.MemWf (lowerFirst s ci slot) := by
  unfold lowerFirst
  split
  · exact trivial
  · split
    · exact trivial
    · refine ite_wf ?_ ?_
      · exact trivial
      · split
        · split
          · exact ite_wf (P := AllWf State.MemWf) (State.modWarp_memWf (OutWf.get (issueWarp_memWf (State.modWarp_memWf h)) (by assumption))) trivial
          · exact trivial
        · exact trivial
theorem runEvent_memWf {i} {s : State} (h : s.MemWf) : OutWf (runEvent i s) := by
  unfold runEvent
  refine ite_wf h ?_
  split
  · split
    · show State.MemWf _
      exact AllWf.get (lowerFirst_memWf (settle_memWf h)) (by assumption)
    · exact exec_memWf h
  · exact exec_memWf h
theorem hostByte_memWf {s : State} {a v} (h : s.MemWf) : State.MemWf { s with hostMem := tabSet 0#8 s.hostMem a v } :=
  ⟨h.1, tabWf_tabSet _ _ _ _ h.2⟩
theorem runAct_memWf {a} {s : State} (h : s.MemWf) : OutWf (runAct a s) := by
  unfold runAct
  split
  · exact ite_wf (P := OutWf) h (runEvent_memWf h)
  · exact issuePart_memWf h
  · exact issueSlice_memWf h
  · exact hostByte_memWf h
  · exact memWf_same (s := s) rfl rfl h
theorem nextAct_memWf {s : State} (h : s.MemWf) : SndWf (nextAct s) := by
  unfold nextAct
  exact memWf_same rfl rfl h

end Machine

/-! ### The obligation -/

/-- Settles O11: a step takes the next act off the agenda and runs it, and every function on the way keeps both memories, drops
addresses of them, or writes them by the operations that keep the form. -/
theorem memoryStaysCanonical : Obligations.MemoryStaysCanonical := by
  intro s t h e
  exact (runAct_memWf (nextAct_memWf h)).get e

end Sys2Proof
end


section
/-! PROOFS. Fences, leases, hints and ticket instructions of 09: each word through the frame of R61, the fields of TKSTAT, and the one
choice of the host on which the clause about PRF turns. -/

namespace Sys2Proof

open Machine

namespace Machine

/-! ### The fields of TKSTAT (R224) -/

/-- The older of the ticket found so far and the next one. -/
def olderTicket (o : Option Ticket) (t : Ticket) : Option Ticket :=
  match o with
  | some u => if t.acc.id < u.acc.id then some t else some u
  | none => some t
/-- The tickets of the context's warp. -/
def Ctx.warpTickets (k : Ctx) : List Ticket := k.k.tickets.filter fun t => t.slot? == some k.wi
/-- OLDEST: the identifier of the warp's oldest ticket, 0 where it has none. -/
def Ctx.oldestTid (k : Ctx) : Nat := (((k.warpTickets.foldl olderTicket none).map (·.tid)).getD 0#32).toNat

/-- A ticket that is older than all the others of a list is found, whatever younger one was found before. -/
theorem foldl_olderTicket {t : Ticket} : ∀ (l : List Ticket) (o : Option Ticket), o = some t ∨ t ∈ l →
    (∀ u ∈ o, u ≠ t → t.acc.id < u.acc.id) → (∀ u ∈ l, u ≠ t → t.acc.id < u.acc.id) → l.foldl olderTicket o = some t
  | [], _, h, _, _ => h.resolve_right (List.not_mem_nil)
  | x :: l, o, h, ho, hl => by
    have hx := hl x List.mem_cons_self
    refine foldl_olderTicket l (olderTicket o x) ?_ (fun u hu => ?_) fun u hu => hl u (List.mem_cons_of_mem _ hu)
    · rcases h with rfl | h
      · refine .inl ?_
        by_cases he : x = t
        · simp [olderTicket, he]
        · exact if_neg (by have := hx he; omega)
      · rcases List.mem_cons.1 h with rfl | h
        · cases o with
          | none => exact .inl rfl
          | some u =>
            refine .inl ?_
            by_cases he : u = t
            · simp [olderTicket, he]
            · exact if_pos (ho u rfl he)
        · exact .inr h
    · cases o with
      | none => exact Option.some.inj hu ▸ hx
      | some y =>
        rw [Option.mem_def, olderTicket] at hu
        split at hu
        · exact Option.some.inj hu ▸ hx
        · exact ho u hu

theorem tkstatOf_eq (k : Ctx) : tkstatOf k = k.oldestTid * 2 ^ 16
    + (64 - k.k.tickets.length - (k.k.misses.filter (·.kept.isSome)).length) * 2 ^ 8
    + (if k.w.causes.any (·.code == cTicketError) then 2 ^ 7 else 0) + k.k.tkCount k.wi % 128 := rfl

theorem oldestTid_none {k : Ctx} (h : ∀ t ∈ k.k.tickets, t.slot? ≠ some k.wi) : k.oldestTid = 0 := by
  have hnil : k.warpTickets = [] := List.filter_eq_nil_iff.2 fun t ht => by simpa using h t ht
  rw [Ctx.oldestTid, hnil]
  rfl

theorem oldestTid_of_oldest {k : Ctx} {t : Ticket} (ht : t ∈ k.k.tickets) (hs : t.slot? = some k.wi)
    (ho : ∀ u ∈ k.k.tickets, u.slot? = some k.wi → u ≠ t → t.acc.id < u.acc.id) : k.oldestTid = t.tid.toNat := by
  have hmem : ∀ u, u ∈ k.warpTickets ↔ u ∈ k.k.tickets ∧ u.slot? = some k.wi := fun u => by simp [Ctx.warpTickets]
  have hfold : k.warpTickets.foldl olderTicket none = some t :=
    foldl_olderTicket _ none (.inr ((hmem t).2 ⟨ht, hs⟩)) (fun _ h => absurd h (by simp)) fun u hu =>
      ho u ((hmem u).1 hu).1 ((hmem u).1 hu).2
  rw [Ctx.oldestTid, hfold]
  rfl

end Machine

theorem ticketStatus : Claim.TicketStatus := by
  intro k hroom
  have hcause : k.w.causes.any (·.code == cTicketError) = true ↔ ∃ z ∈ k.w.causes, z.code = 0x06 := by simp [cTicketError]
  have hparts := tkstatOf_eq k
  have hcount : k.k.tkCount k.wi % 128 < 128 := Nat.mod_lt _ (by decide)
  rw [← hcause]
  refine ⟨?_, ?_, ?_, fun h => ?_, fun t ht hs ho => ?_⟩
  · rw [hparts]
    split <;> omega
  · rw [hparts]
    split
    · next h => exact ⟨fun _ => h, fun _ => by omega⟩
    · next h => exact ⟨fun h1 => by omega, fun h1 => absurd h1 h⟩
  · rw [hparts]
    split <;> omega
  · rw [hparts, oldestTid_none h]
    split <;> omega
  · rw [hparts, oldestTid_of_oldest ht hs ho]
    split <;> omega

namespace Machine

/-! ### FENCE, LEASE, TKWAIT and TKSTAT that run (R220, R221, R223, R224) -/

theorem exec_fence (c : Ctl) (sc : Scope) (ord : Order) (st : BitVec 7) (path : BitVec 5) (s : State) :
    exec (.fence c sc ord st path) s = runInstr s c false false [] fun k =>
      if k.act = 0#32 then .ok k.s
      else if rels ord && !k.w.held.isEmpty && !twinRoom k.s k.w.pasid k.ci then .hold
      else if rels ord then
        .ok (settle (k.s.modWarp k.ci k.wi fun w =>
          { w with idNext := k.w.idNext + 1, wait := .fence ord st path k.w.idNext }) k.ci k.wi)
      else .ok (resolveFences (k.s.modWarp k.ci k.wi fun w =>
        { w with idNext := k.w.idNext + 1, acqF := w.acqF ++ [(k.w.idNext, st, path)] }) k.ci k.wi) := rfl
theorem exec_lease (c : Ctl) (n : BitVec 8) (s : State) : exec (.lease c n) s = runInstr s c false false [] fun k =>
    if k.act = 0#32 then .ok k.s else .ok (k.s.modWarp k.ci k.wi fun w => { w with lease := n }) := rfl
theorem exec_tkwait (c : Ctl) (s : State) : exec (.tkwait c) s = runInstr s c false false [] fun k =>
    if k.act = 0#32 then .ok k.s
    else .ok (settle (k.s.modWarp k.ci k.wi fun w => { w with wait := .tkwait }) k.ci k.wi) := rfl
theorem exec_tkstat (c : Ctl) (d : Reg) (s : State) : exec (.tkstat c d) s =
    runInstr s c true false [{ r := d, adm := admScalar, dst := true, src := false }] fun k =>
      if k.act = 0#32 then .ok k.s else .ok (writeLanes k.s k.ci k.wi .n64 d [(0, (tkstatOf k : Int))]) := rfl

/-! ### What a hint keeps -/

/-- Both memories, the number of the step and every core but for its L1 and its translations are as before, and the snoop filters
record no line anew. -/
structure HintKept (s t : State) : Prop where
  core : ∀ i, { t.core i with l1 := (s.core i).l1, tlb := (s.core i).tlb } = s.core i
  snoop : ∀ d, (t.die d).snoop ⊆ (s.die d).snoop
  hbm : t.hbm = s.hbm
  hostMem : t.hostMem = s.hostMem
  tick : t.tick = s.tick

namespace HintKept

theorem refl (s : State) : HintKept s s := ⟨fun _ => rfl, fun _ => List.Subset.refl _, rfl, rfl, rfl⟩
theorem trans {s t u : State} (h : HintKept s t) (h' : HintKept t u) : HintKept s u where
  core i := by
    have e := congrArg (fun k : Core => ({ k with l1 := (s.core i).l1, tlb := (s.core i).tlb } : Core)) (h'.core i)
    exact e.trans (h.core i)
  snoop d := List.Subset.trans (h'.snoop d) (h.snoop d)
  hbm := h'.hbm.trans h.hbm
  hostMem := h'.hostMem.trans h.hostMem
  tick := h'.tick.trans h.tick
theorem foldl {α : Type} {f : State → α → State} (hf : ∀ s a, HintKept s (f s a)) :
    ∀ (l : List α) (s : State), HintKept s (l.foldl f s)
  | [], s => .refl s
  | a :: l, s => (hf s a).trans (foldl hf l _)
theorem modCore {s : State} {c : Nat} {f : Core → Core} (hf : ∀ k, ({ f k with l1 := k.l1, tlb := k.tlb } : Core) = k) :
    HintKept s (s.modCore c f) where
  core i := by
    rw [core_modCore]
    split
    · next h => rw [h.1]; exact hf _
    · rfl
  snoop _ := List.Subset.refl _
  hbm := rfl
  hostMem := rfl
  tick := rfl
theorem modDie {s : State} {d : Nat} {f : Die → Die} (hf : (f (s.die d)).snoop ⊆ (s.die d).snoop) : HintKept s (s.modDie d f) where
  core _ := rfl
  snoop i := by
    rw [die_modDie]
    split
    · next h => rw [h.1]; exact hf
    · exact List.Subset.refl _
  hbm := rfl
  hostMem := rfl
  tick := rfl
/-- A change of the dies that touches no snoop filter. -/
theorem modDie_same {s : State} {d : Nat} {f : Die → Die} (hf : ∀ k, (f k).snoop = k.snoop) : HintKept s (s.modDie d f) :=
  .modDie (by rw [hf]; exact List.Subset.refl _)
/-- A change of other parts of the device. -/
theorem of_rest {s t : State} (hc : t.cores = s.cores) (hd : t.dies = s.dies) (hm : t.hbm = s.hbm) (hh : t.hostMem = s.hostMem)
    (ht : t.tick = s.tick) : HintKept s t :=
  ⟨fun i => by simp [State.core, hc], fun d => by simp [State.die, hd], hm, hh, ht⟩

theorem warp? {s t : State} (h : HintKept s t) (ci wi : Nat) : t.warp? ci wi = s.warp? ci wi :=
  Core.warp?_congr (congrArg Core.warps (h.core ci)) wi
theorem pts {s t : State} (h : HintKept s t) (ci : Nat) : (t.core ci).pts = (s.core ci).pts := by
  have e := congrArg Core.pts (h.core ci)
  exact e

end HintKept

/-! ### The host's answers to snoops (R258) -/

/-- Of the lines that their homes' snoop filters record as maybe modified, the host holds none modified at this step. -/
def HostQuiet (s : State) : Prop := ∀ e ∈ (s.die (homeDie (e.1 * 128))).snoop, e.2 = true → Config.hostDirty s.tick e.1 = none

theorem HintKept.hostQuiet {s t : State} (h : HintKept s t) (hq : HostQuiet s) : HostQuiet t := fun e he h2 => by
  rw [h.tick]
  exact hq e (h.snoop _ he) h2

theorem snoopNow_hint {s : State} (hq : HostQuiet s) (c line : Nat) : HintKept s (snoopNow c s line) := by
  unfold snoopNow
  dsimp only
  cases hf : (s.die (homeDie (line * 128))).snoop.find? (·.1 == line) with
  | none => exact .refl s
  | some e =>
    have hline : e.1 = line := by simpa using List.find?_some hf
    subst hline
    have hclean : (if e.2 = true then Config.hostDirty s.tick e.1 else none) = none := by
      split
      · next h2 => exact hq e (List.mem_of_find?_eq_some hf) h2
      · rfl
    dsimp only [State.modDie_tick]
    rw [hclean]
    exact .modDie fun _ hx => (List.mem_filter.1 hx).1

theorem walkSnoop_hint (c va : Nat) : ∀ (lv tab : Nat) {s : State}, HostQuiet s → HintKept s (walkSnoop c va lv tab s)
  | 0, _, _, hq => snoopNow_hint hq c _
  | lv + 1, tab, s, hq => by
    have h := snoopNow_hint hq c (lineOf (tab + 8 * levelIndex (lv + 1) va))
    rw [walkSnoop]
    split
    · exact h.trans (walkSnoop_hint c va lv _ (h.hostQuiet hq))
    · exact h
/-- A walk keeps what a hint does once its first line is snooped, where that leaves the host quiet. -/
theorem walkSnoop_first {c va lv tab : Nat} {s : State} (hq : HostQuiet (snoopNow c s (lineOf (tab + 8 * levelIndex (lv + 1) va)))) :
    HintKept (snoopNow c s (lineOf (tab + 8 * levelIndex (lv + 1) va))) (walkSnoop c va (lv + 1) tab s) := by
  rw [walkSnoop]
  split
  · exact walkSnoop_hint c va lv _ hq
  · exact .refl _
theorem snoopWalk_hint {s : State} (hq : HostQuiet s) (c : Nat) (pasid : BitVec 20) (va : Dword) :
    HintKept s (snoopWalk s c pasid va) := by
  unfold snoopWalk
  split
  · exact .refl s
  · split
    · exact .refl s
    · exact walkSnoop_hint c _ 4 _ hq

/-! ### A translation (R177) -/

theorem tlbFill_hint (s : State) (c : Nat) (x : Xlat) : HintKept s (tlbFill s c x) := by
  unfold tlbFill
  exact HintKept.trans (.modCore (by intro; rfl)) (.modDie_same (by intro; rfl))

/-- A translation that misses both arrays keeps what a hint does, after the snoops of its walk. -/
theorem translate_missed {s : State} {c : Nat} {pasid : BitVec 20} {va : Dword}
    (h1 : (s.core c).tlb.find? (·.covers pasid va.toNat) = none)
    (h2 : ((s.die (dieOfCore c)).quad (quadOfCore c)).tlb2.find? (·.covers pasid va.toNat) = none) :
    HintKept (snoopWalk s c pasid va) (translate s c pasid va).1 := by
  unfold Machine.translate
  simp only [h1, h2]
  split
  · exact tlbFill_hint _ c _
  · split
    · exact tlbFill_hint _ c _
    · exact .refl _
theorem translate_hint {s : State} (hq : HostQuiet s) (c : Nat) (pasid : BitVec 20) (va : Dword) :
    HintKept s (translate s c pasid va).1 := by
  cases h1 : (s.core c).tlb.find? (·.covers pasid va.toNat) with
  | some x =>
    unfold Machine.translate
    simp only [h1]
    exact .refl s
  | none =>
    cases h2 : ((s.die (dieOfCore c)).quad (quadOfCore c)).tlb2.find? (·.covers pasid va.toNat) with
    | some x =>
      unfold Machine.translate
      simp only [h1, h2]
      exact .modCore (by intro; rfl)
    | none => exact (snoopWalk_hint hq c pasid va).trans (translate_missed h1 h2)

/-! ### A PRF performed (R212) -/

theorem rmapTrim_hint (s : State) (c : Nat) : HintKept s (rmapTrim s c) := by
  unfold rmapTrim
  exact .modDie_same (by intro; rfl)
theorem dropL1_hint (s : State) (c : Nat) (p : Nat → L1Line → Bool) : HintKept s (dropL1 s c p) := by
  unfold dropL1
  dsimp only
  split
  · exact .refl s
  · exact (HintKept.foldl (fun _ _ => .modCore (by intro; rfl)) _ s).trans (rmapTrim_hint _ c)
theorem l1Fill_hint (s : State) (c : Nat) (e : L1Line) : HintKept s (l1Fill s c e) := by
  unfold l1Fill
  dsimp only
  refine HintKept.trans ?_ (rmapTrim_hint _ c)
  refine HintKept.trans ?_ (.modDie_same (by intro; rfl))
  refine HintKept.trans ?_ (.modCore (by intro; rfl))
  exact .foldl (fun _ _ => .modCore (by intro; rfl)) _ s
theorem recallRead_hint (s : State) (line : Nat) : HintKept s (recallRead s line) := by
  unfold recallRead
  dsimp only
  split
  · have hhome : ∀ e : DirEnt, HintKept s (s.modDie (homeDie (line * 128)) fun k => (k.setDir e).setTag (k.filled line .home)) :=
      fun e => .modDie_same (by intro; rfl)
    split
    · exact (hhome _).trans (.modDie_same fun k => by split <;> rfl)
    · exact hhome _
  · exact .refl s
theorem l2Read_hint {s u : State} {d line : Nat} {t : L2Tag} (h : l2Read s d line = .ok (u, t)) : HintKept s u := by
  unfold l2Read at h
  dsimp only at h
  split at h
  · cases h
  · split at h
    · split at h
      · cases h
      · split at h
        · cases h
        · obtain ⟨rfl, -⟩ := Prod.mk.inj (Except.ok.inj h)
          exact (recallRead_hint s line).trans (.modDie_same (by intro; rfl))
    · split at h
      · obtain ⟨rfl, -⟩ := Prod.mk.inj (Except.ok.inj h)
        exact .refl s
      · cases h
theorem loadTrk_hint {s t : State} {c vline line : Nat} {pasid : BitVec 20} {lease : BitVec 8} {fill own : Bool} {data : BitVec 1024}
    {pois : BitVec 2} {wts : BitVec 16} {exp : Bool} (h : loadTrk s c pasid vline line lease fill own = .ok t data pois wts exp) :
    HintKept s t := by
  unfold loadTrk at h
  split at h
  · obtain ⟨rfl, -⟩ := LineRes.ok.inj h
    exact .refl s
  · dsimp only at h
    split at h
    · cases h
    · next u g hr =>
      have htag := (l2Read_hint hr).trans (HintKept.modDie_same (d := dieOfCore c)
        (f := fun k => k.setTag { g with rts := tmin (tmaxE g.rExp g.rts ((u.core c).pts + lease.setWidth 16)) (u.die (dieOfCore c)).ltlim
                                         rExp := false }) (by intro; rfl))
      obtain ⟨rfl, -⟩ := LineRes.ok.inj h
      split
      · exact htag.trans (l1Fill_hint _ c _)
      · exact htag
theorem untFill_hint (s : State) (d line : Nat) : HintKept s (untFill s d line).1 := by
  unfold untFill
  split
  · exact .refl s
  · exact .modDie_same (f := (·.setUnt ⟨line, (untHome s line).1, 0#128, (untHome s line).2⟩)) (by intro; rfl)
theorem untFillFor_hint (s : State) (ci line : Nat) : HintKept s (untFillFor s ci line).1 := by
  unfold untFillFor
  dsimp only
  split
  · exact untFill_hint s _ line
  · exact (untFill_hint s _ line).trans (dropL1_hint _ ci _)
theorem sendRemote_hint (s : State) (ci : Nat) (a : Access) (mt : Fin 6) (pas : List Nat) (dev : Fin 16) :
    HintKept s (sendRemote s ci a mt pas dev) := by
  have hrest : ∀ (u : State) (i : StreamId), HintKept u (originate u i) := fun u i => by
    have h := originate_rest u i
    have hc := congrArg State.cores h
    have hm := congrArg State.hbm h
    have hh := congrArg State.hostMem h
    have ht := congrArg State.tick h
    exact .of_rest hc (originate_dies u i) hm hh ht
  unfold sendRemote
  dsimp only
  have hadd : HintKept s (addRemote s ci a mt pas dev) := .of_rest rfl rfl rfl rfl rfl
  exact hadd.trans (hrest _ _)

/-- What an access comes to keeps what a hint does. -/
def Perf.Hint (s : State) : Perf → Prop
  | .done t _ _ _ | .hold t _ | .away t _ => HintKept s t

section
variable {a : Access} {l2 : Bool} (hk : a.kind = .prf l2) (s : State) (ci : Nat)
include hk

theorem perfTrk_hint (ls : List (LaneAcc × Nat)) : (perfTrk s ci a ls).Hint s := by
  unfold perfTrk
  dsimp only
  cases l2 with
  | true =>
    simp only [hk]
    split
    · exact .refl s
    · next h => exact l2Read_hint h
  | false =>
    simp only [hk]
    split
    · exact .refl s
    · next h =>
      simp only [beq_self_eq_true, if_true]
      split at h
      · rw [if_pos rfl] at h
        exact loadTrk_hint h
      · rw [if_neg Bool.false_ne_true] at h
        split at h
        · cases h
        · next hr =>
          obtain ⟨rfl, -⟩ := LineRes.ok.inj h
          exact l2Read_hint hr
theorem perfUnt_hint (ls : List (LaneAcc × Nat)) : (perfUnt s ci a ls).Hint s := by
  unfold perfUnt
  dsimp only
  split
  · exact .refl s
  · simp only [hk]
    exact untFillFor_hint s ci _
theorem perfPhys_hint (mt : Fin 6) (pas : List Nat) : (perfPhys s ci a mt pas).Hint s := by
  unfold perfPhys
  dsimp only
  split
  · exact perfTrk_hint hk s ci _
  split
  · exact perfUnt_hint hk s ci _
  split
  · simp only [perfHst, hk]
    exact .refl s
  split
  · simp only [perfNib, hk]
    exact .refl s
  · simp only [perfWin, hk]
    exact .refl s
theorem perfPeer_hint (mt : Fin 6) (pas : List Nat) (dev : Fin 16) : (perfPeer s ci a mt pas dev).Hint s := by
  unfold perfPeer
  split
  · exact perfPhys_hint hk s ci mt pas
  · simp only [hk, AccKind.rmw, Bool.and_false, Bool.false_eq_true, if_false]
    exact sendRemote_hint s ci a mt pas dev
/-- A PRF joins no twin batch and waits for no stamp: it goes to its memory, or to its page's home. -/
theorem perform_prf (x : Xlat) : perform s ci a x = match x.home with
    | some d => perfPeer s ci a x.mt (a.lanes.map fun l => x.to l.va.toNat) d
    | none => perfPhys s ci a x.mt (a.lanes.map fun l => x.to l.va.toNat) := by
  have hst : (a.kind == .store) = false := by rw [hk]; rfl
  have hrd : a.kind.rd = false := by rw [hk]; rfl
  have hrmw : a.kind.rmw = false := by rw [hk]; rfl
  unfold perform
  simp only [hst, hrd, hrmw, Bool.or_false, Bool.and_false, Bool.not_false, Bool.or_true, if_true, Bool.false_eq_true, if_false]
  split <;> rfl
theorem perform_hint (x : Xlat) : (perform s ci a x).Hint s := by
  rw [perform_prf hk]
  split
  · exact perfPeer_hint hk s ci _ _ _
  · exact perfPhys_hint hk s ci _ _
theorem performPrf_hint (x : Xlat) : HintKept s (performPrf s ci a x) := by
  have h := perform_hint (a := a.leased s ci) hk s ci x
  unfold performPrf
  dsimp only
  split
  · next e => rw [e] at h; exact h
  · next e => rw [e] at h; exact h
  · next e =>
    rw [e] at h
    exact HintKept.trans h (.modDie_same (by intro; rfl))

end

/-- A lane of PRF keeps what a hint does, after its translation. -/
theorem prfLane_translated (k : Ctx) (l2 : Bool) {va : Dword} (hva : canonical va = true) (l : Nat) (s : State) :
    HintKept (translate s k.ci k.w.pasid va).1 (prfLane k l2 va l s) := by
  unfold prfLane
  dsimp only
  rw [hva]
  simp only [Bool.not_true, Bool.false_eq_true, if_false]
  cases translate s k.ci k.w.pasid va with
  | mk u x =>
    cases x with
    | none => exact .refl u
    | some x =>
      dsimp only
      split
      · exact .refl u
      · exact performPrf_hint rfl u k.ci x
theorem prfLane_hint {s : State} (hq : HostQuiet s) (k : Ctx) (l2 : Bool) (va : Dword) (l : Nat) : HintKept s (prfLane k l2 va l s) := by
  cases hva : canonical va with
  | true => exact (translate_hint hq k.ci k.w.pasid va).trans (prfLane_translated k l2 hva l s)
  | false =>
    unfold prfLane
    simp only [hva, Bool.not_false, if_true]
    exact .refl s
/-- The lanes of PRF, where the host is quiet. -/
theorem prfLanes_hint (k : Ctx) (l2 : Bool) (va : Nat → Dword) : ∀ (ls : List Nat) {s : State}, HostQuiet s →
    HintKept s (ls.foldl (fun s l => prfLane k l2 (va l) l s) s)
  | [], _, _ => .refl _
  | l :: ls, _, hq =>
    have h := prfLane_hint hq k l2 (va l) l
    h.trans (prfLanes_hint k l2 va ls (h.hostQuiet hq))

/-! ### The word PRF -/

/-- The operands of PRF, whose poison drops their lane alone (R212). -/
def opdsPrf (o : HintOp) : List Opd := [{ opdBase o.a with src := false }, { opdIndex o.b with src := false }]
/-- The lanes for which PRF fetches. -/
def prfLanes (o : HintOp) (k : Ctx) : List Nat := lanesOf (k.act &&& ~~~k.badAddr o.a o.b)
/-- The state after the fetches of PRF. -/
def prfNext (o : HintOp) (l2 : Bool) (k : Ctx) : State :=
  if o.sp then k.s
  else ((prfLanes o k).foldl (fun s l => prfLane k l2 (k.ea o.a o.b o.off l) l s) k.s).modWarp k.ci k.wi fun w =>
    { w with idNext := w.idNext + 1 }

theorem exec_prf (o : HintOp) (l2 : Bool) (s : State) :
    exec (.prf o l2) s = runInstr s o.c false false (opdsPrf o) fun k => .ok (prfNext o l2 k) := by
  show execPrf o l2 s = _
  unfold execPrf
  exact congrArg (runInstr s o.c false false (opdsPrf o)) (funext fun k => by unfold prfNext prfLanes; split <;> rfl)

/-- An operand that is not read pops no queue. -/
theorem popsOf_prf (o : HintOp) : popsOf (opdsPrf o) = [] := by
  unfold popsOf opdsPrf
  simp only [List.foldl_cons, List.foldl_nil, Bool.false_and, Bool.false_eq_true, if_false]
  split <;> split <;> rfl

/-- Nor does its poison stop the word. -/
theorem wordPoison_prf (o : HintOp) (k : Ctx) (scalar : Bool) : wordPoison k scalar (opdsPrf o) = 0#32 := by
  simp [wordPoison, opdsPrf, opdPoison]

theorem exec_prf_ready {o : HintOp} {s : State} {k : Ctx} (hr : Ready s o.c false false (opdsPrf o) k) (l2 : Bool) :
    exec (.prf o l2) s = .next (wordEnd (prfNext o l2 k) k.ci k.wi o.c) := by
  rw [exec_prf, runInstr_ready hr, popped_self hr.issuer (popsOf_prf o)]
  rfl

/-- Warps but for the number of their next access. -/
def Warp.unnumbered (w : Warp) : Warp := { w with idNext := 0 }
theorem warp?_unnumbered (s : State) (c w i j : Nat) :
    ((s.modWarp c w fun x => { x with idNext := x.idNext + 1 }).warp? i j).map Warp.unnumbered = (s.warp? i j).map Warp.unnumbered := by
  rw [State.warp?, State.modWarp, core_modCore]
  split
  · next h =>
    rw [h.1]
    by_cases hj : j = w
    · rw [hj, Core.warp?_modWarp_same, State.warp?]
      cases (s.core c).warp? w <;> rfl
    · rw [Core.warp?_modWarp_ne _ _ hj]
      rfl
  · rfl
theorem pts_modWarp (s : State) (c w i : Nat) (f : Warp → Warp) : ((s.modWarp c w f).core i).pts = (s.core i).pts := by
  rw [State.modWarp, core_modCore]
  split
  · next h => rw [h.1]; rfl
  · rfl

/-- PRF, where the host holds no line modified, changes no byte of memory, and nothing of a warp but the number of its next access. -/
theorem prf_hostQuiet {o : HintOp} {s : State} {k : Ctx} (hr : Ready s o.c false false (opdsPrf o) k) (hq : HostQuiet s) (l2 : Bool) :
    (prfNext o l2 k).hbm = s.hbm ∧ (prfNext o l2 k).hostMem = s.hostMem
      ∧ (∀ i j, ((prfNext o l2 k).warp? i j).map Warp.unnumbered = (s.warp? i j).map Warp.unnumbered)
      ∧ ∀ i, ((prfNext o l2 k).core i).pts = (s.core i).pts := by
  obtain ⟨hs, -⟩ := ctxOf_spec hr.issuer
  unfold prfNext
  rw [hs]
  split
  · exact ⟨rfl, rfl, fun _ _ => rfl, fun _ => rfl⟩
  · have h := prfLanes_hint k l2 (k.ea o.a o.b o.off) (prfLanes o k) hq
    exact ⟨h.hbm, h.hostMem, fun i j => by rw [warp?_unnumbered, h.warp?], fun i => by rw [pts_modWarp, h.pts]⟩

end Machine

/-- Every word's effect is its body's; only PRF asks that the host be quiet. -/
theorem fencesThatRun_of_hostQuiet (hq : ∀ s, HostQuiet s) : Claim.FencesThatRun := by
  intro s c sc ord st path n d o l2
  refine ⟨runs_of (exec_fence c sc ord st path s) ?_, runs_of (exec_fence c sc ord st path s) ?_,
    runs_of (exec_fence c sc ord st path s) fun k h => if_pos h, runs_of (exec_lease c n s) fun k h => if_neg h,
    runs_of (exec_lease c n s) fun k h => if_pos h, runs_of (exec_tkwait c s) fun k h => if_neg h,
    runs_of (exec_tkwait c s) fun k h => if_pos h, runs_of (exec_tkstat c (.s d) s) ?_,
    runs_of (exec_tkstat c (.s d) s) fun k h => if_pos h,
    fun k hr => ⟨_, exec_prf_ready hr l2, prf_hostQuiet hr (hq s) l2⟩⟩
  · rintro k ⟨ha, ho⟩
    simp only [ha, ho, if_false, Bool.false_and, Bool.false_eq_true]
  · rintro k ⟨ha, ho, hroom⟩
    have hfree : (rels ord && !k.w.held.isEmpty && !twinRoom k.s k.w.pasid k.ci) = false := by
      rcases hroom with h | h <;> simp [h]
    rw [if_neg ha, hfree, ho]
    rfl
  · intro k h
    rw [if_neg h, writeLanes_scalar]

namespace Machine

/-! ### A walk that finds a line modified (R258) -/

theorem invalidate_snoop (k : Die) (line : Nat) : (k.invalidate line).snoop = k.snoop := by
  have hforeign : (k.foreign line).2.snoop = k.snoop := by
    unfold Die.foreign
    split
    · split <;> rfl
    · rfl
  have hevict : ∀ k : Die, (k.evict line).snoop = k.snoop := fun k => by
    unfold Die.evict
    split
    · rfl
    · dsimp only
      split <;> rfl
  unfold Die.invalidate
  split
  · rfl
  · exact (hevict _).trans hforeign

/-- A change of a die that touches no snoop filter. -/
theorem snoop_modDie {f : Die → Die} (hf : ∀ k, (f k).snoop = k.snoop) (s : State) (d i : Nat) :
    ((s.modDie d f).die i).snoop = (s.die i).snoop := by
  rw [die_modDie]
  split
  · next h => rw [hf, h.1]
  · rfl
theorem recallAll_snoop (s : State) (line i : Nat) : ((recallAll s line).die i).snoop = (s.die i).snoop := by
  unfold recallAll
  dsimp only
  rw [snoop_modDie (by intro; rfl)]
  refine foldl_keeps (g := fun s : State => (s.die i).snoop) (fun s d => ?_) _ s
  split
  · rfl
  · exact snoop_modDie (fun k => invalidate_snoop k line) s d i
theorem sysAck_snoop (s : State) (c line i : Nat) : ((sysAck s c line).die i).snoop = (s.die i).snoop := by
  unfold sysAck
  split
  · rfl
  · unfold dropL1
    dsimp only
    split
    · rfl
    · rw [rmapTrim, snoop_modDie (by intro; rfl)]
      refine foldl_keeps (g := fun s : State => (s.die i).snoop) (fun _ _ => ?_) _ s
      rfl
theorem limitDie_snoop (line : Nat) (s : State) (d i : Nat) : ((limitDie line s d).die i).snoop = (s.die i).snoop := by
  unfold limitDie
  exact snoop_modDie (by intro; rfl) s d i
/-- A write of Bammar's own records nothing in a snoop filter. -/
theorem sysPut_snoop (s : State) (c pa : Nat) (bs : List Byte) (i : Nat) : ((s.sysPut c pa bs).die i).snoop = (s.die i).snoop := by
  unfold State.sysPut
  dsimp only
  rw [foldl_keeps (g := fun s : State => (s.die i).snoop) fun s l => ?_,
    foldl_keeps (g := fun s : State => (s.die i).snoop) (f := State.noteOuter) fun _ _ => rfl]
  · refine foldl_keeps (g := fun s : State => (s.die i).snoop) (fun s l => ?_) _ s
    split
    · exact recallAll_snoop s l i
    · rfl
  · rw [sysAck_snoop, foldl_keeps (g := fun s : State => (s.die i).snoop) fun s d => limitDie_snoop l s d i]
    split
    · exact snoop_modDie (fun k => by split <;> rfl) s _ i
    · refine snoop_modDie (fun k => ?_) s _ i
      split
      · next h => simp only [Die.foreign, h]
                  split <;> rfl
      · rfl

/-! ### The state of the counterexample -/

/-- The core of a lone warp that has no translation yet. -/
def coldCore : Core := { Core.fresh with wgs := [loneWg], warps := Core.fresh.warps.set 0 (some loneWarp) }
/-- The tables of the warp's space begin in `line`, whose first byte is `b`, and which the host may hold modified. -/
def heldSt (tick line : Nat) (b : Byte) : State := { State.reset with
  tick, cur := (0, 0), cores := State.reset.cores.set 0 coldCore, hbm := [(line * 128, b)]
  dies := Vector.ofFn fun d => { Die.fresh d.val with
    roots := [⟨5#20, line * 128, false⟩], snoop := if d.val = homeDie (line * 128) then [(line, true)] else [] } }
/-- A PRF of address 0 in every lane. -/
def prf0 : HintOp := ⟨Ctl.zero, false, .s 1, .s 1, 0#32⟩
/-- The context of the warp of slot 0 at its only word. -/
def coldCtx (s : State) : Ctx :=
  ⟨s, 0, 0, coldCore, loneWarp, some loneWg, ⟨0x100C#64, 0, 0#12, 0xFFFFFFFF#32⟩, 0xFFFFFFFF#32, []⟩

section
variable (tick line : Nat) (b : Byte)

theorem heldSt_core : (heldSt tick line b).core 0 = coldCore := by simp [State.core, heldSt]
theorem heldSt_die {d : Nat} (hd : d < 4) : (heldSt tick line b).die d = { Die.fresh d with
    roots := [⟨5#20, line * 128, false⟩], snoop := if d = homeDie (line * 128) then [(line, true)] else [] } := by
  simp [State.die, heldSt, hd]

theorem ctxOf_heldSt : ctxOf (heldSt tick line b) Ctl.zero = some (coldCtx (heldSt tick line b)) := by
  have hcur : (heldSt tick line b).cur = (0, 0) := rfl
  have hwarp : coldCore.warp? 0 = some loneWarp := rfl
  unfold ctxOf
  simp only [hcur, heldSt_core, hwarp, Nat.zero_lt_succ, if_true]
  rfl

theorem heldSt_ready : Ready (heldSt tick line b) Ctl.zero false false (opdsPrf prf0) (coldCtx (heldSt tick line b)) where
  issuer := ctxOf_heldSt tick line b
  fate := rfl
  free := rfl
  pairs := by simp [wordPairs, opdsPrf, opdPair, prf0, opdBase, opdIndex]
  clean := wordPoison_prf prf0 _ false

theorem snoopNow_heldSt {v : BitVec 1024} (hv : Config.hostDirty tick line = some v) (hh : homeDie (line * 128) < 4) :
    (snoopNow 0 (heldSt tick line b) line).hbm = wrBytes [(line * 128, b)] (line * 128) (leBytes 128 v.toNat)
      ∧ HostQuiet (snoopNow 0 (heldSt tick line b) line) := by
  have hfind : ((heldSt tick line b).die (homeDie (line * 128))).snoop = [(line, true)] := by simp [heldSt_die tick line b hh]
  have hsnoop : snoopNow 0 (heldSt tick line b) line = ((heldSt tick line b).modDie (homeDie (line * 128)) fun k =>
      { k with snoop := k.snoop.filter (·.1 != line), bisnp := k.bisnp.erase line }).sysPut 0 (line * 128) (leBytes 128 v.toNat) := by
    have htick : (heldSt tick line b).tick = tick := rfl
    unfold snoopNow
    simp only [hfind, List.find?_cons, beq_self_eq_true, if_true, State.modDie_tick, htick, hv]
  rw [hsnoop]
  refine ⟨sysPut_hbm _ _ _ _, fun e he _ => ?_⟩
  rw [sysPut_snoop, die_modDie] at he
  split at he
  · simp [hfind] at he
  · next hne =>
    by_cases hd : homeDie (e.1 * 128) < 4
    · have hother : homeDie (e.1 * 128) ≠ homeDie (line * 128) := fun h => hne ⟨h, hh⟩
      simp [heldSt_die tick line b hd, hother] at he
    · simp [State.die, Vector.getElem?_eq_none (Nat.le_of_not_lt hd), Die.fresh] at he

/-- The walk of that state begins at the line that the host holds. -/
theorem snoopWalk_heldSt (hh : homeDie (line * 128) < 4) :
    snoopWalk (heldSt tick line b) 0 5#20 0#64 = walkSnoop 0 0 4 (line * 128) (heldSt tick line b) := by
  have hroots : ((heldSt tick line b).die (dieOfCore 0)).roots = [⟨5#20, line * 128, false⟩] := by
    rw [heldSt_die tick line b (by decide)]
  have hany : ((heldSt tick line b).dies.toList.any fun k => k.snoop.any (·.2)) = true := by
    refine List.any_eq_true.2 ⟨(heldSt tick line b).die (homeDie (line * 128)), ?_, ?_⟩
    · rw [State.die, Vector.getElem?_eq_getElem hh, Option.getD_some]
      exact Vector.mem_toList_iff.2 (Vector.getElem_mem hh)
    · simp [heldSt_die tick line b hh]
  unfold snoopWalk
  simp only [hany, hroots]
  rfl

/-- The first lane's walk brings the host's data into memory, and the other lanes find nothing more to write. -/
theorem prf_heldSt_hbm {v : BitVec 1024} (hv : Config.hostDirty tick line = some v) (hh : homeDie (line * 128) < 4) (l2 : Bool) :
    (prfNext prf0 l2 (coldCtx (heldSt tick line b))).hbm = wrBytes [(line * 128, b)] (line * 128) (leBytes 128 v.toNat) := by
  obtain ⟨hmem, hquiet⟩ := snoopNow_heldSt tick line b hv hh
  have hline : lineOf (line * 128 + 8 * levelIndex 4 0) = line := by simp [lineOf, levelIndex]
  have hwalk : HintKept (snoopNow 0 (heldSt tick line b) line) (snoopWalk (heldSt tick line b) 0 5#20 0#64) := by
    rw [snoopWalk_heldSt tick line b hh]
    have h := walkSnoop_first (c := 0) (va := 0) (lv := 3) (tab := line * 128) (s := heldSt tick line b)
    rw [hline] at h
    exact h hquiet
  have hxlat : HintKept (snoopWalk (heldSt tick line b) 0 5#20 0#64) (translate (heldSt tick line b) 0 5#20 0#64).1 := by
    refine translate_missed ?_ ?_
    · rw [heldSt_core]
      rfl
    · rw [heldSt_die tick line b (by decide)]
      rfl
  have hfirst := (hwalk.trans hxlat).trans
    (prfLane_translated (coldCtx (heldSt tick line b)) l2 (va := 0#64) (by decide) 0 (heldSt tick line b))
  have hlanes : prfLanes prf0 (coldCtx (heldSt tick line b)) = 0 :: List.range' 1 31 := by
    have hclean : loneWarp.sPois = 0#64 := rfl
    have hfull : lanesOf (0xFFFFFFFF#32 &&& ~~~0#32) = 0 :: List.range' 1 31 := by decide
    have hbad : (coldCtx (heldSt tick line b)).badAddr prf0.a prf0.b = 0#32 := by
      simp [Ctx.badAddr, opdPoison, regPoison, prf0, opdBase, opdIndex, coldCtx, hclean]
    rw [prfLanes, hbad]
    exact hfull
  have hall := hfirst.trans (prfLanes_hint (coldCtx (heldSt tick line b)) l2 (fun _ => 0#64) (List.range' 1 31) (hfirst.hostQuiet hquiet))
  have hea : ∀ l, (coldCtx (heldSt tick line b)).ea prf0.a prf0.b prf0.off l = 0#64 := fun _ => rfl
  unfold prfNext
  rw [if_neg (by decide), State.modWarp_hbm, hlanes, ← hmem, ← hall.hbm]
  simp only [hea, List.foldl_cons]
  rfl

end

/-- A byte other than a given one, and not 0, so that a cell of memory may hold it. -/
def otherByte (x : Byte) : Byte := if x = 1#8 then 2#8 else 1#8
theorem otherByte_ne (x : Byte) : otherByte x ≠ x := by
  unfold otherByte
  split
  · next h => rw [h]; decide
  · next h => exact fun e => h e.symm

end Machine

/-- PRF walks the tables of its space, and where the host holds a line of them modified the snoop of the walk writes that line
(R258): a byte of memory changes, though PRF writes none itself. -/
theorem not_fencesAndTickets_of_hostDirty {tick line : Nat} {v : BitVec 1024} (hv : Config.hostDirty tick line = some v)
    (hh : homeDie (line * 128) < 4) : ¬ Obligations.FencesAndTickets := by
  rintro ⟨hruns, -⟩
  have hr := heldSt_ready tick line (otherByte (BitVec.ofNat 8 v.toNat))
  obtain ⟨-, -, -, -, -, -, -, -, -, hprf⟩ :=
    hruns (heldSt tick line (otherByte (BitVec.ofNat 8 v.toNat))) Ctl.zero .warp .rlx 0#7 0#5 0#8 0 prf0 false
  obtain ⟨t, he, ht, -⟩ := hprf _ hr
  have hend : ∀ u : State, (wordEnd u 0 0 Ctl.zero).hbm = u.hbm := fun u => by
    have h := congrArg State.hbm (wordEnd_rest u 0 0 Ctl.zero)
    exact h
  have hsame : (wordEnd t 0 0 Ctl.zero).hbm = (wordEnd (prfNext prf0 false (coldCtx _)) 0 0 Ctl.zero).hbm :=
    congrArg State.hbm (Host.Outcome.next.inj (he.symm.trans (exec_prf_ready hr false)))
  rw [hend, hend, ht, prf_heldSt_hbm tick line _ hv hh] at hsame
  have hbyte := congrArg (fun m => tabGet 0#8 m (line * 128)) hsame
  rw [tabGet_wrBytes_leBytes _ (Nat.le_refl _) (by omega), Nat.sub_self] at hbyte
  refine otherByte_ne (BitVec.ofNat 8 v.toNat) ?_
  simpa [heldSt, tabGet] using hbyte

/-- What O38 comes to: that no walk's snoop ever finds a line of device memory modified by the host. `Config.hostDirty` is opaque, a
choice of the host that the model leaves open (log 2), so nothing decides the right side. -/
theorem fencesAndTickets_iff :
    Obligations.FencesAndTickets ↔ ∀ tick line, homeDie (line * 128) < 4 → Config.hostDirty tick line = none := by
  constructor
  · intro h tick line hh
    cases hv : Config.hostDirty tick line with
    | none => rfl
    | some v => exact absurd h (not_fencesAndTickets_of_hostDirty hv hh)
  · intro h
    refine ⟨fencesThatRun_of_hostQuiet fun s e he _ => ?_, ticketStatus⟩
    by_cases hd : homeDie (e.1 * 128) < 4
    · exact h s.tick e.1 hd
    · simp [State.die, Vector.getElem?_eq_none (Nat.le_of_not_lt hd), Die.fresh] at he

end Sys2Proof
end
